-- ==== Sys2Proof/Word.lean ====
section
/-! DEFINITION. The word types of the machine and their plainest arithmetic.  The spec numbers bits from 0, the least significant
(R4), and stores every multi-byte value little-endian (R5). -/

namespace Sys2Proof

/-- A 64-bit value: a general register, a control register, a packet word. -/
abbrev Word := BitVec 64

/-- An instruction word (R11). -/
abbrev Word32 := BitVec 32

/-- One byte of memory. -/
abbrev Byte := BitVec 8

/-- A vector register or window, 2,048 bits (R111). -/
abbrev VReg := BitVec 2048

/-- A mask register, one bit per byte position of a vector register (R17). -/
abbrev Mask := BitVec 256

/-- The word that holds the natural number `n`, modulo 2^64. -/
abbrev word (n : Nat) : Word := BitVec.ofNat 64 n

/-- Bits `hi` to `lo` of a word, both included, as a number (R4). -/
def bits {w : Nat} (x : BitVec w) (hi lo : Nat) : Nat := (x.toNat >>> lo) % 2 ^ (hi + 1 - lo)

/-- 1 for true, 0 for false, as a word. -/
def boolWord (b : Bool) : Word := if b then 1 else 0

end Sys2Proof
end

