-- ==== Sys2Proof/Syntax.lean ====
section
/-! DEFINITION. The syntax of the Karkomel instruction set and of the part's other steps: one constructor per row of
spec/opcode_table.json.  The first 242 constructors are instruction words (R13 to R36); the last 85 are the table's event rows, steps
that no word names (spec/95_what_each_step_holds.md), whose operands say where the step happens and what the outside supplies. -/

namespace Sys2Proof

/-- A field that names a general register; every value is valid (R15). -/
abbrev Reg := BitVec 5
/-- A field that names a vector register: 0 to 15 v0 to v15, 16 to 23 w0 to w7, 24 to 31 illegal (R16). -/
abbrev VCode := BitVec 5
/-- A field that names a mask k0 to k7 (R17). -/
abbrev MaskReg := BitVec 3
/-- A field that names a landing register l0 to l31 (R28). -/
abbrev Landing := BitVec 5

/-- The element types, in the order of their ty codes (R18). -/
inductive ElemTy where
  | f32 | bf16 | f16 | e4m3 | e5m2 | e2m1 | i32 | i16 | i8 | i4 | n32 | n16 | n8 | n4 | c8 | wf19
deriving DecidableEq, Repr

/-- The scopes that a fence or a barrier may name (R42, R27). -/
inductive Scope where
  | core | quad | die | pkg | pod | rect
deriving DecidableEq, Repr

/-- The scopes that an atomic may name (R26). -/
inductive AmoScope where
  | die | pkg | pod
deriving DecidableEq, Repr

/-- The access widths of a load (R24). -/
inductive LoadW where
  | i8 | n8 | i16 | n16 | i32 | n32 | x64
deriving DecidableEq, Repr

/-- The access widths of a store (R24). -/
inductive StoreW where
  | b8 | b16 | b32 | b64
deriving DecidableEq, Repr

/-- The operations of an atomic or a reduction (R26, R236). -/
inductive AmoOp where
  | add | and | or | xor | min | max | minn | maxn | xchg | cas | faddF32 | faddBf16x2 | fmaxF32
deriving DecidableEq, Repr

/-- The combine types of a barrier (R27, R209). -/
inductive CombTy where
  | n64 | i64 | f32
deriving DecidableEq, Repr

/-- The types of a REDVN (R36, R274). -/
inductive RedvnTy where
  | i64 | f32 | bf16x2
deriving DecidableEq, Repr

/-- The input types of the matrix engine (R33). -/
inductive MtxTy where
  | bf16 | f16 | e4m3 | e5m2 | e2m1 | i8 | c8 | i4
deriving DecidableEq, Repr

/-- The inner lengths K of a matrix command (R33). -/
inductive KLen where
  | k32 | k64 | k128 | k256
deriving DecidableEq, Repr

/-- How a translated access uses memory (R158, R159). -/
inductive Access where
  | read | write | rmw
deriving DecidableEq, Repr

/-- The causes of a security alarm (R413, R414). -/
inductive AlarmCause where
  | firmware | debugToken | tamper | glitch | keyStore
deriving DecidableEq, Repr

/-- What an uncorrectable soft error damages (R395, R177). -/
inductive DamageSite where
  | lm (core addr : Nat) | landing (core li : Nat) | window (core w : Nat)
  /-- A register of a thread or of its spilled context: 0 to 31 general, 32 to 47 vector, 48 to 55 mask, 56 to 59
  gs0 to gs3, and 64 + c control register c. -/
  | thread (core tid reg : Nat)
  | llc (die tn va : Nat) | dram (pa : Nat) | matrixBuffer (core : Nat) | copyBuffer (core : Nat)
deriving DecidableEq, Repr

/-- A guest write-back of another package at its home here (R214, R218): the line's physical address and key index, byte mask and data. -/
structure FarLine where
  (pa key : Nat)
  mask : Mask
  data : VReg
deriving DecidableEq, Repr

/-- An atomic of pod scope of another package that executes at a home here (R230, R232): its tenancy and VA, and the physical address and key
index that its caller's slice has found. -/
structure FarAtomic where
  op : AmoOp
  w  : Bool
  (tn va pa key : Nat)
  x  : Word
  expected : Word
deriving DecidableEq, Repr

/-- What an executing slice performs (R233): a posted reduction by its position, or an atomic of another package. -/
inductive AtomicWork where
  | posted (n : Nat) | far (x : FarAtomic)
deriving DecidableEq, Repr

/-- Whose dirty bytes of a guest line go home (R214): a die's, or another package's. -/
inductive GuestSource where
  | die (d : Nat) | far (l : FarLine)
deriving DecidableEq, Repr

/-- A read by the host or hub firmware at an offset of a range (R338, R398, R399); the control range is read by PCIe link 0 or 1, or by a firmware
core, numbered from 2. -/
inductive HostRead where
  | aperture (off : Nat) | control (reader off : Nat) | launch (off : Nat)
deriving DecidableEq, Repr

/-- One constructor per row of the opcode table. -/
inductive Instr where
  /-- ADD (R67): Writes g[ra] + g[rb] modulo 2^64 to g[rd]. -/
  | add (d a b : Reg)
  /-- SUB (R67): Writes g[ra] - g[rb] modulo 2^64 to g[rd]. -/
  | sub (d a b : Reg)
  /-- AND (R67): Writes the bitwise AND of g[ra] and g[rb]. -/
  | and (d a b : Reg)
  /-- OR (R67): Writes the bitwise OR of g[ra] and g[rb]. -/
  | or (d a b : Reg)
  /-- XOR (R67): Writes the bitwise XOR of g[ra] and g[rb]. -/
  | xor (d a b : Reg)
  /-- ANDN (R67): Writes g[ra] AND NOT g[rb]. -/
  | andn (d a b : Reg)
  /-- ORN (R67): Writes g[ra] OR NOT g[rb]. -/
  | orn (d a b : Reg)
  /-- SHL (R67): Shifts g[ra] left by g[rb][5:0]. -/
  | shl (d a b : Reg)
  /-- SHR (R67): Shifts g[ra] right by g[rb][5:0] with zero fill. -/
  | shr (d a b : Reg)
  /-- SRA (R67): Shifts g[ra] right by g[rb][5:0] with sign fill. -/
  | sra (d a b : Reg)
  /-- ROL (R67): Rotates g[ra] left by g[rb][5:0]. -/
  | rol (d a b : Reg)
  /-- SLT (R67): Writes 1 if g[ra] is less than g[rb] as signed values, else 0. -/
  | slt (d a b : Reg)
  /-- SLTN (R67): Writes 1 if g[ra] is less than g[rb] as unsigned values, else 0. -/
  | sltn (d a b : Reg)
  /-- SEQ (R67): Writes 1 if g[ra] equals g[rb], else 0. -/
  | seq (d a b : Reg)
  /-- MIN (R67): Writes the signed lesser of g[ra] and g[rb]. -/
  | min (d a b : Reg)
  /-- MAX (R67): Writes the signed greater of g[ra] and g[rb]. -/
  | max (d a b : Reg)
  /-- MINN (R67): Writes the unsigned lesser of g[ra] and g[rb]. -/
  | minn (d a b : Reg)
  /-- MAXN (R67): Writes the unsigned greater of g[ra] and g[rb]. -/
  | maxn (d a b : Reg)
  /-- MUL (R67): Writes the low 64 bits of g[ra] times g[rb]. -/
  | mul (d a b : Reg)
  /-- MULH (R67): Writes the high 64 bits of the signed 128-bit product. -/
  | mulh (d a b : Reg)
  /-- MULHN (R67): Writes the high 64 bits of the unsigned 128-bit product. -/
  | mulhn (d a b : Reg)
  /-- DIV (R68): Writes the signed quotient truncated toward zero, with fixed results for division by zero and overflow. -/
  | div (d a b : Reg)
  /-- DIVN (R68): Writes the unsigned quotient, with a fixed result for division by zero. -/
  | divn (d a b : Reg)
  /-- REM (R68): Writes the signed remainder, which takes the sign of the dividend. -/
  | rem (d a b : Reg)
  /-- REMN (R68): Writes the unsigned remainder. -/
  | remn (d a b : Reg)
  /-- MAD (R67): Writes g[rd] + g[ra] times g[rb] modulo 2^64. -/
  | mad (d a b : Reg)
  /-- CLZ (R67): Counts the leading zero bits of g[ra]. -/
  | clz (d a : Reg)
  /-- CTZ (R67): Counts the trailing zero bits of g[ra]. -/
  | ctz (d a : Reg)
  /-- POP (R67): Counts the one bits of g[ra]. -/
  | pop (d a : Reg)
  /-- BSWAP (R67): Reverses the byte order of g[ra]. -/
  | bswap (d a : Reg)
  /-- SEXT_B (R67): Sign-extends g[ra][7:0]. -/
  | sextB (d a : Reg)
  /-- SEXT_H (R67): Sign-extends g[ra][15:0]. -/
  | sextH (d a : Reg)
  /-- SEXT_W (R67): Sign-extends g[ra][31:0]. -/
  | sextW (d a : Reg)
  /-- ZEXT_B (R67): Zero-extends g[ra][7:0]. -/
  | zextB (d a : Reg)
  /-- ZEXT_H (R67): Zero-extends g[ra][15:0]. -/
  | zextH (d a : Reg)
  /-- ZEXT_W (R67): Zero-extends g[ra][31:0]. -/
  | zextW (d a : Reg)
  /-- BEXT (R69): Extracts a bit field of g[ra] whose position and length are given by g[rb]. -/
  | bext (d a b : Reg)
  /-- FSHR (R67): Funnel-shifts the pair g[ra]:g[rd] right and keeps the low 64 bits. -/
  | fshr (d a b : Reg)
  /-- FSHL (R67): Funnel-shifts the pair g[rd]:g[ra] left and keeps the high 64 bits. -/
  | fshl (d a b : Reg)
  /-- ADDI (R70): Writes g[ra] plus the sign-extended immediate. -/
  | addi (d a : Reg) (i : BitVec 16)
  /-- ANDI (R70): Writes g[ra] AND the zero-extended immediate. -/
  | andi (d a : Reg) (i : BitVec 16)
  /-- ORI (R70): Writes g[ra] OR the zero-extended immediate. -/
  | ori (d a : Reg) (i : BitVec 16)
  /-- XORI (R70): Writes g[ra] XOR the zero-extended immediate. -/
  | xori (d a : Reg) (i : BitVec 16)
  /-- SLTI (R70): Writes 1 if g[ra] is less than the sign-extended immediate as signed values, else 0. -/
  | slti (d a : Reg) (i : BitVec 16)
  /-- SHLI (R70): Shifts g[ra] left by an immediate amount. -/
  | shli (d a : Reg) (n : BitVec 6)
  /-- SHRI (R70): Shifts g[ra] right by an immediate amount with zero fill. -/
  | shri (d a : Reg) (n : BitVec 6)
  /-- SRAI (R70): Shifts g[ra] right by an immediate amount with sign fill. -/
  | srai (d a : Reg) (n : BitVec 6)
  /-- ROLI (R70): Rotates g[ra] left by an immediate amount. -/
  | roli (d a : Reg) (n : BitVec 6)
  /-- SHLORI (R70): Shifts g[ra] left by 16 and ORs in the immediate. -/
  | shlori (d a : Reg) (i : BitVec 16)
  /-- LIH (R70): Writes the sign-extended imm21 shifted left by 16. -/
  | lih (d : Reg) (i : BitVec 21)
  /-- BEXTI (R71): Extracts an immediate bit field of g[ra] and zero-extends it. -/
  | bexti (d a : Reg) (l p : BitVec 6)
  /-- BEXTSI (R71): Extracts an immediate bit field of g[ra] and sign-extends it. -/
  | bextsi (d a : Reg) (l p : BitVec 6)
  /-- BINSI (R71): Inserts the low bits of g[ra] into a bit field of g[rd]. -/
  | binsi (d a : Reg) (l p : BitVec 6)
  /-- FSHLI (R71): Funnel-shifts g[rd]:g[ra] left by an immediate amount. -/
  | fshli (d a : Reg) (n : BitVec 6)
  /-- FSHRI (R71): Funnel-shifts g[ra]:g[rd] right by an immediate amount. -/
  | fshri (d a : Reg) (n : BitVec 6)
  /-- BEQ (R72): Branches if g[ra] equals g[rb]. -/
  | beq (a b : Reg) (o : BitVec 16)
  /-- BNE (R72): Branches if g[ra] differs from g[rb]. -/
  | bne (a b : Reg) (o : BitVec 16)
  /-- BLT (R72): Branches if g[ra] is less than g[rb] as signed values. -/
  | blt (a b : Reg) (o : BitVec 16)
  /-- BGE (R72): Branches if g[ra] is at least g[rb] as signed values. -/
  | bge (a b : Reg) (o : BitVec 16)
  /-- BLTN (R72): Branches if g[ra] is less than g[rb] as unsigned values. -/
  | bltn (a b : Reg) (o : BitVec 16)
  /-- BGEN (R72): Branches if g[ra] is at least g[rb] as unsigned values. -/
  | bgen (a b : Reg) (o : BitVec 16)
  /-- DBNZ (R73): Decrements g[ra] and branches while the result is nonzero. -/
  | dbnz (a : Reg) (o : BitVec 16)
  /-- JAL (R74): Jumps pc-relative and writes the return address to g[rd]. -/
  | jal (d : Reg) (o : BitVec 21)
  /-- JALR (R74): Jumps to g[ra] plus an offset and writes the return address to g[rd]. -/
  | jalr (d a : Reg) (i : BitVec 16)
  /-- LD (R185): Loads from global memory through the L1, parking on a miss. -/
  | ld (w : LoadW) (d a : Reg) (p : BitVec 13)
  /-- ST (R185): Stores to global memory through the L1 after obtaining ownership. -/
  | st (w : StoreW) (s a : Reg) (p : BitVec 13)
  /-- LDL (R145): Loads from the core's local memory with fixed latency. -/
  | ldl (w : LoadW) (d a : Reg) (p : BitVec 13)
  /-- STL (R145): Stores to the core's local memory with fixed latency. -/
  | stl (w : StoreW) (s a : Reg) (p : BitVec 13)
  /-- LDX (R186): Loads from global memory at g[ra] + g[rb]. -/
  | ldx (w : LoadW) (d a b : Reg)
  /-- STX (R186): Stores to global memory at g[ra] + g[rb]. -/
  | stx (w : StoreW) (s a b : Reg)
  /-- PFG (R187): Prefetches a sector into the L1 in state S without parking or trapping. -/
  | pfg (a : Reg)
  /-- CWB (R188): Writes the dirty data of a range back to DRAM on the caller's die. -/
  | cwb (a b : Reg)
  /-- CINV (R188): Writes a range back and drops every copy of it on the caller's die. -/
  | cinv (a b : Reg)
  /-- CDISC (R190): Drops every copy of a range on the die without writing it back. -/
  | cdisc (a b : Reg)
  /-- AMO (R235): Performs a value-returning atomic at the executing slice of its scope. -/
  | amo (op : AmoOp) (w : Bool) (sc : AmoScope) (d a b : Reg)
  /-- RED (R238): Posts a reduction to the executing slice of its scope without returning a value. -/
  | red (op : AmoOp) (w : Bool) (sc : AmoScope) (a b : Reg)
  /-- FENCE_ACQ (R204): Acquires at its scope, advancing guest epochs at package and pod scope. -/
  | fenceAcq (sc : Scope) (b : Reg)
  /-- FENCE_REL (R204): Drains the thread's REDs and in-scope remote writes and releases at its scope. -/
  | fenceRel (sc : Scope) (b : Reg)
  /-- FENCE_AR (R204): Performs a release and then an acquire at its scope. -/
  | fenceAr (sc : Scope) (b : Reg)
  /-- BAR (R208): Releases, arrives at a barrier instance and parks until it releases. -/
  | bar (sc : Scope) (b : Reg)
  /-- BARMAX (R208): Barrier that returns the greatest contribution. -/
  | barmax (t : CombTy) (sc : Scope) (d a b : Reg)
  /-- BARSUM (R208): Barrier that returns the sum of the contributions. -/
  | barsum (t : CombTy) (sc : Scope) (d a b : Reg)
  /-- BARMIN (R208): Barrier that returns the least contribution. -/
  | barmin (t : CombTy) (sc : Scope) (d a b : Reg)
  /-- WAITGE (R212): Parks until an LM counter word reaches g[rd], then returns it and acquires at package scope. -/
  | waitge (d a : Reg)
  /-- PUTL (R246): Fills a landing register of the core, parking while it is full. -/
  | putl (li : Landing) (c : Reg)
  /-- RPUT (R246): Sends a posted remote write of a value to a landing register of another core. -/
  | rput (li : Landing) (c a : Reg)
  /-- TAKE (R246): Empties a landing register into g[rc], parking while it is empty. -/
  | take (c : Reg) (li : Landing)
  /-- PEEK (R246): Reads a landing register's data without changing its state. -/
  | peek (c : Reg) (li : Landing)
  /-- TESTL (R246): Reads a landing register's presence bit. -/
  | testl (c : Reg) (li : Landing)
  /-- CLRL (R246): Empties a landing register and keeps its data. -/
  | clrl (li : Landing)
  /-- RPUTM (R249): Sends a posted 8-byte remote store to another core's LM. -/
  | rputm (a b : Reg)
  /-- RPUTMV (R249): Sends a posted 256-byte remote store of a vector register to another core's LM. -/
  | rputmv (a : Reg) (v : VCode)
  /-- MSND (R254): Sends a user message to a thread of a core. -/
  | msnd (a b : Reg)
  /-- MRCV (R257): Pops the oldest message addressed to the thread, or returns zero. -/
  | mrcv (d : Reg)
  /-- WAITM (R257): Parks until a message, optionally matching a selector, is queued for the thread. -/
  | waitm (a : Reg)
  /-- MSNDN (R254): Sends a named message addressed to a task. -/
  | msndn (a b : Reg)
  /-- MRCVN (R257): Pops the oldest message that matches a selector. -/
  | mrcvn (d a : Reg)
  /-- EVON (R262): Enables user events. -/
  | evon
  /-- EVOFF (R262): Disables user events. -/
  | evoff
  /-- EVRET (R262): Leaves an event handler and resumes at evpc. -/
  | evret
  /-- YIELD (R54): Gives up at least 15 issue slots to the other threads. -/
  | yield
  /-- PARK (R55): Consumes the wake bit, or parks until it is set. -/
  | park
  /-- WAKE (R57): Sets the wake bit of a named thread, locally or by remote write. -/
  | wake (a : Reg)
  /-- DQPUSH (R357): Pushes a task record from LM onto the owner end of the core's deque. -/
  | dqpush (d a : Reg)
  /-- DQPOP (R357): Removes the launch's record nearest the owner end into LM. -/
  | dqpop (d a : Reg)
  /-- DQSPLIT (R358): Splits the owner-end record and places its upper half at the far end. -/
  | dqsplit (d : Reg)
  /-- DQSTEAL (R359): Steals from a named victim core through the steal network. -/
  | dqsteal (d a : Reg)
  /-- TSEND (R360): Sends a task record to another core's deque as a remote write. -/
  | tsend (a b : Reg)
  /-- TRET (R355): Drains the thread's REDs and remote writes, then retires the task. -/
  | tret
  /-- DQNEXT (R356): Drains, then moves the thread to a further task without leaving its code. -/
  | dqnext (d : Reg)
  /-- LAUNCH (R361): Releases at package scope and submits an LM packet to a queue. -/
  | launch (d a b : Reg)
  /-- CSRR (R66): Reads a control register. -/
  | csrr (d : Reg) (c : BitVec 12)
  /-- CSRW (R66): Writes a control register and returns its old value. -/
  | csrw (d a : Reg) (c : BitVec 12)
  /-- CSRS (R66): Sets bits of a control register and returns its old value. -/
  | csrs (d a : Reg) (c : BitVec 12)
  /-- CSRC (R66): Clears bits of a control register and returns its old value. -/
  | csrc (d a : Reg) (c : BitVec 12)
  /-- TRAP (R75): Raises a software trap with its code in trapval. -/
  | trap (c : BitVec 5)
  /-- BRK (R75): Raises a breakpoint trap, or stops the thread under debug. -/
  | brk
  /-- IFENCE (R76): Discards the thread's prefetched instruction words. -/
  | ifence
  /-- ERET (R77): At system level, clears the trap active bit and returns to trappc. -/
  | eret
  /-- HALT (R77): At system level, stops the thread and reports the stop to the hub. -/
  | halt
  /-- FADD (R105): Adds two scalar floating-point values, rounded under arnd. -/
  | fadd (t : ElemTy) (d a b : Reg)
  /-- FSUB (R105): Subtracts two scalar floating-point values. -/
  | fsub (t : ElemTy) (d a b : Reg)
  /-- FMUL (R105): Multiplies two scalar floating-point values. -/
  | fmul (t : ElemTy) (d a b : Reg)
  /-- FFMA (R105): Computes g[rd] + g[ra] times g[rb], rounded once. -/
  | ffma (t : ElemTy) (d a b : Reg)
  /-- FMIN (R106): Returns the lesser floating-point input. -/
  | fmin (t : ElemTy) (d a b : Reg)
  /-- FMAX (R106): Returns the greater floating-point input. -/
  | fmax (t : ElemTy) (d a b : Reg)
  /-- FABS (R107): Clears the sign bit of the operand. -/
  | fabs (t : ElemTy) (d a : Reg)
  /-- FNEG (R107): Inverts the sign bit of the operand. -/
  | fneg (t : ElemTy) (d a : Reg)
  /-- FEQ (R108): Writes 1 if the floating-point operands are equal. -/
  | feq (t : ElemTy) (d a b : Reg)
  /-- FLT (R108): Writes 1 if the first floating-point operand is less than the second. -/
  | flt (t : ElemTy) (d a b : Reg)
  /-- FLE (R108): Writes 1 if the first floating-point operand is at most the second. -/
  | fle (t : ElemTy) (d a b : Reg)
  /-- FCVT (R110): Converts a scalar between floating and integer types under crnd. -/
  | fcvt (t s : ElemTy) (d a : Reg)
  /-- FDIV (R105): Divides two scalar floating-point values. -/
  | fdiv (t : ElemTy) (d a b : Reg)
  /-- FSQRT (R105): Takes the square root of a scalar floating-point value. -/
  | fsqrt (t : ElemTy) (d a : Reg)
  /-- FCLASS (R109): Writes a class word describing the operand. -/
  | fclass (t : ElemTy) (d a : Reg)
  /-- VADD (R120): Adds vector elements. -/
  | vadd (t : ElemTy) (d a b : VCode) (k : MaskReg)
  /-- VSUB (R120): Subtracts vector elements. -/
  | vsub (t : ElemTy) (d a b : VCode) (k : MaskReg)
  /-- VMUL (R120): Multiplies vector elements. -/
  | vmul (t : ElemTy) (d a b : VCode) (k : MaskReg)
  /-- VFMA (R120): Computes d + a times b per element, rounded once. -/
  | vfma (t : ElemTy) (d a b : VCode) (k : MaskReg)
  /-- VFMS (R120): Computes d - a times b per element, rounded once. -/
  | vfms (t : ElemTy) (d a b : VCode) (k : MaskReg)
  /-- VMIN (R120): Takes the lesser element per lane. -/
  | vmin (t : ElemTy) (d a b : VCode) (k : MaskReg)
  /-- VMAX (R120): Takes the greater element per lane. -/
  | vmax (t : ElemTy) (d a b : VCode) (k : MaskReg)
  /-- VABS (R120): Takes the absolute value per element, saturating for signed minimums. -/
  | vabs (t : ElemTy) (d a : VCode) (k : MaskReg)
  /-- VNEG (R120): Negates each element, saturating for signed minimums. -/
  | vneg (t : ElemTy) (d a : VCode) (k : MaskReg)
  /-- VDOT4 (R121): Accumulates four 8-bit products into each 32-bit element. -/
  | vdot4 (t : ElemTy) (d a b : VCode) (k : MaskReg)
  /-- VMULH (R120): Writes the high half of each element product. -/
  | vmulh (t : ElemTy) (d a b : VCode) (k : MaskReg)
  /-- VAND (R122): ANDs vector elements. -/
  | vand (t : ElemTy) (d a b : VCode) (k : MaskReg)
  /-- VOR (R122): ORs vector elements. -/
  | vor (t : ElemTy) (d a b : VCode) (k : MaskReg)
  /-- VXOR (R122): XORs vector elements. -/
  | vxor (t : ElemTy) (d a b : VCode) (k : MaskReg)
  /-- VNOT (R122): Inverts vector elements. -/
  | vnot (t : ElemTy) (d a : VCode) (k : MaskReg)
  /-- VSHL (R122): Shifts each element left by the other element modulo its width. -/
  | vshl (t : ElemTy) (d a b : VCode) (k : MaskReg)
  /-- VSHR (R122): Shifts each element right with zero fill. -/
  | vshr (t : ElemTy) (d a b : VCode) (k : MaskReg)
  /-- VSRA (R122): Shifts each element right with sign fill. -/
  | vsra (t : ElemTy) (d a b : VCode) (k : MaskReg)
  /-- VPOPC (R122): Counts the one bits of each element. -/
  | vpopc (t : ElemTy) (d a : VCode) (k : MaskReg)
  /-- VCMPEQ (R123): Writes an equality compare of elements into a mask. -/
  | vcmpeq (t : ElemTy) (d : MaskReg) (a b : VCode) (k : MaskReg)
  /-- VCMPNE (R123): Writes an inequality compare of elements into a mask. -/
  | vcmpne (t : ElemTy) (d : MaskReg) (a b : VCode) (k : MaskReg)
  /-- VCMPLT (R123): Writes a less-than compare of elements into a mask. -/
  | vcmplt (t : ElemTy) (d : MaskReg) (a b : VCode) (k : MaskReg)
  /-- VCMPLE (R123): Writes a less-or-equal compare of elements into a mask. -/
  | vcmple (t : ElemTy) (d : MaskReg) (a b : VCode) (k : MaskReg)
  /-- VSEL (R124): Selects each element from va or vb by a mask. -/
  | vsel (t : ElemTy) (d a b : VCode) (k : MaskReg)
  /-- KAND (R125): ANDs two masks. -/
  | kand (d a b : MaskReg)
  /-- KOR (R125): ORs two masks. -/
  | kor (d a b : MaskReg)
  /-- KXOR (R125): XORs two masks. -/
  | kxor (d a b : MaskReg)
  /-- KNOT (R125): Inverts a mask. -/
  | knot (d a : MaskReg)
  /-- VCVT (R126): Converts vector elements between types. -/
  | vcvt (t s : ElemTy) (d a : VCode) (k : MaskReg)
  /-- VDEC (R127): Decodes c8 codes through the core's decode table into f32. -/
  | vdec (d a : VCode) (k : MaskReg)
  /-- VENC (R127): Encodes values to c8 codes by nearest decode-table entry. -/
  | venc (t : ElemTy) (d a : VCode) (k : MaskReg)
  /-- VDTLD (R128): Loads and checks the core's decode table from LM. -/
  | vdtld (a : Reg)
  /-- VQNT (R129): Quantises f32 elements to an sb32 element type with block scales. -/
  | vqnt (t : ElemTy) (d a b : VCode) (k : MaskReg)
  /-- VDQNT (R129): Dequantises sb32 elements to f32 with block scales. -/
  | vdqnt (t : ElemTy) (d a b : VCode) (k : MaskReg)
  /-- VEXP2 (R130): Computes 2^x per f32 element. -/
  | vexp2 (d a : VCode) (k : MaskReg)
  /-- VLOG2 (R130): Computes log2 x per f32 element. -/
  | vlog2 (d a : VCode) (k : MaskReg)
  /-- VRCP (R130): Computes 1/x per f32 element. -/
  | vrcp (d a : VCode) (k : MaskReg)
  /-- VRSQ (R130): Computes 1/sqrt(x) per f32 element. -/
  | vrsq (d a : VCode) (k : MaskReg)
  /-- VTANH (R130): Computes tanh x per f32 element. -/
  | vtanh (d a : VCode) (k : MaskReg)
  /-- VSIGM (R130): Computes the logistic sigmoid per f32 element. -/
  | vsigm (d a : VCode) (k : MaskReg)
  /-- VPERM (R131): Permutes elements by an index vector. -/
  | vperm (t : ElemTy) (d a b : VCode) (k : MaskReg)
  /-- VSLIDE (R131): Slides elements by a signed scalar amount. -/
  | vslide (t : ElemTy) (d a : VCode) (b : Reg) (k : MaskReg)
  /-- VBCAST (R131): Broadcasts one element selected by a scalar index. -/
  | vbcast (t : ElemTy) (d a : VCode) (b : Reg) (k : MaskReg)
  /-- VREDSUM (R132): Sums active elements by a fixed pairwise tree. -/
  | vredsum (t : ElemTy) (d a : VCode) (k : MaskReg)
  /-- VREDMAX (R132): Takes the maximum of active elements by a fixed tree. -/
  | vredmax (t : ElemTy) (d a : VCode) (k : MaskReg)
  /-- VREDMIN (R132): Takes the minimum of active elements by a fixed tree. -/
  | vredmin (t : ElemTy) (d a : VCode) (k : MaskReg)
  /-- VSCAN (R133): Writes inclusive prefix sums in log2(n) steps. -/
  | vscan (t : ElemTy) (d a : VCode) (k : MaskReg)
  /-- VAMAXB (R134): Writes the absolute maximum of each 32-element block as f32. -/
  | vamaxb (t : ElemTy) (d a : VCode) (k : MaskReg)
  /-- VLDL (R146): Loads 256 bytes of local memory into a vector register. -/
  | vldl (d : VCode) (a : Reg) (p : BitVec 5) (k : MaskReg)
  /-- VSTL (R146): Stores a vector register to 256 bytes of local memory. -/
  | vstl (d : VCode) (a : Reg) (p : BitVec 5) (k : MaskReg)
  /-- VLD (R191): Loads 256 bytes of global memory through the L1. -/
  | vld (d : VCode) (a : Reg) (p : BitVec 5) (k : MaskReg)
  /-- VST (R191): Stores 256 bytes to global memory through the L1. -/
  | vst (d : VCode) (a : Reg) (p : BitVec 5) (k : MaskReg)
  /-- VLDS (R192): Loads strided global elements through the L1. -/
  | vlds (t : ElemTy) (d : VCode) (a b : Reg) (k : MaskReg)
  /-- VSTS (R192): Stores strided global elements through the L1. -/
  | vsts (t : ElemTy) (d : VCode) (a b : Reg) (k : MaskReg)
  /-- VGTH (R193): Gathers global elements as word requests to their slices. -/
  | vgth (t : ElemTy) (d : VCode) (a : Reg) (b : VCode) (k : MaskReg)
  /-- VSCT (R193): Scatters elements to global memory as word requests to their slices. -/
  | vsct (t : ElemTy) (d : VCode) (a : Reg) (b : VCode) (k : MaskReg)
  /-- VGTHL (R147): Gathers elements from local memory. -/
  | vgthl (t : ElemTy) (d : VCode) (a : Reg) (b : VCode) (k : MaskReg)
  /-- VSCTL (R147): Scatters elements into local memory. -/
  | vsctl (t : ElemTy) (d : VCode) (a : Reg) (b : VCode) (k : MaskReg)
  /-- VSADD (R120): Adds a scalar to each element. -/
  | vsadd (t : ElemTy) (d a : VCode) (b : Reg) (k : MaskReg)
  /-- VSSUB (R120): Subtracts a scalar from each element. -/
  | vssub (t : ElemTy) (d a : VCode) (b : Reg) (k : MaskReg)
  /-- VSMUL (R120): Multiplies each element by a scalar. -/
  | vsmul (t : ElemTy) (d a : VCode) (b : Reg) (k : MaskReg)
  /-- VSFMA (R120): Computes d + a times scalar per element, rounded once. -/
  | vsfma (t : ElemTy) (d a : VCode) (b : Reg) (k : MaskReg)
  /-- VSMIN (R120): Takes the lesser of each element and a scalar. -/
  | vsmin (t : ElemTy) (d a : VCode) (b : Reg) (k : MaskReg)
  /-- VSMAX (R120): Takes the greater of each element and a scalar. -/
  | vsmax (t : ElemTy) (d a : VCode) (b : Reg) (k : MaskReg)
  /-- VSSHL (R120): Shifts each element left by a scalar amount. -/
  | vsshl (t : ElemTy) (d a : VCode) (b : Reg) (k : MaskReg)
  /-- VSPLAT (R135): Writes a scalar into every active element. -/
  | vsplat (t : ElemTy) (d : VCode) (a : Reg) (k : MaskReg)
  /-- VINS (R135): Inserts a scalar at an indexed element. -/
  | vins (t : ElemTy) (d : VCode) (a b : Reg)
  /-- VEXT (R135): Extracts an indexed element into a general register. -/
  | vext (t : ElemTy) (d : Reg) (a : VCode) (b : Reg)
  /-- VIOTA (R135): Writes each active element's index. -/
  | viota (t : ElemTy) (d : VCode) (k : MaskReg)
  /-- KTOG (R135): Copies one mask bit per element into a general register. -/
  | ktog (t : ElemTy) (d : Reg) (a : MaskReg)
  /-- GTOK (R135): Builds a mask from the bits of a general register. -/
  | gtok (t : ElemTy) (d : MaskReg) (a : Reg)
  /-- KPOP (R135): Counts the elements whose mask bit is set. -/
  | kpop (t : ElemTy) (d : Reg) (a : MaskReg)
  /-- VMOV (R135): Copies active elements. -/
  | vmov (t : ElemTy) (d a : VCode) (k : MaskReg)
  /-- MMA (R299): Hands a matrix multiply over global operands to the engine and parks on it. -/
  | mma (t : MtxTy) (kl : KLen) (n : BitVec 2) (d a b : Reg)
  /-- MMAL (R299): Hands a matrix multiply over LM operands to the engine and parks on it. -/
  | mmal (t : MtxTy) (kl : KLen) (n : BitVec 2) (d a b : Reg)
  /-- MMR (R302): Hands a block-rotation multiply over the launch's square rectangle to the engine. -/
  | mmr (t : MtxTy) (kl : KLen) (n : BitVec 2) (d a b : Reg)
  /-- MWAIT (R305): Parks until no queued or running command names a bank in the mask. -/
  | mwait (a : Reg)
  /-- MSTAT (R306): Returns a snapshot of the matrix engine. -/
  | mstat (d : Reg)
  /-- ACCZ (R307): Zeroes an accumulator bank. -/
  | accz (n : BitVec 2)
  /-- ACCST (R307): Moves and converts two bank rows into a vector register. -/
  | accst (t : ElemTy) (n : BitVec 2) (c : VCode) (a : Reg)
  /-- ACCLD (R307): Loads two bank rows from a vector register. -/
  | accld (t : ElemTy) (n : BitVec 2) (c : VCode) (a : Reg)
  /-- ACCSTG (R308): Stores a converted bank to global memory row by row. -/
  | accstg (t : ElemTy) (n : BitVec 2) (a b : Reg)
  /-- XLD (R321): Hands a global-to-LM copy with load stages to the copy engine. -/
  | xld (a b c : Reg)
  /-- XST (R322): Hands an LM-to-global copy with store stages to the copy engine. -/
  | xst (a b c : Reg)
  /-- XPUT (R322): Hands a one-sided put into another package's window to the copy engine. -/
  | xput (a b c : Reg)
  /-- XAXB (R326): Hands an in-place alpha x plus beta y update of a global vector to the copy engine. -/
  | xaxb (a b c : Reg)
  /-- XFILL (R331): Hands a pattern fill of a global range to the copy engine. -/
  | xfill (a c : Reg)
  /-- XSTAT (R332): Writes the copy engine's status into four registers. -/
  | xstat (a : Reg)
  /-- XCAN (R333): Marks matching copy commands cancelled. -/
  | xcan (a : Reg)
  /-- XLM (R321): Hands an LM-to-remote-LM copy with load stages to the copy engine. -/
  | xlm (a b c : Reg)
  /-- ATBIND (R284): Reads and checks an antler header and binds it to a handle, or unbinds it. -/
  | atbind (h : BitVec 3) (a : Reg)
  /-- ATDIG (R285): Writes the mixed-radix digits of an index. -/
  | atdig (h : BitVec 3) (c : VCode) (a : Reg)
  /-- ATLD (R286): Loads up to 64 columns of an antler row from a version. -/
  | atld (h : BitVec 3) (c : VCode) (a b : Reg)
  /-- ATSG (R287): Scatters gradients of a row into the next version of the tines. -/
  | atsg (h : BitVec 3) (c : VCode) (a b : Reg)
  /-- ATINFO (R288): Writes a handle's captured header into a vector register. -/
  | atinfo (h : BitVec 3) (c : VCode)
  /-- LDVN (R273): Loads 8 bytes of a named or newest version, parking until it is sealed. -/
  | ldvn (d a b : Reg)
  /-- REDVN (R274): Posts an add into an open version at the home slice. -/
  | redvn (t : RedvnTy) (s a b : Reg)
  /-- STVN (R274): Stores 8 bytes into an open version. -/
  | stvn (s a b : Reg)
  /-- VNOPEN (R275): Opens the next version of a region with a contributor count. -/
  | vnopen (a b : Reg)
  /-- VNSEAL (R276): Drains, releases and sends one contribution toward sealing a version. -/
  | vnseal (a b : Reg)
  /-- VNRECL (R277): Reclaims the oldest version, copying forward inherited lines. -/
  | vnrecl (a b : Reg)
  /-- VNSTAT (R278): Returns the state of a version. -/
  | vnstat (d a b : Reg)
  /-- RRBEG (R378): Allocates or joins a recording region and arrives at its next opening. -/
  | rrbeg (a b : Reg)
  /-- RREND (R379): Fires entries, arrives at the close of the open iteration and parks. -/
  | rrend (b : Reg)
  /-- RREC (R380): Rearms a region so that its next iteration records. -/
  | rrec (b : Reg)
  /-- RROFF (R380): Frees a closed recording region. -/
  | rroff (b : Reg)
  /-- RRSTAT (R381): Reads one counter of a recording region. -/
  | rrstat (d a b : Reg)
  -- event rows: steps of the part that no instruction word names
  /-- ILLEGAL_INSTRUCTION (R39): A word that decode refuses raises a precise illegal-instruction trap. -/
  | illegalInstruction
  /-- WAIT_EXPIRED (R250): A governed wait reaching waitlim abandons the parked instruction and traps. -/
  | waitExpired (core tid : Nat)
  /-- EVENT_ENTRY (R261): A pending user event diverts the thread to its handler at a slot or during a park. -/
  | eventEntry (core tid : Nat)
  /-- TASK_DISPATCH (R348): The dispatcher places a task of the highest-priority dispatchable launch on a Free thread. -/
  | taskDispatch (core : Nat)
  /-- TASK_STEAL (R349): The steal network moves half of a victim's record to an idle thief core. -/
  | taskSteal (core lnum : Nat)
  /-- CONTEXT_SPILL (R387): A long-parked spillable context is written to its save area and its thread is lent. -/
  | contextSpill (core tid : Nat)
  /-- CONTEXT_RESTORE (R53): A restorable spilled or swapped context is reloaded onto its Free thread. -/
  | contextRestore (core tid : Nat)
  /-- GLOBAL_REPLY (R172): A reply or grant reaches the L1 and the parked access is performed whole. -/
  | globalReply (core tid : Nat)
  /-- SLICE_READ_REQUEST (R173): The slice serves a sector read request under its directory. -/
  | sliceReadRequest (core tn va : Nat)
  /-- SLICE_OWNERSHIP_REQUEST (R173): The slice serves an ownership request, invalidating other copies first. -/
  | sliceOwnershipRequest (core tn va : Nat)
  /-- L1_WRITE_BACK (R173): An M sector written back on replacement is merged at the slice. -/
  | l1WriteBack (core tn va : Nat)
  /-- L1_INVALIDATION (R173): An L1 receives an invalidation or recall and acknowledges it. -/
  | l1Invalidation (core tn va : Nat)
  /-- LINE_FILL (R184): A fill from the home arrives and answers every request attached to the miss register. -/
  | lineFill (die tn va : Nat)
  /-- PAGE_WALK (R158): The slice walks the tenancy's page table after its translation reads return. -/
  | pageWalk (die tn va : Nat) (acc : Access)
  /-- FAULT_RECORD_APPEND (R383): The hub appends a fault record when the queue has room and raises the fault signal. -/
  | faultRecordAppend (n : Nat)
  /-- WORD_REQUEST (R193): A gather or scatter element is served at its slice. -/
  | wordRequest (core tn va size : Nat) (x : Option Word)
  /-- ATOMIC_EXECUTE (R233): The executing slice performs an atomic or reduction as one step of service order. -/
  | atomicExecute (work : AtomicWork)
  /-- GUEST_WRITE_BACK (R214): Dirty guest bytes are merged whole at the home slice. -/
  | guestWriteBack (source : GuestSource) (tn va : Nat)
  /-- REMOTE_WRITE_DELIVERY (R247): The destination core checks and performs a remote write, or drops it. -/
  | remoteWriteDelivery (n : Nat)
  /-- REMOTE_WRITE_ACK (R199): An acknowledgement returns to the sender, freeing a credit. -/
  | remoteWriteAck (n : Nat)
  /-- DROP_NOTICE (R205): A drop notice returns and is recorded against the sending thread. -/
  | dropNotice (n : Nat)
  /-- LANDING_PORT_FILL (R244): A waiting writer fills a landing register in the cycle after it empties. -/
  | landingPortFill (core : Nat) (li : Landing)
  /-- MESSAGE_ARRIVAL (R255): A message arriving at a core is enqueued, or redirected to the overflow area. -/
  | messageArrival (n : Nat)
  /-- MESSAGE_DIVERT (R252): A message that waited 4,096 cc for a queue entry is diverted by the hub. -/
  | messageDivert (core : Nat)
  /-- BARRIER_RELEASE (R208): A barrier generation releases and every participant receives the combined result. -/
  | barrierRelease (n : Nat) (remote : List Word)
  /-- MATRIX_KBLOCK (R300): The engine adds one k-block into the bank in one cycle and advances mrp. -/
  | matrixKblock (core : Nat)
  /-- MATRIX_COMPLETE (R300): A matrix command completes, writes mstat and flags, and wakes its thread. -/
  | matrixComplete (core : Nat)
  /-- MATRIX_FAULT_STOP (R301): A fault stops a command before the k-block that needs the faulting stripe. -/
  | matrixFaultStop (core : Nat)
  /-- MMR_BLOCK_ARRIVAL (R304): A forwarded block arrives in a neighbour's staging buffer. -/
  | mmrBlockArrival (core : Nat)
  /-- MMR_ABORT_TOKEN (R304): An abort token ends the receiving core's MMR with engine fault and is forwarded. -/
  | mmrAbortToken (core : Nat)
  /-- COPY_COMMAND_RUN (R331): The copy engine starts the command at the head of its queue. -/
  | copyCommandRun (core : Nat)
  /-- COPY_STRIPE (R327): The copy engine translates, reads, transforms and writes one stripe. -/
  | copyStripe (core : Nat)
  /-- COPY_COMPLETION (R329): The copy engine sends its completion message after all writes are performed. -/
  | copyCompletion (core : Nat)
  /-- CLAIM_END (R226): A claim ends and the held accesses to the line are served. -/
  | claimEnd (core : Nat)
  /-- PUT_ARRIVAL (R221): A put reaching its target package is accepted and counted, or rejected. -/
  | putArrival (tn win off : Nat) (bytes : List (Nat × Byte × Byte))
  /-- PUT_ACK (R221): A put's acknowledgement reaches the source, which advances its source counter. -/
  | putAck (n : Nat) (ok : Bool)
  /-- COPY_THREAD_RESTART (R315): The hub stops, cleans up and restarts t15 with the shipped program after a fault. -/
  | copyThreadRestart (core : Nat)
  /-- COPY_PROGRAM_REINSTALL (R314): The hub reinstalls the shipped copy program when the installing launch leaves the core. -/
  | copyProgramReinstall (core : Nat)
  /-- VERSIONED_ACCESS (R269): A home slice reads or writes a line of a version, copying forward when inherited. -/
  | versionedAccess (tn va ver : Nat) (x : Option Word)
  /-- REPLAY_PUSH (R369): A fired entry's sector is served as a read for the consumer and installed in S. -/
  | replayPush (n : Nat)
  /-- PACKET_ARRIVAL (R338): A 64-byte write to a queue page is accepted, or discarded and counted. -/
  | packetArrival (q off : Nat) (bytes : List Byte)
  /-- QUEUE_SLOT_MAP (R339): Firmware obtains a hardware slot for a queue and moves pending packets into its FIFO. -/
  | queueSlotMap (q : Nat)
  /-- QUEUE_SLOT_EVICT (R339): Firmware evicts a queue from its slot and writes its FIFO back to the ring. -/
  | queueSlotEvict (q : Nat)
  /-- QUEUE_OPEN (R339): Writing state 1 to a queue record opens the queue. -/
  | queueOpen (q : Nat)
  /-- QUEUE_CLOSE (R339): Writing state 0 closes a queue and discards its pending packets. -/
  | queueClose (q : Nat)
  /-- LAUNCH_DISPATCH (R342): Every 4 ns the hub dispatches the eligible head with the highest effective priority. -/
  | launchDispatch
  /-- LAUNCH_DISTRIBUTE (R344): Each named die cuts the packet into task records and seeds its cores. -/
  | launchDistribute (lnum die : Nat)
  /-- IMAGE_LOAD (R141): The hub reads, checks and writes a kernel image into a core's slot. -/
  | imageLoad (core lnum : Nat)
  /-- IMAGE_EVICT (R141): A victim image is evicted once its users count reaches zero. -/
  | imageEvict (core slot : Nat)
  /-- LAUNCH_RETIRE (R351): With every count zero, dies release at pod scope and the completion word is written. -/
  | launchRetire (lnum : Nat)
  /-- FORCED_PREEMPTION (R389): When prelim expires, the hub stops and saves the most recently placed thread of the marked launch. -/
  | forcedPreemption (core lnum : Nat)
  /-- SHOOTDOWN_INVALIDATE (R163): Shootdown op 1 purges, marks draining and drains a range on the selected dies. -/
  | shootdownInvalidate (c0 c1 c2 c3 : Word)
  /-- SHOOTDOWN_RELEASE (R167): Shootdown op 2 releases held accesses in a range on every die. -/
  | shootdownRelease (c0 c1 c2 c3 : Word)
  /-- SHOOTDOWN_INVALIDATE_RELEASE (R162): Shootdown op 3 invalidates a range and then releases held accesses. -/
  | shootdownInvalidateRelease (c0 c1 c2 c3 : Word)
  /-- SHOOTDOWN_COMPLETE (R163): When every drain ends, the hub writes the shootdown's done word. -/
  | shootdownComplete
  /-- WAKE_RETRY (R386): A wake command with action retry resumes every matching faulted context. -/
  | wakeRetry (c0 c1 c2 c3 : Word)
  /-- WAKE_FAIL (R386): A wake command with action fail ends every matching park in a precise fault. -/
  | wakeFail (c0 c1 c2 c3 : Word)
  /-- SWITCH_OUT (R392): Context switch op 1 stops every thread of a launch and moves its records to the pool. -/
  | switchOut (c0 c1 c2 c3 : Word)
  /-- SWITCH_RESUME (R392): Context switch op 2 reseeds a launch's records and makes its tasks restorable. -/
  | switchResume (c0 c1 c2 c3 : Word)
  /-- HOST_ABORT (R401): Context switch op 3 aborts a launch with status 4. -/
  | hostAbort (c0 c1 c2 c3 : Word)
  /-- STOP_ONE_THREAD (R401): Context switch op 4 stops and saves one thread's task. -/
  | stopOneThread (c0 c1 c2 c3 : Word)
  /-- RESUME_ONE_THREAD (R401): Context switch op 5 makes one saved context restorable. -/
  | resumeOneThread (c0 c1 c2 c3 : Word)
  /-- COPY_PROGRAM_INSTALL (R417): A copy program command installs a replacement program for a launch and restarts t15. -/
  | copyProgramInstall (c0 c1 c2 c3 : Word)
  /-- CONTROL_RANGE_WRITE (R399): An aligned 8-byte write to a control-range register or table with no row of its own. -/
  | controlRangeWrite (writer off : Nat) (x : Word)
  /-- REGION_RECORD_LIVE (R265): Setting a region record live initialises its hub fields. -/
  | regionRecordLive (tn rec : Nat)
  /-- CAPTURE_UNIT_CONTROL (R409): A write to a capture unit's control word clears its other fields. -/
  | captureUnitControl (u : Nat) (x : Word)
  /-- CAPTURE_SAMPLE (R409): A capture unit samples its level every 1,024 cycles. -/
  | captureSample (place i : Nat)
  /-- APERTURE_READ (R398): A host read through the aperture reaches LM or memory uncached. -/
  | apertureRead (what : HostRead)
  /-- APERTURE_WRITE (R398): A host write through the aperture reaches LM or memory, or is discarded and counted. -/
  | apertureWrite (off : Nat) (x : Word)
  /-- POWER_WINDOW (R408): At the end of each 100 µs window the power manager lowers or raises island steps. -/
  | powerWindow (watts : Nat) (dieWatts draws : List Nat)
  /-- FUNCTION_READY (R403): A function becomes usable and its readiness bit is set. -/
  | functionReady (bit : Nat)
  /-- FUNCTION_FAIL (R404): A function fails and its readiness bit clears, ending launches on a failed die. -/
  | functionFail (bit : Nat)
  /-- PORT_DOWN (R405): A flit that fails 16 retries takes its fabric port down. -/
  | portDown (p : Nat)
  /-- PACKAGE_UNAVAILABLE (R223): A package becomes unavailable and the hub drops its translations, guest lines and waits. -/
  | packageUnavailable (p : Nat)
  /-- PACKAGE_AVAILABLE (R224): Hub firmware declares an unavailable package available again. -/
  | packageAvailable (p : Nat)
  /-- PACKAGE_RESET (R406): A package reset clears readiness, discards launches and verifies firmware. -/
  | packageReset
  /-- KEY_LOAD (R411): Security command 1 unwraps and installs a key pair in a slot. -/
  | keyLoad (slot : Nat) (replace : Bool) (wrapped : BitVec 576)
  /-- KEY_ERASE (R411): Security command 2 empties a key slot. -/
  | keyErase (slot : Nat)
  /-- ATTEST (R412): Security command 3 returns a signed attestation report. -/
  | attest (nonce : BitVec 256)
  /-- DEBUG_CHALLENGE (R411): Security command 4 returns a one-use debug challenge. -/
  | debugChallenge (tn : Nat)
  /-- DEBUG_UNLOCK (R411): Security command 5 sets a tenancy's debug enable after checking the signature. -/
  | debugUnlock (tn : Nat) (sig : List Byte)
  /-- DEBUG_LOCK (R416): Security command 6 clears a tenancy's debug enable and resumes its breakpoint stops. -/
  | debugLock (tn : Nat)
  /-- FIRMWARE_STAGE (R411): Security command 7 stages a firmware image for verification at the next reset. -/
  | firmwareStage (pa len : Nat)
  /-- SECURITY_ALARM (R413): An alarm is logged and the fused policy action is taken. -/
  | securityAlarm (cause : AlarmCause) (source : Word)
  /-- SOFT_ERROR (R395): An uncorrectable soft error damages LM, a landing or window register, thread state, a spill-store entry, an LLC tag or cell, or an engine buffer, so that a later read reports it. -/
  | softError (site : DamageSite)
deriving DecidableEq, Repr

end Sys2Proof
end

