-- ==== Sys2Proof/Config.lean ====
section
/-! DEFINITION. What an implementation fixes and the free values: constants with no body, of which nothing can be proved, so a claim
about them holds whatever they are (notes/assumptions 15 and 16).  A free value is applied to the operands it depends on, or to the
counter `fresh` of the state. -/

namespace Sys2Proof.Config

/-- The version offset that a home slice takes for a newest read, between the newest sealed version at issue and at service (R272). -/
opaque newestChoice : Nat → Nat

/-- A DRAM byte after a package reset, which leaves DRAM contents undefined (R406): by reset count and address. -/
opaque dramAfterReset : Nat → Nat → Byte

/-- A byte of another package's memory that this package has not written, by physical address (R218: the value its home holds). -/
opaque farByte : Nat → Byte

/-- The public key that verifies firmware images, which a fuse fixes by its digest (R410). -/
opaque firmwareKey : List Byte

/-- The public key that verifies debug tokens, which a fuse fixes by its digest (R410). -/
opaque tokenKey : List Byte

/-- How many of the first bytes of a firmware image are the signed ones; its signature stands behind them (R410). -/
opaque signedBytes : List Byte → Nat

/-- The fused key-wrapping key (R411). -/
opaque wrappingKey : BitVec 256

/-- The bytes of a debug challenge, by the counter of free values (R411). -/
opaque challenge : Nat → BitVec 256

/-- The signature that the package's identity key gives the SHA3-256 digest of a report (R410, R412). -/
opaque identitySignature : BitVec 256 → List Byte

/-- Whether word requests for one word that may be combined meet in a router in one cycle, by the counter of free values (R183). -/
opaque combines : Nat → Bool

/-- How many word requests of the lanes of a versioned block are combined, by the counter of free values (R183). -/
opaque absorbed : Nat → Nat

/-- A byte of the spill-store contents in a context pool record, whose layout the spec leaves open, by the counter of free values (R391). -/
opaque poolByte : Nat → Nat → Byte

/-- The `trapval` of a stop for damaged thread state, which the spec does not state, by the counter of free values (R395). -/
opaque damageVal : Nat → Word

end Sys2Proof.Config
end

