-- ==== Sys2Proof/WellFormed.lean ====
section
/-! DEFINITION. Well-formed instructions: the field checks of decode that do not depend on the thread or the level (R23, R26, R27, R29,
R30, R35, and the type sets of each entry under R18), and the ranges of the operands of the event rows. -/

namespace Sys2Proof

/-- The width in bits of an element type (R18). -/
def ElemTy.width : ElemTy → Nat
  | .f32 | .i32 | .n32 | .wf19 => 32
  | .bf16 | .f16 | .i16 | .n16 => 16
  | .e4m3 | .e5m2 | .i8 | .n8 | .c8 => 8
  | .e2m1 | .i4 | .n4 => 4

/-- Class F of R114. -/
def ElemTy.isF : ElemTy → Bool
  | .f32 | .bf16 | .f16 => true
  | _ => false
/-- Class J of R114. -/
def ElemTy.isJ : ElemTy → Bool
  | .i32 | .i16 | .i8 | .n32 | .n16 | .n8 => true
  | _ => false
/-- Class Z of R114. -/
def ElemTy.isZ (t : ElemTy) : Bool := t.isJ || t == .i4 || t == .n4
/-- Class W of R114: every type of 8 bits or wider. -/
def ElemTy.isW (t : ElemTy) : Bool := !(t == .e2m1 || t == .i4 || t == .n4)
/-- Class A of R114: every type. -/
def ElemTy.isA (_ : ElemTy) : Bool := true
/-- Classes F and J together (R120). -/
def ElemTy.isFJ (t : ElemTy) : Bool := t.isF || t.isJ
/-- Classes F and Z together (R123). -/
def ElemTy.isFZ (t : ElemTy) : Bool := t.isF || t.isZ
/-- The signed integer types (R83). -/
def ElemTy.isSigned (t : ElemTy) : Bool := t == .i32 || t == .i16 || t == .i8 || t == .i4
/-- The types of VABS and VNEG (R120). -/
def ElemTy.isAbs (t : ElemTy) : Bool := t.isF || t == .i32 || t == .i16 || t == .i8
/-- The types of VDOT4 (R121). -/
def ElemTy.isDot (t : ElemTy) : Bool := t == .i8 || t == .n8
/-- The sources of VENC (R127). -/
def ElemTy.isEnc (t : ElemTy) : Bool := t == .f32 || t == .wf19
/-- The element types of a scaled block (R97, R129). -/
def ElemTy.isSb (t : ElemTy) : Bool := t == .e4m3 || t == .e5m2 || t == .e2m1 || t == .i8
/-- The types of ACCST and ACCSTG (R307, R308). -/
def ElemTy.isAccSt (t : ElemTy) : Bool :=
  t.isF || t == .e4m3 || t == .e5m2 || t == .i32 || t == .i16 || t == .i8
/-- The types of ACCLD (R307). -/
def ElemTy.isAccLd (t : ElemTy) : Bool := t.isF || t == .i32 || t == .i16 || t == .i8

/-- The types of an FPS operation (R30). -/
def fpsTy (t : ElemTy) : Bool := t.isF
/-- The types of one side of FCVT (R30). -/
def fcvtTy (t : ElemTy) : Bool := t.isF || t == .i32 || t == .n32
/-- FCVT: equal codes and two integer codes are illegal (R30). -/
def fcvtFits (dst src : ElemTy) : Bool := fcvtTy dst && fcvtTy src && dst != src && (dst.isF || src.isF)
/-- VCVT: equal codes and code 14 are illegal (R126). -/
def vcvtFits (dst src : ElemTy) : Bool := dst != .c8 && src != .c8 && dst != src

/-- A vector register field below 24 (R16). -/
def vOk (v : VCode) : Bool := v.toNat < 24
/-- pos + len at most 64 (R23). -/
def bitfieldFits (lm1 pos : BitVec 6) : Bool := pos.toNat + (lm1.toNat + 1) ≤ 64
/-- The floating-point operations exist at width 32 only (R26). -/
def amoFits (op : AmoOp) (w64 : Bool) : Bool :=
  match op with
  | .faddF32 | .faddBf16x2 | .fmaxF32 => !w64
  | .add | .and | .or | .xor | .min | .max | .minn | .maxn | .xchg | .cas => true
/-- XCHG and CAS exist only as AMO (R26). -/
def redFits (op : AmoOp) (w64 : Bool) : Bool := op != .xchg && op != .cas && amoFits op w64
/-- The rb field must be 0 unless the scope is the rectangle (R27). -/
def rectFits (sc : Scope) (b : Reg) : Bool := sc == .rect || b == 0
/-- No barrier exists at core scope (R27). -/
def barFits (sc : Scope) (b : Reg) : Bool := sc != .core && rectFits sc b
/-- The first descriptor register is 4, 8, up to 28 (R35). -/
def descOk (a : Reg) : Bool := a.toNat % 4 == 0 && a != 0

/-- The control register numbers that exist (R62, R415). -/
def csrNumbers : List Nat :=
  [0x000, 0x001, 0x002, 0x003, 0x004, 0x010, 0x011, 0x012, 0x013, 0x020, 0x021, 0x022, 0x023, 0x024, 0x025, 0x026,
   0x030, 0x031, 0x032, 0x040, 0x041, 0x042, 0x043, 0x050, 0x051, 0x060, 0x061, 0x062, 0x063, 0x064, 0x070] ++
  [0x080, 0x081, 0x082, 0x083, 0x084, 0x085, 0x086, 0x087, 0x090, 0x091, 0x0A0, 0x800, 0x801, 0x802, 0x803]
/-- The control registers with access RW (R62). -/
def csrWritableNumbers : List Nat :=
  [0x010, 0x011, 0x012, 0x020, 0x021, 0x030, 0x040, 0x041, 0x043, 0x050, 0x060, 0x061, 0x062, 0x063, 0x064, 0x070]
/-- A defined control register number (R29). -/
def csrDefined (c : BitVec 12) : Bool := csrNumbers.contains c.toNat
/-- A control register that the CSR instructions may write (R62). -/
def csrWritable (c : BitVec 12) : Bool := csrWritableNumbers.contains c.toNat

/-- Ranges of the event rows' operands: R1, R42, R149, R148, R337, R342, R265, R139, R220, R403, R405, R150, R409. -/
def coreOk (c : Nat) : Bool := c < 9216
/-- A thread number, 0 to 15 (R42). -/
def tidOk (t : Nat) : Bool := t < 16
/-- A die number (R1). -/
def dieOk (d : Nat) : Bool := d < 8
/-- A tenancy number (R149). -/
def tnOk (t : Nat) : Bool := t < 4096
/-- A virtual address of 56 bits (R148). -/
def vaOk (va : Nat) : Bool := va < 2 ^ 56
/-- A user queue number (R337). -/
def queueOk (q : Nat) : Bool := q < 16384
/-- An active launch number (R342). -/
def lnumOk (l : Nat) : Bool := l < 4096
/-- A region record number (R265). -/
def recOk (r : Nat) : Bool := r < 64
/-- A kernel slot number (R139). -/
def slotOk (s : Nat) : Bool := s < 16
/-- A window table number (R220). -/
def winOk (w : Nat) : Bool := w < 16384
/-- A readiness bit: word 0 in 0 to 63, word 1 in 64 to 101 (R403). -/
def bitOk (b : Nat) : Bool := b < 102
/-- A fabric port (R405). -/
def portOk (p : Nat) : Bool := p < 18
/-- A package number of the pod (R150). -/
def pkgOk (p : Nat) : Bool := p < 1024
/-- A capture unit (R409). -/
def unitOk (u : Nat) : Bool := u < 64
/-- A unit of a die, or of the hub as place 8 (R409). -/
def placeOk (place i : Nat) : Bool := i < 7 && place < 8 || place == 8 && i < 8
/-- The dirty bytes of a die, or of another package (R214). -/
def sourceOk : GuestSource → Bool
  | .die d => dieOk d
  | .far _ => true
/-- The size in bytes of a word request (R192, R193). -/
def sizeOk (n : Nat) : Bool := n == 1 || n == 2 || n == 4

/-- The field checks of each instruction (R39) and the operand ranges of each event row. -/
def Instr.wf : Instr → Bool
  | .bexti _ _ l p => bitfieldFits l p
  | .bextsi _ _ l p => bitfieldFits l p
  | .binsi _ _ l p => bitfieldFits l p
  | .amo op w _ _ _ _ => amoFits op w
  | .red op w _ _ _ => redFits op w
  | .fenceAcq sc b => rectFits sc b
  | .fenceRel sc b => rectFits sc b
  | .fenceAr sc b => rectFits sc b
  | .bar sc b => barFits sc b
  | .barmax _ sc _ _ b => barFits sc b
  | .barsum _ sc _ _ b => barFits sc b
  | .barmin _ sc _ _ b => barFits sc b
  | .rputmv _ v => vOk v
  | .csrr _ c => csrDefined c
  | .csrw _ _ c => csrDefined c && csrWritable c
  | .csrs _ a c => csrDefined c && (a == 0 || csrWritable c)
  | .csrc _ a c => csrDefined c && (a == 0 || csrWritable c)
  | .fadd t _ _ _ => fpsTy t
  | .fsub t _ _ _ => fpsTy t
  | .fmul t _ _ _ => fpsTy t
  | .ffma t _ _ _ => fpsTy t
  | .fmin t _ _ _ => fpsTy t
  | .fmax t _ _ _ => fpsTy t
  | .fabs t _ _ => fpsTy t
  | .fneg t _ _ => fpsTy t
  | .feq t _ _ _ => fpsTy t
  | .flt t _ _ _ => fpsTy t
  | .fle t _ _ _ => fpsTy t
  | .fcvt t s _ _ => fcvtFits t s
  | .fdiv t _ _ _ => fpsTy t
  | .fsqrt t _ _ => fpsTy t
  | .fclass t _ _ => fpsTy t
  | .vadd t d a b _ => t.isFJ && vOk d && vOk a && vOk b
  | .vsub t d a b _ => t.isFJ && vOk d && vOk a && vOk b
  | .vmul t d a b _ => t.isFJ && vOk d && vOk a && vOk b
  | .vfma t d a b _ => t.isFJ && vOk d && vOk a && vOk b
  | .vfms t d a b _ => t.isFJ && vOk d && vOk a && vOk b
  | .vmin t d a b _ => t.isFJ && vOk d && vOk a && vOk b
  | .vmax t d a b _ => t.isFJ && vOk d && vOk a && vOk b
  | .vabs t d a _ => t.isAbs && vOk d && vOk a
  | .vneg t d a _ => t.isAbs && vOk d && vOk a
  | .vdot4 t d a b _ => t.isDot && vOk d && vOk a && vOk b
  | .vmulh t d a b _ => t.isJ && vOk d && vOk a && vOk b
  | .vand t d a b _ => t.isA && vOk d && vOk a && vOk b
  | .vor t d a b _ => t.isA && vOk d && vOk a && vOk b
  | .vxor t d a b _ => t.isA && vOk d && vOk a && vOk b
  | .vnot t d a _ => t.isA && vOk d && vOk a
  | .vshl t d a b _ => t.isZ && vOk d && vOk a && vOk b
  | .vshr t d a b _ => t.isZ && vOk d && vOk a && vOk b
  | .vsra t d a b _ => t.isZ && vOk d && vOk a && vOk b
  | .vpopc t d a _ => t.isZ && vOk d && vOk a
  | .vcmpeq t _ a b _ => t.isFZ && vOk a && vOk b
  | .vcmpne t _ a b _ => t.isFZ && vOk a && vOk b
  | .vcmplt t _ a b _ => t.isFZ && vOk a && vOk b
  | .vcmple t _ a b _ => t.isFZ && vOk a && vOk b
  | .vsel t d a b _ => t.isA && vOk d && vOk a && vOk b
  | .vcvt t s d a _ => vcvtFits t s && vOk d && vOk a
  | .vdec d a _ => vOk d && vOk a
  | .venc t d a _ => t.isEnc && vOk d && vOk a
  | .vqnt t d a b _ => t.isSb && vOk d && vOk a && vOk b
  | .vdqnt t d a b _ => t.isSb && vOk d && vOk a && vOk b
  | .vexp2 d a _ => vOk d && vOk a
  | .vlog2 d a _ => vOk d && vOk a
  | .vrcp d a _ => vOk d && vOk a
  | .vrsq d a _ => vOk d && vOk a
  | .vtanh d a _ => vOk d && vOk a
  | .vsigm d a _ => vOk d && vOk a
  | .vperm t d a b _ => t.isW && vOk d && vOk a && vOk b
  | .vslide t d a _ _ => t.isA && vOk d && vOk a
  | .vbcast t d a _ _ => t.isA && vOk d && vOk a
  | .vredsum t d a _ => t.isFJ && vOk d && vOk a
  | .vredmax t d a _ => t.isFJ && vOk d && vOk a
  | .vredmin t d a _ => t.isFJ && vOk d && vOk a
  | .vscan t d a _ => t.isFJ && vOk d && vOk a
  | .vamaxb t d a _ => t.isF && vOk d && vOk a
  | .vldl d _ _ _ => vOk d
  | .vstl d _ _ _ => vOk d
  | .vld d _ _ _ => vOk d
  | .vst d _ _ _ => vOk d
  | .vlds t d _ _ _ => t.isW && vOk d
  | .vsts t d _ _ _ => t.isW && vOk d
  | .vgth t d _ b _ => t.isW && vOk d && vOk b
  | .vsct t d _ b _ => t.isW && vOk d && vOk b
  | .vgthl t d _ b _ => t.isW && vOk d && vOk b
  | .vsctl t d _ b _ => t.isW && vOk d && vOk b
  | .vsadd t d a _ _ => t.isFJ && vOk d && vOk a
  | .vssub t d a _ _ => t.isFJ && vOk d && vOk a
  | .vsmul t d a _ _ => t.isFJ && vOk d && vOk a
  | .vsfma t d a _ _ => t.isFJ && vOk d && vOk a
  | .vsmin t d a _ _ => t.isFJ && vOk d && vOk a
  | .vsmax t d a _ _ => t.isFJ && vOk d && vOk a
  | .vsshl t d a _ _ => t.isZ && vOk d && vOk a
  | .vsplat t d _ _ => t.isA && vOk d
  | .vins t d _ _ => t.isA && vOk d
  | .vext t _ a _ => t.isA && vOk a
  | .viota t d _ => t.isZ && vOk d
  | .ktog t _ _ => t.isA
  | .gtok t _ _ => t.isA
  | .kpop t _ _ => t.isA
  | .vmov t d a _ => t.isA && vOk d && vOk a
  | .accst t _ c _ => t.isAccSt && vOk c
  | .accld t _ c _ => t.isAccLd && vOk c
  | .accstg t _ _ _ => t.isAccSt
  | .xld a _ _ => descOk a
  | .xst a _ _ => descOk a
  | .xput a _ _ => descOk a
  | .xaxb a _ _ => descOk a
  | .xfill a _ => descOk a
  | .xstat a => descOk a
  | .xcan a => descOk a
  | .xlm a _ _ => descOk a
  | .atdig _ c _ => vOk c
  | .atld _ c _ _ => vOk c
  | .atsg _ c _ _ => vOk c
  | .atinfo _ c => vOk c
  | .waitExpired core tid => coreOk core && tidOk tid
  | .eventEntry core tid => coreOk core && tidOk tid
  | .taskDispatch core => coreOk core
  | .taskSteal core lnum => coreOk core && lnumOk lnum
  | .contextSpill core tid => coreOk core && tidOk tid
  | .contextRestore core tid => coreOk core && tidOk tid
  | .globalReply core tid => coreOk core && tidOk tid
  | .sliceReadRequest core tn va => coreOk core && tnOk tn && vaOk va
  | .sliceOwnershipRequest core tn va => coreOk core && tnOk tn && vaOk va
  | .l1WriteBack core tn va => coreOk core && tnOk tn && vaOk va
  | .l1Invalidation core tn va => coreOk core && tnOk tn && vaOk va
  | .lineFill die tn va => dieOk die && tnOk tn && vaOk va
  | .pageWalk die tn va _ => dieOk die && tnOk tn && vaOk va
  | .wordRequest core tn va size _ => coreOk core && tnOk tn && vaOk va && sizeOk size && va % size == 0
  | .guestWriteBack source tn va => sourceOk source && tnOk tn && vaOk va
  | .landingPortFill core _ => coreOk core
  | .messageDivert core => coreOk core
  | .matrixKblock core => coreOk core
  | .matrixComplete core => coreOk core
  | .matrixFaultStop core => coreOk core
  | .mmrBlockArrival core => coreOk core
  | .mmrAbortToken core => coreOk core
  | .copyCommandRun core => coreOk core
  | .copyStripe core => coreOk core
  | .copyCompletion core => coreOk core
  | .claimEnd core => coreOk core
  | .putArrival tn win _ _ => tnOk tn && winOk win
  | .copyThreadRestart core => coreOk core
  | .copyProgramReinstall core => coreOk core
  | .versionedAccess tn va _ _ => tnOk tn && vaOk va && va % 8 == 0
  | .packetArrival q _ _ => queueOk q
  | .queueSlotMap q => queueOk q
  | .queueSlotEvict q => queueOk q
  | .queueOpen q => queueOk q
  | .queueClose q => queueOk q
  | .launchDistribute lnum die => lnumOk lnum && dieOk die
  | .imageLoad core lnum => coreOk core && lnumOk lnum
  | .imageEvict core slot => coreOk core && slotOk slot
  | .launchRetire lnum => lnumOk lnum
  | .forcedPreemption core lnum => coreOk core && lnumOk lnum
  | .regionRecordLive tn rec => tnOk tn && recOk rec
  | .captureUnitControl u _ => unitOk u
  | .captureSample place i => placeOk place i
  | .functionReady bit => bitOk bit
  | .functionFail bit => bitOk bit
  | .portDown p => portOk p
  | .packageUnavailable p => pkgOk p
  | .packageAvailable p => pkgOk p
  | .add _ _ _ | .sub _ _ _ | .and _ _ _ | .or _ _ _ | .xor _ _ _ | .andn _ _ _ | .orn _ _ _ | .shl _ _ _ | .shr _ _ _
  | .sra _ _ _ | .rol _ _ _ | .slt _ _ _ | .sltn _ _ _ | .seq _ _ _ | .min _ _ _ | .max _ _ _ | .minn _ _ _ | .maxn _ _ _
  | .mul _ _ _ | .mulh _ _ _ | .mulhn _ _ _ | .div _ _ _ | .divn _ _ _ | .rem _ _ _ | .remn _ _ _ | .mad _ _ _
  | .clz _ _ | .ctz _ _ | .pop _ _ | .bswap _ _ | .sextB _ _ | .sextH _ _ | .sextW _ _ | .zextB _ _ | .zextH _ _
  | .zextW _ _ | .bext _ _ _ | .fshr _ _ _ | .fshl _ _ _ | .addi _ _ _ | .andi _ _ _ | .ori _ _ _ | .xori _ _ _
  | .slti _ _ _ | .shli _ _ _ | .shri _ _ _ | .srai _ _ _ | .roli _ _ _ | .shlori _ _ _ | .lih _ _ | .fshli _ _ _
  | .fshri _ _ _ | .beq _ _ _ | .bne _ _ _ | .blt _ _ _ | .bge _ _ _ | .bltn _ _ _ | .bgen _ _ _ | .dbnz _ _
  | .jal _ _ | .jalr _ _ _ | .ld _ _ _ _ | .st _ _ _ _ | .ldl _ _ _ _ | .stl _ _ _ _ | .ldx _ _ _ _ | .stx _ _ _ _
  | .pfg _ | .cwb _ _ | .cinv _ _ | .cdisc _ _ | .waitge _ _ | .putl _ _ | .rput _ _ _ | .take _ _ | .peek _ _
  | .testl _ _ | .clrl _ | .rputm _ _ | .msnd _ _ | .mrcv _ | .waitm _ | .msndn _ _ | .mrcvn _ _ | .evon | .evoff
  | .evret | .yield | .park | .wake _ | .dqpush _ _ | .dqpop _ _ | .dqsplit _ | .dqsteal _ _ | .tsend _ _ | .tret
  | .dqnext _ | .launch _ _ _ | .trap _ | .brk | .ifence | .eret | .halt | .kand _ _ _ | .kor _ _ _ | .kxor _ _ _
  | .knot _ _ | .vdtld _ | .mma _ _ _ _ _ _ | .mmal _ _ _ _ _ _ | .mmr _ _ _ _ _ _ | .mwait _ | .mstat _ | .accz _
  | .atbind _ _ | .ldvn _ _ _ | .redvn _ _ _ _ | .stvn _ _ _ | .vnopen _ _ | .vnseal _ _ | .vnrecl _ _ | .vnstat _ _ _
  | .rrbeg _ _ | .rrend _ | .rrec _ | .rroff _ | .rrstat _ _ _ | .illegalInstruction | .faultRecordAppend _ | .atomicExecute _
  | .remoteWriteDelivery _ | .remoteWriteAck _ | .dropNotice _ | .messageArrival _ | .barrierRelease _ _ | .putAck _ _
  | .replayPush _ | .launchDispatch | .shootdownInvalidate _ _ _ _ | .shootdownRelease _ _ _ _ | .shootdownInvalidateRelease _ _ _ _
  | .shootdownComplete | .wakeRetry _ _ _ _ | .wakeFail _ _ _ _ | .switchOut _ _ _ _ | .switchResume _ _ _ _
  | .hostAbort _ _ _ _ | .stopOneThread _ _ _ _ | .resumeOneThread _ _ _ _ | .copyProgramInstall _ _ _ _ | .controlRangeWrite _ _ _
  | .apertureRead _ | .apertureWrite _ _ | .powerWindow _ _ _ | .packageReset | .keyLoad _ _ _ | .keyErase _
  | .attest _ | .debugChallenge _ | .debugUnlock _ _ | .debugLock _ | .firmwareStage _ _ | .securityAlarm _ _
  | .softError _ => true

/-- The rows that are instruction words; the others are event rows (spec/95_what_each_step_holds.md). -/
def Instr.isWord : Instr → Bool
  | .add _ _ _ | .sub _ _ _ | .and _ _ _ | .or _ _ _ | .xor _ _ _ | .andn _ _ _ | .orn _ _ _ | .shl _ _ _ | .shr _ _ _
  | .sra _ _ _ | .rol _ _ _ | .slt _ _ _ | .sltn _ _ _ | .seq _ _ _ | .min _ _ _ | .max _ _ _ | .minn _ _ _ | .maxn _ _ _
  | .mul _ _ _ | .mulh _ _ _ | .mulhn _ _ _ | .div _ _ _ | .divn _ _ _ | .rem _ _ _ | .remn _ _ _ | .mad _ _ _
  | .clz _ _ | .ctz _ _ | .pop _ _ | .bswap _ _ | .sextB _ _ | .sextH _ _ | .sextW _ _ | .zextB _ _ | .zextH _ _
  | .zextW _ _ | .bext _ _ _ | .fshr _ _ _ | .fshl _ _ _ | .addi _ _ _ | .andi _ _ _ | .ori _ _ _ | .xori _ _ _
  | .slti _ _ _ | .shli _ _ _ | .shri _ _ _ | .srai _ _ _ | .roli _ _ _ | .shlori _ _ _ | .lih _ _ | .bexti _ _ _ _
  | .bextsi _ _ _ _ | .binsi _ _ _ _ | .fshli _ _ _ | .fshri _ _ _ | .beq _ _ _ | .bne _ _ _ | .blt _ _ _ | .bge _ _ _
  | .bltn _ _ _ | .bgen _ _ _ | .dbnz _ _ | .jal _ _ | .jalr _ _ _ | .ld _ _ _ _ | .st _ _ _ _ | .ldl _ _ _ _
  | .stl _ _ _ _ | .ldx _ _ _ _ | .stx _ _ _ _ | .pfg _ | .cwb _ _ | .cinv _ _ | .cdisc _ _ | .amo _ _ _ _ _ _
  | .red _ _ _ _ _ | .fenceAcq _ _ | .fenceRel _ _ | .fenceAr _ _ | .bar _ _ | .barmax _ _ _ _ _ | .barsum _ _ _ _ _
  | .barmin _ _ _ _ _ | .waitge _ _ | .putl _ _ | .rput _ _ _ | .take _ _ | .peek _ _ | .testl _ _ | .clrl _
  | .rputm _ _ | .rputmv _ _ | .msnd _ _ | .mrcv _ | .waitm _ | .msndn _ _ | .mrcvn _ _ | .evon | .evoff | .evret
  | .yield | .park | .wake _ | .dqpush _ _ | .dqpop _ _ | .dqsplit _ | .dqsteal _ _ | .tsend _ _ | .tret | .dqnext _
  | .launch _ _ _ | .csrr _ _ | .csrw _ _ _ | .csrs _ _ _ | .csrc _ _ _ | .trap _ | .brk | .ifence | .eret | .halt
  | .fadd _ _ _ _ | .fsub _ _ _ _ | .fmul _ _ _ _ | .ffma _ _ _ _ | .fmin _ _ _ _ | .fmax _ _ _ _ | .fabs _ _ _
  | .fneg _ _ _ | .feq _ _ _ _ | .flt _ _ _ _ | .fle _ _ _ _ | .fcvt _ _ _ _ | .fdiv _ _ _ _ | .fsqrt _ _ _ | .fclass _ _ _
  | .vadd _ _ _ _ _ | .vsub _ _ _ _ _ | .vmul _ _ _ _ _ | .vfma _ _ _ _ _ | .vfms _ _ _ _ _ | .vmin _ _ _ _ _
  | .vmax _ _ _ _ _ | .vabs _ _ _ _ | .vneg _ _ _ _ | .vdot4 _ _ _ _ _ | .vmulh _ _ _ _ _ | .vand _ _ _ _ _ | .vor _ _ _ _ _
  | .vxor _ _ _ _ _ | .vnot _ _ _ _ | .vshl _ _ _ _ _ | .vshr _ _ _ _ _ | .vsra _ _ _ _ _ | .vpopc _ _ _ _ | .vcmpeq _ _ _ _ _
  | .vcmpne _ _ _ _ _ | .vcmplt _ _ _ _ _ | .vcmple _ _ _ _ _ | .vsel _ _ _ _ _ | .kand _ _ _ | .kor _ _ _ | .kxor _ _ _
  | .knot _ _ | .vcvt _ _ _ _ _ | .vdec _ _ _ | .venc _ _ _ _ | .vdtld _ | .vqnt _ _ _ _ _ | .vdqnt _ _ _ _ _
  | .vexp2 _ _ _ | .vlog2 _ _ _ | .vrcp _ _ _ | .vrsq _ _ _ | .vtanh _ _ _ | .vsigm _ _ _ | .vperm _ _ _ _ _
  | .vslide _ _ _ _ _ | .vbcast _ _ _ _ _ | .vredsum _ _ _ _ | .vredmax _ _ _ _ | .vredmin _ _ _ _ | .vscan _ _ _ _
  | .vamaxb _ _ _ _ | .vldl _ _ _ _ | .vstl _ _ _ _ | .vld _ _ _ _ | .vst _ _ _ _ | .vlds _ _ _ _ _ | .vsts _ _ _ _ _
  | .vgth _ _ _ _ _ | .vsct _ _ _ _ _ | .vgthl _ _ _ _ _ | .vsctl _ _ _ _ _ | .vsadd _ _ _ _ _ | .vssub _ _ _ _ _
  | .vsmul _ _ _ _ _ | .vsfma _ _ _ _ _ | .vsmin _ _ _ _ _ | .vsmax _ _ _ _ _ | .vsshl _ _ _ _ _ | .vsplat _ _ _ _
  | .vins _ _ _ _ | .vext _ _ _ _ | .viota _ _ _ | .ktog _ _ _ | .gtok _ _ _ | .kpop _ _ _ | .vmov _ _ _ _ | .mma _ _ _ _ _ _
  | .mmal _ _ _ _ _ _ | .mmr _ _ _ _ _ _ | .mwait _ | .mstat _ | .accz _ | .accst _ _ _ _ | .accld _ _ _ _ | .accstg _ _ _ _
  | .xld _ _ _ | .xst _ _ _ | .xput _ _ _ | .xaxb _ _ _ | .xfill _ _ | .xstat _ | .xcan _ | .xlm _ _ _ | .atbind _ _
  | .atdig _ _ _ | .atld _ _ _ _ | .atsg _ _ _ _ | .atinfo _ _ | .ldvn _ _ _ | .redvn _ _ _ _ | .stvn _ _ _ | .vnopen _ _
  | .vnseal _ _ | .vnrecl _ _ | .vnstat _ _ _ | .rrbeg _ _ | .rrend _ | .rrec _ | .rroff _ | .rrstat _ _ _ => true
  | .illegalInstruction | .waitExpired _ _ | .eventEntry _ _ | .taskDispatch _ | .taskSteal _ _ | .contextSpill _ _
  | .contextRestore _ _ | .globalReply _ _ | .sliceReadRequest _ _ _ | .sliceOwnershipRequest _ _ _ | .l1WriteBack _ _ _
  | .l1Invalidation _ _ _ | .lineFill _ _ _ | .pageWalk _ _ _ _ | .faultRecordAppend _ | .wordRequest _ _ _ _ _
  | .atomicExecute _ | .guestWriteBack _ _ _ | .remoteWriteDelivery _ | .remoteWriteAck _ | .dropNotice _
  | .landingPortFill _ _ | .messageArrival _ | .messageDivert _ | .barrierRelease _ _ | .matrixKblock _ | .matrixComplete _
  | .matrixFaultStop _ | .mmrBlockArrival _ | .mmrAbortToken _ | .copyCommandRun _ | .copyStripe _ | .copyCompletion _
  | .claimEnd _ | .putArrival _ _ _ _ | .putAck _ _ | .copyThreadRestart _ | .copyProgramReinstall _ | .versionedAccess _ _ _ _
  | .replayPush _ | .packetArrival _ _ _ | .queueSlotMap _ | .queueSlotEvict _ | .queueOpen _ | .queueClose _
  | .launchDispatch | .launchDistribute _ _ | .imageLoad _ _ | .imageEvict _ _ | .launchRetire _ | .forcedPreemption _ _
  | .shootdownInvalidate _ _ _ _ | .shootdownRelease _ _ _ _ | .shootdownInvalidateRelease _ _ _ _ | .shootdownComplete
  | .wakeRetry _ _ _ _ | .wakeFail _ _ _ _ | .switchOut _ _ _ _ | .switchResume _ _ _ _ | .hostAbort _ _ _ _
  | .stopOneThread _ _ _ _ | .resumeOneThread _ _ _ _ | .copyProgramInstall _ _ _ _ | .controlRangeWrite _ _ _
  | .regionRecordLive _ _ | .captureUnitControl _ _ | .captureSample _ _ | .apertureRead _ | .apertureWrite _ _
  | .powerWindow _ _ _ | .functionReady _ | .functionFail _ | .portDown _ | .packageUnavailable _ | .packageAvailable _
  | .packageReset | .keyLoad _ _ _ | .keyErase _ | .attest _ | .debugChallenge _ | .debugUnlock _ _ | .debugLock _
  | .firmwareStage _ _ | .securityAlarm _ _ | .softError _ => false

end Sys2Proof
end

