-- ==== Sys2Proof/Decode.lean ====
section
/-! DEFINITION. Decode, total on every 32-bit word, and the encoder, both written from the encoding tables of spec/02_formats.md (R13 to
R41).  A word that no table gives is rejected by name; every rejection raises the same illegal-instruction trap (R39, R40).  The level
and thread checks of R39 stand in the meanings, which know the thread. -/

namespace Sys2Proof

/-- Why a word is no instruction, in the order of R39. -/
inductive DecodeError where
  /-- Major opcode 0x00, 0x3F or 0x30 to 0x3E (R21). -/
  | reservedOpcode
  /-- An unassigned function code or selector (R22 to R36). -/
  | unassigned
  /-- A width, type, scope, vector or control register code outside the set the entry accepts (R16, R18, R23 to R36). -/
  | codeIllegal
  /-- A nonzero value in a field that the assembly form does not name (R37). -/
  | mustBeZero
deriving DecidableEq, Repr

/-- The `n` bits of a word from bit `lo` up. -/
def fld (w : Word32) (lo n : Nat) : BitVec n := w.extractLsb' lo n

/-- The code of a value of `ElemTy` (R18). -/
def ElemTy.code : ElemTy → BitVec 4
  | .f32 => 0#4
  | .bf16 => 1#4
  | .f16 => 2#4
  | .e4m3 => 3#4
  | .e5m2 => 4#4
  | .e2m1 => 5#4
  | .i32 => 6#4
  | .i16 => 7#4
  | .i8 => 8#4
  | .i4 => 9#4
  | .n32 => 10#4
  | .n16 => 11#4
  | .n8 => 12#4
  | .n4 => 13#4
  | .c8 => 14#4
  | .wf19 => 15#4

/-- The value of `ElemTy` that a code names (R18). -/
def ElemTy.ofCode (c : BitVec 4) : ElemTy :=
  match c with
  | 0#4 => .f32
  | 1#4 => .bf16
  | 2#4 => .f16
  | 3#4 => .e4m3
  | 4#4 => .e5m2
  | 5#4 => .e2m1
  | 6#4 => .i32
  | 7#4 => .i16
  | 8#4 => .i8
  | 9#4 => .i4
  | 10#4 => .n32
  | 11#4 => .n16
  | 12#4 => .n8
  | 13#4 => .n4
  | 14#4 => .c8
  | _ => .wf19

/-- The code of a value of `MtxTy` (R33). -/
def MtxTy.code : MtxTy → BitVec 3
  | .bf16 => 0#3
  | .f16 => 1#3
  | .e4m3 => 2#3
  | .e5m2 => 3#3
  | .e2m1 => 4#3
  | .i8 => 5#3
  | .c8 => 6#3
  | .i4 => 7#3

/-- The value of `MtxTy` that a code names (R33). -/
def MtxTy.ofCode (c : BitVec 3) : MtxTy :=
  match c with
  | 0#3 => .bf16
  | 1#3 => .f16
  | 2#3 => .e4m3
  | 3#3 => .e5m2
  | 4#3 => .e2m1
  | 5#3 => .i8
  | 6#3 => .c8
  | _ => .i4

/-- The code of a value of `KLen` (R33). -/
def KLen.code : KLen → BitVec 2
  | .k32 => 0#2
  | .k64 => 1#2
  | .k128 => 2#2
  | .k256 => 3#2

/-- The value of `KLen` that a code names (R33). -/
def KLen.ofCode (c : BitVec 2) : KLen :=
  match c with
  | 0#2 => .k32
  | 1#2 => .k64
  | 2#2 => .k128
  | _ => .k256

/-- The code of a value of `Scope` (R27). -/
def Scope.code : Scope → BitVec 3
  | .core => 0#3
  | .quad => 1#3
  | .die => 2#3
  | .pkg => 3#3
  | .pod => 4#3
  | .rect => 5#3

/-- The value of `Scope` that a code names (R27). -/
def Scope.ofCode (c : BitVec 3) : Option Scope :=
  match c with
  | 0#3 => some .core
  | 1#3 => some .quad
  | 2#3 => some .die
  | 3#3 => some .pkg
  | 4#3 => some .pod
  | 5#3 => some .rect
  | _ => none

/-- The code of a value of `AmoScope` (R26). -/
def AmoScope.code : AmoScope → BitVec 3
  | .die => 2#3
  | .pkg => 3#3
  | .pod => 4#3

/-- The value of `AmoScope` that a code names (R26). -/
def AmoScope.ofCode (c : BitVec 3) : Option AmoScope :=
  match c with
  | 2#3 => some .die
  | 3#3 => some .pkg
  | 4#3 => some .pod
  | _ => none

/-- The code of a value of `LoadW` (R24). -/
def LoadW.code : LoadW → BitVec 3
  | .i8 => 0#3
  | .n8 => 1#3
  | .i16 => 2#3
  | .n16 => 3#3
  | .i32 => 4#3
  | .n32 => 5#3
  | .x64 => 6#3

/-- The value of `LoadW` that a code names (R24). -/
def LoadW.ofCode (c : BitVec 3) : Option LoadW :=
  match c with
  | 0#3 => some .i8
  | 1#3 => some .n8
  | 2#3 => some .i16
  | 3#3 => some .n16
  | 4#3 => some .i32
  | 5#3 => some .n32
  | 6#3 => some .x64
  | _ => none

/-- The code of a value of `StoreW` (R24). -/
def StoreW.code : StoreW → BitVec 3
  | .b8 => 0#3
  | .b16 => 2#3
  | .b32 => 4#3
  | .b64 => 6#3

/-- The value of `StoreW` that a code names (R24). -/
def StoreW.ofCode (c : BitVec 3) : Option StoreW :=
  match c with
  | 0#3 => some .b8
  | 2#3 => some .b16
  | 4#3 => some .b32
  | 6#3 => some .b64
  | _ => none

/-- The code of a value of `AmoOp` (R26). -/
def AmoOp.code : AmoOp → BitVec 4
  | .add => 0#4
  | .and => 1#4
  | .or => 2#4
  | .xor => 3#4
  | .min => 4#4
  | .max => 5#4
  | .minn => 6#4
  | .maxn => 7#4
  | .xchg => 8#4
  | .cas => 9#4
  | .faddF32 => 10#4
  | .faddBf16x2 => 11#4
  | .fmaxF32 => 12#4

/-- The value of `AmoOp` that a code names (R26). -/
def AmoOp.ofCode (c : BitVec 4) : Option AmoOp :=
  match c with
  | 0#4 => some .add
  | 1#4 => some .and
  | 2#4 => some .or
  | 3#4 => some .xor
  | 4#4 => some .min
  | 5#4 => some .max
  | 6#4 => some .minn
  | 7#4 => some .maxn
  | 8#4 => some .xchg
  | 9#4 => some .cas
  | 10#4 => some .faddF32
  | 11#4 => some .faddBf16x2
  | 12#4 => some .fmaxF32
  | _ => none

/-- The code of a value of `CombTy` (R27). -/
def CombTy.code : CombTy → BitVec 2
  | .n64 => 0#2
  | .i64 => 1#2
  | .f32 => 2#2

/-- The value of `CombTy` that a code names (R27). -/
def CombTy.ofCode (c : BitVec 2) : Option CombTy :=
  match c with
  | 0#2 => some .n64
  | 1#2 => some .i64
  | 2#2 => some .f32
  | _ => none

/-- The code of a value of `RedvnTy` (R36). -/
def RedvnTy.code : RedvnTy → BitVec 2
  | .i64 => 0#2
  | .f32 => 1#2
  | .bf16x2 => 2#2

/-- The value of `RedvnTy` that a code names (R36). -/
def RedvnTy.ofCode (c : BitVec 2) : Option RedvnTy :=
  match c with
  | 0#2 => some .i64
  | 1#2 => some .f32
  | 2#2 => some .bf16x2
  | _ => none

/-- The function code of LDX (R25). -/
def ldxFn (w : LoadW) : BitVec 11 := 0#8 ++ w.code
/-- The function code of STX (R25): 8 with the width in [2:1]. -/
def stxFn : StoreW → BitVec 11
  | .b8 => 0x008
  | .b16 => 0x00A
  | .b32 => 0x00C
  | .b64 => 0x00E

/-- What the fields of a word give, or the name of the check that fails. -/
abbrev Decoded := Except DecodeError Instr

/-- Goes on with the value a code names; a code that names none is illegal. -/
def withCode {α : Type} (c : Option α) (k : α → Decoded) : Decoded :=
  match c with
  | some x => k x
  | none => .error .codeIllegal
/-- Goes on where a fixed code field holds its code. -/
def needCode (ok : Bool) (r : Decoded) : Decoded := if ok then r else .error .codeIllegal
/-- Goes on where the must-be-zero fields are zero (R37). -/
def needZero (ok : Bool) (r : Decoded) : Decoded := if ok then r else .error .mustBeZero
/-- An instruction whose fields are well formed (R16, R18, R23 to R35); other field values are illegal codes. -/
def ofFields (i : Instr) : Decoded := if i.wf then .ok i else .error .codeIllegal

/-- The function codes of group ALU (R22). -/
def decodeAlu (w : Word32) : Decoded :=
  match fld w 0 11 with
  | 0x0#11 => ofFields (.add (fld w 21 5) (fld w 16 5) (fld w 11 5))
  | 0x1#11 => ofFields (.sub (fld w 21 5) (fld w 16 5) (fld w 11 5))
  | 0x2#11 => ofFields (.and (fld w 21 5) (fld w 16 5) (fld w 11 5))
  | 0x3#11 => ofFields (.or (fld w 21 5) (fld w 16 5) (fld w 11 5))
  | 0x4#11 => ofFields (.xor (fld w 21 5) (fld w 16 5) (fld w 11 5))
  | 0x5#11 => ofFields (.andn (fld w 21 5) (fld w 16 5) (fld w 11 5))
  | 0x6#11 => ofFields (.orn (fld w 21 5) (fld w 16 5) (fld w 11 5))
  | 0x7#11 => ofFields (.shl (fld w 21 5) (fld w 16 5) (fld w 11 5))
  | 0x8#11 => ofFields (.shr (fld w 21 5) (fld w 16 5) (fld w 11 5))
  | 0x9#11 => ofFields (.sra (fld w 21 5) (fld w 16 5) (fld w 11 5))
  | 0xa#11 => ofFields (.rol (fld w 21 5) (fld w 16 5) (fld w 11 5))
  | 0xb#11 => ofFields (.slt (fld w 21 5) (fld w 16 5) (fld w 11 5))
  | 0xc#11 => ofFields (.sltn (fld w 21 5) (fld w 16 5) (fld w 11 5))
  | 0xd#11 => ofFields (.seq (fld w 21 5) (fld w 16 5) (fld w 11 5))
  | 0xe#11 => ofFields (.min (fld w 21 5) (fld w 16 5) (fld w 11 5))
  | 0xf#11 => ofFields (.max (fld w 21 5) (fld w 16 5) (fld w 11 5))
  | 0x10#11 => ofFields (.minn (fld w 21 5) (fld w 16 5) (fld w 11 5))
  | 0x11#11 => ofFields (.maxn (fld w 21 5) (fld w 16 5) (fld w 11 5))
  | 0x12#11 => ofFields (.mul (fld w 21 5) (fld w 16 5) (fld w 11 5))
  | 0x13#11 => ofFields (.mulh (fld w 21 5) (fld w 16 5) (fld w 11 5))
  | 0x14#11 => ofFields (.mulhn (fld w 21 5) (fld w 16 5) (fld w 11 5))
  | 0x15#11 => ofFields (.div (fld w 21 5) (fld w 16 5) (fld w 11 5))
  | 0x16#11 => ofFields (.divn (fld w 21 5) (fld w 16 5) (fld w 11 5))
  | 0x17#11 => ofFields (.rem (fld w 21 5) (fld w 16 5) (fld w 11 5))
  | 0x18#11 => ofFields (.remn (fld w 21 5) (fld w 16 5) (fld w 11 5))
  | 0x19#11 => ofFields (.mad (fld w 21 5) (fld w 16 5) (fld w 11 5))
  | 0x1a#11 => needZero (fld w 11 5 == 0) <| ofFields (.clz (fld w 21 5) (fld w 16 5))
  | 0x1b#11 => needZero (fld w 11 5 == 0) <| ofFields (.ctz (fld w 21 5) (fld w 16 5))
  | 0x1c#11 => needZero (fld w 11 5 == 0) <| ofFields (.pop (fld w 21 5) (fld w 16 5))
  | 0x1d#11 => needZero (fld w 11 5 == 0) <| ofFields (.bswap (fld w 21 5) (fld w 16 5))
  | 0x1e#11 => needZero (fld w 11 5 == 0) <| ofFields (.sextB (fld w 21 5) (fld w 16 5))
  | 0x1f#11 => needZero (fld w 11 5 == 0) <| ofFields (.sextH (fld w 21 5) (fld w 16 5))
  | 0x20#11 => needZero (fld w 11 5 == 0) <| ofFields (.sextW (fld w 21 5) (fld w 16 5))
  | 0x21#11 => needZero (fld w 11 5 == 0) <| ofFields (.zextB (fld w 21 5) (fld w 16 5))
  | 0x22#11 => needZero (fld w 11 5 == 0) <| ofFields (.zextH (fld w 21 5) (fld w 16 5))
  | 0x23#11 => needZero (fld w 11 5 == 0) <| ofFields (.zextW (fld w 21 5) (fld w 16 5))
  | 0x24#11 => ofFields (.bext (fld w 21 5) (fld w 16 5) (fld w 11 5))
  | 0x25#11 => ofFields (.fshr (fld w 21 5) (fld w 16 5) (fld w 11 5))
  | 0x26#11 => ofFields (.fshl (fld w 21 5) (fld w 16 5) (fld w 11 5))
  | _ => .error .unassigned

/-- The function codes of group SHI (R23). -/
def decodeShi (w : Word32) : Decoded :=
  match fld w 8 2 with
  | 0x0#2 => needZero (fld w 11 5 == 0 && fld w 10 1 == 0 && fld w 6 2 == 0) <| ofFields (.shli (fld w 21 5) (fld w 16 5) (fld w 0 6))
  | 0x1#2 => needZero (fld w 11 5 == 0 && fld w 10 1 == 0 && fld w 6 2 == 0) <| ofFields (.shri (fld w 21 5) (fld w 16 5) (fld w 0 6))
  | 0x2#2 => needZero (fld w 11 5 == 0 && fld w 10 1 == 0 && fld w 6 2 == 0) <| ofFields (.srai (fld w 21 5) (fld w 16 5) (fld w 0 6))
  | _ => needZero (fld w 11 5 == 0 && fld w 10 1 == 0 && fld w 6 2 == 0) <| ofFields (.roli (fld w 21 5) (fld w 16 5) (fld w 0 6))

/-- The function codes of group BFI (R23). -/
def decodeBfi (w : Word32) : Decoded :=
  match fld w 12 4 with
  | 0x0#4 => ofFields (.bexti (fld w 21 5) (fld w 16 5) (fld w 6 6) (fld w 0 6))
  | 0x1#4 => ofFields (.bextsi (fld w 21 5) (fld w 16 5) (fld w 6 6) (fld w 0 6))
  | 0x2#4 => ofFields (.binsi (fld w 21 5) (fld w 16 5) (fld w 6 6) (fld w 0 6))
  | 0x3#4 => needZero (fld w 11 1 == 0 && fld w 6 5 == 0) <| ofFields (.fshli (fld w 21 5) (fld w 16 5) (fld w 0 6))
  | 0x4#4 => needZero (fld w 11 1 == 0 && fld w 6 5 == 0) <| ofFields (.fshri (fld w 21 5) (fld w 16 5) (fld w 0 6))
  | _ => .error .unassigned

/-- The function codes of group MEMX (R25). -/
def decodeMemx (w : Word32) : Decoded :=
  match fld w 0 11 with
  | 0x0#11 => ofFields (.ldx .i8 (fld w 21 5) (fld w 16 5) (fld w 11 5))
  | 0x1#11 => ofFields (.ldx .n8 (fld w 21 5) (fld w 16 5) (fld w 11 5))
  | 0x2#11 => ofFields (.ldx .i16 (fld w 21 5) (fld w 16 5) (fld w 11 5))
  | 0x3#11 => ofFields (.ldx .n16 (fld w 21 5) (fld w 16 5) (fld w 11 5))
  | 0x4#11 => ofFields (.ldx .i32 (fld w 21 5) (fld w 16 5) (fld w 11 5))
  | 0x5#11 => ofFields (.ldx .n32 (fld w 21 5) (fld w 16 5) (fld w 11 5))
  | 0x6#11 => ofFields (.ldx .x64 (fld w 21 5) (fld w 16 5) (fld w 11 5))
  | 0x8#11 => ofFields (.stx .b8 (fld w 21 5) (fld w 16 5) (fld w 11 5))
  | 0xa#11 => ofFields (.stx .b16 (fld w 21 5) (fld w 16 5) (fld w 11 5))
  | 0xc#11 => ofFields (.stx .b32 (fld w 21 5) (fld w 16 5) (fld w 11 5))
  | 0xe#11 => ofFields (.stx .b64 (fld w 21 5) (fld w 16 5) (fld w 11 5))
  | 0x10#11 => needZero (fld w 21 5 == 0 && fld w 11 5 == 0) <| ofFields (.pfg (fld w 16 5))
  | 0x11#11 => needZero (fld w 21 5 == 0) <| ofFields (.cwb (fld w 16 5) (fld w 11 5))
  | 0x12#11 => needZero (fld w 21 5 == 0) <| ofFields (.cinv (fld w 16 5) (fld w 11 5))
  | 0x13#11 => needZero (fld w 21 5 == 0) <| ofFields (.cdisc (fld w 16 5) (fld w 11 5))
  | _ => .error .unassigned

/-- The function codes of group AMO (R26). -/
def decodeAmoGroup (w : Word32) : Decoded :=
  match fld w 5 1 with
  | 0x1#1 => withCode (AmoOp.ofCode (fld w 0 4)) fun op => withCode (AmoScope.ofCode (fld w 6 3)) fun sc => needZero (fld w 9 2 == 0) <| ofFields (.amo op ((fld w 4 1) == 1) sc (fld w 21 5) (fld w 16 5) (fld w 11 5))
  | _ => withCode (AmoOp.ofCode (fld w 0 4)) fun op => withCode (AmoScope.ofCode (fld w 6 3)) fun sc => needZero (fld w 21 5 == 0 && fld w 9 2 == 0) <| ofFields (.red op ((fld w 4 1) == 1) sc (fld w 16 5) (fld w 11 5))

/-- The function codes of group SYNC (R27). -/
def decodeSync (w : Word32) : Decoded :=
  match fld w 0 4 with
  | 0x0#4 => withCode (Scope.ofCode (fld w 7 3)) fun sc => needZero (fld w 21 5 == 0 && fld w 16 5 == 0 && fld w 10 1 == 0 && fld w 4 3 == 0) <| ofFields (.fenceAcq sc (fld w 11 5))
  | 0x1#4 => withCode (Scope.ofCode (fld w 7 3)) fun sc => needZero (fld w 21 5 == 0 && fld w 16 5 == 0 && fld w 10 1 == 0 && fld w 4 3 == 0) <| ofFields (.fenceRel sc (fld w 11 5))
  | 0x2#4 => withCode (Scope.ofCode (fld w 7 3)) fun sc => needZero (fld w 21 5 == 0 && fld w 16 5 == 0 && fld w 10 1 == 0 && fld w 4 3 == 0) <| ofFields (.fenceAr sc (fld w 11 5))
  | 0x3#4 => withCode (Scope.ofCode (fld w 7 3)) fun sc => needZero (fld w 21 5 == 0 && fld w 16 5 == 0 && fld w 10 1 == 0 && fld w 4 3 == 0) <| ofFields (.bar sc (fld w 11 5))
  | 0x4#4 => withCode (CombTy.ofCode (fld w 4 2)) fun t => withCode (Scope.ofCode (fld w 7 3)) fun sc => needZero (fld w 10 1 == 0 && fld w 6 1 == 0) <| ofFields (.barmax t sc (fld w 21 5) (fld w 16 5) (fld w 11 5))
  | 0x5#4 => withCode (CombTy.ofCode (fld w 4 2)) fun t => withCode (Scope.ofCode (fld w 7 3)) fun sc => needZero (fld w 10 1 == 0 && fld w 6 1 == 0) <| ofFields (.barsum t sc (fld w 21 5) (fld w 16 5) (fld w 11 5))
  | 0x6#4 => withCode (CombTy.ofCode (fld w 4 2)) fun t => withCode (Scope.ofCode (fld w 7 3)) fun sc => needZero (fld w 10 1 == 0 && fld w 6 1 == 0) <| ofFields (.barmin t sc (fld w 21 5) (fld w 16 5) (fld w 11 5))
  | 0x7#4 => needZero (fld w 11 5 == 0 && fld w 4 7 == 0) <| ofFields (.waitge (fld w 21 5) (fld w 16 5))
  | _ => .error .unassigned

/-- The function codes of group LAND (R28). -/
def decodeLand (w : Word32) : Decoded :=
  match fld w 0 11 with
  | 0x0#11 => needZero (fld w 16 5 == 0) <| ofFields (.putl (fld w 11 5) (fld w 21 5))
  | 0x1#11 => ofFields (.rput (fld w 11 5) (fld w 21 5) (fld w 16 5))
  | 0x2#11 => needZero (fld w 16 5 == 0) <| ofFields (.take (fld w 21 5) (fld w 11 5))
  | 0x3#11 => needZero (fld w 16 5 == 0) <| ofFields (.peek (fld w 21 5) (fld w 11 5))
  | 0x4#11 => needZero (fld w 16 5 == 0) <| ofFields (.testl (fld w 21 5) (fld w 11 5))
  | 0x5#11 => needZero (fld w 21 5 == 0 && fld w 16 5 == 0) <| ofFields (.clrl (fld w 11 5))
  | _ => .error .unassigned

/-- The function codes of group MSG (R28). -/
def decodeMsg (w : Word32) : Decoded :=
  match fld w 0 11 with
  | 0x0#11 => needZero (fld w 21 5 == 0) <| ofFields (.rputm (fld w 16 5) (fld w 11 5))
  | 0x1#11 => needZero (fld w 21 5 == 0) <| ofFields (.rputmv (fld w 16 5) (fld w 11 5))
  | 0x2#11 => needZero (fld w 21 5 == 0) <| ofFields (.msnd (fld w 16 5) (fld w 11 5))
  | 0x3#11 => needZero (fld w 16 5 == 0 && fld w 11 5 == 0) <| ofFields (.mrcv (fld w 21 5))
  | 0x4#11 => needZero (fld w 21 5 == 0 && fld w 11 5 == 0) <| ofFields (.waitm (fld w 16 5))
  | 0x5#11 => needZero (fld w 21 5 == 0) <| ofFields (.msndn (fld w 16 5) (fld w 11 5))
  | 0x6#11 => needZero (fld w 11 5 == 0) <| ofFields (.mrcvn (fld w 21 5) (fld w 16 5))
  | 0x7#11 => needZero (fld w 21 5 == 0 && fld w 16 5 == 0 && fld w 11 5 == 0) <| ofFields (.evon)
  | 0x8#11 => needZero (fld w 21 5 == 0 && fld w 16 5 == 0 && fld w 11 5 == 0) <| ofFields (.evoff)
  | 0x9#11 => needZero (fld w 21 5 == 0 && fld w 16 5 == 0 && fld w 11 5 == 0) <| ofFields (.evret)
  | _ => .error .unassigned

/-- The function codes of group THRD (R28). -/
def decodeThrd (w : Word32) : Decoded :=
  match fld w 0 11 with
  | 0x0#11 => needZero (fld w 21 5 == 0 && fld w 16 5 == 0 && fld w 11 5 == 0) <| ofFields (.yield)
  | 0x1#11 => needZero (fld w 21 5 == 0 && fld w 16 5 == 0 && fld w 11 5 == 0) <| ofFields (.park)
  | 0x2#11 => needZero (fld w 21 5 == 0 && fld w 11 5 == 0) <| ofFields (.wake (fld w 16 5))
  | 0x3#11 => needZero (fld w 11 5 == 0) <| ofFields (.dqpush (fld w 21 5) (fld w 16 5))
  | 0x4#11 => needZero (fld w 11 5 == 0) <| ofFields (.dqpop (fld w 21 5) (fld w 16 5))
  | 0x5#11 => needZero (fld w 16 5 == 0 && fld w 11 5 == 0) <| ofFields (.dqsplit (fld w 21 5))
  | 0x6#11 => needZero (fld w 11 5 == 0) <| ofFields (.dqsteal (fld w 21 5) (fld w 16 5))
  | 0x7#11 => needZero (fld w 21 5 == 0) <| ofFields (.tsend (fld w 16 5) (fld w 11 5))
  | 0x8#11 => needZero (fld w 21 5 == 0 && fld w 16 5 == 0 && fld w 11 5 == 0) <| ofFields (.tret)
  | 0x9#11 => needZero (fld w 16 5 == 0 && fld w 11 5 == 0) <| ofFields (.dqnext (fld w 21 5))
  | 0xa#11 => ofFields (.launch (fld w 21 5) (fld w 16 5) (fld w 11 5))
  | _ => .error .unassigned

/-- The function codes of group CSR (R28, R29). -/
def decodeCsrGroup (w : Word32) : Decoded :=
  match fld w 0 4 with
  | 0x0#4 => needZero (fld w 16 5 == 0) <| ofFields (.csrr (fld w 21 5) (fld w 4 12))
  | 0x1#4 => ofFields (.csrw (fld w 21 5) (fld w 16 5) (fld w 4 12))
  | 0x2#4 => ofFields (.csrs (fld w 21 5) (fld w 16 5) (fld w 4 12))
  | 0x3#4 => ofFields (.csrc (fld w 21 5) (fld w 16 5) (fld w 4 12))
  | _ => .error .unassigned

/-- The function codes of group SYS (R28). -/
def decodeSys (w : Word32) : Decoded :=
  match fld w 0 11 with
  | 0x0#11 => needZero (fld w 21 5 == 0 && fld w 16 5 == 0) <| ofFields (.trap (fld w 11 5))
  | 0x1#11 => needZero (fld w 21 5 == 0 && fld w 16 5 == 0 && fld w 11 5 == 0) <| ofFields (.brk)
  | 0x2#11 => needZero (fld w 21 5 == 0 && fld w 16 5 == 0 && fld w 11 5 == 0) <| ofFields (.ifence)
  | 0x3#11 => needZero (fld w 21 5 == 0 && fld w 16 5 == 0 && fld w 11 5 == 0) <| ofFields (.eret)
  | 0x4#11 => needZero (fld w 21 5 == 0 && fld w 16 5 == 0 && fld w 11 5 == 0) <| ofFields (.halt)
  | _ => .error .unassigned

/-- The function codes of group FPS (R30). -/
def decodeFps (w : Word32) : Decoded :=
  match fld w 0 5 with
  | 0x0#5 => needZero (fld w 9 2 == 0) <| ofFields (.fadd (ElemTy.ofCode (fld w 5 4)) (fld w 21 5) (fld w 16 5) (fld w 11 5))
  | 0x1#5 => needZero (fld w 9 2 == 0) <| ofFields (.fsub (ElemTy.ofCode (fld w 5 4)) (fld w 21 5) (fld w 16 5) (fld w 11 5))
  | 0x2#5 => needZero (fld w 9 2 == 0) <| ofFields (.fmul (ElemTy.ofCode (fld w 5 4)) (fld w 21 5) (fld w 16 5) (fld w 11 5))
  | 0x3#5 => needZero (fld w 9 2 == 0) <| ofFields (.ffma (ElemTy.ofCode (fld w 5 4)) (fld w 21 5) (fld w 16 5) (fld w 11 5))
  | 0x4#5 => needZero (fld w 9 2 == 0) <| ofFields (.fmin (ElemTy.ofCode (fld w 5 4)) (fld w 21 5) (fld w 16 5) (fld w 11 5))
  | 0x5#5 => needZero (fld w 9 2 == 0) <| ofFields (.fmax (ElemTy.ofCode (fld w 5 4)) (fld w 21 5) (fld w 16 5) (fld w 11 5))
  | 0x6#5 => needZero (fld w 11 5 == 0 && fld w 9 2 == 0) <| ofFields (.fabs (ElemTy.ofCode (fld w 5 4)) (fld w 21 5) (fld w 16 5))
  | 0x7#5 => needZero (fld w 11 5 == 0 && fld w 9 2 == 0) <| ofFields (.fneg (ElemTy.ofCode (fld w 5 4)) (fld w 21 5) (fld w 16 5))
  | 0x8#5 => needZero (fld w 9 2 == 0) <| ofFields (.feq (ElemTy.ofCode (fld w 5 4)) (fld w 21 5) (fld w 16 5) (fld w 11 5))
  | 0x9#5 => needZero (fld w 9 2 == 0) <| ofFields (.flt (ElemTy.ofCode (fld w 5 4)) (fld w 21 5) (fld w 16 5) (fld w 11 5))
  | 0xa#5 => needZero (fld w 9 2 == 0) <| ofFields (.fle (ElemTy.ofCode (fld w 5 4)) (fld w 21 5) (fld w 16 5) (fld w 11 5))
  | 0xb#5 => needZero (fld w 15 1 == 0 && fld w 9 2 == 0) <| ofFields (.fcvt (ElemTy.ofCode (fld w 5 4)) (ElemTy.ofCode (fld w 11 4)) (fld w 21 5) (fld w 16 5))
  | 0xc#5 => needZero (fld w 9 2 == 0) <| ofFields (.fdiv (ElemTy.ofCode (fld w 5 4)) (fld w 21 5) (fld w 16 5) (fld w 11 5))
  | 0xd#5 => needZero (fld w 11 5 == 0 && fld w 9 2 == 0) <| ofFields (.fsqrt (ElemTy.ofCode (fld w 5 4)) (fld w 21 5) (fld w 16 5))
  | 0xe#5 => needZero (fld w 11 5 == 0 && fld w 9 2 == 0) <| ofFields (.fclass (ElemTy.ofCode (fld w 5 4)) (fld w 21 5) (fld w 16 5))
  | _ => .error .unassigned

/-- The function codes of group VAR (R31). -/
def decodeVar (w : Word32) : Decoded :=
  match fld w 0 4 with
  | 0x0#4 => ofFields (.vadd (ElemTy.ofCode (fld w 4 4)) (fld w 21 5) (fld w 16 5) (fld w 11 5) (fld w 8 3))
  | 0x1#4 => ofFields (.vsub (ElemTy.ofCode (fld w 4 4)) (fld w 21 5) (fld w 16 5) (fld w 11 5) (fld w 8 3))
  | 0x2#4 => ofFields (.vmul (ElemTy.ofCode (fld w 4 4)) (fld w 21 5) (fld w 16 5) (fld w 11 5) (fld w 8 3))
  | 0x3#4 => ofFields (.vfma (ElemTy.ofCode (fld w 4 4)) (fld w 21 5) (fld w 16 5) (fld w 11 5) (fld w 8 3))
  | 0x4#4 => ofFields (.vfms (ElemTy.ofCode (fld w 4 4)) (fld w 21 5) (fld w 16 5) (fld w 11 5) (fld w 8 3))
  | 0x5#4 => ofFields (.vmin (ElemTy.ofCode (fld w 4 4)) (fld w 21 5) (fld w 16 5) (fld w 11 5) (fld w 8 3))
  | 0x6#4 => ofFields (.vmax (ElemTy.ofCode (fld w 4 4)) (fld w 21 5) (fld w 16 5) (fld w 11 5) (fld w 8 3))
  | 0x7#4 => needZero (fld w 11 5 == 0) <| ofFields (.vabs (ElemTy.ofCode (fld w 4 4)) (fld w 21 5) (fld w 16 5) (fld w 8 3))
  | 0x8#4 => needZero (fld w 11 5 == 0) <| ofFields (.vneg (ElemTy.ofCode (fld w 4 4)) (fld w 21 5) (fld w 16 5) (fld w 8 3))
  | 0x9#4 => ofFields (.vdot4 (ElemTy.ofCode (fld w 4 4)) (fld w 21 5) (fld w 16 5) (fld w 11 5) (fld w 8 3))
  | 0xa#4 => ofFields (.vmulh (ElemTy.ofCode (fld w 4 4)) (fld w 21 5) (fld w 16 5) (fld w 11 5) (fld w 8 3))
  | _ => .error .unassigned

/-- The function codes of group VLG (R31). -/
def decodeVlg (w : Word32) : Decoded :=
  match fld w 0 4 with
  | 0x0#4 => ofFields (.vand (ElemTy.ofCode (fld w 4 4)) (fld w 21 5) (fld w 16 5) (fld w 11 5) (fld w 8 3))
  | 0x1#4 => ofFields (.vor (ElemTy.ofCode (fld w 4 4)) (fld w 21 5) (fld w 16 5) (fld w 11 5) (fld w 8 3))
  | 0x2#4 => ofFields (.vxor (ElemTy.ofCode (fld w 4 4)) (fld w 21 5) (fld w 16 5) (fld w 11 5) (fld w 8 3))
  | 0x3#4 => needZero (fld w 11 5 == 0) <| ofFields (.vnot (ElemTy.ofCode (fld w 4 4)) (fld w 21 5) (fld w 16 5) (fld w 8 3))
  | 0x4#4 => ofFields (.vshl (ElemTy.ofCode (fld w 4 4)) (fld w 21 5) (fld w 16 5) (fld w 11 5) (fld w 8 3))
  | 0x5#4 => ofFields (.vshr (ElemTy.ofCode (fld w 4 4)) (fld w 21 5) (fld w 16 5) (fld w 11 5) (fld w 8 3))
  | 0x6#4 => ofFields (.vsra (ElemTy.ofCode (fld w 4 4)) (fld w 21 5) (fld w 16 5) (fld w 11 5) (fld w 8 3))
  | 0x7#4 => needZero (fld w 11 5 == 0) <| ofFields (.vpopc (ElemTy.ofCode (fld w 4 4)) (fld w 21 5) (fld w 16 5) (fld w 8 3))
  | _ => .error .unassigned

/-- The function codes of group VCM (R31). -/
def decodeVcm (w : Word32) : Decoded :=
  match fld w 0 4 with
  | 0x0#4 => needZero (fld w 24 2 == 0) <| ofFields (.vcmpeq (ElemTy.ofCode (fld w 4 4)) (fld w 21 3) (fld w 16 5) (fld w 11 5) (fld w 8 3))
  | 0x1#4 => needZero (fld w 24 2 == 0) <| ofFields (.vcmpne (ElemTy.ofCode (fld w 4 4)) (fld w 21 3) (fld w 16 5) (fld w 11 5) (fld w 8 3))
  | 0x2#4 => needZero (fld w 24 2 == 0) <| ofFields (.vcmplt (ElemTy.ofCode (fld w 4 4)) (fld w 21 3) (fld w 16 5) (fld w 11 5) (fld w 8 3))
  | 0x3#4 => needZero (fld w 24 2 == 0) <| ofFields (.vcmple (ElemTy.ofCode (fld w 4 4)) (fld w 21 3) (fld w 16 5) (fld w 11 5) (fld w 8 3))
  | 0x4#4 => ofFields (.vsel (ElemTy.ofCode (fld w 4 4)) (fld w 21 5) (fld w 16 5) (fld w 11 5) (fld w 8 3))
  | 0x5#4 => needZero (fld w 24 2 == 0 && fld w 19 2 == 0 && fld w 14 2 == 0 && fld w 4 7 == 0) <| ofFields (.kand (fld w 21 3) (fld w 16 3) (fld w 11 3))
  | 0x6#4 => needZero (fld w 24 2 == 0 && fld w 19 2 == 0 && fld w 14 2 == 0 && fld w 4 7 == 0) <| ofFields (.kor (fld w 21 3) (fld w 16 3) (fld w 11 3))
  | 0x7#4 => needZero (fld w 24 2 == 0 && fld w 19 2 == 0 && fld w 14 2 == 0 && fld w 4 7 == 0) <| ofFields (.kxor (fld w 21 3) (fld w 16 3) (fld w 11 3))
  | 0x8#4 => needZero (fld w 24 2 == 0 && fld w 19 2 == 0 && fld w 11 5 == 0 && fld w 4 7 == 0) <| ofFields (.knot (fld w 21 3) (fld w 16 3))
  | _ => .error .unassigned

/-- The function codes of group VCV (R31). -/
def decodeVcv (w : Word32) : Decoded :=
  match fld w 0 4 with
  | 0x0#4 => needZero (fld w 15 1 == 0) <| ofFields (.vcvt (ElemTy.ofCode (fld w 4 4)) (ElemTy.ofCode (fld w 11 4)) (fld w 21 5) (fld w 16 5) (fld w 8 3))
  | 0x1#4 => needCode (fld w 4 4 == 14) <| needZero (fld w 11 5 == 0) <| ofFields (.vdec (fld w 21 5) (fld w 16 5) (fld w 8 3))
  | 0x2#4 => needZero (fld w 11 5 == 0) <| ofFields (.venc (ElemTy.ofCode (fld w 4 4)) (fld w 21 5) (fld w 16 5) (fld w 8 3))
  | 0x3#4 => needCode (fld w 4 4 == 14) <| needZero (fld w 21 5 == 0 && fld w 11 5 == 0 && fld w 8 3 == 0) <| ofFields (.vdtld (fld w 16 5))
  | 0x4#4 => ofFields (.vqnt (ElemTy.ofCode (fld w 4 4)) (fld w 21 5) (fld w 16 5) (fld w 11 5) (fld w 8 3))
  | 0x5#4 => ofFields (.vdqnt (ElemTy.ofCode (fld w 4 4)) (fld w 21 5) (fld w 16 5) (fld w 11 5) (fld w 8 3))
  | _ => .error .unassigned

/-- The function codes of group VSF (R31). -/
def decodeVsf (w : Word32) : Decoded :=
  match fld w 0 4 with
  | 0x0#4 => needZero (fld w 11 5 == 0 && fld w 4 4 == 0) <| ofFields (.vexp2 (fld w 21 5) (fld w 16 5) (fld w 8 3))
  | 0x1#4 => needZero (fld w 11 5 == 0 && fld w 4 4 == 0) <| ofFields (.vlog2 (fld w 21 5) (fld w 16 5) (fld w 8 3))
  | 0x2#4 => needZero (fld w 11 5 == 0 && fld w 4 4 == 0) <| ofFields (.vrcp (fld w 21 5) (fld w 16 5) (fld w 8 3))
  | 0x3#4 => needZero (fld w 11 5 == 0 && fld w 4 4 == 0) <| ofFields (.vrsq (fld w 21 5) (fld w 16 5) (fld w 8 3))
  | 0x4#4 => needZero (fld w 11 5 == 0 && fld w 4 4 == 0) <| ofFields (.vtanh (fld w 21 5) (fld w 16 5) (fld w 8 3))
  | 0x5#4 => needZero (fld w 11 5 == 0 && fld w 4 4 == 0) <| ofFields (.vsigm (fld w 21 5) (fld w 16 5) (fld w 8 3))
  | _ => .error .unassigned

/-- The function codes of group VPR (R31). -/
def decodeVpr (w : Word32) : Decoded :=
  match fld w 0 4 with
  | 0x0#4 => ofFields (.vperm (ElemTy.ofCode (fld w 4 4)) (fld w 21 5) (fld w 16 5) (fld w 11 5) (fld w 8 3))
  | 0x1#4 => ofFields (.vslide (ElemTy.ofCode (fld w 4 4)) (fld w 21 5) (fld w 16 5) (fld w 11 5) (fld w 8 3))
  | 0x2#4 => ofFields (.vbcast (ElemTy.ofCode (fld w 4 4)) (fld w 21 5) (fld w 16 5) (fld w 11 5) (fld w 8 3))
  | 0x3#4 => needZero (fld w 11 5 == 0) <| ofFields (.vredsum (ElemTy.ofCode (fld w 4 4)) (fld w 21 5) (fld w 16 5) (fld w 8 3))
  | 0x4#4 => needZero (fld w 11 5 == 0) <| ofFields (.vredmax (ElemTy.ofCode (fld w 4 4)) (fld w 21 5) (fld w 16 5) (fld w 8 3))
  | 0x5#4 => needZero (fld w 11 5 == 0) <| ofFields (.vredmin (ElemTy.ofCode (fld w 4 4)) (fld w 21 5) (fld w 16 5) (fld w 8 3))
  | 0x6#4 => needZero (fld w 11 5 == 0) <| ofFields (.vscan (ElemTy.ofCode (fld w 4 4)) (fld w 21 5) (fld w 16 5) (fld w 8 3))
  | 0x7#4 => needZero (fld w 11 5 == 0) <| ofFields (.vamaxb (ElemTy.ofCode (fld w 4 4)) (fld w 21 5) (fld w 16 5) (fld w 8 3))
  | _ => .error .unassigned

/-- The function codes of group VMM (R31). -/
def decodeVmm (w : Word32) : Decoded :=
  match fld w 0 4 with
  | 0x0#4 => needZero (fld w 4 4 == 0) <| ofFields (.vldl (fld w 21 5) (fld w 16 5) (fld w 11 5) (fld w 8 3))
  | 0x1#4 => needZero (fld w 4 4 == 0) <| ofFields (.vstl (fld w 21 5) (fld w 16 5) (fld w 11 5) (fld w 8 3))
  | 0x2#4 => needZero (fld w 4 4 == 0) <| ofFields (.vld (fld w 21 5) (fld w 16 5) (fld w 11 5) (fld w 8 3))
  | 0x3#4 => needZero (fld w 4 4 == 0) <| ofFields (.vst (fld w 21 5) (fld w 16 5) (fld w 11 5) (fld w 8 3))
  | 0x4#4 => ofFields (.vlds (ElemTy.ofCode (fld w 4 4)) (fld w 21 5) (fld w 16 5) (fld w 11 5) (fld w 8 3))
  | 0x5#4 => ofFields (.vsts (ElemTy.ofCode (fld w 4 4)) (fld w 21 5) (fld w 16 5) (fld w 11 5) (fld w 8 3))
  | 0x6#4 => ofFields (.vgth (ElemTy.ofCode (fld w 4 4)) (fld w 21 5) (fld w 16 5) (fld w 11 5) (fld w 8 3))
  | 0x7#4 => ofFields (.vsct (ElemTy.ofCode (fld w 4 4)) (fld w 21 5) (fld w 16 5) (fld w 11 5) (fld w 8 3))
  | 0x8#4 => ofFields (.vgthl (ElemTy.ofCode (fld w 4 4)) (fld w 21 5) (fld w 16 5) (fld w 11 5) (fld w 8 3))
  | 0x9#4 => ofFields (.vsctl (ElemTy.ofCode (fld w 4 4)) (fld w 21 5) (fld w 16 5) (fld w 11 5) (fld w 8 3))
  | _ => .error .unassigned

/-- The function codes of group VSC (R31). -/
def decodeVsc (w : Word32) : Decoded :=
  match fld w 0 4 with
  | 0x0#4 => ofFields (.vsadd (ElemTy.ofCode (fld w 4 4)) (fld w 21 5) (fld w 16 5) (fld w 11 5) (fld w 8 3))
  | 0x1#4 => ofFields (.vssub (ElemTy.ofCode (fld w 4 4)) (fld w 21 5) (fld w 16 5) (fld w 11 5) (fld w 8 3))
  | 0x2#4 => ofFields (.vsmul (ElemTy.ofCode (fld w 4 4)) (fld w 21 5) (fld w 16 5) (fld w 11 5) (fld w 8 3))
  | 0x3#4 => ofFields (.vsfma (ElemTy.ofCode (fld w 4 4)) (fld w 21 5) (fld w 16 5) (fld w 11 5) (fld w 8 3))
  | 0x4#4 => ofFields (.vsmin (ElemTy.ofCode (fld w 4 4)) (fld w 21 5) (fld w 16 5) (fld w 11 5) (fld w 8 3))
  | 0x5#4 => ofFields (.vsmax (ElemTy.ofCode (fld w 4 4)) (fld w 21 5) (fld w 16 5) (fld w 11 5) (fld w 8 3))
  | 0x6#4 => ofFields (.vsshl (ElemTy.ofCode (fld w 4 4)) (fld w 21 5) (fld w 16 5) (fld w 11 5) (fld w 8 3))
  | _ => .error .unassigned

/-- The function codes of group VMV (R31). -/
def decodeVmv (w : Word32) : Decoded :=
  match fld w 0 4 with
  | 0x0#4 => needZero (fld w 11 5 == 0) <| ofFields (.vsplat (ElemTy.ofCode (fld w 4 4)) (fld w 21 5) (fld w 16 5) (fld w 8 3))
  | 0x1#4 => needZero (fld w 8 3 == 0) <| ofFields (.vins (ElemTy.ofCode (fld w 4 4)) (fld w 21 5) (fld w 16 5) (fld w 11 5))
  | 0x2#4 => needZero (fld w 8 3 == 0) <| ofFields (.vext (ElemTy.ofCode (fld w 4 4)) (fld w 21 5) (fld w 16 5) (fld w 11 5))
  | 0x3#4 => needZero (fld w 16 5 == 0 && fld w 11 5 == 0) <| ofFields (.viota (ElemTy.ofCode (fld w 4 4)) (fld w 21 5) (fld w 8 3))
  | 0x4#4 => needZero (fld w 19 2 == 0 && fld w 11 5 == 0 && fld w 8 3 == 0) <| ofFields (.ktog (ElemTy.ofCode (fld w 4 4)) (fld w 21 5) (fld w 16 3))
  | 0x5#4 => needZero (fld w 24 2 == 0 && fld w 11 5 == 0 && fld w 8 3 == 0) <| ofFields (.gtok (ElemTy.ofCode (fld w 4 4)) (fld w 21 3) (fld w 16 5))
  | 0x6#4 => needZero (fld w 19 2 == 0 && fld w 11 5 == 0 && fld w 8 3 == 0) <| ofFields (.kpop (ElemTy.ofCode (fld w 4 4)) (fld w 21 5) (fld w 16 3))
  | 0x7#4 => needZero (fld w 11 5 == 0) <| ofFields (.vmov (ElemTy.ofCode (fld w 4 4)) (fld w 21 5) (fld w 16 5) (fld w 8 3))
  | _ => .error .unassigned

/-- The function codes of group MTX (R33). -/
def decodeMtx (w : Word32) : Decoded :=
  match fld w 0 4 with
  | 0x0#4 => ofFields (.mma (MtxTy.ofCode (fld w 4 3)) (KLen.ofCode (fld w 7 2)) (fld w 9 2) (fld w 21 5) (fld w 16 5) (fld w 11 5))
  | 0x1#4 => ofFields (.mmal (MtxTy.ofCode (fld w 4 3)) (KLen.ofCode (fld w 7 2)) (fld w 9 2) (fld w 21 5) (fld w 16 5) (fld w 11 5))
  | 0x2#4 => ofFields (.mmr (MtxTy.ofCode (fld w 4 3)) (KLen.ofCode (fld w 7 2)) (fld w 9 2) (fld w 21 5) (fld w 16 5) (fld w 11 5))
  | 0x3#4 => needZero (fld w 21 5 == 0 && fld w 11 5 == 0 && fld w 4 7 == 0) <| ofFields (.mwait (fld w 16 5))
  | 0x4#4 => needZero (fld w 16 5 == 0 && fld w 11 5 == 0 && fld w 4 7 == 0) <| ofFields (.mstat (fld w 21 5))
  | _ => .error .unassigned

/-- The function codes of group ACC (R34). -/
def decodeAcc (w : Word32) : Decoded :=
  match fld w 0 4 with
  | 0x0#4 => needZero (fld w 21 5 == 0 && fld w 16 5 == 0 && fld w 11 5 == 0 && fld w 4 5 == 0) <| ofFields (.accz (fld w 9 2))
  | 0x1#4 => needZero (fld w 16 5 == 0 && fld w 8 1 == 0) <| ofFields (.accst (ElemTy.ofCode (fld w 4 4)) (fld w 9 2) (fld w 11 5) (fld w 21 5))
  | 0x2#4 => needZero (fld w 16 5 == 0 && fld w 8 1 == 0) <| ofFields (.accld (ElemTy.ofCode (fld w 4 4)) (fld w 9 2) (fld w 11 5) (fld w 21 5))
  | 0x3#4 => needZero (fld w 11 5 == 0 && fld w 8 1 == 0) <| ofFields (.accstg (ElemTy.ofCode (fld w 4 4)) (fld w 9 2) (fld w 21 5) (fld w 16 5))
  | _ => .error .unassigned

/-- The function codes of group XF (R35). -/
def decodeXf (w : Word32) : Decoded :=
  match fld w 0 4 with
  | 0x0#4 => needZero (fld w 4 7 == 0) <| ofFields (.xld (fld w 21 5) (fld w 16 5) (fld w 11 5))
  | 0x1#4 => needZero (fld w 4 7 == 0) <| ofFields (.xst (fld w 21 5) (fld w 16 5) (fld w 11 5))
  | 0x2#4 => needZero (fld w 4 7 == 0) <| ofFields (.xput (fld w 21 5) (fld w 16 5) (fld w 11 5))
  | 0x3#4 => needZero (fld w 4 7 == 0) <| ofFields (.xaxb (fld w 21 5) (fld w 16 5) (fld w 11 5))
  | 0x4#4 => needZero (fld w 16 5 == 0 && fld w 4 7 == 0) <| ofFields (.xfill (fld w 21 5) (fld w 11 5))
  | 0x5#4 => needZero (fld w 16 5 == 0 && fld w 11 5 == 0 && fld w 4 7 == 0) <| ofFields (.xstat (fld w 21 5))
  | 0x6#4 => needZero (fld w 16 5 == 0 && fld w 11 5 == 0 && fld w 4 7 == 0) <| ofFields (.xcan (fld w 21 5))
  | 0x7#4 => needZero (fld w 4 7 == 0) <| ofFields (.xlm (fld w 21 5) (fld w 16 5) (fld w 11 5))
  | _ => .error .unassigned

/-- The function codes of group ATN (R36). -/
def decodeAtn (w : Word32) : Decoded :=
  match fld w 0 4 with
  | 0x0#4 => needZero (fld w 16 5 == 0 && fld w 11 5 == 0 && fld w 7 4 == 0) <| ofFields (.atbind (fld w 4 3) (fld w 21 5))
  | 0x1#4 => needZero (fld w 16 5 == 0 && fld w 7 4 == 0) <| ofFields (.atdig (fld w 4 3) (fld w 11 5) (fld w 21 5))
  | 0x2#4 => needZero (fld w 7 4 == 0) <| ofFields (.atld (fld w 4 3) (fld w 11 5) (fld w 21 5) (fld w 16 5))
  | 0x3#4 => needZero (fld w 7 4 == 0) <| ofFields (.atsg (fld w 4 3) (fld w 11 5) (fld w 21 5) (fld w 16 5))
  | 0x4#4 => needZero (fld w 21 5 == 0 && fld w 16 5 == 0 && fld w 7 4 == 0) <| ofFields (.atinfo (fld w 4 3) (fld w 11 5))
  | _ => .error .unassigned

/-- The function codes of group VN (R36). -/
def decodeVn (w : Word32) : Decoded :=
  match fld w 0 3 with
  | 0x0#3 => needZero (fld w 3 8 == 0) <| ofFields (.ldvn (fld w 21 5) (fld w 16 5) (fld w 11 5))
  | 0x1#3 => withCode (RedvnTy.ofCode (fld w 3 2)) fun t => needZero (fld w 5 6 == 0) <| ofFields (.redvn t (fld w 21 5) (fld w 16 5) (fld w 11 5))
  | 0x2#3 => needZero (fld w 3 8 == 0) <| ofFields (.stvn (fld w 21 5) (fld w 16 5) (fld w 11 5))
  | 0x3#3 => needZero (fld w 21 5 == 0 && fld w 3 8 == 0) <| ofFields (.vnopen (fld w 16 5) (fld w 11 5))
  | 0x4#3 => needZero (fld w 21 5 == 0 && fld w 3 8 == 0) <| ofFields (.vnseal (fld w 16 5) (fld w 11 5))
  | 0x5#3 => needZero (fld w 21 5 == 0 && fld w 3 8 == 0) <| ofFields (.vnrecl (fld w 16 5) (fld w 11 5))
  | 0x6#3 => needZero (fld w 3 8 == 0) <| ofFields (.vnstat (fld w 21 5) (fld w 16 5) (fld w 11 5))
  | _ => .error .unassigned

/-- The function codes of group RR (R36). -/
def decodeRr (w : Word32) : Decoded :=
  match fld w 0 11 with
  | 0x0#11 => needZero (fld w 21 5 == 0) <| ofFields (.rrbeg (fld w 16 5) (fld w 11 5))
  | 0x1#11 => needZero (fld w 21 5 == 0 && fld w 16 5 == 0) <| ofFields (.rrend (fld w 11 5))
  | 0x2#11 => needZero (fld w 21 5 == 0 && fld w 16 5 == 0) <| ofFields (.rrec (fld w 11 5))
  | 0x3#11 => needZero (fld w 21 5 == 0 && fld w 16 5 == 0) <| ofFields (.rroff (fld w 11 5))
  | 0x4#11 => ofFields (.rrstat (fld w 21 5) (fld w 16 5) (fld w 11 5))
  | _ => .error .unassigned

/-- The major opcode selects the group (R20); the others are reserved (R21). -/
def decode (w : Word32) : Decoded :=
  match fld w 26 6 with
  | 0x1#6 => decodeAlu w
  | 0x2#6 => ofFields (.addi (fld w 21 5) (fld w 16 5) (fld w 0 16))
  | 0x3#6 => ofFields (.andi (fld w 21 5) (fld w 16 5) (fld w 0 16))
  | 0x4#6 => ofFields (.ori (fld w 21 5) (fld w 16 5) (fld w 0 16))
  | 0x5#6 => ofFields (.xori (fld w 21 5) (fld w 16 5) (fld w 0 16))
  | 0x6#6 => ofFields (.slti (fld w 21 5) (fld w 16 5) (fld w 0 16))
  | 0x7#6 => decodeShi w
  | 0x8#6 => ofFields (.shlori (fld w 21 5) (fld w 16 5) (fld w 0 16))
  | 0x9#6 => ofFields (.lih (fld w 21 5) (fld w 0 21))
  | 0xa#6 => decodeBfi w
  | 0xb#6 => ofFields (.beq (fld w 21 5) (fld w 16 5) (fld w 0 16))
  | 0xc#6 => ofFields (.bne (fld w 21 5) (fld w 16 5) (fld w 0 16))
  | 0xd#6 => ofFields (.blt (fld w 21 5) (fld w 16 5) (fld w 0 16))
  | 0xe#6 => ofFields (.bge (fld w 21 5) (fld w 16 5) (fld w 0 16))
  | 0xf#6 => ofFields (.bltn (fld w 21 5) (fld w 16 5) (fld w 0 16))
  | 0x10#6 => ofFields (.bgen (fld w 21 5) (fld w 16 5) (fld w 0 16))
  | 0x11#6 => needZero (fld w 16 5 == 0) <| ofFields (.dbnz (fld w 21 5) (fld w 0 16))
  | 0x12#6 => ofFields (.jal (fld w 21 5) (fld w 0 21))
  | 0x13#6 => ofFields (.jalr (fld w 21 5) (fld w 16 5) (fld w 0 16))
  | 0x14#6 => withCode (LoadW.ofCode (fld w 13 3)) fun wc => ofFields (.ld wc (fld w 21 5) (fld w 16 5) (fld w 0 13))
  | 0x15#6 => withCode (StoreW.ofCode (fld w 13 3)) fun wc => ofFields (.st wc (fld w 21 5) (fld w 16 5) (fld w 0 13))
  | 0x16#6 => withCode (LoadW.ofCode (fld w 13 3)) fun wc => ofFields (.ldl wc (fld w 21 5) (fld w 16 5) (fld w 0 13))
  | 0x17#6 => withCode (StoreW.ofCode (fld w 13 3)) fun wc => ofFields (.stl wc (fld w 21 5) (fld w 16 5) (fld w 0 13))
  | 0x18#6 => decodeMemx w
  | 0x19#6 => decodeAmoGroup w
  | 0x1a#6 => decodeSync w
  | 0x1b#6 => decodeLand w
  | 0x1c#6 => decodeMsg w
  | 0x1d#6 => decodeThrd w
  | 0x1e#6 => decodeCsrGroup w
  | 0x1f#6 => decodeSys w
  | 0x20#6 => decodeFps w
  | 0x21#6 => decodeVar w
  | 0x22#6 => decodeVlg w
  | 0x23#6 => decodeVcm w
  | 0x24#6 => decodeVcv w
  | 0x25#6 => decodeVsf w
  | 0x26#6 => decodeVpr w
  | 0x27#6 => decodeVmm w
  | 0x28#6 => decodeVsc w
  | 0x29#6 => decodeVmv w
  | 0x2a#6 => decodeMtx w
  | 0x2b#6 => decodeAcc w
  | 0x2c#6 => decodeXf w
  | 0x2d#6 => decodeAtn w
  | 0x2e#6 => decodeVn w
  | 0x2f#6 => decodeRr w
  | _ => .error .reservedOpcode

/-- The word of an instruction (R13, R20 to R36), fields from bit 31 down; an event row has no word. -/
def encode : Instr → Option Word32
  | .add d a b => some (0x1#6 ++ d ++ a ++ b ++ 0x0#11)
  | .sub d a b => some (0x1#6 ++ d ++ a ++ b ++ 0x1#11)
  | .and d a b => some (0x1#6 ++ d ++ a ++ b ++ 0x2#11)
  | .or d a b => some (0x1#6 ++ d ++ a ++ b ++ 0x3#11)
  | .xor d a b => some (0x1#6 ++ d ++ a ++ b ++ 0x4#11)
  | .andn d a b => some (0x1#6 ++ d ++ a ++ b ++ 0x5#11)
  | .orn d a b => some (0x1#6 ++ d ++ a ++ b ++ 0x6#11)
  | .shl d a b => some (0x1#6 ++ d ++ a ++ b ++ 0x7#11)
  | .shr d a b => some (0x1#6 ++ d ++ a ++ b ++ 0x8#11)
  | .sra d a b => some (0x1#6 ++ d ++ a ++ b ++ 0x9#11)
  | .rol d a b => some (0x1#6 ++ d ++ a ++ b ++ 0xa#11)
  | .slt d a b => some (0x1#6 ++ d ++ a ++ b ++ 0xb#11)
  | .sltn d a b => some (0x1#6 ++ d ++ a ++ b ++ 0xc#11)
  | .seq d a b => some (0x1#6 ++ d ++ a ++ b ++ 0xd#11)
  | .min d a b => some (0x1#6 ++ d ++ a ++ b ++ 0xe#11)
  | .max d a b => some (0x1#6 ++ d ++ a ++ b ++ 0xf#11)
  | .minn d a b => some (0x1#6 ++ d ++ a ++ b ++ 0x10#11)
  | .maxn d a b => some (0x1#6 ++ d ++ a ++ b ++ 0x11#11)
  | .mul d a b => some (0x1#6 ++ d ++ a ++ b ++ 0x12#11)
  | .mulh d a b => some (0x1#6 ++ d ++ a ++ b ++ 0x13#11)
  | .mulhn d a b => some (0x1#6 ++ d ++ a ++ b ++ 0x14#11)
  | .div d a b => some (0x1#6 ++ d ++ a ++ b ++ 0x15#11)
  | .divn d a b => some (0x1#6 ++ d ++ a ++ b ++ 0x16#11)
  | .rem d a b => some (0x1#6 ++ d ++ a ++ b ++ 0x17#11)
  | .remn d a b => some (0x1#6 ++ d ++ a ++ b ++ 0x18#11)
  | .mad d a b => some (0x1#6 ++ d ++ a ++ b ++ 0x19#11)
  | .clz d a => some (0x1#6 ++ d ++ a ++ 0x0#5 ++ 0x1a#11)
  | .ctz d a => some (0x1#6 ++ d ++ a ++ 0x0#5 ++ 0x1b#11)
  | .pop d a => some (0x1#6 ++ d ++ a ++ 0x0#5 ++ 0x1c#11)
  | .bswap d a => some (0x1#6 ++ d ++ a ++ 0x0#5 ++ 0x1d#11)
  | .sextB d a => some (0x1#6 ++ d ++ a ++ 0x0#5 ++ 0x1e#11)
  | .sextH d a => some (0x1#6 ++ d ++ a ++ 0x0#5 ++ 0x1f#11)
  | .sextW d a => some (0x1#6 ++ d ++ a ++ 0x0#5 ++ 0x20#11)
  | .zextB d a => some (0x1#6 ++ d ++ a ++ 0x0#5 ++ 0x21#11)
  | .zextH d a => some (0x1#6 ++ d ++ a ++ 0x0#5 ++ 0x22#11)
  | .zextW d a => some (0x1#6 ++ d ++ a ++ 0x0#5 ++ 0x23#11)
  | .bext d a b => some (0x1#6 ++ d ++ a ++ b ++ 0x24#11)
  | .fshr d a b => some (0x1#6 ++ d ++ a ++ b ++ 0x25#11)
  | .fshl d a b => some (0x1#6 ++ d ++ a ++ b ++ 0x26#11)
  | .addi d a i => some (0x2#6 ++ d ++ a ++ i)
  | .andi d a i => some (0x3#6 ++ d ++ a ++ i)
  | .ori d a i => some (0x4#6 ++ d ++ a ++ i)
  | .xori d a i => some (0x5#6 ++ d ++ a ++ i)
  | .slti d a i => some (0x6#6 ++ d ++ a ++ i)
  | .shli d a n => some (0x7#6 ++ d ++ a ++ 0x0#5 ++ 0x0#1 ++ 0x0#2 ++ 0x0#2 ++ n)
  | .shri d a n => some (0x7#6 ++ d ++ a ++ 0x0#5 ++ 0x0#1 ++ 0x1#2 ++ 0x0#2 ++ n)
  | .srai d a n => some (0x7#6 ++ d ++ a ++ 0x0#5 ++ 0x0#1 ++ 0x2#2 ++ 0x0#2 ++ n)
  | .roli d a n => some (0x7#6 ++ d ++ a ++ 0x0#5 ++ 0x0#1 ++ 0x3#2 ++ 0x0#2 ++ n)
  | .shlori d a i => some (0x8#6 ++ d ++ a ++ i)
  | .lih d i => some (0x9#6 ++ d ++ i)
  | .bexti d a l p => some (0xa#6 ++ d ++ a ++ 0x0#4 ++ l ++ p)
  | .bextsi d a l p => some (0xa#6 ++ d ++ a ++ 0x1#4 ++ l ++ p)
  | .binsi d a l p => some (0xa#6 ++ d ++ a ++ 0x2#4 ++ l ++ p)
  | .fshli d a n => some (0xa#6 ++ d ++ a ++ 0x3#4 ++ 0x0#1 ++ 0x0#5 ++ n)
  | .fshri d a n => some (0xa#6 ++ d ++ a ++ 0x4#4 ++ 0x0#1 ++ 0x0#5 ++ n)
  | .beq a b o => some (0xb#6 ++ a ++ b ++ o)
  | .bne a b o => some (0xc#6 ++ a ++ b ++ o)
  | .blt a b o => some (0xd#6 ++ a ++ b ++ o)
  | .bge a b o => some (0xe#6 ++ a ++ b ++ o)
  | .bltn a b o => some (0xf#6 ++ a ++ b ++ o)
  | .bgen a b o => some (0x10#6 ++ a ++ b ++ o)
  | .dbnz a o => some (0x11#6 ++ a ++ 0x0#5 ++ o)
  | .jal d o => some (0x12#6 ++ d ++ o)
  | .jalr d a i => some (0x13#6 ++ d ++ a ++ i)
  | .ld w d a p => some (0x14#6 ++ d ++ a ++ w.code ++ p)
  | .st w s a p => some (0x15#6 ++ s ++ a ++ w.code ++ p)
  | .ldl w d a p => some (0x16#6 ++ d ++ a ++ w.code ++ p)
  | .stl w s a p => some (0x17#6 ++ s ++ a ++ w.code ++ p)
  | .ldx w d a b => some (0x18#6 ++ d ++ a ++ b ++ ldxFn w)
  | .stx w s a b => some (0x18#6 ++ s ++ a ++ b ++ stxFn w)
  | .pfg a => some (0x18#6 ++ 0x0#5 ++ a ++ 0x0#5 ++ 0x10#11)
  | .cwb a b => some (0x18#6 ++ 0x0#5 ++ a ++ b ++ 0x11#11)
  | .cinv a b => some (0x18#6 ++ 0x0#5 ++ a ++ b ++ 0x12#11)
  | .cdisc a b => some (0x18#6 ++ 0x0#5 ++ a ++ b ++ 0x13#11)
  | .amo op w sc d a b => some (0x19#6 ++ d ++ a ++ b ++ 0x0#2 ++ sc.code ++ 0x1#1 ++ BitVec.ofBool w ++ op.code)
  | .red op w sc a b => some (0x19#6 ++ 0x0#5 ++ a ++ b ++ 0x0#2 ++ sc.code ++ 0x0#1 ++ BitVec.ofBool w ++ op.code)
  | .fenceAcq sc b => some (0x1a#6 ++ 0x0#5 ++ 0x0#5 ++ b ++ 0x0#1 ++ sc.code ++ 0x0#3 ++ 0x0#4)
  | .fenceRel sc b => some (0x1a#6 ++ 0x0#5 ++ 0x0#5 ++ b ++ 0x0#1 ++ sc.code ++ 0x0#3 ++ 0x1#4)
  | .fenceAr sc b => some (0x1a#6 ++ 0x0#5 ++ 0x0#5 ++ b ++ 0x0#1 ++ sc.code ++ 0x0#3 ++ 0x2#4)
  | .bar sc b => some (0x1a#6 ++ 0x0#5 ++ 0x0#5 ++ b ++ 0x0#1 ++ sc.code ++ 0x0#3 ++ 0x3#4)
  | .barmax t sc d a b => some (0x1a#6 ++ d ++ a ++ b ++ 0x0#1 ++ sc.code ++ 0x0#1 ++ t.code ++ 0x4#4)
  | .barsum t sc d a b => some (0x1a#6 ++ d ++ a ++ b ++ 0x0#1 ++ sc.code ++ 0x0#1 ++ t.code ++ 0x5#4)
  | .barmin t sc d a b => some (0x1a#6 ++ d ++ a ++ b ++ 0x0#1 ++ sc.code ++ 0x0#1 ++ t.code ++ 0x6#4)
  | .waitge d a => some (0x1a#6 ++ d ++ a ++ 0x0#5 ++ 0x0#7 ++ 0x7#4)
  | .putl li c => some (0x1b#6 ++ c ++ 0x0#5 ++ li ++ 0x0#11)
  | .rput li c a => some (0x1b#6 ++ c ++ a ++ li ++ 0x1#11)
  | .take c li => some (0x1b#6 ++ c ++ 0x0#5 ++ li ++ 0x2#11)
  | .peek c li => some (0x1b#6 ++ c ++ 0x0#5 ++ li ++ 0x3#11)
  | .testl c li => some (0x1b#6 ++ c ++ 0x0#5 ++ li ++ 0x4#11)
  | .clrl li => some (0x1b#6 ++ 0x0#5 ++ 0x0#5 ++ li ++ 0x5#11)
  | .rputm a b => some (0x1c#6 ++ 0x0#5 ++ a ++ b ++ 0x0#11)
  | .rputmv a v => some (0x1c#6 ++ 0x0#5 ++ a ++ v ++ 0x1#11)
  | .msnd a b => some (0x1c#6 ++ 0x0#5 ++ a ++ b ++ 0x2#11)
  | .mrcv d => some (0x1c#6 ++ d ++ 0x0#5 ++ 0x0#5 ++ 0x3#11)
  | .waitm a => some (0x1c#6 ++ 0x0#5 ++ a ++ 0x0#5 ++ 0x4#11)
  | .msndn a b => some (0x1c#6 ++ 0x0#5 ++ a ++ b ++ 0x5#11)
  | .mrcvn d a => some (0x1c#6 ++ d ++ a ++ 0x0#5 ++ 0x6#11)
  | .evon => some (0x1c#6 ++ 0x0#5 ++ 0x0#5 ++ 0x0#5 ++ 0x7#11)
  | .evoff => some (0x1c#6 ++ 0x0#5 ++ 0x0#5 ++ 0x0#5 ++ 0x8#11)
  | .evret => some (0x1c#6 ++ 0x0#5 ++ 0x0#5 ++ 0x0#5 ++ 0x9#11)
  | .yield => some (0x1d#6 ++ 0x0#5 ++ 0x0#5 ++ 0x0#5 ++ 0x0#11)
  | .park => some (0x1d#6 ++ 0x0#5 ++ 0x0#5 ++ 0x0#5 ++ 0x1#11)
  | .wake a => some (0x1d#6 ++ 0x0#5 ++ a ++ 0x0#5 ++ 0x2#11)
  | .dqpush d a => some (0x1d#6 ++ d ++ a ++ 0x0#5 ++ 0x3#11)
  | .dqpop d a => some (0x1d#6 ++ d ++ a ++ 0x0#5 ++ 0x4#11)
  | .dqsplit d => some (0x1d#6 ++ d ++ 0x0#5 ++ 0x0#5 ++ 0x5#11)
  | .dqsteal d a => some (0x1d#6 ++ d ++ a ++ 0x0#5 ++ 0x6#11)
  | .tsend a b => some (0x1d#6 ++ 0x0#5 ++ a ++ b ++ 0x7#11)
  | .tret => some (0x1d#6 ++ 0x0#5 ++ 0x0#5 ++ 0x0#5 ++ 0x8#11)
  | .dqnext d => some (0x1d#6 ++ d ++ 0x0#5 ++ 0x0#5 ++ 0x9#11)
  | .launch d a b => some (0x1d#6 ++ d ++ a ++ b ++ 0xa#11)
  | .csrr d c => some (0x1e#6 ++ d ++ 0x0#5 ++ c ++ 0x0#4)
  | .csrw d a c => some (0x1e#6 ++ d ++ a ++ c ++ 0x1#4)
  | .csrs d a c => some (0x1e#6 ++ d ++ a ++ c ++ 0x2#4)
  | .csrc d a c => some (0x1e#6 ++ d ++ a ++ c ++ 0x3#4)
  | .trap c => some (0x1f#6 ++ 0x0#5 ++ 0x0#5 ++ c ++ 0x0#11)
  | .brk => some (0x1f#6 ++ 0x0#5 ++ 0x0#5 ++ 0x0#5 ++ 0x1#11)
  | .ifence => some (0x1f#6 ++ 0x0#5 ++ 0x0#5 ++ 0x0#5 ++ 0x2#11)
  | .eret => some (0x1f#6 ++ 0x0#5 ++ 0x0#5 ++ 0x0#5 ++ 0x3#11)
  | .halt => some (0x1f#6 ++ 0x0#5 ++ 0x0#5 ++ 0x0#5 ++ 0x4#11)
  | .fadd t d a b => some (0x20#6 ++ d ++ a ++ b ++ 0x0#2 ++ t.code ++ 0x0#5)
  | .fsub t d a b => some (0x20#6 ++ d ++ a ++ b ++ 0x0#2 ++ t.code ++ 0x1#5)
  | .fmul t d a b => some (0x20#6 ++ d ++ a ++ b ++ 0x0#2 ++ t.code ++ 0x2#5)
  | .ffma t d a b => some (0x20#6 ++ d ++ a ++ b ++ 0x0#2 ++ t.code ++ 0x3#5)
  | .fmin t d a b => some (0x20#6 ++ d ++ a ++ b ++ 0x0#2 ++ t.code ++ 0x4#5)
  | .fmax t d a b => some (0x20#6 ++ d ++ a ++ b ++ 0x0#2 ++ t.code ++ 0x5#5)
  | .fabs t d a => some (0x20#6 ++ d ++ a ++ 0x0#5 ++ 0x0#2 ++ t.code ++ 0x6#5)
  | .fneg t d a => some (0x20#6 ++ d ++ a ++ 0x0#5 ++ 0x0#2 ++ t.code ++ 0x7#5)
  | .feq t d a b => some (0x20#6 ++ d ++ a ++ b ++ 0x0#2 ++ t.code ++ 0x8#5)
  | .flt t d a b => some (0x20#6 ++ d ++ a ++ b ++ 0x0#2 ++ t.code ++ 0x9#5)
  | .fle t d a b => some (0x20#6 ++ d ++ a ++ b ++ 0x0#2 ++ t.code ++ 0xa#5)
  | .fcvt t s d a => some (0x20#6 ++ d ++ a ++ 0x0#1 ++ s.code ++ 0x0#2 ++ t.code ++ 0xb#5)
  | .fdiv t d a b => some (0x20#6 ++ d ++ a ++ b ++ 0x0#2 ++ t.code ++ 0xc#5)
  | .fsqrt t d a => some (0x20#6 ++ d ++ a ++ 0x0#5 ++ 0x0#2 ++ t.code ++ 0xd#5)
  | .fclass t d a => some (0x20#6 ++ d ++ a ++ 0x0#5 ++ 0x0#2 ++ t.code ++ 0xe#5)
  | .vadd t d a b k => some (0x21#6 ++ d ++ a ++ b ++ k ++ t.code ++ 0x0#4)
  | .vsub t d a b k => some (0x21#6 ++ d ++ a ++ b ++ k ++ t.code ++ 0x1#4)
  | .vmul t d a b k => some (0x21#6 ++ d ++ a ++ b ++ k ++ t.code ++ 0x2#4)
  | .vfma t d a b k => some (0x21#6 ++ d ++ a ++ b ++ k ++ t.code ++ 0x3#4)
  | .vfms t d a b k => some (0x21#6 ++ d ++ a ++ b ++ k ++ t.code ++ 0x4#4)
  | .vmin t d a b k => some (0x21#6 ++ d ++ a ++ b ++ k ++ t.code ++ 0x5#4)
  | .vmax t d a b k => some (0x21#6 ++ d ++ a ++ b ++ k ++ t.code ++ 0x6#4)
  | .vabs t d a k => some (0x21#6 ++ d ++ a ++ 0x0#5 ++ k ++ t.code ++ 0x7#4)
  | .vneg t d a k => some (0x21#6 ++ d ++ a ++ 0x0#5 ++ k ++ t.code ++ 0x8#4)
  | .vdot4 t d a b k => some (0x21#6 ++ d ++ a ++ b ++ k ++ t.code ++ 0x9#4)
  | .vmulh t d a b k => some (0x21#6 ++ d ++ a ++ b ++ k ++ t.code ++ 0xa#4)
  | .vand t d a b k => some (0x22#6 ++ d ++ a ++ b ++ k ++ t.code ++ 0x0#4)
  | .vor t d a b k => some (0x22#6 ++ d ++ a ++ b ++ k ++ t.code ++ 0x1#4)
  | .vxor t d a b k => some (0x22#6 ++ d ++ a ++ b ++ k ++ t.code ++ 0x2#4)
  | .vnot t d a k => some (0x22#6 ++ d ++ a ++ 0x0#5 ++ k ++ t.code ++ 0x3#4)
  | .vshl t d a b k => some (0x22#6 ++ d ++ a ++ b ++ k ++ t.code ++ 0x4#4)
  | .vshr t d a b k => some (0x22#6 ++ d ++ a ++ b ++ k ++ t.code ++ 0x5#4)
  | .vsra t d a b k => some (0x22#6 ++ d ++ a ++ b ++ k ++ t.code ++ 0x6#4)
  | .vpopc t d a k => some (0x22#6 ++ d ++ a ++ 0x0#5 ++ k ++ t.code ++ 0x7#4)
  | .vcmpeq t d a b k => some (0x23#6 ++ 0x0#2 ++ d ++ a ++ b ++ k ++ t.code ++ 0x0#4)
  | .vcmpne t d a b k => some (0x23#6 ++ 0x0#2 ++ d ++ a ++ b ++ k ++ t.code ++ 0x1#4)
  | .vcmplt t d a b k => some (0x23#6 ++ 0x0#2 ++ d ++ a ++ b ++ k ++ t.code ++ 0x2#4)
  | .vcmple t d a b k => some (0x23#6 ++ 0x0#2 ++ d ++ a ++ b ++ k ++ t.code ++ 0x3#4)
  | .vsel t d a b k => some (0x23#6 ++ d ++ a ++ b ++ k ++ t.code ++ 0x4#4)
  | .kand d a b => some (0x23#6 ++ 0x0#2 ++ d ++ 0x0#2 ++ a ++ 0x0#2 ++ b ++ 0x0#7 ++ 0x5#4)
  | .kor d a b => some (0x23#6 ++ 0x0#2 ++ d ++ 0x0#2 ++ a ++ 0x0#2 ++ b ++ 0x0#7 ++ 0x6#4)
  | .kxor d a b => some (0x23#6 ++ 0x0#2 ++ d ++ 0x0#2 ++ a ++ 0x0#2 ++ b ++ 0x0#7 ++ 0x7#4)
  | .knot d a => some (0x23#6 ++ 0x0#2 ++ d ++ 0x0#2 ++ a ++ 0x0#5 ++ 0x0#7 ++ 0x8#4)
  | .vcvt t s d a k => some (0x24#6 ++ d ++ a ++ 0x0#1 ++ s.code ++ k ++ t.code ++ 0x0#4)
  | .vdec d a k => some (0x24#6 ++ d ++ a ++ 0x0#5 ++ k ++ 0xe#4 ++ 0x1#4)
  | .venc t d a k => some (0x24#6 ++ d ++ a ++ 0x0#5 ++ k ++ t.code ++ 0x2#4)
  | .vdtld a => some (0x24#6 ++ 0x0#5 ++ a ++ 0x0#5 ++ 0x0#3 ++ 0xe#4 ++ 0x3#4)
  | .vqnt t d a b k => some (0x24#6 ++ d ++ a ++ b ++ k ++ t.code ++ 0x4#4)
  | .vdqnt t d a b k => some (0x24#6 ++ d ++ a ++ b ++ k ++ t.code ++ 0x5#4)
  | .vexp2 d a k => some (0x25#6 ++ d ++ a ++ 0x0#5 ++ k ++ 0x0#4 ++ 0x0#4)
  | .vlog2 d a k => some (0x25#6 ++ d ++ a ++ 0x0#5 ++ k ++ 0x0#4 ++ 0x1#4)
  | .vrcp d a k => some (0x25#6 ++ d ++ a ++ 0x0#5 ++ k ++ 0x0#4 ++ 0x2#4)
  | .vrsq d a k => some (0x25#6 ++ d ++ a ++ 0x0#5 ++ k ++ 0x0#4 ++ 0x3#4)
  | .vtanh d a k => some (0x25#6 ++ d ++ a ++ 0x0#5 ++ k ++ 0x0#4 ++ 0x4#4)
  | .vsigm d a k => some (0x25#6 ++ d ++ a ++ 0x0#5 ++ k ++ 0x0#4 ++ 0x5#4)
  | .vperm t d a b k => some (0x26#6 ++ d ++ a ++ b ++ k ++ t.code ++ 0x0#4)
  | .vslide t d a b k => some (0x26#6 ++ d ++ a ++ b ++ k ++ t.code ++ 0x1#4)
  | .vbcast t d a b k => some (0x26#6 ++ d ++ a ++ b ++ k ++ t.code ++ 0x2#4)
  | .vredsum t d a k => some (0x26#6 ++ d ++ a ++ 0x0#5 ++ k ++ t.code ++ 0x3#4)
  | .vredmax t d a k => some (0x26#6 ++ d ++ a ++ 0x0#5 ++ k ++ t.code ++ 0x4#4)
  | .vredmin t d a k => some (0x26#6 ++ d ++ a ++ 0x0#5 ++ k ++ t.code ++ 0x5#4)
  | .vscan t d a k => some (0x26#6 ++ d ++ a ++ 0x0#5 ++ k ++ t.code ++ 0x6#4)
  | .vamaxb t d a k => some (0x26#6 ++ d ++ a ++ 0x0#5 ++ k ++ t.code ++ 0x7#4)
  | .vldl d a p k => some (0x27#6 ++ d ++ a ++ p ++ k ++ 0x0#4 ++ 0x0#4)
  | .vstl d a p k => some (0x27#6 ++ d ++ a ++ p ++ k ++ 0x0#4 ++ 0x1#4)
  | .vld d a p k => some (0x27#6 ++ d ++ a ++ p ++ k ++ 0x0#4 ++ 0x2#4)
  | .vst d a p k => some (0x27#6 ++ d ++ a ++ p ++ k ++ 0x0#4 ++ 0x3#4)
  | .vlds t d a b k => some (0x27#6 ++ d ++ a ++ b ++ k ++ t.code ++ 0x4#4)
  | .vsts t d a b k => some (0x27#6 ++ d ++ a ++ b ++ k ++ t.code ++ 0x5#4)
  | .vgth t d a b k => some (0x27#6 ++ d ++ a ++ b ++ k ++ t.code ++ 0x6#4)
  | .vsct t d a b k => some (0x27#6 ++ d ++ a ++ b ++ k ++ t.code ++ 0x7#4)
  | .vgthl t d a b k => some (0x27#6 ++ d ++ a ++ b ++ k ++ t.code ++ 0x8#4)
  | .vsctl t d a b k => some (0x27#6 ++ d ++ a ++ b ++ k ++ t.code ++ 0x9#4)
  | .vsadd t d a b k => some (0x28#6 ++ d ++ a ++ b ++ k ++ t.code ++ 0x0#4)
  | .vssub t d a b k => some (0x28#6 ++ d ++ a ++ b ++ k ++ t.code ++ 0x1#4)
  | .vsmul t d a b k => some (0x28#6 ++ d ++ a ++ b ++ k ++ t.code ++ 0x2#4)
  | .vsfma t d a b k => some (0x28#6 ++ d ++ a ++ b ++ k ++ t.code ++ 0x3#4)
  | .vsmin t d a b k => some (0x28#6 ++ d ++ a ++ b ++ k ++ t.code ++ 0x4#4)
  | .vsmax t d a b k => some (0x28#6 ++ d ++ a ++ b ++ k ++ t.code ++ 0x5#4)
  | .vsshl t d a b k => some (0x28#6 ++ d ++ a ++ b ++ k ++ t.code ++ 0x6#4)
  | .vsplat t d a k => some (0x29#6 ++ d ++ a ++ 0x0#5 ++ k ++ t.code ++ 0x0#4)
  | .vins t d a b => some (0x29#6 ++ d ++ a ++ b ++ 0x0#3 ++ t.code ++ 0x1#4)
  | .vext t d a b => some (0x29#6 ++ d ++ a ++ b ++ 0x0#3 ++ t.code ++ 0x2#4)
  | .viota t d k => some (0x29#6 ++ d ++ 0x0#5 ++ 0x0#5 ++ k ++ t.code ++ 0x3#4)
  | .ktog t d a => some (0x29#6 ++ d ++ 0x0#2 ++ a ++ 0x0#5 ++ 0x0#3 ++ t.code ++ 0x4#4)
  | .gtok t d a => some (0x29#6 ++ 0x0#2 ++ d ++ a ++ 0x0#5 ++ 0x0#3 ++ t.code ++ 0x5#4)
  | .kpop t d a => some (0x29#6 ++ d ++ 0x0#2 ++ a ++ 0x0#5 ++ 0x0#3 ++ t.code ++ 0x6#4)
  | .vmov t d a k => some (0x29#6 ++ d ++ a ++ 0x0#5 ++ k ++ t.code ++ 0x7#4)
  | .mma t kl n d a b => some (0x2a#6 ++ d ++ a ++ b ++ n ++ kl.code ++ t.code ++ 0x0#4)
  | .mmal t kl n d a b => some (0x2a#6 ++ d ++ a ++ b ++ n ++ kl.code ++ t.code ++ 0x1#4)
  | .mmr t kl n d a b => some (0x2a#6 ++ d ++ a ++ b ++ n ++ kl.code ++ t.code ++ 0x2#4)
  | .mwait a => some (0x2a#6 ++ 0x0#5 ++ a ++ 0x0#5 ++ 0x0#7 ++ 0x3#4)
  | .mstat d => some (0x2a#6 ++ d ++ 0x0#5 ++ 0x0#5 ++ 0x0#7 ++ 0x4#4)
  | .accz n => some (0x2b#6 ++ 0x0#5 ++ 0x0#5 ++ 0x0#5 ++ n ++ 0x0#5 ++ 0x0#4)
  | .accst t n c a => some (0x2b#6 ++ a ++ 0x0#5 ++ c ++ n ++ 0x0#1 ++ t.code ++ 0x1#4)
  | .accld t n c a => some (0x2b#6 ++ a ++ 0x0#5 ++ c ++ n ++ 0x0#1 ++ t.code ++ 0x2#4)
  | .accstg t n a b => some (0x2b#6 ++ a ++ b ++ 0x0#5 ++ n ++ 0x0#1 ++ t.code ++ 0x3#4)
  | .xld a b c => some (0x2c#6 ++ a ++ b ++ c ++ 0x0#7 ++ 0x0#4)
  | .xst a b c => some (0x2c#6 ++ a ++ b ++ c ++ 0x0#7 ++ 0x1#4)
  | .xput a b c => some (0x2c#6 ++ a ++ b ++ c ++ 0x0#7 ++ 0x2#4)
  | .xaxb a b c => some (0x2c#6 ++ a ++ b ++ c ++ 0x0#7 ++ 0x3#4)
  | .xfill a c => some (0x2c#6 ++ a ++ 0x0#5 ++ c ++ 0x0#7 ++ 0x4#4)
  | .xstat a => some (0x2c#6 ++ a ++ 0x0#5 ++ 0x0#5 ++ 0x0#7 ++ 0x5#4)
  | .xcan a => some (0x2c#6 ++ a ++ 0x0#5 ++ 0x0#5 ++ 0x0#7 ++ 0x6#4)
  | .xlm a b c => some (0x2c#6 ++ a ++ b ++ c ++ 0x0#7 ++ 0x7#4)
  | .atbind h a => some (0x2d#6 ++ a ++ 0x0#5 ++ 0x0#5 ++ 0x0#4 ++ h ++ 0x0#4)
  | .atdig h c a => some (0x2d#6 ++ a ++ 0x0#5 ++ c ++ 0x0#4 ++ h ++ 0x1#4)
  | .atld h c a b => some (0x2d#6 ++ a ++ b ++ c ++ 0x0#4 ++ h ++ 0x2#4)
  | .atsg h c a b => some (0x2d#6 ++ a ++ b ++ c ++ 0x0#4 ++ h ++ 0x3#4)
  | .atinfo h c => some (0x2d#6 ++ 0x0#5 ++ 0x0#5 ++ c ++ 0x0#4 ++ h ++ 0x4#4)
  | .ldvn d a b => some (0x2e#6 ++ d ++ a ++ b ++ 0x0#8 ++ 0x0#3)
  | .redvn t s a b => some (0x2e#6 ++ s ++ a ++ b ++ 0x0#6 ++ t.code ++ 0x1#3)
  | .stvn s a b => some (0x2e#6 ++ s ++ a ++ b ++ 0x0#8 ++ 0x2#3)
  | .vnopen a b => some (0x2e#6 ++ 0x0#5 ++ a ++ b ++ 0x0#8 ++ 0x3#3)
  | .vnseal a b => some (0x2e#6 ++ 0x0#5 ++ a ++ b ++ 0x0#8 ++ 0x4#3)
  | .vnrecl a b => some (0x2e#6 ++ 0x0#5 ++ a ++ b ++ 0x0#8 ++ 0x5#3)
  | .vnstat d a b => some (0x2e#6 ++ d ++ a ++ b ++ 0x0#8 ++ 0x6#3)
  | .rrbeg a b => some (0x2f#6 ++ 0x0#5 ++ a ++ b ++ 0x0#11)
  | .rrend b => some (0x2f#6 ++ 0x0#5 ++ 0x0#5 ++ b ++ 0x1#11)
  | .rrec b => some (0x2f#6 ++ 0x0#5 ++ 0x0#5 ++ b ++ 0x2#11)
  | .rroff b => some (0x2f#6 ++ 0x0#5 ++ 0x0#5 ++ b ++ 0x3#11)
  | .rrstat d a b => some (0x2f#6 ++ d ++ a ++ b ++ 0x4#11)
  | .illegalInstruction | .waitExpired _ _ | .eventEntry _ _ | .taskDispatch _ | .taskSteal _ _ | .contextSpill _ _
  | .contextRestore _ _ | .globalReply _ _ | .sliceReadRequest _ _ _ | .sliceOwnershipRequest _ _ _ | .l1WriteBack _ _ _
  | .l1Invalidation _ _ _ | .lineFill _ _ _ | .pageWalk _ _ _ _ | .faultRecordAppend _ | .wordRequest _ _ _ _ _
  | .atomicExecute _ | .guestWriteBack _ _ _ | .remoteWriteDelivery _ | .remoteWriteAck _ | .dropNotice _
  | .landingPortFill _ _ | .messageArrival _ | .messageDivert _ | .barrierRelease _ _ | .matrixKblock _ | .matrixComplete _
  | .matrixFaultStop _ | .mmrBlockArrival _ | .mmrAbortToken _ | .copyCommandRun _ | .copyStripe _ | .copyCompletion _
  | .claimEnd _ | .putArrival _ _ _ _ | .putAck _ _ | .copyThreadRestart _ | .copyProgramReinstall _ | .versionedAccess _ _ _ _
  | .replayPush _ | .packetArrival _ _ _ | .queueSlotMap _ | .queueSlotEvict _ | .queueOpen _ | .queueClose _
  | .launchDispatch | .launchDistribute _ _ | .imageLoad _ _ | .imageEvict _ _ | .launchRetire _ | .forcedPreemption _ _
  | .shootdownInvalidate _ _ _ _ | .shootdownRelease _ _ _ _ | .shootdownInvalidateRelease _ _ _ _ | .shootdownComplete
  | .wakeRetry _ _ _ _ | .wakeFail _ _ _ _ | .switchOut _ _ _ _ | .switchResume _ _ _ _ | .hostAbort _ _ _ _
  | .stopOneThread _ _ _ _ | .resumeOneThread _ _ _ _ | .copyProgramInstall _ _ _ _ | .controlRangeWrite _ _ _
  | .regionRecordLive _ _ | .captureUnitControl _ _ | .captureSample _ _ | .apertureRead _ | .apertureWrite _ _
  | .powerWindow _ _ _ | .functionReady _ | .functionFail _ | .portDown _ | .packageUnavailable _ | .packageAvailable _
  | .packageReset | .keyLoad _ _ _ | .keyErase _ | .attest _ | .debugChallenge _ | .debugUnlock _ _ | .debugLock _
  | .firmwareStage _ _ | .securityAlarm _ _ | .softError _ => none

/-- Little-endian bytes to a word of 32 bits (R11, R5). -/
def wordOfBytes (b0 b1 b2 b3 : Byte) : Word32 := b3 ++ b2 ++ b1 ++ b0
/-- The bytes of a word in ascending address order (R11). -/
def bytesOfWord (w : Word32) : List Byte := [fld w 0 8, fld w 8 8, fld w 16 8, fld w 24 8]

/-- The instruction that the bytes at an LM address hold (R11). -/
def decodeBytes : List Byte → Decoded
  | [b0, b1, b2, b3] => decode (wordOfBytes b0 b1 b2 b3)
  | _ => .error .unassigned

/-- The instruction decoded from a row of the opcode table: `w` holds its bits, bit 0 the least significant of the one word. -/
def decodeTableWord (nbits w : Nat) : Option Instr :=
  match decodeBytes (bytesOfWord (BitVec.ofNat 32 (w % 2 ^ nbits))) with
  | .ok i => some i
  | .error _ => none

end Sys2Proof
end

