-- ==== Sys2Proof/Machine/State.lean ====
section
/-! DEFINITION. The state of one CA9-2600-L package as plain data: threads, cores, dies with their slices, the hub and what is in flight.
A register has one home; sparse tables list only the entries that differ from the value an unlisted entry has (Ops.lean names it). -/

namespace Sys2Proof.Machine

/-! ### Threads -/

/-- The park reasons of R50, with what the wait is for. -/
inductive Park where
  /-- Global reply: an access held at its slice, a claim, a full posted-reduction set or pushes to serve (R50, R167, R226, R238, R368). -/
  | reply
  /-- Page fault: the faulting VAs of the park, whose records carry the thread's `fltseq` (R160, R384). -/
  | fault (vas : List Nat)
  /-- Matrix: the thread's command is queued or running, or, for MWAIT, a bank of the mask is named (R293, R305). -/
  | matrix (mask : Nat)
  /-- Engine queue: no free entry of the matrix or copy engine, or no free claim record (R293, R316, R225). -/
  | engineQueue
  /-- Remote-write credit: 64 remote writes of the core are outstanding (R50). -/
  | credit
  /-- Landing: TAKE of an empty register, or PUTL to a full one (R246). -/
  | landing (li : Nat) (put : Bool)
  /-- Window: the window field code 16 to 23 that the instruction waits for (R117). -/
  | window (code : Nat)
  /-- Message: WAITM, with its selector if it has one (R257). -/
  | message (sel : Option Word)
  /-- Wake: PARK with the wake bit clear (R55). -/
  | wake
  /-- Counter: WAITGE on the counter word at an LM address, and the value it waits for (R212). -/
  | counter (addr target : Nat)
  /-- Version: LDVN or ATLD of a version not yet sealed, with the version bits that *wait expired* reports, LDVN's alone (R250, R273). -/
  | version (rec ver : Nat)
  /-- Barrier: a barrier, RRBEG or RREND, with the scope code for R250. -/
  | barrier (scope : Nat)
  /-- Drain: REDs, remote writes or write-backs outstanding (R204, R216). -/
  | drain
deriving DecidableEq, Repr

/-- Why a thread is Stopped (R49). -/
inductive StopWhy where
  /-- HALT at system level (R77). -/
  | halt
  /-- A breakpoint in a debug-enabled tenancy (R75). -/
  | breakpoint
  /-- A hub stop, or a stop of the copy thread before its restart (R81, R315). -/
  | hub
deriving DecidableEq, Repr

/-- The four thread states (R49); a parked thread knows since which cycle and in which order it parked (R51, R52). -/
inductive Status where
  | free
  | ready
  | parked (why : Park) (since order : Nat)
  | stopped (why : StopWhy)
deriving DecidableEq, Repr

/-- A prefetched word with the mark of R143, whether the thread's blocks allow its fetch, and whether it was read damaged (R395). -/
structure Fetched where
  code : Word32
  ok   : Bool
  bad  : Bool
deriving DecidableEq, Repr

/-- How a parked instruction ends once its wait is over. -/
inductive Ending where
  /-- The effect is complete; only the pc has to advance. -/
  | done
  /-- A barrier released with this result and these flags (R208, R209). -/
  | value (x flags : Word)
  /-- The wait ends in a precise trap (R49). -/
  | trap (cause : Nat) (val : Word)
deriving DecidableEq, Repr

/-- A cause that ends an access without a park, kept while page faults are resolved (R160): its VA and trap. -/
structure Kept where
  va    : Nat
  cause : Nat
  val   : Word
deriving DecidableEq, Repr

/-- What an access asks of a slice: a sector in S or in M for its L1 (R172), or a read or a write at the slice itself (R193, R233). -/
inductive AskKind where
  | shared | owned | word | update
  /-- An atomic at the slice of another die (R230). -/
  | far (die : Nat)
  /-- A posted reduction (R238), for which no thread waits at the slice. -/
  | posted
  /-- A word that a lane of an ATLD reads at a home slice (R183, R286). -/
  | lane
deriving DecidableEq, Repr
/-- A request for the L1 itself, which needs a way there (R171). -/
def AskKind.needsWay (k : AskKind) : Bool := k == .shared || k == .owned

/-- How far the request of an access has come that the L1 cannot complete (R50, R170). -/
inductive Ask where
  /-- No request has been sent. -/
  | none
  /-- The request is on its way, and its thread is parked with reason Global reply. -/
  | sent
  /-- The slices have answered: the access is served when its thread goes on, or waits for what holds it. -/
  | served
deriving DecidableEq, Repr

/-- The partial state of the instruction under execution (R194, R160). -/
structure Progress where
  /-- The instruction has begun: windows claimed, a command handed over, an arrival made. -/
  begun  : Bool
  /-- Elements, bytes, rows, stripes or lines already performed. -/
  elems  : List Nat
  /-- Data read so far, or the data to store, and the offsets of a gather or scatter, as claimed. -/
  (data aux : VReg)
  /-- The converted bank of an ACCSTG, as read in its issue cycle (R308). -/
  image  : List Byte
  /-- Kept causes. -/
  kept   : List Kept
  /-- VAs of the access that are held by migrating leaves until a release names them (R167). -/
  held   : List Nat
  /-- How the instruction ends, when that is decided. -/
  ending : Option Ending
  /-- Names the instruction's barrier arrival. -/
  id     : Nat
  /-- The last park of the instruction, since when and in which order (R51, R52). -/
  waited : Option (Park × Nat × Nat)
  /-- The request of the access, the VAs that it names with what it asks for, and the hub time at which it was sent (R170, R409). -/
  ask    : Ask
  asks   : List (Nat × AskKind)
  askAt  : Nat
  /-- The sectors of the access that its L1 could not ask for yet: no more lines of a set are asked for than it has ways (R171). -/
  later  : List Nat
  /-- The VAs, from one up to another, of which this answer brings every word (R183, R184). -/
  pick   : Option (Nat × Nat)
  /-- A newest read: the newest sealed version of each region of its tenancy when the instruction issued (R272). -/
  since  : Option VReg
deriving DecidableEq, Repr

/-- A drop notice held by the sending thread (R205, R248). -/
structure Drop where
  (kind reason obj core : Nat)
deriving DecidableEq, Repr

/-- A tine record of an antler header (R280). -/
structure Tine where
  (base n qin qout m ty : Nat)
deriving DecidableEq, Repr

/-- A bound antler handle: the captured header (R284). -/
structure Antler where
  va    : Word
  d     : Nat
  scale : Word32
  size  : Nat
  cols  : Nat
  tines : List Tine
  rgn   : Nat
deriving DecidableEq, Repr

/-- The task that a thread holds (R345, R352): its launch, kernel tag and, under a deterministic launch, the tasks still to run. -/
structure Task where
  (lnum tag : Nat)
  todo     : List Nat
deriving DecidableEq, Repr

/-- The control registers of a thread (R62) that are held per thread. -/
structure Ctl where
  (tenancy fcw fflags seed fmtp sclp : Word)
  (taskid tasklo taskhi launch kslot : Word)
  (waitlim msghdr : Word)
  (evvec evmask evcause evpc : Word)
  (mrp mstat : Word)
  (trapvec trapcause trappc trapval trapinst : Word)
  (rrthresh det lend fltseq : Word)
  athand : Vector Word 8
deriving DecidableEq, Repr

/-- One hardware thread. -/
structure Thread where
  status    : Status
  /-- Runs at system level (R77). -/
  system    : Bool
  /-- The waking event has occurred; the parked instruction completes next (R49). -/
  resume    : Bool
  pc        : Word
  /-- The word under execution (R80). -/
  inst      : Word32
  /-- The prefetch buffer (R143). -/
  buf       : List Fetched
  /-- The cycle in which the issue interval ends (R45). -/
  readyAt   : Nat
  g         : Vector Word 32
  gs        : Vector Word 4
  v         : Vector VReg 16
  k         : Vector Mask 8
  ctl       : Ctl
  /-- The wake bit (R55). -/
  wake      : Bool
  /-- The send count (R251). -/
  sendCount : BitVec 16
  drops     : List Drop
  handles   : Vector (Option Antler) 8
  progress  : Progress
  task      : Option Task
  /-- When the task was placed, for R389; it also tells the contexts of a thread apart. -/
  placedAt  : Nat
deriving DecidableEq, Repr

/-! ### Cores -/

/-- A kernel slot (R139) with the header fields the dispatcher uses (R140); state 0 empty, 1 loading, 2 resident. -/
structure Slot where
  (tag state base code data dbytes : Nat)
  (system writable : Bool)
  (threads entry trap : Nat)
  /-- When a task of the image was last placed (R141). -/
  used : Nat
deriving DecidableEq, Repr

/-- An image load under way (R141): the launch, the slot entry that the checked header gives, the bytes read, and the victims still resident. -/
structure Loading where
  lnum    : Nat
  slot    : Slot
  image   : List Byte
  victims : List Nat
  /-- The slot that is in state loading for it (R139). -/
  at_     : Option Nat
deriving DecidableEq, Repr

/-- Block attributes (R137); a code block names the slot of its image. -/
inductive Attr where
  | data
  | code (slot : Nat)
  | system
  | copy
deriving DecidableEq, Repr

/-- A writer that waits at a full landing register (R244): a PUTL parked on it or a remote write at the port. -/
inductive Writer where
  | putl (tid : Nat)
  | remote (id src tid : Nat) (x : Word)
deriving DecidableEq, Repr

/-- A landing register (R242) with its waiting writers, and the first cycle in which it may be filled again (R244). -/
structure LandReg where
  data    : Word
  full    : Bool
  waiters : List Writer
  fillAt  : Nat
deriving DecidableEq, Repr

/-- Window states (R116). -/
inductive WinState where
  | empty | filling | full
deriving DecidableEq, Repr

/-- A window register (R116); `owner` is the thread that claimed it as destination while Filling. -/
structure Window where
  data  : VReg
  state : WinState
  owner : Nat
deriving DecidableEq, Repr

/-- Why an access is held at its slice: a migrating leaf, released by op 2 or 3 (R167), or anything else that ends by itself. -/
inductive Hold where
  | migrate | other
deriving DecidableEq, Repr

/-- How a matrix command stands (R301, R303). -/
inductive MatStop where
  | running
  /-- Stopped on a page fault of this VA, its record carrying the thread's `fltseq`; `opnd` is 0 A, 1 B, 2 scales. -/
  | faulted (va opnd : Nat)
  /-- Held at a slice. -/
  | held (va : Nat) (why : Hold)
deriving DecidableEq, Repr

/-- What an MMR passes on: a block with its type, K and P, or an abort token from a failed core (R304). -/
inductive MmrKind where
  | block (ty : MtxTy) (kl : KLen) (side : Nat) (bytes : List Byte)
  | token (core : Nat)
deriving DecidableEq, Repr

/-- An engine transfer to a core, for the n-th MMR of a launch there (R304). -/
structure MmrItem where
  (lnum n dst : Nat)
  kind : MmrKind
deriving DecidableEq, Repr

/-- A matrix command in the queue (R293): form 0 MMA, 1 MMAL, 2 MMR. -/
structure MatCmd where
  (tid form : Nat)
  /-- The tenancy and the launch for which it acts. -/
  tn       : Nat
  lnum     : Option Nat
  ty       : MtxTy
  kl       : KLen
  bank     : Nat
  (a b shape : Word)
  (sclp fcw : Word)
  table    : List Word32
  /-- Next k-block; for MMR counted over all its steps. -/
  next     : Nat
  flags    : Word
  stop     : MatStop
  /-- MMR: the blocks of the current step. -/
  (ablk bblk : List Byte)
  /-- MMR: the bank as it was before the current step, once a part of the step has been added (R304). -/
  kept     : List Nat
deriving DecidableEq, Repr

/-- Where an output byte of a copy goes (R321, R322). -/
inductive CopyDst where
  | lm (addr : Nat)
  | remote (core addr : Nat)
  | glob (va : Nat)
deriving DecidableEq, Repr

/-- One output byte of a copy, with the nibbles it writes (R327), its output row, the flags raised for the elements that begin in it, the
block scales that are written with it, by LM address (R322, R326), and the number of its stripe (R327). -/
structure CopyOut where
  dst    : CopyDst
  x      : Byte
  mask   : Byte
  row    : Nat
  flags  : Word
  scales : List (Nat × Nat)
  unit   : Nat
deriving DecidableEq, Repr

/-- What follows the output that a copy command has still to write: its end, a fault, or a hold at a source (R327). -/
inductive CopyEnd where
  | status (st detail : Nat) (short : Bool)
  | page (va kind level access : Nat) (pte : Word)
  | hold (va : Nat) (why : Hold)
deriving DecidableEq, Repr

/-- A copy command in the engine queue (R316). -/
structure CopyCmd where
  (id fn : Nat)
  (w0 w1 w2 w3 : Word)
  (chain target : Word)
  (fcw seed : Word)
  table      : List Word32
  /-- Launch and tenancy that the command acts for (R317); none when the target thread holds no task. -/
  owner      : Option (Nat × Nat)
  /-- The command has been started. -/
  started    : Bool
  /-- Output still to write, in ascending output position, and what follows it. -/
  out        : List CopyOut
  stop       : CopyEnd
  /-- Output entries and output bytes written so far. -/
  (pos done  : Nat)
  /-- Source bytes that the engine has read, by VA, and for XAXB by LM address above 2^60. -/
  buf        : List (Nat × List Byte)
  /-- Flags raised for the output written so far (R329). -/
  flags      : Word
  /-- XPUT: 0 not yet sent, 1 in the fabric, 2 acknowledged. -/
  put        : Nat
  /-- Held at a destination's slice at this VA, or, a put, at its target. -/
  held       : Option (Nat × Hold)
  /-- The stripe that has been written in part, if any. -/
  part       : Option Nat
  /-- XCAN has marked the command while a read of its source is held in the middle of a stripe, at whose end it stops (R333). -/
  ends       : Option Nat
deriving DecidableEq, Repr

/-- A message (R251) with the task that it names, 0xFFFF_FFFF for none (R254), and, once it is queued, the cycle of the core in which it arrived
(R261) and the tenancy for which its sender acted (R252). -/
structure Message where
  (hdr payload : Word)
  (task at_ tn : Nat)
deriving DecidableEq, Repr

/-- A task record (R346). -/
structure TaskRec where
  (tag lnum lo hi : Nat)
  (fmtp sclp : Word)
deriving DecidableEq, Repr

/-- L1 sector states (R171). -/
inductive SecSt where
  | i | s | m
deriving DecidableEq, Repr

/-- A 256-byte L1 line (R171); `line` is VA[55:8].  Lists of lines run from the most to the least recently used. -/
structure L1Line where
  (tn line : Nat)
  sec       : Vector SecSt 4
  data      : VReg
  /-- Bytes written while their sector was in M, which a guest line needs at write-back (R214). -/
  wrote     : Mask
  /-- Sectors installed by a push and not yet used, each with the region that pushed it (R370). -/
  pushed    : List (Nat × Nat)
deriving DecidableEq, Repr

/-- An entry of a push table (R367). -/
structure PushEntry where
  (region lnum tn line smask consumer ordinal : Nat)
  armed : Bool
deriving DecidableEq, Repr

/-- An outstanding remote write of a core (R199): its identifier, the sending thread and context, and the destination core. -/
structure OutWrite where
  (id tid ctx dst : Nat)
deriving DecidableEq, Repr

/-- A spilled or swapped context (R388, R391). -/
structure Saved where
  tid     : Nat
  thread  : Thread
  valid   : Bool
  /-- The waking event has occurred, or the context waits for none: it is restorable (R53). -/
  ready   : Bool
  /-- Switched out, or stopped alone: a resume command must come first (R392, R401). -/
  out     : Bool
  /-- The record number in the context pool; 0 in a save area. -/
  record  : Nat
  /-- Its registers that an uncorrectable soft error has damaged, numbered as in a core's `badThread` (R395). -/
  bad     : List Nat
deriving DecidableEq, Repr

/-- One core. -/
structure Core where
  cyc      : Word
  /-- The thread that issued last (R46). -/
  last     : Nat
  threads  : Vector Thread 16
  lm       : List Host.Cell
  slots    : List Slot
  loading  : Option Loading
  /-- Attributes of blocks that differ from their default (R136, R137). -/
  attrs    : List (Nat × Attr)
  landing  : Vector LandReg 32
  /-- The launch that holds l0 to l15 (R242). -/
  landHolder : Option Nat
  windows  : Vector Window 8
  /-- The launch that holds the windows (R119). -/
  winHolder : Option Nat
  /-- The decode table entries, by index, that differ from 0 (R100). -/
  dtable   : List (Nat × Word32)
  dtab     : Word
  /-- Decode tables loaded and not yet in force: the cycle in which they take effect, their entries and status (R101). -/
  dtNext   : List (Nat × List (Nat × Word32) × Word)
  /-- Accumulator banks: words that differ from 0, by bank and index (R291). -/
  banks    : List (Nat × Word32)
  mq       : List MatCmd
  /-- Staging buffers of blocks from the west and from the north, and blocks that wait to be sent east and south (R304). -/
  (mmrWest mmrNorth mmrEast mmrSouth : List MmrItem)
  /-- MMRs of a launch that have ended on the core (R304). -/
  mmrEnded : List (Nat × Nat)
  cq       : List CopyCmd
  (copyDone copyFailed : Word)
  /-- The launch that installed the running copy program (R314). -/
  copyProg : Option Nat
  msgq     : List Message
  /-- Outstanding remote writes (R199). -/
  out      : List OutWrite
  deque    : List TaskRec
  /-- Launches a record of which the core has held (R349). -/
  held     : List Nat
  l1       : List L1Line
  /-- Prefetches under way: tenancy and VA (R187). -/
  prefetches : List (Nat × Nat)
  /-- The push table (R367). -/
  pushTable : List PushEntry
  /-- Save areas of the task threads with the spill store (R388). -/
  spills   : List Saved
  /-- Counts parks and placements, for R52 and R389. -/
  order    : Nat
  /-- Launches marked for pre-emption, with the hub time of the mark (R350). -/
  marks    : List (Nat × Nat)
  /-- Damaged LM addresses, landing registers, windows and engine buffers, and damaged registers of threads: g0 to g31 have the numbers 0 to
  31, v0 to v15 32 to 47, k0 to k7 48 to 55, gs0 to gs3 56 to 59, and control register c the number 64 + c (R395). -/
  (badLm badLand badWin : List Nat)
  badThread : List (Nat × Nat)
  (badMatrix badCopy : Bool)
deriving DecidableEq, Repr

/-! ### Dies and slices -/

/-- A resident LLC line (R174): data expanded, dirty sectors, directory, and for a guest line its byte mask and stamps (R213 to R217). -/
structure LlcLine where
  (tn line : Nat)
  /-- The physical address of the line and its key index, from the translation that filled it. -/
  (pa key : Nat)
  data    : VReg
  /-- The BDZ code of each sector, and the cells of the set that hold the line's image, in order (R174, R178). -/
  codes   : Vector Nat 4
  cells   : List Nat
  dirty   : List Nat
  /-- Owner of each sector in M, if any. -/
  owner   : Vector (Option Nat) 4
  /-- Recorded sharers of each sector (R173). -/
  sharers : Vector (List Nat) 4
  overflow : Vector Bool 4
  /-- Byte mask of a guest line (R214). -/
  mask    : Mask
  (pkgStamp podStamp : Nat)
  /-- Damaged by an uncorrectable soft error (R177). -/
  bad     : Bool
deriving DecidableEq, Repr

/-- A leaf in a translation cache (R157), with the address of its entry in memory. -/
structure TlbEntry where
  (tn va level addr : Nat)
  pte : Word
deriving DecidableEq, Repr

/-- A recording table entry (R366). -/
structure RecEntry where
  (region lnum tn line smask producer consumer ordinal : Nat)
deriving DecidableEq, Repr

/-- A request that a miss register holds (R184): the thread, the VA and what it asks for. -/
structure MissReq where
  (core tid va : Nat)
  kind : AskKind
deriving DecidableEq, Repr
/-- What a fill lets happen next (R184): the answer to a thread that asks for something in a line, or a posted reduction. -/
inductive Grant where
  | thread (core tid line : Nat)
  | posted (core tid va : Nat)
  /-- What waits for a miss register looks again. -/
  | retry
deriving DecidableEq, Repr
/-- The core of a grant, if it is one core's. -/
def Grant.core (g : Grant) : Option Nat :=
  match g with
  | .thread c _ _ | .posted c _ _ => some c
  | .retry => none

/-- A miss register of a slice (R184): the line whose fill is outstanding, and the requests attached to it in order of arrival. -/
structure Miss where
  (tn line : Nat)
  reqs : List MissReq
deriving DecidableEq, Repr

/-- A slice: its counters (R182), miss registers (R184), translation cache and recording table. -/
structure Slice where
  (expansions expevict fills discards merges combines : Nat)
  misses : List Miss
  tlb : List TlbEntry
  recTable : List RecEntry
deriving DecidableEq, Repr

/-- Recording modes (R373): 1 Armed, 2 Replay, 3 Demand. -/
inductive RrMode where
  | armed | replay | demand
deriving DecidableEq, Repr

/-- A thread's part in a region's iterations: its context, and the instruction that arrived. -/
structure RrMember where
  (core tid ctx id : Nat)
deriving DecidableEq, Repr

/-- A recording region record (R362, R373). -/
structure RrRegion where
  (num lnum tn base : Nat)
  rword  : Word
  thresh : Nat
  mode  : RrMode
  (opened rearm : Bool)
  (iters depart : Nat)
  (recorded pushes used unrec wasted mismatch overflow fallbacks shot : Nat)
  /-- A recording table overflowed in the open iteration (R363). -/
  lost  : Bool
  /-- Departures of the open iteration: unrecorded transfers and wasted pushes (R371). -/
  departNow : Nat
  /-- Threads that have arrived for the next opening, threads of the open iteration, and threads that have ended their part (R378, R379). -/
  (arrived members ended : List RrMember)
  /-- Lines whose part in the iteration has ended (R365). -/
  spoiled : List Nat
deriving DecidableEq, Repr

/-- The store count of a core on a line of a region since the region's opening, in its L1 or at the slice (R365). -/
structure StoreCount where
  (core region tn line n : Nat)
deriving DecidableEq, Repr

/-- An engine claim (R225): the command's destination range; lines below `upto` have ended. -/
structure Claim where
  (core cmd tn lo hi upto : Nat)
deriving DecidableEq, Repr

/-- One die. -/
structure Die where
  (pkgEpoch podEpoch : Nat)
  (guestDiscards droppedWrites apertureDiscards : Nat)
  /-- The deterministic launch that holds the die (R352). -/
  det    : Option Nat
  /-- The core of the die whose slot is next while a deterministic launch holds the die (R8, R352). -/
  wheel  : Nat
  llc    : List LlcLine
  slices : List (Nat × Slice)
  regions : List RrRegion
  counts : List StoreCount
  claims : List Claim
deriving DecidableEq, Repr

/-! ### The hub -/

/-- A launch packet as captured (R340). -/
structure Packet where
  (kernel n0 n1 n2 chunk args : Nat)
  (fmtp sclp : Word)
  (dies prio flags rsvd : Nat)
  rect : Nat
  done : Nat
deriving DecidableEq, Repr

/-- A pending packet of a queue with its sequence number and arrival time. -/
structure Pending where
  pkt : Packet
  (seq at_ : Nat)
deriving DecidableEq, Repr

/-- Queue states (R339); closed queues are not listed. -/
inductive QState where
  | unmapped | mapping | mapped | unmapping
deriving DecidableEq, Repr

/-- A user queue (R337, R339): record, state, FIFO and ring, when its head became head, and its last activity. -/
structure Queue where
  (num tenancy maxprio prelim backing entries seq dropped : Nat)
  opened : Bool
  state  : QState
  /-- The hardware slot while it has one. -/
  slot   : Nat
  (fifo ring : List Pending)
  (headAt active : Nat)
deriving DecidableEq, Repr

/-- An active launch (R342, R347). -/
structure Launch where
  (lnum queue seq tn prio : Nat)
  pkt    : Packet
  /-- Order of dispatch. -/
  order  : Nat
  /-- Kernel tag and threads field, as the last load of its image has read them (R141); none before the first. -/
  tag     : Option Nat
  threads : Nat
  /-- Outstanding count per die. -/
  counts : List (Nat × Nat)
  /-- Dies that have not distributed the packet yet, with the number of cores seeded there (R344). -/
  todo   : List (Nat × Nat)
  /-- Cores whose seed record waits for room in the deque, in order of arrival (R347). -/
  stuck  : List (Nat × Nat)
  /-- Hub time of the packet's arrival, and whether a task has issued (R409). -/
  arrived : Nat
  issued : Bool
  /-- Status to write at retirement, and that the launch has ended. -/
  status : Nat
  ended  : Bool
  /-- Records held in the pool while switched out, by the core they were taken from (R392). -/
  poolRecs : List (Nat × TaskRec)
  /-- Dies on which the launch is switched out. -/
  out    : List Nat
  /-- Tasks that have retired, which a message may name (R255). -/
  retired : List Nat
deriving DecidableEq, Repr

/-- A window table record (R220). -/
structure WinRec where
  (tenancy state core ctr base len : Nat)
deriving DecidableEq, Repr

/-- A versioned region record (R265). -/
structure VRegion where
  (base len tagpa k : Nat)
  live   : Bool
  (basev oldest opened sealed : Nat)
  /-- Contributors still due, per slot. -/
  due    : List Nat
  forwarded : Nat
  /-- The oldest version is marked Reclaimed while its reclaim runs (R277). -/
  reclaiming : Bool
deriving DecidableEq, Repr

/-- A pod group record (R405). -/
structure PodGroup where
  (tenancy state lnum e : Nat)
deriving DecidableEq, Repr

/-- An island record (R407). -/
structure Island where
  (throttles cur cap : Nat)
deriving DecidableEq, Repr

/-- A capture unit (R409). -/
structure Capture where
  (arg code : Nat)
  en       : Bool
  (count min max : Word)
  hist     : List Word
deriving DecidableEq, Repr

/-- The kinds of posted remote write (R247, R253, R360). -/
inductive NetKind where
  | rput (li : Nat) (x : Word)
  | rputm (addr : Nat) (x : Word)
  | rputmv (addr : Nat) (x : VReg)
  | wake (tid : Nat)
  | message (m : Message)
  | record (r : TaskRec)
deriving DecidableEq, Repr

/-- Where a posted write stands: travelling, waiting at the destination since a cycle, or answered. -/
inductive NetPhase where
  | flight
  | waiting (since : Nat)
  | acked
  | dropped (d : Drop)
deriving DecidableEq, Repr

/-- A posted remote write or message in flight (R199), with the hub time of its sending (R409). -/
structure NetItem where
  (id src tid dst tn sent : Nat)
  /-- The launch for which the sender acted. -/
  lnum  : Option Nat
  kind  : NetKind
  phase : NetPhase
deriving DecidableEq, Repr

/-- Why a posted reduction cannot be performed (R239). -/
inductive RedFault where
  | page (va kind level : Nat) (pte : Word)
  | trap (cause : Nat) (val : Word)
deriving DecidableEq, Repr

/-- A posted reduction (R238, R274); `ctx` tells its context from others of the thread, `ver` is the version word and type of a REDVN. -/
structure Red where
  (core tid ctx tn : Nat)
  /-- The launch for which the thread acted. -/
  lnum : Option Nat
  op   : AmoOp
  w    : Bool
  sc   : AmoScope
  va   : Nat
  x    : Word
  ver  : Option (RedvnTy × Word)
  /-- The fault that its slice noted, with the order of noting. -/
  note : Option (RedFault × Nat)
  /-- The fault's record has been sent at the waiting instruction's park. -/
  sent : Bool
  /-- Held at its slice. -/
  held : Option Hold
  /-- A wake has resumed the instruction that waits for it: it is performed before that wait ends (R239). -/
  owed : Bool
deriving DecidableEq, Repr

/-- A fault record (R159, R393). -/
structure FaultRec where
  (tn va seq core tid kind access agent level : Nat)
  pte : Word
  /-- The record has found its queue full, and is counted there as held (R383). -/
  waited : Bool
  /-- Of a stop record, the launch whose completion word it precedes (R393). -/
  lnum : Option Nat
deriving DecidableEq, Repr

/-- An arrival at a barrier (R208). -/
structure Arrival where
  (core tid id : Nat)
  x : Word
deriving DecidableEq, Repr

/-- A barrier instance in use (R206): operation 0 BAR, 1 BARMAX, 2 BARSUM, 3 BARMIN. -/
structure Barrier where
  /-- The launch, with its order of dispatch, since numbers are used again. -/
  (lnum order : Nat)
  scope : Scope
  /-- Quad number, die number or rectangle with die: what tells extents apart. -/
  (extent op : Nat)
  ty    : CombTy
  arrivals : List Arrival
deriving DecidableEq, Repr

/-- A replayed push to serve (R368); `tid` is the thread of the producer core that fired it. -/
structure Push where
  (die region lnum tn line sector producer tid consumer : Nat)
deriving DecidableEq, Repr

/-- The command windows of the control range (R399). -/
inductive CmdWin where
  | shootdown | wake | switch | copyProg
deriving DecidableEq, Repr

/-- A command accepted by a window and not yet complete, with its number (R399, R402). -/
structure Command where
  win : CmdWin
  (w0 w1 w2 w3 : Word)
  num : Nat
deriving DecidableEq, Repr

/-- A shootdown's invalidate under way: its entries are Draining (R163). -/
structure Shootdown where
  (tn op dies lo hi : Nat)
deriving DecidableEq, Repr

/-- A security alarm record (R414). -/
structure AlarmRec where
  (cause cycle : Nat)
  source : Word
deriving DecidableEq, Repr

/-- The security engine (R410 to R414). -/
structure Security where
  keys      : List (Nat × BitVec 512)
  fuse      : Nat
  /-- Status word, the command that the engine runs with the link or firmware core that gave it, and the request data as written, by offset
  (R411). -/
  status    : Nat
  command   : Option (Nat × Nat)
  request   : List (Nat × Word)
  /-- The challenge that is valid for one unlock, with its tenancy. -/
  challenge : Option (Nat × BitVec 256)
  /-- The response area: report or challenge bytes. -/
  response  : List Byte
  /-- The firmware image that runs, and the image staged for the next reset, as PA and length. -/
  firmware  : List Byte
  /-- The boot ROM has verified the firmware image at the last reset (R410). -/
  verified  : Bool
  staged    : Option (Nat × Nat)
  alarms    : List AlarmRec
  alarmCount : Nat
  hold      : Bool
deriving DecidableEq, Repr

/-- A completion word that the hub has still to store for an invalid packet (R340). -/
structure OwedWord where
  (tn va x : Nat)
deriving DecidableEq, Repr

/-- Who makes an access that is no thread's, engine's or reduction's (R167): the store of a launch's completion word, that of an invalid packet's,
the read of an image for a core, or a put of another package. -/
inductive HubAccess where
  | done (lnum : Nat)
  | owed (o : OwedWord)
  | image (core lnum : Nat)
  | put (tn win off : Nat) (bytes : List (Nat × Byte × Byte))
deriving DecidableEq, Repr
/-- Such an access that a migrating leaf holds at a VA until op 2 or 3 releases it (R167). -/
structure HubWait where
  who : HubAccess
  (tn va : Nat)
deriving DecidableEq, Repr

/-- What moves next where the spec leaves the order open: an event row, or an issue slot of a core. -/
inductive Act where
  | event (i : Instr)
  | issue (core : Nat)
deriving DecidableEq, Repr

/-- The hub and its tables. -/
structure Hub where
  /-- Hub time in ns (R396). -/
  now      : Nat
  (ready0 ready1 : Word)
  (pkg ageStep tntab poolPa poolSize : Nat)
  (staleWakes faultedStores discardedControl discardedAperture copyRestarts lostNoArea : Nat)
  /-- Fault-signal routes that differ from fw = 1, vector 0 (R400). -/
  routes   : List (Nat × Nat)
  /-- Signals raised, newest first: route word and tenancy, or 63 for vector 63. -/
  signals  : List (Nat × Nat)
  overflowAreas : List (Nat × (Nat × Nat))
  queues   : List Queue
  winTab   : List (Nat × WinRec)
  vregions : List ((Nat × Nat) × VRegion)
  podGroups : List (Nat × PodGroup)
  debugOn  : List Nat
  islands  : List (Nat × Island)
  captures : List (Nat × Capture)
  sec      : Security
  /-- Command counts of the command windows, and the words staged by window, writer and position (R399, R402). -/
  counts   : List (CmdWin × Nat)
  staged   : List ((CmdWin × Nat × Nat) × Word)
  /-- Commands accepted and not yet complete, in order of arrival. -/
  cmds     : List Command
  shoot    : Option Shootdown
  launches : List Launch
  /-- Completion words of invalid packets that are still to be stored (R340, R341). -/
  owed     : List OwedWord
  /-- Accesses of the hub and of other packages that migrating leaves hold (R167). -/
  waits    : List HubWait
  /-- Contexts in the context pool, with their core (R391). -/
  pool     : List (Nat × Saved)
  /-- Packages of the pod that are available (R223, R224). -/
  podAvail : List Nat
  /-- Since when every fabric port is down (R405). -/
  allDown  : Option Nat
  /-- The last value an aperture read returned (R398). -/
  hostRead : Word
deriving DecidableEq, Repr

/-- The machine. -/
structure State where
  hub    : Hub
  dies   : List (Nat × Die)
  cores  : List (Nat × Core)
  /-- DRAM of the package by physical address (R150). -/
  dram   : List Host.Cell
  /-- Memory of other packages by physical address, as far as this package has written it (log 11). -/
  far    : List Host.Cell
  net    : List NetItem
  reds   : List Red
  faults : List FaultRec
  barriers : List Barrier
  pushes : List Push
  /-- What a fill or a combined read answers, in the order in which it is served (R183, R184). -/
  granted : List Grant
  /-- Puts on their way to other packages: core and command identifier. -/
  puts   : List (Nat × Nat)
  /-- The core and thread whose instruction runs. -/
  core   : Nat
  tid    : Nat
  agenda : List Act
  /-- The core whose turn is next when the agenda is empty. -/
  turn   : Nat
  /-- Identifiers given so far, and free values used so far. -/
  nextId : Nat
  fresh  : Nat
  /-- Package resets so far; unlisted DRAM reads as 0 before the first and as a free value after it. -/
  dramEpoch : Nat
  /-- Sectors of DRAM, by physical address divided by 64, that an uncorrectable soft error has damaged (R158, R395). -/
  badDram : List Nat
  /-- Within a step: a write has found no line of its set that may leave (R179); false between steps. -/
  jam    : Bool
deriving DecidableEq, Repr

/-- A way a run can stop with a fault.  The spec gives every event it names an effect, so no constructor exists. -/
inductive Fault where
deriving DecidableEq, Repr

/-- Why an instruction has no meaning in the model. -/
inductive Refusal where
  /-- Raised by the arm of an instruction that is not modelled yet; safe: a run stops there. -/
  | notModelled (mnemonic : String)
deriving DecidableEq, Repr

/-! ### Reset -/

/-- No partial state. -/
def Progress.none : Progress := ⟨false, [], 0, 0, [], [], [], Option.none, 0, Option.none, .none, [], 0, [], Option.none, Option.none⟩

/-- Every control register 0 (R44, log 4). -/
def Ctl.zero : Ctl :=
  { tenancy := 0, fcw := 0, fflags := 0, seed := 0, fmtp := 0, sclp := 0, taskid := 0, tasklo := 0, taskhi := 0, launch := 0, kslot := 0,
    waitlim := 0, msghdr := 0, evvec := 0, evmask := 0, evcause := 0, evpc := 0, mrp := 0, mstat := 0, trapvec := 0, trapcause := 0,
    trappc := 0, trapval := 0, trapinst := 0, rrthresh := 0, det := 0, lend := 0, fltseq := 0, athand := Vector.replicate 8 0 }

/-- A Free thread of a core array that has just become ready (R44; its registers hold no defined values, R49: log 4). -/
def Thread.free : Thread :=
  { status := .free, system := false, resume := false, pc := 0, inst := 0, buf := [], readyAt := 0,
    g := Vector.replicate 32 0, gs := Vector.replicate 4 0, v := Vector.replicate 16 0, k := Vector.replicate 8 0,
    ctl := Ctl.zero, wake := false, sendCount := 0, drops := [], handles := Vector.replicate 8 none,
    progress := Progress.none, task := none, placedAt := 0 }

/-- The security engine after reset (log 5). -/
def Security.reset : Security :=
  { keys := [], fuse := 0, status := 0, command := none, request := [], challenge := none, response := [], firmware := [], verified := true, staged := none, alarms := [], alarmCount := 0,
    hold := false }

/-- The hub after reset: nothing ready (R403), no queue open, no launch, every port down (R405); registers without a reset value 0,
AGE_STEP 1 (log 5). -/
def Hub.reset : Hub :=
  { now := 0, ready0 := 0, ready1 := 0, pkg := 0, ageStep := 1, tntab := 0, poolPa := 0, poolSize := 0, staleWakes := 0,
    faultedStores := 0, discardedControl := 0, discardedAperture := 0, copyRestarts := 0, lostNoArea := 0, routes := [], signals := [],
    overflowAreas := [], queues := [], winTab := [], vregions := [], podGroups := [], debugOn := [], islands := [], captures := [],
    sec := Security.reset, counts := [], staged := [], cmds := [], shoot := none, launches := [], owed := [], waits := [], pool := [], podAvail := [], allDown := some 0, hostRead := 0 }

/-- The package right after reset (R403, R406; log 1). -/
def State.reset : State :=
  { hub := Hub.reset, dies := [], cores := [], dram := [], far := [], net := [], reds := [], faults := [], barriers := [], pushes := [], granted := [], puts := [],
    core := 0, tid := 0, agenda := [], turn := 0, nextId := 0, fresh := 0, dramEpoch := 0, badDram := [], jam := false }

end Sys2Proof.Machine
end

