-- ==== Sys2Proof/Machine/Ops.lean ====
section
/-! DEFINITION. The named operations over the state: tables, bytes, local memory, DRAM, registers, threads, parking and waking, instruction
fetch, taking an exception (R80) and returning from one (R77), the hub stop and the launch abort (R81, R393). -/

namespace Sys2Proof.Machine

/-- The outcome of an instruction or event. -/
abbrev Res := Host.Outcome State Fault Refusal

/-! ### Tables and bytes -/

/-- The entry of a table under a key. -/
def getKey {κ β : Type} [DecidableEq κ] : List (κ × β) → κ → Option β
  | [], _ => none
  | (k, x) :: l, a => if k = a then some x else getKey l a

/-- A table with the entry under a key set; a new key goes to the end. -/
def setKey {κ β : Type} [DecidableEq κ] : List (κ × β) → κ → β → List (κ × β)
  | [], a, x => [(a, x)]
  | (k, y) :: l, a, x => if k = a then (a, x) :: l else (k, y) :: setKey l a x

/-- A table without a key. -/
def dropKey {κ β : Type} [DecidableEq κ] (l : List (κ × β)) (a : κ) : List (κ × β) := l.filter (fun e => e.1 ≠ a)

/-- An element of a list replaced; a position past the end changes nothing. -/
def setAt {β : Type} : List β → Nat → β → List β
  | [], _, _ => []
  | _ :: l, 0, x => x :: l
  | y :: l, n + 1, x => y :: setAt l n x

/-- A list without the element at a position. -/
def dropAt {β : Type} : List β → Nat → List β
  | [], _ => []
  | _ :: l, 0 => l
  | y :: l, n + 1 => y :: dropAt l n

/-- Changes every entry of a register file. -/
def vecMap {α : Type} {n : Nat} (f : Nat → α → α) (v : Vector α n) : Vector α n :=
  (List.range n).foldl (fun (w : Vector α n) (i : Nat) =>
    match w[i]? with
    | some x => w.setIfInBounds i (f i x)
    | none => w) v

/-- The first position whose element satisfies a test. -/
def findPos {β : Type} (p : β → Bool) : List β → Option Nat
  | [] => none
  | x :: l => if p x then some 0 else (findPos p l).map (· + 1)

/-- The element with the greatest key; the first of equals. -/
def argMax {β : Type} (key : β → Nat) : List β → Option β
  | [] => none
  | x :: l =>
    match argMax key l with
    | none => some x
    | some y => if key y > key x then some y else some x

/-- The element with the least key; the first of equals. -/
def argMin {β : Type} (key : β → Nat) : List β → Option β
  | [] => none
  | x :: l =>
    match argMin key l with
    | none => some x
    | some y => if key y < key x then some y else some x

/-- A natural number from bytes in ascending address order (R5). -/
def natOfBytes : List Byte → Nat
  | [] => 0
  | b :: l => b.toNat + 256 * natOfBytes l

/-- The `n` low bytes of a number in ascending address order (R5). -/
def bytesOfNat : Nat → Nat → List Byte
  | 0, _ => []
  | n + 1, x => BitVec.ofNat 8 x :: bytesOfNat n (x / 256)

/-- Sign-extends the low `w` bits of a number to a word. -/
def sextNat (w x : Nat) : Word :=
  let y := x % 2 ^ w
  if y < 2 ^ (w - 1) then word y else word (2 ^ 64 + y - 2 ^ w)

/-- The number, as an integer, that the low `w` bits of `x` hold in two's complement. -/
def intOf (w x : Nat) : Int :=
  let y := x % 2 ^ w
  if y < 2 ^ (w - 1) then (y : Int) else (y : Int) - 2 ^ w

/-- The low `w` bits of an integer. -/
def natOfInt (w : Nat) (x : Int) : Nat := (x % (2 ^ w : Int)).toNat

/-! ### Memory as sorted cells -/

/-- A byte of a memory whose unlisted addresses read as `d` says. -/
def memGet (d : Nat → Byte) : List Host.Cell → Nat → Byte
  | [], a => d a
  | (k, x) :: m, a => if k = a then x else memGet d m a

/-- A memory without the cell of an address. -/
def memDrop : List Host.Cell → Nat → List Host.Cell
  | [], _ => []
  | (k, x) :: m, a => if k = a then memDrop m a else (k, x) :: memDrop m a

/-- A memory with a cell put before the first greater address. -/
def memPut : List Host.Cell → Nat → Byte → List Host.Cell
  | [], a, x => [(a, x)]
  | (k, y) :: m, a, x => if k < a then (k, y) :: memPut m a x else (a, x) :: (k, y) :: m

/-- Writes a byte; the list stays sorted and lists no byte that reads as an unlisted one. -/
def memSet (d : Nat → Byte) (m : List Host.Cell) (a : Nat) (x : Byte) : List Host.Cell :=
  if x = d a then memDrop m a else memPut (memDrop m a) a x

/-- The canonical form: addresses strictly rising above `lo`, no entry equal to what an unlisted address reads as. -/
def memWfFrom (d : Nat → Byte) : Option Nat → List Host.Cell → Bool
  | _, [] => true
  | lo, (k, x) :: m => (match lo with | none => true | some l => decide (l < k)) && decide (x ≠ d k) && memWfFrom d (some k) m

/-- The canonical form of a memory. -/
def Memory.wf (d : Nat → Byte) (m : List Host.Cell) : Bool := memWfFrom d none m

/-- The `n` bytes at an address, in ascending order. -/
def memRead (d : Nat → Byte) (m : List Host.Cell) (a : Nat) : Nat → List Byte
  | 0 => []
  | n + 1 => memGet d m a :: memRead d m (a + 1) n

/-- Writes bytes at an address, in ascending order. -/
def memWrite (d : Nat → Byte) (m : List Host.Cell) (a : Nat) : List Byte → List Host.Cell
  | [] => m
  | x :: l => memWrite d (memSet d m a x) (a + 1) l

/-! ### Local memory -/

/-- The shipped copy program (R313), from LM 0x3_F000. -/
def copyProgram : List Word32 :=
  [0x26A00003, 0x12B5F064, 0x78150601, 0x0AC00100, 0x0AE00001, 0x1EF7003F, 0x78160301, 0x6C808002, 0x78000301, 0x6CA08802, 0x6CC09002] ++
  [0x6CE09802, 0x6D00A002, 0x6D20A802, 0x48200010, 0x6D40C004, 0x2D40FFF6, 0x6C80C002, 0x6CA0C802, 0x6CC0D002, 0x6CE0D802, 0x6D00E002] ++
  [0x6D20E802, 0x48200007, 0x481FFFEE, 0x78000301, 0x78170613, 0x6D40C004, 0x3140FFF5, 0x481FFFE9, 0x294900CC, 0x2D400007, 0x09600001] ++
  [0x2D4B0007, 0x09600002, 0x314B0002, 0xB0884802, 0x4C010000, 0xB0884800, 0x4C010000, 0xB0884801, 0x4C010000]

/-- What an LM byte reads as that nothing has written: the shipped copy program, and 0 elsewhere (R313, log 2). -/
def lmDefault (a : Nat) : Byte :=
  if a < 0x3F000 then 0
  else
    match copyProgram[(a - 0x3F000) / 4]? with
    | some w => fld w (8 * (a % 4)) 8
    | none => 0

/-- Reads `n` bytes of local memory as a number. -/
def Core.lmRead (c : Core) (a n : Nat) : Nat := natOfBytes (memRead lmDefault c.lm a n)
/-- Reads bytes of local memory. -/
def Core.lmBytes (c : Core) (a n : Nat) : List Byte := memRead lmDefault c.lm a n

/-- The attribute a block has where the hub has set none (R136). -/
def attrDefault (b : Nat) : Attr :=
  if b = 0 then .system else if b < 0x171 then .data else if b < 0x1F8 then .system else .copy

/-- The attribute of a protection block (R137). -/
def Core.attr (c : Core) (b : Nat) : Attr := (getKey c.attrs b).getD (attrDefault b)

/-! ### Cores, dies, threads -/

/-- The lowest damaged byte of a range (R395). -/
def Core.lmBad (c : Core) (a n : Nat) : Option Nat :=
  if c.badLm.isEmpty then none else ((List.range n).map (· + a)).find? (fun b => c.badLm.contains b)
/-- A word of a core's LM as it is fetched, with its marks (R143, R395). -/
def fetchWord (c : Core) (ok : Nat → Bool) (a : Nat) : Fetched :=
  if a + 4 ≤ 0x40000 then ⟨BitVec.ofNat 32 (c.lmRead a 4), ok a, (c.lmBad a 4).isSome⟩ else ⟨0, false, false⟩

/-- The state that t15 has when its array becomes ready and at each restart (R44). -/
def Thread.copy : Thread :=
  { Thread.free with
    status := .ready, pc := 0x3F000, buf := [⟨0x26A00003, true, false⟩, ⟨0x12B5F064, true, false⟩, ⟨0x78150601, true, false⟩, ⟨0x0AC00100, true, false⟩],
    ctl := { Ctl.zero with seed := 0x2545F4914F6CDD1D } }

/-- A core of an array that has just become ready (R44, R64, R119, R242, R291; log 4). -/
def Core.fresh : Core :=
  { cyc := 0, last := 15, threads := (Vector.replicate 16 Thread.free).setIfInBounds 15 Thread.copy, lm := [], slots := [], loading := none, attrs := [],
    landing := Vector.replicate 32 ⟨0, false, [], 0⟩, landHolder := none, windows := Vector.replicate 8 ⟨0, .empty, 0⟩, winHolder := none,
    dtable := [], dtab := 0, dtNext := [], banks := [], mq := [], mmrWest := [], mmrNorth := [], mmrEast := [], mmrSouth := [], mmrEnded := [], cq := [], copyDone := 0, copyFailed := 0,
    copyProg := none, msgq := [], out := [], deque := [], held := [], l1 := [], prefetches := [], pushTable := [], spills := [], order := 0, marks := [],
    badLm := [], badLand := [], badWin := [], badThread := [], badMatrix := false, badCopy := false }

/-- A die whose array has just become ready (log 5). -/
def Die.fresh : Die :=
  { pkgEpoch := 0, podEpoch := 0, guestDiscards := 0, droppedWrites := 0, apertureDiscards := 0, det := none, wheel := 0, llc := [], slices := [],
    regions := [], counts := [], claims := [] }

/-- A slice that nothing has reached. -/
def Slice.fresh : Slice := ⟨0, 0, 0, 0, 0, 0, [], [], []⟩

/-- A core by global core number. -/
def State.coreAt (s : State) (c : Nat) : Core := (getKey s.cores c).getD Core.fresh
/-- Replaces a core. -/
def State.setCore (s : State) (c : Nat) (x : Core) : State := { s with cores := setKey s.cores c x }
/-- Changes a core. -/
def State.updCore (s : State) (c : Nat) (f : Core → Core) : State := s.setCore c (f (s.coreAt c))
/-- A die by number. -/
def State.dieAt (s : State) (d : Nat) : Die := (getKey s.dies d).getD Die.fresh
/-- Replaces a die. -/
def State.setDie (s : State) (d : Nat) (x : Die) : State := { s with dies := setKey s.dies d x }
/-- Changes a die. -/
def State.updDie (s : State) (d : Nat) (f : Die → Die) : State := s.setDie d (f (s.dieAt d))
/-- Changes the hub. -/
def State.updHub (s : State) (f : Hub → Hub) : State := { s with hub := f s.hub }
/-- A thread of a core. -/
def Core.thr (c : Core) (t : Nat) : Thread := (c.threads[t]?).getD Thread.free
/-- Replaces a thread. -/
def Core.setThr (c : Core) (t : Nat) (x : Thread) : Core := { c with threads := c.threads.setIfInBounds t x }
/-- Changes a thread. -/
def Core.updThr (c : Core) (t : Nat) (f : Thread → Thread) : Core := c.setThr t (f (c.thr t))
/-- Changes a thread of a core. -/
def State.updThrAt (s : State) (c t : Nat) (f : Thread → Thread) : State := s.updCore c (·.updThr t f)
/-- The core whose instruction runs. -/
def State.cur (s : State) : Core := s.coreAt s.core
/-- The thread whose instruction runs. -/
def State.thr (s : State) : Thread := s.cur.thr s.tid
/-- Changes the thread whose instruction runs. -/
def State.updThr (s : State) (f : Thread → Thread) : State := s.updThrAt s.core s.tid f
/-- Changes the core whose instruction runs. -/
def State.updCur (s : State) (f : Core → Core) : State := s.updCore s.core f
/-- Changes the control registers of the thread whose instruction runs. -/
def State.updCtl (s : State) (f : Ctl → Ctl) : State := s.updThr (fun t => { t with ctl := f t.ctl })

/-- Die of a global core number (R42: d·1152 + y·32 + x). -/
def dieOf (c : Nat) : Nat := c / 1152
/-- Column of a core. -/
def xOf (c : Nat) : Nat := c % 1152 % 32
/-- Row of a core. -/
def yOf (c : Nat) : Nat := c % 1152 / 32
/-- Quad of a core on its die (R42). -/
def quadOf (c : Nat) : Nat := yOf c / 2 * 16 + xOf c / 2
/-- A core lies in the rectangle that bits [31:0] of a rectangle word name (R197). -/
def inRect (r : Nat) (c : Nat) : Bool :=
  r % 256 ≤ xOf c && xOf c ≤ r / 2 ^ 16 % 256 && r / 2 ^ 8 % 256 ≤ yOf c && yOf c ≤ r / 2 ^ 24 % 256

/-- The launch for which a thread acts: its task's launch, and for t15 the launch that installed its program (R43). -/
def Core.launchOf (c : Core) (t : Nat) : Option Nat := if t = 15 then c.copyProg else (c.thr t).task.map (·.lnum)
/-- The launch for which the current thread acts. -/
def State.curLaunch (s : State) : Option Nat := s.cur.launchOf s.tid
/-- An active launch by number. -/
def State.launchAt (s : State) (l : Nat) : Option Launch := s.hub.launches.find? (·.lnum = l)
/-- Changes a launch. -/
def State.updLaunch (s : State) (l : Nat) (f : Launch → Launch) : State :=
  s.updHub (fun h => { h with launches := h.launches.map (fun x => if x.lnum = l then f x else x) })
/-- The `det` control register as the current thread reads it (R44, R62, R352). -/
def State.det (s : State) : Bool :=
  if s.tid = 15 then (s.dieAt (dieOf s.core)).det.isSome else s.thr.ctl.det = 1
/-- The tenancy of the current thread. -/
def State.tn (s : State) : Nat := s.thr.ctl.tenancy.toNat

/-! ### General registers (R15, R38, R60, R61) -/

/-- The thread is inside an event handler (R260). -/
def Thread.inEvent (t : Thread) : Bool := t.ctl.evcause.getLsbD 63
/-- Reads a general register: g0 is 0, and codes 28 to 31 name gs0 to gs3 inside an event handler. -/
def Thread.rd (t : Thread) (r : Reg) : Word :=
  if r = 0 then 0 else if t.inEvent && 28 ≤ r.toNat then (t.gs[r.toNat - 28]?).getD 0 else t.g.get r.toFin
/-- Writes a general register: a write to g0 is discarded, and codes 28 to 31 name gs0 to gs3 inside an event handler. -/
def Thread.wr (t : Thread) (r : Reg) (x : Word) : Thread :=
  if r = 0 then t
  else if t.inEvent && 28 ≤ r.toNat then { t with gs := t.gs.setIfInBounds (r.toNat - 28) x }
  else { t with g := t.g.set r.toNat x r.isLt }
/-- Reads a general register of the current thread. -/
def State.rd (s : State) (r : Reg) : Word := s.thr.rd r
/-- Writes a general register of the current thread. -/
def State.wr (s : State) (r : Reg) (x : Word) : State := s.updThr (·.wr r x)
/-- Reads a mask register; k0 is all ones (R17). -/
def State.mask (s : State) (k : MaskReg) : Mask := if k = 0 then BitVec.allOnes 256 else s.thr.k.get k.toFin
/-- Writes a mask register; a write to k0 is discarded (R111). -/
def State.setMask (s : State) (k : MaskReg) (m : Mask) : State :=
  if k = 0 then s else s.updThr (fun t => { t with k := t.k.set k.toNat m k.isLt })

/-! ### Instruction fetch (R143, R144) -/

/-- A thread may fetch from the block of an address (R137). -/
def Core.fetchOk (c : Core) (t a : Nat) : Bool :=
  match c.attr (a / 512) with
  | .data | .system => false
  | .copy => t == 15
  | .code slot => t != 15 && (c.thr t).task.isSome && (c.thr t).ctl.kslot.toNat == slot

/-- Reads the four words at the pc of a thread into its buffer (R143). -/
def Core.refill (c : Core) (t : Nat) : Core :=
  let pc := (c.thr t).pc.toNat
  let f := fun a => fetchWord c (c.fetchOk t) a
  c.updThr t (fun x => { x with buf := [f pc, f (pc + 4), f (pc + 8), f (pc + 12)] })
/-- The first word leaves the buffer of a thread, and the word 16 bytes behind it is read (R143). -/
def Core.popWord (c : Core) (t : Nat) : Core :=
  let w := fetchWord c (c.fetchOk t) ((c.thr t).pc.toNat + 16)
  c.updThr t (fun x => { x with buf := x.buf.drop 1 ++ [w] })
/-- Discards and refills the buffer of the current thread. -/
def State.refill (s : State) : State := s.updCur (·.refill s.tid)

/-! ### DRAM (R150, R151) -/

/-- The package of a physical address (R150). -/
def paPkg (pa : Nat) : Nat := pa / 2 ^ 42 % 1024
/-- The tier field. -/
def paTier (pa : Nat) : Nat := pa / 2 ^ 40 % 4
/-- The home die of a physical address. -/
def paDie (pa : Nat) : Nat := if paTier pa = 0 then pa / 2 ^ 36 % 8 else pa / 2 ^ 37 % 8
/-- The address lies in populated memory of tier 00 or 01 (R150). -/
def paPopulated (pa : Nat) : Bool :=
  if paTier pa = 0 then pa / 2 ^ 39 % 2 == 0 && pa % 2 ^ 36 < 36 * 2 ^ 30
  else paTier pa == 1 && pa % 2 ^ 37 < 96 * 2 ^ 30
/-- What a DRAM byte reads as that nothing has written since the last package reset (R406, log 3). -/
def dramDefault (epoch a : Nat) : Byte := if epoch = 0 then 0 else Config.dramAfterReset epoch a
/-- A physical address within the package: DRAM is kept under PA[41:0], so a new package number leaves it in place (R150, R399). -/
def localPa (pa : Nat) : Nat := pa % 2 ^ 42
/-- Reads `n` DRAM bytes. -/
def State.dramBytes (s : State) (pa n : Nat) : List Byte := memRead (dramDefault s.dramEpoch) s.dram (localPa pa) n
/-- Reads a DRAM word. -/
def State.dramRead (s : State) (pa n : Nat) : Nat := natOfBytes (s.dramBytes pa n)
/-- Writes DRAM bytes. -/
def State.dramPut (s : State) (pa : Nat) (l : List Byte) : State := { s with dram := memWrite (dramDefault s.dramEpoch) s.dram (localPa pa) l }
/-- Writes an `n`-byte number to DRAM. -/
def State.dramWrite (s : State) (pa n x : Nat) : State := s.dramPut pa (bytesOfNat n x)

/-! ### Parking and waking (R49 to R52) -/

/-- The number of a park reason, by which two parks are of one kind. -/
def Park.code : Park → Nat
  | .reply => 0
  | .fault _ => 1
  | .matrix _ => 2
  | .engineQueue => 3
  | .credit => 4
  | .landing _ _ => 5
  | .window _ => 6
  | .message _ => 7
  | .wake => 8
  | .counter _ _ => 9
  | .version _ _ => 10
  | .barrier _ => 11
  | .drain => 12

/-- Whether `waitlim` governs the wait (R50). -/
def Park.limited : Park → Bool
  | .landing _ _ | .window _ | .message _ | .wake | .counter _ _ | .version _ _ | .barrier _ => true
  | .reply | .fault _ | .matrix _ | .engineQueue | .credit | .drain => false

/-- Whether the context may be spilled (R50). -/
def Park.spillable : Park → Bool
  | .fault _ | .message _ | .wake | .counter _ _ | .version _ _ | .barrier _ => true
  | .reply | .matrix _ | .engineQueue | .credit | .landing _ _ | .window _ | .drain => false

/-- The park of a thread, if it is parked. -/
def Thread.parkOf (t : Thread) : Option Park :=
  match t.status with
  | .parked p _ _ => some p
  | _ => none

/-- Parks the current thread at its instruction.  A thread that finds its wait not over stays parked as before, with its start and order (R51,
R52); an access that faults again parks anew (R386). -/
def State.parkSt (s : State) (why : Park) : State :=
  let c := s.cur
  let t := s.thr
  let at_ := match t.progress.waited with
    | some (w, a, o) => if w.code = why.code ∧ why.code ≠ 1 then (a, o) else (c.cyc.toNat, c.order)
    | none => (c.cyc.toNat, c.order)
  let t' := { t with status := .parked why at_.1 at_.2, resume := false, progress := { t.progress with waited := some (why, at_.1, at_.2) } }
  s.setCore s.core { c.setThr s.tid t' with order := c.order + 1 }
/-- The instruction parks (R49). -/
def State.park (s : State) (why : Park) : Res := .next (s.parkSt why)

/-- The waking event of a parked thread has occurred: its instruction completes next. -/
def Thread.wakeUp (t : Thread) : Thread :=
  match t.status with
  | .parked _ _ _ => { t with resume := true }
  | _ => t
/-- Wakes every thread of a core that is parked and satisfies a test, and marks such spilled contexts restorable. -/
def Core.wakeBy (c : Core) (p : Nat → Thread → Park → Bool) : Core :=
  let go := fun (c : Core) (t : Nat) =>
    match (c.thr t).parkOf with
    | some w => if p t (c.thr t) w then c.updThr t Thread.wakeUp else c
    | none => c
  let c := (List.range 16).foldl go c
  { c with spills := c.spills.map (fun x =>
      match x.thread.parkOf with
      | some w => if x.valid && p x.tid x.thread w then { x with ready := true } else x
      | none => x) }
/-- Wakes the threads and contexts of a core whose park reason satisfies a test. -/
def Core.wakeIf (c : Core) (p : Nat → Park → Bool) : Core := c.wakeBy (fun t _ w => p t w)
/-- The reason code of a saved park (R388). -/
def Thread.parkReason (t : Thread) : Nat :=
  match t.parkOf with
  | some (.fault _) => 1
  | some (.message _) => 2
  | some .wake => 3
  | some (.counter _ _) => 4
  | some (.version _ _) => 5
  | some (.barrier _) => 6
  | some .reply | some (.matrix _) | some .engineQueue | some .credit | some (.landing _ _) | some (.window _) | some .drain | none => 0
/-- The state word of a saved context (R388). -/
def Saved.stateWord (x : Saved) : Nat :=
  (if x.valid then 2 ^ 63 else 0) + x.thread.parkReason * 2 ^ 28 + (if x.thread.wake then 2 ^ 27 else 0) + (if x.ready then 2 ^ 26 else 0) +
    bits x.thread.pc 17 2 * 4
/-- Changes swapped contexts; the state words of their records follow (R391). -/
def State.updPool (s : State) (f : Nat → Saved → Saved) : State :=
  s.hub.pool.foldl (fun (s : State) e =>
    let y := f e.1 e.2
    if y.stateWord = e.2.stateWord then s else s.dramWrite (s.hub.poolPa + 8192 * e.2.record + 0x1000) 8 y.stateWord)
    { s with hub := { s.hub with pool := s.hub.pool.map (fun e => (e.1, f e.1 e.2)) } }
/-- Wakes the threads and contexts that satisfy a test, swapped ones included, on every listed core. -/
def State.wakeBy (s : State) (p : Nat → Nat → Thread → Park → Bool) : State :=
  ({ s with cores := s.cores.map (fun e => (e.1, e.2.wakeBy (p e.1))) } : State).updPool (fun c x =>
    match x.thread.parkOf with
    | some w => if p c x.tid x.thread w then { x with ready := true } else x
    | none => x)
/-- Wakes the threads and contexts whose park reason satisfies a test. -/
def State.wakeIf (s : State) (p : Nat → Nat → Park → Bool) : State := s.wakeBy (fun c t _ w => p c t w)

/-- Wakes the first of the parked threads that satisfy a test (R52). -/
def Core.wakeFirst (c : Core) (p : Park → Bool) : Core :=
  let key := fun t => match (c.thr t).status with | .parked _ _ o => o | _ => 0
  let l := (List.range 16).filter (fun t => match (c.thr t).parkOf with | some w => p w && !(c.thr t).resume | none => false)
  match argMin key l with
  | some t => c.updThr t Thread.wakeUp
  | none => c

/-- Bytes of a write into local memory, one part of what the write stores: the parked counters are not re-tested yet. -/
def Core.lmStore (c : Core) (a : Nat) (l : List Byte) : Core :=
  { c with lm := memWrite lmDefault c.lm a l, badLm := c.badLm.filter (fun b => b < a || a + l.length ≤ b) }
/-- Re-tests the parked counters once all bytes of a write are in local memory (R142, R212). -/
def Core.testCounters (c : Core) : Core :=
  c.wakeIf (fun _ w => match w with | .counter b n => n ≤ c.lmRead b 8 | _ => false)
/-- Writes bytes into local memory and re-tests the counters parked on a written word (R212). -/
def Core.lmPut (c : Core) (a : Nat) (l : List Byte) : Core :=
  let c := c.lmStore a l
  let p : Nat → Park → Bool := fun _ w =>
    match w with
    | .counter b n => a < b + 8 && b < a + l.length && n ≤ c.lmRead b 8
    | _ => false
  c.wakeIf p
/-- Writes an `n`-byte number into local memory. -/
def Core.lmWrite (c : Core) (a n x : Nat) : Core := c.lmPut a (bytesOfNat n x)

/-! ### Overflow areas (R256) -/

/-- Writes a message to its tenancy's overflow area, or counts its loss; the reasons are those of R255 and R252.  Hub firmware is notified. -/
def State.redirect (s : State) (tn : Nat) (m : Message) (core tid reason : Nat) : State :=
  let s := s.updHub (fun h => { h with signals := (0x8000, tn) :: h.signals })
  match getKey s.hub.overflowAreas tn with
  | none => s.updHub (fun h => { h with lostNoArea := h.lostNoArea + 1 })
  | some (pa, n) =>
    if n = 0 then s.updHub (fun h => { h with lostNoArea := h.lostNoArea + 1 })
    else
      let w := s.dramRead pa 8
      let r := s.dramRead (pa + 8) 8
      let c := pa + 8 + 8 * reason
      let s := s.dramWrite c 8 (s.dramRead c 8 + 1)
      if (w + 2 ^ 64 - r) % 2 ^ 64 < n then
        let a := pa + 64 + 32 * (w % n)
        let s := s.dramPut a (bytesOfNat 8 m.hdr.toNat ++ bytesOfNat 8 m.payload.toNat ++ bytesOfNat 2 core ++ bytesOfNat 1 tid ++
          bytesOfNat 1 reason ++ bytesOfNat 4 m.task ++ bytesOfNat 8 0)
        s.dramWrite pa 8 (w + 1)
      else s.dramWrite (pa + 56) 8 (s.dramRead (pa + 56) 8 + 1)

/-- The destination thread that a message header names (R251). -/
def Message.dthread (m : Message) : Nat := bits m.hdr 41 38
/-- Redirects the messages still queued for a thread, each to its sender's tenancy, with reason 1 (R252). -/
def State.redirectQueued (s : State) (core tid : Nat) : State :=
  let ms := (s.coreAt core).msgq.filter (fun m => m.dthread = tid)
  let s := s.updCore core (fun c => { c with msgq := c.msgq.filter (fun m => m.dthread ≠ tid) })
  ms.foldl (fun s m => s.redirect m.tn m core tid 1) s

/-! ### Holders (R119, R242) -/

/-- Some task of a launch remains on a core: running, spilled or swapped. -/
def State.remains (s : State) (core l : Nat) : Bool :=
  let c := s.coreAt core
  (List.range 15).any (fun t => (c.thr t).task.any (·.lnum = l)) ||
  c.spills.any (fun x => x.valid && x.thread.task.any (·.lnum = l)) ||
  s.hub.pool.any (fun e => e.1 = core && e.2.thread.task.any (·.lnum = l))

/-- A landing register empties with zero data in a cycle (R242, R244). -/
def LandReg.release (x : LandReg) (cyc : Nat) : LandReg := { x with data := 0, full := false, fillAt := if x.full then cyc + 1 else x.fillAt }
/-- A core whose windows a launch has given up: Empty with zero data, for the instructions that wait for that to look at once (R117, R119). -/
def Core.freeWindows (c : Core) : Core :=
  ({ c with windows := Vector.replicate 8 ⟨0, .empty, 0⟩, winHolder := none, badWin := [] } : Core).wakeIf
    (fun _ w => match w with | .window _ => true | _ => false)
/-- A core whose registers l0 to l15 a launch has given up: empty with zero data (R242). -/
def Core.freeLanding (c : Core) : Core :=
  { c with landing := vecMap (fun i (x : LandReg) => if i < 16 then x.release c.cyc.toNat else x) c.landing, landHolder := none,
           badLand := c.badLand.filter (16 ≤ ·) }
/-- Releases the windows and l0 to l15 that a launch holds on a core when no task of it remains there (R119, R242). -/
def State.releaseHolders (s : State) (core l : Nat) : State :=
  if s.remains core l then s
  else
    s.updCore core (fun c =>
      let c := if c.winHolder = some l then c.freeWindows else c
      if c.landHolder = some l then c.freeLanding else c)

/-! ### Abandoning an instruction (R117, R250) -/

/-- The parked instruction of a thread is abandoned with no effect: it leaves the waiting writers of a landing register, a window it claimed
is Empty again, for the instructions that wait for that to look at once (R117), and its partial state is dropped. -/
def Core.abandon (c : Core) (t : Nat) : Core :=
  let mine := fun (x : Window) => (c.thr t).progress.begun && x.state == WinState.filling && x.owner == t
  let c := { c with landing := vecMap (fun _ (x : LandReg) => { x with waiters := x.waiters.filter (fun w => w ≠ Writer.putl t) }) c.landing }
  let c := if c.windows.any mine then
      ({ c with windows := vecMap (fun _ (x : Window) => if mine x then { x with state := .empty } else x) c.windows } : Core).wakeIf
        (fun _ w => match w with | .window _ => true | _ => false)
    else c
  c.updThr t (fun x => { x with resume := false, progress := Progress.none })

/-! ### The tenancy table and the fault queue (R149, R159, R383, R393) -/

/-- The vault group or channel group of an own address is usable (R151, R403). -/
def Hub.memReady (h : Hub) (pa : Nat) : Bool :=
  if paTier pa = 0 then h.ready0.getLsbD (8 * paDie pa + pa % 2 ^ 36 / 2 ^ 12 % 288 / 36) else h.ready1.getLsbD (11 + paDie pa)
/-- The tenancy table entry of a tenancy: root, key mask, fault queue (R149). -/
def State.tnEntry (s : State) (tn : Nat) : Word × BitVec 128 × Word :=
  let a := s.hub.tntab + 32 * tn
  (word (s.dramRead a 8), BitVec.ofNat 128 (s.dramRead (a + 8) 16), word (s.dramRead (a + 24) 8))
/-- The memory that holds a tenancy's entry is ready; an access that needs the entry is held until it is (R404). -/
def State.tnReady (s : State) (tn : Nat) : Bool := s.hub.memReady (s.hub.tntab + 32 * tn)
/-- A tenancy whose fault queue size code is 8 to 15 has no usable fault queue (R149). -/
def State.noFaultQueue (s : State) (tn : Nat) : Bool := 8 ≤ bits (s.tnEntry tn).2.2 3 0
/-- The bytes of a fault record (R159). -/
def FaultRec.bytes (r : FaultRec) : List Byte :=
  bytesOfNat 8 r.va ++ bytesOfNat 4 r.seq ++ bytesOfNat 2 r.core ++ bytesOfNat 1 r.tid ++ bytesOfNat 1 r.kind ++ bytesOfNat 1 r.access ++
  bytesOfNat 1 r.agent ++ bytesOfNat 1 r.level ++ bytesOfNat 1 0 ++ bytesOfNat 2 r.tn ++ bytesOfNat 2 0 ++ bytesOfNat 8 r.pte.toNat
/-- The route of a tenancy's fault signal; after reset it goes to hub firmware (R400). -/
def Hub.route (h : Hub) (tn : Nat) : Nat := (getKey h.routes tn).getD 0x8000
/-- Raises the fault signal of a tenancy. -/
def State.signalFault (s : State) (tn : Nat) : State := s.updHub (fun h => { h with signals := (h.route tn, tn) :: h.signals })
/-- A record that finds its queue full waits, and is counted once as held. -/
def State.holdRecord (s : State) (n a : Nat) (r : FaultRec) : State :=
  if r.waited then s
  else
    let s := s.dramWrite (a + 16) 8 (s.dramRead (a + 16) 8 + 1)
    { s with faults := setAt s.faults n { r with waited := true } }
/-- The n-th record is appended when it is its tenancy's oldest and the queue has room; without a usable queue it is dropped (R149).  DESIGN CHOICE
(log 58): an entry or a queue that names tier 10 or 11 or another package is taken in this package's memory under its local address. -/
def State.appendRecord (s : State) (n : Nat) : State :=
  match s.faults[n]? with
  | none => s
  | some r =>
    let older := (s.faults.take n).any (fun o => o.tn == r.tn)
    let gone := fun (s : State) => ({ s with faults := dropAt s.faults n } : State)
    if !s.tnReady r.tn then s
    else if s.noFaultQueue r.tn then (if older then s else gone s)
    else
      let q := (s.tnEntry r.tn).2.2
      let a := bits q 51 12 * 2 ^ 12
      let nq := 128 * 2 ^ bits q 3 0
      let w := s.dramRead a 8
      if !s.hub.memReady a then s
      else if nq ≤ (w + 2 ^ 64 - s.dramRead (a + 8) 8) % 2 ^ 64 then s.holdRecord n a r
      else if older then s
      else
        let s := s.dramPut (a + 64 + 32 * (w % nq)) r.bytes
        let s := s.dramWrite a 8 (w + 1)
        let s := if r.kind = 9 then s.dramWrite (a + 24) 8 (s.dramRead (a + 24) 8 + 1) else s
        gone (s.signalFault r.tn)
/-- A stop record is sent, and appended at once if it can be (R393). -/
def State.stopRecord (s : State) (r : FaultRec) : State := ({ s with faults := s.faults ++ [r] } : State).appendRecord s.faults.length

/-! ### Launch abort and hub stop (R81, R393) -/

/-- Entries of the engines or claim records have become free: their waiters, and MWAIT, look again (R50, R293, R305). -/
def Core.wakeEngines (c : Core) : Core :=
  let p : Nat → Park → Bool := fun _ w =>
    match w with
    | .engineQueue => true
    | .matrix m => m != 0
    | _ => false
  c.wakeIf p

/-- A context is discarded and its thread is Free. -/
def State.discardThread (s : State) (core t : Nat) : State :=
  let s := s.updCore core (fun c =>
    let c := c.abandon t
    let c := ({ c with mq := c.mq.filter (fun m => m.tid ≠ t) } : Core).wakeEngines
    c.updThr t (fun x => { x with status := .free, task := none, drops := [], handles := Vector.replicate 8 none }))
  s.redirectQueued core t

/-- The output that is left of the stripe at its front. -/
def frontStripe : List CopyOut → List CopyOut
  | [] => []
  | o :: l => (o :: l).takeWhile (fun y => y.unit == o.unit)
/-- A source read of a copy command is held. -/
def CopyCmd.reading (x : CopyCmd) : Bool :=
  match x.stop with
  | .hold _ _ => true
  | .status _ _ _ | .page _ _ _ _ _ => false
/-- A copy command is marked cancelled: it completes with status 9 (R333), once the stripe that it has begun to write is written, also what a held
read has still to bring of it, and a put that is in the fabric once the fabric has answered it. -/
def CopyCmd.cancel (x : CopyCmd) : CopyCmd :=
  if x.reading && x.part.isSome && (frontStripe x.out).length == x.out.length then { x with ends := x.part }
  else
    { x with started := true, out := if x.put = 1 then x.out else if x.part.isSome then frontStripe x.out else [], stop := .status 9 0 false,
             held := if x.part.isSome then x.held else none }
/-- A copy command has been marked cancelled. -/
def CopyCmd.marked (x : CopyCmd) : Bool :=
  x.ends.isSome || (match x.stop with
    | .status st _ _ => st == 9
    | .page _ _ _ _ _ | .hold _ _ => false)
/-- A core whose image load for a launch is given up: the slot that was loading is empty (R139). -/
def Core.dropLoading (c : Core) (l : Nat) : Core :=
  match c.loading with
  | some x =>
    if x.lnum = l then
      match x.at_ with
      | some i => { c with loading := none, slots := match c.slots[i]? with | some y => setAt c.slots i { y with state := 0 } | none => c.slots }
      | none => { c with loading := none }
    else c
  | none => c
/-- A core without what its matrix engine has staged, sent or counted for a launch (R304). -/
def Core.dropMmr (c : Core) (l : Nat) : Core :=
  let keep := fun (i : MmrItem) => decide (i.lnum ≠ l)
  { c with mmrWest := c.mmrWest.filter keep, mmrNorth := c.mmrNorth.filter keep, mmrEast := c.mmrEast.filter keep,
           mmrSouth := c.mmrSouth.filter keep, mmrEnded := dropKey c.mmrEnded l }
/-- The barrier instances of a launch are free again, and threads that wait for an instance look again (R206). -/
def State.freeInstances (s : State) (l : Nat) : State :=
  ({ s with barriers := s.barriers.filter (fun b => b.lnum ≠ l) } : State).wakeBy (fun _ _ t w =>
    match w with
    | .barrier _ => !t.progress.begun
    | _ => false)

/-- The number that a launch has in what outlives it; active numbers lie below (R342). -/
def goneLaunch : Nat := 4096
/-- The launch's number of a retired launch is free: what outlives the launch keeps it apart from a later one with that number (R247, R255). -/
def State.forget (s : State) (l : Nat) : State :=
  let old := fun (x : Option Nat) => if x = some l then some goneLaunch else x
  { s with net := s.net.map (fun (x : NetItem) => { x with lnum := old x.lnum }), reds := s.reds.map (fun (x : Red) => { x with lnum := old x.lnum }),
           faults := s.faults.map (fun (x : FaultRec) => { x with lnum := old x.lnum }),
           cores := s.cores.map (fun (e : Nat × Core) => (e.1, { e.2 with copyProg := old e.2.copyProg })) }
/-- Ends a launch on every die it names, as R393 ends one, with a status for its completion word; a launch that has ended keeps its own. -/
def State.abortLaunch (s : State) (l status : Nat) : State :=
  match s.launchAt l with
  | none => s
  | some x =>
    if x.ended then s
    else
      let s := s.updLaunch l (fun y => { y with
        counts := y.counts.map (fun e => (e.1, 0)), todo := [], stuck := [], poolRecs := [], out := [], status := status, ended := true })
      let cores := s.cores.map (·.1)
      let s := cores.foldl (fun s c =>
        let s := s.updCore c (fun k => { (k.dropLoading l).dropMmr l with
          deque := k.deque.filter (fun r => r.lnum ≠ l),
          spills := k.spills.map (fun e => if e.thread.task.any (·.lnum = l) then { e with valid := false, ready := false } else e),
          cq := k.cq.map (fun q => if q.owner.any (·.1 = l) then q.cancel else q),
          marks := k.marks.filter (·.1 ≠ l) })
        let ts := (List.range 15).filter (fun t => ((s.coreAt c).thr t).task.any (·.lnum = l))
        ts.foldl (fun s t => s.discardThread c t) s) s
      let s := s.freeInstances l
      let s := { s with
        reds := s.reds.filter (fun r => r.lnum ≠ some l || (r.note.isNone && r.held.isNone)),
        net := s.net.map (fun (i : NetItem) => match i.kind with | .record r => if r.lnum = l then { i with phase := .acked } else i | _ => i) }
      let s := s.updHub (fun h => { h with pool := h.pool.filter (fun e => !e.2.thread.task.any (·.lnum = l)) })
      cores.foldl (fun s c => s.releaseHolders c l) s

/-- The hub's answer to a thread that traps with no handler or traps again: the stop record, then the abort of its launch (R393); the context
is discarded in any case (R81).  Where the record has to wait, the launch's completion word waits for it (log 44). -/
def State.hubStop (s : State) (cause : Nat) (val pc : Word) : State :=
  let t := s.thr
  let r : FaultRec := ⟨t.ctl.tenancy.toNat, pc.toNat, cause, s.core, s.tid, 9, 0, 0, 0, val, false, t.task.map (·.lnum)⟩
  let s := s.stopRecord r
  let s := match t.task with
    | some k => s.abortLaunch k.lnum 3
    | none => s
  s.discardThread s.core s.tid

/-! ### Taking an exception and returning from one (R80, R77) -/

/-- The trap registers as trap entry writes them. -/
def Ctl.trapped (c : Ctl) (cause : Nat) (val pc : Word) (inst : Word32) : Ctl :=
  { c with trappc := pc, trapinst := inst.setWidth 64, trapval := val, trapcause := (1 <<< 63) ||| word cause }

/-- The number of a control register in `badThread` (R395). -/
def cNum (c : Nat) : Nat := 64 + c
/-- The registers that trap entry writes: `trapcause`, `trappc`, `trapval` and `trapinst`. -/
def trapRegs : List Nat := [cNum 0x061, cNum 0x062, cNum 0x063, cNum 0x064]
/-- A core without the damage of some registers of a thread, which have been written (R395). -/
def Core.mend (c : Core) (t : Nat) (l : List Nat) : Core :=
  { c with badThread := c.badThread.filter (fun e => !(e.1 == t && l.contains e.2)) }
/-- Trap entry: the instruction of the current thread has written nothing.  With no handler, or inside a handler that has not cleared
`trapcause`[63], it is a hub stop for a task thread (R81) and a stop before the restart for the copy thread (R315). -/
def State.trapAt (s : State) (cause : Nat) (val pc : Word) : State :=
  let t := s.thr
  let stop := t.ctl.trapcause.getLsbD 63 || bits t.ctl.trapvec 17 2 == 0
  let s := s.updCur (fun c => (c.abandon s.tid).mend s.tid trapRegs)
  let s := s.updThr (fun t => { t with ctl := t.ctl.trapped cause val pc t.inst, readyAt := s.cur.cyc.toNat + 4, status := .ready })
  if stop then
    let s := s.updThr (fun t => { t with status := .stopped .hub })
    if s.tid = 15 then s else s.hubStop cause val pc
  else (s.updThr (fun t => { t with pc := t.ctl.trapvec })).refill

/-- Trap entry at the current instruction. -/
def State.trapSt (s : State) (cause : Nat) (val : Word) : State := s.trapAt cause val s.thr.pc
/-- The instruction raises a trap. -/
def State.trap (s : State) (cause : Nat) (val : Word) : Res := .next (s.trapSt cause val)

/-- Cause codes (R79). -/
abbrev illegalInstruction := 0x01
/-- Misalignment (R79). -/
abbrev misalignment := 0x02
/-- Fetch fault (R79). -/
abbrev fetchFault := 0x03
/-- LM protection (R79). -/
abbrev lmProtection := 0x04
/-- Operand invalid (R79). -/
abbrev operandInvalid := 0x05
/-- Software trap (R79). -/
abbrev softwareTrap := 0x06
/-- Breakpoint (R79). -/
abbrev breakpointTrap := 0x07
/-- Wait expired (R79). -/
abbrev waitExpired := 0x08
/-- Undeliverable (R79). -/
abbrev undeliverable := 0x09
/-- Access fault (R79). -/
abbrev accessFault := 0x0A
/-- Remote unavailable (R79). -/
abbrev remoteUnavailable := 0x0B
/-- Version gone (R79). -/
abbrev versionGone := 0x0C
/-- Order-dependent operation (R79). -/
abbrev orderDependent := 0x0D
/-- Engine fault (R79). -/
abbrev engineFault := 0x0E
/-- Data error (R79). -/
abbrev dataError := 0x0F

/-! ### Completing an instruction -/

/-- The current instruction is complete: its partial state is dropped and its issue interval runs (R45). -/
def State.complete (s : State) (interval : Nat) : State :=
  let cyc := s.cur.cyc.toNat
  s.updThr (fun t => { t with status := .ready, resume := false, progress := Progress.none, readyAt := cyc + interval })

/-- The current instruction is complete without a taken branch: the pc names the next word. -/
def State.goOn (s : State) (interval : Nat) : State := (s.complete interval).updThr (fun t => { t with pc := t.pc + 4 })
/-- A thread that has run off the end of LM raises a fetch fault (R12).  DESIGN CHOICE (log 56): R80 names no word for `trapinst` there; it keeps the
word that completed at 0x3_FFFC. -/
def State.runOff (s : State) : State := if s.thr.pc.toNat = 0x40000 then s.trapAt fetchFault s.thr.pc s.thr.pc else s
/-- The current instruction completes without a taken branch; after the last word of LM that is a fetch fault. -/
def State.advance (s : State) (interval : Nat) : State := (s.goOn interval).runOff
/-- The current instruction completes and the thread continues at pc + 4. -/
def State.next (s : State) (interval : Nat) : Res := .next (s.advance interval)

/-- The current instruction completes with a jump; the prefetch buffer is discarded (R144), to be read again in the last cycle of the
interval (R143). -/
def State.jump (s : State) (interval : Nat) (target : Word) : State :=
  (s.complete interval).updThr (fun t => { t with pc := target, buf := [] })

/-- What R12 says of a jump target: the trap cause of a target that may not be taken; alignment comes first (R78). -/
def targetBad (t : Word) : Option Nat :=
  if t.toNat % 4 ≠ 0 then some misalignment else if 0x3FFFC < t.toNat then some fetchFault else none

/-- A jump whose target is checked before anything is written: `s` is the state to trap in, `s'` the state with the register written. -/
def jumpChecked (s s' : State) (interval : Nat) (t : Word) : Res :=
  match targetBad t with
  | some c => s.trap c t
  | none => .next (s'.jump interval t)

/-- Return from a trap at system level: clears `trapcause`[63] and sets the pc to `trappc`, which R12 checks (R77). -/
def State.returnFromTrap (s : State) : Res :=
  jumpChecked s (s.updCtl (fun c => { c with trapcause := c.trapcause &&& ~~~(1 <<< 63 : Word) })) 4 s.thr.ctl.trappc

end Sys2Proof.Machine
end

