-- ==== Sys2Proof/Machine/Flags.lean ====
section
/-! DEFINITION. The floating-point control word, the sticky flags and the generator of stochastic rounding (R86, R87, R92 to R96). -/

namespace Sys2Proof.Machine

/-- A set of flags, laid out as `fflags`[5:0] (R92). -/
abbrev Flags := BitVec 6

/-- *invalid*. -/
abbrev flInvalid : Flags := 1
/-- *divzero*. -/
abbrev flDivZero : Flags := 2
/-- *overflow*. -/
abbrev flOverflow : Flags := 4
/-- *underflow*. -/
abbrev flUnderflow : Flags := 8
/-- *inexact*. -/
abbrev flInexact : Flags := 16
/-- *saturated*. -/
abbrev flSaturated : Flags := 32

/-- The flag when a condition holds. -/
def flagIf (c : Bool) (f : Flags) : Flags := if c then f else 0

/-- Sets flags of the current thread (R92: an instruction only sets bits). -/
def State.raise (s : State) (f : Flags) : State := s.updCtl (fun c => { c with fflags := c.fflags ||| f.setWidth 64 })
/-- Sets flags of a thread. -/
def State.raiseAt (s : State) (core tid : Nat) (f : Word) : State :=
  s.updThrAt core tid (fun t => { t with ctl := { t.ctl with fflags := t.ctl.fflags ||| f } })

/-- A rounding mode (R86); SR carries r = x'[63:32] of R95. -/
inductive Rm where
  | rne | rtz | rdn | rup | rna
  | sr (r : Nat)
deriving DecidableEq, Repr

/-- The mode of a rounding code; `r` serves SR. -/
def Rm.ofCode (c r : Nat) : Rm :=
  if c = 1 then .rtz else if c = 2 then .rdn else if c = 3 then .rup else if c = 4 then .rna else if c = 5 then .sr r else .rne

/-- The mode rounds toward zero for this sign (R90). -/
def Rm.towardZero (m : Rm) (neg : Bool) : Bool :=
  match m with
  | .rtz => true
  | .rdn => !neg
  | .rup => neg
  | .rne | .rna | .sr _ => false

/-- The fields of `fcw` (R86). -/
structure Fcw where
  (arnd crnd : Nat)
  (ftzi ftzo sat : Bool)
deriving DecidableEq, Repr

/-- Reads the fields of a control word. -/
def Fcw.ofWord (w : Word) : Fcw := ⟨bits w 2 0, bits w 5 3, w.getLsbD 6, w.getLsbD 7, w.getLsbD 8⟩
/-- Round to nearest even, no flushing, no saturation. -/
def Fcw.plain : Fcw := ⟨0, 0, false, false, false⟩
/-- The control word of the current thread. -/
def State.fcw (s : State) : Fcw := Fcw.ofWord s.thr.ctl.fcw
/-- The arithmetic rounding mode (R88). -/
def Fcw.arm (f : Fcw) : Rm := Rm.ofCode f.arnd 0
/-- The conversion rounding mode, with the generator's bits for SR (R88, R95). -/
def Fcw.crm (f : Fcw) (r : Nat) : Rm := Rm.ofCode f.crnd r
/-- Conversions round stochastically. -/
def Fcw.isSr (f : Fcw) : Bool := f.crnd == 5

/-- The constant that replaces a zero seed (R62, R96). -/
def seedConst : Word := 0x2545F4914F6CDD1D
/-- One step of the generator (R94). -/
def xsStep (x : Word) : Word :=
  let x := x ^^^ (x <<< 13)
  let x := x ^^^ (x >>> 7)
  x ^^^ (x <<< 17)
/-- The upper halves of the next `n` states of the generator, and the last state. -/
def xsRun : Nat → Word → List Nat × Word
  | 0, x => ([], x)
  | n + 1, x =>
    let y := xsStep x
    let r := xsRun n y
    (bits y 63 32 :: r.1, r.2)

end Sys2Proof.Machine
end

