-- ==== Sys2Proof/Machine/Float.lean ====
section
/-! DEFINITION. Floating-point values and their exact arithmetic: formats (R82 to R85), rounding (R89 to R91), the operations of R105 to R110
that every unit shares.  A finite value is kept exactly, as a sign, a natural mantissa and an integer exponent of two. -/

namespace Sys2Proof.Machine

/-- A value read from an operand. -/
inductive Num where
  | nan (signalling : Bool)
  | inf (neg : Bool)
  /-- (−1)^neg · m · 2^e; a zero keeps its sign. -/
  | fin (neg : Bool) (m : Nat) (e : Int)
deriving DecidableEq, Repr

/-- A result with the flags that it raises. -/
structure Fl where
  x  : Nat
  fl : Flags
deriving DecidableEq, Repr

/-! ### Formats (R82) -/

/-- Exponent bits. -/
def expBits (t : ElemTy) : Nat :=
  match t with
  | .f32 | .bf16 | .wf19 => 8
  | .f16 | .e5m2 => 5
  | .e4m3 => 4
  | .e2m1 => 2
  | .i32 | .i16 | .i8 | .i4 | .n32 | .n16 | .n8 | .n4 | .c8 => 0
/-- Fraction bits to which a result is rounded. -/
def fracBits (t : ElemTy) : Nat :=
  match t with
  | .f32 => 23
  | .f16 | .wf19 => 10
  | .bf16 => 7
  | .e4m3 => 3
  | .e5m2 => 2
  | .e2m1 => 1
  | .i32 | .i16 | .i8 | .i4 | .n32 | .n16 | .n8 | .n4 | .c8 => 0
/-- Zero bits below the fraction in the container: wf19 is carried as f32 (R82). -/
def fracShift (t : ElemTy) : Nat := if t = .wf19 then 13 else 0
/-- The bias. -/
def fbias (t : ElemTy) : Nat := 2 ^ (expBits t - 1) - 1
/-- The type is a floating type. -/
def isFloat (t : ElemTy) : Bool := t.isF || t == .wf19 || t == .e4m3 || t == .e5m2 || t == .e2m1

/-- The canonical NaN (R84); e2m1 has none and a NaN becomes +0 (R90). -/
def canonNan (t : ElemTy) : Nat :=
  match t with
  | .f32 | .wf19 => 0x7FC00000
  | .f16 => 0x7E00
  | .bf16 => 0x7FC0
  | .e5m2 => 0x7E
  | .e4m3 => 0x7F
  | .e2m1 | .i32 | .i16 | .i8 | .i4 | .n32 | .n16 | .n8 | .n4 | .c8 => 0
/-- The largest finite encoding. -/
def maxFinite (t : ElemTy) : Nat :=
  match t with
  | .f32 => 0x7F7FFFFF
  | .wf19 => 0x7F7FE000
  | .f16 => 0x7BFF
  | .bf16 => 0x7F7F
  | .e5m2 => 0x7B
  | .e4m3 => 0x7E
  | .e2m1 => 0x7
  | .i32 | .i16 | .i8 | .i4 | .n32 | .n16 | .n8 | .n4 | .c8 => 0
/-- The sign bit of an encoding. -/
def signBit (t : ElemTy) (neg : Bool) : Nat := if neg then 2 ^ (t.width - 1) else 0
/-- The infinity of a type that has one. -/
def infBits (t : ElemTy) : Nat := (2 ^ expBits t - 1) * 2 ^ (fracBits t + fracShift t)

/-- Reads the low bits of a number as a floating-point value of the type; wf19 is read as the f32 that carries it (R82, R84). -/
def unpackF (t : ElemTy) (x : Nat) : Num :=
  let t := if t = .wf19 then ElemTy.f32 else t
  let x := x % 2 ^ t.width
  let fb := fracBits t
  let neg := x / 2 ^ (t.width - 1) == 1
  let e := x / 2 ^ fb % 2 ^ expBits t
  let f := x % 2 ^ fb
  let top := e == 2 ^ expBits t - 1
  if top && t == .e4m3 && f == 7 then .nan false
  else if top && t != .e4m3 && t != .e2m1 then
    if f = 0 then .inf neg else .nan (f / 2 ^ (fb - 1) == 0)
  else if e = 0 then .fin neg f (1 - (fbias t : Int) - fb)
  else .fin neg (2 ^ fb + f) ((e : Int) - fbias t - fb)

/-- Reads an element of an integer type exactly (R83). -/
def unpackI (t : ElemTy) (x : Nat) : Int := if t.isSigned then intOf t.width x else ((x % 2 ^ t.width : Nat) : Int)

/-- A finite value is subnormal in its type: its encoding has a zero exponent field and a nonzero fraction. -/
def isSubnormal (t : ElemTy) (x : Nat) : Bool :=
  let t := if t = .wf19 then ElemTy.f32 else t
  x / 2 ^ fracBits t % 2 ^ expBits t == 0 && x % 2 ^ fracBits t != 0
/-- An encoding as read under ftzi: a subnormal becomes the zero of its sign (R86). -/
def flushIn (t : ElemTy) (ftzi : Bool) (x : Nat) : Nat :=
  let x := x % 2 ^ t.width
  if ftzi && isSubnormal t x then x / 2 ^ (t.width - 1) * 2 ^ (t.width - 1) else x
/-- Reads an operand under ftzi. -/
def readF (t : ElemTy) (ftzi : Bool) (x : Nat) : Num := unpackF t (flushIn t ftzi x)

/-- A signalling NaN. -/
def Num.isSnan : Num → Bool
  | .nan s => s
  | _ => false
/-- A NaN. -/
def Num.isNan : Num → Bool
  | .nan _ => true
  | _ => false
/-- The negated value. -/
def Num.negate : Num → Num
  | .nan s => .nan s
  | .inf n => .inf !n
  | .fin n m e => .fin (!n) m e
/-- The sign. -/
def Num.neg : Num → Bool
  | .nan _ => false
  | .inf n => n
  | .fin n _ _ => n
/-- A zero. -/
def Num.isZero : Num → Bool
  | .fin _ m _ => m == 0
  | _ => false
/-- An infinity. -/
def Num.isInf : Num → Bool
  | .inf _ => true
  | _ => false

/-! ### Rounding (R89, R90, R91, R95) -/

/-- Rounds m · 2^e (and a little more when `sticky`) to a multiple of 2^q: the multiple, and whether it is inexact. -/
def roundTo (rm : Rm) (neg : Bool) (m : Nat) (e : Int) (sticky : Bool) (q : Int) : Nat × Bool :=
  let sh := (q - e).toNat
  let up := (e - q).toNat
  let n := m * 2 ^ up / 2 ^ sh
  let rem := m * 2 ^ up % 2 ^ sh
  if rem = 0 ∧ sticky = false then (n, false)
  else
    let away :=
      match rm with
      | .rtz => false
      | .rdn => neg
      | .rup => !neg
      | .rne => decide (2 * rem > 2 ^ sh) || (2 * rem == 2 ^ sh && (sticky || n % 2 == 1))
      | .rna => decide (2 * rem ≥ 2 ^ sh)
      | .sr r => decide (2 ^ 32 ≤ 2 ^ 32 * rem / 2 ^ sh + r)
    (if away then n + 1 else n, true)

/-- Compares a · 2^e with b · 2^f: a · 2^e is less. -/
def scaledLt (a : Nat) (e : Int) (b : Nat) (f : Int) : Bool := decide (a * 2 ^ (e - f).toNat < b * 2 ^ (f - e).toNat)

/-- What kind of work rounds: arithmetic, or a conversion with `sat` (R88, R90). -/
inductive Work where
  | arith
  | conv (sat : Bool)
deriving DecidableEq, Repr

/-- The result of an overflow, by the rows and columns of R90. -/
def overflowed (t : ElemTy) (rm : Rm) (w : Work) (neg : Bool) : Fl :=
  let big := signBit t neg + maxFinite t
  let fl := flOverflow ||| flInexact
  if rm.towardZero neg then ⟨big, fl⟩
  else
    let satd : Fl := ⟨big, fl ||| flSaturated⟩
    match t, w with
    | .e2m1, _ => satd
    | .e4m3, .conv false => ⟨canonNan .e4m3, fl⟩
    | .e4m3, _ => satd
    | .f16, .conv true | .bf16, .conv true | .e5m2, .conv true => satd
    | _, _ => ⟨signBit t neg + infBits t, fl⟩

/-- Rounds a finite value once to a floating type (R89): tininess and overflow are decided with the exponent range unbounded. -/
def roundF (t : ElemTy) (rm : Rm) (ftzo : Bool) (w : Work) (neg : Bool) (m : Nat) (e : Int) (sticky : Bool := false) : Fl :=
  if m = 0 then ⟨signBit t neg, 0⟩
  else
    let fb : Int := fracBits t
    let emin : Int := 1 - (fbias t : Int)
    let top : Int := e + m.log2
    let free := roundTo rm neg m e sticky (top - fb)
    let big := match unpackF t (maxFinite t) with | .fin _ m e => (m, e) | _ => (0, 0)
    if scaledLt big.1 big.2 free.1 (top - fb) then overflowed t rm w neg
    else
      let tiny := scaledLt free.1 (top - fb) 1 emin
      if tiny && ftzo then ⟨signBit t neg, flUnderflow ||| flInexact⟩
      else
        let q := max top emin - fb
        let r := roundTo rm neg m e sticky q
        let fl := flagIf r.2 flInexact ||| flagIf (tiny && r.2) flUnderflow
        -- a carry out of the significand moves into the exponent field by itself
        let body := (q + fb - emin).toNat * 2 ^ fracBits t + r.1
        ⟨signBit t neg + body * 2 ^ fracShift t, fl⟩

/-- Bounds of an integer type (R83). -/
def intLo (t : ElemTy) : Int := if t.isSigned then -(2 ^ (t.width - 1) : Int) else 0
/-- Upper bound of an integer type (R83). -/
def intHi (t : ElemTy) : Int := if t.isSigned then (2 ^ (t.width - 1) : Int) - 1 else (2 ^ t.width : Int) - 1
/-- Clamps an integer to a type, with *invalid* and *saturated* outside its range; `fl` is raised inside (R91, R126).  DESIGN CHOICE (log 55): R91
leaves open whether a clamped value that is also fractional raises *inexact* beside them; it does not here. -/
def clampInt (t : ElemTy) (v : Int) (fl : Flags) : Fl :=
  if v < intLo t then ⟨natOfInt t.width (intLo t), flInvalid ||| flSaturated⟩
  else if intHi t < v then ⟨natOfInt t.width (intHi t), flInvalid ||| flSaturated⟩
  else ⟨natOfInt t.width v, fl⟩

/-- Converts a value to an integer type (R91). -/
def roundI (t : ElemTy) (rm : Rm) (v : Num) : Fl :=
  match v with
  | .nan _ => ⟨0, flInvalid⟩
  | .inf n => ⟨natOfInt t.width (if n then intLo t else intHi t), flInvalid ||| flSaturated⟩
  | .fin n m e =>
    let r := roundTo rm n m e false 0
    clampInt t (if n then -(r.1 : Int) else (r.1 : Int)) (flagIf r.2 flInexact)

/-! ### Conversions (R90, R91, R110, R126) -/

/-- A value to a floating type as a conversion: NaNs become canonical, infinities follow the rows of R90. -/
def convF (t : ElemTy) (rm : Rm) (f : Fcw) (v : Num) : Fl :=
  match v with
  | .nan s => ⟨canonNan t, flagIf (s || t == .e2m1) flInvalid⟩
  | .inf n =>
    let big := signBit t n + maxFinite t
    if t = .e4m3 ∨ t = .e2m1 then
      if rm.towardZero n then ⟨big, 0⟩
      else if f.sat || t == .e2m1 then ⟨big, flSaturated⟩
      else ⟨canonNan t, 0⟩
    else ⟨signBit t n + infBits t, 0⟩
  | .fin n m e => roundF t rm f.ftzo (.conv f.sat) n m e

/-- Converts an element between two types; `r` is the generator's word for SR.  DESIGN CHOICE (log 55): R110 calls a widening conversion exact, R89
flushes a subnormal result under ftzo; here a subnormal bf16 that is widened under ftzo is flushed and raises *underflow* and *inexact*. -/
def convert (dst src : ElemTy) (f : Fcw) (r x : Nat) : Fl :=
  if isFloat src then
    let v := readF src f.ftzi x
    if isFloat dst then convF dst (f.crm r) f v else roundI dst (f.crm r) v
  else
    let v := unpackI src x
    if isFloat dst then convF dst (f.crm r) f (.fin (v < 0) v.natAbs 0) else clampInt dst v 0

/-- Conversions that round under SR step the generator: every one but integer to integer (R94). -/
def convSteps (dst src : ElemTy) : Bool := isFloat dst || isFloat src

/-! ### Sums and products (R89, R105) -/

/-- The product of two values that are not NaN and not 0 · ∞. -/
def numMul (a b : Num) : Num :=
  match a, b with
  | .nan s, _ => .nan s
  | _, .nan s => .nan s
  | .inf n, y => .inf (n != y.neg)
  | x, .inf n => .inf (n != x.neg)
  | .fin n m e, .fin k p g => .fin (n != k) (m * p) (e + g)

/-- The integer that scales a finite value by 2^−q, for q at most its exponent. -/
def scaledInt (q : Int) : Num → Int
  | .fin n m e => let x : Int := (m * 2 ^ (e - q).toNat : Nat); if n then -x else x
  | _ => 0
/-- The least exponent of the finite terms, at most `q`. -/
def minExp : Int → List Num → Int
  | q, [] => q
  | q, .fin _ _ e :: l => minExp (min q e) l
  | q, _ :: l => minExp q l
/-- The exact sum of finite terms, as an integer at an exponent. -/
def exactSum (l : List Num) : Int × Int :=
  let q := minExp 0 l
  (l.foldl (fun a x => a + scaledInt q x) 0, q)

/-- The exact sum of the terms, none NaN, rounded once as arithmetic (R89, R90, R105). -/
def sumF (t : ElemTy) (rm : Rm) (ftzo : Bool) (l : List Num) : Fl :=
  let pos := l.any (fun x => x == .inf false)
  let ninf := l.any (fun x => x == .inf true)
  if pos && ninf then ⟨canonNan t, flInvalid⟩
  else if pos || ninf then ⟨signBit t ninf + infBits t, 0⟩
  else
    let r := exactSum l
    if r.1 = 0 then
      let neg := if l.all (fun x => x.isZero && x.neg) then true
        else if l.all (fun x => x.isZero && !x.neg) then false else rm == .rdn
      ⟨signBit t neg, 0⟩
    else roundF t rm ftzo .arith (r.1 < 0) r.1.natAbs r.2

/-- 0 · ∞ in a product. -/
def zeroTimesInf (a b : Num) : Bool := (a.isZero && b.isInf) || (a.isInf && b.isZero)
/-- Adds a flag. -/
def Fl.also (r : Fl) (f : Flags) : Fl := { r with fl := r.fl ||| f }

/-- The flag of signalling inputs (R84). -/
def snanFlag (l : List Num) : Flags := flagIf (l.any Num.isSnan) flInvalid

/-- A sum operation on values. -/
def addNum (t : ElemTy) (rm : Rm) (ftzo : Bool) (a b : Num) : Fl :=
  let f := snanFlag [a, b]
  if a.isNan || b.isNan then ⟨canonNan t, f⟩ else (sumF t rm ftzo [a, b]).also f
/-- FADD (R105). -/
def fpAdd (t : ElemTy) (c : Fcw) (a b : Nat) : Fl := addNum t c.arm c.ftzo (readF t c.ftzi a) (readF t c.ftzi b)
/-- FSUB (R105). -/
def fpSub (t : ElemTy) (c : Fcw) (a b : Nat) : Fl := addNum t c.arm c.ftzo (readF t c.ftzi a) (readF t c.ftzi b).negate
/-- FMUL (R105). -/
def fpMul (t : ElemTy) (c : Fcw) (a b : Nat) : Fl :=
  let a := readF t c.ftzi a
  let b := readF t c.ftzi b
  let f := snanFlag [a, b]
  if zeroTimesInf a b then ⟨canonNan t, flInvalid⟩
  else if a.isNan || b.isNan then ⟨canonNan t, f⟩
  else (sumF t c.arm c.ftzo [numMul a b]).also f
/-- d + a · b rounded once; `sub` takes d − a · b (R105, R120). -/
def fpFma (t : ElemTy) (c : Fcw) (sub : Bool) (d a b : Nat) : Fl :=
  let a := readF t c.ftzi a
  let b := readF t c.ftzi b
  let d := readF t c.ftzi d
  let f := snanFlag [a, b, d]
  if zeroTimesInf a b then ⟨canonNan t, flInvalid⟩
  else if a.isNan || b.isNan || d.isNan then ⟨canonNan t, f⟩
  else
    let p := numMul a b
    (sumF t c.arm c.ftzo [d, if sub then p.negate else p]).also f
/-- Divides finite values, the divisor nonzero, to a quotient with sticky bit. -/
def quotient (m : Nat) (e : Int) (p : Nat) (g : Int) : Nat × Int × Bool :=
  let k := 64 + p.log2
  (m * 2 ^ k / p, e - g - k, m * 2 ^ k % p != 0)
/-- FDIV (R105). -/
def fpDiv (t : ElemTy) (c : Fcw) (a b : Nat) : Fl :=
  let a := readF t c.ftzi a
  let b := readF t c.ftzi b
  let f := snanFlag [a, b]
  let n := a.neg != b.neg
  match a, b with
  | .nan _, _ | _, .nan _ => ⟨canonNan t, f⟩
  | .inf _, .inf _ => ⟨canonNan t, flInvalid⟩
  | .inf _, .fin _ _ _ => ⟨signBit t n + infBits t, 0⟩
  | .fin _ _ _, .inf _ => ⟨signBit t n, 0⟩
  | .fin _ m e, .fin _ p g =>
    if p = 0 then
      if m = 0 then ⟨canonNan t, flInvalid⟩ else ⟨signBit t n + infBits t, flDivZero⟩
    else
      let q := quotient m e p g
      roundF t c.arm c.ftzo .arith n q.1 q.2.1 q.2.2
/-- The integer square root by `n` bits from the top: the greatest r with r² at most x. -/
def isqrtFrom (x : Nat) : Nat → Nat → Nat
  | 0, r => r
  | n + 1, r => let r' := r + 2 ^ n; isqrtFrom x n (if r' * r' ≤ x then r' else r)
/-- The integer square root. -/
def isqrt (x : Nat) : Nat := isqrtFrom x (x.log2 / 2 + 1) 0
/-- FSQRT (R105). -/
def fpSqrt (t : ElemTy) (c : Fcw) (a : Nat) : Fl :=
  match readF t c.ftzi a with
  | .nan s => ⟨canonNan t, flagIf s flInvalid⟩
  | .inf n => if n then ⟨canonNan t, flInvalid⟩ else ⟨infBits t, 0⟩
  | .fin n m e =>
    if m = 0 then ⟨signBit t n, 0⟩
    else if n then ⟨canonNan t, flInvalid⟩
    else
      -- an even exponent, and at least 48 bits of root
      let odd := e % 2 = 1
      let m := (if odd then 2 * m else m) * 2 ^ 96
      let e := (if odd then e - 1 else e) - 96
      let r := isqrt m
      roundF t c.arm c.ftzo .arith false r (e / 2) (r * r != m)

/-! ### Comparisons (R106, R108) -/

/-- Orders two values that are not NaN; −0 equals +0. -/
def numLt (a b : Num) : Bool :=
  match a, b with
  | .nan _, _ | _, .nan _ => false
  | .inf n, .inf k => n && !k
  | .inf n, .fin _ _ _ => n
  | .fin _ _ _, .inf k => !k
  | .fin _ _ _, .fin _ _ _ =>
    let q := minExp 0 [a, b]
    decide (scaledInt q a < scaledInt q b)
/-- Equality of two values that are not NaN; −0 equals +0. -/
def numEq (a b : Num) : Bool := !a.isNan && !b.isNan && !numLt a b && !numLt b a

/-- FMIN and FMAX (R106): `less x y` says that the first is chosen. -/
def fpMinMax (t : ElemTy) (ftzi max : Bool) (a b : Nat) : Fl :=
  let x := readF t ftzi a
  let y := readF t ftzi b
  let xa := flushIn t ftzi a
  let yb := flushIn t ftzi b
  let f := snanFlag [x, y]
  if x.isNan && y.isNan then ⟨canonNan t, f⟩
  else if x.isNan then ⟨yb, f⟩
  else if y.isNan then ⟨xa, f⟩
  else
    let lt := numLt x y || (numEq x y && x.isZero && x.neg && !y.neg)
    ⟨if lt != max then xa else yb, f⟩
/-- FMIN (R106). -/
def fpMin (t : ElemTy) (c : Fcw) (a b : Nat) : Fl := fpMinMax t c.ftzi false a b
/-- FMAX (R106). -/
def fpMax (t : ElemTy) (c : Fcw) (a b : Nat) : Fl := fpMinMax t c.ftzi true a b
/-- FABS (R107).  DESIGN CHOICE (log 55): R88's table gives FABS and FNEG ftzi, R107 says that they ignore `fcw`; FABS, FNEG, VABS and VNEG never
flush here. -/
def fpAbs (t : ElemTy) (a : Nat) : Fl := ⟨a % 2 ^ (t.width - 1), 0⟩
/-- FNEG (R107). -/
def fpNeg (t : ElemTy) (a : Nat) : Fl := ⟨(a + 2 ^ (t.width - 1)) % 2 ^ t.width, 0⟩

/-- The compares of R108 and R123. -/
inductive Cmp where
  | eq | ne | lt | le
deriving DecidableEq, Repr
/-- A floating-point compare: NaNs make eq, lt and le false and ne true; lt and le raise *invalid* for any NaN. -/
def fpCmp (t : ElemTy) (c : Fcw) (o : Cmp) (a b : Nat) : Fl :=
  let x := readF t c.ftzi a
  let y := readF t c.ftzi b
  let nan := x.isNan || y.isNan
  let quiet := snanFlag [x, y]
  match o with
  | .eq => ⟨(numEq x y).toNat, quiet⟩
  | .ne => ⟨(!numEq x y).toNat, quiet⟩
  | .lt => ⟨(numLt x y).toNat, flagIf nan flInvalid⟩
  | .le => ⟨(!nan && !numLt y x).toNat, flagIf nan flInvalid⟩

/-- FCLASS (R109). -/
def fpClass (t : ElemTy) (a : Nat) : Nat :=
  let a := a % 2 ^ t.width
  let e := a / 2 ^ fracBits t % 2 ^ expBits t
  let cls := match unpackF t a with
    | .nan s => if s then 5 else 4
    | .inf _ => 3
    | .fin _ m _ => if m = 0 then 0 else if e = 0 then 1 else 2
  let int := match unpackF t a with
    | .fin _ m g => m % 2 ^ (-g).toNat == 0
    | _ => false
  e * 2 ^ 8 + a / 2 ^ (t.width - 1) * 2 ^ 7 + int.toNat * 2 ^ 5 + cls

end Sys2Proof.Machine
end

