-- ==== Sys2Proof/Machine/Operands.lean ====
section
/-! DEFINITION. Operand forms: access widths and effective addresses (R14, R24), checks of local-memory accesses (R137, R138), vector elements
and masks (R17, R19, R113), window claims (R116 to R119) and the shape of a vector instruction (R114). -/

namespace Sys2Proof.Machine

/-! ### Scalar accesses -/

/-- Bytes of a load width (R24). -/
def loadBytes (w : LoadW) : Nat :=
  match w with
  | .i8 | .n8 => 1
  | .i16 | .n16 => 2
  | .i32 | .n32 => 4
  | .x64 => 8
/-- Extends loaded bytes to a register (R24, R145). -/
def loadExtend (w : LoadW) (x : Nat) : Word :=
  match w with
  | .i8 => sextNat 8 x
  | .i16 => sextNat 16 x
  | .i32 => sextNat 32 x
  | .n8 | .n16 | .n32 | .x64 => word x
/-- Bytes of a store width (R24). -/
def storeBytes (w : StoreW) : Nat :=
  match w with
  | .b8 => 1
  | .b16 => 2
  | .b32 => 4
  | .b64 => 8
/-- The effective address of a displacement form: the displacement counts accesses (R14). -/
def dispAddr (s : State) (a : Reg) (size : Nat) (p : BitVec 13) : Word := s.rd a + p.signExtend 64 * word size
/-- The effective address of a vector access: the displacement counts 256 bytes (R146, R191). -/
def vdispAddr (s : State) (a : Reg) (p : BitVec 5) : Word := s.rd a + p.signExtend 64 * 256

/-- A trap that a check finds: its cause and value. -/
abbrev TrapOf := Nat × Word
/-- The trap of a failed condition. -/
def trapIf (c : Bool) (cause : Nat) (v : Word) : Option TrapOf := if c then some (cause, v) else none
/-- The first trap found. -/
def firstTrap : List (Option TrapOf) → Option TrapOf
  | [] => none
  | some t :: _ => some t
  | none :: l => firstTrap l
/-- Takes a trap if one was found, and goes on otherwise. -/
def guardTrap (s : State) (t : Option TrapOf) (k : Unit → Res) : Res :=
  match t with
  | some (c, v) => s.trap c v
  | none => k ()

/-! ### Local memory checks (R137, R138) -/

/-- A thread may read, or write, in a block. -/
def Core.lmAllowed (c : Core) (t : Nat) (write : Bool) (b : Nat) : Bool :=
  match c.attr b with
  | .data => true
  | .system => false
  | .copy => t == 15
  | .code slot =>
    t != 15 && (c.thr t).task.isSome && (c.thr t).ctl.kslot.toNat == slot &&
      (!write || (match c.slots[slot]? with | some x => x.writable | none => false))
/-- The lowest address of the range that fails its check; the range may end past LM. -/
def lmFail (ok : Nat → Bool) (a n : Nat) : Option Nat :=
  let b := ((List.range ((a + n - 1) / 512 + 1 - a / 512)).map (· + a / 512)).find? (fun b => b ≥ 512 || !ok b)
  if n = 0 then none else b.map (fun b => max a (b * 512))
/-- The lowest address at which a thread may not access a range (R138). -/
def Core.lmCheck (c : Core) (t : Nat) (write : Bool) (a n : Nat) : Option Nat := lmFail (c.lmAllowed t write) a n
/-- The *LM protection* trap of a range, if its check fails. -/
def State.lmTrap (s : State) (write : Bool) (a n : Nat) : Option TrapOf :=
  (s.cur.lmCheck s.tid write a n).map (fun b => (lmProtection, word b))
/-- The *data error* trap of a read of a damaged range, if it is damaged (R395). -/
def State.lmDamage (s : State) (a n : Nat) : Option TrapOf := (s.cur.lmBad a n).map (fun b => (dataError, word b))

/-! ### Elements and masks (R17, R19, R113) -/

/-- Element `i` of width `w` (R19). -/
def elem (w : Nat) (x : VReg) (i : Nat) : Nat := x.toNat >>> (w * i) % 2 ^ w
/-- The elements of width `w` in ascending order as one number. -/
def packElems (w : Nat) : List Nat → Nat
  | [] => 0
  | x :: l => x % 2 ^ w + 2 ^ w * packElems w l
/-- The element is active under a mask: the mask bit of its lowest byte is set (R17, R113). -/
def active (k : Mask) (w i : Nat) : Bool := k.getLsbD (w * i / 8)
/-- Elements in a register (R111). -/
def lanes (w : Nat) : Nat := 2048 / w
/-- Byte `j` of a register. -/
def vbyte (x : VReg) (j : Nat) : Byte := x.extractLsb' (8 * j) 8
/-- A register from its bytes, the lowest first. -/
def vregOfBytes (l : List Byte) : VReg := BitVec.ofNat 2048 (natOfBytes l)
/-- The bytes of a register. -/
def bytesOfVreg (x : VReg) : List Byte := bytesOfNat 256 x.toNat
/-- A register whose active elements below `n` take new values and whose others are kept (R113). -/
def mergeElems (w n : Nat) (k : Mask) (old : VReg) (f : Nat → Nat) : VReg :=
  BitVec.ofNat 2048 (packElems w ((List.range (lanes w)).map (fun i => if i < n && active k w i then f i else elem w old i)))

/-! ### Vector registers and windows (R16, R111, R116 to R119) -/

/-- The field names a window register (R16). -/
def isWin (c : VCode) : Bool := 16 ≤ c.toNat
/-- Reads a vector register or a window's data. -/
def State.vget (s : State) (c : VCode) : VReg :=
  if isWin c then ((s.cur.windows[c.toNat - 16]?).map (·.data)).getD 0 else (s.thr.v[c.toNat]?).getD 0
/-- Writes a vector register or a window's data; a damaged window is sound again. -/
def State.vput (s : State) (c : VCode) (x : VReg) : State :=
  if isWin c then
    s.updCur (fun k =>
      match k.windows[c.toNat - 16]? with
      | some w => 
        { k with windows := k.windows.setIfInBounds (c.toNat - 16) { w with data := x }, badWin := k.badWin.filter (· ≠ c.toNat - 16) }
      | none => k)
  else s.updThr (fun t => { t with v := t.v.setIfInBounds c.toNat x })

/-- The window codes of a list of fields. -/
def winCodes (l : List VCode) : List Nat := (l.filter isWin).map (·.toNat)
/-- The state of a window by field code. -/
def Core.winState (c : Core) (code : Nat) : WinState := ((c.windows[code - 16]?).map (·.state)).getD .empty
/-- The holder check (R119, R43): the lowest window code of an access that the holder does not allow. -/
def State.holderBad (s : State) (l : List VCode) : Option Nat :=
  match argMin id (winCodes l) with
  | none => none
  | some c =>
    match s.cur.winHolder with
    | none => none
    | some h => if s.curLaunch = some h then none else some c
/-- The window whose condition fails: a window read must be Full, a window only written must be Empty (R117).  DESIGN CHOICE (log 56): of several that
fail, R250 does not say which one a park reports; it is the first field read, in operand order, and then the first written. -/
def State.winBlocked (s : State) (reads writes : List VCode) : Option Nat :=
  match (winCodes reads).find? (fun c => s.cur.winState c ≠ .full) with
  | some c => some c
  | none => (winCodes writes).find? (fun c => !(winCodes reads).contains c && s.cur.winState c ≠ .empty)
/-- A damaged window among those read (R395). -/
def State.winDamage (s : State) (reads : List VCode) : Option TrapOf :=
  ((winCodes reads).find? (fun c => s.cur.badWin.contains (c - 16))).map (fun c => (dataError, word c))
/-- The first window access of a launch makes it the holder (R119). -/
def State.hold (s : State) (l : List VCode) : State :=
  if (winCodes l).isEmpty then s
  else s.updCur (fun c => { c with winHolder := match c.winHolder with | none => c.launchOf s.tid | some h => some h })
/-- Claims the windows: read ones empty, written ones fill until the instruction's interval ends (R116); parked instructions look again. -/
def State.claim (s : State) (reads writes : List VCode) : State :=
  let l := reads ++ writes
  if (winCodes l).isEmpty then s
  else
    let s := s.hold l
    let s := s.updCur (fun c =>
      let f := fun (i : Nat) (w : Window) =>
        if (winCodes writes).contains (i + 16) then { w with state := WinState.filling, owner := s.tid }
        else if (winCodes reads).contains (i + 16) then { w with state := WinState.empty }
        else w
      { c with windows := vecMap f c.windows }.wakeIf (fun _ p => match p with | .window _ => true | _ => false))
    s.updThr (fun t => { t with progress := { t.progress with begun := true } })

/-- The checks and the claim of an instruction that names vector registers (R78, R117): misalignment first, then the holder check, then its
other checks, then the window conditions; `k` gets the state with the windows claimed. -/
def withWindows (reads writes : List VCode) (early late : Option TrapOf) (s : State) (k : State → Res) : Res :=
  guardTrap s (firstTrap [early, (s.holderBad (reads ++ writes)).map (fun c => (operandInvalid, word c)), late]) fun _ =>
  match s.winBlocked reads writes with
  | some c => (s.hold (reads ++ writes)).park (.window c)
  | none => guardTrap s (s.winDamage reads) fun _ => k (s.claim reads writes)

/-- Writes the active elements below `n` of a vector register and raises the flags of the active ones (R113, R114). -/
def State.vwrite (s : State) (d : VCode) (w n : Nat) (k : Mask) (f : Nat → Fl) : State :=
  let old := s.vget d
  let l := (List.range n).map (fun i => if active k w i then f i else ⟨elem w old i, 0⟩)
  let fl := l.foldl (fun (a : Flags) (r : Fl) => a ||| r.fl) 0
  (s.vput d (BitVec.ofNat 2048 (packElems w (l.map (·.x) ++ (List.range (lanes w - n)).map (fun i => elem w old (n + i)))))).raise fl

end Sys2Proof.Machine
end

