-- ==== Sys2Proof/Machine/Damage.lean ====
section
/-! DEFINITION. The registers of its thread that an instruction reads and writes, for the report of damage (R395). -/

namespace Sys2Proof.Machine

/-- The number of a general register in `badThread`; g0 holds nothing. -/
def gNum (r : Reg) : List Nat := if r = 0 then [] else [r.toNat]
/-- The number of a vector register; a window is no state of the thread. -/
def vNum (v : VCode) : List Nat := if v.toNat < 16 then [32 + v.toNat] else []
/-- The number of a mask register; k0 holds nothing. -/
def kNum (k : MaskReg) : List Nat := if k = 0 then [] else [48 + k.toNat]

/-- The general, vector and mask registers that an instruction reads, and the registers that it writes whole. -/
def regsOf : Instr → List Nat × List Nat
  | .add d a b | .sub d a b | .and d a b | .or d a b | .xor d a b | .andn d a b | .orn d a b | .shl d a b | .shr d a b | .sra d a b | .rol d a b
  | .slt d a b | .sltn d a b | .seq d a b | .min d a b | .max d a b | .minn d a b | .maxn d a b | .mul d a b | .mulh d a b | .mulhn d a b
  | .div d a b | .divn d a b | .rem d a b | .remn d a b | .bext d a b | .ldx _ d a b | .barmax _ _ d a b | .barsum _ _ d a b | .barmin _ _ d a b
  | .launch d a b | .fadd _ d a b | .fsub _ d a b | .fmul _ d a b | .fmin _ d a b | .fmax _ d a b | .feq _ d a b | .flt _ d a b | .fle _ d a b
  | .fdiv _ d a b | .ldvn d a b | .vnstat d a b | .rrstat d a b => (gNum a ++ gNum b, gNum d)
  | .mad d a b | .fshr d a b | .fshl d a b | .ffma _ d a b => (gNum d ++ gNum a ++ gNum b, gNum d)
  | .clz d a | .ctz d a | .pop d a | .bswap d a | .sextB d a | .sextH d a | .sextW d a | .zextB d a | .zextH d a | .zextW d a | .addi d a _
  | .andi d a _ | .ori d a _ | .xori d a _ | .slti d a _ | .shli d a _ | .shri d a _ | .srai d a _ | .roli d a _ | .shlori d a _ | .bexti d a _ _
  | .bextsi d a _ _ | .jalr d a _ | .ld _ d a _ | .ldl _ d a _ | .dqpush d a | .dqpop d a | .dqsteal d a | .csrs d a _
  | .csrc d a _ | .fabs _ d a | .fneg _ d a | .fcvt _ _ d a | .fsqrt _ d a | .fclass _ d a => (gNum a, gNum d)
  | .csrw d a c => (gNum a, cNum c.toNat :: gNum d)
  | .mrcvn d a => (gNum a, cNum 0x032 :: gNum d)
  | .mrcv d => ([], cNum 0x032 :: gNum d)
  | .lih d _ | .jal d _ | .dqsplit d | .dqnext d | .csrr d _ | .mstat d => ([], gNum d)
  | .binsi d a _ _ | .fshli d a _ | .fshri d a _ | .waitge d a => (gNum d ++ gNum a, gNum d)
  | .beq a b _ | .bne a b _ | .blt a b _ | .bge a b _ | .bltn a b _ | .bgen a b _ | .cwb a b | .cinv a b | .cdisc a b | .red _ _ _ a b | .rputm a b
  | .msnd a b | .msndn a b | .tsend a b | .accstg _ _ a b | .vnopen a b | .vnseal a b | .vnrecl a b | .rrbeg a b => (gNum a ++ gNum b, [])
  | .dbnz a _ => (gNum a, gNum a)
  | .st _ s a _ | .stl _ s a _ => (gNum s ++ gNum a, [])
  | .stx _ s a b | .redvn _ s a b | .stvn s a b => (gNum s ++ gNum a ++ gNum b, [])
  | .pfg a | .waitm a | .wake a | .vdtld a | .mwait a | .xcan a => (gNum a, [])
  | .atbind h a => (gNum a, [cNum (0x080 + h.toNat)])
  | .amo op _ _ d a b => (gNum a ++ gNum b ++ (if op = .cas then gNum d else []), gNum d)
  | .fenceAcq _ b | .fenceRel _ b | .fenceAr _ b | .bar _ b | .rrend b | .rrec b | .rroff b => (gNum b, [])
  | .putl _ c => (gNum c, [])
  | .rput _ c a => (gNum c ++ gNum a, [])
  | .take c _ | .peek c _ | .testl c _ => ([], gNum c)
  | .rputmv a v => (gNum a ++ vNum v, [])
  | .vadd _ d a b k | .vsub _ d a b k | .vmul _ d a b k | .vmin _ d a b k | .vmax _ d a b k | .vmulh _ d a b k | .vand _ d a b k | .vor _ d a b k
  | .vxor _ d a b k | .vshl _ d a b k | .vshr _ d a b k | .vsra _ d a b k | .vdqnt _ d a b k
  | .vperm _ d a b k => (vNum a ++ vNum b ++ kNum k, (if k = 0 then vNum d else []))
  | .vsel _ d a b k => (vNum a ++ vNum b ++ kNum k, vNum d)
  | .vqnt _ _ a b k => (vNum a ++ vNum b ++ kNum k, [])
  | .vfma _ d a b k | .vfms _ d a b k | .vdot4 _ d a b k => (vNum d ++ vNum a ++ vNum b ++ kNum k, (if k = 0 then vNum d else []))
  | .vcvt t u d a k => (vNum a ++ kNum k, (if k = 0 ∧ u.width ≤ t.width then vNum d else []))
  | .venc _ _ a k | .vredsum _ _ a k | .vredmax _ _ a k | .vredmin _ _ a k | .vamaxb _ _ a k => (vNum a ++ kNum k, [])
  | .vabs _ d a k | .vneg _ d a k | .vnot _ d a k | .vpopc _ d a k | .vdec d a k | .vexp2 d a k | .vlog2 d a k | .vrcp d a k | .vrsq d a k
  | .vtanh d a k | .vsigm d a k | .vscan _ d a k | .vmov _ d a k => (vNum a ++ kNum k, (if k = 0 then vNum d else []))
  | .vcmpeq _ d a b k | .vcmpne _ d a b k | .vcmplt _ d a b k | .vcmple _ d a b k => (vNum a ++ vNum b ++ kNum k, (if k = 0 then kNum d else []))
  | .kand d a b | .kor d a b | .kxor d a b => (kNum a ++ kNum b, kNum d)
  | .knot d a => (kNum a, kNum d)
  | .vslide _ d a b k | .vbcast _ d a b k | .vsadd _ d a b k | .vssub _ d a b k | .vsmul _ d a b k | .vsmin _ d a b k | .vsmax _ d a b k
  | .vsshl _ d a b k => (vNum a ++ gNum b ++ kNum k, (if k = 0 then vNum d else []))
  | .vldl d a _ k | .vld d a _ k | .vsplat _ d a k => (gNum a ++ kNum k, (if k = 0 then vNum d else []))
  | .vstl d a _ k | .vst d a _ k => (vNum d ++ gNum a ++ kNum k, [])
  | .vlds t d a b k => (gNum a ++ gNum b ++ kNum k, (if k = 0 ∧ t.width = 32 then vNum d else []))
  | .vsts _ d a b k => (vNum d ++ gNum a ++ gNum b ++ kNum k, [])
  | .vgth t d a b k | .vgthl t d a b k => (gNum a ++ vNum b ++ kNum k, (if k = 0 ∧ t.width = 32 then vNum d else []))
  | .vsct _ d a b k | .vsctl _ d a b k => (vNum d ++ gNum a ++ vNum b ++ kNum k, [])
  | .vsfma _ d a b k => (vNum d ++ vNum a ++ gNum b ++ kNum k, (if k = 0 then vNum d else []))
  | .vins _ d a b => (vNum d ++ gNum a ++ gNum b, vNum d)
  | .vext _ d a b => (vNum a ++ gNum b, gNum d)
  | .viota _ d k => (kNum k, (if k = 0 then vNum d else []))
  | .ktog _ d a | .kpop _ d a => (kNum a, gNum d)
  | .gtok _ d a => (gNum a, kNum d)
  | .mma _ _ _ d a b | .mmal _ _ _ d a b | .mmr _ _ _ d a b => (gNum d ++ gNum a ++ gNum b, [])
  | .accst t _ c a => (gNum a, (if t.width = 32 then vNum c else []))
  | .atdig _ c a => (gNum a, vNum c)
  | .accld _ _ c a => (vNum c ++ gNum a, [])
  | .xld a b c | .xst a b c | .xput a b c | .xaxb a b c
  | .xlm a b c => (gNum a ++ gNum (a + 1) ++ gNum (a + 2) ++ gNum (a + 3) ++ gNum b ++ gNum c, [])
  | .xfill a c => (gNum a ++ gNum (a + 1) ++ gNum (a + 2) ++ gNum (a + 3) ++ gNum c, [])
  | .xstat a => ([], gNum a ++ gNum (a + 1) ++ gNum (a + 2) ++ gNum (a + 3))
  | .atld _ c a b => (gNum a ++ gNum b, vNum c)
  | .atsg _ c a b => (vNum c ++ gNum a ++ gNum b, [])
  | .atinfo _ c => ([], vNum c)
  | .clrl _ | .evon | .evoff | .evret | .yield | .park | .tret | .trap _ | .brk | .ifence | .eret | .halt | .accz _ | .illegalInstruction ..
  | .waitExpired .. | .eventEntry .. | .taskDispatch .. | .taskSteal .. | .contextSpill .. | .contextRestore .. | .globalReply ..
  | .sliceReadRequest .. | .sliceOwnershipRequest .. | .l1WriteBack .. | .l1Invalidation .. | .lineFill .. | .pageWalk .. | .faultRecordAppend ..
  | .wordRequest .. | .atomicExecute .. | .guestWriteBack .. | .remoteWriteDelivery .. | .remoteWriteAck .. | .dropNotice .. | .landingPortFill ..
  | .messageArrival .. | .messageDivert .. | .barrierRelease .. | .matrixKblock .. | .matrixComplete .. | .matrixFaultStop .. | .mmrBlockArrival ..
  | .mmrAbortToken .. | .copyCommandRun .. | .copyStripe .. | .copyCompletion .. | .claimEnd .. | .putArrival .. | .putAck ..
  | .copyThreadRestart .. | .copyProgramReinstall .. | .versionedAccess .. | .replayPush .. | .packetArrival .. | .queueSlotMap ..
  | .queueSlotEvict .. | .queueOpen .. | .queueClose .. | .launchDispatch .. | .launchDistribute .. | .imageLoad .. | .imageEvict ..
  | .launchRetire .. | .forcedPreemption .. | .shootdownInvalidate .. | .shootdownRelease .. | .shootdownInvalidateRelease ..
  | .shootdownComplete .. | .wakeRetry .. | .wakeFail .. | .switchOut .. | .switchResume .. | .hostAbort .. | .stopOneThread ..
  | .resumeOneThread .. | .copyProgramInstall .. | .controlRangeWrite .. | .regionRecordLive .. | .captureUnitControl .. | .captureSample ..
  | .apertureRead .. | .apertureWrite .. | .powerWindow .. | .functionReady .. | .functionFail .. | .portDown .. | .packageUnavailable ..
  | .packageAvailable .. | .packageReset .. | .keyLoad .. | .keyErase .. | .attest .. | .debugChallenge .. | .debugUnlock .. | .debugLock ..
  | .firmwareStage .. | .securityAlarm .. | .softError .. => ([], [])

/-- A floating-point operation reads `fcw`. -/
def fpMode (t : ElemTy) : List Nat := if t.isF then [cNum 0x010] else []
/-- An instruction that may wait for a window reads `waitlim`. -/
def winWait (l : List VCode) : List Nat := if l.any isWin then [cNum 0x030] else []
/-- A conversion under SR reads `seed`. -/
def seedRead (sr : Bool) : List Nat := if sr then [cNum 0x012] else []

/-- The control registers that an instruction reads for its effect; `sr` says that it rounds under SR.  DESIGN CHOICE (log 27): R395 does not say
which control registers an instruction reads; an instruction that only adds flags does not read `fflags`. -/
def ctlOf (sr : Bool) : Instr → List Nat
  | .fadd .. | .fsub .. | .fmul .. | .ffma .. | .fmin .. | .fmax .. | .feq .. | .flt .. | .fle .. | .fdiv .. | .fsqrt .. => [cNum 0x010]
  | .fcvt .. => cNum 0x010 :: seedRead sr
  | .vadd t d a b _ | .vsub t d a b _ | .vmul t d a b _ | .vfma t d a b _ | .vfms t d a b _ | .vmin t d a b _
  | .vmax t d a b _ => fpMode t ++ winWait [d, a, b]
  | .vcmpeq t _ a b _ | .vcmpne t _ a b _ | .vcmplt t _ a b _ | .vcmple t _ a b _ => fpMode t ++ winWait [a, b]
  | .vsadd t d a _ _ | .vssub t d a _ _ | .vsmul t d a _ _ | .vsfma t d a _ _ | .vsmin t d a _ _ | .vsmax t d a _ _ | .vredsum t d a _
  | .vredmax t d a _ | .vredmin t d a _ | .vscan t d a _ => fpMode t ++ winWait [d, a]
  | .venc _ d a _ => cNum 0x010 :: winWait [d, a]
  | .vexp2 d a _ | .vlog2 d a _ | .vrcp d a _ | .vrsq d a _ | .vtanh d a _ | .vsigm d a _ => winWait [d, a]
  | .vcvt _ _ d a _ => cNum 0x010 :: seedRead sr ++ winWait [d, a]
  | .vqnt _ d a b _ => cNum 0x010 :: seedRead sr ++ winWait [d, a, b]
  | .vdqnt _ d a b _ => cNum 0x010 :: seedRead sr ++ winWait [d, a, b]
  | .vdot4 _ d a b _ | .vmulh _ d a b _ | .vand _ d a b _ | .vor _ d a b _ | .vxor _ d a b _ | .vshl _ d a b _ | .vshr _ d a b _ | .vsra _ d a b _
  | .vsel _ d a b _ | .vperm _ d a b _ => winWait [d, a, b]
  | .vabs _ d a _ | .vneg _ d a _ | .vnot _ d a _ | .vpopc _ d a _ | .vdec d a _ | .vslide _ d a _ _ | .vbcast _ d a _ _ | .vamaxb _ d a _
  | .vsshl _ d a _ _ | .vmov _ d a _ => winWait [d, a]
  | .vldl d _ _ _ | .vstl d _ _ _ | .vsplat _ d _ _ | .vins _ d _ _ | .viota _ d _ => winWait [d]
  | .vext _ _ a _ => winWait [a]
  | .vgthl _ d _ b _ | .vsctl _ d _ b _ => winWait [d, b]
  | .vld d _ _ _ | .vst d _ _ _ | .vlds _ d _ _ _ | .vsts _ d _ _ _ => cNum 0x004 :: winWait [d]
  | .vgth _ d _ b _ | .vsct _ d _ b _ => cNum 0x004 :: winWait [d, b]
  | .ld .. | .st .. | .ldx .. | .stx .. | .pfg .. | .cwb .. | .cinv .. | .cdisc .. | .stvn .. | .vnopen .. | .vnseal .. | .vnrecl .. | .rrbeg ..
  | .rrend .. | .rroff .. | .atbind .. => [cNum 0x004]
  | .amo .. | .red .. | .redvn .. | .vnstat .. | .rrstat .. | .launch .. => [cNum 0x004, cNum 0x090]
  | .ldvn .. => [cNum 0x004, cNum 0x030, cNum 0x090]
  | .rrec .. => [cNum 0x004, cNum 0x070]
  | .atdig h c _ => cNum (0x080 + h.toNat) :: winWait [c]
  | .atld h c _ _ | .atsg h c _ _ => cNum 0x004 :: cNum 0x030 :: cNum 0x090 :: cNum (0x080 + h.toNat) :: winWait [c]
  | .atinfo h c => cNum (0x080 + h.toNat) :: winWait [c]
  | .accst _ _ c _ | .accld _ _ c _ => cNum 0x010 :: seedRead sr ++ winWait [c]
  | .accstg .. => cNum 0x004 :: cNum 0x010 :: seedRead sr
  | .mma .. | .mmal .. | .mmr .. => [cNum 0x004, cNum 0x010, cNum 0x021, cNum 0x050]
  | .xld .. | .xst .. | .xput .. | .xaxb .. | .xfill .. | .xlm .. => [cNum 0x010, cNum 0x012]
  | .rputmv _ v => winWait [v]
  | .take .. | .putl .. | .waitm .. | .waitge .. | .park | .bar .. | .barmax .. | .barsum .. | .barmin .. => [cNum 0x030]
  | .csrw d _ c => if d = 0 then [] else [cNum c.toNat]
  | .csrr _ c | .csrs _ _ c | .csrc _ _ c => [cNum c.toNat]
  | .trap .. | .brk => [cNum 0x060, cNum 0x061]
  | .eret => [cNum 0x061, cNum 0x062]
  | .evret => [cNum 0x042, cNum 0x043]
  | .evon => [cNum 0x041, cNum 0x090]
  | .evoff => [cNum 0x041]
  | .dqpush .. | .dqpop .. | .dqsplit .. | .dqsteal .. | .tsend .. | .mrcv .. | .mstat .. | .tret | .dqnext .. => [cNum 0x090]
  | .add .. | .sub .. | .and .. | .or .. | .xor .. | .andn .. | .orn .. | .shl .. | .shr .. | .sra .. | .rol .. | .slt .. | .sltn .. | .seq ..
  | .min .. | .max .. | .minn .. | .maxn .. | .mul .. | .mulh .. | .mulhn .. | .div .. | .divn .. | .rem .. | .remn .. | .mad .. | .clz .. | .ctz ..
  | .pop .. | .bswap .. | .sextB .. | .sextH .. | .sextW .. | .zextB .. | .zextH .. | .zextW .. | .bext .. | .fshr .. | .fshl .. | .addi ..
  | .andi .. | .ori .. | .xori .. | .slti .. | .shli .. | .shri .. | .srai .. | .roli .. | .shlori .. | .lih .. | .bexti .. | .bextsi .. | .binsi ..
  | .fshli .. | .fshri .. | .beq .. | .bne .. | .blt .. | .bge .. | .bltn .. | .bgen .. | .dbnz .. | .jal .. | .jalr .. | .ldl .. | .stl ..
  | .fenceAcq .. | .fenceRel .. | .fenceAr .. | .rput .. | .peek .. | .testl .. | .clrl .. | .rputm .. | .msnd .. | .msndn .. | .mrcvn .. | .yield
  | .wake .. | .ifence | .halt | .fabs .. | .fneg .. | .fclass .. | .kand .. | .kor .. | .kxor .. | .knot .. | .vdtld ..
  | .ktog .. | .gtok .. | .kpop .. | .mwait .. | .accz .. | .xstat .. | .xcan .. | .illegalInstruction | .waitExpired ..
  | .eventEntry .. | .taskDispatch .. | .taskSteal .. | .contextSpill .. | .contextRestore .. | .globalReply .. | .sliceReadRequest ..
  | .sliceOwnershipRequest .. | .l1WriteBack .. | .l1Invalidation .. | .lineFill .. | .pageWalk .. | .faultRecordAppend .. | .wordRequest ..
  | .atomicExecute .. | .guestWriteBack .. | .remoteWriteDelivery .. | .remoteWriteAck .. | .dropNotice .. | .landingPortFill ..
  | .messageArrival .. | .messageDivert .. | .barrierRelease .. | .matrixKblock .. | .matrixComplete .. | .matrixFaultStop .. | .mmrBlockArrival ..
  | .mmrAbortToken .. | .copyCommandRun .. | .copyStripe .. | .copyCompletion .. | .claimEnd .. | .putArrival .. | .putAck ..
  | .copyThreadRestart .. | .copyProgramReinstall .. | .versionedAccess .. | .replayPush .. | .packetArrival .. | .queueSlotMap ..
  | .queueSlotEvict .. | .queueOpen .. | .queueClose .. | .launchDispatch | .launchDistribute .. | .imageLoad .. | .imageEvict .. | .launchRetire ..
  | .forcedPreemption .. | .shootdownInvalidate .. | .shootdownRelease .. | .shootdownInvalidateRelease .. | .shootdownComplete | .wakeRetry ..
  | .wakeFail .. | .switchOut .. | .switchResume .. | .hostAbort .. | .stopOneThread .. | .resumeOneThread .. | .copyProgramInstall ..
  | .controlRangeWrite .. | .regionRecordLive .. | .captureUnitControl .. | .captureSample .. | .apertureRead .. | .apertureWrite ..
  | .powerWindow .. | .functionReady .. | .functionFail .. | .portDown .. | .packageUnavailable .. | .packageAvailable .. | .packageReset
  | .keyLoad .. | .keyErase .. | .attest .. | .debugChallenge .. | .debugUnlock .. | .debugLock .. | .firmwareStage .. | .securityAlarm ..
  | .softError .. => []
/-! ### The damage of a thread -/

/-- The registers that a name stands for: inside an event handler the codes 28 to 31 name gs0 to gs3 (R260), and reading `evcause` tells so. -/
def Thread.named (t : Thread) (l : List Nat) : List Nat := l.map (fun n => if t.inEvent && 28 ≤ n && n < 32 then n + 28 else n)
/-- Some register of a thread that an instruction reads is damaged. -/
def Core.damagedFor (c : Core) (t : Nat) (i : Instr) : Bool :=
  let x := c.thr t
  let reads := x.named (regsOf i).1 ++ ctlOf (Fcw.ofWord x.ctl.fcw).isSr i
  c.badThread.any (fun e => e.1 == t && reads.contains e.2)
/-- The instruction is an illegal one for the current thread, whatever its registers hold: it belongs to t15 (R35), or to system level (R29, R77),
and its trap comes first (R39, R78). -/
def State.barred (s : State) : Instr → Bool
  | .eret | .halt => !s.thr.system
  | .csrr _ c | .csrw _ _ c | .csrs _ _ c | .csrc _ _ c => decide (0x800 ≤ c.toNat) && !s.thr.system
  | .xld .. | .xst .. | .xput .. | .xaxb .. | .xfill .. | .xstat .. | .xcan .. | .xlm .. => s.tid ≠ 15
  | .add .. | .sub .. | .and .. | .or .. | .xor .. | .andn .. | .orn .. | .shl .. | .shr .. | .sra .. | .rol .. | .slt .. | .sltn .. | .seq ..
  | .min .. | .max .. | .minn .. | .maxn .. | .mul .. | .mulh .. | .mulhn .. | .div .. | .divn .. | .rem .. | .remn .. | .mad .. | .clz .. | .ctz ..
  | .pop .. | .bswap .. | .sextB .. | .sextH .. | .sextW .. | .zextB .. | .zextH .. | .zextW .. | .bext .. | .fshr .. | .fshl .. | .addi ..
  | .andi .. | .ori .. | .xori .. | .slti .. | .shli .. | .shri .. | .srai .. | .roli .. | .shlori .. | .lih .. | .bexti .. | .bextsi .. | .binsi ..
  | .fshli .. | .fshri .. | .beq .. | .bne .. | .blt .. | .bge .. | .bltn .. | .bgen .. | .dbnz .. | .jal .. | .jalr .. | .ld .. | .st .. | .ldl ..
  | .stl .. | .ldx .. | .stx .. | .pfg .. | .cwb .. | .cinv .. | .cdisc .. | .amo .. | .red .. | .fenceAcq .. | .fenceRel .. | .fenceAr .. | .bar ..
  | .barmax .. | .barsum .. | .barmin .. | .waitge .. | .putl .. | .rput .. | .take .. | .peek .. | .testl .. | .clrl .. | .rputm .. | .rputmv ..
  | .msnd .. | .mrcv .. | .waitm .. | .msndn .. | .mrcvn .. | .evon | .evoff | .evret | .yield | .park | .wake .. | .dqpush .. | .dqpop ..
  | .dqsplit .. | .dqsteal .. | .tsend .. | .tret | .dqnext .. | .launch .. | .trap .. | .brk | .ifence | .fadd .. | .fsub .. | .fmul .. | .ffma ..
  | .fmin .. | .fmax .. | .fabs .. | .fneg .. | .feq .. | .flt .. | .fle .. | .fcvt .. | .fdiv .. | .fsqrt .. | .fclass .. | .vadd .. | .vsub ..
  | .vmul .. | .vfma .. | .vfms .. | .vmin .. | .vmax .. | .vabs .. | .vneg .. | .vdot4 .. | .vmulh .. | .vand .. | .vor .. | .vxor .. | .vnot ..
  | .vshl .. | .vshr .. | .vsra .. | .vpopc .. | .vcmpeq .. | .vcmpne .. | .vcmplt .. | .vcmple .. | .vsel .. | .kand .. | .kor .. | .kxor ..
  | .knot .. | .vcvt .. | .vdec .. | .venc .. | .vdtld .. | .vqnt .. | .vdqnt .. | .vexp2 .. | .vlog2 .. | .vrcp .. | .vrsq .. | .vtanh ..
  | .vsigm .. | .vperm .. | .vslide .. | .vbcast .. | .vredsum .. | .vredmax .. | .vredmin .. | .vscan .. | .vamaxb .. | .vldl .. | .vstl ..
  | .vld .. | .vst .. | .vlds .. | .vsts .. | .vgth .. | .vsct .. | .vgthl .. | .vsctl .. | .vsadd .. | .vssub .. | .vsmul .. | .vsfma ..
  | .vsmin .. | .vsmax .. | .vsshl .. | .vsplat .. | .vins .. | .vext .. | .viota .. | .ktog .. | .gtok .. | .kpop .. | .vmov .. | .mma ..
  | .mmal .. | .mmr .. | .mwait .. | .mstat .. | .accz .. | .accst .. | .accld .. | .accstg .. | .atbind .. | .atdig .. | .atld .. | .atsg ..
  | .atinfo .. | .ldvn .. | .redvn .. | .stvn .. | .vnopen .. | .vnseal .. | .vnrecl .. | .vnstat .. | .rrbeg .. | .rrend .. | .rrec .. | .rroff ..
  | .rrstat .. | .illegalInstruction | .waitExpired .. | .eventEntry .. | .taskDispatch .. | .taskSteal .. | .contextSpill .. | .contextRestore ..
  | .globalReply .. | .sliceReadRequest .. | .sliceOwnershipRequest .. | .l1WriteBack .. | .l1Invalidation .. | .lineFill .. | .pageWalk ..
  | .faultRecordAppend .. | .wordRequest .. | .atomicExecute .. | .guestWriteBack .. | .remoteWriteDelivery .. | .remoteWriteAck .. | .dropNotice ..
  | .landingPortFill .. | .messageArrival .. | .messageDivert .. | .barrierRelease .. | .matrixKblock .. | .matrixComplete .. | .matrixFaultStop ..
  | .mmrBlockArrival .. | .mmrAbortToken .. | .copyCommandRun .. | .copyStripe .. | .copyCompletion .. | .claimEnd .. | .putArrival .. | .putAck ..
  | .copyThreadRestart .. | .copyProgramReinstall .. | .versionedAccess .. | .replayPush .. | .packetArrival .. | .queueSlotMap ..
  | .queueSlotEvict .. | .queueOpen .. | .queueClose .. | .launchDispatch | .launchDistribute .. | .imageLoad .. | .imageEvict .. | .launchRetire ..
  | .forcedPreemption .. | .shootdownInvalidate .. | .shootdownRelease .. | .shootdownInvalidateRelease .. | .shootdownComplete | .wakeRetry ..
  | .wakeFail .. | .switchOut .. | .switchResume .. | .hostAbort .. | .stopOneThread .. | .resumeOneThread .. | .copyProgramInstall ..
  | .controlRangeWrite .. | .regionRecordLive .. | .captureUnitControl .. | .captureSample .. | .apertureRead .. | .apertureWrite ..
  | .powerWindow .. | .functionReady .. | .functionFail .. | .portDown .. | .packageUnavailable .. | .packageAvailable .. | .packageReset
  | .keyLoad .. | .keyErase .. | .attest .. | .debugChallenge .. | .debugUnlock .. | .debugLock .. | .firmwareStage .. | .securityAlarm ..
  | .softError .. => false

end Sys2Proof.Machine
end

