-- ==== Sys2Proof/Machine/Det.lean ====
section
/-! DEFINITION. The dies on which a row acts, for the order of events under deterministic operation (R8, R352). -/

namespace Sys2Proof.Machine

/-- The dies on which an instruction, or a row of the machine itself, acts.  Rows of the host, hub firmware, other packages and the silicon come from
outside and name no die here. -/
def State.diesOf (s : State) : Instr → List Nat
  | .add .. | .sub .. | .and .. | .or .. | .xor .. | .andn .. | .orn .. | .shl .. | .shr .. | .sra .. | .rol .. | .slt .. | .sltn .. | .seq ..
  | .min .. | .max .. | .minn .. | .maxn .. | .mul .. | .mulh .. | .mulhn .. | .div .. | .divn .. | .rem .. | .remn .. | .mad .. | .clz .. | .ctz ..
  | .pop .. | .bswap .. | .sextB .. | .sextH .. | .sextW .. | .zextB .. | .zextH .. | .zextW .. | .bext .. | .fshr .. | .fshl .. | .addi ..
  | .andi .. | .ori .. | .xori .. | .slti .. | .shli .. | .shri .. | .srai .. | .roli .. | .shlori .. | .lih .. | .bexti .. | .bextsi .. | .binsi ..
  | .fshli .. | .fshri .. | .beq .. | .bne .. | .blt .. | .bge .. | .bltn .. | .bgen .. | .dbnz .. | .jal .. | .jalr .. | .ld .. | .st .. | .ldl ..
  | .stl .. | .ldx .. | .stx .. | .pfg .. | .cwb .. | .cinv .. | .cdisc .. | .amo .. | .red .. | .fenceAcq .. | .fenceRel .. | .fenceAr .. | .bar ..
  | .barmax .. | .barsum .. | .barmin .. | .waitge .. | .putl .. | .rput .. | .take .. | .peek .. | .testl .. | .clrl .. | .rputm .. | .rputmv ..
  | .msnd .. | .mrcv .. | .waitm .. | .msndn .. | .mrcvn .. | .evon | .evoff | .evret | .yield | .park | .wake .. | .dqpush .. | .dqpop ..
  | .dqsplit .. | .dqsteal .. | .tsend .. | .tret | .dqnext .. | .launch .. | .csrr .. | .csrw .. | .csrs .. | .csrc .. | .trap .. | .brk | .ifence
  | .eret | .halt | .fadd .. | .fsub .. | .fmul .. | .ffma .. | .fmin .. | .fmax .. | .fabs .. | .fneg .. | .feq .. | .flt .. | .fle .. | .fcvt ..
  | .fdiv .. | .fsqrt .. | .fclass .. | .vadd .. | .vsub .. | .vmul .. | .vfma .. | .vfms .. | .vmin .. | .vmax .. | .vabs .. | .vneg .. | .vdot4 ..
  | .vmulh .. | .vand .. | .vor .. | .vxor .. | .vnot .. | .vshl .. | .vshr .. | .vsra .. | .vpopc .. | .vcmpeq .. | .vcmpne .. | .vcmplt ..
  | .vcmple .. | .vsel .. | .kand .. | .kor .. | .kxor .. | .knot .. | .vcvt .. | .vdec .. | .venc .. | .vdtld .. | .vqnt .. | .vdqnt .. | .vexp2 ..
  | .vlog2 .. | .vrcp .. | .vrsq .. | .vtanh .. | .vsigm .. | .vperm .. | .vslide .. | .vbcast .. | .vredsum .. | .vredmax .. | .vredmin ..
  | .vscan .. | .vamaxb .. | .vldl .. | .vstl .. | .vld .. | .vst .. | .vlds .. | .vsts .. | .vgth .. | .vsct .. | .vgthl .. | .vsctl .. | .vsadd ..
  | .vssub .. | .vsmul .. | .vsfma .. | .vsmin .. | .vsmax .. | .vsshl .. | .vsplat .. | .vins .. | .vext .. | .viota .. | .ktog .. | .gtok ..
  | .kpop .. | .vmov .. | .mma .. | .mmal .. | .mmr .. | .mwait .. | .mstat .. | .accz .. | .accst .. | .accld .. | .accstg .. | .xld .. | .xst ..
  | .xput .. | .xaxb .. | .xfill .. | .xstat .. | .xcan .. | .xlm .. | .atbind .. | .atdig .. | .atld .. | .atsg .. | .atinfo .. | .ldvn ..
  | .redvn .. | .stvn .. | .vnopen .. | .vnseal .. | .vnrecl .. | .vnstat .. | .rrbeg .. | .rrend .. | .rrec .. | .rroff .. | .rrstat ..
  | .illegalInstruction => [dieOf s.core]
  | .waitExpired core _ | .eventEntry core _ | .taskDispatch core | .taskSteal core _ | .contextSpill core _ | .contextRestore core _
  | .globalReply core _ | .sliceReadRequest core _ _ | .sliceOwnershipRequest core _ _ | .l1WriteBack core _ _ | .l1Invalidation core _ _
  | .wordRequest core _ _ _ _ | .landingPortFill core _ | .messageDivert core | .matrixKblock core | .matrixComplete core | .matrixFaultStop core
  | .mmrBlockArrival core | .mmrAbortToken core | .copyCommandRun core | .copyStripe core | .copyCompletion core | .claimEnd core
  | .copyThreadRestart core | .copyProgramReinstall core | .imageLoad core _ | .imageEvict core _ | .forcedPreemption core _ => [dieOf core]
  | .lineFill die _ _ | .pageWalk die _ _ _ | .launchDistribute _ die => [die]
  | .remoteWriteDelivery n | .remoteWriteAck n | .dropNotice n | .messageArrival n => ((s.net[n]?).map (fun x => [dieOf x.src, dieOf x.dst])).getD []
  | .barrierRelease n remote =>
    if remote.isEmpty then ((s.barriers[n]?).map (fun b => b.arrivals.map (fun a => dieOf a.core))).getD [] else []
  | .versionedAccess .. => List.range 8
  | .replayPush n => ((s.pushes[n]?).map (fun p => [p.die])).getD []
  | .atomicExecute work => (match work with | .posted n => ((s.reds[n]?).map (fun r => [dieOf r.core])).getD [] | .far _ => [])
  | .guestWriteBack src _ _ => (match src with | .die d => [d] | .far _ => [])
  | .faultRecordAppend .. | .putArrival .. | .putAck .. | .packetArrival .. | .queueSlotMap ..
  | .queueSlotEvict .. | .queueOpen .. | .queueClose .. | .launchDispatch | .launchRetire .. | .shootdownInvalidate .. | .shootdownRelease ..
  | .shootdownInvalidateRelease .. | .shootdownComplete | .wakeRetry .. | .wakeFail .. | .switchOut .. | .switchResume .. | .hostAbort ..
  | .stopOneThread .. | .resumeOneThread .. | .copyProgramInstall .. | .controlRangeWrite .. | .regionRecordLive .. | .captureUnitControl ..
  | .captureSample .. | .apertureRead .. | .apertureWrite .. | .powerWindow .. | .functionReady .. | .functionFail .. | .portDown ..
  | .packageUnavailable .. | .packageAvailable .. | .packageReset | .keyLoad .. | .keyErase .. | .attest .. | .debugChallenge .. | .debugUnlock ..
  | .debugLock .. | .firmwareStage .. | .securityAlarm .. | .softError .. => []
/-- A row that the machine itself brings about on a die that a deterministic launch holds: its place follows from the state alone, so that the launch has
one outcome (R8). -/
def State.ordered (s : State) (i : Instr) : Bool := (s.diesOf i).any (fun d => (s.dieAt d).det.isSome)

end Sys2Proof.Machine
end

