-- ==== Sys2Proof/Machine/Alu.lean ====
section
/-! DEFINITION. The ALU group, major opcode 0x01 (R67 to R69): every instruction writes one general register and traps never. -/

namespace Sys2Proof.Machine

/-! ### Values -/

/-- Rotates a word left by `n` below 64 (R67). -/
def rolWord (a : Word) (n : Nat) : Word := a.rotateLeft n
/-- A 128-bit value from its halves. -/
def pair128 (hi lo : Word) : BitVec 128 := hi ++ lo
/-- The funnel shift right: the low 64 bits of (a : d) shifted right (R67). -/
def funnelRight (a d : Word) (n : Nat) : Word := ((pair128 a d) >>> n).setWidth 64
/-- The funnel shift left: the high 64 bits of (d : a) shifted left (R67). -/
def funnelLeft (a d : Word) (n : Nat) : Word := ((pair128 d a) <<< n).extractLsb' 64 64
/-- The high half of the signed product (R67). -/
def mulHigh (a b : Word) : Word := (a.signExtend 128 * b.signExtend 128).extractLsb' 64 64
/-- The high half of the unsigned product (R67). -/
def mulHighN (a b : Word) : Word := (a.setWidth 128 * b.setWidth 128).extractLsb' 64 64
/-- Signed division with the fixed results of R68. -/
def divWord (a b : Word) : Word := if b = 0 then BitVec.allOnes 64 else BitVec.ofInt 64 (a.toInt.tdiv b.toInt)
/-- Signed remainder with the fixed results of R68. -/
def remWord (a b : Word) : Word := if b = 0 then a else BitVec.ofInt 64 (a.toInt.tmod b.toInt)
/-- Unsigned division with the fixed result of R68. -/
def divWordN (a b : Word) : Word := if b = 0 then BitVec.allOnes 64 else a / b
/-- Unsigned remainder with the fixed result of R68. -/
def remWordN (a b : Word) : Word := if b = 0 then a else a % b
/-- Leading zero bits; 64 for zero (R67). -/
def clzWord (a : Word) : Word := if a = 0 then 64 else word (63 - a.toNat.log2)
/-- Trailing zero bits; 64 for zero (R67). -/
def ctzWord (a : Word) : Word := if a = 0 then 64 else word (a &&& -a).toNat.log2
/-- The number of one bits of a value among its low `n` (R67). -/
def popCount {w : Nat} (a : BitVec w) : Nat → Nat
  | 0 => 0
  | n + 1 => popCount a n + (a.getLsbD n).toNat
/-- The bytes of a word reversed (R67). -/
def bswapWord (a : Word) : Word :=
  a.extractLsb' 0 8 ++ a.extractLsb' 8 8 ++ a.extractLsb' 16 8 ++ a.extractLsb' 24 8 ++
  a.extractLsb' 32 8 ++ a.extractLsb' 40 8 ++ a.extractLsb' 48 8 ++ a.extractLsb' 56 8
/-- The bit field of `len` bits at `pos`, zero-extended; bits past 63 read as zero (R69, R71). -/
def fieldOf (a : Word) (pos len : Nat) : Word := word (a.toNat >>> pos % 2 ^ len)
/-- The bit field of `len` bits at `pos`, sign-extended (R71). -/
def fieldSigned (a : Word) (pos len : Nat) : Word := sextNat len (a.toNat >>> pos)
/-- A word with the field of `len` bits at `pos` replaced by the low bits of another (R71). -/
def fieldInsert (d a : Word) (pos len : Nat) : Word :=
  let m : Word := word (2 ^ len - 1) <<< pos
  (d &&& ~~~m) ||| ((a <<< pos) &&& m)

/-! ### The shared shape -/

/-- Writes a result to rd and completes after an issue interval (R67, R45). -/
def writeReg (d : Reg) (x : Word) (interval : Nat) (s : State) : Res := (s.wr d x).next interval
/-- A binary operation on g[ra] and g[rb], interval 2. -/
def alu2 (f : Word → Word → Word) (d a b : Reg) (s : State) : Res := writeReg d (f (s.rd a) (s.rd b)) 2 s
/-- A unary operation on g[ra], interval 2. -/
def alu1 (f : Word → Word) (d a : Reg) (s : State) : Res := writeReg d (f (s.rd a)) 2 s
/-- The shift amount of a register: bits [5:0] (R67). -/
def amount (b : Word) : Nat := b.toNat % 64

/-! ### The instructions -/

/-- ADD (R67). -/
def execAdd (d a b : Reg) (s : State) : Res := alu2 (· + ·) d a b s
/-- SUB (R67). -/
def execSub (d a b : Reg) (s : State) : Res := alu2 (· - ·) d a b s
/-- AND (R67). -/
def execAnd (d a b : Reg) (s : State) : Res := alu2 (· &&& ·) d a b s
/-- OR (R67). -/
def execOr (d a b : Reg) (s : State) : Res := alu2 (· ||| ·) d a b s
/-- XOR (R67). -/
def execXor (d a b : Reg) (s : State) : Res := alu2 (· ^^^ ·) d a b s
/-- ANDN (R67). -/
def execAndn (d a b : Reg) (s : State) : Res := alu2 (fun x y => x &&& ~~~y) d a b s
/-- ORN (R67). -/
def execOrn (d a b : Reg) (s : State) : Res := alu2 (fun x y => x ||| ~~~y) d a b s
/-- SHL (R67). -/
def execShl (d a b : Reg) (s : State) : Res := alu2 (fun x y => x <<< amount y) d a b s
/-- SHR (R67). -/
def execShr (d a b : Reg) (s : State) : Res := alu2 (fun x y => x >>> amount y) d a b s
/-- SRA (R67). -/
def execSra (d a b : Reg) (s : State) : Res := alu2 (fun x y => x.sshiftRight (amount y)) d a b s
/-- ROL (R67). -/
def execRol (d a b : Reg) (s : State) : Res := alu2 (fun x y => rolWord x (amount y)) d a b s
/-- SLT (R67). -/
def execSlt (d a b : Reg) (s : State) : Res := alu2 (fun x y => boolWord (x.slt y)) d a b s
/-- SLTN (R67). -/
def execSltn (d a b : Reg) (s : State) : Res := alu2 (fun x y => boolWord (x.ult y)) d a b s
/-- SEQ (R67). -/
def execSeq (d a b : Reg) (s : State) : Res := alu2 (fun x y => boolWord (x == y)) d a b s
/-- MIN (R67). -/
def execMin (d a b : Reg) (s : State) : Res := alu2 (fun x y => if y.slt x then y else x) d a b s
/-- MAX (R67). -/
def execMax (d a b : Reg) (s : State) : Res := alu2 (fun x y => if x.slt y then y else x) d a b s
/-- MINN (R67). -/
def execMinn (d a b : Reg) (s : State) : Res := alu2 (fun x y => if y.ult x then y else x) d a b s
/-- MAXN (R67). -/
def execMaxn (d a b : Reg) (s : State) : Res := alu2 (fun x y => if x.ult y then y else x) d a b s
/-- MUL (R67), interval 4 (R45). -/
def execMul (d a b : Reg) (s : State) : Res := writeReg d (s.rd a * s.rd b) 4 s
/-- MULH (R67), interval 4 (R45). -/
def execMulh (d a b : Reg) (s : State) : Res := writeReg d (mulHigh (s.rd a) (s.rd b)) 4 s
/-- MULHN (R67), interval 4 (R45). -/
def execMulhn (d a b : Reg) (s : State) : Res := writeReg d (mulHighN (s.rd a) (s.rd b)) 4 s
/-- DIV (R68), interval 16 (R45). -/
def execDiv (d a b : Reg) (s : State) : Res := writeReg d (divWord (s.rd a) (s.rd b)) 16 s
/-- DIVN (R68), interval 16 (R45). -/
def execDivn (d a b : Reg) (s : State) : Res := writeReg d (divWordN (s.rd a) (s.rd b)) 16 s
/-- REM (R68), interval 16 (R45). -/
def execRem (d a b : Reg) (s : State) : Res := writeReg d (remWord (s.rd a) (s.rd b)) 16 s
/-- REMN (R68), interval 16 (R45). -/
def execRemn (d a b : Reg) (s : State) : Res := writeReg d (remWordN (s.rd a) (s.rd b)) 16 s
/-- MAD (R67), interval 4 (R45); reads rd. -/
def execMad (d a b : Reg) (s : State) : Res := writeReg d (s.rd d + s.rd a * s.rd b) 4 s
/-- CLZ (R67). -/
def execClz (d a : Reg) (s : State) : Res := alu1 clzWord d a s
/-- CTZ (R67). -/
def execCtz (d a : Reg) (s : State) : Res := alu1 ctzWord d a s
/-- POP (R67). -/
def execPop (d a : Reg) (s : State) : Res := alu1 (fun x => word (popCount x 64)) d a s
/-- BSWAP (R67). -/
def execBswap (d a : Reg) (s : State) : Res := alu1 bswapWord d a s
/-- SEXT_B (R67). -/
def execSextB (d a : Reg) (s : State) : Res := alu1 (fun x => sextNat 8 x.toNat) d a s
/-- SEXT_H (R67). -/
def execSextH (d a : Reg) (s : State) : Res := alu1 (fun x => sextNat 16 x.toNat) d a s
/-- SEXT_W (R67). -/
def execSextW (d a : Reg) (s : State) : Res := alu1 (fun x => sextNat 32 x.toNat) d a s
/-- ZEXT_B (R67). -/
def execZextB (d a : Reg) (s : State) : Res := alu1 (fun x => fieldOf x 0 8) d a s
/-- ZEXT_H (R67). -/
def execZextH (d a : Reg) (s : State) : Res := alu1 (fun x => fieldOf x 0 16) d a s
/-- ZEXT_W (R67). -/
def execZextW (d a : Reg) (s : State) : Res := alu1 (fun x => fieldOf x 0 32) d a s
/-- BEXT (R69): pos = b[5:0], len = b[13:8] + 1. -/
def execBext (d a b : Reg) (s : State) : Res := alu2 (fun x y => fieldOf x (bits y 5 0) (bits y 13 8 + 1)) d a b s
/-- FSHR (R67); reads rd. -/
def execFshr (d a b : Reg) (s : State) : Res := writeReg d (funnelRight (s.rd a) (s.rd d) (amount (s.rd b))) 2 s
/-- FSHL (R67); reads rd. -/
def execFshl (d a b : Reg) (s : State) : Res := writeReg d (funnelLeft (s.rd a) (s.rd d) (amount (s.rd b))) 2 s

end Sys2Proof.Machine
end

