-- ==== Sys2Proof/Machine/Capture.lean ====
section
/-! DEFINITION. Clock islands (R407) and capture units (R409). -/

namespace Sys2Proof.Machine

/-- The package island of a core. -/
def islandOf (core : Nat) : Nat := 16 * dieOf core + xOf core / 8 + 4 * (yOf core / 9)
/-- The record of an island that nothing has changed (R407). -/
def Island.reset : Island := ⟨0, 10, 10⟩
/-- An island record. -/
def Hub.island (h : Hub) (i : Nat) : Island := (getKey h.islands i).getD Island.reset

/-- A capture unit that nothing has changed. -/
def Capture.reset : Capture := ⟨0, 0, false, 0, BitVec.allOnes 64, 0, List.replicate 16 0⟩
/-- A capture unit. -/
def Hub.capture (h : Hub) (u : Nat) : Capture := (getKey h.captures u).getD Capture.reset
/-- The bucket of a sample: the position of its highest one bit. -/
def captureBucket (x : Nat) : Nat := if x = 0 then 0 else min 15 (Nat.log2 x + 1)
/-- A unit with one more sample. -/
def Capture.add (c : Capture) (y : Word) : Capture :=
  let b := captureBucket y.toNat
  { c with count := c.count + 1, min := if y.toNat < c.min.toNat then y else c.min, max := if c.max.toNat < y.toNat then y else c.max,
           hist := setAt c.hist b ((c.hist[b]?).getD 0 + 1) }
/-- Adds a sample to a unit. -/
def State.addSample (s : State) (u n : Nat) : State := s.updHub (fun h => { h with captures := setKey h.captures u ((h.capture u).add (word n)) })
/-- The units of the hub. -/
def hubUnits : List Nat := List.range 8
/-- The units of a die. -/
def dieUnits (d : Nat) : List Nat := (List.range 7).map (fun j => 8 + 7 * d + j)
/-- The number of unit `i` of a die, or of the hub as place 8. -/
def unitAt (place i : Nat) : Nat := if place = 8 then i else 8 + 7 * place + i
/-- A time in ns in cycles of a die's reference clock of 940 MHz, the whole ones (R409, log 34). -/
def dieCycles (ns : Nat) : Nat := ns * 94 / 100
/-- An event adds its sample to the enabled units among some that watch its quantity with an argument that fits. -/
def State.sampleEvent (s : State) (units : List Nat) (code : Nat) (fits : Nat → Bool) (n : Nat) : State :=
  units.foldl (fun (s : State) u =>
    let c := s.hub.capture u
    if c.en && c.code == code && fits c.arg then s.addSample u n else s) s

end Sys2Proof.Machine
end

