-- ==== Sys2Proof/Machine/Crypto.lean ====
section
/-! DEFINITION. AES-256-XTS (R168: IEEE 1619, with the block cipher of FIPS 197), the unwrapping of a key (R411: SP 800-38F), and SHA3-256 with
the two functions that ML-DSA uses (R410: FIPS 202), written out from those standards (notes/assumptions/16).  A byte is a number below 256, a block a list of sixteen bytes,
and a byte string in a number stands with its first byte lowest. -/

namespace Sys2Proof.Machine.Aes

/-! ### The field of 256 elements -/

/-- The product with x, modulo x^8 + x^4 + x^3 + x + 1. -/
def xtime (b : Nat) : Nat := if b < 128 then 2 * b else (2 * b) ^^^ 0x11B
/-- The product of two field elements; the first counter says how many bits of the second are left. -/
def mulBits : Nat → Nat → Nat → Nat
  | 0, _, _ => 0
  | n + 1, a, b => (if b % 2 = 1 then a else 0) ^^^ mulBits n (xtime a) (b / 2)
/-- The product of two field elements. -/
def mul (a b : Nat) : Nat := mulBits 8 a b
/-- The inverse, as the power 254: a^2 · a^4 · … · a^128; 0 has the inverse 0. -/
def inv (a : Nat) : Nat :=
  let sq := fun (x : Nat) => mul x x
  let a2 := sq a
  let a4 := sq a2
  let a8 := sq a4
  let a16 := sq a8
  let a32 := sq a16
  let a64 := sq a32
  mul (mul (mul a2 a4) (mul a8 a16)) (mul (mul a32 a64) (sq a64))
/-- A byte rotated left. -/
def rol (b n : Nat) : Nat := (b * 2 ^ n % 256) ||| (b / 2 ^ (8 - n))
/-- The S-box. -/
def sbox (b : Nat) : Nat :=
  let x := inv b
  x ^^^ rol x 1 ^^^ rol x 2 ^^^ rol x 3 ^^^ rol x 4 ^^^ 0x63
/-- The inverse S-box. -/
def invSbox (b : Nat) : Nat := inv (rol b 1 ^^^ rol b 3 ^^^ rol b 6 ^^^ 0x05)

/-! ### Rounds -/

/-- The exclusive or of two blocks. -/
def xorBlock (a b : List Nat) : List Nat := (a.zip b).map (fun p => p.1 ^^^ p.2)
/-- A block whose byte `i` is the byte of another at a position: byte r + 4c stands in row r and column c. -/
def pick (f : Nat → Nat) (s : List Nat) : List Nat := (List.range 16).map (fun i => s.getD (f i) 0)
/-- Row r moves left by r columns. -/
def shiftRows (s : List Nat) : List Nat := pick (fun i => i % 4 + 4 * ((i / 4 + i % 4) % 4)) s
/-- Row r moves right by r columns. -/
def invShiftRows (s : List Nat) : List Nat := pick (fun i => i % 4 + 4 * ((i / 4 + 4 - i % 4) % 4)) s
/-- Each column times a circulant matrix. -/
def mixBy (k0 k1 k2 k3 : Nat) (s : List Nat) : List Nat :=
  (List.range 16).map (fun i =>
    let at_ := fun (d : Nat) => s.getD (i / 4 * 4 + (i + d) % 4) 0
    mul (at_ 0) k0 ^^^ mul (at_ 1) k1 ^^^ mul (at_ 2) k2 ^^^ mul (at_ 3) k3)
/-- Mixes the columns. -/
def mixColumns (s : List Nat) : List Nat := mixBy 2 3 1 1 s
/-- Undoes `mixColumns`. -/
def invMixColumns (s : List Nat) : List Nat := mixBy 14 11 13 9 s
/-- A round with its key. -/
def round (s key : List Nat) : List Nat := xorBlock (mixColumns (shiftRows (s.map sbox))) key
/-- The last round. -/
def lastRound (s key : List Nat) : List Nat := xorBlock (shiftRows (s.map sbox)) key
/-- Undoes `round`. -/
def invRound (s key : List Nat) : List Nat := (invShiftRows (invMixColumns (xorBlock s key))).map invSbox
/-- Undoes `lastRound`. -/
def invLastRound (s key : List Nat) : List Nat := (invShiftRows (xorBlock s key)).map invSbox

/-! ### The key schedule -/

/-- A power of x in the field. -/
def power : Nat → Nat
  | 0 => 1
  | n + 1 => xtime (power n)
/-- The next word of the schedule, number `i`, from the eight words before it, the latest first. -/
def nextWord (i : Nat) (ws : List (List Nat)) : List Nat :=
  let t := ws.getD 0 []
  let t' := if i % 8 = 0 then xorBlock ((t.drop 1 ++ t.take 1).map sbox) [power (i / 8 - 1), 0, 0, 0]
    else if i % 8 = 4 then t.map sbox else t
  xorBlock (ws.getD 7 []) t'
/-- The words of the schedule, the latest first, after `n` words beyond the key. -/
def schedule (key : List Nat) : Nat → List (List Nat)
  | 0 => ((List.range 8).map (fun i => (key.drop (4 * i)).take 4)).reverse
  | n + 1 => let ws := schedule key n; nextWord (8 + n) ws :: ws
/-- The fifteen round keys of a 32-byte key. -/
def roundKeys (key : List Nat) : List (List Nat) :=
  let ws := (schedule key 52).reverse
  (List.range 15).map (fun r => ((ws.drop (4 * r)).take 4).flatten)
/-- Enciphers a block. -/
def encrypt (keys : List (List Nat)) (s : List Nat) : List Nat :=
  lastRound (((keys.drop 1).take 13).foldl round (xorBlock s (keys.getD 0 []))) (keys.getD 14 [])
/-- Deciphers a block. -/
def decrypt (keys : List (List Nat)) (s : List Nat) : List Nat :=
  xorBlock (((keys.drop 1).take 13).reverse.foldl invRound (invLastRound s (keys.getD 14 []))) (keys.getD 0 [])

/-! ### XTS -/

/-- The `n` bytes of a number, lowest first. -/
def bytes : Nat → Nat → List Nat
  | 0, _ => []
  | n + 1, x => x % 256 :: bytes n (x / 256)
/-- The number of some bytes, lowest first. -/
def number : List Nat → Nat
  | [] => 0
  | b :: l => b + 256 * number l
/-- The tweak of the next block: the product with α, modulo x^128 + x^7 + x^2 + x + 1. -/
def nextTweak (t : Nat) : Nat := (2 * t % 2 ^ 128) ^^^ (if t / 2 ^ 127 % 2 = 1 then 0x87 else 0)
/-- The blocks of a data unit through a cipher, each between two additions of its tweak. -/
def blocks (f : List Nat → List Nat) : Nat → Nat → Nat → List Nat
  | 0, _, _ => []
  | n + 1, t, x => xorBlock (f (xorBlock (bytes 16 x) (bytes 16 t))) (bytes 16 t) ++ blocks f n (nextTweak t) (x / 2 ^ 128)
/-- The first tweak of a data unit under the second key of a pair. -/
def firstTweak (pair : BitVec 512) (unit : Nat) : Nat := number (encrypt (roundKeys (bytes 32 (pair.toNat / 2 ^ 256))) (bytes 16 unit))

/-! ### Key Wrap -/

/-- One step of the unwrapping of a key: a counter, then the semiblock of integrity and the rotated list of the others, last first. -/
def unwrapStep (keys : List (List Nat)) (t : Nat) (x : List Nat × List (List Nat)) : List Nat × List (List Nat) :=
  match x.2 with
  | [] => x
  | r :: rest =>
    let b := decrypt keys (xorBlock x.1 (bytes 8 t).reverse ++ r)
    (b.take 8, rest ++ [b.drop 8])
/-- The steps from a counter down to 1. -/
def unwrapSteps (keys : List (List Nat)) : Nat → List Nat × List (List Nat) → List Nat × List (List Nat)
  | 0, x => x
  | t + 1, x => unwrapSteps keys t (unwrapStep keys (t + 1) x)
/-- The `n` semiblocks of eight bytes that a key wrapped under a key-wrapping key holds; none where the integrity check fails. -/
def unwrap (n : Nat) (kek wrapped : List Nat) : Option (List Nat) :=
  let rs := (List.range n).map (fun i => (wrapped.drop (8 * (n - i))).take 8)
  let x := unwrapSteps (roundKeys kek) (6 * n) (wrapped.take 8, rs)
  if x.1 = List.replicate 8 0xA6 then some x.2.reverse.flatten else none

end Sys2Proof.Machine.Aes

namespace Sys2Proof.Machine.Keccak

/-! ### Keccak-f[1600]: 25 lanes of 64 bits, lane (x, y) at place x + 5y -/

/-- A lane rotated left. -/
def rotl (a n : Nat) : Nat := a * 2 ^ n % 2 ^ 64 ||| a / 2 ^ (64 - n)
/-- The lane (x, y), both modulo 5. -/
def lane (s : List Nat) (x y : Nat) : Nat := s.getD (x % 5 + 5 * (y % 5)) 0
/-- Every lane of a state with what a rule gives for its place. -/
def mapAt (f : Nat → Nat → Nat) : List Nat := (List.range 5).flatMap (fun y => (List.range 5).map (fun x => f x y))
/-- The step θ: each lane with the parities of the column before it and, turned by one, of the column after it. -/
def theta (s : List Nat) : List Nat :=
  let column := (List.range 5).map (fun x => (List.range 5).foldl (fun p y => p ^^^ lane s x y) 0)
  mapAt (fun x y => lane s x y ^^^ column.getD ((x + 4) % 5) 0 ^^^ rotl (column.getD ((x + 1) % 5) 0) 1)
/-- The steps ρ and π together, along their one walk through 24 lanes: from (x, y) a lane goes to (y, 2x + 3y), and the lane of step t is turned by the
triangular number of t. -/
def walkFrom (s : List Nat) : Nat → Nat → Nat → Nat → List Nat → List Nat
  | 0, _, _, _, out => out
  | n + 1, t, x, y, out =>
    let z := (2 * x + 3 * y) % 5
    walkFrom s n (t + 1) y z (out.set (y + 5 * z) (rotl (lane s x y) (t * (t + 1) / 2 % 64)))
/-- The steps ρ and π; lane (0, 0) stays. -/
def rhoPi (s : List Nat) : List Nat := walkFrom s 24 1 1 0 s
/-- The step χ: a lane, and the one after the next where the next is 0. -/
def chi (s : List Nat) : List Nat := mapAt (fun x y => lane s x y ^^^ (lane s (x + 2) y &&& (2 ^ 64 - 1 - lane s (x + 1) y)))
/-- The next state of the register that makes the constants of ι, over x^8 + x^6 + x^5 + x^4 + 1. -/
def shiftReg (b : Nat) : Nat := if b < 128 then 2 * b else (2 * b) ^^^ 0x171
/-- Seven bits of the register give the bits 0, 1, 3, 7, 15, 31 and 63 of a constant: the register after them, and the constant. -/
def iotaBits : Nat → Nat → Nat × Nat
  | 0, b => (b, 0)
  | n + 1, b => let r := iotaBits n (shiftReg b); (r.1, r.2 + b % 2 * 2 ^ (2 ^ (6 - n) - 1))
/-- Rounds with their constants, from a state of the register. -/
def rounds : Nat → Nat → List Nat → List Nat
  | 0, _, s => s
  | n + 1, b, s =>
    let r := iotaBits 7 b
    let t := chi (rhoPi (theta s))
    rounds n r.1 (t.set 0 (t.headD 0 ^^^ r.2))
/-- The permutation. -/
def permute (s : List Nat) : List Nat := rounds 24 1 s

/-! ### The sponge, and the functions of FIPS 202 that are used -/

/-- The lanes of a block, each with its first byte lowest. -/
def lanes : Nat → List Nat → List Nat
  | 0, _ => []
  | n + 1, b => Aes.number (b.take 8) :: lanes n (b.drop 8)
/-- Absorbs the blocks of a padded message at a rate of `k` lanes; the counter bounds their number. -/
def absorb (k : Nat) : Nat → List Nat → List Nat → List Nat
  | 0, s, _ => s
  | n + 1, s, m => absorb k n (permute (List.zipWith (· ^^^ ·) s (lanes k (m.take (8 * k)) ++ List.replicate (25 - k) 0))) (m.drop (8 * k))
/-- The padding behind a message of `n` bytes: the suffix, then 10*1. -/
def padding (rate suffix n : Nat) : List Nat :=
  match rate - 1 - n % rate with
  | 0 => [suffix + 128]
  | z + 1 => suffix :: List.replicate z 0 ++ [128]
/-- The first `n` blocks of `k` lanes that a state gives, as bytes. -/
def squeeze (k : Nat) : Nat → List Nat → List Nat
  | 0, _ => []
  | n + 1, s => (s.take k).flatMap (Aes.bytes 8) ++ squeeze k n (permute s)
/-- `n` bytes of the sponge with a rate of `k` lanes. -/
def sponge (k suffix n : Nat) (m : List Nat) : List Nat :=
  (squeeze k ((n + 8 * k - 1) / (8 * k)) (absorb k (m.length / (8 * k) + 1) (List.replicate 25 0) (m ++ padding (8 * k) suffix m.length))).take n
/-- The 32 bytes of SHA3-256. -/
def sha3 (m : List Nat) : List Nat := sponge 17 0x06 32 m
/-- `n` bytes of SHAKE128. -/
def shake128 (n : Nat) (m : List Nat) : List Nat := sponge 21 0x1F n m
/-- `n` bytes of SHAKE256. -/
def shake256 (n : Nat) (m : List Nat) : List Nat := sponge 17 0x1F n m

end Sys2Proof.Machine.Keccak

namespace Sys2Proof.Machine

/-- The ciphertext of a sector (R168): `unit` is PA[51:6]. -/
def encryptSector (pair : BitVec 512) (unit : Nat) (x : BitVec 512) : BitVec 512 :=
  BitVec.ofNat 512 (Aes.number (Aes.blocks (Aes.encrypt (Aes.roundKeys (Aes.bytes 32 pair.toNat))) 4 (Aes.firstTweak pair unit) x.toNat))
/-- The plaintext of a sector (R168). -/
def decryptSector (pair : BitVec 512) (unit : Nat) (x : BitVec 512) : BitVec 512 :=
  BitVec.ofNat 512 (Aes.number (Aes.blocks (Aes.decrypt (Aes.roundKeys (Aes.bytes 32 pair.toNat))) 4 (Aes.firstTweak pair unit) x.toNat))
/-- The SHA3-256 digest of a byte string (R410); its first byte stands lowest. -/
def digest (m : List Byte) : BitVec 256 := BitVec.ofNat 256 (Aes.number (Keccak.sha3 (m.map (·.toNat))))
/-- The key pair that a wrapped one holds under the fused key-wrapping key (R411). -/
def unwrapKey (wrapped : BitVec 576) : Option (BitVec 512) :=
  (Aes.unwrap 8 (Aes.bytes 32 Config.wrappingKey.toNat) (Aes.bytes 72 wrapped.toNat)).map (fun l => BitVec.ofNat 512 (Aes.number l))

end Sys2Proof.Machine
end

