-- ==== Sys2Proof/Machine/Memory.lean ====
section
/-! DEFINITION. Global memory: physical memory (R150, R151, R168), translation at the slices (R152 to R158, R163, R167), the last-level cache
with its directory and compressed cells (R173 to R182), guest lines (R213 to R217), the L1s (R171, R172), claims (R226), and what recording
regions note of it (R365, R366, R371).  A request that has to wait, for a claim, a migrating leaf, memory that is not ready or a line that may
leave a full set, leaves everything as it was (log 7). -/

namespace Sys2Proof.Machine

/-! ### Physical memory -/

/-- The package of an address is this one. -/
def State.isOwn (s : State) (pa : Nat) : Bool := paPkg pa == s.hub.pkg
/-- Reads bytes of physical memory as they stand in DRAM. -/
def State.paBytes (s : State) (pa n : Nat) : List Byte := if s.isOwn pa then s.dramBytes pa n else memRead Config.farByte s.far pa n
/-- Writes bytes of physical memory as they stand in DRAM. -/
def State.paPut (s : State) (pa : Nat) (l : List Byte) : State :=
  if s.isOwn pa then s.dramPut pa l else { s with far := memWrite Config.farByte s.far pa l }
/-- The key pair of a slot; an empty slot has none. -/
def Hub.keyPair (h : Hub) (k : Nat) : Option (BitVec 512) := getKey h.sec.keys k
/-- Reads a sector at a physical address under a key index (R168, R169).  DESIGN CHOICE (log 58): a slot that has been erased since the walk gives a key pair
of zeros. -/
def State.sectorRead (s : State) (pa key : Nat) : List Byte :=
  let raw := s.paBytes pa 64
  if key = 0 ∨ !s.isOwn pa then raw
  else bytesOfNat 64 (decryptSector ((s.hub.keyPair key).getD 0) (pa / 64) (BitVec.ofNat 512 (natOfBytes raw))).toNat
/-- A sector of own memory is damaged (R395). -/
def State.sectorBad (s : State) (pa : Nat) : Bool := s.isOwn pa && s.badDram.contains (localPa pa / 64)
/-- A line of own memory has a damaged sector. -/
def State.lineBad (s : State) (pa : Nat) : Bool := (List.range 4).any (fun i => s.sectorBad (pa + 64 * i))
/-- Writes a sector at a physical address under a key index, an erased slot with a key pair of zeros (log 58); a damaged one is sound again. -/
def State.sectorWrite (s : State) (pa key : Nat) (l : List Byte) : State :=
  let s : State := if s.badDram.isEmpty || !s.isOwn pa then s else { s with badDram := s.badDram.filter (· ≠ localPa pa / 64) }
  if key = 0 ∨ !s.isOwn pa then s.paPut pa l
  else s.paPut pa (bytesOfNat 64 (encryptSector ((s.hub.keyPair key).getD 0) (pa / 64) (BitVec.ofNat 512 (natOfBytes l))).toNat)
/-- Reads a 256-byte line. -/
def State.lineRead (s : State) (pa key : Nat) : VReg :=
  vregOfBytes (s.sectorRead pa key ++ s.sectorRead (pa + 64) key ++ s.sectorRead (pa + 128) key ++ s.sectorRead (pa + 192) key)
/-- Bytes of a line in one sector. -/
def sectorBytes (x : VReg) (i : Nat) : List Byte := bytesOfNat 64 (elem 512 x i)
/-- Writes the sectors of a line that a list names. -/
def State.lineWrite (s : State) (pa key : Nat) (x : VReg) (l : List Nat) : State :=
  l.foldl (fun s i => s.sectorWrite (pa + 64 * i) key (sectorBytes x i)) s
/-- The bit mask of the bytes that a byte mask names. -/
def spread (m : Mask) : VReg := BitVec.ofNat 2048 (packElems 8 ((List.range 256).map (fun j => if m.getLsbD j then 255 else 0)))
/-- Bytes of `y` under a mask, bytes of `x` elsewhere. -/
def overlay (m : Mask) (x y : VReg) : VReg :=
  let b := spread m
  (x &&& ~~~b) ||| (y &&& b)
/-- The byte mask of a range of a line. -/
def maskRange (lo n : Nat) : Mask := (BitVec.ofNat 256 (2 ^ n - 1)) <<< lo
/-- The sectors that a byte mask touches. -/
def maskSectors (m : Mask) : List Nat := (List.range 4).filter (fun i => m &&& maskRange (64 * i) 64 != 0)

/-! ### Translation (R152 to R158) -/

/-- What a translation gives. -/
inductive Tr where
  | ok (pa key : Nat)
  /-- Held at the slice (R163, R167, R404). -/
  | hold (why : Hold)
  /-- A page fault with its record's kind, level and entry (R158, R159). -/
  | page (kind level : Nat) (pte : Word)
  /-- A cause that ends the access at once. -/
  | trap (cause : Nat) (val : Word)
deriving DecidableEq, Repr

/-- A leaf found by a walk, or what the walk met. -/
inductive Walk where
  | leaf (level addr : Nat) (pte : Word)
  | hold (why : Hold)
  | fault (kind level : Nat) (pte : Word)
deriving DecidableEq, Repr

/-- The index of a VA at a level (R152). -/
def vaIndex (va l : Nat) : Nat := if l = 0 then va / 2 ^ 46 % 1024 else va / 2 ^ (46 - 9 * l) % 512
/-- The bytes that a leaf of a level maps (R152). -/
def pageSize (l : Nat) : Nat := 2 ^ (46 - 9 * l)
/-- The slots of a leaf: 0 for a plain one (R153). -/
def pteSlots (p : Word) : Nat := if bits p 56 55 = 2 then 2 else if bits p 56 55 = 3 then 4 else 0
/-- The physical address of an entry. -/
def ptePa (p : Word) : Nat := bits p 51 12 * 2 ^ 12
/-- A malformed valid entry (R154). -/
def malformed (pkg : Nat) (p : Word) (l : Nat) : Bool :=
  let leaf := p.getLsbD 1
  bits p 54 52 != 0 || bits p 11 8 != 0 || p.getLsbD 2 || bits p 56 55 == 1 ||
  (leaf && l == 0) || (!leaf && l == 3) ||
  (!leaf && (bits p 63 57 != 0 || bits p 56 55 != 0 || bits p 6 3 != 0 || paPkg (ptePa p) != pkg || 2 ≤ paTier (ptePa p))) ||
  (leaf && (p.getLsbD 4 && !p.getLsbD 3)) ||
  (leaf && ptePa p % pageSize l != 0) ||
  (leaf && l == 3 && ptePa p % (max 1 (pteSlots p) * 2 ^ 19) != 0) ||
  (leaf && l != 3 && bits p 56 55 != 0)

/-- How the read of a table entry ends. -/
inductive TableRead where
  | entry (p : Word)
  /-- Its sector is damaged (R158). -/
  | damaged
  /-- Its vault group or channel group is not ready (R404). -/
  | notReady
deriving DecidableEq, Repr

/-- Walks the table from a level with `n` levels left (R158). -/
def walkFrom (rd : Nat → TableRead) (pkg va : Nat) : Nat → Nat → Nat → Walk
  | 0, l, _ => .fault 4 l 0
  | n + 1, l, base =>
    let a := base + 8 * vaIndex va l
    match rd a with
    | .damaged => .fault 8 l 0
    | .notReady => .hold .other
    | .entry p =>
      if !p.getLsbD 0 then (if p.getLsbD 7 then .hold .migrate else .fault 1 l p)
      else if malformed pkg p l then .fault 4 l p
      else if p.getLsbD 1 then .leaf l a p
      else walkFrom rd pkg va n (l + 1) (ptePa p)

/-- Reads an entry of a page table.  DESIGN CHOICE (log 58): an address of this package at which nothing is populated is read as any other memory, since
R154 limits only the tier and the package of a table. -/
def State.tableRead (s : State) (a : Nat) : TableRead :=
  if !s.hub.memReady a then .notReady else if s.badDram.contains (localPa a / 64) then .damaged else .entry (word (s.dramRead a 8))
/-- Walks a tenancy's table.  A root or a next table is read in this package's memory under its local address (log 58). -/
def State.walk (s : State) (tn va : Nat) : Walk :=
  let root := (s.tnEntry tn).1
  if !s.tnReady tn then .hold .other
  else if !root.getLsbD 0 then .fault 1 0 0 else walkFrom s.tableRead s.hub.pkg va 4 0 (bits root 51 13 * 2 ^ 13)

/-- The serving slice of a VA (R156). -/
def sliceOf (va tn : Nat) : Nat :=
  let x := va / 2 ^ 12 % 2 ^ 44
  (x % 2 ^ 16 ^^^ x / 2 ^ 16 % 2 ^ 16 ^^^ x / 2 ^ 32 ^^^ tn % 2 ^ 12) % 288
/-- A slice of a die. -/
def Die.slice (d : Die) (i : Nat) : Slice := (getKey d.slices i).getD Slice.fresh
/-- Changes a slice of a die. -/
def Die.updSlice (d : Die) (i : Nat) (f : Slice → Slice) : Die := { d with slices := setKey d.slices i (f (d.slice i)) }

/-- A shootdown's invalidate holds a VA of a die (R163). -/
def State.shootHolds (s : State) (d tn va : Nat) : Bool :=
  match s.hub.shoot with
  | some x => x.tn == tn && x.op != 2 && x.dies.testBit d && x.lo ≤ va && va < x.hi
  | none => false

/-- The checks on a leaf (R158): `slots` is the slot count of the region of a versioned access.  DESIGN CHOICE (log 58): kind 6 tests the key slot of this
package, also for a leaf whose address lies in another, since R158 names no package. -/
def leafCheck (s : State) (tn va : Nat) (acc : Access) (slots : Option Nat) (l : Nat) (p : Word) : Tr :=
  let te := s.tnEntry tn
  let key := bits p 63 57
  let pa := ptePa p + va % pageSize l
  let mismatch := match slots with
    | none => false
    | some k => pteSlots p != k || paTier (ptePa p) != 0 || paPkg (ptePa p) != s.hub.pkg
  if slots.isNone && bits p 56 55 != 0 then .trap accessFault (word va)
  else if mismatch then .page 4 l p
  else if acc = .read && !p.getLsbD 3 then .page 3 l p
  else if acc ≠ .read && !p.getLsbD 4 then .page 2 l p
  else if key ≠ 0 && !s.tnReady tn then .hold .other
  else if key ≠ 0 && !te.2.1.getLsbD key then .page 5 l p
  else if key ≠ 0 && (s.hub.keyPair key).isNone then .page 6 l p
  else if 2 ≤ paTier pa then .page 7 l p
  else if s.isOwn pa && !paPopulated pa then .page 7 l p
  else .ok pa key
/-- What keeps an access from the address that its walk has given: memory that is not ready (R404), a package that is unavailable (R224), or ports
that are all down (R405).  The slot page of a versioned access is held where the slot is read or written. -/
def paCheck (s : State) (va : Nat) (slots : Option Nat) (pa key : Nat) : Tr :=
  if slots.isNone && s.isOwn pa && !s.hub.memReady pa then .hold .other
  else if !s.isOwn pa && !s.hub.podAvail.contains (paPkg pa) then .trap remoteUnavailable (word va)
  else if !s.isOwn pa && s.hub.allDown.isSome then .hold .other
  else .ok pa key

/-- Sets bits of an entry in memory. -/
def State.setPte (s : State) (a : Nat) (x : Word) : State := s.dramWrite a 8 (word (s.dramRead a 8) ||| x).toNat
/-- The entry of a translation cache for a VA. -/
def Slice.lookup (x : Slice) (tn va : Nat) : Option TlbEntry :=
  x.tlb.find? (fun e => e.tn == tn && e.va == va / pageSize e.level * pageSize e.level)
/-- Translates a VA at its serving slice on a die; A is set at a walk, also of an access that its address then stops (R224), and D at the first
write through the entry (R157, R158). -/
def State.translate (s : State) (d tn va : Nat) (acc : Access) (slots : Option Nat) : State × Tr :=
  if s.shootHolds d tn va then (s, .hold .other)
  else
    let sl := sliceOf va tn
    let use := fun (s : State) (l a : Nat) (p : Word) =>
      match leafCheck s tn va acc slots l p with
      | .ok pa key =>
        let r := paCheck s va slots pa key
        let set : Word := if r = .ok pa key ∧ acc ≠ .read then 0x60 else 0x20
        let p' := p ||| set
        if p' ≠ p && !s.hub.memReady a then (s, .hold .other)
        else
          let s := if p' = p then s else s.setPte a set
          let e : TlbEntry := ⟨tn, va / pageSize l * pageSize l, l, a, p'⟩
          let s := s.updDie d (fun x => x.updSlice sl (fun y =>
            { y with tlb := (e :: y.tlb.filter (fun o => !(o.tn == e.tn && o.va == e.va && o.level == l))).take 512 }))
          (s, r)
      | r => (s, r)
    match ((s.dieAt d).slice sl).lookup tn va with
    | some e => use s e.level e.addr e.pte
    | none =>
      match s.walk tn va with
      | .hold w => (s, .hold w)
      | .fault k l p => (s, .page k l p)
      | .leaf l a p => use s l a p
/-- The leaf of a VA as a slice of a die finds it, without any check (R230: an operation is sent where the leaf's address lies). -/
def State.leafOf (s : State) (d tn va : Nat) : Walk :=
  if s.shootHolds d tn va then .hold .other
  else
    match ((s.dieAt d).slice (sliceOf va tn)).lookup tn va with
    | some e => .leaf e.level e.addr e.pte
    | none => s.walk tn va

/-! ### Compressed images (R176 to R178) -/

/-- The words of width `w` of a sector. -/
def sectorWords (w x : Nat) : List Nat := (List.range (512 / w)).map (fun i => x / 2 ^ (w * i) % 2 ^ w)
/-- The differences of some words of width `w` from the first, as signed numbers. -/
def deltas (w : Nat) (l : List Nat) : List Int := l.map (fun y => intOf w (y + 2 ^ w - l.headD 0))
/-- Every difference fits in `n` signed bits. -/
def deltasFit (w n : Nat) (l : List Nat) : Bool := (deltas w l).all (fun d => decide (-(2 ^ (n - 1) : Int) ≤ d) && decide (d < 2 ^ (n - 1)))
/-- The number of nonzero words of an image of code 7. -/
def nonzeroWords (x : Nat) : Nat := ((sectorWords 32 x).filter (· != 0)).length
/-- The code that BDZ chooses for a sector and its size (R176, R177). -/
def bdz (x : Nat) : Nat × Nat :=
  let w := sectorWords 64 x
  let h := sectorWords 32 x
  let zr := 8 * ((2 + 4 * nonzeroWords x + 7) / 8)
  let cand := (if x = 0 then [(0, 0)] else []) ++ (if w.all (· == w.headD 0) then [(1, 8)] else []) ++
    (if deltasFit 64 8 w then [(2, 16)] else []) ++ (if deltasFit 64 16 w then [(3, 24)] else []) ++
    (if deltasFit 64 32 w then [(4, 40)] else []) ++ (if deltasFit 32 8 h then [(5, 24)] else []) ++
    (if deltasFit 32 16 h then [(6, 40)] else []) ++ [(7, zr), (8, 64)]
  (argMin (fun e => e.2) cand).getD (8, 64)
/-- A base word and the low bits of the differences from it, as an image. -/
def deltaImage (w n : Nat) (l : List Nat) : List Byte :=
  bytesOfNat (w / 8) (l.headD 0) ++ (l.map (fun y => bytesOfNat (n / 8) (y + 2 ^ w - l.headD 0))).flatten
/-- The words that a base and some differences stand for. -/
def deltaWords (w n m : Nat) (img : List Byte) : List Nat :=
  let base := natOfBytes (img.take (w / 8))
  (List.range m).map (fun i => natOfInt w (base + intOf n (natOfBytes ((img.drop (w / 8 + n / 8 * i)).take (n / 8)))))
/-- The number of a sector of words of width `w`. -/
def sectorOf (w : Nat) : List Nat → Nat
  | [] => 0
  | x :: l => x + 2 ^ w * sectorOf w l
/-- The stored image of a sector under a code (R176). -/
def bdzImage (code x : Nat) : List Byte :=
  let w := sectorWords 64 x
  let h := sectorWords 32 x
  match code with
  | 0 => []
  | 1 => bytesOfNat 8 (w.headD 0)
  | 2 => deltaImage 64 8 w
  | 3 => deltaImage 64 16 w
  | 4 => deltaImage 64 32 w
  | 5 => deltaImage 32 8 h ++ bytesOfNat 4 0
  | 6 => deltaImage 32 16 h ++ bytesOfNat 4 0
  | 7 =>
    let img := bytesOfNat 2 (sectorOf 1 (h.map (fun y => if y = 0 then 0 else 1))) ++ ((h.filter (· != 0)).map (bytesOfNat 4)).flatten
    img ++ bytesOfNat ((8 - img.length % 8) % 8) 0
  | _ => bytesOfNat 64 x
/-- The words of an image of code 7: `map` tells which of the next `n` are stored. -/
def zrWords : Nat → Nat → List Byte → List Nat
  | 0, _, _ => []
  | n + 1, map, img => if map % 2 = 1 then natOfBytes (img.take 4) :: zrWords n (map / 2) (img.drop 4) else 0 :: zrWords n (map / 2) img
/-- The sector that an image of a code stands for (R176). -/
def bdzExpand (code : Nat) (img : List Byte) : Nat :=
  match code with
  | 0 => 0
  | 1 => sectorOf 64 (List.replicate 8 (natOfBytes (img.take 8)))
  | 2 => sectorOf 64 (deltaWords 64 8 8 img)
  | 3 => sectorOf 64 (deltaWords 64 16 8 img)
  | 4 => sectorOf 64 (deltaWords 64 32 8 img)
  | 5 => sectorOf 32 (deltaWords 32 8 16 img)
  | 6 => sectorOf 32 (deltaWords 32 16 16 img)
  | 7 => sectorOf 32 (zrWords 16 (natOfBytes (img.take 2)) (img.drop 2))
  | _ => natOfBytes (img.take 64)
/-- The codes of the sectors of a line. -/
def lineCodes (x : VReg) : Vector Nat 4 := Vector.ofFn (fun i : Fin 4 => (bdz (elem 512 x i)).1)
/-- The image of a line: the images of its sectors in order, with zeros up to the end of the last cell (R178). -/
def lineImage (x : VReg) : List Byte :=
  let img := ((List.range 4).map (fun i => bdzImage (bdz (elem 512 x i)).1 (elem 512 x i))).flatten
  img ++ bytesOfNat ((32 - img.length % 32) % 32) 0
/-- The cells of a line's image (R178). -/
def cellsOf (x : VReg) : Nat := (((List.range 4).foldl (fun a i => a + (bdz (elem 512 x i)).2) 0) + 31) / 32

/-! ### Lines and sets of the last-level cache -/

/-- The line number of a VA. -/
def lineOf (va : Nat) : Nat := va / 256
/-- The set of a line in its slice (R174). -/
def llcSet (line : Nat) : Nat := (line / 16 % 16 ^^^ line / 2 ^ 12 % 16) * 16 + line % 16
/-- The slice that serves a line. -/
def sliceOfLine (line tn : Nat) : Nat := sliceOf (line * 256) tn
/-- A resident line. -/
def Die.llcFind (d : Die) (tn line : Nat) : Option LlcLine := d.llc.find? (fun l => l.tn == tn && l.line == line)
/-- A die without a line. -/
def Die.llcDrop (d : Die) (tn line : Nat) : Die := { d with llc := d.llc.filter (fun l => !(l.tn == tn && l.line == line)) }
/-- A line replaced in the die, as the most recently used. -/
def Die.llcPut (d : Die) (l : LlcLine) : Die := { d.llcDrop l.tn l.line with llc := l :: (d.llcDrop l.tn l.line).llc }
/-- The lines of the set of a line, most recently used first. -/
def Die.setOf (d : Die) (tn line : Nat) : List LlcLine :=
  d.llc.filter (fun l => sliceOfLine l.line l.tn == sliceOfLine line tn && llcSet l.line == llcSet line)
/-- Cells that a set uses (R175). -/
def cellsUsed (l : List LlcLine) : Nat := l.foldl (fun a x => a + x.cells.length) 0
/-- A line with the codes of its data and as many cells as their image needs: it keeps cells that it has, and takes the lowest of its set that
no other line uses (R174, R175). -/
def LlcLine.fit (l : LlcLine) (others : List LlcLine) : LlcLine :=
  let n := cellsOf l.data
  let used := l.cells ++ (others.map LlcLine.cells).flatten
  { l with codes := lineCodes l.data, cells := (l.cells ++ (List.range 128).filter (fun i => !used.contains i)).take n }
/-- A line's home is not this die of this package: it is a guest line (R213). -/
def State.isGuest (s : State) (d pa : Nat) : Bool := !(s.isOwn pa && paDie pa == d)
/-- A guest line is stale (R217). -/
def State.isStale (s : State) (d : Nat) (l : LlcLine) : Bool :=
  s.isGuest d l.pa && (if s.isOwn l.pa then l.pkgStamp < (s.dieAt d).pkgEpoch else l.podStamp < (s.dieAt d).podEpoch)
/-- A line under an engine's claim on a die (R225). -/
def Die.claimed (d : Die) (tn line : Nat) : Bool :=
  d.claims.any (fun c => c.tn == tn && max c.lo c.upto < line * 256 + 256 && line * 256 < c.hi)

/-! ### L1 lines (R171) -/

/-- A line of an L1. -/
def Core.l1Find (c : Core) (tn line : Nat) : Option L1Line := c.l1.find? (fun l => l.tn == tn && l.line == line)
/-- An L1 without a line. -/
def Core.l1Drop (c : Core) (tn line : Nat) : Core := { c with l1 := c.l1.filter (fun l => !(l.tn == tn && l.line == line)) }
/-- A line of an L1 replaced, as the most recently used; a line with no sector left is dropped. -/
def Core.l1Put (c : Core) (l : L1Line) : Core :=
  let c := c.l1Drop l.tn l.line
  if (List.range 4).all (fun i => l.sec[i]? == some SecSt.i) then c else { c with l1 := l :: c.l1 }
/-- The state of a sector in an L1. -/
def Core.l1Sec (c : Core) (tn line i : Nat) : SecSt :=
  match c.l1Find tn line with
  | some l => (l.sec[i]?).getD .i
  | none => .i
/-- The thread waits for an answer to its request. -/
def Thread.asking (t : Thread) : Bool := t.parkOf == some .reply && t.progress.ask == .sent
/-- The thread has a request outstanding: it waits for the answer, or its slice holds the request. -/
def Thread.outstanding (t : Thread) : Bool := t.parkOf == some .reply && t.progress.ask != .none
/-- The L1 holds what a request of a thread asks for. -/
def Core.l1Has (c : Core) (tn : Nat) (a : Nat × AskKind) : Bool :=
  let st := c.l1Sec tn (lineOf a.1) (a.1 / 64 % 4)
  if a.2 == .owned then st == .m else st != .i
/-- The lines that requests of a core's L1 ask for: those of its threads, answered or held at their slices, and of prefetches (R171). -/
def Core.askedLines (c : Core) : List (Nat × Nat) :=
  (List.range 16).flatMap (fun t =>
    let x := c.thr t
    let tn := x.ctl.tenancy.toNat
    if x.outstanding then
      (x.progress.asks.filter (fun a => (a.2 == .shared || a.2 == .owned) && (x.asking || !c.l1Has tn a))).map (fun a => (tn, lineOf a.1))
    else []) ++
  c.prefetches.map (fun p => (p.1, lineOf p.2))
/-- The lines of a set that an L1 has given a way to: those it holds, and others that it has asked for. -/
def Core.waysOf (c : Core) (line : Nat) : List (Nat × Nat) :=
  let held := (c.l1.map (fun l => (l.tn, l.line))).filter (fun p => p.2 % 16 == line % 16)
  held ++ (c.askedLines.filter (fun p => p.2 % 16 == line % 16 && !held.contains p)).eraseDups
/-- A request for a line may still be sent: no more lines of a set are asked for than it has ways. -/
def Core.mayAsk (c : Core) (tn line : Nat) : Bool :=
  let asked := (c.askedLines.filter (fun p => p.2 % 16 == line % 16)).eraseDups
  asked.contains (tn, line) || asked.length < 8
/-- The line of the set that R171 replaces: the least recently used one with no request outstanding. -/
def Core.l1Victim (c : Core) (line : Nat) : Option L1Line :=
  let asked := c.askedLines
  (c.l1.filter (fun l => l.line % 16 == line % 16 && !asked.contains (l.tn, l.line))).getLast?
/-- A line has a way in an L1 or can have one. -/
def Core.l1Way (c : Core) (tn line : Nat) : Bool :=
  (c.waysOf line).contains (tn, line) || (c.waysOf line).length < 8 || (c.l1Victim line).isSome
/-- Changes a line of an L1 in place, keeping its rank. -/
def Core.l1Upd (c : Core) (tn line : Nat) (f : L1Line → L1Line) : Core :=
  { c with l1 := (c.l1.map (fun l => if l.tn == tn && l.line == line then f l else l)).filter (fun l =>
      (List.range 4).any (fun i => l.sec[i]? != some SecSt.i)) }

/-! ### Recording regions (R362 to R371) -/

/-- The open regions of a die that cover a line: those of one launch do not overlap, but those of two launches of a tenancy may (R362). -/
def Die.openRegions (d : Die) (tn line : Nat) : List RrRegion :=
  d.regions.filter (fun r => r.opened && r.tn == tn && r.base ≤ line * 256 && line * 256 < r.base + r.rword.toNat % 2 ^ 32)
/-- Changes a region of a die. -/
def Die.updRegion (d : Die) (num : Nat) (f : RrRegion → RrRegion) : Die :=
  { d with regions := d.regions.map (fun r => if r.num = num then f r else r) }
/-- A store count is one of a core on a line. -/
def StoreCount.isOn (k : StoreCount) (core tn line : Nat) : Bool := k.core == core && k.tn == tn && k.line == line
/-- The store count of a core on a line of a region (R365). -/
def Die.storeCount (d : Die) (core region tn line : Nat) : Nat :=
  ((d.counts.find? (fun k => k.region == region && k.isOn core tn line)).map (·.n)).getD 0
/-- Adds to the store count, saturating at 255. -/
def Die.addStores (d : Die) (core region tn line n : Nat) : Die :=
  let k := min 255 (d.storeCount core region tn line + n)
  { d with counts := ⟨core, region, tn, line, k⟩ :: d.counts.filter (fun k => !(k.region == region && k.isOn core tn line)) }
/-- Copies that regions pushed are lost before their first use (R370, R371); on a line whose part in the iteration has ended that is no departure
(R365). -/
def Die.wastePush (d : Die) (line : Nat) (pushed : List (Nat × Nat)) : Die :=
  pushed.foldl (fun (d : Die) p => d.updRegion p.2 (fun r =>
    if !r.opened then r
    else { r with wasted := r.wasted + 1, departNow := if r.spoiled.contains line then r.departNow else r.departNow + 1 })) d
/-- A transfer from a producer to a consumer, for each open region of the line (R366, R371). -/
def Die.noteTransfer (d : Die) (tn line sec producer consumer : Nat) : Die :=
  (d.openRegions tn line).foldl (fun (d : Die) r =>
    let n := d.storeCount producer r.num tn line
    if n = 0 || r.spoiled.contains line then d
    else
      match r.mode with
      | .demand => d
      | .replay => d.updRegion r.num (fun r => { r with unrec := r.unrec + 1, departNow := r.departNow + 1 })
      | .armed =>
        let sl := sliceOfLine line tn
        let t := (d.slice sl).recTable
        let same := fun (e : RecEntry) => e.region == r.num && e.tn == tn && e.line == line && e.producer == producer &&
          e.consumer == consumer && e.ordinal == n
        if t.any same then
          (d.updSlice sl (fun y => { y with recTable := t.map (fun e => if same e then { e with smask := e.smask ||| 2 ^ sec } else e) })).updRegion
            r.num (fun r => { r with recorded := r.recorded + 1 })
        else if t.length < 256 then
          (d.updSlice sl (fun y => { y with recTable := t ++ [⟨r.num, r.lnum, tn, line, 2 ^ sec, producer, consumer, n⟩] })).updRegion
            r.num (fun r => { r with recorded := r.recorded + 1 })
        else d.updRegion r.num (fun r => { r with overflow := r.overflow + 1, lost := true })) d
/-- An engine write, an atomic or a scatter element ends a line's part in the open iteration (R365). -/
def Die.spoil (d : Die) (tn line : Nat) : Die :=
  (d.openRegions tn line).foldl (fun (d : Die) r => d.updRegion r.num (fun r => { r with spoiled := line :: r.spoiled.filter (· ≠ line) })) d

/-! ### Dropping L1 copies and merging them (R173, R179, R180) -/

/-- The cores of a die whose state is listed. -/
def State.coresOn (s : State) (d : Nat) : List Nat := (s.cores.map (·.1)).filter (fun c => dieOf c == d)
/-- A line that an invalidation has dropped from an L1 loses its store count (R374). -/
def State.dropCount (s : State) (c tn line : Nat) : State :=
  if ((s.coreAt c).l1Find tn line).isSome || !(s.dieAt (dieOf c)).counts.any (fun k => k.isOn c tn line) then s
  else s.updDie (dieOf c) (fun d => { d with counts := d.counts.filter (fun k => !k.isOn c tn line) })
/-- A pushed copy of a sector that no thread has used is wasted, and is a pushed copy no longer (R370). -/
def State.losePush (s : State) (c tn line i : Nat) : State :=
  let lost := ((((s.coreAt c).l1Find tn line).map (·.pushed)).getD []).filter (fun p => p.1 == i)
  if lost.isEmpty then s
  else
    (s.updCore c (fun k => k.l1Upd tn line (fun x => { x with pushed := x.pushed.filter (fun p => p.1 != i) }))).updDie (dieOf c)
      (fun d => d.wastePush line lost)
/-- A sector leaves an L1 by an invalidation; a pushed copy not yet used is wasted. -/
def State.l1Invalidate (s : State) (c tn line i : Nat) : State :=
  match (s.coreAt c).l1Find tn line with
  | none => s
  | some _ =>
    ((s.losePush c tn line i).updCore c (fun k => k.l1Upd tn line (fun x => { x with
      sec := x.sec.setIfInBounds i .i, wrote := x.wrote &&& ~~~maskRange (64 * i) 64 }))).dropCount c tn line

/-- A line with the bytes of another value merged under a mask (R179, R214). -/
def LlcLine.merge (l : LlcLine) (guest : Bool) (m : Mask) (x : VReg) : LlcLine :=
  { l with data := overlay m l.data x,
           dirty := ((List.range 4).filter (fun i => l.dirty.contains i || (maskSectors m).contains i)),
           mask := if guest then l.mask ||| m else 0 }
/-- The data and the byte mask that an L1's M sector brings home: the whole sector, or for a guest line the bytes written (R214). -/
def wbMask (guest : Bool) (l : L1Line) (i : Nat) : Mask :=
  let m := maskRange (64 * i) 64
  if guest then l.wrote &&& m else m

/-- Takes back the M sectors of a line from their owners into a plain value, without counting expansions (R180): `keep` leaves them in S. -/
def State.recallInto (s : State) (d : Nat) (l : LlcLine) (keep : Bool) : State × LlcLine :=
  let guest := s.isGuest d l.pa
  (List.range 4).foldl (fun (p : State × LlcLine) i =>
    match (p.2.owner[i]?).join with
    | none => p
    | some o =>
      match (p.1.coreAt o).l1Find l.tn l.line with
      | none => (p.1, { p.2 with owner := p.2.owner.setIfInBounds i none })
      | some k =>
        let m := wbMask guest k i
        let line := { (if m = 0 then p.2 else p.2.merge guest m k.data) with owner := p.2.owner.setIfInBounds i none }
        if keep then
          (p.1.updCore o (fun c => c.l1Upd l.tn l.line (fun x => { x with
            sec := x.sec.setIfInBounds i .s, wrote := x.wrote &&& ~~~maskRange (64 * i) 64 })),
           { line with sharers := line.sharers.setIfInBounds i [o] })
        else (p.1.l1Invalidate o l.tn l.line i, line)) (s, l)
/-- Invalidates every L1 copy of some sectors of a line on a die. -/
def State.dropCopies (s : State) (d tn line : Nat) (secs : List Nat) : State :=
  (s.coresOn d).foldl (fun s c => secs.foldl (fun s i => s.l1Invalidate c tn line i) s) s
/-- The line without sharers in some sectors. -/
def LlcLine.clearDir (l : LlcLine) (secs : List Nat) : LlcLine :=
  secs.foldl (fun l i => { l with
    owner := l.owner.setIfInBounds i none, sharers := l.sharers.setIfInBounds i [], overflow := l.overflow.setIfInBounds i false }) l

/-! ### Write-backs to the home (R180, R188, R214) -/

/-- Merges bytes at the home slice of a guest line: copies on the home die go first; a resident line takes the bytes, and otherwise they go
to memory.  Expansions at the home follow in `llcWrite`, which this definition precedes: `grow` stores the merged line. -/
def State.homeMerge (s : State) (grow : State → Nat → LlcLine → LlcLine → State) (tn line pa key : Nat) (m : Mask) (x : VReg) : State :=
  let mem := fun (s : State) => s.lineWrite pa key (overlay m (s.lineRead pa key) x) (maskSectors m)
  if !s.isOwn pa then mem s
  else
    let h := paDie pa
    match (s.dieAt h).llcFind tn line with
    | none => mem s
    | some l =>
      let r := s.recallInto h l false
      let secs := maskSectors m
      let s := r.1.dropCopies h tn line secs
      grow s h l ((r.2.clearDir secs).merge false m x)
/-- What a die writes back to the home of a line has to wait: for a claim there (R226), for the memory it goes to, or for a port to another package
(R404). -/
def State.wbHeld (s : State) (d : Nat) (l : LlcLine) : Bool :=
  let memory := !s.hub.memReady l.pa
  if !s.isOwn l.pa then s.hub.allDown.isSome
  else if paDie l.pa = d then memory
  else (s.dieAt (paDie l.pa)).claimed l.tn l.line || (memory && ((s.dieAt (paDie l.pa)).llcFind l.tn l.line).isNone)
/-- A line of a die has dirty data to write home: sectors of a home line, bytes of a guest line. -/
def State.dirtyHere (s : State) (d : Nat) (l : LlcLine) : Bool := if s.isGuest d l.pa then l.mask != 0 else !l.dirty.isEmpty
/-- Writes a line's dirty data home as it leaves or is cleaned, where it may have to wait: a home line to memory, a guest line to its home slice. -/
def State.writeHome (s : State) (grow : State → Nat → LlcLine → LlcLine → State) (d : Nat) (l : LlcLine) : State :=
  if !s.dirtyHere d l then s
  else if s.wbHeld d l then { s with jam := true }
  else if s.isGuest d l.pa then s.homeMerge grow l.tn l.line l.pa l.key l.mask l.data
  else s.lineWrite l.pa l.key l.data l.dirty
/-- Evicts a line (R180): every L1 copy goes, M sectors first into the line, and dirty data go home. -/
def State.evict (s : State) (grow : State → Nat → LlcLine → LlcLine → State) (d tn line : Nat) : State :=
  match (s.dieAt d).llcFind tn line with
  | none => s
  | some l =>
    let r := s.recallInto d l false
    let s := r.1.dropCopies d tn line [0, 1, 2, 3]
    let s := s.updDie d (fun x => x.llcDrop tn line)
    s.writeHome grow d r.2
/-- A request of a miss register is still there: its thread waits for it, not for the release of a migrating leaf, or its reduction is still posted. -/
def State.reqLive (s : State) (q : MissReq) : Bool :=
  if q.kind == .posted then s.reds.any (fun r => r.core == q.core && r.tid == q.tid && r.va == q.va && r.note.isNone)
  else
    let t := (s.coreAt q.core).thr q.tid
    t.outstanding && t.progress.asks.contains (q.va, q.kind) && !t.progress.held.contains q.va
/-- A live request is attached to a miss register of a line (R184). -/
def State.missLive (s : State) (d tn line : Nat) : Bool :=
  ((s.dieAt d).slice (sliceOfLine line tn)).misses.any (fun m => m.tn == tn && m.line == line && m.reqs.any s.reqLive)
/-- The miss registers of the slice of a line that hold a live request. -/
def State.missesLive (s : State) (d tn line : Nat) : Nat :=
  (((s.dieAt d).slice (sliceOfLine line tn)).misses.filter (fun m => m.reqs.any s.reqLive)).length
/-- The victim of a set: its least recently used line, other than a given one, lines with a fill in their miss register and lines under a claim
(R179, R181). -/
def State.victim (s : State) (d tn line : Nat) : Option LlcLine :=
  (((s.dieAt d).setOf tn line).filter (fun l =>
    !(l.tn == tn && l.line == line) && !(s.dieAt d).claimed l.tn l.line && !s.missLive d l.tn l.line)).getLast?
/-- Frees cells of a set until as many as a line needs are free besides its own, at most `n` evictions; counts them when they serve an
expansion.  An eviction may change what the line holds, and with it the need.  With no line that may leave, the write or fill has to wait. -/
def State.makeRoom (s : State) (grow : State → Nat → LlcLine → LlcLine → State) (d tn line : Nat) (need : State → Nat) (tag exp : Bool) : Nat → State
  | 0 => s
  | n + 1 =>
    let others := ((s.dieAt d).setOf tn line).filter (fun l => !(l.tn == tn && l.line == line))
    if cellsUsed others + need s ≤ 128 && (!tag || others.length < 32) then s
    else
      match s.victim d tn line with
      | none => { s with jam := true }
      | some v =>
        let s := s.evict grow d v.tn v.line
        let s := if exp then s.updDie d (fun x => x.updSlice (sliceOfLine line tn) (fun y => { y with expevict := y.expevict + 1 })) else s
        s.makeRoom grow d tn line need tag exp n
/-- A line placed in its set with its codes and cells. -/
def Die.llcPlace (d : Die) (l : LlcLine) : Die :=
  d.llcPut (l.fit ((d.setOf l.tn l.line).filter (fun x => !(x.tn == l.tn && x.line == l.line))))
/-- What a resident line holds. -/
def Die.lineData (d : Die) (tn line : Nat) : VReg := ((d.llcFind tn line).map (·.data)).getD 0
/-- Stores a written line (R179): a growing image is an expansion and may evict; `n` bounds how far a guest eviction's merge at its home may cascade
to evictions there.  Each of them takes a line away, so that the number of resident lines is bound enough.  The line holds the written value
before it has its cells, so that a merge which such an eviction brings home stands in it as a later write (R180). -/
def State.llcStore : Nat → State → Nat → LlcLine → LlcLine → State
  | 0, s, d, old, new => if cellsOf new.data ≤ old.cells.length then s.updDie d (fun x => x.llcPlace new) else { s with jam := true }
  | n + 1, s, d, old, new =>
    let c' := cellsOf new.data
    if c' ≤ old.cells.length then s.updDie d (fun x => x.llcPlace new)
    else
      let s := s.updDie d (fun x => (x.llcPut { new with cells := old.cells }).updSlice (sliceOfLine new.line new.tn) (fun y =>
        { y with expansions := y.expansions + 1 }))
      let s := s.makeRoom (State.llcStore n) d new.tn new.line (fun s => cellsOf ((s.dieAt d).lineData new.tn new.line)) false true 32
      match (s.dieAt d).llcFind new.tn new.line with
      | some l => s.updDie d (fun x => x.llcPlace l)
      | none => { s with jam := true }
/-- The number of lines that are resident on any die, and one more. -/
def State.lineCount (s : State) : Nat := s.dies.foldl (fun n e => n + e.2.llc.length) 1
/-- Stores a written line of a die (R179). -/
def State.llcWrite (s : State) (d : Nat) (old new : LlcLine) : State := State.llcStore s.lineCount s d old new

/-! ### Serving a line (R170, R181, R184) -/

/-- The answer of a slice. -/
inductive Ans where
  | ok
  | hold (why : Hold)
  | page (kind level : Nat) (pte : Word)
  | trap (cause : Nat) (val : Word)
deriving DecidableEq, Repr

/-- A request that meets a line that cannot leave a full set, or a way of an L1 that cannot be replaced, waits: nothing of it has happened (R171,
R179, R181). -/
def settle {α : Type} (s : State) (r : State × Ans × α) (x : α) : State × Ans × α := if r.1.jam then (s, .hold .other, x) else r
/-- A request without data that has to wait. -/
def settled (s : State) (r : State × Ans) : State × Ans := if r.1.jam then (s, .hold .other) else r
/-- What an event does, unless it has to wait. -/
def State.unlessJam (s : State) (s' : State) : State := if s'.jam then s else s'
/-- The answer of a failed translation. -/
def Tr.ans : Tr → Ans
  | .ok _ _ => .ok
  | .hold w => .hold w
  | .page k l p => .page k l p
  | .trap c v => .trap c v

/-- A home of this package is there for what another package sends it: a port is up, it is populated and ready, and no claim holds the line (R226,
R404). -/
def State.farHome (s : State) (tn va pa : Nat) : Bool :=
  s.hub.allDown.isNone && s.isOwn pa && paPopulated pa && s.hub.memReady pa && !(s.dieAt (paDie pa)).claimed tn (lineOf va)

/-- The home die's line takes its M copies back before it is read for another die; the answer says whether what is read is damaged (R213). -/
def State.homeRecall (s : State) (tn line pa : Nat) : State × Bool :=
  if !s.isOwn pa then (s, false)
  else
    match (s.dieAt (paDie pa)).llcFind tn line with
    | none => (s, s.lineBad pa)
    | some l =>
      let r := s.recallInto (paDie pa) l true
      (r.1.llcWrite (paDie pa) l r.2, r.2.bad)
/-- What the home of a line holds: the home die's line, or memory. -/
def State.homeData (s : State) (tn line pa key : Nat) : VReg :=
  match (if s.isOwn pa then (s.dieAt (paDie pa)).llcFind tn line else none) with
  | some l => l.data
  | none => s.lineRead pa key

/-- The request is a read. -/
def MissReq.reads (q : MissReq) : Bool := q.kind == .shared || q.kind == .word
/-- What a fill lets happen for a request: one answer for a thread, and each reduction by itself. -/
def grantTo (line : Nat) (l : List Grant) (q : MissReq) : List Grant :=
  if q.kind == .posted then l ++ [.posted q.core q.tid q.va]
  else if l.contains (.thread q.core q.tid line) then l else l ++ [.thread q.core q.tid line]
/-- The fill of a line has ended: its miss register is free, and the requests attached to it are served, reads first and then the others in order of
arrival (R184); when the register was the last one of its slice, what waits for one looks again. -/
def State.answerMiss (s : State) (d tn line : Nat) : State :=
  let sl := sliceOfLine line tn
  match ((s.dieAt d).slice sl).misses.find? (fun m => m.tn == tn && m.line == line) with
  | none => s
  | some m =>
    let full := decide (64 ≤ s.missesLive d tn line)
    let s := s.updDie d (fun x => x.updSlice sl (fun y => { y with misses := y.misses.filter (fun o => !(o.tn == tn && o.line == line)) }))
    let s := { s with granted := (m.reqs.filter MissReq.reads ++ m.reqs.filter (fun q => !q.reads)).foldl (grantTo line) s.granted }
    if full then { s with granted := s.granted ++ [.retry] } else s
/-- A line as its fill brings it, before it has cells. -/
def Die.newLine (d : Die) (tn line pa key : Nat) (x : VReg) : LlcLine :=
  { tn := tn, line := line, pa := pa, key := key, data := x, codes := Vector.replicate 4 0, cells := [], dirty := [], owner := Vector.replicate 4 none,
    sharers := Vector.replicate 4 [], overflow := Vector.replicate 4 false, mask := 0, pkgStamp := d.pkgEpoch, podStamp := d.podEpoch, bad := false }
/-- A line is not resident on a die, or only as a stale guest line. -/
def State.lineAbsent (s : State) (d tn line : Nat) : Bool :=
  match (s.dieAt d).llcFind tn line with
  | none => true
  | some l => s.isStale d l
/-- A line has a miss register at its slice, or can have one of the 64 (R184). -/
def State.missRoom (s : State) (d tn line : Nat) : Bool := s.missLive d tn line || decide (s.missesLive d tn line < 64)
/-- Fills a line on a die from an address of its home (R170, R181, R213), whose data are taken once there is room, after every merge that making room
brings home (R180).  DESIGN CHOICE (log 58): a guest line's fill for a thread waits for a claim at the line's home, which R226 says of the access
and not of its fill; an engine's does not wait, since its reads carry no claim and R226 holds none of them (R227). -/
def State.fillFrom (s : State) (d tn line va pa key : Nat) (engine : Bool := false) : State × Ans :=
  if !engine && s.isGuest d pa && s.isOwn pa && (s.dieAt (paDie pa)).claimed tn line then (s, .hold .other)
  else
    let r := if s.isGuest d pa then s.homeRecall tn line pa else (s, s.lineBad pa)
    let s := r.1
    if r.2 then (s.answerMiss d tn line, .trap dataError (word va))
    else
      let s := s.makeRoom (State.llcStore s.lineCount) d tn line (fun s => cellsOf (s.homeData tn line pa key)) true false 33
      let l := (s.dieAt d).newLine tn line pa key (s.homeData tn line pa key)
      ((s.updDie d (fun x => (x.llcPlace l).updSlice (sliceOfLine line tn) (fun y => { y with fills := y.fills + 1 }))).answerMiss d tn line, .ok)
/-- Fills a line on a die, after its leaf has been checked for an access; the fill waits while no miss register is free (R184). -/
def State.fillLine (s : State) (d tn line va : Nat) (acc : Access) (engine : Bool := false) : State × Ans :=
  match s.translate d tn va acc none with
  | (s, .ok pa key) => if s.missRoom d tn line then s.fillFrom d tn line va (pa / 256 * 256) key engine else (s, .hold .other)
  | (s, .hold w) => (s, .hold w)
  | (s, r) => (s.answerMiss d tn line, r.ans)
/-- Makes a line resident on a die and most recently used, for an access that may be checked against its leaf (R157, R170, R217): a stale
guest line is written back, dropped and filled again. -/
def State.ensureLine (s : State) (d tn line va : Nat) (acc : Access) (engine : Bool := false) : State × Ans :=
  match (s.dieAt d).llcFind tn line with
  | none => s.fillLine d tn line va acc engine
  | some l =>
    if l.bad then (s, .trap dataError (word va))
    else if s.isStale d l then
      (s.evict (State.llcStore s.lineCount) d tn line).fillLine d tn line va acc engine
    else if acc = .read then (s.updDie d (fun x => x.llcPut l), .ok)
    else
      match s.translate d tn va acc none with
      | (s, .ok _ _) => (s.updDie d (fun x => x.llcPut l), .ok)
      | (s, r) => (s, r.ans)

/-! ### Miss registers (R184) -/

/-- The walk of a prefetch or a push, which a line that is resident needs none of: the state, in which the walk may have set A, and whether it gives
an address that can be read (R158). -/
def State.fetchWalk (s : State) (d tn va : Nat) : State × Bool :=
  if s.lineAbsent d tn (lineOf va) then
    match s.translate d tn va .read none with
    | (s', .ok _ _) => (s', true)
    | (s', _) => (s', false)
  else (s, true)
/-- A request of a parked thread, or a posted reduction, reaches its slice on a die: one for a line that is absent attaches to the line's miss register, which counts as a merge,
or takes a free register; the answer is false while all 64 are busy. -/
def State.attach (s : State) (d : Nat) (r : MissReq) (tn : Nat) : State × Bool :=
  let line := lineOf r.va
  if !s.lineAbsent d tn line then (s, true)
  else
    let sl := sliceOfLine line tn
    let live := (((s.dieAt d).slice sl).misses.map (fun m => { m with reqs := m.reqs.filter s.reqLive })).filter (fun m => !m.reqs.isEmpty)
    let set := fun (l : List Miss) (n : Nat) => s.updDie d (fun x => x.updSlice sl (fun y => { y with misses := l, merges := y.merges + n }))
    match live.find? (fun m => m.tn == tn && m.line == line) with
    | some m =>
      if m.reqs.contains r && r.kind != .posted then (set live 0, true)
      else (set (live.map (fun o => if o = m then { m with reqs := m.reqs ++ [r] } else o)) 1, true)
    | none => if live.length < 64 then (set (live ++ [⟨tn, line, [r]⟩]) 0, true) else (set live 0, false)
/-- The die to whose slice a request of a core goes. -/
def askDie (core : Nat) (k : AskKind) : Nat :=
  match k with
  | .far d => d
  | .shared | .owned | .word | .update | .posted | .lane => dieOf core
/-- All requests of a parked thread reach their slices; the answer says whether each has what it needs.  A versioned line takes no miss register, since
its home slice reads it in its slot (log 42). -/
def State.attachAll (s : State) (core tid : Nat) : State × Bool :=
  let t := (s.coreAt core).thr tid
  t.progress.asks.foldl (fun (p : State × Bool) a =>
    if a.2 = .lane then p
    else
      let r := p.1.attach (askDie core a.2) ⟨core, tid, a.1, a.2⟩ t.ctl.tenancy.toNat
      (r.1, p.2 && r.2)) (s, true)
/-- The fill of a line answers a thread, or performs a posted reduction of it, at once, or after others: every attached read is answered first, and
then the others in order of arrival (R184). -/
def State.inTurn (s : State) (d core tid tn line : Nat) (posted : Bool) : Bool :=
  match ((s.dieAt d).slice (sliceOfLine line tn)).misses.find? (fun m => m.tn == tn && m.line == line) with
  | none => true
  | some m =>
    let live := m.reqs.filter s.reqLive
    let reads := live.filter MissReq.reads
    let mine := fun (q : MissReq) => q.core == core && q.tid == tid && (q.kind == .posted) == posted
    if reads.isEmpty then live.head?.all mine else reads.any mine
/-- It is a thread's turn at the line of a request of its own. -/
def State.askInTurn (s : State) (core tid tn : Nat) (a : Nat × AskKind) : Bool :=
  a.2 == .lane || s.inTurn (askDie core a.2) core tid tn (lineOf a.1) false
/-- An engine's, prefetch's or push's request for a line whose fill is outstanding attaches to its register (R184). -/
def State.noteMerge (s : State) (d tn line : Nat) : State :=
  if s.missLive d tn line then s.updDie d (fun x => x.updSlice (sliceOfLine line tn) (fun y => { y with merges := y.merges + 1 })) else s

/-! ### Directory requests (R173) -/

/-- Takes a sector back from an M owner other than the requesting core, noting the transfer to it (R366); a request that no core makes for
its L1 is no transfer.  `keep` leaves the owner in S. -/
def State.recallSector (s : State) (d tn line i : Nat) (by_ : Option Nat) (keep : Bool) : State :=
  match (s.dieAt d).llcFind tn line with
  | none => s
  | some l =>
    match (l.owner[i]?).join with
    | none => s
    | some o =>
      if by_ = some o then s
      else
        match (s.coreAt o).l1Find tn line with
        | none => s.updDie d (fun x => x.llcPut { l with owner := l.owner.setIfInBounds i none })
        | some k =>
          let guest := s.isGuest d l.pa
          let m := wbMask guest k i
          let s := match by_ with
            | some c => s.updDie d (fun x => x.noteTransfer tn line i o c)
            | none => s
          let new := { (if m = 0 then l else l.merge guest m k.data) with
            owner := l.owner.setIfInBounds i none, sharers := l.sharers.setIfInBounds i (if keep then [o] else []) }
          let s := if keep then s.updCore o (fun q => q.l1Upd tn line (fun x => { x with
              sec := x.sec.setIfInBounds i .s, wrote := x.wrote &&& ~~~maskRange (64 * i) 64 }))
            else s.l1Invalidate o tn line i
          s.llcWrite d l new
/-- Invalidates the S copies of a sector but the one of the requesting core. -/
def State.dropSharers (s : State) (d tn line i : Nat) (by_ : Option Nat) : State :=
  let s := ((s.coresOn d).filter (fun c => by_ ≠ some c)).foldl (fun s k => s.l1Invalidate k tn line i) s
  s.updDie d (fun x => match x.llcFind tn line with
    | some l => x.llcPut { l with sharers := l.sharers.setIfInBounds i [], overflow := l.overflow.setIfInBounds i false }
    | none => x)
/-- The sectors of an L1 line that is replaced go back to their slice: M ones are written back, S ones dropped (R171, R173). -/
def State.l1Evict (s : State) (c : Nat) (k : L1Line) : State :=
  let d := dieOf c
  let s := (List.range 4).foldl (fun (s : State) i =>
    if (s.coreAt c).l1Sec k.tn k.line i = .m then
      match (s.dieAt d).llcFind k.tn k.line with
      | some l =>
        let guest := s.isGuest d l.pa
        let m := wbMask guest k i
        s.llcWrite d l { (if m = 0 then l else l.merge guest m k.data) with owner := l.owner.setIfInBounds i none }
      | none => s
    else s) s
  let s := s.updCore c (·.l1Drop k.tn k.line)
  if k.pushed.isEmpty then s else s.updDie d (fun x => x.wastePush k.line k.pushed)
/-- Gives a line a way of its L1 set (R171): a free one, or that of the line which is replaced; with neither, the request waits. -/
def State.l1Room (s : State) (c tn line : Nat) : State :=
  let k := s.coreAt c
  if (k.l1Find tn line).isSome then s
  else if ((k.waysOf line).filter (· ≠ (tn, line))).length < 8 then s
  else
    match k.l1Victim line with
    | some v => s.l1Evict c v
    | none => { s with jam := true }
/-- Makes a line resident on a core's die and gives it a way of the core's L1; the line that it replaces there is written back first. -/
def State.lineFor (s : State) (c tn line va : Nat) (acc : Access) : State × Ans :=
  match s.ensureLine (dieOf c) tn line va acc with
  | (_, .ok) => (s.l1Room c tn line).ensureLine (dieOf c) tn line va acc
  | r => r
/-- Installs a sector of a resident line, which has a way, in an L1. -/
def State.l1Install (s : State) (c tn line i : Nat) (st : SecSt) : State :=
  match (s.dieAt (dieOf c)).llcFind tn line with
  | none => s
  | some l =>
    s.updCore c (fun k =>
      let old := (k.l1Find tn line).getD ⟨tn, line, Vector.replicate 4 .i, 0, 0, []⟩
      let had := (old.sec[i]?) != some SecSt.i
      k.l1Put { old with sec := old.sec.setIfInBounds i st, data := if had then old.data else overlay (maskRange (64 * i) 64) old.data l.data })

/-- The directory records a reader of a sector; a fifth sets the overflow flag (R173). -/
def LlcLine.addSharer (l : LlcLine) (i c : Nat) : LlcLine :=
  let sh := (l.sharers[i]?).getD []
  if sh.contains c then l
  else if sh.length < 4 then { l with sharers := l.sharers.setIfInBounds i (sh ++ [c]) }
  else { l with overflow := l.overflow.setIfInBounds i true }
/-- Changes a resident line in place of its directory, as the most recently used. -/
def Die.llcUpd (d : Die) (tn line : Nat) (f : LlcLine → LlcLine) : Die :=
  match d.llcFind tn line with
  | some l => d.llcPut (f l)
  | none => d
/-- A read request of a core for a sector (R173): it ends with the sector in S in its L1, or in M if the core owns it already. -/
def State.readRequest (s : State) (c tn va : Nat) : State × Ans :=
  let d := dieOf c
  let line := lineOf va
  let i := va / 64 % 4
  if (s.dieAt d).claimed tn line then (s, .hold .other)
  else
    settled s (match s.lineFor c tn line va .read with
      | (s, .ok) =>
        if (s.coreAt c).l1Sec tn line i = .m then (s, .ok)
        else
          let s := s.recallSector d tn line i (some c) true
          let s := s.updDie d (fun x => x.llcUpd tn line (fun l => l.addSharer i c))
          (s.l1Install c tn line i .s, .ok)
      | r => r)
/-- An ownership request of a core for a sector (R173): it ends with the sector in M in its L1. -/
def State.ownRequest (s : State) (c tn va : Nat) : State × Ans :=
  let d := dieOf c
  let line := lineOf va
  let i := va / 64 % 4
  if (s.dieAt d).claimed tn line then (s, .hold .other)
  else
    settled s (match s.lineFor c tn line va .write with
      | (s, .ok) =>
        let s := s.recallSector d tn line i (some c) false
        -- the requester's own copy, if a push brought it, is invalidated by the store as any other (R369)
        let s := (s.dropSharers d tn line i (some c)).losePush c tn line i
        let s := s.updDie d (fun x => x.llcUpd tn line (fun l => { l with owner := l.owner.setIfInBounds i (some c) }))
        (s.l1Install c tn line i .m, .ok)
      | r => r)

/-- The L1 holds a sector in a sufficient state, on a line that is not stale (R172, R217). -/
def State.l1Hit (s : State) (c tn va : Nat) (write : Bool) : Bool :=
  let st := (s.coreAt c).l1Sec tn (lineOf va) (va / 64 % 4)
  let fresh := match (s.dieAt (dieOf c)).llcFind tn (lineOf va) with
    | some l => !s.isStale (dieOf c) l
    | none => false
  fresh && (if write then st == .m else st != .i)
/-- Obtains a sector in the L1 (R172). -/
def State.obtain (s : State) (c tn va : Nat) (write : Bool) : State × Ans :=
  if s.l1Hit c tn va write then (s, .ok) else if write then s.ownRequest c tn va else s.readRequest c tn va

/-- The first read that hits a pushed copy uses it (R370). -/
def State.usePush (s : State) (c tn va : Nat) : State :=
  let i := va / 64 % 4
  match (s.coreAt c).l1Find tn (lineOf va) with
  | some l =>
    match l.pushed.find? (fun p => p.1 == i) with
    | some p =>
      let s := s.updCore c (fun k => k.l1Upd tn (lineOf va) (fun x => { x with pushed := x.pushed.filter (fun p => p.1 != i) }))
      s.updDie (dieOf c) (fun d => d.updRegion p.2 (fun r => if r.opened then { r with used := r.used + 1 } else r))
    | none => s
  | none => s
/-- Reads bytes of one sector from the L1; the line becomes the most recently used. -/
def State.l1Read (s : State) (c tn va n : Nat) : State × Nat :=
  let s := s.usePush c tn va
  match (s.coreAt c).l1Find tn (lineOf va) with
  | some l => (s.updCore c (·.l1Put l), l.data.toNat / 2 ^ (8 * (va % 256)) % 2 ^ (8 * n))
  | none => (s, 0)
/-- Writes bytes under a mask into sectors that the L1 holds in M. -/
def State.l1Write (s : State) (c tn line : Nat) (m : Mask) (x : VReg) : State :=
  s.updCore c (fun k => match k.l1Find tn line with
    | some l => k.l1Put { l with data := overlay m l.data x, wrote := l.wrote ||| m }
    | none => k)
/-- A register image with `n` bytes of a number at an offset. -/
def placeAt (off n x : Nat) : VReg := BitVec.ofNat 2048 (x % 2 ^ (8 * n) * 2 ^ (8 * off))

/-! ### Accesses that go to a slice directly: word requests, atomics, engines (R193, R225 to R228, R233) -/

/-- Takes back and invalidates every copy of a sector on a die. -/
def State.clearSector (s : State) (d tn line i : Nat) : State := (s.recallSector d tn line i none false).dropSharers d tn line i none
/-- A read of bytes of one sector at a slice, after any M copy is taken back (R193); `engine` ignores claims. -/
def State.sliceRead (s : State) (d tn va n : Nat) (engine : Bool) : State × Ans × Nat :=
  let line := lineOf va
  if !engine && (s.dieAt d).claimed tn line then (s, .hold .other, 0)
  else
    settle s (match (if engine then s.noteMerge d tn line else s).ensureLine d tn line va .read engine with
      | (s, .ok) =>
        let s := s.recallSector d tn line (va / 64 % 4) none true
        let x := match (s.dieAt d).llcFind tn line with | some l => l.data.toNat | none => 0
        (s, .ok, x / 2 ^ (8 * (va % 256)) % 2 ^ (8 * n))
      | (s, a) => (s, a, 0)) 0
/-- A write of bytes under a mask of one line at a slice: copies of its sectors go first (R193, R225). -/
def State.sliceWrite (s : State) (d tn line va : Nat) (acc : Access) (m : Mask) (x : VReg) (engine : Bool) : State × Ans :=
  if !engine && (s.dieAt d).claimed tn line then (s, .hold .other)
  else
    settled s (match (if engine then s.noteMerge d tn line else s).ensureLine d tn line va acc engine with
      | (s, .ok) =>
        let s := (maskSectors m).foldl (fun s i => s.clearSector d tn line i) s
        let s := s.updDie d (fun y => y.spoil tn line)
        match (s.dieAt d).llcFind tn line with
        | some l => (s.llcWrite d l (l.merge (s.isGuest d l.pa) m x), .ok)
        | none => (s, .ok)
      | r => r)

/-! ### Whole-line operations (R188, R190, R214, R216) -/

/-- Writes a line's dirty data home; the line stays resident and clean, L1 M sectors go to S (R188, R214). -/
def State.cleanLine (s : State) (d tn line : Nat) : State :=
  match (s.dieAt d).llcFind tn line with
  | none => s
  | some l =>
    let r := s.recallInto d l true
    let s := r.1.llcWrite d l r.2
    match (s.dieAt d).llcFind tn line with
    | none => s
    | some l =>
      let s := s.writeHome (State.llcStore s.lineCount) d l
      s.updDie d (fun x => match x.llcFind tn line with | some l => x.llcPut { l with dirty := [], mask := 0 } | none => x)
/-- Drops every copy of a line on a die after writing it home (R188). -/
def State.flushLine (s : State) (d tn line : Nat) : State := s.evict (State.llcStore s.lineCount) d tn line
/-- Drops every copy of a line without writing it home, and counts the sectors whose dirty data go (R190). -/
def State.discardLine (s : State) (d tn line : Nat) : State :=
  match (s.dieAt d).llcFind tn line with
  | none => s
  | some l =>
    let n := ((List.range 4).filter (fun i => l.dirty.contains i || ((l.owner[i]?).join).isSome)).length
    let s := s.dropCopies d tn line [0, 1, 2, 3]
    s.updDie d (fun x => (x.llcDrop tn line).updSlice (sliceOfLine line tn) (fun y => { y with discards := y.discards + n }))
/-- A guest line whose home lies in the extent of a scope: another die of the package, or any die at pod scope (R216). -/
def State.guestIn (s : State) (d : Nat) (pod : Bool) (l : LlcLine) : Bool := s.isGuest d l.pa && (pod || s.isOwn l.pa)
/-- A line with dirty guest bytes, in the line or in an L1. -/
def State.guestDirty (_s : State) (l : LlcLine) : Bool := l.mask != 0 || (List.range 4).any (fun i => ((l.owner[i]?).join).isSome)
/-- The release of a die at package or pod scope (R216): none while a write-back has to wait (R179, R226, R404). -/
def State.release (s : State) (d : Nat) (pod : Bool) : Option State :=
  let ls := (s.dieAt d).llc.filter (fun l => s.guestIn d pod l && s.guestDirty l)
  let s' := ls.foldl (fun s l => s.cleanLine d l.tn l.line) s
  if s'.jam then none else some s'
/-- The acquire of a die at package or pod scope (R217). -/
def State.acquire (s : State) (d : Nat) (pod : Bool) : State :=
  s.updDie d (fun x => { x with pkgEpoch := x.pkgEpoch + 1, podEpoch := if pod then x.podEpoch + 1 else x.podEpoch })

end Sys2Proof.Machine
end

