-- ==== Sys2Proof/Machine/Access.lean ====
section
/-! DEFINITION. How a thread's global access runs: waiting for its posted reductions (R238, R239), its request and the park for the answer (R50,
R170), performing its elements with their partial state (R160, R194), page faults and their records (R159, R384), and the pushes that a store or
release fires (R365, R368). -/

namespace Sys2Proof.Machine

/-! ### Page faults (R159, R160, R384) -/

/-- The access code of a fault record. -/
def accessCode (a : Access) : Nat :=
  match a with
  | .read => 0
  | .write => 1
  | .rmw => 2
/-- A page fault met by an element: its VA with the kind, level and entry. -/
structure PageMiss where
  (va kind level : Nat)
  pte : Word
deriving DecidableEq, Repr
/-- One miss per 4 KiB stripe, the first met. -/
def perStripe : List PageMiss → List PageMiss
  | [] => []
  | m :: l => m :: (perStripe l).filter (fun x => x.va / 4096 ≠ m.va / 4096)
/-- The least of some addresses. -/
def leastVa (l : List Nat) : Nat := (argMin id l).getD 0
/-- The current thread parks on page faults: its `fltseq` advances and one record per stripe goes to the hub; without a usable fault queue
the fault is unresolvable at once. -/
def State.pageFault (s : State) (acc : Access) (l : List PageMiss) : Res :=
  if s.noFaultQueue s.tn then s.trap accessFault (word (leastVa (l.map PageMiss.va)))
  else
    let s := s.updCtl (fun c => { c with fltseq := c.fltseq + 1 })
    let seq := s.thr.ctl.fltseq.toNat % 2 ^ 32
    let recs := (perStripe l).map (fun m => (⟨s.tn, m.va, seq, s.core, s.tid, m.kind, accessCode acc, 0, m.level, m.pte, false, none⟩ : FaultRec))
    ({ s with faults := s.faults ++ recs }).park (.fault (l.map PageMiss.va))

/-! ### Waiting for posted reductions (R238, R239) -/

/-- The outstanding REDs of the context that runs on the current thread. -/
def State.myReds (s : State) : List Red := s.reds.filter (fun r => r.core == s.core && r.tid == s.tid && r.ctx == s.thr.placedAt)
/-- A state without a RED. -/
def State.dropRed (s : State) (r : Red) : State := { s with reds := s.reds.filter (· ≠ r) }
/-- The current thread waits for its REDs, with a park reason of its own; the fault that a slice noted first is raised here. -/
def State.waitReds (s : State) (why : Park) : Res :=
  let noted := s.myReds.filter (fun r => r.note.isSome)
  match argMin (fun r => match r.note with | some (_, o) => o | none => 0) noted with
  | none => s.park why
  | some r =>
    match r.note with
    | some (.trap c v, _) => (s.dropRed r).trap c v
    | some (.page va k l p, o) =>
      if r.sent then s.park (.fault [va])
      else if s.noFaultQueue r.tn then (s.dropRed r).trap accessFault (word va)
      else
        let s := s.updCtl (fun c => { c with fltseq := c.fltseq + 1 })
        let f : FaultRec := ⟨r.tn, va, s.thr.ctl.fltseq.toNat % 2 ^ 32, s.core, s.tid, k, 2, 0, l, p, false, none⟩
        ({ s with faults := s.faults ++ [f],
                  reds := s.reds.map (fun x => if x = r then { r with note := some (.page va k l p, o), sent := true } else x) }).park (.fault [va])
    | none => s.park why
/-- Runs an instruction after every earlier RED of the thread has been performed (R238). -/
def afterReds (why : Park) (s : State) (k : State → Res) : Res := if s.myReds.isEmpty then k s else s.waitReds why

/-! ### Pushes (R368) -/

/-- The L1 of a core writes a sector that it holds in M back and keeps it in S (R173). -/
def State.l1ToShared (s : State) (c tn line i : Nat) : State :=
  let d := dieOf c
  match (s.coreAt c).l1Find tn line, (s.dieAt d).llcFind tn line with
  | some k, some l =>
    if (k.sec[i]?) = some SecSt.m then
      let m := wbMask (s.isGuest d l.pa) k i
      let new := { (if m = 0 then l else l.merge (s.isGuest d l.pa) m k.data) with
        owner := l.owner.setIfInBounds i none, sharers := l.sharers.setIfInBounds i [c] }
      (s.updCore c (fun q => q.l1Upd tn line (fun x => { x with
        sec := x.sec.setIfInBounds i .s, wrote := x.wrote &&& ~~~maskRange (64 * i) 64 }))).llcWrite d l new
    else s
  | _, _ => s
/-- Fires the armed entries of a core's push table that satisfy a test: they are spent, their M sectors go to S, and each sector is to be
pushed. -/
def State.fire (s : State) (c : Nat) (p : PushEntry → Bool) : State :=
  let d := dieOf c
  let ok := fun (e : PushEntry) => e.armed && p e &&
    ((s.dieAt d).openRegions e.tn e.line).any (fun r => r.num == e.region && r.mode == .replay && !r.spoiled.contains e.line)
  let l := (s.coreAt c).pushTable.filter ok
  if l.isEmpty then s
  else
    let s := s.updCore c (fun k => { k with pushTable := k.pushTable.map (fun e => if ok e then { e with armed := false } else e) })
    l.foldl (fun s e =>
      let secs := (List.range 4).filter (fun i => e.smask.testBit i)
      let s := secs.foldl (fun s i => s.l1ToShared c e.tn e.line i) s
      { s with pushes := s.pushes ++ secs.map (fun i => (⟨d, e.region, e.lnum, e.tn, e.line, i, c, s.tid, e.consumer⟩ : Push)) }) s
/-- Counts a store of a core on a line, for each open region of the line, and fires the entries whose ordinal it reaches (R365, R368). -/
def State.countStore (s : State) (c tn line n : Nat) : State :=
  ((s.dieAt (dieOf c)).openRegions tn line).foldl (fun (s : State) r =>
    let s := s.updDie (dieOf c) (fun d => d.addStores c r.num tn line n)
    let k := (s.dieAt (dieOf c)).storeCount c r.num tn line
    s.fire c (fun e => e.region == r.num && e.tn == tn && e.line == line && e.ordinal == k)) s
/-- A release by the current thread fires the entries of its core whose line has been stored to, but not yet often enough (R368). -/
def State.fireRelease (s : State) : State :=
  let d := s.dieAt (dieOf s.core)
  s.fire s.core (fun e => let n := d.storeCount s.core e.region e.tn e.line; 1 ≤ n && n < e.ordinal)
/-- Pushes that the current thread has fired remain to be served. -/
def State.pushing (s : State) : Bool := s.pushes.any (fun p => p.producer == s.core && p.tid == s.tid)
/-- A releasing instruction fires its entries and waits for their pushes (R368), and for the write-backs that they need (R179). -/
def afterPushes (s : State) (k : State → Res) : Res :=
  let s' := s.fireRelease
  if s'.jam then s.park .reply else if s'.pushing then s'.park .reply else k s'
/-- The effect of the current instruction is complete; it waits for the pushes it fired, if any (R368), and then goes on. -/
def State.finish (s : State) (interval : Nat) : Res :=
  if s.pushing then
    (s.updThr (fun t => { t with progress := { t.progress with ending := some .done } })).park .reply
  else s.next interval

/-! ### Elements -/

/-- An element of a global access: bytes of one sector. `off` is the byte position in the register, `x` the value to store and `m` its byte
enables. -/
structure Elem where
  (id va n off x m : Nat)
deriving DecidableEq, Repr

/-- The answer of an element: whether it is performed, and the data read. -/
abbrev Perform := State → Elem → State × Ans × Nat

/-- A read through the L1 (R172). -/
def readL1 (c tn : Nat) : Perform := fun s e =>
  match s.obtain c tn e.va false with
  | (s, .ok) => let r := s.l1Read c tn e.va e.n; (r.1, .ok, r.2)
  | (s, a) => (s, a, 0)
/-- The line mask of an element's enabled bytes. -/
def Elem.lineMask (e : Elem) : Mask := (BitVec.ofNat 256 (e.m % 2 ^ e.n)) <<< (e.va % 256)
/-- A write through the L1 (R172), counted for recording regions as `n` stores. -/
def writeCounted (n : Nat) (c tn : Nat) : Perform := fun s e =>
  settle s (match s.obtain c tn e.va true with
    | (s, .ok) =>
      let s := s.l1Write c tn (lineOf e.va) e.lineMask (placeAt (e.va % 256) e.n e.x)
      (if n = 0 then s else s.countStore c tn (lineOf e.va) n, .ok, 0)
    | (s, a) => (s, a, 0)) 0
/-- A write through the L1 that counts as one store (R365). -/
def writeL1 (c tn : Nat) : Perform := writeCounted 1 c tn
/-- A gather element at its slice (R193). -/
def readWord (d tn : Nat) : Perform := fun s e => s.sliceRead d tn e.va e.n false
/-- A scatter element at its slice (R193). -/
def writeWord (d tn : Nat) : Perform := fun s e =>
  let r := s.sliceWrite d tn (lineOf e.va) e.va .write e.lineMask (placeAt (e.va % 256) e.n e.x) false
  (r.1, r.2, 0)

/-- What one pass over the elements of an access has met: page faults, other holds, and whether an element has been performed. -/
structure Pass where
  pages : List PageMiss
  other : Bool
  done  : Bool
deriving DecidableEq, Repr

/-- Changes the partial state of the current instruction. -/
def State.updProgress (s : State) (f : Progress → Progress) : State := s.updThr (fun t => { t with progress := f t.progress })
/-- An element of the current access has neither been performed nor ended nor been held by a migrating leaf. -/
def State.pending (s : State) (e : Elem) : Bool :=
  let p := s.thr.progress
  !(p.elems.contains e.id || p.kept.any (fun k => k.va == e.va) || p.held.contains e.va)
/-- Tries a pending element; its outcome goes into the partial state (R160, R194). -/
def tryElem (perform : Perform) (a : State × Pass) (e : Elem) : State × Pass :=
  if !a.1.pending e then a
  else
    match perform a.1 e with
    | (s, .ok, x) =>
      (s.updProgress (fun p => { p with elems := e.id :: p.elems, data := p.data ||| placeAt e.off e.n x }), { a.2 with done := true })
    | (s, .hold .migrate, _) => (s.updProgress (fun p => { p with held := e.va :: p.held }), a.2)
    | (s, .hold .other, _) => (s, { a.2 with other := true })
    | (s, .page k l t, _) => (s, { a.2 with pages := a.2.pages ++ [⟨e.va, k, l, t⟩] })
    | (s, .trap c v, _) => (s.updProgress (fun p => { p with kept := p.kept ++ [⟨e.va, c, v⟩] }), a.2)
/-- One pass: every pending element is tried. -/
def onePass (perform : Perform) (l : List Elem) (s : State) : State × Pass := l.foldl (tryElem perform) (s, ⟨[], false, false⟩)
/-- The cause that an access ends with: a refusal before any other, then the lowest VA (R160). -/
def pickKept (l : List Kept) : Option Kept :=
  let refusals := l.filter (fun k => k.cause == operandInvalid)
  argMin (fun (k : Kept) => k.va) (if refusals.isEmpty then l else refusals)
/-- What follows a pass: page faults first, then holds, then kept causes (R160); `failed` is what a failure leaves besides its trap, and `fin`
goes on with the access. -/
def afterPass (failed : State → State) (acc : Access) (r : State × Pass) (fin : State → Res) : Res :=
  let p := r.1.thr.progress
  if !r.2.pages.isEmpty then (if r.1.noFaultQueue r.1.tn then failed r.1 else r.1).pageFault acc r.2.pages
  else if r.2.other || !p.held.isEmpty then r.1.park .reply
  else
    match pickKept p.kept with
    | some k => (failed r.1).trap k.cause k.val
    | none => fin r.1
/-- Runs the elements of a global access, each performed when it is served. -/
def runElemsOr (failed : State → State) (perform : Perform) (acc : Access) (l : List Elem) (s : State) (fin : State → Res) : Res :=
  afterPass failed acc (onePass perform l s) fin
/-- Runs the elements of a global access. -/
def runElems (perform : Perform) (acc : Access) (l : List Elem) (s : State) (fin : State → Res) : Res := runElemsOr (fun s => s) perform acc l s fin

/-! ### Requests and answers (R50, R170, R172, R184) -/

/-- The current thread sends the requests of its access and parks until they are answered.  Through the L1 it asks for no more lines of a set
than there are ways; the sectors that it cannot ask for yet come later. -/
def State.sendRequests (s : State) (asks : List (Nat × AskKind)) : State :=
  let s := (s.updProgress (fun p => { p with ask := .sent, asks := [], askAt := s.hub.now, later := [] })).parkSt .reply
  let s := asks.foldl (fun (s : State) a =>
    if !a.2.needsWay || s.cur.mayAsk s.tn (lineOf a.1) then s.updProgress (fun p => { p with asks := p.asks ++ [a] })
    else s.updProgress (fun p => { p with later := p.later ++ [a.1] })) s
  (s.attachAll s.core s.tid).1
/-- An access that its L1 cannot complete parks with reason Global reply, and goes on once it has been answered (R170). -/
def asked (asks : List (Nat × AskKind)) (s : State) (k : State → Res) : Res :=
  match s.thr.progress.ask with
  | .served => k s
  | .sent => s.park .reply
  | .none => .next (s.sendRequests asks)
/-- One request for each sector among some VAs. -/
def sectorAsks (write : Bool) (l : List Elem) : List (Nat × AskKind) :=
  ((l.map (fun e => e.va / 64 * 64)).eraseDups).map (fun va => (va, if write then .owned else .shared))
/-- A pending element whose sector the L1 does not hold as the access needs it. -/
def State.lacks (s : State) (write : Bool) (e : Elem) : Bool := s.pending e && decide (e.va < 2 ^ 56) && !s.l1Hit s.core s.tn e.va write
/-- An access through the L1: its pending elements that the L1 does not hold are asked for (R172). -/
def viaL1 (write : Bool) (l : List Elem) (s : State) (k : State → Res) : Res :=
  let missing := l.filter (s.lacks write)
  if missing.isEmpty then k s else asked (sectorAsks write missing) s k
/-- A pass over the elements of an access through the L1.  Those that it could not ask for are left out; once nothing holds the others up, they
are asked for in their turn. -/
def passL1 (pass : List Elem → State → State × Pass) (write : Bool) (acc : Access) (l : List Elem) (s : State) (fin : State → Res) : Res :=
  let left := l.filter (fun e => s.thr.progress.later.contains (e.va / 64 * 64) && s.lacks write e)
  if left.isEmpty then afterPass (fun s => s) acc (pass l s) fin
  else
    let r := pass (l.filter (fun e => !left.contains e)) s
    if !r.2.pages.isEmpty || r.2.other then afterPass (fun s => s) acc r fin
    else
      let u := r.1.sendRequests (sectorAsks write left)
      if u.thr.progress.asks.isEmpty then r.1.park .reply else .next u
/-- Runs the elements of an access through the L1, each performed by itself. -/
def runL1 (write : Bool) (perform : Perform) (acc : Access) (l : List Elem) (s : State) (fin : State → Res) : Res :=
  viaL1 write l s fun s => passL1 (onePass perform) write acc l s fin
/-- Obtains the sectors of some elements one after the other; a VA that does not fit 56 bits is an access fault (R148). -/
def grantPass (write : Bool) (l : List Elem) (s : State) : State × Pass :=
  l.foldl (fun (a : State × Pass) e =>
    let p := a.1.thr.progress
    if p.kept.any (fun k => k.va == e.va) || p.held.contains e.va then a
    else
      match (if 2 ^ 56 ≤ e.va then (a.1, Ans.trap accessFault (word e.va)) else a.1.obtain s.core s.tn e.va write) with
      | (s, .ok) => (s, a.2)
      | (s, .hold .migrate) => (s.updProgress (fun p => { p with held := e.va :: p.held }), a.2)
      | (s, .hold .other) => (s, { a.2 with other := true })
      | (s, .page k l t) => (s, { a.2 with pages := a.2.pages ++ [⟨e.va, k, l, t⟩] })
      | (s, .trap c v) => (s.updProgress (fun p => { p with kept := p.kept ++ [⟨e.va, c, v⟩] }), a.2)) (s, ⟨[], false, false⟩)
/-- Begins an access: the data to store and the offsets are captured (R116). -/
def State.capture (s : State) (data aux : VReg) : State := s.updProgress (fun p => { p with begun := true, data := data, aux := aux })
/-- Runs the sectors of an access that is performed whole once every sector is granted (R172, R191). -/
def runWhole (write : Bool) (perform : Perform) (acc : Access) (l : List Elem) (s : State) (fin : State → Res) : Res :=
  viaL1 write l s fun s => passL1 (grantPass write) write acc l s fun s => runElems perform acc l s fin

/-! ### Word requests (R183, R193, R201) -/

/-- It is the current thread's turn at the line of an element (R184). -/
def State.elemInTurn (s : State) (e : Elem) : Bool := s.askInTurn s.core s.tid s.tn (e.va, .word)
/-- The elements that an answer may bring: those whose turn it is, and where the answer is one for certain VAs, those that lie there. -/
def State.mayBring (s : State) (e : Elem) : Bool :=
  s.elemInTurn e && (match s.thr.progress.pick with
    | some (lo, hi) => lo ≤ e.va && e.va < hi
    | none => true)
/-- Requests for a word, of this thread and of others of its die, that meet the served one in a router are combined with it (R183); which ones do is
left open.  The slice's router counts them, this thread's are performed with it, and the others are answered next. -/
def combineWith (perform : Perform) (l : List Elem) (e : Elem) (r : State × Pass) : State × Pass :=
  let word := e.va / 8
  let count := fun (s : State) (n : Nat) =>
    s.updDie (dieOf s.core) (fun d => d.updSlice (sliceOf e.va s.tn) (fun y => { y with combines := y.combines + n }))
  let more := l.filter (fun o => r.1.pending o && o.va / 8 == word)
  let r :=
    if more.isEmpty then r
    else
      let s : State := { r.1 with fresh := r.1.fresh + 1 }
      if Config.combines r.1.fresh then more.foldl (tryElem perform) (count s more.length, r.2) else (s, r.2)
  let asks := fun (t : Thread) => (t.progress.asks.filter (fun a => a.2 == .word && a.1 / 8 == word)).length
  let others := (r.1.coresOn (dieOf r.1.core)).flatMap (fun c => ((List.range 16).filter (fun t =>
    let x := (r.1.coreAt c).thr t
    !(c == r.1.core && t == r.1.tid) && x.asking && x.ctl.tenancy == r.1.thr.ctl.tenancy && 0 < asks x)).map (fun t => (c, t)))
  (others.foldl (fun (s : State) p =>
    let s' : State := { s with fresh := s.fresh + 1 }
    if Config.combines s.fresh then
      let s' := count s' (asks ((s'.coreAt p.1).thr p.2))
      ({ s' with granted := .thread p.1 p.2 (lineOf e.va) :: s'.granted } : State).updThrAt p.1 p.2 (fun t => { t with
        progress := { t.progress with pick := some (8 * word, 8 * word + 8) } })
    else s') r.1, r.2)
/-- One word request is served, the first pending element that can be performed (log 58), and with it what is combined; an answer for certain VAs
serves all of them. -/
def wordPass (reads : Bool) (perform : Perform) (l : List Elem) (s : State) : State × Pass :=
  let r := l.foldl (fun (a : State × Pass) e =>
    if (a.2.done && s.thr.progress.pick.isNone) || !s.mayBring e then a else tryElem perform a e) (s, ⟨[], false, false⟩)
  match r.2.done && reads && s.thr.progress.pick.isNone, l.find? (fun e => r.1.thr.progress.elems.head? == some e.id) with
  | true, some e => combineWith perform l e r
  | _, _ => (r.1.updProgress (fun p => { p with pick := none }), r.2)
/-- Runs the elements of an access as word requests at the slices: one is served for each answer, and between two answers any other access may
be served (R201).  One whose line has a fill outstanding is served in its turn there (R184). -/
def runWords (reads : Bool) (perform : Perform) (acc : Access) (l : List Elem) (s : State) (fin : State → Res) : Res :=
  if l.all (fun e => s.thr.progress.elems.contains e.id) then fin s
  else
    asked ((l.filter s.pending).map (fun e => (e.va, if reads then .word else .update))) s fun s =>
    let r := wordPass reads perform l s
    let left := l.filter r.1.pending
    let u := r.1.updProgress (fun p => { p with asks := p.asks.filter (fun a => left.any (fun e => e.va == a.1) || p.held.contains a.1) })
    if r.2.done && !left.isEmpty then (u.updProgress (fun p => { p with ask := .sent })).park .reply
    else if r.2.pages.isEmpty && left.any (fun e => !u.elemInTurn e) then (u.attachAll u.core u.tid).1.park .reply
    else afterPass (fun s => s) acc (u, r.2) fin

/-- What may have been held by something other than a migrating leaf is tried again: a claim has ended, memory is ready, a shootdown is
complete (R163, R226, R404). -/
def State.retryHeld (s : State) : State :=
  s.wakeIf (fun _ _ w => match w with
    | .reply | .drain | .engineQueue => true
    | _ => false)

/-- A VA that does not fit 56 bits (R148). -/
def vaTrap (a : Word) : Option TrapOf := trapIf (bits a 63 56 ≠ 0) accessFault a

end Sys2Proof.Machine
end

