-- ==== Sys2Proof/Machine/Atomics.lean ====
section
/-! DEFINITION. Atomics and posted reductions at their executing slice (R229 to R241). -/

namespace Sys2Proof.Machine

/-! ### The operation (R236, R237) -/

/-- The lesser or greater of two values under an order. -/
def pickBy (less : Bool) (m x : Nat) (max : Bool) : Nat := if less != max then m else x
/-- f of R236 on operands of `8 · size` bits: memory value, operand, expected value. -/
def atomicFn (op : AmoOp) (size m x e : Nat) : Nat :=
  let w := 8 * size
  match op with
  | .add => (m + x) % 2 ^ w
  | .and => m &&& x
  | .or => m ||| x
  | .xor => m ^^^ x
  | .min => pickBy (decide (intOf w m ≤ intOf w x)) m x false
  | .max => pickBy (decide (intOf w m < intOf w x)) m x true
  | .minn => pickBy (decide (m ≤ x)) m x false
  | .maxn => pickBy (decide (m < x)) m x true
  | .xchg => x
  | .cas => if m = e then x else m
  | .faddF32 => (fpAdd .f32 Fcw.plain m x).x
  | .faddBf16x2 => (fpAdd .bf16 Fcw.plain (m % 2 ^ 16) (x % 2 ^ 16)).x + 2 ^ 16 * (fpAdd .bf16 Fcw.plain (m / 2 ^ 16) (x / 2 ^ 16)).x
  | .fmaxF32 => (fpMax .f32 Fcw.plain m x).x
/-- A floating-point operation. -/
def fpOp (op : AmoOp) : Bool :=
  match op with
  | .faddF32 | .faddBf16x2 | .fmaxF32 => true
  | .add | .and | .or | .xor | .min | .max | .minn | .maxn | .xchg | .cas => false
/-- Bytes of the operand. -/
def amoSize (op : AmoOp) (w : Bool) : Nat := if w && !fpOp op then 8 else 4
/-- The old value as written to rd (R237). -/
def amoExtend (op : AmoOp) (size x : Nat) : Word :=
  match op with
  | .min | .max => if size = 4 then sextNat 32 x else word x
  | .add | .and | .or | .xor | .minn | .maxn | .xchg | .cas | .faddF32 | .faddBf16x2 | .fmaxF32 => word x

/-! ### The executing slice (R230 to R233) -/

/-- The bytes of an operand that an operation changes, as a mask of the line (R231). -/
def changedMask (off n m y : Nat) : Mask :=
  ((List.range n).filter (fun i => m / 2 ^ (8 * i) % 256 ≠ y / 2 ^ (8 * i) % 256)).foldl (fun (k : Mask) i => k ||| maskRange (off + i) 1) 0
/-- One step of service order on a line of a die: the copies of the sector go, and the line is written only when a byte changes (R233). -/
def State.atomicStep (s : State) (d tn va n : Nat) (f : Nat → Nat) : State × Ans × Nat :=
  let line := lineOf va
  let s := s.clearSector d tn line (va / 64 % 4)
  let s := s.updDie d (fun y => y.spoil tn line)
  match (s.dieAt d).llcFind tn line with
  | none => (s, .ok, 0)
  | some l =>
    let m := l.data.toNat / 2 ^ (8 * (va % 256)) % 2 ^ (8 * n)
    let y := f m
    if y = m then (s, .ok, m)
    else (s.llcWrite d l (l.merge (s.isGuest d l.pa) (changedMask (va % 256) n m y) (placeAt (va % 256) n y)), .ok, m)
/-- The same once the line is resident, which an engine's claim holds up (R226, R233). -/
def State.atomicOnLine (s : State) (d tn va n : Nat) (f : Nat → Nat) : State × Ans × Nat :=
  if (s.dieAt d).claimed tn (lineOf va) then (s, .hold .other, 0)
  else
    settle s (match s.ensureLine d tn (lineOf va) va .rmw with
      | (s, .ok) => s.atomicStep d tn va n f
      | (s, a) => (s, a, 0)) 0
/-- The caller's die gives up its copy of a line before an operation on another die or package (R232). -/
def State.dropGuest (s : State) (d tn line : Nat) : Option State :=
  if (s.dieAt d).claimed tn line then none
  else
    match (s.dieAt d).llcFind tn line with
    | none => some s
    | some _ =>
      let s' := s.flushLine d tn line
      if s'.jam then none else some s'
/-- An operation of pod scope at a home in another package: it is translated at the caller's slice, which alone knows the page. -/
def State.atomicFar (s : State) (d tn va n : Nat) (f : Nat → Nat) : State × Ans × Nat :=
  match s.translate d tn va .rmw none with
  | (s, .ok pa _) =>
    let m := natOfBytes (s.paBytes pa n)
    (s.paPut pa (bytesOfNat n (f m)), .ok, m)
  | (s, r) => (s, r.ans, 0)
/-- An operation from a core's die, at its executing slice (R230): `f` gives the new memory value; the answer is the old one.  An operation that
executes elsewhere first passes through the serving slice of the caller's die (R232), where it ends the line's part in an open iteration (R365),
and its page is checked where it executes. -/
def State.atomic (s : State) (d tn va n : Nat) (sc : AmoScope) (f : Nat → Nat) : State × Ans × Nat :=
  let away := fun (r : State × Ans × Nat) => (if r.2.1 = .ok then r.1.updDie d (fun y => y.spoil tn (lineOf va)) else r.1, r.2)
  match sc with
  | .die => s.atomicOnLine d tn va n f
  | .pkg | .pod =>
    match s.leafOf d tn va with
    | .hold w => (s, .hold w, 0)
    | .fault k l p => (s, .page k l p, 0)
    | .leaf l _ p =>
      let pa := ptePa p + va % pageSize l
      if s.isOwn pa then
        if paDie pa = d then s.atomicOnLine d tn va n f
        else
          match s.dropGuest d tn (lineOf va) with
          | none => (s, .hold .other, 0)
          | some s => away (s.atomicOnLine (paDie pa) tn va n f)
      else if sc = .pkg then s.atomicOnLine d tn va n f
      else
        match s.dropGuest d tn (lineOf va) with
        | none => (s, .hold .other, 0)
        | some s => away (s.atomicFar d tn va n f)

/-- An operation of another package at a home of this one (R218, R230): one step of the line's service order there, on the line as its fill brings it
(R233).  One that finds a fill of the line outstanding, or no register for its own, comes later. -/
def State.atomicAtHome (s : State) (f : FarAtomic) : State :=
  let n := amoSize f.op f.w
  let line := lineOf f.va
  let d := paDie f.pa
  if f.va % n ≠ 0 || !s.farHome f.tn f.va f.pa || s.missLive d f.tn line then s
  else
    let r := match (s.dieAt d).llcFind f.tn line with
      | some l => (s, if l.bad then Ans.trap dataError (word f.va) else .ok)
      | none => if s.missRoom d f.tn line then s.fillFrom d f.tn line f.va (f.pa / 256 * 256) f.key else (s, .hold .other)
    match r with
    | (s1, .ok) =>
      s.unlessJam (s1.atomicStep d f.tn f.va n (fun m => atomicFn f.op n m (f.x.toNat % 2 ^ (8 * n)) (f.expected.toNat % 2 ^ (8 * n)))).1
    | _ => s
/-- The die of this package at whose slice an operation executes (R230), as far as a walk tells. -/
def State.atomicDie (s : State) (d tn va : Nat) (sc : AmoScope) : Option Nat :=
  match sc, s.leafOf d tn va with
  | .die, _ => some d
  | sc, .leaf l _ p =>
    let pa := ptePa p + va % pageSize l
    if s.isOwn pa then some (paDie pa) else if sc == .pkg then some d else none
  | _, _ => none

/-! ### AMO and RED (R235, R238 to R240) -/

/-- The checks of R235 in their order. -/
def amoTrap (s : State) (size : Nat) (va : Word) (ordered : Bool) : Option TrapOf :=
  firstTrap [trapIf (va.toNat % size ≠ 0) misalignment va, trapIf (s.det && ordered) orderDependent 0, vaTrap va]
/-- AMO (R235). -/
def execAmo (op : AmoOp) (w : Bool) (sc : AmoScope) (d a b : Reg) (s : State) : Res :=
  let n := amoSize op w
  let va := s.rd a
  let x := (s.rd b).toNat % 2 ^ (8 * n)
  let e := (s.rd d).toNat % 2 ^ (8 * n)
  guardTrap s (amoTrap s n va true) fun _ =>
  afterReds .reply s fun s =>
  let asks := match s.atomicDie (dieOf s.core) s.tn va.toNat sc with
    | some e => [(va.toNat, if e = dieOf s.core then AskKind.update else .far e)]
    | none => []
  asked asks s fun s =>
  runElems (fun s y => s.atomic (dieOf s.core) s.tn y.va n sc (fun m => atomicFn op n m x e)) .rmw [⟨0, va.toNat, n, 0, 0, 0⟩] s fun s =>
  (s.wr d (amoExtend op n (elem (8 * n) s.thr.progress.data 0))).next 8
/-- Posts a reduction of the current thread (R238): at most eight stay outstanding.  One whose fault the thread has waited for and a wake has
resolved is performed before that wait ends (R239). -/
def State.post (s : State) (r : Red) : Res :=
  if s.myReds.length < 8 && !s.myReds.any (fun o => o.sent || o.owed) then { s with reds := s.reds ++ [r] }.next 8 else s.waitReds .reply
/-- RED (R235, R238). -/
def execRed (op : AmoOp) (w : Bool) (sc : AmoScope) (a b : Reg) (s : State) : Res :=
  let n := amoSize op w
  let va := s.rd a
  guardTrap s (amoTrap s n va (fpOp op)) fun _ =>
  s.post ⟨s.core, s.tid, s.thr.placedAt, s.tn, s.curLaunch, op, w, sc, va.toNat, word ((s.rd b).toNat % 2 ^ (8 * n)), none, none, false, none, false⟩

/-- A RED is performed or its fault is noted: its thread looks again if it waits (R238, R239). -/
def State.redDone (s : State) (r : Red) : State :=
  s.updCore r.core (fun c => c.wakeIf (fun t w => t == r.tid && (w == .reply || w == .drain)))
/-- The launch of a RED has ended, and with it the thread that would report its fault (R393). -/
def State.redDead (s : State) (r : Red) : Bool :=
  match r.lnum with
  | none => false
  | some l => !(s.launchAt l).any (fun x => !x.ended)
/-- Notes a fault of a RED, with its order; a fault that no thread can report any more is dropped with it. -/
def State.noteRed (s : State) (n : Nat) (r : Red) (f : RedFault) : State :=
  if s.redDead r then { s with reds := dropAt s.reds n }
  else ({ s with reds := setAt s.reds n { r with note := some (f, s.nextId), sent := false }, nextId := s.nextId + 1 }).redDone r

end Sys2Proof.Machine
end

