-- ==== Sys2Proof/Machine/Imm.lean ====
section
/-! DEFINITION. The immediate forms, major opcodes 0x02 to 0x0A (R70, R71, with the extensions of R14). -/

namespace Sys2Proof.Machine

/-- A 16-bit immediate, sign-extended (R14). -/
def simm (i : BitVec 16) : Word := i.signExtend 64
/-- A 16-bit immediate, zero-extended (R14). -/
def zimm (i : BitVec 16) : Word := i.setWidth 64

/-- ADDI (R70). -/
def execAddi (d a : Reg) (i : BitVec 16) (s : State) : Res := alu1 (· + simm i) d a s
/-- ANDI (R70). -/
def execAndi (d a : Reg) (i : BitVec 16) (s : State) : Res := alu1 (· &&& zimm i) d a s
/-- ORI (R70). -/
def execOri (d a : Reg) (i : BitVec 16) (s : State) : Res := alu1 (· ||| zimm i) d a s
/-- XORI (R70). -/
def execXori (d a : Reg) (i : BitVec 16) (s : State) : Res := alu1 (· ^^^ zimm i) d a s
/-- SLTI (R70). -/
def execSlti (d a : Reg) (i : BitVec 16) (s : State) : Res := alu1 (fun x => boolWord (x.slt (simm i))) d a s
/-- SHLI (R70). -/
def execShli (d a : Reg) (n : BitVec 6) (s : State) : Res := alu1 (· <<< n.toNat) d a s
/-- SHRI (R70). -/
def execShri (d a : Reg) (n : BitVec 6) (s : State) : Res := alu1 (· >>> n.toNat) d a s
/-- SRAI (R70). -/
def execSrai (d a : Reg) (n : BitVec 6) (s : State) : Res := alu1 (·.sshiftRight n.toNat) d a s
/-- ROLI (R70). -/
def execRoli (d a : Reg) (n : BitVec 6) (s : State) : Res := alu1 (fun x => rolWord x n.toNat) d a s
/-- SHLORI (R70). -/
def execShlori (d a : Reg) (i : BitVec 16) (s : State) : Res := alu1 (fun x => x <<< 16 ||| zimm i) d a s
/-- LIH (R70). -/
def execLih (d : Reg) (i : BitVec 21) (s : State) : Res := writeReg d (i.signExtend 64 <<< 16) 2 s
/-- BEXTI (R71): pos = imm[5:0], len = imm[11:6] + 1. -/
def execBexti (d a : Reg) (l p : BitVec 6) (s : State) : Res := alu1 (fun x => fieldOf x p.toNat (l.toNat + 1)) d a s
/-- BEXTSI (R71). -/
def execBextsi (d a : Reg) (l p : BitVec 6) (s : State) : Res := alu1 (fun x => fieldSigned x p.toNat (l.toNat + 1)) d a s
/-- BINSI (R71); reads rd. -/
def execBinsi (d a : Reg) (l p : BitVec 6) (s : State) : Res :=
  writeReg d (fieldInsert (s.rd d) (s.rd a) p.toNat (l.toNat + 1)) 2 s
/-- FSHLI (R71); reads rd. -/
def execFshli (d a : Reg) (n : BitVec 6) (s : State) : Res := writeReg d (funnelLeft (s.rd a) (s.rd d) n.toNat) 2 s
/-- FSHRI (R71); reads rd. -/
def execFshri (d a : Reg) (n : BitVec 6) (s : State) : Res := writeReg d (funnelRight (s.rd a) (s.rd d) n.toNat) 2 s

end Sys2Proof.Machine
end

