-- ==== Sys2Proof/Machine/Branch.lean ====
section
/-! DEFINITION. Branches and jumps, major opcodes 0x0B to 0x13 (R72 to R74, with the target rules of R12 and R14). -/

namespace Sys2Proof.Machine

/-- The pc-relative target of an offset in words (R14). -/
def relTarget {w : Nat} (s : State) (o : BitVec w) : Word := s.thr.pc + o.signExtend 64 * 4

/-- A compare-and-branch: taken it jumps after the check of its target, untaken it never checks it (R72). -/
def branchIf (c : Bool) (o : BitVec 16) (s : State) : Res :=
  if c then jumpChecked s s 4 (relTarget s o) else s.next 2

/-- BEQ (R72). -/
def execBeq (a b : Reg) (o : BitVec 16) (s : State) : Res := branchIf (s.rd a == s.rd b) o s
/-- BNE (R72). -/
def execBne (a b : Reg) (o : BitVec 16) (s : State) : Res := branchIf (s.rd a != s.rd b) o s
/-- BLT (R72). -/
def execBlt (a b : Reg) (o : BitVec 16) (s : State) : Res := branchIf ((s.rd a).slt (s.rd b)) o s
/-- BGE (R72). -/
def execBge (a b : Reg) (o : BitVec 16) (s : State) : Res := branchIf (!(s.rd a).slt (s.rd b)) o s
/-- BLTN (R72). -/
def execBltn (a b : Reg) (o : BitVec 16) (s : State) : Res := branchIf ((s.rd a).ult (s.rd b)) o s
/-- BGEN (R72). -/
def execBgen (a b : Reg) (o : BitVec 16) (s : State) : Res := branchIf (!(s.rd a).ult (s.rd b)) o s
/-- DBNZ (R73): a trap on the target leaves the register unchanged; not taken its interval is that of a branch not taken. -/
def execDbnz (a : Reg) (o : BitVec 16) (s : State) : Res :=
  let c := s.rd a - 1
  if c = 0 then (s.wr a c).next 2 else jumpChecked s (s.wr a c) 4 (relTarget s o)
/-- JAL (R74). -/
def execJal (d : Reg) (o : BitVec 21) (s : State) : Res := jumpChecked s (s.wr d (s.thr.pc + 4)) 4 (relTarget s o)
/-- JALR (R74): the target is read before rd is written. -/
def execJalr (d a : Reg) (i : BitVec 16) (s : State) : Res :=
  jumpChecked s (s.wr d (s.thr.pc + 4)) 4 (s.rd a + simm i)

end Sys2Proof.Machine
end

