-- ==== Sys2Proof/Machine/Csr.lean ====
section
/-! DEFINITION. Control registers (R62 to R66, R87, R92, R96, R260, R301, R372, R415) and the SYS group (R75 to R77). -/

namespace Sys2Proof.Machine

/-! ### Reading -/

/-- A control register as the current thread reads it (R62, R415). -/
def State.csrRead (s : State) (c : BitVec 12) : Word :=
  let t := s.thr.ctl
  match c.toNat with
  | 0x000 => word s.tid
  | 0x001 => word s.core
  | 0x002 => word (dieOf s.core * 2 ^ 16 + yOf s.core * 2 ^ 8 + xOf s.core)
  | 0x003 => word s.hub.pkg
  | 0x004 => t.tenancy
  | 0x010 => t.fcw
  | 0x011 => t.fflags
  | 0x012 => t.seed
  | 0x013 => s.cur.dtab
  | 0x020 => t.fmtp
  | 0x021 => t.sclp
  | 0x022 => t.taskid
  | 0x023 => t.tasklo
  | 0x024 => t.taskhi
  | 0x025 => t.launch
  | 0x026 => t.kslot
  | 0x030 => t.waitlim
  | 0x031 => s.cur.cyc
  | 0x032 => t.msghdr
  | 0x040 => t.evvec
  | 0x041 => t.evmask
  | 0x042 => t.evcause
  | 0x043 => t.evpc
  | 0x050 => t.mrp
  | 0x051 => t.mstat
  | 0x060 => t.trapvec
  | 0x061 => t.trapcause
  | 0x062 => t.trappc
  | 0x063 => t.trapval
  | 0x064 => t.trapinst
  | 0x070 => t.rrthresh
  | 0x090 => boolWord s.det
  | 0x091 => t.lend
  | 0x0A0 => t.fltseq
  | 0x800 => s.hub.ready0
  | 0x801 => s.hub.ready1
  | 0x802 => let i := islandOf s.core; word ((s.hub.island i).cur * 2 ^ 8 + i)
  | 0x803 => word s.hub.tntab
  | n => if 0x080 ≤ n ∧ n ≤ 0x087 then (t.athand[n - 0x080]?).getD 0 else 0

/-! ### Writing -/

/-- The bits of a control register that a write may set (the maps of R63, R86, R92, R51, R260, R301, R372). -/
def csrMask (c : BitVec 12) : Word :=
  match c.toNat with
  | 0x010 => 0x1FF
  | 0x011 => 0x3F
  | 0x030 => 0xFFFFFFFF
  | 0x040 | 0x043 | 0x060 => 0x3FFFC
  | 0x041 => 0x800000000000FFFE
  | 0x050 => 7
  | 0x061 => 0x80000000000000FF
  | 0x070 => 0xFFFF
  | _ => BitVec.allOnes 64
/-- A write that raises an illegal-instruction trap for its value: a nonzero reserved bit (R65) or an unassigned rounding code (R87). -/
def csrBad (c : BitVec 12) (x : Word) : Bool :=
  x &&& ~~~csrMask c != 0 || (c.toNat == 0x010 && (6 ≤ bits x 5 3 || 5 ≤ bits x 2 0))
/-- Writes a control register; a zero seed is replaced (R96). -/
def Ctl.write (t : Ctl) (c : BitVec 12) (x : Word) : Ctl :=
  match c.toNat with
  | 0x010 => { t with fcw := x }
  | 0x011 => { t with fflags := x }
  | 0x012 => { t with seed := if x = 0 then seedConst else x }
  | 0x020 => { t with fmtp := x }
  | 0x021 => { t with sclp := x }
  | 0x030 => { t with waitlim := x }
  | 0x040 => { t with evvec := x }
  | 0x041 => { t with evmask := x }
  | 0x043 => { t with evpc := x }
  | 0x050 => { t with mrp := x }
  | 0x060 => { t with trapvec := x }
  | 0x061 => { t with trapcause := x }
  | 0x062 => { t with trappc := x }
  | 0x063 => { t with trapval := x }
  | 0x064 => { t with trapinst := x }
  | 0x070 => { t with rrthresh := x }
  | _ => t

/-- A CSR instruction (R66): a number from 0x800 up is illegal at task level (R29); every one on `fflags` waits for the thread's matrix
commands (R93). -/
def csrOp (d : Reg) (c : BitVec 12) (new : Word → Option Word) (s : State) : Res :=
  if 0x800 ≤ c.toNat && !s.thr.system then s.trap illegalInstruction 0
  else if c = 0x011 && s.cur.mq.any (fun m => m.tid == s.tid) then s.park .drain
  else
    let old := s.csrRead c
    match new old with
    | none => (s.wr d old).next 2
    | some x =>
      if csrBad c x then s.trap illegalInstruction 0
      else ((s.updCtl (fun t => t.write c x)).wr d old).next 2

/-- CSRR (R66). -/
def execCsrr (d : Reg) (c : BitVec 12) (s : State) : Res := csrOp d c (fun _ => none) s
/-- CSRW (R66). -/
def execCsrw (d a : Reg) (c : BitVec 12) (s : State) : Res := csrOp d c (fun _ => some (s.rd a)) s
/-- CSRS (R66): with ra = 00000 it writes nothing (R29). -/
def execCsrs (d a : Reg) (c : BitVec 12) (s : State) : Res := csrOp d c (fun old => if a = 0 then none else some (old ||| s.rd a)) s
/-- CSRC (R66): with ra = 00000 it writes nothing (R29). -/
def execCsrc (d a : Reg) (c : BitVec 12) (s : State) : Res := csrOp d c (fun old => if a = 0 then none else some (old &&& ~~~ s.rd a)) s

/-! ### SYS -/

/-- TRAP (R75): trapval is the code. -/
def execTrap (c : BitVec 5) (s : State) : Res := s.trap softwareTrap (c.setWidth 64)
/-- BRK (R75): in a debug-enabled tenancy the thread stops with the trap registers written as at trap entry. -/
def execBrk (s : State) : Res :=
  if s.hub.debugOn.contains s.tn then
    let pc := s.thr.pc
    .next ((s.updThr (fun t => { t with
      status := .stopped .breakpoint, ctl := t.ctl.trapped breakpointTrap 0 pc t.inst, readyAt := s.cur.cyc.toNat + 4 })).updCur (·.mend s.tid trapRegs))
  else s.trap breakpointTrap 0
/-- IFENCE (R76): the prefetch buffer is discarded, and read again in the last cycle of the interval (R143). -/
def execIfence (s : State) : Res := (s.updThr (fun t => { t with buf := [] })).next 4
/-- ERET (R77). -/
def execEret (s : State) : Res := if s.thr.system then s.returnFromTrap else s.trap illegalInstruction 0
/-- HALT (R77): the thread stops; its registers are kept and its pc names the next instruction (log 25).  DESIGN CHOICE (log 56): R77 gives the report
to the hub no form; it is the thread's status Stopped, with HALT as the reason, and nothing in the hub. -/
def execHalt (s : State) : Res :=
  if s.thr.system then .next (((s.goOn 4).updThr (fun t => { t with status := .stopped .halt })).runOff) else s.trap illegalInstruction 0
/-- ILLEGAL_INSTRUCTION (R39): a word that decode refuses traps with trapval 0. -/
def execIllegalInstruction (s : State) : Res := s.trap illegalInstruction 0

end Sys2Proof.Machine
end

