-- ==== Sys2Proof/Machine/LocalMem.lean ====
section
/-! DEFINITION. Local-memory accesses of threads (R145 to R147).  None parks on memory; only a window can park a vector form. -/

namespace Sys2Proof.Machine

/-- The checks of a scalar local access in the order of R78: alignment, then protection (R145). -/
def lmScalarTrap (s : State) (write : Bool) (a : Word) (n : Nat) : Option TrapOf :=
  firstTrap [trapIf (a.toNat % n ≠ 0) misalignment a, trapIf (0x40000 - n < a.toNat) lmProtection a, s.lmTrap write a.toNat n]

/-- LDL (R145). -/
def execLdl (w : LoadW) (d a : Reg) (p : BitVec 13) (s : State) : Res :=
  let n := loadBytes w
  let x := dispAddr s a n p
  guardTrap s (firstTrap [lmScalarTrap s false x n, s.lmDamage x.toNat n]) fun _ =>
  (s.wr d (loadExtend w (s.cur.lmRead x.toNat n))).next 4
/-- STL (R145). -/
def execStl (w : StoreW) (r a : Reg) (p : BitVec 13) (s : State) : Res :=
  let n := storeBytes w
  let x := dispAddr s a n p
  guardTrap s (lmScalarTrap s true x n) fun _ =>
  (s.updCur (·.lmWrite x.toNat n (s.rd r).toNat)).next 4

/-- The active byte positions of a vector access. -/
def activeBytes (k : Mask) : List Nat := (List.range 256).filter (fun j => k.getLsbD j)
/-- The lowest active byte of a vector access that fails its check (R138, R146). -/
def lmBytesTrap (s : State) (write : Bool) (a : Nat) (k : Mask) : Option TrapOf :=
  match s.cur.lmCheck s.tid write a 256 with
  | none => none
  | some _ => ((activeBytes k).find? (fun j => !s.cur.lmAllowed s.tid write ((a + j) / 512))).map (fun j => (lmProtection, word (a + j)))
/-- The range check of a vector access (R146). -/
def lmVectorRange (a : Word) : Option TrapOf := trapIf (0x40000 - 256 < a.toNat) lmProtection a
/-- Writes the active bytes of a register to local memory. -/
def Core.lmPutMasked (c : Core) (a : Nat) (k : Mask) (x : VReg) : Core :=
  let old := c.lmBytes a 256
  let keep := c.badLm.filter (fun b => !(a ≤ b && b < a + 256 && k.getLsbD (b - a)))
  { c.lmPut a ((List.range 256).map (fun j => if k.getLsbD j then vbyte x j else old.getD j 0)) with badLm := keep }

/-- VLDL (R146). -/
def execVldl (d : VCode) (a : Reg) (p : BitVec 5) (k : MaskReg) (s : State) : Res :=
  let x := vdispAddr s a p
  let m := s.mask k
  let dmg := if s.cur.badLm.isEmpty then none
    else ((activeBytes m).find? (fun j => s.cur.badLm.contains (x.toNat + j))).map (fun j => (dataError, x + word j))
  withWindows [] [d] (trapIf (x.toNat % 4 ≠ 0) misalignment x)
    (firstTrap [lmVectorRange x, lmBytesTrap s false x.toNat m, dmg]) s fun s' =>
    let l := s.cur.lmRead x.toNat 256
    (s'.vwrite d 8 256 m (fun j => ⟨l / 2 ^ (8 * j) % 256, 0⟩)).next 8
/-- VSTL (R146). -/
def execVstl (d : VCode) (a : Reg) (p : BitVec 5) (k : MaskReg) (s : State) : Res :=
  let x := vdispAddr s a p
  let m := s.mask k
  let v := s.vget d
  withWindows [d] [] (trapIf (x.toNat % 4 ≠ 0) misalignment x) (firstTrap [lmVectorRange x, lmBytesTrap s true x.toNat m]) s fun s' =>
    (s'.updCur (·.lmPutMasked x.toNat m v)).next 8

/-- The active lanes of a local gather or scatter with their addresses (R147); none while the offsets stand in a window that is not Full,
which the instruction may not read yet (R118). -/
def indexLanes (s : State) (t : ElemTy) (a : Reg) (b : VCode) (k : Mask) : List (Nat × Word) :=
  if isWin b && s.cur.winState b.toNat ≠ .full then []
  else ((List.range 64).filter (active k t.width)).map (fun i => (i, s.rd a + word (elem 32 (s.vget b) i)))
/-- The first lane's trap for a cause, ascending. -/
def firstLaneTrap (l : List (Nat × Word)) (f : Word → Option TrapOf) : Option TrapOf := firstTrap (l.map (fun e => f e.2))
/-- The checks of lanes that are made lane by lane (R147, R193): the lowest failing lane decides.  The trap stands before the holder check of R78
if it is a misalignment, and behind it otherwise. -/
def laneTraps (l : List (Nat × Word)) (f : Word → Option TrapOf) : Option TrapOf × Option TrapOf :=
  match firstLaneTrap l f with
  | some (c, v) => if c = misalignment then (some (c, v), none) else (none, some (c, v))
  | none => (none, none)
/-- A lane that is not aligned to `n` bytes. -/
def laneAlign (n : Nat) (x : Word) : Option TrapOf := trapIf (x.toNat % n ≠ 0) misalignment x
/-- The protection checks of a lane: the range of LM, then R137. -/
def laneProtect (s : State) (write : Bool) (n : Nat) (a : Word) : Option TrapOf :=
  firstTrap [trapIf (0x40000 - n < a.toNat) lmProtection a, s.lmTrap write a.toNat n]

/-- VGTHL (R147). -/
def execVgthl (t : ElemTy) (d : VCode) (a : Reg) (b : VCode) (k : MaskReg) (s : State) : Res :=
  let n := t.width / 8
  let m := s.mask k
  let l := indexLanes s t a b m
  let c := laneTraps l (fun x => firstTrap [laneAlign n x, laneProtect s false n x])
  withWindows [b] [d] c.1 (firstTrap [c.2, firstLaneTrap l (fun x => s.lmDamage x.toNat n)]) s fun s' =>
    (s'.vwrite d t.width 64 m (fun i => ⟨s.cur.lmRead (s.rd a + word (elem 32 (s.vget b) i)).toNat n, 0⟩)).next 16
/-- VSCTL (R147): a later lane overwrites an earlier. -/
def execVsctl (t : ElemTy) (d : VCode) (a : Reg) (b : VCode) (k : MaskReg) (s : State) : Res :=
  let n := t.width / 8
  let m := s.mask k
  let l := indexLanes s t a b m
  let v := s.vget d
  let c := laneTraps l (fun x => firstTrap [laneAlign n x, laneProtect s true n x])
  withWindows [d, b] [] c.1 c.2 s fun s' =>
    (s'.updCur (fun c => (l.foldl (fun (c : Core) e => c.lmStore e.2.toNat (bytesOfNat n (elem t.width v e.1))) c).testCounters)).next 16

end Sys2Proof.Machine
end

