-- ==== Sys2Proof/Machine/Sync.lean ====
section
/-! DEFINITION. Scopes (R196, R197), fences (R204, R205), barriers (R206 to R211) and WAITGE (R212). -/

namespace Sys2Proof.Machine

/-! ### Extents (R196, R197) -/

/-- The code of a scope (R42). -/
def scopeNum (sc : Scope) : Nat :=
  match sc with
  | .core => 0
  | .quad => 1
  | .die => 2
  | .pkg => 3
  | .pod => 4
  | .rect => 5
/-- A core of the package lies in the extent of a scope around a calling core; `r` is the rectangle word. -/
def inExtent (sc : Scope) (r : Word) (me c : Nat) : Bool :=
  match sc with
  | .core => c == me
  | .quad => dieOf c == dieOf me && quadOf c == quadOf me
  | .rect => dieOf c == dieOf me && inRect (r.toNat % 2 ^ 32) c
  | .die => dieOf c == dieOf me
  | .pkg | .pod => true
/-- A rectangle word that breaks R197; `me` is the core of a barrier, which must lie inside. -/
def rectBad (r : Word) (me : Option Nat) : Bool :=
  bits r 63 32 != 0 || bits r 23 16 < bits r 7 0 || bits r 31 24 < bits r 15 8 || 31 < bits r 23 16 || 35 < bits r 31 24 ||
  (match me with
   | some c => !inRect (r.toNat % 2 ^ 32) c
   | none => false)
/-- The check of a rectangle operand (R197). -/
def rectTrap (sc : Scope) (r : Word) (me : Option Nat) : Option TrapOf := trapIf (sc = .rect && rectBad r me) operandInvalid r

/-! ### Release, drop notices, acquire (R204, R205, R216, R217, R248) -/

/-- The scope is package or pod. -/
def isWide (sc : Scope) : Bool :=
  match sc with
  | .pkg | .pod => true
  | .core | .quad | .die | .rect => false
/-- The remote writes of the running context that are outstanding to the extent. -/
def State.myWrites (s : State) (p : Nat → Bool) : List OutWrite :=
  s.cur.out.filter (fun o => o.tid == s.tid && o.ctx == s.thr.placedAt && p o.dst)
/-- The release step of a fence or barrier: the drain of R204, the write-backs of R216 at package and pod scope, and the pushes that the
release fires (R368); `k` runs when all of it is complete. -/
def releaseThen (sc : Scope) (r : Word) (s : State) (k : State → Res) : Res :=
  afterReds .drain s fun s =>
  if !(s.myWrites (inExtent sc r s.core)).isEmpty then s.park .drain
  else
    match if isWide sc then s.release (dieOf s.core) (sc = .pod) else some s with
    | none => s.park .drain
    | some s => afterPushes s k
/-- trapval of *undeliverable* (R248). -/
def dropVal (l : List Drop) : Word :=
  match l with
  | [] => 0
  | d :: _ => word (min l.length 65535 * 2 ^ 48 + d.kind * 2 ^ 44 + d.reason * 2 ^ 40 + d.obj * 2 ^ 18 + d.core * 2 ^ 4)
/-- Raises *undeliverable* if a drop notice names a core of the extent, and clears every notice (R205, R248). -/
def checkDrops (sc : Scope) (r : Word) (s : State) (k : State → Res) : Res :=
  let l := s.thr.drops
  if l.any (fun d => inExtent sc r s.core d.core) then (s.updThr (fun t => { t with drops := [] })).trap undeliverable (dropVal l)
  else k s
/-- The acquire step (R217). -/
def State.acquireAt (s : State) (sc : Scope) : State := if isWide sc then s.acquire (dieOf s.core) (sc = .pod) else s

/-- FENCE.acq (R204). -/
def execFenceAcq (sc : Scope) (b : Reg) (s : State) : Res :=
  guardTrap s (rectTrap sc (s.rd b) none) fun _ => checkDrops sc (s.rd b) s fun s => (s.acquireAt sc).next 2
/-- FENCE.rel (R204). -/
def execFenceRel (sc : Scope) (b : Reg) (s : State) : Res :=
  guardTrap s (rectTrap sc (s.rd b) none) fun _ =>
  releaseThen sc (s.rd b) s fun s => checkDrops sc (s.rd b) s fun s => s.next 2
/-- FENCE.ar (R204). -/
def execFenceAr (sc : Scope) (b : Reg) (s : State) : Res :=
  guardTrap s (rectTrap sc (s.rd b) none) fun _ =>
  releaseThen sc (s.rd b) s fun s => checkDrops sc (s.rd b) s fun s => (s.acquireAt sc).next 2

/-! ### The cores of a launch (R340, R344) -/

/-- A deterministic launch. -/
def Packet.isDet (p : Packet) : Bool := p.flags.testBit 0
/-- The dies that a packet names, ascending. -/
def Packet.dieList (p : Packet) : List Nat := (List.range 8).filter (fun d => p.dies.testBit d)
/-- The index count. -/
def Packet.total (p : Packet) : Nat := p.n0 * p.n1 * p.n2
/-- T of R340. -/
def Packet.tasks (p : Packet) : Nat := (p.total + p.chunk - 1) / p.chunk
/-- The cores of a die that a packet uses, ascending. -/
def Packet.coresOf (p : Packet) (d : Nat) : List Nat :=
  ((List.range 1152).map (· + 1152 * d)).filter (fun c => !p.flags.testBit 3 || inRect p.rect c)
/-- The seed records of a die (R344): core, first task, task after the last. -/
def Packet.seeds (p : Packet) (d : Nat) : List (Nat × Nat × Nat) :=
  let ds := p.dieList
  match findPos (· == d) ds with
  | none => []
  | some j =>
    let lo := p.tasks * j / ds.length
    let td := p.tasks * (j + 1) / ds.length - lo
    let cs := p.coresOf d
    (cs.zipIdx.map (fun e => (e.1, lo + td * e.2 / cs.length, lo + td * (e.2 + 1) / cs.length))).filter (fun e => e.2.1 < e.2.2)
/-- The cores that a packet seeds: the count of R207 is settled by the packet alone. -/
def Packet.seeded (p : Packet) : List Nat := p.dieList.flatMap (fun d => (p.seeds d).map (·.1))
/-- A threads field as a limit (R140). -/
def threadLimit (n : Nat) : Nat := if n = 0 then 15 else n

/-! ### Barriers -/

/-- Tells the extents of a scope apart: the quad, the die, or the rectangle on its die. -/
def extentOf (sc : Scope) (r : Word) (me : Nat) : Nat :=
  match sc with
  | .quad => dieOf me * 288 + quadOf me
  | .rect => dieOf me * 2 ^ 32 + r.toNat % 2 ^ 32
  | .die => dieOf me
  | .core => me
  | .pkg | .pod => 0
/-- The network on which an instance runs, with its place: the quad, the die, the package, or the pod group (R206). -/
def Barrier.network (b : Barrier) : Nat × Nat :=
  match b.scope with
  | .quad => (1, b.extent)
  | .rect => (2, b.extent / 2 ^ 32)
  | .die => (2, b.extent)
  | .core => (0, b.extent)
  | .pkg => (3, 0)
  | .pod => (4, b.lnum)
/-- Instances of a network (R206). -/
def networkSize (n : Nat × Nat) : Nat := if n.1 = 1 then 4 else 16
/-- The pod group that a launch is a member of (R405). -/
def Hub.groupOf (h : Hub) (l : Nat) : Option PodGroup := (h.podGroups.find? (fun e => e.2.state != 0 && e.2.lnum == l)).map (·.2)
/-- E of R207: the arrivals that release an instance. -/
def State.expected (s : State) (b : Barrier) : Nat :=
  match s.hub.launches.find? (fun l => l.lnum == b.lnum && l.order == b.order) with
  | none => 0
  | some l =>
    let among := fun (p : Nat → Bool) => threadLimit l.threads * (l.pkt.seeded.filter p).length
    match b.scope with
    | .pod => ((s.hub.groupOf b.lnum).map (·.e)).getD 0
    | .pkg => among (fun _ => true)
    | .die => among (fun c => dieOf c == b.extent)
    | .rect => among (fun c => dieOf c == b.extent / 2 ^ 32 && inRect (b.extent % 2 ^ 32) c)
    | .quad => among (fun c => dieOf c * 288 + quadOf c == b.extent)
    | .core => 0
/-- Two descriptions name one instance (R206). -/
def Barrier.same (a b : Barrier) : Bool :=
  a.lnum == b.lnum && a.order == b.order && a.scope == b.scope && a.extent == b.extent && a.op == b.op && a.ty == b.ty
/-- The current thread's arrival joins its instance, or takes a free one; without a free one the thread waits for it (R206).  An arrival beyond
those that release a generation belongs to the next one (R207). -/
def State.arrive (s : State) (b : Barrier) (x : Word) : Res :=
  let me : Arrival := ⟨s.core, s.tid, s.nextId, x⟩
  let go := fun (l : List Barrier) =>
    (({ s with barriers := l, nextId := s.nextId + 1 }).updProgress (fun p => { p with begun := true, id := s.nextId })).park
      (.barrier (scopeNum b.scope))
  match findPos (fun y => y.same b && (y.arrivals.length < s.expected y || s.expected y = 0)) s.barriers with
  | some i => go (setAt s.barriers i (match s.barriers[i]? with | some y => { y with arrivals := y.arrivals ++ [me] } | none => b))
  | none =>
    if (s.barriers.filter (fun y => y.network == b.network)).length < networkSize b.network then
      go (s.barriers ++ [{ b with arrivals := [me] }])
    else s.park (.barrier (scopeNum b.scope))
/-- A barrier instruction (R208): `fin` writes the result. -/
def barrierOp (op : Nat) (ty : CombTy) (sc : Scope) (x : Word) (r : Word) (s : State) (fin : State → Word → State) : Res :=
  if s.thr.progress.begun then
    match s.thr.progress.ending with
    | some (.value y fl) => (((fin s y).updCtl (fun c => { c with fflags := c.fflags ||| fl })).acquireAt sc).next 2
    | _ => s.park (.barrier (scopeNum sc))
  else
    guardTrap s (firstTrap [trapIf (s.tid = 15) operandInvalid 15, rectTrap sc r (some s.core)]) fun _ =>
    releaseThen sc r s fun s => checkDrops sc r s fun s =>
    let l := s.curLaunch.getD 0
    s.arrive ⟨l, ((s.launchAt l).map (·.order)).getD 0, sc, extentOf sc r s.core, op, ty, []⟩ x
/-- BAR (R208). -/
def execBar (sc : Scope) (b : Reg) (s : State) : Res := barrierOp 0 .n64 sc 0 (s.rd b) s fun s _ => s
/-- BARMAX (R208). -/
def execBarmax (t : CombTy) (sc : Scope) (d a b : Reg) (s : State) : Res := barrierOp 1 t sc (s.rd a) (s.rd b) s fun s y => s.wr d y
/-- BARSUM (R208). -/
def execBarsum (t : CombTy) (sc : Scope) (d a b : Reg) (s : State) : Res := barrierOp 2 t sc (s.rd a) (s.rd b) s fun s y => s.wr d y
/-- BARMIN (R208). -/
def execBarmin (t : CombTy) (sc : Scope) (d a b : Reg) (s : State) : Res := barrierOp 3 t sc (s.rd a) (s.rd b) s fun s y => s.wr d y

/-- The combined result of some contributions with its flags (R209): operation 0 BAR, 1 BARMAX, 2 BARSUM, 3 BARMIN. -/
def combine (op : Nat) (ty : CombTy) (l : List Word) : Word × Flags :=
  match ty with
  | .n64 | .i64 =>
    let key := fun (x : Word) => if ty = .i64 then (x + 0x8000000000000000 : Word).toNat else x.toNat
    let y := if op = 2 then l.foldl (· + ·) 0
      else if op = 1 then (argMax key l).getD 0
      else if op = 3 then (argMin key l).getD 0
      else 0
    (y, 0)
  | .f32 =>
    let xs := l.map (fun x => x.toNat % 2 ^ 32)
    let nums := xs.map (fun x => unpackF .f32 x)
    let opposed := op = 2 && nums.any (· == .inf false) && nums.any (· == .inf true)
    let inv := snanFlag nums ||| (if opposed then flInvalid else 0)
    if nums.any Num.isNan then (word (canonNan .f32), inv)
    else if op = 2 then
      let r := sumF .f32 .rne false nums
      (word (if r.x = 0x80000000 then 0 else r.x), r.fl)
    else
      match xs with
      | [] => (0, 0)
      | x :: rest => (word (rest.foldl (fun a b => (fpMinMax .f32 false (op = 1) a b).x) x), 0)
/-- The release reaches a participant: a thread parked at the barrier resumes with the result, and a saved context keeps it (R208, R210). -/
def State.deliver (s : State) (a : Arrival) (y : Word) (fl : Flags) : State :=
  let give := fun (t : Thread) => { t with progress := { t.progress with ending := some (.value y (fl.setWidth 64)) } }
  let mine := fun (t : Thread) => t.progress.begun && t.progress.id == a.id && t.progress.ending.isNone
  let keep := fun (x : Saved) => if x.tid = a.tid && mine x.thread then { x with thread := give x.thread, ready := true } else x
  let s := s.updCore a.core (fun c =>
    let c := if mine (c.thr a.tid) then c.updThr a.tid (fun t => (give t).wakeUp) else c
    { c with spills := c.spills.map keep })
  s.updPool (fun c x => if c = a.core then keep x else x)
/-- BARRIER_RELEASE (R208): the n-th instance in use has all its arrivals; at pod scope `remote` holds the contributions of other packages, which
come while a port is up (R404).  DESIGN CHOICE (log 58): an instance of which no arrival is expected, in an extent without a seeded core or at pod scope
without an open pod group, is never released, since R207 gives that case no outcome. -/
def execBarrierRelease (n : Nat) (remote : List Word) (s : State) : Res :=
  match s.barriers[n]? with
  | none => .next s
  | some b =>
    let l := b.arrivals.map (·.x) ++ (if b.scope = .pod then remote else [])
    if s.expected b = 0 || l.length < s.expected b || (b.scope = .pod && !remote.isEmpty && s.hub.allDown.isSome) then .next s
    else
      let r := combine b.op b.ty l
      let s := { s with barriers := dropAt s.barriers n }
      let s := b.arrivals.foldl (fun (s : State) a => s.deliver a r.1 r.2) s
      .next (s.wakeBy (fun _ _ t w => match w with
        | .barrier _ => !t.progress.begun
        | _ => false))

/-! ### WAITGE (R212) -/

/-- WAITGE (R212). -/
def execWaitge (d a : Reg) (s : State) : Res :=
  let x := s.rd a
  guardTrap s (firstTrap [trapIf (x.toNat % 8 ≠ 0) misalignment x, trapIf (bits x 63 18 ≠ 0) operandInvalid x,
    s.lmTrap false x.toNat 8, s.lmDamage x.toNat 8]) fun _ =>
  let y := s.cur.lmRead x.toNat 8
  if y < (s.rd d).toNat then s.park (.counter x.toNat (s.rd d).toNat)
  else ((s.wr d (word y)).acquireAt .pkg).next 2

end Sys2Proof.Machine
end

