-- ==== Sys2Proof/Machine/Messages.lean ====
section
/-! DEFINITION. Landing registers (R242 to R246), posted remote writes and drops (R199, R205, R247 to R249), messages (R251 to R259), user
events (R260 to R262), and the wait limit (R51, R250). -/

namespace Sys2Proof.Machine

/-! ### Posted writes (R199, R247) -/

/-- Sends a posted write of the current thread; it is outstanding until its acknowledgement or drop notice. -/
def State.send (s : State) (dst : Nat) (kind : NetKind) : State :=
  let s' := s.updCur (fun c => { c with out := c.out ++ [⟨s.nextId, s.tid, s.thr.placedAt, dst⟩] })
  { s' with net := s'.net ++ [⟨s.nextId, s.core, s.tid, dst, s.tn, s.hub.now, s.curLaunch, kind, .flight⟩], nextId := s.nextId + 1 }
/-- Goes on when the core has a remote-write credit, and parks for one otherwise (R50). -/
def withCredit (s : State) (k : State → Res) : Res := if 64 ≤ s.cur.out.length then s.park .credit else k s
/-- Changes an item of the net. -/
def State.setNet (s : State) (n : Nat) (x : NetItem) : State := { s with net := setAt s.net n x }
/-- The item is answered. -/
def State.ackNet (s : State) (n : Nat) (x : NetItem) : State := s.setNet n { x with phase := .acked }
/-- A write is dropped at its destination, which counts it (R247, R248). -/
def State.dropNet (s : State) (n : Nat) (x : NetItem) (kind reason obj : Nat) : State :=
  (s.updDie (dieOf x.dst) (fun d => { d with droppedWrites := d.droppedWrites + 1 })).setNet n
    { x with phase := .dropped ⟨kind, reason, obj, x.dst⟩ }
/-- A task of the sender's launch remains on the destination core. -/
def State.hosts (s : State) (core : Nat) (l : Option Nat) : Bool := l.any (s.remains core ·)
/-- A remote LM store of a launch may write a byte's block (R137). -/
def Core.remoteOk (s : State) (c : Core) (l : Option Nat) (b : Nat) : Bool :=
  match c.attr b with
  | .data => true
  | .system | .copy => false
  | .code slot =>
    match c.slots[slot]?, l.bind s.launchAt with
    | some x, some y => x.state == 2 && x.writable && y.tag == some x.tag
    | _, _ => false

/-! ### Landing registers -/

/-- A landing register. -/
def Core.land (c : Core) (li : Nat) : LandReg := (c.landing[li]?).getD ⟨0, false, [], 0⟩
/-- Changes a landing register. -/
def Core.updLand (c : Core) (li : Nat) (f : LandReg → LandReg) : Core := { c with landing := c.landing.setIfInBounds li (f (c.land li)) }
/-- The holder check of l0 to l15 (R242, R43). -/
def landTrap (s : State) (li : Nat) : Option TrapOf :=
  trapIf (li < 16 && (match s.cur.landHolder with
    | none => false
    | some h => s.curLaunch != some h)) operandInvalid (word li)
/-- The first access of a launch makes it the holder. -/
def State.holdLand (s : State) (li : Nat) : State :=
  if 16 ≤ li then s
  else s.updCur (fun c => { c with landHolder := match c.landHolder with | none => c.launchOf s.tid | some h => some h })
/-- A landing register may be filled in the current cycle (R244). -/
def Core.mayFill (c : Core) (li : Nat) : Bool := !(c.land li).full && decide ((c.land li).fillAt ≤ c.cyc.toNat)
/-- A landing register fills, once in a cycle: the TAKE that parked first is served (R52, R243, R244). -/
def Core.fillLand (c : Core) (li : Nat) (x : Word) : Core :=
  let c := { c.updLand li (fun l => { l with data := x, full := true, fillAt := c.cyc.toNat + 1 }) with badLand := c.badLand.filter (· ≠ li) }
  c.wakeFirst (fun w => w == .landing li false)
/-- A landing register empties; its first waiting writer fills it in the next cycle (R244). -/
def Core.emptyLand (c : Core) (li : Nat) : Core :=
  c.updLand li (fun l => { l with full := false, fillAt := if l.full then c.cyc.toNat + 1 else l.fillAt })
/-- The *data error* of a damaged landing register (R395). -/
def landDamage (s : State) (li : Nat) : Option TrapOf := trapIf (s.cur.badLand.contains li) dataError (word li)

/-- PUTL (R246): it fills an Empty register for which no writer waits, and joins the waiting writers otherwise (R244). -/
def execPutl (li : Landing) (c : Reg) (s : State) : Res :=
  let i := li.toNat
  guardTrap s (landTrap s i) fun _ =>
  let s := s.holdLand i
  let first := match (s.cur.land i).waiters with
    | [] => true
    | w :: _ => w == .putl s.tid
  if s.cur.mayFill i && first then
    (s.updCur (fun k => (k.updLand i (fun l => { l with waiters := l.waiters.filter (· ≠ .putl s.tid) })).fillLand i (s.rd c))).next 2
  else
    (s.updCur (fun k => k.updLand i (fun l => { l with
      waiters := if l.waiters.contains (.putl s.tid) then l.waiters else l.waiters ++ [.putl s.tid] }))).park (.landing i true)
/-- The target word of R245. -/
def rputBad (t : Word) : Bool := bits t 63 18 != 0 || bits t 3 0 != 0 || 9215 < bits t 17 4
/-- RPUT (R246). -/
def execRput (li : Landing) (c a : Reg) (s : State) : Res :=
  let t := s.rd a
  guardTrap s (trapIf (rputBad t) operandInvalid t) fun _ =>
  withCredit s fun s => (s.send (bits t 17 4) (.rput li.toNat (s.rd c))).next 2
/-- TAKE (R246). -/
def execTake (c : Reg) (li : Landing) (s : State) : Res :=
  let i := li.toNat
  guardTrap s (firstTrap [landTrap s i, landDamage s i]) fun _ =>
  let s := s.holdLand i
  if (s.cur.land i).full then
    ((s.wr c (s.cur.land i).data).updCur (·.emptyLand i)).next 2
  else s.park (.landing i false)
/-- PEEK (R246). -/
def execPeek (c : Reg) (li : Landing) (s : State) : Res :=
  let i := li.toNat
  guardTrap s (firstTrap [landTrap s i, landDamage s i]) fun _ =>
  let s := s.holdLand i
  (s.wr c (s.cur.land i).data).next 2
/-- TESTL (R246). -/
def execTestl (c : Reg) (li : Landing) (s : State) : Res :=
  let i := li.toNat
  guardTrap s (firstTrap [landTrap s i, landDamage s i]) fun _ =>
  let s := s.holdLand i
  (s.wr c (boolWord (s.cur.land i).full)).next 2
/-- CLRL (R246). -/
def execClrl (li : Landing) (s : State) : Res :=
  let i := li.toNat
  guardTrap s (landTrap s i) fun _ =>
  let s := s.holdLand i
  (s.updCur (·.emptyLand i)).next 2
/-- Why a remote write of a launch to a landing register is dropped, if it is (R247). -/
def State.rputDrop (s : State) (core li : Nat) (l : Option Nat) : Option Nat :=
  let h := (s.coreAt core).landHolder
  if !s.hosts core l then some 1 else if li < 16 && h.isSome && h != l then some 3 else none
/-- A launch whose remote write is performed holds l0 to l15 from then on (R242, R247). -/
def Core.heldBy (c : Core) (li : Nat) (l : Option Nat) : Core := if li < 16 then { c with landHolder := l } else c
/-- The waiting writers of a landing register that may be filled are served: the first PUTL completes when its thread resumes, and the first remote write
that R247 still admits is performed; one that it no longer admits is dropped. -/
def State.servePort (core li : Nat) : List Writer → State → State
  | [], s => s
  | .putl t :: _, s => s.updThrAt core t Thread.wakeUp
  | .remote id _ _ x :: rest, s =>
    let s := s.updCore core (·.updLand li (fun r => { r with waiters := rest }))
    match findPos (fun (y : NetItem) => y.id == id) s.net with
    | none => State.servePort core li rest s
    | some n =>
      match s.net[n]? with
      | none => s
      | some y =>
        match s.rputDrop core li y.lnum with
        | some r => State.servePort core li rest (s.dropNet n y 0 r li)
        | none => (s.updCore core (fun c => (c.heldBy li y.lnum).fillLand li x)).ackNet n y
/-- The first waiting writer of a landing register fills it where it may be filled (R244). -/
def State.fillPort (s : State) (core li : Nat) : State :=
  let c := s.coreAt core
  if c.mayFill li then State.servePort core li (c.land li).waiters s else s
/-- LANDING_PORT_FILL (R244). -/
def execLandingPortFill (core : Nat) (li : Landing) (s : State) : Res := .next (s.fillPort core li.toNat)

/-! ### RPUTM, RPUTMV (R249) -/

/-- The checks of a remote LM store of `n` bytes: alignment, then the word; `holder` is the check of R119 on a window source. -/
def rputmTraps (t : Word) (n : Nat) : Option TrapOf × Option TrapOf :=
  (trapIf (bits t 35 18 % 8 ≠ 0) misalignment (word (bits t 35 18)),
   trapIf (bits t 63 36 ≠ 0 || bits t 3 0 ≠ 0 || 9215 < bits t 17 4 || 0x40000 < bits t 35 18 + n) operandInvalid t)
/-- RPUTM (R249). -/
def execRputm (a b : Reg) (s : State) : Res :=
  let t := s.rd a
  let c := rputmTraps t 8
  guardTrap s (firstTrap [c.1, c.2]) fun _ =>
  withCredit s fun s => (s.send (bits t 17 4) (.rputm (bits t 35 18) (s.rd b))).next 2
/-- RPUTMV (R249): its data are read, and a window source is claimed, before it waits for a credit. -/
def execRputmv (a : Reg) (v : VCode) (s : State) : Res :=
  let t := s.rd a
  let c := rputmTraps t 256
  let send := fun (s : State) => withCredit s fun s => (s.send (bits t 17 4) (.rputmv (bits t 35 18) s.thr.progress.data)).next 2
  if s.thr.progress.begun then send s else withWindows [v] [] c.1 c.2 s fun s' => send (s'.capture (s.vget v) 0)

/-! ### Delivery (R244, R247, R248, R57, R360) -/

/-- What WAKE does at its target core (R57): sets the wake bit, or gives a drop reason. -/
def State.wakeTarget (s : State) (core t : Nat) (l : Option Nat) : State × Option Nat :=
  let c := s.coreAt core
  let set := fun (x : Thread) => ({ x with wake := true } : Thread)
  let saved := fun (x : Saved) => x.valid && x.tid == t && x.thread.task.any (fun k => some k.lnum == l)
  let mark := fun (x : Saved) => if saved x then { x with thread := set x.thread, ready := x.ready || x.thread.parkOf == some .wake } else x
  if t = 15 then
    if c.copyProg.isSome && c.copyProg == l then
      (s.updThrAt core 15 (fun (x : Thread) => let x := set x; if x.parkOf = some .wake then x.wakeUp else x), none)
    else (s, some 4)
  else if (c.thr t).task.any (fun k => some k.lnum == l) then
    (s.updThrAt core t (fun (x : Thread) => let x := set x; if x.parkOf = some .wake then x.wakeUp else x), none)
  else if c.spills.any saved then (s.updCore core (fun c => { c with spills := c.spills.map mark }), none)
  else if s.hub.pool.any (fun e => e.1 == core && saved e.2) then
    (s.updPool (fun c x => if c = core then mark x else x), none)
  else if !s.hosts core l then (s, some 1)
  else (s, some 4)
/-- Bytes of an LM store at a destination: all are permitted, or the write is dropped.  DESIGN CHOICE (log 58): the 32 words of an RPUTMV are performed in one
step, though their order, and which of them a vector access sees, are left open (R142, R249). -/
def State.deliverLm (s : State) (n : Nat) (x : NetItem) (kind a : Nat) (l : List Byte) : State :=
  let c := s.coreAt x.dst
  if !s.hosts x.dst x.lnum then s.dropNet n x kind 1 a
  else if (lmFail (c.remoteOk s x.lnum) a l.length).isSome then s.dropNet n x kind 2 a
  else (s.updCore x.dst (fun c => c.lmPut a l)).ackNet n x
/-- Writers that wait at a core's landing port (R244). -/
def Core.portWaiting (c : Core) : Nat :=
  ((List.range 32).map (fun i => ((c.land i).waiters.filter (fun w => match w with | .remote _ _ _ _ => true | .putl _ => false)).length)).sum
/-- An RPUT at its destination: it fills the register, waits at the port, or stays in the mesh while the port is full. -/
def State.deliverRput (s : State) (n : Nat) (x : NetItem) (li : Nat) (v : Word) : State :=
  match s.rputDrop x.dst li x.lnum with
  | some r => s.dropNet n x 0 r li
  | none =>
    let c := (s.coreAt x.dst).heldBy li x.lnum
    if c.mayFill li && (c.land li).waiters.isEmpty then (s.setCore x.dst (c.fillLand li v)).ackNet n x
    else if c.portWaiting < 16 then
      (s.setCore x.dst (c.updLand li (fun l => { l with waiters := l.waiters ++ [.remote x.id x.src x.tid v] }))).setNet n
        { x with phase := .waiting c.cyc.toNat }
    else s
/-- A record joins a core's deque at the owner end. -/
def Core.pushRec (c : Core) (r : TaskRec) : Core :=
  { c with deque := r :: c.deque, held := if c.held.contains r.lnum then c.held else r.lnum :: c.held }
/-- The cycles in which records arrived that still wait for room in a core's deque, by the launch of a seed or the identifier of a sent record
(R347, R360). -/
def State.recordQueue (s : State) (core : Nat) : List (Nat × Bool × Nat) :=
  (s.hub.launches.filterMap (fun l => (getKey l.stuck core).map (fun at_ => (at_, true, l.lnum)))) ++
  s.net.filterMap (fun y => match y.phase, y.kind with
    | .waiting since, .record _ => if y.dst = core then some (since, false, y.id) else none
    | _, _ => none)
/-- The waiting record that arrived first; of seeds and sent records that arrived in one cycle a seed. -/
def State.firstRecord (s : State) (core : Nat) : Option (Bool × Nat) := (argMin (fun e => e.1) (s.recordQueue core)).map (·.2)
/-- A task record reaches a core's deque at the owner end, or waits for room, behind records that arrived before it (R347, R360). -/
def State.deliverRecord (s : State) (n : Nat) (x : NetItem) (r : TaskRec) : State :=
  let c := s.coreAt x.dst
  let room := decide (c.deque.length < 64)
  match x.phase, s.firstRecord x.dst with
  | .flight, none => if room then (s.setCore x.dst (c.pushRec r)).ackNet n x else s.setNet n { x with phase := .waiting c.cyc.toNat }
  | .flight, some _ => { s with net := dropAt s.net n ++ [{ x with phase := .waiting c.cyc.toNat }] }
  | .waiting _, f => if room && f == some (false, x.id) then (s.setCore x.dst (c.pushRec r)).ackNet n x else s
  | .acked, _ | .dropped _, _ => s
/-- The item has not been performed at its destination. -/
def NetItem.open_ (x : NetItem) : Bool :=
  match x.phase with
  | .flight | .waiting _ => true
  | .acked | .dropped _ => false
/-- An item may reach its destination core: under deterministic operation what one core sends to one core is performed in issue order (R202). -/
def State.inOrder (s : State) (x : NetItem) : Bool :=
  (s.dieAt (dieOf x.src)).det.isNone || !s.net.any (fun y => y.src == x.src && y.dst == x.dst && decide (y.id < x.id) && y.open_)
/-- REMOTE_WRITE_DELIVERY (R247): the n-th posted write reaches its destination core. -/
def execRemoteWriteDelivery (n : Nat) (s : State) : Res :=
  match s.net[n]? with
  | none => .next s
  | some x =>
    if !s.inOrder x then .next s
    else
    match x.phase, x.kind with
    | .flight, .rput li v => .next (s.deliverRput n x li v)
    | .flight, .rputm a v => .next (s.deliverLm n x 1 a (bytesOfNat 8 v.toNat))
    | .flight, .rputmv a v => .next (s.deliverLm n x 2 a (bytesOfVreg v))
    | .flight, .wake t =>
      match s.wakeTarget x.dst t x.lnum with
      | (s, none) => .next (s.ackNet n x)
      | (s, some r) => .next (s.dropNet n x 3 r t)
    | .flight, .record r | .waiting _, .record r => .next (s.deliverRecord n x r)
    | _, _ => .next s

/-- An answered write leaves the net: its credit returns to the sender's core, and waiting threads look again. -/
def State.answered (s : State) (n : Nat) (x : NetItem) : State :=
  let s := { s with net := dropAt s.net n }
  s.updCore x.src (fun (c : Core) =>
    ({ c with out := c.out.filter (fun o => o.id ≠ x.id) } : Core).wakeIf (fun (t : Nat) (w : Park) => w == .credit || (w == .drain && t == x.tid)))
/-- REMOTE_WRITE_ACK (R199). -/
def execRemoteWriteAck (n : Nat) (s : State) : Res :=
  match s.net[n]? with
  | some x => if x.phase = .acked then .next (s.answered n x) else .next s
  | none => .next s
/-- Records a drop notice against a context of a thread: running, spilled or swapped; one whose task has retired is discarded (R355). -/
def State.recordDrop (s : State) (core tid ctx : Nat) (d : Drop) : State :=
  let add := fun (t : Thread) => if t.placedAt = ctx then { t with drops := t.drops ++ [d] } else t
  let addTo := fun (x : Saved) => if x.tid = tid then { x with thread := add x.thread } else x
  let s := s.updCore core (fun c => { (if (c.thr tid).status = .free then c else c.updThr tid add) with spills := c.spills.map addTo })
  s.updPool (fun c x => if c = core then addTo x else x)
/-- DROP_NOTICE (R205). -/
def execDropNotice (n : Nat) (s : State) : Res :=
  match s.net[n]? with
  | some x =>
    match x.phase with
    | .dropped d =>
      let ctx := (((s.coreAt x.src).out.find? (fun o => o.id == x.id)).map (·.ctx)).getD 0
      .next ((s.recordDrop x.src x.tid ctx d).answered n x)
    | .flight | .waiting _ | .acked => .next s
  | none => .next s

/-! ### Messages -/

/-- MSND and MSNDN (R254). -/
def sendMessage (named : Bool) (a b : Reg) (s : State) : Res :=
  let d := s.rd a
  guardTrap s (trapIf (bits d 31 26 ≠ 0 || 9215 < bits d 17 4 || (!named && bits d 63 32 ≠ 0)) operandInvalid d) fun _ =>
  withCredit s fun s =>
  let hdr := word ((if named then 2 else 1) + s.core * 2 ^ 4 + s.tid * 2 ^ 18 + s.thr.sendCount.toNat * 2 ^ 22 + bits d 3 0 * 2 ^ 38 +
    bits d 25 18 * 2 ^ 42)
  let s' := s.send (bits d 17 4) (.message ⟨hdr, s.rd b, if named then bits d 63 32 else 0xFFFFFFFF, 0, s.tn⟩)
  (s'.updThr (fun t => { t with sendCount := t.sendCount + 1 })).next 2
/-- MSND (R254). -/
def execMsnd (a b : Reg) (s : State) : Res := sendMessage false a b s
/-- MSNDN (R254). -/
def execMsndn (a b : Reg) (s : State) : Res := sendMessage true a b s

/-- A context runs the addressed task: a task of the launch, and the named one if one is named. -/
def Thread.runs (t : Thread) (l : Option Nat) (task : Nat) : Bool :=
  t.task.any (fun k => some k.lnum == l) && (task == 0xFFFFFFFF || t.ctl.taskid.toNat == task)
/-- The test of R255: none enqueues the message; otherwise the first reason that applies.  DESIGN CHOICE (log 58): for a named task of which no row of the
table speaks, the reason is 2 while its record is on its way to a deque, as a seed, as a sent record or from the pool, and otherwise, with the thread Free,
1: a task whose record DQPOP has taken out, or a number that is no task of the launch. -/
def State.messageTest (s : State) (core t task : Nat) (l : Option Nat) : Option Nat :=
  let c := s.coreAt core
  let any := task == 0xFFFFFFFF
  let spilled := fun (k : Core) (p : Saved → Bool) => k.spills.any (fun x => x.valid && x.thread.runs l task && p x)
  let enq := if t = 15 then any && c.copyProg.isSome && c.copyProg == l
    else (c.thr t).runs l task || spilled c (fun x => x.tid == t)
  if enq then none
  else
    let swapped := s.hub.pool.any (fun e => e.2.thread.runs l task && (!any || (e.1 == core && e.2.tid == t)))
    let inRec := fun (r : TaskRec) => some r.lnum == l && r.lo ≤ task && task < r.hi
    let unplaced := !any && (s.cores.any (fun e => e.2.deque.any inRec) ||
      s.cores.any (fun e => (List.range 15).any (fun j => (e.2.thr j).task.any (fun k => some k.lnum == l && k.todo.contains task))) ||
      s.net.any (fun i => i.phase != .acked && (match i.kind with | .record r => inRec r | _ => false)) ||
      s.hub.launches.any (fun y => some y.lnum == l && y.todo.any (fun e =>
        ((y.pkt.seeds e.1).drop e.2).any (fun r => r.2.1 ≤ task && task < r.2.2))) ||
      s.hub.launches.any (fun y => y.poolRecs.any (fun e => inRec e.2)))
    let retired := l == some goneLaunch || s.hub.launches.any (fun y => some y.lnum == l && y.retired.contains task)
    let placed := s.cores.any (fun e => (List.range 15).any (fun j => (e.2.thr j).runs l task) || spilled e.2 (fun _ => true))
    if swapped then some 3
    else if unplaced then some 2
    else if any then (if t ≠ 15 && (c.thr t).status == .free then some 1 else some 4)
    else if retired then some 1
    else if placed || t == 15 || (c.thr t).status != .free then some 4
    else some 1
/-- The selector of R257 matches a message. -/
def Message.matchesSel (m : Message) (sel : Word) : Bool :=
  bits m.hdr 49 42 == bits sel 25 18 && bits m.hdr 17 4 == bits sel 17 4 && bits m.hdr 21 18 == bits sel 3 0
/-- A message joins a core's queue: a WAITM that it satisfies ends its wait, and a spilled context of the thread that is parked on WAITM becomes
restorable, whatever its selector (R255, R257). -/
def Core.enqueue (c : Core) (m : Message) : Core :=
  let c := ({ c with msgq := c.msgq ++ [{ m with at_ := c.cyc.toNat }] } : Core).wakeIf (fun (t : Nat) (w : Park) => t == m.dthread && (match w with
    | .message none => true
    | .message (some sel) => m.matchesSel sel
    | _ => false))
  { c with spills := c.spills.map (fun x =>
      match x.thread.parkOf with
      | some (.message _) => if x.valid && x.tid == m.dthread then { x with ready := true } else x
      | _ => x) }
/-- Messages that wait at a core's port. -/
def State.msgWaiting (s : State) (core : Nat) : List NetItem :=
  s.net.filter (fun x => x.dst == core && (match x.phase, x.kind with | .waiting _, .message _ => true | _, _ => false))
/-- MESSAGE_ARRIVAL (R252, R255): the n-th posted write is a message that reaches its core, or one that waits there for an entry; one that is
enqueued is a sample of its latency (R409). -/
def execMessageArrival (n : Nat) (s : State) : Res :=
  match s.net[n]? with
  | none => .next s
  | some x =>
    match x.kind with
    | .message m =>
      let free := (s.coreAt x.dst).msgq.length < 64
      let test := s.messageTest x.dst m.dthread m.task x.lnum
      let take := fun (_ : Unit) => (match test with
        | some r => (s.redirect x.tn m x.dst m.dthread r).ackNet n x
        | none => ((s.sampleEvent (dieUnits (dieOf x.dst)) 3 (fun _ => true) (dieCycles (s.hub.now - x.sent))).updCore x.dst (·.enqueue { m with tn := x.tn })).ackNet n x)
      if !s.inOrder x then .next s
      else
      match x.phase with
      | .flight =>
        if test.isSome || (free && (s.msgWaiting x.dst).isEmpty) then .next (take ())
        else .next { s with net := dropAt s.net n ++ [{ x with phase := .waiting (s.coreAt x.dst).cyc.toNat }] }
      | .waiting _ => if free && ((s.msgWaiting x.dst).head?.map (·.id)) == some x.id then .next (take ()) else .next s
      | .acked | .dropped _ => .next s
    | _ => .next s
/-- MESSAGE_DIVERT (R252): the message that has waited longest at a core, for 4,096 cycles, goes to the overflow area. -/
def execMessageDivert (core : Nat) (s : State) : Res :=
  match (s.msgWaiting core).head? with
  | none => .next s
  | some x =>
    match x.phase, x.kind with
    | .waiting since, .message m =>
      if since + 4096 ≤ (s.coreAt core).cyc.toNat then
        let s := s.redirect x.tn m core m.dthread 5
        .next { s with net := s.net.map (fun (y : NetItem) => if y.id = x.id then { y with phase := .acked } else y) }
      else .next s
    | _, _ => .next s

/-- The messages queued for the current thread that match a selector, with their positions, oldest first (R257). -/
def State.queuedFor (s : State) (sel : Option Word) : List Message :=
  s.cur.msgq.filter (fun m => m.dthread == s.tid && (match sel with | none => true | some x => m.matchesSel x))
/-- A list without the first element equal to one. -/
def dropFirst {β : Type} [DecidableEq β] (x : β) : List β → List β
  | [] => []
  | y :: l => if y = x then l else y :: dropFirst x l
/-- MRCV and MRCVN (R257). -/
def receive (sel : Option Word) (d : Reg) (s : State) : Res :=
  match s.queuedFor sel with
  | [] => ((s.wr d 0).updCtl (fun c => { c with msghdr := 0 })).next 2
  | m :: _ =>
    (((s.updCur (fun c => { c with msgq := dropFirst m c.msgq })).wr d m.payload).updCtl (fun c => { c with msghdr := m.hdr })).next 2
/-- A selector with a reserved bit. -/
def selTrap (x : Word) : Option TrapOf := trapIf (bits x 63 26 ≠ 0) operandInvalid x
/-- MRCV (R257, R259). -/
def execMrcv (d : Reg) (s : State) : Res := if s.det then s.trap orderDependent 0 else receive none d s
/-- MRCVN (R257): ra = 00000 is selector 0. -/
def execMrcvn (d a : Reg) (s : State) : Res := guardTrap s (selTrap (s.rd a)) fun _ => receive (some (s.rd a)) d s
/-- WAITM (R257): ra = 00000 waits for any message. -/
def execWaitm (a : Reg) (s : State) : Res :=
  let sel := if a = 0 then none else some (s.rd a)
  guardTrap s (if a = 0 then none else selTrap (s.rd a)) fun _ =>
  if (s.queuedFor sel).isEmpty then s.park (.message sel) else s.next 2

/-! ### User events (R260 to R262) -/

/-- The message that makes an event pending for a thread (R261). -/
def Core.pendingEvent (c : Core) (t : Nat) : Option Message :=
  let x := (c.thr t).ctl
  if x.evmask.getLsbD 63 && !x.evcause.getLsbD 63 && !x.trapcause.getLsbD 63 && bits x.evvec 17 2 != 0 then
    match c.msgq.find? (fun m => m.dthread == t) with
    | some m => if x.evmask.getLsbD (bits m.hdr 3 0) then some m else none
    | none => none
  else none
/-- A park that an event may end (R261). -/
def Park.eventful : Park → Bool
  | .landing _ _ | .window _ | .message _ | .wake | .counter _ _ | .version _ _ => true
  | .reply | .fault _ | .matrix _ | .engineQueue | .credit | .barrier _ | .drain => false
/-- EVENT_ENTRY (R261): at a slot where the thread would issue, or during a park that it abandons: once the cycle in which the message arrived is over, so
that a waking event of that cycle has won. -/
def execEventEntry (core tid : Nat) (s : State) : Res :=
  let c := s.coreAt core
  let t := c.thr tid
  let may := match t.status with
    | .ready => t.readyAt ≤ c.cyc.toNat
    | .parked w _ _ => w.eventful && !t.resume
    | .free | .stopped _ => false
  match c.pendingEvent tid with
  | none => .next s
  | some m =>
    if !may || (t.parkOf.isSome && c.cyc.toNat ≤ m.at_) then .next s
    else
      let s := { s with core := core, tid := tid }
      let s := s.updCur (fun c => (c.abandon tid).mend tid [cNum 0x042, cNum 0x043])
      .next (s.updThr (fun x => { x with
        status := .ready, pc := x.ctl.evvec, readyAt := c.cyc.toNat + 4,
        ctl := { x.ctl with evpc := x.pc, evcause := (1 <<< 63) ||| word (bits m.hdr 49 0) } })).refill
/-- EVON (R262). -/
def execEvon (s : State) : Res :=
  if s.det then s.trap orderDependent 0 else (s.updCtl (fun c => { c with evmask := c.evmask ||| (1 <<< 63) })).next 2
/-- EVOFF (R262). -/
def execEvoff (s : State) : Res := (s.updCtl (fun c => { c with evmask := c.evmask &&& ~~~(1 <<< 63 : Word) })).next 2
/-- EVRET (R262). -/
def execEvret (s : State) : Res :=
  let c := s.thr.ctl
  if !c.evcause.getLsbD 63 then s.trap operandInvalid c.evcause
  else jumpChecked s (s.updCtl (fun c => { c with evcause := c.evcause &&& ~~~(1 <<< 63 : Word) })) 4 c.evpc

/-! ### The wait limit (R51, R250) -/

/-- trapval of *wait expired* (R250). -/
def expiredVal : Park → Word
  | .landing li _ => word (1 + li * 2 ^ 8)
  | .window c => word (2 + c * 2 ^ 8)
  | .message _ => 3
  | .wake => 4
  | .counter a _ => word (5 + a * 2 ^ 16)
  | .version _ v => word (6 + v % 2 ^ 32 * 2 ^ 16)
  | .barrier sc => word (7 + sc * 2 ^ 8)
  | .reply | .fault _ | .matrix _ | .engineQueue | .credit | .drain => 0
/-- The cycle in which a thread's governed wait expires, with its park. -/
def Thread.expiry (t : Thread) : Option (Nat × Park) :=
  match t.status with
  | .parked w since _ => if w.limited && t.ctl.waitlim != 0 then some (since + t.ctl.waitlim.toNat, w) else none
  | .free | .ready | .stopped _ => none
/-- A saved context whose wait has lasted its limit without its waking event ends in its trap: it is restorable (R51, R53). -/
def Saved.expire (y : Saved) (now : Nat) : Saved :=
  match y.thread.expiry with
  | some (at_, w) =>
    if y.valid && !y.ready && decide (at_ < now) then
      { y with ready := true, thread := { y.thread with progress := { y.thread.progress with ending := some (.trap waitExpired (expiredVal w)) } } }
    else y
  | none => y
/-- The waits of a core's spilled and swapped contexts that have lasted their limits end. -/
def State.expireSaved (s : State) (core : Nat) : State :=
  let now := (s.coreAt core).cyc.toNat
  (s.updCore core (fun c => { c with spills := c.spills.map (fun (y : Saved) => y.expire now) })).updPool (fun c y => if c = core then y.expire now else y)
/-- A wait whose limit has passed without its waking event ends in its trap; the whole cycle of the expiry is over, so that an event of that cycle
has won (R51). -/
def State.expire (s : State) (core tid : Nat) : State :=
  let t := (s.coreAt core).thr tid
  match t.expiry with
  | some (at_, w) =>
    if !t.resume && decide (at_ < (s.coreAt core).cyc.toNat) then
      (({ s with core := core, tid := tid } : State).trapSt waitExpired (expiredVal w)).updThrAt core tid (fun t => { t with readyAt := at_ + 4 })
    else s
  | none => s
/-- WAIT_EXPIRED (R250). -/
def execWaitExpired (core tid : Nat) (s : State) : Res := .next (s.expire core tid)

end Sys2Proof.Machine
end

