-- ==== Sys2Proof/Machine/Tasks.lean ====
section
/-! DEFINITION. Kernel images (R139 to R141), launch packets and queues (R337 to R343), distribution (R344), task placement, dispatch and
stealing (R345 to R350), and retirement (R341, R351), with the event rows that perform them. -/

namespace Sys2Proof.Machine

/-! ### Reads and writes by the hub -/

/-- Reads bytes through a die's slices, sector by sector; `fuel` bounds the sectors.  A read that does not end well answers with the bytes before. -/
def State.hubRead : Nat → State → Nat → Nat → Nat → Nat → State × Ans × List Byte
  | 0, s, _, _, _, _ => (s, .ok, [])
  | fuel + 1, s, d, tn, va, n =>
    if n = 0 then (s, .ok, [])
    else
      let k := min n (64 - va % 64)
      match s.sliceRead d tn va k false with
      | (s, .ok, x) =>
        let r := State.hubRead fuel s d tn (va + k) (n - k)
        (r.1, r.2.1, bytesOfNat k x ++ r.2.2)
      | (s, a, _) => (s, a, [])
/-- Reads `n` bytes. -/
def State.hubBytes (s : State) (d tn va n : Nat) : State × Ans × List Byte := State.hubRead (n / 64 + 2) s d tn va n
/-- A migrating leaf holds an access (R167). -/
def Hub.waitsAt (h : Hub) (a : HubAccess) : Bool := h.waits.any (fun w => w.who == a)
/-- An access is held at a VA: at a migrating leaf until op 2 or 3 releases it, and else until it is tried again (R167). -/
def State.hubWait (s : State) (a : HubAccess) (tn va : Nat) (why : Hold) : State :=
  match why with
  | .migrate => s.updHub (fun h => { h with waits := h.waits ++ [⟨a, tn, va⟩] })
  | .other => s
/-- Stores bytes within one sector at their home slice (R341). -/
def State.storeHome (s : State) (d tn va n x : Nat) : State × Ans :=
  match s.translate d tn va .write none with
  | (s, .ok pa _) =>
    if s.isOwn pa then s.sliceWrite (paDie pa) tn (lineOf va) va .write (maskRange (va % 256) n) (placeAt (va % 256) n x) false
    else (s.paPut pa (bytesOfNat n x), .ok)
  | (s, a) => (s, a.ans)
/-- A field of a byte string. -/
def fieldAt (l : List Byte) (off n : Nat) : Nat := natOfBytes ((l.drop off).take n)

/-! ### Kernel images (R139 to R141) -/

/-- A slot entry of a core; entries that are not listed are empty. -/
def Core.slotAt (c : Core) (i : Nat) : Slot := (c.slots[i]?).getD ⟨0, 0, 0, 0, 0, 0, false, false, 0, 0, 0, 0⟩
/-- Replaces a slot entry. -/
def Core.setSlot (c : Core) (i : Nat) (x : Slot) : Core := { c with slots := (List.range 16).map (fun j => if j = i then x else c.slotAt j) }
/-- The slot in which an image with a tag is resident. -/
def Core.slotOf (c : Core) (tag : Nat) : Option Nat := (List.range 16).find? (fun i => (c.slotAt i).state == 2 && (c.slotAt i).tag == tag)
/-- The contexts of a core that run, or are spilled or swapped. -/
def State.contexts (s : State) (core : Nat) : List Thread :=
  let c := s.coreAt core
  ((List.range 15).map c.thr).filter (fun t => t.task.isSome && t.status != .free) ++
  (c.spills.filter (·.valid)).map (·.thread) ++ (s.hub.pool.filter (fun e => e.1 == core)).map (fun e => e.2.thread)
/-- The users count of a slot (R139): the task threads of the core that have a context, running, spilled or swapped, on its image. -/
def State.slotUsers (s : State) (core i : Nat) : Nat :=
  let c := s.coreAt core
  let on := fun (t : Thread) => t.task.isSome && t.ctl.kslot.toNat == i
  ((List.range 15).filter (fun t => ((c.thr t).status != .free && on (c.thr t)) || c.spills.any (fun y => y.valid && y.tid == t && on y.thread) ||
    s.hub.pool.any (fun e => e.1 == core && e.2.tid == t && on e.2.thread))).length
/-- The slot entry that a 64-byte header describes, if the header keeps R140. -/
def parseHeader (l : List Byte) : Option Slot :=
  let f := fieldAt l
  let base := f 12 4
  let code := f 16 4
  let target := fun (o : Nat) => o % 4 == 0 && 64 ≤ o && o < code
  let inRegion := fun (a n : Nat) => 0x200 ≤ a && a + n ≤ 0x2E200
  if f 0 4 = 0x4B524B31 && f 4 2 = 1 && f 6 2 < 4 && f 10 1 ≤ 15 && f 11 1 = 0 && base % 512 = 0 && code % 512 = 0 && inRegion base code &&
      target (f 20 4) && (f 24 4 = 0 || target (f 24 4)) && ((f 28 4 = 0 && f 32 4 = 0) || inRegion (f 28 4) (f 32 4)) && f 36 28 = 0 then
    some ⟨f 8 2, 2, base, code, f 28 4, f 32 4, (f 6 2).testBit 0, (f 6 2).testBit 1, f 10 1, f 20 4, f 24 4, 0⟩
  else none
/-- The blocks of a range. -/
def blocksOf (a n : Nat) : List Nat := if n = 0 then [] else (List.range ((a + n - 1) / 512 + 1 - a / 512)).map (· + a / 512)
/-- The blocks that an image occupies. -/
def Slot.blocks (x : Slot) : List Nat := blocksOf x.base x.code ++ blocksOf x.data x.dbytes
/-- The victims of a load (R141, step 3). -/
def Core.victimsOf (c : Core) (x : Slot) : List Nat :=
  let resident := (List.range 16).filter (fun i => (c.slotAt i).state == 2)
  let hit := resident.filter (fun i => (c.slotAt i).blocks.any (fun b => x.blocks.contains b))
  if resident.length - hit.length < 16 then hit
  else
    match argMin (fun i => (c.slotAt i).used) (resident.filter (fun i => !hit.contains i)) with
    | some i => hit ++ [i]
    | none => hit
/-- Evicts an image: its slot is empty and its code blocks are data. -/
def Core.evictSlot (c : Core) (i : Nat) : Core :=
  let x := c.slotAt i
  { c.setSlot i { x with state := 0 } with attrs := c.attrs.filter (fun e => e.2 != .code i),
                                           loading := c.loading.map (fun l => { l with victims := l.victims.filter (· ≠ i) }) }
/-- Writes a loaded image into LM and marks its slot resident (R141, step 5).  DESIGN CHOICE (log 58): an image on which no task has been placed since its
load counts as last used at its load. -/
def Core.finishLoad (c : Core) (l : Loading) (i : Nat) : Core :=
  let c := c.lmPut l.slot.base (l.image.take l.slot.code)
  let c := if l.slot.dbytes = 0 then c else c.lmPut l.slot.data ((l.image.drop l.slot.code).take l.slot.dbytes)
  let c := { c with attrs := (blocksOf l.slot.base l.slot.code).foldl (fun (m : List (Nat × Attr)) b => setKey m b (.code i)) c.attrs }
  { c.setSlot i { l.slot with used := c.order } with loading := none }
/-- A load with no victim left takes the lowest empty slot, which is then loading, and next writes its image (R139, R141). -/
def Core.goLoad (c : Core) : Core :=
  match c.loading with
  | none => c
  | some l =>
    match l.victims, l.at_ with
    | _ :: _, _ => c
    | [], some i => c.finishLoad l i
    | [], none =>
      match (List.range 16).find? (fun i => (c.slotAt i).state == 0) with
      | some i => { c.setSlot i { l.slot with state := 1 } with loading := some { l with at_ := some i } }
      | none => c
/-- The victims that no context uses go at once (R141). -/
def State.advanceLoad (s : State) (core : Nat) : State :=
  match (s.coreAt core).loading with
  | none => s
  | some l =>
    let s := (l.victims.filter (fun i => s.slotUsers core i = 0)).foldl (fun (s : State) i => s.updCore core (·.evictSlot i)) s
    s.updCore core (·.goLoad)
/-- The slot in which the image of a record is resident: its tag is known once an image of the launch has been read (R139, R141). -/
def Core.slotOfRec (c : Core) (l : Launch) (r : TaskRec) : Option Nat := if l.tag.isSome then c.slotOf r.tag else none
/-- A header that the hub has read for a core gives the launch its tag and threads field, and the tag of its records there; the first one gives
the tag of all its records. -/
def State.learnTag (s : State) (core lnum tag threads : Nat) : State :=
  let first := (s.launchAt lnum).any (fun l => l.tag.isNone)
  let fix := fun (r : TaskRec) => if r.lnum = lnum then { r with tag := tag } else r
  let s := s.updLaunch lnum (fun y => { y with
    tag := some tag, threads := threads, poolRecs := if first then y.poolRecs.map (fun e => (e.1, fix e.2)) else y.poolRecs })
  { s with cores := s.cores.map (fun e => if first || e.1 == core then (e.1, { e.2 with deque := e.2.deque.map fix }) else e) }
/-- IMAGE_LOAD (R141): reads and checks the image of a launch that a waiting record names, and writes it once its victims are gone.  The kernel
tag is a field of the header, so a launch whose tag is not known yet has its header read first (log 44); where the image with that tag is
resident its records are placed as they are, whatever else the header holds, since the object is not read again.  DESIGN CHOICE (log 58): a read that
is held leaves nothing behind, and once it may go on the load starts again from the header; R141 says only that the read waits. -/
def execImageLoad (core lnum : Nat) (s : State) : Res :=
  let c := s.coreAt core
  match c.loading, s.launchAt lnum with
  | some l, _ => if l.lnum = lnum && l.victims.isEmpty then .next (s.advanceLoad core) else .next s
  | none, none => .next s
  | none, some y =>
    if y.ended || !c.deque.any (fun r => r.lnum == lnum && (c.slotOfRec y r).isNone) then .next s
    else
      let d := dieOf core
      let held := fun (l : List Byte) (w : Hold) => .next (s.hubWait (.image core lnum) y.tn (y.pkt.kernel + l.length) w)
      if s.hub.waitsAt (.image core lnum) then .next s
      else
      match s.hubBytes d y.tn y.pkt.kernel 64 with
      | (_, .hold w, l) => held l w
      | (s1, .ok, h) =>
        let tag := fieldAt h 8 2
        let here := if y.tag.isNone then c.slotOf tag else none
        match here, parseHeader h with
        | some i, _ => .next (s1.learnTag core lnum tag (c.slotAt i).threads)
        | none, none => .next (s1.abortLaunch lnum 2)
        | none, some x =>
          if (c.slotOf x.tag).isSome then .next (s1.learnTag core lnum x.tag x.threads)
          else
            match s1.hubBytes d y.tn y.pkt.kernel (x.code + x.dbytes) with
            | (_, .hold w, l) => held l w
            | (s2, .ok, img) =>
              let l : Loading := ⟨lnum, x, img, c.victimsOf x, none⟩
              .next (((s2.learnTag core lnum x.tag x.threads).updCore core (fun c => { c with loading := some l })).advanceLoad core)
            | (s2, _, _) => .next (s2.abortLaunch lnum 2)
      | (s1, _, _) => .next (s1.abortLaunch lnum 2)
/-- IMAGE_EVICT (R141): a victim of the load under way goes when no context uses it. -/
def execImageEvict (core slot : Nat) (s : State) : Res :=
  match (s.coreAt core).loading with
  | some l => if l.victims.contains slot && s.slotUsers core slot = 0 then .next (s.updCore core (·.evictSlot slot)) else .next s
  | none => .next s

/-! ### Packets and queues (R337 to R341) -/

/-- A packet from its 64 bytes (R340). -/
def parsePacket (l : List Byte) : Packet :=
  let f := fieldAt l
  ⟨f 0 8, f 8 4, f 12 4, f 16 4, f 20 4, f 24 8, word (f 32 8), word (f 40 8), f 48 1, f 49 1, f 50 1, f 51 1, f 52 4, f 56 8⟩
/-- The done field is valid. -/
def Packet.doneOk (p : Packet) : Bool := p.done % 8 == 0 && p.done < 2 ^ 56
/-- The 64 bytes of a packet (R340). -/
def Packet.bytes (p : Packet) : List Byte :=
  bytesOfNat 8 p.kernel ++ bytesOfNat 4 p.n0 ++ bytesOfNat 4 p.n1 ++ bytesOfNat 4 p.n2 ++ bytesOfNat 4 p.chunk ++ bytesOfNat 8 p.args ++
  bytesOfNat 8 p.fmtp.toNat ++ bytesOfNat 8 p.sclp.toNat ++ bytesOfNat 1 p.dies ++ bytesOfNat 1 p.prio ++ bytesOfNat 1 p.flags ++
  bytesOfNat 1 p.rsvd ++ bytesOfNat 4 p.rect ++ bytesOfNat 8 p.done
/-- The packet is valid (R340). -/
def Packet.valid (p : Packet) : Bool :=
  let rectOk := p.rect % 256 ≤ p.rect / 2 ^ 16 % 256 && p.rect / 2 ^ 16 % 256 ≤ 31 &&
    p.rect / 2 ^ 8 % 256 ≤ p.rect / 2 ^ 24 % 256 && p.rect / 2 ^ 24 % 256 ≤ 35
  p.kernel % 512 == 0 && p.kernel < 2 ^ 56 && 1 ≤ p.n0 && 1 ≤ p.n1 && 1 ≤ p.n2 && 1 ≤ p.chunk && p.tasks < 2 ^ 32 && p.dies != 0 &&
  p.prio ≤ 7 && p.flags < 16 && p.rsvd == 0 && (if p.flags.testBit 3 then rectOk else p.rect == 0) && p.doneOk

/-- A queue record that nothing has written. -/
def Queue.fresh (q : Nat) : Queue := ⟨q, 0, 0, 0, 0, 0, 0, 0, false, .unmapped, 0, [], [], 0, 0⟩
/-- A queue record by number. -/
def Hub.queue (h : Hub) (q : Nat) : Queue := (h.queues.find? (fun x => x.num == q)).getD (Queue.fresh q)
/-- Replaces a queue record. -/
def Hub.setQueue (h : Hub) (x : Queue) : Hub :=
  { h with queues := if h.queues.any (fun y => y.num == x.num) then h.queues.map (fun y => if y.num = x.num then x else y)
                     else h.queues ++ [x] }
/-- Packets are written to their places in a queue's backing ring, at the sequence number modulo the ring's capacity (R339). -/
def State.toRing (s : State) (x : Queue) (l : List Pending) : State :=
  l.foldl (fun (s : State) e => s.paPut (x.backing + 64 * (e.seq % max 1 x.entries)) e.pkt.bytes) s
/-- Hub firmware is notified of a tenancy's event. -/
def State.notify (s : State) (tn : Nat) : State := s.updHub (fun h => { h with signals := (0x8000, tn) :: h.signals })
/-- A packet written to a queue page: its sequence number if it is accepted (R338, R339).  Firmware is notified of the first packet of a queue
without a slot. -/
def State.submit (s : State) (q : Nat) (p : Option Packet) : State × Option Nat :=
  let x := s.hub.queue q
  match x.opened && x.fifo.length + x.ring.length < x.entries, p with
  | true, some p =>
    let seq := if x.seq = 0xFFFFFFFF then 1 else x.seq + 1
    let e : Pending := ⟨p, seq, s.hub.now⟩
    let mapped := x.state == .mapped
    let inFifo := mapped && x.ring.isEmpty && x.fifo.length < 16
    let y := { x with
      seq := seq, active := s.hub.now, state := if x.state = .unmapped then .mapping else x.state,
      fifo := if inFifo then x.fifo ++ [e] else x.fifo, ring := if inFifo then x.ring else x.ring ++ [e],
      headAt := if inFifo && x.fifo.isEmpty then s.hub.now else x.headAt }
    let s := if inFifo then s else s.toRing x [e]
    ((if x.state = .unmapped then s.notify x.tenancy else s).updHub (·.setQueue y), some seq)
  | _, _ => (s.updHub (·.setQueue { x with dropped := x.dropped + 1 }), none)
/-- Nothing from outside is accepted but what the security engine answers: the package is in hold (R413), or its firmware has failed the last
verification (R410). -/
def Hub.sealed (h : Hub) : Bool := h.sec.hold || !h.sec.verified
/-- PACKET_ARRIVAL (R338): only a 64-byte write at a 64-byte-aligned offset is a packet. -/
def execPacketArrival (q off : Nat) (bytes : List Byte) (s : State) : Res :=
  if s.hub.sealed then .next s
  else .next (s.submit q (if bytes.length = 64 && off % 64 = 0 then some (parsePacket bytes) else none)).1
/-- Moves the oldest ring packets into free FIFO places. -/
def Queue.refillFifo (x : Queue) : Queue :=
  { x with fifo := x.fifo ++ x.ring.take (16 - x.fifo.length), ring := x.ring.drop (16 - x.fifo.length) }
/-- The slot goes back, the FIFO ahead of the ring (R339). -/
def Queue.unmap (x : Queue) : Queue :=
  { x with fifo := [], ring := x.fifo ++ x.ring, state := if x.fifo.isEmpty && x.ring.isEmpty then .unmapped else .mapping }
/-- QUEUE_SLOT_MAP (R339): a queue in Mapping gets a free slot, or the slot of the least recently active Mapped queue without packets. -/
def execQueueSlotMap (q : Nat) (s : State) : Res :=
  let x := s.hub.queue q
  if !(x.opened && x.state = .mapping) then .next s
  else
    let holders := s.hub.queues.filter (fun y => y.opened && (y.state == .mapped || y.state == .unmapping))
    let give : State → Nat → Res := fun s slot => .next (s.updHub (·.setQueue { x.refillFifo with state := .mapped, slot := slot, headAt := s.hub.now }))
    match (List.range 512).find? (fun i => !holders.any (fun y => y.slot == i)) with
    | some i => give s i
    | none =>
      match argMin (fun (y : Queue) => y.active) (holders.filter (fun y => y.state == .mapped && y.fifo.isEmpty && y.ring.isEmpty)) with
      | some v => give (s.updHub (·.setQueue v.unmap)) v.slot
      | none => .next s
/-- QUEUE_SLOT_EVICT (R339): a Mapped queue stops being eligible, and then its FIFO is written back and its slot is free. -/
def execQueueSlotEvict (q : Nat) (s : State) : Res :=
  let x := s.hub.queue q
  match x.opened, x.state with
  | true, .mapped => .next (s.updHub (·.setQueue { x with state := .unmapping }))
  | true, .unmapping => .next ((s.toRing x x.fifo).updHub (·.setQueue x.unmap))
  | _, _ => .next s
/-- QUEUE_OPEN (R339). -/
def execQueueOpen (q : Nat) (s : State) : Res :=
  let x := s.hub.queue q
  if x.opened then .next s
  else .next (s.updHub (·.setQueue { x with opened := true, state := .unmapped, seq := 0, dropped := 0, fifo := [], ring := [] }))
/-- QUEUE_CLOSE (R339): pending packets are discarded and counted. -/
def execQueueClose (q : Nat) (s : State) : Res :=
  let x := s.hub.queue q
  if !x.opened then .next s
  else .next (s.updHub (·.setQueue { x with opened := false, dropped := x.dropped + x.fifo.length + x.ring.length, fifo := [], ring := [] }))

/-! ### Dispatch of a launch (R342) -/

/-- The die whose slices serve the hub's own accesses for a die mask. -/
def firstDie (dies : Nat) : Nat := ((List.range 8).find? (fun d => dies.testBit d)).getD 0
/-- A completion word (R341). -/
def completionWord (status seq : Nat) : Nat := (if status = 0 then 0 else 2 ^ 63) + status * 2 ^ 32 + seq
/-- Writes a completion word, or answers with what holds the store; a store that fails is counted (R341). -/
def State.complete_ (s : State) (d tn va x : Nat) : State × Option Hold :=
  match s.storeHome d tn va 8 x with
  | (s, .ok) => (s, none)
  | (_, .hold w) => (s, some w)
  | _ => (s.updHub (fun h => { h with faultedStores := h.faultedStores + 1 }), none)
/-- The core arrays of some dies are ready (R403). -/
def Hub.diesReady (h : Hub) (l : List Nat) : Bool := l.all (fun d => h.ready1.getLsbD (3 + d))
/-- The base priority (R342). -/
def basePrio (x : Queue) (p : Packet) : Nat := min p.prio x.maxprio
/-- The effective priority at a moment (R342). -/
def Hub.effPrio (h : Hub) (x : Queue) (p : Packet) : Nat := min 7 (basePrio x p + (h.now - x.headAt) / (1000 * max 1 h.ageStep))
/-- The heads of the Mapped queues. -/
def Hub.heads (h : Hub) : List (Queue × Pending) :=
  h.queues.filterMap (fun x => if x.opened && x.state == .mapped then x.fifo.head?.map (fun e => (x, e)) else none)
/-- The order of R342 among heads: the better first. -/
def Hub.better (h : Hub) (a b : Queue × Pending) : Bool :=
  let pa := h.effPrio a.1 a.2.pkt
  let pb := h.effPrio b.1 b.2.pkt
  pa > pb || (pa == pb && (a.1.headAt < b.1.headAt || (a.1.headAt == b.1.headAt && a.1.slot < b.1.slot)))
/-- A record or a thread of any launch remains on a die (R352), a spilled context among them, which has a claim on its thread (R53; log 44). -/
def State.dieBusy (s : State) (d : Nat) : Bool :=
  s.hub.launches.any (fun l => l.todo.any (fun e => e.1 == d)) ||
  s.net.any (fun i => dieOf i.dst == d && (i.phase != .acked) && (match i.kind with | .record _ => true | _ => false)) ||
  s.cores.any (fun e => dieOf e.1 == d && (!e.2.deque.isEmpty ||
    e.2.spills.any (·.valid) || (List.range 15).any (fun t => (e.2.thr t).status != .free && (e.2.thr t).task.isSome)))
/-- A valid deterministic head of a Mapped queue reserves the dies that it names while it waits (R352). -/
def Hub.reserved (h : Hub) (d : Nat) : Bool := h.heads.any (fun y => y.2.pkt.isDet && y.2.pkt.valid && y.2.pkt.dieList.contains d)
/-- The threads of a core that run tasks of a launch. -/
def Core.threadsOf (c : Core) (l : Nat) : List Nat := (List.range 15).filter (fun t => (c.thr t).status != .free && (c.thr t).task.any (·.lnum == l))
/-- A core holds a spilled context of a launch. -/
def Core.spilledOf (c : Core) (l : Nat) : Bool := c.spills.any (fun y => y.valid && y.thread.task.any (·.lnum == l))
/-- A waiting deterministic head has reserved a die, and the launch is not a deterministic one that holds it (R352, log 44). -/
def State.reservedFrom (s : State) (d : Nat) (k : Launch) : Bool := s.hub.reserved d && (s.dieAt d).det != some k.lnum
/-- A thread of a launch on a core has become Free, which ends the launch's mark there (R350); on a reserved die the mark stays, since there every thread
has to go (R352). -/
def State.unmark (s : State) (core : Nat) (l : Option Nat) : State :=
  match l.bind s.launchAt with
  | some k => if s.reservedFrom (dieOf core) k then s else s.updCore core (fun c => { c with marks := c.marks.filter (·.1 ≠ k.lnum) })
  | none => s
/-- A die is closed to a launch: another launch holds it under deterministic operation, or a waiting head has reserved it and the launch is not
the deterministic one that runs there (R352). -/
def State.closedTo (s : State) (d lnum : Nat) : Bool :=
  match (s.dieAt d).det with
  | some l => l != lnum
  | none => s.hub.reserved d
/-- Two packets name a common die. -/
def Packet.meets (a b : Packet) : Bool := a.dieList.any (fun d => b.dieList.contains d)
/-- A head is eligible (R342, R352): dies that a waiting deterministic head has reserved, or that a deterministic launch holds, are closed to it. -/
def State.eligible (s : State) (x : Queue × Pending) : Bool :=
  let h := s.hub
  let p := x.2.pkt
  p.valid && h.diesReady p.dieList && h.launches.length < 4096 &&
  !p.dieList.any (fun d => (s.dieAt d).det.isSome) &&
  (!p.isDet || !p.dieList.any s.dieBusy) &&
  !h.heads.any (fun y => y.1.num != x.1.num && y.2.pkt.isDet && y.2.pkt.valid && y.2.pkt.meets p && (!p.isDet || h.better y x))
/-- The best of some heads. -/
def Hub.bestHead (h : Hub) : List (Queue × Pending) → Option (Queue × Pending)
  | [] => none
  | x :: l =>
    match h.bestHead l with
    | none => some x
    | some y => if h.better y x then some y else some x
/-- The queue after its head has been taken; a dispatch is activity of the queue (R339). -/
def Queue.popHead (x : Queue) (now : Nat) (dispatched : Bool) : Queue :=
  { ({ x with fifo := x.fifo.drop 1 } : Queue).refillFifo with headAt := now, active := if dispatched then now else x.active }
/-- An invalid head is taken as soon as it is head (R340); its completion word, if it has a place for one, is then due. -/
def State.takeInvalid (s : State) (x : Queue × Pending) : State :=
  let s := s.updHub (·.setQueue (x.1.popHead s.hub.now false))
  if x.2.pkt.doneOk then
    s.updHub (fun h => { h with owed := h.owed ++ [⟨x.1.tenancy, x.2.pkt.done, completionWord 1 x.2.seq⟩] })
  else s
/-- The first completion word of an invalid packet that can be stored (R340, R341): it is written by a die whose array is ready. -/
def State.payOwed (s : State) : List (Nat × OwedWord) → State
  | [] => s
  | (n, o) :: l =>
    if s.hub.waitsAt (.owed o) then s.payOwed l
    else
      match s.complete_ (firstDie (s.hub.ready1.toNat / 8 % 256)) o.tn o.va o.x with
      | (s', none) => s'.updHub (fun h => { h with owed := dropAt h.owed n })
      | (_, some w) => (s.hubWait (.owed o) o.tn o.va w).payOwed l
/-- A core that switches to the fixed wheel (R47, R352): it idles until the wheel's first slot. -/
def Core.toWheel (c : Core) : Core := { c with cyc := word ((c.cyc.toNat + 15) / 16 * 16) }
/-- The islands of a die. -/
def islandsOf (d : Nat) : List Nat := (List.range 16).map (· + 16 * d)
/-- The islands of some dies hold one step, the lowest that any of them holds (R408). -/
def Hub.bindIslands (h : Hub) (ds : List Nat) : Hub :=
  let js := ds.flatMap islandsOf
  let step := (js.map (fun j => (h.island j).cur)).foldl min 10
  { h with islands := js.foldl (fun l j => setKey l j { h.island j with cur := step }) h.islands }
/-- Dies are taken by a deterministic launch: their cores and islands go to their fixed schedule, and the order of the cores begins anew, so that what
follows depends on the launch alone (R47, R352, R408). -/
def State.takeDies (s : State) (ds : List Nat) (n : Nat) : State :=
  let s := ds.foldl (fun (s : State) d => s.updDie d (fun y => { y with det := some n, wheel := 1152 * d })) s
  let s := s.updHub (·.bindIslands ds)
  { s with turn := 0, cores := s.cores.map (fun (e : Nat × Core) => if ds.contains (dieOf e.1) then (e.1, e.2.toWheel) else e) }
/-- A head becomes an active launch with a number (R342). -/
def State.activate (s : State) (x : Queue × Pending) (n : Nat) : State :=
  let p := x.2.pkt
  let ds := p.dieList
  let l : Launch :=
    { lnum := n, queue := x.1.num, seq := x.2.seq, tn := x.1.tenancy, prio := s.hub.effPrio x.1 p, pkt := p, order := s.nextId,
      tag := none, threads := 0,
      counts := ds.zipIdx.map (fun e => (e.1, p.tasks * (e.2 + 1) / ds.length - p.tasks * e.2 / ds.length)),
      todo := ds.map (fun d => (d, 0)), stuck := [], arrived := x.2.at_, issued := false, status := 0, ended := false, poolRecs := [], out := [], retired := [] }
  let s := { s with nextId := s.nextId + 1 }
  let s := s.updHub (fun h => { h.setQueue (x.1.popHead h.now true) with launches := h.launches ++ [l] })
  if p.isDet then s.takeDies ds n else s
/-- The best eligible head becomes an active launch (R342), if there is one and a number for it. -/
def State.dispatchHead (s : State) : State :=
  match s.hub.bestHead (s.hub.heads.filter s.eligible), (List.range 4096).find? (fun n => (s.launchAt n).isNone) with
  | some x, some n => s.activate x n
  | _, _ => s
/-- LAUNCH_DISPATCH (R340, R342): an invalid head is taken, and reported as soon as its store is not held; otherwise the best eligible head becomes an
active launch. -/
def execLaunchDispatch (s : State) : Res :=
  match s.hub.heads.find? (fun x => !x.2.pkt.valid) with
  | some x => .next (s.takeInvalid x)
  | none => .next (s.payOwed (s.hub.owed.zipIdx.map (fun e => (e.2, e.1)))).dispatchHead

/-! ### Distribution (R344) -/

/-- Seeds the cores of a die one after the other; a record that finds a full deque, or others waiting there, waits, and with it the cores that
follow (R344, R347). -/
def seedCores (l : Launch) (die : Nat) : List (Nat × Nat × Nat) → State → State
  | [], s => s.updLaunch l.lnum (fun y => { y with todo := y.todo.filter (fun e => e.1 ≠ die) })
  | e :: rest, s =>
    let c := s.coreAt e.1
    let mine := match s.firstRecord e.1 with
      | none => true
      | some f => f == (true, l.lnum)
    if decide (c.deque.length < 64) && mine then
      let s := s.setCore e.1 (c.pushRec ⟨l.tag.getD 0, l.lnum, e.2.1, e.2.2, l.pkt.fmtp, l.pkt.sclp⟩)
      seedCores l die rest (s.updLaunch l.lnum (fun y => { y with
        stuck := dropKey y.stuck e.1, todo := y.todo.map (fun t => if t.1 = die then (die, t.2 + 1) else t) }))
    else if l.stuck.any (fun t => t.1 == e.1) then s
    else s.updLaunch l.lnum (fun y => { y with stuck := setKey y.stuck e.1 c.cyc.toNat })
/-- Pooled records go back to the cores they came from, as far as their deques have room: the state and the records left. -/
def State.reseed (s : State) : List (Nat × TaskRec) → State × List (Nat × TaskRec)
  | [] => (s, [])
  | e :: l =>
    if 64 ≤ (s.coreAt e.1).deque.length then
      let r := s.reseed l
      (r.1, e :: r.2)
    else (s.updCore e.1 (fun c => { c with deque := c.deque ++ [e.2] })).reseed l
/-- Gives the pooled records of a launch back to some dies (R352, R392). -/
def State.reseedOn (s : State) (l : Launch) (ds : List Nat) : State × Bool :=
  let here := fun (e : Nat × TaskRec) => ds.contains (dieOf e.1)
  let r := s.reseed (l.poolRecs.filter here)
  (r.1.updLaunch l.lnum (fun y => { y with poolRecs := y.poolRecs.filter (fun e => !here e) ++ r.2 }), r.2.isEmpty)
/-- LAUNCH_DISTRIBUTE (R344): a die cuts the packet into records and seeds its cores; later it takes back what a deterministic launch had
displaced there, once it is open to the launch again (R352, log 44). -/
def execLaunchDistribute (lnum die : Nat) (s : State) : Res :=
  match s.launchAt lnum with
  | none => .next s
  | some l =>
    if l.out.contains die then .next s
    else
      match getKey l.todo die with
      | some n => .next (seedCores l die ((l.pkt.seeds die).drop n) s)
      | none => if s.closedTo die lnum then .next s else .next (s.reseedOn l [die]).1

/-! ### Placing tasks (R345, R348) -/

/-- The task registers as dispatch and DQNEXT set them (R62, R345). -/
def Ctl.setTask (c : Ctl) (l : Launch) (slot i : Nat) (fmtp sclp : Word) : Ctl :=
  let seed := seedConst ^^^ word i
  { c with
    taskid := word i, tasklo := word (i * l.pkt.chunk), taskhi := word (min ((i + 1) * l.pkt.chunk) l.pkt.total),
    launch := word (l.lnum * 2 ^ 48 + l.queue * 2 ^ 32 + l.seq), kslot := word slot, fmtp := fmtp, sclp := sclp,
    seed := if seed = 0 then seedConst else seed }
/-- Places a task on a thread (R49, R60, R62, R348), which may issue when the interval of a TRET there has passed (R45). -/
def State.place (s : State) (core t : Nat) (l : Launch) (slot i : Nat) (fmtp sclp : Word) (todo : List Nat) : State :=
  let c := s.coreAt core
  let x := c.slotAt slot
  let ctl := ({ Ctl.zero with
    tenancy := word l.tn, trapvec := if x.trap = 0 then 0 else word (x.base + x.trap), rrthresh := 8,
    det := boolWord l.pkt.isDet, lend := boolWord (l.pkt.flags.testBit 1) } : Ctl).setTask l slot i fmtp sclp
  let th := { Thread.free with
    status := .ready, system := x.system, pc := word (x.base + x.entry), readyAt := max (c.thr t).readyAt c.cyc.toNat,
    g := (Vector.replicate 32 (0 : Word)).setIfInBounds 3 (word l.pkt.args), ctl := ctl, task := some ⟨l.lnum, x.tag, todo⟩, placedAt := c.order }
  let c := { (c.setThr t th).setSlot slot { x with used := c.order } with order := c.order + 1, badThread := c.badThread.filter (fun e => e.1 ≠ t) }
  (s.setCore core (c.refill t)).acquire (dieOf core) true
/-- Task threads of a core that a launch occupies (R348). -/
def Core.occupied (c : Core) (l : Nat) : Nat :=
  ((List.range 15).filter (fun t => (c.thr t).status != .free && (c.thr t).task.any (fun k => k.lnum == l))).length
/-- The record of a launch nearest the owner end. -/
def Core.ownRec (c : Core) (l : Nat) : Option TaskRec := c.deque.find? (fun r => r.lnum == l)
/-- The slot of a launch's image on a core: of the record nearest the owner end, or else of the image that was read last. -/
def Core.slotOfLaunch (c : Core) (l : Launch) : Option Nat := l.tag.bind (fun tag => c.slotOf (((c.ownRec l.lnum).map (·.tag)).getD tag))
/-- The slot from which a launch could place a task on a core: its image is resident, its threads limit leaves room, the die is open to it, and no
load waits for the image to drain unless the launch already uses it there (R141, R348, R352). -/
def State.slotFor (s : State) (core : Nat) (l : Launch) : Option Nat :=
  let c := s.coreAt core
  if s.closedTo (dieOf core) l.lnum then none
  else
  match c.slotOfLaunch l with
  | none => none
  | some i =>
    let draining := c.loading.any (fun x => x.victims.contains i)
    let uses := (s.contexts core).any (fun t => t.task.any (fun k => k.lnum == l.lnum) && t.ctl.kslot.toNat == i)
    if c.occupied l.lnum < threadLimit (c.slotAt i).threads && (!draining || uses) then some i else none
/-- The launches with a dispatchable record on a core, with their slots; one whose restorable swapped context waits there is left out
(R391). -/
def State.placeable (s : State) (core : Nat) : List (Launch × Nat) :=
  let c := s.coreAt core
  s.hub.launches.filterMap (fun l =>
    if c.deque.any (fun r => r.lnum == l.lnum) && !l.out.contains (dieOf core) &&
        !s.hub.pool.any (fun e => e.1 == core && e.2.ready && !e.2.out && e.2.thread.task.any (fun k => k.lnum == l.lnum)) then
      (s.slotFor core l).map (fun i => (l, i))
    else none)
/-- The launch that the dispatcher serves: the highest launch priority, then the earliest dispatch (R348). -/
def bestLaunch (l : List (Launch × Nat)) : Option (Launch × Nat) :=
  match argMax (fun (e : Launch × Nat) => e.1.prio) l with
  | none => none
  | some m => argMin (fun (e : Launch × Nat) => e.1.order) (l.filter (fun e => e.1.prio == m.1.prio))
/-- A task may be placed on a thread: it is Free, and no restorable spilled context waits for it (R53, R348). -/
def Core.openThread (c : Core) (t : Nat) : Bool := (c.thr t).status == .free && !c.spills.any (fun x => x.valid && x.ready && x.tid == t)
/-- The lowest task thread on which a task may be placed. -/
def Core.freeThread (c : Core) : Option Nat := (List.range 15).find? c.openThread
/-- The deque with the record of a launch nearest the owner end replaced by some records. -/
def replaceRec (l : Nat) (new : List TaskRec) : List TaskRec → List TaskRec
  | [] => []
  | r :: rest => if r.lnum = l then new ++ rest else r :: replaceRec l new rest
/-- Takes the first task of the record of a launch nearest the owner end. -/
def Core.takeTask (c : Core) (r : TaskRec) : Core :=
  { c with deque := replaceRec r.lnum (if r.lo + 1 < r.hi then [{ r with lo := r.lo + 1 }] else []) c.deque }
/-- TASK_DISPATCH (R348, R352): under a deterministic launch the whole record becomes the threads' fixed lists. -/
def execTaskDispatch (core : Nat) (s : State) : Res :=
  let c := s.coreAt core
  match bestLaunch (s.placeable core) with
  | none => .next s
  | some (l, slot) =>
    match c.ownRec l.lnum, c.freeThread with
    | none, _ => .next s
    | some r, free =>
      let n := threadLimit (c.slotAt slot).threads
      if l.pkt.isDet then
        if (List.range n).any (fun j => !c.openThread j) then .next s
        else
          let s := s.setCore core { c with deque := replaceRec l.lnum [] c.deque }
          .next ((List.range n).foldl (fun (s : State) j =>
            match (List.range (r.hi - r.lo)).filterMap (fun k => if k % n = j then some (r.lo + k) else none) with
            | [] => s
            | i :: todo => s.place core j l slot i r.fmtp r.sclp todo) s)
      else
        match free with
        | some t => .next ((s.setCore core (c.takeTask r)).place core t l slot r.lo r.fmtp r.sclp [])
        | none => .next s

/-! ### Stealing (R349) -/

/-- The record of a launch nearest the far end. -/
def Core.farRec (c : Core) (l : Nat) : Option TaskRec := (c.deque.filter (fun r => r.lnum == l)).getLast?
/-- The steal of R349 from a victim: the tasks obtained. -/
def State.steal (s : State) (thief victim l : Nat) : State × Nat :=
  match (s.coreAt victim).farRec l with
  | none => (s, 0)
  | some r =>
    if 64 ≤ (s.coreAt thief).deque.length then (s, 0)
    else
      let m := r.hi - r.lo
      let keep := if m / 2 = 0 then [] else [{ r with hi := r.lo + m / 2 }]
      let s := s.updCore victim (fun c => { c with deque := (replaceRec l keep.reverse c.deque.reverse).reverse })
      (s.updCore thief (·.pushRec { r with lo := r.lo + m / 2 }), m - m / 2)
/-- A core may steal for a launch (R349). -/
def State.maySteal (s : State) (core : Nat) (l : Launch) : Bool :=
  let c := s.coreAt core
  c.held.contains l.lnum && c.freeThread.isSome && !(c.deque.any (fun r => r.lnum == l.lnum) && (s.slotFor core l).isSome) &&
  c.occupied l.lnum < threadLimit (match c.slotOfLaunch l with
    | some i => (c.slotAt i).threads
    | none => l.threads) && !s.closedTo (dieOf core) l.lnum && !l.pkt.isDet && (!l.pkt.flags.testBit 3 || inRect l.pkt.rect core)
/-- TASK_STEAL (R349): the victim on the die with the largest record, ties to the lowest core. -/
def execTaskSteal (core lnum : Nat) (s : State) : Res :=
  match s.launchAt lnum with
  | none => .next s
  | some l =>
    if !s.maySteal core l then .next s
    else
      let vs := (s.cores.map (·.1)).filter (fun v => v != core && dieOf v == dieOf core &&
        (!l.pkt.flags.testBit 3 || inRect l.pkt.rect v) && ((s.coreAt v).farRec lnum).isSome)
      let size := fun (v : Nat) => ((((s.coreAt v).deque.filter (fun r => r.lnum == lnum)).map (fun r => r.hi - r.lo)).foldl max 0)
      match argMax size vs with
      | none => .next s
      | some b =>
        match argMin id (vs.filter (fun v => size v == size b)) with
        | some v => .next (s.steal core v lnum).1
        | none => .next s

/-! ### Retirement (R351) -/

/-- Changes the outstanding count of a launch on a die. -/
def State.addCount (s : State) (l d : Nat) (n : Int) : State :=
  s.updLaunch l (fun y => { y with counts := y.counts.map (fun e => if e.1 = d then (d, ((e.2 : Int) + n).toNat) else e) })
/-- A copy command acts for a launch (R317). -/
def State.copiesFor (s : State) (l : Nat) : Bool := s.cores.any (fun e => e.2.cq.any (fun q => q.owner.any (·.1 == l)))
/-- Releases the dies of a launch at pod scope, none while one is held (R351). -/
def releaseDies (s : State) : List Nat → Option State
  | [] => some s
  | d :: l => (s.release d true).bind (fun s => releaseDies s l)
/-- Frees the recording regions of a launch on every die (R362). -/
def State.freeRegions (s : State) (l : Nat) : State :=
  { s with
    dies := s.dies.map (fun e => (e.1, { e.2 with
      regions := e.2.regions.filter (fun r => r.lnum ≠ l),
      slices := e.2.slices.map (fun y => (y.1, { y.2 with recTable := y.2.recTable.filter (fun r => r.lnum ≠ l) })) })),
    cores := s.cores.map (fun e => (e.1, { e.2 with pushTable := e.2.pushTable.filter (fun r => r.lnum ≠ l) })),
    pushes := s.pushes.filter (fun p => p.lnum ≠ l) }
/-- An access is the hub's for a launch. -/
def HubAccess.forLaunch (a : HubAccess) (l : Nat) : Bool :=
  match a with
  | .done k | .image _ k => k == l
  | .owed _ | .put _ _ _ _ => false
/-- LAUNCH_RETIRE (R351): every count is zero, no copy acts for the launch and no stop record of it is still to be appended (R393); the dies release, the
completion word is written, the active number is free, and what the launch held is released. -/
def execLaunchRetire (lnum : Nat) (s : State) : Res :=
  match s.launchAt lnum with
  | none => .next s
  | some l =>
    if !l.todo.isEmpty || l.counts.any (fun e => e.2 != 0) || s.copiesFor lnum || s.faults.any (fun r => r.kind == 9 && r.lnum == some lnum) ||
        s.hub.waitsAt (.done lnum) then .next s
    else
      match releaseDies s l.pkt.dieList with
      | none => .next s
      | some s1 =>
        match s1.complete_ (firstDie l.pkt.dies) l.tn l.pkt.done (completionWord l.status l.seq) with
        | (_, some w) => .next (s.hubWait (.done lnum) l.tn l.pkt.done w)
        | (s2, none) =>
          let s := s2.updHub (fun h => { h with
            launches := h.launches.filter (fun y => y.lnum ≠ lnum), waits := h.waits.filter (fun w => !w.who.forLaunch lnum) })
          let s := s.freeRegions lnum
          let s := l.pkt.dieList.foldl (fun (s : State) d =>
            s.updDie d (fun y => { y with det := if y.det = some lnum then none else y.det })) s
          let s := (s.cores.map (·.1)).foldl (fun (s : State) c =>
            (s.updCore c (fun k => { k.dropMmr lnum with
              held := k.held.filter (· ≠ lnum), marks := k.marks.filter (·.1 ≠ lnum) })).releaseHolders c lnum) s
          .next ((s.freeInstances lnum).forget lnum)

end Sys2Proof.Machine
end

