-- ==== Sys2Proof/Machine/Recording.lean ====
section
/-! DEFINITION. Recording regions (R362 to R376), the RR instructions (R377 to R381), and the replayed pushes (R369). -/

namespace Sys2Proof.Machine

/-! ### Records (R362, R373) -/

/-- The length field of a region word (R377). -/
def rrLen (w : Word) : Nat := bits w 31 0
/-- The participants field. -/
def rrParts (w : Word) : Nat := bits w 63 48
/-- The region number. -/
def rrNum (w : Word) : Nat := bits w 35 32
/-- A region word that breaks its map (R377). -/
def rrBad (w : Word) : Bool :=
  rrParts w < 1 || 17280 < rrParts w || bits w 47 36 != 0 || rrLen w % 256 != 0 || rrLen w < 256 || 2 ^ 24 < rrLen w
/-- The record of a region number on a die. -/
def Die.region (d : Die) (num : Nat) : Option RrRegion := d.regions.find? (fun r => r.num == num)
/-- A line lies in a region. -/
def RrRegion.covers (r : RrRegion) (tn line : Nat) : Bool := r.tn == tn && r.base ≤ line * 256 && line * 256 < r.base + rrLen r.rword
/-- The state word (R373). -/
def RrRegion.stateWord (r : RrRegion) : Word :=
  word (r.iters % 2 ^ 32 * 2 ^ 32 + min r.depart 65535 * 2 ^ 16 + (if r.rearm then 2 ^ 8 else 0) + (if r.opened then 2 ^ 7 else 0) +
    (match r.mode with | .armed => 1 | .replay => 2 | .demand => 3))
/-- A counter by index (R373). -/
def RrRegion.counter (r : RrRegion) (i : Nat) : Word :=
  match i with
  | 0 => r.stateWord
  | 1 => word r.recorded
  | 2 => word r.pushes
  | 3 => word r.used
  | 4 => word r.unrec
  | 5 => word r.wasted
  | 6 => word r.mismatch
  | 7 => word r.overflow
  | 8 => word r.fallbacks
  | _ => word r.shot
/-- The cores of a die changed alike. -/
def State.updCoresOn (s : State) (d : Nat) (f : Core → Core) : State :=
  { s with cores := s.cores.map (fun e => if dieOf e.1 = d then (e.1, f e.2) else e) }
/-- Clears the push-table entries of a region on a die. -/
def State.clearPushTables (s : State) (d num lnum : Nat) : State :=
  s.updCoresOn d (fun c => { c with pushTable := c.pushTable.filter (fun e => !(e.region == num && e.lnum == lnum)) })
/-- Clears the recording-table entries of a region. -/
def Die.clearRecTables (d : Die) (num lnum : Nat) : Die :=
  { d with slices := d.slices.map (fun y => (y.1, { y.2 with recTable := y.2.recTable.filter (fun e => !(e.region == num && e.lnum == lnum)) })) }

/-! ### Opening and close (R363, R378, R379) -/

/-- The launch allows recording (R376). -/
def State.recordingAllowed (s : State) (lnum : Nat) : Bool :=
  match s.launchAt lnum with
  | some l => l.pkt.flags.testBit 2
  | none => false
/-- A participant's RRBEG or RREND is over. -/
def State.rrDeliver (s : State) (m : RrMember) : State := s.deliver ⟨m.core, m.tid, m.id, 0⟩ 0 0
/-- No copy that a region has pushed counts as pushed any more (R370). -/
def State.unmarkPushed (s : State) (d : Nat) (r : RrRegion) : State :=
  s.updCoresOn d (fun c => { c with l1 := c.l1.map (fun l => { l with pushed := l.pushed.filter (fun p => p.2 != r.num) }) })
/-- Opens a closed region once the last participant has arrived: store counts are reset, entries armed, and the participants released; what an
earlier region has pushed is none of its copies. -/
def State.rrOpen (s : State) (d num : Nat) : State :=
  match (s.dieAt d).region num with
  | none => s
  | some r =>
    if r.opened || r.arrived.length < rrParts r.rword then s
    else
      let s := (s.unmarkPushed d r).updDie d (fun x =>
        ({ x with counts := x.counts.filter (fun k => k.region != num) } : Die).updRegion num (fun r => { r with
          opened := true, members := r.arrived.take (rrParts r.rword), arrived := r.arrived.drop (rrParts r.rword), ended := [], spoiled := [], departNow := 0, lost := false }))
      let s := if r.mode = .replay then
          s.updCoresOn d (fun c => { c with
            pushTable := c.pushTable.map (fun e => if e.region = num ∧ e.lnum = r.lnum then { e with armed := true } else e) })
        else s
      (r.arrived.take (rrParts r.rword)).foldl (fun (s : State) m => s.rrDeliver m) s
/-- Pushed copies of a region that no thread has used are wasted at its close (R370), on a line whose part has ended without a departure
(R365). -/
def State.wastePushed (s : State) (d : Nat) (r : RrRegion) : State :=
  let count := fun (p : L1Line → Bool) => ((s.cores.filter (fun e => dieOf e.1 == d)).map (fun e =>
    ((e.2.l1.filter p).map (fun l => (l.pushed.filter (fun q => q.2 == r.num)).length)).sum)).sum
  let n := count (fun _ => true)
  let m := count (fun l => !r.spoiled.contains l.line)
  (s.unmarkPushed d r).updDie d (fun x => x.updRegion r.num (fun r => { r with wasted := r.wasted + n, departNow := r.departNow + m }))
/-- Sends the recorded entries of a region to the push tables of their producers; an entry for a full table is lost (R367). -/
def State.distribute (s : State) (d : Nat) (r : RrRegion) : State :=
  let es := (((s.dieAt d).slices.map (fun y => y.2.recTable)).flatten).filter (fun e => e.region == r.num && e.lnum == r.lnum)
  let s := s.updDie d (fun x => x.clearRecTables r.num r.lnum)
  es.foldl (fun (s : State) e =>
    if (s.coreAt e.producer).pushTable.length < 64 then
      s.updCore e.producer (fun c => { c with pushTable := c.pushTable ++ [⟨e.region, e.lnum, e.tn, e.line, e.smask, e.consumer, e.ordinal, false⟩] })
    else s.updDie d (fun x => x.updRegion r.num (fun r => { r with overflow := r.overflow + 1 }))) s
/-- Entries of a region whose producer's final store count differs from their ordinal; a line whose part has ended does not count (R365,
R371). -/
def State.mismatches (s : State) (d : Nat) (r : RrRegion) : Nat :=
  ((s.cores.filter (fun e => dieOf e.1 == d)).map (fun e =>
    (e.2.pushTable.filter (fun p => p.region == r.num && p.lnum == r.lnum && !r.spoiled.contains p.line &&
      (s.dieAt d).storeCount e.1 r.num p.tn p.line != p.ordinal)).length)).sum
/-- The region falls back to Demand; its tables are cleared (R363). -/
def State.fallBack (s : State) (d : Nat) (r : RrRegion) : State :=
  ((s.updDie d (fun x => x.clearRecTables r.num r.lnum)).clearPushTables d r.num r.lnum).updDie d (fun x =>
    x.updRegion r.num (fun r => { r with mode := .demand, fallbacks := r.fallbacks + 1 }))
/-- What a close does by the region's mode (R363, R367, R371). -/
def State.closeMode (s : State) (d : Nat) (r : RrRegion) : State :=
  match r.mode with
  | .demand => s.updDie d (fun x => x.updRegion r.num (fun r => { r with depart := 0 }))
  | .armed =>
    let s := s.updDie d (fun x => x.updRegion r.num (fun r => { r with depart := 0 }))
    if r.lost then s.fallBack d r
    else (s.distribute d r).updDie d (fun x => x.updRegion r.num (fun r => { r with mode := .replay }))
  | .replay =>
    let s := s.wastePushed d r
    let n := s.mismatches d r
    let now := (((s.dieAt d).region r.num).map (·.departNow)).getD 0 + n
    let s := s.updDie d (fun x => x.updRegion r.num (fun r => { r with mismatch := r.mismatch + n, depart := min now 65535 }))
    if r.thresh ≠ 0 ∧ r.thresh ≤ now then s.fallBack d r else s
/-- The close of an iteration at the last RREND (R379); an RREC that waits for it leaves the region Armed. -/
def State.rrClose (s : State) (d num : Nat) : State :=
  match (s.dieAt d).region num with
  | none => s
  | some r =>
    if !r.opened || r.ended.length < rrParts r.rword then s
    else
      let s := s.closeMode d r
      let s := if r.rearm then (s.clearPushTables d num r.lnum).updDie d (fun x => x.updRegion num (fun r => { r with mode := .armed })) else s
      let s := s.updDie d (fun x => x.updRegion num (fun r => { r with
        opened := false, rearm := false, iters := r.iters + 1, members := [], ended := [], departNow := 0, lost := false }))
      let s := r.ended.foldl (fun (s : State) m => s.rrDeliver m) s
      s.rrOpen d num

/-! ### The RR instructions -/

/-- The check of a region word (R43, R377); `held` says that the caller's launch must hold the region. -/
def rrTrap (s : State) (w : Word) (held : Bool) : Option TrapOf :=
  let r := (s.dieAt (dieOf s.core)).region (rrNum w)
  let owned := r.any (fun r => s.curLaunch == some r.lnum)
  firstTrap [trapIf (s.tid = 15) operandInvalid 15, trapIf (rrBad w) operandInvalid w, trapIf (held && !owned) operandInvalid w,
    trapIf (r.any (fun r => r.rword != w)) operandInvalid w]
/-- The current thread's context as a participant. -/
def State.asMember (s : State) : RrMember := ⟨s.core, s.tid, s.thr.placedAt, s.nextId⟩
/-- A participant belongs to a context. -/
def RrMember.isOf (m : RrMember) (core tid ctx : Nat) : Bool := m.core == core && m.tid == tid && m.ctx == ctx
/-- The current context stands in a list of participants. -/
def State.among (s : State) (l : List RrMember) : Bool := l.any (fun m => m.isOf s.core s.tid s.thr.placedAt)
/-- The current thread has arrived and waits as at a barrier. -/
def State.rrArrive (s : State) : State :=
  (({ s with nextId := s.nextId + 1 }).updProgress (fun p => { p with begun := true, id := s.nextId })).parkSt (.barrier 0)
/-- An arrival that has been made completes when it is released. -/
def rrWait (s : State) : Res :=
  match s.thr.progress.ending with
  | some (.value _ _) => s.next 8
  | _ => s.park (.barrier 0)
/-- The record that RRBEG allocates for the caller's launch (R362, R376). -/
def State.newRegion (s : State) (base w : Word) : RrRegion :=
  let l := s.curLaunch.getD 0
  { num := rrNum w, lnum := l, tn := s.tn, base := base.toNat, rword := w, thresh := bits s.thr.ctl.rrthresh 15 0,
    mode := if s.recordingAllowed l then .armed else .demand, opened := false, rearm := false, iters := 0, depart := 0, recorded := 0,
    pushes := 0, used := 0, unrec := 0, wasted := 0, mismatch := 0, overflow := 0, fallbacks := 0, shot := 0, lost := false, departNow := 0,
    arrived := [], members := [], ended := [], spoiled := [] }
/-- RRBEG (R378). -/
def execRrbeg (a b : Reg) (s : State) : Res :=
  let x := s.rd a
  let w := s.rd b
  let d := dieOf s.core
  let num := rrNum w
  if s.thr.progress.begun then rrWait s
  else
    guardTrap s (firstTrap [rrTrap s w false,
      trapIf (x.toNat % 256 ≠ 0 || bits x 63 56 ≠ 0 || 2 ^ 56 < x.toNat + rrLen w) operandInvalid x]) fun _ =>
    let join := fun (s : State) =>
      let m := s.asMember
      .next ((s.rrArrive.updDie d (fun y => y.updRegion num (fun r => { r with arrived := r.arrived ++ [m] }))).rrOpen d num)
    match (s.dieAt d).region num with
    | none =>
      let overlaps := fun (r : RrRegion) => s.curLaunch == some r.lnum && r.base < x.toNat + rrLen w && x.toNat < r.base + rrLen r.rword
      if (s.dieAt d).regions.any overlaps then s.trap operandInvalid w
      else join (s.updDie d (fun y => { y with regions := y.regions ++ [s.newRegion x w] }))
    | some r =>
      if s.curLaunch ≠ some r.lnum ∨ r.base ≠ x.toNat then s.trap operandInvalid w
      else if s.among r.arrived || (s.among r.members && !s.among r.ended) then s.trap operandInvalid w
      else join s
/-- RREND (R379): the fired pushes end before the arrival, so every push of the iteration is served before its close. -/
def execRrend (b : Reg) (s : State) : Res :=
  let w := s.rd b
  let d := dieOf s.core
  let num := rrNum w
  if s.thr.progress.begun then rrWait s
  else
    guardTrap s (rrTrap s w true) fun _ =>
    match (s.dieAt d).region num with
    | none => s.trap operandInvalid w
    | some r =>
      if !r.opened || !s.among r.members || s.among r.ended then s.trap operandInvalid w
      else
        afterPushes s fun s =>
        if s.pushes.any (fun p => p.die == d && p.region == num) then s.park .reply
        else
          let m := s.asMember
          .next ((s.rrArrive.updDie d (fun y => y.updRegion num (fun r => { r with ended := r.ended ++ [m] }))).rrClose d num)
/-- RREC (R380): a closed region is Armed at once, an open one at its close; a launch that may not record is left in Demand (R376). -/
def execRrec (b : Reg) (s : State) : Res :=
  let w := s.rd b
  let d := dieOf s.core
  let num := rrNum w
  guardTrap s (rrTrap s w true) fun _ =>
  match (s.dieAt d).region num with
  | none => s.trap operandInvalid w
  | some r =>
    asked [] s fun s =>
    if !s.recordingAllowed r.lnum then s.next 8
    else
      let th := bits s.thr.ctl.rrthresh 15 0
      if r.opened then (s.updDie d (fun y => y.updRegion num (fun r => { r with rearm := true, thresh := th }))).next 8
      else ((s.clearPushTables d num r.lnum).updDie d (fun y => y.updRegion num (fun r => { r with mode := .armed, thresh := th }))).next 8
/-- RROFF (R380). -/
def execRroff (b : Reg) (s : State) : Res :=
  let w := s.rd b
  let d := dieOf s.core
  guardTrap s (rrTrap s w true) fun _ =>
  match (s.dieAt d).region (rrNum w) with
  | none => s.trap operandInvalid w
  | some r =>
    if r.opened then s.trap operandInvalid w
    else
      asked [] s fun s =>
      let s := (s.clearPushTables d r.num r.lnum).updDie d (fun y => y.clearRecTables r.num r.lnum)
      (s.updDie d (fun y => { y with regions := y.regions.filter (fun q => q.num ≠ r.num) })).next 8
/-- RRSTAT (R381). -/
def execRrstat (d a b : Reg) (s : State) : Res :=
  let i := s.rd a
  let w := s.rd b
  guardTrap s (firstTrap [rrTrap s w true, trapIf (9 < i.toNat) operandInvalid i, trapIf s.det orderDependent 0]) fun _ =>
  match (s.dieAt (dieOf s.core)).region (rrNum w) with
  | none => s.trap operandInvalid w
  | some r => asked [] s fun s => (s.wr d (r.counter i.toNat)).next 8

/-! ### Pushes (R369) -/

/-- A push is over: it leaves the list, and the threads that wait for pushes look again (R368). -/
def State.endPush (s : State) (n : Nat) : State :=
  let d := ((s.pushes[n]?).map (·.die)).getD 0
  ({ s with pushes := dropAt s.pushes n } : State).wakeIf (fun (c _ : Nat) (w : Park) => dieOf c == d && w == .reply)
/-- The consumer core runs a task of a launch. -/
def Core.runsLaunch (c : Core) (l : Nat) : Bool :=
  (List.range 15).any (fun t => (c.thr t).status != .free && (c.thr t).task.any (fun k => k.lnum == l))
/-- REPLAY_PUSH (R369): the n-th push is served as a read for its consumer, unless a claim on the line holds it; it is dropped and wasted when
the consumer's core runs no task of the launch, holds the sector already or has no way for it, when its translation would fault or hold (R158),
and, without a departure, when the line's part in the iteration has ended (R365). -/
def execReplayPush (n : Nat) (s : State) : Res :=
  match s.pushes[n]? with
  | none => .next s
  | some p =>
    let va := p.line * 256 + 64 * p.sector
    let counted := fun (s : State) (wasted departs : Nat) =>
      s.updDie p.die (fun d => d.updRegion p.region (fun r => { r with
        pushes := r.pushes + 1, wasted := r.wasted + wasted, departNow := r.departNow + departs }))
    let c := s.coreAt p.consumer
    let spoiled := ((s.dieAt p.die).region p.region).any (fun r => r.spoiled.contains p.line)
    let walked := s.fetchWalk p.die p.tn va
    if spoiled then .next ((counted s 1 0).endPush n)
    else if (s.dieAt p.die).claimed p.tn p.line then .next s
    else if !c.runsLaunch p.lnum || c.l1Sec p.tn p.line p.sector != .i || !c.l1Way p.tn p.line then .next ((counted s 1 1).endPush n)
    else if !walked.2 then .next ((counted walked.1 1 1).endPush n)
    else
      match settled s (((s.noteMerge p.die p.tn p.line).recallSector p.die p.tn p.line p.sector none true).readRequest p.consumer p.tn va) with
      | (s', .ok) =>
        let s' := s'.updCore p.consumer (fun k => k.l1Upd p.tn p.line (fun l => { l with pushed := (p.sector, p.region) :: l.pushed }))
        .next ((counted s' 0 0).endPush n)
      | (_, .hold _) => .next s
      | _ => .next ((counted s 1 1).endPush n)

end Sys2Proof.Machine
end

