-- ==== Sys2Proof/Machine/Global.lean ====
section
/-! DEFINITION. Global scalar and vector accesses, PFG and the range operations (R185 to R194), and the slice and L1 steps that serve them
(R158, R172, R173, R184, R193, R214) as rows of their own. -/

namespace Sys2Proof.Machine

/-! ### LD, ST, LDX, STX (R185, R186) -/

/-- The checks in the core (R170): alignment, then R148. -/
def globalTrap (va : Word) (n : Nat) : Option TrapOf := firstTrap [trapIf (va.toNat % n ≠ 0) misalignment va, vaTrap va]
/-- A global load of a scalar (R185). -/
def globalLoad (w : LoadW) (d : Reg) (va : Word) (s : State) : Res :=
  let n := loadBytes w
  guardTrap s (globalTrap va n) fun _ =>
  afterReds .reply s fun s =>
  runL1 false (readL1 s.core s.tn) .read [⟨0, va.toNat, n, 0, 0, 0⟩] s fun s =>
  (s.wr d (loadExtend w (elem (8 * n) s.thr.progress.data 0))).next 8
/-- A global store of a scalar (R185). -/
def globalStore (n : Nat) (x va : Word) (s : State) : Res :=
  guardTrap s (globalTrap va n) fun _ =>
  afterReds .reply s fun s =>
  runL1 true (writeL1 s.core s.tn) .write [⟨0, va.toNat, n, 0, x.toNat, 2 ^ n - 1⟩] s fun s => s.finish 8

/-- LD (R185). -/
def execLd (w : LoadW) (d a : Reg) (p : BitVec 13) (s : State) : Res := globalLoad w d (dispAddr s a (loadBytes w) p) s
/-- ST (R185). -/
def execSt (w : StoreW) (r a : Reg) (p : BitVec 13) (s : State) : Res :=
  globalStore (storeBytes w) (s.rd r) (dispAddr s a (storeBytes w) p) s
/-- LDX (R186). -/
def execLdx (w : LoadW) (d a b : Reg) (s : State) : Res := globalLoad w d (s.rd a + s.rd b) s
/-- STX (R186). -/
def execStx (w : StoreW) (r a b : Reg) (s : State) : Res := globalStore (storeBytes w) (s.rd r) (s.rd a + s.rd b) s

/-! ### PFG (R187) -/

/-- PFG (R187): it sends a request for the sector, and the thread goes on; it does nothing when the L1 holds the sector or has no way for it. -/
def execPfg (a : Reg) (s : State) : Res :=
  let va := s.rd a
  if bits va 63 56 ≠ 0 || s.l1Hit s.core s.tn va.toNat false || !s.cur.l1Way s.tn (lineOf va.toNat) then s.next 8
  else (s.updCur (fun c => { c with prefetches := c.prefetches ++ [(s.tn, va.toNat)] })).next 8
/-- A prefetch that has reached its slice: none while an engine's claim holds it (R226); it is dropped when its translation would fault or hold,
or the L1 has no way for it (R158, R187). -/
def State.prefetch (s : State) (core tn va : Nat) : Option State :=
  let d := dieOf core
  let line := lineOf va
  let c : Core := { s.coreAt core with prefetches := (s.coreAt core).prefetches.filter (· ≠ (tn, va)) }
  let gone := s.setCore core c
  let walked := gone.fetchWalk d tn va
  if (s.dieAt d).claimed tn line then none
  else if !walked.2 then some walked.1
  else if !c.l1Way tn line then some gone
  else
    match (gone.noteMerge d tn line).readRequest core tn va with
    | (_, .hold _) => none
    | (s', .ok) => some s'
    | _ => some gone

/-! ### Range operations (R188 to R190) -/

/-- The resident lines of a tenancy on a die that overlap a range, by ascending address. -/
def Die.linesIn (d : Die) (tn a n : Nat) : List Nat :=
  let l := (d.llc.filter (fun x => x.tn == tn && a < x.line * 256 + 256 && x.line * 256 < a + n)).map LlcLine.line
  (List.range l.length).foldl (fun (acc : List Nat) _ =>
    match argMin id (l.filter (fun x => !acc.contains x)) with
    | some x => acc ++ [x]
    | none => acc) []
/-- A range overlaps an engine's claim on a die. -/
def Die.claimedIn (d : Die) (tn a n : Nat) : Bool :=
  d.claims.any (fun c => c.tn == tn && max c.lo c.upto < (a + n + 255) / 256 * 256 && a / 256 * 256 < c.hi)
/-- The checks of a range operation: length, then R148. -/
def rangeTrap (a n : Word) : Option TrapOf :=
  firstTrap [trapIf (2 ^ 30 < n.toNat) operandInvalid n, trapIf (bits a 63 56 ≠ 0 || 2 ^ 56 < a.toNat + n.toNat) accessFault a]
/-- Cleans a line of a range to DRAM, as it was when the operation began (R188): dirty data of a guest line of this package go on through the
home die's copy, also when the line has left this die meanwhile. -/
def State.cleanToDram (s : State) (d : Nat) (l : LlcLine) : State :=
  let through := s.isGuest d l.pa && s.isOwn l.pa && s.guestDirty l
  let s := s.cleanLine d l.tn l.line
  if through then s.cleanLine (paDie l.pa) l.tn l.line else s
/-- CWB and CINV: `step` acts on each line; the operation waits while an engine's claim, a full set at a home or memory that is not ready holds a
line (R179, R226, R404). -/
def rangeWriteBack (step : State → Nat → LlcLine → State) (a n : Word) (s : State) : Res :=
  guardTrap s (rangeTrap a n) fun _ =>
  if n = 0 then s.next 8
  else
    afterReds .reply s fun s =>
    asked [] s fun s =>
    let d := dieOf s.core
    let l := ((s.dieAt d).linesIn s.tn a.toNat n.toNat).filterMap (fun x => (s.dieAt d).llcFind s.tn x)
    let s' := l.foldl (fun (s : State) x => step s d x) s
    if (s.dieAt d).claimedIn s.tn a.toNat n.toNat || s'.jam then s.park .reply else s'.next 8
/-- CWB (R188). -/
def execCwb (a b : Reg) (s : State) : Res := rangeWriteBack State.cleanToDram (s.rd a) (s.rd b) s
/-- CINV (R188). -/
def execCinv (a b : Reg) (s : State) : Res :=
  rangeWriteBack (fun s d x => (s.cleanToDram d x).flushLine d x.tn x.line) (s.rd a) (s.rd b) s
/-- The step of CDISC at a stripe: it is translated for write access, and then its lines in the range are dropped (R190). -/
def discStripe (d tn a n : Nat) : Perform := fun s e =>
  match s.translate d tn e.va .write none with
  | (s, .ok _ _) => (((s.dieAt d).linesIn tn (max a (e.id * 4096)) (min (a + n) (e.id * 4096 + 4096) - max a (e.id * 4096))).foldl
      (fun (s : State) x => s.discardLine d tn x) s, .ok, 0)
  | (s, r) => (s, r.ans, 0)
/-- The stripes of a range that hold a cached line. -/
def stripesOf (a : Nat) : List Nat → List Elem
  | [] => []
  | x :: l =>
    let r := stripesOf a l
    if r.any (fun e => e.id == x * 256 / 4096) then r else ⟨x * 256 / 4096, max a (x * 256 / 4096 * 4096), 0, 0, 0, 0⟩ :: r
/-- CDISC (R188, R190). -/
def execCdisc (a b : Reg) (s : State) : Res :=
  let x := s.rd a
  let n := s.rd b
  guardTrap s (firstTrap [trapIf (x.toNat % 256 ≠ 0) misalignment x, trapIf (n.toNat % 256 ≠ 0) misalignment n, rangeTrap x n]) fun _ =>
  if n = 0 then s.next 8
  else
    afterReds .reply s fun s =>
    asked [] s fun s =>
    let d := dieOf s.core
    let tn := s.tn
    if (s.dieAt d).claimedIn tn x.toNat n.toNat then s.park .reply
    else
      runElems (discStripe d tn x.toNat n.toNat) .write (stripesOf x.toNat ((s.dieAt d).linesIn tn x.toNat n.toNat)) s fun s => s.next 8

/-! ### Global vector accesses (R191 to R194) -/

/-- The shape of a global vector access: its checks, then the waits for posted reductions (R238) and for what `due` names, then the window claims, once
(R194); `k` gets the state in which the elements run. -/
def vectorAccessIf (due : State → Option Park) (reads writes : List VCode) (early late : Option TrapOf) (data aux : VReg) (s : State) (k : State → Res) : Res :=
  if s.thr.progress.begun then k s
  else
    guardTrap s (firstTrap [early, (s.holderBad (reads ++ writes)).map (fun c => (operandInvalid, word c)), late]) fun _ =>
    afterReds .reply s fun s =>
    match due s with
    | some w => s.park w
    | none => withWindows reads writes early late s fun s => k (s.capture data aux)
/-- A global vector access that waits for nothing else before it claims its windows. -/
def vectorAccess (reads writes : List VCode) (early late : Option TrapOf) (data aux : VReg) (s : State) (k : State → Res) : Res :=
  vectorAccessIf (fun _ => none) reads writes early late data aux s k

/-- The sectors of a 256-byte access that hold an active byte, each trimmed to its first and last active byte (R191). -/
def sectorElems (a : Nat) (m : Mask) (x : VReg) : List Elem :=
  (List.range 5).filterMap (fun i =>
    let l := (activeBytes m).filter (fun j => (a + j) / 64 == a / 64 + i)
    match l.head?, l.getLast? with
    | some lo, some hi =>
      some ⟨i, a + lo, hi + 1 - lo, lo, (x.toNat / 2 ^ (8 * lo)) % 2 ^ (8 * (hi + 1 - lo)), m.toNat / 2 ^ lo % 2 ^ (hi + 1 - lo)⟩
    | _, _ => none)
/-- R148 for a 256-byte access. -/
def vectorVaTrap (a : Word) : Option TrapOf := trapIf (bits a 63 56 ≠ 0 || 2 ^ 56 ≤ a.toNat + 255) accessFault a
/-- VLD (R191). -/
def execVld (d : VCode) (a : Reg) (p : BitVec 5) (k : MaskReg) (s : State) : Res :=
  let x := vdispAddr s a p
  let m := s.mask k
  vectorAccess [] [d] (trapIf (x.toNat % 4 ≠ 0) misalignment x) (vectorVaTrap x) 0 0 s fun s =>
  runWhole false (readL1 s.core s.tn) .read (sectorElems x.toNat m 0) s fun s =>
  (s.vwrite d 8 256 m (fun j => ⟨elem 8 s.thr.progress.data j, 0⟩)).next 8
/-- VST (R191). -/
def execVst (d : VCode) (a : Reg) (p : BitVec 5) (k : MaskReg) (s : State) : Res :=
  let x := vdispAddr s a p
  let m := s.mask k
  vectorAccess [d] [] (trapIf (x.toNat % 4 ≠ 0) misalignment x) (vectorVaTrap x) (s.vget d) 0 s fun s =>
  runWhole true (writeL1 s.core s.tn) .write (sectorElems x.toNat m s.thr.progress.data) s fun s => s.finish 8

/-- The elements of an access of 64 lanes: active lanes with their addresses; `x` holds the data to store. -/
def laneElems (w : Nat) (l : List (Nat × Word)) (x : VReg) : List Elem :=
  l.map (fun e => ⟨e.1, e.2.toNat, w / 8, e.1 * (w / 8), elem w x e.1, 2 ^ (w / 8) - 1⟩)
/-- The active lanes of a strided access (R192). -/
def strideLanes (s : State) (t : ElemTy) (a b : Reg) (k : Mask) : List (Nat × Word) :=
  ((List.range 64).filter (active k t.width)).map (fun i => (i, s.rd a + word i * s.rd b))
/-- The lowest misaligned lane. -/
def lanesMisaligned (l : List (Nat × Word)) (n : Nat) : Option TrapOf := firstLaneTrap l (laneAlign n)
/-- A strided store counts once for each sector that it writes (R365): with the first of its elements there. -/
def writeStrided (c tn : Nat) (l : List Elem) : Perform := fun s e =>
  let again := l.any (fun o => o.va / 64 == e.va / 64 && s.thr.progress.elems.contains o.id)
  writeCounted (if again then 0 else 1) c tn s e
/-- VLDS (R192). -/
def execVlds (t : ElemTy) (d : VCode) (a b : Reg) (k : MaskReg) (s : State) : Res :=
  let m := s.mask k
  let l := strideLanes s t a b m
  vectorAccess [] [d] (lanesMisaligned l (t.width / 8)) (firstLaneTrap l vaTrap) 0 0 s fun s =>
  runL1 false (readL1 s.core s.tn) .read (laneElems t.width l 0) s fun s =>
  (s.vwrite d t.width 64 m (fun i => ⟨elem t.width s.thr.progress.data i, 0⟩)).next 8
/-- VSTS (R192). -/
def execVsts (t : ElemTy) (d : VCode) (a b : Reg) (k : MaskReg) (s : State) : Res :=
  let l := strideLanes s t a b (s.mask k)
  vectorAccess [d] [] (lanesMisaligned l (t.width / 8)) (firstLaneTrap l vaTrap) (s.vget d) 0 s fun s =>
  let e := laneElems t.width l s.thr.progress.data
  runL1 true (writeStrided s.core s.tn e) .write e s fun s => s.finish 8
/-- The active lanes of a gather or scatter in progress, from the offsets captured at its claim (R193, R194). -/
def heldLanes (s : State) (t : ElemTy) (a : Reg) (k : Mask) : List (Nat × Word) :=
  ((List.range 64).filter (active k t.width)).map (fun i => (i, s.rd a + word (elem 32 s.thr.progress.aux i)))
/-- The checks of a gather or scatter, lane by lane (R193). -/
def wordTraps (n : Nat) (l : List (Nat × Word)) : Option TrapOf × Option TrapOf := laneTraps l (fun x => firstTrap [laneAlign n x, vaTrap x])
/-- VGTH (R193). -/
def execVgth (t : ElemTy) (d : VCode) (a : Reg) (b : VCode) (k : MaskReg) (s : State) : Res :=
  let m := s.mask k
  let l := indexLanes s t a b m
  let c := wordTraps (t.width / 8) l
  vectorAccess [b] [d] c.1 c.2 0 (s.vget b) s fun s =>
  runWords true (readWord (dieOf s.core) s.tn) .read (laneElems t.width (heldLanes s t a m) 0) s fun s =>
  (s.vwrite d t.width 64 m (fun i => ⟨elem t.width s.thr.progress.data i, 0⟩)).next 8
/-- VSCT (R193). -/
def execVsct (t : ElemTy) (d : VCode) (a : Reg) (b : VCode) (k : MaskReg) (s : State) : Res :=
  let m := s.mask k
  let l := indexLanes s t a b m
  let c := wordTraps (t.width / 8) l
  vectorAccess [d, b] [] c.1 c.2 (s.vget d) (s.vget b) s fun s =>
  runWords false (writeWord (dieOf s.core) s.tn) .write (laneElems t.width (heldLanes s t a m) s.thr.progress.data) s fun s => s.next 8

/-! ### The steps of the memory system as rows -/

/-- The answer to a thread's request has come: the access is performed when the thread goes on, at once, and accesses of its core that found no
way of the L1 look again (R171, R172). -/
def State.reply (s : State) (core tid : Nat) : State :=
  let s := s.updThrAt core tid (fun t => { t.wakeUp with progress := { t.progress with ask := .served } })
  s.updCore core (fun c => c.wakeBy (fun _ t w => w == .reply && t.progress.ask == .served))
/-- The sectors of one line that a thread has asked for in its L1 are granted, ahead of those of its access whose turn has not come; one that cannot be
is met when the access goes on. -/
def State.serveLine (s : State) (core tid line : Nat) : State :=
  let t := (s.coreAt core).thr tid
  (t.progress.asks.filter (fun a => lineOf a.1 == line)).foldl (fun (s : State) a =>
    match s.obtain core t.ctl.tenancy.toNat a.1 (a.2 == .owned) with
    | (s', .ok) => s'.updThrAt core tid (fun x => { x with progress := { x.progress with asks := x.progress.asks.erase a } })
    | _ => s) s
/-- What an answer about a line does for a thread whose requests are attached: its access goes on where it is its turn at every line, or where it asks
for words, one of which it may now have; else the sectors of that line are granted. -/
def State.replyAt (s : State) (core tid line : Nat) : State :=
  let t := (s.coreAt core).thr tid
  let turn := s.askInTurn core tid t.ctl.tenancy.toNat
  let sector := fun (a : Nat × AskKind) => a.2 == .shared || a.2 == .owned
  if t.progress.asks.all turn || t.progress.asks.any (fun a => !sector a && turn a) then s.reply core tid else s.serveLine core tid line
/-- GLOBAL_REPLY (R172, R184): the slices answer the request of a parked thread, as soon as each line that is absent has a miss register and it is the
thread's turn at one of them; a thread that something else holds looks again. -/
def execGlobalReply (core tid : Nat) (s : State) : Res :=
  let t := (s.coreAt core).thr tid
  if t.asking then
    if t.resume then .next s
    else
      match s.attachAll core tid with
      | (s', true) =>
        match t.progress.asks.find? (s'.askInTurn core tid t.ctl.tenancy.toNat) with
        | some a => .next (s'.replyAt core tid (lineOf a.1))
        | none => .next (if t.progress.asks.isEmpty then s'.reply core tid else s')
      | (s', false) => .next s'
  else
    match t.parkOf with
    | some .reply => .next (s.updThrAt core tid Thread.wakeUp)
    | _ => .next s
/-- A slice step that is served, or that leaves everything as it was when it is held or faults. -/
def served (s : State) (r : State × Ans) : Res :=
  match r with
  | (s', .ok) => .next s'
  | _ => .next s
/-- SLICE_READ_REQUEST (R173, R187): a read request of a core's L1, which may be a prefetch under way. -/
def execSliceReadRequest (core tn va : Nat) (s : State) : Res :=
  if (s.coreAt core).prefetches.contains (tn, va) then .next ((s.prefetch core tn va).getD s) else served s (s.readRequest core tn va)
/-- SLICE_OWNERSHIP_REQUEST (R173). -/
def execSliceOwnershipRequest (core tn va : Nat) (s : State) : Res := served s (s.ownRequest core tn va)
/-- L1_WRITE_BACK (R173): the line of the VA is replaced in the L1. -/
def execL1WriteBack (core tn va : Nat) (s : State) : Res :=
  match (s.coreAt core).l1Find tn (lineOf va) with
  | some k => .next (s.unlessJam (s.l1Evict core k))
  | none => .next s
/-- L1_INVALIDATION (R173): the sector of the VA leaves the L1, an M one after its write-back. -/
def execL1Invalidation (core tn va : Nat) (s : State) : Res :=
  let i := va / 64 % 4
  if (s.coreAt core).l1Sec tn (lineOf va) i = .m then .next (s.unlessJam (s.recallSector (dieOf core) tn (lineOf va) i none false))
  else .next (s.l1Invalidate core tn (lineOf va) i)
/-- LINE_FILL (R184). -/
def execLineFill (die tn va : Nat) (s : State) : Res := served s (settled s (s.ensureLine die tn (lineOf va) va .read))
/-- PAGE_WALK (R158): a leaf that passes its checks is cached with its A bit set, and for an access that may go on its D bit. -/
def execPageWalk (die tn va : Nat) (acc : Access) (s : State) : Res := .next (s.translate die tn va acc none).1
/-- WORD_REQUEST (R193): a gather element, or a scatter element with its datum. -/
def execWordRequest (core tn va size : Nat) (x : Option Word) (s : State) : Res :=
  let d := dieOf core
  match x with
  | none => let r := s.sliceRead d tn va size false; served s (r.1, r.2.1)
  | some y => served s (s.sliceWrite d tn (lineOf va) va .write (maskRange (va % 256) size) (placeAt (va % 256) size y.toNat) false)
/-- GUEST_WRITE_BACK (R214, R218): a guest line's dirty bytes are merged at its home, unless a claim there holds them (R226): the bytes of a line on
a die, or those that another package writes back to a home here. -/
def execGuestWriteBack (source : GuestSource) (tn va : Nat) (s : State) : Res :=
  match source with
  | .far f =>
    if s.farHome tn va f.pa then
      .next (s.unlessJam (s.homeMerge (State.llcStore s.lineCount) tn (lineOf va) (f.pa / 256 * 256) f.key f.mask f.data))
    else .next s
  | .die die =>
    match (s.dieAt die).llcFind tn (lineOf va) with
    | some l => if s.isGuest die l.pa && !s.wbHeld die l then .next (s.unlessJam (s.cleanLine die tn (lineOf va))) else .next s
    | none => .next s

end Sys2Proof.Machine
end

