-- ==== Sys2Proof/Machine/Special.lean ====
section
/-! DEFINITION. The special functions of the vector unit on f32 (R130).  Rational and algebraic results are rounded exactly.  The others are
irrational except where the spec names the exact cases; they are computed to more than 200 bits and rounded with a sticky bit (log 17). -/

namespace Sys2Proof.Machine

/-- Fixed-point scale: values are multiples of 2^−256. -/
abbrev fixP : Nat := 256
/-- ⌊2^256 · ln 2⌋. -/
def ln2Fix : Nat := 0xb17217f7d1cf79abc9e3b39803f2f6af40f343267298b62d8a0d175b8baafa2b

/-- Σ z^i / i! from term `t` = z^i / i! on, for `n` further terms. -/
def expTerms (z : Nat) : Nat → Nat → Nat → Nat
  | 0, _, t => t
  | n + 1, i, t => t + expTerms z n (i + 1) (t * z / 2 ^ fixP / (i + 1))
/-- e^z for z below 1. -/
def expFix (z : Nat) : Nat := expTerms z 70 0 (2 ^ fixP)
/-- Σ y^(2i+1) / (2i + 1), with `p` = y^(2i+1). -/
def atanhTerms (y2 : Nat) : Nat → Nat → Nat → Nat
  | 0, _, _ => 0
  | n + 1, i, p => p / (2 * i + 1) + atanhTerms y2 n (i + 1) (p * y2 / 2 ^ fixP)
/-- (u, k) with e^−x = u · 2^−k, u between 1/2 and 1. -/
def expNeg (x : Nat) : Nat × Nat :=
  let k := x / ln2Fix
  (2 ^ (2 * fixP) / expFix (x - k * ln2Fix), k)

/-- Rounds to f32 under RNE. -/
def toF32 (neg : Bool) (m : Nat) (e : Int) (sticky : Bool) : Fl := roundF .f32 .rne false .arith neg m e sticky
/-- The magnitude of a finite value in fixed point, at most 512. -/
def fixOf (m : Nat) (e : Int) : Nat := min (m * 2 ^ (e + fixP).toNat) (512 * 2 ^ fixP)
/-- f32 constants. -/
def f32One : Nat := 0x3F800000

/-- 2^x. -/
def exp2Fin (neg : Bool) (m : Nat) (e : Int) : Fl :=
  let x : Int := if neg then -(fixOf m e : Int) else (fixOf m e : Int)
  let k := x / (2 ^ fixP : Int)
  let f := (x % (2 ^ fixP : Int)).toNat
  if f = 0 then toF32 false 1 k false else toF32 false (expFix (f * ln2Fix / 2 ^ fixP)) (k - fixP) true
/-- log2 of a positive finite value. -/
def log2Fin (m : Nat) (e : Int) : Fl :=
  let j := m.log2
  if m = 2 ^ j then let v := e + j; toF32 (v < 0) v.natAbs 0 false
  else
    let up := 2 * m ≥ 3 * 2 ^ j
    let j := if up then j + 1 else j
    -- m / 2^j lies between 3/4 and 3/2
    let y := (if up then 2 ^ j - m else m - 2 ^ j) * 2 ^ fixP / (m + 2 ^ j)
    let l : Int := (2 * atanhTerms (y * y / 2 ^ fixP) 70 0 y * 2 ^ fixP / ln2Fix : Nat)
    let v := (e + j) * 2 ^ fixP + (if up then -l else l)
    toF32 (v < 0) v.natAbs (-fixP) true
/-- 1 / √x of a positive finite value. -/
def rsqrtFin (m : Nat) (e : Int) : Fl :=
  let odd := e % 2 = 1
  let m := if odd then 2 * m else m
  let e := if odd then e - 1 else e
  let r := isqrt (2 ^ 256 / m)
  toF32 false r (-128 - e / 2) (r * r * m != 2 ^ 256)
/-- tanh of a nonzero finite value: just below x in magnitude where x² / 3 is below 2^−40, else (1 − e^−2x) / (1 + e^−2x). -/
def tanhFin (neg : Bool) (m : Nat) (e : Int) : Fl :=
  if e + m.log2 < -20 then toF32 neg (m * 2 ^ 64 - 1) (e - 64) true
  else
    let u := expNeg (2 * fixOf m e)
    let t := u.1 / 2 ^ u.2
    toF32 neg ((2 ^ fixP - t) * 2 ^ fixP / (2 ^ fixP + t)) (-fixP) true
/-- 1 / (1 + e^−x) of a finite value. -/
def sigmFin (neg : Bool) (m : Nat) (e : Int) : Fl :=
  if m = 0 then ⟨0x3F000000, 0⟩
  else
    let u := expNeg (fixOf m e)
    let d := 2 ^ fixP + u.1 / 2 ^ u.2
    if neg then toF32 false (u.1 * 2 ^ fixP / d) (-fixP - u.2) true else toF32 false (2 ^ (2 * fixP) / d) (-fixP) true

/-- VEXP2 of one element (R130). -/
def fExp2 (x : Nat) : Fl :=
  match unpackF .f32 x with
  | .nan s => ⟨canonNan .f32, flagIf s flInvalid⟩
  | .inf n => ⟨if n then 0 else infBits .f32, 0⟩
  | .fin n m e => exp2Fin n m e
/-- VLOG2 of one element (R130). -/
def fLog2 (x : Nat) : Fl :=
  match unpackF .f32 x with
  | .nan s => ⟨canonNan .f32, flagIf s flInvalid⟩
  | .inf n => if n then ⟨canonNan .f32, flInvalid⟩ else ⟨infBits .f32, 0⟩
  | .fin n m e =>
    if m = 0 then ⟨signBit .f32 true + infBits .f32, flDivZero⟩
    else if n then ⟨canonNan .f32, flInvalid⟩
    else log2Fin m e
/-- VRCP of one element (R130). -/
def fRcp (x : Nat) : Fl :=
  match unpackF .f32 x with
  | .nan s => ⟨canonNan .f32, flagIf s flInvalid⟩
  | .inf n => ⟨signBit .f32 n, 0⟩
  | .fin n m e =>
    if m = 0 then ⟨signBit .f32 n + infBits .f32, flDivZero⟩
    else
      let q := quotient 1 0 m e
      toF32 n q.1 q.2.1 q.2.2
/-- VRSQ of one element (R130). -/
def fRsq (x : Nat) : Fl :=
  match unpackF .f32 x with
  | .nan s => ⟨canonNan .f32, flagIf s flInvalid⟩
  | .inf n => if n then ⟨canonNan .f32, flInvalid⟩ else ⟨0, 0⟩
  | .fin n m e =>
    if m = 0 then ⟨signBit .f32 n + infBits .f32, flDivZero⟩
    else if n then ⟨canonNan .f32, flInvalid⟩
    else rsqrtFin m e
/-- VTANH of one element (R130). -/
def fTanh (x : Nat) : Fl :=
  match unpackF .f32 x with
  | .nan s => ⟨canonNan .f32, flagIf s flInvalid⟩
  | .inf n => ⟨signBit .f32 n + f32One, 0⟩
  | .fin n m e => if m = 0 then ⟨signBit .f32 n, 0⟩ else tanhFin n m e
/-- VSIGM of one element (R130). -/
def fSigm (x : Nat) : Fl :=
  match unpackF .f32 x with
  | .nan s => ⟨canonNan .f32, flagIf s flInvalid⟩
  | .inf n => ⟨if n then 0 else f32One, 0⟩
  | .fin n m e => sigmFin n m e

end Sys2Proof.Machine
end

