-- ==== Sys2Proof/Machine/Vector.lean ====
section
/-! DEFINITION. The element-wise vector groups: VAR and VSC (R120, R121), VLG (R122), VCM (R123 to R125) and VMV (R135). -/

namespace Sys2Proof.Machine

/-! ### Shapes (R114) -/

/-- A three-operand form: `dRead` says that vd is also read; `f` gets the elements of va, vb and vd. -/
def vec3 (t : ElemTy) (d a b : VCode) (k : MaskReg) (dRead : Bool) (f : Nat → Nat → Nat → Fl) (interval : Nat) (s : State) : Res :=
  let w := t.width
  let x := s.vget a
  let y := s.vget b
  let z := s.vget d
  withWindows ((if dRead then [d] else []) ++ [a, b]) [d] none none s fun s' =>
    (s'.vwrite d w (lanes w) (s.mask k) (fun i => f (elem w x i) (elem w y i) (elem w z i))).next interval
/-- A form with one vector source and a scalar that the function already holds. -/
def vec2 (t : ElemTy) (d a : VCode) (k : MaskReg) (dRead : Bool) (f : Nat → Nat → Fl) (interval : Nat) (s : State) : Res :=
  let w := t.width
  let x := s.vget a
  let z := s.vget d
  withWindows ((if dRead then [d] else []) ++ [a]) [d] none none s fun s' =>
    (s'.vwrite d w (lanes w) (s.mask k) (fun i => f (elem w x i) (elem w z i))).next interval

/-! ### Element operations (R120, R122) -/

/-- An integer result modulo 2^w, with no flag. -/
def modW (t : ElemTy) (x : Int) : Fl := ⟨natOfInt t.width x, 0⟩
/-- Addition of elements. -/
def elAdd (t : ElemTy) (c : Fcw) (a b : Nat) : Fl := if t.isF then fpAdd t c a b else modW t (a + b)
/-- Subtraction of elements. -/
def elSub (t : ElemTy) (c : Fcw) (a b : Nat) : Fl := if t.isF then fpSub t c a b else modW t ((a : Int) - b)
/-- Multiplication of elements. -/
def elMul (t : ElemTy) (c : Fcw) (a b : Nat) : Fl := if t.isF then fpMul t c a b else modW t (a * b)
/-- d + a · b or d − a · b of elements. -/
def elFma (t : ElemTy) (c : Fcw) (sub : Bool) (d a b : Nat) : Fl :=
  if t.isF then fpFma t c sub d a b else modW t (if sub then (d : Int) - a * b else d + a * b)
/-- The lesser or greater element. -/
def elMinMax (t : ElemTy) (c : Fcw) (max : Bool) (a b : Nat) : Fl :=
  if t.isF then fpMinMax t c.ftzi max a b
  else
    let lt := decide (unpackI t a < unpackI t b)
    ⟨(if lt != max then a else b) % 2 ^ t.width, 0⟩
/-- A signed magnitude or negation: the most negative value saturates. -/
def elSat (t : ElemTy) (v : Int) : Fl := if intHi t < v then ⟨natOfInt t.width (intHi t), flSaturated⟩ else modW t v
/-- The absolute value of an element. -/
def elAbs (t : ElemTy) (a : Nat) : Fl := if t.isF then fpAbs t a else elSat t ((unpackI t a).natAbs : Int)
/-- The negation of an element. -/
def elNeg (t : ElemTy) (a : Nat) : Fl := if t.isF then fpNeg t a else elSat t (-(unpackI t a))
/-- The high half of the product of elements. -/
def elMulh (t : ElemTy) (a b : Nat) : Fl := modW t ((unpackI t a * unpackI t b) / (2 ^ t.width : Int))
/-- The four 8-bit products of R121 added to a 32-bit element. -/
def elDot4 (t : ElemTy) (a b d : Nat) : Fl :=
  let p := fun j => unpackI t (a / 2 ^ (8 * j)) * unpackI t (b / 2 ^ (8 * j))
  ⟨natOfInt 32 (d + p 0 + p 1 + p 2 + p 3), 0⟩
/-- An element without flags. -/
def plain (x : Nat) : Fl := ⟨x, 0⟩
/-- The scalar of a VSC instruction: the low bits of the register (R85, R120). -/
def scalarOf (t : ElemTy) (s : State) (b : Reg) : Nat := (s.rd b).toNat % 2 ^ t.width

/-! ### VAR and VSC -/

/-- VADD (R120). -/
def execVadd (t : ElemTy) (d a b : VCode) (k : MaskReg) (s : State) : Res := vec3 t d a b k false (fun x y _ => elAdd t s.fcw x y) 8 s
/-- VSUB (R120). -/
def execVsub (t : ElemTy) (d a b : VCode) (k : MaskReg) (s : State) : Res := vec3 t d a b k false (fun x y _ => elSub t s.fcw x y) 8 s
/-- VMUL (R120). -/
def execVmul (t : ElemTy) (d a b : VCode) (k : MaskReg) (s : State) : Res := vec3 t d a b k false (fun x y _ => elMul t s.fcw x y) 8 s
/-- VFMA (R120). -/
def execVfma (t : ElemTy) (d a b : VCode) (k : MaskReg) (s : State) : Res :=
  vec3 t d a b k true (fun x y z => elFma t s.fcw false z x y) 8 s
/-- VFMS (R120). -/
def execVfms (t : ElemTy) (d a b : VCode) (k : MaskReg) (s : State) : Res :=
  vec3 t d a b k true (fun x y z => elFma t s.fcw true z x y) 8 s
/-- VMIN (R120). -/
def execVmin (t : ElemTy) (d a b : VCode) (k : MaskReg) (s : State) : Res :=
  vec3 t d a b k false (fun x y _ => elMinMax t s.fcw false x y) 8 s
/-- VMAX (R120). -/
def execVmax (t : ElemTy) (d a b : VCode) (k : MaskReg) (s : State) : Res :=
  vec3 t d a b k false (fun x y _ => elMinMax t s.fcw true x y) 8 s
/-- VABS (R120). -/
def execVabs (t : ElemTy) (d a : VCode) (k : MaskReg) (s : State) : Res := vec2 t d a k false (fun x _ => elAbs t x) 8 s
/-- VNEG (R120). -/
def execVneg (t : ElemTy) (d a : VCode) (k : MaskReg) (s : State) : Res := vec2 t d a k false (fun x _ => elNeg t x) 8 s
/-- VDOT4 (R121): 32-bit destination elements. -/
def execVdot4 (t : ElemTy) (d a b : VCode) (k : MaskReg) (s : State) : Res := vec3 .i32 d a b k true (fun x y z => elDot4 t x y z) 8 s
/-- VMULH (R120). -/
def execVmulh (t : ElemTy) (d a b : VCode) (k : MaskReg) (s : State) : Res := vec3 t d a b k false (fun x y _ => elMulh t x y) 8 s
/-- VSADD (R120). -/
def execVsadd (t : ElemTy) (d a : VCode) (b : Reg) (k : MaskReg) (s : State) : Res :=
  vec2 t d a k false (fun x _ => elAdd t s.fcw x (scalarOf t s b)) 8 s
/-- VSSUB (R120). -/
def execVssub (t : ElemTy) (d a : VCode) (b : Reg) (k : MaskReg) (s : State) : Res :=
  vec2 t d a k false (fun x _ => elSub t s.fcw x (scalarOf t s b)) 8 s
/-- VSMUL (R120). -/
def execVsmul (t : ElemTy) (d a : VCode) (b : Reg) (k : MaskReg) (s : State) : Res :=
  vec2 t d a k false (fun x _ => elMul t s.fcw x (scalarOf t s b)) 8 s
/-- VSFMA (R120). -/
def execVsfma (t : ElemTy) (d a : VCode) (b : Reg) (k : MaskReg) (s : State) : Res :=
  vec2 t d a k true (fun x z => elFma t s.fcw false z x (scalarOf t s b)) 8 s
/-- VSMIN (R120). -/
def execVsmin (t : ElemTy) (d a : VCode) (b : Reg) (k : MaskReg) (s : State) : Res :=
  vec2 t d a k false (fun x _ => elMinMax t s.fcw false x (scalarOf t s b)) 8 s
/-- VSMAX (R120). -/
def execVsmax (t : ElemTy) (d a : VCode) (b : Reg) (k : MaskReg) (s : State) : Res :=
  vec2 t d a k false (fun x _ => elMinMax t s.fcw true x (scalarOf t s b)) 8 s
/-- VSSHL (R120): an amount of the width or more gives 0. -/
def execVsshl (t : ElemTy) (d a : VCode) (b : Reg) (k : MaskReg) (s : State) : Res :=
  vec2 t d a k false (fun x _ => plain (x * 2 ^ amount (s.rd b) % 2 ^ t.width)) 8 s

/-! ### VLG (R122) -/

/-- VAND. -/
def execVand (t : ElemTy) (d a b : VCode) (k : MaskReg) (s : State) : Res := vec3 t d a b k false (fun x y _ => plain (x &&& y)) 8 s
/-- VOR. -/
def execVor (t : ElemTy) (d a b : VCode) (k : MaskReg) (s : State) : Res := vec3 t d a b k false (fun x y _ => plain (x ||| y)) 8 s
/-- VXOR. -/
def execVxor (t : ElemTy) (d a b : VCode) (k : MaskReg) (s : State) : Res := vec3 t d a b k false (fun x y _ => plain (x ^^^ y)) 8 s
/-- VNOT. -/
def execVnot (t : ElemTy) (d a : VCode) (k : MaskReg) (s : State) : Res :=
  vec2 t d a k false (fun x _ => plain (2 ^ t.width - 1 - x)) 8 s
/-- VSHL. -/
def execVshl (t : ElemTy) (d a b : VCode) (k : MaskReg) (s : State) : Res :=
  vec3 t d a b k false (fun x y _ => plain (x * 2 ^ (y % t.width) % 2 ^ t.width)) 8 s
/-- VSHR. -/
def execVshr (t : ElemTy) (d a b : VCode) (k : MaskReg) (s : State) : Res :=
  vec3 t d a b k false (fun x y _ => plain (x / 2 ^ (y % t.width))) 8 s
/-- VSRA: filled with copies of the top bit, whatever the type's sign. -/
def execVsra (t : ElemTy) (d a b : VCode) (k : MaskReg) (s : State) : Res :=
  vec3 t d a b k false (fun x y _ => modW t (intOf t.width x / (2 ^ (y % t.width) : Int))) 8 s
/-- VPOPC. -/
def execVpopc (t : ElemTy) (d a : VCode) (k : MaskReg) (s : State) : Res :=
  vec2 t d a k false (fun x _ => plain (popCount (BitVec.ofNat 32 x) 32)) 8 s

/-! ### VCM (R123 to R125) -/

/-- A mask from its bits. -/
def maskOf (f : Nat → Bool) : Mask := BitVec.ofNat 256 (packElems 1 ((List.range 256).map (fun j => (f j).toNat)))
/-- A compare of two elements, under R108 or as signed or unsigned integers. -/
def elCmp (t : ElemTy) (c : Fcw) (o : Cmp) (a b : Nat) : Fl :=
  if t.isF then fpCmp t c o a b
  else
    let x := unpackI t a
    let y := unpackI t b
    plain (match o with
      | .eq => (decide (x = y)).toNat
      | .ne => (decide (x ≠ y)).toNat
      | .lt => (decide (x < y)).toNat
      | .le => (decide (x ≤ y)).toNat)
/-- A vector compare into a mask: byte j takes the result of the last element that covers it, if that element is active (R123). -/
def vcmp (o : Cmp) (t : ElemTy) (d : MaskReg) (a b : VCode) (k : MaskReg) (s : State) : Res :=
  let w := t.width
  let x := s.vget a
  let y := s.vget b
  let m := s.mask k
  let old := s.mask d
  let res := fun i => elCmp t s.fcw o (elem w x i) (elem w y i)
  let fl := (List.range (lanes w)).foldl (fun (f : Flags) i => if active m w i then f ||| (res i).fl else f) 0
  withWindows [a, b] [] none none s fun s' =>
    ((s'.setMask d (maskOf (fun j =>
      let i := (8 * j + 7) / w
      if active m w i then (res i).x == 1 else old.getLsbD j))).raise fl).next 8
/-- VCMPEQ (R123). -/
def execVcmpeq (t : ElemTy) (d : MaskReg) (a b : VCode) (k : MaskReg) (s : State) : Res := vcmp .eq t d a b k s
/-- VCMPNE (R123). -/
def execVcmpne (t : ElemTy) (d : MaskReg) (a b : VCode) (k : MaskReg) (s : State) : Res := vcmp .ne t d a b k s
/-- VCMPLT (R123). -/
def execVcmplt (t : ElemTy) (d : MaskReg) (a b : VCode) (k : MaskReg) (s : State) : Res := vcmp .lt t d a b k s
/-- VCMPLE (R123). -/
def execVcmple (t : ElemTy) (d : MaskReg) (a b : VCode) (k : MaskReg) (s : State) : Res := vcmp .le t d a b k s
/-- VSEL (R124): every element is written; the mask selects. -/
def execVsel (t : ElemTy) (d a b : VCode) (k : MaskReg) (s : State) : Res :=
  let w := t.width
  let x := s.vget a
  let y := s.vget b
  let m := s.mask k
  withWindows [a, b] [d] none none s fun s' =>
    (s'.vwrite d w (lanes w) (BitVec.allOnes 256) (fun i => plain (if active m w i then elem w x i else elem w y i))).next 8
/-- KAND (R125). -/
def execKand (d a b : MaskReg) (s : State) : Res := (s.setMask d (s.mask a &&& s.mask b)).next 8
/-- KOR (R125). -/
def execKor (d a b : MaskReg) (s : State) : Res := (s.setMask d (s.mask a ||| s.mask b)).next 8
/-- KXOR (R125). -/
def execKxor (d a b : MaskReg) (s : State) : Res := (s.setMask d (s.mask a ^^^ s.mask b)).next 8
/-- KNOT (R125). -/
def execKnot (d a : MaskReg) (s : State) : Res := (s.setMask d (~~~ s.mask a)).next 8

/-! ### VMV (R135) -/

/-- VSPLAT. -/
def execVsplat (t : ElemTy) (d : VCode) (a : Reg) (k : MaskReg) (s : State) : Res :=
  withWindows [] [d] none none s fun s' =>
    (s'.vwrite d t.width (lanes t.width) (s.mask k) (fun _ => plain (scalarOf t s a))).next 8
/-- VINS: reads and writes vd. -/
def execVins (t : ElemTy) (d : VCode) (a b : Reg) (s : State) : Res :=
  let w := t.width
  let j := s.rd b
  let old := s.vget d
  withWindows [d] [d] none (trapIf (lanes w ≤ j.toNat) operandInvalid j) s fun s' =>
    (s'.vwrite d w (lanes w) (BitVec.allOnes 256) (fun i => plain (if i = j.toNat then scalarOf t s a else elem w old i))).next 8
/-- VEXT. -/
def execVext (t : ElemTy) (d : Reg) (a : VCode) (b : Reg) (s : State) : Res :=
  let w := t.width
  let j := s.rd b
  let x := elem w (s.vget a) j.toNat
  withWindows [a] [] none (trapIf (lanes w ≤ j.toNat) operandInvalid j) s fun s' =>
    (s'.wr d (if t.isSigned then sextNat w x else word x)).next 8
/-- VIOTA. -/
def execViota (t : ElemTy) (d : VCode) (k : MaskReg) (s : State) : Res :=
  withWindows [] [d] none none s fun s' =>
    (s'.vwrite d t.width (lanes t.width) (s.mask k) (fun i => plain (i % 2 ^ t.width))).next 8
/-- KTOG. -/
def execKtog (t : ElemTy) (d : Reg) (a : MaskReg) (s : State) : Res :=
  (s.wr d (word (packElems 1 ((List.range 64).map (fun i => (active (s.mask a) t.width i).toNat))))).next 8
/-- GTOK: byte j takes the bit of its element, below element 64. -/
def execGtok (t : ElemTy) (d : MaskReg) (a : Reg) (s : State) : Res :=
  (s.setMask d (maskOf (fun j => (s.rd a).getLsbD (8 * j / t.width)))).next 8
/-- KPOP. -/
def execKpop (t : ElemTy) (d : Reg) (a : MaskReg) (s : State) : Res :=
  (s.wr d (word (((List.range (lanes t.width)).filter (active (s.mask a) t.width)).length))).next 8
/-- VMOV. -/
def execVmov (t : ElemTy) (d a : VCode) (k : MaskReg) (s : State) : Res := vec2 t d a k false (fun x _ => plain x) 8 s

end Sys2Proof.Machine
end

