-- ==== Sys2Proof/Machine/VectorX.lean ====
section
/-! DEFINITION. Conversions and codes (VCV, R126 to R129, with R97 to R103), special functions (VSF, R130), permutes and reductions (VPR,
R131 to R134). -/

namespace Sys2Proof.Machine

/-! ### Stochastic rounding of a vector (R94) -/

/-- The generator's words for the element positions of the destination register, and the state with the stepped seed; without SR the seed
stands. -/
def State.srWords (s : State) (steps : Bool) (w : Nat) : List Nat × State :=
  if steps && s.fcw.isSr then
    let r := xsRun (lanes w) s.thr.ctl.seed
    (r.1, s.updCtl (fun c => { c with seed := r.2 }))
  else ([], s)

/-! ### VCVT (R126) -/

/-- VCVT: `t` is the destination type; elements past the wider type's count are kept. -/
def execVcvt (t u : ElemTy) (d a : VCode) (k : MaskReg) (s : State) : Res :=
  let x := s.vget a
  let c := s.fcw
  withWindows [a] [d] none none s fun s' =>
    let r := s'.srWords (convSteps t u) t.width
    (r.2.vwrite d t.width (min (lanes t.width) (lanes u.width)) (s.mask k)
      (fun i => convert t u c ((r.1[i]?).getD 0) (elem u.width x i))).next 8

/-! ### The decode table (R100 to R103, R127, R128) -/

/-- An entry of a decode table. -/
def tableAt (T : List (Nat × Word32)) (i : Nat) : Nat := ((getKey T i).map (·.toNat)).getD 0
/-- The table of the current core as a plain list of 256 entries. -/
def Core.table (c : Core) : List Word32 := (List.range 256).map (fun i => BitVec.ofNat 32 (tableAt c.dtable i))
/-- *operand invalid* while the table is invalid (R100). -/
def State.tableTrap (s : State) : Option TrapOf := trapIf (!s.cur.dtab.getLsbD 0) operandInvalid s.cur.dtab

/-- The binary search of R103 from `lo` over steps of `b`. -/
def encodeSearch (T : List (Nat × Word32)) (x : Num) : Nat → Nat → Nat
  | 0, lo => lo
  | n + 1, lo =>
    let b := 2 ^ n
    encodeSearch T x n (if !numLt x (unpackF .f32 (tableAt T (lo + b))) then lo + b else lo)
/-- The exact difference of two values, infinities as one beyond every finite value: compares x − lo with hi − x. -/
def nearer (x lo hi : Num) : Ordering :=
  match x, lo, hi with
  | .fin _ _ _, .fin _ _ _, .fin _ _ _ =>
    let q := minExp 0 [x, lo, hi]
    compare (2 * scaledInt q x) (scaledInt q lo + scaledInt q hi)
  | .fin _ _ _, .inf _, .fin _ _ _ => .gt
  | .fin _ _ _, .fin _ _ _, .inf _ => .lt
  | .inf n, _, _ => if n then .lt else .gt
  | _, _, _ => .eq
/-- Encodes a value to the code of the nearest entry, ties to the even index (R103). -/
def encodeC8 (T : List (Nat × Word32)) (x : Num) : Fl :=
  if x.isNan then ⟨0, flInvalid⟩
  else
    let lo := encodeSearch T x 8 0
    let vlo := unpackF .f32 (tableAt T lo)
    let c :=
      if lo = 255 ∨ !numLt vlo x then lo
      else
        match nearer x vlo (unpackF .f32 (tableAt T (lo + 1))) with
        | .gt => lo + 1
        | .lt => lo
        | .eq => if lo % 2 = 0 then lo else lo + 1
    ⟨c, flagIf (!numEq (unpackF .f32 (tableAt T c)) x) flInexact⟩

/-- VDEC (R127). -/
def execVdec (d a : VCode) (k : MaskReg) (s : State) : Res :=
  let x := s.vget a
  let T := s.cur.dtable
  withWindows [a] [d] none s.tableTrap s fun s' =>
    (s'.vwrite d 32 64 (s.mask k) (fun i => plain (tableAt T (elem 8 x i)))).next 8
/-- VENC (R127): bytes 64 and up are kept; ftzi applies. -/
def execVenc (_t : ElemTy) (d a : VCode) (k : MaskReg) (s : State) : Res :=
  let x := s.vget a
  let T := s.cur.dtable
  let f := s.fcw.ftzi
  withWindows [a] [d] none s.tableTrap s fun s' =>
    (s'.vwrite d 8 64 (s.mask k) (fun i => encodeC8 T (readF .f32 f (elem 32 x i)))).next 8

/-- The status word of a table (R100). -/
def tableStatus (T : List Nat) : Word :=
  let form := fun i => let x := T.getD i 0; (unpackF .f32 x).isNan || x % 2 ^ 13 != 0
  let order := fun i => decide (i < 255) && numLt (unpackF .f32 (T.getD (i + 1) 0)) (unpackF .f32 (T.getD i 0))
  match (List.range 256).find? (fun i => form i || order i) with
  | none => 1
  | some i => word (i * 256 + ((List.range 256).any form).toNat * 8 + ((List.range 256).any order).toNat * 4)
/-- The entries of a table that differ from 0. -/
def tableCells (l : List Nat) : List (Nat × Word32) :=
  (List.range 256).filterMap (fun i => let x := l.getD i 0; if x = 0 then none else some (i, BitVec.ofNat 32 x))
/-- VDTLD (R128): the table takes effect when the interval ends (R101). -/
def execVdtld (a : Reg) (s : State) : Res :=
  let g := s.rd a
  let p := bits g 17 0
  guardTrap s (firstTrap [trapIf (g.toNat % 4 ≠ 0) misalignment g, trapIf (bits g 63 18 ≠ 0) operandInvalid g, s.lmTrap false p 1024,
    s.lmDamage p 1024]) fun _ =>
  let l := (List.range 256).map (fun i => s.cur.lmRead (p + 4 * i) 4)
  (s.updCur (fun c => { c with dtNext := c.dtNext ++ [(c.cyc.toNat + 16, tableCells l, tableStatus l)] })).next 16

/-! ### Scaled blocks (R97, R99, R129) -/

/-- The exponent that a block scale stands for: i8 elements mean i8 · 2^(s − 133) (R97). -/
def scaleExp (t : ElemTy) (sc : Nat) : Int := (sc : Int) - (if t.isF || isFloat t then 127 else 133)
/-- Quantises one value (R99): a quotient beyond the largest finite magnitude, for i8 beyond 127 or below -128, becomes that bound and raises
*saturated*, also where it rounds back to the bound.  DESIGN CHOICE (log 55): a quotient whose rounded value R91 clamps to i8 raises *invalid* besides, as every
conversion to an integer type does. -/
def quantise (t : ElemTy) (rm : Rm) (ftzo : Bool) (sc : Nat) (v : Num) : Fl :=
  let nan : Fl := ⟨if isFloat t then canonNan t else 0, flInvalid⟩
  if sc = 255 then nan
  else
    match v with
    | .nan _ => nan
    | .inf n =>
      if isFloat t then ⟨signBit t n + maxFinite t, flSaturated⟩ else roundI t rm v
    | .fin n m e =>
      let e := e - scaleExp t sc
      if isFloat t then
        let big := match unpackF t (maxFinite t) with | .fin _ m e => (m, e) | _ => (0, 0)
        (roundF t rm ftzo (.conv true) n m e).also (flagIf (scaledLt big.1 big.2 m e) flSaturated)
      else (roundI t rm (.fin n m e)).also (flagIf (scaledLt (if n then 128 else 127) 0 m e) flSaturated)
/-- Dequantises one element to a type (R99).  DESIGN CHOICE (log 55): R88's table has no row for VDQNT; ftzi applies to the element, and ftzo and `sat`
to the result. -/
def dequantise (dst t : ElemTy) (rm : Rm) (f : Fcw) (sc x : Nat) : Fl :=
  if sc = 255 then ⟨canonNan dst, flInvalid⟩
  else
    let v := if isFloat t then readF t f.ftzi x else let i := unpackI t x; .fin (i < 0) i.natAbs 0
    match v with
    | .fin n m e => roundF dst rm f.ftzo (.conv f.sat) n m (e + scaleExp t sc)
    | .nan _ | .inf _ => convF dst rm f v
/-- VQNT (R129): 64 elements; the rest of the destination is kept. -/
def execVqnt (t : ElemTy) (d a b : VCode) (k : MaskReg) (s : State) : Res :=
  let x := s.vget a
  let y := s.vget b
  let c := s.fcw
  withWindows [a, b] [d] none none s fun s' =>
    let r := s'.srWords true t.width
    (r.2.vwrite d t.width 64 (s.mask k) (fun i =>
      quantise t (c.crm ((r.1[i]?).getD 0)) c.ftzo (elem 8 y (i / 32)) (readF .f32 c.ftzi (elem 32 x i)))).next 8
/-- VDQNT (R129).  DESIGN CHOICE (log 55): ftzi, ftzo and `sat`, which R88 does not list for it, apply as `dequantise` says. -/
def execVdqnt (t : ElemTy) (d a b : VCode) (k : MaskReg) (s : State) : Res :=
  let x := s.vget a
  let y := s.vget b
  let c := s.fcw
  withWindows [a, b] [d] none none s fun s' =>
    let r := s'.srWords true 32
    (r.2.vwrite d 32 64 (s.mask k) (fun i =>
      dequantise .f32 t (c.crm ((r.1[i]?).getD 0)) c (elem 8 y (i / 32)) (elem t.width x i))).next 8

/-! ### VSF (R130) -/

/-- VEXP2. -/
def execVexp2 (d a : VCode) (k : MaskReg) (s : State) : Res := vec2 .f32 d a k false (fun x _ => fExp2 x) 16 s
/-- VLOG2. -/
def execVlog2 (d a : VCode) (k : MaskReg) (s : State) : Res := vec2 .f32 d a k false (fun x _ => fLog2 x) 16 s
/-- VRCP. -/
def execVrcp (d a : VCode) (k : MaskReg) (s : State) : Res := vec2 .f32 d a k false (fun x _ => fRcp x) 16 s
/-- VRSQ. -/
def execVrsq (d a : VCode) (k : MaskReg) (s : State) : Res := vec2 .f32 d a k false (fun x _ => fRsq x) 16 s
/-- VTANH. -/
def execVtanh (d a : VCode) (k : MaskReg) (s : State) : Res := vec2 .f32 d a k false (fun x _ => fTanh x) 16 s
/-- VSIGM. -/
def execVsigm (d a : VCode) (k : MaskReg) (s : State) : Res := vec2 .f32 d a k false (fun x _ => fSigm x) 16 s

/-! ### VPR (R131 to R134) -/

/-- VPERM (R131). -/
def execVperm (t : ElemTy) (d a b : VCode) (k : MaskReg) (s : State) : Res :=
  let w := t.width
  let x := s.vget a
  vec3 t d a b k false (fun _ y _ => plain (elem w x (y % lanes w))) 12 s
/-- VSLIDE (R131): positions outside the register read 0. -/
def execVslide (t : ElemTy) (d a : VCode) (b : Reg) (k : MaskReg) (s : State) : Res :=
  let w := t.width
  let x := s.vget a
  let n := (s.rd b).toInt
  withWindows [a] [d] none none s fun s' =>
    (s'.vwrite d w (lanes w) (s.mask k) (fun i =>
      let j : Int := i + n
      plain (if 0 ≤ j ∧ j < lanes w then elem w x j.toNat else 0))).next 12
/-- VBCAST (R131). -/
def execVbcast (t : ElemTy) (d a : VCode) (b : Reg) (k : MaskReg) (s : State) : Res :=
  let w := t.width
  let x := s.vget a
  let j := s.rd b
  withWindows [a] [d] none (trapIf (lanes w ≤ j.toNat) operandInvalid j) s fun s' =>
    (s'.vwrite d w (lanes w) (s.mask k) (fun _ => plain (elem w x j.toNat))).next 12

/-- A node over values that may be absent; the flags of its inputs travel with its result (R132, R133). -/
def node (f : Nat → Nat → Fl) (a b : Option Fl) : Option Fl :=
  match a, b with
  | some x, some y => some ((f x.x y.x).also (x.fl ||| y.fl))
  | some x, none => some x
  | none, y => y
/-- One level of the pairwise tree. -/
def treeLevel (f : Nat → Nat → Fl) : List (Option Fl) → List (Option Fl)
  | a :: b :: l => node f a b :: treeLevel f l
  | l => l
/-- The pairwise tree over at most 2^n inputs (R132). -/
def tree (f : Nat → Nat → Fl) : Nat → List (Option Fl) → Option Fl
  | 0, l => l.headD none
  | n + 1, l => tree f n (treeLevel f l)
/-- The inputs of a reduction: absent where inactive. -/
def activeElems (w : Nat) (k : Mask) (x : VReg) (f : Nat → Fl) : List (Option Fl) :=
  (List.range (lanes w)).map (fun i => if active k w i then some (f (elem w x i)) else none)
/-- An active element as a reduction or a scan reads it, also where it meets no node: flushed under ftzi (R88), and *invalid* for a signalling NaN (R84).
DESIGN CHOICE (log 55): R132 takes the flags from the nodes alone. -/
def readElem (t : ElemTy) (c : Fcw) (y : Nat) : Fl := if t.isF then ⟨flushIn t c.ftzi y, snanFlag [unpackF t y]⟩ else plain y
/-- A NaN is written in its canonical form (R84). -/
def canonical (t : ElemTy) (r : Fl) : Fl := if isFloat t && (unpackF t r.x).isNan then { r with x := canonNan t } else r
/-- Replaces the low bits of a register. -/
def setLow (old : VReg) (n x : Nat) : VReg := BitVec.ofNat 2048 (old.toNat / 2 ^ n * 2 ^ n + x % 2 ^ n)
/-- Writes a reduction's result to the low bits of vd and raises its flags. -/
def reduceTo (d : VCode) (n : Nat) (r : Fl) (s : State) : Res := ((s.vput d (setLow (s.vget d) n r.x)).raise r.fl).next 12

/-- VREDSUM (R132): float elements are widened to f32 and summed there; integers modulo 2^64.  An element that meets no node is read
as any other (log 55). -/
def execVredsum (t : ElemTy) (d a : VCode) (k : MaskReg) (s : State) : Res :=
  let x := s.vget a
  let c := s.fcw
  let m := s.mask k
  withWindows [a] [d] none none s fun s' =>
    if t.isF then
      let widen := fun y => if t = .f32 then readElem t c y else convert .f32 t { c with ftzo := false, crnd := 0 } 0 y
      reduceTo d 32 (canonical .f32 ((tree (fpAdd .f32 c) 8 (activeElems t.width m x widen)).getD ⟨0, 0⟩)) s'
    else
      let wide := fun y => plain (natOfInt 64 (unpackI t y))
      reduceTo d 64 ((tree (fun p q => plain ((p + q) % 2 ^ 64)) 8 (activeElems t.width m x wide)).getD ⟨0, 0⟩) s'
/-- VREDMAX and VREDMIN (R132). -/
def vredm (max : Bool) (t : ElemTy) (d a : VCode) (k : MaskReg) (s : State) : Res :=
  let x := s.vget a
  let c := s.fcw
  let m := s.mask k
  let empty : Nat := if t.isF then canonNan t else natOfInt t.width (if max then intLo t else intHi t)
  withWindows [a] [d] none none s fun s' =>
    reduceTo d t.width (canonical t ((tree (elMinMax t c max) 8 (activeElems t.width m x (readElem t c))).getD ⟨empty, 0⟩)) s'
/-- VREDMAX (R132). -/
def execVredmax (t : ElemTy) (d a : VCode) (k : MaskReg) (s : State) : Res := vredm true t d a k s
/-- VREDMIN (R132). -/
def execVredmin (t : ElemTy) (d a : VCode) (k : MaskReg) (s : State) : Res := vredm false t d a k s

/-- The steps of a prefix sum at distances `s`, 2 s, … (R133). -/
def scanSteps (f : Nat → Nat → Fl) : Nat → Nat → List (Option Fl) → List (Option Fl)
  | 0, _, l => l
  | n + 1, s, l => scanSteps f n (2 * s) (l.take s ++ List.zipWith (node f) l (l.drop s))
/-- VSCAN (R133). -/
def execVscan (t : ElemTy) (d a : VCode) (k : MaskReg) (s : State) : Res :=
  let w := t.width
  let x := s.vget a
  let c := s.fcw
  let m := s.mask k
  let l := scanSteps (elAdd t c) (lanes w).log2 1 (activeElems w m x (readElem t c))
  withWindows [a] [d] none none s fun s' =>
    (s'.vwrite d w (lanes w) m (fun i => canonical t (((l[i]?).join).getD ⟨0, 0⟩))).next 12

/-- The absolute maximum of the active elements of a block as f32 (R134). -/
def blockAmax (t : ElemTy) (l : List Nat) : Fl :=
  l.foldl (fun (r : Fl) y =>
    let v := unpackF t y
    if v.isNan then ⟨canonNan .f32, r.fl ||| flagIf v.isSnan flInvalid⟩
    else if (unpackF .f32 r.x).isNan then r
    else
      let p := fpAbs .f32 (convert .f32 t .plain 0 y).x
      { r with x := if numLt (unpackF .f32 r.x) (unpackF .f32 p.x) then p.x else r.x }) ⟨0, 0⟩
/-- VAMAXB (R134). -/
def execVamaxb (t : ElemTy) (d a : VCode) (k : MaskReg) (s : State) : Res :=
  let w := t.width
  let x := s.vget a
  let m := s.mask k
  let block := fun b => blockAmax t (((List.range 32).filter (fun i => active m w (32 * b + i))).map (fun i => elem w x (32 * b + i)))
  withWindows [a] [d] none none s fun s' =>
    (s'.vwrite d 32 64 (BitVec.allOnes 256) (fun b => if b < lanes w / 32 then block b else ⟨0, 0⟩)).next 12

end Sys2Proof.Machine
end

