-- ==== Sys2Proof/Machine/Matrix.lean ====
section
/-! DEFINITION. The matrix engine and the accumulator store: the banks (R291, R292), commands and their hand-over (R293 to R297, R299, R302),
accumulation (R298), the run of a command with its faults (R300, R301, R303, R304), MWAIT and MSTAT (R305, R306), the ACC group (R307, R308). -/

namespace Sys2Proof.Machine

/-! ### The accumulator store (R291) -/

/-- A word of a bank. -/
def Core.bankWord (c : Core) (b i : Nat) : Nat := ((getKey c.banks (b * 1024 + i)).map (·.toNat)).getD 0
/-- Replaces some consecutive words of a bank, from word `lo`. -/
def Core.putBank (c : Core) (b lo : Nat) (l : List Nat) : Core :=
  let a := b * 1024 + lo
  let new := (List.range l.length).filterMap (fun i => let x := (l[i]?).getD 0 % 2 ^ 32; if x = 0 then none else some (a + i, BitVec.ofNat 32 x))
  { c with banks := c.banks.filter (fun e => decide (e.1 < a)) ++ new ++ c.banks.filter (fun e => decide (a + l.length ≤ e.1)) }

/-! ### Types and shapes (R294, R295) -/

/-- An input type as an element type. -/
def mtxTy (t : MtxTy) : ElemTy :=
  match t with
  | .bf16 => .bf16
  | .f16 => .f16
  | .e4m3 => .e4m3
  | .e5m2 => .e5m2
  | .e2m1 => .e2m1
  | .i8 => .i8
  | .c8 => .c8
  | .i4 => .i4
/-- The inner length K. -/
def kLen (k : KLen) : Nat :=
  match k with
  | .k32 => 32
  | .k64 => 64
  | .k128 => 128
  | .k256 => 256
/-- A type that block scales may apply to. -/
def scalable (t : MtxTy) : Bool :=
  match t with
  | .e4m3 | .e5m2 | .e2m1 | .i8 => true
  | .bf16 | .f16 | .c8 | .i4 => false
/-- Row stride of A. -/
def shapeSa (sh : Word) : Nat := bits sh 23 0
/-- Row stride of B. -/
def shapeSb (sh : Word) : Nat := bits sh 47 24
/-- A shape word that breaks R295. -/
def shapeBad (t : MtxTy) (sh : Word) : Bool :=
  bits sh 63 49 != 0 || shapeSa sh % 16 != 0 || shapeSb sh % 16 != 0 || (sh.getLsbD 48 && !scalable t)
/-- k-blocks of one product. -/
def MatCmd.nb (m : MatCmd) : Nat := kLen m.kl / 32
/-- Element width. -/
def MatCmd.w (m : MatCmd) : Nat := (mtxTy m.ty).width
/-- Block scales apply. -/
def MatCmd.scaled (m : MatCmd) : Bool := m.shape.getLsbD 48

/-! ### Engine reads (R227) -/

/-- Reads bytes at their serving slices as an engine does; where it stops it says at which VA and why. -/
def State.engRead : Nat → State → Nat → Nat → Nat → Nat → State × Option (Nat × Ans) × List Byte
  | 0, s, _, _, _, _ => (s, none, [])
  | fuel + 1, s, d, tn, va, n =>
    if n = 0 then (s, none, [])
    else if 2 ^ 56 ≤ va then (s, some (va, .trap accessFault (word va)), [])
    else
      let k := min n (64 - va % 64)
      match s.sliceRead d tn va k true with
      | (s, .ok, x) =>
        let r := State.engRead fuel s d tn (va + k) (n - k)
        (r.1, r.2.1, bytesOfNat k x ++ r.2.2)
      | (s, a, _) => (s, some (va, a), [])
/-- Reads `n` bytes. -/
def State.engBytes (s : State) (d tn va n : Nat) : State × Option (Nat × Ans) × List Byte := State.engRead (n / 64 + 2) s d tn va n

/-- A stop of a command: the operand (0 A, 1 B, 2 scales, 3 none), the address and the answer. -/
structure MatHalt where
  (opnd addr : Nat)
  ans : Ans
deriving DecidableEq, Repr

/-- Reads some ranges in order, each given as address, bytes and operand: from LM for MMAL, and at the slices otherwise. -/
def readOperands (core : Nat) (m : MatCmd) : List (Nat × Nat × Nat) → State → State × Option MatHalt × List (List Byte)
  | [], s => (s, none, [])
  | (a, n, o) :: l, s =>
    if m.form = 1 then
      match (s.coreAt core).lmBad a n with
      | some b => (s, some ⟨o, b, .trap dataError (word b)⟩, [])
      | none =>
        let r := readOperands core m l s
        (r.1, r.2.1, (s.coreAt core).lmBytes a n :: r.2.2)
    else
      match s.engBytes (dieOf core) m.tn a n with
      | (s, none, x) =>
        let r := readOperands core m l s
        (r.1, r.2.1, x :: r.2.2)
      | (s, some (va, ans), _) => (s, some ⟨o, va, ans⟩, [])

/-! ### Accumulation (R298) -/

/-- An input element as a value. -/
def MatCmd.num (m : MatCmd) (x : Nat) : Num :=
  let f := Fcw.ofWord m.fcw
  match m.ty with
  | .c8 => readF .f32 f.ftzi (((m.table[x]?).map (·.toNat)).getD 0)
  | .i8 | .i4 => let v := unpackI (mtxTy m.ty) x; .fin (v < 0) v.natAbs 0
  | .bf16 | .f16 | .e4m3 | .e5m2 | .e2m1 => readF (mtxTy m.ty) f.ftzi x
/-- A value times a power of two. -/
def Num.scale (k : Int) : Num → Num
  | .fin n m e => .fin n m (e + k)
  | x => x
/-- The float path: the accumulator with 32 products scaled by 2^k, rounded once; `bad` marks a scale of 0xFF. -/
def floatCell (f : Fcw) (bad : Bool) (k : Int) (c : Nat) (xs ys : List Num) : Fl :=
  let cn := readF .f32 f.ftzi c
  let ps := List.zipWith (fun x y => (x, y)) xs ys
  let prods := ps.map (fun p => Num.scale k (numMul p.1 p.2))
  let mixed := (cn :: prods).any (· == .inf false) && (cn :: prods).any (· == .inf true)
  let invalid := bad || cn.isSnan || ps.any (fun p => p.1.isNan || p.2.isNan || zeroTimesInf p.1 p.2) || mixed
  if invalid then ⟨canonNan .f32, flInvalid⟩
  else if cn.isNan then ⟨canonNan .f32, 0⟩
  else sumF .f32 f.arm f.ftzo (cn :: prods)
/-- The integer path: the exact sum, clamped with *saturated*. -/
def intCell (t : ElemTy) (c : Nat) (xs ys : List Nat) : Fl :=
  let e := (List.zipWith (fun x y => unpackI t x * unpackI t y) xs ys).foldl (· + ·) (intOf 32 c)
  let r := clampInt .i32 e 0
  { r with fl := r.fl &&& flSaturated }
/-- The elements of a row's bytes in one k-block (R19). -/
def rowElems (w : Nat) (l : List Byte) : List Nat := (List.range 32).map (fun t => natOfBytes l / 2 ^ (w * t) % 2 ^ w)
/-- The operands of a k-block: 32 rows of A and of B as bytes, and the scales. -/
structure KBlock where
  (a b : List (List Byte))
  (sa sb : List Nat)
deriving DecidableEq, Repr
/-- The sum of a k-block into a bank: 1,024 words and the flags. -/
def MatCmd.accumulate (m : MatCmd) (c : Core) (k : KBlock) : List Nat × Flags :=
  let A := k.a.map (rowElems m.w)
  let B := k.b.map (rowElems m.w)
  let f := Fcw.ofWord m.fcw
  let bias : Int := if m.ty = .i8 then 266 else 254
  let cell := fun (i j : Nat) =>
    let x := (A[i]?).getD []
    let y := B.map (fun r => (r[j]?).getD 0)
    let acc := c.bankWord m.bank (32 * i + j)
    if (m.ty = .i8 || m.ty = .i4) && !m.scaled then intCell (mtxTy m.ty) acc x y
    else
      let s1 := (k.sa[i]?).getD 0
      let s2 := (k.sb[j]?).getD 0
      floatCell f (m.scaled && (s1 == 255 || s2 == 255)) (if m.scaled then (s1 : Int) + s2 - bias else 0) acc (x.map m.num) (y.map m.num)
  let l := (List.range 1024).map (fun n => cell (n / 32) (n % 32))
  (l.map (·.x), l.foldl (fun (a : Flags) r => a ||| r.fl) 0)

/-! ### Rectangles of MMR (R302, R303) -/

/-- The rectangle of the command's launch. -/
def State.matRect (s : State) (l : Option Nat) : Nat := ((l.bind s.launchAt).map (fun y => y.pkt.rect)).getD 0
/-- The side P. -/
def rectSide (r : Nat) : Nat := r / 2 ^ 16 % 256 + 1 - r % 256
/-- The row and column of a core in the rectangle. -/
def rectPos (r core : Nat) : Nat × Nat := (yOf core - r / 2 ^ 8 % 256, xOf core - r % 256)
/-- The core at a row and column of the rectangle on a die. -/
def rectCore (r die row col : Nat) : Nat := die * 1152 + (r / 2 ^ 8 % 256 + row) * 32 + (r % 256 + col)
/-- MMRs of the command's launch that have ended on a core. -/
def Core.mmrOrdinal (c : Core) (l : Nat) : Nat := (getKey c.mmrEnded l).getD 0
/-- A transfer to a core whose MMR has ended, or whose launch is over, is of no use. -/
def State.mmrStale (s : State) (i : MmrItem) : Bool :=
  !(s.hub.launches.any (fun y => y.lnum == i.lnum && !y.ended)) || i.n < (s.coreAt i.dst).mmrOrdinal i.lnum
/-- The transfers of a buffer that still count. -/
def State.mmrLive (s : State) (l : List MmrItem) : List MmrItem := l.filter (fun i => !s.mmrStale i)
/-- Puts a transfer of a core's MMR on its way east and one on its way south. -/
def State.mmrSend (s : State) (core : Nat) (m : MatCmd) (east south : MmrKind) : State :=
  let l := m.lnum.getD 0
  let r := s.matRect m.lnum
  let p := rectSide r
  let rc := rectPos r core
  let n := (s.coreAt core).mmrOrdinal l
  let e : MmrItem := ⟨l, n, rectCore r (dieOf core) rc.1 ((rc.2 + 1) % p), east⟩
  let q : MmrItem := ⟨l, n, rectCore r (dieOf core) ((rc.1 + 1) % p) rc.2, south⟩
  s.updCore core (fun c => { c with mmrEast := c.mmrEast ++ [e], mmrSouth := c.mmrSouth ++ [q] })
/-- k-blocks of the whole command. -/
def State.matTotal (s : State) (m : MatCmd) : Nat := if m.form = 2 then m.nb * rectSide (s.matRect m.lnum) else m.nb

/-! ### Hand-over (R293, R299, R302) -/

/-- The LM ranges that an MMAL reads (R295, R297). -/
def mmalRanges (t : MtxTy) (k : KLen) (sh a b sclp : Word) : List (Nat × Nat) :=
  let w := (mtxTy t).width
  (List.range 32).map (fun i => (a.toNat + i * shapeSa sh, kLen k * w / 8)) ++
  (List.range (kLen k)).map (fun i => (b.toNat + i * shapeSb sh, 4 * w)) ++
  (if sh.getLsbD 48 then [(sclp.toNat, 2 * kLen k)] else [])
/-- The lowest failing address of some LM ranges. -/
def State.lmRangesTrap (s : State) (l : List (Nat × Nat)) : Option TrapOf :=
  (argMin id (l.filterMap (fun e => s.cur.lmCheck s.tid false e.1 e.2))).map (fun b => (lmProtection, word b))
/-- The launch's rectangle does not permit MMR (R302). -/
def State.mmrBad (s : State) (sh : Word) : Bool :=
  let r := s.matRect s.curLaunch
  match s.curLaunch.bind s.launchAt with
  | none => true
  | some l => !l.pkt.flags.testBit 3 || sh.getLsbD 48 || rectSide r != r / 2 ^ 24 % 256 + 1 - r / 2 ^ 8 % 256
/-- The checks of R299, and those of R302 for MMR; form 0 MMA, 1 MMAL, 2 MMR. -/
def mmTrap (form : Nat) (t : MtxTy) (k : KLen) (sh a b : Word) (s : State) : Option TrapOf :=
  let c := s.thr.ctl
  let high := fun (x : Word) => trapIf (bits x 63 56 ≠ 0) accessFault x
  firstTrap [trapIf (a.toNat % 16 ≠ 0) misalignment a, trapIf (b.toNat % 16 ≠ 0) misalignment b, trapIf (shapeBad t sh) operandInvalid sh,
    trapIf (kLen k / 32 ≤ bits c.mrp 2 0) operandInvalid c.mrp, if t = .c8 then s.tableTrap else none,
    if form = 1 then s.lmRangesTrap (mmalRanges t k sh a b c.sclp)
    else firstTrap [high a, high b, if sh.getLsbD 48 then high c.sclp else none],
    trapIf (form = 2 && s.mmrBad sh) operandInvalid (word (s.matRect s.curLaunch))]
/-- The issue of a matrix command, and the wait for its end. -/
def matrixIssue (form : Nat) (t : MtxTy) (k : KLen) (n : BitVec 2) (d a b : Reg) (s : State) : Res :=
  if s.thr.progress.begun then s.park (.matrix 0)
  else
    let sh := s.rd d
    guardTrap s (mmTrap form t k sh (s.rd a) (s.rd b) s) fun _ =>
    if 2 ≤ s.cur.mq.length then s.park .engineQueue
    else
      let c := s.thr.ctl
      let m : MatCmd :=
        { tid := s.tid, form := form, tn := s.tn, lnum := s.curLaunch, ty := t, kl := k, bank := n.toNat, a := s.rd a, b := s.rd b, shape := sh,
          sclp := c.sclp, fcw := c.fcw, table := if t = .c8 then s.cur.table else [], next := if form = 2 then 0 else bits c.mrp 2 0,
          flags := 0, stop := .running, ablk := [], bblk := [], kept := [] }
      let s := s.updCur (fun c => { c with mq := c.mq ++ [m] })
      (s.updProgress (fun p => { p with begun := true })).park (.matrix 0)
/-- MMA (R299). -/
def execMma (t : MtxTy) (kl : KLen) (n : BitVec 2) (d a b : Reg) (s : State) : Res := matrixIssue 0 t kl n d a b s
/-- MMAL (R299). -/
def execMmal (t : MtxTy) (kl : KLen) (n : BitVec 2) (d a b : Reg) (s : State) : Res := matrixIssue 1 t kl n d a b s
/-- MMR (R302). -/
def execMmr (t : MtxTy) (kl : KLen) (n : BitVec 2) (d a b : Reg) (s : State) : Res := matrixIssue 2 t kl n d a b s

/-! ### The engine (R300, R301, R303, R304) -/

/-- What the engine can do next for its head command. -/
inductive MatStep where
  | add (m : MatCmd) (words : List Nat) (fl : Flags)
  | halt (h : MatHalt)
  /-- A neighbour's block differs in type, K or P (R304). -/
  | mismatch
  /-- It waits: for a release, a wake, or a neighbour's block. -/
  | wait
deriving DecidableEq, Repr

/-- The operand ranges of k-block `b` of MMA and MMAL (R296, R297). -/
def MatCmd.ranges (m : MatCmd) (b : Nat) : List (Nat × Nat × Nat) :=
  let n := 4 * m.w
  let s := m.sclp.toNat
  (List.range 32).map (fun i => (m.a.toNat + i * shapeSa m.shape + b * n, n, 0)) ++
  (List.range 32).map (fun t => (m.b.toNat + (32 * b + t) * shapeSb m.shape, n, 1)) ++
  (if m.scaled then (List.range 32).map (fun i => (s + m.nb * i + b, 1, 2)) ++
    (List.range 32).map (fun j => (s + 32 * m.nb + m.nb * j + b, 1, 2)) else [])
/-- A k-block from what its ranges read. -/
def kblockOf (l : List (List Byte)) : KBlock :=
  let scales := (l.drop 64).map natOfBytes
  ⟨l.take 32, (l.drop 32).take 32, scales.take 32, scales.drop 32⟩
/-- The ranges of the initial blocks of an MMR on a core (R302, R303). -/
def MatCmd.blockRanges (m : MatCmd) (r core : Nat) : List (Nat × Nat × Nat) :=
  let p := rectSide r
  let rc := rectPos r core
  let k := (p - (rc.1 + rc.2) % p) % p
  let K := kLen m.kl
  (List.range 32).map (fun i => (m.a.toNat + (32 * rc.1 + i) * shapeSa m.shape + k * K * m.w / 8, K * m.w / 8, 0)) ++
  (List.range K).map (fun t => (m.b.toNat + (k * K + t) * shapeSb m.shape + 32 * rc.2 * m.w / 8, 4 * m.w, 1))
/-- The k-block `b` of the blocks that an MMR holds. -/
def MatCmd.heldBlock (m : MatCmd) (b : Nat) : KBlock :=
  let n := 4 * m.w
  let row := kLen m.kl * m.w / 8
  ⟨(List.range 32).map (fun i => (m.ablk.drop (i * row + b * n)).take n),
   (List.range 32).map (fun t => (m.bblk.drop ((32 * b + t) * n)).take n), [], []⟩
/-- A neighbour's block for the command: none if it differs. -/
def MatCmd.accepts (m : MatCmd) (p : Nat) (k : MmrKind) : Option (List Byte) :=
  match k with
  | .block t l q x => if t = m.ty ∧ l = m.kl ∧ q = p then some x else none
  | .token _ => none
/-- A buffer without its first live transfer. -/
def State.mmrPop (s : State) (l : List MmrItem) : List MmrItem := (s.mmrLive l).drop 1
/-- The next k-block of a core's head command: the state after its reads, and what came of it.  Damage in the engine's buffers ends the command; a bank
then holds the completed steps of an MMR (R304). -/
def State.matNext (s : State) (core : Nat) (m : MatCmd) : State × MatStep :=
  let go := fun (s : State) (m : MatCmd) (k : KBlock) => let r := m.accumulate (s.coreAt core) k; (s, MatStep.add m r.1 r.2)
  let waits := match m.stop with
    | .running | .held _ .other => false
    | .faulted _ _ | .held _ .migrate => true
  if waits || s.matTotal m ≤ m.next then (s, .wait)
  else if (s.coreAt core).badMatrix then
    (s.updCore core (fun c => let c := { c with badMatrix := false }; if m.kept.isEmpty then c else c.putBank m.bank 0 m.kept),
     .halt ⟨3, 0, .trap dataError 0⟩)
  else if m.form ≠ 2 then
    match readOperands core m (m.ranges m.next) s with
    | (s, some h, _) => (s, .halt h)
    | (s, none, l) => go s m (kblockOf l)
  else if !m.ablk.isEmpty then go s m (m.heldBlock (m.next % m.nb))
  else if m.next = 0 then
    match readOperands core m (m.blockRanges (s.matRect m.lnum) core) s with
    | (s, some h, _) => (s, .halt h)
    | (s, none, l) =>
      let m := { m with ablk := (l.take 32).flatten, bblk := (l.drop 32).flatten }
      go s m (m.heldBlock 0)
  else
    let c := s.coreAt core
    let p := rectSide (s.matRect m.lnum)
    let mine := fun (i : MmrItem) => some i.lnum == m.lnum && i.n == c.mmrOrdinal i.lnum
    let next := fun (l : List MmrItem) => ((s.mmrLive l).head?.filter mine).map MmrItem.kind
    let block := fun (k : Option MmrKind) => k.bind (m.accepts p)
    let differs := fun (k : Option MmrKind) => match k with
      | some (.block t l q x) => (m.accepts p (.block t l q x)).isNone
      | some (.token _) | none => false
    if differs (next c.mmrWest) || differs (next c.mmrNorth) then (s, .mismatch)
    else if (c.mmrEast ++ c.mmrSouth).any mine then (s, .wait)
    else
      match block (next c.mmrWest), block (next c.mmrNorth) with
      | some a, some b =>
        let s := s.updCore core (fun c => { c with mmrWest := s.mmrPop c.mmrWest, mmrNorth := s.mmrPop c.mmrNorth })
        let m := { m with ablk := a, bblk := b }
        go s m (m.heldBlock 0)
      | _, _ => (s, .wait)
/-- The head command of a core replaced. -/
def Core.setHead (c : Core) (m : MatCmd) : Core := { c with mq := m :: c.mq.drop 1 }
/-- MATRIX_KBLOCK (R298, R300, R303): the next k-block of the head command is added whole; after the last k-block of a step, an MMR sends its
blocks on. -/
def execMatrixKblock (core : Nat) (s : State) : Res :=
  match (s.coreAt core).mq with
  | [] => .next s
  | m :: _ =>
    match s.matNext core m with
    | (s', .add m w fl) =>
      let s' := s'.updCore core (fun c => c.putBank m.bank 0 w)
      let n := m.next + 1
      let m' := { m with next := n, flags := m.flags ||| fl.setWidth 64, stop := .running }
      if m.form = 2 then
        if n % m.nb = 0 then
          let s' := s'.updCore core (·.setHead { m' with ablk := [], bblk := [], kept := [] })
          let p := rectSide (s'.matRect m.lnum)
          .next (if n < s'.matTotal m then s'.mmrSend core m (.block m.ty m.kl p m.ablk) (.block m.ty m.kl p m.bblk) else s')
        else
          .next (s'.updCore core (·.setHead { m' with
            kept := if m.kept.isEmpty then (List.range 1024).map ((s.coreAt core).bankWord m.bank) else m.kept }))
      else
        .next ((s'.updCore core (·.setHead m')).updThrAt core m.tid (fun t => { t with ctl := { t.ctl with mrp := word (n % 8) } }))
    | _ => .next s
/-- The head command ends: `mstat`, flags, how its instruction ends, and the waiters for the queue and its bank. -/
def State.endMatrix (s : State) (core : Nat) (m : MatCmd) (mstat : Word) : State :=
  let s := s.updCore core (fun c => { c with
    mq := c.mq.drop 1, mmrEnded := if m.form = 2 then setKey c.mmrEnded (m.lnum.getD 0) (c.mmrOrdinal (m.lnum.getD 0) + 1) else c.mmrEnded })
  let s := s.updThrAt core m.tid (fun t => ({ t with
    ctl := { t.ctl with mstat := mstat, fflags := t.ctl.fflags ||| m.flags, mrp := if mstat = 0 && m.form ≠ 2 then 0 else t.ctl.mrp },
    progress := { t.progress with ending := some (if mstat = 0 then .done else .trap engineFault mstat) } } : Thread).wakeUp)
  s.updCore core (·.wakeEngines)
/-- MATRIX_COMPLETE (R300, R303). -/
def execMatrixComplete (core : Nat) (s : State) : Res :=
  match (s.coreAt core).mq with
  | [] => .next s
  | m :: _ => if s.matTotal m ≤ m.next then .next (s.endMatrix core m 0) else .next s
/-- An `mstat` value (R301). -/
def mstatOf (opnd kind addr : Nat) : Word := word (opnd * 2 ^ 60 + kind * 2 ^ 56 + addr % 2 ^ 56)
/-- A command ends in *engine fault*; an MMR sends abort tokens for the failed core in place of its blocks (R304). -/
def State.failMatrix (s : State) (core : Nat) (m : MatCmd) (opnd kind addr failed : Nat) : State :=
  let s := if m.form = 2 then s.mmrSend core m (.token failed) (.token failed) else s
  s.endMatrix core m (mstatOf opnd kind addr)
/-- The kind of `mstat` for a cause. -/
def mstatKind (cause : Nat) : Nat := if cause = remoteUnavailable then 2 else if cause = dataError then 3 else 1
/-- MATRIX_FAULT_STOP (R301): the head command meets a fault before its next k-block: a page fault stops it with a record, a migrating leaf
holds it, and any other cause, or a mismatched block, ends it. -/
def execMatrixFaultStop (core : Nat) (s : State) : Res :=
  match (s.coreAt core).mq with
  | [] => .next s
  | m :: _ =>
    match s.matNext core m with
    | (s', .halt h) =>
      match h.ans with
      | .page k l p =>
        if s'.noFaultQueue m.tn then .next (s'.failMatrix core m h.opnd 1 h.addr core)
        else
          let s' := s'.updThrAt core m.tid (fun t => { t with ctl := { t.ctl with fltseq := t.ctl.fltseq + 1 } })
          let seq := ((s'.coreAt core).thr m.tid).ctl.fltseq.toNat % 2 ^ 32
          let s' := s'.updCore core (·.setHead { m with stop := .faulted h.addr h.opnd })
          .next { s' with faults := s'.faults ++ [⟨m.tn, h.addr, seq, core, m.tid, k, 0, 1, l, p, false, none⟩] }
      | .hold w => if m.stop = .held h.addr w then .next s else .next (s'.updCore core (·.setHead { m with stop := .held h.addr w }))
      | .trap c _ => .next (s'.failMatrix core m h.opnd (mstatKind c) h.addr core)
      | .ok => .next s
    | (s', .mismatch) => .next (s'.failMatrix core m 3 5 core core)
    | _ => .next s
/-- Moves the first transfer of a source's outgoing list that is meant for a core into a staging buffer of two. -/
def State.mmrDeliver (s : State) (core : Nat) (east : Bool) : Option State :=
  let out := fun (c : Core) => if east then c.mmrEast else c.mmrSouth
  match s.cores.find? (fun e => (out e.2).head?.any (fun i => i.dst == core)) with
  | none => none
  | some (src, k) =>
    match out k with
    | [] => none
    | i :: rest =>
      let buf := s.mmrLive (if east then (s.coreAt core).mmrWest else (s.coreAt core).mmrNorth)
      let new := if s.mmrStale i then some buf else if buf.length < 2 then some (buf ++ [i]) else none
      new.map (fun b =>
        let s := s.updCore src (fun c => if east then { c with mmrEast := rest } else { c with mmrSouth := rest })
        s.updCore core (fun c => if east then { c with mmrWest := b } else { c with mmrNorth := b }))
/-- MMR_BLOCK_ARRIVAL (R304): a transfer reaches a free staging buffer of a core, from the west or else from the north. -/
def execMmrBlockArrival (core : Nat) (s : State) : Res :=
  match s.mmrDeliver core true with
  | some s => .next s
  | none =>
    match s.mmrDeliver core false with
    | some s => .next s
    | none => .next s
/-- The abort token at the head of a buffer that is meant for a command. -/
def State.tokenFor (s : State) (core : Nat) (m : MatCmd) (l : List MmrItem) : Option Nat :=
  match (s.mmrLive l).head? with
  | some i =>
    match i.kind with
    | .token f => if some i.lnum = m.lnum ∧ i.n = (s.coreAt core).mmrOrdinal i.lnum then some f else none
    | .block _ _ _ _ => none
  | none => none
/-- MMR_ABORT_TOKEN (R304): a token ends the MMR of the receiving core between two steps and is forwarded once in each direction. -/
def execMmrAbortToken (core : Nat) (s : State) : Res :=
  let c := s.coreAt core
  match c.mq with
  | [] => .next s
  | m :: _ =>
    let between := m.form = 2 && m.ablk.isEmpty && (m.next != 0 || m.stop != .running) && m.next < s.matTotal m
    match s.tokenFor core m c.mmrWest, s.tokenFor core m c.mmrNorth with
    | some f, _ | none, some f => if between then .next (s.failMatrix core m 3 4 f f) else .next s
    | none, none => .next s

/-! ### MWAIT, MSTAT (R305, R306) -/

/-- The banks that queued and running commands name. -/
def Core.busyBanks (c : Core) : Nat := c.mq.foldl (fun a m => a ||| 2 ^ m.bank) 0
/-- MWAIT (R305). -/
def execMwait (a : Reg) (s : State) : Res :=
  let x := s.rd a
  guardTrap s (trapIf (bits x 63 4 ≠ 0) operandInvalid x) fun _ =>
  if x.toNat &&& s.cur.busyBanks = 0 then s.next 4 else s.park (.matrix x.toNat)
/-- MSTAT (R306). -/
def execMstat (d : Reg) (s : State) : Res :=
  if s.det then s.trap orderDependent 0
  else
    let q := s.cur.mq
    let head := match q with
      | [] => 0
      | m :: _ => m.tid * 2 ^ 4 + 2 ^ 3
    (s.wr d (word (s.cur.busyBanks * 2 ^ 12 + q.length * 2 ^ 10 + head))).next 4

/-! ### ACC instructions (R307, R308) -/

/-- A bank word as an element of a type. -/
def accOut (t : ElemTy) (c : Fcw) (r x : Nat) : Fl :=
  if t = .f32 ∨ t = .i32 then ⟨x, 0⟩
  else if isFloat t then convert t .f32 c r x
  else clampInt t (intOf 32 x) 0
/-- An element of a type as a bank word. -/
def accIn (t : ElemTy) (c : Fcw) (x : Nat) : Fl :=
  if t = .f32 ∨ t = .i32 then ⟨x, 0⟩
  else if isFloat t then convert .f32 t c 0 x
  else ⟨natOfInt 32 (intOf t.width x), 0⟩
/-- A move with a type that converts under `crnd` (R94). -/
def accRounds (t : ElemTy) : Bool := isFloat t && t != .f32
/-- The check of the row pair. -/
def accRow (p : Word) : Option TrapOf := trapIf (15 < p.toNat) operandInvalid p
/-- ACCZ (R307). -/
def execAccz (n : BitVec 2) (s : State) : Res := (s.updCur (fun c => c.putBank n.toNat 0 (List.replicate 1024 0))).next 8
/-- ACCST (R307). -/
def execAccst (t : ElemTy) (n : BitVec 2) (c : VCode) (a : Reg) (s : State) : Res :=
  let p := s.rd a
  let f := s.fcw
  let w := fun i => s.cur.bankWord n.toNat (64 * p.toNat + i)
  withWindows [] [c] none (accRow p) s fun s' =>
    let r := s'.srWords (accRounds t) t.width
    (r.2.vwrite c t.width 64 (BitVec.allOnes 256) (fun i => accOut t f ((r.1[i]?).getD 0) (w i))).next 8
/-- ACCLD (R307): under SR a widening move takes one generator step for each element moved. -/
def execAccld (t : ElemTy) (n : BitVec 2) (c : VCode) (a : Reg) (s : State) : Res :=
  let p := s.rd a
  let f := s.fcw
  let v := s.vget c
  withWindows [c] [] none (accRow p) s fun s' =>
    let l := (List.range 64).map (fun i => accIn t f (elem t.width v i))
    let s' := if accRounds t && f.isSr then s'.updCtl (fun k => { k with seed := (xsRun 64 k.seed).2 }) else s'
    ((s'.updCur (fun k => k.putBank n.toNat (64 * p.toNat) (l.map (·.x)))).raise (l.foldl (fun (b : Flags) r => b ||| r.fl) 0)).next 8
/-- The converted bank with its flags and the stepped seed. -/
def accImage (t : ElemTy) (n : Nat) (s : State) : List Byte × Flags × Word :=
  let f := s.fcw
  let r := if accRounds t && f.isSr then xsRun 1024 s.thr.ctl.seed else ([], s.thr.ctl.seed)
  let l := (List.range 1024).map (fun i => accOut t f ((r.1[i]?).getD 0) (s.cur.bankWord n i))
  ((l.map (fun y => bytesOfNat (t.width / 8) y.x)).flatten, l.foldl (fun (b : Flags) y => b ||| y.fl) 0, r.2)
/-- The elements of row `r` of an ACCSTG: the parts of its bytes that lie in one sector each. -/
def accRowElems (va n r : Nat) (img : List Byte) : List Elem :=
  let row := (img.drop (r * n)).take n
  (List.range 3).filterMap (fun i =>
    let lo := max va (va / 64 * 64 + 64 * i)
    let hi := min (va + n) (va / 64 * 64 + 64 * i + 64)
    if lo < hi then some ⟨3 * r + i, lo, hi - lo, 0, natOfBytes ((row.drop (lo - va)).take (hi - lo)), 2 ^ (hi - lo) - 1⟩ else none)
/-- Stores the rows of an ACCSTG that are left, in order, each whole once its sectors are granted, as a VST stores (R172, R191). -/
def accRows (a b : Word) (n : Nat) (fin : State → Res) : List Nat → State → Res
  | [], s => fin s
  | r :: l, s =>
    let row := accRowElems (a + word r * b).toNat n r s.thr.progress.image
    if row.all (fun e => s.thr.progress.elems.contains e.id) then accRows a b n fin l s
    else
      runWhole true (writeL1 s.core s.tn) .write row s fun s => accRows a b n fin l (s.updProgress (fun p => { p with ask := .none }))
/-- ACCSTG (R308): it reads the bank in its issue cycle (R292), before it waits for posted reductions. -/
def execAccstg (t : ElemTy) (n : BitVec 2) (a b : Reg) (s : State) : Res :=
  let x := s.rd a
  let y := s.rd b
  let run := fun s => afterReds .reply s fun s => accRows x y (4 * t.width) (fun s =>
    let aux := s.thr.progress.aux
    ((s.updCtl (fun c => { c with seed := word (elem 64 aux 1) })).raise (BitVec.ofNat 6 (elem 64 aux 0))).finish 8) (List.range 32) s
  if s.thr.progress.begun then run s
  else
    guardTrap s (firstTrap [trapIf (x.toNat % 16 ≠ 0) misalignment x, trapIf (y.toNat % 16 ≠ 0) misalignment y, vaTrap x]) fun _ =>
    let i := accImage t n.toNat s
    run (s.updProgress (fun p => { p with
      begun := true, image := i.1, aux := BitVec.ofNat 2048 (i.2.1.toNat + 2 ^ 64 * i.2.2.toNat) }))

end Sys2Proof.Machine
end

