-- ==== Sys2Proof/Machine/Stream.lean ====
section
/-! DEFINITION. The stream format of the copy engine (R323 to R325): its header, canonical codes, CRC-32C, decoding and encoding; and block
scales (R98). -/

namespace Sys2Proof.Machine

/-! ### CRC-32C (R324) -/

/-- Eight steps of the reflected polynomial. -/
def crcSteps : Nat → BitVec 32 → BitVec 32
  | 0, x => x
  | n + 1, x => crcSteps n (if x.getLsbD 0 then (x >>> 1) ^^^ 0x82F63B78 else x >>> 1)
/-- CRC-32C of some bytes. -/
def crc32c (l : List Byte) : Nat := ((l.foldl (fun (a : BitVec 32) (b : Byte) => crcSteps 8 (a ^^^ b.setWidth 32)) 0xFFFFFFFF) ^^^ 0xFFFFFFFF).toNat

/-! ### Canonical codes (R323, R324) -/

/-- The code lengths of the 256 symbols, from the 128 bytes of the length table. -/
def codeLengths (l : List Byte) : List Nat := l.flatMap (fun b => [b.toNat % 16, b.toNat / 16])
/-- Lengths that are invalid or over-subscribe the code. -/
def lengthsBad (l : List Nat) : Bool :=
  l.any (fun n => 12 < n) || 4096 < l.foldl (fun a n => if n = 0 then a else a + 2 ^ (12 - n)) 0
/-- A code: length, bits as a number, symbol. -/
structure Code where
  (len bits sym : Nat)
deriving DecidableEq, Repr
/-- The present symbols in order of length and symbol. -/
def presentCodes (l : List Nat) : List (Nat × Nat) :=
  (List.range 13).flatMap (fun n => if n = 0 then [] else (List.range 256).filterMap (fun y => if l[y]? = some n then some (n, y) else none))
/-- Assigns canonical codes: the first is all zeros, each next one more, shifted by the increase in length. -/
def assignCodes : Option Code → List (Nat × Nat) → List Code
  | _, [] => []
  | prev, (n, y) :: l =>
    let c : Code := ⟨n, match prev with | none => 0 | some p => (p.bits + 1) * 2 ^ (n - p.len), y⟩
    c :: assignCodes (some c) l
/-- The codes of a length table. -/
def codesOf (l : List Nat) : List Code := assignCodes none (presentCodes l)

/-- The bits of some bytes, most significant first. -/
def msbBits (l : List Byte) : List Bool := l.flatMap (fun b => (List.range 8).map (fun i => b.getLsbD (7 - i)))
/-- The number that some bits write, most significant first. -/
def bitsNum (l : List Bool) : Nat := l.foldl (fun a b => 2 * a + b.toNat) 0
/-- The code that stands at the front of some bits. -/
def matchCode (codes : List Code) (l : List Bool) : Option Code :=
  codes.find? (fun c => (l.take c.len).length == c.len && bitsNum (l.take c.len) == c.bits)
/-- Decodes at most `n` symbols: the symbols, and the bit offset of a code fault if one was met. -/
def decodeBits (codes : List Code) : Nat → Nat → List Bool → List Nat × Option Nat
  | 0, _, _ => ([], none)
  | n + 1, pos, l =>
    match matchCode codes l with
    | none => ([], some pos)
    | some c =>
      let r := decodeBits codes n (pos + c.len) (l.drop c.len)
      (c.sym :: r.1, r.2)

/-! ### Headers (R323) -/

/-- A stream header. -/
structure StreamHead where
  (logb nsym nblk plen : Nat)
  lens : List Nat
deriving DecidableEq, Repr
/-- Reads a header and its length table from 192 bytes; none if it breaks R323. -/
def parseStream (l : List Byte) : Option StreamHead :=
  let f := fun (off n : Nat) => natOfBytes ((l.drop off).take n)
  let h : StreamHead := ⟨f 6 1, f 8 8, f 16 4, f 20 4, codeLengths ((l.drop 64).take 128)⟩
  let b := 2 ^ h.logb
  if f 0 4 = 0x5354524D ∧ f 4 2 = 1 ∧ 8 ≤ h.logb ∧ h.logb ≤ 16 ∧ f 7 1 = 0 ∧ 1 ≤ h.nsym ∧ h.nblk = (h.nsym + b - 1) / b ∧ f 24 40 = 0 ∧
      lengthsBad h.lens = false then some h
  else none
/-- The offsets and check values of a block index. -/
def parseIndex (l : List Byte) (n : Nat) : List (Nat × Nat) :=
  (List.range n).map (fun i => (natOfBytes ((l.drop (8 * i)).take 4), natOfBytes ((l.drop (8 * i + 4)).take 4)))
/-- Offsets do not decrease and stay within the payload. -/
def indexOk (plen : Nat) : List (Nat × Nat) → Bool
  | [] => true
  | [x] => x.1 ≤ plen
  | x :: y :: l => x.1 ≤ y.1 && indexOk plen (y :: l)

/-! ### Encoding (R325) -/

/-- Packs bits into bytes, the last padded with zero bits; `n` bounds the bytes. -/
def packBits : Nat → List Bool → List Byte
  | 0, _ => []
  | n + 1, l => if l.isEmpty then [] else BitVec.ofNat 8 (bitsNum ((List.range 8).map (fun i => (l[i]?).getD false))) :: packBits n (l.drop 8)
/-- The bits of a code. -/
def Code.toBits (c : Code) : List Bool := (List.range c.len).map (fun i => c.bits.testBit (c.len - 1 - i))
/-- Encodes a block, or finds the index of the first absent symbol. -/
def encodeBlock (codes : List Code) (l : List Nat) : List Byte ⊕ Nat :=
  match findPos (fun x => !codes.any (fun c => c.sym == x)) l with
  | some i => .inr i
  | none => .inl (packBits (2 * l.length + 1) (l.flatMap (fun x => ((codes.find? (fun c => c.sym == x)).map Code.toBits).getD [])))
/-- Cuts a list into blocks of `b`; `n` bounds their count. -/
def blocksBy {β : Type} (b : Nat) : Nat → List β → List (List β)
  | 0, _ => []
  | n + 1, l => if l.isEmpty then [] else l.take b :: blocksBy b n (l.drop b)
/-- Encodes blocks in order: their bytes, or the first absent symbol's index in its block. -/
def encodeBlocks (codes : List Code) : List (List Nat) → List (List Byte) ⊕ Nat
  | [] => .inl []
  | b :: l =>
    match encodeBlock codes b with
    | .inr i => .inr i
    | .inl x =>
      match encodeBlocks codes l with
      | .inr i => .inr i
      | .inl y => .inl (x :: y)
/-- The index of some encoded blocks. -/
def indexBytes : Nat → List (List Byte) → List Byte
  | _, [] => []
  | off, b :: l => bytesOfNat 4 off ++ bytesOfNat 4 (crc32c b) ++ indexBytes (off + b.length) l
/-- The whole stream of some bytes under a template of 192 bytes: its bytes, the index of an absent symbol, or none for a bad template. -/
def compress (tmpl : List Byte) (l : List Nat) : Option (List Byte ⊕ Nat) :=
  let logb := natOfBytes ((tmpl.drop 6).take 1)
  let lens := codeLengths ((tmpl.drop 64).take 128)
  if logb < 8 ∨ 16 < logb ∨ lengthsBad lens = true then none
  else
    let blocks := blocksBy (2 ^ logb) (l.length + 1) l
    match encodeBlocks (codesOf lens) blocks with
    | .inr i => some (.inr i)
    | .inl bs =>
      let payload := bs.flatten
      some (.inl (bytesOfNat 4 0x5354524D ++ bytesOfNat 2 1 ++ bytesOfNat 1 logb ++ bytesOfNat 1 0 ++ bytesOfNat 8 l.length ++
        bytesOfNat 4 bs.length ++ bytesOfNat 4 payload.length ++ bytesOfNat 40 0 ++ (tmpl.drop 64).take 128 ++ indexBytes 0 bs ++ payload))

/-! ### Block scales (R98) -/

/-- The greatest exponent of an element type. -/
def scaleEmax (t : ElemTy) : Int := if t = .e4m3 then 8 else if t = .e5m2 then 15 else if t = .e2m1 then 2 else 0
/-- ⌊log2⌋ of a nonzero finite value. -/
def floorLog2 (m : Nat) (e : Int) : Int := (m.log2 : Int) + e
/-- The scale of a block whose largest absolute value is given. -/
def blockScale (t : ElemTy) (amax : Num) : Nat :=
  match amax with
  | .nan _ => 255
  | .inf _ => 254
  | .fin _ m e => if m = 0 then 0 else (min 254 (max 0 (floorLog2 m e - scaleEmax t + 127))).toNat
/-- The greater of two absolute values; a NaN wins. -/
def maxAbs (a b : Num) : Num :=
  let x := match b with
    | .fin _ m e => Num.fin false m e
    | .inf _ => .inf false
    | .nan q => .nan q
  if a.isNan then a else if x.isNan then x else if numLt a x then x else a
/-- The largest absolute value of some values. -/
def amaxOf (l : List Num) : Num := l.foldl maxAbs (.fin false 0 0)

end Sys2Proof.Machine
end

