-- ==== Sys2Proof/Machine/Copy.lean ====
section
/-! DEFINITION. The copy engine: hand-over with claims (R225, R316, R317), descriptors and chain words (R318 to R320), the half-chains (R321,
R322, R326), its run, faults and completion (R327 to R331), puts (R221), XSTAT and XCAN (R332, R333), and the copy thread (R314, R315). -/

namespace Sys2Proof.Machine

/-! ### Descriptor and chain fields (R318, R319) -/

/-- The types apply. -/
def CopyCmd.typed (x : CopyCmd) : Bool := x.chain.getLsbD 7
/-- Stage exp. -/
def CopyCmd.exp (x : CopyCmd) : Bool := x.chain.getLsbD 0
/-- Stage deq. -/
def CopyCmd.deq (x : CopyCmd) : Bool := x.chain.getLsbD 1
/-- Stage trn. -/
def CopyCmd.trn (x : CopyCmd) : Bool := x.chain.getLsbD 2
/-- Stage red. -/
def CopyCmd.red (x : CopyCmd) : Bool := x.chain.getLsbD 4
/-- Stage qnt. -/
def CopyCmd.qnt (x : CopyCmd) : Bool := x.chain.getLsbD 5
/-- Stage cmp. -/
def CopyCmd.cmp (x : CopyCmd) : Bool := x.chain.getLsbD 6
/-- The scales are read, not computed. -/
def CopyCmd.given (x : CopyCmd) : Bool := x.chain.getLsbD 8
/-- A type field of the chain word. -/
def CopyCmd.tyAt (x : CopyCmd) (hi lo : Nat) : ElemTy := ElemTy.ofCode (BitVec.ofNat 4 (bits x.chain hi lo))
/-- The type of the elements read: bytes when the types do not apply. -/
def CopyCmd.ity (x : CopyCmd) : ElemTy := if x.typed then x.tyAt 43 40 else .n8
/-- The type after red, or of destination arithmetic. -/
def CopyCmd.mty (x : CopyCmd) : ElemTy := x.tyAt 39 36
/-- The type field of the elements written. -/
def CopyCmd.oty (x : CopyCmd) : ElemTy := x.tyAt 35 32
/-- Source rows per output row. -/
def CopyCmd.grp (x : CopyCmd) : Nat := bits x.chain 31 24
/-- The auxiliary area. -/
def CopyCmd.aux (x : CopyCmd) : Nat := bits x.chain 63 46
/-- Element width w. -/
def CopyCmd.w (x : CopyCmd) : Nat := x.ity.width
/-- Rows nr. -/
def CopyCmd.nr (x : CopyCmd) : Nat := max 1 (bits x.w2 63 32)
/-- Elements per row n. -/
def CopyCmd.n (x : CopyCmd) : Nat := bits x.w2 31 0
/-- The LM side. -/
def CopyCmd.lm (x : CopyCmd) : Nat := bits x.w1 17 0
/-- The LM side starts at a high nibble. -/
def CopyCmd.lnib (x : CopyCmd) : Bool := x.w1.getLsbD 60
/-- The global side starts at a high nibble. -/
def CopyCmd.gnib (x : CopyCmd) : Bool := x.w1.getLsbD 61
/-- Global-side pitch in bits. -/
def CopyCmd.gpitch (x : CopyCmd) : Nat := bits x.w3 63 32
/-- LM-side pitch in bits. -/
def CopyCmd.lpitch (x : CopyCmd) : Nat := bits x.w3 31 0
/-- LM address of the source counter. -/
def CopyCmd.scnt (x : CopyCmd) : Nat := bits x.w1 35 18
/-- The window number. -/
def CopyCmd.win (x : CopyCmd) : Nat := bits x.w1 59 46
/-- The completion target's thread and tag (R10). -/
def CopyCmd.tthread (x : CopyCmd) : Nat := bits x.target 3 0
/-- The tag. -/
def CopyCmd.tag (x : CopyCmd) : Nat := bits x.target 11 4
/-- XLD or XLM: the load half-chain. -/
def CopyCmd.isLoad (x : CopyCmd) : Bool := x.fn == 0 || x.fn == 7
/-- The type that the chain produces. -/
def CopyCmd.outTy (x : CopyCmd) : ElemTy :=
  if x.fn = 3 then x.oty
  else if x.isLoad then (if x.deq then x.oty else x.ity)
  else if x.qnt then x.oty else if x.red then x.mty else x.ity
/-- Rows at the destination. -/
def CopyCmd.outRows (x : CopyCmd) : Nat :=
  if x.isLoad then (if x.trn then x.n else x.nr) else if x.red then x.nr / max 1 x.grp else x.nr
/-- Elements of a destination row. -/
def CopyCmd.outCols (x : CopyCmd) : Nat := if x.isLoad && x.trn then x.nr else x.n
/-- f32, bf16 or f16. -/
def isFloat3 (t : ElemTy) : Bool := t == .f32 || t == .bf16 || t == .f16
/-- The elements of a side are 4 bits wide and so may start at a high nibble. -/
def CopyCmd.nibOk (x : CopyCmd) (nib : Bool) (side : ElemTy) : Bool := !nib || (x.w == 4 && side.width == 4)
/-- A chain word or type that breaks R319 or R320. -/
def CopyCmd.chainBad (x : CopyCmd) : Bool :=
  let c := x.chain
  let load := x.isLoad
  bits c 45 44 != 0 || bits c 23 9 != 0 || c.getLsbD 3 || x.aux % 8 != 0 ||
  (!x.typed && bits c 43 32 != 0) || (load && (x.red || x.qnt || x.cmp)) || (!load && (x.exp || x.deq || x.trn)) ||
  (x.exp && x.w != 8) ||
  (x.deq && !(x.typed && (x.ity == .c8 || x.ity.isSb) && (isFloat3 x.oty || x.oty == .wf19))) ||
  (load && !x.deq && x.typed && x.oty != x.ity) ||
  (x.trn && !(8 ≤ x.w && x.nr ≤ 256 && x.n ≤ 256)) ||
  (x.red && !(x.typed && isFloat3 x.ity && isFloat3 x.mty && 2 ≤ x.grp && x.nr % max 1 x.grp == 0)) ||
  (x.qnt && !(x.typed && x.oty.isSb)) ||
  (!load && x.fn != 3 && x.typed && x.oty != x.outTy) ||
  (x.cmp && !(x.outTy.width == 8 && x.outRows ≤ 1 && x.gpitch == 0 && x.lpitch == 0)) ||
  (x.fn == 3 && !(x.typed && !x.cmp && isFloat3 x.mty && (x.qnt || isFloat3 x.oty) && x.outRows ≤ 1))
/-- The value of an f32 that must be finite. -/
def finiteF32 (n : Nat) : Bool :=
  match unpackF .f32 n with
  | .fin _ _ _ => true
  | .nan _ | .inf _ => false
/-- A descriptor, chain word or target that R318 to R320, R10 or R331 refuse, or no task (R317). -/
def CopyCmd.bad (x : CopyCmd) : Bool :=
  let put := x.fn == 2
  let gside := if x.isLoad && x.fn == 0 then x.ity else x.outTy
  let lside := if x.fn == 0 then x.outTy else x.ity
  x.owner.isNone || bits x.target 63 16 != 0 || bits x.w1 63 62 != 0 || bits x.w1 45 36 != 0 ||
  (!put && (x.win != 0 || x.scnt != 0)) || x.scnt % 8 != 0 || (put && bits x.w0 53 40 != 0) ||
  (x.fn == 7 && (bits x.w0 63 36 != 0 || bits x.w0 3 0 != 0 || 9215 < bits x.w0 17 4)) ||
  (if x.fn = 4 then 1 < bits x.w2 63 32 || x.gnib || x.lnib || x.lm != 0
   else !x.nibOk x.gnib gside || !x.nibOk x.lnib lside || x.chainBad ||
    (if x.fn = 3 then !finiteF32 x.gpitch || !finiteF32 x.lpitch else x.gpitch % 8 != 0 || x.lpitch % 8 != 0) ||
    (put && 2 ^ 20 < (if x.cmp then x.n else (x.outRows * x.n * x.outTy.width + 7) / 8)))

/-! ### Claims (R225, R226) -/

/-- Start of a row in bits: base address, high nibble, pitch, and the bits of a packed row. -/
def rowStart (base : Nat) (nib : Bool) (pitch packed r : Nat) : Nat := 8 * base + (if nib then 4 else 0) + r * (if pitch = 0 then packed else pitch)
/-- The destination range in global memory of a command that has one. -/
def CopyCmd.range (x : CopyCmd) : Option (Nat × Nat) :=
  if x.fn = 4 then some (x.w0.toNat, x.w0.toNat + x.n)
  else if x.fn = 1 ∨ x.fn = 3 then
    let packed := x.n * x.outTy.width
    let pitch := if x.fn = 3 then 0 else x.gpitch
    some (x.w0.toNat, if x.cmp then x.w0.toNat + x.n else (rowStart x.w0.toNat x.gnib pitch packed (x.outRows - 1) + packed + 7) / 8)
  else none
/-- A slice serves a part of a range. -/
def servesRange (tn lo hi slice : Nat) : Bool :=
  let a := lo / 4096
  let n := (hi + 4095) / 4096 - a
  if 131072 ≤ n then true else (List.range n).any (fun i => sliceOf ((a + i) * 4096) tn == slice)
/-- Every slice of a die that serves a part of the range has a free claim record. -/
def Die.claimRoom (d : Die) (tn lo hi : Nat) : Bool :=
  d.claims.length < 32 ||
  (List.range 288).all (fun i => !servesRange tn lo hi i ||
    (d.claims.filter (fun c => servesRange c.tn (max c.lo c.upto) c.hi i)).length < 32)
/-- Registers a claim: the copies of the range in the die's L1s go, M sectors first into their lines. -/
def State.addClaim (s : State) (core cmd tn lo hi : Nat) : State :=
  let d := dieOf core
  let s := ((s.dieAt d).linesIn tn lo (hi - lo)).foldl (fun (s : State) l =>
    (List.range 4).foldl (fun (s : State) i => s.clearSector d tn l i) s) s
  s.updDie d (fun y => { y with claims := y.claims ++ [⟨core, cmd, tn, lo, hi, lo⟩] })
/-- Ends the claims of a command; what they held is tried again. -/
def State.dropClaims (s : State) (core cmd : Nat) : State :=
  let d := dieOf core
  if (s.dieAt d).claims.any (fun c => c.core == core && c.cmd == cmd) then
    (s.updDie d (fun y => { y with claims := y.claims.filter (fun c => !(c.core == core && c.cmd == cmd)) })).retryHeld
  else s

/-! ### Hand-over (R316, R317) -/

/-- The launch and tenancy of the task on a thread. -/
def Core.ownerOf (c : Core) (t : Nat) : Option (Nat × Nat) := if t = 15 then none else (c.thr t).task.map (fun k => (k.lnum, (c.thr t).ctl.tenancy.toNat))
/-- An XF word of any thread but t15 is an illegal instruction (R35, R39). -/
def onCopyThread (s : State) (k : Unit → Res) : Res := if s.tid = 15 then k () else s.trap illegalInstruction 0
/-- Hands a command over, or waits for an entry of the queue, a claim record, or room for the M sectors that the claim recalls (R179, R225, R316).  DESIGN CHOICE (log 41): a command that dequantises c8
captures the table as it stands, also while `dtab`[0] = 0, since content errors never trap t15 and no status of R329 names an invalid table. -/
def handOver (fn : Nat) (a b c : Reg) (s : State) : Res :=
  onCopyThread s fun _ =>
  let x : CopyCmd :=
    { id := s.nextId, fn := fn, w0 := s.rd a, w1 := s.rd (a + 1), w2 := s.rd (a + 2), w3 := s.rd (a + 3), chain := s.rd b, target := s.rd c,
      fcw := s.thr.ctl.fcw, seed := s.thr.ctl.seed, table := if fn ≠ 4 && (s.rd b).getLsbD 1 then s.cur.table else [],
      owner := s.cur.ownerOf (bits (s.rd c) 3 0), started := false, out := [], stop := .status 0 0 false, pos := 0, done := 0, buf := [],
      flags := 0, put := 0, held := none, part := none, ends := none }
  let claim := if x.bad then none else match x.range, x.owner with
    | some r, some o => if r.1 < r.2 then some (o.2, r.1, r.2) else none
    | _, _ => none
  let room := match claim with
    | some (tn, lo, hi) => (s.dieAt (dieOf s.core)).claimRoom tn lo hi
    | none => true
  let claimed := match claim with
    | some (tn, lo, hi) => s.addClaim s.core x.id tn lo hi
    | none => s
  if 4 ≤ s.cur.cq.length || !room || claimed.jam then s.park .engineQueue
  else
    let s := { claimed with nextId := claimed.nextId + 1 }
    ((s.updCur (fun k => { k with cq := k.cq ++ [x] })).updCtl (fun k => { k with seed := xsStep k.seed })).next 4
/-- XLD (R321). -/
def execXld (a b c : Reg) (s : State) : Res := handOver 0 a b c s
/-- XST (R322). -/
def execXst (a b c : Reg) (s : State) : Res := handOver 1 a b c s
/-- XPUT (R322). -/
def execXput (a b c : Reg) (s : State) : Res := handOver 2 a b c s
/-- XAXB (R326). -/
def execXaxb (a b c : Reg) (s : State) : Res := handOver 3 a b c s
/-- XFILL (R331). -/
def execXfill (a c : Reg) (s : State) : Res := handOver 4 a 0 c s
/-- XLM (R321). -/
def execXlm (a b c : Reg) (s : State) : Res := handOver 7 a b c s

/-! ### Reading the source -/

/-- The state with the bytes that the engine has read. -/
structure CopySt where
  s   : State
  buf : List (Nat × List Byte)
deriving DecidableEq, Repr
/-- A read of bytes: the bytes up to where it stopped, and why it stopped there. -/
abbrev CopyRead := CopySt → Nat → Nat → CopySt × Option CopyEnd × List Byte

/-- What ends a command at an answer (R327, R329). -/
def copyEnd (va access : Nat) (a : Ans) : CopyEnd :=
  match a with
  | .hold w => .hold va w
  | .page k l p => .page va k l access p
  | .trap c _ => .status (if 2 ^ 56 ≤ va then 1 else if c = remoteUnavailable then 3 else if c = dataError then 4 else 11) 0 false
  | .ok => .status 0 0 false
/-- Reads global bytes, stripe by stripe; a stripe once read is kept. -/
def readGlobal (d tn : Nat) : Nat → CopyRead
  | 0, c, _, _ => (c, none, [])
  | fuel + 1, c, a, n =>
    if n = 0 then (c, none, [])
    else
      let k := min n (4096 - a % 4096)
      let next := fun (c : CopySt) (l : List Byte) =>
        let r := readGlobal d tn fuel c (a + k) (n - k)
        (r.1, r.2.1, l ++ r.2.2)
      match c.buf.find? (fun e => e.1 == a && e.2.length == k) with
      | some e => next c e.2
      | none =>
        match c.s.engBytes d tn a k with
        | (s, none, l) => next ⟨s, (a, l) :: c.buf⟩ l
        | (s, some (va, ans), l) => (⟨s, c.buf⟩, some (copyEnd va 0 ans), l)
/-- Reads LM bytes as thread 15: none of a range that R137 forbids or that is damaged. -/
def readLm (core : Nat) : CopyRead := fun c a n =>
  let k := c.s.coreAt core
  if (k.lmCheck 15 false a n).isSome then (c, some (.status 2 0 false), [])
  else if (k.lmBad a n).isSome then (c, some (.status 4 0 false), [])
  else (c, none, k.lmBytes a n)
/-- The reader of a command's source: LM for XST, XPUT, XAXB and XLM. -/
def CopyCmd.reader (x : CopyCmd) (core tn : Nat) : CopyRead :=
  if x.fn = 0 then fun c a n => readGlobal (dieOf core) tn (n / 4096 + 2) c a n else readLm core
/-- The elements that some bytes hold from a start bit, at most `n`. -/
def splitElems (w n start : Nat) (l : List Byte) : List Nat :=
  let x := natOfBytes l
  (List.range (min n ((8 * l.length - start % 8) / w))).map (fun i => x / 2 ^ (start % 8 + w * i) % 2 ^ w)
/-- The elements of some rows in row-major order, up to where reading stopped. -/
def readRows (rd : CopyRead) (w n : Nat) (start : Nat → Nat) : List Nat → CopySt → CopySt × List Nat × Option CopyEnd
  | [], c => (c, [], none)
  | r :: l, c =>
    let b := start r
    match rd c (b / 8) ((b % 8 + n * w + 7) / 8) with
    | (c, some e, x) => (c, splitElems w n b x, some e)
    | (c, none, x) =>
      let q := readRows rd w n start l c
      (q.1, splitElems w n b x ++ q.2.1, q.2.2)
/-- Where the source's rows start. -/
def CopyCmd.srcStart (x : CopyCmd) (r : Nat) : Nat :=
  let packed := x.n * x.w
  if x.fn = 0 then rowStart x.w0.toNat x.gnib x.gpitch packed r
  else rowStart x.lm x.lnib (if x.fn = 3 then 0 else x.lpitch) packed r

/-- Decodes blocks of a stream until `left` symbols have been emitted (R324, R328). -/
def expandBlocks (rd : CopyRead) (h : StreamHead) (codes : List Code) (pay : Nat) :
    Nat → List (Nat × Nat) → Nat → CopySt → CopySt × List Nat × CopyEnd
  | _, [], left, c => (c, [], .status 0 0 (left != 0))
  | b, x :: l, left, c =>
    let stop := match l with
      | [] => h.plen
      | y :: _ => y.1
    match rd c (pay + x.1) (stop - x.1) with
    | (c, some e, _) => (c, [], e)
    | (c, none, bytes) =>
      if crc32c bytes ≠ x.2 then (c, [], .status 6 0 false)
      else
        let B := 2 ^ h.logb
        let r := decodeBits codes (min (min B (h.nsym - b * B)) (left + 1)) 0 (msbBits bytes)
        if left < r.1.length then (c, r.1.take left, .status 7 0 false)
        else
          match r.2 with
          | some pos => (c, r.1, .status 5 pos false)
          | none =>
            let q := expandBlocks rd h codes pay (b + 1) l (left - r.1.length) c
            (q.1, r.1 ++ q.2.1, q.2.2)
/-- Expands the stream at an address into at most `declared` symbols. -/
def expandStream (rd : CopyRead) (base declared : Nat) (c : CopySt) : CopySt × List Nat × CopyEnd :=
  match rd c base 192 with
  | (c, some e, _) => (c, [], e)
  | (c, none, hd) =>
    match parseStream hd with
    | none => (c, [], .status 10 0 false)
    | some h =>
      match rd c (base + 192) (8 * h.nblk) with
      | (c, some e, _) => (c, [], e)
      | (c, none, ix) =>
        let idx := parseIndex ix h.nblk
        if !indexOk h.plen idx then (c, [], .status 10 0 false)
        else expandBlocks rd h (codesOf h.lens) (base + 192 + 8 * h.nblk) 0 idx declared c

/-! ### Stages (R321, R322, R326) -/

/-- An element as the stages leave it: its value, the flags raised for it, and the block scales that are written with it, by LM address. -/
structure Made where
  x  : Nat
  fl : Flags
  sc : List (Nat × Nat)
deriving DecidableEq, Repr
/-- An element as it was read. -/
def Made.source (v : Nat) : Made := ⟨v, 0, []⟩
/-- An element that a stage has converted. -/
def Made.step (m : Made) (r : Fl) : Made := ⟨r.x, m.fl ||| r.fl, m.sc⟩
/-- The flags raised for some elements. -/
def madeFlags (l : List Made) : Flags := l.foldl (fun (a : Flags) m => a ||| m.fl) 0
/-- The generator's words for `n` elements. -/
def CopyCmd.srWords (x : CopyCmd) (n : Nat) : List Nat := if (Fcw.ofWord x.fcw).isSr then (xsRun n x.seed).1 else []
/-- The scale byte of a block: none where LM does not give it. -/
def scaleAt (k : Core) (a : Nat) : Option Nat × CopyEnd :=
  if (k.lmCheck 15 false a 1).isSome then (none, .status 2 0 false)
  else if (k.lmBad a 1).isSome then (none, .status 4 0 false)
  else (some (k.lmRead a 1), .status 0 0 false)
/-- Stage deq; a scale that LM does not give ends the sequence before its row. -/
def CopyCmd.dequant (x : CopyCmd) (k : Core) (l : List Nat) : List Made × Option CopyEnd :=
  let f := { Fcw.ofWord x.fcw with ftzi := false }
  let rs := x.srWords l.length
  let need := if x.ity = .c8 then 0 else (l.length + 31) / 32
  let stop := (List.range need).find? (fun b => (scaleAt k (x.aux + b)).1.isNone)
  let l' := match stop with
    | some b => l.take (32 * b / max 1 x.n * x.n)
    | none => l
  let one := fun (i v : Nat) =>
    let r := (rs[i]?).getD 0
    if x.ity = .c8 then convert x.oty .f32 f r (((x.table[v]?).map (·.toNat)).getD 0)
    else dequantise x.oty x.ity (f.crm r) f ((scaleAt k (x.aux + i / 32)).1.getD 0) v
  (l'.zipIdx.map (fun e => (Made.source e.1).step (one e.2 e.1)), stop.map (fun b => (scaleAt k (x.aux + b)).2))
/-- An element as a value. -/
def CopyCmd.num (x : CopyCmd) (t : ElemTy) (v : Nat) : Num :=
  if isFloat t then readF t (Fcw.ofWord x.fcw).ftzi v else let i := unpackI t v; .fin (i < 0) i.natAbs 0
/-- An exact sum of values rounded once (R89), with NaNs as in a sum operation. -/
def sumNums (t : ElemTy) (rm : Rm) (ftzo : Bool) (l : List Num) : Fl :=
  if l.any Num.isNan then ⟨canonNan t, snanFlag l⟩ else sumF t rm ftzo l
/-- Stage red: sums of groups of rows of `n` elements; only whole groups yield an output row.  DESIGN CHOICE (log 55): the elements are read under `ftzi` and
the sums rounded under `ftzo`; R88 has no row for the stage. -/
def CopyCmd.reduceRows (x : CopyCmd) (l : List Nat) : List Made :=
  let f := Fcw.ofWord x.fcw
  let groups := l.length / max 1 (x.n * x.grp)
  (List.range (groups * x.n)).map (fun i =>
    let q := i / max 1 x.n
    let j := i % max 1 x.n
    (Made.source 0).step
      (sumNums x.mty f.arm f.ftzo ((List.range x.grp).map (fun g => x.num x.ity ((l[(q * x.grp + g) * x.n + j]?).getD 0)))))
/-- A block with a scale that is written with its first element. -/
def withScale (a sc : Nat) : List Made → List Made
  | [] => []
  | m :: l => { m with sc := m.sc ++ [(a, sc)] } :: l
/-- Stage qnt over the blocks of a sequence of type `t`; `whole` says that the sequence is complete. -/
def CopyCmd.quantBlocks (x : CopyCmd) (k : Core) (t : ElemTy) (l : List Made) (whole : Bool) : List Made × Option CopyEnd :=
  let f := Fcw.ofWord x.fcw
  let rs := x.srWords l.length
  let base := x.aux + (if x.cmp then 192 else 0)
  (List.range ((l.length + 31) / 32)).foldl (fun (a : List Made × Option CopyEnd) b =>
    match a.2 with
    | some _ => a
    | none =>
      let els := (l.drop (32 * b)).take 32
      let q := fun (sc : Nat) => els.zipIdx.map (fun e =>
        e.1.step (quantise x.oty (f.crm ((rs[32 * b + e.2]?).getD 0)) f.ftzo sc (x.num t e.1.x)))
      if x.given then
        match scaleAt k (base + b) with
        | (some sc, _) => (a.1 ++ q sc, none)
        | (none, e) => (a.1, some e)
      else if (k.lmCheck 15 true (base + b) 1).isSome then (a.1, some (.status 2 0 false))
      else if els.length < 32 && !whole then a
      else
        let sc := blockScale x.oty (amaxOf (els.map (fun m => if isFloat t then unpackF t m.x else x.num t m.x)))
        (a.1 ++ withScale (base + b) sc (q sc), none)) (([], none) : List Made × Option CopyEnd)

/-! ### Output (R322, R327) -/

/-- The output byte of an element at a byte address, under a mask of nibbles. -/
def Made.out (m : Made) (dst : CopyDst) (row x : Nat) (mask : Byte) : CopyOut := ⟨dst, BitVec.ofNat 8 x, mask, row, m.fl.setWidth 64, m.sc, 0⟩
/-- Two entries for one byte as one. -/
def CopyOut.join (a b : CopyOut) : CopyOut :=
  { a with x := (a.x &&& ~~~b.mask) ||| (b.x &&& b.mask), mask := a.mask ||| b.mask, flags := a.flags ||| b.flags, scales := a.scales ++ b.scales }
/-- Output entries with nibbles of one byte that follow each other written together. -/
def joinNibbles : List CopyOut → List CopyOut
  | [] => []
  | a :: l =>
    match joinNibbles l with
    | [] => [a]
    | b :: r => if a.dst = b.dst ∧ a.mask &&& b.mask = 0 then a.join b :: r else a :: b :: r
/-- Output entries of a row of elements at a start bit. -/
def outRow (mk : Nat → CopyDst) (w row start : Nat) (l : List Made) : List CopyOut :=
  if w = 4 then
    joinNibbles (l.zipIdx.map (fun e =>
      let p := start / 4 + e.2
      e.1.out (mk (p / 2)) row (if p % 2 = 0 then e.1.x else 16 * e.1.x) (if p % 2 = 0 then 0x0F else 0xF0)))
  else
    l.zipIdx.flatMap (fun e => (List.range (w / 8)).map (fun i =>
      (if i = 0 then e.1 else Made.source 0).out (mk (start / 8 + w / 8 * e.2 + i)) row (e.1.x / 2 ^ (8 * i)) 0xFF))
/-- Where an output byte goes. -/
def CopyCmd.dst (x : CopyCmd) (a : Nat) : CopyDst := if x.fn = 0 then .lm a else if x.fn = 7 then .remote (bits x.w0 17 4) a else .glob a
/-- Where the destination's rows start. -/
def CopyCmd.dstStart (x : CopyCmd) (q : Nat) : Nat :=
  let packed := x.outCols * x.outTy.width
  if x.fn = 0 then rowStart x.lm x.lnib x.lpitch packed q
  else if x.fn = 7 then rowStart (bits x.w0 35 18) x.gnib x.lpitch packed q
  else if x.fn = 2 then rowStart (bits x.w0 39 0) x.gnib x.gpitch packed q
  else rowStart x.w0.toNat x.gnib (if x.fn = 3 then 0 else x.gpitch) packed q
/-- An LM destination row that R137 forbids, or a remote one that passes the end of LM. -/
def CopyCmd.rowBad (x : CopyCmd) (k : Core) (q : Nat) : Bool :=
  let b := x.dstStart q
  let n := (b % 8 + x.outCols * x.outTy.width + 7) / 8
  if x.fn = 0 then (k.lmCheck 15 true (b / 8) n).isSome else if x.fn = 7 then decide (0x40000 < b / 8 + n) else false
/-- Output entries of rows, each element with its column, up to the first row that may not be written. -/
def CopyCmd.outRowsOf (x : CopyCmd) (k : Core) : Nat → List (List (Nat × Made)) → List CopyOut × Bool
  | _, [] => ([], false)
  | q, r :: l =>
    if x.rowBad k q then ([], true)
    else
      let t := x.outRowsOf k (q + 1) l
      (r.flatMap (fun e => outRow x.dst x.outTy.width q (x.dstStart q + x.outTy.width * e.1) [e.2]) ++ t.1, t.2)
/-- A sequence cut into destination rows; the last may be partial. -/
def rowsOf (n : Nat) (l : List Made) : List (List (Nat × Made)) :=
  if n = 0 then [] else (blocksBy n (l.length + 1) l).map (fun r => r.zipIdx.map (fun e => (e.2, e.1)))
/-- The transposed sequence: `skip` passes over elements that are missing, and otherwise the first one missing ends it. -/
def transpose (nr n : Nat) (l : List Made) (skip : Bool) : List (List (Nat × Made)) :=
  ((List.range n).foldl (fun (a : List (List (Nat × Made)) × Bool) j =>
    if a.2 then a
    else
      let row := (List.range nr).map (fun r => (r, l[r * n + j]?))
      let have_ := if skip then row else row.takeWhile (fun e => e.2.isSome)
      (a.1 ++ [have_.filterMap (fun e => e.2.map (fun v => (e.1, v)))], have_.length < nr)) (([], false) : List (List (Nat × Made)) × Bool)).1

/-- What a command writes, the flags of conversions that do not wait for its output (cmp), and what follows. -/
structure CopyPlan where
  out  : List CopyOut
  fl   : Flags
  stop : CopyEnd
deriving DecidableEq, Repr
/-- A command that ends without output. -/
def planEnd (e : CopyEnd) : CopyPlan := ⟨[], 0, e⟩
/-- The plan of XLD and XLM (R321). -/
def CopyCmd.planLoad (x : CopyCmd) (core tn : Nat) (c : CopySt) : CopySt × CopyPlan :=
  let rd := x.reader core tn
  let src := if x.exp then expandStream rd (if x.fn = 0 then x.w0.toNat else x.lm) (x.nr * x.n) c
    else
      let r := readRows rd x.w x.n x.srcStart (List.range x.nr) c
      (r.1, r.2.1, r.2.2.getD (.status 0 0 false))
  let k := src.1.s.coreAt core
  let d := if x.deq then x.dequant k src.2.1 else (src.2.1.map Made.source, none)
  let stop := d.2.getD src.2.2
  let short := match stop with
    | .status 0 _ _ => true
    | _ => false
  let o := x.outRowsOf k 0 (if x.trn then transpose x.nr x.n d.1 short else rowsOf x.n d.1)
  (src.1, ⟨joinNibbles o.1, 0, if o.2 then .status 2 0 false else stop⟩)
/-- The plan of XST and XPUT (R322). -/
def CopyCmd.planStore (x : CopyCmd) (core tn : Nat) (c : CopySt) : CopySt × CopyPlan :=
  let src := readRows (x.reader core tn) x.w x.n x.srcStart (List.range x.nr) c
  let k := src.1.s.coreAt core
  let r := if x.red then x.reduceRows src.2.1 else src.2.1.map Made.source
  let t := if x.red then x.mty else x.ity
  let q := if x.qnt then x.quantBlocks k t r src.2.2.isNone else (r, none)
  let fl := madeFlags q.1
  let stop := (q.2.or src.2.2).getD (.status 0 0 false)
  if x.cmp then
    if q.2.isSome || src.2.2.isSome then (src.1, ⟨[], fl, stop⟩)
    else if (k.lmCheck 15 false x.aux 192).isSome then (src.1, ⟨[], fl, .status 2 0 false⟩)
    else if (k.lmBad x.aux 192).isSome then (src.1, ⟨[], fl, .status 4 0 false⟩)
    else
      match compress (k.lmBytes x.aux 192) (q.1.map Made.x) with
      | none => (src.1, ⟨[], fl, .status 10 0 false⟩)
      | some (.inr i) => (src.1, ⟨[], fl, .status 5 i false⟩)
      | some (.inl bytes) =>
        let scales := q.1.flatMap Made.sc
        let l := (bytes.take x.n).zipIdx.map (fun e => (⟨e.1.toNat, 0, if e.2 = 0 then scales else []⟩ : Made))
        (src.1, ⟨outRow x.dst 8 0 (x.dstStart 0) l, fl, .status (if x.n < bytes.length then 7 else 0) 0 false⟩)
  else
    let o := x.outRowsOf k 0 (rowsOf x.n q.1)
    (src.1, ⟨joinNibbles o.1, 0, if o.2 then .status 2 0 false else stop⟩)
/-- One element of XAXB: αx + βy rounded once.  DESIGN CHOICE (log 55): x and y are read under `ftzi` and the sum rounded under `ftzo`, while α and β are
taken as they are; R88 has no row for XAXB. -/
def CopyCmd.axb (x : CopyCmd) (xv yv : Num) : Fl :=
  let f := Fcw.ofWord x.fcw
  let al := unpackF .f32 x.lpitch
  let be := unpackF .f32 x.gpitch
  if zeroTimesInf al xv || zeroTimesInf be yv then ⟨canonNan x.mty, flInvalid⟩
  else if xv.isNan || yv.isNan then ⟨canonNan x.mty, snanFlag [xv, yv]⟩
  else sumF x.mty f.arm f.ftzo [numMul al xv, numMul be yv]
/-- A reader of LM whose bytes are kept once they are read, so that a command that goes on after a hold does not read what it has replaced. -/
def keepLm (rd : CopyRead) : CopyRead := fun c a n =>
  match c.buf.find? (fun e => e.1 == 2 ^ 60 + a && e.2.length == n) with
  | some e => (c, none, e.2)
  | none =>
    match rd c a n with
    | (c, none, l) => ({ c with buf := (2 ^ 60 + a, l) :: c.buf }, none, l)
    | r => r
/-- The blocks of XAXB in order, until a read stops them (R326): the scale of a block changes with its first element. -/
def CopyCmd.axbBlocks (x : CopyCmd) (core tn : Nat) (xs : List Made) (t : ElemTy) (rs : List Nat) : List Nat → CopySt → CopySt × List Made × CopyEnd
  | [], c => (c, [], .status 0 0 false)
  | b :: l, c =>
    let f := Fcw.ofWord x.fcw
    let w := x.oty.width
    let n := min 32 (x.n - 32 * b)
    let start := rowStart x.w0.toNat x.gnib 0 0 0 + 32 * b * w
    let nb := (start % 8 + n * w + 7) / 8
    match readGlobal (dieOf core) tn (nb / 4096 + 2) c (start / 8) nb with
    | (c, some e, _) => (c, [], e)
    | (c, none, bytes) =>
      match (if x.qnt then keepLm (readLm core) c (x.aux + b) 1 else (c, none, [])) with
      | (c, some e, _) => (c, [], e)
      | (c, none, old) =>
        if x.qnt && ((c.s.coreAt core).lmCheck 15 true (x.aux + b) 1).isSome then (c, [], .status 2 0 false)
        else
          let sv := natOfBytes old
          let yv := fun (v : Nat) => if x.qnt then (if sv = 255 then Num.nan true else Num.scale (scaleExp x.oty sv) (x.num x.oty v)) else x.num x.oty v
          let r := (splitElems w n start bytes).zipIdx.map (fun e =>
            let m := (xs[32 * b + e.2]?).getD (Made.source 0)
            m.step (x.axb (x.num t m.x) (yv e.1)))
          let s2 := blockScale x.oty (amaxOf (r.map (fun m => unpackF x.mty m.x)))
          let o := r.zipIdx.map (fun e =>
            let rw := (rs[32 * b + e.2]?).getD 0
            e.1.step (if x.qnt then quantise x.oty (f.crm rw) f.ftzo s2 (readF x.mty f.ftzi e.1.x) else convert x.oty x.mty f rw e.1.x))
          let q := x.axbBlocks core tn xs t rs l c
          (q.1, (if x.qnt then withScale (x.aux + b) s2 o else o) ++ q.2.1, q.2.2)
/-- The plan of XAXB (R326). -/
def CopyCmd.planAxb (x : CopyCmd) (core tn : Nat) (c : CopySt) : CopySt × CopyPlan :=
  let src := readRows (keepLm (x.reader core tn)) x.w x.n x.srcStart (List.range x.nr) c
  match src.2.2 with
  | some e => (src.1, planEnd e)
  | none =>
    let xs := if x.red then x.reduceRows src.2.1 else src.2.1.map Made.source
    let q := x.axbBlocks core tn xs (if x.red then x.mty else x.ity) (x.srWords x.n) (List.range ((x.n + 31) / 32)) src.1
    (q.1, ⟨outRow x.dst x.oty.width 0 (x.dstStart 0) q.2.1, 0, q.2.2⟩)
/-- The plan of XFILL (R331). -/
def CopyCmd.planFill (x : CopyCmd) : CopyPlan :=
  let pat := x.gpitch + 2 ^ 32 * x.lpitch
  ⟨outRow .glob 8 0 (8 * x.w0.toNat) ((List.range x.n).map (fun i => Made.source (pat / 2 ^ (8 * ((x.w0.toNat + i) % 8)) % 256))), 0, .status 0 0 false⟩
/-- What a command writes, from the sources as they stand and the stripes it has read. -/
def CopyCmd.plan (x : CopyCmd) (core : Nat) (s : State) : CopySt × CopyPlan :=
  let tn := (x.owner.map (·.2)).getD 0
  let c : CopySt := ⟨s, x.buf⟩
  let global := x.fn = 0 || x.fn = 1 || x.fn = 3 || x.fn = 4
  if global && bits x.w0 63 56 ≠ 0 then (c, planEnd (.status 1 0 false))
  else if x.fn = 2 && ((s.coreAt core).lmCheck 15 true x.scnt 8).isSome then (c, planEnd (.status 2 0 false))
  else if x.isLoad then x.planLoad core tn c
  else if x.fn = 3 then x.planAxb core tn c
  else if x.fn = 4 then (c, x.planFill)
  else x.planStore core tn c

/-! ### The engine (R327, R331) -/

/-- Changes the head command of a core. -/
def State.setCopy (s : State) (core : Nat) (x : CopyCmd) : State := s.updCore core (fun c => { c with cq := x :: c.cq.drop 1 })
/-- The entries of a plan that may be written now: with a read held, a byte of which only one nibble is known waits for the other. -/
def CopyPlan.firm (p : CopyPlan) : List CopyOut :=
  match p.stop, p.out.getLast? with
  | .hold _ _, some o => if o.mask = 0xFF then p.out else p.out.dropLast
  | _, _ => p.out
/-- The stripe of an output entry (R327): of a global destination, or of the global source that XLD has read the entry's element from; for output that
is transposed or expanded, and for XLM, 4 KiB of LM (log 41). -/
def CopyCmd.unitOf (x : CopyCmd) (o : CopyOut) : Nat :=
  match o.dst with
  | .glob a | .remote _ a => a / 4096
  | .lm a => if x.exp || x.trn then a / 4096 else (x.srcStart o.row + (8 * a - x.dstStart o.row) / x.outTy.width * x.w) / 8 / 4096
/-- The command with its plan from now on: entries already written are left out, and what lies behind the stripe at whose end it stops (R333). -/
def CopyCmd.planned (x : CopyCmd) (p : CopySt × CopyPlan) : CopyCmd :=
  let o := (p.2.firm.drop x.pos).map (fun o => { o with unit := x.unitOf o })
  let y := { x with started := true, out := o, stop := p.2.stop, flags := x.flags ||| p.2.fl.setWidth 64, buf := p.1.buf, held := none }
  match x.ends with
  | none => y
  | some u =>
    let mine := o.takeWhile (fun e => e.unit == u)
    if mine.length < o.length || !y.reading then { y with out := mine, stop := .status 9 0 false } else y
/-- Where the output entries of a command go, whatever its source holds: that of a load, or of XAXB. -/
def CopyCmd.shape (x : CopyCmd) (k : Core) : List CopyOut :=
  if x.fn = 3 then outRow x.dst x.oty.width 0 (x.dstStart 0) (List.replicate x.n (Made.source 0))
  else
    let l := List.replicate (x.nr * x.n) (Made.source 0)
    joinNibbles (x.outRowsOf k 0 (if x.trn then transpose x.nr x.n l false else rowsOf x.n l)).1
/-- The entry that follows those written once a held read has been served. -/
def CopyCmd.nextOut (x : CopyCmd) (k : Core) : Option CopyOut := if x.reading then ((x.shape k)[x.pos]?).map (fun o => { o with unit := x.unitOf o }) else none
/-- COPY_COMMAND_RUN (R317 to R320, R331): the head command is checked and started. -/
def execCopyCommandRun (core : Nat) (s : State) : Res :=
  match (s.coreAt core).cq with
  | [] => .next s
  | x :: _ =>
    if x.started then .next s
    else if x.bad then .next (s.setCopy core { x with started := true, stop := .status 10 0 false })
    else
      let p := x.plan core s
      .next (p.1.s.setCopy core (x.planned p))
/-- Writes bytes of one line as the engine: bytes of full width that stand at the front of some entries. -/
def takeLine (line : Nat) : List CopyOut → Mask × VReg × Nat
  | [] => (0, 0, 0)
  | o :: l =>
    match o.dst with
    | .glob a =>
      if a / 256 = line ∧ o.mask = 0xFF then
        let r := takeLine line l
        let m := maskRange (a % 256) 1
        -- a later entry for the same byte stands
        (r.1 ||| m, overlay r.1 (placeAt (a % 256) 1 o.x.toNat) r.2.1, r.2.2 + 1)
      else (0, 0, 0)
    | .lm _ | .remote _ _ => (0, 0, 0)
/-- A masked merge of a nibble at the byte's home, after the engine's die drops its guest copy (R327, R230, R232). -/
def State.nibbleMerge (s : State) (d tn va : Nat) (x mask : Byte) : State × Ans :=
  let f := fun (m : Nat) => ((BitVec.ofNat 8 m &&& ~~~mask) ||| (x &&& mask)).toNat
  match s.translate d tn va .write none with
  | (s, .ok pa _) =>
    if s.isOwn pa && paDie pa == d then
      match s.sliceRead d tn va 1 true with
      | (s, .ok, m) => s.sliceWrite d tn (lineOf va) va .write (maskRange (va % 256) 1) (placeAt (va % 256) 1 (f m)) true
      | (s, a, _) => (s, a)
    else
      settled s (
        let s := (s.flushLine d tn (lineOf va)).updDie d (fun y => y.spoil tn (lineOf va))
        if s.isOwn pa then let r := s.atomicOnLine (paDie pa) tn va 1 f; (r.1, r.2.1)
        else (s.paPut pa (bytesOfNat 1 (f (natOfBytes (s.paBytes pa 1)))), .ok))
  | (s, a) => (s, a.ans)
/-- How a write of the engine went. -/
inductive CopyWrote where
  | ok
  | stop (e : CopyEnd)
deriving DecidableEq, Repr
/-- An LM byte of a stripe under a mask of its nibbles. -/
def Core.lmMerge (c : Core) (a : Nat) (x mask : Byte) : Core :=
  c.lmStore a [(BitVec.ofNat 8 (c.lmRead a 1) &&& ~~~mask) ||| (x &&& mask)]
/-- A remote LM byte, if R247 admits it; a drop is counted at the destination. -/
def State.copyRemote (s : State) (l : Option Nat) (dst a : Nat) (x mask : Byte) : State × CopyWrote :=
  if s.hosts dst l && Core.remoteOk s (s.coreAt dst) l (a / 512) then (s.updCore dst (·.lmMerge a x mask), .ok)
  else (s.updDie (dieOf dst) (fun d => { d with droppedWrites := d.droppedWrites + 1 }), .stop (.status 2 0 false))
/-- Writes entries in order until none is left or one stops: the entries and output bytes written. -/
def State.copyWrite (core tn : Nat) (l : Option Nat) : Nat → State → List CopyOut → State × CopyWrote × Nat × Nat
  | 0, s, _ => (s, .ok, 0, 0)
  | _, s, [] => (s, .ok, 0, 0)
  | fuel + 1, s, o :: rest =>
    let d := dieOf core
    let more := fun (s : State) (k b : Nat) =>
      let r := State.copyWrite core tn l fuel s ((o :: rest).drop k)
      (r.1, r.2.1, r.2.2.1 + k, r.2.2.2 + b)
    match o.dst with
    | .lm a => more (s.updCore core (·.lmMerge a o.x o.mask)) 1 1
    | .remote c a =>
      match s.copyRemote l c a o.x o.mask with
      | (s, .ok) => more s 1 1
      | (s, w) => (s, w, 0, 0)
    | .glob a =>
      if 2 ^ 56 ≤ a then (s, .stop (.status 1 0 false), 0, 0)
      else if o.mask = 0xFF then
        let r := takeLine (a / 256) (o :: rest)
        match s.sliceWrite d tn (a / 256) a .write r.1 r.2.1 true with
        | (s, .ok) => more s r.2.2 r.2.2
        | (s, e) => (s, .stop (copyEnd a 1 e), 0, 0)
      else
        match s.nibbleMerge d tn a o.x o.mask with
        | (s, .ok) => more s 1 1
        | (s, e) => (s, .stop (copyEnd a 1 e), 0, 0)
/-- A fault of the engine: a record with agent 2, unless the tenancy has no usable fault queue (R149, R160). -/
def State.copyFault (s : State) (core : Nat) (x : CopyCmd) (va kind level access : Nat) (pte : Word) : State :=
  let tn := (x.owner.map (·.2)).getD 0
  if s.noFaultQueue tn then s else { s with faults := s.faults ++ [⟨tn, va, 0, core, 15, kind, access, 2, level, pte, false, none⟩] }
/-- The head command meets what stops it; one that XCAN has marked keeps its status (R333). -/
def State.copyStop (s : State) (core : Nat) (x : CopyCmd) (e : CopyEnd) : State :=
  let ends := fun (e : CopyEnd) => { x with out := [], stop := if x.marked then .status 9 0 false else e, part := none, ends := none }
  match e with
  | .status _ _ _ => s.setCopy core (ends e)
  | .page va k l a p => (s.copyFault core x va k l a p).setCopy core (ends (.status 1 0 false))
  | .hold va w => s.setCopy core { x with held := some (va, w) }
/-- An entry that R137 forbids as the core stands: its LM row, or a scale that goes with it (R138, R327). -/
def CopyCmd.entryBad (x : CopyCmd) (k : Core) (o : CopyOut) : Bool := x.rowBad k o.row || o.scales.any (fun e => (k.lmCheck 15 true e.1 1).isSome)
/-- The flags of some entries that have been written. -/
def CopyCmd.flagsWith (x : CopyCmd) (l : List CopyOut) : Word := l.foldl (fun (a : Word) o => a ||| o.flags) x.flags
/-- Writes the scales that go with some entries; with them the LM bytes of a stripe are all in, and the parked counters are re-tested (R142). -/
def Core.putScales (c : Core) (l : List CopyOut) : Core := ((l.flatMap CopyOut.scales).foldl (fun c e => c.lmStore e.1 (bytesOfNat 1 e.2)) c).testCounters
/-- The counters parked at the cores that a stripe has written are re-tested (R142, R212). -/
def State.testRemote (s : State) (l : List CopyOut) : State :=
  { s with cores := s.cores.map (fun e => (e.1, if l.any (fun o => match o.dst with | .remote c _ => c == e.1 | .lm _ | .glob _ => false) then e.2.testCounters else e.2)) }
/-- COPY_STRIPE (R327, R331): the next stripe of the output is written, with the scales and flags that belong to what is written; with the output
written, a fault or a hold that stood behind it is met.  An XPUT sends its output instead, in one put. -/
def execCopyStripe (core : Nat) (s : State) : Res :=
  match (s.coreAt core).cq with
  | [] => .next s
  | x :: _ =>
    let waits := match x.held with
      | some (_, .migrate) => true
      | some (_, .other) | none => false
    if !x.started || waits || x.put ≠ 0 then .next s
    else if (s.coreAt core).badCopy then
      .next ((s.updCore core (fun c => { c with badCopy := false })).copyStop core { x with held := none } (.status 4 0 false))
    else if x.out.isEmpty || x.fn = 2 then
      match x.stop with
      | .page va k l a p => .next (s.copyStop core x (.page va k l a p))
      | .hold va w =>
        if w = .migrate then .next s
        else
          let p := x.plan core s
          let y := x.planned p
          if y.out.isEmpty && y.stop = .hold va .other then .next s else .next (p.1.s.setCopy core y)
      | .status st _ _ =>
        if x.fn = 2 && (st = 0 || st = 7) then
          let pkg := bits x.w0 63 54
          if pkg ≠ s.hub.pkg && !s.hub.podAvail.contains pkg then .next (s.setCopy core { x with out := [], stop := .status 3 0 false })
          else
            if x.out.any (x.entryBad (s.coreAt core)) then .next (s.setCopy core { x with out := [], stop := .status 2 0 false })
            else
              .next ({ s.updCore core (·.putScales x.out) with puts := s.puts ++ [(core, x.id)] }.setCopy core
                { x with put := 1, flags := x.flagsWith x.out })
        else if x.out.isEmpty then .next s
        else .next (s.setCopy core { x with out := [] })
    else
      match x.out with
      | [] => .next s
      | o :: _ =>
        let chunk := (frontStripe x.out).takeWhile (fun y => !x.entryBad (s.coreAt core) y)
        if chunk.isEmpty then .next (s.copyStop core x (.status 2 0 false))
        else
          let tn := (x.owner.map (·.2)).getD 0
          let r := State.copyWrite core tn (x.owner.map (·.1)) chunk.length s chunk
          let written := x.out.take r.2.2.1
          let rest := x.out.drop r.2.2.1
          let y := { x with out := rest, pos := x.pos + r.2.2.1, done := x.done + r.2.2.2, flags := x.flagsWith written, held := none }
          let inside := ((rest.head?).or (y.nextOut (s.coreAt core))).any (fun e => e.unit == o.unit) && (x.part.isSome || r.2.2.1 != 0)
          let y := { y with part := if inside then some o.unit else none }
          let s' := (r.1.updCore core (·.putScales written)).testRemote written
          match r.2.1 with
          | .ok => .next (s'.setCopy core y)
          | .stop (.hold va w) => if x.held = some (va, w) && r.2.2.1 = 0 then .next s else .next (s'.copyStop core y (.hold va w))
          | .stop e => .next (s'.copyStop core y e)
/-- The least VA that a command still writes; while a read is held, XAXB goes on where it has stopped. -/
def CopyCmd.leastLeft (x : CopyCmd) : Option Nat :=
  let l := x.out.filterMap (fun o => match o.dst with
    | .glob a => some a
    | .lm _ | .remote _ _ => none)
  argMin (fun (a : Nat) => a) (if l.isEmpty && x.fn = 3 && x.reading then [x.dstStart 0 / 8 + x.pos] else l)
/-- CLAIM_END (R225): the claims of the running command end below the least line that it still writes, and all of them once it writes no more. -/
def execClaimEnd (core : Nat) (s : State) : Res :=
  match (s.coreAt core).cq with
  | [] => .next s
  | x :: _ =>
    if !x.started then .next s
    else
      match x.leastLeft with
      | some a =>
        let up := a / 256 * 256
        let mine := fun (c : Claim) => c.core == core && c.cmd == x.id && c.upto < up
        if (s.dieAt (dieOf core)).claims.any mine then
          .next (s.updDie (dieOf core) (fun d => { d with claims := d.claims.map (fun c => if mine c then { c with upto := up } else c) })).retryHeld
        else .next s
      | none => .next (s.dropClaims core x.id)

/-! ### Completion (R329, R330) -/

/-- A completion message to a thread of a core: a posted write of t15, which waits for no credit (R199, R253). -/
def State.sendCompletion (s : State) (core thread tag : Nat) (owner : Option (Nat × Nat)) (payload : Word) : State :=
  let c := s.coreAt core
  let hdr := word (3 + core * 2 ^ 4 + 15 * 2 ^ 18 + c.copyDone.toNat % 2 ^ 16 * 2 ^ 22 + thread * 2 ^ 38 + tag * 2 ^ 42)
  let tn := (owner.map (·.2)).getD (c.thr thread).ctl.tenancy.toNat
  let s := s.updCore core (fun c => { c with out := c.out ++ [⟨s.nextId, 15, (c.thr 15).placedAt, core⟩] })
  { s with net := s.net ++ [⟨s.nextId, core, 15, core, tn, s.hub.now, owner.map (·.1), .message ⟨hdr, payload, 0xFFFFFFFF, 0, tn⟩, .flight⟩], nextId := s.nextId + 1 }
/-- The payload of a completion. -/
def completionPayload (st detail : Nat) (short : Bool) (flags : Word) (done : Nat) : Word :=
  word (st * 2 ^ 60 + short.toNat * 2 ^ 59 + flags.toNat % 64 * 2 ^ 53 + detail % 2 ^ 21 * 2 ^ 32 + done % 2 ^ 32)
/-- A command leaves the engine with its status: its message, the counts, its claims, and the waiters for an entry. -/
def State.finishCopy (s : State) (core : Nat) (x : CopyCmd) (st detail : Nat) (short : Bool) : State :=
  let s := s.sendCompletion core x.tthread x.tag x.owner (completionPayload st detail short x.flags x.done)
  let s := s.updCore core (fun c => ({ c with
    cq := c.cq.filter (fun y => y.id ≠ x.id), copyDone := c.copyDone + 1, copyFailed := if st = 0 then c.copyFailed else c.copyFailed + 1 } : Core).wakeEngines)
  s.dropClaims core x.id
/-- The guest bytes that a command wrote are written home (R228): none while a claim, a full set or memory that is not ready holds one. -/
def State.releaseRange (s : State) (core : Nat) (x : CopyCmd) : Option State :=
  match x.range, x.owner with
  | some (lo, hi), some (_, tn) =>
    let d := dieOf core
    let ls := (((s.dieAt d).linesIn tn lo (hi - lo)).filterMap (fun n => (s.dieAt d).llcFind tn n)).filter (fun l =>
      s.isGuest d l.pa && s.guestDirty l)
    let s' := ls.foldl (fun (s : State) l => s.cleanLine d tn l.line) s
    if x.done = 0 then some s else if s'.jam then none else some s'
  | _, _ => some s
/-- Nothing of a command that ends with a status is left to do: its output is written and its put, if it made one, is answered. -/
def CopyCmd.over (x : CopyCmd) (st : Nat) : Bool := x.out.isEmpty && (x.fn != 2 || x.put == 2 || (x.put == 0 && st != 0 && st != 7))
/-- COPY_COMPLETION (R329, R330): the head command has ended, its writes are performed, and its put, if any, is answered. -/
def execCopyCompletion (core : Nat) (s : State) : Res :=
  match (s.coreAt core).cq with
  | [] => .next s
  | x :: _ =>
    match x.stop with
    | .status st detail short =>
      if !x.started || !x.over st then .next s
      else
        match s.releaseRange core x with
        | none => .next s
        | some s => .next (s.finishCopy core x st detail short)
    | .page _ _ _ _ _ | .hold _ _ => .next s

/-! ### Puts (R220 to R222) -/

/-- The window record of a number; one that nothing has written is closed. -/
def Hub.window (h : Hub) (n : Nat) : WinRec := (getKey h.winTab n).getD ⟨0, 0, 0, 0, 0, 0⟩
/-- An offset range lies in an open window of a tenancy. -/
def WinRec.admits (w : WinRec) (tn lo n : Nat) : Bool := w.state == 1 && w.tenancy == tn && lo + n ≤ w.len
/-- The bytes of a put: offset within the window, value, and the nibbles it writes. -/
abbrev PutBytes := List (Nat × Byte × Byte)
/-- The put's accepted bytes are performed: as a store at each byte's home slice, a nibble as a merge there; else the VA that stops it. -/
def putBytes (tn base : Nat) : PutBytes → State → State × Option (Nat × Ans)
  | [], s => (s, none)
  | (a, x, mask) :: l, s =>
    let va := base + a
    let r := if mask = 0xFF then s.storeHome 0 tn va 1 x.toNat
      else let q := s.atomic 0 tn va 1 .pkg (fun m => ((BitVec.ofNat 8 m &&& ~~~mask) ||| (x &&& mask)).toNat); (q.1, q.2.1)
    match r with
    | (s, .ok) => putBytes tn base l s
    | (s, e) => (s, some (va, e))
/-- The bytes that an XPUT puts. -/
def CopyCmd.putOut (x : CopyCmd) : PutBytes := x.out.filterMap (fun o => match o.dst with
  | .glob a => some (a, o.x, o.mask)
  | .lm _ | .remote _ _ => none)
/-- Adds 1 to a counter word of an LM, as one write. -/
def Core.countUp (c : Core) (a : Nat) : Core := c.lmWrite a 8 ((c.lmRead a 8 + 1) % 2 ^ 64)
/-- What becomes of a put at its target package. -/
inductive PutAns where
  | accepted (s : State)
  | rejected
  /-- A slice holds the byte at a VA. -/
  | waits (va : Nat) (why : Hold)
/-- A put at this package (R221): a put with a byte that cannot be stored is rejected.  DESIGN CHOICE (log 58): R220 asks that ctr name a word of a data block
and gives no outcome for another block; the word is counted up whatever its block is. -/
def State.putHere (s : State) (tn win : Nat) (l : PutBytes) : PutAns :=
  let w := s.hub.window win
  if !w.admits tn 0 0 || l.any (fun e => !w.admits tn e.1 1) then .rejected
  else
    match putBytes tn w.base l s with
    | (s, none) => .accepted (s.updCore w.core (·.countUp w.ctr))
    | (_, some (va, .hold w)) => .waits va w
    | _ => .rejected
/-- PUT_ARRIVAL (R221): a put of another package reaches a window of this one through a port that is up (R404), with its bytes by their
distance from an offset, each under a mask of nibbles (R322, R327); at a migrating leaf it is held until op 2 or 3 (R167). -/
def execPutArrival (tn win off : Nat) (bytes : PutBytes) (s : State) : Res :=
  if s.hub.allDown.isSome || s.hub.waitsAt (.put tn win off bytes) then .next s
  else
    match s.putHere tn win (bytes.map (fun e => (off + e.1, e.2))) with
    | .accepted s => .next s
    | .rejected => .next s
    | .waits va w => .next (s.hubWait (.put tn win off bytes) tn va w)
/-- The put of a command is answered: an accepted one advances the source counter (R221, R330), if R137 still permits t15 to write it (R138); a
command that XCAN has marked keeps its status (R333). -/
def State.putAnswered (s : State) (core : Nat) (x : CopyCmd) (ok : Bool) : State :=
  let ends := fun (st : Nat) => if x.marked then .status 9 0 false else .status st 0 false
  if !ok then s.setCopy core { x with out := [], put := 2, stop := ends 8, held := none }
  else
    let y := { x with out := [], put := 2, done := x.out.length, held := none }
    if ((s.coreAt core).lmCheck 15 true x.scnt 8).isSome then s.setCopy core { y with stop := ends 2 }
    else (s.updCore core (·.countUp x.scnt)).setCopy core y
/-- PUT_ACK (R221): the n-th put is answered: by this package's own windows if it is the target, and otherwise as the target says, through a port
that is up (R404).  At a migrating leaf it is held until op 2 or 3 of the migration (R167). -/
def execPutAck (n : Nat) (ok : Bool) (s : State) : Res :=
  match s.puts[n]? with
  | none => .next s
  | some (core, id) =>
    let s' := { s with puts := dropAt s.puts n }
    match (s.coreAt core).cq with
    | [] => .next s'
    | x :: _ =>
      if x.id ≠ id then .next s'
      else if bits x.w0 63 54 ≠ s.hub.pkg then (if s.hub.allDown.isSome then .next s else .next (s'.putAnswered core x ok))
      else if x.held.any (fun h => h.2 == .migrate) then .next s
      else
        match s'.putHere ((x.owner.map (·.2)).getD 0) x.win x.putOut with
        | .accepted s' => .next (s'.putAnswered core x true)
        | .rejected => .next (s'.putAnswered core x false)
        | .waits va .migrate => .next (s.setCopy core { x with held := some (va, .migrate) })
        | .waits _ .other => .next s

/-! ### XSTAT, XCAN (R332, R333) -/

/-- XSTAT (R332). -/
def execXstat (a : Reg) (s : State) : Res :=
  onCopyThread s fun _ =>
  if s.det then s.trap orderDependent 0
  else
    let q := s.cur.cq
    let run := match q with
      | x :: _ => if x.started then x.done % 2 ^ 32 * 2 ^ 32 + x.tthread * 2 ^ 12 + x.fn * 2 ^ 8 + 8 else 0
      | [] => 0
    let puts := (q.filter (fun x => x.fn == 2 && x.put != 2)).length
    let c := s.cur
    ((((s.wr a (word (run + q.length))).wr (a + 1) c.copyDone).wr (a + 2) c.copyFailed).wr (a + 3) (word puts)).next 4
/-- A selector matches a command. -/
def CopyCmd.selected (x : CopyCmd) (sel : Word) : Bool := sel.getLsbD 12 || (bits sel 11 4 == x.tag && bits sel 3 0 == x.tthread)
/-- XCAN (R333): commands that have not started leave the queue at once; the running one stops at its next stripe boundary, or once its put is
answered. -/
def execXcan (a : Reg) (s : State) : Res :=
  onCopyThread s fun _ =>
  let sel := s.rd a
  guardTrap s (trapIf (bits sel 63 13 ≠ 0) operandInvalid sel) fun _ =>
  let ended := fun (x : CopyCmd) => match x.stop with
    | .status st _ _ => x.over st
    | .page _ _ _ _ _ | .hold _ _ => false
  let s := s.updCur (fun c => { c with cq := c.cq.map (fun x => if x.started && x.selected sel && !ended x then x.cancel else x) })
  let gone := s.cur.cq.filter (fun x => !x.started && x.selected sel)
  (gone.foldl (fun (s : State) x => s.finishCopy s.core x 9 0 false) s).next 4

/-! ### The copy thread (R314, R315) -/

/-- Empties l16 to l31, which keep their data (R243), writes the copy program area and restarts t15 with the state of R44. -/
def State.restartCopy (s : State) (core : Nat) (program : List Byte) (by_ : Option Nat) : State :=
  s.updCore core (fun c =>
    let c := ({ c.abandon 15 with mq := c.mq.filter (fun m => m.tid ≠ 15) } : Core).wakeEngines
    let c := { c with
      landing := vecMap (fun i (x : LandReg) => if 16 ≤ i then { x with full := false, fillAt := if x.full then c.cyc.toNat + 1 else x.fillAt } else x)
        c.landing,
      badLand := c.badLand.filter (· < 16), badThread := c.badThread.filter (·.1 ≠ 15), copyProg := by_ }
    let c := c.lmPut 0x3F000 program
    (c.setThr 15 { Thread.copy with readyAt := c.cyc.toNat, sendCount := (c.thr 15).sendCount, placedAt := c.order }).refill 15)
/-- The shipped copy program area. -/
def shippedProgram : List Byte := (List.range 4096).map (fun i => lmDefault (0x3F000 + i))
/-- COPY_THREAD_RESTART (R315): t15 has stopped on a trap that it could not take, or on damage to its state. -/
def execCopyThreadRestart (core : Nat) (s : State) : Res :=
  let c := s.coreAt core
  let t := c.thr 15
  if t.status ≠ .stopped .hub then .next s
  else
    let s := s.updHub (fun h => { h with copyRestarts := h.copyRestarts + 1 })
    let s := match c.copyProg.bind s.launchAt with
      | none => s
      | some l =>
        (s.stopRecord ⟨l.tn, t.ctl.trappc.toNat, bits t.ctl.trapcause 7 0, core, 15, 9, 0, 0, 0, t.ctl.trapval, false, some l.lnum⟩).abortLaunch l.lnum 3
    let s := [21, 29].foldl (fun (s : State) i =>
      let l := c.land i
      if l.full then s.sendCompletion core (bits l.data 3 0) (bits l.data 11 4) (c.ownerOf (bits l.data 3 0)) (completionPayload 9 0 false 0 0) else s) s
    .next (s.restartCopy core shippedProgram none)
/-- COPY_PROGRAM_REINSTALL (R314): no task of the installing launch remains on the core. -/
def execCopyProgramReinstall (core : Nat) (s : State) : Res :=
  match (s.coreAt core).copyProg with
  | none => .next s
  | some l => if s.remains core l then .next s else .next (s.restartCopy core shippedProgram none)

end Sys2Proof.Machine
end

