-- ==== Sys2Proof/Machine/Threads.lean ====
section
/-! DEFINITION. The THRD group: YIELD, PARK and WAKE (R54 to R57), the deque instructions (R353 to R360), TRET, DQNEXT and LAUNCH (R355,
R356, R361). -/

namespace Sys2Proof.Machine

/-! ### YIELD, PARK, WAKE -/

/-- YIELD (R54). -/
def execYield (s : State) : Res := s.next 16
/-- PARK (R55). -/
def execPark (s : State) : Res := if s.thr.wake then (s.updThr (fun t => { t with wake := false })).next 2 else s.park .wake
/-- WAKE (R57): a local one is delivered at once, and its drop is recorded at once. -/
def execWake (a : Reg) (s : State) : Res :=
  let x := s.rd a
  let c := bits x 17 4
  let t := bits x 3 0
  guardTrap s (trapIf (bits x 63 18 ≠ 0 || 9215 < c) operandInvalid x) fun _ =>
  if c = s.core then
    match s.wakeTarget c t s.curLaunch with
    | (s, none) => s.next 2
    | (s, some r) =>
      ((s.updDie (dieOf c) (fun d => { d with droppedWrites := d.droppedWrites + 1 })).updThr
        (fun y => { y with drops := y.drops ++ [⟨3, r, t, c⟩] })).next 2
  else withCredit s fun s => (s.send c (.wake t)).next 2

/-! ### Operands (R353, R354) -/

/-- The alignment check of an LM record or packet operand. -/
def recAlign (a : Word) (n : Nat) : Option TrapOf := trapIf (a.toNat % n ≠ 0) misalignment a
/-- The protection check of an LM record or packet operand. -/
def recProtect (s : State) (write : Bool) (a : Word) (n : Nat) : Option TrapOf :=
  firstTrap [trapIf (0x40000 - n < a.toNat) lmProtection a, s.lmTrap write a.toNat n]
/-- A record read from LM with lo ≥ hi or a nonzero reserved field; what a damaged record holds is not known. -/
def recContent (s : State) (a : Word) : Option TrapOf :=
  trapIf ((s.cur.lmBad a.toNat 32).isNone && (s.cur.lmRead (a.toNat + 8) 4 ≤ s.cur.lmRead (a.toNat + 4) 4 || s.cur.lmRead (a.toNat + 12) 4 ≠ 0)) operandInvalid a
/-- A victim or target word (R353). -/
def coreWordTrap (s : State) (t : Word) : Option TrapOf :=
  let c := bits t 17 4
  let outside := match s.curLaunch.bind s.launchAt with
    | some l => l.pkt.flags.testBit 3 && !inRect l.pkt.rect c
    | none => false
  trapIf (rputBad t || dieOf c ≠ dieOf s.core || outside) operandInvalid t
/-- The trap of the deque instructions under deterministic operation (R354). -/
def detTrap (s : State) : Option TrapOf := trapIf s.det orderDependent 0
/-- The record that LM holds at an address, as a record of a launch. -/
def recAt (s : State) (a : Nat) (l : Launch) : TaskRec :=
  let r := fun o n => s.cur.lmRead (a + o) n
  ⟨(s.thr.task.map (·.tag)).getD (l.tag.getD 0), l.lnum, r 4 4, r 8 4, word (r 16 8), word (r 24 8)⟩
/-- The bytes of a record (R346). -/
def TaskRec.bytes (r : TaskRec) : List Byte :=
  bytesOfNat 2 r.tag ++ bytesOfNat 2 r.lnum ++ bytesOfNat 4 r.lo ++ bytesOfNat 4 r.hi ++ bytesOfNat 4 0 ++ bytesOfNat 8 r.fmtp.toNat ++
  bytesOfNat 8 r.sclp.toNat
/-- The launch of the current thread. -/
def State.myLaunch (s : State) : Option Launch := s.curLaunch.bind s.launchAt

/-! ### Deque instructions -/

/-- DQPUSH (R357). -/
def execDqpush (d a : Reg) (s : State) : Res :=
  let x := s.rd a
  guardTrap s (firstTrap [recAlign x 32, recProtect s false x 32, recContent s x, detTrap s, s.lmDamage x.toNat 32]) fun _ =>
  match s.myLaunch with
  | none => (s.wr d 0).next 4
  | some l =>
    if 64 ≤ s.cur.deque.length then (s.wr d 0).next 4
    else
      let r := recAt s x.toNat l
      (((s.updCur (·.pushRec r)).addCount l.lnum (dieOf s.core) ((r.hi : Int) - r.lo)).wr d 1).next 4
/-- DQPOP (R357). -/
def execDqpop (d a : Reg) (s : State) : Res :=
  let x := s.rd a
  guardTrap s (firstTrap [recAlign x 32, recProtect s true x 32, detTrap s]) fun _ =>
  match s.curLaunch.bind (fun l => s.cur.ownRec l) with
  | none => (s.wr d 0).next 4
  | some r =>
    let s := s.updCur (fun c => ({ c with deque := replaceRec r.lnum [] c.deque } : Core).lmPut x.toNat r.bytes)
    ((s.addCount r.lnum (dieOf s.core) (-((r.hi : Int) - r.lo))).wr d 1).next 4
/-- DQSPLIT (R358). -/
def execDqsplit (d : Reg) (s : State) : Res :=
  guardTrap s (detTrap s) fun _ =>
  match s.curLaunch.bind (fun l => s.cur.ownRec l) with
  | none => (s.wr d 0).next 4
  | some r =>
    let m := r.hi - r.lo
    if 2 ≤ m && s.cur.deque.length < 64 then
      let mid := r.lo + (m + 1) / 2
      ((s.updCur (fun c => { c with deque := replaceRec r.lnum [{ r with hi := mid }] c.deque ++ [{ r with lo := mid }] })).wr d
        (word (m / 2))).next 4
    else (s.wr d 0).next 4
/-- DQSTEAL (R359): the steal is performed when the steal network answers. -/
def execDqsteal (d a : Reg) (s : State) : Res :=
  let t := s.rd a
  guardTrap s (firstTrap [coreWordTrap s t, detTrap s]) fun _ =>
  asked [] s fun s =>
  match s.curLaunch with
  | none => (s.wr d 0).next 4
  | some l =>
    let r := s.steal s.core (bits t 17 4) l
    (r.1.wr d (word r.2)).next 4
/-- TSEND (R360). -/
def execTsend (a b : Reg) (s : State) : Res :=
  let x := s.rd a
  let t := s.rd b
  guardTrap s (firstTrap [recAlign x 32, coreWordTrap s t, recProtect s false x 32, recContent s x, detTrap s, s.lmDamage x.toNat 32]) fun _ =>
  withCredit s fun s =>
  match s.myLaunch with
  | none => s.next 4
  | some l =>
    let r := recAt s x.toNat l
    ((s.addCount l.lnum (dieOf s.core) ((r.hi : Int) - r.lo)).send (bits t 17 4) (.record r)).next 4

/-! ### TRET, DQNEXT, LAUNCH -/

/-- The drain of R355: every RED performed and every remote write of the context acknowledged. -/
def drainAll (s : State) (k : State → Res) : Res :=
  afterReds .drain s fun s => if !(s.myWrites (fun _ => true)).isEmpty then s.park .drain else k s
/-- The current task ends: its drop records are discarded, its queued messages are redirected, the count falls, and it has retired (R355). -/
def State.retireTask (s : State) (k : Task) : State :=
  let s := s.updThr (fun t => { t with drops := [] })
  let s := s.redirectQueued s.core s.tid
  let i := s.thr.ctl.taskid.toNat
  (s.addCount k.lnum (dieOf s.core) (-1)).updLaunch k.lnum (fun y => { y with retired := i :: y.retired })
/-- TRET (R355): a thread without a task, t15, only goes on; a thread that becomes Free ends the mark of its launch (R350). -/
def execTret (s : State) : Res :=
  let s := s.updCtl (fun c => { c with trapcause := c.trapcause &&& ~~~(1 <<< 63 : Word) })
  drainAll s fun s =>
  afterPushes s fun s =>
  match s.thr.task with
  | none => s.next 4
  | some k =>
    let s := s.retireTask k
    match s.det, k.todo, s.launchAt k.lnum with
    | true, i :: rest, some l =>
      let s := (s.complete 4)
      .next (s.place s.core s.tid l s.thr.ctl.kslot.toNat i l.pkt.fmtp l.pkt.sclp rest)
    | _, _, _ =>
      let s := s.complete 4
      let s := s.updThr (fun t => { t with status := .free, task := none, handles := Vector.replicate 8 none })
      .next ((s.unmark s.core (some k.lnum)).releaseHolders s.core k.lnum)
/-- DQNEXT (R356). -/
def execDqnext (d : Reg) (s : State) : Res :=
  drainAll s fun s =>
  let go := fun (s : State) (k : Task) (l : Launch) (i : Nat) (fmtp sclp : Word) (todo : List Nat) =>
    let s := s.retireTask k
    let s := s.updThr (fun t => { t with
      ctl := t.ctl.setTask l t.ctl.kslot.toNat i fmtp sclp, wake := false, task := some { k with todo := todo } })
    (s.wr d 1).next 4
  match s.thr.task with
  | none => (s.wr d 0).next 4
  | some k =>
    match s.launchAt k.lnum with
    | none => (s.wr d 0).next 4
    | some l =>
      if s.det then
        match k.todo with
        | [] => (s.wr d 0).next 4
        | i :: rest => go s k l i l.pkt.fmtp l.pkt.sclp rest
      else
        match s.cur.ownRec k.lnum with
        | none => (s.wr d 0).next 4
        | some r => go (s.updCur (·.takeTask r)) k l r.lo r.fmtp r.sclp []
/-- LAUNCH (R361): the release comes first, and the packet reaches its queue when the hub answers. -/
def execLaunch (d a b : Reg) (s : State) : Res :=
  let x := s.rd a
  let q := s.rd b
  guardTrap s (firstTrap [recAlign x 64, trapIf (16383 < q.toNat) operandInvalid q, recProtect s false x 64, detTrap s, s.lmDamage x.toNat 64]) fun _ =>
  match if s.thr.progress.ask = .none then s.release (dieOf s.core) false else some s with
  | none => s.park .drain
  | some s =>
    asked [] s fun s =>
    let p := parsePacket (s.cur.lmBytes x.toNat 64)
    if (s.hub.queue q.toNat).tenancy ≠ s.tn then (s.wr d 0x8000000000000000).next 4
    else
      match s.submit q.toNat (some p) with
      | (s, some n) => (s.wr d (word n)).next 4
      | (s, none) => (s.wr d 0x8000000000000000).next 4

end Sys2Proof.Machine
end

