-- ==== Sys2Proof/Machine/Versions.lean ====
section
/-! DEFINITION. Versioned memory (R265 to R272), the VN group (R273 to R279), antler tensors (R280 to R282), the ATN group (R283 to R288), and
the performance of posted reductions (R233, R239, R274). -/

namespace Sys2Proof.Machine

/-! ### Regions and version states (R265, R268) -/

/-- The number of the newest version (R272). -/
abbrev newestVersion : Nat := 0xFFFFFFFF
/-- The states of a version, as VNSTAT numbers them (R278). -/
inductive VState where
  | absent
  | open (due : Nat)
  | sealed
  | reclaimed
deriving DecidableEq, Repr
/-- The slot of a version. -/
def VRegion.slot (r : VRegion) (v : Nat) : Nat := v % max 1 r.k
/-- The state of a version. -/
def VRegion.stateOf (r : VRegion) (v : Nat) : VState :=
  if v < r.oldest ∨ (v = r.oldest ∧ r.reclaiming = true) then .reclaimed
  else if v ≤ r.sealed then .sealed
  else if v ≤ r.opened then .open ((r.due[r.slot v]?).getD 0)
  else .absent
/-- The least version that a read may take. -/
def VRegion.lowest (r : VRegion) : Nat := if r.reclaiming then r.oldest + 1 else r.oldest
/-- The live region of a tenancy that covers a VA, with its key. -/
def Hub.vfind (h : Hub) (tn va : Nat) : Option ((Nat × Nat) × VRegion) :=
  h.vregions.find? (fun e => e.1.1 == tn && e.2.live && e.2.base ≤ va && va < e.2.base + e.2.len)
/-- Changes a region record. -/
def State.updVRegion (s : State) (key : Nat × Nat) (f : VRegion → VRegion) : State :=
  s.updHub (fun h => { h with vregions := h.vregions.map (fun e => if e.1 = key then (e.1, f e.2) else e) })
/-- The number that tells regions apart in a park. -/
def regionKey (key : Nat × Nat) : Nat := key.1 * 64 + key.2
/-- Threads parked on a region's versions look again. -/
def State.wakeVersions (s : State) (key : Nat × Nat) : State :=
  s.wakeIf (fun _ _ w => match w with
    | .version rec _ => rec == regionKey key
    | _ => false)

/-! ### Lines (R266, R269) -/

/-- The line number of a VA in a region. -/
def VRegion.line (r : VRegion) (va : Nat) : Nat := (va - r.base) / 256
/-- The address of a tag. -/
def VRegion.tagAt (r : VRegion) (j slot : Nat) : Nat := r.tagpa + 4 * (j * r.k + slot)
/-- The version whose slot a read of version `u` takes: `n` more versions may be looked at.  DESIGN CHOICE (log 58): a tag is read, and below written, as
sound and ready memory, whatever its sector is. -/
def State.vsource (s : State) (r : VRegion) (j : Nat) : Nat → Nat → Nat
  | 0, u => u
  | n + 1, u => if s.dramRead (r.tagAt j (r.slot u)) 4 = u then u else s.vsource r j n (u - 1)
/-- The version whose data a line of version `u` has. -/
def State.vread (s : State) (r : VRegion) (j u : Nat) : Nat := s.vsource r j (u - r.oldest) u
/-- The physical line of a slot, from the line's address in slot 0. -/
def slotPa (pa slot : Nat) : Nat := pa / 256 * 256 + slot * 2 ^ 19
/-- The newest version for a line of a read that issued at `s0` (R272). -/
def State.newest (s : State) (r : VRegion) (s0 : Nat) : State × Nat :=
  let lo := max s0 r.lowest
  if r.sealed ≤ lo then (s, r.sealed)
  else ({ s with fresh := s.fresh + 1 }, lo + Config.newestChoice s.fresh % (r.sealed - lo + 1))
/-- The die of a VA's home slice (R267), which translates the VA; where the table gives no page of this package the die that asks reports it. -/
def State.versionDie (s : State) (d tn va : Nat) : Nat :=
  match s.walk tn va with
  | .leaf _ _ p => if s.isOwn (ptePa p) then paDie (ptePa p) else d
  | .hold _ | .fault _ _ _ => d
/-- Translates a VA for a versioned access at its home slice (R267). -/
def State.vtranslate (s : State) (d tn va : Nat) (acc : Access) (k : Nat) : State × Tr := s.translate (s.versionDie d tn va) tn va acc (some k)
/-- Reads sectors of the 256-byte line of a VA in version `u` at its home slice (R267); the answer is the line. -/
def State.vline (s : State) (d tn va : Nat) (secs : List Nat) (u : Nat) (r : VRegion) : State × Ans × VReg :=
  match s.vtranslate d tn va .read r.k with
  | (s, .ok pa key) =>
    let a := slotPa pa (r.slot (s.vread r (r.line va) u))
    if !s.hub.memReady a then (s, .hold .other, 0)
    else if secs.any (fun i => s.sectorBad (a + 64 * i)) then (s, .trap dataError (word va), 0)
    else (s, .ok, s.lineRead a key)
  | (s, t) => (s, t.ans, 0)
/-- The line whose bytes a line of version `v` has until it is Written there (R269). -/
def State.forwardFrom (s : State) (r : VRegion) (j pa v : Nat) : Nat := slotPa pa (r.slot (s.vread r j (v - 1)))
/-- A line is Inherited in version `v`, and what it would be copied from is damaged. -/
def State.forwardBad (s : State) (r : VRegion) (j pa v : Nat) : Bool :=
  decide (s.dramRead (r.tagAt j (r.slot v)) 4 ≠ v) && s.lineBad (s.forwardFrom r j pa v)
/-- Copies a line forward into version `v` if it is Inherited there (R269). -/
def State.copyForward (s : State) (key : Nat × Nat) (r : VRegion) (j pa kidx v : Nat) : State :=
  if s.dramRead (r.tagAt j (r.slot v)) 4 = v then s
  else
    let x := s.lineRead (s.forwardFrom r j pa v) kidx
    let s := s.lineWrite (slotPa pa (r.slot v)) kidx x [0, 1, 2, 3]
    (s.dramWrite (r.tagAt j (r.slot v)) 4 v).updVRegion key (fun r => { r with forwarded := r.forwarded + 1 })
/-- A write of `n` bytes into version `v` at the home slice (R269, R274); a refusal carries `refuse`, and damaged data are a *data error* (R287).  DESIGN
CHOICE (log 58): the state of the version is looked at before the page. -/
def State.versionWrite (s : State) (d tn va n v : Nat) (acc : Access) (refuse : Word) (f : Nat → Nat) : State × Ans :=
  match s.hub.vfind tn va with
  | none => (s, .trap operandInvalid (word va))
  | some (key, r) =>
    match r.stateOf v with
    | .absent | .sealed | .reclaimed => (s, .trap operandInvalid refuse)
    | .open _ =>
      if r.sealed + 1 < v then (s, .hold .other)
      else
        match s.vtranslate d tn va acc r.k with
        | (s, .ok pa kidx) =>
          let j := r.line va
          let a := slotPa pa (r.slot v)
          if !s.hub.memReady a || !s.hub.memReady (s.forwardFrom r j pa v) then (s, .hold .other)
          else if s.forwardBad r j pa v || (s.copyForward key r j pa kidx v).sectorBad (a + va % 256) then (s, .trap dataError (word va))
          else
            let s := s.copyForward key r j pa kidx v
            let x := s.lineRead a kidx
            let m := x.toNat / 2 ^ (8 * (va % 256)) % 2 ^ (8 * n)
            let mask := maskRange (va % 256) n
            (s.lineWrite a kidx (overlay mask x (placeAt (va % 256) n (f m))) (maskSectors mask), .ok)
        | (s, t) => (s, t.ans)

/-! ### LDVN, STVN, REDVN (R273, R274) -/

/-- The check of a version word (R274 and its table): only VNOPEN gives a count. -/
def vwordTrap (w : Word) (counted : Bool) : Option TrapOf := trapIf (bits w 47 32 ≠ 0 || (!counted && bits w 63 48 ≠ 0)) operandInvalid w
/-- The version that a word names. -/
def versionOf (w : Word) : Nat := bits w 31 0
/-- How a read of a version stands: read it, take the trap, or park. -/
inductive VRead where
  | go
  | gone
  | wait
deriving DecidableEq, Repr
/-- The state of a named version for a read. -/
def VRegion.readable (r : VRegion) (v : Nat) : VRead :=
  match r.stateOf v with
  | .reclaimed => .gone
  | .sealed => .go
  | .open _ | .absent => .wait
/-- A read of version `v` by the current thread once it may be read; the newest version may always be. -/
def withVersion (va v : Nat) (s : State) (k : Nat × Nat → VRegion → State → Res) : Res :=
  match s.hub.vfind s.tn va with
  | none => s.trap operandInvalid (word va)
  | some (key, r) =>
    if v = newestVersion then k key r s
    else
      match r.readable v with
      | .go => k key r s
      | .gone => s.trap versionGone (word v)
      | .wait => s.park (.version (regionKey key) v)
/-- The newest sealed version of each region of the current tenancy, which a newest read keeps from its issue (R272). -/
def State.sealedNow (s : State) : VReg :=
  BitVec.ofNat 2048 (packElems 32 ((List.range 64).map (fun i =>
    match s.hub.vregions.find? (fun e => e.1 == (s.tn, i)) with
    | some e => e.2.sealed
    | none => 0)))
/-- A newest read notes the newest sealed versions at its issue, before anything it waits for (R272). -/
def State.noteSealed (s : State) (v : Nat) : State :=
  if v = newestVersion ∧ s.thr.progress.since = none then s.updProgress (fun p => { p with since := some s.sealedNow }) else s
/-- The version at which a line of a region is read: the named one, or a newest one since the issue (R272). -/
def State.pickVersion (s : State) (key : Nat × Nat) (r : VRegion) (v : Nat) : State × Nat :=
  if v = newestVersion then s.newest r (elem 32 (s.thr.progress.since.getD s.sealedNow) key.2) else (s, v)
/-- LDVN (R273). -/
def execLdvn (d a b : Reg) (s : State) : Res :=
  let va := s.rd a
  let v := versionOf (s.rd b)
  guardTrap s (firstTrap [trapIf (va.toNat % 8 ≠ 0) misalignment va, vwordTrap (s.rd b) false,
    trapIf (s.det && v = newestVersion) orderDependent 0, vaTrap va]) fun _ =>
  afterReds .reply (s.noteSealed v) fun s =>
  withVersion va.toNat v s fun key r s =>
  asked [] s fun s =>
  let read : Perform := fun s e =>
    let p := s.pickVersion key r v
    match p.1.vline (dieOf s.core) s.tn e.va [e.va / 64 % 4] p.2 r with
    | (s, .ok, x) => (s, .ok, x.toNat / 2 ^ (8 * (e.va % 256)) % 2 ^ 64)
    | (s, t, _) => (s, t, 0)
  runElems read .read [⟨0, va.toNat, 8, 0, 0, 0⟩] s fun s =>
  ((s.wr d (word (elem 64 s.thr.progress.data 0))).acquire (dieOf s.core) false).next 8
/-- STVN (R274). -/
def execStvn (r a b : Reg) (s : State) : Res :=
  let va := s.rd a
  let w := s.rd b
  guardTrap s (firstTrap [trapIf (va.toNat % 8 ≠ 0) misalignment va, vwordTrap w false, vaTrap va]) fun _ =>
  afterReds .reply s fun s =>
  asked [] s fun s =>
  let x := (s.rd r).toNat
  let write : Perform := fun s e =>
    let q := s.versionWrite (dieOf s.core) s.tn e.va 8 (versionOf w) .write w (fun _ => x)
    (q.1, q.2, 0)
  runElems write .write [⟨0, va.toNat, 8, 0, 0, 0⟩] s fun s => s.next 8
/-- Bytes of a REDVN operand. -/
def redvnSize (t : RedvnTy) : Nat :=
  match t with
  | .i64 => 8
  | .f32 | .bf16x2 => 4
/-- The atomic operation of a REDVN. -/
def redvnOp (t : RedvnTy) : AmoOp :=
  match t with
  | .i64 => .add
  | .f32 => .faddF32
  | .bf16x2 => .faddBf16x2
/-- REDVN (R274): it is posted as a RED is. -/
def execRedvn (t : RedvnTy) (r a b : Reg) (s : State) : Res :=
  let va := s.rd a
  let w := s.rd b
  let n := redvnSize t
  guardTrap s (firstTrap [trapIf (va.toNat % n ≠ 0) misalignment va, vwordTrap w false, trapIf (s.det && t ≠ .i64) orderDependent 0,
    vaTrap va]) fun _ =>
  s.post ⟨s.core, s.tid, s.thr.placedAt, s.tn, s.curLaunch, redvnOp t, n = 8, .pkg, va.toNat, word ((s.rd r).toNat % 2 ^ (8 * n)),
    some (t, w), none, false, none, false⟩
/-- Two posted reductions of one thread on one operand. -/
def Red.like (r o : Red) : Bool := o.core == r.core && o.tid == r.tid && o.va == r.va && o.note.isNone
/-- The n-th posted reduction reaches its slice: with a fill of its line outstanding it attaches to the miss register, and it is performed in its turn
there (R184, R234); the answer says whether it may be performed. -/
def State.redTurn (s : State) (n : Nat) (r : Red) : State × Bool :=
  let line := lineOf r.va
  match (if r.ver.isSome then none else s.atomicDie (dieOf r.core) r.tn r.va r.sc) with
  | none => (s, true)
  | some d =>
    if !s.missLive d r.tn line then (s, true)
    else
      let q : MissReq := ⟨r.core, r.tid, r.va, .posted⟩
      let sl := sliceOfLine line r.tn
      let there := (((s.dieAt d).slice sl).misses.filter (fun m => m.tn == r.tn && m.line == line)).flatMap (fun m => m.reqs.filter (· == q))
      if there.length ≤ ((s.reds.take n).filter r.like).length then ((s.attach d q r.tn).1, false)
      else if s.inTurn d r.core r.tid r.tn line true then
        (s.updDie d (fun x => x.updSlice sl (fun y => { y with
          misses := y.misses.map (fun m => if m.tn = r.tn ∧ m.line = line then { m with reqs := m.reqs.erase q } else m) })), true)
      else (s, false)
/-- ATOMIC_EXECUTE (R233, R238, R239, R274): the n-th posted reduction is performed, or its fault is noted; or another package's atomic of pod
scope executes at a home here (R218, R230).  A reduction that is held after its launch has ended is discarded (R393). -/
def execAtomicExecute (work : AtomicWork) (s : State) : Res :=
  match work with
  | .far f => .next (s.atomicAtHome f)
  | .posted n =>
  match s.reds[n]? with
  | none => .next s
  | some r =>
    if r.note.isSome || r.held = some .migrate then .next s
    else
      let size := amoSize r.op r.w
      let f := fun (m : Nat) => atomicFn r.op size m r.x.toNat 0
      let d := dieOf r.core
      let turn := s.redTurn n r
      let q := match r.ver with
        | none =>
          let q := turn.1.atomic d r.tn r.va size r.sc f
          (q.1, q.2.1)
        | some (_, w) => s.versionWrite d r.tn r.va size (versionOf w) .rmw w f
      if !turn.2 then
        let s' := turn.1
        .next { s' with reds := if s.redDead r then dropAt s'.reds n else setAt s'.reds n { r with held := some .other } }
      else
      match q with
      | (s', .ok) => .next (({ s' with reds := dropAt s'.reds n } : State).redDone r)
      | (_, .hold w) =>
        if s.redDead r then .next { s with reds := dropAt s.reds n }
        else if r.held = some w then .next s
        else .next { s with reds := setAt s.reds n { r with held := some w } }
      | (s', .page k l p) => .next (s'.noteRed n r (.page r.va k l p))
      | (s', .trap c v) => .next (s'.noteRed n r (.trap c v))

/-! ### VNOPEN, VNSEAL, VNRECL, VNSTAT (R275 to R278) -/

/-- The region that a VN form selects. -/
def withRegion (va : Word) (s : State) (k : (Nat × Nat) → VRegion → Res) : Res :=
  match s.hub.vfind s.tn va.toNat with
  | none => s.trap operandInvalid va
  | some (key, r) => k key r
/-- Sets a contributor count. -/
def VRegion.setDue (r : VRegion) (v n : Nat) : VRegion := { r with due := setAt r.due (r.slot v) n }
/-- VNOPEN (R275). -/
def execVnopen (a b : Reg) (s : State) : Res :=
  let va := s.rd a
  let w := s.rd b
  let v := versionOf w
  let c := bits w 63 48
  guardTrap s (firstTrap [vwordTrap w true, trapIf (c = 0 || v = newestVersion) operandInvalid w, vaTrap va]) fun _ =>
  afterReds .reply s fun s =>
  asked [] s fun s =>
  withRegion va s fun key r =>
  if v ≠ r.opened + 1 ∨ r.oldest + r.k ≤ v then s.trap operandInvalid w
  else (s.updVRegion key (fun r => ({ r with opened := v } : VRegion).setDue v c)).next 8
/-- Versions whose contributions are complete seal in order. -/
def VRegion.sealMore (r : VRegion) : Nat → VRegion
  | 0 => r
  | n + 1 =>
    match r.stateOf (r.sealed + 1) with
    | .open 0 => ({ r with sealed := r.sealed + 1 } : VRegion).sealMore n
    | .open _ | .absent | .sealed | .reclaimed => r
/-- The contribution of a VNSEAL reaches the hub (R268, R276). -/
def sealAnswer (va w : Word) (s : State) : Res :=
  withRegion va s fun key r =>
  match r.stateOf (versionOf w) with
  | .open (c + 1) =>
    let r' := (r.setDue (versionOf w) c).sealMore 4
    let s := s.updVRegion key (fun _ => r')
    let s := if r'.sealed = r.sealed then s else (s.wakeVersions key).retryHeld
    s.next 8
  | .open 0 | .absent | .sealed | .reclaimed => s.trap operandInvalid w
/-- VNSEAL (R276): after every posted reduction of the thread (R238), with reason Drain while a REDVN is among them, a release at package scope, then one
contribution, and the wait for the hub's answer. -/
def execVnseal (a b : Reg) (s : State) : Res :=
  let va := s.rd a
  let w := s.rd b
  guardTrap s (firstTrap [vwordTrap w false, vaTrap va]) fun _ =>
  let answer := fun s => asked [] s (sealAnswer va w)
  if s.thr.progress.ask ≠ .none then answer s
  else
    afterReds (if s.myReds.any (·.ver.isSome) then .drain else .reply) s fun s =>
    match s.release (dieOf s.core) false with
    | none => s.park .drain
    | some s => afterPushes s answer
/-- Copies forward the lines of one page that are still Inherited (R277, step 3), up to one that is damaged. -/
def reclaimPage (key : Nat × Nat) (v : Nat) : Perform := fun s e =>
  match (s.hub.vregions.find? (fun x => x.1 = key)).map (·.2) with
  | none => (s, .ok, 0)
  | some r =>
    match s.vtranslate (dieOf s.core) s.tn e.va .write r.k with
    | (s', .ok pa kidx) =>
      let pa := pa / 2 ^ 19 * 2 ^ 19
      let lines := (List.range 2048).map (fun i => (r.line e.va + i, pa + 256 * i))
      let todo := lines.filter (fun l => s'.dramRead (r.tagAt l.1 (r.slot (v + 1))) 4 ≠ v + 1)
      if todo.any (fun l => !s'.hub.memReady (slotPa l.2 (r.slot (v + 1))) || !s'.hub.memReady (s'.forwardFrom r l.1 l.2 (v + 1))) then
        (s', .hold .other, 0)
      else
        let sound := todo.takeWhile (fun l => !s'.forwardBad r l.1 l.2 (v + 1))
        let s := sound.foldl (fun (s : State) l => s.copyForward key r l.1 l.2 kidx (v + 1)) s'
        match todo.drop sound.length with
        | [] => (s, .ok, 0)
        | l :: _ => (s, .trap dataError (word (r.base + 256 * l.1)), 0)
    | (s, t) => (s, t.ans, 0)
/-- A reclaim has failed: the hub closes the region (R277). -/
def State.closeRegion (s : State) (key : Nat × Nat) : State := (s.updVRegion key (fun r => { r with live := false })).wakeVersions key
/-- VNRECL (R277).  DESIGN CHOICE (log 58): a reclaim that its launch's abort cuts short leaves the version Reclaimed, `oldest` as it was and the region
live. -/
def execVnrecl (a b : Reg) (s : State) : Res :=
  let va := s.rd a
  let w := s.rd b
  let v := versionOf w
  let run := fun (key : Nat × Nat) (r : VRegion) (s : State) =>
    runElemsOr (·.closeRegion key) (reclaimPage key v) .write ((List.range (r.len / 2 ^ 19)).map (fun i => ⟨i, r.base + i * 2 ^ 19, 0, 0, 0, 0⟩)) s
      fun s => ((s.updVRegion key (fun r => { r with oldest := v + 1, reclaiming := false })).retryHeld).next 8
  if s.thr.progress.begun then withRegion va s (fun key r => run key r s)
  else
    guardTrap s (firstTrap [vwordTrap w false, vaTrap va]) fun _ =>
    afterReds .reply s fun s =>
    asked [] s fun s =>
    withRegion va s fun key r =>
    if v ≠ r.oldest ∨ r.reclaiming = true ∨ r.stateOf (v + 1) ≠ .sealed then s.trap operandInvalid w
    else
      let s := (s.updVRegion key (fun r => { r with reclaiming := true })).wakeVersions key
      run key r (s.capture 0 0)
/-- VNSTAT (R278). -/
def execVnstat (d a b : Reg) (s : State) : Res :=
  let va := s.rd a
  let w := s.rd b
  let v := versionOf w
  guardTrap s (firstTrap [vwordTrap w false, trapIf (v = newestVersion) operandInvalid w, trapIf s.det orderDependent 0, vaTrap va]) fun _ =>
  afterReds .reply s fun s =>
  asked [] s fun s =>
  withRegion va s fun key r =>
  let st := match r.stateOf v with
    | .absent => (0, 0)
    | .open c => (1, c)
    | .sealed => (2, 0)
    | .reclaimed => (3, 0)
  (s.wr d (word (r.sealed * 2 ^ 32 + st.2 % 2 ^ 16 * 2 ^ 16 + key.2 * 2 ^ 8 + st.1))).next 8

/-- VERSIONED_ACCESS (R269): a home slice reads the line of a VA in a version, or writes 8 bytes into an Open one. -/
def execVersionedAccess (tn va ver : Nat) (x : Option Word) (s : State) : Res :=
  match s.hub.vfind tn va with
  | none => .next s
  | some (_, r) =>
    match x with
    | none => let q := s.vline 0 tn va [va / 64 % 4] ver r; served s (q.1, q.2.1)
    | some y => served s (s.versionWrite 0 tn va 8 ver .write 0 (fun _ => y.toNat))
/-- REGION_RECORD_LIVE (R265). -/
def execRegionRecordLive (tn rec : Nat) (s : State) : Res :=
  match s.hub.vregions.find? (fun e => e.1 = (tn, rec)) with
  | none => .next s
  | some (_, r) =>
    if r.live then .next s
    else .next (s.updVRegion (tn, rec) (fun r => { r with
      live := true, oldest := r.basev, opened := r.basev, sealed := r.basev, due := [0, 0, 0, 0], forwarded := 0, reclaiming := false }))

/-! ### Antler headers (R280, R284) -/

/-- The product of some numbers. -/
def prodOf (l : List Nat) : Nat := l.foldl (· * ·) 1
/-- Bytes of an element of a tine. -/
def Tine.size (t : Tine) : Nat := if t.ty = 0 then 4 else 2
/-- Bytes of a tine's array. -/
def Tine.bytes (t : Tine) : Nat := t.n * t.qin * t.m * t.qout * t.size
/-- A tine record from its 32 bytes, with its reserved field. -/
def parseTine (l : List Byte) : Tine × Nat :=
  let f := fun (off n : Nat) => natOfBytes ((l.drop off).take n)
  (⟨f 0 8, f 8 2, f 10 1, f 11 1, f 12 2, f 14 1⟩, f 15 17)
/-- A tine record that keeps R280 by itself. -/
def Tine.ok (t : Tine) : Bool :=
  2 ≤ t.n && t.n ≤ 4096 && 1 ≤ t.qin && t.qin ≤ 64 && 1 ≤ t.qout && t.qout ≤ 64 && 1 ≤ t.m && t.ty ≤ 1 && t.base % t.size == 0
/-- Each tine's qin is the qout of the tine before it. -/
def beamOk : Nat → List Tine → Bool
  | q, [] => q == 1
  | q, t :: l => t.qin == q && beamOk t.qout l
/-- The header of 64 bytes and the tine records, bound for a region: none if a check of R280 fails. -/
def parseAntler (h : Hub) (tn : Nat) (va : Word) (hd recs : List Byte) : Option Antler :=
  let f := fun (off n : Nat) => natOfBytes ((hd.drop off).take n)
  let d := f 6 1
  let ts := (List.range d).map (fun k => parseTine ((recs.drop (32 * k)).take 32))
  let tines := ts.map (·.1)
  let regions := tines.map (fun t => match h.vfind tn t.base with
    | some (key, r) => if t.base + t.bytes ≤ r.base + r.len then some key.2 else none
    | none => none)
  let N := prodOf (tines.map (·.n))
  let M := prodOf (tines.map (·.m))
  match regions.head?.join with
  | none => none
  | some rgn =>
    if f 0 4 = 0x414E544C ∧ f 4 2 = 1 ∧ 2 ≤ d ∧ d ≤ 8 ∧ f 7 1 = 0 ∧ finiteF32 (f 8 4) = true ∧ f 12 4 = 0 ∧ f 16 8 = N ∧ f 24 4 = M ∧ M ≤ 4096 ∧
        f 28 36 = 0 ∧ ts.all (fun e => e.1.ok && e.2 == 0) = true ∧ beamOk 1 tines = true ∧ regions.all (· == some rgn) = true then
      some ⟨va, d, BitVec.ofNat 32 (f 8 4), N, M, tines, rgn⟩
    else none
/-- The parts of a byte range that lie in one sector each; identifiers count from `id0`, and `off0` is the position of the first byte. -/
def bytePieces (va n id0 off0 : Nat) : List Elem :=
  (List.range (n / 64 + 2)).filterMap (fun i =>
    let lo := max va (va / 64 * 64 + 64 * i)
    let hi := min (va + n) (va / 64 * 64 + 64 * i + 64)
    if lo < hi then some ⟨id0 + i, lo, hi - lo, off0 + (lo - va), 0, 0⟩ else none)
/-- A read at the slice of a VA that R148 admits. -/
def readHigh (d tn : Nat) : Perform := fun s e =>
  if 2 ^ 56 ≤ e.va then (s, .trap accessFault (word e.va), 0) else s.sliceRead d tn e.va e.n false
/-- The same, with the bytes placed beside the header. -/
def readAside (d tn : Nat) : Perform := fun s e =>
  match readHigh d tn s e with
  | (s, .ok, x) => (s.updProgress (fun p => { p with aux := p.aux ||| placeAt e.off e.n x }), .ok, 0)
  | r => r
/-- A bound handle of the current thread. -/
def State.handle (s : State) (h : BitVec 3) : Option Antler := (s.thr.handles[h.toNat]?).join
/-- Binds or unbinds a handle with its control register. -/
def State.setHandle (s : State) (h : BitVec 3) (x : Option Antler) (va : Word) : State :=
  s.updThr (fun t => { t with
    handles := t.handles.setIfInBounds h.toNat x, ctl := { t.ctl with athand := t.ctl.athand.setIfInBounds h.toNat va } })
/-- ATBIND (R284). -/
def execAtbind (h : BitVec 3) (a : Reg) (s : State) : Res :=
  let va := s.rd a
  if va = 0 then afterReds .reply s fun s => (s.setHandle h none 0).next 8
  else
    let bound := (s.thr.ctl.athand[h.toNat]?).getD 0
    guardTrap s (firstTrap [trapIf (s.handle h).isSome operandInvalid bound, vaTrap va]) fun _ =>
    afterReds .reply s fun s =>
    asked [] s fun s =>
    runElems (readHigh (dieOf s.core) s.tn) .read (bytePieces va.toNat 64 0 0) s fun s =>
    let hd := bytesOfNat 64 (elem 512 s.thr.progress.data 0)
    let d := natOfBytes ((hd.drop 6).take 1)
    if d < 2 ∨ 8 < d then s.trap operandInvalid va
    else
      runElems (readAside (dieOf s.core) s.tn) .read (bytePieces (va.toNat + 64) (32 * d) 8 0) s fun s =>
      match parseAntler s.hub s.tn va hd (bytesOfVreg s.thr.progress.aux) with
      | none => s.trap operandInvalid va
      | some x => (s.setHandle h (some x) va).next 8

/-! ### Digits and elements (R281) -/

/-- The digits of a number in mixed radix, the first radix most significant. -/
def digits : List Nat → Nat → List Nat
  | [], _ => []
  | r :: l, x => x / prodOf l % max 1 r :: digits l x
/-- The VA of an element of a tine. -/
def Tine.at_ (t : Tine) (i r a q : Nat) : Nat := t.base + t.size * (((i * t.qin + r) * t.m + a) * t.qout + q)
/-- The digits of an index. -/
def Antler.indexDigits (x : Antler) (i : Nat) : List Nat := digits (x.tines.map (·.n)) i
/-- The digits of a column. -/
def Antler.colDigits (x : Antler) (j : Nat) : List Nat := digits (x.tines.map (·.m)) j
/-- The columns of a block. -/
def Antler.columns (x : Antler) (c : Nat) : List Nat := (List.range 64).filterMap (fun t => if c + t < x.cols then some (c + t) else none)
/-- A list without repetitions, the first kept. -/
def dedup : List Nat → List Nat
  | [] => []
  | x :: l => x :: (dedup l).filter (· ≠ x)
/-- The digit values of tine `k` that some column of a block has. -/
def Antler.digitValues (x : Antler) (c k : Nat) : List Nat := dedup ((x.columns c).map (fun j => ((x.colDigits j)[k]?).getD 0))
/-- The VAs of the elements that a block of a row uses. -/
def Antler.uses (x : Antler) (i c : Nat) : List Nat :=
  (List.range x.d).flatMap (fun k =>
    match x.tines[k]? with
    | none => []
    | some t => (x.digitValues c k).flatMap (fun a => (List.range t.qin).flatMap (fun r => (List.range t.qout).map (fun q =>
        t.at_ (((x.indexDigits i)[k]?).getD 0) r a q))))
/-- The lines that a block of a row reads, each by the first VA used in it. -/
def firstPerLine : List Nat → List Nat
  | [] => []
  | v :: l => v :: (firstPerLine l).filter (fun y => y / 256 ≠ v / 256)

/-- A line that has been read stands in the partial state in the order of `elems`; lines have the numbers below `n`. -/
def Progress.lineData (p : Progress) (n id : Nat) : List Byte :=
  match findPos (· == id) (p.elems.filter (· < n)) with
  | some i => (p.image.drop (256 * i)).take 256
  | .none => []
/-- The value of an element of a tine, as f32, from the lines that were read: `ls` are their VAs. -/
def elemValue (p : Progress) (ls : List Nat) (t : Tine) (va : Nat) : Nat :=
  match findPos (fun v => v / 256 == va / 256) ls with
  | some i =>
    let x := natOfBytes (((p.lineData ls.length i).drop (va % 256)).take t.size)
    if t.ty = 0 then x else x * 2 ^ 16
  | none => 0

/-- A product of values: none for a NaN or 0 · ∞. -/
def mulAll (l : List Num) : Option Num :=
  if l.any Num.isNan || (l.any Num.isZero && l.any Num.isInf) then none else some (l.foldl numMul (.fin false 1 0))
/-- An exact sum of products, rounded once under RNE; a NaN or 0 · ∞ gives the canonical NaN and *invalid* (R281). -/
def antlerSum (t : ElemTy) (l : List (List Num)) : Fl :=
  let ps := l.map mulAll
  if ps.any (·.isNone) then ⟨canonNan t, flInvalid⟩ else sumF t .rne false (ps.map (fun p => p.getD (.fin false 0 0)))
/-- f32 as a value. -/
def f32Num (x : Nat) : Num := unpackF .f32 x
/-- How an element of a tine is read: tine number, row, digit, column. -/
abbrev ElemOf := Nat → Nat → Nat → Nat → Nat
/-- The beam after the first `k` tines for a column's digits (R281): a vector and its flags. -/
def Antler.beam (x : Antler) (g : ElemOf) (as : List Nat) : Nat → List Nat × Flags
  | 0 => ([0x3F800000], 0)
  | k + 1 =>
    let p := x.beam g as k
    match x.tines[k]? with
    | none => p
    | some t =>
      let a := (as[k]?).getD 0
      if k = 0 then ((List.range t.qout).map (fun q => g 0 0 a q), 0)
      else
        let r := (List.range t.qout).map (fun q =>
          antlerSum .f32 ((List.range t.qin).map (fun i => [f32Num ((p.1[i]?).getD 0), f32Num (g k i a q)])))
        (r.map (·.x), r.foldl (fun (f : Flags) e => f ||| e.fl) p.2)
/-- The suffix before the last `n` tines (R282). -/
def Antler.suffix (x : Antler) (g : ElemOf) (as : List Nat) : Nat → List Nat × Flags
  | 0 => ([0x3F800000], 0)
  | n + 1 =>
    let q := x.suffix g as n
    let k := x.d - 1 - n
    match x.tines[k]? with
    | none => q
    | some t =>
      let a := (as[k]?).getD 0
      let r := (List.range t.qin).map (fun i =>
        antlerSum .f32 ((List.range t.qout).map (fun j => [f32Num (g k i a j), f32Num ((q.1[j]?).getD 0)])))
      (r.map (·.x), r.foldl (fun (f : Flags) e => f ||| e.fl) q.2)

/-! ### ATDIG, ATLD, ATSG, ATINFO (R285 to R288) -/

/-- A handle that is not bound. -/
def unboundTrap (s : State) (h : BitVec 3) : Option TrapOf := trapIf (s.handle h).isNone operandInvalid (word h.toNat)
/-- ATDIG (R285). -/
def execAtdig (h : BitVec 3) (c : VCode) (a : Reg) (s : State) : Res :=
  let i := s.rd a
  let x := (s.handle h).getD ⟨0, 0, 0, 0, 0, [], 0⟩
  withWindows [] [c] none (firstTrap [unboundTrap s h, trapIf (x.size ≤ i.toNat) operandInvalid i]) s fun s =>
  (s.vwrite c 32 64 (BitVec.allOnes 256) (fun k => ⟨((x.indexDigits i.toNat)[k]?).getD 0, 0⟩)).next 8
/-- The checks of ATLD and ATSG (R283, R286, R287). -/
def antlerTrap (s : State) (h : BitVec 3) (i w : Word) (scatter : Bool) : Option TrapOf :=
  let x := (s.handle h).getD ⟨0, 0, 0, 0, 0, [], 0⟩
  let newest := decide (versionOf w = newestVersion)
  firstTrap [unboundTrap s h, trapIf (x.size ≤ i.toNat) operandInvalid i,
    trapIf (bits w 63 48 ≠ 0 || bits w 47 32 % 64 ≠ 0 || x.cols ≤ bits w 47 32 || (scatter && newest)) operandInvalid w,
    trapIf (s.det && (scatter || newest)) orderDependent 0]
/-- Requests of the lanes of an ATLD or ATSG for a line that may be combined in the router of its home slice's quad, `e.x` at most: how many is left open
(R183). -/
def State.combineLanes (s : State) (e : Elem) : State :=
  if e.x = 0 then s
  else
    ({ s with fresh := s.fresh + 1 } : State).updDie (s.versionDie (dieOf s.core) s.tn e.va) (fun d =>
      d.updSlice (sliceOf e.va s.tn) (fun y => { y with combines := y.combines + Config.absorbed s.fresh % (e.x + 1) }))
/-- The current thread's instruction is an ATLD of version `v`. -/
def Thread.loads (t : Thread) (v : Nat) : Bool :=
  match decode t.inst with
  | .ok (.atld _ _ _ b) => versionOf (t.rd b) == v
  | _ => false
/-- Requests of other ATLDs of the package for words of a line that is read in their version may meet the served ones in a router (R183): which ones do is
left open.  They are counted, and those threads are answered next. -/
def State.combineOthers (s : State) (v : Nat) (e : Elem) : State :=
  let words := fun (t : Thread) => (t.progress.asks.filter (fun a => a.2 == .lane && a.1 / 256 == e.va / 256)).map (·.1 / 8)
  let mine := words s.thr
  let others := (s.cores.flatMap (fun c => (List.range 16).map (fun t => (c.1, t)))).filter (fun p =>
    let x := (s.coreAt p.1).thr p.2
    p != (s.core, s.tid) && x.asking && x.ctl.tenancy == s.thr.ctl.tenancy && (words x).any mine.contains && x.loads v)
  (if s.thr.loads v then others else []).foldl (fun (s : State) p =>
    let s' : State := { s with fresh := s.fresh + 1 }
    if Config.combines s.fresh then
      let n := ((words ((s.coreAt p.1).thr p.2)).filter mine.contains).length
      { s'.updDie (s.versionDie (dieOf s.core) s.tn e.va) (fun d => d.updSlice (sliceOf e.va s.tn) (fun y => { y with combines := y.combines + n })) with
        granted := .thread p.1 p.2 (lineOf e.va) :: s'.granted }
    else s') s
/-- Reads a line of a version, in the region that covers its VA, into the partial state (R267). -/
def readLineInto (v : Nat) : Perform := fun s e =>
  match s.hub.vfind s.tn e.va with
  | none => (s, .trap operandInvalid (word e.va), 0)
  | some (key, r) =>
    if v ≠ newestVersion ∧ r.readable v = .gone then (s, .trap versionGone (word v), 0)
    else
      let p := s.pickVersion key r v
      match p.1.vline (dieOf s.core) s.tn e.va ((List.range 4).filter (fun i => e.m.testBit i)) p.2 r with
      | (s, .ok, x) => (((s.combineLanes e).combineOthers v e).updProgress (fun p => { p with image := bytesOfVreg x ++ p.image }), .ok, 0)
      | (s, t, _) => (s, t, 0)
/-- The first of some VAs in whose region a named version has not sealed yet, as what a thread parks on; *wait expired* reports no version for it
(R250). -/
def State.versionDue (s : State) (v : Nat) (vas : List Nat) : Option Park :=
  if v = newestVersion then none
  else
    (vas.filterMap (fun va => match s.hub.vfind s.tn va with
      | some (key, r) => if r.readable v = .wait then some (Park.version (regionKey key) 0) else none
      | none => none)).head?
/-- The VAs that the lanes of a block read, one for each lane and element that it uses (R281). -/
def Antler.laneReads (x : Antler) (i c : Nat) : List Nat :=
  (x.columns c).flatMap (fun j => (List.range x.d).flatMap (fun k =>
    match x.tines[k]? with
    | none => []
    | some t => (List.range t.qin).flatMap (fun r => (List.range t.qout).map (fun q =>
        t.at_ (((x.indexDigits i)[k]?).getD 0) r (((x.colDigits j)[k]?).getD 0) q))))
/-- The read of the line of `v` among the VAs that a block uses: its least VA and, as byte enables, the sectors used (R267), with how many requests of the
lanes can be absorbed when each word is requested at least once (R183). -/
def lineRead (uses reads : List Nat) (n v : Nat) : Elem :=
  let here := uses.filter (fun y => y / 256 == v / 256)
  let words := (reads.filter (fun y => y / 256 == v / 256)).map (· / 8)
  ⟨n, (argMin id here).getD v, 0, 0, words.length - (dedup words).length, (dedup (here.map (fun y => y / 64 % 4))).foldl (fun m i => m + 2 ^ i) 0⟩
/-- The lines that a block of a row reads. -/
def Antler.lineElems (x : Antler) (i c : Nat) : List Elem :=
  let us := x.uses i c
  (firstPerLine us).zipIdx.map (fun e => lineRead us (x.laneReads i c) e.2 e.1)
/-- Reads the lines of a block of a row in version `v`; `k` gets the element reader. -/
def readBlock (x : Antler) (i c v : Nat) (s : State) (k : ElemOf → State → Res) : Res :=
  let ls := firstPerLine (x.uses i c)
  let elems := x.lineElems i c
  let ids := x.indexDigits i
  let g : Progress → ElemOf := fun p n r a q =>
    match x.tines[n]? with
    | some t => elemValue p ls t (t.at_ ((ids[n]?).getD 0) r a q)
    | none => 0
  if elems.all (fun e => s.thr.progress.elems.contains e.id) then k (g s.thr.progress) s
  else
    if (s.versionDue v ((elems.filter s.pending).map Elem.va)).isSome then s.park .reply
    else
      asked ((dedup ((x.laneReads i c).map (· / 8))).map (fun w => (8 * w, .lane))) s fun s =>
      runElems (readLineInto v) .read elems s fun s => k (g s.thr.progress) s
/-- The version wait of a block, which claims no window while it lasts (R286, R390). -/
def blockDue (x : Antler) (i c v : Nat) (s : State) : Option Park := s.versionDue v ((x.lineElems i c).map Elem.va)
/-- ATLD (R286). -/
def execAtld (h : BitVec 3) (c : VCode) (a b : Reg) (s : State) : Res :=
  let i := s.rd a
  let w := s.rd b
  let col := bits w 47 32
  let x := (s.handle h).getD ⟨0, 0, 0, 0, 0, [], 0⟩
  vectorAccessIf (blockDue x i.toNat col (versionOf w)) [] [c] none (antlerTrap s h i w false) 0 0 (s.noteSealed (versionOf w)) fun s =>
  readBlock x i.toNat col (versionOf w) s fun g s =>
  let out := fun (t : Nat) =>
    if col + t < x.cols then let r := x.beam g (x.colDigits (col + t)) x.d; (⟨r.1.headD 0, r.2⟩ : Fl) else ⟨0, 0⟩
  ((s.vwrite c 32 64 (BitVec.allOnes 256) out).acquire (dieOf s.core) false).next 8
/-- An add of ATSG: its VA, bytes, and the value in the tine's type. -/
structure Grad where
  (va n x : Nat)
deriving DecidableEq, Repr
/-- The gradients of a block and the flags of their roundings (R282). -/
def Antler.grads (x : Antler) (g : ElemOf) (i c : Nat) (y : VReg) : List Grad × Flags :=
  let cols := x.columns c
  let ids := x.indexDigits i
  let per := cols.map (fun j =>
    let as := x.colDigits j
    (as, (List.range x.d).map (fun k => (x.beam g as k, x.suffix g as (x.d - 1 - k))), f32Num (elem 32 y (j - c))))
  let fl := per.foldl (fun (f : Flags) e => e.2.1.foldl (fun (f : Flags) q => f ||| q.1.2 ||| q.2.2) f) 0
  let sc := f32Num x.scale.toNat
  let tine := fun (k : Nat) (t : Tine) =>
    (x.digitValues c k).flatMap (fun a => (List.range t.qin).flatMap (fun r => (List.range t.qout).map (fun q =>
      let terms := per.filterMap (fun e =>
        if (e.1[k]?).getD 0 = a then
          (e.2.1[k]?).map (fun ps => [sc, e.2.2, f32Num ((ps.1.1[r]?).getD 0), f32Num ((ps.2.1[q]?).getD 0)])
        else none)
      let v := antlerSum (if t.ty = 0 then .f32 else .bf16) terms
      ((⟨t.at_ ((ids[k]?).getD 0) r a q, t.size, v.x⟩ : Grad), v.fl))))
  let all := (List.range x.d).flatMap (fun k => match x.tines[k]? with
    | some t => tine k t
    | none => [])
  (all.map (·.1), all.foldl (fun (f : Flags) e => f ||| e.2) fl)
/-- The add of a gradient into a version at its home slice. -/
def addGrad (v : Nat) (w : Word) : Perform := fun s e =>
  let t : ElemTy := if e.n = 4 then .f32 else .bf16
  let q := s.versionWrite (dieOf s.core) s.tn e.va e.n v .rmw w (fun m => (fpAdd t Fcw.plain m e.x).x)
  (q.1, q.2, 0)
/-- ATSG (R287). -/
def execAtsg (h : BitVec 3) (c : VCode) (a b : Reg) (s : State) : Res :=
  let i := s.rd a
  let w := s.rd b
  let col := bits w 47 32
  let x := (s.handle h).getD ⟨0, 0, 0, 0, 0, [], 0⟩
  vectorAccessIf (blockDue x i.toNat col (versionOf w)) [c] [] none (antlerTrap s h i w true) (s.vget c) 0 s fun s =>
  readBlock x i.toNat col (versionOf w) s fun g s =>
  let n := (firstPerLine (x.uses i.toNat col)).length
  let r := x.grads g i.toNat col s.thr.progress.data
  let elems : List Elem := (List.range r.1.length).map (fun j =>
    let e := (r.1[j]?).getD ⟨0, 0, 0⟩
    ⟨n + j, e.va, e.n, 0, e.x, 0⟩)
  runElems (addGrad (versionOf w + 1) w) .rmw elems s fun s => (s.raise r.2).next 8
/-- ATINFO (R288). -/
def execAtinfo (h : BitVec 3) (c : VCode) (s : State) : Res :=
  let x := (s.handle h).getD ⟨0, 0, 0, 0, 0, [], 0⟩
  let val := fun (e : Nat) =>
    let t := x.tines[(e - 8) / 4]?
    if e = 0 then x.d
    else if e = 1 then x.cols
    else if e = 2 then x.size % 2 ^ 32
    else if e = 3 then x.size / 2 ^ 32
    else if e = 4 then x.scale.toNat
    else if e = 5 then x.rgn
    else if 8 ≤ e ∧ e < 40 then
      match t with
      | some t => if e % 4 = 0 then t.n else if e % 4 = 1 then t.qin else if e % 4 = 2 then t.m else t.qout
      | none => 0
    else if 40 ≤ e ∧ e < 48 then ((x.tines[e - 40]?).map (·.ty)).getD 0
    else 0
  withWindows [] [c] none (unboundTrap s h) s fun s => (s.vwrite c 32 64 (BitVec.allOnes 256) (fun e => ⟨val e, 0⟩)).next 8

end Sys2Proof.Machine
end

