-- ==== Sys2Proof/Machine/Faults.lean ====
section
/-! DEFINITION. The fault queue (R383), wake commands (R385, R386), slot lending (R387, R388), forced stops, the context pool and context
switches (R350, R389 to R392, R401), command windows (R399, R402), and soft errors (R395). -/

namespace Sys2Proof.Machine

/-! ### The fault queue (R159, R383, R400) -/

/-- Sends vector 63, which carries the alarm and changes of the readiness map (R400). -/
def State.signal63 (s : State) : State := s.updHub (fun h => { h with signals := (63, 0) :: h.signals })
/-- FAULT_RECORD_APPEND (R383). -/
def execFaultRecordAppend (n : Nat) (s : State) : Res := .next (s.appendRecord n)

/-! ### Wake commands (R385, R386) -/

/-- The fields of a wake command. -/
structure WakeCmd where
  (tn core tid action seq va : Nat)
deriving DecidableEq, Repr
/-- A wake command from its words. -/
def wakeCmd (w0 w1 w2 : Word) : WakeCmd := ⟨bits w0 15 0, bits w0 31 16, bits w0 39 32, bits w0 47 40, bits w1 31 0, w2.toNat⟩
/-- Two VAs lie in one 512 KiB page. -/
def samePage (a b : Nat) : Bool := a / 2 ^ 19 == b / 2 ^ 19
/-- A context that waits on a page fault matches a command. -/
def Thread.matchesWake (t : Thread) (x : WakeCmd) : Bool :=
  t.task.isSome && t.ctl.tenancy.toNat == x.tn && t.ctl.fltseq.toNat % 2 ^ 32 == x.seq &&
  (match t.parkOf with
   | some (.fault vas) => vas.any (samePage x.va)
   | _ => false)
/-- The RED of a context whose record has been sent (R239). -/
def State.sentRed (s : State) (core tid ctx : Nat) : Option Red :=
  s.reds.find? (fun r => r.core == core && r.tid == tid && r.ctx == ctx && r.sent && r.note.isSome)
/-- What a wake leaves outside the context: by retry its RED is to be performed before the wait ends; by fail the RED is discarded, and the region of a reclaim
that has begun is closed (R239, R277). -/
def State.wakeEffects (s : State) (core tid : Nat) (t : Thread) (fail : Bool) : State :=
  match s.sentRed core tid t.placedAt with
  | some r =>
    if fail then s.dropRed r
    else { s with reds := s.reds.map (fun x => if x = r then { r with note := none, sent := false, owed := true } else x) }
  | none =>
    match fail && t.progress.begun, decode t.inst with
    | true, .ok (.vnrecl a _) =>
      match s.hub.vfind t.ctl.tenancy.toNat (t.rd a).toNat with
      | some (key, _) => s.closeRegion key
      | none => s
    | _, _ => s
/-- The context after a wake: by fail its instruction ends in *access fault* with the lowest faulting VA of the park. -/
def Thread.woken (t : Thread) (fail : Bool) : Thread :=
  match fail, t.parkOf with
  | true, some (.fault vas) => { t with progress := { t.progress with ending := some (.trap accessFault (word (leastVa vas))) } }
  | _, _ => t
/-- The command acts on the context that runs on its thread. -/
def State.wakeRunning (s : State) (x : WakeCmd) (fail : Bool) : Option State :=
  let t := (s.coreAt x.core).thr x.tid
  if t.resume then none
  else if t.matchesWake x then
    some ((s.wakeEffects x.core x.tid t fail).updThrAt x.core x.tid (fun t => (t.woken fail).wakeUp))
  else
    match (s.coreAt x.core).mq, t.parkOf with
    | m :: _, some (.matrix _) =>
      match m.stop with
      | .faulted va opnd =>
        if m.tid = x.tid ∧ m.tn = x.tn ∧ t.task.isSome = true ∧ t.ctl.fltseq.toNat % 2 ^ 32 = x.seq ∧ samePage x.va va = true then
          some (if fail then s.failMatrix x.core m opnd 1 va x.core else s.updCore x.core (·.setHead { m with stop := .running }))
        else none
      | .running | .held _ _ => none
    | _, _ => none
/-- A saved context after a wake. -/
def Saved.wake (y : Saved) (x : WakeCmd) (fail : Bool) : Saved :=
  if y.tid = x.tid ∧ y.ready = false ∧ y.thread.matchesWake x = true then { y with thread := y.thread.woken fail, ready := true } else y
/-- The command acts on spilled and swapped contexts. -/
def State.wakeSaved (s : State) (x : WakeCmd) (fail : Bool) : Option State :=
  let hit := fun (y : Saved) => y.tid == x.tid && !y.ready && y.thread.matchesWake x
  let l := ((s.coreAt x.core).spills.filter (fun y => y.valid && hit y)) ++ ((s.hub.pool.filter (fun e => e.1 == x.core && hit e.2)).map (·.2))
  if l.isEmpty then none
  else
    let s := l.foldl (fun (s : State) y => s.wakeEffects x.core x.tid y.thread fail) s
    let s := s.updCore x.core (fun c => { c with spills := c.spills.map (fun (y : Saved) => if y.valid then y.wake x fail else y) })
    some (s.updPool (fun c y => if c = x.core then y.wake x fail else y))
/-- A wake command: one that matches no context is stale. -/
def State.wake (s : State) (x : WakeCmd) : State :=
  let stale := s.updHub (fun h => { h with staleWakes := h.staleWakes + 1 })
  if 14 < x.tid ∨ (x.action ≠ 1 ∧ x.action ≠ 2) then stale
  else
    let fail := x.action == 2
    match s.wakeRunning x fail with
    | some s => (s.wakeSaved x fail).getD s
    | none => (s.wakeSaved x fail).getD stale
/-- WAKE_RETRY (R386): the action is retry; an action that no command has is stale here. -/
def execWakeRetry (c0 c1 c2 _c3 : Word) (s : State) : Res :=
  let x := wakeCmd c0 c1 c2
  if x.action = 2 then .next s else .next (s.wake x)
/-- WAKE_FAIL (R386). -/
def execWakeFail (c0 c1 c2 _c3 : Word) (s : State) : Res :=
  let x := wakeCmd c0 c1 c2
  if x.action = 2 then .next (s.wake x) else .next s

/-! ### Save areas and pool records (R388, R391) -/

/-- The 4,608 bytes of a save area that holds a context (R388). -/
def Saved.bytes (x : Saved) : List Byte :=
  let t := x.thread
  ((List.range 16).map (fun i => bytesOfVreg ((t.v[i]?).getD 0))).flatten ++ bytesOfNat 8 x.stateWord ++
  ((List.range 31).map (fun i => bytesOfNat 8 ((t.g[i + 1]?).getD 0).toNat)).flatten ++
  ((List.range 7).map (fun i => bytesOfNat 32 ((t.k[i + 1]?).getD 0).toNat)).flatten ++
  ((List.range 4).map (fun i => bytesOfNat 8 ((t.gs[i]?).getD 0).toNat)).flatten
/-- A context with what the 4,608 bytes of a record hold. -/
def Thread.load (t : Thread) (l : List Byte) : Thread :=
  let f := fun (off n : Nat) => natOfBytes ((l.drop off).take n)
  { t with
    v := vecMap (fun i _ => BitVec.ofNat 2048 (f (256 * i) 256)) t.v,
    g := vecMap (fun i x => if i = 0 then x else word (f (0x1000 + 8 * i) 8)) t.g,
    k := vecMap (fun i x => if i = 0 then x else BitVec.ofNat 256 (f (0x1100 + 32 * (i - 1)) 32)) t.k,
    gs := vecMap (fun i _ => word (f (0x11E0 + 8 * i) 8)) t.gs,
    wake := f 0x1000 8 / 2 ^ 27 % 2 == 1, pc := word (f 0x1000 8 / 4 % 2 ^ 16 * 4) }

/-- Windows that a context fills while it is saved are marked with the context in place of its thread. -/
def Core.lendWindows (c : Core) (t ctx : Nat) : Core :=
  { c with windows := vecMap (fun _ (x : Window) => if x.state = .filling ∧ x.owner = t then { x with owner := 16 + ctx } else x) c.windows }
/-- The windows of a restored context are its thread's again. -/
def Core.returnWindows (c : Core) (t ctx : Nat) : Core :=
  { c with windows := vecMap (fun _ (x : Window) => if x.state = .filling ∧ x.owner = 16 + ctx then { x with owner := t } else x) c.windows }
/-- A thread whose context has been saved elsewhere is Free; its damage goes with the context. -/
def Core.vacate (c : Core) (t : Nat) : Core :=
  let x := c.thr t
  let c := if x.progress.begun then c.lendWindows t x.placedAt else c
  ({ c with badThread := c.badThread.filter (·.1 ≠ t) } : Core).updThr t (fun x => { x with
    status := .free, task := none, resume := false, progress := Progress.none, drops := [], handles := Vector.replicate 8 none })
/-- The damaged registers of a thread (R395). -/
def Core.badRegs (c : Core) (t : Nat) : List Nat := (c.badThread.filter (·.1 = t)).map (·.2)
/-- The word at the pc of a restored thread is its parked instruction, as it is read now; where it has changed since, nothing of the former one
goes on but how it ends. -/
def Core.reread (c : Core) (t : Nat) : Core :=
  match (c.thr t).buf with
  | [] => c
  | w :: _ =>
    (c.popWord t).updThr t (fun x =>
      let p := if w.code = x.inst then x.progress else { Progress.none with ending := x.progress.ending }
      let cause := if !w.ok then some lmProtection else if w.bad then some dataError else none
      { x with inst := w.code, progress := { p with ending := p.ending.or (cause.map (fun k => .trap k x.pc)) } })
/-- A context returns to its thread, which is Ready: the words from its pc on are read again (R143), and a parked instruction completes or is reissued
(R49).  A context stopped by HALT goes on, and one stopped on a breakpoint meets its BRK again, unless op 5 has led it behind that (R401). -/
def Core.putBack (c : Core) (t : Nat) (y : Thread) (bad : List Nat) : Core :=
  let parked := y.parkOf.isSome
  let y := match y.status with
    | .parked _ _ _ => { y with resume := true }
    | .ready | .stopped _ => { y with status := .ready, readyAt := c.cyc.toNat }
    | .free => y
  let c := (c.setThr t y).returnWindows t y.placedAt
  let c := ({ c with badThread := bad.map (fun r => (t, r)) ++ c.badThread } : Core).refill t
  if parked then c.reread t else c

/-! ### Slot lending (R387, R53) -/

/-- A parked context that a core may spill, apart from the record that has to wait for its thread. -/
def Core.spillCandidate (c : Core) (t : Nat) : Bool :=
  let x := c.thr t
  match x.status with
  | .parked w since _ => w.spillable && !x.resume && x.ctl.lend == 1 && since + 1024 ≤ c.cyc.toNat && !c.spills.any (fun y => y.valid && y.tid == t)
  | .free | .ready | .stopped _ => false
/-- The core with a context spilled. -/
def Core.spill (c : Core) (t : Nat) : Core :=
  let x : Saved := ⟨t, c.thr t, true, false, false, 0, c.badRegs t⟩
  { c.vacate t with spills := c.spills.filter (fun y => y.tid ≠ t) ++ [x] }
/-- CONTEXT_SPILL (R387): the candidate parked longest, while no task thread is Free and a record waits that its thread could run. -/
def execContextSpill (core tid : Nat) (s : State) : Res :=
  let c := s.coreAt core
  let full := (List.range 15).all (fun t => (c.thr t).status != .free)
  let key := fun (t : Nat) => match (c.thr t).status with | .parked _ _ o => o | .free | .ready | .stopped _ => 0
  let helps := fun (t : Nat) => c.spillCandidate t && !((s.setCore core (c.spill t)).placeable core).isEmpty
  if full && argMin key ((List.range 15).filter helps) == some tid then
    .next ((s.setCore core (c.spill tid)).unmark core ((c.thr tid).task.map (·.lnum)))
  else .next s
/-- A swapped context may return: its thread is Free, no restorable spilled context waits for it, and the dispatcher would serve its launch
next there (R348, R391). -/
def State.mayReturn (s : State) (core : Nat) (x : Saved) : Bool :=
  let c := s.coreAt core
  x.ready && !x.out && (c.thr x.tid).status == .free && !c.spills.any (fun y => y.valid && y.ready && y.tid == x.tid) &&
  (match x.thread.task.bind (fun k => s.launchAt k.lnum) with
   | none => false
   | some l =>
     !l.out.contains (dieOf core) &&
     (match s.slotFor core l with
      | none => false
      | some i => (bestLaunch ((l, i) :: s.placeable core)).any (fun e => e.1.lnum == l.lnum)))
/-- CONTEXT_RESTORE (R53, R388, R391): a restorable spilled context first, then a swapped one, which the pool record's registers reload, where its launch
could dispatch a task (R348, R352). -/
def execContextRestore (core tid : Nat) (s : State) : Res :=
  let c := s.coreAt core
  if tid ≥ 15 ∨ (c.thr tid).status ≠ .free then .next s
  else
    match c.spills.find? (fun y => y.valid && y.ready && y.tid == tid) with
    | some y =>
      let c := { c with spills := c.spills.map (fun (z : Saved) => if z.tid = tid then { z with valid := false, ready := false, bad := [] } else z) }
      .next (s.setCore core (c.putBack tid y.thread y.bad))
    | none =>
      match s.hub.pool.find? (fun e => e.1 == core && e.2.tid == tid && s.mayReturn core e.2) with
      | none => .next s
      | some e =>
        let y := e.2.thread.load (s.dramBytes (s.hub.poolPa + 8192 * e.2.record) 4608)
        let s := s.updHub (fun h => { h with pool := h.pool.filter (fun o => o.2.record ≠ e.2.record) })
        .next (s.updCore core (·.putBack tid y e.2.bad))

/-! ### Forced stops (R389 to R391) -/

/-- The window that a parked RPUTMV has read (R249). -/
def Thread.sentWindow (t : Thread) : Option Nat :=
  match decode t.inst with
  | .ok (.rputmv _ v) => if isWin v then some (v.toNat - 16) else none
  | _ => none
/-- A window source that a parked instruction has claimed holds its data again, as though it had not been read, where nothing has claimed the window
since (R390). -/
def Core.unclaim (c : Core) (t : Nat) : Option Core :=
  (c.thr t).sentWindow.bind (fun i => (c.windows[i]?).bind (fun (w : Window) =>
    if w.state = .empty ∧ w.data = (c.thr t).progress.data then
      some (({ c with windows := vecMap (fun j (x : Window) => if j = i then { x with state := .full } else x) c.windows } : Core).wakeIf
        (fun _ p => match p with | .window _ => true | _ => false))
    else none))
/-- A context stopped by R390: the state without what its instruction had under way, and whether the context waits for nothing; none while the
hub has to wait for the park to end. -/
def State.stopContext (s : State) (core t : Nat) : Option (State × Bool) :=
  let c := s.coreAt core
  let x := c.thr t
  let reissue := fun (s : State) =>
    some (s.updCore core (fun c => (c.abandon t).updThr t (fun x => { x with status := .ready })), true)
  if x.resume then none
  else
    match x.status with
    | .free => none
    | .ready | .stopped _ => some (s, true)
    | .parked w _ _ =>
      match w with
      | .reply | .drain => none
      | .fault _ => some (s, false)
      | .barrier _ => if x.progress.begun then some (s, false) else reissue s
      | .matrix _ =>
        match c.mq.find? (fun m => m.tid == t) with
        | none => reissue s
        | some m =>
          -- a command with its last k-block added completes first
          if m.form = 2 || decide (s.matTotal m ≤ m.next) then none
          else
            let s := s.updCore core (fun c => ({ c with mq := c.mq.filter (fun y => y.tid ≠ t) } : Core).wakeEngines)
            reissue (s.updThrAt core t (fun x => { x with ctl := { x.ctl with fflags := x.ctl.fflags ||| m.flags } }))
      | .credit =>
        if !x.progress.begun then reissue s
        else
          match c.unclaim t with
          | some c => reissue (s.setCore core c)
          -- a window that another instruction has claimed since stays read, and the context keeps the data and its park (log 54)
          | none => some (s, true)
      | .engineQueue | .landing _ _ | .window _ | .message _ | .wake | .counter _ _ | .version _ _ => reissue s
/-- The lowest free record number of the context pool. -/
def Hub.freeRecord (h : Hub) : Option Nat :=
  (List.range (h.pool.length + 1)).find? (fun n => decide (n < h.poolSize) && !h.pool.any (fun e => e.2.record == n))
/-- Writes a context to a record of the pool. -/
def State.poolWrite (s : State) (core num : Nat) (x : Saved) : State :=
  let rest := (List.range 3584).map (fun i => Config.poolByte s.fresh i)
  let s := s.dramPut (s.hub.poolPa + 8192 * num) (x.bytes ++ rest)
  let s : State := { s with fresh := s.fresh + 1 }
  s.updHub (fun h => { h with pool := h.pool ++ [(core, { x with record := num })] })
/-- A thread is stopped and its context goes to the pool: the state and the record number; none while the park has to end, or the pool has no
free record. -/
def State.swapOut (s : State) (core t : Nat) (out : Bool) : Option (State × Nat) :=
  match s.hub.freeRecord, s.stopContext core t with
  | some n, some (s, ready) =>
    let c := s.coreAt core
    let x : Saved := ⟨t, c.thr t, true, ready, out, n, c.badRegs t⟩
    some (((s.poolWrite core n x).updCore core (·.vacate t)).unmark core (x.thread.task.map (·.lnum)), n)
  | _, _ => none

/-- The pre-emption limit of a launch's queue in ns. -/
def Hub.prelimOf (h : Hub) (l : Launch) : Nat := (h.queue l.queue).prelim * 1000
/-- A launch occupies a core: it has a thread, a record or a spilled context there. -/
def Core.occupiedBy (c : Core) (l : Nat) : Bool := !(c.threadsOf l).isEmpty || c.deque.any (fun r => r.lnum == l) || c.spilledOf l
/-- A launch has to give up a thread of a core: a dispatchable record of a launch of higher priority finds no Free thread (R350); on a reserved die
it has to give up its threads, its records and its spilled contexts (R352). -/
def State.mustYield (s : State) (core : Nat) (k : Launch) : Bool :=
  let c := s.coreAt core
  if s.reservedFrom (dieOf core) k then c.occupiedBy k.lnum
  else !(c.threadsOf k.lnum).isEmpty && (List.range 15).all (fun t => (c.thr t).status != .free) && (s.placeable core).any (fun e => e.1.prio > k.prio)
/-- Marks the launches of a core that have to give up a thread, and drops marks whose reason is gone. -/
def State.markCore (s : State) (core : Nat) : State :=
  let ls := s.hub.launches.filter (fun k => s.mustYield core k)
  s.updCore core (fun c =>
    let kept := c.marks.filter (fun m => ls.any (fun k => k.lnum == m.1))
    { c with marks := kept ++ (ls.filter (fun k => !c.marks.any (fun m => m.1 == k.lnum))).map (fun k => (k.lnum, s.hub.now)) })
/-- The dies that the waiting heads which have reserved a die name (R352). -/
def Hub.reservedWith (h : Hub) (d : Nat) : List Nat :=
  ((h.heads.filter (fun y => y.2.pkt.isDet && y.2.pkt.valid && y.2.pkt.dieList.contains d)).flatMap (fun y => y.2.pkt.dieList)).eraseDups
/-- The time limit of a mark: on a reserved die the greatest limit of the launches that occupy a die which the waiting head names (R352). -/
def State.markLimit (s : State) (core : Nat) (k : Launch) : Nat :=
  if s.reservedFrom (dieOf core) k then
    let ds := s.hub.reservedWith (dieOf core)
    ((s.hub.launches.filter (fun l => s.cores.any (fun e => ds.contains (dieOf e.1) && e.2.occupiedBy l.lnum))).map s.hub.prelimOf).foldl max 0
  else s.hub.prelimOf k
/-- Records of a launch leave the deque of a core for the pool. -/
def State.poolDeque (s : State) (core l : Nat) : State :=
  let rs := (s.coreAt core).deque.filter (fun r => r.lnum == l)
  let s := s.updCore core (fun c => { c with deque := c.deque.filter (fun r => r.lnum ≠ l) })
  s.updLaunch l (fun y => { y with poolRecs := y.poolRecs ++ rs.map (fun r => (core, r)) })
/-- A spilled context as it goes to the pool (R390): a wait for a message, a wake, a counter or a version, none of which has claimed a window, is abandoned,
and its instruction is reissued at resume; one whose wait has ended in a trap keeps it. -/
def Saved.standby (x : Saved) (out : Bool) : Saved :=
  let again : Saved := { x with ready := true, out := out, thread := { x.thread with status := .ready, resume := false, progress := Progress.none } }
  match x.thread.parkOf with
  | some (.message _) | some .wake | some (.counter _ _) | some (.version _ _) => if x.thread.progress.ending.isSome then { x with out := out } else again
  | _ => { x with out := out }
/-- Spilled contexts of a launch on some cores go to the pool. -/
def State.poolSpills (s : State) (l : Nat) (cores : List Nat) (out : Bool) : Option State :=
  let xs := ((s.cores.filter (fun e => cores.contains e.1)).map (fun e =>
    (e.2.spills.filter (fun y => y.valid && y.thread.task.any (·.lnum == l))).map (fun y => (e.1, y)))).flatten
  xs.foldl (fun (o : Option State) e => o.bind (fun s => s.hub.freeRecord.map (fun n =>
    let s := s.updCore e.1 (fun c => { c with spills := c.spills.map (fun (z : Saved) => if z.tid = e.2.tid then { z with valid := false, ready := false } else z) })
    s.poolWrite e.1 n (e.2.standby out)))) (some s)
/-- FORCED_PREEMPTION (R350, R352, R389): the mark of a launch on a core is due; the thread placed last is stopped and saved.  On a reserved die every
thread is, one after the other, and then the spilled contexts and the records go to the pool, from which LAUNCH_DISTRIBUTE brings the records back
(log 44). -/
def execForcedPreemption (core lnum : Nat) (s : State) : Res :=
  let c := s.coreAt core
  match s.launchAt lnum, getKey c.marks lnum with
  | some k, some since =>
    if s.hub.now < since + s.markLimit core k ∨ s.mustYield core k = false then .next s
    else
      match argMax (fun (t : Nat) => (c.thr t).placedAt) (c.threadsOf lnum) with
      | none => .next (((s.poolDeque core lnum).poolSpills lnum [core] false).getD s)
      | some t =>
        match s.swapOut core t false with
        | some (s, _) => .next s
        | none => .next s
  | _, _ => .next s

/-! ### Command windows (R399, R402) -/

/-- The number after a command count: modulo 2^63, skipping 0. -/
def nextNumber (n : Nat) : Nat := if (n + 1) % 2 ^ 63 = 0 then 1 else (n + 1) % 2 ^ 63
/-- A window accepts a command and gives it its number. -/
def State.accept (s : State) (w : CmdWin) (c0 c1 c2 c3 : Word) : State × Nat :=
  let n := nextNumber ((getKey s.hub.counts w).getD 0)
  (s.updHub (fun h => { h with counts := setKey h.counts w n, cmds := h.cmds ++ [⟨w, c0, c1, c2, c3, n⟩] }), n)
/-- The oldest command of a window that is not complete. -/
def Hub.oldest (h : Hub) (w : CmdWin) : Option Command := h.cmds.find? (fun c => c.win == w)
/-- A command is complete: its number goes to its done word, with bit 63 when it was rejected. -/
def State.endCommand (s : State) (w : CmdWin) (num : Nat) (rejected : Bool) (done : Word) : State :=
  let s := s.updHub (fun h => { h with cmds := h.cmds.filter (fun c => !(c.win == w && c.num == num)) })
  s.paPut (done.toNat % 2 ^ 52) (bytesOfNat 8 (num + if rejected then 2 ^ 63 else 0))
/-- Runs a command in the order of its window: a command that has been accepted and not completed goes on, and a new one behind others waits. -/
def withCommand (w : CmdWin) (c0 c1 c2 c3 : Word) (s : State) (k : State → Nat → Res) : Res :=
  match s.hub.oldest w with
  | none => let r := s.accept w c0 c1 c2 c3; k r.1 r.2
  | some c =>
    if c.w0 = c0 ∧ c.w1 = c1 ∧ c.w2 = c2 ∧ c.w3 = c3 then k s c.num
    else .next (s.accept w c0 c1 c2 c3).1

/-! ### Context switch (R392, R401) -/

/-- The fields of a context switch command. -/
structure SwitchCmd where
  (tn op dies queue tid seq core : Nat)
  /-- No reserved field is set. -/
  clean : Bool
deriving DecidableEq, Repr
/-- A context switch command from its words. -/
def switchCmd (w0 w1 w2 : Word) : SwitchCmd :=
  ⟨bits w0 15 0, bits w0 23 16, bits w0 31 24, bits w0 47 32, bits w0 55 48, bits w1 31 0, bits w1 47 32,
   bits w0 63 56 == 0 && bits w1 63 48 == 0 && w2 == 0⟩
/-- The active launch that a queue and a sequence number name. -/
def Hub.named (h : Hub) (queue seq : Nat) : Option Launch := h.launches.find? (fun l => l.queue == queue && l.seq == seq)
/-- A command that breaks the table of R401. -/
def SwitchCmd.bad (x : SwitchCmd) : Bool :=
  !x.clean || 4095 < x.tn || x.op == 0 || 5 < x.op ||
  (if x.op ≤ 3 then x.tid != 0 || x.core != 0 else x.dies != 0 || 14 < x.tid || 9215 < x.core)
/-- The dies that a command selects of a launch. -/
def SwitchCmd.diesOf (x : SwitchCmd) (l : Launch) : List Nat := l.pkt.dieList.filter (fun d => x.dies == 0 || x.dies.testBit d)
/-- A thread holds a task of a launch. -/
def State.holdsTask (s : State) (core t l : Nat) : Bool :=
  let x := (s.coreAt core).thr t
  x.status != .free && x.task.any (·.lnum == l)
/-- Saved contexts of a launch on a core and thread. -/
def State.savedOf (s : State) (core t l : Nat) : List Saved :=
  (s.hub.pool.filter (fun e => e.1 == core && e.2.tid == t && e.2.thread.task.any (·.lnum == l))).map (·.2)
/-- Records of a launch leave the deques of some dies for the pool. -/
def State.poolRecords (s : State) (l : Nat) (ds : List Nat) : State :=
  (s.cores.filter (fun e => ds.contains (dieOf e.1))).foldl (fun (s : State) e => s.poolDeque e.1 l) s
/-- Stops the threads of a launch on some dies, as far as their parks have ended: the state, and whether all are stopped. -/
def State.stopThreads (s : State) (l : Nat) (ds : List Nat) : State × Bool :=
  let ts := ((s.cores.filter (fun e => ds.contains (dieOf e.1))).map (fun e =>
    ((List.range 15).filter (fun t => s.holdsTask e.1 t l)).map (fun t => (e.1, t)))).flatten
  ts.foldl (fun (p : State × Bool) e =>
    match p.1.swapOut e.1 e.2 true with
    | some (s, _) => (s, p.2)
    | none => (p.1, false)) (s, true)
/-- Op 1: every thread is stopped and every record pooled before the command completes (R392). -/
def switchOut (x : SwitchCmd) (l : Launch) (s : State) : State × Bool :=
  let ds := x.diesOf l
  let s := s.updLaunch l.lnum (fun y => { y with out := y.out ++ ds.filter (fun d => !y.out.contains d) })
  let s := s.poolRecords l.lnum ds
  match s.poolSpills l.lnum ((s.cores.map (·.1)).filter (fun c => ds.contains (dieOf c))) true with
  | none => (s, false)
  | some s => s.stopThreads l.lnum ds
/-- A context is made restorable; one stopped on a breakpoint or by HALT goes on when its own command says so (R401), behind a BRK as
Thread.leaveBreak has it. -/
def Saved.release (y : Saved) (alone : Bool) : Saved :=
  let y := { y with out := false }
  if !alone then y
  else
    match y.thread.status with
    | .stopped .breakpoint => { y with thread := { y.thread with status := .ready, pc := y.thread.pc + 4 } }
    | .stopped _ => { y with thread := { y.thread with status := .ready } }
    | .free | .ready | .parked _ _ _ => y
/-- Op 2: records go back, and swapped contexts are restorable; it is complete when every record is back (R392). -/
def switchResume (x : SwitchCmd) (l : Launch) (s : State) : State × Bool :=
  let ds := x.diesOf l
  let r := s.reseedOn l ds
  let s := r.1.updLaunch l.lnum (fun y => { y with out := y.out.filter (fun d => !ds.contains d) })
  (s.updPool (fun c x => if ds.contains (dieOf c) && x.thread.task.any (·.lnum == l.lnum) then x.release false else x), r.2)
/-- Op 5: the saved contexts of one thread are restorable. -/
def resumeOne (x : SwitchCmd) (l : Launch) (s : State) : State :=
  s.updPool (fun c y => if c == x.core && y.tid == x.tid && y.thread.task.any (·.lnum == l.lnum) then y.release true else y)
/-- A context switch command (R392, R401) of the operation that its row names; an unknown operation is rejected by any row. -/
def switchCommand (op : Nat) (c0 c1 c2 c3 : Word) (s : State) : Res :=
  let x := switchCmd c0 c1 c2
  if x.op ≠ op ∧ 1 ≤ x.op ∧ x.op ≤ 5 then .next s
  else
    withCommand .switch c0 c1 c2 c3 s fun s n =>
    let reject : Res := .next (s.endCommand .switch n true c3)
    let done := fun (s : State) => s.endCommand .switch n false c3
    match x.bad, s.hub.named x.queue x.seq with
    | true, _ | _, none => reject
    | false, some l =>
      if l.tn ≠ x.tn then reject
      else
        match op with
        | 1 =>
          let r := switchOut x l s
          .next (if r.2 then done r.1 else r.1)
        | 2 =>
          let r := switchResume x l s
          .next (if r.2 then done r.1 else r.1)
        | 3 => .next (done (s.abortLaunch l.lnum 4))
        | 4 =>
          if !s.holdsTask x.core x.tid l.lnum then reject
          else
            match s.swapOut x.core x.tid true with
            | some (s, num) => .next ((done s).paPut ((c3.toNat + 8) % 2 ^ 52) (bytesOfNat 8 num))
            | none => .next s
        | _ => if (s.savedOf x.core x.tid l.lnum).isEmpty then reject else .next (done (resumeOne x l s))
/-- SWITCH_OUT (R392). -/
def execSwitchOut (c0 c1 c2 c3 : Word) (s : State) : Res := switchCommand 1 c0 c1 c2 c3 s
/-- SWITCH_RESUME (R392). -/
def execSwitchResume (c0 c1 c2 c3 : Word) (s : State) : Res := switchCommand 2 c0 c1 c2 c3 s
/-- HOST_ABORT (R393, R401). -/
def execHostAbort (c0 c1 c2 c3 : Word) (s : State) : Res := switchCommand 3 c0 c1 c2 c3 s
/-- STOP_ONE_THREAD (R401). -/
def execStopOneThread (c0 c1 c2 c3 : Word) (s : State) : Res := switchCommand 4 c0 c1 c2 c3 s
/-- RESUME_ONE_THREAD (R401, R416). -/
def execResumeOneThread (c0 c1 c2 c3 : Word) (s : State) : Res := switchCommand 5 c0 c1 c2 c3 s

/-! ### Soft errors (R395, R177) -/

/-- SOFT_ERROR (R395): damage stands until the damaged place is written; thread numbers from 16 name the spilled contexts of threads 0 to 14. -/
def execSoftError (site : DamageSite) (s : State) : Res :=
  match site with
  | .lm core a => .next (s.updCore core (fun c => { c with badLm := a :: c.badLm.filter (· ≠ a) }))
  | .landing core i => .next (s.updCore core (fun c => { c with badLand := i :: c.badLand.filter (· ≠ i) }))
  | .window core i => .next (s.updCore core (fun c => { c with badWin := i :: c.badWin.filter (· ≠ i) }))
  | .thread core t r =>
    if t < 16 then .next (s.updCore core (fun c => { c with badThread := (t, r) :: c.badThread.filter (· ≠ (t, r)) }))
    else
      .next (s.updCore core (fun c => { c with spills := c.spills.map (fun (y : Saved) =>
        if y.tid + 16 = t ∧ y.valid = true then { y with bad := r :: y.bad.filter (· ≠ r) } else y) }))
  | .dram pa =>
    if s.isOwn pa && paPopulated pa then .next { s with badDram := localPa pa / 64 :: s.badDram.filter (· ≠ localPa pa / 64) } else .next s
  | .llc d tn va =>
    match (s.dieAt d).llcFind tn (lineOf va) with
    | some _ => .next (s.updDie d (fun x => { x with llc := x.llc.map (fun l => if l.tn = tn ∧ l.line = lineOf va then { l with bad := true } else l) }))
    | none => .next s
  | .matrixBuffer core => .next (s.updCore core (fun c => { c with badMatrix := true }))
  | .copyBuffer core => .next (s.updCore core (fun c => { c with badCopy := true }))

end Sys2Proof.Machine
end

