-- ==== Sys2Proof/Machine/Signature.lean ====
section
/-! DEFINITION. The verification of an ML-DSA-44 signature (R410: FIPS 204), written out from that standard (notes/assumptions/16).  A polynomial is the
list of its 256 coefficients modulo q; products are taken at the 256 odd powers of ζ, by evaluation and interpolation. -/

namespace Sys2Proof.Machine.MlDsa

/-! ### Polynomials modulo q and x^256 + 1 -/

/-- The modulus. -/
def q : Nat := 8380417
/-- The low rounding range γ2. -/
def gamma2 : Nat := 95232
/-- The difference of two residues. -/
def sub (a b : Nat) : Nat := (a + (q - b % q)) % q
/-- The first `n` powers of a residue, times a first factor. -/
def powers (r : Nat) : Nat → Nat → List Nat
  | 0, _ => []
  | n + 1, a => a :: powers r n (a * r % q)
/-- The 512 powers of ζ = 1753, a root of unity of that order. -/
def roots : List Nat := powers 1753 512 1
/-- The eight bits of a number in reverse. -/
def reverse8 (i : Nat) : Nat := (List.range 8).foldl (fun a b => 2 * a + i / 2 ^ b % 2) 0
/-- The exponent of ζ at which value `i` of a transform is taken. -/
def exponent (i : Nat) : Nat := 2 * reverse8 i + 1
/-- The sum of products of two lists. -/
def dot (a b : List Nat) : Nat := (List.zipWith (· * ·) a b).foldl (fun s x => (s + x) % q) 0
/-- A polynomial's values at the odd powers of ζ. -/
def evaluate (w : List Nat) : List Nat := (List.range 256).map (fun i => dot w (powers (roots.getD (exponent i) 0) 256 1))
/-- The polynomial that has certain values there: coefficient j is the mean of the values times ζ^(-j · exponent). -/
def interpolate (v : List Nat) : List Nat :=
  (List.range 256).map (fun j => 8347681 * dot v ((List.range 256).map (fun i => roots.getD ((512 - exponent i * j % 512) % 512) 0)) % q)
/-- Digits of `d` bits, lowest first. -/
def digits (d : Nat) : Nat → Nat → List Nat
  | 0, _ => []
  | n + 1, x => x % 2 ^ d :: digits d n (x / 2 ^ d)
/-- The 256 coefficients of `d` bits that the bytes of polynomial `i` of a string hold. -/
def coefficients (d i : Nat) (l : List Nat) : List Nat := digits d 256 (Aes.number ((l.drop (32 * d * i)).take (32 * d)))

/-! ### What the hash functions draw -/

/-- The values below q among numbers of 23 bits, one from each three bytes. -/
def draw : List Nat → List Nat
  | a :: b :: c :: l => let x := a + 256 * b + 65536 * (c % 128); if x < q then x :: draw l else draw l
  | _ => []
/-- The entry of the public matrix in a row and a column, by its values; 336 numbers are drawn. -/
def matrixEntry (rho : List Nat) (row col : Nat) : List Nat := (draw (Keccak.shake128 1008 (rho ++ [col, row]))).take 256
/-- Places the signs of a challenge: for each position from `i` on, the first byte that is not above it names the coefficient that moves there. -/
def placeSigns : Nat → Nat → List Nat → List Nat → List Nat → List Nat
  | 0, _, _, _, c => c
  | n + 1, i, signs, draws, c =>
    match draws.dropWhile (fun x => i < x), signs with
    | j :: l, s :: t => placeSigns n (i + 1) t l ((c.set i (c.getD j 0)).set j (if s = 1 then q - 1 else 1))
    | _, _ => c
/-- The challenge: 39 coefficients are 1 or −1; 264 bytes are drawn. -/
def challengePoly (seed : List Nat) : List Nat :=
  let l := Keccak.shake256 272 seed
  placeSigns 39 217 (digits 1 64 (Aes.number (l.take 8))) (l.drop 8) (List.replicate 256 0)

/-! ### Hints -/

/-- A list rises strictly. -/
def rising : List Nat → Bool
  | a :: b :: l => decide (a < b) && rising (b :: l)
  | _ => true
/-- A list does not fall. -/
def steady : List Nat → Bool
  | a :: b :: l => decide (a ≤ b) && steady (b :: l)
  | _ => true
/-- The hinted positions of each of four polynomials: 80 bytes of positions, the unused ones 0, then where the positions of each end. -/
def hints (l : List Nat) : Option (List (List Nat)) :=
  let ends := l.drop 80
  let part := fun (i : Nat) => let a := (0 :: ends).getD i 0; (l.drop a).take (ends.getD i 0 - a)
  let parts := (List.range 4).map part
  if steady (ends ++ [80]) && parts.all rising && ((l.take 80).drop (ends.getD 3 0)).all (· == 0) then some parts else none
/-- The high part of a residue, corrected where it is hinted. -/
def highPart (hinted : Bool) (r : Nat) : Nat :=
  let low := r % (2 * gamma2)
  let up := decide (0 < low) && decide (low ≤ gamma2)
  let top := if low ≤ gamma2 then r / (2 * gamma2) else r / (2 * gamma2) + 1
  let high := top % 44
  if !hinted then high else if top != 44 && up then (high + 1) % 44 else (high + 43) % 44

/-! ### Verification -/

/-- The vector whose high part a valid signature's commitment is: A z − c t1 2^13, one polynomial for each row. -/
def commitment (key c : List Nat) (z : List (List Nat)) : List (List Nat) :=
  let zs := z.map evaluate
  let cs := evaluate c
  (List.range 4).map (fun row =>
    let t := evaluate ((coefficients 10 row (key.drop 32)).map (fun x => x * 8192 % q))
    let az := (List.range 4).map (fun col => List.zipWith (fun x y => x * y % q) (matrixEntry (key.take 32) row col) (zs.getD col []))
    let sum := az.foldl (fun a b => List.zipWith (fun x y => (x + y) % q) a b) (List.replicate 256 0)
    interpolate (List.zipWith sub sum (List.zipWith (fun x y => x * y % q) cs t)))
/-- A signature with an empty context verifies under a public key over a message. -/
def verify (key m sig : List Nat) : Bool :=
  if key.length ≠ 1312 || sig.length ≠ 2420 then false
  else
    match hints (sig.drop 2336) with
    | none => false
    | some h =>
      let seed := sig.take 32
      let packed := (List.range 4).map (fun i => coefficients 18 i (sig.drop 32))
      let z := packed.map (·.map (fun x => sub 131072 x))
      let mu := Keccak.shake256 64 (Keccak.shake256 64 key ++ [0, 0] ++ m)
      let w := List.zipWith (fun (p places : List Nat) => (List.range 256).map (fun i => highPart (places.contains i) (p.getD i 0)))
        (commitment key (challengePoly seed) z) h
      let code := w.flatMap (fun p => Aes.bytes 192 (p.foldr (fun x a => x + 64 * a) 0))
      packed.all (·.all (fun x => decide (78 < x) && decide (x < 262066))) && Keccak.shake256 32 (mu ++ code) == seed

end Sys2Proof.Machine.MlDsa

namespace Sys2Proof.Machine

/-- Whether an ML-DSA-44 signature verifies under a public key over the SHA3-256 digest of the signed bytes (R410). -/
def signatureValid (key : List Byte) (d : BitVec 256) (sig : List Byte) : Bool :=
  MlDsa.verify (key.map (·.toNat)) (Aes.bytes 32 d.toNat) (sig.map (·.toNat))

end Sys2Proof.Machine
end

