-- ==== Sys2Proof/Machine/Package.lean ====
section
/-! DEFINITION. Shootdowns (R162 to R167), readiness (R403, R404), the fabric and other packages (R223, R224, R405), package reset (R406), power
(R407, R408), security (R410 to R416), and the installation of copy programs (R417). -/

namespace Sys2Proof.Machine

/-- Runs a row unless the package is in hold (R413). -/
def unlessHold (s : State) (k : Unit → Res) : Res := if s.hub.sec.hold then .next s else k ()
/-- Runs a row of the host or of hub firmware unless only the security engine answers (R410, R413). -/
def unlessSealed (s : State) (k : Unit → Res) : Res := if s.hub.sealed then .next s else k ()

/-! ### Shootdowns (R162 to R167) -/

/-- A shootdown command that breaks the field rules of R162. -/
def shootBad (c0 c1 c2 : Word) : Bool :=
  4095 < bits c0 15 0 || bits c0 23 16 == 0 || 3 < bits c0 23 16 || bits c0 63 32 != 0 || c1.toNat % 2 ^ 19 != 0 || c2.toNat % 2 ^ 19 != 0 ||
  c2.toNat ≤ c1.toNat || 2 ^ 56 < c2.toNat
/-- A line of a tenancy in a range of whole pages. -/
def lineIn (tn lo hi t line : Nat) : Bool := t == tn && lo ≤ line * 256 && line * 256 < hi
/-- The purge of a die (R163, step 1): dirty data go home, every copy in the range goes, and push-table entries in the range are discarded and
counted (R165, R374). -/
def State.purgeDie (s : State) (tn lo hi d : Nat) : State :=
  let mine := fun (t line : Nat) => lineIn tn lo hi t line
  let lines := ((s.dieAt d).llc.filter (fun l => mine l.tn l.line)).map (·.line)
  let s := lines.foldl (fun (s : State) line => s.evict (State.llcStore s.lineCount) d tn line) s
  let shot := ((s.cores.filter (fun e => dieOf e.1 == d)).map (fun e => (e.2.pushTable.filter (fun p => mine p.tn p.line)).map (·.region))).flatten
  let s := s.updCoresOn d (fun c => { c with pushTable := c.pushTable.filter (fun p => !mine p.tn p.line) })
  let s := shot.foldl (fun (s : State) r => s.updDie d (fun x => x.updRegion r (fun y => { y with shot := y.shot + 1 }))) s
  s.updDie d (fun x => { x with counts := x.counts.filter (fun k => !mine k.tn k.line) })
/-- The entries of a range leave the translation caches of a die (R163, steps 2 and 3). -/
def Die.dropTlb (d : Die) (tn lo hi : Nat) : Die :=
  { d with slices := d.slices.map (fun y => (y.1, { y.2 with
      tlb := y.2.tlb.filter (fun e => !(e.tn == tn && e.va < hi && lo < e.va + pageSize e.level)) })) }
/-- The line that the running command has written in part. -/
def CopyCmd.midLine (x : CopyCmd) : Option Nat :=
  match x.started && decide (0 < x.pos), x.leastLeft, x.range with
  | true, some a, some (lo, _) => if a % 256 ≠ 0 ∧ lo < a then some (a / 256) else none
  | _, _, _ => none
/-- A migrating leaf holds a read of the running command. -/
def CopyCmd.awaits (x : CopyCmd) : Bool :=
  match x.stop with
  | .hold _ .migrate => true
  | .hold _ .other | .status _ _ _ | .page _ _ _ _ _ => false
/-- A copy engine of a die is in the middle of a line of a range: its recall waits until the engine's write to the line is complete (R163).  A
command that a migrating leaf holds writes nothing, and its line is recalled as it is. -/
def State.recallWaits (s : State) (tn lo hi d : Nat) : Bool :=
  s.cores.any (fun e => dieOf e.1 == d && (match e.2.cq with
    | x :: _ => (x.owner.map (·.2)) == some tn && x.midLine.any (fun l => lo ≤ l * 256 && decide (l * 256 < hi)) && !x.held.any (fun h => h.2 == .migrate) && !x.awaits
    | [] => false))
/-- The invalidate of ops 1 and 3: purged, and from then on every access in the range is held until the command completes.  While an engine is in the
middle of a line, or a guest line cannot be written home, nothing has happened yet. -/
def State.invalidate (s : State) (c0 c1 c2 : Word) : State :=
  let tn := bits c0 15 0
  let lo := c1.toNat
  let hi := c2.toNat
  let ds := (List.range 8).filter (fun d => (bits c0 31 24).testBit d)
  if ds.any (s.recallWaits tn lo hi) then s
  else
    let s' := ds.foldl (fun (s : State) d => s.purgeDie tn lo hi d) s
    let s' := ds.foldl (fun (s : State) d => s.updDie d (fun x => x.dropTlb tn lo hi)) s'
    s.unlessJam (s'.updHub (fun h => { h with shoot := some ⟨tn, bits c0 23 16, bits c0 31 24, lo, hi⟩ }))
/-- Accesses of a tenancy that migrating leaves hold in a range are walked afresh, on every die, those of saved contexts and of the hub included
(R167). -/
def State.releaseHeld (s : State) (tn lo hi : Nat) : State :=
  let here := fun (va : Nat) => lo ≤ va && va < hi
  let thread := fun (t : Thread) =>
    if t.ctl.tenancy.toNat = tn then { t with progress := { t.progress with held := t.progress.held.filter (fun va => !here va) } } else t
  let mat := fun (m : MatCmd) =>
    match m.stop with
    | .held va .migrate => if m.tn = tn ∧ here va = true then { m with stop := .running } else m
    | .running | .faulted _ _ | .held _ .other => m
  let copy := fun (x : CopyCmd) =>
    if (x.owner.map (·.2)).getD 0 = tn then
      { x with
        held := x.held.map (fun e => if here e.1 then (e.1, Hold.other) else e),
        stop := match x.stop with
          | .hold va _ => if here va then .hold va .other else x.stop
          | .status _ _ _ | .page _ _ _ _ _ => x.stop }
    else x
  let saved := fun (x : Saved) => ({ x with thread := thread x.thread } : Saved)
  let s := { s with
    cores := s.cores.map (fun (e : Nat × Core) => (e.1, { e.2 with
      threads := vecMap (fun _ t => thread t) e.2.threads, mq := e.2.mq.map mat, cq := e.2.cq.map copy, spills := e.2.spills.map saved })),
    reds := s.reds.map (fun (r : Red) => if r.tn = tn ∧ here r.va = true then { r with held := none } else r),
    hub := { s.hub with waits := s.hub.waits.filter (fun w => !(w.tn == tn && here w.va)) } }
  (s.updPool (fun _ x => saved x)).retryHeld
/-- A shootdown command in the order of its window: `run` acts on an accepted one, and tells whether it is complete. -/
def shootCommand (op : Nat) (c0 c1 c2 c3 : Word) (s : State) (run : State → State × Bool) : Res :=
  let o := bits c0 23 16
  if o ≠ op ∧ 1 ≤ o ∧ o ≤ 3 then .next s
  else
    withCommand .shootdown c0 c1 c2 c3 s fun s n =>
    if shootBad c0 c1 c2 then .next (s.endCommand .shootdown n true c3)
    else if s.hub.shoot.isSome then .next s
    else
      let r := run s
      .next (if r.2 then r.1.endCommand .shootdown n false c3 else r.1)
/-- SHOOTDOWN_INVALIDATE (R163). -/
def execShootdownInvalidate (c0 c1 c2 c3 : Word) (s : State) : Res :=
  unlessSealed s fun _ => shootCommand 1 c0 c1 c2 c3 s fun s => (s.invalidate c0 c1 c2, false)
/-- SHOOTDOWN_RELEASE (R167). -/
def execShootdownRelease (c0 c1 c2 c3 : Word) (s : State) : Res :=
  unlessSealed s fun _ => shootCommand 2 c0 c1 c2 c3 s fun s => (s.releaseHeld (bits c0 15 0) c1.toNat c2.toNat, true)
/-- SHOOTDOWN_INVALIDATE_RELEASE (R162). -/
def execShootdownInvalidateRelease (c0 c1 c2 c3 : Word) (s : State) : Res :=
  unlessSealed s fun _ => shootCommand 3 c0 c1 c2 c3 s fun s => (s.invalidate c0 c1 c2, false)
/-- SHOOTDOWN_COMPLETE (R163): no access that used the old entries is under way; the done word is written, what the shootdown held goes on,
and op 3 releases. -/
def execShootdownComplete (s : State) : Res :=
  match s.hub.shoot, s.hub.oldest .shootdown with
  | some x, some c =>
    let s := (s.updHub (fun h => { h with shoot := none })).endCommand .shootdown c.num false c.w3
    .next (if x.op = 3 then s.releaseHeld x.tn x.lo x.hi else s.retryHeld)
  | some _, none => .next (s.updHub (fun h => { h with shoot := none })).retryHeld
  | none, _ => .next s

/-! ### Security alarms and package reset (R406, R410, R413, R414) -/

/-- The code of a cause. -/
def alarmCode (c : AlarmCause) : Nat :=
  match c with
  | .firmware => 1
  | .debugToken => 2
  | .tamper => 3
  | .glitch => 4
  | .keyStore => 5
/-- A record among the earlier ones, the newest first: alarms of one hub cycle stand in the order of their causes' codes (R414). -/
def insertAlarm (r : AlarmRec) : List AlarmRec → List AlarmRec
  | [] => [r]
  | a :: l => if a.cycle = r.cycle ∧ r.cause < a.cause then a :: insertAlarm r l else r :: a :: l
/-- The alarm log keeps its 16 newest records. -/
def State.logAlarm (s : State) (c : AlarmCause) (source : Word) : State :=
  (s.updHub (fun h => { h with sec := { h.sec with
    alarms := (insertAlarm ⟨alarmCode c, h.now, source⟩ h.sec.alarms).take 16, alarmCount := h.sec.alarmCount + 1 } })).signal63
/-- Completion words with status 5 for every active launch that can be reached, and the end of them all. -/
def State.endLaunches (s : State) : State :=
  let ls := s.hub.launches
  let s := ls.foldl (fun (s : State) l => s.abortLaunch l.lnum 5) s
  let s := ls.foldl (fun (s : State) l => (s.complete_ (firstDie l.pkt.dies) l.tn l.pkt.done (completionWord 5 l.seq)).1) s
  s.updHub (fun h => { h with launches := [] })
/-- Whether a firmware image carries a good signature over the digest of its signed bytes (R410). -/
def firmwareVerified (img : List Byte) : Bool :=
  let n := Config.signedBytes img
  signatureValid Config.firmwareKey (digest (img.take n)) (img.drop n)
/-- The boot ROM verifies the image staged for this reset, or else the one that ran (R410, R411). -/
def State.boot (s : State) : State :=
  let img := match s.hub.sec.staged with
    | some (pa, n) => s.dramBytes pa n
    | none => s.hub.sec.firmware
  let ok := firmwareVerified img
  s.updHub (fun h => { h with sec := { h.sec with
    firmware := img, verified := ok, staged := none, challenge := none, response := [], request := [], command := none, status := 0 } })
/-- A package reset (R406): everything of the package is as after reset but for its keys and fuse, its alarm log, hub time, and what lies
outside; DRAM holds undefined bytes. -/
def State.resetPackage (s : State) : State :=
  let b := s.boot
  { State.reset with
    hub := { Hub.reset with now := s.hub.now, pkg := s.hub.pkg, sec := b.hub.sec, signals := (63, 0) :: s.hub.signals, allDown := some s.hub.now },
    far := s.far, agenda := s.agenda, nextId := s.nextId, fresh := s.fresh, dramEpoch := s.dramEpoch + 1 }
/-- A core with every byte of its L1 and LM, the slot table and the save areas among them, and every landing and window register zero (R413). -/
def Core.zeroed (c : Core) : Core :=
  ({ c with l1 := [], lm := [], slots := [], loading := none, spills := [], landing := Vector.replicate 32 ⟨0, false, [], 0⟩,
            windows := Vector.replicate 8 ⟨0, .empty, 0⟩, badLm := [], badLand := [], badWin := [] } : Core).lmPut 0x3F000 (List.replicate 4096 0)
/-- Every L1, LLC cell, LM, landing and window register of the package is zero (R413), also of the cores that are not listed. -/
def State.zeroAll (s : State) : State :=
  { s with
    dies := s.dies.map (fun (e : Nat × Die) => (e.1, { e.2 with llc := [] })),
    cores := (List.range 9216).map (fun c => (c, (s.coreAt c).zeroed)) }
/-- The action of fuse values 10 and 11, in the order of R413: the keys are erased before the launches end. -/
def State.eraseAndHold (s : State) : State :=
  let sec := fun (s : State) (f : Security → Security) => s.updHub (fun h => { h with sec := f h.sec })
  sec (sec s (fun x => { x with keys := [], command := none })).endLaunches.zeroAll (fun x => { x with hold := true })
/-- PACKAGE_RESET (R406): firmware that fails its verification raises the alarm, whose action, where it is a reset, is this one. -/
def execPackageReset (s : State) : Res :=
  unlessHold s fun _ =>
  let r := s.resetPackage
  if r.hub.sec.verified then .next r
  else
    let r := r.logAlarm .firmware 0
    .next (if 2 ≤ r.hub.sec.fuse then r.eraseAndHold else r)
/-- SECURITY_ALARM (R413, R414): the record, then the action that the fuse fixes; in hold an alarm is only logged. -/
def execSecurityAlarm (cause : AlarmCause) (source : Word) (s : State) : Res :=
  let s := s.logAlarm cause source
  if s.hub.sec.hold then .next s
  else
    match s.hub.sec.fuse with
    | 0 => .next s
    | 1 => execPackageReset s.endLaunches
    | _ => .next s.eraseAndHold

/-! ### Copy programs (R314, R417) -/

/-- A PA in tier 00 or 01 of this package (R150). -/
def Hub.ownTier (h : Hub) (pa : Nat) (tiers : Nat) : Bool := pa < 2 ^ 52 && paPkg pa == h.pkg && paTier pa < tiers
/-- COPY_PROGRAM_INSTALL (R417). -/
def execCopyProgramInstall (c0 c1 c2 c3 : Word) (s : State) : Res :=
  unlessSealed s fun _ =>
  withCommand .copyProg c0 c1 c2 c3 s fun s n =>
  let core := bits c0 15 0
  let ok := core ≤ 9215 && c1.toNat % 4096 == 0 && s.hub.ownTier c1.toNat 2 && c2 == 0
  match ok, s.hub.named (bits c0 31 16) (bits c0 63 32) with
  | true, some l =>
    if s.remains core l.lnum then
      .next ((s.restartCopy core (s.dramBytes c1.toNat 4096) (some l.lnum)).endCommand .copyProg n false c3)
    else .next (s.endCommand .copyProg n true c3)
  | _, _ => .next (s.endCommand .copyProg n true c3)

/-! ### Readiness, fabric, other packages (R223, R224, R403 to R405) -/

/-- A readiness bit: 0 to 63 of word 0, and 64 up of word 1. -/
def Hub.readyBit (h : Hub) (b : Nat) : Bool := if b < 64 then h.ready0.getLsbD b else h.ready1.getLsbD (b - 64)
/-- Sets or clears a readiness bit. -/
def Hub.setReady (h : Hub) (b : Nat) (v : Bool) : Hub :=
  let f := fun (w : Word) (i : Nat) => if v then w ||| (1 <<< i) else w &&& ~~~((1 : Word) <<< i)
  if b < 64 then { h with ready0 := f h.ready0 b } else { h with ready1 := f h.ready1 (b - 64) }
/-- The die whose core array a bit names (R403). -/
def coresBit (b : Nat) : Option Nat := if 67 ≤ b ∧ b < 75 then some (b - 67) else none
/-- The state of a die goes with its core array; what waits at its cores is in the mesh again. -/
def State.dropDie (s : State) (d : Nat) : State :=
  { s with
    cores := s.cores.filter (fun (e : Nat × Core) => dieOf e.1 ≠ d), dies := dropKey s.dies d,
    reds := s.reds.filter (fun (r : Red) => dieOf r.core ≠ d), pushes := s.pushes.filter (fun (p : Push) => p.die ≠ d),
    granted := s.granted.filter (fun g => g.core.map dieOf ≠ some d), puts := s.puts.filter (fun (p : Nat × Nat) => dieOf p.1 ≠ d),
    net := s.net.map (fun (x : NetItem) => match x.phase with
      | .waiting _ => if dieOf x.dst = d then { x with phase := .flight } else x
      | .flight | .acked | .dropped _ => x) }
/-- The state after a change of the readiness of a port: since when all are down (R405), and what a port that is up lets go on. -/
def State.portChange (s : State) : State :=
  (s.updHub (fun h => { h with allDown := if bits h.ready1 36 19 = 0 then some (h.allDown.getD h.now) else none })).retryHeld
/-- FUNCTION_READY (R403, R404): a core array starts with the state of R44, and what memory was not ready for goes on.  The hub comes up only
with verified firmware (R410). -/
def execFunctionReady (bit : Nat) (s : State) : Res :=
  unlessHold s fun _ =>
  if 102 ≤ bit ∨ s.hub.readyBit bit = true ∨ (bit = 64 ∧ s.hub.sec.verified = false) then .next s
  else
    let s := match coresBit bit with
      | some d => s.dropDie d
      | none => s
    .next (s.updHub (·.setReady bit true)).signal63.portChange
/-- FUNCTION_FAIL (R404): every launch that names a failed die ends with status 5. -/
def execFunctionFail (bit : Nat) (s : State) : Res :=
  if 102 ≤ bit ∨ s.hub.readyBit bit = false then .next s
  else
    let s := (s.updHub (·.setReady bit false)).signal63.portChange
    match coresBit bit with
    | none => .next s
    | some d =>
      let ls := (s.hub.launches.filter (fun l => l.pkt.dieList.contains d)).map (·.lnum)
      .next ((ls.foldl (fun (s : State) l => s.abortLaunch l 5) s).dropDie d)
/-- PORT_DOWN (R405). -/
def execPortDown (p : Nat) (s : State) : Res :=
  if 18 ≤ p ∨ s.hub.readyBit (83 + p) = false then .next s else .next (s.updHub (·.setReady (83 + p) false)).signal63.portChange
/-- One bits of a mask. -/
def maskCount (m : Mask) : Nat := ((List.range 256).filter (fun i => m.getLsbD i)).length
/-- A command whose data are lost, or whose target is, reports *remote unavailable*, unless it has ended with another failure (R223). -/
def CopyCmd.loseHome (x : CopyCmd) : CopyCmd :=
  { x with out := [], put := if x.fn = 2 then 2 else x.put, held := none, stop := match x.stop with
      | .status st _ _ => if st = 0 ∨ st = 7 then .status 3 0 false else x.stop
      | .page _ _ _ _ _ | .hold _ _ => .status 3 0 false }
/-- The running command has written bytes of a line. -/
def CopyCmd.wroteLine (x : CopyCmd) (tn line : Nat) : Bool :=
  x.started && x.fn != 2 && decide (0 < x.done) && (x.owner.map (·.2)) == some tn && x.leastLeft.all (fun a => line * 256 < a) &&
  x.range.any (fun r => r.1 < line * 256 + 256 && line * 256 < r.2)
/-- A die drops the guest lines of a package and counts their dirty bytes; a command that wrote such bytes has lost them (R223). -/
def State.dropGuestsOf (s : State) (d p : Nat) : State :=
  let ls := (s.dieAt d).llc.filter (fun l => paPkg l.pa == p && !s.isOwn l.pa)
  ls.foldl (fun (s : State) l =>
    let r := s.recallInto d l false
    let s := r.1.dropCopies d l.tn l.line [0, 1, 2, 3]
    let s := s.updDie d (fun x => let x := x.llcDrop l.tn l.line; { x with guestDiscards := x.guestDiscards + maskCount r.2.mask })
    if r.2.mask = 0 then s
    else s.updCoresOn d (fun c => { c with cq := c.cq.map (fun x => if x.wroteLine l.tn l.line then x.loseHome else x) })) s
/-- A put whose target has become unavailable reports it (R223). -/
def State.failPut (s : State) (core id : Nat) : State :=
  match (s.coreAt core).cq with
  | x :: _ => if x.id = id then s.setCopy core x.loseHome else s
  | [] => s
/-- A package becomes unavailable (R223). -/
def State.losePackage (s : State) (p : Nat) : State :=
  if p = s.hub.pkg then s
  else
    let s := s.updHub (fun h => { h with podAvail := h.podAvail.filter (· ≠ p) })
    let s := { s with dies := s.dies.map (fun (e : Nat × Die) => (e.1, { e.2 with
      slices := e.2.slices.map (fun (y : Nat × Slice) => (y.1, { y.2 with tlb := y.2.tlb.filter (fun t => paPkg (ptePa t.pte) ≠ p) })) })) }
    let s := (s.dies.map (·.1)).foldl (fun (s : State) d => s.dropGuestsOf d p) s
    let target := fun (q : Nat × Nat) => match (s.coreAt q.1).cq with
      | x :: _ => x.id == q.2 && bits x.w0 63 54 == p
      | [] => false
    let lost := s.puts.filter target
    (lost.foldl (fun (s : State) q => s.failPut q.1 q.2) { s with puts := s.puts.filter (fun (q : Nat × Nat) => !target q) }).retryHeld
/-- PACKAGE_UNAVAILABLE (R223, R405). -/
def execPackageUnavailable (p : Nat) (s : State) : Res := .next (s.losePackage p)
/-- Every port has been down for 10 µs (R405). -/
def Hub.cutOff (h : Hub) : Bool := h.allDown.any (fun t => decide (t + 10000 ≤ h.now))
/-- With every port down for 10 µs, every other package is unavailable (R405). -/
def State.cutOff (s : State) : State := if s.hub.cutOff then s.hub.podAvail.foldl State.losePackage s else s
/-- PACKAGE_AVAILABLE (R224): there has to be a working path (R405). -/
def execPackageAvailable (p : Nat) (s : State) : Res :=
  if 1024 ≤ p ∨ p = s.hub.pkg ∨ s.hub.podAvail.contains p = true ∨ s.hub.cutOff = true then .next s
  else .next (s.updHub (fun h => { h with podAvail := p :: h.podAvail }))

/-! ### Accepted commands -/

/-- The row of a command that a window has accepted (R399). -/
def runCommand (c : Command) (s : State) : Res :=
  match c.win, bits c.w0 23 16 with
  | .shootdown, 2 => execShootdownRelease c.w0 c.w1 c.w2 c.w3 s
  | .shootdown, 3 => execShootdownInvalidateRelease c.w0 c.w1 c.w2 c.w3 s
  | .shootdown, _ => execShootdownInvalidate c.w0 c.w1 c.w2 c.w3 s
  | .switch, 2 => execSwitchResume c.w0 c.w1 c.w2 c.w3 s
  | .switch, 3 => execHostAbort c.w0 c.w1 c.w2 c.w3 s
  | .switch, 4 => execStopOneThread c.w0 c.w1 c.w2 c.w3 s
  | .switch, 5 => execResumeOneThread c.w0 c.w1 c.w2 c.w3 s
  | .switch, _ => execSwitchOut c.w0 c.w1 c.w2 c.w3 s
  | .copyProg, _ => execCopyProgramInstall c.w0 c.w1 c.w2 c.w3 s
  | .wake, _ => execWakeRetry c.w0 c.w1 c.w2 c.w3 s

/-! ### Security commands (R411, R412, R416) -/

/-- Changes the security engine. -/
def State.updSec (s : State) (f : Security → Security) : State := s.updHub (fun h => { h with sec := f h.sec })
/-- The status word of a command. -/
def State.secStatus (s : State) (n : Nat) : State := s.updSec (fun x => { x with status := n })
/-- A command of the security engine, which has to be ready: the one that the mailbox holds, or one that finds the engine idle; while the engine runs
another one, it is refused (R411).  Where the mailbox lays the operands out is not stated: the row brings them (log 32). -/
def secCommand (code : Nat) (s : State) (k : State → Res) : Res :=
  if !s.hub.readyBit 101 then .next s
  else
    match s.hub.sec.command with
    | some (c, _) => if c = code then k (s.updSec (fun x => { x with command := none })) else .next (s.secStatus 1)
    | none => k s
/-- The link or firmware core that gave the engine its command. -/
def Hub.secWriter (h : Hub) : Nat := (h.sec.command.map (·.2)).getD 0
/-- A write to the mailbox at an offset (R411): request data, or a command word; none where it is discarded.  While the engine is busy a command word
is refused with status 1, and an unknown command with status 2; in hold command 3 alone gets an answer (R413). -/
def State.mailboxWrite (s : State) (writer off : Nat) (x : Word) : Option State :=
  if off % 8 ≠ 0 ∨ s.hub.readyBit 101 = false then none
  else if off = 0 then
    if s.hub.sec.command.isSome then some (s.secStatus 1)
    else if s.hub.sec.hold && x != 3 then some s
    else if 1 ≤ x.toNat ∧ x.toNat ≤ 7 then some (s.updSec (fun y => { y with command := some (x.toNat, writer), status := 1 }))
    else some (s.secStatus 2)
  else if 0x100 ≤ off ∧ off < 0x800 then some (s.updSec (fun y => { y with request := setKey y.request off x }))
  else none
/-- KEY_LOAD (R411). -/
def execKeyLoad (slot : Nat) (replace : Bool) (wrapped : BitVec 576) (s : State) : Res :=
  unlessHold s fun _ => secCommand 1 s fun s =>
  if slot = 0 ∨ 127 < slot ∨ ((s.hub.keyPair slot).isSome = true ∧ replace = false) then .next (s.secStatus 2)
  else
    match unwrapKey wrapped with
    | none => .next (s.secStatus 3)
    | some k => .next ((s.updSec (fun x => { x with keys := setKey x.keys slot k })).secStatus 0)
/-- KEY_ERASE (R411). -/
def execKeyErase (slot : Nat) (s : State) : Res :=
  unlessHold s fun _ => secCommand 2 s fun s =>
  if slot = 0 ∨ 127 < slot then .next (s.secStatus 2)
  else .next ((s.updSec (fun x => { x with keys := dropKey x.keys slot })).secStatus 0)
/-- The attestation report (R412): digest, fuse, readiness words, nonce. -/
def State.report (s : State) (nonce : BitVec 256) : List Byte :=
  bytesOfNat 32 (digest s.hub.sec.firmware).toNat ++ bytesOfNat 8 s.hub.sec.fuse ++ bytesOfNat 8 s.hub.ready0.toNat ++
  bytesOfNat 8 s.hub.ready1.toNat ++ bytesOfNat 8 0 ++ bytesOfNat 32 nonce.toNat
/-- ATTEST (R412): it answers in hold too (R413). -/
def execAttest (nonce : BitVec 256) (s : State) : Res :=
  secCommand 3 s fun s =>
  let r := s.report nonce
  .next ((s.updSec (fun x => { x with response := r ++ Config.identitySignature (digest r) })).secStatus 0)
/-- DEBUG_CHALLENGE (R411). -/
def execDebugChallenge (tn : Nat) (s : State) : Res :=
  unlessHold s fun _ => secCommand 4 s fun s =>
  if 4095 < tn then .next (s.secStatus 2)
  else
    let c := Config.challenge s.fresh
    let s : State := { s with fresh := s.fresh + 1 }
    .next ((s.updSec (fun x => { x with challenge := some (tn, c), response := bytesOfNat 32 c.toNat })).secStatus 0)
/-- DEBUG_UNLOCK (R411): the challenge is good for one unlock; a signature that fails raises the alarm (R413). -/
def execDebugUnlock (tn : Nat) (sig : List Byte) (s : State) : Res :=
  unlessHold s fun _ =>
  let source := word s.hub.secWriter
  secCommand 5 s fun s =>
  match s.hub.sec.challenge with
  | none => .next (s.secStatus 2)
  | some (t, c) =>
    if t ≠ tn then .next (s.secStatus 2)
    else
      let s := s.updSec (fun x => { x with challenge := none })
      if signatureValid Config.tokenKey (digest (bytesOfNat 32 c.toNat ++ bytesOfNat 2 tn)) sig then
        .next ((s.updHub (fun h => { h with debugOn := if h.debugOn.contains tn then h.debugOn else tn :: h.debugOn })).secStatus 0)
      else execSecurityAlarm .debugToken source (s.secStatus 4)
/-- A thread of a tenancy that is stopped on a breakpoint goes on behind its BRK; behind the last word of LM that is the fetch fault of R12
(Thread.offEnd). -/
def Thread.leaveBreak (t : Thread) (tn : Nat) : Thread :=
  if t.status = .stopped .breakpoint ∧ t.ctl.tenancy.toNat = tn then { t with status := .ready, pc := t.pc + 4 } else t
/-- DEBUG_LOCK (R411, R416): threads stopped on a breakpoint go on at BRK + 4, also those saved in the context pool, which no resume command has to
name first. -/
def execDebugLock (tn : Nat) (s : State) : Res :=
  unlessHold s fun _ => secCommand 6 s fun s =>
  if 4095 < tn then .next (s.secStatus 2)
  else
    let go := fun (c : Core) (t : Nat) =>
      if (c.thr t).leaveBreak tn = c.thr t then c else (c.updThr t (fun x => { x.leaveBreak tn with readyAt := c.cyc.toNat })).refill t
    let s := { s with cores := s.cores.map (fun (e : Nat × Core) => (e.1, (List.range 16).foldl go e.2)) }
    let s := s.updPool (fun _ x => if x.thread.leaveBreak tn = x.thread then x else { x with thread := x.thread.leaveBreak tn, out := false })
    .next ((s.updHub (fun h => { h with debugOn := h.debugOn.filter (· ≠ tn) })).secStatus 0)
/-- FIRMWARE_STAGE (R411). -/
def execFirmwareStage (pa len : Nat) (s : State) : Res :=
  unlessHold s fun _ => secCommand 7 s fun s =>
  if len = 0 ∨ s.hub.ownTier pa 2 = false ∨ paPopulated pa = false ∨ paPopulated (pa + len - 1) = false then .next (s.secStatus 2)
  else .next ((s.updSec (fun x => { x with staged := some (pa, len) })).secStatus 0)

/-! ### Power (R407, R408) -/

/-- The `n` islands of a list with the greatest draws; the first of equals. -/
def topIslands (draw : Nat → Nat) : Nat → List Nat → List Nat
  | 0, _ => []
  | n + 1, l =>
    match argMax draw l with
    | none => []
    | some i => i :: topIslands draw n (l.filter (· ≠ i))
/-- The step of an island at the end of a window, before a deterministic launch binds it. -/
def Hub.windowStep (h : Hub) (watts : Nat) (dieWatts draws : List Nat) (i : Nat) : Nat × Bool :=
  let w := fun (d : Nat) => (dieWatts[d]?).getD 0
  let draw := fun (j : Nat) => (draws[j]?).getD 0
  let x := h.island i
  let lower := (2600 < watts && (topIslands draw 32 (List.range 128)).contains i) ||
    (250 < w (i / 16) && (topIslands draw 4 (islandsOf (i / 16))).contains i)
  let cur := if lower && x.cur != 0 then x.cur - 1
    else if watts < 2500 && w (i / 16) < 235 && x.cur < x.cap then x.cur + 1
    else x.cur
  (min cur x.cap, lower && x.cur != 0)
/-- POWER_WINDOW (R408): the end of a window with the power of the package, of each die and of each island. -/
def execPowerWindow (watts : Nat) (dieWatts draws : List Nat) (s : State) : Res :=
  let h := s.hub
  let step := h.windowStep watts dieWatts draws
  let bound := fun (i : Nat) =>
    match (s.dieAt (i / 16)).det with
    | none => (step i).1
    | some l =>
      let ds := (List.range 8).filter (fun d => (s.dieAt d).det == some l)
      (((ds.map islandsOf).flatten).map (fun j => (step j).1)).foldl min 10
  let new := (List.range 128).map (fun i => (i, { h.island i with
    cur := bound i, throttles := (h.island i).throttles + if (step i).2 then 1 else 0 }))
  .next (s.updHub (fun h => { h with islands := new }))

end Sys2Proof.Machine
end

