-- ==== Sys2Proof/Machine/Control.lean ====
section
/-! DEFINITION. What the host and hub firmware reach: the aperture (R398), the launch window's reads (R338), the control range (R399 to R402), and
the capture units (R409). -/

namespace Sys2Proof.Machine

/-! ### The aperture (R398) -/

/-- A byte of a core's LM as the aperture reads it: the slot table and the save areas are shown from their records (R139, R388). -/
def State.lmView (s : State) (core a : Nat) : Byte :=
  let c := s.coreAt core
  let plain := memGet lmDefault c.lm a
  if a < 0x200 then
    let i := a / 32
    let x := c.slotAt i
    ((bytesOfNat 2 x.tag ++ bytesOfNat 1 x.state ++ bytesOfNat 1 (s.slotUsers core i) ++ bytesOfNat 4 x.base ++ bytesOfNat 4 x.code ++
      bytesOfNat 4 x.data ++ bytesOfNat 4 x.dbytes)[a % 32]?).getD 0
  else if 0x2E200 ≤ a ∧ a < 0x3F000 then
    match c.spills.find? (fun y => y.tid == (a - 0x2E200) / 0x1200) with
    | some y => (y.bytes[(a - 0x2E200) % 0x1200]?).getD 0
    | none => plain
  else plain
/-- What an aperture offset names: an LM byte of a core, a byte of the package's memory, or nothing. -/
inductive ApTarget where
  | lm (core addr : Nat)
  | mem (pa : Nat)
  | none
deriving DecidableEq, Repr
/-- The target of an aperture offset (R398); unpopulated memory is no target. -/
def apTarget (s : State) (a : Nat) : ApTarget :=
  if a / 2 ^ 42 % 2 = 1 then
    let pa := s.hub.pkg * 2 ^ 42 + a % 2 ^ 42
    if a < 2 ^ 43 ∧ paPopulated pa then .mem pa else .none
  else if a < 0x90000000 then .lm (a / 0x40000) (a % 0x40000)
  else .none
/-- An aperture access that is discarded or reads zero, counted by the hub. -/
def State.discardAperture (s : State) : State := s.updHub (fun h => { h with discardedAperture := h.discardedAperture + 1 })
/-- APERTURE_WRITE (R398): an 8-byte word; in LM it is aligned, and in memory it goes to any offset. -/
def execApertureWrite (off : Nat) (x : Word) (s : State) : Res :=
  unlessSealed s fun _ =>
  match apTarget s off with
  | .mem pa => .next (s.dramWrite pa 8 x.toNat)
  | .none => .next s.discardAperture
  | .lm c i =>
    if i % 8 ≠ 0 then .next s.discardAperture
    else
      match (s.coreAt c).attr (i / 512) with
      | .data | .code _ => .next (s.updCore c (fun k => k.lmWrite i 8 x.toNat))
      | .system | .copy => .next (s.updDie (dieOf c) (fun d => { d with apertureDiscards := d.apertureDiscards + 1 }))

/-! ### Capture units (R409) -/

/-- CAPTURE_UNIT_CONTROL (R409). -/
def execCaptureUnitControl (u : Nat) (x : Word) (s : State) : Res :=
  unlessSealed s fun _ =>
  if 64 ≤ u then .next s
  else .next (s.updHub (fun h => { h with captures := setKey h.captures u { Capture.reset with arg := bits x 39 24, code := bits x 4 1, en := x.getLsbD 0 } }))
/-- The level that a unit watches, read from the state; none for a unit that watches none. -/
def State.captureLevel (s : State) (u : Nat) : Option Nat :=
  let c := s.hub.capture u
  if !c.en then none
  else if u < 8 then
    if c.code = 2 then let q := s.hub.queue c.arg; some (q.fifo.length + q.ring.length) else none
  else if u < 64 ∧ c.code = 5 then
    some (cellsUsed ((s.dieAt ((u - 8) / 7)).llc.filter (fun l => sliceOfLine l.line l.tn == c.arg)))
  else none
/-- A unit takes a sample of its level. -/
def State.sampleLevel (s : State) (u : Nat) : State :=
  match s.captureLevel u with
  | some n => s.addSample u n
  | none => s
/-- CAPTURE_SAMPLE (R409): the level of a unit; a latency is added by the event that ends it. -/
def execCaptureSample (place i : Nat) (s : State) : Res := .next (s.sampleLevel (unitAt place i))
/-- The samples of a moment: every 1,024 cycles of the hub's clock, and of the dies' reference clock. -/
def State.sampleLevels (s : State) : State :=
  let n := s.hub.now
  let hub := if n % 1024 = 0 then hubUnits else []
  let dies := if dieCycles n / 1024 ≠ dieCycles (n - 1) / 1024 then (List.range 8).flatMap dieUnits else []
  (hub ++ dies).foldl State.sampleLevel s

/-! ### The control range: writes (R399 to R401) -/

/-- A control access that is discarded and counted. -/
def State.discardControl (s : State) : State := s.updHub (fun h => { h with discardedControl := h.discardedControl + 1 })
/-- Every fabric port is down. -/
def Hub.portsDown (h : Hub) : Bool := bits h.ready1 36 19 == 0
/-- The window of an offset. -/
def windowAt (i : Nat) : CmdWin := if i = 0 then .shootdown else if i = 1 then .wake else if i = 2 then .switch else .copyProg
/-- A write of a link or firmware core into a command window: its last word makes the command of the words that this writer has staged (R399). -/
def State.windowWrite (s : State) (writer : Nat) (w : CmdWin) (i : Nat) (x : Word) : Res :=
  if i ≠ 3 then .next (s.updHub (fun h => { h with staged := setKey h.staged (w, writer, i) x }))
  else
    let c := fun (j : Nat) => (getKey s.hub.staged (w, writer, j)).getD 0
    let s := s.updHub (fun h => { h with staged := h.staged.filter (fun e => !(e.1.1 == w && e.1.2.1 == writer)) })
    match w with
    | .wake => if bits (c 0) 47 40 = 2 then execWakeFail (c 0) (c 1) (c 2) x s else execWakeRetry (c 0) (c 1) (c 2) x s
    | .shootdown | .switch | .copyProg => .next (s.accept w (c 0) (c 1) (c 2) x).1
/-- A word of a queue record (R337): a change of state is a row of its own. -/
def State.queueWrite (s : State) (q i : Nat) (x : Word) : Option Res :=
  let r := s.hub.queue q
  if i = 0 then
    let opened := bits x 23 16 == 1
    if 4095 < bits x 15 0 || 1 < bits x 23 16 || 7 < bits x 31 24 || bits x 47 32 < 20 || bits x 63 48 != 0 then none
    else
      let s := s.updHub (·.setQueue { r with tenancy := bits x 15 0, maxprio := bits x 31 24, prelim := bits x 47 32 })
      some (if opened = r.opened then .next s else if opened then execQueueOpen q s else execQueueClose q s)
  else if i = 1 then
    if x.toNat % 4096 = 0 ∧ s.hub.ownTier x.toNat 2 = true then some (.next (s.updHub (·.setQueue { r with backing := x.toNat }))) else none
  else if i = 2 then
    let n := bits x 31 0
    if 16 ≤ n ∧ n ≤ 65536 ∧ 2 ^ Nat.log2 n = n then some (.next (s.updHub (·.setQueue { r with entries := n }))) else none
  else none
/-- A word of a window record (R220). -/
def State.winWrite (s : State) (n i : Nat) (x : Word) : Option State :=
  let w := s.hub.window n
  let put := fun (w : WinRec) => some (s.updHub (fun h => { h with winTab := setKey h.winTab n w }))
  match i with
  | 0 =>
    if 4095 < bits x 15 0 || 1 < bits x 23 16 || bits x 31 24 != 0 || 9215 < bits x 47 32 || bits x 63 48 != 0 then none
    else put { w with tenancy := bits x 15 0, state := bits x 23 16, core := bits x 47 32 }
  | 1 => if bits x 31 0 % 8 != 0 || 0x40000 ≤ bits x 31 0 || bits x 63 32 != 0 then none else put { w with ctr := bits x 31 0 }
  | 2 => if x.toNat % 256 != 0 || 2 ^ 56 ≤ x.toNat then none else put { w with base := x.toNat }
  | _ => if x.toNat % 256 != 0 || x.toNat < 256 || 2 ^ 40 < x.toNat then none else put { w with len := x.toNat }
/-- A region record that nothing has written.  DESIGN CHOICE (log 5): its k is 2. -/
def VRegion.fresh : VRegion := ⟨0, 0, 0, 2, false, 0, 0, 0, 0, [0, 0, 0, 0], 0, false⟩
/-- A word of a region record (R265); words from +32 up are the hub's. -/
def State.vregionWrite (s : State) (key : Nat × Nat) (i : Nat) (x : Word) : Option Res :=
  let r := (getKey s.hub.vregions key).getD VRegion.fresh
  let put := fun (r : VRegion) => s.updHub (fun h => { h with vregions := setKey h.vregions key r })
  match i with
  | 0 => if x.toNat % 2 ^ 19 != 0 || 2 ^ 56 ≤ x.toNat then none else some (.next (put { r with base := x.toNat }))
  | 1 => if x.toNat % 2 ^ 19 != 0 || x = 0 then none else some (.next (put { r with len := x.toNat }))
  | 2 => if x.toNat % 4096 = 0 ∧ s.hub.ownTier x.toNat 1 = true then some (.next (put { r with tagpa := x.toNat })) else none
  | 3 =>
    let k := bits x 7 0
    let st := bits x 15 8
    if (k != 2 && k != 4) || 1 < st || bits x 31 16 != 0 || bits x 63 32 == 0xFFFFFFFF then none
    else
      let s := put { r with k := k, basev := bits x 63 32, live := r.live && st == 1 }
      some (if st = 0 then .next (s.wakeVersions key) else if r.live then .next s else execRegionRecordLive key.1 key.2 s)
  | _ => none
/-- A word of a pod group record (R405). -/
def State.groupWrite (s : State) (n i : Nat) (x : Word) : Option State :=
  let g := (getKey s.hub.podGroups n).getD ⟨0, 0, 0, 0⟩
  let put := fun (g : PodGroup) => some (s.updHub (fun h => { h with podGroups := setKey h.podGroups n g }))
  match i with
  | 0 =>
    if 4095 < bits x 15 0 || 1 < bits x 23 16 || bits x 31 24 != 0 || 4095 < bits x 47 32 || bits x 63 48 != 0 then none
    else put { g with tenancy := bits x 15 0, state := bits x 23 16, lnum := bits x 47 32 }
  | 1 => if bits x 63 32 != 0 then none else put { g with e := bits x 31 0 }
  | _ => if x = 0 then some s else none
/-- The four routes of a word (R400). -/
def State.routeWrite (s : State) (i : Nat) (x : Word) : Option State :=
  let r := fun (j : Nat) => x.toNat / 2 ^ (16 * j) % 2 ^ 16
  if (List.range 4).any (fun j => r j / 64 % 512 != 0) then none
  else some (s.updHub (fun h => { h with routes := (List.range 4).foldl (fun (m : List (Nat × Nat)) j => setKey m (4 * i + j) (r j)) h.routes }))
/-- A word of an overflow area entry: PA, then N (R256, R399). -/
def State.areaWrite (s : State) (tn i : Nat) (x : Word) : Option State :=
  let e := (getKey s.hub.overflowAreas tn).getD (0, 0)
  let put := fun (e : Nat × Nat) => some (s.updHub (fun h => { h with overflowAreas := setKey h.overflowAreas tn e }))
  let n := x.toNat
  if i = 0 then (if n < 2 ^ 52 then put (n, e.2) else none)
  else if n = 0 ∨ (64 ≤ n ∧ n ≤ 65536 ∧ 2 ^ Nat.log2 n = n) then put (e.1, n)
  else none
/-- A write to a plain register of the first page; none where it is discarded. -/
def State.registerWrite (s : State) (off : Nat) (x : Word) : Option State :=
  let n := x.toNat
  match off with
  | 0x10 => if n < 1024 ∧ s.hub.portsDown = true then some (s.updHub (fun h => { h with pkg := n })) else none
  | 0x18 => if 1 ≤ n ∧ n ≤ 1024 then some (s.updHub (fun h => { h with ageStep := n })) else none
  | 0x20 => if n < 2 ^ 52 then some (s.updHub (fun h => { h with tntab := n })) else none
  | 0x28 => if n < 2 ^ 52 then some (s.updHub (fun h => { h with poolPa := n })) else none
  | 0x30 => some (s.updHub (fun h => { h with poolSize := n }))
  | _ => none
/-- A write to the control range (R399): none where it is discarded and counted. -/
def State.controlWrite (s : State) (writer off : Nat) (x : Word) : Option Res :=
  let at_ := fun (base size unit : Nat) => if base ≤ off ∧ off < base + size then some ((off - base) / unit, (off - base) % unit / 8) else none
  if off % 8 ≠ 0 then none
  else if off < 0x1000 then (s.registerWrite off x).map .next
  else
    match at_ 0x1000 0x80 32, at_ 0x10000 0x2000 8, at_ 0x20000 0x10000 16, at_ 0x100000 0x80000 32, at_ 0x180000 0x80000 32,
      at_ 0x200000 0x1000000 64, at_ 0x1200000 0x1000 256, at_ 0x1300000 0x800 16, at_ 0x1400000 0x4000 256 with
    | some (w, i), _, _, _, _, _, _, _, _ => some (s.windowWrite writer (windowAt w) i x)
    | _, some (i, _), _, _, _, _, _, _, _ => (s.routeWrite i x).map .next
    | _, _, some (t, i), _, _, _, _, _, _ => (s.areaWrite t i x).map .next
    | _, _, _, some (q, i), _, _, _, _, _ => s.queueWrite q i x
    | _, _, _, _, some (w, i), _, _, _, _ => (s.winWrite w i x).map .next
    | _, _, _, _, _, some (r, i), _, _, _ => s.vregionWrite (r / 64, r % 64) i x
    | _, _, _, _, _, _, some (g, i), _, _ => (s.groupWrite g i x).map .next
    | _, _, _, _, _, _, _, some (n, i), _ =>
      if i = 0 ∧ bits x 63 12 = 0 ∧ bits x 7 4 = 0 then
        some (.next (s.updHub (fun h => { h with islands := setKey h.islands n { h.island n with cap := min 10 (bits x 3 0) } })))
      else none
    | _, _, _, _, _, _, _, _, some (u, i) =>
      if i = 0 ∧ bits x 63 40 = 0 ∧ bits x 23 5 = 0 then some (execCaptureUnitControl u x s) else none
    | _, _, _, _, _, _, _, _, _ => none
/-- The key store, of which any read or write raises the alarm, in a sealed package too (R413). -/
def inKeyStore (off : Nat) : Bool := decide (0x5000000 ≤ off ∧ off < 0x6000000)
/-- CONTROL_RANGE_WRITE of a link, 0 or 1, or a firmware core (R399): the security mailbox answers a sealed package too (R410, R413), and the key
store raises the alarm. -/
def execControlRangeWrite (writer off : Nat) (x : Word) (s : State) : Res :=
  if 0x4000000 ≤ off ∧ off < 0x4001000 then .next ((s.mailboxWrite writer (off - 0x4000000) x).getD s.discardControl)
  else if inKeyStore off then execSecurityAlarm .keyStore (word writer) (if s.hub.sealed then s else s.discardControl)
  else
    unlessSealed s fun _ => (s.controlWrite writer off x).getD (.next s.discardControl)

/-! ### The control range: reads (R399) -/

/-- The offset of a word in a range of the map, if it lies there. -/
def inside (off base size : Nat) : Option Nat := if base ≤ off ∧ off < base + size then some (off - base) else none
/-- The i-th of some words, 0 behind their end. -/
def wordOf (l : List Nat) (i : Nat) : Word := word ((l[i]?).getD 0)
/-- A register of the first page. -/
def Hub.firstPage (h : Hub) (off : Nat) : Option Word :=
  match off with
  | 0x0 => some h.ready0
  | 0x8 => some h.ready1
  | 0x10 => some (word h.pkg)
  | 0x18 => some (word h.ageStep)
  | 0x20 => some (word h.tntab)
  | 0x28 => some (word h.poolPa)
  | 0x30 => some (word h.poolSize)
  | _ =>
    (inside off 0x40 64).map (fun o =>
      wordOf [h.staleWakes, h.faultedStores, h.discardedControl, h.discardedAperture, h.copyRestarts, h.lostNoArea] (o / 8))
/-- A queue record (R337). -/
def Queue.words (q : Queue) : List Nat :=
  [q.tenancy + q.opened.toNat * 2 ^ 16 + q.maxprio * 2 ^ 24 + q.prelim * 2 ^ 32, q.backing, q.entries + q.seq * 2 ^ 32, q.dropped]
/-- A window record (R220). -/
def WinRec.words (w : WinRec) : List Nat := [w.tenancy + w.state * 2 ^ 16 + w.core * 2 ^ 32, w.ctr, w.base, w.len]
/-- A region record (R265). -/
def VRegion.words (r : VRegion) : List Nat :=
  [r.base, r.len, r.tagpa, r.k + r.live.toNat * 2 ^ 8 + r.basev * 2 ^ 32, r.oldest + r.opened * 2 ^ 32, r.sealed,
   (r.due.zipIdx.map (fun e => e.1 % 2 ^ 16 * 2 ^ (16 * e.2))).sum, r.forwarded]
/-- A pod group record (R405). -/
def PodGroup.words (g : PodGroup) : List Nat := [g.tenancy + g.state * 2 ^ 16 + g.lnum * 2 ^ 32, g.e]
/-- An island record (R407). -/
def Island.words (i : Island) : List Nat := [i.cap + i.cur * 2 ^ 8, i.throttles]
/-- A capture unit (R409). -/
def Capture.words (c : Capture) : List Nat :=
  [c.en.toNat + c.code * 2 + c.arg * 2 ^ 24, c.count.toNat, c.min.toNat, c.max.toNat] ++ c.hist.map (·.toNat)
/-- The counters of a slice (R182). -/
def Die.sliceWords (d : Die) (i : Nat) : List Nat :=
  let ls := d.llc.filter (fun l => sliceOfLine l.line l.tn == i)
  let x := d.slice i
  [ls.length, cellsUsed ls] ++ (List.range 9).map (fun k => (ls.filter (fun l => l.cells.length == k)).length) ++
    [x.expansions, x.expevict, x.fills, x.discards, x.merges, x.combines]
/-- The alarm log (R414): after the count, the record of the n-th alarm at place n - 1 modulo 16. -/
def Security.logWords (x : Security) : List Nat :=
  [x.alarmCount, 0, 0, 0] ++ (List.range 16).flatMap (fun j =>
    match (x.alarms.zipIdx.find? (fun e => (x.alarmCount - 1 - e.2) % 16 == j)).map (·.1) with
    | some r => [r.cause, r.cycle, r.source.toNat, 0]
    | none => [0, 0, 0, 0])
/-- The security mailbox (R411). -/
def Security.mailbox (x : Security) (off : Nat) : Word :=
  if off = 0 then word ((x.command.map (·.1)).getD 0)
  else if off = 8 then word x.status
  else if off < 0x800 then (getKey x.request off).getD 0
  else word (natOfBytes ((x.response.drop (off - 0x800)).take 8))
/-- A read of the control range (R399): none where the map has nothing.  The words of a command window read zero (log 53). -/
def State.controlRead (s : State) (off : Nat) : Option Word :=
  let h := s.hub
  let rec_ := fun (base size unit : Nat) (f : Nat → List Nat) => (inside off base size).map (fun o => wordOf (f (o / unit)) (o % unit / 8))
  if off % 8 ≠ 0 then none
  else if off < 0x1000 then h.firstPage off
  else
    [ (inside off 0x1000 0x80).map (fun _ => (0 : Word)),
      rec_ 0x10000 0x2000 8 (fun i => [((List.range 4).map (fun j => h.route (4 * i + j) * 2 ^ (16 * j))).sum]),
      rec_ 0x20000 0x10000 16 (fun t => let a := (getKey h.overflowAreas t).getD (0, 0); [a.1, a.2]),
      rec_ 0x100000 0x80000 32 (fun q => (h.queue q).words),
      rec_ 0x180000 0x80000 32 (fun w => (h.window w).words),
      rec_ 0x200000 0x1000000 64 (fun r => ((getKey h.vregions (r / 64, r % 64)).getD VRegion.fresh).words),
      rec_ 0x1200000 0x1000 256 (fun g => ((getKey h.podGroups g).getD ⟨0, 0, 0, 0⟩).words),
      rec_ 0x1210000 0x200 8 (fun i => [(h.debugOn.filter (fun t => t / 64 == i)).foldl (fun a t => a ||| 2 ^ (t % 64)) 0]),
      rec_ 0x1300000 0x800 16 (fun i => (h.island i).words),
      rec_ 0x1400000 0x4000 256 (fun u => (h.capture u).words),
      rec_ 0x1500000 0x800 256 (fun d => let x := s.dieAt d; [x.guestDiscards, x.droppedWrites, x.apertureDiscards]),
      rec_ 0x2000000 0x90000 256 (fun i => (s.dieAt (i / 288)).sliceWords (i % 288)),
      (inside off 0x4000000 0x1000).map h.sec.mailbox,
      rec_ 0x4010000 0x400 0x400 (fun _ => h.sec.logWords) ].findSome? id
/-- What a sealed package still answers (R413): the readiness map, the mailbox and the alarm log. -/
def answersSealed (off : Nat) : Bool := off < 0x10 || (inside off 0x4000000 0x1000).isSome || (inside off 0x4010000 0x400).isSome
/-- APERTURE_READ (R338, R398, R399): an 8-byte read of the host or of hub firmware, whose value is the model's `hostRead`.  The launch window reads
zero, and so does what the other ranges do not have, which is counted; a read of the key store raises the alarm (R413). -/
def execApertureRead (what : HostRead) (s : State) : Res :=
  let give := fun (s : State) (x : Word) => s.updHub (fun h => { h with hostRead := x })
  match what with
  | .launch _ => unlessSealed s fun _ => .next (give s 0)
  | .control reader off =>
    if inKeyStore off then execSecurityAlarm .keyStore (word reader) (if s.hub.sealed then s else give s.discardControl 0)
    else if s.hub.sealed && !answersSealed off then .next s
    else
      match s.controlRead off with
      | some x => .next (give s x)
      | none => .next (give s.discardControl 0)
  | .aperture off =>
    unlessSealed s fun _ =>
    let byte := fun (a : Nat) => match apTarget s a with
      | .lm c i => s.lmView c i
      | .mem pa => ((s.dramBytes pa 1)[0]?).getD 0
      | .none => 0
    .next (give s (word (natOfBytes ((List.range 8).map (fun i => byte (off + i))))))

end Sys2Proof.Machine
end

