-- ==== Sys2Proof/Machine/Fps.lean ====
section
/-! DEFINITION. The scalar floating-point group, major opcode 0x20 (R104 to R110). -/

namespace Sys2Proof.Machine

/-- The shared shape: the result is written zero-extended, the flags are raised, and the instruction completes (R85, R92). -/
def fpWrite (d : Reg) (r : Fl) (interval : Nat) (s : State) : Res := ((s.wr d (word r.x)).raise r.fl).next interval
/-- A two-operand operation under the control word. -/
def fp2 (f : Fcw → Nat → Nat → Fl) (d a b : Reg) (interval : Nat) (s : State) : Res :=
  fpWrite d (f s.fcw (s.rd a).toNat (s.rd b).toNat) interval s

/-- FADD (R105). -/
def execFadd (t : ElemTy) (d a b : Reg) (s : State) : Res := fp2 (fpAdd t) d a b 4 s
/-- FSUB (R105). -/
def execFsub (t : ElemTy) (d a b : Reg) (s : State) : Res := fp2 (fpSub t) d a b 4 s
/-- FMUL (R105). -/
def execFmul (t : ElemTy) (d a b : Reg) (s : State) : Res := fp2 (fpMul t) d a b 4 s
/-- FFMA (R105); reads rd. -/
def execFfma (t : ElemTy) (d a b : Reg) (s : State) : Res := fp2 (fun c => fpFma t c false (s.rd d).toNat) d a b 4 s
/-- FMIN (R106). -/
def execFmin (t : ElemTy) (d a b : Reg) (s : State) : Res := fp2 (fpMin t) d a b 4 s
/-- FMAX (R106). -/
def execFmax (t : ElemTy) (d a b : Reg) (s : State) : Res := fp2 (fpMax t) d a b 4 s
/-- FABS (R107). -/
def execFabs (t : ElemTy) (d a : Reg) (s : State) : Res := fpWrite d (fpAbs t (s.rd a).toNat) 4 s
/-- FNEG (R107). -/
def execFneg (t : ElemTy) (d a : Reg) (s : State) : Res := fpWrite d (fpNeg t (s.rd a).toNat) 4 s
/-- FEQ (R108). -/
def execFeq (t : ElemTy) (d a b : Reg) (s : State) : Res := fp2 (fun c => fpCmp t c .eq) d a b 4 s
/-- FLT (R108). -/
def execFlt (t : ElemTy) (d a b : Reg) (s : State) : Res := fp2 (fun c => fpCmp t c .lt) d a b 4 s
/-- FLE (R108). -/
def execFle (t : ElemTy) (d a b : Reg) (s : State) : Res := fp2 (fun c => fpCmp t c .le) d a b 4 s
/-- FDIV (R105), interval 16 (R45). -/
def execFdiv (t : ElemTy) (d a b : Reg) (s : State) : Res := fp2 (fpDiv t) d a b 16 s
/-- FSQRT (R105), interval 16 (R45). -/
def execFsqrt (t : ElemTy) (d a : Reg) (s : State) : Res := fpWrite d (fpSqrt t s.fcw (s.rd a).toNat) 16 s
/-- FCLASS (R109). -/
def execFclass (t : ElemTy) (d a : Reg) (s : State) : Res := fpWrite d ⟨fpClass t (s.rd a).toNat, 0⟩ 4 s
/-- FCVT (R110): `t` is the destination type; under SR it takes one step of the generator (R94). -/
def execFcvt (t u : ElemTy) (d a : Reg) (s : State) : Res :=
  let c := s.fcw
  let y := xsStep s.thr.ctl.seed
  let r := convert t u c (bits y 63 32) (s.rd a).toNat
  let s := if c.isSr then s.updCtl (fun c => { c with seed := y }) else s
  fpWrite d ⟨if t = .i32 then (sextNat 32 r.x).toNat else r.x, r.fl⟩ 4 s

end Sys2Proof.Machine
end

