-- ==== Sys2Proof/Machine/Dispatch.lean ====
section
/-! DEFINITION. One arm per instruction and event: the meaning that it runs. -/

namespace Sys2Proof.Machine

/-- The meaning of an instruction or event. -/
def exec (i : Instr) (s : State) : Host.Outcome State Fault Refusal :=
  match i with
  | .add d a b => Sys2Proof.Machine.execAdd d a b s
  | .sub d a b => Sys2Proof.Machine.execSub d a b s
  | .and d a b => Sys2Proof.Machine.execAnd d a b s
  | .or d a b => Sys2Proof.Machine.execOr d a b s
  | .xor d a b => Sys2Proof.Machine.execXor d a b s
  | .andn d a b => Sys2Proof.Machine.execAndn d a b s
  | .orn d a b => Sys2Proof.Machine.execOrn d a b s
  | .shl d a b => Sys2Proof.Machine.execShl d a b s
  | .shr d a b => Sys2Proof.Machine.execShr d a b s
  | .sra d a b => Sys2Proof.Machine.execSra d a b s
  | .rol d a b => Sys2Proof.Machine.execRol d a b s
  | .slt d a b => Sys2Proof.Machine.execSlt d a b s
  | .sltn d a b => Sys2Proof.Machine.execSltn d a b s
  | .seq d a b => Sys2Proof.Machine.execSeq d a b s
  | .min d a b => Sys2Proof.Machine.execMin d a b s
  | .max d a b => Sys2Proof.Machine.execMax d a b s
  | .minn d a b => Sys2Proof.Machine.execMinn d a b s
  | .maxn d a b => Sys2Proof.Machine.execMaxn d a b s
  | .mul d a b => Sys2Proof.Machine.execMul d a b s
  | .mulh d a b => Sys2Proof.Machine.execMulh d a b s
  | .mulhn d a b => Sys2Proof.Machine.execMulhn d a b s
  | .div d a b => Sys2Proof.Machine.execDiv d a b s
  | .divn d a b => Sys2Proof.Machine.execDivn d a b s
  | .rem d a b => Sys2Proof.Machine.execRem d a b s
  | .remn d a b => Sys2Proof.Machine.execRemn d a b s
  | .mad d a b => Sys2Proof.Machine.execMad d a b s
  | .clz d a => Sys2Proof.Machine.execClz d a s
  | .ctz d a => Sys2Proof.Machine.execCtz d a s
  | .pop d a => Sys2Proof.Machine.execPop d a s
  | .bswap d a => Sys2Proof.Machine.execBswap d a s
  | .sextB d a => Sys2Proof.Machine.execSextB d a s
  | .sextH d a => Sys2Proof.Machine.execSextH d a s
  | .sextW d a => Sys2Proof.Machine.execSextW d a s
  | .zextB d a => Sys2Proof.Machine.execZextB d a s
  | .zextH d a => Sys2Proof.Machine.execZextH d a s
  | .zextW d a => Sys2Proof.Machine.execZextW d a s
  | .bext d a b => Sys2Proof.Machine.execBext d a b s
  | .fshr d a b => Sys2Proof.Machine.execFshr d a b s
  | .fshl d a b => Sys2Proof.Machine.execFshl d a b s
  | .addi d a imm => Sys2Proof.Machine.execAddi d a imm s
  | .andi d a imm => Sys2Proof.Machine.execAndi d a imm s
  | .ori d a imm => Sys2Proof.Machine.execOri d a imm s
  | .xori d a imm => Sys2Proof.Machine.execXori d a imm s
  | .slti d a imm => Sys2Proof.Machine.execSlti d a imm s
  | .shli d a n => Sys2Proof.Machine.execShli d a n s
  | .shri d a n => Sys2Proof.Machine.execShri d a n s
  | .srai d a n => Sys2Proof.Machine.execSrai d a n s
  | .roli d a n => Sys2Proof.Machine.execRoli d a n s
  | .shlori d a imm => Sys2Proof.Machine.execShlori d a imm s
  | .lih d imm => Sys2Proof.Machine.execLih d imm s
  | .bexti d a l p => Sys2Proof.Machine.execBexti d a l p s
  | .bextsi d a l p => Sys2Proof.Machine.execBextsi d a l p s
  | .binsi d a l p => Sys2Proof.Machine.execBinsi d a l p s
  | .fshli d a n => Sys2Proof.Machine.execFshli d a n s
  | .fshri d a n => Sys2Proof.Machine.execFshri d a n s
  | .beq a b o => Sys2Proof.Machine.execBeq a b o s
  | .bne a b o => Sys2Proof.Machine.execBne a b o s
  | .blt a b o => Sys2Proof.Machine.execBlt a b o s
  | .bge a b o => Sys2Proof.Machine.execBge a b o s
  | .bltn a b o => Sys2Proof.Machine.execBltn a b o s
  | .bgen a b o => Sys2Proof.Machine.execBgen a b o s
  | .dbnz a o => Sys2Proof.Machine.execDbnz a o s
  | .jal d o => Sys2Proof.Machine.execJal d o s
  | .jalr d a imm => Sys2Proof.Machine.execJalr d a imm s
  | .ld w d a p => Sys2Proof.Machine.execLd w d a p s
  | .st w sx a p => Sys2Proof.Machine.execSt w sx a p s
  | .ldl w d a p => Sys2Proof.Machine.execLdl w d a p s
  | .stl w sx a p => Sys2Proof.Machine.execStl w sx a p s
  | .ldx w d a b => Sys2Proof.Machine.execLdx w d a b s
  | .stx w sx a b => Sys2Proof.Machine.execStx w sx a b s
  | .pfg a => Sys2Proof.Machine.execPfg a s
  | .cwb a b => Sys2Proof.Machine.execCwb a b s
  | .cinv a b => Sys2Proof.Machine.execCinv a b s
  | .cdisc a b => Sys2Proof.Machine.execCdisc a b s
  | .amo op w sc d a b => Sys2Proof.Machine.execAmo op w sc d a b s
  | .red op w sc a b => Sys2Proof.Machine.execRed op w sc a b s
  | .fenceAcq sc b => Sys2Proof.Machine.execFenceAcq sc b s
  | .fenceRel sc b => Sys2Proof.Machine.execFenceRel sc b s
  | .fenceAr sc b => Sys2Proof.Machine.execFenceAr sc b s
  | .bar sc b => Sys2Proof.Machine.execBar sc b s
  | .barmax t sc d a b => Sys2Proof.Machine.execBarmax t sc d a b s
  | .barsum t sc d a b => Sys2Proof.Machine.execBarsum t sc d a b s
  | .barmin t sc d a b => Sys2Proof.Machine.execBarmin t sc d a b s
  | .waitge d a => Sys2Proof.Machine.execWaitge d a s
  | .putl li c => Sys2Proof.Machine.execPutl li c s
  | .rput li c a => Sys2Proof.Machine.execRput li c a s
  | .take c li => Sys2Proof.Machine.execTake c li s
  | .peek c li => Sys2Proof.Machine.execPeek c li s
  | .testl c li => Sys2Proof.Machine.execTestl c li s
  | .clrl li => Sys2Proof.Machine.execClrl li s
  | .rputm a b => Sys2Proof.Machine.execRputm a b s
  | .rputmv a v => Sys2Proof.Machine.execRputmv a v s
  | .msnd a b => Sys2Proof.Machine.execMsnd a b s
  | .mrcv d => Sys2Proof.Machine.execMrcv d s
  | .waitm a => Sys2Proof.Machine.execWaitm a s
  | .msndn a b => Sys2Proof.Machine.execMsndn a b s
  | .mrcvn d a => Sys2Proof.Machine.execMrcvn d a s
  | .evon => Sys2Proof.Machine.execEvon s
  | .evoff => Sys2Proof.Machine.execEvoff s
  | .evret => Sys2Proof.Machine.execEvret s
  | .yield => Sys2Proof.Machine.execYield s
  | .park => Sys2Proof.Machine.execPark s
  | .wake a => Sys2Proof.Machine.execWake a s
  | .dqpush d a => Sys2Proof.Machine.execDqpush d a s
  | .dqpop d a => Sys2Proof.Machine.execDqpop d a s
  | .dqsplit d => Sys2Proof.Machine.execDqsplit d s
  | .dqsteal d a => Sys2Proof.Machine.execDqsteal d a s
  | .tsend a b => Sys2Proof.Machine.execTsend a b s
  | .tret => Sys2Proof.Machine.execTret s
  | .dqnext d => Sys2Proof.Machine.execDqnext d s
  | .launch d a b => Sys2Proof.Machine.execLaunch d a b s
  | .csrr d c => Sys2Proof.Machine.execCsrr d c s
  | .csrw d a c => Sys2Proof.Machine.execCsrw d a c s
  | .csrs d a c => Sys2Proof.Machine.execCsrs d a c s
  | .csrc d a c => Sys2Proof.Machine.execCsrc d a c s
  | .trap c => Sys2Proof.Machine.execTrap c s
  | .brk => Sys2Proof.Machine.execBrk s
  | .ifence => Sys2Proof.Machine.execIfence s
  | .eret => Sys2Proof.Machine.execEret s
  | .halt => Sys2Proof.Machine.execHalt s
  | .fadd t d a b => Sys2Proof.Machine.execFadd t d a b s
  | .fsub t d a b => Sys2Proof.Machine.execFsub t d a b s
  | .fmul t d a b => Sys2Proof.Machine.execFmul t d a b s
  | .ffma t d a b => Sys2Proof.Machine.execFfma t d a b s
  | .fmin t d a b => Sys2Proof.Machine.execFmin t d a b s
  | .fmax t d a b => Sys2Proof.Machine.execFmax t d a b s
  | .fabs t d a => Sys2Proof.Machine.execFabs t d a s
  | .fneg t d a => Sys2Proof.Machine.execFneg t d a s
  | .feq t d a b => Sys2Proof.Machine.execFeq t d a b s
  | .flt t d a b => Sys2Proof.Machine.execFlt t d a b s
  | .fle t d a b => Sys2Proof.Machine.execFle t d a b s
  | .fcvt t sx d a => Sys2Proof.Machine.execFcvt t sx d a s
  | .fdiv t d a b => Sys2Proof.Machine.execFdiv t d a b s
  | .fsqrt t d a => Sys2Proof.Machine.execFsqrt t d a s
  | .fclass t d a => Sys2Proof.Machine.execFclass t d a s
  | .vadd t d a b k => Sys2Proof.Machine.execVadd t d a b k s
  | .vsub t d a b k => Sys2Proof.Machine.execVsub t d a b k s
  | .vmul t d a b k => Sys2Proof.Machine.execVmul t d a b k s
  | .vfma t d a b k => Sys2Proof.Machine.execVfma t d a b k s
  | .vfms t d a b k => Sys2Proof.Machine.execVfms t d a b k s
  | .vmin t d a b k => Sys2Proof.Machine.execVmin t d a b k s
  | .vmax t d a b k => Sys2Proof.Machine.execVmax t d a b k s
  | .vabs t d a k => Sys2Proof.Machine.execVabs t d a k s
  | .vneg t d a k => Sys2Proof.Machine.execVneg t d a k s
  | .vdot4 t d a b k => Sys2Proof.Machine.execVdot4 t d a b k s
  | .vmulh t d a b k => Sys2Proof.Machine.execVmulh t d a b k s
  | .vand t d a b k => Sys2Proof.Machine.execVand t d a b k s
  | .vor t d a b k => Sys2Proof.Machine.execVor t d a b k s
  | .vxor t d a b k => Sys2Proof.Machine.execVxor t d a b k s
  | .vnot t d a k => Sys2Proof.Machine.execVnot t d a k s
  | .vshl t d a b k => Sys2Proof.Machine.execVshl t d a b k s
  | .vshr t d a b k => Sys2Proof.Machine.execVshr t d a b k s
  | .vsra t d a b k => Sys2Proof.Machine.execVsra t d a b k s
  | .vpopc t d a k => Sys2Proof.Machine.execVpopc t d a k s
  | .vcmpeq t d a b k => Sys2Proof.Machine.execVcmpeq t d a b k s
  | .vcmpne t d a b k => Sys2Proof.Machine.execVcmpne t d a b k s
  | .vcmplt t d a b k => Sys2Proof.Machine.execVcmplt t d a b k s
  | .vcmple t d a b k => Sys2Proof.Machine.execVcmple t d a b k s
  | .vsel t d a b k => Sys2Proof.Machine.execVsel t d a b k s
  | .kand d a b => Sys2Proof.Machine.execKand d a b s
  | .kor d a b => Sys2Proof.Machine.execKor d a b s
  | .kxor d a b => Sys2Proof.Machine.execKxor d a b s
  | .knot d a => Sys2Proof.Machine.execKnot d a s
  | .vcvt t sx d a k => Sys2Proof.Machine.execVcvt t sx d a k s
  | .vdec d a k => Sys2Proof.Machine.execVdec d a k s
  | .venc t d a k => Sys2Proof.Machine.execVenc t d a k s
  | .vdtld a => Sys2Proof.Machine.execVdtld a s
  | .vqnt t d a b k => Sys2Proof.Machine.execVqnt t d a b k s
  | .vdqnt t d a b k => Sys2Proof.Machine.execVdqnt t d a b k s
  | .vexp2 d a k => Sys2Proof.Machine.execVexp2 d a k s
  | .vlog2 d a k => Sys2Proof.Machine.execVlog2 d a k s
  | .vrcp d a k => Sys2Proof.Machine.execVrcp d a k s
  | .vrsq d a k => Sys2Proof.Machine.execVrsq d a k s
  | .vtanh d a k => Sys2Proof.Machine.execVtanh d a k s
  | .vsigm d a k => Sys2Proof.Machine.execVsigm d a k s
  | .vperm t d a b k => Sys2Proof.Machine.execVperm t d a b k s
  | .vslide t d a b k => Sys2Proof.Machine.execVslide t d a b k s
  | .vbcast t d a b k => Sys2Proof.Machine.execVbcast t d a b k s
  | .vredsum t d a k => Sys2Proof.Machine.execVredsum t d a k s
  | .vredmax t d a k => Sys2Proof.Machine.execVredmax t d a k s
  | .vredmin t d a k => Sys2Proof.Machine.execVredmin t d a k s
  | .vscan t d a k => Sys2Proof.Machine.execVscan t d a k s
  | .vamaxb t d a k => Sys2Proof.Machine.execVamaxb t d a k s
  | .vldl d a p k => Sys2Proof.Machine.execVldl d a p k s
  | .vstl d a p k => Sys2Proof.Machine.execVstl d a p k s
  | .vld d a p k => Sys2Proof.Machine.execVld d a p k s
  | .vst d a p k => Sys2Proof.Machine.execVst d a p k s
  | .vlds t d a b k => Sys2Proof.Machine.execVlds t d a b k s
  | .vsts t d a b k => Sys2Proof.Machine.execVsts t d a b k s
  | .vgth t d a b k => Sys2Proof.Machine.execVgth t d a b k s
  | .vsct t d a b k => Sys2Proof.Machine.execVsct t d a b k s
  | .vgthl t d a b k => Sys2Proof.Machine.execVgthl t d a b k s
  | .vsctl t d a b k => Sys2Proof.Machine.execVsctl t d a b k s
  | .vsadd t d a b k => Sys2Proof.Machine.execVsadd t d a b k s
  | .vssub t d a b k => Sys2Proof.Machine.execVssub t d a b k s
  | .vsmul t d a b k => Sys2Proof.Machine.execVsmul t d a b k s
  | .vsfma t d a b k => Sys2Proof.Machine.execVsfma t d a b k s
  | .vsmin t d a b k => Sys2Proof.Machine.execVsmin t d a b k s
  | .vsmax t d a b k => Sys2Proof.Machine.execVsmax t d a b k s
  | .vsshl t d a b k => Sys2Proof.Machine.execVsshl t d a b k s
  | .vsplat t d a k => Sys2Proof.Machine.execVsplat t d a k s
  | .vins t d a b => Sys2Proof.Machine.execVins t d a b s
  | .vext t d a b => Sys2Proof.Machine.execVext t d a b s
  | .viota t d k => Sys2Proof.Machine.execViota t d k s
  | .ktog t d a => Sys2Proof.Machine.execKtog t d a s
  | .gtok t d a => Sys2Proof.Machine.execGtok t d a s
  | .kpop t d a => Sys2Proof.Machine.execKpop t d a s
  | .vmov t d a k => Sys2Proof.Machine.execVmov t d a k s
  | .mma t kl n d a b => Sys2Proof.Machine.execMma t kl n d a b s
  | .mmal t kl n d a b => Sys2Proof.Machine.execMmal t kl n d a b s
  | .mmr t kl n d a b => Sys2Proof.Machine.execMmr t kl n d a b s
  | .mwait a => Sys2Proof.Machine.execMwait a s
  | .mstat d => Sys2Proof.Machine.execMstat d s
  | .accz n => Sys2Proof.Machine.execAccz n s
  | .accst t n c a => Sys2Proof.Machine.execAccst t n c a s
  | .accld t n c a => Sys2Proof.Machine.execAccld t n c a s
  | .accstg t n a b => Sys2Proof.Machine.execAccstg t n a b s
  | .xld a b c => Sys2Proof.Machine.execXld a b c s
  | .xst a b c => Sys2Proof.Machine.execXst a b c s
  | .xput a b c => Sys2Proof.Machine.execXput a b c s
  | .xaxb a b c => Sys2Proof.Machine.execXaxb a b c s
  | .xfill a c => Sys2Proof.Machine.execXfill a c s
  | .xstat a => Sys2Proof.Machine.execXstat a s
  | .xcan a => Sys2Proof.Machine.execXcan a s
  | .xlm a b c => Sys2Proof.Machine.execXlm a b c s
  | .atbind h a => Sys2Proof.Machine.execAtbind h a s
  | .atdig h c a => Sys2Proof.Machine.execAtdig h c a s
  | .atld h c a b => Sys2Proof.Machine.execAtld h c a b s
  | .atsg h c a b => Sys2Proof.Machine.execAtsg h c a b s
  | .atinfo h c => Sys2Proof.Machine.execAtinfo h c s
  | .ldvn d a b => Sys2Proof.Machine.execLdvn d a b s
  | .redvn t sx a b => Sys2Proof.Machine.execRedvn t sx a b s
  | .stvn sx a b => Sys2Proof.Machine.execStvn sx a b s
  | .vnopen a b => Sys2Proof.Machine.execVnopen a b s
  | .vnseal a b => Sys2Proof.Machine.execVnseal a b s
  | .vnrecl a b => Sys2Proof.Machine.execVnrecl a b s
  | .vnstat d a b => Sys2Proof.Machine.execVnstat d a b s
  | .rrbeg a b => Sys2Proof.Machine.execRrbeg a b s
  | .rrend b => Sys2Proof.Machine.execRrend b s
  | .rrec b => Sys2Proof.Machine.execRrec b s
  | .rroff b => Sys2Proof.Machine.execRroff b s
  | .rrstat d a b => Sys2Proof.Machine.execRrstat d a b s
  | .illegalInstruction => Sys2Proof.Machine.execIllegalInstruction s
  | .waitExpired core tid => Sys2Proof.Machine.execWaitExpired core tid s
  | .eventEntry core tid => Sys2Proof.Machine.execEventEntry core tid s
  | .taskDispatch core => Sys2Proof.Machine.execTaskDispatch core s
  | .taskSteal core lnum => Sys2Proof.Machine.execTaskSteal core lnum s
  | .contextSpill core tid => Sys2Proof.Machine.execContextSpill core tid s
  | .contextRestore core tid => Sys2Proof.Machine.execContextRestore core tid s
  | .globalReply core tid => Sys2Proof.Machine.execGlobalReply core tid s
  | .sliceReadRequest core tn va => Sys2Proof.Machine.execSliceReadRequest core tn va s
  | .sliceOwnershipRequest core tn va => Sys2Proof.Machine.execSliceOwnershipRequest core tn va s
  | .l1WriteBack core tn va => Sys2Proof.Machine.execL1WriteBack core tn va s
  | .l1Invalidation core tn va => Sys2Proof.Machine.execL1Invalidation core tn va s
  | .lineFill die tn va => Sys2Proof.Machine.execLineFill die tn va s
  | .pageWalk die tn va acc => Sys2Proof.Machine.execPageWalk die tn va acc s
  | .faultRecordAppend n => Sys2Proof.Machine.execFaultRecordAppend n s
  | .wordRequest core tn va size x => Sys2Proof.Machine.execWordRequest core tn va size x s
  | .atomicExecute work => Sys2Proof.Machine.execAtomicExecute work s
  | .guestWriteBack source tn va => Sys2Proof.Machine.execGuestWriteBack source tn va s
  | .remoteWriteDelivery n => Sys2Proof.Machine.execRemoteWriteDelivery n s
  | .remoteWriteAck n => Sys2Proof.Machine.execRemoteWriteAck n s
  | .dropNotice n => Sys2Proof.Machine.execDropNotice n s
  | .landingPortFill core li => Sys2Proof.Machine.execLandingPortFill core li s
  | .messageArrival n => Sys2Proof.Machine.execMessageArrival n s
  | .messageDivert core => Sys2Proof.Machine.execMessageDivert core s
  | .barrierRelease n remote => Sys2Proof.Machine.execBarrierRelease n remote s
  | .matrixKblock core => Sys2Proof.Machine.execMatrixKblock core s
  | .matrixComplete core => Sys2Proof.Machine.execMatrixComplete core s
  | .matrixFaultStop core => Sys2Proof.Machine.execMatrixFaultStop core s
  | .mmrBlockArrival core => Sys2Proof.Machine.execMmrBlockArrival core s
  | .mmrAbortToken core => Sys2Proof.Machine.execMmrAbortToken core s
  | .copyCommandRun core => Sys2Proof.Machine.execCopyCommandRun core s
  | .copyStripe core => Sys2Proof.Machine.execCopyStripe core s
  | .copyCompletion core => Sys2Proof.Machine.execCopyCompletion core s
  | .claimEnd core => Sys2Proof.Machine.execClaimEnd core s
  | .putArrival tn win off bytes => Sys2Proof.Machine.execPutArrival tn win off bytes s
  | .putAck n ok => Sys2Proof.Machine.execPutAck n ok s
  | .copyThreadRestart core => Sys2Proof.Machine.execCopyThreadRestart core s
  | .copyProgramReinstall core => Sys2Proof.Machine.execCopyProgramReinstall core s
  | .versionedAccess tn va ver x => Sys2Proof.Machine.execVersionedAccess tn va ver x s
  | .replayPush n => Sys2Proof.Machine.execReplayPush n s
  | .packetArrival q off bytes => Sys2Proof.Machine.execPacketArrival q off bytes s
  | .queueSlotMap q => Sys2Proof.Machine.execQueueSlotMap q s
  | .queueSlotEvict q => Sys2Proof.Machine.execQueueSlotEvict q s
  | .queueOpen q => Sys2Proof.Machine.execQueueOpen q s
  | .queueClose q => Sys2Proof.Machine.execQueueClose q s
  | .launchDispatch => Sys2Proof.Machine.execLaunchDispatch s
  | .launchDistribute lnum die => Sys2Proof.Machine.execLaunchDistribute lnum die s
  | .imageLoad core lnum => Sys2Proof.Machine.execImageLoad core lnum s
  | .imageEvict core slot => Sys2Proof.Machine.execImageEvict core slot s
  | .launchRetire lnum => Sys2Proof.Machine.execLaunchRetire lnum s
  | .forcedPreemption core lnum => Sys2Proof.Machine.execForcedPreemption core lnum s
  | .shootdownInvalidate c0 c1 c2 c3 => Sys2Proof.Machine.execShootdownInvalidate c0 c1 c2 c3 s
  | .shootdownRelease c0 c1 c2 c3 => Sys2Proof.Machine.execShootdownRelease c0 c1 c2 c3 s
  | .shootdownInvalidateRelease c0 c1 c2 c3 => Sys2Proof.Machine.execShootdownInvalidateRelease c0 c1 c2 c3 s
  | .shootdownComplete => Sys2Proof.Machine.execShootdownComplete s
  | .wakeRetry c0 c1 c2 c3 => Sys2Proof.Machine.execWakeRetry c0 c1 c2 c3 s
  | .wakeFail c0 c1 c2 c3 => Sys2Proof.Machine.execWakeFail c0 c1 c2 c3 s
  | .switchOut c0 c1 c2 c3 => Sys2Proof.Machine.execSwitchOut c0 c1 c2 c3 s
  | .switchResume c0 c1 c2 c3 => Sys2Proof.Machine.execSwitchResume c0 c1 c2 c3 s
  | .hostAbort c0 c1 c2 c3 => Sys2Proof.Machine.execHostAbort c0 c1 c2 c3 s
  | .stopOneThread c0 c1 c2 c3 => Sys2Proof.Machine.execStopOneThread c0 c1 c2 c3 s
  | .resumeOneThread c0 c1 c2 c3 => Sys2Proof.Machine.execResumeOneThread c0 c1 c2 c3 s
  | .copyProgramInstall c0 c1 c2 c3 => Sys2Proof.Machine.execCopyProgramInstall c0 c1 c2 c3 s
  | .controlRangeWrite writer off x => Sys2Proof.Machine.execControlRangeWrite writer off x s
  | .regionRecordLive tn rec => Sys2Proof.Machine.execRegionRecordLive tn rec s
  | .captureUnitControl u x => Sys2Proof.Machine.execCaptureUnitControl u x s
  | .captureSample place pos => Sys2Proof.Machine.execCaptureSample place pos s
  | .apertureRead what => Sys2Proof.Machine.execApertureRead what s
  | .apertureWrite off x => Sys2Proof.Machine.execApertureWrite off x s
  | .powerWindow watts dieWatts draws => Sys2Proof.Machine.execPowerWindow watts dieWatts draws s
  | .functionReady bit => Sys2Proof.Machine.execFunctionReady bit s
  | .functionFail bit => Sys2Proof.Machine.execFunctionFail bit s
  | .portDown p => Sys2Proof.Machine.execPortDown p s
  | .packageUnavailable p => Sys2Proof.Machine.execPackageUnavailable p s
  | .packageAvailable p => Sys2Proof.Machine.execPackageAvailable p s
  | .packageReset => Sys2Proof.Machine.execPackageReset s
  | .keyLoad slot replace wrapped => Sys2Proof.Machine.execKeyLoad slot replace wrapped s
  | .keyErase slot => Sys2Proof.Machine.execKeyErase slot s
  | .attest nonce => Sys2Proof.Machine.execAttest nonce s
  | .debugChallenge tn => Sys2Proof.Machine.execDebugChallenge tn s
  | .debugUnlock tn sig => Sys2Proof.Machine.execDebugUnlock tn sig s
  | .debugLock tn => Sys2Proof.Machine.execDebugLock tn s
  | .firmwareStage pa len => Sys2Proof.Machine.execFirmwareStage pa len s
  | .securityAlarm cause source => Sys2Proof.Machine.execSecurityAlarm cause source s
  | .softError site => Sys2Proof.Machine.execSoftError site s

end Sys2Proof.Machine
end

