-- ==== Sys2Proof/Machine/Issue.lean ====
section
/-! DEFINITION. What moves the machine: the issue slot of a core (R46, R47, R143, R261, R395), a parked instruction whose wait is over (R49),
the rows that follow from the state alone, and one step of the package (notes/assumptions 6, 7, 8, 14). -/

namespace Sys2Proof.Machine

/-! ### An instruction of a thread -/

/-- A register that the current thread's instruction reads is damaged: the thread stops with cause 0x0F, the copy thread for its restart (R395,
R315). -/
def State.damageStop (s : State) : State :=
  let pc := s.thr.pc
  let v := Config.damageVal s.fresh
  let s : State := { s with fresh := s.fresh + 1 }
  let s := s.updCur (fun c => (c.abandon s.tid).mend s.tid trapRegs)
  let s := s.updThr (fun t => { t with ctl := t.ctl.trapped dataError v pc t.inst, status := .stopped .hub })
  if s.tid = 15 then s else s.hubStop dataError v pc
/-- Changes the state that an outcome leaves. -/
def Res.after (r : Res) (f : State → State) : Res :=
  match r with
  | .next s => .next (f s)
  | .fault e => .fault e
  | .refused e => .refused e
/-- From `s` to `u` the current thread has taken a trap. -/
def State.trappedIn (s u : State) : Bool :=
  ((u.coreAt s.core).thr s.tid).ctl.trapcause.getLsbD 63 && !s.thr.ctl.trapcause.getLsbD 63
/-- The instruction of a thread has ended, not parked and without a trap: registers that it wrote are sound again (R395). -/
def State.mendAfter (s : State) (i : Instr) (s' : State) : State :=
  let t := (s'.coreAt s.core).thr s.tid
  if t.status = .ready ∧ s.trappedIn s' = false then s'.updCore s.core (·.mend s.tid (s.thr.named (regsOf i).2)) else s'
/-- Runs the word under execution of the current thread; a word that decode refuses is an illegal instruction (R39). -/
def State.runWord (s : State) : Res :=
  match decode s.thr.inst with
  | .ok i =>
    if s.cur.badThread.isEmpty then exec i s
    else if !s.barred i && s.cur.damagedFor s.tid i then .next s.damageStop
    else Res.after (exec i s) (s.mendAfter i)
  | .error _ => execIllegalInstruction s

/-! ### A wait that is over (R49, R52) -/

/-- The thread of a core whose wait is over, the one that parked first. -/
def Core.resuming (c : Core) : Option Nat :=
  let order := fun (t : Nat) => match (c.thr t).status with | .parked _ _ o => o | .free | .ready | .stopped _ => 0
  argMin order ((List.range 16).filter (fun t => (c.thr t).resume && (c.thr t).parkOf.isSome))
/-- The first core with such a thread. -/
def resumingIn : List (Nat × Core) → Option (Nat × Nat)
  | [] => none
  | e :: l =>
    match e.2.resuming with
    | some t => some (e.1, t)
    | none => resumingIn l
/-- A resumed thread is eligible at most 4 cycles after its waking event (R45), and on the fixed wheel not before 4 cycles have passed (R47).  DESIGN
CHOICE (log 58): an event that an instruction of the same core causes in cycle c reaches the waiting thread in cycle c + 1, from which the 4 cycles are
counted; and an instruction that has parked has its interval, at whose end the window that it fills is Full (R116), end then too. -/
def State.soon (s : State) : State :=
  let due := s.cur.cyc.toNat + 4
  let fixed := (s.dieAt (dieOf s.core)).det.isSome
  s.updThr (fun t => if t.status = .ready then { t with readyAt := if fixed then due else min t.readyAt due } else t)
/-- A load whose L1 has missed and that has now completed from `s` on is a sample of its latency (R409). -/
def State.sampleLoad (u s : State) : State :=
  let p := s.thr.progress
  if p.ask == .served && p.asks.any (fun a => a.2 == .shared) && ((u.coreAt s.core).thr s.tid).status == .ready && !s.trappedIn u then
    u.sampleEvent (dieUnits (dieOf s.core)) 4 (fun a => a == islandOf s.core % 16 || a == 0xFFFF) (dieCycles (u.hub.now - p.askAt))
  else u
/-- The parked instruction of a thread goes on: it ends as its wait has decided, or is performed now. -/
def State.resumeThread (s : State) (core t : Nat) : Res :=
  let s := { s with core := core, tid := t }
  let r : Res :=
    match s.thr.progress.ending with
    | some .done => s.finish 4
    | some (.trap c v) => s.trap c v
    | some (.value _ _) | none => s.runWord
  Res.after r (fun u => (u.sampleLoad s).soon)

/-! ### The issue slot (R45 to R48, R101, R116) -/

/-- A thread is eligible (R46). -/
def Core.eligible (c : Core) (t : Nat) : Bool := (c.thr t).status == .ready && decide ((c.thr t).readyAt ≤ c.cyc.toNat)
/-- The thread that issues: by the barrel, or by the fixed wheel under deterministic operation (R46, R47). -/
def Core.pick (c : Core) (wheel : Bool) : Option Nat :=
  if wheel then (if c.eligible (c.cyc.toNat % 16) then some (c.cyc.toNat % 16) else none)
  else ((List.range 16).map (fun j => (c.last + j + 1) % 16)).find? c.eligible
/-- Decode tables whose interval has ended are in force (R101). -/
def Core.openTables (c : Core) : Core :=
  let due := fun (e : Nat × List (Nat × Word32) × Word) => decide (e.1 ≤ c.cyc.toNat)
  (c.dtNext.filter due).foldl (fun (k : Core) e => { k with dtable := e.2.1, dtab := e.2.2 }) { c with dtNext := c.dtNext.filter (fun e => !due e) }
/-- A window that a completed instruction of a thread has filled (R116): its interval has ended. -/
def Core.filled (c : Core) (w : Window) : Bool :=
  w.state == .filling && decide (w.owner < 16) && !(c.thr w.owner).progress.begun && decide ((c.thr w.owner).readyAt ≤ c.cyc.toNat)
/-- Windows whose instruction's interval has ended are Full, and threads parked on a window look again (R116, R117). -/
def Core.openWindows (c : Core) : Core :=
  if (List.range 8).any (fun i => (c.windows[i]?).any c.filled) then
    ({ c with windows := vecMap (fun _ (w : Window) => if c.filled w then { w with state := .full } else w) c.windows } : Core).wakeIf
      (fun _ w => match w with | .window _ => true | _ => false)
  else c
/-- What happens at the start of a cycle of a core: waits whose limit has passed expire (R51), tables and windows whose interval has ended are in
force, waiting writers fill landing registers that emptied in the cycle before (R244), and marks follow their reasons (R350). -/
def State.openSlot (s : State) (core : Nat) : State :=
  let s := ((List.range 16).foldl (fun (s : State) t => s.expire core t) s).expireSaved core
  let s := s.updCore core (fun c => c.openTables.openWindows)
  let c := s.coreAt core
  let s := ((List.range 32).filter (fun i => !(c.land i).waiters.isEmpty)).foldl (fun (s : State) i => s.fillPort core i) s
  s.markCore core
/-- The word at the head of the buffer is the current thread's word under execution, and the next one is read (R80, R143).  DESIGN CHOICE (log 56): of a
word that may not be fetched, `trapinst` holds what stands in LM. -/
def State.takeWord (s : State) (w : Fetched) : State := (s.updCur (·.popWord s.tid)).updThr (fun t => { t with inst := w.code })
/-- The current thread issues the word at the head of its buffer (R138, R395). -/
def State.issueWord (s : State) : Res :=
  let s := if s.thr.buf.isEmpty then s.refill else s
  match s.thr.buf with
  | [] => .next s
  | w :: _ =>
    let s := s.takeWord w
    if !w.ok then s.trap lmProtection s.thr.pc
    else if w.bad then s.trap dataError s.thr.pc
    else s.runWord
/-- The first issue of any task of a launch is a sample of its latency (R409). -/
def State.firstIssue (s : State) : State :=
  match s.curLaunch.bind s.launchAt with
  | some l =>
    if l.issued then s
    else
      (s.sampleEvent hubUnits 1 (fun a => a == l.queue || a == 0xFFFF) (s.hub.now - l.arrived)).updLaunch l.lnum (fun y => { y with issued := true })
  | none => s
/-- A thread has gone on behind a BRK in the last word of LM: it has run off the end (R12), which it meets where it would issue. -/
def Thread.offEnd (t : Thread) : Bool := t.pc.toNat == 0x40000
/-- A thread of a core issues, unless it has run off the end of LM; a pending user event is taken in place of its instruction (R261). -/
def State.issueThread (s : State) (core t : Nat) : Res :=
  let s := { s with core := core, tid := t }
  let s := s.updCur (fun c => { c with last := t })
  if s.thr.offEnd then .next (s.trapAt fetchFault s.thr.pc s.thr.pc)
  else if (s.cur.pendingEvent t).isSome then execEventEntry core t s else s.firstIssue.issueWord
/-- A discarded prefetch buffer is read again in the last cycle of the interval of the instruction that discarded it (R143). -/
def Core.readBuffers (c : Core) : Core :=
  (List.range 16).foldl (fun (k : Core) (t : Nat) =>
    let x := k.thr t
    if x.buf.isEmpty && x.status == .ready && decide (x.readyAt ≤ c.cyc.toNat + 1) then k.refill t else k) c
/-- A cycle of a core is over. -/
def State.tick (s : State) (core : Nat) : State := s.updCore core (fun c => { c.readBuffers with cyc := c.cyc + 1 })
/-- The array of a core is ready. -/
def Hub.coreReady (h : Hub) (core : Nat) : Bool := decide (dieOf core < 8) && h.ready1.getLsbD (3 + dieOf core)
/-- The core whose slot it is: on a die that a deterministic launch holds the cores follow one another in a fixed order (R8, R352). -/
def State.wheelCore (s : State) (core : Nat) : Nat := if (s.dieAt (dieOf core)).det.isSome then (s.dieAt (dieOf core)).wheel else core
/-- The fixed order of a die goes on behind a core. -/
def State.turnWheel (s : State) (core : Nat) : State :=
  if (s.dieAt (dieOf core)).det.isSome then s.updDie (dieOf core) (fun d => { d with wheel := 1152 * dieOf core + (core % 1152 + 1) % 1152 }) else s
/-- One issue slot, asked for a core; `taken` notes that it has been used.  What the start of the cycle ends of a thread's wait is served before any
thread issues in that cycle (R51, R52, R117). -/
def State.issueSlot (s : State) (core : Nat) (taken : State → State) : Res :=
  let core := s.wheelCore core
  if !s.hub.coreReady core then .next (taken s)
  else
    let s := s.openSlot core
    if (s.coreAt core).resuming.isSome then .next s
    else
      let wheel := (s.dieAt (dieOf core)).det.isSome
      let s := (taken s).turnWheel core
      match (s.coreAt core).pick wheel with
      | none => .next (s.tick core)
      | some t => Res.after (s.issueThread core t) (fun s => s.tick core)

/-! ### Rows that follow from the state -/

/-- An outcome other than the state it was asked in. -/
def changes (s : State) (r : Res) : Bool :=
  match r with
  | .next s' => decide (s' ≠ s)
  | .fault _ | .refused _ => true
/-- The first row that changes the state. -/
def firstChange (s : State) : List (Unit → Res) → Option Res
  | [] => none
  | f :: l => let r := f (); if changes s r then some r else firstChange s l
/-- The rows of a family, one for each element of a list. -/
def rowsFor {β : Type} (l : List β) (f : β → List (Unit → Res)) : List (Unit → Res) := (l.map f).flatten
/-- The row of a posted write. -/
def netRow (s : State) (n : Nat) : List (Unit → Res) :=
  match s.net[n]? with
  | none => []
  | some x =>
    match x.phase, x.kind with
    | .acked, _ => [fun (_ : Unit) => execRemoteWriteAck n s]
    | .dropped _, _ => [fun (_ : Unit) => execDropNotice n s]
    | .flight, .message _ | .waiting _, .message _ => [fun (_ : Unit) => execMessageArrival n s]
    | .flight, _ | .waiting _, _ => [fun (_ : Unit) => execRemoteWriteDelivery n s]
/-- The rows of a core's threads: an answer to a request (R170), an event that ends a park (R261), and contexts that go and come (R53). -/
def threadRows (s : State) (core t : Nat) : List (Unit → Res) :=
  match ((s.coreAt core).thr t).parkOf with
  | none => if ((s.coreAt core).thr t).status = .free then [fun (_ : Unit) => execContextRestore core t s] else []
  | some _ =>
    (if ((s.coreAt core).thr t).asking then [fun (_ : Unit) => execGlobalReply core t s] else []) ++
      [fun (_ : Unit) => execEventEntry core t s, fun (_ : Unit) => execContextSpill core t s]
/-- The rows of a core's engines. -/
def engineRows (s : State) (core : Nat) : List (Unit → Res) :=
  let c := s.coreAt core
  (if c.mq.isEmpty then []
   else [fun (_ : Unit) => execMatrixComplete core s, fun (_ : Unit) => execMmrAbortToken core s, fun (_ : Unit) => execMatrixKblock core s, fun (_ : Unit) => execMatrixFaultStop core s]) ++
  (if s.cores.any (fun e => !e.2.mmrEast.isEmpty || !e.2.mmrSouth.isEmpty) then [fun (_ : Unit) => execMmrBlockArrival core s] else []) ++
  (if c.cq.isEmpty then []
   else [fun (_ : Unit) => execCopyCommandRun core s, fun (_ : Unit) => execCopyStripe core s, fun (_ : Unit) => execClaimEnd core s, fun (_ : Unit) => execCopyCompletion core s])
/-- The rows of a core's dispatcher: tasks, images and pre-emption.  A task is placed before another load makes its image a victim (R141). -/
def dispatchRows (s : State) (core : Nat) : List (Unit → Res) :=
  let c := s.coreAt core
  (if c.deque.isEmpty then [] else [fun (_ : Unit) => execTaskDispatch core s]) ++
  (match c.loading with
   | some l => (fun (_ : Unit) => execImageLoad core l.lnum s) :: l.victims.map (fun i => fun (_ : Unit) => execImageEvict core i s)
   | none => rowsFor c.deque (fun r => [fun (_ : Unit) => execImageLoad core r.lnum s])) ++
  c.marks.map (fun m => fun (_ : Unit) => execForcedPreemption core m.1 s)
/-- The rows of a core. -/
def coreRows (s : State) (core : Nat) : List (Unit → Res) :=
  let c := s.coreAt core
  c.prefetches.map (fun p => fun (_ : Unit) => execSliceReadRequest core p.1 p.2 s) ++
  [fun (_ : Unit) => execMessageDivert core s] ++
  (if (c.thr 15).status = .stopped .hub then [fun (_ : Unit) => execCopyThreadRestart core s] else []) ++
  (if c.copyProg.isSome then [fun (_ : Unit) => execCopyProgramReinstall core s] else []) ++
  engineRows s core ++ rowsFor (List.range 16) (threadRows s core) ++ dispatchRows s core
/-- The rows of an active launch: dies that have records to seed, or to take back (R344, R352). -/
def launchRows (s : State) (l : Launch) : List (Unit → Res) :=
  ((l.todo.map (·.1) ++ l.poolRecs.map (fun e => dieOf e.1)).eraseDups).map (fun d => fun (_ : Unit) => execLaunchDistribute l.lnum d s) ++ [fun (_ : Unit) => execLaunchRetire l.lnum s]
/-- The row of a queue that waits for a slot or gives one up. -/
def queueRow (s : State) (q : Queue) : List (Unit → Res) :=
  match q.state with
  | .mapping => [fun (_ : Unit) => execQueueSlotMap q.num s]
  | .unmapping => [fun (_ : Unit) => execQueueSlotEvict q.num s]
  | .unmapped | .mapped => []
/-- The rows of the hub: accepted commands, queues and launches. -/
def hubRows (s : State) : List (Unit → Res) :=
  (if s.hub.shoot.isSome then [fun (_ : Unit) => execShootdownComplete s] else []) ++
  rowsFor [CmdWin.shootdown, .switch, .copyProg] (fun w => match s.hub.oldest w with
    | some c => [fun (_ : Unit) => runCommand c s]
    | none => []) ++
  rowsFor s.hub.queues (queueRow s) ++
  (if s.hub.heads.isEmpty && s.hub.owed.isEmpty then [] else [fun (_ : Unit) => execLaunchDispatch s]) ++ rowsFor s.hub.launches (launchRows s)
/-- A put whose target is this package is answered by it. -/
def putRow (s : State) (n : Nat) : List (Unit → Res) :=
  match s.puts[n]? with
  | none => []
  | some (core, id) =>
    match (s.coreAt core).cq with
    | x :: _ => if x.id = id ∧ bits x.w0 63 54 = s.hub.pkg then [fun (_ : Unit) => execPutAck n true s] else []
    | [] => []
/-- Every row that the state alone may call for; a steal comes last. -/
def autoRows (s : State) : List (Unit → Res) :=
  rowsFor (List.range s.net.length) (netRow s) ++
  (List.range s.reds.length).map (fun n => fun (_ : Unit) => execAtomicExecute (.posted n) s) ++
  (List.range s.pushes.length).map (fun n => fun (_ : Unit) => execReplayPush n s) ++
  (List.range s.barriers.length).map (fun n => fun (_ : Unit) => execBarrierRelease n [] s) ++
  (List.range s.faults.length).map (fun n => fun (_ : Unit) => execFaultRecordAppend n s) ++
  rowsFor (List.range s.puts.length) (putRow s) ++ rowsFor (s.cores.map (·.1)) (coreRows s) ++ hubRows s ++
  rowsFor s.cores (fun (e : Nat × Core) => e.2.held.map (fun l => fun (_ : Unit) => execTaskSteal e.1 l s))

/-! ### One step -/

/-- The next core of a ready array at or after a number, and whether the search began again at core 0. -/
def Hub.nextCore (h : Hub) (n : Nat) : Option (Nat × Bool) :=
  let from_ := fun (n : Nat) => if h.coreReady n then some n else ((List.range 8).map (1152 * ·)).find? (fun c => decide (n ≤ c) && h.coreReady c)
  match from_ n with
  | some c => some (c, false)
  | none => (from_ 0).map (fun c => (c, true))
/-- Hub time goes on (R396): levels are sampled when their moment has come (R409), and packages behind ports that are down are lost (R405). -/
def State.later (s : State) : State :=
  let s := s.updHub (fun h => { h with now := h.now + 1 })
  (if s.hub.captures.isEmpty then s else s.sampleLevels).cutOff
/-- In hold the package answers nothing but the readiness map, the alarm log and an attestation, and logs alarms (R413). -/
def State.holdStep (s : State) : Res :=
  match s.agenda with
  | .event (.attest nonce) :: rest => execAttest nonce { s with agenda := rest }
  | .event (.apertureRead what) :: rest => execApertureRead what { s with agenda := rest }
  | .event (.controlRangeWrite writer off x) :: rest => execControlRangeWrite writer off x { s with agenda := rest }
  | .event (.securityAlarm cause source) :: rest => execSecurityAlarm cause source { s with agenda := rest }
  | _ :: rest => .next { s with agenda := rest }
  | [] => .next s.later
/-- What happens when nothing is due: the next core's issue slot. -/
def State.nextSlot (s : State) : Res :=
  match s.hub.nextCore s.turn with
  | none => .next s.later
  | some (c, again) => s.issueSlot c (fun s => ({ (if again then s.later else s) with turn := c + 1 } : State))
/-- What a fill lets happen (R184): the answer to a thread that waits for it, which brings every word of the line that the thread has asked for; the
first posted reduction of a thread on an operand; or another look of what waits for a miss register. -/
def State.serveGranted (s : State) (g : Grant) : Res :=
  match g with
  | .thread core t line =>
    let x := (s.coreAt core).thr t
    if x.outstanding && !x.resume then
      let picked := s.updThrAt core t (fun y => { y with progress := { y.progress with
        pick := if y.progress.pick.isSome then y.progress.pick else if y.progress.asks.any (fun a => a.2 == .word) then some (line * 256, line * 256 + 256)
          else none } })
      let s' := picked.replyAt core t line
      if ((s'.coreAt core).thr t).resume then s'.resumeThread core t else .next s'
    else .next s
  | .posted core t va =>
    match findPos (fun (r : Red) => r.core == core && r.tid == t && r.va == va && r.note.isNone) s.reds with
    | some n => execAtomicExecute (.posted n) s
    | none => .next s
  | .retry => .next s.retryHeld
/-- The head of the agenda happens; an entry that would place a row or an issue slot on a die that a deterministic launch holds is passed over, since
there the order follows from the state alone (R8, R352; log 6). -/
def State.agendaStep (s : State) (a : Act) (rest : List Act) : Res :=
  let s' := { s with agenda := rest }
  match a with
  | .event i => if s.ordered i then .next s' else exec i s'
  | .issue c => if (s.dieAt (dieOf c)).det.isSome then .next s' else s.issueSlot c (fun s => { s with agenda := rest })
/-- One step: a request that a fill has answered; else a wait that is over; else the head of the agenda; else the first row that the state calls
for; else an issue slot. -/
def State.stepMachine (s : State) : Res :=
  if s.hub.sec.hold then s.holdStep
  else
    match s.granted, resumingIn s.cores, s.agenda with
    | g :: rest, _, _ => ({ s with granted := rest } : State).serveGranted g
    | [], some (c, t), _ => s.resumeThread c t
    | [], none, a :: rest => s.agendaStep a rest
    | [], none, [] => (firstChange s (autoRows s)).getD s.nextSlot

/-! ### Placing an instruction -/

/-- The thread that runs a word: t15 for the XF group, which no other thread may issue (R35), and t0 otherwise. -/
def wordThread (w : Nat) : Nat := if w % 2 ^ 32 / 2 ^ 26 = 0x2C then 15 else 0
/-- The LM address of that thread's program counter. -/
def wordAddr (w : Nat) : Nat := if wordThread w = 15 then 0x3F000 else 0x400
/-- The core with a word in LM, and the thread Ready there with its buffer refilled: t0 in a task at system level, so that no level check
turns the word away. -/
def Core.withWord (c : Core) (w : Nat) : Core :=
  let t := wordThread w
  let c := c.lmPut (wordAddr w) (bytesOfNat 4 (w % 2 ^ 32))
  let c := if t = 15 then c else { c with attrs := setKey c.attrs 2 (.code 0) }
  let c := c.updThr t (fun x => { x with
    status := .ready, system := t != 15, pc := word (wordAddr w), readyAt := 0, progress := Progress.none,
    task := if t = 15 then none else some ⟨0, 0, []⟩, ctl := { x.ctl with kslot := 0, evmask := 0 } })
  ({ c with last := (t + 15) % 16, badLm := [], badThread := [] } : Core).refill t
/-- No thread of a core is about to resume. -/
def Core.quiet (c : Core) : Core := { c with threads := vecMap (fun _ (t : Thread) => { t with resume := false }) c.threads }
/-- No waiting writer fills a landing register of a core in this cycle. -/
def Core.still (c : Core) : Core :=
  { c with landing := vecMap (fun _ (x : LandReg) => if x.waiters.isEmpty then x else { x with fillAt := c.cyc.toNat + 1 }) c.landing }
/-- The state with an instruction word placed where the very next step issues it: on core 0 of die 0, whose array is ready, with the cycle of that
core begun and nothing due before its issue slot. -/
def State.placeWord (s : State) (w : Nat) : State :=
  let s := (s.updDie 0 (fun d => { d with det := none })).updHub (fun h => { h with
    ready1 := h.ready1 ||| 8, sec := { h.sec with hold := false } })
  let s := (s.updCore 0 (fun c => (c.withWord w).still)).openSlot 0
  { s with cores := s.cores.map (fun (e : Nat × Core) => (e.1, e.2.quiet)), granted := [], agenda := .issue 0 :: s.agenda }

end Sys2Proof.Machine
end

