-- ==== Sys2Proof/Machine/Step.lean ====
section
/-! DEFINITION. One step of the machine, and the placing of an instruction word for the host. -/

namespace Sys2Proof.Machine

/-- One step of the package (Issue.lean says what moves). -/
def step (s : State) : Host.Outcome State Fault Refusal := s.stepMachine

/-- The state with an instruction of the opcode table placed where the next step fetches it: bit 0 of `w` is the least significant of the
instruction's one word. -/
def State.withFetchWord (s : State) (nbits w : Nat) : State := s.placeWord (w % 2 ^ nbits)

end Sys2Proof.Machine
end

