-- ==== Sys2Proof/Laws/Tables.lean ====
section
/-! SUPPORT. What the table operations do: one lemma for each that says what a later read gives. -/

namespace Sys2Proof.Machine

variable {κ β : Type} [DecidableEq κ]

theorem getKey_setKey (l : List (κ × β)) (a b : κ) (x : β) : getKey (setKey l a x) b = if a = b then some x else getKey l b := by
  induction l with
  | nil => simp [setKey, getKey]
  | cons e l ih =>
    obtain ⟨k, y⟩ := e
    by_cases h : k = a
    · subst h; by_cases g : k = b <;> simp [setKey, getKey, g]
    · by_cases g : k = b
      · subst g; simp [setKey, getKey, h, Ne.symm h]
      · simp [setKey, getKey, h, g, ih]

/-- Every entry of a table with a key set is an old one or the new one. -/
theorem mem_setKey {l : List (κ × β)} {a : κ} {x : β} {e : κ × β} (h : e ∈ setKey l a x) : e ∈ l ∨ e = (a, x) := by
  induction l with
  | nil => simpa [setKey] using h
  | cons f l ih =>
    obtain ⟨k, y⟩ := f
    by_cases g : k = a
    · simp [setKey, g] at h; rcases h with h | h
      · exact .inr h
      · exact .inl (List.mem_cons_of_mem _ h)
    · simp [setKey, g] at h; rcases h with h | h
      · exact .inl (h ▸ List.mem_cons_self ..)
      · rcases ih h with h | h
        · exact .inl (List.mem_cons_of_mem _ h)
        · exact .inr h

/-- What a table answers stands in it. -/
theorem mem_of_getKey {l : List (κ × β)} {a : κ} {x : β} (h : getKey l a = some x) : (a, x) ∈ l := by
  induction l with
  | nil => simp [getKey] at h
  | cons f l ih =>
    obtain ⟨k, y⟩ := f
    by_cases g : k = a
    · simp [getKey, g] at h; simp [g, h]
    · simp [getKey, g] at h; exact List.mem_cons_of_mem _ (ih h)

end Sys2Proof.Machine
end

