-- ==== Sys2Proof/Laws/State.lean ====
section
/-! SUPPORT. The fields of the state after each update, and the registers of a thread. -/

namespace Sys2Proof.Machine

/-! ### Cores, dies, the hub -/

theorem coreAt_setCore (s : State) (c d : Nat) (x : Core) : (s.setCore c x).coreAt d = if c = d then x else s.coreAt d := by
  simp only [State.coreAt, State.setCore, getKey_setKey]; split <;> rfl
@[simp] theorem coreAt_setCore_self (s : State) (c : Nat) (x : Core) : (s.setCore c x).coreAt c = x := by simp [coreAt_setCore]
theorem coreAt_setCore_ne (s : State) {c d : Nat} (x : Core) (h : d ≠ c) : (s.setCore c x).coreAt d = s.coreAt d := by
  simp [coreAt_setCore, Ne.symm h]
theorem dieAt_setDie (s : State) (c d : Nat) (x : Die) : (s.setDie c x).dieAt d = if c = d then x else s.dieAt d := by
  simp only [State.dieAt, State.setDie, getKey_setKey]; split <;> rfl
@[simp] theorem dieAt_setDie_self (s : State) (c : Nat) (x : Die) : (s.setDie c x).dieAt c = x := by simp [dieAt_setDie]

@[simp] theorem setCore_hub (s : State) (c : Nat) (x : Core) : (s.setCore c x).hub = s.hub := rfl
@[simp] theorem setCore_dies (s : State) (c : Nat) (x : Core) : (s.setCore c x).dies = s.dies := rfl
@[simp] theorem setCore_dieAt (s : State) (c d : Nat) (x : Core) : (s.setCore c x).dieAt d = s.dieAt d := rfl
@[simp] theorem setCore_dram (s : State) (c : Nat) (x : Core) : (s.setCore c x).dram = s.dram := rfl
@[simp] theorem setCore_far (s : State) (c : Nat) (x : Core) : (s.setCore c x).far = s.far := rfl
@[simp] theorem setCore_net (s : State) (c : Nat) (x : Core) : (s.setCore c x).net = s.net := rfl
@[simp] theorem setCore_reds (s : State) (c : Nat) (x : Core) : (s.setCore c x).reds = s.reds := rfl
@[simp] theorem setCore_faults (s : State) (c : Nat) (x : Core) : (s.setCore c x).faults = s.faults := rfl
@[simp] theorem setCore_barriers (s : State) (c : Nat) (x : Core) : (s.setCore c x).barriers = s.barriers := rfl
@[simp] theorem setCore_pushes (s : State) (c : Nat) (x : Core) : (s.setCore c x).pushes = s.pushes := rfl
@[simp] theorem setCore_puts (s : State) (c : Nat) (x : Core) : (s.setCore c x).puts = s.puts := rfl
@[simp] theorem setCore_core (s : State) (c : Nat) (x : Core) : (s.setCore c x).core = s.core := rfl
@[simp] theorem setCore_tid (s : State) (c : Nat) (x : Core) : (s.setCore c x).tid = s.tid := rfl
@[simp] theorem setCore_agenda (s : State) (c : Nat) (x : Core) : (s.setCore c x).agenda = s.agenda := rfl
@[simp] theorem setCore_turn (s : State) (c : Nat) (x : Core) : (s.setCore c x).turn = s.turn := rfl
@[simp] theorem setCore_nextId (s : State) (c : Nat) (x : Core) : (s.setCore c x).nextId = s.nextId := rfl
@[simp] theorem setCore_fresh (s : State) (c : Nat) (x : Core) : (s.setCore c x).fresh = s.fresh := rfl
@[simp] theorem setCore_dramEpoch (s : State) (c : Nat) (x : Core) : (s.setCore c x).dramEpoch = s.dramEpoch := rfl
@[simp] theorem setCore_granted (s : State) (c : Nat) (x : Core) : (s.setCore c x).granted = s.granted := rfl
@[simp] theorem setCore_badDram (s : State) (c : Nat) (x : Core) : (s.setCore c x).badDram = s.badDram := rfl
@[simp] theorem setCore_jam (s : State) (c : Nat) (x : Core) : (s.setCore c x).jam = s.jam := rfl
@[simp] theorem setDie_hub (s : State) (d : Nat) (x : Die) : (s.setDie d x).hub = s.hub := rfl
@[simp] theorem setDie_cores (s : State) (d : Nat) (x : Die) : (s.setDie d x).cores = s.cores := rfl
@[simp] theorem setDie_coreAt (s : State) (c d : Nat) (x : Die) : (s.setDie d x).coreAt c = s.coreAt c := rfl
@[simp] theorem setDie_dram (s : State) (d : Nat) (x : Die) : (s.setDie d x).dram = s.dram := rfl
@[simp] theorem setDie_far (s : State) (d : Nat) (x : Die) : (s.setDie d x).far = s.far := rfl
@[simp] theorem setDie_dramEpoch (s : State) (d : Nat) (x : Die) : (s.setDie d x).dramEpoch = s.dramEpoch := rfl
@[simp] theorem setDie_core (s : State) (d : Nat) (x : Die) : (s.setDie d x).core = s.core := rfl
@[simp] theorem setDie_tid (s : State) (d : Nat) (x : Die) : (s.setDie d x).tid = s.tid := rfl
@[simp] theorem setDie_net (s : State) (d : Nat) (x : Die) : (s.setDie d x).net = s.net := rfl
@[simp] theorem setDie_reds (s : State) (d : Nat) (x : Die) : (s.setDie d x).reds = s.reds := rfl
@[simp] theorem setDie_faults (s : State) (d : Nat) (x : Die) : (s.setDie d x).faults = s.faults := rfl
@[simp] theorem setDie_barriers (s : State) (d : Nat) (x : Die) : (s.setDie d x).barriers = s.barriers := rfl
@[simp] theorem setDie_pushes (s : State) (d : Nat) (x : Die) : (s.setDie d x).pushes = s.pushes := rfl
@[simp] theorem setDie_granted (s : State) (d : Nat) (x : Die) : (s.setDie d x).granted = s.granted := rfl
@[simp] theorem setDie_puts (s : State) (d : Nat) (x : Die) : (s.setDie d x).puts = s.puts := rfl
@[simp] theorem setDie_agenda (s : State) (d : Nat) (x : Die) : (s.setDie d x).agenda = s.agenda := rfl
@[simp] theorem setDie_turn (s : State) (d : Nat) (x : Die) : (s.setDie d x).turn = s.turn := rfl
@[simp] theorem setDie_nextId (s : State) (d : Nat) (x : Die) : (s.setDie d x).nextId = s.nextId := rfl
@[simp] theorem setDie_fresh (s : State) (d : Nat) (x : Die) : (s.setDie d x).fresh = s.fresh := rfl
@[simp] theorem setDie_badDram (s : State) (d : Nat) (x : Die) : (s.setDie d x).badDram = s.badDram := rfl
@[simp] theorem setDie_jam (s : State) (d : Nat) (x : Die) : (s.setDie d x).jam = s.jam := rfl
@[simp] theorem updHub_hub (s : State) (f : Hub → Hub) : (s.updHub f).hub = f s.hub := rfl
@[simp] theorem updHub_cores (s : State) (f : Hub → Hub) : (s.updHub f).cores = s.cores := rfl
@[simp] theorem updHub_coreAt (s : State) (f : Hub → Hub) (c : Nat) : (s.updHub f).coreAt c = s.coreAt c := rfl
@[simp] theorem updHub_dies (s : State) (f : Hub → Hub) : (s.updHub f).dies = s.dies := rfl
@[simp] theorem updHub_dieAt (s : State) (f : Hub → Hub) (d : Nat) : (s.updHub f).dieAt d = s.dieAt d := rfl
@[simp] theorem updHub_dram (s : State) (f : Hub → Hub) : (s.updHub f).dram = s.dram := rfl
@[simp] theorem updHub_far (s : State) (f : Hub → Hub) : (s.updHub f).far = s.far := rfl
@[simp] theorem updHub_dramEpoch (s : State) (f : Hub → Hub) : (s.updHub f).dramEpoch = s.dramEpoch := rfl
@[simp] theorem updHub_core (s : State) (f : Hub → Hub) : (s.updHub f).core = s.core := rfl
@[simp] theorem updHub_tid (s : State) (f : Hub → Hub) : (s.updHub f).tid = s.tid := rfl
@[simp] theorem updHub_net (s : State) (f : Hub → Hub) : (s.updHub f).net = s.net := rfl
@[simp] theorem updHub_reds (s : State) (f : Hub → Hub) : (s.updHub f).reds = s.reds := rfl
@[simp] theorem updHub_faults (s : State) (f : Hub → Hub) : (s.updHub f).faults = s.faults := rfl
@[simp] theorem updHub_barriers (s : State) (f : Hub → Hub) : (s.updHub f).barriers = s.barriers := rfl
@[simp] theorem updHub_pushes (s : State) (f : Hub → Hub) : (s.updHub f).pushes = s.pushes := rfl
@[simp] theorem updHub_granted (s : State) (f : Hub → Hub) : (s.updHub f).granted = s.granted := rfl
@[simp] theorem updHub_puts (s : State) (f : Hub → Hub) : (s.updHub f).puts = s.puts := rfl
@[simp] theorem updHub_agenda (s : State) (f : Hub → Hub) : (s.updHub f).agenda = s.agenda := rfl
@[simp] theorem updHub_turn (s : State) (f : Hub → Hub) : (s.updHub f).turn = s.turn := rfl
@[simp] theorem updHub_nextId (s : State) (f : Hub → Hub) : (s.updHub f).nextId = s.nextId := rfl
@[simp] theorem updHub_fresh (s : State) (f : Hub → Hub) : (s.updHub f).fresh = s.fresh := rfl
@[simp] theorem updHub_badDram (s : State) (f : Hub → Hub) : (s.updHub f).badDram = s.badDram := rfl
@[simp] theorem updHub_jam (s : State) (f : Hub → Hub) : (s.updHub f).jam = s.jam := rfl

/-! ### Threads of a core -/

theorem thr_setThr (c : Core) (t u : Nat) (x : Thread) : (c.setThr t x).thr u = if t = u ∧ t < 16 then x else c.thr u := by
  simp only [Core.thr, Core.setThr, Vector.getElem?_setIfInBounds]
  by_cases h : t = u
  · subst h
    by_cases g : t < 16
    · simp [g]
    · simp [g]
  · simp [h]
@[simp] theorem thr_setThr_ne (c : Core) {t u : Nat} (x : Thread) (h : u ≠ t) : (c.setThr t x).thr u = c.thr u := by
  simp [thr_setThr, Ne.symm h]
theorem thr_setThr_self (c : Core) {t : Nat} (x : Thread) (h : t < 16) : (c.setThr t x).thr t = x := by simp [thr_setThr, h]

/-! ### The current core and thread -/

@[simp] theorem cur_setCore (s : State) (x : Core) : (s.setCore s.core x).cur = x := by simp [State.cur]
@[simp] theorem cur_updCur (s : State) (f : Core → Core) : (s.updCur f).cur = f s.cur := by simp [State.updCur, State.updCore, State.cur]
@[simp] theorem core_updCur (s : State) (f : Core → Core) : (s.updCur f).core = s.core := rfl
@[simp] theorem tid_updCur (s : State) (f : Core → Core) : (s.updCur f).tid = s.tid := rfl
theorem coreAt_updCur_ne (s : State) (f : Core → Core) {c : Nat} (h : c ≠ s.core) : (s.updCur f).coreAt c = s.coreAt c := by
  simp [State.updCur, State.updCore, coreAt_setCore_ne _ _ h]
@[simp] theorem rest_updCur (s : State) (f : Core → Core) (l : List (Nat × Core)) :
    ({ s.updCur f with cores := l } : State) = { s with cores := l } := rfl
theorem updThr_eq (s : State) (f : Thread → Thread) : s.updThr f = s.updCur (·.updThr s.tid f) := rfl
@[simp] theorem core_updThr (s : State) (f : Thread → Thread) : (s.updThr f).core = s.core := rfl
@[simp] theorem tid_updThr (s : State) (f : Thread → Thread) : (s.updThr f).tid = s.tid := rfl
@[simp] theorem cur_updThr (s : State) (f : Thread → Thread) : (s.updThr f).cur = s.cur.updThr s.tid f := by simp [updThr_eq]
@[simp] theorem rest_updThr (s : State) (f : Thread → Thread) (l : List (Nat × Core)) :
    ({ s.updThr f with cores := l } : State) = { s with cores := l } := rfl
theorem coreAt_updThr_ne (s : State) (f : Thread → Thread) {c : Nat} (h : c ≠ s.core) : (s.updThr f).coreAt c = s.coreAt c :=
  coreAt_updCur_ne _ _ h
theorem thr_updThr (s : State) (f : Thread → Thread) (h : s.tid < 16) : (s.updThr f).thr = f s.thr := by
  simp only [State.thr, cur_updThr, tid_updThr, Core.updThr, thr_setThr_self _ _ h]
theorem setKey_setKey {κ β : Type} [DecidableEq κ] (l : List (κ × β)) (a : κ) (x y : β) : setKey (setKey l a x) a y = setKey l a y := by
  induction l with
  | nil => simp [setKey]
  | cons e l ih =>
    obtain ⟨k, z⟩ := e
    by_cases h : k = a <;> simp [setKey, h, ih]
/-- Two changes of the current thread are one. -/
theorem updThr_updThr (s : State) (f g : Thread → Thread) (h : s.tid < 16) : (s.updThr f).updThr g = s.updThr (fun t => g (f t)) := by
  have e : ∀ (c : Core) (t : Nat), t < 16 → (c.updThr t f).updThr t g = c.updThr t (fun t => g (f t)) := by
    intro c t ht
    simp only [Core.updThr, thr_setThr_self _ _ ht]
    simp only [Core.setThr, Vector.setIfInBounds_setIfInBounds]
  have k : ∀ (s : State) (c : Nat) (x y : Core), (s.setCore c x).setCore c y = s.setCore c y := by
    intro s c x y; simp only [State.setCore, setKey_setKey]
  simp only [State.updThr, State.updThrAt, State.updCore]
  rw [show (s.setCore s.core ((s.coreAt s.core).updThr s.tid f)).core = s.core from rfl,
    show (s.setCore s.core ((s.coreAt s.core).updThr s.tid f)).tid = s.tid from rfl, coreAt_setCore_self, k, e _ _ h]
@[simp] theorem cyc_updThr (s : State) (f : Thread → Thread) : (s.updThr f).cur.cyc = s.cur.cyc := by simp [Core.updThr, Core.setThr]

end Sys2Proof.Machine
end

