-- ==== Sys2Proof/Safety.lean ====
section
/-! DEFINITION. What claims say of a run: what every state keeps, that an instruction completes, and what it leaves unchanged. -/

namespace Sys2Proof.Machine

/-! ### What every state keeps -/

/-- Every memory is in its canonical form: addresses strictly rising, and no entry equal to what an unlisted address reads as. -/
def State.Canonical (s : State) : Prop :=
  Memory.wf (dramDefault s.dramEpoch) s.dram = true ∧ Memory.wf Config.farByte s.far = true ∧
  ∀ e ∈ s.cores, Memory.wf lmDefault e.2.lm = true

/-! ### Where an instruction runs, and what it leaves unchanged -/

/-- The current thread is one of its core's 16. -/
abbrev State.Placed (s : State) : Prop := s.tid < 16

/-- What a thread holds beside its pc, its state and the partial state of its instruction: its registers of every kind, its prefetch buffer,
its wake bit, send count, drop notices, handles and task. -/
def Thread.holds (t : Thread) : Thread := { t with status := .ready, resume := false, pc := 0, readyAt := 0, progress := Progress.none }

/-- From `s` to `t` nothing changes outside the current thread: no other core, no other thread, nothing else of the core (its local memory,
landing registers, windows, banks, engines, L1), no die, no DRAM, nothing of the hub, nothing in flight. -/
structure State.OnlyThread (s t : State) : Prop where
  package : ({ t with cores := s.cores } : State) = s
  cores : ∀ c, c ≠ s.core → t.coreAt c = s.coreAt c
  core : ({ t.cur with threads := s.cur.threads } : Core) = s.cur
  threads : ∀ j, j ≠ s.tid → t.cur.thr j = s.cur.thr j

/-- The current instruction has completed without a taken branch: the thread is Ready at pc + 4, and eligible again after the interval
(R45). -/
structure State.Done (s t : State) (interval : Nat) : Prop where
  ready : t.thr.status = .ready ∧ t.thr.resume = false ∧ t.thr.progress = Progress.none
  pc : t.thr.pc = s.thr.pc + 4
  time : t.thr.readyAt = s.cur.cyc.toNat + interval

/-- The current instruction has completed with a jump to `target`; the prefetch buffer is discarded (R72, R144). -/
structure State.Jumped (s t : State) (interval : Nat) (target : Word) : Prop where
  ready : t.thr.status = .ready ∧ t.thr.resume = false ∧ t.thr.progress = Progress.none
  pc : t.thr.pc = target
  time : t.thr.readyAt = s.cur.cyc.toNat + interval
  buf : t.thr.buf = []

/-- General register `d` reads as `x` afterwards and every other as before; g0 reads 0; the registers that the thread's codes do not name
are kept (R15, R38). -/
structure State.SetReg (s t : State) (d : Reg) (x : Word) : Prop where
  reads : ∀ r, t.rd r = if r = 0 then 0 else if r = d then x else s.rd r
  event : s.thr.inEvent = false → t.thr.gs = s.thr.gs
  normal : s.thr.inEvent = true → ∀ r : Reg, 28 ≤ r.toNat → t.thr.g.get r.toFin = s.thr.g.get r.toFin

/-- The instruction writes general register `d` with `x`, leaves the control registers as `ctl`, and changes nothing else. -/
structure State.WroteReg (s t : State) (interval : Nat) (d : Reg) (x : Word) (ctl : Ctl) : Prop where
  only : State.OnlyThread s t
  done : State.Done s t interval
  reg : State.SetReg s t d x
  rest : t.thr.holds = ({ s.thr with g := t.thr.g, gs := t.thr.gs, ctl := ctl } : Thread).holds

/-- `i` completes with `t`: that is the next state, but where the thread has then run off the end of LM, with its pc at 0x4_0000: there the next state
is the one in which `t` raises a *fetch fault* at that pc (R12). -/
def Completes (i : Instr) (s t : State) : Prop :=
  exec i s = .next (if t.thr.pc = 0x40000 then t.trapAt 0x03 0x40000 0x40000 else t)

/-- `i` completes, and writes general register `d` with `x` and the control registers with `ctl` (the state's own where an instruction leaves them
alone). -/
def Writes (i : Instr) (s : State) (interval : Nat) (d : Reg) (x : Word) (ctl : Ctl) : Prop :=
  ∃ t, Completes i s t ∧ s.WroteReg t interval d x ctl

/-- `i` completes and changes nothing but the pc. -/
def Passes (i : Instr) (s : State) (interval : Nat) : Prop :=
  ∃ t, Completes i s t ∧ s.OnlyThread t ∧ s.Done t interval ∧ t.thr.holds = s.thr.holds

/-- `i` completes, leaves the control registers as `ctl`, and changes nothing else. -/
def SetsCtl (i : Instr) (s : State) (interval : Nat) (ctl : Ctl) : Prop :=
  ∃ t, Completes i s t ∧ s.OnlyThread t ∧ s.Done t interval ∧ t.thr.holds = ({ s.thr with ctl := ctl } : Thread).holds

/-- `i` completes with a jump to `target`, and writes general register `d` with `x` on the way; nothing else changes but the prefetch
buffer. -/
def Jumps (i : Instr) (s : State) (target : Word) (d : Reg) (x : Word) : Prop :=
  ∃ t, exec i s = .next t ∧ s.OnlyThread t ∧ s.Jumped t 4 target ∧ s.SetReg t d x ∧
    t.thr.holds = ({ s.thr with g := t.thr.g, gs := t.thr.gs, buf := t.thr.buf } : Thread).holds

/-! ### Traps -/

/-- The trap registers after entry with a cause, a value, the pc that is saved and the word (R80). -/
def Ctl.Trapped (c : Ctl) (cause : Nat) (val pc : Word) (inst : Word32) (c' : Ctl) : Prop :=
  c'.trapcause = (1 <<< 63) + word cause ∧ c'.trapval = val ∧ c'.trappc = pc ∧ c'.trapinst = inst.setWidth 64 ∧
  ({ c' with trapcause := c.trapcause, trapval := c.trapval, trappc := c.trappc, trapinst := c.trapinst } : Ctl) = c

/-- The thread has a handler that can take a trap: `trapvec` is not 0 and `trapcause`[63] is clear (R80, R81). -/
def State.HasHandler (s : State) : Prop := s.thr.ctl.trapcause.getLsbD 63 = false ∧ bits s.thr.ctl.trapvec 17 2 ≠ 0

/-- The thread traps at its own pc into its handler (R80): the four trap registers are written, the pc is `trapvec`, the interval is 4 cycles,
and no general, vector or mask register, no memory and no other control register changes; damage of the trap registers is gone with their writing (R395).  The instruction is abandoned: it leaves the
waiting writers of the landing registers, and windows that it had claimed as destinations are Empty again, for the instructions that are
parked on a window to look at (R117, R250). -/
structure State.TrapTaken (s t : State) (cause : Nat) (val : Word) : Prop where
  package : ({ t with cores := s.cores } : State) = s
  cores : ∀ c, c ≠ s.core → t.coreAt c = s.coreAt c
  core : ({ t.cur with threads := s.cur.threads, landing := s.cur.landing, windows := s.cur.windows, spills := s.cur.spills,
                       badThread := s.cur.badThread } : Core) = s.cur
  damage : t.cur.badThread = (s.cur.mend s.tid trapRegs).badThread
  landing : ∀ i : Nat, (t.cur.landing[i]?).map (fun x => (x.data, x.full)) = (s.cur.landing[i]?).map (fun x => (x.data, x.full))
  windows : s.thr.progress.begun = false → t.cur.windows = s.cur.windows ∧ t.cur.spills = s.cur.spills ∧
    ∀ j, j ≠ s.tid → t.cur.thr j = s.cur.thr j
  threads : ∀ j, j ≠ s.tid → t.cur.thr j = s.cur.thr j ∨
    (∃ i, (s.cur.thr j).parkOf = some (.window i)) ∧ t.cur.thr j = (s.cur.thr j).wakeUp
  spills : t.cur.spills.map (fun x => ({ x with ready := false } : Saved)) = s.cur.spills.map (fun x => ({ x with ready := false } : Saved))
  regs : s.thr.ctl.Trapped cause val s.thr.pc s.thr.inst t.thr.ctl
  pc : t.thr.pc = s.thr.ctl.trapvec
  status : t.thr.status = .ready ∧ t.thr.resume = false ∧ t.thr.progress = Progress.none
  time : t.thr.readyAt = s.cur.cyc.toNat + 4
  kept : ({ t.thr with ctl := s.thr.ctl, buf := s.thr.buf } : Thread).holds = s.thr.holds

end Sys2Proof.Machine
end

