-- ==== Sys2Proof/Laws/Frame.lean ====
section
/-! SUPPORT. What the shared ways of completing an instruction do: each changes the current thread only. -/

namespace Sys2Proof.Machine

theorem State.OnlyThread.refl (s : State) : s.OnlyThread s := ⟨rfl, fun _ _ => rfl, rfl, fun _ _ => rfl⟩
theorem State.OnlyThread.core_eq {s t : State} (h : s.OnlyThread t) : t.core = s.core := by
  have := congrArg State.core h.package; exact this
theorem State.OnlyThread.tid_eq {s t : State} (h : s.OnlyThread t) : t.tid = s.tid := by
  have := congrArg State.tid h.package; exact this
theorem State.OnlyThread.trans {s t u : State} (h : s.OnlyThread t) (g : t.OnlyThread u) : s.OnlyThread u where
  package := (congrArg (fun (x : State) => ({ x with cores := s.cores } : State)) g.package).trans h.package
  cores c n := by rw [g.cores c (h.core_eq ▸ n), h.cores c n]
  core := (congrArg (fun (x : Core) => ({ x with threads := s.cur.threads } : Core)) g.core).trans h.core
  threads j n := by rw [g.threads j (h.tid_eq ▸ n), h.threads j n]
/-- A change of the current thread is one. -/
theorem onlyThread_updThr (s : State) (f : Thread → Thread) : s.OnlyThread (s.updThr f) where
  package := rfl
  cores c n := coreAt_updThr_ne s f n
  core := by simp [Core.updThr, Core.setThr]
  threads j n := by simp [Core.updThr, thr_setThr_ne _ _ n]

/-- What a meaning that completes answers. -/
theorem runOff_eq (t : State) : t.runOff = if t.thr.pc = 0x40000 then t.trapAt 0x03 0x40000 0x40000 else t := by
  have e : (t.thr.pc.toNat = 0x40000) ↔ t.thr.pc = 0x40000 := ⟨fun h => BitVec.eq_of_toNat_eq (by simpa using h), fun h => by rw [h]; rfl⟩
  unfold State.runOff
  by_cases h : t.thr.pc = 0x40000
  · rw [if_pos (e.2 h), if_pos h, h]
  · rw [if_neg (fun g => h (e.1 g)), if_neg h]
theorem completes_of_next {i : Instr} {s u : State} {n : Nat} (h : exec i s = u.next n) : Completes i s (u.goOn n) := by
  rw [Completes, h, State.next, State.advance, runOff_eq]
theorem complete_thr (s : State) (n : Nat) (h : s.Placed) : (s.complete n).thr =
    { s.thr with status := .ready, resume := false, progress := Progress.none, readyAt := s.cur.cyc.toNat + n } := by
  have h : s.tid < 16 := h
  simp [State.complete, thr_updThr, h]
theorem goOn_thr (s : State) (n : Nat) (h : s.Placed) : (s.goOn n).thr =
    { s.thr with status := .ready, resume := false, progress := Progress.none, readyAt := s.cur.cyc.toNat + n, pc := s.thr.pc + 4 } := by
  rw [State.goOn, thr_updThr (s.complete n) _ (show (s.complete n).tid < 16 from h), complete_thr s n h]
theorem goOn_core (s : State) (n : Nat) : (s.goOn n).core = s.core := rfl
theorem goOn_tid (s : State) (n : Nat) : (s.goOn n).tid = s.tid := rfl
theorem onlyThread_goOn (s : State) (n : Nat) : s.OnlyThread (s.goOn n) :=
  State.OnlyThread.trans (onlyThread_updThr s _) (onlyThread_updThr _ _)
theorem done_goOn (s : State) (n : Nat) (h : s.Placed) : s.Done (s.goOn n) n := by
  constructor <;> simp [goOn_thr s n h]
/-- A change of the current thread, then its completion: what OnlyThread and Done say of it. -/
theorem updThr_goOn {s : State} (f : Thread → Thread) (n : Nat) (hf : (f s.thr).pc = s.thr.pc) (h : s.Placed) :
    s.OnlyThread ((s.updThr f).goOn n) ∧ s.Done ((s.updThr f).goOn n) n ∧
    ((s.updThr f).goOn n).thr.holds = (f s.thr).holds := by
  have hp : (s.updThr f).Placed := h
  refine ⟨State.OnlyThread.trans (onlyThread_updThr s f) (onlyThread_goOn _ n), ?_, ?_⟩
  · constructor <;> simp [goOn_thr _ n hp, thr_updThr _ _ h, hf, Core.updThr, Core.setThr]
  · simp [goOn_thr _ n hp, thr_updThr _ _ h, Thread.holds]

/-! ### General registers -/

theorem vget_eq {α : Type} {n : Nat} (v : Vector α n) (i : Fin n) : v.get i = v[i.val] := rfl
theorem ctl_wr (t : Thread) (d : Reg) (x : Word) : (t.wr d x).ctl = t.ctl := by
  simp only [Thread.wr]; split
  · rfl
  · split <;> rfl
theorem inEvent_wr (t : Thread) (d : Reg) (x : Word) : (t.wr d x).inEvent = t.inEvent := by
  simp only [Thread.wr]; split
  · rfl
  · split <;> rfl
theorem rd_wr (t : Thread) (d r : Reg) (x : Word) : (t.wr d x).rd r = if r = 0 then 0 else if r = d then x else t.rd r := by
  by_cases hr : r = 0
  · simp [Thread.rd, hr]
  by_cases hd : d = 0
  · subst hd
    have h0 : t.wr 0 x = t := by simp [Thread.wr]
    rw [h0, if_neg hr]; simp only [if_neg hr]
  have hlt := r.isLt
  have hdlt := d.isLt
  simp only [Thread.rd, if_neg hr, inEvent_wr]
  by_cases h3 : r = d
  · subst h3
    by_cases h1 : (t.inEvent && decide (28 ≤ r.toNat)) = true
    · have : r.toNat - 28 < 4 := by omega
      simp only [Thread.wr, if_neg hd, if_pos h1]
      simp [Vector.getElem?_setIfInBounds, this]
    · simp only [Thread.wr, if_neg hd, if_neg h1]
      simp [vget_eq]
  · have hn : d.toNat ≠ r.toNat := fun e => h3 (BitVec.eq_of_toNat_eq e.symm)
    simp only [Thread.wr, if_neg hd, if_neg h3]
    by_cases h2 : (t.inEvent && decide (28 ≤ r.toNat)) = true <;> by_cases h1 : (t.inEvent && decide (28 ≤ d.toNat)) = true
    all_goals simp only [if_pos, if_neg, h1, h2]
    · have : ¬ d.toNat - 28 = r.toNat - 28 := by simp at h1 h2; omega
      simp [Vector.getElem?_setIfInBounds, this]
    · simp
    · simp
    · simp [vget_eq, Vector.getElem_set, hn]
/-- A register written: what SetReg says of it. -/
theorem setReg_of_wr {s t : State} (d : Reg) (x : Word) (hg : t.thr.g = (s.thr.wr d x).g) (hgs : t.thr.gs = (s.thr.wr d x).gs)
    (he : t.thr.ctl.evcause = s.thr.ctl.evcause) : s.SetReg t d x where
  reads r := by
    rw [State.rd, State.rd, ← rd_wr]
    have hi : t.thr.inEvent = (s.thr.wr d x).inEvent := by rw [inEvent_wr, Thread.inEvent, Thread.inEvent, he]
    unfold Thread.rd
    rw [hi, hg, hgs]
  event h := by
    rw [hgs]; simp only [Thread.wr, h]; split <;> rfl
  normal h r hr := by
    rw [hg]; simp only [Thread.wr, h]
    split
    · rfl
    · split
      · rfl
      · rename_i h1
        have : ¬ d.toNat = r.toNat := by simp at h1; omega
        simp [vget_eq, Vector.getElem_set, this]
theorem wr_holds (t : Thread) (d : Reg) (x : Word) : ∃ g gs, t.wr d x = { t with g := g, gs := gs } := by
  simp only [Thread.wr]; split
  · exact ⟨t.g, t.gs, rfl⟩
  · split
    · exact ⟨t.g, _, rfl⟩
    · exact ⟨_, t.gs, rfl⟩
/-- A change of the current thread that writes one general register and the control registers, then completion. -/
theorem wroteReg_updThr {s : State} (f : Thread → Thread) (n : Nat) (d : Reg) (x : Word) (c : Ctl)
    (hf : f s.thr = { s.thr.wr d x with ctl := c }) (hc : c.evcause = s.thr.ctl.evcause) (h : s.Placed) :
    s.WroteReg ((s.updThr f).goOn n) n d x c := by
  obtain ⟨g, gs, e⟩ := wr_holds s.thr d x
  have hpc : (f s.thr).pc = s.thr.pc := by rw [hf, e]
  obtain ⟨h1, h2, h3⟩ := updThr_goOn f n hpc h
  have ht := goOn_thr (s.updThr f) n h
  rw [thr_updThr s f h, hf] at ht
  refine ⟨h1, h2, setReg_of_wr d x ?_ ?_ ?_, ?_⟩
  · rw [ht]
  · rw [ht]
  · rw [ht]; exact hc
  · rw [ht, e]; rfl
/-- A register written and the instruction completed. -/
theorem wroteReg_goOn {s : State} (n : Nat) (d : Reg) (x : Word) (h : s.Placed) :
    s.WroteReg ((s.wr d x).goOn n) n d x s.thr.ctl := by
  refine wroteReg_updThr (·.wr d x) n d x _ ?_ rfl h
  obtain ⟨g, gs, e⟩ := wr_holds s.thr d x
  show s.thr.wr d x = _
  rw [e]
/-- An instruction that only advances. -/
theorem passes_next {i : Instr} {s : State} {n : Nat} (e : exec i s = s.next n) (h : s.Placed) : Passes i s n :=
  ⟨_, completes_of_next e, onlyThread_goOn s n, done_goOn s n h, by rw [goOn_thr s n h]; rfl⟩

end Sys2Proof.Machine
end

