-- ==== Sys2Proof/Certificates/Slice0/Obligations.lean ====
section
/-! DEFINITION. The statements for the provers, and the predicates in which they are told.  Each docstring names the rules of spec/ that it
formalises, or the log entry (notes/assumptions) on which a clause rests. -/

section

open Sys2Proof Sys2Proof.Machine

/-! ### Scalar arithmetic (R67 to R71) -/

/-- R67: the additions, logic, shifts, compares and selections write g[rd] from g[ra] and g[rb] as the table gives them, in 2 cycles, and
change no other register, no flag, no memory and nothing else of the machine. -/
def Rules.AluArithmetic : Prop :=
  ∀ (s : State) (d a b : Reg), s.Placed →
    let x := s.rd a
    let y := s.rd b
    let n := y.toNat % 64
    let w := fun (i : Instr) (r : Word) => Writes i s 2 d r s.thr.ctl
    w (.add d a b) (x + y) ∧ w (.sub d a b) (x - y) ∧ w (.and d a b) (x &&& y) ∧ w (.or d a b) (x ||| y) ∧
    w (.xor d a b) (x ^^^ y) ∧ w (.andn d a b) (x &&& ~~~y) ∧ w (.orn d a b) (x ||| ~~~y) ∧
    w (.shl d a b) (word (x.toNat * 2 ^ n)) ∧ w (.shr d a b) (word (x.toNat / 2 ^ n)) ∧
    w (.sra d a b) (BitVec.ofInt 64 (x.toInt / 2 ^ n)) ∧ w (.rol d a b) ((x <<< n) ||| (x >>> (64 - n))) ∧
    w (.slt d a b) (if x.toInt < y.toInt then 1 else 0) ∧ w (.sltn d a b) (if x.toNat < y.toNat then 1 else 0) ∧
    w (.seq d a b) (if x = y then 1 else 0) ∧
    w (.min d a b) (BitVec.ofInt 64 (min x.toInt y.toInt)) ∧ w (.max d a b) (BitVec.ofInt 64 (max x.toInt y.toInt)) ∧
    w (.minn d a b) (word (min x.toNat y.toNat)) ∧ w (.maxn d a b) (word (max x.toNat y.toNat))

/-- R67, R68: products and quotients as integer arithmetic gives them, with the fixed results where no quotient exists; 4 and 16 cycles. -/
def Rules.MultiplyDivide : Prop :=
  ∀ (s : State) (d a b : Reg), s.Placed →
    let x := s.rd a
    let y := s.rd b
    let w := fun (n : Nat) (i : Instr) (r : Word) => Writes i s n d r s.thr.ctl
    w 4 (.mul d a b) (word (x.toNat * y.toNat)) ∧ w 4 (.mulh d a b) (BitVec.ofInt 64 (x.toInt * y.toInt / 2 ^ 64)) ∧
    w 4 (.mulhn d a b) (word (x.toNat * y.toNat / 2 ^ 64)) ∧ w 4 (.mad d a b) (s.rd d + x * y) ∧
    w 16 (.div d a b) (if y = 0 then 0xFFFFFFFFFFFFFFFF else if x.toInt = -2 ^ 63 ∧ y.toInt = -1 then x
      else BitVec.ofInt 64 (x.toInt.tdiv y.toInt)) ∧
    w 16 (.rem d a b) (if y = 0 then x else if x.toInt = -2 ^ 63 ∧ y.toInt = -1 then 0
      else BitVec.ofInt 64 (x.toInt - y.toInt * x.toInt.tdiv y.toInt)) ∧
    w 16 (.divn d a b) (if y = 0 then 0xFFFFFFFFFFFFFFFF else word (x.toNat / y.toNat)) ∧
    w 16 (.remn d a b) (if y = 0 then x else word (x.toNat % y.toNat))

/-- The bits of a word are those that a function gives. -/
def BitsAre (x : Word) (f : Nat → Bool) : Prop := ∀ i, i < 64 → x.getLsbD i = f i

/-- R67, R69: counts, byte reversal, extensions, field extraction and funnel shifts, told bit by bit; 2 cycles. -/
def Rules.BitOperations : Prop :=
  ∀ (s : State) (d a b : Reg), s.Placed →
    let x := s.rd a
    let y := s.rd b
    let n := y.toNat % 64
    let w := fun (i : Instr) (r : Word) => Writes i s 2 d r s.thr.ctl
    (∃ n, n ≤ 64 ∧ w (.clz d a) (word n) ∧ (∀ i, 64 - n ≤ i → x.getLsbD i = false) ∧ (n < 64 → x.getLsbD (63 - n) = true)) ∧
    (∃ n, n ≤ 64 ∧ w (.ctz d a) (word n) ∧ (∀ i, i < n → x.getLsbD i = false) ∧ (n < 64 → x.getLsbD n = true)) ∧
    w (.pop d a) (word ((List.range 64).countP x.getLsbD)) ∧
    (∃ r, w (.bswap d a) r ∧ BitsAre r (fun i => x.getLsbD (8 * (7 - i / 8) + i % 8))) ∧
    (∃ r, w (.sextB d a) r ∧ BitsAre r (fun i => x.getLsbD (min i 7))) ∧
    (∃ r, w (.sextH d a) r ∧ BitsAre r (fun i => x.getLsbD (min i 15))) ∧
    (∃ r, w (.sextW d a) r ∧ BitsAre r (fun i => x.getLsbD (min i 31))) ∧
    (∃ r, w (.zextB d a) r ∧ BitsAre r (fun i => decide (i < 8) && x.getLsbD i)) ∧
    (∃ r, w (.zextH d a) r ∧ BitsAre r (fun i => decide (i < 16) && x.getLsbD i)) ∧
    (∃ r, w (.zextW d a) r ∧ BitsAre r (fun i => decide (i < 32) && x.getLsbD i)) ∧
    (∃ r, w (.bext d a b) r ∧ BitsAre r (fun i => decide (i ≤ bits y 13 8) && x.getLsbD (i + n))) ∧
    (∃ r, w (.fshr d a b) r ∧ BitsAre r (fun i => if i + n < 64 then (s.rd d).getLsbD (i + n) else x.getLsbD (i + n - 64))) ∧
    (∃ r, w (.fshl d a b) r ∧ BitsAre r (fun i => if n ≤ i then (s.rd d).getLsbD (i - n) else x.getLsbD (64 + i - n)))

/-- R70, R14: the immediate forms, with imm16 sign-extended for ADDI and SLTI, zero-extended for ANDI, ORI, XORI and SHLORI, and imm21
sign-extended and shifted left 16 for LIH. -/
def Rules.Immediates : Prop :=
  ∀ (s : State) (d a : Reg) (imm : BitVec 16) (n : BitVec 6) (imm21 : BitVec 21), s.Placed →
    let x := s.rd a
    let w := fun (i : Instr) (r : Word) => Writes i s 2 d r s.thr.ctl
    w (.addi d a imm) (BitVec.ofInt 64 (x.toInt + imm.toInt)) ∧ w (.andi d a imm) (x &&& word imm.toNat) ∧
    w (.ori d a imm) (x ||| word imm.toNat) ∧ w (.xori d a imm) (x ^^^ word imm.toNat) ∧
    w (.slti d a imm) (if x.toInt < imm.toInt then 1 else 0) ∧ w (.shli d a n) (word (x.toNat * 2 ^ n.toNat)) ∧
    w (.shri d a n) (word (x.toNat / 2 ^ n.toNat)) ∧ w (.srai d a n) (BitVec.ofInt 64 (x.toInt / 2 ^ n.toNat)) ∧
    w (.roli d a n) ((x <<< n.toNat) ||| (x >>> (64 - n.toNat))) ∧
    w (.shlori d a imm) (word (x.toNat * 2 ^ 16 + imm.toNat)) ∧ w (.lih d imm21) (BitVec.ofInt 64 (imm21.toInt * 2 ^ 16))

/-- R71: the bit-field forms, told bit by bit, for every field that decode admits; no word stands for a field that passes bit 63. -/
def Rules.BitFields : Prop :=
  ∀ (s : State) (d a : Reg) (l p n : BitVec 6),
    (64 ≤ p.toNat + l.toNat → ∀ w, decode w ≠ .ok (.bexti d a l p) ∧ decode w ≠ .ok (.bextsi d a l p) ∧ decode w ≠ .ok (.binsi d a l p)) ∧
    (s.Placed → p.toNat + l.toNat < 64 →
    let x := s.rd a
    let y := s.rd d
    let w := fun (i : Instr) (r : Word) => Writes i s 2 d r s.thr.ctl
    (∃ r, w (.bexti d a l p) r ∧ BitsAre r (fun i => decide (i ≤ l.toNat) && x.getLsbD (i + p.toNat))) ∧
    (∃ r, w (.bextsi d a l p) r ∧ BitsAre r (fun i => x.getLsbD (min i l.toNat + p.toNat))) ∧
    (∃ r, w (.binsi d a l p) r ∧ BitsAre r (fun i =>
      if p.toNat ≤ i ∧ i ≤ p.toNat + l.toNat then x.getLsbD (i - p.toNat) else y.getLsbD i)) ∧
    (∃ r, w (.fshli d a n) r ∧ BitsAre r (fun i => if n.toNat ≤ i then y.getLsbD (i - n.toNat) else x.getLsbD (64 + i - n.toNat))) ∧
    (∃ r, w (.fshri d a n) r ∧ BitsAre r (fun i => if i + n.toNat < 64 then y.getLsbD (i + n.toNat) else x.getLsbD (i + n.toNat - 64))))

/-! ### Branches and jumps (R12, R72 to R74) -/

/-- The condition of each compare-and-branch (R72). -/
def BranchWhen (s : State) (a b : Reg) (o : BitVec 16) : List (Instr × Bool) :=
  [(.beq a b o, decide (s.rd a = s.rd b)), (.bne a b o, decide (s.rd a ≠ s.rd b)), (.blt a b o, decide ((s.rd a).toInt < (s.rd b).toInt)),
   (.bge a b o, decide ((s.rd b).toInt ≤ (s.rd a).toInt)), (.bltn a b o, decide ((s.rd a).toNat < (s.rd b).toNat)),
   (.bgen a b o, decide ((s.rd b).toNat ≤ (s.rd a).toNat))]

/-- A legal pc: a multiple of 4 up to 0x3_FFFC (R12). -/
def LegalPc (t : Word) : Prop := t.toNat % 4 = 0 ∧ t.toNat ≤ 0x3FFFC

/-- R72: a compare-and-branch whose condition fails goes on at pc + 4; whose condition holds goes to pc + 4 · sext(off16), if the target
lies in LM.  It writes no register. -/
def Rules.Branches : Prop :=
  ∀ (s : State) (a b : Reg) (o : BitVec 16), s.tid < 16 → ∀ e ∈ BranchWhen s a b o,
    (e.2 = false → Passes e.1 s 2) ∧
    (e.2 = true → LegalPc (BitVec.ofInt 64 (s.thr.pc.toInt + 4 * o.toInt)) →
      Jumps e.1 s (BitVec.ofInt 64 (s.thr.pc.toInt + 4 * o.toInt)) 0 0)

/-- R73, R74: DBNZ decrements and branches while the count is not 0; JAL and JALR write pc + 4 and jump, JALR through the value that ra
holds before rd is written. -/
def Rules.CountAndJump : Prop :=
  ∀ (s : State) (d a : Reg) (o : BitVec 16) (o21 : BitVec 21) (imm : BitVec 16), s.tid < 16 →
    (s.rd a = 1 → Writes (.dbnz a o) s 2 a 0 s.thr.ctl) ∧
    (s.rd a ≠ 1 → LegalPc (BitVec.ofInt 64 (s.thr.pc.toInt + 4 * o.toInt)) →
      Jumps (.dbnz a o) s (BitVec.ofInt 64 (s.thr.pc.toInt + 4 * o.toInt)) a (s.rd a - 1)) ∧
    (LegalPc (BitVec.ofInt 64 (s.thr.pc.toInt + 4 * o21.toInt)) →
      Jumps (.jal d o21) s (BitVec.ofInt 64 (s.thr.pc.toInt + 4 * o21.toInt)) d (s.thr.pc + 4)) ∧
    (LegalPc (BitVec.ofInt 64 ((s.rd a).toInt + imm.toInt)) →
      Jumps (.jalr d a imm) s (BitVec.ofInt 64 ((s.rd a).toInt + imm.toInt)) d (s.thr.pc + 4))

/-- R12, R78: a taken branch or jump whose target is no multiple of 4 traps *misalignment*, and one whose target is a multiple of 4 beyond
0x3_FFFC traps *fetch fault*, with the target as trapval; and an instruction at 0x3_FFFC that completes without a taken branch has its effect and traps
*fetch fault* at 0x4_0000, which for every instruction is part of what `Completes` says of it. -/
def Rules.TargetTraps : Prop :=
  ∀ (s : State) (d a b : Reg) (o : BitVec 16) (o21 : BitVec 21) (imm : BitVec 16),
    let bad := fun (t : Word) (c : Nat) => (t.toNat % 4 ≠ 0 ∧ c = 0x02) ∨ (t.toNat % 4 = 0 ∧ 0x3FFFC < t.toNat ∧ c = 0x03)
    let t1 := BitVec.ofInt 64 (s.thr.pc.toInt + 4 * o.toInt)
    let t2 := BitVec.ofInt 64 (s.thr.pc.toInt + 4 * o21.toInt)
    let t3 := BitVec.ofInt 64 ((s.rd a).toInt + imm.toInt)
    ∀ c, (bad t1 c → (∀ e ∈ BranchWhen s a b o, e.2 = true → exec e.1 s = .next (s.trapSt c t1)) ∧
        (s.rd a ≠ 1 → exec (.dbnz a o) s = .next (s.trapSt c t1))) ∧
      (bad t2 c → exec (.jal d o21) s = .next (s.trapSt c t2)) ∧
      (bad t3 c → exec (.jalr d a imm) s = .next (s.trapSt c t3)) ∧
      (s.tid < 16 → s.thr.pc = 0x3FFFC → s.HasHandler →
        let ranOff := fun (t : State) => t.thr.ctl.trapcause = (1 <<< 63) + 0x03 ∧ t.thr.ctl.trappc = 0x40000 ∧ t.thr.ctl.trapval = 0x40000 ∧
          t.thr.pc = s.thr.ctl.trapvec ∧ t.thr.status = .ready ∧ t.thr.readyAt = s.cur.cyc.toNat + 4
        (∃ t, exec (.add d a b) s = .next t ∧ ranOff t ∧ s.SetReg t d (s.rd a + s.rd b)) ∧
        (∀ e ∈ BranchWhen s a b o, e.2 = false → ∃ t, exec e.1 s = .next t ∧ ranOff t ∧ ∀ r, t.rd r = s.rd r) ∧
        (s.rd a = 1 → ∃ t, exec (.dbnz a o) s = .next t ∧ ranOff t ∧ s.SetReg t a 0) ∧
        ∀ u n i, s.Done u n → Completes i s u → exec i s = .next (u.trapAt 0x03 0x40000 0x40000))

/-- R67, R68: integer arithmetic, logic, shifts, compares and selections of general registers, products and quotients. -/
def Obligations.ScalarArithmetic : Prop := Rules.AluArithmetic ∧ Rules.MultiplyDivide

/-- R14, R67, R69 to R71: bit operations, immediate forms and bit fields. -/
def Obligations.BitsAndImmediates : Prop := Rules.BitOperations ∧ Rules.Immediates ∧ Rules.BitFields

/-- R12, R72 to R74: branches, counted branches and jumps, and the traps of their targets. -/
def Obligations.ControlTransfers : Prop := Rules.Branches ∧ Rules.CountAndJump ∧ Rules.TargetTraps

/-! ### Floating point (R84 to R95, R104 to R110) -/

/-- The control registers with flags added to `fflags` (R92). -/
def Flagged (s : State) (f : Flags) : Ctl := { s.thr.ctl with fflags := s.thr.ctl.fflags ||| f.setWidth 64 }

/-- R105 to R109 under `fcw` (R86): each scalar floating-point instruction writes the one result that the shared operation gives on the low
bits of its registers, zero-extended, raises exactly that result's flags, and changes nothing else; 4 cycles, 16 for FDIV and FSQRT. -/
def Rules.ScalarFloat : Prop :=
  ∀ (s : State) (t : ElemTy) (d a b : Reg), s.Placed → fpsTy t = true →
    let c := s.fcw
    let x := (s.rd a).toNat
    let y := (s.rd b).toNat
    let w := fun (n : Nat) (i : Instr) (r : Fl) => Writes i s n d (word r.x) (Flagged s r.fl)
    w 4 (.fadd t d a b) (fpAdd t c x y) ∧ w 4 (.fsub t d a b) (fpSub t c x y) ∧ w 4 (.fmul t d a b) (fpMul t c x y) ∧
    w 4 (.ffma t d a b) (fpFma t c false (s.rd d).toNat x y) ∧ w 4 (.fmin t d a b) (fpMin t c x y) ∧
    w 4 (.fmax t d a b) (fpMax t c x y) ∧ w 4 (.fabs t d a) (fpAbs t x) ∧ w 4 (.fneg t d a) (fpNeg t x) ∧
    w 4 (.feq t d a b) (fpCmp t c .eq x y) ∧ w 4 (.flt t d a b) (fpCmp t c .lt x y) ∧ w 4 (.fle t d a b) (fpCmp t c .le x y) ∧
    w 16 (.fdiv t d a b) (fpDiv t c x y) ∧ w 16 (.fsqrt t d a) (fpSqrt t c x) ∧ w 4 (.fclass t d a) ⟨fpClass t x, 0⟩

/-- R110, R94: FCVT converts under `crnd`; under SR it steps `seed` once and rounds with the upper half of the new state; a result in i32
is sign-extended. -/
def Rules.ScalarConvert : Prop :=
  ∀ (s : State) (t u : ElemTy) (d a : Reg), s.Placed → fcvtFits t u = true →
    let y := xsStep s.thr.ctl.seed
    let r := convert t u s.fcw (y.toNat / 2 ^ 32) (s.rd a).toNat
    Writes (.fcvt t u d a) s 4 d (if t = .i32 then BitVec.ofInt 64 (BitVec.ofNat 32 r.x).toInt else word r.x)
      { Flagged s r.fl with seed := if bits s.thr.ctl.fcw 5 3 = 5 then y else s.thr.ctl.seed }

/-- R89, R95: rounding m · 2^e to a multiple of 2^q. With v = m · 2^(e − q) and lo = ⌊v⌋: an exact value is kept; RTZ gives lo; RDN and RUP
give lo or lo + 1 by the sign; RNE gives the nearer, and of two equally near the even one; RNA the nearer, and of two equally near lo + 1;
SR gives lo + 1 just if ⌊2^32 (v − lo)⌋ + r reaches 2^32. -/
def Obligations.Rounding : Prop :=
  ∀ (neg : Bool) (m : Nat) (e q : Int) (r : Nat), e ≤ q →
    let k := 2 ^ (q - e).toNat
    let lo := m / k
    let f := m % k
    let go := fun (rm : Rm) => (roundTo rm neg m e false q).1
    (∀ rm, (roundTo rm neg m e false q).2 = decide (f ≠ 0)) ∧
    (f = 0 → ∀ rm, go rm = lo) ∧
    (f ≠ 0 → go .rtz = lo ∧ go .rdn = (if neg then lo + 1 else lo) ∧ go .rup = (if neg then lo else lo + 1) ∧
      (2 * f < k → go .rne = lo ∧ go .rna = lo) ∧ (k < 2 * f → go .rne = lo + 1 ∧ go .rna = lo + 1) ∧
      (2 * f = k → go .rne = lo + lo % 2 ∧ go .rna = lo + 1) ∧
      (go (.sr r) = if 2 ^ 32 ≤ 2 ^ 32 * f / k + r then lo + 1 else lo))

/-- The real number that a finite value stands for. -/
def ValueIs : Machine.Num → ℝ → Prop
  | .fin neg m e, v => v = (if neg then -1 else 1) * (m : ℝ) * (2 : ℝ) ^ e
  | .inf _, _ | .nan _, _ => False

/-- R89, R95: the whole number to which a magnitude is rounded in a mode, for the sign `neg`. -/
def RoundsInt (rm : Rm) (neg : Bool) (x : ℝ) (n : ℕ) : Prop :=
  ∃ lo : ℕ, (lo : ℝ) ≤ x ∧ x < lo + 1 ∧ (x = lo → n = lo) ∧ (x ≠ lo →
    match rm with
    | .rtz => n = lo
    | .rdn => n = if neg then lo + 1 else lo
    | .rup => n = if neg then lo else lo + 1
    | .rne => (x < lo + 1 / 2 → n = lo) ∧ (lo + 1 / 2 < x → n = lo + 1) ∧ (x = lo + 1 / 2 → n = lo + lo % 2)
    | .rna => (x < lo + 1 / 2 → n = lo) ∧ (lo + 1 / 2 ≤ x → n = lo + 1)
    | .sr r => ∃ d : ℕ, (d : ℝ) ≤ 2 ^ 32 * (x - lo) ∧ 2 ^ 32 * (x - lo) < d + 1 ∧ n = if 2 ^ 32 ≤ d + r then lo + 1 else lo)

/-- The largest finite magnitude of a floating type, as significand and exponent (R82). -/
def Largest : ElemTy → ℕ × ℕ
  | .f32 => (2 ^ 24 - 1, 104)
  | .wf19 => (2 ^ 11 - 1, 117)
  | .bf16 => (2 ^ 8 - 1, 120)
  | .f16 => (65504, 0)
  | .e5m2 => (57344, 0)
  | .e4m3 => (448, 0)
  | .e2m1 => (6, 0)
  | .i32 | .i16 | .i8 | .i4 | .n32 | .n16 | .n8 | .n4 | .c8 => (0, 0)

/-- R90: what a magnitude beyond the largest finite one gives: that one in a mode that rounds toward zero for the sign; else, by the row of the
type, that one with *saturated*, the NaN of e4m3, or the infinity.  That the column of the modes that round toward zero stands before the one of `sat`,
with no *saturated* there, is the model's choice (log 20). -/
def OverflowGives (t : ElemTy) (rm : Rm) (w : Work) (neg : Bool) (r : Fl) : Prop :=
  let fl := flOverflow ||| flInexact
  let sign := if neg then 2 ^ (t.width - 1) else 0
  if rm = .rtz ∨ (rm = .rdn ∧ neg = false) ∨ (rm = .rup ∧ neg = true) then r = ⟨sign + maxFinite t, fl⟩
  else if t = .e2m1 ∨ (w = .conv true ∧ t ∈ [ElemTy.f16, .bf16, .e5m2, .e4m3]) then r = ⟨sign + maxFinite t, fl ||| flSaturated⟩
  else if t = .e4m3 then r = ⟨0x7F, fl⟩
  else r = ⟨sign + infBits t, fl⟩

/-- R89, R90, R92: `r` is the one rounding of the nonzero real `v` to the floating type `t`.  `u` is the result with an unbounded exponent range, by which
overflow and tininess are decided; `n` the multiple of the last place that the type has there. -/
def RoundsTo (t : ElemTy) (rm : Rm) (ftzo : Bool) (w : Work) (v : ℝ) (r : Fl) : Prop :=
  ∃ (neg : Bool) (E : ℤ) (u n : ℕ),
    let p : ℤ := fracBits t
    let emin : ℤ := 1 - fbias t
    let free := (u : ℝ) * 2 ^ (E - p)
    let x := (n : ℝ) * 2 ^ (max E emin - p)
    (neg = true ↔ v < 0) ∧ (2 : ℝ) ^ E ≤ |v| ∧ |v| < (2 : ℝ) ^ (E + 1) ∧
    RoundsInt rm neg (|v| / 2 ^ (E - p)) u ∧ RoundsInt rm neg (|v| / 2 ^ (max E emin - p)) n ∧
    ((Largest t).1 * (2 : ℝ) ^ (Largest t).2 < free → OverflowGives t rm w neg r) ∧
    (free ≤ (Largest t).1 * (2 : ℝ) ^ (Largest t).2 →
      (free < (2 : ℝ) ^ emin → ftzo = true → r = ⟨if neg then 2 ^ (t.width - 1) else 0, flUnderflow ||| flInexact⟩) ∧
      ((2 : ℝ) ^ emin ≤ free ∨ ftzo = false →
        r.x < 2 ^ t.width ∧ (∃ m e, unpackF t r.x = .fin neg m e ∧ (m : ℝ) * 2 ^ e = x) ∧
        (x = |v| → r.fl = 0) ∧ (x ≠ |v| → free < (2 : ℝ) ^ emin → r.fl = flInexact ||| flUnderflow) ∧
        (x ≠ |v| → (2 : ℝ) ^ emin ≤ free → r.fl = flInexact)))

/-- The number, or the infinity, that an operand stands for. -/
def ExtIs : Machine.Num → EReal → Prop
  | .fin neg m e, v => v = (((if neg then -1 else 1) * (m : ℝ) * (2 : ℝ) ^ e : ℝ) : EReal)
  | .inf neg, v => v = if neg then ⊥ else ⊤
  | .nan _, _ => False

/-- The canonical NaN of a floating type; e2m1 has none (R84, R90). -/
def QuietNan : ElemTy → ℕ
  | .f32 | .wf19 => 0x7FC00000
  | .f16 => 0x7E00
  | .bf16 => 0x7FC0
  | .e5m2 => 0x7E
  | .e4m3 => 0x7F
  | .e2m1 | .i32 | .i16 | .i8 | .i4 | .n32 | .n16 | .n8 | .n4 | .c8 => 0

/-- Exponent and fraction bits of the types that have infinities (R82). -/
def FieldsOf : ElemTy → ℕ × ℕ
  | .f32 | .wf19 => (8, 23)
  | .f16 => (5, 10)
  | .bf16 => (8, 7)
  | .e5m2 => (5, 2)
  | .e4m3 | .e2m1 | .i32 | .i16 | .i8 | .i4 | .n32 | .n16 | .n8 | .n4 | .c8 => (0, 0)

/-- The zero and the infinity of a sign, of a type that has infinities (R82). -/
def ZeroOf (t : ElemTy) (neg : Bool) : ℕ := if neg then 2 ^ (t.width - 1) else 0
/-- See `ZeroOf`. -/
def InfOf (t : ElemTy) (neg : Bool) : ℕ := ZeroOf t neg + (2 ^ (FieldsOf t).1 - 1) * 2 ^ (FieldsOf t).2

/-- What an operation gives that reads a NaN: the canonical NaN, with *invalid* for a signalling one (R84). -/
def NanFrom (t : ElemTy) (l : List Machine.Num) : Fl := ⟨QuietNan t, if l.any Num.isSnan then flInvalid else 0⟩

/-- R84, R89, R105: `r` is the sum of some values, rounded once: infinities of both signs give an invalid NaN, those of one sign that infinity; an exact zero
has the sign of its terms where all are zeros of one sign, else + except under RDN. -/
def SumsTo (t : ElemTy) (rm : Rm) (ftzo : Bool) (l : List Machine.Num) (r : Fl) : Prop :=
  (Num.inf true ∈ l → Num.inf false ∈ l → r = ⟨QuietNan t, flInvalid⟩) ∧
  (∀ n, Num.inf n ∈ l → Num.inf (!n) ∉ l → r = ⟨InfOf t n, 0⟩) ∧
  ∀ vs : List ℝ, List.Forall₂ ValueIs l vs →
    (vs.sum ≠ 0 → RoundsTo t rm ftzo .arith vs.sum r) ∧
    (vs.sum = 0 → (∀ n, (∀ x ∈ l, x.isZero = true ∧ x.neg = n) → l ≠ [] → r = ⟨ZeroOf t n, 0⟩) ∧
      ((∀ n, ∃ x ∈ l, x.isZero = false ∨ x.neg ≠ n) → r = ⟨ZeroOf t (decide (rm = .rdn)), 0⟩))

/-- An operand as ftzi leaves it: its low bits, a subnormal as the zero of its sign (R86). -/
def AsRead (t : ElemTy) (ftzi : Bool) (x : ℕ) : ℕ :=
  let y := x % 2 ^ t.width
  if ftzi = true ∧ y / 2 ^ (FieldsOf t).2 % 2 ^ (FieldsOf t).1 = 0 then y / 2 ^ (t.width - 1) * 2 ^ (t.width - 1) else y

/-- R106: `r` is the lesser (the greater) of two operands, with −0 below +0; of a NaN and another operand it is that operand, of two NaNs the canonical
one; a signalling NaN raises *invalid*. -/
def PicksOf (t : ElemTy) (ftzi max : Bool) (x y : ℕ) (r : Fl) : Prop :=
  let X := readF t ftzi x
  let Y := readF t ftzi y
  let x' := AsRead t ftzi x
  let y' := AsRead t ftzi y
  r.fl = (if X.isSnan = true ∨ Y.isSnan = true then flInvalid else 0) ∧
  (X.isNan = true → Y.isNan = true → r.x = QuietNan t) ∧ (X.isNan = true → Y.isNan = false → r.x = y') ∧
  (X.isNan = false → Y.isNan = true → r.x = x') ∧
  ∀ a b : EReal, ExtIs X a → ExtIs Y b →
    let first := a < b ∨ (a = 0 ∧ b = 0 ∧ X.neg = true ∧ Y.neg = false)
    let second := b < a ∨ (a = 0 ∧ b = 0 ∧ Y.neg = true ∧ X.neg = false)
    (first → r.x = if max then y' else x') ∧ (second → r.x = if max then x' else y') ∧ (¬first → ¬second → r.x = x' ∧ x' = y')

/-- R84, R105: arithmetic on NaNs, infinities and zeros. -/
def Rules.SpecialOperands : Prop :=
  ∀ (t : ElemTy) (c : Fcw) (x y z : ℕ), fpsTy t = true →
    let X := readF t c.ftzi x
    let Y := readF t c.ftzi y
    let Z := readF t c.ftzi z
    let sign := X.neg != Y.neg
    let bad : Fl := ⟨QuietNan t, flInvalid⟩
    let inf := fun (n : Bool) => (⟨InfOf t n, 0⟩ : Fl)
    let void := (X.isZero && Y.isInf) || (X.isInf && Y.isZero)
    (X.isNan = true ∨ Y.isNan = true → fpAdd t c x y = NanFrom t [X, Y] ∧ fpSub t c x y = NanFrom t [X, Y] ∧
      fpMul t c x y = NanFrom t [X, Y] ∧ fpDiv t c x y = NanFrom t [X, Y]) ∧
    (∀ n m, X = .inf n → Y = .inf m → fpAdd t c x y = (if n = m then inf n else bad) ∧ fpSub t c x y = (if n = m then bad else inf n) ∧
      fpMul t c x y = inf sign ∧ fpDiv t c x y = bad) ∧
    (∀ n v, X = .inf n → ValueIs Y v → fpAdd t c x y = inf n ∧ fpSub t c x y = inf n ∧ fpMul t c x y = (if Y.isZero then bad else inf sign) ∧
      fpDiv t c x y = inf sign) ∧
    (∀ n v, ValueIs X v → Y = .inf n → fpAdd t c x y = inf n ∧ fpSub t c x y = inf (!n) ∧
      fpMul t c x y = (if X.isZero then bad else inf sign) ∧ fpDiv t c x y = ⟨ZeroOf t sign, 0⟩) ∧
    (∀ v, ValueIs X v → Y.isZero = true → fpDiv t c x y = if X.isZero then bad else ⟨InfOf t sign, flDivZero⟩) ∧
    (X.isNan = true → fpSqrt t c x = NanFrom t [X]) ∧ (X = .inf false → fpSqrt t c x = inf false) ∧
    (X.isNan = false → X.isZero = false → X.neg = true → fpSqrt t c x = bad) ∧
    (∀ sub r, r = fpFma t c sub z x y →
      let p := sign != sub
      (void = true → r = bad) ∧ (void = false → X.isNan = true ∨ Y.isNan = true ∨ Z.isNan = true → r = NanFrom t [X, Y, Z]) ∧
      (void = false → X.isNan = false → Y.isNan = false → Z.isNan = false →
        (X.isInf = true ∨ Y.isInf = true → (Z = .inf (!p) → r = bad) ∧ (Z ≠ .inf (!p) → r = inf p)) ∧
        (X.isInf = false → Y.isInf = false → ∀ n, Z = .inf n → r = inf n)))

/-- R84, R90, R91: conversions of NaNs and infinities. -/
def Rules.SpecialConversions : Prop :=
  ∀ (t u : ElemTy) (c : Fcw) (w x : ℕ), isFloat u = true → c.crnd ≤ 5 →
    let X := readF u c.ftzi x
    let toward := fun (n : Bool) => c.crm w = .rtz ∨ (c.crm w = .rdn ∧ n = false) ∨ (c.crm w = .rup ∧ n = true)
    let big := fun (n : Bool) => ZeroOf t n + (if t = .e4m3 then 0x7E else 7)
    (isFloat t = true → X.isNan = true → convert t u c w x = if t = .e2m1 then ⟨0, flInvalid⟩ else NanFrom t [X]) ∧
    (∀ n, X = .inf n →
      (t ∈ [ElemTy.f32, .wf19, .f16, .bf16, .e5m2] → convert t u c w x = ⟨InfOf t n, 0⟩) ∧
      (t = .e4m3 ∨ t = .e2m1 → (toward n → convert t u c w x = ⟨big n, 0⟩) ∧
        (¬toward n → c.sat = true ∨ t = .e2m1 → convert t u c w x = ⟨big n, flSaturated⟩) ∧
        (¬toward n → c.sat = false → t = .e4m3 → convert t u c w x = ⟨QuietNan t, 0⟩))) ∧
    (isFloat t = false → (X.isNan = true → convert t u c w x = ⟨0, flInvalid⟩) ∧
      ∀ n, X = .inf n → convert t u c w x = ⟨natOfInt t.width (if n then intLo t else intHi t), flInvalid ||| flSaturated⟩)

/-- R106 to R109: the lesser and the greater operand, the compares (`ne` is that of R123), the sign operations bit by bit, and the class word field by
field. -/
def Rules.FloatBits : Prop :=
  ∀ (t : ElemTy) (c : Fcw) (x y : ℕ), fpsTy t = true →
    let X := readF t c.ftzi x
    let Y := readF t c.ftzi y
    let w := t.width
    let quiet := if X.isSnan = true ∨ Y.isSnan = true then flInvalid else 0
    let gives := fun (o : Cmp) (p : Prop) => (p → fpCmp t c o x y = ⟨1, 0⟩) ∧ (¬p → fpCmp t c o x y = ⟨0, 0⟩)
    PicksOf t c.ftzi false x y (fpMin t c x y) ∧ PicksOf t c.ftzi true x y (fpMax t c x y) ∧
    (X.isNan = true ∨ Y.isNan = true → fpCmp t c .eq x y = ⟨0, quiet⟩ ∧ fpCmp t c .ne x y = ⟨1, quiet⟩ ∧
      fpCmp t c .lt x y = ⟨0, flInvalid⟩ ∧ fpCmp t c .le x y = ⟨0, flInvalid⟩) ∧
    (∀ a b : EReal, ExtIs X a → ExtIs Y b → gives .eq (a = b) ∧ gives .ne (a ≠ b) ∧ gives .lt (a < b) ∧ gives .le (a ≤ b)) ∧
    ((fpAbs t x).fl = 0 ∧ (fpAbs t x).x < 2 ^ w ∧ ∀ i, i < w → (fpAbs t x).x.testBit i = (decide (i ≠ w - 1) && x.testBit i)) ∧
    ((fpNeg t x).fl = 0 ∧ (fpNeg t x).x < 2 ^ w ∧ ∀ i, i < w → (fpNeg t x).x.testBit i = (decide (i = w - 1) != x.testBit i)) ∧
    (let r := fpClass t x
     let p := (FieldsOf t).2
     let top := 2 ^ (FieldsOf t).1 - 1
     let e := x / 2 ^ p % 2 ^ (FieldsOf t).1
     let f := x % 2 ^ p
     r < 2 ^ 16 ∧ r / 2 ^ 8 = e ∧ r.testBit 7 = x.testBit (w - 1) ∧ r.testBit 6 = false ∧ r.testBit 4 = false ∧
     (r.testBit 5 = true ↔ ∃ v : ℝ, ValueIs (unpackF t x) v ∧ ∃ k : ℤ, v = k) ∧
     (e = 0 → r % 16 = if f = 0 then 0 else 1) ∧ (0 < e → e < top → r % 16 = 2) ∧
     (e = top → r % 16 = if f = 0 then 3 else if f.testBit (p - 1) then 4 else 5))

/-- R89, R105, R120: of finite operands, each sum, product, fused sum, quotient and root is the one rounding of the exact real result, where that is not
0; and R130: so are the reciprocals and the reciprocal roots of VRCP and VRSQ, under RNE and with nothing flushed. -/
def Rules.ExactArithmetic : Prop :=
  ∀ (t : ElemTy) (c : Fcw) (x y z : ℕ) (a b d : ℝ), fpsTy t = true → c.arnd ≤ 4 →
    ValueIs (readF t c.ftzi x) a → ValueIs (readF t c.ftzi y) b → ValueIs (readF t c.ftzi z) d →
    let once := fun (v : ℝ) (r : Fl) => v ≠ 0 → RoundsTo t c.arm c.ftzo .arith v r
    once (a + b) (fpAdd t c x y) ∧ once (a - b) (fpSub t c x y) ∧ once (a * b) (fpMul t c x y) ∧
    once (d + a * b) (fpFma t c false z x y) ∧ once (d - a * b) (fpFma t c true z x y) ∧
    (b ≠ 0 → once (a / b) (fpDiv t c x y)) ∧ (0 < a → once (Real.sqrt a) (fpSqrt t c x)) ∧
    (t = .f32 → c.ftzi = false → a ≠ 0 → RoundsTo .f32 .rne false .arith (1 / a) (fRcp x)) ∧
    (t = .f32 → c.ftzi = false → 0 < a → RoundsTo .f32 .rne false .arith (1 / Real.sqrt a) (fRsq x))

/-- R89: an exact zero sum has the sign of its terms where all are zeros of one sign, else + except under RDN; a zero product or quotient has the
exclusive or of the signs; none raises a flag. -/
def Rules.ExactZeros : Prop :=
  ∀ (t : ElemTy) (c : Fcw) (x y z : ℕ) (a b d : ℝ), fpsTy t = true → c.arnd ≤ 4 →
    let X := readF t c.ftzi x
    let Y := readF t c.ftzi y
    let Z := readF t c.ftzi z
    ValueIs X a → ValueIs Y b → ValueIs Z d →
    let zero := fun (neg : Bool) => (⟨if neg then 2 ^ (t.width - 1) else 0, 0⟩ : Fl)
    (a + b = 0 → ∀ r, r = fpAdd t c x y → (a = 0 → X.neg = Y.neg → r = zero X.neg) ∧
      (a ≠ 0 ∨ X.neg ≠ Y.neg → r = zero (decide (c.arm = .rdn)))) ∧
    (a * b = 0 → fpMul t c x y = zero (X.neg != Y.neg)) ∧
    (a = 0 → b ≠ 0 → fpDiv t c x y = zero (X.neg != Y.neg)) ∧ (a = 0 → fpSqrt t c x = zero X.neg) ∧
    (d + a * b = 0 → ∀ r, r = fpFma t c false z x y → (d = 0 → Z.neg = (X.neg != Y.neg) → r = zero Z.neg) ∧
      (d ≠ 0 ∨ Z.neg ≠ (X.neg != Y.neg) → r = zero (decide (c.arm = .rdn))))

/-- R90, R91, R110: a conversion to a floating type is the one rounding of the exact value under `crnd`; one to an integer type rounds to a whole number and
clamps to the bounds with *invalid* and *saturated*.  That a clamped value raises no *inexact* beside them, and that a subnormal bf16 which is widened
under ftzo is flushed, are the model's choices (log 55). -/
def Rules.ExactConversions : Prop :=
  ∀ (t u : ElemTy) (c : Fcw) (w x : ℕ) (v : ℝ), c.crnd ≤ 5 →
    (if isFloat u then ValueIs (readF u c.ftzi x) v else v = (unpackI u x : ℝ)) →
    (isFloat t = true → v ≠ 0 → RoundsTo t (c.crm w) c.ftzo (.conv c.sat) v (convert t u c w x)) ∧
    (isFloat t = false → isFloat u = true → ∀ (neg : Bool) (n : ℕ), (neg = true ↔ v < 0) → RoundsInt (c.crm w) neg |v| n →
      let k : ℤ := if neg then -(n : ℤ) else n
      convert t u c w x = (if k < intLo t then ⟨natOfInt t.width (intLo t), flInvalid ||| flSaturated⟩
        else if intHi t < k then ⟨natOfInt t.width (intHi t), flInvalid ||| flSaturated⟩ else ⟨natOfInt t.width k, (convert t u c w x).fl⟩) ∧
      (intLo t ≤ k → k ≤ intHi t → ((n : ℝ) = |v| → (convert t u c w x).fl = 0) ∧ ((n : ℝ) ≠ |v| → (convert t u c w x).fl = flInexact)))

/-- R89 to R91, R105, R110, R130: arithmetic and conversions round the exact result once.  The order of the columns of R90 (log 20) and the flags
of conversions (log 55) are the model's choices. -/
def Obligations.ExactRounding : Prop := Rules.ExactArithmetic ∧ Rules.ExactZeros ∧ Rules.ExactConversions

/-! ### Control registers (R62 to R66, R87, R96) -/

/-- A CSR instruction on this register does not wait: it is not `fflags`, or no matrix command of the thread is outstanding (R66, R93);
and the level allows its number (R29). -/
def CsrOpen (s : State) (c : BitVec 12) : Prop :=
  (c = 0x011 → ∀ m ∈ s.cur.mq, m.tid ≠ s.tid) ∧ (0x800 ≤ c.toNat → s.thr.system = true)

/-- R62, R415: the control registers and what a thread reads there. -/
def CsrTable (s : State) : List (BitVec 12 × Word) :=
  let c := s.thr.ctl
  [((0x000 : BitVec 12), word s.tid), (0x001, word s.core), (0x002, word (dieOf s.core * 2 ^ 16 + yOf s.core * 2 ^ 8 + xOf s.core)),
      (0x003, word s.hub.pkg), (0x004, c.tenancy), (0x010, c.fcw), (0x011, c.fflags), (0x012, c.seed), (0x013, s.cur.dtab),
      (0x020, c.fmtp), (0x021, c.sclp), (0x022, c.taskid)] ++
  [((0x023 : BitVec 12), c.tasklo), (0x024, c.taskhi), (0x025, c.launch), (0x026, c.kslot), (0x030, c.waitlim), (0x031, s.cur.cyc),
      (0x032, c.msghdr), (0x040, c.evvec), (0x041, c.evmask), (0x042, c.evcause), (0x043, c.evpc), (0x050, c.mrp)] ++
  [((0x051 : BitVec 12), c.mstat), (0x060, c.trapvec), (0x061, c.trapcause), (0x062, c.trappc), (0x063, c.trapval), (0x064, c.trapinst),
      (0x070, c.rrthresh), (0x080, c.athand[0]), (0x081, c.athand[1]), (0x082, c.athand[2]), (0x083, c.athand[3]), (0x084, c.athand[4])] ++
  [((0x085 : BitVec 12), c.athand[5]), (0x086, c.athand[6]), (0x087, c.athand[7]), (0x090, if s.det then 1 else 0), (0x091, c.lend),
      (0x0A0, c.fltseq), (0x800, s.hub.ready0), (0x801, s.hub.ready1), (0x802, word ((s.hub.island (islandOf s.core)).cur * 2 ^ 8 + islandOf s.core)),
      (0x803, word s.hub.tntab)]

/-- R62, R415: what CSRR reads, register by register. -/
def Rules.CsrReads : Prop :=
  ∀ (s : State) (d : Reg) (e : BitVec 12 × Word), s.Placed → CsrOpen s e.1 →
    e ∈ CsrTable s → Writes (.csrr d e.1) s 2 d e.2 s.thr.ctl

/-- R66: what a CSR instruction that writes leaves: the control registers with the named one set, and the old value in rd. -/
def CsrSets (i : Instr) (s : State) (d : Reg) (c : BitVec 12) (old new : Word) : Prop :=
  Writes i s 2 d old (s.thr.ctl.write c new) ∧
  ∃ t, Completes i s t ∧ t.csrRead c = (if c = 0x012 ∧ new = 0 then 0x2545F4914F6CDD1D else new)

/-- R65, R66, R96: CSRW, CSRS and CSRC write g[ra], old OR g[ra] and old AND NOT g[ra] into a writable register when the new value has no
bit outside its map and no unassigned rounding code, and put the old value into rd; with ra = 00000, CSRS and CSRC only read. -/
def Rules.CsrWrites : Prop :=
  ∀ (s : State) (d a : Reg) (c : BitVec 12), s.Placed → CsrOpen s c → csrWritable c = true →
    let old := s.csrRead c
    let x := s.rd a
    (csrBad c x = false → CsrSets (.csrw d a c) s d c old x) ∧
    (a ≠ 0 → csrBad c (old ||| x) = false → CsrSets (.csrs d a c) s d c old (old ||| x)) ∧
    (a ≠ 0 → csrBad c (old &&& ~~~x) = false → CsrSets (.csrc d a c) s d c old (old &&& ~~~x)) ∧
    Writes (.csrs d 0 c) s 2 d old s.thr.ctl ∧ Writes (.csrc d 0 c) s 2 d old s.thr.ctl

/-- R29, R65, R66, R87, R93: at task level a number from 0x800 up is an illegal instruction; a write of a nonzero reserved bit or of an
unassigned rounding code is one and writes nothing; and on `fflags` every CSR instruction first waits for the thread's matrix commands. -/
def Rules.CsrTraps : Prop :=
  ∀ (s : State) (d a : Reg) (c : BitVec 12),
    let all := [Instr.csrr d c, .csrw d a c, .csrs d a c, .csrc d a c]
    let trap := Host.Outcome.next (s.trapSt 0x01 0)
    (0x800 ≤ c.toNat → s.thr.system = false → ∀ i ∈ all, exec i s = trap) ∧
    (c = 0x011 → (∃ m ∈ s.cur.mq, m.tid = s.tid) → ∀ i ∈ all, exec i s = .next (s.parkSt .drain)) ∧
    (CsrOpen s c → csrBad c (s.rd a) = true → exec (.csrw d a c) s = trap) ∧
    (CsrOpen s c → a ≠ 0 → csrBad c (s.csrRead c ||| s.rd a) = true → exec (.csrs d a c) s = trap) ∧
    (CsrOpen s c → a ≠ 0 → csrBad c (s.csrRead c &&& ~~~s.rd a) = true → exec (.csrc d a c) s = trap)

/-- R63, R86, R87, R92, R51, R260, R301, R372: the values that a CSR write may leave in each register with a reserved field. -/
def Rules.CsrMaps : Prop :=
  ∀ x : Word,
    (csrBad 0x010 x = false ↔ x.toNat < 2 ^ 9 ∧ bits x 2 0 ≤ 4 ∧ bits x 5 3 ≤ 5) ∧ (csrBad 0x011 x = false ↔ x.toNat < 2 ^ 6) ∧
    (csrBad 0x030 x = false ↔ x.toNat < 2 ^ 32) ∧
    (∀ c ∈ [(0x040 : BitVec 12), 0x043, 0x060], csrBad c x = false ↔ x.toNat < 2 ^ 18 ∧ x.toNat % 4 = 0) ∧
    (csrBad 0x041 x = false ↔ bits x 62 16 = 0 ∧ x.toNat % 2 = 0) ∧ (csrBad 0x050 x = false ↔ x.toNat < 8) ∧
    (csrBad 0x061 x = false ↔ bits x 62 8 = 0) ∧ (csrBad 0x070 x = false ↔ x.toNat < 2 ^ 16) ∧
    (∀ c ∈ [(0x012 : BitVec 12), 0x020, 0x021, 0x062, 0x063, 0x064], csrBad c x = false)

/-! ### Traps and the SYS group (R75 to R81) -/

/-- R80: a thread with a handler takes a trap as the rule lays down: `trappc`, `trapinst`, `trapval` and `trapcause` are written, the pc goes
to `trapvec`, and no general register, vector register, mask or memory changes. -/
def Rules.TrapEntry : Prop :=
  ∀ (s : State) (cause : Nat) (val : Word), s.tid < 16 → s.HasHandler → cause < 256 → s.TrapTaken (s.trapSt cause val) cause val

/-- R81, R393: a task thread that traps with no handler, or again before it has cleared `trapcause`[63], leaves a stop record for the hub
with its tenancy, pc, cause and value, and its context is discarded: the thread is Free and holds no task, and its launch has ended with status 3.  The
record is in the fault queue of its tenancy at once, and counted there as a stop; while the queue is full, its memory not ready or an older record of the
tenancy waits, it waits in its turn (log 44). -/
def Rules.HubStop : Prop :=
  ∀ (s : State) (cause : Nat) (val : Word), s.tid < 15 → ¬s.HasHandler →
    let t := s.trapSt cause val
    t.thr.status = .free ∧ t.thr.task = none ∧
    let r : FaultRec := ⟨s.tn, s.thr.pc.toNat, cause, s.core, s.tid, 9, 0, 0, 0, val, false, s.thr.task.map (·.lnum)⟩
    let q := (s.tnEntry s.tn).2.2
    let a := bits q 51 12 * 2 ^ 12
    let nq := 128 * 2 ^ bits q 3 0
    let w := s.dramRead a 8
    let used := (w + 2 ^ 64 - s.dramRead (a + 8) 8) % 2 ^ 64
    let usable := s.tnReady s.tn = true ∧ bits q 3 0 < 8 ∧ s.hub.memReady a = true
    (usable → used < nq → (∀ o ∈ s.faults, o.tn ≠ s.tn) → t.faults = s.faults ∧ (s.hub.overflowAreas = [] →
      t.dramBytes (a + 64 + 32 * (w % nq)) 32 = r.bytes ∧ t.dramRead a 8 = (w + 1) % 2 ^ 64 ∧
      t.dramRead (a + 24) 8 = (s.dramRead (a + 24) 8 + 1) % 2 ^ 64)) ∧
    (s.tnReady s.tn = false ∨ (bits q 3 0 < 8 ∧ s.hub.memReady a = false) ∨ (usable ∧ (nq ≤ used ∨ ∃ o ∈ s.faults, o.tn = s.tn)) →
      ∃ x ∈ t.faults, ({ x with waited := false } : FaultRec) = r) ∧
    (∀ l, s.thr.task = some l → (∀ k, s.launchAt l.lnum = some k → k.ended = false → ∃ y, t.launchAt l.lnum = some y ∧ y.ended = true ∧ y.status = 3))

/-- R77, R12: ERET at system level clears `trapcause`[63] and jumps to `trappc`; where `trappc` is no multiple of 4 or lies beyond 0x3_FFFC it traps
*misalignment* or *fetch fault* there instead, and clears nothing; HALT stops the thread and keeps its registers, with the pc at the next instruction
(the model's choice, log 25); at task level both are illegal instructions. -/
def Rules.SystemLevel : Prop :=
  ∀ (s : State), s.tid < 16 →
    (s.thr.system = true → LegalPc s.thr.ctl.trappc → ∃ t, exec .eret s = .next t ∧ s.OnlyThread t ∧ s.Jumped t 4 s.thr.ctl.trappc ∧
      t.thr.holds = ({ s.thr with buf := [], ctl := { s.thr.ctl with
        trapcause := s.thr.ctl.trapcause &&& 0x7FFFFFFFFFFFFFFF } } : Thread).holds) ∧
    (s.thr.system = true → s.thr.ctl.trappc.toNat % 4 ≠ 0 → exec .eret s = .next (s.trapSt 0x02 s.thr.ctl.trappc)) ∧
    (s.thr.system = true → s.thr.ctl.trappc.toNat % 4 = 0 → 0x3FFFC < s.thr.ctl.trappc.toNat →
      exec .eret s = .next (s.trapSt 0x03 s.thr.ctl.trappc)) ∧
    (s.thr.system = true → ∃ t, Completes .halt s t ∧ s.OnlyThread t ∧ t.thr.status = .stopped .halt ∧
      t.thr.pc = s.thr.pc + 4 ∧ t.thr.holds = s.thr.holds) ∧
    (s.thr.system = false → ∀ i ∈ [Instr.eret, .halt], exec i s = .next (s.trapSt 0x01 0))

/-- R75, R76, R39: TRAP raises a software trap with its code, BRK a breakpoint trap, or stops the thread with the trap registers written
where debug is enabled for its tenancy; a word that decode refuses raises an illegal-instruction trap; IFENCE discards the prefetched words
and does nothing else. -/
def Rules.SystemCalls : Prop :=
  ∀ (s : State) (c : BitVec 5),
    exec (.trap c) s = .next (s.trapSt 0x06 (word c.toNat)) ∧
    (s.tn ∉ s.hub.debugOn → exec .brk s = .next (s.trapSt 0x07 0)) ∧
    (s.tid < 16 → s.tn ∈ s.hub.debugOn → ∃ t, exec .brk s = .next t ∧ (s.updCur (·.mend s.tid trapRegs)).OnlyThread t ∧
      t.thr.status = .stopped .breakpoint ∧
      t.thr.pc = s.thr.pc ∧ s.thr.ctl.Trapped 0x07 0 s.thr.pc s.thr.inst t.thr.ctl ∧
      ({ t.thr with ctl := s.thr.ctl } : Thread).holds = s.thr.holds) ∧
    exec .illegalInstruction s = .next (s.trapSt 0x01 0) ∧
    (s.Placed → ∃ t, Completes .ifence s t ∧ s.OnlyThread t ∧ s.Done t 4 ∧ t.thr.holds = ({ s.thr with buf := [] } : Thread).holds)

/-- R84, R86, R90, R91, R94, R105 to R110: the scalar floating-point instructions and conversions, with the values that they give on NaNs, infinities and
zeros, and those of the operations that take no rounding.  FABS and FNEG never flush, which is the model's choice (log 55). -/
def Obligations.FloatScalars : Prop :=
  Rules.ScalarFloat ∧ Rules.ScalarConvert ∧ Rules.SpecialOperands ∧ Rules.SpecialConversions ∧ Rules.FloatBits

/-- R62, R63, R65, R66: what the CSR instructions read, write and refuse, and which values each register admits. -/
def Obligations.ControlRegisters : Prop := Rules.CsrReads ∧ Rules.CsrWrites ∧ Rules.CsrMaps ∧ Rules.CsrTraps

/-- R80, R81: trap entry, and the stop of a thread that cannot take a trap. -/
def Obligations.TrapsAndStops : Prop := Rules.TrapEntry ∧ Rules.HubStop

/-- R39, R75 to R77: ERET, HALT, TRAP, BRK, IFENCE and illegal words.  That HALT leaves its pc at the next instruction, and a debug-stopped BRK at its
own, is the model's choice (log 25). -/
def Obligations.SystemInstructions : Prop := Rules.SystemLevel ∧ Rules.SystemCalls

/-! ### Local memory (R137, R138, R145 to R147) -/

/-- What a byte of the current core's LM reads as. -/
def LmByte (s : State) (a : Nat) : Byte := memGet lmDefault s.cur.lm a

/-- The current thread may access `n` bytes of LM at an address: within LM, each in a block whose attribute allows it (R137), and for a read
none of them damaged (R395). -/
def LmMay (s : State) (write : Bool) (a n : Nat) : Prop :=
  a + n ≤ 0x40000 ∧ (∀ b, a ≤ b → b < a + n → s.cur.lmAllowed s.tid write (b / 512) = true) ∧
  (write = false → ∀ b, a ≤ b → b < a + n → b ∉ s.cur.badLm)

/-- The instruction stores the bytes `x` at LM address `a` and completes: every other byte of LM reads as before; the counters parked on a
stored word look again (R212), so that of another thread only its `resume` mark may change; damage marks of the stored bytes are gone; no
register of the current thread changes, nor anything outside the core. -/
structure StoredLm (s t : State) (interval a : Nat) (x : List Byte) : Prop where
  package : ({ t with cores := s.cores } : State) = s
  cores : ∀ c, c ≠ s.core → t.coreAt c = s.coreAt c
  bytes : ∀ b, LmByte t b = if a ≤ b ∧ b < a + x.length then x.getD (b - a) 0 else LmByte s b
  damage : t.cur.badLm = s.cur.badLm.filter (fun b => b < a || a + x.length ≤ b)
  core : ({ t.cur with threads := s.cur.threads, lm := s.cur.lm, badLm := s.cur.badLm, spills := s.cur.spills } : Core) = s.cur
  threads : ∀ j, j ≠ s.tid → ({ t.cur.thr j with resume := (s.cur.thr j).resume } : Thread) = s.cur.thr j
  done : s.Done t interval
  thread : t.thr.holds = s.thr.holds

/-- R145, R14, R24: LDL reads LM at g[ra] plus the scaled displacement, little-endian, extended as its width says, into rd; 4 cycles. -/
def Rules.LoadLocal : Prop :=
  ∀ (s : State) (w : LoadW) (d a : Reg) (p : BitVec 13), s.Placed →
    let n := loadBytes w
    let x := s.rd a + BitVec.ofInt 64 (p.toInt * n)
    x.toNat % n = 0 → LmMay s false x.toNat n →
    let v := natOfBytes ((List.range n).map (fun j => LmByte s (x.toNat + j)))
    Writes (.ldl w d a p) s 4 d (match w with
      | .i8 => BitVec.ofInt 64 (BitVec.ofNat 8 v).toInt
      | .i16 => BitVec.ofInt 64 (BitVec.ofNat 16 v).toInt
      | .i32 => BitVec.ofInt 64 (BitVec.ofNat 32 v).toInt
      | .n8 | .n16 | .n32 | .x64 => word v) s.thr.ctl

/-- R145, R14, R24: STL stores the low bytes of g[rs] at g[ra] plus the scaled displacement, lowest byte first; 4 cycles. -/
def Rules.StoreLocal : Prop :=
  ∀ (s : State) (w : StoreW) (r a : Reg) (p : BitVec 13), s.Placed →
    let n := storeBytes w
    let x := s.rd a + BitVec.ofInt 64 (p.toInt * n)
    x.toNat % n = 0 → LmMay s true x.toNat n →
    ∃ t, Completes (.stl w r a p) s t ∧
      StoredLm s t 4 x.toNat ((List.range n).map (fun j => (s.rd r).extractLsb' (8 * j) 8))

/-- R78, R138, R145: a misaligned local access traps *misalignment* with its address, before any other check; an aligned one that leaves LM
or touches a block that its thread may not access traps *LM protection*, with the lowest address at fault; nothing is written. -/
def Rules.LocalTraps : Prop :=
  ∀ (s : State) (wl : LoadW) (ws : StoreW) (d a : Reg) (p : BitVec 13),
    let check := fun (i : Instr) (write : Bool) (n : Nat) =>
      let x := s.rd a + BitVec.ofInt 64 (p.toInt * n)
      (x.toNat % n ≠ 0 → exec i s = .next (s.trapSt 0x02 x)) ∧
      (x.toNat % n = 0 → 0x40000 ≤ x.toNat → exec i s = .next (s.trapSt 0x04 x)) ∧
      (x.toNat % n = 0 → x.toNat < 0x40000 → s.cur.lmAllowed s.tid write (x.toNat / 512) = false → exec i s = .next (s.trapSt 0x04 x))
    check (.ldl wl d a p) false (loadBytes wl) ∧ check (.stl ws d a p) true (storeBytes ws)

/-! ### Vector registers, masks and windows (R16, R17, R111 to R119) -/

/-- The windows an instruction names let it issue (R117, R119, R395): the holder allows them, those it reads are Full and not damaged, and
those it only writes are Empty.  Of an instruction that names vector registers only it asks nothing. -/
def WinReady (s : State) (reads writes : List VCode) : Prop :=
  s.holderBad (reads ++ writes) = none ∧ s.winBlocked reads writes = none ∧ s.winDamage reads = none

/-- The union of the flags of the active elements among the first `n`. -/
def ActiveFlags (w n : Nat) (k : Mask) (f : Nat → Fl) : Flags :=
  (List.range n).foldl (fun x i => if active k w i then x ||| (f i).fl else x) 0

/-- An element-wise instruction has completed from the claim of its windows: elements below `n` that are active take the values of `f`, all
others of `d` keep theirs (R113); every other vector register and window keeps its data; the flags of the active elements are raised (R92);
window states are as the claim left them (R116); `seed` is left in that control register; nothing else changes.  `u` is the state after the claim, `s` itself where no window is
named. -/
structure WroteVec (s u t : State) (interval : Nat) (d : VCode) (w n : Nat) (k : Mask) (f : Nat → Fl) (seed : Word) :
    Prop where
  package : ({ t with cores := s.cores } : State) = s
  cores : ∀ c, c ≠ s.core → t.coreAt c = s.coreAt c
  elems : ∀ i, i < lanes w → elem w (t.vget d) i = if i < n ∧ active k w i = true then (f i).x % 2 ^ w else elem w (s.vget d) i
  others : ∀ c, c ≠ d → t.vget c = s.vget c
  states : ∀ c, t.cur.winState c = u.cur.winState c
  holder : t.cur.winHolder = u.cur.winHolder
  core : ({ t.cur with threads := s.cur.threads, windows := s.cur.windows, winHolder := s.cur.winHolder, badWin := s.cur.badWin,
                       spills := s.cur.spills } : Core) = s.cur
  threads : ∀ j, j ≠ s.tid → t.cur.thr j = u.cur.thr j
  done : s.Done t interval
  thread : t.thr.holds = ({ s.thr with v := t.thr.v, ctl := { Flagged s (ActiveFlags w n k f) with seed := seed } } : Thread).holds

/-- `i` completes as an element-wise instruction that reads and writes the vector fields given. -/
def VecRuns (i : Instr) (s : State) (reads : List VCode) (interval : Nat) (d : VCode) (w n : Nat) (k : Mask) (f : Nat → Fl) : Prop :=
  ∃ t, Completes i s t ∧ WroteVec s (s.claim reads [d]) t interval d w n k f s.thr.ctl.seed

/-- R120, R121, R122: the three-operand instructions of VAR and VLG combine the elements of va and vb, and of vd where they read it, element
by element under the mask; floating types by the shared operation of the scalar unit, integers modulo 2^w. -/
def Rules.VectorThree : Prop :=
  ∀ (s : State) (ty : ElemTy) (d a b : VCode) (m : MaskReg) (i : Instr) (reads : List VCode) (w : Nat) (f : Nat → Nat → Nat → Fl),
    s.Placed → i.wf = true → WinReady s reads [d] →
    let c := s.fcw
    let int := fun (x : Int) => (⟨natOfInt ty.width x, 0⟩ : Fl)
    (i, reads, w, f) ∈ ([
      (.vadd ty d a b m, [a, b], ty.width, fun x y _ => if ty.isF then fpAdd ty c x y else int (x + y)),
      (.vsub ty d a b m, [a, b], ty.width, fun x y _ => if ty.isF then fpSub ty c x y else int (x - y)),
      (.vmul ty d a b m, [a, b], ty.width, fun x y _ => if ty.isF then fpMul ty c x y else int (x * y)),
      (.vfma ty d a b m, [d, a, b], ty.width, fun x y z => if ty.isF then fpFma ty c false z x y else int (z + x * y)),
      (.vfms ty d a b m, [d, a, b], ty.width, fun x y z => if ty.isF then fpFma ty c true z x y else int (z - x * y)),
      (.vmin ty d a b m, [a, b], ty.width, fun x y _ => if ty.isF then fpMin ty c x y else int (min (unpackI ty x) (unpackI ty y))),
      (.vmax ty d a b m, [a, b], ty.width, fun x y _ => if ty.isF then fpMax ty c x y else int (max (unpackI ty x) (unpackI ty y))),
      (.vdot4 ty d a b m, [d, a, b], 32, fun x y z => ⟨natOfInt 32 (z + ((List.range 4).map (fun j =>
        unpackI ty (x / 2 ^ (8 * j)) * unpackI ty (y / 2 ^ (8 * j)))).sum), 0⟩),
      (.vmulh ty d a b m, [a, b], ty.width, fun x y _ => int (unpackI ty x * unpackI ty y / 2 ^ ty.width)),
      (.vand ty d a b m, [a, b], ty.width, fun x y _ => ⟨x &&& y, 0⟩), (.vor ty d a b m, [a, b], ty.width, fun x y _ => ⟨x ||| y, 0⟩),
      (.vxor ty d a b m, [a, b], ty.width, fun x y _ => ⟨x ^^^ y, 0⟩),
      (.vshl ty d a b m, [a, b], ty.width, fun x y _ => ⟨x * 2 ^ (y % ty.width) % 2 ^ ty.width, 0⟩),
      (.vshr ty d a b m, [a, b], ty.width, fun x y _ => ⟨x / 2 ^ (y % ty.width), 0⟩),
      (.vsra ty d a b m, [a, b], ty.width, fun x y _ => int (intOf ty.width x / 2 ^ (y % ty.width)))] :
      List (Instr × List VCode × Nat × (Nat → Nat → Nat → Fl))) →
    VecRuns i s reads 8 d w (lanes w) (s.mask m) (fun j => f (elem w (s.vget a) j) (elem w (s.vget b) j) (elem w (s.vget d) j))

/-- R120, R122, R131, R135: the forms with one vector source, or none: the scalar of VSC is the low w bits of g[rb]; VPERM, VSLIDE and VBCAST
move elements; VSPLAT and VIOTA need no source. -/
def Rules.VectorTwo : Prop :=
  ∀ (s : State) (ty : ElemTy) (d a b : VCode) (g : Reg) (m : MaskReg) (i : Instr) (reads : List VCode) (n : Nat) (f : Nat → Fl),
    s.Placed → i.wf = true → WinReady s reads [d] →
    let c := s.fcw
    let w := ty.width
    let x := elem w (s.vget a)
    let z := elem w (s.vget d)
    let y := (s.rd g).toNat % 2 ^ w
    let int := fun (x : Int) => (⟨natOfInt w x, 0⟩ : Fl)
    let clamp := fun (v : Int) => if v = 2 ^ (w - 1) ∧ ty.isSigned = true then (⟨2 ^ (w - 1) - 1, flSaturated⟩ : Fl) else int v
    (i, reads, n, f) ∈ ([
      (.vabs ty d a m, [a], 8, fun j => if ty.isF then fpAbs ty (x j) else clamp (unpackI ty (x j)).natAbs),
      (.vneg ty d a m, [a], 8, fun j => if ty.isF then fpNeg ty (x j) else clamp (-unpackI ty (x j))),
      (.vnot ty d a m, [a], 8, fun j => ⟨2 ^ w - 1 - x j, 0⟩),
      (.vpopc ty d a m, [a], 8, fun j => ⟨(List.range w).countP (x j).testBit, 0⟩), (.vmov ty d a m, [a], 8, fun j => ⟨x j, 0⟩),
      (.vsadd ty d a g m, [a], 8, fun j => if ty.isF then fpAdd ty c (x j) y else int (x j + y)),
      (.vssub ty d a g m, [a], 8, fun j => if ty.isF then fpSub ty c (x j) y else int (x j - y)),
      (.vsmul ty d a g m, [a], 8, fun j => if ty.isF then fpMul ty c (x j) y else int (x j * y)),
      (.vsfma ty d a g m, [d, a], 8, fun j => if ty.isF then fpFma ty c false (z j) (x j) y else int (z j + x j * y)),
      (.vsmin ty d a g m, [a], 8, fun j => if ty.isF then fpMin ty c (x j) y else int (min (unpackI ty (x j)) (unpackI ty y))),
      (.vsmax ty d a g m, [a], 8, fun j => if ty.isF then fpMax ty c (x j) y else int (max (unpackI ty (x j)) (unpackI ty y))),
      (.vsshl ty d a g m, [a], 8, fun j => ⟨x j * 2 ^ bits (s.rd g) 5 0 % 2 ^ w, 0⟩),
      (.vperm ty d a b m, [a, b], 12, fun j => ⟨x (elem w (s.vget b) j % lanes w), 0⟩),
      (.vslide ty d a g m, [a], 12, fun j => if 0 ≤ j + (s.rd g).toInt ∧ j + (s.rd g).toInt < lanes w
        then ⟨x (j + (s.rd g).toInt).toNat, 0⟩ else ⟨0, 0⟩),
      (.vsplat ty d g m, [], 8, fun _ => ⟨y, 0⟩), (.viota ty d m, [], 8, fun j => ⟨j % 2 ^ w, 0⟩)] :
      List (Instr × List VCode × Nat × (Nat → Fl))) →
    VecRuns i s reads n d w (lanes w) (s.mask m) f

/-- R124, R131, R134, R135: VSEL, VBCAST, VINS and VAMAXB, whose writes no mask, or not the mask field alone, governs. -/
def Rules.VectorSelect : Prop :=
  ∀ (s : State) (ty : ElemTy) (d a b : VCode) (g h : Reg) (m : MaskReg), s.Placed →
    let w := ty.width
    let x := elem w (s.vget a)
    let all := BitVec.allOnes 256
    let j := (s.rd h).toNat
    ((Instr.vsel ty d a b m).wf = true → WinReady s [a, b] [d] → VecRuns (.vsel ty d a b m) s [a, b] 8 d w (lanes w) all (fun i =>
      if (s.mask m).getLsbD (w * i / 8) then ⟨x i, 0⟩ else ⟨elem w (s.vget b) i, 0⟩)) ∧
    ((Instr.vbcast ty d a h m).wf = true → WinReady s [a] [d] → j < lanes w →
      VecRuns (.vbcast ty d a h m) s [a] 12 d w (lanes w) (s.mask m) (fun _ => ⟨x j, 0⟩)) ∧
    ((Instr.vins ty d g h).wf = true → WinReady s [d] [d] → j < lanes w → VecRuns (.vins ty d g h) s [d] 8 d w (lanes w) all (fun i =>
      if i = j then ⟨(s.rd g).toNat % 2 ^ w, 0⟩ else ⟨elem w (s.vget d) i, 0⟩)) ∧
    ((Instr.vamaxb ty d a m).wf = true → WinReady s [a] [d] → VecRuns (.vamaxb ty d a m) s [a] 12 d 32 64 all (fun b =>
      if b < lanes w / 32 then blockAmax ty (((List.range 32).map (32 * b + ·)).filterMap (fun i =>
        if active (s.mask m) w i then some (x i) else none)) else ⟨0, 0⟩))

/-- R131, R135: VBCAST, VINS and VEXT of an element that the register does not have raise *operand invalid* with its number. -/
def Rules.ElementTraps : Prop :=
  ∀ (s : State) (ty : ElemTy) (d a : VCode) (g h : Reg) (m : MaskReg), lanes ty.width ≤ (s.rd h).toNat →
    (s.holderBad [a, d] = none → exec (.vbcast ty d a h m) s = .next (s.trapSt 0x05 (s.rd h))) ∧
    (s.holderBad [d, d] = none → exec (.vins ty d g h) s = .next (s.trapSt 0x05 (s.rd h))) ∧
    (s.holderBad [a] = none → exec (.vext ty g a h) s = .next (s.trapSt 0x05 (s.rd h)))

/-- The generator's word for element `i` of an instruction that rounds under SR: the upper half of its (i + 1)th state (R94, R95). -/
def SrWord (s : State) (i : Nat) : Nat := (Nat.repeat xsStep (i + 1) s.thr.ctl.seed).toNat / 2 ^ 32
/-- `seed` after an instruction that steps once for each element position of its destination under SR (R94). -/
def SeedAfter (s : State) (n : Nat) : Word := if bits s.thr.ctl.fcw 5 3 = 5 then Nat.repeat xsStep n s.thr.ctl.seed else s.thr.ctl.seed

/-- R94, R126 to R129, with the choices of log 55 (`fcw` governs VDQNT as it does VQNT; an i8 clamp of VQNT raises *saturated*): VCVT, VDEC, VENC, VQNT and VDQNT convert element by element, up to the element count of the wider type, and keep what
lies above; under SR those that round step `seed` once for each element position of the destination. -/
def Rules.VectorConvert : Prop :=
  ∀ (s : State) (t u : ElemTy) (d a b : VCode) (m : MaskReg), s.Placed →
    let c := s.fcw
    let k := s.mask m
    let runs := fun (i : Instr) (reads : List VCode) (w n : Nat) (f : Nat → Fl) (seed : Word) =>
      i.wf = true → WinReady s reads [d] → ∃ t, Completes i s t ∧ WroteVec s (s.claim reads [d]) t 8 d w n k f seed
    runs (.vcvt t u d a m) [a] t.width (2048 / max t.width u.width) (fun i => convert t u c (SrWord s i) (elem u.width (s.vget a) i))
      (if isFloat t || isFloat u then SeedAfter s (lanes t.width) else s.thr.ctl.seed) ∧
    (s.cur.dtab.getLsbD 0 = true →
      runs (.vdec d a m) [a] 32 64 (fun i => ⟨tableAt s.cur.dtable (elem 8 (s.vget a) i), 0⟩) s.thr.ctl.seed ∧
      runs (.venc t d a m) [a] 8 64 (fun i => encodeC8 s.cur.dtable (readF .f32 c.ftzi (elem 32 (s.vget a) i))) s.thr.ctl.seed) ∧
    runs (.vqnt t d a b m) [a, b] t.width 64 (fun i => quantise t (c.crm (SrWord s i)) c.ftzo (elem 8 (s.vget b) (i / 32))
      (readF .f32 c.ftzi (elem 32 (s.vget a) i))) (SeedAfter s (lanes t.width)) ∧
    runs (.vdqnt t d a b m) [a, b] 32 64 (fun i => dequantise .f32 t (c.crm (SrWord s i)) c (elem 8 (s.vget b) (i / 32))
      (elem t.width (s.vget a) i)) (SeedAfter s 64)

/-- R126: a conversion from an integer type to another gives the value where it fits, and else the nearer bound with *invalid* and *saturated*. -/
def Rules.IntegerConversions : Prop :=
  ∀ (t u : ElemTy) (c : Fcw) (r x : Nat), isFloat t = false → isFloat u = false → t ≠ .c8 → u ≠ .c8 →
    let n := t.width
    let v : Int := if u.isSigned then (BitVec.ofNat u.width x).toInt else x % 2 ^ u.width
    let lo : Int := if t.isSigned then -2 ^ (n - 1) else 0
    let hi : Int := if t.isSigned then 2 ^ (n - 1) - 1 else 2 ^ n - 1
    convert t u c r x = if v < lo then ⟨(BitVec.ofInt n lo).toNat, flInvalid ||| flSaturated⟩
      else if hi < v then ⟨(BitVec.ofInt n hi).toNat, flInvalid ||| flSaturated⟩ else ⟨(BitVec.ofInt n v).toNat, 0⟩

/-- R134: the absolute maximum of some elements as f32: +0 of none; the canonical NaN where one is a NaN, with *invalid* for a signalling one; else exactly
the greatest magnitude, subnormals kept, and no flag. -/
def Rules.BlockMaximum : Prop :=
  ∀ (t : ElemTy) (l : List Nat), t.isF = true →
    let r := blockAmax t l
    let nums := l.map (unpackF t)
    (nums.any Num.isNan = true → r = NanFrom .f32 nums) ∧
    (nums.any Num.isNan = false → r.fl = 0 ∧ r.x < 2 ^ 31 ∧ ∃ m : EReal, ExtIs (unpackF .f32 r.x) m ∧
      (m = 0 ∨ ∃ y ∈ nums, ExtIs y m ∨ ExtIs y.negate m) ∧ ∀ y ∈ nums, ∀ a, ExtIs y a → a ≤ m ∧ -a ≤ m)

/-- R127: VDEC and VENC raise *operand invalid* while the decode table is invalid. -/
def Rules.TableInvalid : Prop :=
  ∀ (s : State) (t : ElemTy) (d a : VCode) (m : MaskReg), s.holderBad [a, d] = none → s.cur.dtab.getLsbD 0 = false →
    exec (.vdec d a m) s = .next (s.trapSt 0x05 s.cur.dtab) ∧ exec (.venc t d a m) s = .next (s.trapSt 0x05 s.cur.dtab)

/-- R130: the special functions write, element by element on f32, the values that the model computes for them (log 17), in 16 cycles. -/
def Rules.SpecialFunctions : Prop :=
  ∀ (s : State) (d a : VCode) (m : MaskReg) (i : Instr) (f : Nat → Fl), s.Placed → i.wf = true → WinReady s [a] [d] →
    (i, f) ∈ ([(.vexp2 d a m, fExp2), (.vlog2 d a m, fLog2), (.vrcp d a m, fRcp), (.vrsq d a m, fRsq), (.vtanh d a m, fTanh),
      (.vsigm d a m, fSigm)] : List (Instr × (Nat → Fl))) →
    VecRuns i s [a] 16 d 32 64 (s.mask m) (fun j => f (elem 32 (s.vget a) j))

/-- R130: the special inputs: signed zeros, infinities and NaNs, with the flags that they raise. -/
def Rules.SpecialInputs : Prop :=
  let nan : Nat := 0x7FC00000
  let inf : Nat := 0x7F800000
  let top : Nat := 2 ^ 31
  fExp2 inf = ⟨inf, 0⟩ ∧ fExp2 (top + inf) = ⟨0, 0⟩ ∧ fExp2 0 = ⟨0x3F800000, 0⟩ ∧ fExp2 0x43000000 = ⟨inf, flOverflow ||| flInexact⟩ ∧
  fLog2 0 = ⟨top + inf, flDivZero⟩ ∧ fLog2 top = ⟨top + inf, flDivZero⟩ ∧ fLog2 (top + 0x3F800000) = ⟨nan, flInvalid⟩ ∧
  fLog2 inf = ⟨inf, 0⟩ ∧ fLog2 0x41000000 = ⟨0x40400000, 0⟩ ∧
  fRcp 0 = ⟨inf, flDivZero⟩ ∧ fRcp top = ⟨top + inf, flDivZero⟩ ∧ fRcp (top + inf) = ⟨top, 0⟩ ∧ fRcp 0x40000000 = ⟨0x3F000000, 0⟩ ∧
  fRcp 0x00200000 = ⟨inf, flOverflow ||| flInexact⟩ ∧
  fRsq 0 = ⟨inf, flDivZero⟩ ∧ fRsq (top + 0x3F800000) = ⟨nan, flInvalid⟩ ∧ fRsq inf = ⟨0, 0⟩ ∧ fRsq 0x40800000 = ⟨0x3F000000, 0⟩ ∧
  fTanh 0 = ⟨0, 0⟩ ∧ fTanh top = ⟨top, 0⟩ ∧ fTanh inf = ⟨0x3F800000, 0⟩ ∧ fTanh (top + inf) = ⟨0xBF800000, 0⟩ ∧
  fSigm (top + inf) = ⟨0, 0⟩ ∧ fSigm inf = ⟨0x3F800000, 0⟩ ∧ fSigm 0 = ⟨0x3F000000, 0⟩ ∧
  (∀ f ∈ [fExp2, fLog2, fRcp, fRsq, fTanh, fSigm], f 0x7FC00001 = ⟨nan, 0⟩ ∧ f 0x7F800001 = ⟨nan, flInvalid⟩)

/-- R132, R133: the reductions write only the low bits of vd, as the fixed pairwise tree over the active elements gives them; VSCAN writes
inclusive prefixes to the active elements; 12 cycles.  An element is read under ftzi and raises *invalid* if it is a signalling NaN (R84, R88), also where
it meets no node, which with the flags of the widening to f32 is the model's choice (log 55). -/
def Obligations.Reductions : Prop :=
  ∀ (s : State) (ty : ElemTy) (d a : VCode) (m : MaskReg), s.Placed → (Instr.vredsum ty d a m).wf = true → WinReady s [a] [d] →
    let c := s.fcw
    let w := ty.width
    let x := activeElems w (s.mask m) (s.vget a)
    let read := fun (y : Nat) => if ty.isF then (⟨AsRead ty c.ftzi y, if (unpackF ty y).isSnan then flInvalid else 0⟩ : Fl) else ⟨y, 0⟩
    let low := fun (i : Instr) (n : Nat) (r : Fl) => ∃ t, Completes i s t ∧
      WroteVec s (s.claim [a] [d]) t 12 d n 1 (BitVec.allOnes 256) (fun _ => r) s.thr.ctl.seed
    (ty.isF = true → low (.vredsum ty d a m) 32 (canonical .f32 ((tree (fpAdd .f32 c) 8 (x (fun y =>
        if ty = .f32 then read y else convert .f32 ty { c with ftzo := false, crnd := 0 } 0 y))).getD ⟨0, 0⟩))) ∧
    (ty.isF = false → low (.vredsum ty d a m) 64 ⟨natOfInt 64 (((List.range (lanes w)).filterMap (fun i =>
        if active (s.mask m) w i then some (unpackI ty (elem w (s.vget a) i)) else none)).sum), 0⟩) ∧
    (∀ max, low (if max then .vredmax ty d a m else .vredmin ty d a m) w (canonical ty ((tree (elMinMax ty c max) 8
        (x read)).getD ⟨if ty.isF then canonNan ty else natOfInt w (if max then intLo ty else intHi ty), 0⟩))) ∧
    VecRuns (.vscan ty d a m) s [a] 12 d w (lanes w) (s.mask m) (fun i => canonical ty
      ((((scanSteps (elAdd ty c) (lanes w).log2 1 (x read))[i]?).join).getD ⟨0, 0⟩))

/-- The instruction writes mask `d` (k0 discards it) and flags, and changes nothing else; `u` is the state after the claim of windows. -/
structure WroteMask (s u t : State) (d : MaskReg) (m : Mask) (fl : Flags) : Prop where
  only : u.OnlyThread t
  done : s.Done t 8
  reads : ∀ k, t.mask k = if k = 0 then BitVec.allOnes 256 else if k = d then m else s.mask k
  thread : t.thr.holds = ({ s.thr with k := t.thr.k, ctl := Flagged s fl } : Thread).holds

/-- A compare of two integers. -/
def holdsFor : Cmp → Int → Int → Bool
  | .eq, p, q => decide (p = q)
  | .ne, p, q => decide (p ≠ q)
  | .lt, p, q => decide (p < q)
  | .le, p, q => decide (p ≤ q)
/-- The vector compare of each kind. -/
def compareOf : Cmp → ElemTy → MaskReg → VCode → VCode → MaskReg → Instr
  | .eq, ty, d, a, b, m => .vcmpeq ty d a b m
  | .ne, ty, d, a, b, m => .vcmpne ty d a b m
  | .lt, ty, d, a, b, m => .vcmplt ty d a b m
  | .le, ty, d, a, b, m => .vcmple ty d a b m

/-- R123: the compares write to the mask, for each active element, the bits of its bytes; with 4-bit elements the odd element's result stands;
inactive elements keep their bits; R108 for floats, with its flags. -/
def Rules.VectorCompare : Prop :=
  ∀ (s : State) (ty : ElemTy) (d : MaskReg) (a b : VCode) (m : MaskReg) (o : Cmp), s.Placed → (Instr.vcmpeq ty d a b m).wf = true →
    WinReady s [a, b] [] →
    let w := ty.width
    let r := fun (j : Nat) =>
      let x := elem w (s.vget a) j
      let y := elem w (s.vget b) j
      if ty.isF then fpCmp ty s.fcw o x y
      else
        let p := unpackI ty x
        let q := unpackI ty y
        ⟨(holdsFor o p q).toNat, 0⟩
    ∃ t new, Completes (compareOf o ty d a b m) s t ∧
      WroteMask s (s.claim [a, b] []) t d new (ActiveFlags w (lanes w) (s.mask m) r) ∧
      ∀ j, j < 256 → new.getLsbD j = if active (s.mask m) w ((8 * j + 7) / w) then (r ((8 * j + 7) / w)).x == 1
        else (s.mask d).getLsbD j

/-- R125, R135: mask logic, KTOG, GTOK and KPOP; and VEXT, which reads one element into a general register. -/
def Rules.MaskMoves : Prop :=
  ∀ (s : State) (ty : ElemTy) (d a b : MaskReg) (v : VCode) (g h : Reg), s.Placed →
    let w := ty.width
    let k := fun (i : Instr) (m : Mask) => ∃ t, Completes i s t ∧ WroteMask s s t d m 0
    k (.kand d a b) (s.mask a &&& s.mask b) ∧ k (.kor d a b) (s.mask a ||| s.mask b) ∧ k (.kxor d a b) (s.mask a ^^^ s.mask b) ∧
    k (.knot d a) (~~~s.mask a) ∧
    (∃ m, k (.gtok ty d g) m ∧ ∀ j, j < 256 → m.getLsbD j = (s.rd g).getLsbD (8 * j / w)) ∧
    (∃ x, Writes (.ktog ty g a) s 8 g x s.thr.ctl ∧ BitsAre x (fun i => (s.mask a).getLsbD (w * i / 8))) ∧
    Writes (.kpop ty g a) s 8 g (word ((List.range (lanes w)).countP (fun i => (s.mask a).getLsbD (w * i / 8)))) s.thr.ctl ∧
    (vOk v = true → WinReady s [v] [] → (s.rd h).toNat < lanes w →
      let x := elem w (s.vget v) (s.rd h).toNat
      ∃ t, Completes (.vext ty g v h) s t ∧ (s.claim [v] []).WroteReg t 8 g
        (if ty.isSigned then BitVec.ofInt 64 (intOf w x) else word x) s.thr.ctl)

/-- R116 to R119: what a claim does.  A window that is read empties, one that is written fills for this thread; every other keeps its state;
all keep their data; the first access makes its launch the holder; a claim of no window changes nothing; no register of a thread changes. -/
def Rules.WindowClaim : Prop :=
  ∀ (s : State) (reads writes : List VCode), s.tid < 16 →
    let u := s.claim reads writes
    (winCodes (reads ++ writes) = [] → u = s) ∧
    (∀ i : Nat, i < 8 → (u.cur.windows[i]?).map (·.data) = (s.cur.windows[i]?).map (·.data) ∧
      u.cur.winState (i + 16) = if i + 16 ∈ winCodes writes then .filling else if i + 16 ∈ winCodes reads then .empty
        else s.cur.winState (i + 16)) ∧
    (∀ i : Nat, i < 8 → i + 16 ∈ winCodes writes → (u.cur.windows[i]?).map (·.owner) = some s.tid) ∧
    (winCodes (reads ++ writes) ≠ [] → s.cur.winHolder = none → u.cur.winHolder = s.curLaunch) ∧
    u.thr.holds = s.thr.holds ∧
    (∀ j, j ≠ s.tid → ({ u.cur.thr j with resume := (s.cur.thr j).resume } : Thread) = s.cur.thr j)

/-- The vector fields that an instruction of the vector unit reads and writes, where it takes its operands from vector fields, scalars and
masks alone (R116). -/
def VecFields : Instr → Option (List VCode × List VCode)
  | .vadd _ d a b _ | .vsub _ d a b _ | .vmul _ d a b _ | .vmin _ d a b _ | .vmax _ d a b _ | .vmulh _ d a b _ | .vand _ d a b _
  | .vor _ d a b _ | .vxor _ d a b _ | .vshl _ d a b _ | .vshr _ d a b _ | .vsra _ d a b _ | .vsel _ d a b _ | .vqnt _ d a b _
  | .vdqnt _ d a b _ | .vperm _ d a b _ => some ([a, b], [d])
  | .vfma _ d a b _ | .vfms _ d a b _ | .vdot4 _ d a b _ => some ([d, a, b], [d])
  | .vabs _ d a _ | .vneg _ d a _ | .vnot _ d a _ | .vpopc _ d a _ | .vmov _ d a _ | .vcvt _ _ d a _ | .vexp2 d a _ | .vlog2 d a _
  | .vrcp d a _ | .vrsq d a _ | .vtanh d a _ | .vsigm d a _ | .vredsum _ d a _ | .vredmax _ d a _ | .vredmin _ d a _ | .vscan _ d a _
  | .vamaxb _ d a _ | .vsadd _ d a _ _ | .vssub _ d a _ _ | .vsmul _ d a _ _ | .vsmin _ d a _ _ | .vsmax _ d a _ _ | .vsshl _ d a _ _
  | .vslide _ d a _ _ => some ([a], [d])
  | .vsfma _ d a _ _ => some ([d, a], [d])
  | .vcmpeq _ _ a b _ | .vcmpne _ _ a b _ | .vcmplt _ _ a b _ | .vcmple _ _ a b _ => some ([a, b], [])
  | .vsplat _ d _ _ | .viota _ d _ => some ([], [d])
  | _ => none

/-- R117, R119, R395: an instruction of the vector unit whose windows another launch holds raises *operand invalid* with the lowest window
code; one that reads a window which is not Full, or only writes one which is not Empty, parks on that window and claims nothing; one that
reads a damaged window raises *data error*. -/
def Rules.WindowWaits : Prop :=
  ∀ (s : State) (i : Instr) (r w : List VCode), VecFields i = some (r, w) →
    (∀ c, s.holderBad (r ++ w) = some c → exec i s = .next (s.trapSt 0x05 (word c))) ∧
    (∀ c, s.holderBad (r ++ w) = none → s.winBlocked r w = some c → exec i s = .next ((s.hold (r ++ w)).parkSt (.window c))) ∧
    (∀ e, s.holderBad (r ++ w) = none → s.winBlocked r w = none → s.winDamage r = some e → exec i s = .next (s.trapSt e.1 e.2) ∧ e.1 = 0x0F)

/-! ### Vector accesses to local memory, and the decode table (R128, R146, R147) -/

/-- R146, R147: VLDL and VGTHL write the active elements of vd from LM, VLDL byte by byte from 256 consecutive bytes, VGTHL from g[ra] plus
the offset that each lane holds in vb. -/
def Rules.LoadLocalVector : Prop :=
  ∀ (s : State) (ty : ElemTy) (d b : VCode) (a : Reg) (p : BitVec 5) (m : MaskReg), s.Placed →
    let x := s.rd a + BitVec.ofInt 64 (p.toInt * 256)
    let k := s.mask m
    let n := ty.width / 8
    let at_ := fun (i : Nat) => (s.rd a + word (elem 32 (s.vget b) i)).toNat
    ((Instr.vldl d a p m).wf = true → WinReady s [] [d] → x.toNat % 4 = 0 → x.toNat + 256 ≤ 0x40000 →
      (∀ j, j < 256 → k.getLsbD j = true → s.cur.lmAllowed s.tid false ((x.toNat + j) / 512) = true ∧ x.toNat + j ∉ s.cur.badLm) →
      VecRuns (.vldl d a p m) s [] 8 d 8 256 k (fun j => ⟨(LmByte s (x.toNat + j)).toNat, 0⟩)) ∧
    ((Instr.vgthl ty d a b m).wf = true → WinReady s [b] [d] →
      (∀ i, i < 64 → active k ty.width i = true → at_ i % n = 0 ∧ LmMay s false (at_ i) n) →
      VecRuns (.vgthl ty d a b m) s [b] 16 d ty.width 64 k (fun i => ⟨natOfBytes ((List.range n).map (fun j => LmByte s (at_ i + j))), 0⟩))

/-- R146, R147: VSTL stores the active bytes of vd, VSCTL the active lanes, a later lane over an earlier; every other byte of LM and every
register keeps its value. -/
def Rules.StoreLocalVector : Prop :=
  ∀ (s : State) (ty : ElemTy) (d b : VCode) (a : Reg) (p : BitVec 5) (m : MaskReg), s.Placed →
    let x := s.rd a + BitVec.ofInt 64 (p.toInt * 256)
    let k := s.mask m
    let n := ty.width / 8
    let at_ := fun (i : Nat) => (s.rd a + word (elem 32 (s.vget b) i)).toNat
    let last := fun (q : Nat) => ((List.range 64).filter (fun i => active k ty.width i && decide (at_ i ≤ q) && decide (q < at_ i + n))).getLast?
    let kept := fun (t : State) => ({ t with cores := s.cores } : State) = s ∧ (∀ c, c ≠ s.core → t.coreAt c = s.coreAt c) ∧
      t.thr.holds = s.thr.holds ∧ (∀ c, t.vget c = s.vget c)
    ((Instr.vstl d a p m).wf = true → WinReady s [d] [] → x.toNat % 4 = 0 → x.toNat + 256 ≤ 0x40000 →
      (∀ j, j < 256 → k.getLsbD j = true → s.cur.lmAllowed s.tid true ((x.toNat + j) / 512) = true) →
      ∃ t, Completes (.vstl d a p m) s t ∧ s.Done t 8 ∧ kept t ∧
        ∀ q, LmByte t q = if x.toNat ≤ q ∧ q < x.toNat + 256 ∧ k.getLsbD (q - x.toNat) = true then vbyte (s.vget d) (q - x.toNat)
          else LmByte s q) ∧
    ((Instr.vsctl ty d a b m).wf = true → WinReady s [d, b] [] →
      (∀ i, i < 64 → active k ty.width i = true → at_ i % n = 0 ∧ LmMay s true (at_ i) n) →
      ∃ t, Completes (.vsctl ty d a b m) s t ∧ s.Done t 16 ∧ kept t ∧
        ∀ q, LmByte t q = match last q with
          | some i => BitVec.ofNat 8 (elem ty.width (s.vget d) i / 2 ^ (8 * (q - at_ i)))
          | none => LmByte s q)

/-- R128, R100, R101: VDTLD reads the 256 entries at g[ra] and completes in 16 cycles; the new table and its status wait until the interval
ends, and the table in force stays. -/
def Rules.DecodeTableLoad : Prop :=
  ∀ (s : State) (a : Reg), s.Placed → (s.rd a).toNat % 4 = 0 → LmMay s false (s.rd a).toNat 1024 →
    ∃ t T, Completes (.vdtld a) s t ∧ s.Done t 16 ∧ t.thr.holds = s.thr.holds ∧ t.cur.dtable = s.cur.dtable ∧ t.cur.dtab = s.cur.dtab ∧
      (∀ i, i < 256 → tableAt T i = natOfBytes ((List.range 4).map (fun j => LmByte s ((s.rd a).toNat + 4 * i + j)))) ∧
      ({ t.cur with threads := s.cur.threads } : Core) = { s.cur with dtNext := s.cur.dtNext ++ [(s.cur.cyc.toNat + 16, T,
        tableStatus ((List.range 256).map (tableAt T)))] }

/-- R100, R101: at the start of a cycle of a core the last of the tables whose interval has ended is in force; the others wait on.  That this is the next
issue slot's start is the model's choice (log 57). -/
def Rules.DecodeTableOpens : Prop :=
  ∀ (s : State) (k : Nat),
    let c := s.coreAt k
    let u := (s.openSlot k).coreAt k
    let due := fun (e : Nat × List (Nat × Word32) × Word) => decide (e.1 ≤ c.cyc.toNat)
    u.dtNext = c.dtNext.filter (fun e => !due e) ∧ (c.dtNext.any due = false → u.dtable = c.dtable ∧ u.dtab = c.dtab) ∧
    ∀ pre e post, c.dtNext = pre ++ e :: post → due e = true → post.any due = false → u.dtable = e.2.1 ∧ u.dtab = e.2.2

/-- R78, R128, R138, R146, R147: the checks of the vector accesses to local memory and of VDTLD: a misaligned address, for lanes the lowest, traps
*misalignment* before the holder check of a window; then come the range of LM and the blocks that the thread may not access, with the lowest address that
fails.  Of the lanes the lowest that fails decides, whichever check it fails. -/
def Rules.LocalVectorTraps : Prop :=
  ∀ (s : State) (ty : ElemTy) (d b : VCode) (a : Reg) (p : BitVec 5) (m : MaskReg),
    let x := s.rd a + BitVec.ofInt 64 (p.toInt * 256)
    let k := s.mask m
    let n := ty.width / 8
    let at_ := fun (i : Nat) => s.rd a + word (elem 32 (s.vget b) i)
    let may := fun (w : Bool) (q : Nat) => s.cur.lmAllowed s.tid w (q / 512) = true
    (∀ e ∈ [(Instr.vldl d a p m, false), (.vstl d a p m, true)],
      (x.toNat % 4 ≠ 0 → exec e.1 s = .next (s.trapSt 0x02 x)) ∧
      (x.toNat % 4 = 0 → s.holderBad [d] = none → 0x40000 < x.toNat + 256 → exec e.1 s = .next (s.trapSt 0x04 x)) ∧
      ∀ j, x.toNat % 4 = 0 → s.holderBad [d] = none → x.toNat + 256 ≤ 0x40000 → j < 256 → k.getLsbD j = true → ¬may e.2 (x.toNat + j) →
        (∀ q, q < j → k.getLsbD q = true → may e.2 (x.toNat + q)) → exec e.1 s = .next (s.trapSt 0x04 (x + word j))) ∧
    (n = 1 ∨ n = 2 ∨ n = 4 → isWin b = false ∨ s.cur.winState b.toNat = .full →
      ∀ e ∈ [(Instr.vgthl ty d a b m, false, [b, d]), (.vsctl ty d a b m, true, [d, b])], ∀ i, i < 64 → active k ty.width i = true →
      (∀ j, j < i → active k ty.width j = true → (at_ j).toNat % n = 0 ∧ (at_ j).toNat + n ≤ 0x40000 ∧ may e.2.1 (at_ j).toNat) →
      ((at_ i).toNat % n ≠ 0 → exec e.1 s = .next (s.trapSt 0x02 (at_ i))) ∧
      ((at_ i).toNat % n = 0 → s.holderBad e.2.2 = none → 0x40000 < (at_ i).toNat + n ∨ ¬may e.2.1 (at_ i).toNat →
        exec e.1 s = .next (s.trapSt 0x04 (at_ i)))) ∧
    (let g := s.rd a
     let q0 := bits g 17 0
     (g.toNat % 4 ≠ 0 → exec (.vdtld a) s = .next (s.trapSt 0x02 g)) ∧
     (g.toNat % 4 = 0 → bits g 63 18 ≠ 0 → exec (.vdtld a) s = .next (s.trapSt 0x05 g)) ∧
     ∀ q, g.toNat % 4 = 0 → bits g 63 18 = 0 → q0 ≤ q → q < q0 + 1024 → 0x40000 ≤ q ∨ ¬may false q →
       (∀ r, q0 ≤ r → r < q → r < 0x40000 ∧ may false r) → exec (.vdtld a) s = .next (s.trapSt 0x04 (word q)))

/-- R138, R145: scalar loads and stores of local memory, and their traps. -/
def Obligations.LocalAccess : Prop := Rules.LoadLocal ∧ Rules.StoreLocal ∧ Rules.LocalTraps

/-- R120 to R124, R131, R134, R135: element-wise vector instructions, selections and moves, and the absolute maximum of a block. -/
def Obligations.VectorArithmetic : Prop := Rules.VectorThree ∧ Rules.VectorTwo ∧ Rules.VectorSelect ∧ Rules.BlockMaximum

/-- R126 to R129, R131: vector conversions, and the operands they refuse.  The flush, sat and rounding controls of VDQNT and the i8 clamp flags of VQNT are
the model's choices (log 55). -/
def Obligations.VectorConversions : Prop := Rules.VectorConvert ∧ Rules.IntegerConversions ∧ Rules.TableInvalid ∧ Rules.ElementTraps

/-- R130: the special functions apply the model's functions (log 17) lane by lane, and treat the special inputs as the rule's table says. -/
def Obligations.SpecialFunctions : Prop := Rules.SpecialFunctions ∧ Rules.SpecialInputs

/-- R123, R125, R135: vector compares, mask logic, and moves between masks, vectors and general registers. -/
def Obligations.ComparesAndMasks : Prop := Rules.VectorCompare ∧ Rules.MaskMoves

/-- R116 to R119: claims of window registers, and what an instruction waits for.  That an access which parks makes its launch the holder is the
model's choice (log 46). -/
def Obligations.Windows : Prop := Rules.WindowClaim ∧ Rules.WindowWaits

/-- R78, R100, R101, R128, R138, R146, R147: vector loads and stores of local memory with their traps, the load of a decode table, and the cycle in which
it comes into force.  That the next issue slot puts it in force is the model's choice (log 57). -/
def Obligations.LocalVectors : Prop :=
  Rules.LoadLocalVector ∧ Rules.StoreLocalVector ∧ Rules.DecodeTableLoad ∧ Rules.DecodeTableOpens ∧ Rules.LocalVectorTraps

/-! ### Global memory (R148, R160, R170 to R194) -/

/-- The thread begins its instruction: it is placed, none of its posted reductions is outstanding (R238), and nothing of the instruction has
been done yet. -/
def Idle (s : State) : Prop := s.Placed ∧ s.myReds = [] ∧ s.thr.progress = Progress.none
/-- The request of the thread's instruction has been answered, and nothing of it has been performed: its partial state holds no more than what it asked
for, when, how long it has waited, and what a newest read noted at its issue. -/
abbrev JustAnswered (s : State) : Prop :=
  ({ s.thr.progress with asks := [], askAt := 0, waited := none, since := none } : Progress) = { Progress.none with ask := .served }
/-- The slices have answered the request of the thread's access (R170), and nothing of the access has been performed.  That an access goes on
from here, and in the issuing step where it needs no request, is the model's choice of when it is served (log 7). -/
def Served (s : State) : Prop := s.Placed ∧ s.myReds = [] ∧ JustAnswered s

/-- A scalar access may be performed: its L1 holds the sector in a sufficient state, or its request has been answered (R172; log 7). -/
def MayAccess (s : State) (va : Nat) (write : Bool) : Prop := (Idle s ∧ s.l1Hit s.core s.tn va write = true) ∨ Served s
/-- `i` completes from `u`, the state with its effect: from `u` to the next state nothing changes but that the thread is Ready at pc + 4 after
its interval. -/
def EndsFrom (i : Instr) (s u : State) (interval : Nat) : Prop :=
  ∃ t, Completes i s t ∧ u.OnlyThread t ∧ u.Done t interval ∧ t.thr.holds = u.thr.holds
/-- The instruction parks at its own pc with reason *Global reply*, with its request sent (R50, R170; log 7). -/
def Asks (i : Instr) (s : State) : Prop :=
  ∃ t o, exec i s = .next t ∧ t.thr.status = .parked .reply s.cur.cyc.toNat o ∧ t.thr.pc = s.thr.pc ∧ t.thr.progress.ask = .sent

/-- The scalar loads with their VA (R185, R186). -/
def LoadsAt (s : State) (w : LoadW) (d a b : Reg) (p : BitVec 13) : List (Instr × Word) :=
  [(.ld w d a p, s.rd a + BitVec.ofInt 64 (p.toInt * loadBytes w)), (.ldx w d a b, s.rd a + s.rd b)]
/-- The scalar stores with their VA (R185, R186). -/
def StoresAt (s : State) (w : StoreW) (r a b : Reg) (p : BitVec 13) : List (Instr × Word) :=
  [(.st w r a p, s.rd a + BitVec.ofInt 64 (p.toInt * storeBytes w)), (.stx w r a b, s.rd a + s.rd b)]

/-- R172, R185, R186: a load whose sector its L1 holds, or whose request has been answered (log 7) and is granted, completes in 8 cycles with the bytes that its L1 then holds, extended as its width
says; nothing else changes from the state that the grant left, but the line's rank and the mark of a pushed sector that it uses. -/
def Rules.GlobalLoads : Prop :=
  ∀ (s s' : State) (w : LoadW) (d a b : Reg) (p : BitVec 13), ∀ e ∈ LoadsAt s w d a b p, MayAccess s e.2.toNat false →
    e.2.toNat % loadBytes w = 0 → e.2.toNat < 2 ^ 56 → s.obtain s.core s.tn e.2.toNat false = (s', .ok) →
    s'.thr = s.thr → s'.core = s.core → s'.tid = s.tid →
    let r := s'.l1Read s.core s.tn e.2.toNat (loadBytes w)
    ∃ t, Completes e.1 s t ∧ r.1.WroteReg t 8 d (loadExtend w r.2) r.1.thr.ctl

/-- R172, R185, R186: a store whose sector its L1 holds in M, or whose request has been answered (log 7) and is granted, writes exactly its bytes into the line in its own L1 and completes in 8 cycles:
every other byte of that line, every other line of that L1, DRAM and every register keep their values. -/
def Rules.GlobalStores : Prop :=
  ∀ (s s' : State) (w : StoreW) (r a b : Reg) (p : BitVec 13) (l : L1Line), ∀ e ∈ StoresAt s w r a b p,
    let n := storeBytes w
    let va := e.2.toNat
    MayAccess s va true → va % n = 0 → va < 2 ^ 56 → s.obtain s.core s.tn va true = (s', .ok) → s'.cur.l1Find s.tn (lineOf va) = some l →
    l.sec[va / 64 % 4]? = some .m → s'.thr = s.thr → s'.core = s.core → s'.tid = s.tid →
    let u := (s'.l1Write s.core s.tn (lineOf va) (maskRange (va % 256) n) (placeAt (va % 256) n (s.rd r).toNat)).countStore
      s.core s.tn (lineOf va) 1
    u.jam = false → u.pushing = false →
    ∃ t l', Completes e.1 s t ∧ u.OnlyThread t ∧ s.Done t 8 ∧ t.thr.holds = s.thr.holds ∧ t.dram = s'.dram ∧
      (∀ k x, (k, x) ≠ (s.tn, lineOf va) → t.cur.l1Find k x = s'.cur.l1Find k x) ∧ t.cur.l1Find s.tn (lineOf va) = some l' ∧
      ∀ j, j < 256 → vbyte l'.data j = if va % 256 ≤ j ∧ j < va % 256 + n then (s.rd r).extractLsb' (8 * (j - va % 256)) 8
        else vbyte l.data j

/-- R78, R148, R185: the checks in the core come first: a misaligned VA traps *misalignment*, then one that does not fit 56 bits traps *access
fault*, each with the VA; nothing leaves the core. -/
def Rules.GlobalTraps : Prop :=
  ∀ (s : State) (wl : LoadW) (ws : StoreW) (d a b : Reg) (p : BitVec 13),
    (∀ e ∈ LoadsAt s wl d a b p, (e.2.toNat % loadBytes wl ≠ 0 → exec e.1 s = .next (s.trapSt 0x02 e.2)) ∧
      (e.2.toNat % loadBytes wl = 0 → 2 ^ 56 ≤ e.2.toNat → exec e.1 s = .next (s.trapSt 0x0A e.2))) ∧
    (∀ e ∈ StoresAt s ws d a b p, (e.2.toNat % storeBytes ws ≠ 0 → exec e.1 s = .next (s.trapSt 0x02 e.2)) ∧
      (e.2.toNat % storeBytes ws = 0 → 2 ^ 56 ≤ e.2.toNat → exec e.1 s = .next (s.trapSt 0x0A e.2)))

/-- R50, R159, R160, R167, R170, R172, R384: a load or store whose sector its L1 does not hold sends its request and parks with reason *Global
reply*.  When the answer has come (log 7): a load that something holds parks again with that reason; on a page fault it parks with reason
*Page fault*, `fltseq` advances by one, and one record with the VA, the kind, level and entry goes to the hub; and a cause that ends the access
is taken as its trap. -/
def Rules.GlobalWaits : Prop :=
  ∀ (s s' : State) (w : LoadW) (ws : StoreW) (d a b : Reg) (p : BitVec 13),
    (Idle s → (∀ e ∈ LoadsAt s w d a b p, e.2.toNat % loadBytes w = 0 → e.2.toNat < 2 ^ 56 → s.l1Hit s.core s.tn e.2.toNat false = false →
        Asks e.1 s) ∧
      (∀ e ∈ StoresAt s ws d a b p, e.2.toNat % storeBytes ws = 0 → e.2.toNat < 2 ^ 56 → s.l1Hit s.core s.tn e.2.toNat true = false →
        Asks e.1 s)) ∧
    (Served s → ∀ e ∈ LoadsAt s w d a b p,
    e.2.toNat % loadBytes w = 0 → e.2.toNat < 2 ^ 56 → s'.thr = s.thr → s'.core = s.core → s'.tid = s.tid →
    (∀ h, s.obtain s.core s.tn e.2.toNat false = (s', .hold h) →
      ∃ t o, exec e.1 s = .next t ∧ t.thr.status = .parked .reply s'.cur.cyc.toNat o ∧ t.thr.pc = s.thr.pc) ∧
    (∀ k l x, s.obtain s.core s.tn e.2.toNat false = (s', .page k l x) → s'.noFaultQueue s.tn = false →
      ∃ t o, exec e.1 s = .next t ∧ t.thr.status = .parked (.fault [e.2.toNat]) s'.cur.cyc.toNat o ∧ t.thr.pc = s.thr.pc ∧
        t.thr.ctl = { s.thr.ctl with fltseq := s.thr.ctl.fltseq + 1 } ∧
        t.faults = s'.faults ++ [⟨s.tn, e.2.toNat, (s.thr.ctl.fltseq + 1).toNat % 2 ^ 32, s.core, s.tid, k, 0, 0, l, x, false, none⟩]) ∧
    (∀ c v, s.obtain s.core s.tn e.2.toNat false = (s', .trap c v) → s.HasHandler → ∃ t, exec e.1 s = .next t ∧
      t.thr.ctl.trapcause = (1 <<< 63) ||| word c ∧ t.thr.ctl.trapval = v ∧ t.thr.ctl.trappc = s.thr.pc))

/-- The memory system changes no thread and no local memory (R170): whatever a request does to caches, directories, page tables and DRAM, every thread of every
core keeps its registers, its pc and its state, and the same instruction goes on running. -/
def Obligations.MemoryKeepsThreads : Prop :=
  ∀ (s : State) (c c' d tn va n : Nat) (write : Bool) (sc : AmoScope) (f : Nat → Nat) (m : Mask) (x : VReg) (eng : Bool),
    let kept := fun (t : State) => (t.coreAt c').threads = (s.coreAt c').threads ∧ (t.coreAt c').lm = (s.coreAt c').lm ∧
      t.core = s.core ∧ t.tid = s.tid
    kept (s.obtain c tn va write).1 ∧ kept (s.sliceRead d tn va n eng).1 ∧
    kept (s.sliceWrite d tn (lineOf va) va .write m x eng).1 ∧ kept (s.atomic d tn va n sc f).1

/-- R187: PFG never parks and never traps: with a VA that does not fit, with the sector in the L1, or with no way there for its line, it only
takes its 8 cycles; else its request is under way.  The request waits for a claim to end (R226), is dropped where its translation would fault or
hold, with what its walk has done to the table (R158), and otherwise ends as a read request does. -/
def Rules.Prefetch : Prop :=
  ∀ (s : State) (a : Reg) (core tn v : Nat),
    (s.Placed →
      let va := (s.rd a).toNat
      let lacks := s.l1Hit s.core s.tn va false = true ∨ s.cur.l1Way s.tn (lineOf va) = false
      (2 ^ 56 ≤ va ∨ lacks → Passes (.pfg a) s 8) ∧
      (va < 2 ^ 56 → ¬ lacks →
        EndsFrom (.pfg a) s (s.updCur (fun c => { c with prefetches := c.prefetches ++ [(s.tn, va)] })) 8)) ∧
    ((tn, v) ∈ (s.coreAt core).prefetches →
      let d := dieOf core
      let gone := s.setCore core { s.coreAt core with prefetches := (s.coreAt core).prefetches.filter (· ≠ (tn, v)) }
      ((s.dieAt d).claimed tn (lineOf v) = true → exec (.sliceReadRequest core tn v) s = .next s) ∧
      ((s.dieAt d).claimed tn (lineOf v) = false →
        (s.lineAbsent d tn (lineOf v) = true → (∀ pa key, (gone.translate d tn v .read none).2 ≠ .ok pa key) →
          exec (.sliceReadRequest core tn v) s = .next (gone.translate d tn v .read none).1) ∧
        (s.lineAbsent d tn (lineOf v) = false → (gone.coreAt core).l1Way tn (lineOf v) = true →
          ∀ s', (gone.noteMerge d tn (lineOf v)).readRequest core tn v = (s', .ok) → exec (.sliceReadRequest core tn v) s = .next s')))

/-- R188 to R190: the range operations: an empty range changes nothing in 8 cycles; another asks the slices of the die, and once they have
answered (log 7), CWB writes each cached line of the range to DRAM, CINV writes and drops it, and CDISC drops it after the translation of its
stripe; with no cached line nothing changes. -/
def Rules.RangeOperations : Prop :=
  ∀ (s : State) (a b : Reg),
    let x := (s.rd a).toNat
    let n := (s.rd b).toNat
    let d := dieOf s.core
    let l := ((s.dieAt d).linesIn s.tn x n).filterMap (fun y => (s.dieAt d).llcFind s.tn y)
    let discs := onePass (discStripe d s.tn x n) (stripesOf x ((s.dieAt d).linesIn s.tn x n)) s
    let clean := l.foldl (fun (s' : State) y => s'.cleanToDram d y) s
    let inval := l.foldl (fun (s' : State) y => (s'.cleanToDram d y).flushLine d y.tn y.line) s
    let ends := fun (i : Instr) (u : State) => u.Placed → ∃ t, Completes i s t ∧ u.OnlyThread t ∧ u.Done t 8
    let whole := x % 256 = 0 ∧ n % 256 = 0
    n ≤ 2 ^ 30 → x + n ≤ 2 ^ 56 → x < 2 ^ 56 →
    (n = 0 → s.Placed → (∀ i ∈ [Instr.cwb a b, .cinv a b], Passes i s 8) ∧ (whole → Passes (.cdisc a b) s 8)) ∧
    (n ≠ 0 → Idle s → (∀ i ∈ [Instr.cwb a b, .cinv a b], Asks i s) ∧ (whole → Asks (.cdisc a b) s)) ∧
    (n ≠ 0 → Served s → (s.dieAt d).claimedIn s.tn x n = false →
      (clean.jam = false → ends (.cwb a b) clean) ∧
      (inval.jam = false → ends (.cinv a b) inval) ∧
      (whole → discs.2.pages = [] → discs.2.other = false → discs.1.thr.progress.held = [] → discs.1.thr.progress.kept = [] →
        ends (.cdisc a b) discs.1) ∧
      ((s.dieAt d).linesIn s.tn x n = [] → s.jam = false →
        (∀ i ∈ [Instr.cwb a b, .cinv a b], Passes i s 8) ∧ (whole → Passes (.cdisc a b) s 8)))

/-- R188: the checks of the range operations, in their order. -/
def Rules.RangeTraps : Prop :=
  ∀ (s : State) (a b : Reg),
    let x := s.rd a
    let n := s.rd b
    let all := [Instr.cwb a b, .cinv a b, .cdisc a b]
    (x.toNat % 256 ≠ 0 → exec (.cdisc a b) s = .next (s.trapSt 0x02 x)) ∧
    (x.toNat % 256 = 0 → n.toNat % 256 ≠ 0 → exec (.cdisc a b) s = .next (s.trapSt 0x02 n)) ∧
    (x.toNat % 256 = 0 → n.toNat % 256 = 0 →
      (2 ^ 30 < n.toNat → ∀ i ∈ all, exec i s = .next (s.trapSt 0x05 n)) ∧
      (n.toNat ≤ 2 ^ 30 → 2 ^ 56 ≤ x.toNat ∨ 2 ^ 56 < x.toNat + n.toNat → ∀ i ∈ all, exec i s = .next (s.trapSt 0x0A x)))

/-- A pass over the elements of an access has met no fault, no hold and no cause that ends it. -/
def Clean (r : State × Pass) : Prop :=
  r.2.pages = [] ∧ r.2.other = false ∧ r.1.thr.progress.held = [] ∧ r.1.thr.progress.kept = []

/-- The elements `l` of a global vector access run from `u`: at its first issue, when its windows have been claimed and its data captured and
the L1 holds each sector; or when its request has been answered (R170, R194; log 7). -/
def ElemsFrom (s u : State) (reads writes : List VCode) (data aux : VReg) (write : Bool) (l : List Elem) : Prop :=
  (Idle s ∧ WinReady s reads writes ∧ u = (s.claim reads writes).capture data aux ∧ ∀ e ∈ l, u.l1Hit u.core u.tn e.va write = true) ∨
  (s.Placed ∧ u = s ∧ s.thr.progress.begun = true ∧ s.thr.progress.ask = .served ∧ s.thr.progress.later = [])
/-- Every lane is aligned and its VA fits. -/
def LanesOk (ty : ElemTy) (l : List (Nat × Word)) : Prop := ∀ e ∈ l, e.2.toNat % (ty.width / 8) = 0 ∧ e.2.toNat < 2 ^ 56

/-- R172, R191, R192: VLD and VLDS, whose sectors the L1 holds, or whose request has been answered (log 7) and is granted, write the elements to
the active elements of vd: VLD 256 consecutive bytes, once all its sectors are granted, VLDS 64 elements at a stride; in 8 cycles.  `r` is the
state in which the last element has been served. -/
def Rules.GlobalVectorLoads : Prop :=
  ∀ (s u : State) (ty : ElemTy) (d : VCode) (a b : Reg) (p : BitVec 5) (m : MaskReg),
    let x := s.rd a + BitVec.ofInt 64 (p.toInt * 256)
    let k := s.mask m
    let writes := fun (i : Instr) (r : State) (w n : Nat) => r.Placed → ∃ t, Completes i s t ∧
      WroteVec r r t 8 d w n k (fun j => ⟨elem w r.thr.progress.data j, 0⟩) r.thr.ctl.seed
    ((Instr.vld d a p m).wf = true → x.toNat % 4 = 0 → x.toNat + 255 < 2 ^ 56 →
      let l := sectorElems x.toNat k 0
      let g := grantPass false l u
      let r := onePass (readL1 u.core u.tn) l g.1
      ElemsFrom s u [] [d] 0 0 false l → Clean g → Clean r → writes (.vld d a p m) r.1 8 256) ∧
    ((Instr.vlds ty d a b m).wf = true → LanesOk ty (strideLanes s ty a b k) →
      let l := laneElems ty.width (strideLanes s ty a b k) 0
      let r := onePass (readL1 u.core u.tn) l u
      ElemsFrom s u [] [d] 0 0 false l → Clean r → writes (.vlds ty d a b m) r.1 ty.width 64)

/-- R172, R191, R192: VST and VSTS, whose sectors the L1 holds in M, or whose request has been answered (log 7) and is granted, complete in 8
cycles from the state that the last element left; the data stored are those that the vector held when it was claimed. -/
def Rules.GlobalVectorStores : Prop :=
  ∀ (s u : State) (ty : ElemTy) (d : VCode) (a b : Reg) (p : BitVec 5) (m : MaskReg),
    let x := s.rd a + BitVec.ofInt 64 (p.toInt * 256)
    let k := s.mask m
    let z := u.thr.progress.data
    let ends := fun (i : Instr) (r : State) => r.Placed → EndsFrom i s r 8
    ((Instr.vst d a p m).wf = true → x.toNat % 4 = 0 → x.toNat + 255 < 2 ^ 56 →
      let l := sectorElems x.toNat k z
      let g := grantPass true l u
      let r := onePass (writeL1 u.core u.tn) l g.1
      ElemsFrom s u [d] [] (s.vget d) 0 true l → Clean g → Clean r → r.1.pushing = false → ends (.vst d a p m) r.1) ∧
    ((Instr.vsts ty d a b m).wf = true → LanesOk ty (strideLanes s ty a b k) →
      let l := laneElems ty.width (strideLanes s ty a b k) z
      let r := onePass (writeStrided u.core u.tn l) l u
      ElemsFrom s u [d] [] (s.vget d) 0 true l → Clean r → r.1.pushing = false → ends (.vsts ty d a b m) r.1)

/-- R193, R194: VGTH and VSCT whose word requests are answered (log 7): each answer serves one; with requests left the thread parks again with
reason *Global reply*, and with the last the gather writes its elements to the active elements of vd, and the scatter ends, in 8 cycles.  Their
lanes are those of the offsets that the claim has captured. -/
def Rules.WordRequests : Prop :=
  ∀ (s : State) (ty : ElemTy) (d v : VCode) (a : Reg) (m : MaskReg), s.Placed → s.thr.progress.begun = true →
    let k := s.mask m
    let l := heldLanes s ty a k
    let loads := laneElems ty.width l 0
    let stores := laneElems ty.width l s.thr.progress.data
    let g := wordPass true (readWord (dieOf s.core) s.tn) loads s
    let c := wordPass false (writeWord (dieOf s.core) s.tn) stores s
    let gathered := fun (r : State) => r.Placed → ∃ t, Completes (.vgth ty d a v m) s t ∧
      WroteVec r r t 8 d ty.width 64 k (fun j => ⟨elem ty.width r.thr.progress.data j, 0⟩) r.thr.ctl.seed
    let scattered := fun (r : State) => r.Placed → EndsFrom (.vsct ty d a v m) s r 8
    let again := fun (i : Instr) => ∃ t at_ o, exec i s = .next t ∧ t.thr.status = .parked .reply at_ o ∧ t.thr.progress.ask = .sent
    ((Instr.vgth ty d a v m).wf = true →
      (loads.all (fun e => s.thr.progress.elems.contains e.id) = true → gathered s) ∧
      (s.thr.progress.ask = .served → loads.all (fun e => s.thr.progress.elems.contains e.id) = false →
        (g.2.done = true → loads.any g.1.pending = true → g.1.tid < 16 → again (.vgth ty d a v m)) ∧
        (loads.any g.1.pending = false → Clean g → gathered g.1))) ∧
    ((Instr.vsct ty d a v m).wf = true →
      (stores.all (fun e => s.thr.progress.elems.contains e.id) = true → scattered s) ∧
      (s.thr.progress.ask = .served → stores.all (fun e => s.thr.progress.elems.contains e.id) = false →
        (c.2.done = true → stores.any c.1.pending = true → c.1.tid < 16 → again (.vsct ty d a v m)) ∧
        (stores.any c.1.pending = false → Clean c → scattered c.1)))

/-- The instruction has claimed the windows that it reads and writes (R116), holds the data and the offsets that it takes from its vectors, and parks at its
own pc with reason *Global reply*, with its request sent; no vector register or window changes its data. -/
def AsksWith (i : Instr) (s : State) (reads writes : List VCode) (data aux : VReg) : Prop :=
  ∃ t o, exec i s = .next t ∧ t.thr.status = .parked .reply s.cur.cyc.toNat o ∧ t.thr.pc = s.thr.pc ∧ t.thr.progress.ask = .sent ∧
    t.thr.progress.begun = true ∧ t.thr.progress.data = data ∧ t.thr.progress.aux = aux ∧ (∀ c, t.vget c = s.vget c) ∧
    (∀ c, t.cur.winState c = (s.claim reads writes).cur.winState c) ∧ t.cur.winHolder = (s.claim reads writes).cur.winHolder

/-- R50, R116, R170, R191 to R194: a global vector access that its L1 cannot complete, and every gather or scatter of an active lane, claims its
windows, captures what it takes from them, sends its requests and parks with reason *Global reply* (log 7). -/
def Rules.GlobalVectorWaits : Prop :=
  ∀ (s : State) (ty : ElemTy) (d v : VCode) (a b : Reg) (p : BitVec 5) (m : MaskReg), Idle s →
    let x := s.rd a + BitVec.ofInt 64 (p.toInt * 256)
    let k := s.mask m
    let z := s.vget d
    let misses := fun (u : State) (write : Bool) (l : List Elem) => ∃ e ∈ l, u.l1Hit u.core u.tn e.va write = false
    (x.toNat % 4 = 0 → x.toNat + 255 < 2 ^ 56 →
      (WinReady s [] [d] → misses ((s.claim [] [d]).capture 0 0) false (sectorElems x.toNat k 0) →
        AsksWith (.vld d a p m) s [] [d] 0 0) ∧
      (WinReady s [d] [] → misses ((s.claim [d] []).capture z 0) true (sectorElems x.toNat k z) →
        AsksWith (.vst d a p m) s [d] [] z 0)) ∧
    (LanesOk ty (strideLanes s ty a b k) →
      (WinReady s [] [d] → misses ((s.claim [] [d]).capture 0 0) false (laneElems ty.width (strideLanes s ty a b k) 0) →
        AsksWith (.vlds ty d a b m) s [] [d] 0 0) ∧
      (WinReady s [d] [] → misses ((s.claim [d] []).capture z 0) true (laneElems ty.width (strideLanes s ty a b k) z) →
        AsksWith (.vsts ty d a b m) s [d] [] z 0)) ∧
    (LanesOk ty (indexLanes s ty a v k) → indexLanes s ty a v k ≠ [] →
      (WinReady s [v] [d] → AsksWith (.vgth ty d a v m) s [v] [d] 0 (s.vget v)) ∧
      (WinReady s [d, v] [] → AsksWith (.vsct ty d a v m) s [d, v] [] z (s.vget v)))

/-- R78, R148, R191 to R193: the checks of the global vector accesses before they begin: a misaligned address, for lanes the lowest, traps *misalignment*
before the holder check of a window, and after it one that does not fit 56 bits traps *access fault*; a gather or a scatter takes both checks lane by lane,
and its lowest lane that fails decides. -/
def Rules.GlobalVectorTraps : Prop :=
  ∀ (s : State) (ty : ElemTy) (d v : VCode) (a b : Reg) (p : BitVec 5) (m : MaskReg), s.thr.progress.begun = false →
    let x := s.rd a + BitVec.ofInt 64 (p.toInt * 256)
    let k := s.mask m
    let n := ty.width / 8
    let stride := fun (i : Nat) => s.rd a + word i * s.rd b
    let index := fun (i : Nat) => s.rd a + word (elem 32 (s.vget v) i)
    let on := fun (i : Nat) => i < 64 ∧ active k ty.width i = true
    (∀ i ∈ [Instr.vld d a p m, .vst d a p m], (x.toNat % 4 ≠ 0 → exec i s = .next (s.trapSt 0x02 x)) ∧
      (x.toNat % 4 = 0 → s.holderBad [d] = none → 2 ^ 56 ≤ x.toNat + 255 → exec i s = .next (s.trapSt 0x0A x))) ∧
    (∀ e ∈ [Instr.vlds ty d a b m, .vsts ty d a b m], ∀ i, on i →
      ((stride i).toNat % n ≠ 0 → (∀ j, j < i → on j → (stride j).toNat % n = 0) → exec e s = .next (s.trapSt 0x02 (stride i))) ∧
      ((∀ j, on j → (stride j).toNat % n = 0) → s.holderBad [d] = none → 2 ^ 56 ≤ (stride i).toNat →
        (∀ j, j < i → on j → (stride j).toNat < 2 ^ 56) → exec e s = .next (s.trapSt 0x0A (stride i)))) ∧
    (isWin v = false ∨ s.cur.winState v.toNat = .full → ∀ e ∈ [(Instr.vgth ty d a v m, [v, d]), (.vsct ty d a v m, [d, v])], ∀ i, on i →
      (∀ j, j < i → on j → (index j).toNat % n = 0 ∧ (index j).toNat < 2 ^ 56) →
      ((index i).toNat % n ≠ 0 → exec e.1 s = .next (s.trapSt 0x02 (index i))) ∧
      ((index i).toNat % n = 0 → s.holderBad e.2 = none → 2 ^ 56 ≤ (index i).toNat → exec e.1 s = .next (s.trapSt 0x0A (index i))))

/-! ### Atomics and posted reductions (R229 to R241) -/

/-- R236, R237: what an atomic writes on operands of w bits: m the memory value, x the operand, e the expected value of CAS.  The floating-point additions
are the sum rounded once under RNE, with nothing flushed, for bf16x2 half by half, and a NaN gives the canonical one; FMAX is that of R106. -/
def Rules.AtomicFunctions : Prop :=
  ∀ (size m x e : Nat), size = 4 ∨ size = 8 → m < 2 ^ (8 * size) → x < 2 ^ (8 * size) →
    let f := fun (op : AmoOp) => atomicFn op size m x e
    let i := intOf (8 * size)
    f .add = (m + x) % 2 ^ (8 * size) ∧ f .and = m &&& x ∧ f .or = m ||| x ∧ f .xor = m ^^^ x ∧
    f .min = (if i m ≤ i x then m else x) ∧ f .max = (if i x ≤ i m then m else x) ∧ f .minn = min m x ∧ f .maxn = max m x ∧
    f .xchg = x ∧ f .cas = (if m = e then x else m) ∧
    (size = 4 →
      let adds := fun (t : ElemTy) (m x r : Nat) =>
        let l := [unpackF t m, unpackF t x]
        (l.any Num.isNan = true → r = QuietNan t) ∧ (l.any Num.isNan = false → ∃ fl, SumsTo t .rne false l ⟨r, fl⟩)
      adds .f32 m x (f .faddF32) ∧ f .faddBf16x2 < 2 ^ 32 ∧
      (∀ h ∈ [0, 16], adds .bf16 (m / 2 ^ h % 2 ^ 16) (x / 2 ^ h % 2 ^ 16) (f .faddBf16x2 / 2 ^ h % 2 ^ 16)) ∧
      ∃ fl, PicksOf .f32 false true m x ⟨f .fmaxF32, fl⟩)

/-- R230, R235, R237: an AMO asks the slices and parks with reason *Global reply*; once they have answered (log 7), the one that its slice performs writes the old value, sign-extended for a 32-bit MIN or MAX and zero-extended otherwise,
into rd and completes in 8 cycles; the new value is that of its function on the low bits of g[rb], with g[rd] as the expected value. -/
def Rules.Amo : Prop :=
  ∀ (s s' : State) (op : AmoOp) (w : Bool) (sc : AmoScope) (d a b : Reg) (old : Nat),
    let n := amoSize op w
    let va := (s.rd a).toNat
    s.det = false → va % n = 0 → va < 2 ^ 56 → (Idle s → Asks (.amo op w sc d a b) s) ∧ (Served s →
    s.atomic (dieOf s.core) s.tn va n sc (fun m => atomicFn op n m ((s.rd b).toNat % 2 ^ (8 * n)) ((s.rd d).toNat % 2 ^ (8 * n))) =
      (s', .ok, old) → s'.thr = s.thr → s'.core = s.core → s'.tid = s.tid →
    ∃ t, Completes (.amo op w sc d a b) s t ∧
      s'.WroteReg t 8 d (if n = 4 ∧ (op = .min ∨ op = .max) then BitVec.ofInt 64 (BitVec.ofNat 32 old).toInt
        else word (old % 2 ^ (8 * n))) s'.thr.ctl)

/-- R235, R238, R239: RED posts its operation and goes on: fewer than eight of the thread's are outstanding, none of which a wait has still to perform after a
fault, and nothing else changes; an ordered operation under deterministic operation traps, after alignment and before the address check. -/
def Rules.RedPosts : Prop :=
  ∀ (s : State) (op : AmoOp) (w : Bool) (sc : AmoScope) (a b : Reg), s.Placed →
    let n := amoSize op w
    let va := s.rd a
    (va.toNat % n = 0 → va.toNat < 2 ^ 56 → (s.det && fpOp op) = false → s.myReds.length < 8 →
      (∀ r ∈ s.myReds, r.sent = false ∧ r.owed = false) → ∃ t, Completes (.red op w sc a b) s t ∧ s.Done t 8 ∧ t.thr.holds = s.thr.holds ∧ t.dies = s.dies ∧ t.dram = s.dram ∧
        t.reds = s.reds ++ [⟨s.core, s.tid, s.thr.placedAt, s.tn, s.curLaunch, op, w, sc, va.toNat,
          word ((s.rd b).toNat % 2 ^ (8 * n)), none, none, false, none, false⟩]) ∧
    (∀ d, (va.toNat % n ≠ 0 → exec (.red op w sc a b) s = .next (s.trapSt 0x02 va) ∧ exec (.amo op w sc d a b) s = .next (s.trapSt 0x02 va)) ∧
      (va.toNat % n = 0 → s.det = true → exec (.amo op w sc d a b) s = .next (s.trapSt 0x0D 0) ∧
        (fpOp op = true → exec (.red op w sc a b) s = .next (s.trapSt 0x0D 0))) ∧
      (va.toNat % n = 0 → s.det = false → 2 ^ 56 ≤ va.toNat → exec (.red op w sc a b) s = .next (s.trapSt 0x0A va) ∧
        exec (.amo op w sc d a b) s = .next (s.trapSt 0x0A va)))

/-- R172, R185, R186: scalar global loads and stores that are granted.  When an access is served is the model's choice (log 7). -/
def Obligations.GlobalAccess : Prop := Rules.GlobalLoads ∧ Rules.GlobalStores

/-- R148, R159, R160, R185, R188: checks, waits and faults of global accesses. -/
def Obligations.AccessTraps : Prop := Rules.GlobalTraps ∧ Rules.RangeTraps ∧ Rules.GlobalWaits

/-- R187 to R190: the prefetch and the range operations.  When a range operation is served is the model's choice (log 7). -/
def Obligations.Ranges : Prop := Rules.Prefetch ∧ Rules.RangeOperations

/-- R78, R116, R148, R191 to R194: vector loads and stores of global memory, the waits for their answers, and their traps.  When an access is served
is the model's choice (log 7). -/
def Obligations.GlobalVectors : Prop :=
  Rules.GlobalVectorLoads ∧ Rules.GlobalVectorStores ∧ Rules.WordRequests ∧ Rules.GlobalVectorWaits ∧ Rules.GlobalVectorTraps

/-- R230, R235 to R238: atomics and posted reductions.  When an AMO is served is the model's choice (log 7). -/
def Obligations.Atomics : Prop := Rules.AtomicFunctions ∧ Rules.Amo ∧ Rules.RedPosts

/-- R176, R177, R178: the code that BDZ chooses for a sector is at most 8, its image has the size that the code states, and decoding the image
recovers every byte; a line's image fills its cells, of which there are at most eight. -/
def Obligations.BlockCompression : Prop :=
  (∀ x : Nat, x < 2 ^ 512 → (bdz x).1 ≤ 8 ∧ (bdzImage (bdz x).1 x).length = (bdz x).2 ∧ bdzExpand (bdz x).1 (bdzImage (bdz x).1 x) = x) ∧
  ∀ v : VReg, cellsOf v ≤ 8 ∧ (lineImage v).length = 32 * cellsOf v
/-! ### Fences, barriers, WAITGE (R196 to R217) -/

/-- The rectangle operand of a scope is one that R197 admits; `me` is the core that must lie inside, for a barrier. -/
def RectOk (sc : Scope) (r : Word) (me : Option Nat) : Prop :=
  sc = .rect → bits r 63 32 = 0 ∧ bits r 7 0 ≤ bits r 23 16 ∧ bits r 15 8 ≤ bits r 31 24 ∧ bits r 23 16 ≤ 31 ∧ bits r 31 24 ≤ 35 ∧
    ∀ c, me = some c → bits r 7 0 ≤ xOf c ∧ xOf c ≤ bits r 23 16 ∧ bits r 15 8 ≤ yOf c ∧ yOf c ≤ bits r 31 24

/-- What a release at a scope waits for is complete (R204, R216, R368): no posted reduction of the thread and no remote write of it to the
extent is outstanding, and the write-backs of a package or pod scope leave `u`, in which no store pushes. -/
def Released (s : State) (sc : Scope) (r : Word) (u : State) : Prop :=
  s.myReds = [] ∧ s.myWrites (inExtent sc r s.core) = [] ∧
  ∃ v, (if isWide sc then s.release (dieOf s.core) (sc = .pod) else some s) = some v ∧ u = v.fireRelease ∧ u.jam = false ∧ u.pushing = false

/-- R204, R217: a fence completes in 2 cycles. ACQ raises the epoch of the die at package scope, and of the pod at pod scope too, so that older
guest lines are stale; REL first performs the release; AR does both; no register changes. -/
def Rules.Fences : Prop :=
  ∀ (s u : State) (sc : Scope) (b : Reg), s.Placed → RectOk sc (s.rd b) none →
    let acquired := fun (v : State) => if sc = .pkg ∨ sc = .pod then v.updDie (dieOf s.core) (fun x => { x with
      pkgEpoch := x.pkgEpoch + 1, podEpoch := if sc = .pod then x.podEpoch + 1 else x.podEpoch }) else v
    ((∀ d ∈ s.thr.drops, inExtent sc (s.rd b) s.core d.core = false) → EndsFrom (.fenceAcq sc b) s (acquired s) 2) ∧
    (Released s sc (s.rd b) u → u.Placed → u.core = s.core → (∀ d ∈ u.thr.drops, inExtent sc (s.rd b) s.core d.core = false) →
      EndsFrom (.fenceRel sc b) s u 2 ∧ EndsFrom (.fenceAr sc b) s (acquired u) 2)

/-- The barrier instructions with their operation, operand type and contribution (R208). -/
def BarriersOf (s : State) (sc : Scope) (ty : CombTy) (d a b : Reg) : List (Instr × Nat × CombTy × Word) :=
  [(.bar sc b, 0, .n64, 0), (.barmax ty sc d a b, 1, ty, s.rd a), (.barsum ty sc d a b, 2, ty, s.rd a), (.barmin ty sc d a b, 3, ty, s.rd a)]

/-- R197, R204, R205, R208, R248: a fence or barrier with a rectangle that R197 does not admit, for a barrier also one without its core, raises *operand
invalid* with the operand; a releasing fence or a barrier waits in a drain while a reduction of its thread or a remote write to its extent is outstanding;
and a fence, or a barrier that has not arrived, raises *undeliverable* once its release is complete if it finds a drop notice from a core of its extent,
and clears the thread's notices. -/
def Rules.FenceTraps : Prop :=
  ∀ (s u : State) (sc : Scope) (ty : CombTy) (d a b : Reg),
    let r := s.rd b
    let rels := [Instr.fenceRel sc b, .fenceAr sc b]
    let bars := (BarriersOf s sc ty d a b).map (·.1)
    let arrives := s.tid ≠ 15 ∧ s.thr.progress.begun = false
    let told := fun (v : State) => v.thr.drops.any (fun n => inExtent sc r v.core n.core) = true
    let raised := fun (v : State) => Host.Outcome.next ((v.updThr (fun t => { t with drops := [] })).trapSt 0x09 (dropVal v.thr.drops))
    (¬RectOk sc r none → ∀ i ∈ .fenceAcq sc b :: rels, exec i s = .next (s.trapSt 0x05 r)) ∧
    (arrives → ¬RectOk sc r (some s.core) → ∀ i ∈ bars, exec i s = .next (s.trapSt 0x05 r)) ∧
    (s.myReds = [] → s.myWrites (inExtent sc r s.core) ≠ [] → (RectOk sc r none → ∀ i ∈ rels, exec i s = .next (s.parkSt .drain)) ∧
      (arrives → RectOk sc r (some s.core) → ∀ i ∈ bars, exec i s = .next (s.parkSt .drain))) ∧
    (RectOk sc r none → told s → exec (.fenceAcq sc b) s = raised s) ∧
    (Released s sc r u → told u → (RectOk sc r none → ∀ i ∈ rels, exec i s = raised u) ∧
      (arrives → RectOk sc r (some s.core) → ∀ i ∈ bars, exec i s = raised u))

/-- R206, R207, R208: a barrier instruction that has released arrives at the instance of its launch, scope, extent, operation and type that still
lacks arrivals, a new one if none does, and its thread parks with reason *Barrier*. -/
def Rules.BarrierArrival : Prop :=
  ∀ (s u : State) (sc : Scope) (ty : CombTy) (d a b : Reg), s.Placed → s.tid ≠ 15 → s.thr.progress = Progress.none →
    RectOk sc (s.rd b) (some s.core) → Released s sc (s.rd b) u → u.thr = s.thr → u.core = s.core → u.tid = s.tid → u.cur.copyProg = s.cur.copyProg →
    (∀ n ∈ s.thr.drops, inExtent sc (s.rd b) s.core n.core = false) →
    ∀ e ∈ BarriersOf s sc ty d a b,
      let l := s.curLaunch.getD 0
      let new : Barrier := ⟨l, ((u.launchAt l).map (·.order)).getD 0, sc, extentOf sc (s.rd b) s.core, e.2.1, e.2.2.1, []⟩
      let lacks := fun (y : Barrier) => y.same new && (y.arrivals.length < u.expected y || u.expected y = 0)
      let me : Arrival := ⟨s.core, s.tid, u.nextId, e.2.2.2⟩
      ∃ t o c, exec e.1 s = .next t ∧ t.thr.status = .parked (.barrier (scopeNum sc)) o c ∧ t.thr.pc = s.thr.pc ∧
        (∀ n, findPos lacks u.barriers = some n → ∃ y, u.barriers[n]? = some y ∧
          t.barriers = setAt u.barriers n { y with arrivals := y.arrivals ++ [me] }) ∧
        (findPos lacks u.barriers = none → (u.barriers.filter (fun y => y.network == new.network)).length <
          networkSize new.network → t.barriers = u.barriers ++ [{ new with arrivals := [me] }])

/-- R208, R209, R217: a thread whose barrier has released completes its instruction: the combined value goes into rd (not for BAR), the flags of the
combination are raised, the scope is acquired (at package scope the package epoch of the die advances, at pod scope both), and nothing else changes. -/
def Rules.BarrierCompletes : Prop :=
  ∀ (s : State) (sc : Scope) (ty : CombTy) (d a b : Reg) (y fl : Word), s.Placed → s.thr.progress.begun = true →
    s.thr.progress.ending = some (.value y fl) → ∀ e ∈ BarriersOf s sc ty d a b,
    let c := { s.thr.ctl with fflags := s.thr.ctl.fflags ||| fl }
    ∃ t, Completes e.1 s t ∧ s.Done t 2 ∧ (if e.2.1 = 0 then ∀ r, t.rd r = s.rd r else s.SetReg t d y) ∧ t.thr.ctl = c ∧
      ({ t.cur with threads := s.cur.threads } : Core) = s.cur ∧ (∀ j, j ≠ s.tid → t.cur.thr j = s.cur.thr j) ∧
      (∀ k, k ≠ s.core → t.coreAt k = s.coreAt k) ∧
      ({ t with cores := s.cores } : State) = if sc = .pkg ∨ sc = .pod then s.updDie (dieOf s.core) (fun x => { x with
        pkgEpoch := x.pkgEpoch + 1, podEpoch := if sc = .pod then x.podEpoch + 1 else x.podEpoch }) else s

/-- R207 to R210: BARRIER_RELEASE completes in every state.  With fewer arrivals than the launch expects nothing changes; with all of them, those
of other packages at pod scope among them while a port is up, it frees the instance, combines the contributions, and gives every participant the
result: a parked one resumes with it, and a spilled one becomes restorable with it, unless its wait has expired. -/
def Rules.BarrierReleases : Prop :=
  ∀ (s : State) (n : Nat) (b : Barrier) (remote : List Word), s.barriers[n]? = some b →
    let xs := b.arrivals.map (·.x) ++ (if b.scope = .pod then remote else [])
    let r := combine b.op b.ty xs
    let result := some (Ending.value r.1 (r.2.setWidth 64))
    (s.expected b = 0 ∨ xs.length < s.expected b → exec (.barrierRelease n remote) s = .next s) ∧
    (s.expected b ≠ 0 → s.expected b ≤ xs.length → (b.scope = .pod → remote ≠ [] → s.hub.allDown = none) →
      ∃ t, exec (.barrierRelease n remote) s = .next t ∧ t.barriers = dropAt s.barriers n ∧ (s.hub.pool = [] → t.dram = s.dram) ∧
      ∀ a ∈ b.arrivals,
        (let x := (s.coreAt a.core).thr a.tid
         let y := (t.coreAt a.core).thr a.tid
         a.tid < 16 → x.progress.begun = true → x.progress.id = a.id → x.progress.ending = none → (∃ w p o, x.status = .parked w p o) →
           y.resume = true ∧ y.progress.ending = result) ∧
        (∀ x ∈ (s.coreAt a.core).spills, x.tid = a.tid → x.thread.progress.begun = true → x.thread.progress.id = a.id →
          x.thread.progress.ending = none → ∃ y ∈ (t.coreAt a.core).spills, y.tid = x.tid ∧ y.ready = true ∧ y.thread.progress.ending = result))

/-- R209: what the combining barriers give for integers: the greatest, the sum modulo 2^64 and the least contribution; for f32 the greatest and the least
value, with −0 below +0, and the exact sum rounded once under RNE, of which a zero is +0 and an infinity stays; and with a NaN among them the
canonical NaN, invalid for a signalling one, and in a sum also when both infinities are among them. -/
def Rules.BarrierCombine : Prop :=
  ∀ (l : List Word), l ≠ [] →
    ((combine 1 .n64 l).1 ∈ l ∧ ∀ x ∈ l, x.toNat ≤ (combine 1 .n64 l).1.toNat) ∧
    ((combine 3 .n64 l).1 ∈ l ∧ ∀ x ∈ l, (combine 3 .n64 l).1.toNat ≤ x.toNat) ∧
    ((combine 1 .i64 l).1 ∈ l ∧ ∀ x ∈ l, x.toInt ≤ (combine 1 .i64 l).1.toInt) ∧
    ((combine 3 .i64 l).1 ∈ l ∧ ∀ x ∈ l, (combine 3 .i64 l).1.toInt ≤ x.toInt) ∧
    (∀ ty ∈ [CombTy.n64, .i64], (combine 2 ty l).1 = word ((l.map (·.toNat)).sum) ∧ (∀ op, (combine op ty l).2 = 0)) ∧
    (let f := l.map (fun x => unpackF .f32 (x.toNat % 2 ^ 32))
     (f.any Num.isNan = true → (combine 2 .f32 l).1 = 0x7FC00000 ∧
       ((combine 2 .f32 l).2 = if f.any Num.isSnan = true ∨ (Num.inf true ∈ f ∧ Num.inf false ∈ f) then flInvalid else 0) ∧
       ∀ op ∈ [1, 3], combine op .f32 l = (0x7FC00000, if f.any Num.isSnan then flInvalid else 0)) ∧
     (f.any Num.isNan = false → ∀ op ∈ [1, 3], (combine op .f32 l).1 ∈ l.map (fun x => word (x.toNat % 2 ^ 32)) ∧ (combine op .f32 l).2 = 0 ∧
       let r := unpackF .f32 (combine op .f32 l).1.toNat
       ∀ y ∈ f, (op = 1 → numLt r y = false ∧ (r.isZero = true → y.isZero = true → r.neg = true → y.neg = true)) ∧
         (op = 3 → numLt y r = false ∧ (r.isZero = true → y.isZero = true → r.neg = false → y.neg = false))) ∧
     (f.any Num.isNan = false →
       (Num.inf true ∈ f → Num.inf false ∈ f → combine 2 .f32 l = (0x7FC00000, flInvalid)) ∧
       (∀ n, Num.inf n ∈ f → Num.inf (!n) ∉ f → combine 2 .f32 l = (word (InfOf .f32 n), 0)) ∧
       ∀ vs : List ℝ, List.Forall₂ ValueIs f vs → (vs.sum = 0 → combine 2 .f32 l = (0, 0)) ∧
         (vs.sum ≠ 0 → RoundsTo .f32 .rne false .arith vs.sum ⟨(combine 2 .f32 l).1.toNat, (combine 2 .f32 l).2⟩)))

/-- R212: WAITGE checks its address, then writes the counter into rd and acquires at package scope if it has reached g[rd]; else the thread
parks with reason *Counter*. -/
def Rules.WaitGe : Prop :=
  ∀ (s : State) (d a : Reg), s.Placed →
    let x := (s.rd a).toNat
    let y := s.cur.lmRead x 8
    (x % 8 ≠ 0 → exec (.waitge d a) s = .next (s.trapSt 0x02 (s.rd a))) ∧
    (x % 8 = 0 → 0x40000 ≤ x → exec (.waitge d a) s = .next (s.trapSt 0x05 (s.rd a))) ∧
    (x % 8 = 0 → LmMay s false x 8 →
      ((s.rd d).toNat ≤ y → EndsFrom (.waitge d a) s ((s.wr d (word y)).updDie (dieOf s.core) (fun z => { z with
        pkgEpoch := z.pkgEpoch + 1 })) 2) ∧
      (y < (s.rd d).toNat → exec (.waitge d a) s = .next (s.parkSt (.counter x (s.rd d).toNat))))

/-! ### Landing registers and remote writes (R199, R242 to R249) -/

/-- The holder allows the current thread the landing register, and it is not damaged (R242, R395). -/
def LandOk (s : State) (i : Nat) : Prop :=
  (i < 16 → ∀ h, s.cur.landHolder = some h → s.curLaunch = some h) ∧ i ∉ s.cur.badLand
/-- The state after an allowed access to a landing register: the first access to l0 to l15 makes its launch the holder (R242). -/
def LandHeld (s : State) (i : Nat) : State :=
  if i < 16 ∧ s.cur.landHolder = none then s.updCur (fun c => { c with landHolder := s.curLaunch }) else s

/-- R243, R244, R246: TAKE of a Full register gives its word and leaves it Empty, of an Empty one parks; PEEK and TESTL read the word and the state;
CLRL empties; PUTL fills an Empty register for which no writer waits before it, which wakes the TAKE that parked there first; it parks at a Full one, at
one that was emptied in the same cycle, and at an Empty one for which another writer waits, and joins the waiting writers at their end. -/
def Rules.LandingRegisters : Prop :=
  ∀ (s : State) (li : Landing) (c : Reg), s.Placed → LandOk s li.toNat →
    let i := li.toNat
    let u := LandHeld s i
    let l := s.cur.land i
    let emptied := fun (u : State) => u.updCur (fun k => k.updLand i (fun l => { l with
      full := false, fillAt := if l.full then k.cyc.toNat + 1 else l.fillAt }))
    (l.full = true → EndsFrom (.take c li) s (emptied (u.wr c l.data)) 2) ∧
    (l.full = false → exec (.take c li) s = .next (u.parkSt (.landing i false))) ∧
    EndsFrom (.peek c li) s (u.wr c l.data) 2 ∧ EndsFrom (.testl c li) s (u.wr c (if l.full then 1 else 0)) 2 ∧
    EndsFrom (.clrl li) s (emptied u) 2 ∧
    (l.full = false → l.fillAt ≤ s.cur.cyc.toNat → (l.waiters = [] ∨ l.waiters.head? = some (.putl s.tid)) →
      ∃ t, Completes (.putl li c) s t ∧ s.Done t 2 ∧ t.thr.holds = s.thr.holds ∧
      (t.cur.land i).data = s.rd c ∧ (t.cur.land i).full = true ∧ (t.cur.land i).waiters = l.waiters.filter (· ≠ .putl s.tid) ∧
      (∀ j, j ≠ i → t.cur.land j = s.cur.land j) ∧ t.cur.lm = s.cur.lm ∧ t.dram = s.dram ∧
      ∀ j o n, j < 16 → j ≠ s.tid → (s.cur.thr j).status = .parked (.landing i false) o n → (s.cur.thr j).resume = false →
        (∀ k p q, k < 16 → k ≠ j → (s.cur.thr k).status = .parked (.landing i false) p q → n < q) → (t.cur.thr j).resume = true) ∧
    (l.full = true ∨ s.cur.cyc.toNat < l.fillAt ∨ (l.waiters ≠ [] ∧ l.waiters.head? ≠ some (.putl s.tid)) → ∃ t o n, exec (.putl li c) s = .next t ∧
      t.thr.status = .parked (.landing i true) o n ∧ (t.cur.land i).data = l.data ∧ (t.cur.land i).full = l.full ∧
      (t.cur.land i).waiters = if Writer.putl s.tid ∈ l.waiters then l.waiters else l.waiters ++ [.putl s.tid])

/-- R242, R43: a thread of another launch than the holder of l0 to l15 raises *operand invalid* with the register's number. -/
def Rules.LandingHolder : Prop :=
  ∀ (s : State) (li : Landing) (c : Reg) (h : Nat), li.toNat < 16 → s.cur.landHolder = some h → s.curLaunch ≠ some h →
    ∀ i ∈ [Instr.take c li, .peek c li, .testl c li, .clrl li, .putl li c], exec i s = .next (s.trapSt 0x05 (word li.toNat))

/-- A posted write of the current thread has left: it is in flight, and outstanding for its core until it is answered (R199). -/
def Sent (s u : State) (dst : Nat) (k : NetKind) : State :=
  { u.updCur (fun c => { c with out := c.out ++ [⟨s.nextId, s.tid, s.thr.placedAt, dst⟩] }) with
    net := u.net ++ [⟨s.nextId, s.core, s.tid, dst, s.tn, s.hub.now, s.curLaunch, k, .flight⟩], nextId := s.nextId + 1 }

/-- R199, R245, R246, R249, R254, R57: RPUT, RPUTM, RPUTMV, MSND, MSNDN and a WAKE of another core send a posted write with the operands as the
rules lay them out, and complete in 2 cycles; a message carries its kind, sender, send count, destination thread and tag, and the send count
advances; RPUTMV takes its data, and empties a window that it sends, before it sends them. -/
def Rules.RemoteWrites : Prop :=
  ∀ (s : State) (li : Landing) (a b : Reg) (v : VCode), s.Placed → s.cur.out.length < 64 →
    let t := s.rd a
    let core := bits t 17 4
    let addr := bits t 35 18
    let hdr := fun (kind : Nat) => word (kind + s.core * 2 ^ 4 + s.tid * 2 ^ 18 + s.thr.sendCount.toNat * 2 ^ 22 + bits t 3 0 * 2 ^ 38 +
      bits t 25 18 * 2 ^ 42)
    let counted := fun (u : State) => u.updThr (fun x => { x with sendCount := x.sendCount + 1 })
    (core ≤ 9215 → bits t 63 18 = 0 → bits t 3 0 = 0 → EndsFrom (.rput li b a) s (Sent s s core (.rput li.toNat (s.rd b))) 2) ∧
    (core ≤ 9215 → bits t 63 36 = 0 → bits t 3 0 = 0 → addr % 8 = 0 → addr + 8 ≤ 0x40000 →
      EndsFrom (.rputm a b) s (Sent s s core (.rputm addr (s.rd b))) 2) ∧
    (core ≤ 9215 → bits t 63 36 = 0 → bits t 3 0 = 0 → addr % 8 = 0 → addr + 256 ≤ 0x40000 → vOk v = true → WinReady s [v] [] →
      s.thr.progress.begun = false → EndsFrom (.rputmv a v) s (Sent s (s.claim [v] []) core (.rputmv addr (s.vget v))) 2) ∧
    (s.thr.progress.begun = true → EndsFrom (.rputmv a v) s (Sent s s core (.rputmv addr s.thr.progress.data)) 2) ∧
    (core ≤ 9215 → bits t 63 26 = 0 →
      EndsFrom (.msnd a b) s (counted (Sent s s core (.message ⟨hdr 1, s.rd b, 0xFFFFFFFF, 0, s.tn⟩))) 2) ∧
    (core ≤ 9215 → bits t 31 26 = 0 →
      EndsFrom (.msndn a b) s (counted (Sent s s core (.message ⟨hdr 2, s.rd b, bits t 63 32, 0, s.tn⟩))) 2) ∧
    (core ≤ 9215 → bits t 63 18 = 0 → core ≠ s.core → EndsFrom (.wake a) s (Sent s s core (.wake (bits t 3 0))) 2)

/-- R50, R57, R245, R249, R254: with 64 remote writes of the core outstanding the thread parks for a credit, RPUTMV with its data taken; a target word with a
reserved bit, a core past the package or, for an LM store, a range past the end of LM raises *operand invalid*; an LM address that is no multiple of 8
*misalignment*, before that. -/
def Rules.RemoteWriteWaits : Prop :=
  ∀ (s : State) (li : Landing) (a b : Reg) (v : VCode),
    let t := s.rd a
    (64 ≤ s.cur.out.length → bits t 17 4 ≤ 9215 →
      (bits t 63 18 = 0 → bits t 3 0 = 0 → exec (.rput li b a) s = .next (s.parkSt .credit)) ∧
      (bits t 63 36 = 0 → bits t 3 0 = 0 → bits t 35 18 % 8 = 0 → bits t 35 18 + 8 ≤ 0x40000 →
        exec (.rputm a b) s = .next (s.parkSt .credit)) ∧
      (bits t 63 36 = 0 → bits t 3 0 = 0 → bits t 35 18 % 8 = 0 → bits t 35 18 + 256 ≤ 0x40000 → WinReady s [v] [] →
        s.thr.progress.begun = false → exec (.rputmv a v) s = .next (((s.claim [v] []).capture (s.vget v) 0).parkSt .credit)) ∧
      (bits t 63 26 = 0 → exec (.msnd a b) s = .next (s.parkSt .credit)) ∧
      (bits t 31 26 = 0 → exec (.msndn a b) s = .next (s.parkSt .credit)) ∧
      (bits t 63 18 = 0 → bits t 17 4 ≠ s.core → exec (.wake a) s = .next (s.parkSt .credit))) ∧
    (let far := 9215 < bits t 17 4
     let invalid := fun (i : Instr) => exec i s = .next (s.trapSt 0x05 t)
     let wrong := fun (n : Nat) => bits t 63 36 ≠ 0 ∨ bits t 3 0 ≠ 0 ∨ far ∨ 0x40000 < bits t 35 18 + n
     (bits t 63 18 ≠ 0 ∨ bits t 3 0 ≠ 0 ∨ far → invalid (.rput li b a)) ∧ (bits t 63 26 ≠ 0 ∨ far → invalid (.msnd a b)) ∧
     (bits t 31 26 ≠ 0 ∨ far → invalid (.msndn a b)) ∧ (bits t 63 18 ≠ 0 ∨ far → invalid (.wake a)) ∧
     (bits t 35 18 % 8 = 0 → (wrong 8 → invalid (.rputm a b)) ∧
       (wrong 256 → s.thr.progress.begun = false → s.holderBad [v] = none → invalid (.rputmv a v))) ∧
     (bits t 35 18 % 8 ≠ 0 → exec (.rputm a b) s = .next (s.trapSt 0x02 (word (bits t 35 18))) ∧
       (s.thr.progress.begun = false → exec (.rputmv a v) s = .next (s.trapSt 0x02 (word (bits t 35 18))))))

/-- R202, R244, R247: a posted write at its destination, where it may reach it: under deterministic operation not before what its core sent to
that core earlier. An RPUT fills an Empty landing register, or waits at the port of a Full one; an LM store
writes its bytes where the launch may write; a write for which the launch has no task on the core is dropped, counted and reported. -/
def Rules.WriteDelivery : Prop :=
  ∀ (s : State) (n : Nat) (x : NetItem) (v : Word), s.net[n]? = some x → x.phase = .flight →
    let c := s.coreAt x.dst
    let goes := fun (t : State) => exec (.remoteWriteDelivery n) s = .next t
    (s.inOrder x = false → goes s) ∧
    (s.inOrder x = true →
    (∀ li, 16 ≤ li → li < 32 → x.kind = .rput li v → s.hosts x.dst x.lnum = true → (c.land li).full = false →
      (c.land li).fillAt ≤ c.cyc.toNat → (c.land li).waiters = [] →
      ∃ t, goes t ∧ ((t.coreAt x.dst).land li).data = v ∧ ((t.coreAt x.dst).land li).full = true ∧
        t.net = setAt s.net n { x with phase := .acked }) ∧
    (∀ li, 16 ≤ li → li < 32 → x.kind = .rput li v → s.hosts x.dst x.lnum = true → (c.land li).full = true → c.portWaiting < 16 →
      ∃ t, goes t ∧ ((t.coreAt x.dst).land li) = { c.land li with waiters := (c.land li).waiters ++ [.remote x.id x.src x.tid v] }) ∧
    (∀ a, x.kind = .rputm a v → s.hosts x.dst x.lnum = true → lmFail (c.remoteOk s x.lnum) a 8 = none →
      ∃ t, goes t ∧ t.net = setAt s.net n { x with phase := .acked } ∧ ∀ b, memGet lmDefault (t.coreAt x.dst).lm b =
        if a ≤ b ∧ b < a + 8 then v.extractLsb' (8 * (b - a)) 8 else memGet lmDefault c.lm b) ∧
    (∀ a w, x.kind = .rputmv a w → s.hosts x.dst x.lnum = true → lmFail (c.remoteOk s x.lnum) a 256 = none →
      ∃ t, goes t ∧ t.net = setAt s.net n { x with phase := .acked } ∧ ∀ b, memGet lmDefault (t.coreAt x.dst).lm b =
        if a ≤ b ∧ b < a + 256 then vbyte w (b - a) else memGet lmDefault c.lm b) ∧
    (∀ li, x.kind = .rput li v → s.hosts x.dst x.lnum = false → ∃ t, goes t ∧
      t.net = setAt s.net n { x with phase := .dropped ⟨0, 1, li, x.dst⟩ } ∧
      (t.dieAt (dieOf x.dst)).droppedWrites = (s.dieAt (dieOf x.dst)).droppedWrites + 1 ∧ t.cores = s.cores))

/-- R199, R205, R244, R247: an acknowledged write leaves the net and its core's count of outstanding writes; a drop notice is recorded against the
sending context as well; the landing port fills an Empty register from its first waiting writer, where R247 still admits that write, and drops one that it
no longer admits. -/
def Rules.WriteAnswers : Prop :=
  ∀ (s : State) (n : Nat) (x : NetItem) (d : Drop), s.net[n]? = some x →
    let out := (s.coreAt x.src).out.filter (fun o => o.id ≠ x.id)
    (x.phase = .acked → ∃ t, exec (.remoteWriteAck n) s = .next t ∧ t.net = dropAt s.net n ∧ (t.coreAt x.src).out = out) ∧
    (x.phase ≠ .acked → exec (.remoteWriteAck n) s = .next s) ∧
    (x.phase = .dropped d → ∃ t, exec (.dropNotice n) s = .next t ∧ t.net = dropAt s.net n ∧ (t.coreAt x.src).out = out ∧
      (∀ o, (s.coreAt x.src).out.find? (fun o => o.id == x.id) = some o → x.tid < 16 → ((s.coreAt x.src).thr x.tid).status = .ready →
        ((s.coreAt x.src).thr x.tid).placedAt = o.ctx →
        ((t.coreAt x.src).thr x.tid).drops = ((s.coreAt x.src).thr x.tid).drops ++ [d])) ∧
    (∀ (c m id src tid : Nat) (li : Landing) (w : Word) (rest : List Writer) (y : NetItem),
      let l := (s.coreAt c).land li.toNat
      let fills := fun (t : State) => exec (.landingPortFill c li) s = .next t
      let after := fun (t : State) => (t.coreAt c).land li.toNat
      l.waiters = .remote id src tid w :: rest → l.full = false → l.fillAt ≤ (s.coreAt c).cyc.toNat →
      findPos (fun (z : NetItem) => z.id == id) s.net = some m → s.net[m]? = some y →
      (s.hosts c y.lnum = true → (li.toNat < 16 → ∀ h, (s.coreAt c).landHolder = some h → y.lnum = some h) →
        ∃ t, fills t ∧ (after t).data = w ∧ (after t).full = true ∧ (after t).waiters = rest ∧ t.net = setAt s.net m { y with phase := .acked } ∧
          (li.toNat < 16 → (t.coreAt c).landHolder = y.lnum)) ∧
      (s.hosts c y.lnum = false → rest = [] → ∃ t, fills t ∧ (after t).full = false ∧ (after t).waiters = [] ∧
        t.net = setAt s.net m { y with phase := .dropped ⟨0, 1, li.toNat, y.dst⟩ }))

/-! ### Messages and user events (R251 to R262) -/

/-- R257, R258: MRCV and MRCVN take the oldest queued message for the thread (that the selector names), put its payload into rd and its header
into `msghdr`, or zeros where there is none; WAITM goes on where there is one and else parks with reason *Message*. -/
def Rules.Receive : Prop :=
  ∀ (s : State) (d a : Reg), s.Placed →
    let got := fun (i : Instr) (l : List Message) =>
      (l = [] → Writes i s 2 d 0 { s.thr.ctl with msghdr := 0 }) ∧
      (∀ m rest, l = m :: rest → EndsFrom i s (((s.updCur (fun c => { c with msgq := c.msgq.erase m })).wr d m.payload).updCtl
        (fun c => { c with msghdr := m.hdr })) 2)
    (s.det = false → got (.mrcv d) (s.cur.msgq.filter (fun m => bits m.hdr 41 38 == s.tid))) ∧
    (s.det = true → exec (.mrcv d) s = .next (s.trapSt 0x0D 0)) ∧
    (bits (s.rd a) 63 26 = 0 → got (.mrcvn d a) (s.queuedFor (some (s.rd a)))) ∧
    (bits (s.rd a) 63 26 ≠ 0 → exec (.mrcvn d a) s = .next (s.trapSt 0x05 (s.rd a))) ∧
    (s.queuedFor none ≠ [] → Passes (.waitm 0) s 2) ∧ (s.queuedFor none = [] → exec (.waitm 0) s = .next (s.parkSt (.message none))) ∧
    (a ≠ 0 → bits (s.rd a) 63 26 = 0 → (s.queuedFor (some (s.rd a)) ≠ [] → Passes (.waitm a) s 2) ∧
      (s.queuedFor (some (s.rd a)) = [] → exec (.waitm a) s = .next (s.parkSt (.message (some (s.rd a))))))

/-- R202, R252, R255: a message that reaches its core, under deterministic operation after what its sender's core sent there earlier, while it is deliverable and the queue has an entry joins the queue at its end and is
acknowledged; with a full queue it waits at the port; one that waits while the queue is full stays; after 4,096 cycles it is diverted. -/
def Rules.MessageArrivals : Prop :=
  ∀ (s : State) (n : Nat) (x : NetItem) (m : Message), s.net[n]? = some x → x.kind = .message m →
    let q := (s.coreAt x.dst).msgq
    let test := s.messageTest x.dst m.dthread m.task x.lnum
    (s.inOrder x = false → exec (.messageArrival n) s = .next s) ∧
    (s.inOrder x = true → x.phase = .flight → test = none → q.length < 64 → s.msgWaiting x.dst = [] →
      ∃ t, exec (.messageArrival n) s = .next t ∧ (t.coreAt x.dst).msgq = q ++ [{ m with at_ := (s.coreAt x.dst).cyc.toNat }] ∧ t.net = setAt s.net n { x with phase := .acked }) ∧
    (s.inOrder x = true → x.phase = .flight → test = none → 64 ≤ q.length → ∃ t, exec (.messageArrival n) s = .next t ∧
      t.cores = s.cores ∧ t.net = dropAt s.net n ++ [{ x with phase := .waiting (s.coreAt x.dst).cyc.toNat }]) ∧
    (∀ c, x.phase = .waiting c → 64 ≤ q.length → exec (.messageArrival n) s = .next s) ∧
    (∀ c, (s.msgWaiting x.dst).head? = some x → x.phase = .waiting c → (s.coreAt x.dst).cyc.toNat < c + 4096 →
      exec (.messageDivert x.dst) s = .next s) ∧
    (∀ c, (s.msgWaiting x.dst).head? = some x → x.phase = .waiting c → c + 4096 ≤ (s.coreAt x.dst).cyc.toNat →
      getKey s.hub.overflowAreas x.tn = none → ∃ t, exec (.messageDivert x.dst) s = .next t ∧ t.cores = s.cores ∧
        t.hub.lostNoArea = s.hub.lostNoArea + 1 ∧ ∀ y ∈ t.net, y.id = x.id → y.phase = .acked)

/-- R261, R262, with the model's choice that the cycle of the message's arrival comes first (log 57): a pending event is taken at a slot of its thread: `evpc` holds the pc, `evcause` the active bit with the header, the pc is
`evvec`, and no general register changes; a wait that an event may end is abandoned for it once the cycle in which the message arrived is over, unless
its waking event has come; EVON and EVOFF set and clear the enable, EVRET clears `evcause`[63] and jumps to `evpc`; outside a
handler EVRET raises *operand invalid*. -/
def Obligations.UserEvents : Prop :=
  ∀ (s : State) (m : Message), s.Placed →
    let c := s.thr.ctl
    (s.cur.pendingEvent s.tid = some m → s.thr.status = .ready → s.thr.readyAt ≤ s.cur.cyc.toNat →
      ∃ t, exec (.eventEntry s.core s.tid) s = .next t ∧ t.thr.pc = c.evvec ∧ t.thr.status = .ready ∧
        t.thr.ctl = { c with evpc := s.thr.pc, evcause := (1 <<< 63) ||| word (bits m.hdr 49 0) } ∧ t.thr.g = s.thr.g ∧ t.thr.gs = s.thr.gs ∧
        t.cur.msgq = s.cur.msgq ∧ t.dram = s.dram) ∧
    (∀ w p o, s.cur.pendingEvent s.tid = some m → s.thr.status = .parked w p o →
      (w.eventful = false ∨ s.thr.resume = true ∨ s.cur.cyc.toNat ≤ m.at_ → exec (.eventEntry s.core s.tid) s = .next s) ∧
      (w.eventful = true → s.thr.resume = false → m.at_ < s.cur.cyc.toNat →
        ∃ t, exec (.eventEntry s.core s.tid) s = .next t ∧ t.thr.pc = c.evvec ∧ t.thr.status = .ready ∧ t.thr.progress = Progress.none ∧
          t.thr.ctl = { c with evpc := s.thr.pc, evcause := (1 <<< 63) ||| word (bits m.hdr 49 0) } ∧ t.thr.g = s.thr.g ∧ t.thr.gs = s.thr.gs ∧
          t.cur.lm = s.cur.lm ∧ t.dram = s.dram)) ∧
    (s.cur.pendingEvent s.tid = none → exec (.eventEntry s.core s.tid) s = .next s) ∧
    (s.det = false → SetsCtl .evon s 2 { c with evmask := c.evmask ||| 0x8000000000000000 }) ∧
    (s.det = true → exec .evon s = .next (s.trapSt 0x0D 0)) ∧
    SetsCtl .evoff s 2 { c with evmask := c.evmask &&& 0x7FFFFFFFFFFFFFFF } ∧
    (c.evcause.getLsbD 63 = false → exec .evret s = .next (s.trapSt 0x05 c.evcause)) ∧
    (c.evcause.getLsbD 63 = true → c.evpc.toNat % 4 ≠ 0 → exec .evret s = .next (s.trapSt 0x02 c.evpc)) ∧
    (c.evcause.getLsbD 63 = true → c.evpc.toNat % 4 = 0 → 0x3FFFC < c.evpc.toNat → exec .evret s = .next (s.trapSt 0x03 c.evpc)) ∧
    (c.evcause.getLsbD 63 = true → LegalPc c.evpc → ∃ t, exec .evret s = .next t ∧ s.OnlyThread t ∧ s.Jumped t 4 c.evpc ∧
      t.thr.holds = ({ s.thr with buf := [], ctl := { c with evcause := c.evcause &&& 0x7FFFFFFFFFFFFFFF } } : Thread).holds)

/-- R50, R51, R250: a governed wait that has lasted `waitlim` cycles ends in a *wait expired* trap at its instruction, with the reason and the
object of the wait; one that has not lasted so long goes on.  The trap is taken when the whole cycle of the expiry is over, since an event of
that cycle wins (log 57); its handler is eligible 4 cycles after the expiry. -/
def Rules.WaitExpires : Prop :=
  ∀ (s : State) (core tid : Nat) (w : Park) (since o : Nat), tid < 16 →
    let t := (s.coreAt core).thr tid
    let at_ : State := { s with core := core, tid := tid }
    let ends := since + t.ctl.waitlim.toNat
    t.status = .parked w since o → t.resume = false → t.ctl.waitlim ≠ 0 →
    (w.limited = true → ends < (s.coreAt core).cyc.toNat →
      exec (.waitExpired core tid) s = .next ((at_.trapSt 0x08 (match w with
        | .landing li _ => word (1 + li * 2 ^ 8)
        | .window c => word (2 + c * 2 ^ 8)
        | .message _ => 3
        | .wake => 4
        | .counter a _ => word (5 + a * 2 ^ 16)
        | .version _ v => word (6 + v % 2 ^ 32 * 2 ^ 16)
        | .barrier sc => word (7 + sc * 2 ^ 8)
        | _ => 0)).updThrAt core tid (fun t => { t with readyAt := ends + 4 }))) ∧
    ((s.coreAt core).cyc.toNat ≤ ends → exec (.waitExpired core tid) s = .next s)

/-! ### Threads, deques, tasks (R54 to R57, R353 to R361) -/

/-- R54, R55, R57: YIELD only takes its 16 cycles; PARK consumes a set wake bit, and else parks with reason *Wake*; a WAKE of a thread of its
launch on the core sets that thread's wake bit and ends its PARK. -/
def Rules.YieldParkWake : Prop :=
  ∀ (s : State) (a : Reg) (k : Nat), s.Placed →
    let x := s.rd a
    let t := bits x 3 0
    Passes .yield s 16 ∧
    (s.thr.wake = true → EndsFrom .park s (s.updThr (fun t => { t with wake := false })) 2) ∧
    (s.thr.wake = false → exec .park s = .next (s.parkSt .wake)) ∧
    (bits x 63 18 = 0 → bits x 17 4 = s.core → s.core ≤ 9215 → t ≠ 15 → t ≠ s.tid → s.curLaunch = some k →
      (∃ q, (s.cur.thr t).task = some q ∧ q.lnum = k) → ∃ u, Completes (.wake a) s u ∧ s.Done u 2 ∧ u.thr.holds = s.thr.holds ∧
        (u.cur.thr t).wake = true ∧ (∀ p o, (s.cur.thr t).status = .parked .wake p o → (u.cur.thr t).resume = true) ∧ u.dram = s.dram)

/-- R197, R204, R205, R212, R217: fences, and waits on counters. -/
def Obligations.FencesAndWaits : Prop := Rules.Fences ∧ Rules.FenceTraps ∧ Rules.WaitGe

/-- R206, R208, R209: arrival at a barrier, and the combination of contributions. -/
def Obligations.BarrierArrivals : Prop := Rules.BarrierArrival ∧ Rules.BarrierCombine

/-- R207 to R209: release of a barrier, and completion of its participants. -/
def Obligations.BarrierGenerations : Prop := Rules.BarrierCompletes ∧ Rules.BarrierReleases

/-- R242, R243, R246: landing registers and their holder. -/
def Obligations.Landing : Prop := Rules.LandingRegisters ∧ Rules.LandingHolder

/-- R199, R245, R249, R254: posted writes to other cores. -/
def Obligations.RemoteWriting : Prop := Rules.RemoteWrites ∧ Rules.RemoteWriteWaits

/-- R199, R205, R244, R247: posted writes at their destination, and their answers. -/
def Obligations.Deliveries : Prop := Rules.WriteDelivery ∧ Rules.WriteAnswers

/-- R252, R255, R257, R258: message queues. -/
def Obligations.Messages : Prop := Rules.Receive ∧ Rules.MessageArrivals

/-- R50, R51, R54, R55, R57, R250: YIELD, PARK, WAKE, and waits that expire. -/
def Obligations.WaitsAndWakes : Prop := Rules.WaitExpires ∧ Rules.YieldParkWake

/-! ### Deques, tasks and launches (R337 to R361) -/

/-- The state with `n` added to the outstanding count of a launch on the current die (R351). -/
def Counted (s : State) (k : Nat) (n : Int) : State :=
  { s with hub := { s.hub with launches := s.hub.launches.map (fun y =>
      if y.lnum = k then { y with counts := y.counts.map (fun e => if e.1 = dieOf s.core then (e.1, ((e.2 : Int) + n).toNat) else e) } else y) } }

/-- The state in which the current task of a launch has ended: its count has fallen, and the task is one that has retired (R351, R355). -/
def TaskGone (s : State) (k : Nat) : State :=
  let u := Counted s k (-1)
  { u with hub := { u.hub with launches := u.hub.launches.map (fun y =>
      if y.lnum = k then { y with retired := s.thr.ctl.taskid.toNat :: y.retired } else y) } }

/-- A deque instruction has completed: `x` is in `d`, the core's deque is `deque`, `n` tasks of launch `k` are added to its count, the bytes
given stand at LM address `a`, and nothing else changes, but that a counter which waits on a written word looks again. -/
structure DequeRun (s t : State) (d : Reg) (x : Word) (deque : List TaskRec) (k : Nat) (n : Int) (a : Nat) (bytes : List Byte) : Prop where
  done : s.Done t 4
  reg : s.SetReg t d x
  deque : t.cur.deque = deque
  hub : t.hub = (Counted s k n).hub
  bytes : ∀ b, LmByte t b = if a ≤ b ∧ b < a + bytes.length then bytes.getD (b - a) 0 else LmByte s b
  package : ({ t with cores := s.cores, hub := s.hub } : State) = s
  cores : ∀ c, c ≠ s.core → t.coreAt c = s.coreAt c
  core : ({ t.cur with threads := s.cur.threads, lm := s.cur.lm, badLm := s.cur.badLm, spills := s.cur.spills, deque := s.cur.deque,
                       held := s.cur.held } : Core) = s.cur
  threads : ∀ j, j ≠ s.tid → ({ t.cur.thr j with resume := (s.cur.thr j).resume } : Thread) = s.cur.thr j
  thread : t.thr.holds = ({ s.thr with g := t.thr.g, gs := t.thr.gs } : Thread).holds

/-- A field of LM as a number (R346). -/
def LmField (s : State) (a n : Nat) : Nat := natOfBytes ((List.range n).map (fun j => LmByte s (a + j)))

/-- The deque instructions outside deterministic operation, for a thread of an active launch. -/
def Rules.DequeInstructions : Prop :=
  ∀ (s : State) (d a : Reg) (k : Nat) (l : Launch), s.Placed → s.det = false → s.curLaunch = some k → s.launchAt k = some l →
    let x := (s.rd a).toNat
    let q := s.cur.deque
    let run := fun (i : Instr) (y : Nat) (q' : List TaskRec) (n : Int) (bytes : List Byte) =>
      ∃ t, Completes i s t ∧ DequeRun s t d (word y) q' k n x bytes
    let lo := LmField s (x + 4) 4
    let hi := LmField s (x + 8) 4
    let tag := (s.thr.task.map (·.tag)).getD (l.tag.getD 0)
    (x % 32 = 0 → LmMay s false x 32 → lo < hi → LmField s (x + 12) 4 = 0 →
      (q.length < 64 → run (.dqpush d a) 1 (⟨tag, k, lo, hi, word (LmField s (x + 16) 8), word (LmField s (x + 24) 8)⟩ :: q)
        ((hi : Int) - lo) []) ∧
      (64 ≤ q.length → run (.dqpush d a) 0 q 0 [])) ∧
    (∀ pre r post, q = pre ++ r :: post → r.lnum = k → (∀ e ∈ pre, e.lnum ≠ k) →
      let m := r.hi - r.lo
      let mid := r.lo + (m + 1) / 2
      (x % 32 = 0 → LmMay s true x 32 → run (.dqpop d a) 1 (pre ++ post) (-((r.hi : Int) - r.lo))
        (bytesOfNat 2 r.tag ++ bytesOfNat 2 r.lnum ++ bytesOfNat 4 r.lo ++ bytesOfNat 4 r.hi ++ bytesOfNat 4 0 ++
          bytesOfNat 8 r.fmtp.toNat ++ bytesOfNat 8 r.sclp.toNat)) ∧
      (2 ≤ m → q.length < 64 → run (.dqsplit d) (m / 2) (pre ++ { r with hi := mid } :: post ++ [{ r with lo := mid }]) 0 []) ∧
      (m < 2 ∨ 64 ≤ q.length → run (.dqsplit d) 0 q 0 [])) ∧
    ((∀ e ∈ q, e.lnum ≠ k) → run (.dqsplit d) 0 q 0 [] ∧ (x % 32 = 0 → LmMay s true x 32 → run (.dqpop d a) 0 q 0 []))

/-- DQSTEAL and TSEND, which name a core of the die; DQSTEAL first parks with reason *Global reply* until the steal network has answered (log 7). -/
def Rules.DequeTransfers : Prop :=
  ∀ (s : State) (d a b : Reg) (k : Nat) (l : Launch), s.Placed → s.det = false → s.curLaunch = some k → s.launchAt k = some l →
    let w := s.rd a
    let v := bits w 17 4
    let q := s.cur.deque
    let x := (s.rd b).toNat
    let lo := LmField s (x + 4) 4
    let hi := LmField s (x + 8) 4
    let tag := (s.thr.task.map (·.tag)).getD (l.tag.getD 0)
    let served := s.thr.progress.ask = .served
    bits w 63 18 = 0 → bits w 3 0 = 0 → v ≤ 9215 → dieOf v = dieOf s.core → (l.pkt.flags.testBit 3 = true → inRect l.pkt.rect v = true) →
    (Idle s → Asks (.dqsteal d a) s) ∧
    (∀ pre r post, served → v ≠ s.core → (s.coreAt v).deque = pre ++ r :: post → r.lnum = k → (∀ e ∈ post, e.lnum ≠ k) → q.length < 64 →
      let m := r.hi - r.lo
      ∃ t, Completes (.dqsteal d a) s t ∧ s.Done t 4 ∧ s.SetReg t d (word (m - m / 2)) ∧
        t.cur.deque = { r with lo := r.lo + m / 2 } :: q ∧
        (t.coreAt v).deque = pre ++ (if m / 2 = 0 then [] else [{ r with hi := r.lo + m / 2 }]) ++ post ∧
        ({ t with cores := s.cores } : State) = s ∧ (∀ c, c ≠ s.core → c ≠ v → t.coreAt c = s.coreAt c) ∧
        (t.coreAt v).threads = (s.coreAt v).threads ∧ t.cur.lm = s.cur.lm ∧
        t.thr.holds = ({ s.thr with g := t.thr.g, gs := t.thr.gs } : Thread).holds) ∧
    (served → (∀ e ∈ (s.coreAt v).deque, e.lnum ≠ k) ∨ 64 ≤ q.length → Writes (.dqsteal d a) s 4 d 0 s.thr.ctl) ∧
    (x % 32 = 0 → LmMay s false x 32 → lo < hi → LmField s (x + 12) 4 = 0 → s.cur.out.length < 64 →
      EndsFrom (.tsend b a) s (Sent s (Counted s k ((hi : Int) - lo)) v
        (.record ⟨tag, k, lo, hi, word (LmField s (x + 16) 8), word (LmField s (x + 24) 8)⟩)) 4)

/-- R353, R346, R357 to R360: DQPUSH puts the record in LM on the core's deque and adds its tasks to the launch's count; DQPOP takes the record
of its launch nearest the owner end into LM; DQSPLIT moves its upper half to the far end; DQSTEAL takes the upper half of the farthest record of
a victim; TSEND sends a record to another core; without a record, or with a full deque, they write 0 and change nothing.  When a steal is performed is
the model's choice (log 7). -/
def Obligations.Deques : Prop := Rules.DequeInstructions ∧ Rules.DequeTransfers

/-- Everything that R355 drains is done: no posted reduction and no remote write of the thread is outstanding. -/
def Drained (s : State) : Prop := s.myReds = [] ∧ s.myWrites (fun _ => true) = []

/-- TRET: the end of a task. -/
def Rules.TaskEnds : Prop :=
  ∀ (s : State), s.Placed → Drained s →
    let v := s.updCtl (fun c => { c with trapcause := c.trapcause &&& 0x7FFFFFFFFFFFFFFF })
    let u := v.fireRelease
    u.jam = false → u.pushing = false → u.thr = v.thr → u.core = s.core → u.tid = s.tid →
    (s.thr.task = none → EndsFrom .tret s u 4) ∧
    (∀ k, s.thr.task = some k → s.tid < 15 → s.thr.ctl.det ≠ 1 → ∃ t, exec .tret s = .next t ∧
      t.thr.status = .free ∧ t.thr.task = none ∧ t.thr.drops = [] ∧ t.hub.launches = (TaskGone u k.lnum).hub.launches ∧
      t.cur.msgq = u.cur.msgq.filter (fun m => bits m.hdr 41 38 ≠ s.tid) ∧ t.cur.lm = u.cur.lm ∧
      (∀ j, j ≠ s.tid → t.cur.thr j = u.cur.thr j)) ∧
    (∀ k i rest l, s.thr.task = some k → s.tid < 15 → s.thr.ctl.det = 1 → k.todo = i :: rest → u.launchAt k.lnum = some l →
      let x := u.cur.slotAt s.thr.ctl.kslot.toNat
      ∃ t, exec .tret s = .next t ∧ t.thr.status = .ready ∧ t.thr.task = some ⟨l.lnum, x.tag, rest⟩ ∧ t.thr.ctl.taskid = word i ∧
        t.thr.pc = word (x.base + x.entry) ∧ t.hub.launches = (TaskGone u k.lnum).hub.launches)

/-- DQNEXT: the thread goes on with the next task of its launch. -/
def Rules.TaskGoesOn : Prop :=
  ∀ (s : State) (d : Reg) (k : Task) (l : Launch), s.Placed → Drained s → s.thr.task = some k → s.launchAt k.lnum = some l → s.tid < 15 →
    s.thr.ctl.det ≠ 1 →
    (∀ pre r post, s.cur.deque = pre ++ r :: post → r.lnum = k.lnum → (∀ e ∈ pre, e.lnum ≠ k.lnum) →
      ∃ t, Completes (.dqnext d) s t ∧ s.Done t 4 ∧ s.SetReg t d 1 ∧
        t.cur.deque = pre ++ (if r.lo + 1 < r.hi then [{ r with lo := r.lo + 1 }] else []) ++ post ∧
        t.hub.launches = (TaskGone s k.lnum).hub.launches ∧ t.thr.wake = false ∧ t.thr.drops = [] ∧ t.cur.lm = s.cur.lm ∧
        t.thr.v = s.thr.v ∧ t.thr.k = s.thr.k ∧
        t.thr.ctl = { s.thr.ctl with
          taskid := word r.lo, tasklo := word (r.lo * l.pkt.chunk), taskhi := word (min ((r.lo + 1) * l.pkt.chunk) l.pkt.total),
          launch := word (l.lnum * 2 ^ 48 + l.queue * 2 ^ 32 + l.seq), fmtp := r.fmtp, sclp := r.sclp,
          kslot := word s.thr.ctl.kslot.toNat,
          seed := if 0x2545F4914F6CDD1D ^^^ word r.lo = 0 then 0x2545F4914F6CDD1D else 0x2545F4914F6CDD1D ^^^ word r.lo }) ∧
    ((∀ e ∈ s.cur.deque, e.lnum ≠ k.lnum) → Writes (.dqnext d) s 4 d 0 s.thr.ctl)

/-- LAUNCH: it releases at package scope, sends its request and parks with reason *Global reply*; when the hub has answered (log 7), the packet at
g[ra] goes to the queue that g[rb] names: to its FIFO, or to its backing ring in memory (R339), there at the place of its sequence number modulo the
ring's entries (log 56). -/
def Rules.LaunchSubmits : Prop :=
  ∀ (s u : State) (d a b : Reg), s.Placed → s.det = false →
    let x := (s.rd a).toNat
    let n := (s.rd b).toNat
    let q := s.hub.queue n
    let seq := if q.seq = 0xFFFFFFFF then 1 else q.seq + 1
    x % 64 = 0 → n ≤ 16383 → LmMay s false x 64 →
    (Idle s → s.release (dieOf s.core) false = some u → u.cur.threads = s.cur.threads → u.cur.cyc = s.cur.cyc → u.core = s.core → u.tid = s.tid →
      ∃ t o, exec (.launch d a b) s = .next t ∧ t.thr.status = .parked .reply s.cur.cyc.toNat o ∧ t.thr.pc = s.thr.pc ∧
        t.thr.progress.ask = .sent ∧ t.dies = u.dies ∧ t.dram = u.dram) ∧
    (Idle s → s.release (dieOf s.core) false = none → exec (.launch d a b) s = .next (s.parkSt .drain)) ∧
    (s.thr.progress.ask = .served →
      (q.tenancy ≠ s.tn → EndsFrom (.launch d a b) s (s.wr d 0x8000000000000000) 4) ∧
      (q.tenancy = s.tn → q.opened = true → q.fifo.length + q.ring.length < q.entries →
        ∃ t p, Completes (.launch d a b) s t ∧ s.Done t 4 ∧ s.SetReg t d (word seq) ∧ (t.hub.queue n).seq = seq ∧
          (t.hub.queue n).fifo ++ (t.hub.queue n).ring = q.fifo ++ q.ring ++ [⟨p, seq, s.hub.now⟩] ∧
          p.kernel = LmField s x 8 ∧ p.n0 = LmField s (x + 8) 4 ∧ p.n1 = LmField s (x + 12) 4 ∧ p.n2 = LmField s (x + 16) 4 ∧
          p.chunk = LmField s (x + 20) 4 ∧ p.args = LmField s (x + 24) 8 ∧ p.fmtp = word (LmField s (x + 32) 8) ∧
          p.sclp = word (LmField s (x + 40) 8) ∧ p.dies = LmField s (x + 48) 1 ∧ p.prio = LmField s (x + 49) 1 ∧
          p.flags = LmField s (x + 50) 1 ∧ p.rect = LmField s (x + 52) 4 ∧ p.done = LmField s (x + 56) 8 ∧ t.cur.lm = s.cur.lm ∧
          (if q.state = .mapped ∧ q.ring = [] ∧ q.fifo.length < 16 then t.dram = s.dram
           else t.paBytes (q.backing + 64 * (seq % q.entries)) 64 = s.cur.lmBytes x 64)) ∧
      (q.tenancy = s.tn → q.opened = false ∨ q.entries ≤ q.fifo.length + q.ring.length →
        ∃ t, Completes (.launch d a b) s t ∧ s.Done t 4 ∧ s.SetReg t d 0x8000000000000000 ∧ (t.hub.queue n).dropped = q.dropped + 1))

/-- R340, R355, R356, R361: TRET clears `trapcause`[63], drains and ends its task: the thread is Free (a deterministic one begins the next task
of its list, and a thread without a task goes on, which is the model's choice, log 45), the count of the launch falls by one; DQNEXT ends the task and takes the first task of the
nearest record of its launch, or writes 0; LAUNCH queues a packet and gives its sequence number, or 2^63 where the queue does not take it.  When the
hub takes the packet (log 7) and the place of a packet in the backing ring (log 56) are the model's choices. -/
def Obligations.TaskInstructions : Prop := Rules.TaskEnds ∧ Rules.TaskGoesOn ∧ Rules.LaunchSubmits

/-- Placing, stealing and lending of threads. -/
def Rules.TaskRows : Prop :=
  ∀ (s : State) (c t k : Nat) (l : Launch) (slot : Nat) (r : TaskRec), t < 15 →
    let core := s.coreAt c
    (bestLaunch (s.placeable c) = some (l, slot) → core.freeThread = some t → l.pkt.isDet = false → core.ownRec l.lnum = some r →
      ∃ u, exec (.taskDispatch c) s = .next u ∧
        let y := (u.coreAt c).thr t
        y.status = .ready ∧ y.task = some ⟨l.lnum, (core.slotAt slot).tag, []⟩ ∧ y.system = (core.slotAt slot).system ∧
        y.pc = word ((core.slotAt slot).base + (core.slotAt slot).entry) ∧
        (∀ i : Nat, i < 32 → y.g[i]? = some (if i = 3 then word l.pkt.args else 0)) ∧
        y.ctl.taskid = word r.lo ∧ y.ctl.tenancy = word l.tn ∧ y.ctl.fmtp = r.fmtp ∧ y.ctl.sclp = r.sclp ∧ y.ctl.trapcause = 0 ∧
        (u.coreAt c).deque = replaceRec l.lnum (if r.lo + 1 < r.hi then [{ r with lo := r.lo + 1 }] else []) core.deque ∧
        (∀ j, j ≠ t → (u.coreAt c).thr j = core.thr j) ∧ (u.coreAt c).lm = core.lm ∧ u.dram = s.dram) ∧
    (s.placeable c = [] ∨ (core.freeThread = none ∧ ∀ e ∈ s.placeable c, e.1.pkt.isDet = false) → exec (.taskDispatch c) s = .next s) ∧
    (∀ v pre post, s.launchAt k = some l → s.maySteal c l = true → l.pkt.flags.testBit 3 = false → v ≠ c → dieOf v = dieOf c →
      (s.coreAt v).deque = pre ++ r :: post → r.lnum = k → (∀ e ∈ pre ++ post, e.lnum ≠ k) → r.lo < r.hi →
      (∀ w, w ≠ c → w ≠ v → dieOf w = dieOf c → ∀ e ∈ (s.coreAt w).deque, e.lnum = k → e.hi - e.lo < r.hi - r.lo ∨
        (e.hi - e.lo = r.hi - r.lo ∧ v < w)) → core.deque.length < 64 →
      let m := r.hi - r.lo
      ∃ u, exec (.taskSteal c k) s = .next u ∧ (u.coreAt c).deque = { r with lo := r.lo + m / 2 } :: core.deque ∧
        (u.coreAt v).deque = pre ++ (if m / 2 = 0 then [] else [{ r with hi := r.lo + m / 2 }]) ++ post ∧
        (u.coreAt c).threads = core.threads ∧ u.dram = s.dram ∧ u.hub = s.hub) ∧
    ((∀ j, j < 15 → (core.thr j).status ≠ .free) → core.spillCandidate t = true → (s.setCore c (core.spill t)).placeable c ≠ [] →
      (∀ j, j < 15 → j ≠ t → core.spillCandidate j = false) →
      ∃ u y, exec (.contextSpill c t) s = .next u ∧ ((u.coreAt c).thr t).status = .free ∧ ((u.coreAt c).thr t).task = none ∧
        (∀ k l, (core.thr t).task = some k → s.launchAt k.lnum = some l → s.reservedFrom (dieOf c) l = false → getKey (u.coreAt c).marks k.lnum = none) ∧
        y ∈ (u.coreAt c).spills ∧ y.tid = t ∧ y.thread = core.thr t ∧ y.valid = true ∧ y.ready = false ∧ (u.coreAt c).lm = core.lm) ∧
    (∀ y, (core.thr t).status = .free → core.spills.find? (fun z => z.valid && z.ready && z.tid == t) = some y →
      ∃ u, exec (.contextRestore c t) s = .next u ∧
        let z := (u.coreAt c).thr t
        z.g = y.thread.g ∧ z.gs = y.thread.gs ∧ z.v = y.thread.v ∧ z.k = y.thread.k ∧ z.ctl = y.thread.ctl ∧ z.pc = y.thread.pc ∧
        z.task = y.thread.task ∧ z.handles = y.thread.handles ∧ z.status = (match y.thread.status with
          | .stopped _ => .ready
          | w => w) ∧ (y.thread.parkOf.isSome = true → z.resume = true) ∧
        (∀ x ∈ (u.coreAt c).spills, x.tid = t → x.valid = false))

/-- A forced stop, and the images of a core. -/
def Rules.ImageRows : Prop :=
  ∀ (s : State) (c t k n i since : Nat) (l : Launch), t < 15 →
    let core := s.coreAt c
    (s.launchAt k = some l → getKey core.marks k = some since → since + s.markLimit c l ≤ s.hub.now → s.mustYield c l = true →
      (core.thr t).status = .ready → (core.thr t).task.any (fun x => x.lnum == k) = true →
      (∀ j, j < 15 → j ≠ t → (core.thr j).task.any (fun x => x.lnum == k) = false) → (core.thr t).resume = false →
      s.hub.freeRecord = some n → s.reservedFrom (dieOf c) l = false → ∃ u, exec (.forcedPreemption c k) s = .next u ∧ ((u.coreAt c).thr t).status = .free ∧
        (∃ y, u.hub.pool = s.hub.pool ++ [(c, y)] ∧ y.tid = t ∧ y.record = n ∧ y.thread = core.thr t ∧ y.ready = true) ∧
        getKey (u.coreAt c).marks k = none) ∧
    (∀ y, core.loading = some y → i ∈ y.victims → s.slotUsers c i = 0 → i < 16 → ∃ u, exec (.imageEvict c i) s = .next u ∧
      ((u.coreAt c).slotAt i).state = 0 ∧ (∀ e ∈ (u.coreAt c).attrs, e.2 ≠ .code i) ∧ (u.coreAt c).lm = core.lm ∧ u.dram = s.dram) ∧
    (∀ y, core.loading = some y → i ∈ y.victims → s.slotUsers c i ≠ 0 → exec (.imageEvict c i) s = .next s) ∧
    (∀ s1 a hd, core.loading = none → s.launchAt k = some l → l.ended = false → (∃ r ∈ core.deque, r.lnum = k ∧ core.slotOfRec l r = none) →
      s.hub.waitsAt (.image c k) = false → s.hubBytes (dieOf c) l.tn l.pkt.kernel 64 = (s1, a, hd) →
      let tag := natOfBytes ((hd.drop 8).take 2)
      let goes := fun (t : State) => exec (.imageLoad c k) s = .next t
      (a = .hold .migrate → goes { s with hub := { s.hub with waits := s.hub.waits ++ [⟨.image c k, l.tn, l.pkt.kernel + hd.length⟩] } }) ∧
      (a = .ok → ∀ j, l.tag = none → core.slotOf tag = some j → goes (s1.learnTag c k tag (core.slotAt j).threads)) ∧
      (a = .ok → (l.tag ≠ none ∨ core.slotOf tag = none) → (parseHeader hd = none → goes (s1.abortLaunch k 2)) ∧
      (∀ x s2 img, parseHeader hd = some x →
        (core.slotOf x.tag ≠ none → goes (s1.learnTag c k x.tag x.threads)) ∧
        (core.slots = [] → s1.hubBytes (dieOf c) l.tn l.pkt.kernel (x.code + x.dbytes) = (s2, .ok, img) → (s2.coreAt c).slots = [] →
          ∃ u, goes u ∧ ((u.coreAt c).slotAt 0).state = 1 ∧ ((u.coreAt c).slotAt 0).tag = x.tag ∧
            (u.coreAt c).loading = some ⟨k, x, img, [], some 0⟩ ∧ (u.coreAt c).lm = (s2.coreAt c).lm)))) ∧
    (∀ y, core.loading = some y → y.lnum = k → y.victims = [] → y.at_ = some i → i < 16 → y.slot.dbytes = 0 → y.slot.code ≤ y.image.length →
      ∃ u, exec (.imageLoad c k) s = .next u ∧ (u.coreAt c).slotAt i = { y.slot with used := core.order } ∧ (u.coreAt c).loading = none ∧
        ∀ b, b < y.slot.code → memGet lmDefault (u.coreAt c).lm (y.slot.base + b) = y.image.getD b 0)

/-- R49, R53, R60, R62, R141, R345, R348 to R350, R387, R389: TASK_DISPATCH places the first task of the nearest record of the best launch on
the lowest Free thread with its registers as dispatch gives them; TASK_STEAL takes the upper half of the largest record on the die;
CONTEXT_SPILL and CONTEXT_RESTORE move a parked context out of and back to its thread, where a stopped one is Ready, and a thread that a launch
gives up ends its mark on the core; FORCED_PREEMPTION stops a thread and puts its context
into the pool; IMAGE_LOAD reads an image that is not resident, marks a slot as loading and then writes the image there, and ends the launch of a bad one; a
launch whose tag is not known has its header read first, and one whose image is resident takes its tag from there (log 44, the model's choice); a read that a
migrating leaf holds waits for its release (R167); IMAGE_EVICT empties an unused victim's slot. -/
def Obligations.CoreTasks : Prop := Rules.TaskRows ∧ Rules.ImageRows

/-- Packets and queues. -/
def Rules.QueueRows : Prop :=
  ∀ (s : State) (n off : Nat) (l : List Byte),
    let q := s.hub.queue n
    let f := fun (o k : Nat) => natOfBytes ((l.drop o).take k)
    let goes := fun (i : Instr) (x : Queue) => ∃ t, exec i s = .next t ∧ t.hub.queue n = x ∧ t.cores = s.cores ∧ t.dram = s.dram ∧
      ∀ m, m ≠ n → t.hub.queue m = s.hub.queue m
    let seq := if q.seq = 0xFFFFFFFF then 1 else q.seq + 1
    (s.hub.sealed = false → l.length = 64 → off % 64 = 0 → q.opened = true → q.state = .mapped → q.ring = [] → q.fifo.length < 16 →
      q.fifo.length < q.entries → ∃ p, (p.kernel = f 0 8 ∧ p.n0 = f 8 4 ∧ p.n1 = f 12 4 ∧ p.n2 = f 16 4 ∧ p.chunk = f 20 4 ∧ p.args = f 24 8 ∧
        p.fmtp = word (f 32 8) ∧ p.sclp = word (f 40 8) ∧ p.dies = f 48 1 ∧ p.prio = f 49 1 ∧ p.flags = f 50 1 ∧ p.rsvd = f 51 1 ∧ p.rect = f 52 4 ∧
        p.done = f 56 8) ∧ goes (.packetArrival n off l) { q with
        seq := seq, active := s.hub.now, fifo := q.fifo ++ [⟨p, seq, s.hub.now⟩], headAt := if q.fifo = [] then s.hub.now else q.headAt }) ∧
    (s.hub.sealed = false → l.length ≠ 64 ∨ off % 64 ≠ 0 ∨ q.opened = false ∨ q.entries ≤ q.fifo.length + q.ring.length →
      goes (.packetArrival n off l) { q with dropped := q.dropped + 1 }) ∧
    (q.opened = true → q.state = .mapping → s.hub.queues = [q] → q.num = n → q.fifo = [] →
      goes (.queueSlotMap n) { q with fifo := q.ring.take 16, ring := q.ring.drop 16, state := .mapped, slot := 0, headAt := s.hub.now }) ∧
    (q.opened = true → q.state = .mapped → goes (.queueSlotEvict n) { q with state := .unmapping }) ∧
    (q.opened = true → q.state = .unmapping → q.fifo = [] → q.ring = [] → goes (.queueSlotEvict n) { q with state := .unmapped }) ∧
    (q.opened = false → goes (.queueOpen n) { q with opened := true, state := .unmapped, seq := 0, dropped := 0, fifo := [], ring := [] }) ∧
    (q.opened = true → goes (.queueClose n) { q with opened := false, dropped := q.dropped + q.fifo.length + q.ring.length, fifo := [], ring := [] })

/-- Dispatch, distribution and retirement of a launch. -/
def Rules.LaunchRows : Prop :=
  ∀ (s : State) (k d : Nat) (l : Launch) (x : Queue × Pending),
    (s.hub.heads = [x] → s.hub.owed = [] → s.eligible x = true → x.2.pkt.dieList ≠ [] → s.hub.launches = [] →
      ∃ t y, exec .launchDispatch s = .next t ∧ t.hub.launches = [y] ∧ y.lnum = 0 ∧ y.queue = x.1.num ∧ y.seq = x.2.seq ∧ y.pkt = x.2.pkt ∧
        y.tag = none ∧ y.ended = false ∧ y.todo.map (·.1) = x.2.pkt.dieList ∧ (y.counts.map (·.2)).sum = x.2.pkt.tasks ∧ t.cores = s.cores) ∧
    (s.launchAt k = some l → getKey l.todo d = some 0 → d ∉ l.out →
      ((∀ e ∈ l.pkt.seeds d, (s.coreAt e.1).deque.length < 64 ∧ s.firstRecord e.1 = none) →
        ∃ t, exec (.launchDistribute k d) s = .next t ∧
          (∀ e ∈ l.pkt.seeds d, (t.coreAt e.1).deque = ⟨l.tag.getD 0, k, e.2.1, e.2.2, l.pkt.fmtp, l.pkt.sclp⟩ :: (s.coreAt e.1).deque) ∧
          (∀ c, (∀ e ∈ l.pkt.seeds d, e.1 ≠ c) → t.coreAt c = s.coreAt c) ∧ t.dram = s.dram) ∧
      (∀ e rest, l.pkt.seeds d = e :: rest → 64 ≤ (s.coreAt e.1).deque.length → (∀ t ∈ l.stuck, t.1 ≠ e.1) →
        exec (.launchDistribute k d) s = .next (s.updLaunch k (fun y => { y with stuck := setKey y.stuck e.1 (s.coreAt e.1).cyc.toNat })))) ∧
    (s.hub.heads = [x] → x.2.pkt.valid = false → ∃ t, exec .launchDispatch s = .next t ∧ t.hub.launches = s.hub.launches ∧ t.cores = s.cores ∧
      t.dram = s.dram ∧ t.hub.owed = s.hub.owed ++ (if x.2.pkt.done % 8 = 0 ∧ x.2.pkt.done < 2 ^ 56 then
        [⟨x.1.tenancy, x.2.pkt.done, 2 ^ 63 + 2 ^ 32 + x.2.seq⟩] else [])) ∧
    (∀ s1 s2 why, s.launchAt k = some l → l.todo = [] → (∀ e ∈ l.counts, e.2 = 0) → s.copiesFor k = false → s.hub.waitsAt (.done k) = false →
      (∀ r ∈ s.faults, ¬(r.kind = 9 ∧ r.lnum = some k)) → releaseDies s l.pkt.dieList = some s1 → s1.complete_ (firstDie l.pkt.dies) l.tn l.pkt.done
        ((if l.status = 0 then 0 else 2 ^ 63) + l.status * 2 ^ 32 + l.seq) = (s2, why) →
      (why = none → s2.hub.pool = [] → ∃ t, exec (.launchRetire k) s = .next t ∧ t.launchAt k = none ∧ t.dram = s2.dram) ∧
      (why = some .migrate → exec (.launchRetire k) s =
        .next { s with hub := { s.hub with waits := s.hub.waits ++ [⟨.done k, l.tn, l.pkt.done⟩] } })) ∧
    (s.launchAt k = some l → l.todo ≠ [] ∨ (∃ e ∈ l.counts, e.2 ≠ 0) ∨ (∃ r ∈ s.faults, r.kind = 9 ∧ r.lnum = some k) → exec (.launchRetire k) s = .next s)

/-- R338 to R342, R344, R351: a 64-byte packet at an aligned offset joins an open queue with the next sequence number, anything else is
discarded and counted; queues get, lose, open and close as their records say; LAUNCH_DISPATCH makes the eligible head an active launch, and takes an invalid
one, whose completion word is then due; LAUNCH_DISTRIBUTE seeds the cores of a die with their records, one after the other, and waits at one whose deque is
full; LAUNCH_RETIRE writes the completion word once nothing is left to do and no stop record of the launch waits (R393), or waits for the release of a migrating leaf that holds it (R167).  That a launch has
no tag until an image is read, and the mark of a core at which the seeds wait, are the model's choices (log 44). -/
def Obligations.QueuesAndLaunches : Prop := Rules.QueueRows ∧ Rules.LaunchRows
/-! ### The matrix unit (R291 to R308) -/

/-- A word of an accumulator bank of the current core. -/
def BankWord (s : State) (b i : Nat) : Nat := s.cur.bankWord b i

/-- The inner length that a code names (R33). -/
def KOf : KLen → Nat
  | .k32 => 32
  | .k64 => 64
  | .k128 => 128
  | .k256 => 256

/-- The checks that every matrix command makes (R295, R299): alignment, the shape word, the resume position, and the decode table for c8. -/
def ShapeOk (s : State) (t : MtxTy) (kl : KLen) (sh a b : Word) : Prop :=
  a.toNat % 16 = 0 ∧ b.toNat % 16 = 0 ∧ bits sh 63 49 = 0 ∧ bits sh 23 0 % 16 = 0 ∧ bits sh 47 24 % 16 = 0 ∧
  (sh.getLsbD 48 = true → t = .e4m3 ∨ t = .e5m2 ∨ t = .e2m1 ∨ t = .i8) ∧ bits s.thr.ctl.mrp 2 0 < KOf kl / 32 ∧
  (t = .c8 → s.cur.dtab.getLsbD 0 = true)

/-- A matrix command has been handed over: it is the last in the queue, and its thread is parked on it at its instruction; nothing else
changes. -/
structure HandedOver (s u : State) (m : MatCmd) : Prop where
  parked : ∃ o c, u.thr.status = .parked (.matrix 0) o c
  pc : u.thr.pc = s.thr.pc
  holds : u.thr.holds = s.thr.holds
  begun : u.thr.progress.begun = true
  queue : u.cur.mq = s.cur.mq ++ [m]
  package : ({ u with cores := s.cores } : State) = s
  cores : ∀ c, c ≠ s.core → u.coreAt c = s.coreAt c
  core : ({ u.cur with threads := s.cur.threads, mq := s.cur.mq, order := s.cur.order } : Core) = s.cur
  threads : ∀ j, j ≠ s.tid → u.cur.thr j = s.cur.thr j

/-- R293, R295, R299, R302: MMA, MMAL and MMR that pass their checks join the engine's queue of two with the operands, scales and controls that
their thread holds, and park with reason *Matrix*; with a full queue they park with reason *Engine queue*; MMA begins at `mrp`. -/
def Rules.MatrixIssue : Prop :=
  ∀ (s : State) (t : MtxTy) (kl : KLen) (n : BitVec 2) (d a b : Reg), s.tid < 16 → s.thr.progress = Progress.none →
    let sh := s.rd d
    let x := s.rd a
    let y := s.rd b
    let c := s.thr.ctl
    let cmd := fun (form next : Nat) => (⟨s.tid, form, s.tn, s.curLaunch, t, kl, n.toNat, x, y, sh, c.sclp, c.fcw,
      if t = .c8 then s.cur.table else [], next, 0, .running, [], [], []⟩ : MatCmd)
    let hands := fun (i : Instr) (m : MatCmd) => (s.cur.mq.length < 2 → ∃ u, exec i s = .next u ∧ HandedOver s u m) ∧
      (2 ≤ s.cur.mq.length → exec i s = .next (s.parkSt .engineQueue))
    ShapeOk s t kl sh x y →
    (x.toNat < 2 ^ 56 → y.toNat < 2 ^ 56 → (sh.getLsbD 48 = true → c.sclp.toNat < 2 ^ 56) →
      hands (.mma t kl n d a b) (cmd 0 (bits c.mrp 2 0))) ∧
    ((∀ e ∈ mmalRanges t kl sh x y c.sclp, s.cur.lmCheck s.tid false e.1 e.2 = none) → hands (.mmal t kl n d a b) (cmd 1 (bits c.mrp 2 0))) ∧
    (∀ k l, x.toNat < 2 ^ 56 → y.toNat < 2 ^ 56 → s.curLaunch = some k → s.launchAt k = some l → l.pkt.flags.testBit 3 = true →
      sh.getLsbD 48 = false → rectSide l.pkt.rect = l.pkt.rect / 2 ^ 24 % 256 + 1 - l.pkt.rect / 2 ^ 8 % 256 →
      hands (.mmr t kl n d a b) (cmd 2 0)) ∧
    (x.toNat < 2 ^ 56 → y.toNat < 2 ^ 56 → (∀ k, s.curLaunch = some k → ∀ l, s.launchAt k = some l → l.pkt.flags.testBit 3 = false) →
      sh.getLsbD 48 = false → exec (.mmr t kl n d a b) s = .next (s.trapSt 0x05 (word (s.matRect s.curLaunch))))

/-- The bytes of LM that an MMAL reads: 32 rows of A, K of B, and the scales (R295, R297). -/
def OperandByte (t : MtxTy) (kl : KLen) (sh x y sclp : Word) (a : Nat) : Prop :=
  let w := (mtxTy t).width
  let within := fun (lo n : Nat) => lo ≤ a ∧ a < lo + n
  (∃ i, i < 32 ∧ within (x.toNat + i * bits sh 23 0) (KOf kl * w / 8)) ∨ (∃ k, k < KOf kl ∧ within (y.toNat + k * bits sh 47 24) (4 * w)) ∨
  (sh.getLsbD 48 = true ∧ within sclp.toNat (2 * KOf kl))

/-- R78, R299, R302: the checks of a matrix instruction come in their order, each with its own value. -/
def Rules.MatrixTraps : Prop :=
  ∀ (s : State) (t : MtxTy) (kl : KLen) (n : BitVec 2) (d a b : Reg), s.thr.progress = Progress.none →
    ∀ i ∈ [Instr.mma t kl n d a b, .mmal t kl n d a b, .mmr t kl n d a b],
    let sh := s.rd d
    let x := s.rd a
    let y := s.rd b
    (x.toNat % 16 ≠ 0 → exec i s = .next (s.trapSt 0x02 x)) ∧
    (x.toNat % 16 = 0 → y.toNat % 16 ≠ 0 → exec i s = .next (s.trapSt 0x02 y)) ∧
    (x.toNat % 16 = 0 → y.toNat % 16 = 0 →
      (bits sh 63 49 ≠ 0 ∨ bits sh 23 0 % 16 ≠ 0 ∨ bits sh 47 24 % 16 ≠ 0 → exec i s = .next (s.trapSt 0x05 sh)) ∧
      (sh.getLsbD 48 = true → t ∉ [MtxTy.e4m3, .e5m2, .e2m1, .i8] → exec i s = .next (s.trapSt 0x05 sh)) ∧
      (bits sh 63 49 = 0 → bits sh 23 0 % 16 = 0 → bits sh 47 24 % 16 = 0 → (sh.getLsbD 48 = true → t ∈ [MtxTy.e4m3, .e5m2, .e2m1, .i8]) →
        (KOf kl / 32 ≤ bits s.thr.ctl.mrp 2 0 → exec i s = .next (s.trapSt 0x05 s.thr.ctl.mrp)) ∧
        (bits s.thr.ctl.mrp 2 0 < KOf kl / 32 → t = .c8 → s.cur.dtab.getLsbD 0 = false → exec i s = .next (s.trapSt 0x05 s.cur.dtab)))) ∧
    (ShapeOk s t kl sh x y →
      (i = .mma t kl n d a b ∨ i = .mmr t kl n d a b → (2 ^ 56 ≤ x.toNat → exec i s = .next (s.trapSt 0x0A x)) ∧
        (x.toNat < 2 ^ 56 → 2 ^ 56 ≤ y.toNat → exec i s = .next (s.trapSt 0x0A y)) ∧
        (x.toNat < 2 ^ 56 → y.toNat < 2 ^ 56 → sh.getLsbD 48 = true → 2 ^ 56 ≤ s.thr.ctl.sclp.toNat →
          exec i s = .next (s.trapSt 0x0A s.thr.ctl.sclp))) ∧
      (let bad := fun (q : Nat) => OperandByte t kl sh x y s.thr.ctl.sclp q ∧ (0x40000 ≤ q ∨ s.cur.lmAllowed s.tid false (q / 512) = false)
       ∀ q, i = .mmal t kl n d a b → bad q → (∀ r, bad r → q ≤ r) → exec i s = .next (s.trapSt 0x04 (word q))))

/-- R305, R306: MWAIT goes on when no queued or running command names a bank of its mask, and else parks with reason *Matrix*; MSTAT writes
the bank mask, the number of commands and the thread of the head. -/
def Rules.MatrixStatus : Prop :=
  ∀ (s : State) (d a : Reg), s.Placed →
    let x := s.rd a
    let free := ∀ m ∈ s.cur.mq, x.toNat.testBit m.bank = false
    (bits x 63 4 = 0 → (free → Passes (.mwait a) s 4) ∧ (¬free → exec (.mwait a) s = .next (s.parkSt (.matrix x.toNat)))) ∧
    (bits x 63 4 ≠ 0 → exec (.mwait a) s = .next (s.trapSt 0x05 x)) ∧
    (s.det = true → exec (.mstat d) s = .next (s.trapSt 0x0D 0)) ∧
    (s.det = false → (s.cur.mq = [] → Writes (.mstat d) s 4 d 0 s.thr.ctl) ∧
      (∀ m, s.cur.mq = [m] → Writes (.mstat d) s 4 d (word (2 ^ m.bank * 2 ^ 12 + 1 * 2 ^ 10 + m.tid * 2 ^ 4 + 8)) s.thr.ctl) ∧
      (∀ m m', s.cur.mq = [m, m'] →
        Writes (.mstat d) s 4 d (word ((2 ^ m.bank ||| 2 ^ m'.bank) * 2 ^ 12 + 2 * 2 ^ 10 + m.tid * 2 ^ 4 + 8)) s.thr.ctl))

/-- R291, R293, R295, R299, R302, R305, R306: the matrix instructions hand over their commands, wait for banks and read the engine's state. -/
def Obligations.MatrixInstructions : Prop := Rules.MatrixIssue ∧ Rules.MatrixTraps ∧ Rules.MatrixStatus

/-- What leaves the banks and the registers of the current thread changed, and nothing else, from `u`. -/
def BankRun (s u t : State) (interval : Nat) (changed : Nat → Nat → Option Nat) (ctl : Ctl) : Prop :=
  s.Done t interval ∧ (∀ b i, i < 1024 → BankWord t b i = (changed b i).getD (BankWord s b i)) ∧
  ({ t with cores := s.cores } : State) = s ∧ (∀ c, c ≠ s.core → t.coreAt c = s.coreAt c) ∧
  ({ t.cur with threads := u.cur.threads, banks := u.cur.banks } : Core) = u.cur ∧ (∀ j, j ≠ s.tid → t.cur.thr j = u.cur.thr j) ∧
  t.thr.holds = ({ s.thr with ctl := ctl } : Thread).holds

/-- A bank word as an element of a type, and an element as a bank word (R307): a float converts, an integer clamps, f32 and i32 move. -/
def BankOut (t : ElemTy) (c : Fcw) (r x : Nat) : Fl :=
  if t = .f32 ∨ t = .i32 then ⟨x, 0⟩ else if t.isF then convert t .f32 c r x else clampInt t (intOf 32 x) 0
/-- See `BankOut`. -/
def BankIn (t : ElemTy) (c : Fcw) (x : Nat) : Fl :=
  if t = .f32 ∨ t = .i32 then ⟨x, 0⟩ else if t.isF then convert .f32 t c 0 x else ⟨natOfInt 32 (intOf t.width x), 0⟩
/-- `seed` after `n` steps where a float type other than f32 is moved under SR (R94). -/
def BankSeed (s : State) (t : ElemTy) (n : Nat) : Word := if t.isF = true ∧ t ≠ .f32 then SeedAfter s n else s.thr.ctl.seed

/-- The rows of an ACCSTG that are left have been stored from `u` to `v`, one after the other: each has its sectors in the L1 or its request
answered (log 7), is granted whole without a fault or a hold, and is then stored whole (R172, R191). -/
def RowsDone (row : State → Nat → List Elem) : List Nat → State → State → Prop
  | [], u, v => u = v
  | r :: rest, u, v =>
    let l := row u r
    let g := grantPass true l u
    let q := onePass (writeL1 u.core u.tn) l g.1
    if l.all (fun e => u.thr.progress.elems.contains e.id) = true then RowsDone row rest u v
    else ((u.thr.progress.ask = .served ∧ u.thr.progress.later = []) ∨ ∀ e ∈ l, u.l1Hit u.core u.tn e.va true = true) ∧ Clean g ∧ Clean q ∧
      RowsDone row rest (q.1.updProgress (fun p => { p with ask := .none })) v

/-- R94, R291, R307, R308: ACCZ zeroes a bank; ACCST converts two rows of a bank into a vector register; ACCLD loads two rows from one; ACCSTG
converts the bank in its issue cycle, before it waits for posted reductions, and stores its rows in order, each whole; no other bank word
changes.  That ACCLD takes 64 generator steps under SR, and ACCSTG 1,024, is the model's reading (log 40); when a row is served is its choice
(log 7). -/
def Obligations.AccumulatorMoves : Prop :=
  ∀ (s : State) (t : ElemTy) (n : BitVec 2) (c : VCode) (a b : Reg), s.Placed →
    let p := (s.rd a).toNat
    let f := s.fcw
    let flags := fun (k : Nat) (g : Nat → Fl) => (List.range k).foldl (fun (x : Flags) i => x ||| (g i).fl) 0
    (∃ u, Completes (.accz n) s u ∧ BankRun s s u 8 (fun k _ => if k = n.toNat then some 0 else none) s.thr.ctl) ∧
    ((Instr.accst t n c a).wf = true → WinReady s [] [c] → p ≤ 15 → ∃ u, Completes (.accst t n c a) s u ∧
      WroteVec s (s.claim [] [c]) u 8 c t.width 64 (BitVec.allOnes 256)
        (fun i => BankOut t f (SrWord s i) (BankWord s n.toNat (64 * p + i))) (BankSeed s t (lanes t.width))) ∧
    ((Instr.accld t n c a).wf = true → WinReady s [c] [] → p ≤ 15 →
      let x := fun (i : Nat) => BankIn t f (elem t.width (s.vget c) i)
      ∃ u, Completes (.accld t n c a) s u ∧ BankRun s (s.claim [c] []) u 8
        (fun k i => if k = n.toNat ∧ 64 * p ≤ i ∧ i < 64 * p + 64 then some ((x (i - 64 * p)).x % 2 ^ 32) else none)
        { Flagged s (flags 64 x) with seed := BankSeed s t 64 }) ∧
    (let x := fun (i : Nat) => BankOut t f (SrWord s i) (BankWord s n.toNat i)
     let seed := BankSeed s t 1024
     let image := ((List.range 1024).map (fun i => bytesOfNat (t.width / 8) (x i).x)).flatten
     let first := s.updProgress (fun q => { q with
       begun := true, image := image, aux := BitVec.ofNat 2048 ((flags 1024 x).toNat + 2 ^ 64 * seed.toNat) })
     let fits := (Instr.accstg t n a b).wf = true ∧ s.thr.progress = Progress.none ∧ p % 16 = 0 ∧ (s.rd b).toNat % 16 = 0 ∧ p < 2 ^ 56
     (fits → s.myReds ≠ [] → (∀ r ∈ s.myReds, r.note = none) → ∃ u o k, exec (.accstg t n a b) s = .next u ∧
       u.thr.status = .parked .reply o k ∧ u.thr.progress.begun = true ∧ u.thr.progress.image = image) ∧
     (∀ start v, (fits ∧ start = first) ∨ (s.thr.progress.begun = true ∧ start = s) → s.myReds = [] →
       let aux := start.thr.progress.aux
       RowsDone (fun u r => accRowElems (s.rd a + word r * s.rd b).toNat (4 * t.width) r u.thr.progress.image) (List.range 32) start v →
       v.thr.holds = s.thr.holds → v.thr.pc = s.thr.pc → v.thr.progress.aux = aux → v.core = s.core → v.tid = s.tid → v.pushing = false →
       ∃ u, Completes (.accstg t n a b) s u ∧ v.OnlyThread u ∧ v.Done u 8 ∧
         u.thr.holds = ({ s.thr with
           ctl := { Flagged s (BitVec.ofNat 6 (elem 64 aux 0)) with seed := word (elem 64 aux 1) } } : Thread).holds))

/-- The engine acts for the command at the head of a core's queue; its thread waits on it. -/
def HeadOf (s : State) (core : Nat) (m : MatCmd) (rest : List MatCmd) : Prop :=
  (s.coreAt core).mq = m :: rest ∧ m.tid < 16 ∧ ∃ o c, ((s.coreAt core).thr m.tid).status = .parked (.matrix 0) o c

/-- R298: `r` is the accumulator word `c` plus 2^k times the products of the pairs of `xs` and `ys`, exact and rounded once to f32; `spoilt` says that a scale
is 0xFF. -/
def CellIs (rm : Rm) (ftzo : Bool) (c : Machine.Num) (xs ys : List Machine.Num) (spoilt : Prop) (k : ℤ) (r : Fl) : Prop :=
  let pairs := xs.zip ys
  let void := ∃ p ∈ pairs, p.1.isNan = true ∨ p.2.isNan = true ∨ (p.1.isZero = true ∧ p.2.isInf = true) ∨ (p.1.isInf = true ∧ p.2.isZero = true)
  let inf := fun (n : Bool) => c = .inf n ∨ ∃ p ∈ pairs, (p.1.isInf = true ∨ p.2.isInf = true) ∧ (p.1.neg != p.2.neg) = n
  let nan := spoilt ∨ void ∨ (inf true ∧ inf false)
  let zeros := fun (n : Bool) => c.isZero = true ∧ c.neg = n ∧ ∀ p ∈ pairs, (p.1.isZero = true ∨ p.2.isZero = true) ∧ (p.1.neg != p.2.neg) = n
  (nan ∨ c.isSnan = true → r = ⟨0x7FC00000, flInvalid⟩) ∧ (¬nan → c.isNan = true → c.isSnan = false → r = ⟨0x7FC00000, 0⟩) ∧
  (¬nan → c.isNan = false → ∀ n, inf n → r = ⟨InfOf .f32 n, 0⟩) ∧
  (¬spoilt → ∀ (v : ℝ) (as bs : List ℝ), ValueIs c v → List.Forall₂ ValueIs xs as → List.Forall₂ ValueIs ys bs →
    let e := v + (2 : ℝ) ^ k * (List.zipWith (· * ·) as bs).sum
    (e ≠ 0 → RoundsTo .f32 rm ftzo .arith e r) ∧
    (e = 0 → (∀ n, zeros n → r = ⟨ZeroOf .f32 n, 0⟩) ∧ ((∀ n, ¬zeros n) → r = ⟨ZeroOf .f32 (decide (rm = .rdn)), 0⟩)))

/-- R298, R300: a k-block whose operands are read is added whole: each bank word is the accumulator plus its 32 products, for integers the
exact sum clamped to i32, else the exact sum, scaled where the command is scaled, rounded once to f32 under the rounding mode and the flush controls
that the command holds; the flags are kept with the command; `mrp` names the next k-block, and no other bank changes. -/
def Rules.KBlock : Prop :=
  ∀ (s s' : State) (core : Nat) (m : MatCmd) (rest : List MatCmd) (l : List (List Byte)), HeadOf s core m rest → m.form ≠ 2 →
    m.stop = .running → m.next < KOf m.kl / 32 → (s.coreAt core).badMatrix = false →
    readOperands core m (m.ranges m.next) s = (s', none, l) → (s'.coreAt core).threads = (s.coreAt core).threads →
    (s'.coreAt core).banks = (s.coreAt core).banks → (s'.coreAt core).mq = m :: rest →
    let w := (mtxTy m.ty).width
    let el := fun (row t : Nat) => natOfBytes (l.getD row []) / 2 ^ (w * t) % 2 ^ w
    let old := fun (i j : Nat) => (s.coreAt core).bankWord m.bank (32 * i + j)
    let f := Fcw.ofWord m.fcw
    let scaled := m.shape.getLsbD 48 = true
    let sc := fun (n : Nat) => (natOfBytes (l.getD (64 + n) []) : ℤ)
    let num := fun (x : Nat) => match m.ty with
      | .c8 => readF .f32 f.ftzi (((m.table[x]?).map (·.toNat)).getD 0)
      | .i8 | .i4 => Num.fin (decide (unpackI (mtxTy m.ty) x < 0)) (unpackI (mtxTy m.ty) x).natAbs 0
      | .bf16 | .f16 | .e4m3 | .e5m2 | .e2m1 => readF (mtxTy m.ty) f.ftzi x
    ∃ u, exec (.matrixKblock core) s = .next u ∧
      ((u.coreAt core).thr m.tid).ctl.mrp = word ((m.next + 1) % 8) ∧
      (∃ (m' : MatCmd) (g : ℕ → ℕ → Fl), (u.coreAt core).mq = m' :: rest ∧ m'.next = m.next + 1 ∧ m'.stop = .running ∧ m'.bank = m.bank ∧ m'.tid = m.tid ∧
        m'.flags = m.flags ||| ((List.range 1024).foldl (fun (x : Flags) n => x ||| (g (n / 32) (n % 32)).fl) 0).setWidth 64 ∧
        ∀ i j, i < 32 → j < 32 → (u.coreAt core).bankWord m.bank (32 * i + j) = (g i j).x ∧ (g i j).x < 2 ^ 32 ∧
          if (m.ty = .i4 ∨ m.ty = .i8) ∧ m.shape.getLsbD 48 = false then
            let e := intOf 32 (old i j) + ((List.range 32).map (fun t =>
              unpackI (mtxTy m.ty) (el i t) * unpackI (mtxTy m.ty) (el (32 + t) j))).sum
            g i j = if e < -2 ^ 31 then ⟨0x80000000, flSaturated⟩ else if 2 ^ 31 ≤ e then ⟨0x7FFFFFFF, flSaturated⟩
              else ⟨(BitVec.ofInt 32 e).toNat, 0⟩
          else CellIs f.arm f.ftzo (readF .f32 f.ftzi (old i j)) ((List.range 32).map (fun t => num (el i t)))
            ((List.range 32).map (fun t => num (el (32 + t) j))) (scaled ∧ (sc i = 255 ∨ sc (32 + j) = 255))
            (if scaled then sc i + sc (32 + j) - (if m.ty = .i8 then 266 else 254) else 0) (g i j)) ∧
      (∀ b i, b ≠ m.bank → i < 1024 → (u.coreAt core).bankWord b i = (s.coreAt core).bankWord b i)

/-- R300, R301: a command whose k-blocks are all added ends: `mstat` and `mrp` are 0, the flags are raised and the thread goes on after its
instruction; a page fault stops it with a record that names the engine; any other fault ends it in *engine fault* with operand, kind and
address in `mstat`; the queue then holds the commands behind it. -/
def Rules.MatrixEnds : Prop :=
  ∀ (s s' : State) (core : Nat) (m : MatCmd) (rest : List MatCmd) (h : MatHalt), HeadOf s core m rest → m.form ≠ 2 →
    let th := fun (u : State) => (u.coreAt core).thr m.tid
    let t := th s
    (KOf m.kl / 32 ≤ m.next → ∃ u, exec (.matrixComplete core) s = .next u ∧ (u.coreAt core).mq = rest ∧ (th u).resume = true ∧
      (th u).progress.ending = some .done ∧ (th u).ctl = { t.ctl with mstat := 0, mrp := 0, fflags := t.ctl.fflags ||| m.flags } ∧
      (u.coreAt core).banks = (s.coreAt core).banks) ∧
    (m.next < KOf m.kl / 32 → exec (.matrixComplete core) s = .next s) ∧
    (m.stop = .running → m.next < KOf m.kl / 32 → (s.coreAt core).badMatrix = false → (∃ l, readOperands core m (m.ranges m.next) s = (s', some h, l)) →
      (s'.coreAt core).threads = (s.coreAt core).threads → (s'.coreAt core).mq = m :: rest → (s'.coreAt core).banks = (s.coreAt core).banks →
      (∀ k l p, h.ans = .page k l p → s'.noFaultQueue m.tn = false → ∃ u, exec (.matrixFaultStop core) s = .next u ∧
        (th u).ctl = { t.ctl with fltseq := t.ctl.fltseq + 1 } ∧ (th u).status = t.status ∧
        u.faults = s'.faults ++ [⟨m.tn, h.addr, (t.ctl.fltseq + 1).toNat % 2 ^ 32, core, m.tid, k, 0, 1, l, p, false, none⟩] ∧
        (u.coreAt core).mq = { m with stop := .faulted h.addr h.opnd } :: rest ∧ (u.coreAt core).banks = (s.coreAt core).banks) ∧
      (∀ c v, h.ans = .trap c v → ∃ u, exec (.matrixFaultStop core) s = .next u ∧ (u.coreAt core).mq = rest ∧
        let kind := if c = 0x0B then 2 else if c = 0x0F then 3 else 1
        let x := word (h.opnd * 2 ^ 60 + kind * 2 ^ 56 + h.addr % 2 ^ 56)
        (th u).ctl.mstat = x ∧ (x ≠ 0 → (th u).progress.ending = some (.trap 0x0E x)) ∧ (th u).resume = true ∧
        (u.coreAt core).banks = (s.coreAt core).banks))

/-- R304: a block on its way east reaches the free place of the staging buffer of the core for which it is meant; an abort token ends the MMR of
the receiving core between two steps in *engine fault*, operand 3 and kind 4 with the failed core as its address. -/
def Rules.Rotation : Prop :=
  ∀ (s : State) (core src f : Nat) (k : Core) (m : MatCmd) (i : MmrItem) (rest : List MmrItem) (more : List MatCmd),
    (s.cores.find? (fun e => e.2.mmrEast.head?.any (fun i => i.dst == core)) = some (src, k) → k.mmrEast = i :: rest → src ≠ core →
      s.mmrStale i = false → s.mmrLive (s.coreAt core).mmrWest = (s.coreAt core).mmrWest → (s.coreAt core).mmrWest.length < 2 →
      ∃ u, exec (.mmrBlockArrival core) s = .next u ∧ (u.coreAt core).mmrWest = (s.coreAt core).mmrWest ++ [i] ∧
        (u.coreAt src).mmrEast = rest) ∧
    (HeadOf s core m more → m.form = 2 → m.ablk = [] → m.next ≠ 0 → m.next < s.matTotal m → s.mmrLive (s.coreAt core).mmrWest = [i] →
      i.kind = .token f → some i.lnum = m.lnum → i.n = (s.coreAt core).mmrOrdinal i.lnum →
      ∃ u, exec (.mmrAbortToken core) s = .next u ∧ (u.coreAt core).mq = more ∧
        let x := word (3 * 2 ^ 60 + 4 * 2 ^ 56 + f % 2 ^ 56)
        ((u.coreAt core).thr m.tid).ctl.mstat = x ∧ ((u.coreAt core).thr m.tid).progress.ending = some (.trap 0x0E x) ∧
        (u.coreAt core).mmrEast.length = (s.coreAt core).mmrEast.length + 1 ∧ (u.coreAt core).mmrSouth.length = (s.coreAt core).mmrSouth.length + 1)

/-- R304, R395: damage in the engine's buffers that the head command meets before its next k-block ends it in *engine fault* with kind 3; the bank
then holds the completed steps alone (`kept` is the bank as it was when the step of an MMR began, none before a step or outside an MMR).  The
operand number 3 and the address 0 are the model's reading (log 39). -/
def Rules.MatrixDamage : Prop :=
  ∀ (s : State) (core : Nat) (m : MatCmd) (rest : List MatCmd), HeadOf s core m rest → m.stop = .running → m.next < s.matTotal m →
    (s.coreAt core).badMatrix = true → m.bank < 4 → m.kept = [] ∨ m.kept.length = 1024 →
    ∃ u, exec (.matrixFaultStop core) s = .next u ∧ (u.coreAt core).mq = rest ∧ (u.coreAt core).badMatrix = false ∧
      let x := word (3 * 2 ^ 60 + 3 * 2 ^ 56)
      ((u.coreAt core).thr m.tid).ctl.mstat = x ∧ ((u.coreAt core).thr m.tid).progress.ending = some (.trap 0x0E x) ∧
      (∀ b i, i < 1024 → (u.coreAt core).bankWord b i =
        if b = m.bank ∧ m.kept ≠ [] then m.kept.getD i 0 % 2 ^ 32 else (s.coreAt core).bankWord b i)

/-- R298, R300, R301, R304: what the matrix engine does for the command at the head of its queue. -/
def Obligations.MatrixEngine : Prop := Rules.KBlock ∧ Rules.MatrixEnds ∧ Rules.Rotation ∧ Rules.MatrixDamage
/-! ### The copy engine (R313 to R334) -/

/-- The words of R316 that hand a command over, with their function numbers. -/
def CopyWords (a b c : Reg) : List (Instr × Nat × Option Reg) :=
  [(.xld a b c, 0, some b), (.xst a b c, 1, some b), (.xput a b c, 2, some b), (.xaxb a b c, 3, some b), (.xfill a c, 4, none),
   (.xlm a b c, 7, some b)]

/-- The command that a word hands over: what its thread holds (R316), and nothing run yet.  That it holds the seed from before the step is the
model's choice (log 41). -/
def CopyOf (s : State) (fn : Nat) (a c : Reg) (chain : Word) : CopyCmd :=
  { id := s.nextId, fn := fn, w0 := s.rd a, w1 := s.rd (a + 1), w2 := s.rd (a + 2), w3 := s.rd (a + 3), chain := chain, target := s.rd c,
    fcw := s.thr.ctl.fcw, seed := s.thr.ctl.seed, table := if fn ≠ 4 ∧ chain.getLsbD 1 = true then s.cur.table else [],
    owner := s.cur.ownerOf (bits (s.rd c) 3 0), started := false, out := [], stop := .status 0 0 false, pos := 0, done := 0, buf := [],
    flags := 0, put := 0, held := none, part := none, ends := none }
/-- The tenancy and the range of VAs that a command claims (R225): none if its descriptor is refused, or if it writes no global range. -/
def ClaimOf (x : CopyCmd) : Option (Nat × Nat × Nat) :=
  if x.bad = true then none else match x.range, x.owner with
    | some r, some o => if r.1 < r.2 then some (o.2, r.1, r.2) else none
    | _, _ => none

/-- R35, R225, R316: on t15, each of the six words puts a command with the descriptor, chain word, target, rounding state and seed that the
thread holds at the end of the engine's queue of four, and steps `seed` once; a command with a range of VAs claims it, and the claim has taken
the M sectors of the range back first (`v` is the state after that); with a full queue the word parks for an entry, and so it does where a slice
of the range has no free claim record, or where a set has no room for a sector that is taken back; on any other thread an XF word is an illegal
instruction.  That a command holds the seed from before the step is log 41; that the instruction waits for a claim record is log 38. -/
def Rules.CopyIssue : Prop :=
  ∀ (s : State) (a b c : Reg), s.jam = false → ∀ e ∈ CopyWords a b c,
    let x := CopyOf s e.2.1 a c (match e.2.2 with | some r => s.rd r | none => 0)
    let d := dieOf s.core
    (s.tid ≠ 15 → exec e.1 s = .next (s.trapSt 0x01 0)) ∧
    (s.tid = 15 → 4 ≤ s.cur.cq.length → exec e.1 s = .next (s.parkSt .engineQueue)) ∧
    (s.tid = 15 → ∀ tn lo hi, ClaimOf x = some (tn, lo, hi) → (s.dieAt d).claimRoom tn lo hi = false ∨ (s.addClaim s.core x.id tn lo hi).jam = true →
      exec e.1 s = .next (s.parkSt .engineQueue)) ∧
    (s.tid = 15 → s.cur.cq.length < 4 → ∀ v,
      (ClaimOf x = none ∧ v = s) ∨ (∃ tn lo hi, ClaimOf x = some (tn, lo, hi) ∧ (s.dieAt d).claimRoom tn lo hi = true ∧
        v = s.addClaim s.core x.id tn lo hi ∧ v.jam = false ∧ v.core = s.core ∧ v.tid = s.tid ∧ v.thr = s.thr ∧ v.cur.cq = s.cur.cq) →
      ∃ u, Completes e.1 s u ∧ v.Done u 4 ∧ u.cur.cq = s.cur.cq ++ [x] ∧
        (∀ tn lo hi, ClaimOf x = some (tn, lo, hi) → ⟨s.core, x.id, tn, lo, hi, lo⟩ ∈ (u.dieAt d).claims) ∧
        u.thr.holds = ({ s.thr with ctl := { s.thr.ctl with seed := xsStep s.thr.ctl.seed } } : Thread).holds ∧
        (∀ j, j ≠ 15 → u.cur.thr j = v.cur.thr j) ∧ u.cur.lm = v.cur.lm ∧ (∀ k, k ≠ s.core → u.coreAt k = v.coreAt k) ∧
        ({ u with cores := v.cores, nextId := v.nextId } : State) = v)

/-- R332 to R334: XSTAT writes the engine's four status words; XCAN takes a matching command that has not started out of the queue, marks a
matching running one as cancelled, which then writes at most what is left of the stripe that it has begun (`unit` numbers the stripes), also what a held
read has still to bring of it, and changes nothing where no command matches. -/
def Rules.CopyStatus : Prop :=
  ∀ (s : State) (a : Reg), s.tid = 15 → a.toNat % 4 = 0 → a ≠ 0 →
    let q := s.cur.cq
    let sel := s.rd a
    let hits := fun (x : CopyCmd) => sel.getLsbD 12 = true ∨ (bits sel 11 4 = bits x.target 11 4 ∧ bits sel 3 0 = bits x.target 3 0)
    (s.det = true → exec (.xstat a) s = .next (s.trapSt 0x0D 0)) ∧
    (s.det = false → ∃ u, Completes (.xstat a) s u ∧ s.OnlyThread u ∧ s.Done u 4 ∧
      u.rd a = word ((match q with
        | x :: _ => if x.started then x.done % 2 ^ 32 * 2 ^ 32 + bits x.target 3 0 * 2 ^ 12 + x.fn * 2 ^ 8 + 8 else 0
        | [] => 0) + q.length) ∧
      u.rd (a + 1) = s.cur.copyDone ∧ u.rd (a + 2) = s.cur.copyFailed ∧
      u.rd (a + 3) = word ((q.filter (fun x => x.fn == 2 && x.put != 2)).length) ∧
      (∀ r, r ≠ a → r ≠ a + 1 → r ≠ a + 2 → r ≠ a + 3 → u.rd r = s.rd r) ∧
      u.thr.holds = ({ s.thr with g := u.thr.g, gs := u.thr.gs } : Thread).holds) ∧
    (bits sel 63 13 ≠ 0 → exec (.xcan a) s = .next (s.trapSt 0x05 sel)) ∧
    (bits sel 63 13 = 0 → (∀ x ∈ q, ¬hits x) → Passes (.xcan a) s 4) ∧
    (∀ x, bits sel 63 13 = 0 → q = [x] → hits x →
      (x.started = false → ∃ u y, Completes (.xcan a) s u ∧ s.Done u 4 ∧ u.cur.cq = [] ∧ u.cur.copyDone = s.cur.copyDone + 1 ∧
        u.cur.copyFailed = s.cur.copyFailed + 1 ∧ u.net = s.net ++ [y] ∧ y.dst = s.core ∧
        ∃ h, y.kind = .message ⟨h, word (9 * 2 ^ 60 + x.flags.toNat % 64 * 2 ^ 53 + x.done % 2 ^ 32), 0xFFFFFFFF, 0,
          (x.owner.map (·.2)).getD (s.cur.thr (bits x.target 3 0)).ctl.tenancy.toNat⟩) ∧
      (∀ p, x.started = true → x.part = some p → (∃ h e, x.stop = .hold h e) → (∀ y ∈ x.out, y.unit = p) → ∃ u, Completes (.xcan a) s u ∧ s.Done u 4 ∧
        u.net = s.net ∧ u.cur.cq = [{ x with ends := some p }]) ∧
      (∀ o l, x.started = true → (∀ h e, x.stop ≠ .hold h e) → x.out = o :: l → ∃ u, Completes (.xcan a) s u ∧ s.Done u 4 ∧ u.net = s.net ∧
        u.cur.cq = [{ x with
          out := if x.put = 1 then o :: l else if x.part.isSome then (o :: l).takeWhile (fun y => y.unit == o.unit) else [],
          stop := .status 9 0 false, held := if x.part.isSome then x.held else none }]))

/-- R35, R225, R316, R332 to R334: the XF group.  The seed that a command holds is log 41, and the wait for a claim record log 38. -/
def Obligations.CopyInstructions : Prop := Rules.CopyIssue ∧ Rules.CopyStatus

/-- The command at the head of a core's copy queue. -/
def CopyHead (s : State) (core : Nat) (x : CopyCmd) (rest : List CopyCmd) : Prop := (s.coreAt core).cq = x :: rest

/-- The lines of a stripe of global output are written one after the other, from `u` to `v`: the bytes of `ls`, by line, each line by one merge at
its slice (R193, R225, R327). -/
def LinesDone (core tn : Nat) : List (List CopyOut) → State → State → Prop
  | [], u, v => u = v
  | l :: ls, u, v => ∃ a e r w, l = e :: r ∧ e.dst = .glob a ∧ a < 2 ^ 56 ∧
      (∀ y ∈ l, ∃ b, y.dst = .glob b ∧ b / 256 = a / 256 ∧ y.mask = 0xFF) ∧
      (∀ m ∈ ls.head?, ∀ y ∈ m.head?, ∀ b, y.dst = .glob b → b / 256 ≠ a / 256) ∧
      u.sliceWrite (dieOf core) tn (a / 256) a .write (takeLine (a / 256) l).1 (takeLine (a / 256) l).2.1 true = (w, .ok) ∧ LinesDone core tn ls w v

/-- R317, R318, R322, R327, R331: the head command is checked when it starts, and a bad one ends with status 10; a fill writes its pattern by
VA, a store without stages the bytes of LM; each stripe is then written in order of output, to LM or, line by line, at the slices of its VAs, and
a byte of LM written twice keeps the later value; a row of LM that R137 forbids when it comes to be written ends the command with status 2 and is
not written (R138). -/
def Rules.CopyRuns : Prop :=
  ∀ (s : State) (core : Nat) (x : CopyCmd) (rest : List CopyCmd), CopyHead s core x rest → x.ends = none →
    let k := s.coreAt core
    let n := bits x.w2 31 0
    let begins := fun (out : List CopyOut) (stop : CopyEnd) => ∃ u y, exec (.copyCommandRun core) s = .next u ∧ (u.coreAt core).cq = y :: rest ∧
      y.started = true ∧ y.id = x.id ∧ y.out = out ∧ y.stop = stop ∧ (u.coreAt core).lm = k.lm ∧ u.dram = s.dram
    (x.started = true → exec (.copyCommandRun core) s = .next s) ∧
    (x.started = false → x.out = [] → (x.owner = none ∨ bits x.target 63 16 ≠ 0 ∨ bits x.w1 63 62 ≠ 0 ∨ bits x.w1 45 36 ≠ 0) →
      begins [] (.status 10 0 false)) ∧
    (x.started = false → x.pos = 0 → x.bad = false → x.fn = 4 → bits x.w0 63 56 = 0 →
      begins ((List.range n).map (fun i => ⟨.glob (x.w0.toNat + i),
        BitVec.ofNat 8 ((bits x.w3 63 32 + 2 ^ 32 * bits x.w3 31 0) / 2 ^ (8 * ((x.w0.toNat + i) % 8))), 0xFF, 0, 0, [], (x.w0.toNat + i) / 4096⟩))
        (.status 0 0 false)) ∧
    (x.started = false → x.pos = 0 → x.bad = false → x.fn = 1 → bits x.w0 63 56 = 0 → x.chain = 0 → bits x.w2 63 32 ≤ 1 → 1 ≤ n →
      k.lmCheck 15 false (bits x.w1 17 0) n = none → k.lmBad (bits x.w1 17 0) n = none →
      begins ((List.range n).map (fun i => ⟨.glob (x.w0.toNat + i), memGet lmDefault k.lm (bits x.w1 17 0 + i), 0xFF, 0, 0, [],
        (x.w0.toNat + i) / 4096⟩)) (.status 0 0 false)) ∧
    (∀ p o, x.started = true → x.held = none → x.put = 0 → x.fn ≠ 2 → k.badCopy = false → x.out = o →  o ≠ [] →
      (∀ e ∈ o, x.entryBad k e = false ∧ e.scales = [] ∧ ∃ a, e.dst = .lm a ∧ e.mask = 0xFF ∧ e.unit = p) → ∃ u y, exec (.copyStripe core) s = .next u ∧
        (u.coreAt core).cq = y :: rest ∧ y.out = [] ∧ y.stop = x.stop ∧ y.done = x.done + o.length ∧ y.flags = x.flagsWith o ∧ u.dram = s.dram ∧
        ∀ b, memGet lmDefault (u.coreAt core).lm b = match (o.filter (fun e => e.dst == .lm b)).getLast? with
          | some e => e.x
          | none => memGet lmDefault k.lm b) ∧
    (∀ p ls v, x.started = true → x.held = none → x.put = 0 → x.fn ≠ 2 → k.badCopy = false → x.out = ls.flatten → ls ≠ [] →
      (∀ e ∈ x.out, x.entryBad k e = false ∧ e.scales = [] ∧ e.unit = p) → LinesDone core ((x.owner.map (·.2)).getD 0) ls s v →
      (v.coreAt core).cq = x :: rest → ∃ u y, exec (.copyStripe core) s = .next u ∧ (u.coreAt core).cq = y :: rest ∧ y.out = [] ∧ y.stop = x.stop ∧
        y.done = x.done + x.out.length ∧ y.flags = x.flagsWith x.out ∧ ({ u with cores := v.cores } : State) = v ∧
        (∀ c, c ≠ core → u.coreAt c = v.coreAt c) ∧ (u.coreAt core).lm = (v.coreAt core).lm) ∧
    (∀ e o, x.started = true → x.held = none → x.put = 0 → x.fn ≠ 2 → k.badCopy = false → x.out = e :: o → x.entryBad k e = true →
      (∀ d t, x.stop ≠ .status 9 d t) → ∃ u, exec (.copyStripe core) s = .next u ∧ (u.coreAt core).lm = k.lm ∧ u.dram = s.dram ∧
        (u.coreAt core).cq = { x with out := [], stop := .status 2 0 false, part := none } :: rest) ∧
    (∀ va kind l acc p tn j, x.started = true → x.held = none → x.put = 0 → k.badCopy = false → x.out = [] →
      x.stop = .page va kind l acc p → x.owner = some (j, tn) → s.noFaultQueue tn = false → ∃ u, exec (.copyStripe core) s = .next u ∧
        u.faults = s.faults ++ [⟨tn, va, 0, core, 15, kind, acc, 2, l, p, false, none⟩] ∧
        (u.coreAt core).cq = { x with out := [], stop := .status 1 0 false, part := none } :: rest)

/-- R226, R329, R330: a command that has ended leaves the queue with its counts, and its message with status, flags, detail and done count is on
its way to the target thread as an outstanding write of t15 (R199, R253), with a sequence number that counts the completions before it, which is the
model's choice (log 41); CLAIM_END ends the part of a claim below the least line that is still to be written, and the whole claim once nothing is left to write. -/
def Rules.CopyEnds : Prop :=
  ∀ (s v : State) (core : Nat) (x : CopyCmd) (rest : List CopyCmd) (st detail : Nat) (short : Bool), CopyHead s core x rest →
    x.started = true → x.stop = .status st detail short →
    (x.out = [] → x.fn ≠ 2 → (∀ y ∈ rest, y.id ≠ x.id) → s.releaseRange core x = some v → (v.coreAt core).cq = x :: rest →
      ∃ u y, exec (.copyCompletion core) s = .next u ∧ (u.coreAt core).cq = rest ∧ (u.coreAt core).copyDone = (v.coreAt core).copyDone + 1 ∧
        (u.coreAt core).copyFailed = (v.coreAt core).copyFailed + (if st = 0 then 0 else 1) ∧ u.net = v.net ++ [y] ∧ y.dst = core ∧
        (u.coreAt core).out = (v.coreAt core).out ++ [⟨y.id, 15, ((v.coreAt core).thr 15).placedAt, core⟩] ∧
        ∃ h, y.kind = .message ⟨h, word (st * 2 ^ 60 + short.toNat * 2 ^ 59 + x.flags.toNat % 64 * 2 ^ 53 + detail % 2 ^ 21 * 2 ^ 32 +
          x.done % 2 ^ 32), 0xFFFFFFFF, 0, (x.owner.map (·.2)).getD ((v.coreAt core).thr (bits x.target 3 0)).ctl.tenancy.toNat⟩ ∧
          bits h 3 0 = 3 ∧ (core < 2 ^ 14 → bits h 17 4 = core ∧ bits h 21 18 = 15) ∧
          (core < 2 ^ 14 → bits h 37 22 = (v.coreAt core).copyDone.toNat % 2 ^ 16 ∧ bits h 41 38 = bits x.target 3 0 ∧
            bits h 49 42 = bits x.target 11 4)) ∧
    (x.out ≠ [] → exec (.copyCompletion core) s = .next s) ∧
    (∀ a, x.leastLeft = some a →
      let mine := fun (c : Claim) => c.core == core && c.cmd == x.id && c.upto < a / 256 * 256
      (∀ c ∈ (s.dieAt (dieOf core)).claims, mine c = false) → exec (.claimEnd core) s = .next s) ∧
    (∀ a, x.leastLeft = some a →
      let mine := fun (c : Claim) => c.core == core && c.cmd == x.id && c.upto < a / 256 * 256
      (∃ c ∈ (s.dieAt (dieOf core)).claims, mine c = true) → ∃ u, exec (.claimEnd core) s = .next u ∧
        (u.dieAt (dieOf core)).claims = (s.dieAt (dieOf core)).claims.map (fun c => if mine c then { c with upto := a / 256 * 256 } else c)) ∧
    (x.leastLeft = none → ∃ u, exec (.claimEnd core) s = .next u ∧
      (u.dieAt (dieOf core)).claims = (s.dieAt (dieOf core)).claims.filter (fun c => !(c.core == core && c.cmd == x.id)))

/-- R167, R221, R314, R315: a put that the window of its tenancy admits is stored and counted at its target, at any word that the window names as its
counter (the model's choice, log 58), or held at a migrating leaf, or, with a byte that meets a page fault, neither stored nor counted (the model's
choice, log 41); an accepted put advances the source
counter and a rejected one ends with status 8; a copy thread that has stopped on a trap is restarted with the shipped program, and so is one
whose installing launch has left the core. -/
def Rules.PutsAndRestart : Prop :=
  ∀ (s v : State) (core n tn win off : Nat) (l : PutBytes) (x : CopyCmd) (rest : List CopyCmd),
    let w := s.hub.window win
    let k := s.coreAt core
    (w.state ≠ 1 ∨ w.tenancy ≠ tn → exec (.putArrival tn win off l) s = .next s) ∧
    (w.state = 1 → w.tenancy = tn → (∃ e ∈ l, w.len ≤ off + e.1) → exec (.putArrival tn win off l) s = .next s) ∧
    (s.hub.allDown ≠ none → exec (.putArrival tn win off l) s = .next s) ∧
    (s.hub.waitsAt (.put tn win off l) = true → exec (.putArrival tn win off l) s = .next s) ∧
    (s.hub.allDown = none → s.hub.waitsAt (.put tn win off l) = false → w.state = 1 → w.tenancy = tn → (∀ e ∈ l, off + e.1 < w.len) →
      (∀ va, putBytes tn w.base (l.map (fun e => (off + e.1, e.2))) s = (v, some (va, .hold .migrate)) →
        exec (.putArrival tn win off l) s = .next { s with hub := { s.hub with waits := s.hub.waits ++ [⟨.put tn win off l, tn, va⟩] } }) ∧
      (∀ va k p n, putBytes tn w.base (l.map (fun e => (off + e.1, e.2))) s = (v, some (va, .page k p n)) → exec (.putArrival tn win off l) s = .next s)) ∧
    (s.hub.allDown = none → s.hub.waitsAt (.put tn win off l) = false → w.state = 1 → w.tenancy = tn → (∀ e ∈ l, off + e.1 < w.len) → putBytes tn w.base (l.map (fun e => (off + e.1, e.2))) s = (v, none) →
      (v.coreAt w.core).lm = (s.coreAt w.core).lm → ∃ u, exec (.putArrival tn win off l) s = .next u ∧ u.dram = v.dram ∧
        (w.ctr % 8 = 0 → (u.coreAt w.core).lmRead w.ctr 8 = ((s.coreAt w.core).lmRead w.ctr 8 + 1) % 2 ^ 64)) ∧
    (s.puts[n]? = some (core, x.id) → CopyHead s core x rest → x.ends = none → bits x.w0 63 54 ≠ s.hub.pkg → s.hub.allDown = none →
      (k.lmCheck 15 true x.scnt 8 = none → ∃ u, exec (.putAck n true) s = .next u ∧ u.puts = dropAt s.puts n ∧
        (u.coreAt core).lmRead x.scnt 8 = (k.lmRead x.scnt 8 + 1) % 2 ^ 64 ∧
        ∃ y, (u.coreAt core).cq = y :: rest ∧ y.put = 2 ∧ y.stop = x.stop ∧ y.done = x.out.length) ∧
      ((∀ d t, x.stop ≠ .status 9 d t) → ∃ u, exec (.putAck n false) s = .next u ∧ u.puts = dropAt s.puts n ∧
        (u.coreAt core).cq = { x with out := [], put := 2, stop := .status 8 0 false, held := none } :: rest)) ∧
    (let restarted := fun (u : State) =>
        let t := (u.coreAt core).thr 15
        t.status = .ready ∧ t.pc = 0x3F000 ∧ t.g = Vector.replicate 32 0 ∧ t.ctl = { Ctl.zero with seed := 0x2545F4914F6CDD1D } ∧ t.task = none ∧
        (∀ a, 0x3F000 ≤ a → a < 0x40000 → memGet lmDefault (u.coreAt core).lm a = lmDefault a) ∧ (u.coreAt core).copyProg = none ∧
        (∀ i : Nat, 16 ≤ i → i < 32 → ((u.coreAt core).land i).full = false ∧ ((u.coreAt core).land i).data = (k.land i).data)
     (k.copyProg = none → (k.thr 15).status = .stopped .hub → (k.land 21).full = false → (k.land 29).full = false →
       ∃ u, exec (.copyThreadRestart core) s = .next u ∧ restarted u ∧ u.hub.copyRestarts = s.hub.copyRestarts + 1) ∧
     ((k.thr 15).status ≠ .stopped .hub → exec (.copyThreadRestart core) s = .next s) ∧
     (∀ j, k.copyProg = some j → s.remains core j = false → ∃ u, exec (.copyProgramReinstall core) s = .next u ∧ restarted u) ∧
     (∀ j, k.copyProg = some j → s.remains core j = true → exec (.copyProgramReinstall core) s = .next s))

/-- R221, R226, R314, R315, R317, R318, R322, R327, R329 to R331: what the copy engine does.  The sequence number of a completion and a put
that meets a page fault are log 41, and the counter of any window is log 58. -/
def Obligations.CopyEngine : Prop := Rules.CopyRuns ∧ Rules.CopyEnds ∧ Rules.PutsAndRestart
/-! ### Versioned memory (R265 to R279) -/

/-- A region record by tenancy and number. -/
def Vrec (s : State) (key : Nat × Nat) : Option VRegion := (s.hub.vregions.find? (fun e => e.1 = key)).map (·.2)
/-- The state after an acquire at package scope by the current die (R217). -/
def Acquired (s : State) : State := s.updDie (dieOf s.core) (fun x => { x with pkgEpoch := x.pkgEpoch + 1 })
/-- `i` completes from `s`, keeps every register, and leaves the region record as `r`. -/
def RegionRun (i : Instr) (s : State) (key : Nat × Nat) (r : VRegion) : Prop :=
  ∃ t, Completes i s t ∧ s.Done t 8 ∧ t.thr.holds = s.thr.holds ∧ Vrec t key = some r ∧ t.cur.lm = s.cur.lm

/-- R268: version `v` of a region seals next: the one before it is Sealed, and no contribution to it is due. -/
def SealsAt (r : VRegion) (v : Nat) : Prop := ({ r with sealed := v - 1 } : VRegion).stateOf v = .open 0

/-- VNOPEN, VNSEAL, VNRECL and VNSTAT on the live region that covers g[ra]: each asks the hub and parks with reason *Global reply*, VNSEAL after
the REDVNs of the thread, with reason *Drain*, and its release; what the hub answers is its effect (log 7).  A contribution that is the last leaves its
version Open(0) while the one before it is Open, else Sealed, and each next version that is Open(0) then seals too (R268).  A reclaim that fails closes the
region and traps (R277). -/
def Rules.VersionControl : Prop :=
  ∀ (s : State) (d a b : Reg) (key : Nat × Nat) (r : VRegion),
    let va := (s.rd a).toNat
    let w := s.rd b
    let v := bits w 31 0
    let c := bits w 63 48
    let due := fun (n : Nat) => setAt r.due (v % max 1 r.k) n
    va < 2 ^ 56 → bits w 47 32 = 0 →
    (c = 0 → (∀ e ∈ s.myReds, e.note = none) → (∃ e ∈ s.myReds, e.ver.isSome = true) → s.thr.progress = Progress.none →
      exec (.vnseal a b) s = .next (s.parkSt .drain)) ∧
    (Idle s → (c ≠ 0 → v ≠ 0xFFFFFFFF → Asks (.vnopen a b) s) ∧ (c = 0 → Asks (.vnrecl a b) s) ∧
      (c = 0 → s.det = false → v ≠ 0xFFFFFFFF → Asks (.vnstat d a b) s) ∧
      (∀ u, c = 0 → s.release (dieOf s.core) false = some u → u.cores = s.cores → u.core = s.core → u.tid = s.tid → s.cur.pushTable = [] → u.jam = false →
        u.pushing = false → Asks (.vnseal a b) s)) ∧
    (Served s → s.hub.vfind s.tn va = some (key, r) → Vrec s key = some r →
    (c ≠ 0 → v ≠ 0xFFFFFFFF → v = r.opened + 1 → v < r.oldest + r.k → RegionRun (.vnopen a b) s key { r with opened := v, due := due c }) ∧
    (c ≠ 0 → v ≠ r.opened + 1 ∨ r.oldest + r.k ≤ v → exec (.vnopen a b) s = .next (s.trapSt 0x05 w)) ∧
    (c = 0 → s.det = false → v ≠ 0xFFFFFFFF → ∃ code n, Writes (.vnstat d a b) s 8 d
      (word (r.sealed * 2 ^ 32 + n % 2 ^ 16 * 2 ^ 16 + key.2 * 2 ^ 8 + code)) s.thr.ctl ∧
      ((code = 0 ∧ n = 0 ∧ r.stateOf v = .absent) ∨ (code = 1 ∧ r.stateOf v = .open n) ∨ (code = 2 ∧ n = 0 ∧ r.stateOf v = .sealed) ∨
        (code = 3 ∧ n = 0 ∧ r.stateOf v = .reclaimed))) ∧
    (∀ n, c = 0 → r.stateOf v = .open (n + 1) →
      (v = r.sealed + 1 → n ≠ 0 → RegionRun (.vnseal a b) s key { r with due := due n }) ∧
      (v = r.sealed + 1 → n = 0 → r.opened = v → RegionRun (.vnseal a b) s key { r with due := due 0, sealed := v }) ∧
      (∀ m, r.sealed + 1 < v → r.stateOf (r.sealed + 1) = .open (m + 1) → (r.sealed + 1) % max 1 r.k ≠ v % max 1 r.k → n = 0 →
        RegionRun (.vnseal a b) s key { r with due := due 0 }) ∧
      ∃ u, r.sealed ≤ u ∧ u ≤ r.sealed + 4 ∧ RegionRun (.vnseal a b) s key { r with due := due n, sealed := u } ∧
        (∀ x, r.sealed < x → x ≤ u → SealsAt { r with due := due n } x) ∧ (u < r.sealed + 4 → ¬SealsAt { r with due := due n } (u + 1))) ∧
    (c = 0 → r.stateOf v = .sealed ∨ r.stateOf v = .absent ∨ r.stateOf v = .reclaimed → exec (.vnseal a b) s = .next (s.trapSt 0x05 w)) ∧
    (c = 0 → v ≠ r.oldest ∨ r.reclaiming = true ∨ r.stateOf (v + 1) ≠ .sealed → exec (.vnrecl a b) s = .next (s.trapSt 0x05 w)) ∧
    (let p := onePass (reclaimPage key v) ((List.range (r.len / 2 ^ 19)).map (fun i => ⟨i, r.base + i * 2 ^ 19, 0, 0, 0, 0⟩))
        (((s.updVRegion key (fun r => { r with reclaiming := true })).wakeVersions key).capture 0 0)
     c = 0 → v = r.oldest → r.reclaiming = false → r.stateOf (v + 1) = .sealed → Clean p → p.1.Placed → ∃ t, Completes (.vnrecl a b) s t ∧
       p.1.Done t 8 ∧ t.thr.holds = p.1.thr.holds ∧
       Vrec t key = (Vrec p.1 key).map (fun q => { q with oldest := v + 1, reclaiming := false })) ∧
    (let p := onePass (reclaimPage key v) ((List.range (r.len / 2 ^ 19)).map (fun i => ⟨i, r.base + i * 2 ^ 19, 0, 0, 0, 0⟩))
        (((s.updVRegion key (fun r => { r with reclaiming := true })).wakeVersions key).capture 0 0)
     ∀ e, c = 0 → v = r.oldest → r.reclaiming = false → r.stateOf (v + 1) = .sealed → p.2.pages = [] → p.2.other = false →
       p.1.thr.progress.held = [] → p.1.thr.progress.kept = [e] →
       exec (.vnrecl a b) s = .next (((p.1.updVRegion key (fun r => { r with live := false })).wakeVersions key).trapSt e.cause e.val)))

/-- LDVN, STVN and REDVN: a load of a sealed version and a store send their requests, and complete once they are answered (log 7); a load of a
version that has not sealed parks for it, and one of a reclaimed version traps. -/
def Rules.VersionAccess : Prop :=
  ∀ (s u : State) (d a b g : Reg) (t : RedvnTy) (key : Nat × Nat) (r : VRegion) (x : VReg),
    let va := (s.rd a).toNat
    let w := s.rd b
    let v := bits w 31 0
    va < 2 ^ 56 → bits w 63 32 = 0 → v ≠ 0xFFFFFFFF → s.hub.vfind s.tn va = some (key, r) →
    (Idle s → va % 8 = 0 → (r.stateOf v = .sealed → Asks (.ldvn d a b) s) ∧ Asks (.stvn g a b) s ∧
      (r.stateOf v = .reclaimed → exec (.ldvn d a b) s = .next (s.trapSt 0x0C (word v))) ∧
      (r.stateOf v = .absent ∨ (∃ n, r.stateOf v = .open n) →
        exec (.ldvn d a b) s = .next (s.parkSt (.version (key.1 * 64 + key.2) v)))) ∧
    (Served s → va % 8 = 0 → r.stateOf v = .sealed → s.vline (dieOf s.core) s.tn va [va / 64 % 4] v r = (u, .ok, x) → u.cores = s.cores → u.core = s.core →
      u.tid = s.tid → ∃ t, Completes (.ldvn d a b) s t ∧
        (Acquired u).WroteReg t 8 d (word (x.toNat / 2 ^ (8 * (va % 256)) % 2 ^ 64)) s.thr.ctl) ∧
    (Served s → va % 8 = 0 → s.versionWrite (dieOf s.core) s.tn va 8 v .write w (fun _ => (s.rd g).toNat) = (u, .ok) → u.cores = s.cores →
      u.core = s.core → u.tid = s.tid → EndsFrom (.stvn g a b) s u 8) ∧
    (let n := match t with
        | .i64 => 8
        | .f32 | .bf16x2 => 4
     Idle s → va % n = 0 → s.det = false ∨ t = .i64 → ∃ q, Completes (.redvn t g a b) s q ∧ s.Done q 8 ∧ q.thr.holds = s.thr.holds ∧ q.dies = s.dies ∧
       q.dram = s.dram ∧ ∃ e, q.reds = s.reds ++ [e] ∧ e.va = va ∧ e.ver = some (t, w) ∧ e.x = word ((s.rd g).toNat % 2 ^ (8 * n)) ∧
         e.note = none ∧ e.core = s.core ∧ e.tid = s.tid)

/-- R272, R273: a newest read notes the newest sealed version at its issue and asks, whatever has sealed; once it is answered it gives the line in a
sealed version that is no older than that one and no newer than the newest sealed version at the service. -/
def Rules.NewestReads : Prop :=
  ∀ (s u : State) (d a b : Reg) (key : Nat × Nat) (r : VRegion) (y x : VReg),
    let va := (s.rd a).toNat
    let p := s.pickVersion key r 0xFFFFFFFF
    let s0 := elem 32 y key.2
    va < 2 ^ 56 → va % 8 = 0 → s.rd b = 0xFFFFFFFF → s.hub.vfind s.tn va = some (key, r) →
    (Idle s → s.det = false → key.2 < 64 → Vrec s key = some r → r.sealed < 2 ^ 32 → ∃ t o z, exec (.ldvn d a b) s = .next t ∧
      t.thr.status = .parked .reply s.cur.cyc.toNat o ∧ t.thr.pc = s.thr.pc ∧ t.thr.progress.ask = .sent ∧ t.thr.progress.since = some z ∧
      elem 32 z key.2 = r.sealed) ∧
    (Idle s → s.det = true → exec (.ldvn d a b) s = .next (s.trapSt 0x0D 0)) ∧
    (s.thr.progress.since = some y → s0 ≤ r.sealed → r.lowest ≤ r.sealed →
      (p.1 = s ∨ p.1 = { s with fresh := s.fresh + 1 }) ∧ s0 ≤ p.2 ∧ p.2 ≤ r.sealed ∧ r.stateOf p.2 = .sealed) ∧
    (Served s → s.det = false → s.thr.progress.since = some y →
      p.1.vline (dieOf s.core) s.tn va [va / 64 % 4] p.2 r = (u, .ok, x) → u.cores = s.cores → u.core = s.core → u.tid = s.tid →
      ∃ t, Completes (.ldvn d a b) s t ∧ (Acquired u).WroteReg t 8 d (word (x.toNat / 2 ^ (8 * (va % 256)) % 2 ^ 64)) s.thr.ctl)

/-- The rows of versioned memory and of posted reductions: a reduction is performed in the step in which it reaches its slice, unless a fill of its
line is outstanding there and it is not its turn (R184, R234). -/
def Rules.VersionRows : Prop :=
  ∀ (s u : State) (tn va v rec n : Nat) (y : Word) (x : VReg) (key : Nat × Nat) (r : VRegion) (e : Red),
    (s.hub.vfind tn va = some (key, r) → s.vline 0 tn va [va / 64 % 4] v r = (u, .ok, x) → exec (.versionedAccess tn va v none) s = .next u) ∧
    (s.hub.vfind tn va = some (key, r) → s.versionWrite 0 tn va 8 v .write 0 (fun _ => y.toNat) = (u, .ok) →
      exec (.versionedAccess tn va v (some y)) s = .next u) ∧
    (s.hub.vfind tn va = none → exec (.versionedAccess tn va v none) s = .next s) ∧
    (Vrec s (tn, rec) = some r → r.live = false → ∃ t, exec (.regionRecordLive tn rec) s = .next t ∧ t.cores = s.cores ∧
      Vrec t (tn, rec) = some { r with
        live := true, oldest := r.basev, opened := r.basev, sealed := r.basev, due := [0, 0, 0, 0], forwarded := 0, reclaiming := false }) ∧
    (Vrec s (tn, rec) = some r → r.live = true → exec (.regionRecordLive tn rec) s = .next s) ∧
    (s.reds[n]? = some e → e.note = none → e.held = none → e.ver = none →
      let size := amoSize e.op e.w
      let d := dieOf e.core
      ((∀ k, s.atomicDie d e.tn e.va e.sc = some k → s.missLive k e.tn (lineOf e.va) = false) → s.redTurn n e = (s, true)) ∧
      (∀ s1, s.redTurn n e = (s1, false) → s.redDead e = false → ∃ t, exec (.atomicExecute (.posted n)) s = .next t ∧
        t.reds = setAt s1.reds n { e with held := some .other } ∧ t.dram = s1.dram ∧ t.dies = s1.dies) ∧
      ∀ s1, s.redTurn n e = (s1, true) →
      let run := s1.atomic d e.tn e.va size e.sc (fun m => atomicFn e.op size m e.x.toNat 0)
      (run.2.1 = .ok → ∃ t, exec (.atomicExecute (.posted n)) s = .next t ∧ t.reds = dropAt run.1.reds n ∧ t.dram = run.1.dram ∧
        t.dies = run.1.dies) ∧
      (∀ k l p, run.2.1 = .page k l p → run.1.redDead e = false → ∃ t, exec (.atomicExecute (.posted n)) s = .next t ∧
        t.reds = setAt run.1.reds n { e with note := some (.page e.va k l p, run.1.nextId), sent := false } ∧ t.dram = run.1.dram) ∧
      (∀ h, run.2.1 = .hold h → s.redDead e = true → ∃ t, exec (.atomicExecute (.posted n)) s = .next t ∧ t.reds = dropAt s.reds n ∧
        t.dram = s.dram ∧ t.dies = s.dies)) ∧
    (s.reds[n]? = some e → e.note ≠ none → exec (.atomicExecute (.posted n)) s = .next s) ∧
    (∀ f, s.farHome f.tn f.va f.pa = false → exec (.atomicExecute (.far f)) s = .next s)

/-- R233, R239, R265, R268, R269, R272 to R278: the version state machine of a region, reads and writes of versions, newest reads, and the rows that
perform them.  When an access or a hub request is served is the model's choice (log 7). -/
def Obligations.Versions : Prop := Rules.VersionControl ∧ Rules.VersionAccess ∧ Rules.NewestReads ∧ Rules.VersionRows

/-! ### Antler tensors (R280 to R288) -/

/-- A digit of a number in mixed radix: the first radix is the most significant (R281). -/
def DigitAt (radix : List Nat) (k x : Nat) : Nat :=
  match radix[k]? with
  | some n => x / prodOf (radix.drop (k + 1)) % max 1 n
  | none => 0

/-- What ATINFO writes into each element (R288). -/
def InfoAt (x : Antler) (e : Nat) : Nat :=
  match e with
  | 0 => x.d
  | 1 => x.cols
  | 2 => x.size % 2 ^ 32
  | 3 => x.size / 2 ^ 32
  | 4 => x.scale.toNat
  | 5 => x.rgn
  | _ =>
    if 8 ≤ e ∧ e < 40 then
      match x.tines[(e - 8) / 4]? with
      | some t => [t.n, t.qin, t.m, t.qout].getD (e % 4) 0
      | none => 0
    else if 40 ≤ e ∧ e < 48 then ((x.tines[e - 40]?).map (·.ty)).getD 0
    else 0

/-- R280, R284: what ATBIND captures from the 64 bytes of a header and the bytes of the records behind it, exactly where every field is as the layout has it
and every tine lies in one live region. -/
def Rules.AntlerHeader : Prop :=
  ∀ (h : Hub) (tn : Nat) (va : Word) (hd recs : List Byte) (x : Antler),
    let f := fun (off n : Nat) => natOfBytes ((hd.drop off).take n)
    let g := fun (k off n : Nat) => natOfBytes ((recs.drop (32 * k + off)).take n)
    let d := f 6 1
    let e := fun (k : Nat) => if g k 14 1 = 0 then 4 else 2
    let ks := List.range d
    parseAntler h tn va hd recs = some x ↔
      (f 0 4 = 0x414E544C ∧ f 4 2 = 1 ∧ 2 ≤ d ∧ d ≤ 8 ∧ f 7 1 = 0 ∧ f 8 4 / 2 ^ 23 % 2 ^ 8 ≠ 255 ∧ f 12 4 = 0 ∧
        f 16 8 = (ks.map (fun k => g k 8 2)).prod ∧ f 24 4 = (ks.map (fun k => g k 12 2)).prod ∧ f 24 4 ≤ 4096 ∧ f 28 36 = 0) ∧
      (∀ k, k < d → 2 ≤ g k 8 2 ∧ g k 8 2 ≤ 4096 ∧ 1 ≤ g k 10 1 ∧ g k 10 1 ≤ 64 ∧ 1 ≤ g k 11 1 ∧ g k 11 1 ≤ 64 ∧ 1 ≤ g k 12 2 ∧ g k 14 1 ≤ 1 ∧
        g k 0 8 % e k = 0 ∧ g k 15 17 = 0 ∧ (k = 0 → g k 10 1 = 1) ∧ (k + 1 < d → g (k + 1) 10 1 = g k 11 1) ∧ (k + 1 = d → g k 11 1 = 1)) ∧
      ∃ rgn, (∀ k, k < d → ∃ key r, h.vfind tn (g k 0 8) = some (key, r) ∧ key.2 = rgn ∧
          g k 0 8 + g k 8 2 * g k 10 1 * g k 12 2 * g k 11 1 * e k ≤ r.base + r.len) ∧
        x = ⟨va, d, BitVec.ofNat 32 (f 8 4), f 16 8, f 24 4, ks.map (fun k => ⟨g k 0 8, g k 8 2, g k 10 1, g k 11 1, g k 12 2, g k 14 1⟩), rgn⟩

/-- `q` is the exact product of some values, none of them a NaN, with the exclusive or of their signs. -/
def ProductIs (p : List Machine.Num) (q : Machine.Num) : Prop :=
  q.neg = decide (p.countP (·.neg) % 2 = 1) ∧ ((∃ y ∈ p, y.isInf = true) → q = .inf q.neg) ∧
  ∀ vs : List ℝ, List.Forall₂ ValueIs p vs → ValueIs q vs.prod

/-- R281: `r` is the exact sum of some products, rounded once under RNE with nothing flushed; a NaN or 0 · ∞ gives the canonical NaN and *invalid*. -/
def ProductsTo (t : ElemTy) (l : List (List Machine.Num)) (r : Fl) : Prop :=
  let void := ∃ p ∈ l, (∃ y ∈ p, y.isNan = true) ∨ ((∃ y ∈ p, y.isZero = true) ∧ ∃ y ∈ p, y.isInf = true)
  (void → r = ⟨QuietNan t, flInvalid⟩) ∧ (¬void → ∃ ps, List.Forall₂ ProductIs l ps ∧ SumsTo t .rne false ps r)

/-- R281, R282: the vectors along the beam of a column with the digits `as`, and the roundings that gave them: `p k` after the first k tines, and `q k` from
tine k on (tines count from 0). -/
structure BeamIs (x : Antler) (g : ElemOf) (as : List Nat) (p q : ℕ → ℕ → Fl) : Prop where
  start : ∀ s, p 0 s = ⟨if s = 0 then 0x3F800000 else 0, 0⟩
  last : ∀ s, q x.d s = ⟨if s = 0 then 0x3F800000 else 0, 0⟩
  first : ∀ t, x.tines[0]? = some t → ∀ s, p 1 s = ⟨if s < t.qout then g 0 0 (as.getD 0 0) s else 0, 0⟩
  next : ∀ k t, 0 < k → x.tines[k]? = some t → ∀ s, if s < t.qout then
    ProductsTo .f32 ((List.range t.qin).map (fun r => [f32Num (p k r).x, f32Num (g k r (as.getD k 0) s)])) (p (k + 1) s) else p (k + 1) s = ⟨0, 0⟩
  back : ∀ k t, x.tines[k]? = some t → ∀ r, if r < t.qin then
    ProductsTo .f32 ((List.range t.qout).map (fun s => [f32Num (g k r (as.getD k 0) s), f32Num (q (k + 1) s).x])) (q k r) else q k r = ⟨0, 0⟩

/-- The flags of some roundings together (R92). -/
def FlagsOf (l : List Fl) : Flags := l.foldl (fun f e => f ||| e.fl) 0
/-- The roundings of the steps from `lo` to `hi` of a family of vectors, each of at most 256 elements. -/
def StepsOf (p : ℕ → ℕ → Fl) (lo hi : ℕ) : List Fl := ((List.range (hi - lo)).map (fun k => (List.range 256).map (p (lo + k)))).flatten

/-- R281, R282: the values of rows and gradients: a column of a row is the first element at the end of its beam; each tine gets, for each digit value that a
column of the block has, and each pair of rows, one gradient: the sum over those columns of scale · y · prefix · suffix, rounded once to the tine's
type. -/
def Rules.AntlerValues : Prop :=
  ∀ (x : Antler) (g : ElemOf), x.d = x.tines.length → 0 < x.d → (∀ t ∈ x.tines, t.qin ≤ 255 ∧ t.qout ≤ 255) →
    ∃ p q : List Nat → ℕ → ℕ → Fl, (∀ as, BeamIs x g as (p as) (q as)) ∧
    (∀ as, (x.beam g as x.d).1.headD 0 = (p as x.d 0).x ∧ (x.beam g as x.d).2 = FlagsOf (StepsOf (p as) 0 (x.d + 1))) ∧
    ∀ (i c : Nat) (y : VReg),
      let cols := (List.range 64).filterMap (fun t => if c + t < x.cols then some (c + t) else none)
      let at_ := fun (j : Nat) => x.colDigits j
      ∃ (idx : List (ℕ × ℕ × ℕ × ℕ)) (v : ℕ × ℕ × ℕ × ℕ → Fl),
        idx.Nodup ∧ (∀ k a r s, (k, a, r, s) ∈ idx ↔ ∃ t, x.tines[k]? = some t ∧ r < t.qin ∧ s < t.qout ∧ ∃ j ∈ cols, (at_ j).getD k 0 = a) ∧
        (∀ k a r s t, (k, a, r, s) ∈ idx → x.tines[k]? = some t → ProductsTo (if t.ty = 0 then .f32 else .bf16)
          ((cols.filter (fun j => (at_ j).getD k 0 = a)).map (fun j =>
            [f32Num x.scale.toNat, f32Num (elem 32 y (j - c)), f32Num (p (at_ j) k r).x, f32Num (q (at_ j) (k + 1) s).x])) (v (k, a, r, s))) ∧
        (x.grads g i c y).1 = idx.map (fun e => match x.tines[e.1]? with
          | some t =>
            let n := if t.ty = 0 then 4 else 2
            ⟨t.base + n * (((DigitAt (x.tines.map (·.n)) e.1 i * t.qin + e.2.2.1) * t.m + e.2.1) * t.qout + e.2.2.2), n, (v e).x⟩
          | none => ⟨0, 0, 0⟩) ∧
        (x.grads g i c y).2 = FlagsOf (idx.map v) |||
          FlagsOf (cols.map (fun j => StepsOf (p (at_ j)) 0 x.d ++ StepsOf (q (at_ j)) 1 (x.d + 1))).flatten

/-- Binding, digits and the captured header.  A binding reads the header once its request is answered (log 7). -/
def Rules.AntlerHandles : Prop :=
  ∀ (s : State) (h : BitVec 3) (a : Reg) (c : VCode),
    let va := s.rd a
    let bound := fun (u : State) (x : Option Antler) (w : Word) => u.updThr (fun t => { t with
      handles := t.handles.setIfInBounds h.toNat x, ctl := { t.ctl with athand := t.ctl.athand.setIfInBounds h.toNat w } })
    let p := onePass (readHigh (dieOf s.core) s.tn) (bytePieces va.toNat 64 0 0) s
    let hd := bytesOfNat 64 (elem 512 p.1.thr.progress.data 0)
    let d := natOfBytes ((hd.drop 6).take 1)
    let q := onePass (readAside (dieOf s.core) s.tn) (bytePieces (va.toNat + 64) (32 * d) 8 0) p.1
    (Idle s → (va = 0 → EndsFrom (.atbind h a) s (bound s none 0) 8) ∧
      (va ≠ 0 → s.handle h = none → va.toNat < 2 ^ 56 → Asks (.atbind h a) s)) ∧
    (va ≠ 0 → s.handle h ≠ none → exec (.atbind h a) s = .next (s.trapSt 0x05 ((s.thr.ctl.athand[h.toNat]?).getD 0))) ∧
    (Served s → va ≠ 0 → s.handle h = none → va.toNat < 2 ^ 56 → Clean p → d < 2 ∨ 8 < d → exec (.atbind h a) s = .next (p.1.trapSt 0x05 va)) ∧
    (Served s → va ≠ 0 → s.handle h = none → va.toNat < 2 ^ 56 → Clean p → 2 ≤ d → d ≤ 8 → Clean q → p.1.core = s.core → p.1.tn = s.tn →
      (∀ x, parseAntler q.1.hub q.1.tn va hd (bytesOfVreg q.1.thr.progress.aux) = some x → q.1.Placed →
        EndsFrom (.atbind h a) s (bound q.1 (some x) va) 8) ∧
      (parseAntler q.1.hub q.1.tn va hd (bytesOfVreg q.1.thr.progress.aux) = none → exec (.atbind h a) s = .next (q.1.trapSt 0x05 va))) ∧
    (∀ x, Idle s → s.handle h = some x → vOk c = true → WinReady s [] [c] →
      (va.toNat < x.size → ∃ t, Completes (.atdig h c a) s t ∧ WroteVec s (s.claim [] [c]) t 8 c 32 64 (BitVec.allOnes 256)
        (fun k => ⟨DigitAt (x.tines.map (·.n)) k va.toNat, 0⟩) s.thr.ctl.seed) ∧
      (x.size ≤ va.toNat → exec (.atdig h c a) s = .next (s.trapSt 0x05 va)) ∧
      ∃ t, Completes (.atinfo h c) s t ∧ WroteVec s (s.claim [] [c]) t 8 c 32 64 (BitVec.allOnes 256)
        (fun e => ⟨InfoAt x e, 0⟩) s.thr.ctl.seed) ∧
    (s.handle h = none → s.holderBad [c] = none → exec (.atinfo h c) s = .next (s.trapSt 0x05 (word h.toNat)) ∧
      exec (.atdig h c a) s = .next (s.trapSt 0x05 (word h.toNat)))

/-- The element reader of a block whose lines have been read (R281). -/
def BlockReader (x : Antler) (i c : Nat) (p : Progress) : ElemOf := fun n r a q =>
  match x.tines[n]? with
  | some t => elemValue p (firstPerLine (x.uses i c)) t (t.at_ (DigitAt (x.tines.map (·.n)) n i) r a q)
  | none => 0

/-- Rows of an antler: loaded from a sealed version, and their gradients added into the next one.  The row's lines are read once the request for
them is answered (log 7); while a named version that it reads has not sealed, the instruction parks for it before it claims its window (R286, R390), and
newest never parks so (R272). -/
def Rules.AntlerRows : Prop :=
  ∀ (s : State) (h : BitVec 3) (c : VCode) (a b : Reg) (x : Antler), s.handle h = some x → vOk c = true →
    let i := (s.rd a).toNat
    let w := s.rd b
    let v := bits w 31 0
    let col := bits w 47 32
    let ls := firstPerLine (x.uses i col)
    let lines := x.lineElems i col
    let answered := s.Placed ∧ s.thr.progress.begun = true ∧ s.thr.progress.ask = .served ∧
      lines.all (fun e => s.thr.progress.elems.contains e.id) = false
    let p := onePass (readLineInto v) lines s
    let g := BlockReader x i col p.1.thr.progress
    let loads := answered → Clean p → (Acquired p.1).Placed → p.1.core = s.core → ∃ t, Completes (.atld h c a b) s t ∧
      WroteVec (Acquired p.1) (Acquired p.1) t 8 c 32 64 (BitVec.allOnes 256) (fun n =>
        if col + n < x.cols then
          let y := x.beam g (x.colDigits (col + n)) x.d
          ⟨y.1.headD 0, y.2⟩
        else ⟨0, 0⟩) p.1.thr.ctl.seed
    i < x.size → bits w 63 48 = 0 → col % 64 = 0 → col < x.cols → ls ≠ [] →
    (∀ pre e post key r, v ≠ 0xFFFFFFFF → lines = pre ++ e :: post →
      (∀ y ∈ pre, ∃ k q, s.hub.vfind s.tn y.va = some (k, q) ∧ q.stateOf v = .sealed) →
      s.hub.vfind s.tn e.va = some (key, r) → r.stateOf v = .absent ∨ (∃ n, r.stateOf v = .open n) → Idle s → s.holderBad [c] = none →
      exec (.atld h c a b) s = .next (s.parkSt (.version (key.1 * 64 + key.2) 0)) ∧
      (s.det = false → exec (.atsg h c a b) s = .next (s.parkSt (.version (key.1 * 64 + key.2) 0)))) ∧
    (v = 0xFFFFFFFF → (Idle s → WinReady s [] [c] → s.det = false → Asks (.atld h c a b) s) ∧
      (Idle s → s.holderBad [c] = none → s.det = true → exec (.atld h c a b) s = .next (s.trapSt 0x0D 0)) ∧
      (Idle s → s.holderBad [c] = none → exec (.atsg h c a b) s = .next (s.trapSt 0x05 w)) ∧ (s.thr.progress.since ≠ none → loads)) ∧
    (v ≠ 0xFFFFFFFF → (∀ e ∈ lines, ∃ key r, s.hub.vfind s.tn e.va = some (key, r) ∧ r.stateOf v = .sealed) →
    (Idle s → WinReady s [] [c] → Asks (.atld h c a b) s) ∧
    (Idle s → WinReady s [c] [] → s.det = false → Asks (.atsg h c a b) s) ∧ loads ∧
    (let y := x.grads g i col p.1.thr.progress.data
     let adds : List Elem := (List.range y.1.length).map (fun j =>
       let e := (y.1[j]?).getD ⟨0, 0, 0⟩
       ⟨ls.length + j, e.va, e.n, 0, e.x, 0⟩)
     let q := onePass (addGrad (v + 1) w) adds p.1
     answered → Clean p → Clean q → q.1.Placed → ∃ t, Completes (.atsg h c a b) s t ∧ q.1.OnlyThread t ∧
       q.1.Done t 8 ∧ t.thr.holds = ({ q.1.thr with ctl := Flagged q.1 y.2 } : Thread).holds))

/-- R280 to R288: ATBIND captures a checked header or unbinds; ATDIG gives the digits of an index and ATINFO the header; ATLD computes a row of
an antler from a sealed version, and ATSG adds the gradients of a row into the version after it.  When a request is answered is the model's
choice (log 7). -/
def Obligations.Antlers : Prop := Rules.AntlerHeader ∧ Rules.AntlerValues ∧ Rules.AntlerHandles ∧ Rules.AntlerRows

/-! ### Recording regions (R362 to R381) -/

/-- A region of the current die. -/
def RegionOf (s : State) (num : Nat) : Option RrRegion := (s.dieAt (dieOf s.core)).region num

/-- The marks of a region among the pushed copies in the L1s of a die, on lines that satisfy a test (R370); its current core is listed. -/
def PushedOf (s : State) (d num : Nat) (p : Nat → Bool) : Nat :=
  (((s.updThr (fun t => t)).cores.filter (fun e => dieOf e.1 = d)).map (fun e =>
    ((e.2.l1.filter (fun l => p l.line)).map (fun l => (l.pushed.filter (fun q => q.2 = num)).length)).sum)).sum
/-- The push-table entries of a region of launch `k` whose producer's store count is not their ordinal, on lines that satisfy a test (R371). -/
def MissedOf (s : State) (d num k : Nat) (p : Nat → Bool) : Nat :=
  (((s.updThr (fun t => t)).cores.filter (fun e => dieOf e.1 = d)).map (fun e => (e.2.pushTable.filter (fun x =>
    x.region = num ∧ x.lnum = k ∧ p x.line = true ∧ (s.dieAt d).storeCount e.1 num x.tn x.line ≠ x.ordinal)).length)).sum

/-- R363, R367, R370, R371: the last RRBEG opens a region, with its store counts at 0 and in Replay its entries armed; the last RREND closes it: an Armed
one distributes its entries to the push tables, at most 64 of them each, and replays, or falls back to Demand where a recording table overflowed; a Replay
one counts the copies that were not used and the entries whose ordinal was not met, and falls back where the departures reach its threshold; a close with
a rearm ends in Armed with no entries. -/
def Rules.RegionCloses : Prop :=
  ∀ (s : State) (a b : Reg) (k : Nat) (r : RrRegion), s.Placed → s.curLaunch = some k → s.tid ≠ 15 → s.thr.progress = Progress.none →
    let w := s.rd b
    let num := bits w 35 32
    let len := bits w 31 0
    let parts := bits w 63 48
    let x := (s.rd a).toNat
    let d := dieOf s.core
    let me : RrMember := ⟨s.core, s.tid, s.thr.placedAt, s.nextId⟩
    let mine := fun (e : PushEntry) => decide (e.region = num ∧ e.lnum = k)
    let noEntry := fun (t : State) => ∀ i, ∀ e ∈ ((t.dieAt d).slice i).recTable, ¬(e.region = num ∧ e.lnum = k)
    1 ≤ parts ∧ parts ≤ 17280 ∧ bits w 47 36 = 0 ∧ len % 256 = 0 ∧ 256 ≤ len ∧ len ≤ 2 ^ 24 →
    RegionOf s num = some r → r.rword = w → r.lnum = k →
    (r.base = x → x % 256 = 0 → x + len ≤ 2 ^ 56 → x < 2 ^ 56 → r.opened = false → s.among r.arrived = false → s.among r.members = false →
      r.arrived.length + 1 = parts → ∃ t, exec (.rrbeg a b) s = .next t ∧ t.thr.resume = true ∧
        RegionOf t num = some { r with
          opened := true, members := r.arrived ++ [me], arrived := [], ended := [], spoiled := [], departNow := 0, lost := false } ∧
        (∀ e ∈ (t.dieAt d).counts, e.region ≠ num) ∧
        ∀ c, dieOf c = d → (t.coreAt c).pushTable = (s.coreAt c).pushTable.map (fun e =>
          { e with armed := e.armed || (decide (r.mode = .replay) && mine e) })) ∧
    (s.jam = false → r.opened = true → s.among r.members = true → s.among r.ended = false → (∀ e ∈ s.cur.pushTable, e.armed = false) → s.pushes = [] →
      r.arrived.length < parts → r.ended.length + 1 = parts →
      let closes := fun (r' : RrRegion) (table : Nat → List PushEntry) => ∃ t, exec (.rrend b) s = .next t ∧ t.thr.resume = true ∧ noEntry t ∧
        RegionOf t num = some { r' with
          opened := false, rearm := false, mode := if r.rearm then .armed else r'.mode, iters := r.iters + 1, members := [], ended := [],
          departNow := 0, lost := false } ∧
        ∀ c, dieOf c = d → (t.coreAt c).pushTable = if r.rearm then (table c).filter (fun e => !mine e) else table c
      let cleared := fun (c : Nat) => (s.coreAt c).pushTable.filter (fun e => !mine e)
      let es := (((s.dieAt d).slices.map (fun y => y.2.recTable)).flatten).filter (fun e => decide (e.region = num ∧ e.lnum = k))
      let room := fun (c : Nat) => 64 - (s.coreAt c).pushTable.length
      let sent := fun (c : Nat) => es.filter (fun e => e.producer = c)
      let used := fun (l : Nat) => !r.spoiled.contains l
      let wasted := PushedOf s d num (fun _ => true)
      let missed := MissedOf s d num k used
      let gone := r.departNow + PushedOf s d num used + missed
      let counted := { r with wasted := r.wasted + wasted, mismatch := r.mismatch + missed, depart := min gone 65535 }
      (r.mode = .armed → r.lost = false → closes
        { r with mode := .replay, depart := 0, overflow := r.overflow + ((es.map (·.producer)).eraseDups.map (fun c => (sent c).length - room c)).sum }
        (fun c => (s.coreAt c).pushTable ++ ((sent c).take (room c)).map (fun e => ⟨num, k, e.tn, e.line, e.smask, e.consumer, e.ordinal, false⟩))) ∧
      (r.mode = .armed → r.lost = true → closes { r with mode := .demand, depart := 0, fallbacks := r.fallbacks + 1 } cleared) ∧
      (r.mode = .replay →
        (∀ t, exec (.rrend b) s = .next t → ∀ c, dieOf c = d → ∀ l ∈ (t.coreAt c).l1, ∀ q ∈ l.pushed, q.2 ≠ num) ∧
        (noEntry s → r.thresh = 0 ∨ gone < r.thresh → closes counted (fun c => (s.coreAt c).pushTable)) ∧
        (r.thresh ≠ 0 → r.thresh ≤ gone → closes { counted with mode := .demand, fallbacks := r.fallbacks + 1 } cleared)) ∧
      (r.mode = .demand → noEntry s → closes { r with depart := 0 } (fun c => (s.coreAt c).pushTable)))

/-- R362, R377 to R379, R381: what the RR instructions refuse. -/
def Rules.RegionTraps : Prop :=
  ∀ (s : State) (d a b : Reg) (k : Nat), s.curLaunch = some k → s.tid ≠ 15 → s.thr.progress = Progress.none →
    let w := s.rd b
    let num := bits w 35 32
    let len := bits w 31 0
    let x := (s.rd a).toNat
    let bad := fun (i : Instr) => exec i s = .next (s.trapSt 0x05 w)
    let based := x % 256 = 0 ∧ x < 2 ^ 56 ∧ x + len ≤ 2 ^ 56
    1 ≤ bits w 63 48 ∧ bits w 63 48 ≤ 17280 ∧ bits w 47 36 = 0 ∧ len % 256 = 0 ∧ 256 ≤ len ∧ len ≤ 2 ^ 24 →
    (¬based → (∀ r, RegionOf s num = some r → r.rword = w) → exec (.rrbeg a b) s = .next (s.trapSt 0x05 (s.rd a))) ∧
    (based → RegionOf s num = none → (∃ r ∈ (s.dieAt (dieOf s.core)).regions, r.lnum = k ∧ r.base < x + len ∧ x < r.base + bits r.rword 31 0) →
      bad (.rrbeg a b)) ∧
    (∀ r, RegionOf s num = some r →
      (based → r.lnum ≠ k ∨ r.base ≠ x ∨ r.rword ≠ w ∨ s.among r.arrived = true ∨ (s.among r.members = true ∧ s.among r.ended = false) →
        bad (.rrbeg a b)) ∧
      (r.opened = false ∨ s.among r.members = false ∨ s.among r.ended = true → bad (.rrend b)) ∧
      (r.lnum = k → r.rword = w → s.det = true → x ≤ 9 → exec (.rrstat d a b) s = .next (s.trapSt 0x0D 0))) ∧
    ((∀ r, RegionOf s num = some r → r.lnum ≠ k ∨ r.rword ≠ w) → ∀ i ∈ [Instr.rrend b, .rrec b, .rroff b, .rrstat d a b], bad i)

/-- R376 to R381: RRBEG allocates or joins a region of its launch and arrives; the last participant opens it; RREND arrives at the close, and the
last one ends the iteration; RREC rearms, RROFF frees and RRSTAT reads a counter once the hub has answered (log 7); t15 and a bad region word
raise *operand invalid*. -/
def Rules.RegionInstructions : Prop :=
  ∀ (s : State) (d a b : Reg) (k : Nat), s.Placed → s.curLaunch = some k →
    let x := s.rd a
    let w := s.rd b
    let num := bits w 35 32
    let len := bits w 31 0
    let parts := bits w 63 48
    let ok := 1 ≤ parts ∧ parts ≤ 17280 ∧ bits w 47 36 = 0 ∧ len % 256 = 0 ∧ 256 ≤ len ∧ len ≤ 2 ^ 24
    let me : RrMember := ⟨s.core, s.tid, s.thr.placedAt, s.nextId⟩
    let th := bits s.thr.ctl.rrthresh 15 0
    let hub := fun (i : Instr) => s.thr.progress = Progress.none → Asks i s
    let served := JustAnswered s
    let records := ∃ l, s.launchAt k = some l ∧ l.pkt.flags.testBit 2 = true
    (s.tid = 15 → s.thr.progress = Progress.none →
      ∀ i ∈ [Instr.rrbeg a b, .rrend b, .rrec b, .rroff b, .rrstat d a b], exec i s = .next (s.trapSt 0x05 15)) ∧
    (s.tid ≠ 15 → ¬ok → s.thr.progress = Progress.none →
      ∀ i ∈ [Instr.rrbeg a b, .rrend b, .rrec b, .rroff b, .rrstat d a b], exec i s = .next (s.trapSt 0x05 w)) ∧
    (∀ y f, s.thr.progress.begun = true → s.thr.progress.ending = some (.value y f) → Passes (.rrbeg a b) s 8 ∧ Passes (.rrend b) s 8) ∧
    (s.tid ≠ 15 → ok →
      (s.thr.progress = Progress.none → RegionOf s num = none →
          (∀ r ∈ (s.dieAt (dieOf s.core)).regions, r.lnum = k → r.base + bits r.rword 31 0 ≤ x.toNat ∨ x.toNat + len ≤ r.base) → x.toNat % 256 = 0 → x.toNat + len ≤ 2 ^ 56 → x.toNat < 2 ^ 56 →
        ∃ t r o c, exec (.rrbeg a b) s = .next t ∧ t.thr.status = .parked (.barrier 0) o c ∧ t.thr.pc = s.thr.pc ∧ RegionOf t num = some r ∧
          r.lnum = k ∧ r.base = x.toNat ∧ r.rword = w ∧ r.thresh = th ∧ (records → r.mode = .armed) ∧ (¬records → r.mode = .demand) ∧
          (parts = 1 → r.opened = true ∧ r.members = [me] ∧ t.thr.resume = true) ∧ (1 < parts → r.opened = false ∧ r.arrived = [me])) ∧
      (∀ r, RegionOf s num = some r → r.rword = w → r.lnum = k →
        (s.thr.progress = Progress.none → r.base = x.toNat → x.toNat % 256 = 0 → x.toNat + len ≤ 2 ^ 56 → x.toNat < 2 ^ 56 → r.opened = false → s.among r.arrived = false →
          s.among r.members = false → r.arrived.length + 1 < parts → ∃ t o c, exec (.rrbeg a b) s = .next t ∧
            t.thr.status = .parked (.barrier 0) o c ∧ RegionOf t num = some { r with arrived := r.arrived ++ [me] }) ∧
        (s.thr.progress = Progress.none → s.jam = false → r.opened = true → s.among r.members = true → s.among r.ended = false → s.cur.pushTable = [] → s.pushes = [] →
          (r.ended.length + 1 < parts → ∃ t o c, exec (.rrend b) s = .next t ∧ t.thr.status = .parked (.barrier 0) o c ∧
            RegionOf t num = some { r with ended := r.ended ++ [me] }) ∧
          (r.ended.length + 1 = parts → r.mode = .demand → r.rearm = false → r.arrived = [] → ∃ t, exec (.rrend b) s = .next t ∧
            t.thr.resume = true ∧ RegionOf t num = some { r with
              opened := false, iters := r.iters + 1, depart := 0, members := [], ended := [], departNow := 0, lost := false })) ∧
        hub (.rrec b) ∧ (r.opened = false → hub (.rroff b)) ∧ (s.det = false → x.toNat ≤ 9 → hub (.rrstat d a b)) ∧
        (served → records → r.opened = true → ∃ t, Completes (.rrec b) s t ∧ s.Done t 8 ∧ t.thr.holds = s.thr.holds ∧
          RegionOf t num = some { r with rearm := true, thresh := th }) ∧
        (served → records → r.opened = false → ∃ t, Completes (.rrec b) s t ∧ s.Done t 8 ∧ t.thr.holds = s.thr.holds ∧
          RegionOf t num = some { r with mode := .armed, thresh := th } ∧ ∀ e ∈ t.cur.pushTable, e.region = num → e.lnum ≠ k) ∧
        (served → ¬records → Passes (.rrec b) s 8) ∧
        (r.opened = true → exec (.rroff b) s = .next (s.trapSt 0x05 w)) ∧
        (served → r.opened = false → ∃ t, Completes (.rroff b) s t ∧ s.Done t 8 ∧ t.thr.holds = s.thr.holds ∧ RegionOf t num = none) ∧
        (served → s.det = false → ∀ e ∈ [(1, r.recorded), (2, r.pushes), (3, r.used), (4, r.unrec), (5, r.wasted), (6, r.mismatch), (7, r.overflow),
            (8, r.fallbacks), (9, r.shot)], x.toNat = e.1 → Writes (.rrstat d a b) s 8 d (word e.2) s.thr.ctl) ∧
        (served → s.det = false → x = 0 → Writes (.rrstat d a b) s 8 d (word (r.iters % 2 ^ 32 * 2 ^ 32 + min r.depart 65535 * 2 ^ 16 +
          (if r.rearm then 2 ^ 8 else 0) + (if r.opened then 2 ^ 7 else 0) +
          match r.mode with
          | .armed => 1
          | .replay => 2
          | .demand => 3)) s.thr.ctl) ∧
        (9 < x.toNat → exec (.rrstat d a b) s = .next (s.trapSt 0x05 x))))

/-- R362, R363, R367, R370 to R373, R376 to R381: the recording instructions, the openings and closes of regions, and what is refused.  That an RREC of
an open region takes its threshold at once is the model's choice (log 21), and so is when the hub answers (log 7). -/
def Obligations.Recording : Prop := Rules.RegionInstructions ∧ Rules.RegionCloses ∧ Rules.RegionTraps
/-! ### Rows of the memory system (R158, R172, R173, R184, R193, R214, R369) -/

/-- Requests of an L1 to its slice, and what takes a sector from it; a request that a full set keeps waiting changes nothing (the model's choice, log 43). -/
def Rules.SectorRows : Prop :=
  ∀ (s u : State) (core tn va : Nat) (k : L1Line) (l : LlcLine),
    let line := lineOf va
    let i := va / 64 % 4
    let d := dieOf core
    let held := fun (t : State) => (t.coreAt core).l1Sec tn line i
    ((tn, va) ∉ (s.coreAt core).prefetches → s.readRequest core tn va = (u, .ok) → exec (.sliceReadRequest core tn va) s = .next u ∧
      ((u.dieAt d).llcFind tn line ≠ none → held u ≠ .i ∧ (held s ≠ .m → held u = .s))) ∧
    (s.ownRequest core tn va = (u, .ok) → exec (.sliceOwnershipRequest core tn va) s = .next u ∧
      ((u.dieAt d).llcFind tn line ≠ none → held u = .m)) ∧
    ((s.coreAt core).l1Find tn line = some k →
      ((s.l1Evict core k).jam = false → ∃ t, exec (.l1WriteBack core tn va) s = .next t ∧ (t.coreAt core).l1Find tn line = none) ∧
      ((s.l1Evict core k).jam = true → exec (.l1WriteBack core tn va) s = .next s)) ∧
    (held s ≠ .m → ∃ t, exec (.l1Invalidation core tn va) s = .next t ∧ held t = .i ∧ t.dram = s.dram ∧ t.hub = s.hub) ∧
    (held s = .m → (s.coreAt core).l1Find tn line = some k → (s.dieAt d).llcFind tn line = some l → (l.owner[i]?).join = some core →
      let g := s.isGuest d l.pa
      let m := wbMask g k i
      exec (.l1Invalidation core tn va) s = .next (s.unlessJam ((s.l1Invalidate core tn line i).llcWrite d l
        { (if m = 0 then l else l.merge g m k.data) with owner := l.owner.setIfInBounds i none, sharers := l.sharers.setIfInBounds i [] })))

/-- Fills, walks, which set A also where the address lies in a package that is unavailable (R224) and change nothing where they fault, word requests, write-backs of guest lines, here
and from another package, and replies that end a park: the reply marks the request served, and the access follows in its thread (the model's choice, log 7). -/
def Rules.LineRows : Prop :=
  ∀ (s u : State) (die core tid tn va size x pa key since o : Nat) (acc : Access) (y : Word) (l : LlcLine) (f : FarLine),
    let line := lineOf va
    let th := (s.coreAt core).thr tid
    (s.ensureLine die tn line va .read = (u, .ok) → u.jam = false →
      exec (.lineFill die tn va) s = .next u ∧ (u.dieAt die).llcFind tn line ≠ none) ∧
    (s.translate die tn va acc none = (u, .ok pa key) → exec (.pageWalk die tn va acc) s = .next u ∧
      ∃ e, ((u.dieAt die).slice (sliceOf va tn)).lookup tn va = some e ∧ e.pte.getLsbD 5 = true ∧ (acc ≠ .read → e.pte.getLsbD 6 = true)) ∧
    (∀ v, s.translate die tn va acc none = (u, .trap 0x0B v) → exec (.pageWalk die tn va acc) s = .next u ∧
      ∃ e, ((u.dieAt die).slice (sliceOf va tn)).lookup tn va = some e ∧ e.pte.getLsbD 5 = true) ∧
    (∀ v, s.translate die tn va acc none = (u, .trap 0x0A v) → exec (.pageWalk die tn va acc) s = .next s) ∧
    (∀ k n p, s.translate die tn va acc none = (u, .page k n p) → exec (.pageWalk die tn va acc) s = .next s) ∧
    (s.sliceRead (dieOf core) tn va size false = (u, .ok, x) → exec (.wordRequest core tn va size none) s = .next u) ∧
    (s.sliceWrite (dieOf core) tn line va .write (maskRange (va % 256) size) (placeAt (va % 256) size y.toNat) false = (u, .ok) →
      exec (.wordRequest core tn va size (some y)) s = .next u) ∧
    ((s.dieAt die).llcFind tn line = some l → s.isGuest die l.pa = true → s.wbHeld die l = false → (s.cleanLine die tn line).jam = false →
      ∃ t, exec (.guestWriteBack (.die die) tn va) s = .next t ∧ ∀ q, (t.dieAt die).llcFind tn line = some q → q.dirty = [] ∧ q.mask = 0) ∧
    ((s.dieAt die).llcFind tn line = some l → s.wbHeld die l = true → exec (.guestWriteBack (.die die) tn va) s = .next s) ∧
    (s.farHome tn va f.pa = false → exec (.guestWriteBack (.far f) tn va) s = .next s) ∧
    (let p := f.pa / 256 * 256
     s.farHome tn va f.pa = true → s.jam = false → (s.dieAt (paDie p)).llcFind tn line = none →
      exec (.guestWriteBack (.far f) tn va) s =
        .next (s.lineWrite p f.key (overlay f.mask (s.lineRead p f.key) f.data) (maskSectors f.mask))) ∧
    (th.status = .parked .reply since o →
      (th.progress.ask ≠ .sent → ∃ t, exec (.globalReply core tid) s = .next t ∧ ((t.coreAt core).thr tid).resume = true ∧
        t.hub = s.hub ∧ t.dies = s.dies ∧ t.dram = s.dram) ∧
      (th.progress.ask = .sent → th.progress.asks = [] → th.resume = false → tid < 16 → ∃ t, exec (.globalReply core tid) s = .next t ∧
        ((t.coreAt core).thr tid).resume = true ∧ ((t.coreAt core).thr tid).progress.ask = .served ∧
        t.hub = s.hub ∧ t.dies = s.dies ∧ t.dram = s.dram))

/-- A fired push entry: on a line whose part has ended it is dropped; a claim holds it; and it is dropped where its consumer cannot take it. -/
def Rules.PushRows : Prop :=
  ∀ (s u : State) (n : Nat) (p : Push), s.pushes[n]? = some p →
    let c := s.coreAt p.consumer
    let va := p.line * 256 + 64 * p.sector
    let spoiled := ((s.dieAt p.die).region p.region).any (fun r => r.spoiled.contains p.line)
    let walk := s.translate p.die p.tn va .read none
    let absent := s.lineAbsent p.die p.tn (lineOf va)
    let wanted := c.runsLaunch p.lnum = true ∧ c.l1Sec p.tn p.line p.sector = .i ∧ c.l1Way p.tn p.line = true
    let claimed := (s.dieAt p.die).claimed p.tn p.line
    let dropped := ∃ t, exec (.replayPush n) s = .next t ∧ t.pushes = dropAt s.pushes n ∧ t.dram = s.dram
    (spoiled = true → dropped) ∧
    (spoiled = false → claimed = true → exec (.replayPush n) s = .next s) ∧
    (spoiled = false → claimed = false → ¬ wanted → dropped) ∧
    (spoiled = false → claimed = false → wanted → absent = true → (∀ pa key, walk.2 ≠ .ok pa key) →
      ∃ t, exec (.replayPush n) s = .next t ∧ t.pushes = dropAt walk.1.pushes n ∧ t.dram = walk.1.dram) ∧
    (spoiled = false → claimed = false → wanted → absent = false ∨ (∃ pa key, walk.2 = .ok pa key) →
      settled s (((s.noteMerge p.die p.tn p.line).recallSector p.die p.tn p.line p.sector none true).readRequest p.consumer p.tn va) = (u, .ok) →
      ∃ t, exec (.replayPush n) s = .next t ∧ t.pushes = dropAt u.pushes n ∧ t.dram = u.dram)

/-- R158, R172, R173, R184, R193, R214, R369: the memory system's own steps.  That a reply only ends the park, with the access served when its thread goes
on (log 7), and that a request which a full set keeps waiting has had no effect (log 43) are the model's choices. -/
def Obligations.MemoryRows : Prop := Rules.SectorRows ∧ Rules.LineRows ∧ Rules.PushRows

/-! ### Fault records and wake commands (R159, R383, R386) -/

/-- The oldest record of a tenancy goes to its fault queue, where a stop record is counted besides; with no queue it is dropped, a full queue makes it wait,
and memory that is not ready holds it; a younger one waits for the oldest (R383, R393, R404).  That the record carries the mark of having waited once is
the model's choice (log 22). -/
def Rules.FaultRecords : Prop :=
  ∀ (s : State) (n : Nat) (r : FaultRec), s.faults[n]? = some r →
    let oldest := ∀ o ∈ s.faults.take n, o.tn ≠ r.tn
    let ready := s.tnReady r.tn = true
    let q := (s.tnEntry r.tn).2.2
    let a := bits q 51 12 * 2 ^ 12
    let nq := 128 * 2 ^ bits q 3 0
    let w := s.dramRead a 8
    let used := (w + 2 ^ 64 - s.dramRead (a + 8) 8) % 2 ^ 64
    (ready → 8 ≤ bits q 3 0 → oldest → exec (.faultRecordAppend n) s = .next { s with faults := dropAt s.faults n }) ∧
    (¬ready ∨ (bits q 3 0 < 8 ∧ s.hub.memReady a = false) ∨ (¬oldest ∧ (8 ≤ bits q 3 0 ∨ used < nq)) → exec (.faultRecordAppend n) s = .next s) ∧
    (ready → bits q 3 0 < 8 → s.hub.memReady a = true →
    (used < nq → oldest → ∃ t, exec (.faultRecordAppend n) s = .next t ∧ t.faults = dropAt s.faults n ∧
      t.dramBytes (a + 64 + 32 * (w % nq)) 32 = r.bytes ∧ t.dramRead a 8 = (w + 1) % 2 ^ 64 ∧
      t.dramRead (a + 8) 8 = s.dramRead (a + 8) 8 ∧
      t.dramRead (a + 24) 8 = (if r.kind = 9 then (s.dramRead (a + 24) 8 + 1) % 2 ^ 64 else s.dramRead (a + 24) 8) ∧ t.hub.signals = (s.hub.route r.tn, r.tn) :: s.hub.signals ∧
      t.cores = s.cores ∧ t.dies = s.dies) ∧
    (nq ≤ used → r.waited = true → exec (.faultRecordAppend n) s = .next s) ∧
    (nq ≤ used → r.waited = false → ∃ t, exec (.faultRecordAppend n) s = .next t ∧
      t.faults = setAt s.faults n { r with waited := true } ∧ t.dramRead (a + 16) 8 = (s.dramRead (a + 16) 8 + 1) % 2 ^ 64))

/-- A wake command has the layout of R385, acts on the context whose page fault it names, and is counted as stale where there is none.  That a row whose
words name the other action does nothing is the model's choice (log 29). -/
def Rules.WakeCommands : Prop :=
  ∀ (s : State) (c0 c1 c2 c3 : Word) (vas : List Nat) (since o : Nat),
    let x := wakeCmd c0 c1 c2
    let th := (s.coreAt x.core).thr x.tid
    (x.action = 2 → exec (.wakeRetry c0 c1 c2 c3) s = .next s) ∧ (x.action ≠ 2 → exec (.wakeFail c0 c1 c2 c3) s = .next s) ∧
    (14 < x.tid → x.action ≠ 2 → ∃ t, exec (.wakeRetry c0 c1 c2 c3) s = .next t ∧
      t = s.updHub (fun h => { h with staleWakes := s.hub.staleWakes + 1 })) ∧
    (14 < x.tid → x.action = 2 → ∃ t, exec (.wakeFail c0 c1 c2 c3) s = .next t ∧
      t = s.updHub (fun h => { h with staleWakes := s.hub.staleWakes + 1 })) ∧
    (x.tid ≤ 14 → th.resume = false → th.status = .parked (.fault vas) since o → th.matchesWake x = true →
      (x.action = 1 → ∃ t, exec (.wakeRetry c0 c1 c2 c3) s = .next t ∧ ((t.coreAt x.core).thr x.tid).resume = true ∧
        ((t.coreAt x.core).thr x.tid).progress = th.progress) ∧
      (x.action = 2 → ∃ t, exec (.wakeFail c0 c1 c2 c3) s = .next t ∧ ((t.coreAt x.core).thr x.tid).resume = true ∧
        ((t.coreAt x.core).thr x.tid).progress = { th.progress with ending := some (.trap 0x0A (word (leastVa vas))) }))

/-- R159, R383, R385, R386: fault records and the commands that answer them.  The mark of a record that has waited once (log 22) and the row of the other
action (log 29) are the model's choices. -/
def Obligations.FaultQueues : Prop := Rules.FaultRecords ∧ Rules.WakeCommands

/-! ### Command windows (R162 to R167, R392, R399 to R401, R417) -/

/-- Memory after the done word of a command has been written. -/
def DoneWord (s t : State) (done : Word) (num : Nat) (rejected : Bool) : Prop :=
  let u := s.paPut (done.toNat % 2 ^ 52) (bytesOfNat 8 (num + if rejected then 2 ^ 63 else 0))
  t.dram = u.dram ∧ t.far = u.far
/-- The number that a window gives to its next command. -/
def NextNumber (s : State) (w : CmdWin) : Nat := nextNumber ((getKey s.hub.counts w).getD 0)

/-- Shootdowns (R402 gives the numbers of commands): a rejected one, an invalidate, a release, and the completion.  An invalidate waits while an engine of
a die is in the middle of a line of the range (R163) or a line cannot be written home; that it has had no effect at all till then is the model's choice
(log 30). -/
def Rules.ShootdownCommands : Prop :=
  ∀ (s : State) (c0 c1 c2 c3 : Word) (x : Shootdown) (c : Command), s.hub.sealed = false →
    let tn := bits c0 15 0
    let op := bits c0 23 16
    let num := NextNumber s .shootdown
    let lo := c1.toNat
    let hi := c2.toNat
    let ds := (List.range 8).filter (fun d => (bits c0 31 24).testBit d)
    let accepted := (s.accept .shootdown c0 c1 c2 c3).1
    let free := ds.any (s.recallWaits tn lo hi) = false ∧ (ds.foldl (fun (v : State) d => v.purgeDie tn lo hi d) accepted).jam = false
    let invalidated := fun (t : State) => t.hub.shoot = some ⟨tn, op, bits c0 31 24, lo, hi⟩ ∧
      ∀ d, d < 8 → (bits c0 31 24).testBit d = true →
        (∀ va, lo ≤ va → va < hi → t.shootHolds d tn va = true) ∧
        ∀ i, ∀ e ∈ ((t.dieAt d).slice i).tlb, ¬ (e.tn = tn ∧ e.va < hi ∧ lo < e.va + pageSize e.level)
    (s.hub.oldest .shootdown = none →
      (op = 1 → shootBad c0 c1 c2 = true → ∃ t, exec (.shootdownInvalidate c0 c1 c2 c3) s = .next t ∧ DoneWord s t c3 num true ∧
        t.cores = s.cores ∧ t.dies = s.dies ∧ t.hub.cmds = s.hub.cmds) ∧
      (op = 1 → shootBad c0 c1 c2 = false → s.hub.shoot = none →
        (free → ∃ t, exec (.shootdownInvalidate c0 c1 c2 c3) s = .next t ∧ invalidated t) ∧
        (ds.any (s.recallWaits tn lo hi) = true → exec (.shootdownInvalidate c0 c1 c2 c3) s = .next accepted)) ∧
      (op = 3 → shootBad c0 c1 c2 = false → s.hub.shoot = none → free →
        ∃ t, exec (.shootdownInvalidateRelease c0 c1 c2 c3) s = .next t ∧ invalidated t) ∧
      (op = 2 → shootBad c0 c1 c2 = false → s.hub.shoot = none → ∃ t, exec (.shootdownRelease c0 c1 c2 c3) s = .next t ∧
        DoneWord (s.releaseHeld tn lo hi) t c3 num false ∧ t.hub.cmds = s.hub.cmds ∧ t.dies = s.dies ∧
        ∀ k j, ((t.coreAt k).thr j).ctl.tenancy.toNat = tn → ∀ va ∈ ((t.coreAt k).thr j).progress.held, ¬ (lo ≤ va ∧ va < hi))) ∧
    (s.hub.shoot = some x → s.hub.oldest .shootdown = some c → ∃ t, exec .shootdownComplete s = .next t ∧ t.hub.shoot = none ∧
      (x.op ≠ 3 ∨ s.hub.pool = [] → DoneWord s t c.w3 c.num false)) ∧
    (s.hub.shoot = none → exec .shootdownComplete s = .next s)

/-- Context switch commands on an active launch. -/
def Rules.SwitchCommands : Prop :=
  ∀ (s u : State) (c0 c1 c2 c3 : Word) (l : Launch) (n : Nat),
    let x := switchCmd c0 c1 c2
    let num := NextNumber s .switch
    let ds := x.diesOf l
    let mine := fun (y : Saved) => y.thread.task.any (fun k => k.lnum == l.lnum) = true
    s.hub.oldest .switch = none → x.bad = false → s.hub.named x.queue x.seq = some l →
    (l.tn ≠ x.tn → x.op = 1 → ∃ t, exec (.switchOut c0 c1 c2 c3) s = .next t ∧ DoneWord s t c3 num true ∧ t.hub.launches = s.hub.launches) ∧
    (l.tn = x.tn →
      (x.op = 1 → ∃ t, exec (.switchOut c0 c1 c2 c3) s = .next t ∧ (∃ q ∈ t.hub.launches, q.lnum = l.lnum ∧ ∀ d ∈ ds, d ∈ q.out) ∧
        ∀ k, dieOf k ∈ ds → ∀ r ∈ (t.coreAt k).deque, r.lnum ≠ l.lnum) ∧
      (x.op = 2 → ∃ t, exec (.switchResume c0 c1 c2 c3) s = .next t ∧ (∃ q ∈ t.hub.launches, q.lnum = l.lnum ∧ ∀ d ∈ ds, d ∉ q.out) ∧
        ∀ e ∈ t.hub.pool, dieOf e.1 ∈ ds → mine e.2 → e.2.out = false) ∧
      (x.op = 3 → s.launchAt l.lnum = some l → l.ended = false → ∃ t, exec (.hostAbort c0 c1 c2 c3) s = .next t ∧
        ∃ q, t.launchAt l.lnum = some q ∧ q.ended = true ∧ q.status = 4 ∧ q.todo = [] ∧ ∀ e ∈ q.counts, e.2 = 0) ∧
      (x.op = 4 → s.holdsTask x.core x.tid l.lnum = true → (s.accept .switch c0 c1 c2 c3).1.swapOut x.core x.tid true = some (u, n) →
        ∃ t, exec (.stopOneThread c0 c1 c2 c3) s = .next t ∧ ((t.coreAt x.core).thr x.tid).status = .free ∧
          ∃ e ∈ t.hub.pool, e.1 = x.core ∧ e.2.tid = x.tid ∧ e.2.record = n ∧ e.2.out = true) ∧
      (x.op = 5 → s.savedOf x.core x.tid l.lnum ≠ [] → ∃ t, exec (.resumeOneThread c0 c1 c2 c3) s = .next t ∧ t.cores = s.cores ∧
        ∀ e ∈ t.hub.pool, e.1 = x.core → e.2.tid = x.tid → mine e.2 → e.2.out = false))

/-- A copy program for a launch that has a task on the core. -/
def Rules.CopyPrograms : Prop :=
  ∀ (s : State) (c0 c1 c2 c3 : Word) (l : Launch), s.hub.sealed = false → s.hub.oldest .copyProg = none →
    let core := bits c0 15 0
    let num := NextNumber s .copyProg
    let good := decide (core ≤ 9215) && c1.toNat % 4096 == 0 && s.hub.ownTier c1.toNat 2 && c2 == 0
    (good = true → s.hub.named (bits c0 31 16) (bits c0 63 32) = some l → s.remains core l.lnum = true →
      ∃ t, exec (.copyProgramInstall c0 c1 c2 c3) s = .next t ∧ DoneWord s t c3 num false ∧ (t.coreAt core).copyProg = some l.lnum ∧
        ((t.coreAt core).thr 15).status = .ready ∧ ((t.coreAt core).thr 15).pc = 0x3F000 ∧
        ∀ i : Nat, 16 ≤ i → i < 32 → ((t.coreAt core).landing[i]?).map (·.full) = some false) ∧
    (good = false → ∃ t, exec (.copyProgramInstall c0 c1 c2 c3) s = .next t ∧ DoneWord s t c3 num true ∧ t.cores = s.cores)

/-- R162 to R167, R392, R399, R401, R402, R417: the commands of the hub's windows.  That a waiting invalidate has had no effect is the model's choice
(log 30). -/
def Obligations.HubCommands : Prop := Rules.ShootdownCommands ∧ Rules.SwitchCommands ∧ Rules.CopyPrograms

/-! ### The control range, capture units and the aperture (R398, R399, R409) -/

/-- Writes to the registers of the first page, and the words that a writer stages in a command window.  That a value outside a register's range is
discarded and counted is the model's reading (log 31). -/
def Rules.ControlWrites : Prop :=
  ∀ (s : State) (writer off : Nat) (x : Word), s.hub.sealed = false →
    let n := x.toNat
    let discarded := exec (.controlRangeWrite writer off x) s = .next (s.updHub (fun h => { h with discardedControl := s.hub.discardedControl + 1 }))
    let sets := fun (f : Hub → Hub) => exec (.controlRangeWrite writer off x) s = .next (s.updHub f)
    (off % 8 ≠ 0 → off < 0x5000000 → discarded) ∧
    (off < 0x10 → discarded) ∧ (0x38 ≤ off → off < 0x1000 → discarded) ∧
    (off = 0x10 → (n < 1024 → s.hub.portsDown = true → sets (fun h => { h with pkg := n })) ∧
      (1024 ≤ n ∨ s.hub.portsDown = false → discarded)) ∧
    (off = 0x18 → (1 ≤ n → n ≤ 1024 → sets (fun h => { h with ageStep := n })) ∧ (n = 0 ∨ 1024 < n → discarded)) ∧
    (off = 0x20 → (n < 2 ^ 52 → sets (fun h => { h with tntab := n })) ∧ (2 ^ 52 ≤ n → discarded)) ∧
    (off = 0x28 → (n < 2 ^ 52 → sets (fun h => { h with poolPa := n })) ∧ (2 ^ 52 ≤ n → discarded)) ∧
    (off = 0x30 → sets (fun h => { h with poolSize := n })) ∧
    (0x1000 ≤ off → off < 0x1080 → off % 8 = 0 → off % 32 ≠ 24 →
      sets (fun h => { h with staged := setKey h.staged (windowAt ((off - 0x1000) / 32), writer, off % 32 / 8) x }))

/-- R220, R256, R265, R337, R399, R400, R405, R407, R409: writes to the tables of the control range: routes, overflow areas, queue, window, region, pod group
and island records, and capture units; the words that the hub alone writes, the debug enables among them, discard and count what is written there (log
31). -/
def Rules.ControlTables : Prop :=
  ∀ (s : State) (writer off : Nat) (x : Word), s.hub.sealed = false →
    let n := x.toNat
    let go := exec (.controlRangeWrite writer off x) s
    let discarded := go = .next (s.updHub (fun h => { h with discardedControl := s.hub.discardedControl + 1 }))
    let sets := fun (f : Hub → Hub) => go = .next (s.updHub f)
    let reg := fun (at_ : Nat) (ok : Prop) (f : Hub → Hub) => off = at_ → (ok → sets f) ∧ (¬ok → discarded)
    let power := fun (lo hi m : Nat) => ∃ k, lo ≤ k ∧ k ≤ hi ∧ m = 2 ^ k
    (∀ i, i < 1024 → off = 0x10000 + 8 * i →
      let r := fun (j : Nat) => n / 2 ^ (16 * j) % 2 ^ 16
      ((∀ j, j < 4 → r j / 64 % 512 = 0) → ∃ t, go = .next t ∧ t = s.updHub (fun h => { h with routes := t.hub.routes }) ∧
        ∀ tn, t.hub.route tn = if tn / 4 = i then r (tn % 4) else s.hub.route tn) ∧
      ((∃ j, j < 4 ∧ r j / 64 % 512 ≠ 0) → discarded)) ∧
    (∀ t, t < 4096 →
      let e := (getKey s.hub.overflowAreas t).getD (0, 0)
      reg (0x20000 + 16 * t) (n < 2 ^ 52) (fun h => { h with overflowAreas := setKey h.overflowAreas t (n, e.2) }) ∧
      reg (0x20008 + 16 * t) (n = 0 ∨ power 6 16 n) (fun h => { h with overflowAreas := setKey h.overflowAreas t (e.1, n) })) ∧
    (∀ q, q < 16384 →
      let r := s.hub.queue q
      let a := 0x100000 + 32 * q
      let u := s.updHub (·.setQueue { r with tenancy := bits x 15 0, maxprio := bits x 31 24, prelim := bits x 47 32 })
      let ok := bits x 15 0 ≤ 4095 ∧ bits x 23 16 ≤ 1 ∧ bits x 31 24 ≤ 7 ∧ 20 ≤ bits x 47 32 ∧ bits x 63 48 = 0
      (off = a → (¬ok → discarded) ∧ (ok → (bits x 23 16 = (if r.opened then 1 else 0) → go = .next u) ∧
        (r.opened = false → bits x 23 16 = 1 → go = exec (.queueOpen q) u) ∧ (r.opened = true → bits x 23 16 = 0 → go = exec (.queueClose q) u))) ∧
      reg (a + 8) (n % 4096 = 0 ∧ s.hub.ownTier n 2 = true) (·.setQueue { r with backing := n }) ∧
      reg (a + 16) (power 4 16 (bits x 31 0)) (·.setQueue { r with entries := bits x 31 0 }) ∧ (off = a + 24 → discarded)) ∧
    (∀ q, q < 16384 →
      let w := s.hub.window q
      let a := 0x180000 + 32 * q
      let put := fun (w : WinRec) (h : Hub) => ({ h with winTab := setKey h.winTab q w } : Hub)
      reg a (bits x 15 0 ≤ 4095 ∧ bits x 23 16 ≤ 1 ∧ bits x 31 24 = 0 ∧ bits x 47 32 ≤ 9215 ∧ bits x 63 48 = 0)
        (put { w with tenancy := bits x 15 0, state := bits x 23 16, core := bits x 47 32 }) ∧
      reg (a + 8) (n % 8 = 0 ∧ n < 0x40000) (put { w with ctr := n }) ∧ reg (a + 16) (n % 256 = 0 ∧ n < 2 ^ 56) (put { w with base := n }) ∧
      reg (a + 24) (n % 256 = 0 ∧ 256 ≤ n ∧ n ≤ 2 ^ 40) (put { w with len := n })) ∧
    (∀ t i, t < 4096 → i < 64 →
      let r := (getKey s.hub.vregions (t, i)).getD VRegion.fresh
      let a := 0x200000 + 64 * (64 * t + i)
      let put := fun (r : VRegion) (h : Hub) => ({ h with vregions := setKey h.vregions (t, i) r } : Hub)
      let k := bits x 7 0
      let b := bits x 63 32
      reg a (n % 2 ^ 19 = 0 ∧ n < 2 ^ 56) (put { r with base := n }) ∧ reg (a + 8) (n % 2 ^ 19 = 0 ∧ n ≠ 0) (put { r with len := n }) ∧
      reg (a + 16) (n % 4096 = 0 ∧ s.hub.ownTier n 1 = true) (put { r with tagpa := n }) ∧
      (off = a + 24 → ((k = 2 ∨ k = 4) ∧ bits x 31 16 = 0 ∧ b ≠ 0xFFFFFFFF →
          (bits x 15 8 = 0 → ∃ t', go = .next t' ∧ getKey t'.hub.vregions (t, i) = some { r with k := k, basev := b, live := false }) ∧
          (bits x 15 8 = 1 → r.live = true → sets (put { r with k := k, basev := b })) ∧
          (bits x 15 8 = 1 → r.live = false → ∃ t', go = .next t' ∧ getKey t'.hub.vregions (t, i) = some { r with
            k := k, basev := b, live := true, oldest := b, opened := b, sealed := b, due := [0, 0, 0, 0], forwarded := 0, reclaiming := false })) ∧
        (¬((k = 2 ∨ k = 4) ∧ bits x 15 8 ≤ 1 ∧ bits x 31 16 = 0 ∧ b ≠ 0xFFFFFFFF) → discarded)) ∧
      (∀ j, 4 ≤ j → j < 8 → off = a + 8 * j → discarded)) ∧
    (∀ i, i < 16 →
      let g := (getKey s.hub.podGroups i).getD ⟨0, 0, 0, 0⟩
      let a := 0x1200000 + 256 * i
      let put := fun (g : PodGroup) (h : Hub) => ({ h with podGroups := setKey h.podGroups i g } : Hub)
      reg a (bits x 15 0 ≤ 4095 ∧ bits x 23 16 ≤ 1 ∧ bits x 31 24 = 0 ∧ bits x 47 32 ≤ 4095 ∧ bits x 63 48 = 0)
        (put { g with tenancy := bits x 15 0, state := bits x 23 16, lnum := bits x 47 32 }) ∧
      reg (a + 8) (n < 2 ^ 32) (put { g with e := n }) ∧ ∀ j, 2 ≤ j → j < 32 → reg (a + 8 * j) (n = 0) (fun h => h)) ∧
    (∀ i, i < 128 → reg (0x1300000 + 16 * i) (bits x 63 12 = 0 ∧ bits x 7 4 = 0)
        (fun h => { h with islands := setKey h.islands i { s.hub.island i with cap := min 10 (bits x 3 0) } }) ∧
      (off = 0x1300008 + 16 * i → discarded)) ∧
    (∀ u, u < 64 →
      (off = 0x1400000 + 256 * u → (bits x 63 40 = 0 ∧ bits x 23 5 = 0 → go = exec (.captureUnitControl u x) s) ∧
        (¬(bits x 63 40 = 0 ∧ bits x 23 5 = 0) → discarded)) ∧
      ∀ j, 1 ≤ j → j < 32 → off = 0x1400000 + 256 * u + 8 * j → discarded) ∧
    ((0x1210000 ≤ off ∧ off < 0x1210200) ∨ (0x1500000 ≤ off ∧ off < 0x1500800) ∨ (0x2000000 ≤ off ∧ off < 0x2090000) ∨
      (0x4010000 ≤ off ∧ off < 0x4010400) → discarded)

/-- R411, R413: writes to the security mailbox, which a sealed package answers too: a command word, refused while a command runs, and request data; in hold
only command 3 is taken, and nothing is while the engine is not ready (log 32). -/
def Rules.MailboxWrites : Prop :=
  ∀ (s : State) (writer o : Nat) (x : Word), o < 0x1000 →
    let go := exec (.controlRangeWrite writer (0x4000000 + o) x) s
    let discarded := go = .next (s.updHub (fun h => { h with discardedControl := s.hub.discardedControl + 1 }))
    let sec := fun (f : Security → Security) => go = .next (s.updHub (fun h => { h with sec := f h.sec }))
    (s.hub.readyBit 101 = false → discarded) ∧
    (s.hub.readyBit 101 = true →
      (o = 0 →
        (s.hub.sec.command.isSome = true → sec (fun y => { y with status := 1 })) ∧
        (s.hub.sec.command = none → s.hub.sec.hold = true → x ≠ 3 → go = .next s) ∧
        (s.hub.sec.command = none → s.hub.sec.hold = false ∨ x = 3 → 1 ≤ x.toNat → x.toNat ≤ 7 →
          sec (fun y => { y with command := some (x.toNat, writer), status := 1 })) ∧
        (s.hub.sec.command = none → s.hub.sec.hold = false → x = 0 ∨ 7 < x.toNat → sec (fun y => { y with status := 2 }))) ∧
      (0x100 ≤ o → o < 0x800 → o % 8 = 0 → sec (fun y => { y with request := setKey y.request o x })) ∧
      (o ≠ 0 → o % 8 ≠ 0 ∨ o < 0x100 ∨ 0x800 ≤ o → discarded))

/-- R182, R223, R247, R265, R337, R398, R399, R407, R409, R411: reads of the tables of the control range, word by word. -/
def Rules.TableReads : Prop :=
  ∀ (s : State) (reader off i j : Nat), s.hub.sealed = false →
    let h := s.hub
    let gives := fun (x : Word) => exec (.apertureRead (.control reader off)) s = .next (s.updHub (fun h => { h with hostRead := x }))
    let words := fun (base size unit count : Nat) (f : List Nat) => i < count → j < size → off = base + unit * i + 8 * j → gives (word (f.getD j 0))
    let q := h.queue i
    let w := h.window i
    let r := (getKey h.vregions (i / 64, i % 64)).getD VRegion.fresh
    let g := (getKey h.podGroups i).getD ⟨0, 0, 0, 0⟩
    let c := h.capture i
    let d := s.dieAt i
    let y := (s.dieAt (i / 288)).slice (i % 288)
    let ls := (s.dieAt (i / 288)).llc.filter (fun l => sliceOfLine l.line l.tn = i % 288)
    words 0x10000 1 8 1024 [h.route (4 * i) + h.route (4 * i + 1) * 2 ^ 16 + h.route (4 * i + 2) * 2 ^ 32 + h.route (4 * i + 3) * 2 ^ 48] ∧
    words 0x20000 2 16 4096 [((getKey h.overflowAreas i).getD (0, 0)).1, ((getKey h.overflowAreas i).getD (0, 0)).2] ∧
    words 0x100000 4 32 16384 [q.tenancy + (if q.opened then 2 ^ 16 else 0) + q.maxprio * 2 ^ 24 + q.prelim * 2 ^ 32, q.backing,
      q.entries + q.seq * 2 ^ 32, q.dropped] ∧
    words 0x180000 4 32 16384 [w.tenancy + w.state * 2 ^ 16 + w.core * 2 ^ 32, w.ctr, w.base, w.len] ∧
    words 0x200000 6 64 262144 [r.base, r.len, r.tagpa, r.k + (if r.live then 2 ^ 8 else 0) + r.basev * 2 ^ 32, r.oldest + r.opened * 2 ^ 32, r.sealed] ∧
    (i < 262144 → off = 0x200038 + 64 * i → gives (word r.forwarded)) ∧
    words 0x1200000 32 256 16 [g.tenancy + g.state * 2 ^ 16 + g.lnum * 2 ^ 32, g.e] ∧
    (i < 64 → off = 0x1210000 + 8 * i → ∃ x : Word, gives x ∧ ∀ b, b < 64 → (x.getLsbD b = true ↔ 64 * i + b ∈ h.debugOn)) ∧
    words 0x1300000 2 16 128 [(h.island i).cap + (h.island i).cur * 2 ^ 8, (h.island i).throttles] ∧
    words 0x1400000 32 256 64 ([(if c.en then 1 else 0) + c.code * 2 + c.arg * 2 ^ 24, c.count.toNat, c.min.toNat, c.max.toNat] ++ c.hist.map (·.toNat)) ∧
    words 0x1500000 32 256 8 [d.guestDiscards, d.droppedWrites, d.apertureDiscards] ∧
    (i < 2304 → (off = 0x2000000 + 256 * i → gives (word ls.length)) ∧ (off = 0x2000008 + 256 * i → gives (word (cellsUsed ls))) ∧
      (j < 9 → off = 0x2000010 + 256 * i + 8 * j → gives (word (ls.filter (fun l => l.cells.length = j)).length)) ∧
      (j < 6 → off = 0x2000058 + 256 * i + 8 * j →
        gives (word ([y.expansions, y.expevict, y.fills, y.discards, y.merges, y.combines].getD j 0))))

/-- A capture unit: its control word clears it, and each sample is counted in the bucket of its highest one bit. -/
def Rules.CaptureUnits : Prop :=
  ∀ (s : State) (u n place pos : Nat) (w : Word),
    (s.hub.sealed = false → u < 64 → ∃ t, exec (.captureUnitControl u w) s = .next t ∧ t.cores = s.cores ∧ t.dram = s.dram ∧
      t.hub.capture u = ⟨bits w 39 24, bits w 4 1, w.getLsbD 0, 0, BitVec.allOnes 64, 0, List.replicate 16 0⟩ ∧
      ∀ j, j ≠ u → t.hub.capture j = s.hub.capture j) ∧
    (let u := if place = 8 then pos else 8 + 7 * place + pos
     (s.captureLevel u = none → exec (.captureSample place pos) s = .next s) ∧
     (s.captureLevel u = some n → n < 2 ^ 64 → ∃ t, exec (.captureSample place pos) s = .next t ∧
      let a := s.hub.capture u
      let b := t.hub.capture u
      let k := if n = 0 then 0 else min 15 (Nat.log2 n + 1)
      b.count = a.count + 1 ∧ b.min.toNat = min a.min.toNat n ∧ b.max.toNat = max a.max.toNat n ∧ b.en = a.en ∧ b.code = a.code ∧
      (a.hist.length = 16 → ∀ i, i < 16 → b.hist.getD i 0 = a.hist.getD i 0 + if i = k then 1 else 0) ∧
      ∀ j, j ≠ u → t.hub.capture j = s.hub.capture j))

/-- Host accesses to LM and memory through the aperture. -/
def Rules.ApertureAccess : Prop :=
  ∀ (s : State) (off : Nat) (x : Word), s.hub.sealed = false → off % 8 = 0 →
    let core := off / 0x40000
    let a := off % 0x40000
    let pa := s.hub.pkg * 2 ^ 42 + off % 2 ^ 42
    (off < 0x90000000 → 0x200 ≤ a → a < 0x2E200 →
      exec (.apertureRead (.aperture off)) s = .next (s.updHub (fun h => { h with hostRead := word ((s.coreAt core).lmRead a 8) }))) ∧
    (2 ^ 42 ≤ off → off < 2 ^ 43 → paPopulated pa = true →
      exec (.apertureRead (.aperture off)) s = .next (s.updHub (fun h => { h with hostRead := word (s.dramRead pa 8) }))) ∧
    (0x90000000 ≤ off → off < 2 ^ 42 → exec (.apertureRead (.aperture off)) s = .next (s.updHub (fun h => { h with hostRead := 0 }))) ∧
    (off < 0x90000000 → (s.coreAt core).attr (a / 512) = .data ∨ (∃ k, (s.coreAt core).attr (a / 512) = .code k) →
      exec (.apertureWrite off x) s = .next (s.updCore core (fun k => k.lmWrite a 8 x.toNat))) ∧
    (off < 0x90000000 → (s.coreAt core).attr (a / 512) = .system ∨ (s.coreAt core).attr (a / 512) = .copy →
      ∃ t, exec (.apertureWrite off x) s = .next t ∧ t.cores = s.cores ∧ t.dram = s.dram ∧ t.hub = s.hub ∧
        (t.dieAt (dieOf core)).apertureDiscards = (s.dieAt (dieOf core)).apertureDiscards + 1) ∧
    (2 ^ 42 ≤ off → off < 2 ^ 43 → paPopulated pa = true → exec (.apertureWrite off x) s = .next (s.dramWrite pa 8 x.toNat)) ∧
    (0x90000000 ≤ off → off < 2 ^ 42 ∨ 2 ^ 43 ≤ off → off < 2 ^ 43 + 2 ^ 42 →
      exec (.apertureWrite off x) s = .next (s.updHub (fun h => { h with discardedAperture := s.hub.discardedAperture + 1 })))

/-- Reads of the launch window, which give zero, and of the control range: the registers and counters of its first page, and an offset that is no
8-byte word, which is counted.  A sealed package answers the readiness map alone of these.  The reads stand as the row APERTURE_READ with their
value in `hostRead` (logs 33 and 53). -/
def Rules.HostReads : Prop :=
  ∀ (s : State) (reader off : Nat),
    let gives := fun (what : HostRead) (s' : State) (x : Word) => exec (.apertureRead what) s = .next (s'.updHub (fun h => { h with hostRead := x }))
    (s.hub.sealed = false → gives (.launch off) s 0) ∧
    (off = 0 → gives (.control reader off) s s.hub.ready0) ∧ (off = 8 → gives (.control reader off) s s.hub.ready1) ∧
    (s.hub.sealed = true → 0x10 ≤ off → off < 0x4000000 → exec (.apertureRead (.control reader off)) s = .next s) ∧
    (s.hub.sealed = false →
      (off = 0x10 → gives (.control reader off) s (word s.hub.pkg)) ∧ (off = 0x18 → gives (.control reader off) s (word s.hub.ageStep)) ∧
      (off = 0x20 → gives (.control reader off) s (word s.hub.tntab)) ∧ (off = 0x28 → gives (.control reader off) s (word s.hub.poolPa)) ∧
      (off = 0x30 → gives (.control reader off) s (word s.hub.poolSize)) ∧
      (∀ e ∈ [(0x40, s.hub.staleWakes), (0x48, s.hub.faultedStores), (0x50, s.hub.discardedControl), (0x58, s.hub.discardedAperture),
        (0x60, s.hub.copyRestarts), (0x68, s.hub.lostNoArea)], off = e.1 → gives (.control reader off) s (word e.2)) ∧
      (off % 8 ≠ 0 → off < 0x5000000 → gives (.control reader off) s.discardControl 0))

/-- R413: any access to the key store raises the alarm, also in hold or with unverified firmware; in a package that is not sealed it is counted
besides, and a read gives 0 (logs 31 and 53). -/
def Rules.KeyStoreAccess : Prop :=
  ∀ (s : State) (who off : Nat) (x : Word), 0x5000000 ≤ off → off < 0x6000000 →
    let alarm := fun (t : State) => exec (.securityAlarm .keyStore (word who)) t
    (s.hub.sealed = true → exec (.controlRangeWrite who off x) s = alarm s ∧ exec (.apertureRead (.control who off)) s = alarm s) ∧
    (s.hub.sealed = false → exec (.controlRangeWrite who off x) s = alarm s.discardControl ∧
      exec (.apertureRead (.control who off)) s = alarm (s.discardControl.updHub (fun h => { h with hostRead := 0 })))

/-- R338, R398 to R400, R409, R411, R413: what the host and hub firmware write and read.  The rows that read, with their value in `hostRead`, the discards
of values outside a register's range and what the mailbox takes are the model's (logs 31, 32, 33 and 53). -/
def Obligations.ControlAndAperture : Prop :=
  Rules.ControlWrites ∧ Rules.ControlTables ∧ Rules.MailboxWrites ∧ Rules.TableReads ∧ Rules.CaptureUnits ∧ Rules.ApertureAccess ∧ Rules.HostReads ∧ Rules.KeyStoreAccess

/-! ### Readiness, packages, power (R223, R224, R403 to R408) -/

/-- Functions that become ready or fail, and ports. -/
def Rules.ReadinessRows : Prop :=
  ∀ (s : State) (b p : Nat),
    let others := fun (t : State) (b : Nat) => ∀ j, j < 102 → j ≠ b → t.hub.readyBit j = s.hub.readyBit j
    (s.hub.sec.hold = false → b < 102 → s.hub.readyBit b = false → b ≠ 64 ∨ s.hub.sec.verified = true →
      ∃ t, exec (.functionReady b) s = .next t ∧ t.hub.readyBit b = true ∧ others t b ∧ t.hub.signals = (63, 0) :: s.hub.signals ∧
        ∀ k, b = 67 + dieOf k → b < 75 → t.coreAt k = Core.fresh) ∧
    (b < 102 → s.hub.readyBit b = true → ∃ t, exec (.functionFail b) s = .next t ∧ t.hub.readyBit b = false ∧ others t b ∧
      t.hub.signals = (63, 0) :: s.hub.signals ∧
      (∀ n l, s.launchAt n = some l → 67 ≤ b → b < 75 → b - 67 ∈ l.pkt.dieList →
        ∃ q, t.launchAt n = some q ∧ q.ended = true ∧ (l.ended = false → q.status = 5))) ∧
    (p < 18 → s.hub.readyBit (83 + p) = true → ∃ t, exec (.portDown p) s = .next t ∧ t.hub.readyBit (83 + p) = false ∧ others t (83 + p) ∧
      t.hub.signals = (63, 0) :: s.hub.signals ∧ t.dies = s.dies ∧ t.dram = s.dram ∧
      (t.hub.portsDown = true → s.hub.allDown = none → t.hub.allDown = some s.hub.now) ∧
      ∀ k j, ((t.coreAt k).thr j).holds = ((s.coreAt k).thr j).holds ∧ ((t.coreAt k).thr j).pc = ((s.coreAt k).thr j).pc)

/-- Alarm records with one more, the newest first; alarms of one hub cycle stand in the order of their causes' codes (R414).  That alarms of one hub
cycle are raised together is the model's reading (log 32). -/
def LoggedIn (r : AlarmRec) (old new : List AlarmRec) : Prop :=
  ∃ a b, old = a ++ b ∧ (∀ x ∈ a, x.cycle = r.cycle ∧ r.cause < x.cause) ∧ (∀ x ∈ b.head?, x.cycle ≠ r.cycle ∨ x.cause ≤ r.cause) ∧
    new = (a ++ r :: b).take 16

/-- Other packages that become unavailable or available again, and a reset of this one, whose boot ROM takes the staged image, or else the one that
ran, and verifies its ML-DSA-44 signature over the SHA3-256 digest of the bytes that are signed (R410); how many those are and with which key the
signature is checked are left open, and the verification is FIPS 204's (log 16).  What else a reset keeps, hub time among it, is log 35, and
the source 0 of the alarm that unverified firmware raises is log 32. -/
def Rules.PackageRows : Prop :=
  ∀ (s : State) (p : Nat),
    let img := match s.hub.sec.staged with
      | some (pa, len) => s.dramBytes pa len
      | none => s.hub.sec.firmware
    let n := Config.signedBytes img
    let good := signatureValid Config.firmwareKey (digest (img.take n)) (img.drop n)
    (p ≠ s.hub.pkg → ∃ t, exec (.packageUnavailable p) s = .next t ∧ p ∉ t.hub.podAvail ∧
      ∀ d, (∀ i, ∀ e ∈ ((t.dieAt d).slice i).tlb, paPkg (ptePa e.pte) ≠ p) ∧ ∀ l ∈ (t.dieAt d).llc, paPkg l.pa ≠ p) ∧
    (p < 1024 → p ≠ s.hub.pkg → p ∉ s.hub.podAvail → s.hub.cutOff = false →
      exec (.packageAvailable p) s = .next (s.updHub (fun h => { h with podAvail := p :: s.hub.podAvail }))) ∧
    (s.hub.sec.hold = false → ∃ t, exec .packageReset s = .next t ∧
      (good = true → t.hub.sec.firmware = img ∧ t.hub.sec.verified = true ∧ t.cores = [] ∧ t.dies = [] ∧ t.hub.launches = [] ∧ t.hub.queues = [] ∧ t.hub.ready0 = State.reset.hub.ready0 ∧
        t.hub.ready1 = State.reset.hub.ready1 ∧ t.hub.sec.keys = s.hub.sec.keys ∧ t.hub.sec.fuse = s.hub.sec.fuse ∧
        t.hub.sec.alarms = s.hub.sec.alarms ∧ t.hub.now = s.hub.now) ∧
      (good = false → LoggedIn ⟨1, s.hub.now, 0⟩ s.hub.sec.alarms t.hub.sec.alarms ∧
        (2 ≤ s.hub.sec.fuse → t.hub.sec.hold = true ∧ t.hub.sec.keys = [])))

/-- The steps of the islands at the end of a power window.  That a step which the cap alone limits counts no throttle is log 37. -/
def Rules.PowerWindows : Prop :=
  ∀ (s : State) (watts : Nat) (dieWatts draws : List Nat),
    ∃ t, exec (.powerWindow watts dieWatts draws) s = .next t ∧ t.cores = s.cores ∧ t.dies = s.dies ∧ t.dram = s.dram ∧
      ∀ i, i < 128 → (s.dieAt (i / 16)).det = none →
        let a := s.hub.island i
        let b := t.hub.island i
        let w := dieWatts.getD (i / 16) 0
        b.cap = a.cap ∧
        (watts < 2500 → w < 235 → b.cur = (if a.cur < a.cap then a.cur + 1 else a.cap) ∧ b.throttles = a.throttles) ∧
        (watts ≤ 2600 → w ≤ 250 → 2500 ≤ watts ∨ 235 ≤ w → b.cur = min a.cur a.cap ∧ b.throttles = a.throttles) ∧
        (2600 < watts → i ∈ topIslands (fun j => draws.getD j 0) 32 (List.range 128) → a.cur ≠ 0 →
          b.cur = min (a.cur - 1) a.cap ∧ b.throttles = a.throttles + 1)

/-- R223, R224, R403 to R408: what comes and goes, and the power steps.  The source of the firmware alarm, what a reset keeps beyond R406 and the
throttle counts of capped steps are the model's (logs 32, 35 and 37). -/
def Obligations.ReadinessAndPower : Prop := Rules.ReadinessRows ∧ Rules.PackageRows ∧ Rules.PowerWindows

/-! ### Security and soft errors (R395, R411 to R416) -/

/-- The engine runs no command other than one of a code. -/
def EngineFree (s : State) (code : Nat) : Prop := ∀ c w, s.hub.sec.command = some (c, w) → c = code

/-- The security engine's commands on keys, reports and firmware; a busy engine refuses another command with status 1.  The order of the report's
words is the model's (log 32). -/
def Rules.KeyCommands : Prop :=
  ∀ (s : State) (slot pa len : Nat) (replace : Bool) (wrapped : BitVec 576) (k : BitVec 512) (nonce : BitVec 256),
    s.hub.readyBit 101 = true →
    let status := fun (t : State) => t.hub.sec.status
    (s.hub.sec.hold = false → EngineFree s 1 → 1 ≤ slot → slot ≤ 127 →
      ((s.hub.keyPair slot = none ∨ replace = true) → unwrapKey wrapped = some k → ∃ t, exec (.keyLoad slot replace wrapped) s = .next t ∧
        status t = 0 ∧ t.hub.keyPair slot = some k ∧ ∀ j, j ≠ slot → t.hub.keyPair j = s.hub.keyPair j) ∧
      ((s.hub.keyPair slot = none ∨ replace = true) → unwrapKey wrapped = none → ∃ t, exec (.keyLoad slot replace wrapped) s = .next t ∧
        status t = 3 ∧ t.hub.sec.keys = s.hub.sec.keys) ∧
      (s.hub.keyPair slot ≠ none → replace = false → ∃ t, exec (.keyLoad slot replace wrapped) s = .next t ∧
        status t = 2 ∧ t.hub.sec.keys = s.hub.sec.keys)) ∧
    (s.hub.sec.hold = false → EngineFree s 2 → 1 ≤ slot → slot ≤ 127 →
      ∃ t, exec (.keyErase slot) s = .next t ∧ status t = 0 ∧ t.hub.keyPair slot = none ∧ ∀ j, j ≠ slot → t.hub.keyPair j = s.hub.keyPair j) ∧
    (s.hub.sec.hold = false → slot = 0 ∨ 127 < slot →
      (EngineFree s 1 → ∃ t, exec (.keyLoad slot replace wrapped) s = .next t ∧ status t = 2 ∧ t.hub.sec.keys = s.hub.sec.keys) ∧
      (EngineFree s 2 → ∃ t, exec (.keyErase slot) s = .next t ∧ status t = 2 ∧ t.hub.sec.keys = s.hub.sec.keys)) ∧
    (∀ c w, s.hub.sec.command = some (c, w) → s.hub.sec.hold = false → c ≠ 1 → ∃ t, exec (.keyLoad slot replace wrapped) s = .next t ∧
      status t = 1 ∧ t.hub.sec.keys = s.hub.sec.keys ∧ t.hub.sec.command = s.hub.sec.command) ∧
    (EngineFree s 3 → ∃ t, exec (.attest nonce) s = .next t ∧ status t = 0 ∧
      (let report := bytesOfNat 32 (digest s.hub.sec.firmware).toNat ++ bytesOfNat 8 s.hub.sec.fuse ++ bytesOfNat 8 s.hub.ready0.toNat ++
         bytesOfNat 8 s.hub.ready1.toNat ++ bytesOfNat 8 0 ++ bytesOfNat 32 nonce.toNat
       t.hub.sec.response = report ++ Config.identitySignature (digest report)) ∧ t.cores = s.cores ∧ t.dram = s.dram) ∧
    (s.hub.sec.hold = false → EngineFree s 7 → len ≠ 0 → s.hub.ownTier pa 2 = true → paPopulated pa = true → paPopulated (pa + len - 1) = true →
      ∃ t, exec (.firmwareStage pa len) s = .next t ∧ status t = 0 ∧ t.hub.sec.staged = some (pa, len)) ∧
    (s.hub.sec.hold = false → EngineFree s 7 → len = 0 ∨ s.hub.ownTier pa 2 = false → ∃ t, exec (.firmwareStage pa len) s = .next t ∧
      status t = 2 ∧ t.hub.sec.staged = s.hub.sec.staged)

/-- Debug enables: a challenge good for one unlock, whose token is verified as FIPS 204 says (log 16), and the lock. -/
def Rules.DebugCommands : Prop :=
  ∀ (s : State) (tn j k : Nat) (c : BitVec 256) (sig : List Byte), s.hub.readyBit 101 = true → s.hub.sec.hold = false →
    let good := signatureValid Config.tokenKey (digest (bytesOfNat 32 c.toNat ++ bytesOfNat 2 tn)) sig
    (EngineFree s 4 → (tn ≤ 4095 → ∃ t, exec (.debugChallenge tn) s = .next t ∧ t.hub.sec.status = 0 ∧
        ∃ q, t.hub.sec.challenge = some (tn, q) ∧ t.hub.sec.response = bytesOfNat 32 q.toNat) ∧
      (4095 < tn → ∃ t, exec (.debugChallenge tn) s = .next t ∧ t.hub.sec.status = 2 ∧ t.hub.sec.challenge = s.hub.sec.challenge)) ∧
    (EngineFree s 5 →
      (s.hub.sec.challenge = none → ∃ t, exec (.debugUnlock tn sig) s = .next t ∧ t.hub.sec.status = 2 ∧ t.hub.debugOn = s.hub.debugOn) ∧
      (s.hub.sec.challenge = some (tn, c) → good = true → ∃ t, exec (.debugUnlock tn sig) s = .next t ∧ t.hub.sec.status = 0 ∧
        tn ∈ t.hub.debugOn ∧ t.hub.sec.challenge = none ∧ t.hub.sec.alarmCount = s.hub.sec.alarmCount) ∧
      (s.hub.sec.challenge = some (tn, c) → good = false → s.hub.sec.fuse = 0 → ∃ t, exec (.debugUnlock tn sig) s = .next t ∧
        t.hub.sec.status = 4 ∧ t.hub.debugOn = s.hub.debugOn ∧ t.hub.sec.challenge = none ∧
        ∃ source, LoggedIn ⟨2, s.hub.now, source⟩ s.hub.sec.alarms t.hub.sec.alarms)) ∧
    (EngineFree s 6 → tn ≤ 4095 → ∃ t, exec (.debugLock tn) s = .next t ∧ t.hub.sec.status = 0 ∧ tn ∉ t.hub.debugOn ∧
      (((s.coreAt k).thr j).status = .stopped .breakpoint → ((s.coreAt k).thr j).ctl.tenancy.toNat = tn →
        ((t.coreAt k).thr j).status = .ready ∧ ((t.coreAt k).thr j).pc = ((s.coreAt k).thr j).pc + 4))

/-- R413, R414: alarms and the action that the fuse fixes; what 10 and 11 zero is every L1, LLC cell, LM, landing and window register. -/
def Rules.Alarms : Prop :=
  ∀ (s : State) (cause : AlarmCause) (source : Word),
    let rec_ : AlarmRec := ⟨alarmCode cause, s.hub.now, source⟩
    let logged := fun (t : State) => LoggedIn rec_ s.hub.sec.alarms t.hub.sec.alarms ∧ t.hub.sec.alarmCount = s.hub.sec.alarmCount + 1
    (s.hub.sec.hold = true ∨ s.hub.sec.fuse = 0 → ∃ t, exec (.securityAlarm cause source) s = .next t ∧ logged t ∧ t.cores = s.cores ∧
      t.dies = s.dies ∧ t.dram = s.dram) ∧
    (s.hub.sec.hold = false → s.hub.sec.fuse = 1 →
      exec (.securityAlarm cause source) s = exec .packageReset (s.logAlarm cause source).endLaunches) ∧
    (s.hub.sec.hold = false → 2 ≤ s.hub.sec.fuse → ∃ t, exec (.securityAlarm cause source) s = .next t ∧ logged t ∧ t.hub.sec.hold = true ∧
      t.hub.sec.keys = [] ∧ t.hub.launches = [] ∧ (∀ d, (t.dieAt d).llc = []) ∧ ∀ k, (t.coreAt k).l1 = [] ∧ (k < 9216 →
        (∀ a, a < 0x40000 → memGet lmDefault (t.coreAt k).lm a = 0) ∧
        (∀ i : Nat, i < 32 → ((t.coreAt k).landing[i]?).map (fun x => (x.data, x.full)) = some (0, false)) ∧
        (∀ i : Nat, i < 8 → ((t.coreAt k).windows[i]?).map (fun x => (x.data, x.state)) = some (0, .empty)) ∧
        ∀ i, ((t.coreAt k).slotAt i).state = 0))

/-- A soft error marks the place that it damages and changes nothing else. -/
def Rules.SoftErrors : Prop :=
  ∀ (s : State) (core n r die tn va : Nat) (l : LlcLine),
    let marks := fun (site : DamageSite) (at_ : Core → Prop) => ∃ t, exec (.softError site) s = .next t ∧ at_ (t.coreAt core) ∧
      t.hub = s.hub ∧ t.dram = s.dram ∧ t.dies = s.dies ∧ (t.coreAt core).threads = (s.coreAt core).threads ∧ (t.coreAt core).lm = (s.coreAt core).lm
    marks (.lm core n) (fun c => n ∈ c.badLm) ∧ marks (.landing core n) (fun c => n ∈ c.badLand) ∧ marks (.window core n) (fun c => n ∈ c.badWin) ∧
    (n < 16 → marks (.thread core n r) (fun c => (n, r) ∈ c.badThread)) ∧
    (∀ y ∈ (s.coreAt core).spills, y.tid + 16 = n → y.valid = true → marks (.thread core n r) (fun c =>
      ({ y with bad := r :: y.bad.filter (· ≠ r) } : Saved) ∈ c.spills)) ∧
    (s.isOwn va = true → paPopulated va = true → ∃ t, exec (.softError (.dram va)) s = .next t ∧ localPa va / 64 ∈ t.badDram ∧
      t.cores = s.cores ∧ t.dies = s.dies ∧ t.dram = s.dram ∧ t.hub = s.hub) ∧
    ((s.dieAt die).llcFind tn (lineOf va) = some l → ∃ t, exec (.softError (.llc die tn va)) s = .next t ∧
      (t.dieAt die).llcFind tn (lineOf va) = some { l with bad := true } ∧ t.cores = s.cores ∧ t.dram = s.dram) ∧
    (∃ t, exec (.softError (.matrixBuffer core)) s = .next t ∧ (t.coreAt core).badMatrix = true ∧ t.dram = s.dram) ∧
    ∃ t, exec (.softError (.copyBuffer core)) s = .next t ∧ (t.coreAt core).badCopy = true ∧ t.dram = s.dram

/-- R395, R411 to R416: the security engine, alarms and soft errors. -/
def Obligations.SecurityAndErrors : Prop := Rules.KeyCommands ∧ Rules.DebugCommands ∧ Rules.Alarms ∧ Rules.SoftErrors

/-! ### Encoding and decoding (R11 to R41) -/

/-- Words of the spec's tables, put together field by field (R13, R20, and the function codes of R22 to R36). -/
def Obligations.DecodeWords : Prop :=
  decode (0x01#6 ++ 3#5 ++ 4#5 ++ 5#5 ++ 0x000#11) = .ok (.add 3 4 5) ∧
  decode (0x14#6 ++ 5#5 ++ 6#5 ++ 5#3 ++ 4#13) = .ok (.ld .n32 5 6 4) ∧
  decode (0x19#6 ++ 7#5 ++ 8#5 ++ 9#5 ++ 0x0E0#11) = .ok (.amo .add false .pkg 7 8 9) ∧
  decode (0x1E#6 ++ 9#5 ++ 0#5 ++ 0x000#12 ++ 0#4) = .ok (.csrr 9 0x000) ∧
  decode (0x23#6 ++ 1#5 ++ 4#5 ++ 1#5 ++ 0#3 ++ 0#4 ++ 2#4) = .ok (.vcmplt .f32 1 4 1 0) ∧
  decode (0x12#6 ++ 1#5 ++ 8#21) = .ok (.jal 1 8) ∧
  decode (0x2C#6 ++ 4#5 ++ 9#5 ++ 10#5 ++ 0#11) = .ok (.xld 4 9 10) ∧
  decode (0x19#6 ++ 7#5 ++ 8#5 ++ 9#5 ++ 0x160#11) = .error .codeIllegal ∧
  decode (0x2C#6 ++ 5#5 ++ 9#5 ++ 10#5 ++ 0#11) = .error .codeIllegal

/-- Every well-formed instruction has a word, and decoding it gives the instruction back, whatever its operands. -/
def Obligations.EncodeDecode : Prop := ∀ i : Instr, i.isWord = true → i.wf = true → ∃ w, encode i = some w ∧ decode w = .ok i

/-- A word that decodes is the one word of its instruction, which is well formed: no instruction ignores a field (R37). -/
def Obligations.DecodeEncode : Prop := ∀ (w : Word32) (i : Instr), decode w = .ok i → i.isWord = true ∧ i.wf = true ∧ encode i = some w

/-- R21, R40: a word with major opcode 0x00, 0x3F or 0x30 to 0x3E, whatever its other bits hold, raises an illegal-instruction trap at its
own address, with the word in `trapinst` and 0 in `trapval`, and changes nothing else. -/
def Obligations.ReservedWords : Prop :=
  ∀ (s : State) (w : Word32), (let op := (fld w 26 6).toNat
    op = 0 ∨ op = 0x3F ∨ (0x30 ≤ op ∧ op ≤ 0x3E)) →
    (∃ e, decode w = .error e) ∧ (s.thr.inst = w → s.runWord = .next (s.trapSt 0x01 0)) ∧
    (s.tid < 16 → s.HasHandler → s.thr.inst = w → ∃ t, s.runWord = .next t ∧ s.TrapTaken t 0x01 0 ∧ t.thr.ctl.trappc = s.thr.pc ∧
      t.thr.ctl.trapinst = w.setWidth 64 ∧ t.thr.ctl.trapval = 0)

/-! ### Reset, and what every step keeps -/

/-- What the machine holds right after reset: nothing is ready (R403), and memory is in its canonical form with nothing listed. -/
def Rules.ResetValues : Prop :=
  State.reset.Canonical ∧ (∀ b, b < 102 → State.reset.hub.readyBit b = false) ∧ State.reset.hub.portsDown = true ∧
  State.reset.hub.launches = [] ∧ State.reset.hub.queues = [] ∧ (∀ tn, State.reset.hub.route tn = 0x8000) ∧ State.reset.dram = [] ∧
  (∀ b, b < 64 → State.reset.hub.capture b = ⟨0, 0, false, 0, BitVec.allOnes 64, 0, List.replicate 16 0⟩)

/-- When a die's core array becomes ready, each of its cores starts with the landing registers empty (R242), the windows Empty and not held
(R119), t15 Ready at the first word of the copy program with the state of R44, and the other threads Free. -/
def Rules.CoreStart : Prop :=
  ∀ (s : State) (k : Nat), s.hub.sec.hold = false → dieOf k < 8 → s.hub.readyBit (67 + dieOf k) = false →
    ∃ t, exec (.functionReady (67 + dieOf k)) s = .next t ∧ t.hub.readyBit (67 + dieOf k) = true ∧
      let c := t.coreAt k
      (∀ i : Nat, i < 32 → ∃ x, c.landing[i]? = some x ∧ x.data = 0 ∧ x.full = false) ∧
      (∀ i : Nat, i < 8 → ∃ x, c.windows[i]? = some x ∧ x.data = 0 ∧ x.state = .empty) ∧ c.winHolder = none ∧ c.landHolder = none ∧
      (∀ j, j < 15 → (c.thr j).status = .free) ∧ (c.thr 15).status = .ready ∧ (c.thr 15).pc = 0x3F000 ∧
      (c.thr 15).ctl = { Ctl.zero with seed := 0x2545F4914F6CDD1D } ∧ (∀ r, (c.thr 15).rd r = 0) ∧ (c.thr 15).v = Vector.replicate 16 0 ∧
      (c.thr 15).k = Vector.replicate 8 0 ∧ (c.thr 15).wake = false

/-- R44, R119, R242, R403: the machine right after reset, and a core array that becomes ready. -/
def Obligations.ResetState : Prop := Rules.ResetValues ∧ Rules.CoreStart

/-- Every step keeps every memory in its canonical form: addresses strictly rising, and no byte listed that reads as an unlisted one. -/
def Obligations.StepKeepsCanonical : Prop := ∀ s t : State, s.Canonical → step s = .next t → t.Canonical

/-! ### A step runs the decoded instruction -/

/-- An issue slot of a core is due: the agenda names it on a die that no deterministic launch holds, or nothing else is due and it is the next core's
turn.  `taken` is what using the slot does beside. -/
def SlotDue (s : State) (c : Nat) (taken : State → State) : Prop :=
  (∃ rest, s.agenda = .issue c :: rest ∧ (s.dieAt (dieOf c)).det = none ∧ taken = fun x => { x with agenda := rest }) ∨
  (∃ again, s.agenda = [] ∧ firstChange s (autoRows s) = none ∧ s.hub.nextCore s.turn = some (c, again) ∧
    taken = fun x => { (if again then x.later else x) with turn := c + 1 })
/-- The state in which the issue slot of a core picks a thread: the cycle has begun (R51, R116), and the slot is used. -/
def SlotOf (s : State) (taken : State → State) (k : Nat) : State := (taken (s.openSlot k)).turnWheel k
/-- The state in which thread j of a core issues. -/
def ThreadOf (s : State) (taken : State → State) (k j : Nat) : State :=
  ({ SlotOf s taken k with core := k, tid := j } : State).updCur (fun c => { c with last := j })
/-- The machine does what its agenda says next: it is not in hold, and no answer and no wait that is over comes first. -/
def AgendaNext (s : State) : Prop := s.hub.sec.hold = false ∧ s.granted = [] ∧ resumingIn s.cores = none

/-- What an issue slot and an event of the agenda run: the instruction that the word at the head of the prefetch buffer decodes to, unless it reads
a damaged register (R395) and is none that its level or thread may not issue (R39); the cycle is then over.  A wait that the start of the cycle ends
is served before any thread issues (R51, R52), a pending event is entered in place of an instruction (R261), and behind the last word of LM is a fetch
fault (R12); a word in a block that may not be fetched is *LM protection* at its address, and a damaged one a data error (R138, R395).  The buffer,
read again where it is empty, holds the words that local memory has at the pc (R143).  On a die that a deterministic launch holds, the slots follow in a
fixed order and the agenda places none (R8).  That a wait the start of a cycle ends is served before any thread issues, and an event is entered at a slot, is
log 57; the buffer read again at the issue is log 9: both are the model's choices. -/
def Rules.StepRunsDecoded : Prop :=
  ∀ (s : State) (c j : Nat) (rest : List Act) (w : Fetched) (ws : List Fetched) (i : Instr) (taken : State → State), AgendaNext s →
    let k := s.wheelCore c
    let u := SlotOf s taken k
    let x := ThreadOf s taken k j
    let y := if x.firstIssue.thr.buf = [] then x.firstIssue.refill else x.firstIssue
    let v := y.takeWord w
    let th := (u.coreAt k).thr j
    (SlotDue s c taken → s.hub.coreReady k = true →
      (((s.openSlot k).coreAt k).resuming ≠ none → step s = .next (s.openSlot k)) ∧
      (((s.openSlot k).coreAt k).resuming = none → (u.coreAt k).pick ((s.openSlot k).dieAt (dieOf k)).det.isSome = some j → j < 16 →
        (th.pc.toNat = 0x40000 → step s = .next ((x.trapAt 0x03 th.pc th.pc).tick k)) ∧
        (th.pc.toNat ≠ 0x40000 → x.cur.pendingEvent j ≠ none → step s = Res.after (exec (.eventEntry k j) x) (fun q => q.tick k)) ∧
        (th.pc.toNat ≠ 0x40000 → x.cur.pendingEvent j = none → y.thr.buf = w :: ws →
          (w.ok = false → step s = .next ((v.trapSt 0x04 v.thr.pc).tick k)) ∧
          (w.ok = true → w.bad = true → step s = .next ((v.trapSt 0x0F v.thr.pc).tick k)) ∧
          (w.ok = true → w.bad = false → decode w.code = .ok i →
          (v.cur.badThread = [] → step s = Res.after (exec i v) (fun q => q.tick k)) ∧
          (v.barred i = false → v.cur.damagedFor j i = true → step s = .next (v.damageStop.tick k)) ∧
          (v.barred i = true ∨ v.cur.damagedFor j i = false → v.cur.badThread ≠ [] →
            step s = Res.after (Res.after (exec i v) (v.mendAfter i)) (fun q => q.tick k)))))) ∧
    (SlotDue s c taken → s.hub.coreReady k = false → step s = .next (taken s)) ∧
    (s.agenda = .issue c :: rest → (s.dieAt (dieOf c)).det ≠ none → step s = .next { s with agenda := rest }) ∧
    (s.agenda = .event i :: rest → (s.ordered i = false → step s = exec i { s with agenda := rest }) ∧
      (s.ordered i = true → step s = .next { s with agenda := rest })) ∧
    (∀ q : Core, j < 16 → ((q.refill j).thr j).buf.map (·.code) =
      (List.range 4).map (fun n => let a := (q.thr j).pc.toNat + 4 * n
        if a + 4 ≤ 0x40000 then BitVec.ofNat 32 (q.lmRead a 4) else 0))

/-- A parked instruction whose wait is over runs before anything else, but the answer of a fill to another thread, which is the model's choice (logs 6 and
18); a load that it completes may be sampled (R409). -/
def Rules.StepResumes : Prop :=
  ∀ (s : State) (c j : Nat) (i : Instr), s.hub.sec.hold = false → s.granted = [] → resumingIn s.cores = some (c, j) →
    let v : State := { s with core := c, tid := j }
    v.cur.badThread = [] → v.thr.progress.ending = none → decode v.thr.inst = .ok i →
    step s = Res.after (exec i v) (fun u => (u.sampleLoad v).soon)

/-- A word placed after reset is what the next step runs: on core 0, in t15 for the XF group and in t0 for any other word. -/
def Obligations.PlacedWordRuns : Prop :=
  ∀ (w : Nat) (i : Instr), w < 2 ^ 32 → decode (BitVec.ofNat 32 w) = .ok i →
    ∃ u : State, step (State.reset.withFetchWord 32 w) = Res.after (exec i u) (fun q => q.tick 0) ∧ u.core = 0 ∧
      u.tid = (if w / 2 ^ 26 = 0x2C then 15 else 0) ∧ u.thr.inst = BitVec.ofNat 32 w ∧ u.thr.status = .ready ∧
      u.thr.pc = (if w / 2 ^ 26 = 0x2C then 0x3F000 else 0x400) ∧ ∀ r, u.rd r = 0

/-- No row stops the machine: in every state each instruction and each event row answers a next state. -/
def Obligations.EveryRowAnswers : Prop := ∀ (i : Instr) (s : State), ∃ t, exec i s = .next t

/-- R39, R46, R49, R143: a step runs the instruction that the fetched word decodes to.  The order of what is due at one time (logs 6, 18 and 57) and the
buffer read again at the issue (log 9) are the model's choices. -/
def Obligations.StepRunsDecoded : Prop := Rules.StepRunsDecoded ∧ Rules.StepResumes


end
end

