-- ==== Sys2Proof/Laws/Memory.lean ====
section
/-! SUPPORT. Memory as a list of cells: a read after a write gives the byte written at its address and the old byte at every other, in every
list; and every operation keeps the canonical form. -/

namespace Sys2Proof.Machine

/-! ### A read after a write -/

theorem memGet_memDrop_self (d : Nat → Byte) (m : List Host.Cell) (a : Nat) : memGet d (memDrop m a) a = d a := by
  induction m with
  | nil => rfl
  | cons c m ih => obtain ⟨k, x⟩ := c; by_cases h : k = a <;> simp [memDrop, memGet, h, ih]
theorem memGet_memDrop_ne (d : Nat → Byte) (m : List Host.Cell) {a b : Nat} (h : b ≠ a) : memGet d (memDrop m a) b = memGet d m b := by
  induction m with
  | nil => rfl
  | cons c m ih =>
    obtain ⟨k, x⟩ := c
    by_cases g : k = a
    · subst g; simp [memDrop, memGet, ih, Ne.symm h]
    · simp [memDrop, memGet, g, ih]
theorem memGet_memPut_self (d : Nat → Byte) (m : List Host.Cell) (a : Nat) (x : Byte) (h : ∀ c ∈ m, c.1 ≠ a) :
    memGet d (memPut m a x) a = x := by
  induction m with
  | nil => simp [memPut, memGet]
  | cons c m ih =>
    obtain ⟨k, y⟩ := c
    have hk : k ≠ a := h (k, y) (by simp)
    by_cases g : k < a
    · simp [memPut, memGet, g, hk, ih (fun c hc => h c (by simp [hc]))]
    · simp [memPut, memGet, g]
theorem memGet_memPut_ne (d : Nat → Byte) (m : List Host.Cell) {a b : Nat} (x : Byte) (h : b ≠ a) :
    memGet d (memPut m a x) b = memGet d m b := by
  induction m with
  | nil => simp [memPut, memGet, Ne.symm h]
  | cons c m ih =>
    obtain ⟨k, y⟩ := c
    by_cases g : k < a <;> simp [memPut, memGet, g, ih, Ne.symm h]
theorem memDrop_ne (m : List Host.Cell) (a : Nat) : ∀ c ∈ memDrop m a, c.1 ≠ a := by
  induction m with
  | nil => simp [memDrop]
  | cons c m ih =>
    obtain ⟨k, y⟩ := c
    by_cases g : k = a
    · simpa [memDrop, g] using ih
    · intro c hc
      simp only [memDrop, g, if_false, List.mem_cons] at hc
      rcases hc with rfl | hc
      · exact g
      · exact ih c hc
/-- A byte reads as it was written, and every other byte as before. -/
theorem memGet_memSet (d : Nat → Byte) (m : List Host.Cell) (a b : Nat) (x : Byte) :
    memGet d (memSet d m a x) b = if b = a then x else memGet d m b := by
  by_cases h : b = a
  · subst h
    by_cases g : x = d b
    · simp [memSet, g, memGet_memDrop_self]
    · simp [memSet, g, memGet_memPut_self _ _ _ _ (memDrop_ne m b)]
  · by_cases g : x = d a
    · simp [memSet, g, h, memGet_memDrop_ne _ _ h]
    · simp [memSet, g, h, memGet_memDrop_ne _ _ h, memGet_memPut_ne _ _ _ h]
/-- Bytes read as they were written, and every other byte as before. -/
theorem memGet_memWrite (d : Nat → Byte) (l : List Byte) (m : List Host.Cell) (a b : Nat) :
    memGet d (memWrite d m a l) b = if a ≤ b ∧ b < a + l.length then l.getD (b - a) 0 else memGet d m b := by
  induction l generalizing m a with
  | nil => simp [memWrite] <;> omega
  | cons x l ih =>
    rw [memWrite, ih, memGet_memSet]
    by_cases h1 : b = a
    · subst h1; rw [if_neg (by omega)]; simp
    · by_cases h2 : a + 1 ≤ b ∧ b < a + 1 + l.length
      · rw [if_pos h2, if_pos (by simp; omega)]
        have : b - a = (b - (a + 1)) + 1 := by omega
        rw [this]; simp
      · rw [if_neg h2, if_neg h1, if_neg (by simp; omega)]
theorem memRead_length (d : Nat → Byte) (m : List Host.Cell) (a n : Nat) : (memRead d m a n).length = n := by
  induction n generalizing a with
  | zero => rfl
  | succ n ih => simp [memRead, ih]
theorem memRead_getElem (d : Nat → Byte) (m : List Host.Cell) (a n i : Nat) (h : i < n) :
    (memRead d m a n)[i]? = some (memGet d m (a + i)) := by
  induction n generalizing a i with
  | zero => omega
  | succ n ih =>
    cases i with
    | zero => simp [memRead]
    | succ i => simp only [memRead, List.getElem?_cons_succ]; rw [ih (a + 1) i (by omega)]; congr 2; omega
/-- What was written reads back whole. -/
theorem memRead_memWrite (d : Nat → Byte) (m : List Host.Cell) (a : Nat) (l : List Byte) :
    memRead d (memWrite d m a l) a l.length = l := by
  apply List.ext_getElem?
  intro i
  by_cases h : i < l.length
  · rw [memRead_getElem _ _ _ _ _ h, memGet_memWrite, if_pos (by omega)]
    simp [h]
  · rw [List.getElem?_eq_none (by simp [memRead_length]; omega), List.getElem?_eq_none (by omega)]
/-- A read beside a write gives what it gave before. -/
theorem memRead_memWrite_off (d : Nat → Byte) (m : List Host.Cell) (a b n : Nat) (l : List Byte) (h : b + n ≤ a ∨ a + l.length ≤ b) :
    memRead d (memWrite d m a l) b n = memRead d m b n := by
  apply List.ext_getElem?
  intro i
  by_cases g : i < n
  · rw [memRead_getElem _ _ _ _ _ g, memRead_getElem _ _ _ _ _ g, memGet_memWrite, if_neg (by omega)]
  · rw [List.getElem?_eq_none (by simp [memRead_length]; omega), List.getElem?_eq_none (by simp [memRead_length]; omega)]

/-! ### The canonical form -/

theorem memWfFrom_memDrop (d : Nat → Byte) (m : List Host.Cell) (a : Nat) (lo : Option Nat) (h : memWfFrom d lo m = true) :
    memWfFrom d lo (memDrop m a) = true := by
  induction m generalizing lo with
  | nil => rfl
  | cons c m ih =>
    obtain ⟨k, x⟩ := c
    simp only [memWfFrom, Bool.and_eq_true] at h
    by_cases g : k = a
    · simp only [memDrop, g, if_true]
      apply ih
      cases m with
      | nil => rfl
      | cons e m =>
        obtain ⟨j, y⟩ := e
        have h2 := h.2
        simp only [memWfFrom, Bool.and_eq_true] at h2 ⊢
        refine ⟨⟨?_, h2.1.2⟩, h2.2⟩
        cases lo with
        | none => rfl
        | some l => have := h.1.1; have := h2.1.1; simp at *; omega
    · simp only [memDrop, g, if_false, memWfFrom, Bool.and_eq_true]
      exact ⟨h.1, ih (some k) h.2⟩
theorem memWfFrom_memPut (d : Nat → Byte) (m : List Host.Cell) (a : Nat) (x : Byte) (lo : Option Nat) (h : memWfFrom d lo m = true)
    (hx : x ≠ d a) (hm : ∀ c ∈ m, c.1 ≠ a) (hl : ∀ l, lo = some l → l < a) : memWfFrom d lo (memPut m a x) = true := by
  induction m generalizing lo with
  | nil =>
    simp only [memPut, memWfFrom, Bool.and_eq_true, Bool.and_true]
    cases lo with
    | none => simp [hx]
    | some l => simp [hx, hl l rfl]
  | cons c m ih =>
    obtain ⟨k, y⟩ := c
    have hk : k ≠ a := hm (k, y) (by simp)
    simp only [memWfFrom, Bool.and_eq_true] at h
    by_cases g : k < a
    · simp only [memPut, g, if_true, memWfFrom, Bool.and_eq_true]
      exact ⟨h.1, ih (some k) h.2 (fun c hc => hm c (by simp [hc])) (fun l hl' => by cases hl'; exact g)⟩
    · have hka : a < k := by omega
      simp only [memPut, g, if_false, memWfFrom, Bool.and_eq_true]
      refine ⟨⟨?_, by simp [hx]⟩, ⟨by simp [hka], h.1.2⟩, h.2⟩
      cases lo with
      | none => rfl
      | some l => simp [hl l rfl]
/-- A byte written keeps the canonical form. -/
theorem wf_memSet (d : Nat → Byte) (m : List Host.Cell) (a : Nat) (x : Byte) (h : Memory.wf d m = true) :
    Memory.wf d (memSet d m a x) = true := by
  unfold memSet Memory.wf
  split
  · exact memWfFrom_memDrop d m a none h
  · rename_i hx
    exact memWfFrom_memPut d _ a x none (memWfFrom_memDrop d m a none h) hx (memDrop_ne m a) (fun l hl => by cases hl)
/-- Bytes written keep the canonical form. -/
theorem wf_memWrite (d : Nat → Byte) (l : List Byte) (m : List Host.Cell) (a : Nat) (h : Memory.wf d m = true) :
    Memory.wf d (memWrite d m a l) = true := by
  induction l generalizing m a with
  | nil => exact h
  | cons x l ih => exact ih _ _ (wf_memSet d m a x h)
/-- Below its first cell a canonical memory reads as an unlisted address. -/
theorem memGet_lt (d : Nat → Byte) (m : List Host.Cell) (a : Nat) (lo : Nat) (h : memWfFrom d (some lo) m = true) (hl : a ≤ lo) :
    memGet d m a = d a := by
  induction m generalizing lo with
  | nil => rfl
  | cons c m ih =>
    obtain ⟨k, x⟩ := c
    simp only [memWfFrom, Bool.and_eq_true, decide_eq_true_eq] at h
    have : k ≠ a := by omega
    simp only [memGet, this, if_false]
    exact ih k h.2 (by omega)

end Sys2Proof.Machine
end

