-- ==== Sys2Proof/Laws/Dram.lean ====
section
/-! SUPPORT. What a write of physical memory can do: it changes bytes of memory and the marks of damaged sectors, keeps the canonical form, and
nothing else. -/

namespace Sys2Proof.Machine

/-- From `s` to `t` at most memory and its marks of damage have changed. -/
def State.MemoryOnly (s t : State) : Prop := ({ t with dram := s.dram, far := s.far, badDram := s.badDram } : State) = s

theorem memoryOnly_refl (s : State) : s.MemoryOnly s := rfl
theorem State.MemoryOnly.trans {s t u : State} (h : s.MemoryOnly t) (g : t.MemoryOnly u) : s.MemoryOnly u := by
  unfold State.MemoryOnly at *
  rw [← g] at h
  exact h
theorem State.MemoryOnly.cores_eq {s t : State} (h : s.MemoryOnly t) : t.cores = s.cores := by
  unfold State.MemoryOnly at h; rw [← h]
theorem State.MemoryOnly.hub_eq {s t : State} (h : s.MemoryOnly t) : t.hub = s.hub := by
  unfold State.MemoryOnly at h; rw [← h]
theorem State.MemoryOnly.dies_eq {s t : State} (h : s.MemoryOnly t) : t.dies = s.dies := by
  unfold State.MemoryOnly at h; rw [← h]
theorem State.MemoryOnly.core_eq {s t : State} (h : s.MemoryOnly t) : t.core = s.core := by
  unfold State.MemoryOnly at h; rw [← h]
theorem State.MemoryOnly.tid_eq {s t : State} (h : s.MemoryOnly t) : t.tid = s.tid := by
  unfold State.MemoryOnly at h; rw [← h]
theorem State.MemoryOnly.thr_eq {s t : State} (h : s.MemoryOnly t) : t.thr = s.thr := by
  simp only [State.thr, State.cur, State.coreAt, h.cores_eq, h.core_eq, h.tid_eq]

theorem paPut_memoryOnly (s : State) (pa : Nat) (l : List Byte) : s.MemoryOnly (s.paPut pa l) := by
  unfold State.paPut; split <;> rfl
theorem sectorWrite_memoryOnly (s : State) (pa key : Nat) (l : List Byte) : s.MemoryOnly (s.sectorWrite pa key l) := by
  have h : s.MemoryOnly (if s.badDram.isEmpty || !s.isOwn pa then s else { s with badDram := s.badDram.filter (· ≠ localPa pa / 64) }) := by
    split <;> rfl
  unfold State.sectorWrite
  dsimp only
  generalize (if s.badDram.isEmpty || !s.isOwn pa then s else { s with badDram := s.badDram.filter (· ≠ localPa pa / 64) } : State) = u at h ⊢
  split <;> exact h.trans (paPut_memoryOnly u pa _)
theorem lineWrite_memoryOnly (pa key : Nat) (x : VReg) (l : List Nat) (s : State) : s.MemoryOnly (s.lineWrite pa key x l) := by
  unfold State.lineWrite
  induction l generalizing s with
  | nil => rfl
  | cons i l ih => exact (sectorWrite_memoryOnly s _ key _).trans (ih _)
theorem dramWrite_memoryOnly (s : State) (pa n x : Nat) : s.MemoryOnly (s.dramWrite pa n x) := rfl

/-- The memories that a write can change stay in their canonical form. -/
def State.WfMemory (s : State) : Prop := Memory.wf (dramDefault s.dramEpoch) s.dram = true ∧ Memory.wf Config.farByte s.far = true
theorem paPut_wfMemory {s : State} (h : s.WfMemory) (pa : Nat) (l : List Byte) : (s.paPut pa l).WfMemory := by
  unfold State.paPut
  split
  · exact ⟨wf_memWrite _ _ _ _ h.1, h.2⟩
  · exact ⟨h.1, wf_memWrite _ _ _ _ h.2⟩
theorem sectorWrite_wfMemory {s : State} (h : s.WfMemory) (pa key : Nat) (l : List Byte) : (s.sectorWrite pa key l).WfMemory := by
  have g : (if s.badDram.isEmpty || !s.isOwn pa then s else { s with badDram := s.badDram.filter (· ≠ localPa pa / 64) } : State).WfMemory := by
    split <;> exact h
  unfold State.sectorWrite
  dsimp only
  generalize (if s.badDram.isEmpty || !s.isOwn pa then s else { s with badDram := s.badDram.filter (· ≠ localPa pa / 64) } : State) = u at g ⊢
  split <;> exact paPut_wfMemory g pa _
theorem lineWrite_wfMemory (pa key : Nat) (x : VReg) (l : List Nat) {s : State} (h : s.WfMemory) : (s.lineWrite pa key x l).WfMemory := by
  unfold State.lineWrite
  induction l generalizing s with
  | nil => exact h
  | cons i l ih => exact ih (sectorWrite_wfMemory h _ key _)

/-- A line copied forward (R269) changes memory and the region's record, and no core. -/
theorem copyForward_keeps (s : State) (key : Nat × Nat) (r : VRegion) (j pa kidx v : Nat) :
    (s.copyForward key r j pa kidx v).cores = s.cores ∧ (s.copyForward key r j pa kidx v).dies = s.dies ∧
    (s.copyForward key r j pa kidx v).core = s.core ∧ (s.copyForward key r j pa kidx v).tid = s.tid := by
  unfold State.copyForward
  split
  · exact ⟨rfl, rfl, rfl, rfl⟩
  · have h := lineWrite_memoryOnly (slotPa pa (r.slot v)) kidx (s.lineRead (slotPa pa (r.slot (s.vread r j (v - 1)))) kidx) [0, 1, 2, 3] s
    exact ⟨h.cores_eq, h.dies_eq, h.core_eq, h.tid_eq⟩
/-- Memory is ready throughout where every function is. -/
theorem memReady_all {h : Hub} (h0 : h.ready0 = BitVec.allOnes 64) (h1 : h.ready1 = BitVec.allOnes 64) (pa : Nat) : h.memReady pa = true := by
  have : paDie pa < 8 := by unfold paDie; split <;> omega
  unfold Hub.memReady
  split
  · rw [h0, BitVec.getLsbD_allOnes, decide_eq_true_eq]; omega
  · rw [h1, BitVec.getLsbD_allOnes, decide_eq_true_eq]; omega
theorem copyForward_fold (key : Nat × Nat) (r : VRegion) (kidx v : Nat) (l : List (Nat × Nat)) (s : State) :
    let t := l.foldl (fun (s : State) l => s.copyForward key r l.1 l.2 kidx v) s
    t.cores = s.cores ∧ t.core = s.core ∧ t.tid = s.tid := by
  induction l generalizing s with
  | nil => exact ⟨rfl, rfl, rfl⟩
  | cons a l ih =>
    obtain ⟨h1, _, h2, h3⟩ := copyForward_keeps s key r a.1 a.2 kidx v
    obtain ⟨g1, g2, g3⟩ := ih (s.copyForward key r a.1 a.2 kidx v)
    exact ⟨g1.trans h1, g2.trans h2, g3.trans h3⟩

end Sys2Proof.Machine
end

