-- ==== Sys2Proof/Tests/Slice0.lean ====
section
/-! SUPPORT. Tests: well-formedness refuses what it should, the spec's own words decode to their instructions, single steps give the values
that the spec's worked examples and rules state, and each statement's hypotheses are met by some state. -/

section

set_option Elab.async false

open Sys2Proof Sys2Proof.Machine

/-! ### Well-formedness: one refused term for each check -/

theorem test_wf_bitfield : (Instr.bexti 1 2 63 1).wf = false ∧ (Instr.bextsi 1 2 0 63).wf = true ∧ (Instr.binsi 1 2 32 32).wf = false := by decide
theorem test_wf_atomic : (Instr.amo .faddF32 true .die 1 2 3).wf = false ∧ (Instr.red .xchg false .die 2 3).wf = false ∧
    (Instr.red .cas true .pod 2 3).wf = false ∧ (Instr.red .fmaxF32 true .pkg 2 3).wf = false := by decide
theorem test_wf_scope : (Instr.fenceAcq .die 1).wf = false ∧ (Instr.fenceRel .rect 1).wf = true ∧ (Instr.bar .core 0).wf = false ∧
    (Instr.barsum .f32 .pkg 1 2 3).wf = false := by decide
theorem test_wf_csr : (Instr.csrr 1 0x014).wf = false ∧ (Instr.csrw 1 2 0x000).wf = false ∧ (Instr.csrs 1 0 0x000).wf = true ∧
    (Instr.csrc 1 2 0x031).wf = false := by decide
theorem test_wf_float : (Instr.fadd .i32 1 2 3).wf = false ∧ (Instr.fcvt .i32 .n32 1 2).wf = false ∧ (Instr.fcvt .f32 .f32 1 2).wf = false ∧
    (Instr.fcvt .e4m3 .f32 1 2).wf = false := by decide
theorem test_wf_vector_code : (Instr.vadd .f32 24 1 2 0).wf = false ∧ (Instr.vadd .f32 23 16 2 0).wf = true ∧ (Instr.rputmv 1 24).wf = false := by
  decide
theorem test_wf_vector_type : (Instr.vadd .i4 1 2 3 0).wf = false ∧ (Instr.vabs .n8 1 2 0).wf = false ∧ (Instr.vdot4 .i16 1 2 3 0).wf = false ∧
    (Instr.vmulh .f32 1 2 3 0).wf = false ∧ (Instr.vshl .f32 1 2 3 0).wf = false ∧ (Instr.vcmpeq .e4m3 1 2 3 0).wf = false := by decide
theorem test_wf_vector_type_more : (Instr.vcvt .c8 .f32 1 2 0).wf = false ∧ (Instr.vcvt .f32 .f32 1 2 0).wf = false ∧
    (Instr.venc .bf16 1 2 0).wf = false ∧ (Instr.vqnt .f16 1 2 3 0).wf = false ∧ (Instr.vperm .i4 1 2 3 0).wf = false ∧
    (Instr.vamaxb .i32 1 2 0).wf = false ∧ (Instr.vgth .n4 1 2 3 0).wf = false ∧ (Instr.viota .f32 1 0).wf = false := by decide
theorem test_wf_accumulator : (Instr.accst .n32 0 1 2).wf = false ∧ (Instr.accld .e4m3 0 1 2).wf = false ∧ (Instr.accstg .c8 0 1 2).wf = false := by
  decide
theorem test_wf_descriptor : (Instr.xld 5 1 2).wf = false ∧ (Instr.xcan 0).wf = false ∧ (Instr.xlm 28 1 2).wf = true := by decide
theorem test_wf_events : (Instr.waitExpired 9216 0).wf = false ∧ (Instr.contextSpill 0 16).wf = false ∧ (Instr.pageWalk 8 0 0 .read).wf = false ∧
    (Instr.lineFill 0 4096 0).wf = false ∧ (Instr.lineFill 0 0 (2 ^ 56)).wf = false ∧ (Instr.queueOpen 16384).wf = false ∧
    (Instr.launchRetire 4096).wf = false ∧ (Instr.imageEvict 0 16).wf = false := by decide
theorem test_wf_events_more : (Instr.regionRecordLive 0 64).wf = false ∧ (Instr.putArrival 0 16384 0 []).wf = false ∧
    (Instr.captureSample 7 7).wf = false ∧ (Instr.functionReady 102).wf = false ∧ (Instr.portDown 18).wf = false ∧
    (Instr.packageAvailable 1024).wf = false ∧ (Instr.wordRequest 0 0 2 4 none).wf = false ∧ (Instr.versionedAccess 0 4 0 none).wf = false := by
  decide

/-! ### Decoding: the words that the spec itself spells out -/

/-- Spec: 00_scope, 01_tutorial, 14 (scalar words). -/
theorem test_decode_scalar : decode 0x04642800 = .ok (.add 3 4 5) ∧ decode 0x0880FFF9 = .ok (.addi 4 0 0xFFF9) ∧
    decode 0x04A32000 = .ok (.add 5 3 4) ∧ decode 0x4480FFFD = .ok (.dbnz 4 0xFFFD) ∧ decode 0x48200008 = .ok (.jal 1 8) ∧
    decode 0x0600800C = .ok (.sltn 16 0 16) ∧ decode 0x05AD0023 = .ok (.zextW 13 13) ∧ decode 0x28C510C8 = .ok (.bextsi 6 5 3 8) :=
  ⟨rfl, rfl, rfl, rfl, rfl, rfl, rfl, rfl⟩
/-- Spec: 03 and 04 (thread control, CSR and SYS). -/
theorem test_decode_system : decode 0x74000000 = .ok .yield ∧ decode 0x74000001 = .ok .park ∧ decode 0x74070002 = .ok (.wake 7) ∧
    decode 0x79200000 = .ok (.csrr 9 0x000) ∧ decode 0x780E0301 = .ok (.csrw 0 14 0x030) ∧ decode 0x781E0613 = .ok (.csrc 0 30 0x061) ∧
    decode 0x7C001800 = .ok (.trap 3) ∧ decode 0x7C000001 = .ok .brk ∧ decode 0x7C000002 = .ok .ifence ∧ decode 0x7C000003 = .ok .eret ∧
    decode 0x7C000004 = .ok .halt ∧ decode 0x74000008 = .ok .tret :=
  ⟨rfl, rfl, rfl, rfl, rfl, rfl, rfl, rfl, rfl, rfl, rfl, rfl⟩
/-- Spec: 05 (scalar floating point). -/
theorem test_decode_float : decode 0x80A63823 = .ok (.ffma .bf16 5 6 7) ∧ decode 0x80A63800 = .ok (.fadd .f32 5 6 7) ∧
    decode 0x80A6002B = .ok (.fcvt .bf16 .f32 5 6) ∧ decode 0x80A6000E = .ok (.fclass .f32 5 6) ∧
    decode 0x8379304B = .ok (.fcvt .f16 .i32 27 25) := ⟨rfl, rfl, rfl, rfl, rfl⟩
/-- Spec: 02, 06, 07, 16 and 18 (vector words). -/
theorem test_decode_vector : decode 0x8C240802 = .ok (.vcmplt .f32 1 4 1 0) ∧ decode 0x86308002 = .ok (.vmul .f32 17 16 16 0) ∧
    decode 0x90810010 = .ok (.vcvt .bf16 .f32 4 1 0) ∧ decode 0x94A60005 = .ok (.vsigm 5 6 0) ∧
    decode 0x98470103 = .ok (.vredsum .f32 2 7 1) ∧ decode 0xA0714800 = .ok (.vsadd .f32 3 17 9 0) ∧
    decode 0xA46C0000 = .ok (.vsplat .f32 3 12 0) ∧ decode 0xA5E20002 = .ok (.vext .f32 15 2 0) ∧ decode 0xA43900C5 = .ok (.gtok .n8 1 25) ∧
    decode 0x9C734000 = .ok (.vldl 3 19 8 0) ∧
    decode 0x84400903 = .ok (.vfma .f32 2 0 1 1) := ⟨rfl, rfl, rfl, rfl, rfl, rfl, rfl, rfl, rfl, rfl, rfl⟩
/-- Spec: 02, 07, 09 and 18 (memory words). -/
theorem test_decode_memory : decode 0x50A6A004 = .ok (.ld .n32 5 6 4) ∧ decode 0x5504C000 = .ok (.st .b64 8 4 0) ∧
    decode 0x58C5A000 = .ok (.ldl .n32 6 5 0) ∧ decode 0x5D00C801 = .ok (.stl .b64 8 0 0x801) ∧ decode 0x60A63805 = .ok (.ldx .n32 5 6 7) ∧
    decode 0x60040010 = .ok (.pfg 4) ∧ decode 0x60042812 = .ok (.cinv 4 5) ∧ decode 0x9C240000 = .ok (.vldl 1 4 0 0) ∧
    decode 0x9C130101 = .ok (.vstl 0 19 0 1) ∧ decode 0x9C334101 = .ok (.vstl 1 19 8 1) ∧ decode 0x9C240002 = .ok (.vld 1 4 0 0) ∧
    decode 0x9C451906 = .ok (.vgth .f32 2 5 3 1) ∧ decode 0x9C451908 = .ok (.vgthl .f32 2 5 3 1) :=
  ⟨rfl, rfl, rfl, rfl, rfl, rfl, rfl, rfl, rfl, rfl, rfl, rfl, rfl⟩
/-- Spec: 10, 11, 12 (fences, barriers, atomics). -/
theorem test_decode_sync : decode 0x68000101 = .ok (.fenceRel .die 0) ∧ decode 0x6800B281 = .ok (.fenceRel .rect 22) ∧
    decode 0x68000180 = .ok (.fenceAcq .pkg 0) ∧ decode 0x6800B283 = .ok (.bar .rect 22) ∧ decode 0x68000103 = .ok (.bar .die 0) ∧
    decode 0x69270084 = .ok (.barmax .n64 .quad 9 7 0) ∧ decode 0x68A601A5 = .ok (.barsum .f32 .pkg 5 6 0) ∧
    decode 0x68A60007 = .ok (.waitge 5 6) ∧ decode 0x640A5880 = .ok (.red .add false .die 10 11) ∧
    decode 0x65CF58A0 = .ok (.amo .add false .die 14 15 11) ∧ decode 0x640D50C0 = .ok (.red .add false .pkg 13 10) ∧
    decode 0x64A63939 = .ok (.amo .cas true .pod 5 6 7) ∧ decode 0x640428CA = .ok (.red .faddF32 false .pkg 4 5) :=
  ⟨rfl, rfl, rfl, rfl, rfl, rfl, rfl, rfl, rfl, rfl, rfl, rfl, rfl⟩
/-- Spec: 13 (landing registers, remote writes, messages, events). -/
theorem test_decode_messages : decode 0x6CC01800 = .ok (.putl 3 6) ∧ decode 0x6D492801 = .ok (.rput 5 10 9) ∧
    decode 0x6D001802 = .ok (.take 8 3) ∧ decode 0x6D001803 = .ok (.peek 8 3) ∧ decode 0x6D001804 = .ok (.testl 8 3) ∧
    decode 0x6C001805 = .ok (.clrl 3) ∧ decode 0x70171001 = .ok (.rputmv 23 2) ∧ decode 0x70073002 = .ok (.msnd 7 6) ∧
    decode 0x70073005 = .ok (.msndn 7 6) ∧ decode 0x71000003 = .ok (.mrcv 8) ∧ decode 0x70090004 = .ok (.waitm 9) ∧
    decode 0x71090006 = .ok (.mrcvn 8 9) ∧ decode 0x70000007 = .ok .evon ∧ decode 0x70000008 = .ok .evoff ∧ decode 0x70000009 = .ok .evret :=
  ⟨rfl, rfl, rfl, rfl, rfl, rfl, rfl, rfl, rfl, rfl, rfl, rfl, rfl, rfl, rfl⟩
/-- Spec: 15, 16 (versions and antlers). -/
theorem test_decode_versions : decode 0xB9053000 = .ok (.ldvn 8 5 6) ∧ decode 0xB9253001 = .ok (.redvn .i64 9 5 6) ∧
    decode 0xB9253009 = .ok (.redvn .f32 9 5 6) ∧ decode 0xB9253011 = .ok (.redvn .bf16x2 9 5 6) ∧ decode 0xB9253002 = .ok (.stvn 9 5 6) ∧
    decode 0xB8053003 = .ok (.vnopen 5 6) ∧ decode 0xB8053004 = .ok (.vnseal 5 6) ∧ decode 0xB8053005 = .ok (.vnrecl 5 6) ∧
    decode 0xB9053006 = .ok (.vnstat 8 5 6) ∧ decode 0xB4800000 = .ok (.atbind 0 4) ∧ decode 0xB4A00801 = .ok (.atdig 0 1 5) ∧
    decode 0xB4A61002 = .ok (.atld 0 2 5 6) ∧ decode 0xB4A71803 = .ok (.atsg 0 3 5 7) ∧ decode 0xB4002014 = .ok (.atinfo 1 4) :=
  ⟨rfl, rfl, rfl, rfl, rfl, rfl, rfl, rfl, rfl, rfl, rfl, rfl, rfl, rfl⟩
/-- Spec: 17, 18, 02, 19 (matrix and copy engines). -/
theorem test_decode_engines : decode 0xA8A63B20 = .ok (.mma .e4m3 .k128 1 5 6 7) ∧ decode 0xA8A63880 = .ok (.mma .bf16 .k64 0 5 6 7) ∧
    decode 0xA8A63891 = .ok (.mmal .f16 .k64 0 5 6 7) ∧ decode 0xA8A63C12 = .ok (.mmr .f16 .k32 2 5 6 7) ∧
    decode 0xAC000200 = .ok (.accz 1) ∧ decode 0xACA02211 = .ok (.accst .bf16 1 4 5) ∧ decode 0xACC01002 = .ok (.accld .f32 0 2 6) ∧
    decode 0xACA60623 = .ok (.accstg .f16 3 5 6) ∧ decode 0xB0895000 = .ok (.xld 4 9 10) ∧ decode 0xB0884801 = .ok (.xst 4 8 9) :=
  ⟨rfl, rfl, rfl, rfl, rfl, rfl, rfl, rfl, rfl, rfl⟩
/-- Spec: 02 (R26, R35 and R20: what traps as an illegal instruction), R21 and R37. -/
theorem test_decode_refuses : decode 0x64E84960 = .error .codeIllegal ∧ decode 0xB0A95000 = .error .codeIllegal ∧
    (∃ e, decode 0x8D240802 = .error e) ∧ (∃ e, decode 0x00000000 = .error e) ∧ (∃ e, decode 0xFFFFFFFF = .error e) ∧
    (∃ e, decode 0x74000800 = .error e) := ⟨rfl, rfl, ⟨_, rfl⟩, ⟨_, rfl⟩, ⟨_, rfl⟩, ⟨_, rfl⟩⟩

/-! ### Single steps -/

/-- A core that is ready, with t0 Ready at 0x400 at system level. -/
def testBase : State := State.reset.placeWord 0
/-- A state with some general registers of the running thread set. -/
def testRegs (l : List (Reg × Word)) (s : State) : State := l.foldl (fun s e => s.wr e.1 e.2) s
/-- What an outcome gives a next state. -/
def testGet {α : Type} (o : Host.Outcome State Fault Refusal) (f : State → α) : Option α :=
  match o with
  | .next t => some (f t)
  | _ => none
/-- The value that an instruction leaves in a general register. -/
def testRd (i : Instr) (l : List (Reg × Word)) (d : Reg) : Option Word := testGet (exec i (testRegs l testBase)) (·.rd d)
/-- The pc that an instruction leaves. -/
def testPc (i : Instr) (l : List (Reg × Word)) : Option Word := testGet (exec i (testRegs l testBase)) (·.thr.pc)
/-- A vector register with each 32-bit element given. -/
def testVec (f : Nat → Nat) : VReg := BitVec.ofNat 2048 (packElems 32 ((List.range 64).map f))
/-- The state after an instruction, if there is one. -/
def testDo (i : Instr) (s : State) : State := (testGet (exec i s) id).getD s

/-- R68: the table of quotients, and `rem` of −7 by 2. -/
theorem test_div : testRd (.div 3 4 5) [(4, 7), (5, 0)] 3 = some 0xFFFFFFFFFFFFFFFF ∧
    testRd (.rem 3 4 5) [(4, 0xFFFFFFFFFFFFFFF9), (5, 2)] 3 = some 0xFFFFFFFFFFFFFFFF ∧
    testRd (.div 3 4 5) [(4, 0x8000000000000000), (5, 0xFFFFFFFFFFFFFFFF)] 3 = some 0x8000000000000000 ∧
    testRd (.rem 3 4 5) [(4, 0x8000000000000000), (5, 0xFFFFFFFFFFFFFFFF)] 3 = some 0 := by decide +kernel
theorem test_divn : testRd (.divn 3 4 5) [(4, 0xFFFFFFFFFFFFFFFF), (5, 16)] 3 = some 0x0FFFFFFFFFFFFFFF ∧
    testRd (.remn 3 4 5) [(4, 77), (5, 0)] 3 = some 77 := by decide +kernel
theorem test_add_wraps : testRd (.add 3 4 4) [(4, 0x8000000000000001)] 3 = some 2 ∧ testRd (.sub 3 0 4) [(4, 1)] 3 = some 0xFFFFFFFFFFFFFFFF := by
  decide +kernel
theorem test_g0_reads_zero : testRd (.addi 0 4 5) [(4, 1)] 0 = some 0 := by decide +kernel
theorem test_shift_amount : testRd (.shl 3 4 5) [(4, 3), (5, 65)] 3 = some 6 ∧ testRd (.sra 3 4 5) [(4, 0x8000000000000000), (5, 63)] 3 =
    some 0xFFFFFFFFFFFFFFFF := by decide +kernel
theorem test_mulh : testRd (.mulh 3 4 5) [(4, 0xFFFFFFFFFFFFFFFF), (5, 2)] 3 = some 0xFFFFFFFFFFFFFFFF ∧
    testRd (.mulhn 3 4 5) [(4, 0xFFFFFFFFFFFFFFFF), (5, 2)] 3 = some 1 := by decide +kernel
theorem test_counts : testRd (.clz 3 4) [(4, 1)] 3 = some 63 ∧ testRd (.ctz 3 4) [(4, 0)] 3 = some 64 ∧ testRd (.pop 3 4) [(4, 0xF0F)] 3 = some 8 := by
  decide +kernel
/-- R69: the example with a = 0xF0, pos 60 and len 8. -/
theorem test_bext : testRd (.bext 3 4 5) [(4, 0xF0), (5, 0x73C)] 3 = some 0 := by decide +kernel
/-- R71: `bextsi g6, g5, 8, 4` with g5 = 0xA50; the field 8, 4 of 0xA50 is 0xA. -/
theorem test_bextsi : testRd (.bextsi 6 5 3 8) [(5, 0xA50)] 6 = some 0xFFFFFFFFFFFFFFFA := by decide +kernel
/-- R70: `lih` and `shlori` build 0x1234_0000_5678. -/
theorem test_lih_shlori : testRd (.lih 4 0x1234) [] 4 = some 0x12340000 ∧ testRd (.shlori 4 4 0x5678) [(4, 0x12340000)] 4 = some 0x123400005678 := by
  decide +kernel
theorem test_andi_slti : testRd (.andi 3 4 0xFFFF) [(4, 0xFFFFFFFFFFFF1234)] 3 = some 0x1234 ∧ testRd (.slti 3 4 0xFFFF) [(4, 0)] 3 = some 0 := by
  decide +kernel
/-- R72, R74: a branch counts words from its own address, and JALR reads ra before it writes rd. -/
theorem test_branches : testPc (.beq 4 5 0xFFFF) [] = some 0x3FC ∧ testPc (.bne 4 5 2) [] = some 0x404 ∧ testPc (.jal 1 8) [] = some 0x420 ∧
    testPc (.jalr 4 4 4) [(4, 0x1000)] = some 0x1004 ∧ testRd (.jalr 4 4 4) [(4, 0x1000)] 4 = some 0x404 := by decide +kernel
/-- R73: a count of 0 wraps and branches; `dbnz g0` always branches. -/
theorem test_dbnz : testPc (.dbnz 4 4) [] = some 0x410 ∧ testRd (.dbnz 4 4) [] 4 = some 0xFFFFFFFFFFFFFFFF ∧ testPc (.dbnz 0 4) [] = some 0x410 ∧
    testPc (.dbnz 4 4) [(4, 1)] = some 0x404 := by decide +kernel

/-- A thread with a handler at 0x500. -/
def testHandler : State := testBase.updCtl (fun c => { c with trapvec := 0x500 })
/-- R75, R80: `trap 3`, as in the worked example of 04. -/
theorem test_trap : testGet (exec (.trap 3) testHandler) (fun t => (t.thr.pc, t.thr.ctl.trapcause, t.thr.ctl.trappc, t.thr.ctl.trapval)) =
    some (0x500, 0x8000000000000006, 0x400, 3) := by decide +kernel
/-- R66: `csrc trapcause, g30` leaves 6 and gives the old value. -/
theorem test_csrc : testGet (exec (.csrc 5 30 0x061) (testRegs [(30, 0x8000000000000000)] (testDo (.trap 3) testHandler)))
    (fun t => (t.thr.ctl.trapcause, t.rd 5)) = some (6, 0x8000000000000006) := by decide +kernel
/-- R96: a write that would leave `seed` zero stores the constant. -/
theorem test_seed_zero : testGet (exec (.csrw 0 0 0x012) testBase) (·.thr.ctl.seed) = some 0x2545F4914F6CDD1D := by decide +kernel
/-- R77: ERET goes to `trappc` and clears the active bit; at task level it is illegal. -/
theorem test_eret : testGet (exec .eret (testDo (.trap 3) testHandler)) (fun t => (t.thr.pc, t.thr.ctl.trapcause)) = some (0x400, 6) ∧
    testGet (exec .eret (testHandler.updThr (fun t => { t with system := false }))) (·.thr.ctl.trapcause) = some 0x8000000000000001 := by
  decide +kernel

/-! Floating point -/

/-- R109: the three class words of 05. -/
theorem test_fclass : testRd (.fclass .f32 5 6) [(6, 0xBFC00000)] 5 = some 0x7F82 ∧ testRd (.fclass .f32 5 6) [(6, 0x7F800001)] 5 = some 0xFF05 ∧
    testRd (.fclass .f16 5 6) [(6, 0x4000)] 5 = some 0x1022 := by decide +kernel
/-- R94, R95: the worked example of 05: `fcvt.bf16.f32` of 0x3F80_C000 under SR, and under RNE and RTZ. -/
theorem test_fcvt_sr : testGet (exec (.fcvt .bf16 .f32 5 6) (testRegs [(6, 0x3F80C000)] (testBase.updCtl (fun c =>
    { c with seed := 0x100000000, fcw := 0x28, fflags := 0 })))) (fun t => (t.rd 5, t.thr.ctl.seed, t.thr.ctl.fflags)) =
    some (0x3F81, 0x4082244102000000, 16) := by decide +kernel
theorem test_fcvt_modes : testRd (.fcvt .bf16 .f32 5 6) [(6, 0x3F80C000)] 5 = some 0x3F81 ∧
    testGet (exec (.fcvt .bf16 .f32 5 6) (testRegs [(6, 0x3F80C000)] (testBase.updCtl (fun c => { c with fcw := 8 })))) (·.rd 5) = some 0x3F80 := by
  decide +kernel
/-- R237's worked sums in RNE: 1.0 + 2^−24 is 1.0, and (1 + 2^−23) + 2^−24 is 0x3F80_0002. -/
theorem test_fadd : testRd (.fadd .f32 5 6 7) [(6, 0x3F800000), (7, 0x33800000)] 5 = some 0x3F800000 ∧
    testRd (.fadd .f32 5 6 7) [(6, 0x3F800001), (7, 0x33800000)] 5 = some 0x3F800002 := by decide +kernel
theorem test_fdiv_fsqrt : testRd (.fdiv .f32 5 6 7) [(6, 0x3F800000), (7, 0x40800000)] 5 = some 0x3E800000 ∧
    testRd (.fsqrt .f32 5 6) [(6, 0x40800000)] 5 = some 0x40000000 := by decide +kernel

/-! Vectors and masks -/

/-- R132's example: 2^24, 0, 1.0, 1.0 and zeros sum to 0x4B80_0001 with no flag. -/
theorem test_vredsum : testGet (exec (.vredsum .f32 2 7 0) (testBase.vput 7 (testVec (fun i => if i = 0 then 0x4B800000 else
    if i = 2 ∨ i = 3 then 0x3F800000 else 0)))) (fun t => (elem 32 (t.vget 2) 0, t.thr.ctl.fflags)) = some (0x4B800001, 0) := by decide +kernel
/-- R113, R17: a mask bit governs the element whose lowest byte it names; an inactive element keeps its value. -/
theorem test_vadd_masked : testGet (exec (.vadd .i32 1 2 3 1) ((((testBase.vput 1 (testVec (fun _ => 9))).vput 2 (testVec (fun i => i))).vput 3
    (testVec (fun _ => 0xFFFFFFFF))).setMask 1 0x10)) (fun t => (elem 32 (t.vget 1) 0, elem 32 (t.vget 1) 1, elem 32 (t.vget 1) 2)) =
    some (9, 0, 9) := by decide +kernel
/-- R120: VABS of the most negative i8 saturates. -/
theorem test_vabs : testGet (exec (.vabs .i8 1 2 0) (testBase.vput 2 0x80)) (fun t => (elem 8 (t.vget 1) 0, t.thr.ctl.fflags)) =
    some (0x7F, 32) := by decide +kernel
/-- R116, R117 and the pipeline of 06: VMUL parks on an empty w0, and empties a Full one while it fills w1. -/
theorem test_window : testGet (exec (.vmul .f32 17 16 16 0) testBase) (fun t => decide (t.thr.status = .parked (.window 16) 0 0)) = some true ∧
    testGet (exec (.vmul .f32 17 16 16 0) (testBase.updCur (fun c => { c with windows := c.windows.setIfInBounds 0 ⟨testVec (fun _ => 0xC2000000), .full, 0⟩ })))
      (fun t => (t.cur.winState 16, t.cur.winState 17, elem 32 (t.vget 17) 0)) = some (.empty, .filling, 0x44800000) := by decide +kernel
theorem test_vcmp : testGet (exec (.vcmplt .i32 1 2 3 0) ((testBase.vput 2 (testVec (fun i => i))).vput 3 (testVec (fun _ => 2)))) (·.mask 1) =
    some 0xFF := by decide +kernel
theorem test_k0 : testGet (exec (.knot 0 1) testBase) (·.mask 0) = some (BitVec.allOnes 256) := by decide +kernel
theorem test_kpop : testRd (.kpop .f16 3 0) [] 3 = some 128 := by decide +kernel
theorem test_vext : testGet (exec (.vext .i8 3 2 4) (testRegs [(4, 5)] (testBase.vput 2 0xFF0000000000))) (·.rd 3) = some 0xFFFFFFFFFFFFFFFF := by
  decide +kernel

/-! Memory, messages, threads -/

/-- R145: little-endian bytes, and sign extension. -/
theorem test_ldl_stl : testGet (exec (.ldl .i16 3 0 0x801) (testDo (.stl .b64 8 0 0x400) (testRegs [(8, 0x11229944)] testBase))) (·.rd 3) = some 0 ∧
    testGet (exec (.ldl .i16 3 4 0) (testDo (.stl .b64 8 0 0x400) (testRegs [(4, 0x2000), (8, 0x11229944)] testBase))) (·.rd 3) =
      some 0xFFFFFFFFFFFF9944 := by decide +kernel
/-- R78: a misaligned address traps before anything else, an address beyond LM traps *LM protection*. -/
theorem test_ldl_traps : testGet (exec (.ldl .n32 3 4 0) (testRegs [(4, 0x40002)] testHandler)) (fun t => (t.thr.ctl.trapcause, t.thr.ctl.trapval)) =
    some (0x8000000000000002, 0x40002) ∧
    testGet (exec (.ldl .n32 3 4 0) (testRegs [(4, 0x40000)] testHandler)) (fun t => (t.thr.ctl.trapcause, t.thr.ctl.trapval)) =
    some (0x8000000000000004, 0x40000) := by decide +kernel
/-- R246: PUTL fills, TAKE empties and gives the data, a second TAKE parks. -/
theorem test_landing : testGet (exec (.take 8 3) (testDo (.putl 3 6) (testRegs [(6, 0x55)] testBase))) (fun t => (t.rd 8, (t.cur.land 3).full)) =
    some (0x55, false) ∧ testGet (exec (.take 8 3) testBase) (fun t => decide (t.thr.status = .parked (.landing 3 false) 0 0)) = some true := by
  decide +kernel
/-- R55: PARK consumes a set wake bit, and parks otherwise. -/
theorem test_park : testGet (exec .park (testBase.updThr (fun t => { t with wake := true }))) (fun t => (t.thr.wake, t.thr.pc)) = some (false, 0x404) ∧
    testGet (exec .park testBase) (fun t => decide (t.thr.status = .parked .wake 0 0)) = some true := by decide +kernel
/-- R54: the interval of YIELD is 16 cycles. -/
theorem test_yield : testGet (exec .yield testBase) (·.thr.readyAt) = some 16 := by decide +kernel
/-- R237's example: 1.0 + 2^−24 and then again + 2^−24 from 1 + 2^−23; R236: ADD wraps, MIN is signed and MINN is not. -/
theorem test_atomic_fn : atomicFn .faddF32 4 0x3F800000 0x33800000 0 = 0x3F800000 ∧ atomicFn .faddF32 4 0x3F800001 0x33800000 0 = 0x3F800002 ∧
    atomicFn .add 4 0xFFFFFFFF 2 0 = 1 ∧ atomicFn .min 4 0xFFFFFFFF 1 0 = 0xFFFFFFFF ∧ atomicFn .minn 4 0xFFFFFFFF 1 0 = 1 := by decide +kernel

/-- R399: a command is made of the words that its own writer has staged. -/
theorem test_command_window : testGet (exec (.controlRangeWrite 1 0x1018 8) (testDo (.controlRangeWrite 0 0x1000 7) testBase)) (fun t =>
    (t.hub.cmds.map (fun c => (c.w0, c.w3)), t.hub.staged)) = some ([(0, 8)], [((.shootdown, 0, 0), 7)]) := by decide +kernel

/-- FIPS 202: SHA3-256 of the empty message, whose digest begins a7 ff c6 f8. -/
theorem test_sha3 : digest [] = 0x4a43f8804b0ad882fa493be44dff80f562d661a05647c15166d71ebff8c6ffa7 := by decide +kernel

/-! The step -/

/-- Reset, one word placed, one step. -/
theorem test_step : testGet (step (State.reset.withFetchWord 32 0x0880FFF9)) (fun t => (t.thr.pc, t.rd 4)) = some (0x404, 0xFFFFFFFFFFFFFFF9) := by
  decide +kernel
/-- With nothing placed no core runs: the step only lets time pass. -/
theorem test_reset_idle : testGet (step State.reset) (fun t => (t.hub.ready1, t.cores.length)) = some (0, 0) := by decide +kernel

/-! ### Each statement's hypotheses are met -/

theorem lmMay_of {s : State} {w : Bool} {a n : Nat} (h : (decide (a + n ≤ 0x40000) && (List.range n).all (fun j =>
    s.cur.lmAllowed s.tid w ((a + j) / 512) && (w || !s.cur.badLm.contains (a + j)))) = true) : LmMay s w a n := by
  simp only [Bool.and_eq_true, decide_eq_true_eq, List.all_eq_true, List.mem_range] at h
  refine ⟨h.1, fun b h1 h2 => ?_, fun hw b h1 h2 hm => ?_⟩
  · have := (h.2 (b - a) (by omega)).1
    rwa [Nat.add_sub_cancel' h1] at this
  · have := (h.2 (b - a) (by omega)).2
    rw [Nat.add_sub_cancel' h1, hw] at this
    simp [hm] at this
theorem byte_of {p : Nat → Bool} (n : Nat) (h : (List.range n).all p = true) : ∀ j, j < n → p j = true := by
  simpa [List.all_eq_true] using h

/-- A core with memory: every page of tenancy 0 below 128 GiB is mapped, readable and writable, at its own address. -/
def testMem : State :=
  let s := testBase.updHub (fun h => { h with ready0 := BitVec.allOnes 64, ready1 := BitVec.allOnes 64, allDown := none })
  let put := fun (m : List Host.Cell) (a x : Nat) => memWrite (dramDefault s.dramEpoch) m a (bytesOfNat 8 x)
  { s with dram := put (put (put (put s.dram 0 0x2001) 24 0x10000) 0x2000 0x4001) 0x4000 0x7B }
/-- The same with g4 = 0x10_0000. -/
def testVa : State := testRegs [(4, 0x100000), (5, 7)] testMem
/-- t0 at task level. -/
def testUser : State := testBase.updThr (fun t => { t with system := false })

/-- The running thread's request has been answered. -/
def testServed (s : State) : State := s.updProgress (fun p => { p with ask := .served })

theorem met_placed : testBase.Placed ∧ testMem.Placed ∧ testVa.Placed ∧ testUser.Placed ∧ testHandler.Placed := by
  and_intros <;> decide +kernel
/-- ScalarArithmetic, FloatScalars, BitsAndImmediates: a placed state, every type, a field that ends at bit 63 and one that passes it. -/
theorem met_scalar : testBase.Placed ∧ fpsTy .f32 = true ∧ fpsTy .bf16 = true ∧ fcvtFits .i32 .f16 = true ∧ fcvtFits .f16 .n32 = true ∧
    (62 : BitVec 6).toNat + (1 : BitVec 6).toNat < 64 ∧ 64 ≤ (63 : BitVec 6).toNat + (1 : BitVec 6).toNat := by
  and_intros <;> decide +kernel
/-- ControlTransfers: branches not taken, taken and with bad targets; DBNZ that ends and that goes on; the last word of LM. -/
theorem met_ControlTransfers : testBase.tid < 16 ∧ testBase.thr.pc ≠ 0x3FFFC ∧ (Instr.beq 4 5 2, true) ∈ BranchWhen testBase 4 5 2 ∧
    (Instr.bne 4 5 2, false) ∈ BranchWhen testBase 4 5 2 ∧
    LegalPc (BitVec.ofInt 64 (testBase.thr.pc.toInt + 4 * (2 : BitVec 16).toInt)) ∧ LegalPc 0x3FFFC ∧ (testRegs [(4, 1)] testBase).rd 4 = 1 ∧
    ((0x40000 : Word).toNat % 4 = 0 ∧ 0x3FFFC < (0x40000 : Word).toNat) ∧ (2 : Word).toNat % 4 ≠ 0 ∧
    (testBase.updThr (fun t => { t with pc := 0x3FFFC })).thr.pc = 0x3FFFC := by
  and_intros <;> first | decide +kernel | (simp [BranchWhen]; decide +kernel)
/-- Rounding: below, at and above half a unit, and exact. -/
theorem met_Rounding : (0 : Int) ≤ 2 ∧ 5 % 4 ≠ 0 ∧ 2 * (5 % 4) < 4 ∧ 2 * (6 % 4) = 4 ∧ 4 < 2 * (7 % 4) ∧ 8 % 4 = 0 := by decide
/-- ControlRegisters and CsrTraps: a register open at either level, one open at system level only, and each refused value. -/
theorem met_ControlRegisters : CsrOpen testBase 0x803 ∧ CsrOpen testBase 0x011 ∧ testUser.thr.system = false ∧ csrWritable 0x010 = true ∧
    csrBad 0x010 0x1FF = true ∧ csrBad 0x010 0x44 = false ∧ csrBad 0x010 0x30 = true ∧ csrBad 0x041 2 = false ∧ csrBad 0x041 1 = true ∧
    ((0x000 : BitVec 12), word testBase.tid) ∈ CsrTable testBase := by
  have h : testBase.cur.mq = [] := by decide +kernel
  refine ⟨⟨fun h => absurd h (by decide), fun _ => by decide +kernel⟩, ⟨fun _ m hm => ?_, fun h => absurd h (by decide)⟩, ?_⟩
  · rw [h] at hm; simp at hm
  · and_intros <;> first | decide +kernel | simp [CsrTable]
/-- TrapsAndStops: a thread with a handler, one with none, and one that has not cleared the active bit. -/
theorem met_TrapsAndStops : testHandler.HasHandler ∧ testHandler.tid < 15 ∧ ¬ testBase.HasHandler ∧ ¬ (testDo (.trap 3) testHandler).HasHandler := by
  unfold State.HasHandler; decide +kernel
/-- SystemInstructions: both levels, a legal return address, a tenancy with debug enabled and one without. -/
theorem met_SystemInstructions : testBase.thr.system = true ∧ LegalPc testBase.thr.ctl.trappc ∧ testUser.thr.system = false ∧
    testBase.tn ∉ testBase.hub.debugOn ∧
    (testBase.updHub (fun h => { h with debugOn := [0] })).tn ∈ (testBase.updHub (fun h => { h with debugOn := [0] })).hub.debugOn := by
  and_intros <;> decide +kernel
/-- LocalAccess: the last word of LM, read and written at system level; a misaligned address, one beyond LM, and a block that t0 may not write. -/
theorem met_LocalAccess : LmMay testBase false 0x2000 8 ∧ LmMay testBase true 0x2000 8 ∧ (0x2002 : Word).toNat % 4 ≠ 0 ∧
    0x40000 ≤ (0x40000 : Word).toNat ∧ testBase.cur.lmAllowed testBase.tid true (0x3F000 / 512) = false := by
  refine ⟨lmMay_of ?_, lmMay_of ?_, ?_⟩ <;> decide +kernel
/-- w0 Full with −32.0 in each element, w1 to w7 Empty. -/
def testWin : State := testBase.updCur (fun c => { c with windows := c.windows.setIfInBounds 0 ⟨testVec (fun _ => 0xC2000000), .full, 0⟩ })
/-- Windows held by launch 7. -/
def testHeldWin : State := testBase.updCur (fun c => { c with winHolder := some 7 })
/-- VectorArithmetic, SpecialFunctions, Reductions, ComparesAndMasks: vector registers, and windows where one is read Full and one written Empty. -/
theorem met_vector : WinReady testBase [2, 3] [1] ∧ WinReady testWin [16, 16] [17] ∧ WinReady testWin [1, 2, 3] [1] ∧ WinReady testWin [16] [17] ∧
    WinReady testBase [] [23] ∧ WinReady testBase [2, 3] [] ∧ WinReady testWin [16] [] ∧ (Instr.vmul .f32 17 16 16 0).wf = true ∧
    (Instr.vabs .i8 1 2 0).wf = true ∧ (Instr.vredsum .bf16 1 2 0).wf = true ∧ (Instr.vcmpeq .i4 1 2 3 0).wf = true ∧
    (testBase.rd 4).toNat < lanes 32 ∧ ElemTy.f16.isF = true ∧ ElemTy.n8.isF = false := by
  and_intros <;> decide +kernel
/-- VectorConversions: a valid decode table, an invalid one, an element index beyond the register. -/
theorem met_VectorConversions : (Instr.vcvt .bf16 .f32 4 1 0).wf = true ∧ WinReady testBase [1] [4] ∧
    (testBase.updCur (fun c => { c with dtab := 1 })).cur.dtab.getLsbD 0 = true ∧ testBase.cur.dtab.getLsbD 0 = false ∧
    testBase.holderBad [1, 4] = none ∧ lanes ElemTy.f32.width ≤ ((testRegs [(4, 64)] testBase).rd 4).toNat := by
  and_intros <;> decide +kernel
/-- Windows: a claim of none and of some; another launch's windows; a source that is not Full and a destination that is not Empty; a damaged one. -/
theorem met_Windows : winCodes [1, 2] = [] ∧ winCodes [16, 23] ≠ [] ∧ testBase.cur.winHolder = none ∧
    VecFields (.vadd .f32 1 16 2 0) = some ([16, 2], [1]) ∧ VecFields (.vmov .f32 16 2 0) = some ([2], [16]) ∧
    testHeldWin.holderBad ([16, 2] ++ [1]) = some 16 ∧ testBase.holderBad ([16, 2] ++ [1]) = none ∧ testBase.winBlocked [16, 2] [1] = some 16 ∧
    testWin.winBlocked [2] [16] = some 16 ∧ testWin.winBlocked [16, 2] [1] = none ∧
    ((testWin.updCur (fun c => { c with badWin := [0] })).winDamage [16, 2]).isSome = true := by
  decide +kernel
/-- LocalVectors: 256 bytes and 64 lanes in LM, read and written; the last table that fits. -/
theorem met_LocalVectors : LmMay testBase false 0x2E1FC 4 ∧ LmMay testBase false 0x2DE00 1024 ∧
    (∀ j, j < 256 → testBase.cur.lmAllowed testBase.tid true ((0x2E100 + j) / 512) = true) ∧
    (Instr.vldl 1 4 0 0).wf = true ∧ (Instr.vsctl .f32 1 4 2 0).wf = true ∧ (0x2E100 : Nat) % 4 = 0 ∧ 0x2E100 + 256 ≤ 0x40000 := by
  refine ⟨lmMay_of ?_, lmMay_of ?_, byte_of 256 ?_, ?_⟩ <;> decide +kernel

/-- GlobalAccess, MemoryKeepsThreads: a load and a store whose sector is granted after the answer, and the line that the store then holds in M; and
a load whose sector the L1 holds. -/
theorem met_GlobalAccess : Idle testVa ∧ Served (testServed testVa) ∧ testVa.rd 4 = 0x100000 ∧
    ((testServed testVa).obtain 0 0 0x100000 false).2 = .ok ∧ ((testServed testVa).obtain 0 0 0x100000 true).2 = .ok ∧
    ((testServed testVa).obtain 0 0 0x100000 true).1.thr = (testServed testVa).thr ∧ (testVa.obtain 0 0 0x100000 true).1.tid = testVa.tid ∧
    (((testVa.obtain 0 0 0x100000 true).1.cur.l1Find 0 (lineOf 0x100000)).map (fun l => l.sec[0]?)) = some (some .m) ∧
    Idle (testVa.obtain 0 0 0x100000 false).1 ∧ (testVa.obtain 0 0 0x100000 false).1.l1Hit 0 0 0x100000 false = true ∧
    (testVa.obtain 0 0 0x100000 true).1.pushing = false ∧ (testVa.obtain 0 0 0x100000 true).1.jam = false := by
  and_intros <;> decide +kernel
/-- AccessTraps: a misaligned VA, one beyond 56 bits, a page that is not mapped, an access that a shootdown holds, a sector that the L1 lacks, a range
beyond 2^30. -/
theorem met_AccessTraps : (0x100002 : Word).toNat % loadBytes .n32 ≠ 0 ∧ 2 ^ 56 ≤ (0x0100000000000000 : Word).toNat ∧
    (testVa.obtain 0 0 0x2000000000 false).2 = .page 1 1 0 ∧ (testVa.obtain 0 0 0x2000000000 false).1.noFaultQueue 0 = false ∧
    ((testVa.updHub (fun h => { h with shoot := some ⟨0, 1, 1, 0, 0x200000⟩ })).obtain 0 0 0x100000 false).2 = .hold .other ∧
    testVa.l1Hit 0 0 0x100000 false = false ∧ testVa.l1Hit 0 0 0x100000 true = false ∧
    2 ^ 30 < (0x40000001 : Word).toNat ∧ 2 ^ 56 < (0x00FFFFFFFFFFFF00 : Word).toNat + (0x200 : Word).toNat := by decide +kernel
/-- Ranges: a prefetch of a sector that is absent, of one that is there, and one under way, with no claim; a range with a cached line that may be
written home, and an empty range. -/
theorem met_Ranges :
    let s := (testVa.obtain 0 0 0x100000 true).1
    let p := testVa.updCur (fun c => { c with prefetches := [(0, 0x100000)] })
    testVa.l1Hit 0 0 0x100000 false = false ∧ testVa.cur.l1Way 0 0x1000 = true ∧ s.l1Hit 0 0 0x100000 false = true ∧
    (p.dieAt 0).claimed 0 0x1000 = false ∧ p.lineAbsent 0 0 0x1000 = true ∧ (p.translate 0 0 0x2000000000 .read none).2.ans ≠ .ok ∧
    (s.dieAt 0).linesIn 0 0x100000 256 = [0x1000] ∧ (testVa.dieAt 0).linesIn 0 0x100000 256 = [] ∧ (s.dieAt 0).claimedIn 0 0x100000 256 = false ∧
    (((s.dieAt 0).llcFind 0 0x1000).map (s.wbHeld 0)) = some false ∧
    (((s.dieAt 0).llcFind 0 0x1000).map (fun l => (s.cleanToDram 0 l).jam)) = some false := by decide +kernel
/-- GlobalVectors: a whole access whose sectors are granted after the answer, lanes at a stride and by offsets, and a word request that is served. -/
theorem met_GlobalVectors :
    let v := testRegs [(6, 4)] testVa
    let s := testServed (v.capture 0 0)
    let l := sectorElems 0x100000 (BitVec.allOnes 256) 0
    let g := grantPass false l s
    let w := laneElems 32 (heldLanes s .f32 4 1) 0
    WinReady v [] [1] ∧ Idle v ∧ s.Placed ∧ s.thr.progress.begun = true ∧ s.thr.progress.ask = .served ∧ Clean g ∧
    Clean (onePass (readL1 0 0) l g.1) ∧ (∀ e ∈ strideLanes v .f32 4 6 1, e.2.toNat % (ElemTy.f32.width / 8) = 0 ∧ e.2.toNat < 2 ^ 56) ∧
    (∀ e ∈ indexLanes v .f32 4 2 1, e.2.toNat % (ElemTy.f32.width / 8) = 0 ∧ e.2.toNat < 2 ^ 56) ∧ indexLanes v .f32 4 2 1 ≠ [] ∧
    (wordPass true (readWord 0 0) w s).2.done = true ∧ w.all (fun e => s.thr.progress.elems.contains e.id) = false ∧
    w.any (wordPass true (readWord 0 0) w s).1.pending = false := by
  and_intros <;> decide +kernel
/-- Atomics: operands of 4 bytes; an AMO that is performed when its request is answered; a thread with none of its reductions outstanding. -/
theorem met_Atomics : Served (testServed testVa) ∧ (testServed testVa).det = false ∧
    ((testServed testVa).atomic 0 0 0x100000 4 .die (fun m => atomicFn .add 4 m 7 0)).2.1 = .ok ∧ (5 : Nat) < 2 ^ (8 * 4) ∧ testVa.myReds.length < 8 := by
  and_intros <;> decide +kernel
/-- Launch 0 of tenancy 0, on die 0, with two tasks outstanding. -/
def testLaunch : Launch :=
  ⟨0, 0, 1, 0, 0, ⟨0x200000, 2, 1, 1, 1, 0x100000, 0, 0, 1, 0, 0, 0, 0, 0x100F00⟩, 0, some 0, 15, [(0, 2)], [], [], 0, false, 0, false, [], [], []⟩
/-- A core with memory on which launch 0 is active; t0 runs its first task, t1 its second. -/
def testTask : State :=
  (testVa.updHub (fun h => { h with launches := [testLaunch] })).updThrAt 0 1 (fun t =>
    { t with status := .parked .wake 0 0, task := some ⟨0, 0, []⟩, ctl := { t.ctl with waitlim := 100 } })
/-- A posted write in flight from t0 of core 0 to core 0. -/
def testItem (k : NetKind) : NetItem := ⟨3, 0, 0, 0, 0, 0, some 0, k, .flight⟩

theorem some_getD {α : Type} {x : Option α} {d : α} (h : x.isSome = true) : x = some (x.getD d) := by
  cases x
  · simp at h
  · rfl

/-- FencesAndWaits: a rectangle that R197 admits and one that it does not; nothing outstanding, a remote write outstanding, a drop notice; a
counter in LM, reached and not reached. -/
theorem met_FencesAndWaits : LmMay testTask false 0x2000 8 ∧ RectOk .rect 0x1F1F0000 none ∧ ¬ RectOk .rect 0x00200000 none ∧
    RectOk .pkg 0xFFFFFFFFFFFFFFFF none ∧ (∃ u, Released testTask .pkg 0 u ∧ u.core = 0) ∧
    (testTask.updCur (fun c => { c with out := [⟨1, 0, 0, 1⟩] })).myWrites (inExtent .die 0 0) ≠ [] ∧
    inExtent .die 0 0 (⟨0, 1, 3, 1⟩ : Drop).core = true ∧ testTask.cur.lmRead 0x2000 8 = 0 ∧
    (testTask.rd 0).toNat ≤ 0 ∧ 0 < (testTask.rd 5).toNat := by
  refine ⟨lmMay_of ?_, fun _ => ?_, fun h => ?_, fun h => by simp at h, ⟨_, ⟨?_, ?_, _, some_getD (d := testTask) ?_, rfl, ?_, ?_⟩, ?_⟩, ?_, ?_,
    ?_, ?_, ?_⟩
  case refine_2 => exact ⟨by decide, by decide, by decide, by decide, by decide, fun c h => by simp at h⟩
  case refine_3 => exact absurd (h rfl).2.2.2.1 (by decide)
  all_goals decide +kernel
/-- BarrierArrivals: t0 arrives at the barrier of its die, at a new instance and at one in use that still lacks arrivals; a list of contributions with
a NaN and both infinities among them. -/
theorem met_BarrierArrivals :
    let b : Barrier := ⟨0, 0, .die, 0, 0, .n64, []⟩
    let lacks := fun (y : Barrier) => y.same b && (y.arrivals.length < testTask.expected y || testTask.expected y = 0)
    let f := [0x7FC00000, 0x7F800000, 0xFF800000].map (unpackF .f32)
    testTask.tid ≠ 15 ∧ testTask.thr.progress = Progress.none ∧ RectOk .die 0 (some 0) ∧
    ((Instr.bar .die 0, 0, CombTy.n64, 0) : Instr × Nat × CombTy × Word) ∈ BarriersOf testTask .die .n64 1 2 0 ∧
    findPos lacks [b] = some 0 ∧ findPos lacks ([] : List Barrier) = none ∧ (([] : List Barrier).filter (fun y => y.network == b.network)).length <
    networkSize b.network ∧ f.any Num.isNan = true ∧ Num.inf true ∈ f ∧ Num.inf false ∈ f := by
  refine ⟨?_, ?_, fun h => by simp at h, ?_, ?_⟩
  case refine_3 => simp [BarriersOf]
  all_goals decide +kernel
/-- BarrierGenerations: an instance that still waits and one at which everyone has arrived, with its one participant parked there; and a participant
that is spilled. -/
theorem met_BarrierGenerations :
    let b : Barrier := ⟨0, 0, .die, 0, 0, .n64, [⟨0, 0, 5, 0⟩]⟩
    let s := (testTask.updHub (fun h => { h with launches := [{ testLaunch with threads := 1, pkt := { testLaunch.pkt with n0 := 1 } }] })).updThr (fun t =>
      { t with status := .parked (.barrier 1) 0 0, progress := { t.progress with begun := true, id := 5, ending := some (.value 1 0) } })
    s.expected b = 1 ∧ testTask.expected b = 30 ∧ s.thr.progress.begun = true ∧ s.thr.progress.id = 5 ∧
    s.thr.progress.ending = some (.value 1 0) ∧ b.scope ≠ .pod ∧ s.hub.pool = [] ∧
    ((s.cur.spill 0).spills.map (fun x => (x.tid, x.thread.progress.begun, x.thread.progress.id))) = [(0, true, 5)] := by decide +kernel
/-- Landing: l0 to l15 free, held by another launch, and a register above them; Full and Empty, and emptied in this cycle. -/
theorem met_Landing :
    let s := testDo (.putl 3 4) testTask
    let e := testDo (.clrl 3) s
    LandOk testTask 3 ∧ LandOk testTask 31 ∧ LandOk s 3 ∧ (testTask.cur.land 3).full = false ∧ (testTask.cur.land 3).waiters = [] ∧
    (testTask.cur.land 3).fillAt ≤ testTask.cur.cyc.toNat ∧ (s.cur.land 3).full = true ∧ s.cur.landHolder = some 0 ∧
    (e.cur.land 3).full = false ∧ e.cur.cyc.toNat < (e.cur.land 3).fillAt ∧ testTask.curLaunch ≠ some 7 ∧ (15 : Landing).toNat < 16 := by
  have h0 : testTask.cur.landHolder = none := by decide +kernel
  have h1 : (testDo (.putl 3 4) testTask).cur.landHolder = some 0 := by decide +kernel
  have h2 : (testDo (.putl 3 4) testTask).curLaunch = some 0 := by decide +kernel
  refine ⟨⟨fun _ h e => ?_, ?_⟩, ⟨fun h => absurd h (by decide), ?_⟩, ⟨fun _ h e => ?_, ?_⟩, ?_⟩
  case refine_1 => rw [h0] at e; simp at e
  case refine_4 => rw [h1] at e; rw [h2]; exact e
  all_goals decide +kernel
/-- RemoteWriting: a target word that names core 1, one past the package, a misaligned address, a full set of outstanding writes, and RPUTMV with its
data taken. -/
theorem met_RemoteWriting : WinReady testTask [2] [] ∧ testTask.cur.out.length < 64 ∧ bits (0x10 : Word) 17 4 = 1 ∧ bits (0x10 : Word) 63 18 = 0 ∧
    bits (0x8000010 : Word) 35 18 = 512 ∧ bits (0x8000010 : Word) 63 36 = 0 ∧ vOk 2 = true ∧ 9215 < bits (0x24000 : Word) 17 4 ∧
    bits (0x23FF0 : Word) 17 4 = 9215 ∧ bits (0x40010 : Word) 35 18 % 8 ≠ 0 ∧
    64 ≤ (testTask.updCur (fun c => { c with out := List.replicate 64 ⟨1, 0, 0, 1⟩ })).cur.out.length ∧
    (testTask.capture (testTask.vget 2) 0).thr.progress.begun = true ∧ testTask.thr.progress.begun = false := by
  and_intros <;> decide +kernel
/-- Deliveries: an RPUT to an Empty and to a Full register, LM stores that the launch may do, a write of a launch with no task there; an
acknowledged and a dropped write; a register with a writer at the port; a write in its order and one that waits for an earlier one. -/
theorem met_Deliveries :
    let x := testItem (.rput 20 5)
    let s := { testTask with net := [x] }
    let d := ({ testTask with net := [{ x with id := 2 }, x] } : State).updDie 0 (fun d => { d with det := some 0 })
    x.phase = .flight ∧ s.net[0]? = some x ∧ s.inOrder x = true ∧ d.inOrder x = false ∧ testTask.hosts 0 (some 0) = true ∧
    testTask.hosts 0 (some 7) = false ∧ (testTask.cur.land 20).full = false ∧ testTask.cur.portWaiting < 16 ∧
    lmFail (testTask.cur.remoteOk testTask (some 0)) 0x2000 8 = none ∧ lmFail (testTask.cur.remoteOk testTask (some 0)) 0x2000 256 = none ∧
    ((testTask.updCur (fun c => c.updLand 20 (fun l => { l with waiters := [.remote 3 0 0 5] }))).cur.land 20).waiters = [.remote 3 0 0 5] ∧
    ({ x with phase := .acked } : NetItem).phase = .acked := by decide +kernel
/-- Messages: an empty queue and one with a message for t0, both kinds of operation, a selector that R257 admits; a deliverable message, one at the
port for less and for more than 4,096 cycles. -/
theorem met_Messages :
    let m : Message := ⟨1, 0x55, 0xFFFFFFFF, 0, 0⟩
    let s := testTask.updCur (fun c => { c with msgq := [m] })
    let x : NetItem := { testItem (.message m) with phase := .waiting 0 }
    let p : State := { testTask with net := [x] }
    testTask.det = false ∧ (testTask.updCtl (fun c => { c with det := 1 })).det = true ∧ s.queuedFor none = [m] ∧ testTask.queuedFor none = [] ∧
    bits (testTask.rd 4) 63 26 = 0 ∧ bits (0x8000000000000000 : Word) 63 26 ≠ 0 ∧ testTask.messageTest 0 0 0xFFFFFFFF (some 0) = none ∧
    testTask.msgWaiting 0 = [] ∧ s.cur.msgq.length < 64 ∧ testTask.inOrder (testItem (.message m)) = true ∧ (p.msgWaiting 0).head? = some x ∧
    p.cur.cyc.toNat < 0 + 4096 ∧ 0 + 4096 ≤ (p.updCur (fun c => { c with cyc := 4096 })).cur.cyc.toNat ∧ getKey p.hub.overflowAreas x.tn = none := by
  decide +kernel
/-- UserEvents: a pending event, none, a thread inside a handler with a legal and with an illegal `evpc`. -/
theorem met_UserEvents :
    let m : Message := ⟨0x40000000001, 0, 0xFFFFFFFF, 0, 0⟩
    let s := (testTask.updCur (fun c => { c with msgq := [m] })).updCtl (fun c => { c with evmask := 0x8000000000000002, evvec := 0x600 })
    (s.cur.pendingEvent 0).isSome = true ∧ testTask.cur.pendingEvent 0 = none ∧ s.thr.status = .ready ∧ s.thr.readyAt ≤ s.cur.cyc.toNat ∧
    (s.updCtl (fun c => { c with evcause := 0x8000000000000000 })).thr.ctl.evcause.getLsbD 63 = true ∧
    s.thr.ctl.evcause.getLsbD 63 = false := by decide +kernel
/-- WaitsAndWakes: a governed wait that has lasted longer than `waitlim` cycles and one that has not; a WAKE of t1, which runs a task of the launch. -/
theorem met_WaitsAndWakes :
    let s := testTask.updCur (fun c => { c with cyc := 101 })
    (s.cur.thr 1).status = .parked .wake 0 0 ∧ (s.cur.thr 1).resume = false ∧ (s.cur.thr 1).ctl.waitlim = 100 ∧ Park.wake.limited = true ∧
    0 + 100 < s.cur.cyc.toNat ∧ testTask.cur.cyc.toNat ≤ 0 + 100 ∧ bits (1 : Word) 3 0 = 1 ∧ bits (1 : Word) 17 4 = 0 ∧ s.curLaunch = some 0 ∧
    ((s.cur.thr 1).task.map (·.lnum)) = some 0 := by decide +kernel

/-- The record of launch 0 with the tasks from 2 to 5. -/
def testRec : TaskRec := ⟨0, 0, 2, 6, 0, 0⟩
/-- Launch 0 with that record on core 0 and a record in LM at 0x2000; g6 names it. -/
def testDeque : State :=
  testRegs [(6, 0x2000)] (testTask.updCur (fun c => { c.lmPut 0x2000 (bytesOfNat 8 0x200000000 ++ bytesOfNat 8 6) with deque := [testRec] }))
/-- Deques: a record of the launch and none, a full deque, a record in LM, a victim on the die and inside the rectangle, an answered steal. -/
theorem met_Deques : LmMay testDeque false 0x2000 32 ∧ LmMay testDeque true 0x2000 32 ∧ testDeque.Placed ∧ testDeque.det = false ∧ testDeque.curLaunch = some 0 ∧ testDeque.launchAt 0 = some testLaunch ∧
    testDeque.rd 6 = 0x2000 ∧ LmField testDeque 0x2004 4 = 2 ∧ LmField testDeque 0x2008 4 = 6 ∧ LmField testDeque 0x200C 4 = 0 ∧ testDeque.cur.deque = [] ++ testRec :: [] ∧ 2 ≤ testRec.hi - testRec.lo ∧
    ({ testRec with hi := 3 } : TaskRec).hi - testRec.lo < 2 ∧ 64 ≤ (List.replicate 64 testRec).length ∧ bits (0x10 : Word) 17 4 = 1 ∧ dieOf 1 = dieOf 0 ∧
    testLaunch.pkt.flags.testBit 3 = false ∧ testDeque.cur.out.length < 64 ∧ (testDeque.coreAt 1).deque = [] ∧ Idle testDeque ∧
    (testServed testDeque).thr.progress.ask = .served ∧
    (((testServed testDeque).updCore 1 (fun c => { c with deque := [testRec] })).coreAt 1).deque = [] ++ testRec :: [] := by
  refine ⟨lmMay_of ?_, lmMay_of ?_, ?_⟩
  all_goals and_intros <;> decide +kernel
/-- Queue 3 of tenancy 0, open and mapped. -/
def testQueue : Queue := ⟨3, 0, 15, 0, 0, 16, 0, 0, true, .mapped, 0, [], [], 0, 0⟩
/-- TaskInstructions: a thread with a task and one without, drained; a deterministic one with a task to follow; an open queue, a closed one and
one of another tenancy, and a packet in LM. -/
theorem met_TaskInstructions :
    let v := testDeque.updCtl (fun c => { c with trapcause := c.trapcause &&& 0x7FFFFFFFFFFFFFFF })
    LmMay testDeque false 0x2000 64 ∧ Drained testDeque ∧ Idle testDeque ∧ testDeque.thr.task = some ⟨0, 0, []⟩ ∧ v.fireRelease.jam = false ∧ v.fireRelease.pushing = false ∧ v.fireRelease.thr = v.thr ∧
    v.fireRelease.tid = testDeque.tid ∧ v.fireRelease.launchAt 0 = some testLaunch ∧
    (testDeque.updThr (fun t => { t with task := none })).thr.task = none ∧ testDeque.tid < 15 ∧ testDeque.thr.ctl.det ≠ 1 ∧
    (testDeque.updThr (fun t => { t with task := some ⟨0, 0, [1]⟩ })).thr.task = some ⟨0, 0, [1]⟩ ∧
    (testDeque.updHub (fun h => { h with queues := [testQueue] })).hub.queue 3 = testQueue ∧ (testDeque.hub.queue 3).opened = false ∧
    testQueue.fifo.length + testQueue.ring.length < testQueue.entries ∧
    (testDeque.release 0 false).isSome = true ∧
    ((testDeque.release 0 false).getD testDeque).cur = testDeque.cur := by
  refine ⟨lmMay_of ?_, ?_⟩
  all_goals and_intros <;> decide +kernel
/-- Core 0 with the image of tag 0 resident in slot 0, and a record to place. -/
def testPlace : State := testDeque.updCur (fun c => { c with slots := [⟨0, 2, 0x400, 0x200, 0, 0, false, false, 15, 0x40, 0, 0⟩] })
/-- CoreTasks: a task to place on a Free thread, a thief and a victim. -/
theorem met_CoreTasks_threads :
    let s := testDeque.updCore 1 (fun c => { c with held := [0] })
    bestLaunch (testPlace.placeable 0) = some (testLaunch, 0) ∧ testPlace.cur.freeThread = some 2 ∧
    testLaunch.pkt.isDet = false ∧ testPlace.cur.ownRec 0 = some testRec ∧ testBase.placeable 0 = [] ∧
    s.maySteal 1 testLaunch = true ∧ (s.coreAt 0).deque = [] ++ testRec :: [] ∧ testRec.lo < testRec.hi := by decide +kernel
/-- CoreTasks: a core whose fifteen task threads are taken, t1 parked; the context of a thread that is spilled and ready. -/
theorem met_CoreTasks_spills :
    let p := fun (i : Nat) (t : Thread) => if i = 1 then { t with ctl := { t.ctl with lend := 1 } } else { t with status := .ready }
    let c := { testPlace.cur with cyc := 1024, threads := vecMap p testPlace.cur.threads }
    let s := testPlace.setCore 0 c
    c.spillCandidate 1 = true ∧ c.spillCandidate 2 = false ∧ (c.thr 14).status ≠ .free ∧ (s.setCore 0 (c.spill 1)).placeable 0 ≠ [] ∧
    s.closedTo 0 0 = false ∧
    (((c.spill 1).spills.map (fun x => { x with ready := true })).find? (fun z => z.valid && z.ready && z.tid == 1)).isSome = true := by
  decide +kernel
/-- CoreTasks: a marked launch that must yield, a load with a victim whose users count is 0, a load with its slot chosen, a kernel object with a bad
header and one with a good one. -/
theorem met_CoreTasks_images :
    let low := { testLaunch with lnum := 1, prio := 0 }
    let slot : Slot := ⟨0, 2, 0x400, 0x200, 0, 0, false, false, 15, 0x40, 0, 0⟩
    let busy := { testPlace.cur with threads := vecMap (fun _ (t : Thread) => { t with status := .ready, task := some ⟨1, 0, []⟩ }) testPlace.cur.threads }
    ((testPlace.setCore 0 busy).updHub (fun h => { h with launches := [{ testLaunch with prio := 3 }, low] })).mustYield 0 low = true ∧
    let s := testPlace.updCur (fun c => { c with loading := some ⟨0, slot, [], [1], none⟩ })
    s.slotUsers 0 1 = 0 ∧ s.slotUsers 0 0 ≠ 0 ∧ (testDeque.hubBytes 0 0 0x200000 64).2.1 = .ok ∧
    parseHeader (testDeque.hubBytes 0 0 0x200000 64).2.2 = none ∧ testDeque.cur.slotOf 0 = none ∧ testDeque.cur.loading = none ∧
    testRec ∈ testDeque.cur.deque ∧ testDeque.cur.slotOfRec testLaunch testRec = none ∧ testDeque.reservedFrom 0 testLaunch = false ∧
    { testDeque.hub with poolPa := 0x800000, poolSize := 1 }.freeRecord.isSome = true ∧ slot.code ≤ (List.replicate 0x200 (0 : Byte)).length := by
  decide +kernel
/-- QueuesAndLaunches: a packet that an open queue takes and one that it does not, queues in each state, a launch to distribute and one to retire. -/
theorem met_QueuesAndLaunches :
    let h := { testDeque.hub with queues := [testQueue] }
    let p : Pending := ⟨testLaunch.pkt, 1, 0⟩
    let q := { testQueue with fifo := [p] }
    let s := testDeque.updHub (fun h => { h with queues := [q], launches := [] })
    let l := { testLaunch with todo := [(0, 0)] }
    let full := (testDeque.coreAt 575).deque ++ List.replicate 64 testRec
    s.hub.heads = [(q, p)] ∧ s.eligible (q, p) = true ∧ p.pkt.dieList = [0] ∧ testDeque.hub.sealed = false ∧ (List.replicate 64 (0 : Byte)).length = 64 ∧
    h.queue 3 = testQueue ∧ (h.queue 4).opened = false ∧ testQueue.state = .mapped ∧ ({ testQueue with state := .mapping } : Queue).state = .mapping ∧
    (testDeque.updHub (fun h => { h with launches := [l] })).launchAt 0 = some l ∧ getKey l.todo 0 = some 0 ∧ l.pkt.seeds 0 = [(575, 0, 1), (1151, 1, 2)] ∧
    (∀ e ∈ testLaunch.pkt.seeds 0, (testDeque.coreAt e.1).deque.length < 64 ∧ testDeque.firstRecord e.1 = none) ∧ 64 ≤ full.length ∧
    testDeque.copiesFor 0 = false ∧ (releaseDies testDeque [0]).isSome = true ∧ (testDeque.complete_ 0 0 0x100F00 1).2 = none ∧
    (∃ e ∈ testLaunch.counts, e.2 ≠ 0) ∧ (∀ e ∈ [((0 : Nat), (0 : Nat))], e.2 = 0) := by decide +kernel

/-- MatrixInstructions: operands that pass the checks and some that do not; an empty and a full queue; a bank that a command names and one that none
does; a launch with a rectangle of equal sides. -/
theorem met_MatrixInstructions : (¬ ShapeOk testDeque .bf16 .k64 (1 <<< 48) 0 0) ∧ ShapeOk testDeque .bf16 .k64 0 0x100000 0x200000 ∧
    testDeque.thr.progress = Progress.none ∧ testDeque.cur.mq.length < 2 ∧ (0x10 : Word).toNat % 16 = 0 ∧ (8 : Word).toNat % 16 ≠ 0 ∧
    KOf .k32 / 32 ≤ bits (testDeque.updCtl (fun c => { c with mrp := 1 })).thr.ctl.mrp 2 0 ∧ bits (3 : Word) 63 4 = 0 ∧ bits (16 : Word) 63 4 ≠ 0 ∧
    (∀ m ∈ testDeque.cur.mq, (3 : Word).toNat.testBit m.bank = false) ∧
    (∀ e ∈ mmalRanges .i8 .k32 0 0x2000 0x2800 0, testDeque.cur.lmCheck testDeque.tid false e.1 e.2 = none) ∧
    rectSide 0x01010000 = 0x01010000 / 2 ^ 24 % 256 + 1 - 0x01010000 / 2 ^ 8 % 256 ∧ (8 : Nat).testBit 3 = true := by
  refine ⟨fun h => ?_, ⟨?_, ?_, ?_, ?_, ?_, fun h => absurd h (by decide), ?_, fun h => by simp at h⟩, ?_⟩
  · have := h.2.2.2.2.2.1 (by decide)
    simp at this
  all_goals decide +kernel
/-- AccumulatorMoves: row pairs up to 15, a window to write and one to read, an ACCSTG that begins, one that waits for a reduction, and one of which all
rows but the last are stored. -/
theorem met_AccumulatorMoves :
    let l := accRowElems 0x100000 64 31 (List.replicate 2048 0)
    let s := testServed (testDeque.updProgress (fun p => { p with begun := true, image := List.replicate 2048 0 }))
    let r : Red := ⟨0, 0, testDeque.thr.placedAt, 0, some 0, .add, false, .die, 0x100000, 4, none, none, false, none, false⟩
    (Instr.accst .bf16 1 4 5).wf = true ∧ (Instr.accld .f32 0 16 6).wf = true ∧ (Instr.accstg .f16 3 5 6).wf = true ∧
    (testDeque.rd 5).toNat ≤ 15 ∧ ¬ (testDeque.rd 4).toNat ≤ 15 ∧ WinReady testDeque [] [4] ∧ WinReady testWin [16] [] ∧ testDeque.myReds = [] ∧
    (testDeque.rd 4).toNat % 16 = 0 ∧ (testDeque.rd 0).toNat % 16 = 0 ∧ testDeque.thr.progress = Progress.none ∧
    ({ testDeque with reds := [r] } : State).myReds = [r] ∧ r.note = none ∧ s.thr.progress.begun = true ∧ s.thr.progress.ask = .served ∧
    Clean (grantPass true l s) ∧ Clean (onePass (writeL1 0 0) l (grantPass true l s).1) ∧
    l.all (fun e => s.thr.progress.elems.contains e.id) = false := by
  and_intros <;> decide +kernel
/-- A matrix command of t0 with K = 32 on operands in global memory. -/
def testMat : MatCmd := ⟨0, 0, 0, some 0, .i8, .k32, 1, 0x100000, 0x102000, 0, 0, 0, [], 0, 0, .running, [], [], []⟩
/-- A core whose matrix engine holds commands, t0 waiting for the first. -/
def testMatrix (l : List MatCmd) : State :=
  (testDeque.updCur (fun c => { c with mq := l })).updThr (fun t => { t with status := .parked (.matrix 0) 0 0 })
/-- MatrixEngine: a k-block whose operands are there, one whose operands are not mapped, a command that is done; an MMR that an abort token reaches. -/
theorem met_MatrixEngine :
    let far := { testMat with a := 0x2000000000 }
    let token : MmrItem := ⟨0, 0, 0, .token 1⟩
    let s := (testMatrix []).setCore 1 { (testMatrix []).cur with mmrEast := [token] }
    HeadOf (testMatrix [testMat]) 0 testMat [] ∧ testMat.form ≠ 2 ∧ testMat.next < KOf testMat.kl / 32 ∧
    ((testMatrix [testMat]).coreAt 0).badMatrix = false ∧ (readOperands 0 testMat (testMat.ranges 0) (testMatrix [testMat])).2.1 = none ∧
    ((readOperands 0 far (far.ranges 0) (testMatrix [testMat])).2.1.map (·.ans)) = some (.page 1 1 0) ∧
    KOf .k32 / 32 ≤ ({ testMat with next := 1 } : MatCmd).next ∧
    (s.cores.find? (fun e => e.2.mmrEast.head?.any (fun i => i.dst == 0))).map (·.1) = some 1 ∧ s.mmrStale token = false ∧
    s.mmrLive (s.coreAt 0).mmrWest = [] ∧ s.mmrLive [token] = [token] ∧ s.matTotal { testMat with form := 2, kl := .k64 } = 2 ∧
    token.n = (s.coreAt 0).mmrOrdinal token.lnum := by
  refine ⟨⟨?_, ?_, 0, 0, ?_⟩, ?_⟩ <;> decide +kernel
/-- t15 of a core whose copy engine holds commands. -/
def testCopy (l : List CopyCmd) : State :=
  testRegs [(4, 0x100000), (5, 0x2000), (6, 64)] (({ testDeque with tid := 15 } : State).updCur (fun c => { c with cq := l }))
/-- A fill of 16 bytes for t0. -/
def testFill : CopyCmd := ⟨1, 4, 0x100000, 0, 16, 7, 0, 0, 0, 1, [], some (0, 0), false, [], .status 0 0 false, 0, 0, [], 0, 0, none, none, none⟩
/-- The same in its run, with an element of output for LM address `a`. -/
def testStripe (a : Nat) : CopyCmd := { testFill with fn := 0, w1 := word a, w3 := 0, started := true, out := [⟨.lm a, 0x55, 0xFF, 0, 0, [], 0⟩] }
/-- CopyInstructions: t15 with a short and with a full queue, a selector that hits and one that is reserved; another thread. -/
theorem met_CopyInstructions : (testCopy []).tid = 15 ∧ testDeque.tid ≠ 15 ∧ (testCopy []).thr.pc ≠ 0x3FFFC ∧ (testCopy []).cur.cq.length < 4 ∧
    4 ≤ (testCopy (List.replicate 4 testFill)).cur.cq.length ∧ ((testCopy []).dieAt 0).claims.length < 32 ∧ (testCopy []).det = false ∧
    ((testCopy []).updDie 0 (fun d => { d with det := some 0 })).det = true ∧ (testStripe 0).started = true ∧ (testStripe 0).out ≠ [] ∧
    bits (0x1000 : Word) 63 13 = 0 ∧ (0x1000 : Word).getLsbD 12 = true ∧ bits (0x2000 : Word) 63 13 ≠ 0 ∧ (4 : Reg).toNat % 4 = 0 := by decide +kernel
/-- CopyEngine: a fill and a store that start, one with a reserved target, a stripe into LM and one that R137 forbids, a fault. -/
theorem met_CopyRuns :
    let s := testCopy [testFill]
    let x := { testFill with fn := 1, w1 := 0x2000, w3 := 0 }
    CopyHead s 0 testFill [] ∧ testFill.bad = false ∧ bits testFill.w0 63 56 = 0 ∧ testFill.out = [] ∧ testFill.pos = 0 ∧
    bits ({ testFill with target := 0x10000 } : CopyCmd).target 63 16 ≠ 0 ∧ x.bad = false ∧ bits x.w2 63 32 ≤ 1 ∧ 1 ≤ bits x.w2 31 0 ∧
    s.cur.lmCheck 15 false 0x2000 16 = none ∧ s.cur.lmBad 0x2000 16 = none ∧ testFill.owner = some (0, 0) ∧ s.noFaultQueue 0 = false ∧
    testFill.held = none ∧ s.cur.badCopy = false ∧ (testStripe 0x2000).entryBad s.cur ⟨.lm 0x2000, 0x55, 0xFF, 0, 0, [], 0⟩ = false ∧
    (testStripe 0).entryBad s.cur ⟨.lm 0, 0x55, 0xFF, 0, 0, [], 0⟩ = true := by
  refine ⟨by unfold CopyHead; decide +kernel, ?_⟩
  and_intros <;> decide +kernel
/-- CopyEngine: a command that has ended, with and without a claim, and one with output left. -/
theorem met_CopyEnds :
    let x := { testFill with started := true }
    let y := { x with out := [⟨.glob 0x100140, 0, 0xFF, 0, 0, [], 256⟩] }
    let v := (testCopy [x]).releaseRange 0 x
    let s := (testCopy [y]).updDie 0 (fun d => { d with claims := [⟨0, 1, 0, 0x100000, 0x100200, 0x100000⟩] })
    v.isSome = true ∧ ((v.getD testBase).coreAt 0).cq = [x] ∧ x.out = [] ∧ x.fn ≠ 2 ∧ y.leastLeft = some 0x100140 ∧ (testCopy [y]).cur.cq = [y] ∧
    (∀ c ∈ ((testCopy [y]).dieAt (dieOf 0)).claims, (c.core == 0 && c.cmd == y.id && c.upto < 0x100140 / 256 * 256) = false) ∧
    (∃ c ∈ (s.dieAt (dieOf 0)).claims, (c.core == 0 && c.cmd == y.id && c.upto < 0x100140 / 256 * 256) = true) := by
  decide +kernel
/-- CopyEngine: a put into a window that admits it and into one that does not, a put in the fabric; a stopped copy thread, and a program whose launch has
left the core. -/
theorem met_PutsAndRestart :
    let w : WinRec := { testBase.hub.window 3 with state := 1, tenancy := 0, base := 0x100000, len := 256, core := 0, ctr := 0x2000 }
    let s := { testDeque with puts := [(0, 1)] }
    let x := { testFill with fn := 2, w0 := 0x40000000000000, w1 := 0x2000 <<< 18, started := true, put := 1 }
    let t := (testCopy []).updThr (fun t => { t with status := .stopped .hub })
    (testBase.hub.window 3).state ≠ 1 ∧ (testDeque.updHub (fun h => { h with winTab := [(3, w)] })).hub.window 3 = w ∧ w.state = 1 ∧ w.ctr % 8 = 0 ∧
    (∃ e ∈ [(256, (0xFF : Byte), (0 : Byte))], w.len ≤ e.1) ∧ (testDeque.updHub (fun h => { h with allDown := none })).hub.allDown = none ∧ testBase.hub.allDown ≠ none ∧
    (putBytes 0 w.base [(8, 0xFF, 0x55)] testDeque).2 = none ∧
    ((putBytes 0 w.base [(8, 0xFF, 0x55)] testDeque).1.coreAt 0).lm = (testDeque.coreAt 0).lm ∧ s.puts[0]? = some (0, x.id) ∧
    bits x.w0 63 54 ≠ testBase.hub.pkg ∧ testDeque.cur.lmCheck 15 true x.scnt 8 = none ∧ (t.cur.thr 15).status = .stopped .hub ∧
    (t.cur.land 21).full = false ∧ (t.cur.land 29).full = false ∧ (testBase.cur.thr 15).status ≠ .stopped .hub ∧ testBase.cur.copyProg = none ∧
    testTask.remains 0 0 = true ∧ (testBase.updCur (fun c => { c with copyProg := some 7 })).remains 0 7 = false := by
  decide +kernel

/-- Region 3 of tenancy 0: one versioned page of two slots at 2^37, whose versions 0 and 1 are open to reading. -/
def testVrec : VRegion := ⟨2 ^ 37, 2 ^ 19, 0x300000, 2, true, 0, 0, 1, 0, [0, 1, 0, 0], 0, false⟩
def testVer : State :=
  let put := fun (m : List Host.Cell) (a x : Nat) => memWrite (dramDefault testDeque.dramEpoch) m a (bytesOfNat 8 x)
  let s := testDeque.updHub (fun h => { h with vregions := [((0, 3), testVrec)] })
  testRegs [(4, 0x2000000000), (7, 1)] { s with dram := put (put (put s.dram 0x4008 0x5001) 0x5000 0x6001) 0x6000 0x10000000020007B }
/-- An access that waits for its answer has had it. -/
def testAnswer (aux : VReg) (s : State) : State := s.updProgress (fun p => { p with begun := true, aux := aux, ask := .served })
/-- A newest read that noted version 0 of its region has had its answer, at another time than it asked. -/
def testNewest (s : State) : State := s.updProgress (fun p => { p with ask := .served, askAt := 3, since := some 0, waited := some (.reply, 0, 0) })
/-- Versions: a region that covers the address, its oldest version sealed and its newest open, a version to open and one that may not; what is
asked, released and answered. -/
theorem met_Versions : Idle testVer ∧ Served (testNewest testVer) ∧ Served (testServed testVer) ∧
    testVer.hub.vfind 0 0x2000000000 = some ((0, 3), testVrec) ∧ Vrec testVer (0, 3) = some testVrec ∧
    testVrec.stateOf 0 = .sealed ∧ testVrec.stateOf 1 = .open 1 ∧ testVrec.stateOf 2 = .absent ∧ testVrec.stateOf 7 = .absent ∧
    ({ testVrec with oldest := 1, sealed := 1 } : VRegion).stateOf 0 = .reclaimed ∧ 2 = testVrec.opened + 1 ∧
    (2 < testVrec.oldest + testVrec.k ∨ testVrec.oldest + testVrec.k ≤ 2) ∧ testVer.cur.pushTable = [] ∧ (testVer.release 0 false).isSome = true ∧
    ((testVer.release 0 false).getD testVer).cores = testVer.cores ∧ ((testVer.release 0 false).getD testVer).pushing = false ∧
    (testVer.vline 0 0 0x2000000000 [0] 0 testVrec).2.1 = .ok ∧ ((testServed testVer).versionWrite 0 0 0x2000000000 8 1 .write 1 (fun _ => 5)).2 = .ok ∧
    testVer.hub.vfind 0 0x100000 = none ∧ testVer.det = false := by
  unfold Served JustAnswered; and_intros <;> decide +kernel
/-- Versions: a REDVN that a VNSEAL waits for; contributions that leave their version Open(0), and one that seals two versions; a reclaim that may not
begin; a newest read before and after its answer, of one version and of a choice of two. -/
theorem met_VersionStates :
    let red : Red := ⟨0, 0, testVer.thr.placedAt, 0, none, .add, true, .pkg, 0x2000000000, 5, some (.i64, 1), none, false, none, false⟩
    let s : State := { testVer with reds := [red] }
    let r : VRegion := { testVrec with k := 4, opened := 2, due := [0, 1, 1, 0] }
    let w : VRegion := { testVrec with k := 4, opened := 3, due := [0, 1, 0, 2] }
    let two : VRegion := { testVrec with k := 4, opened := 3, sealed := 1, due := [0, 0, 0, 0] }
    let n := testNewest testVer
    (s.myReds.all (fun e => e.note.isNone) = true ∧ s.myReds.any (fun e => e.ver.isSome) = true ∧ s.thr.progress = Progress.none) ∧
    (r.stateOf 2 = .open 1 ∧ r.sealed + 1 < 2 ∧ r.stateOf (r.sealed + 1) = .open 1 ∧ (r.sealed + 1) % max 1 r.k ≠ 2 % max 1 r.k) ∧
    (w.stateOf 1 = .open 1 ∧ SealsAt { w with due := setAt w.due 1 0 } 1 ∧ SealsAt { w with due := setAt w.due 1 0 } 2 ∧
      ¬SealsAt { w with due := setAt w.due 1 0 } 3) ∧
    (testVrec.stateOf 1 ≠ .sealed ∧ ({ testVrec with reclaiming := true } : VRegion).reclaiming = true) ∧
    ((testRegs [(4, 0x2000000000), (7, 0xFFFFFFFF)] testVer).rd 7 = 0xFFFFFFFF ∧ Vrec testVer (0, 3) = some testVrec ∧ n.thr.progress.since = some 0 ∧
      elem 32 (0 : VReg) 3 ≤ two.sealed ∧ two.lowest ≤ two.sealed ∧ (n.pickVersion (0, 3) testVrec 0xFFFFFFFF).2 = 0 ∧
      (n.vline 0 0 0x2000000000 [0] 0 testVrec).2.1 = .ok ∧
      testVer.det = false ∧ (testVer.updCtl (fun c => { c with det := 1 })).det = true) := by
  unfold SealsAt; and_intros <;> decide +kernel
/-- A page of a region is reclaimed without a hold where its leaf translates, all memory is ready and none is damaged. -/
theorem reclaimPage_ok {key : Nat × Nat} {v : Nat} {s s' : State} {e : Elem} {pa kidx : Nat} {r : VRegion}
    (hr : (s.hub.vregions.find? (fun x => x.1 = key)).map (·.2) = some r)
    (ht : s.vtranslate (dieOf s.core) s.tn e.va .write r.k = (s', .ok pa kidx)) (h0 : s'.hub.ready0 = BitVec.allOnes 64)
    (h1 : s'.hub.ready1 = BitVec.allOnes 64) (hb : s'.badDram = []) : ∃ t, reclaimPage key v s e = (t, .ok, 0) ∧ t.cores = s'.cores ∧ t.core = s'.core ∧ t.tid = s'.tid := by
  unfold reclaimPage
  have hf : ∀ r j pa n, s'.forwardBad r j pa n = false := fun r j pa n => by
    simp [State.forwardBad, State.lineBad, State.sectorBad, hb]
  have ha : ∀ l : List (Nat × Nat), l.takeWhile (fun _ => true) = l := fun l => by
    induction l with
    | nil => rfl
    | cons a l ih => simp [ih]
  simp only [hr, ht, memReady_all h0 h1, hf, ha, List.drop_length, Bool.not_true, Bool.not_false, Bool.or_self, List.any_eq_true, Bool.false_eq_true,
    and_false, exists_false, if_false]
  exact ⟨_, rfl, copyForward_fold key r kidx (v + 1) _ s'⟩
/-- One element that is performed. -/
theorem onePass_one {perform : Perform} {e : Elem} {s t : State} (hp : s.pending e = true) (h : perform s e = (t, .ok, 0)) :
    onePass perform [e] s = (t.updProgress (fun p => { p with elems := e.id :: p.elems, data := p.data ||| placeAt e.off e.n 0 }), ⟨[], false, true⟩) := by
  simp [onePass, tryElem, hp, h]
theorem reclaim_clean {key : Nat × Nat} {v : Nat} {s : State} {e : Elem} {pa kidx : Nat} {r : VRegion} (hp : s.pending e = true)
    (hr : (s.hub.vregions.find? (fun x => x.1 = key)).map (·.2) = some r) :
    ∀ q, s.vtranslate (dieOf s.core) s.tn e.va .write r.k = q →
    q.2 = .ok pa kidx → q.1.hub.ready0 = BitVec.allOnes 64 → q.1.hub.ready1 = BitVec.allOnes 64 → q.1.badDram = [] → q.1.Placed → q.1.thr.progress.held = [] →
    q.1.thr.progress.kept = [] → Clean (onePass (reclaimPage key v) [e] s) ∧ (onePass (reclaimPage key v) [e] s).1.Placed := by
  rintro ⟨s', a⟩ ht hq h0 h1 hb hs hh hk
  simp only at hq h0 h1 hb hs hh hk
  rw [hq] at ht
  obtain ⟨t, hq, c, k, i⟩ := reclaimPage_ok (v := v) hr ht h0 h1 hb
  have ht : t.thr = s'.thr := by simp only [State.thr, State.cur, State.coreAt, c, k, i]
  have hl : t.tid < 16 := by rw [i]; exact hs
  rw [onePass_one hp hq]
  have hu : (t.updProgress (fun p => { p with elems := e.id :: p.elems, data := p.data ||| placeAt e.off e.n 0 })).thr =
      { s'.thr with progress := { s'.thr.progress with elems := e.id :: s'.thr.progress.elems, data := s'.thr.progress.data ||| placeAt e.off e.n 0 } } := by
    unfold State.updProgress
    rw [thr_updThr _ _ hl, ht]
  refine ⟨⟨rfl, rfl, ?_, ?_⟩, hl⟩ <;> rw [hu]
  · exact hh
  · exact hk
/-- Versions: a region with two sealed versions, whose oldest is reclaimed: its page of 2,048 lines passes without a hold. -/
theorem met_VersionReclaim :
    let r : VRegion := { testVrec with sealed := 1 }
    let s := testServed (testVer.updVRegion (0, 3) (fun _ => r))
    let p := onePass (reclaimPage (0, 3) 0) ((List.range (r.len / 2 ^ 19)).map (fun i => ⟨i, r.base + i * 2 ^ 19, 0, 0, 0, 0⟩))
      (((s.updVRegion (0, 3) (fun r => { r with reclaiming := true })).wakeVersions (0, 3)).capture 0 0)
    (r.reclaiming = false ∧ r.stateOf 1 = .sealed ∧ Vrec s (0, 3) = some r ∧ s.hub.vfind 0 0x2000000000 = some ((0, 3), r)) ∧ Clean p ∧ p.1.Placed := by
  intro r s p
  have hl : (List.range (r.len / 2 ^ 19)).map (fun i => (⟨i, r.base + i * 2 ^ 19, 0, 0, 0, 0⟩ : Elem)) = [⟨0, 2 ^ 37, 0, 0, 0, 0⟩] := by decide +kernel
  refine ⟨by decide +kernel, ?_⟩
  show Clean (onePass _ _ _) ∧ (onePass _ _ _).1.Placed
  rw [hl]
  refine reclaim_clean (r := { r with reclaiming := true }) (pa := 0x200000) (kidx := 0) ?_ ?_ _ rfl ?_ ?_ ?_ ?_ ?_ ?_ ?_
  all_goals decide +kernel
/-- Versions: posted reductions that are performed, stopped and held, and one that waits behind a load of its line; an address whose home is
elsewhere. -/
theorem met_VersionRows :
    let e : Red := ⟨0, 0, testTask.thr.placedAt, 0, some 0, .add, false, .die, 0x100000, 4, none, none, false, none, false⟩
    let held := testTask.updHub (fun h => { h with shoot := some ⟨0, 1, 1, 0, 0x200000⟩ })
    let s := fun (t : State) => ({ t with reds := [e] } : State)
    let load := testTask.updThrAt 0 1 (fun t => { t with status := .parked .reply 0 0, progress := { t.progress with
      ask := .sent, asks := [(0x100000, .shared)] } })
    let busy := load.updDie 0 (fun d => d.updSlice (sliceOfLine 0x1000 0) (fun y => { y with misses := [⟨0, 0x1000, [⟨0, 1, 0x100000, .shared⟩]⟩] }))
    (s testTask).reds[0]? = some e ∧ (s testTask).atomicDie 0 0 0x100000 .die = some 0 ∧ (s testTask).missLive 0 0 0x1000 = false ∧
    ((s testTask).redTurn 0 e).2 = true ∧ (s busy).missLive 0 0 0x1000 = true ∧ ((s busy).redTurn 0 e).2 = false ∧ (s busy).redDead e = false ∧
    (testTask.atomic 0 0 0x100000 8 .die (fun m => atomicFn .add 8 m 4 0)).2.1 = .ok ∧
    (testTask.atomic 0 0 0x2000000000 8 .die (fun m => atomicFn .add 8 m 4 0)).2.1 = .page 1 1 0 ∧ testTask.redDead e = false ∧
    testTask.redDead { e with lnum := some 7 } = true ∧ (held.atomic 0 0 0x100000 8 .die (fun m => atomicFn .add 8 m 4 0)).2.1 = .hold .other ∧
    testTask.farHome 0 0x100000 (2 ^ 43) = false := by decide +kernel
/-- A handle for two tines of two entries each in that region. -/
def testHandle : Antler := ⟨0x100000, 2, 0x3F800000, 4, 1, [⟨0x2000000000, 2, 1, 1, 1, 0⟩, ⟨0x2000000100, 2, 1, 1, 1, 0⟩], 3⟩
def testAntler : State := testVer.updThr (fun t => { t with handles := t.handles.setIfInBounds 0 (some testHandle) })
/-- Antlers: a bound handle and an unbound one, an index inside and one outside, the lines of a row in a sealed version, before and after the answer; a
header that is refused. -/
theorem met_Antlers :
    let lines : List Elem := testHandle.lineElems 1 0
    let p := onePass (readLineInto 0) lines (testAnswer 0 testAntler)
    let q := onePass (readHigh 0 0) (bytePieces 0x100000 64 0 0) (testServed testVer)
    Idle testAntler ∧ testAntler.handle 0 = some testHandle ∧ testAntler.handle 1 = none ∧ 3 < testHandle.size ∧ testHandle.size ≤ 4 ∧
    WinReady testAntler [] [2] ∧ WinReady testAntler [2] [] ∧ firstPerLine (testHandle.uses 1 0) = [0x2000000000, 0x2000000104] ∧ lines.map (·.va) = [0x2000000000, 0x2000000104] ∧
    testAntler.hub.vfind 0 0x2000000000 = some ((0, 3), testVrec) ∧ testAntler.hub.vfind 0 0x2000000104 = some ((0, 3), testVrec) ∧
    testVrec.stateOf 0 = .sealed ∧ (testAnswer 0 testAntler).Placed ∧
    lines.all (fun e => (testAnswer 0 testAntler).thr.progress.elems.contains e.id) = false ∧ Clean p ∧ (Acquired p.1).Placed ∧
    p.1.core = testAntler.core ∧ Clean (onePass (addGrad 1 1) [] p.1) ∧ Served (testServed testVer) ∧ Clean q ∧
    natOfBytes (((bytesOfNat 64 (elem 512 q.1.thr.progress.data 0)).drop 6).take 1) < 2 ∧ q.1.tn = testVer.tn ∧
    (parseAntler testVer.hub 0 0x100000 [] []).isNone = true ∧ testHandle.d = testHandle.tines.length ∧
    testHandle.tines.all (fun t => t.qin ≤ 255 && t.qout ≤ 255) = true := by
  unfold Acquired; and_intros <;> decide +kernel
/-- Antlers: a newest read of a row, which asks at once, and which has been answered; and a header in memory that is bound. -/
theorem met_AntlerHeader :
    let n := (testAnswer 0 testAntler).updProgress (fun p => { p with since := some 0 })
    let tine := fun (base : Nat) => bytesOfNat 8 base ++ bytesOfNat 8 0x00010101_0002 ++ bytesOfNat 16 0
    let recs := tine 0x2000000000 ++ tine 0x2000000100
    let hd := bytesOfNat 4 0x414E544C ++ bytesOfNat 4 0x20001 ++ bytesOfNat 4 0x3F800000 ++ bytesOfNat 4 0 ++ bytesOfNat 8 4 ++ bytesOfNat 4 1 ++
      bytesOfNat 36 0
    let m : State := { testVer with dram := memWrite (dramDefault testVer.dramEpoch) testVer.dram 0x100000 (hd ++ recs) }
    let p := onePass (readHigh 0 0) (bytePieces 0x100000 64 0 0) (testServed m)
    let q := onePass (readAside 0 0) (bytePieces (0x100000 + 64) (32 * 2) 8 0) p.1
    n.thr.progress.since ≠ none ∧ Clean (onePass (readLineInto 0xFFFFFFFF) (testHandle.lineElems 1 0) n) ∧
    parseAntler testVer.hub 0 0x100000 hd recs = some testHandle ∧ Clean p ∧ Clean q ∧
    parseAntler q.1.hub q.1.tn 0x100000 (bytesOfNat 64 (elem 512 p.1.thr.progress.data 0)) (bytesOfVreg q.1.thr.progress.aux) = some testHandle ∧
    (parseAntler q.1.hub q.1.tn 0x100000 (bytesOfNat 64 (elem 512 p.1.thr.progress.data 0)) []).isNone = true ∧ q.1.Placed := by
  and_intros <;> decide +kernel
/-- A region word for one participant and region 2 of 256 bytes, and a record of that region, open. -/
def testRegionWord : Word := 0x0001000200000100
def testRegion : RrRegion :=
  ⟨2, 0, 0, 0x100000, testRegionWord, 0, .demand, true, false, 0, 0, 0, 0, 0, 0, 0, 0, 0, 0, 0, false, 0, [], [⟨0, 0, 0, 0⟩], [], []⟩
/-- Recording: no region and one of the launch, open with this thread among its members and closed; t15; a launch that records and one that does
not; what the hub has answered. -/
theorem met_Recording :
    let s := testDeque.updDie 0 (fun d => { d with regions := [testRegion] })
    bits testRegionWord 63 48 = 1 ∧ bits testRegionWord 35 32 = 2 ∧ bits testRegionWord 31 0 = 256 ∧ bits testRegionWord 47 36 = 0 ∧
    (testDeque.dieAt (dieOf testDeque.core)).region 2 = none ∧ (testDeque.dieAt 0).regions = [] ∧ (s.dieAt (dieOf s.core)).region 2 = some testRegion ∧
    s.among testRegion.members = true ∧ s.thr.progress = Progress.none ∧ JustAnswered (testServed s) ∧
    s.among testRegion.ended = false ∧ s.cur.pushTable = [] ∧ s.pushes = [] ∧ s.jam = false ∧ testRegion.ended.length + 1 = 1 ∧
    testRegion.opened = true ∧ ({ testRegion with opened := false } : RrRegion).opened = false ∧ testLaunch.pkt.flags.testBit 2 = false ∧
    (4 : Nat).testBit 2 = true ∧ testRegion.base + bits testRegion.rword 31 0 ≤ 0x100100 := by decide +kernel
/-- Recording: a region that its last participant opens; one that its last participant closes, armed with a recorded entry, armed with a lost one, and in
Replay below and at its threshold; and what is refused. -/
theorem met_RegionCloses :
    let on := fun (r : RrRegion) => testDeque.updDie 0 (fun d => { d with
      regions := [r], slices := [(0, { d.slice 0 with recTable := if r.mode = .armed then [⟨2, 0, 0, 0x1000, 1, 0, 1, 1⟩] else [] })] })
    let closed := { testRegion with opened := false, members := [], mode := .replay }
    let armed := { testRegion with mode := .armed }
    let replay := { testRegion with mode := .replay, thresh := 3 }
    let s := on closed
    let u := on armed
    RegionOf s 2 = some closed ∧ closed.rword = testRegionWord ∧ closed.lnum = 0 ∧ s.curLaunch = some 0 ∧ s.tid ≠ 15 ∧ s.thr.progress = Progress.none ∧
    s.among closed.arrived = false ∧ s.among closed.members = false ∧ closed.arrived.length + 1 = bits testRegionWord 63 48 ∧
    RegionOf u 2 = some armed ∧ u.jam = false ∧ u.among armed.members = true ∧ u.among armed.ended = false ∧ u.cur.pushTable.all (fun e => !e.armed) = true ∧
    u.pushes = [] ∧ armed.arrived.length < 1 ∧ armed.ended.length + 1 = 1 ∧ armed.lost = false ∧ ({ armed with lost := true } : RrRegion).lost = true ∧
    RegionOf (on replay) 2 = some replay ∧ replay.departNow + PushedOf (on replay) 0 2 (fun _ => true) + MissedOf (on replay) 0 2 0 (fun _ => true) < replay.thresh ∧
    ({ replay with departNow := 3 } : RrRegion).thresh ≤ 3 ∧ RegionOf (on testRegion) 2 = some testRegion ∧ RegionOf testDeque 2 = none ∧
    testRegion.base < 0x100000 + 256 ∧ 0x100000 < testRegion.base + bits testRegion.rword 31 0 ∧ testDeque.det = false ∧
    (testDeque.updCtl (fun c => { c with det := 1 })).det = true ∧
    ((on replay).dieAt 0).slices.all (fun e => e.2.recTable.isEmpty) = true := by
  unfold RegionOf PushedOf MissedOf; decide +kernel
/-- MemoryRows: requests that are granted, a line in an L1 in M with its owner recorded, a fill, a walk. -/
theorem met_SectorRows :
    let s := (testVa.obtain 0 0 0x100000 true).1
    testVa.cur.prefetches = [] ∧ (testVa.readRequest 0 0 0x100000).2 = .ok ∧ (testVa.ownRequest 0 0 0x100000).2 = .ok ∧
    (s.coreAt 0).l1Sec 0 0x1000 0 = .m ∧ (((s.coreAt 0).l1Find 0 0x1000).map (fun k => (s.l1Evict 0 k).jam)) = some false ∧
    (((s.dieAt 0).llcFind 0 0x1000).map (fun l => (l.owner[0]?).join)) = some (some 0) ∧ (testVa.coreAt 0).l1Sec 0 0x1000 0 ≠ .m ∧
    (testVa.ensureLine 0 0 0x1000 0x100000 .read).2 = .ok ∧ (testVa.translate 0 0 0x100000 .write none).2 = .ok 0x100000 0 ∧
    (testVa.sliceRead 0 0 0x100000 4 false).2.1 = .ok ∧ (testVa.sliceWrite 0 0 0x1000 0x100000 .write 0xF 5 false).2 = .ok := by decide +kernel
/-- MemoryRows: a guest line with dirty bytes that may go home and one whose package no port reaches; a home here and one elsewhere; a reply to a thread
whose request is on its way. -/
theorem met_LineRows :
    let guest := fun (s : State) => s.updDie 0 (fun d => { d with llc := d.llc.map (fun l => { l with pa := 2 ^ 42, dirty := [0], mask := 1 }) })
    let s := guest (testVa.obtain 0 0 0x100000 false).1
    let cut := s.updHub (fun h => { h with allDown := some 0 })
    let l := ((s.dieAt 0).llcFind 0 0x1000).map (fun l => (s.isGuest 0 l.pa, s.wbHeld 0 l, cut.wbHeld 0 l))
    let p := testVa.updThr (fun t => { t with status := .parked .reply 0 0, progress := { t.progress with ask := .sent } })
    l = some (true, false, true) ∧ (s.cleanLine 0 0 0x1000).jam = false ∧ testVa.farHome 0 0x100000 0x100000 = true ∧
    testVa.farHome 0 0x100000 (2 ^ 42) = false ∧ testVa.jam = false ∧ (testVa.dieAt (paDie 0x100000)).llcFind 0 0x1000 = none ∧
    p.thr.status = .parked .reply 0 0 ∧ p.thr.progress.asks = [] ∧ p.thr.resume = false := by decide +kernel
/-- MemoryRows: a push that its consumer takes, with its line served, claimed, or at an end. -/
theorem met_PushRows :
    let p : Push := ⟨0, 2, 0, 0, 0x1000, 0, 1, 0, 0⟩
    let s := { testTask with pushes := [p] }
    let claimed := s.updDie 0 (fun d => { d with claims := [⟨0, 1, 0, 0x100000, 0x100100, 0x100000⟩] })
    let ended := s.updDie 0 (fun d => { d with regions := [{ testRegion with spoiled := [0x1000] }] })
    s.pushes[0]? = some p ∧ ((s.dieAt 0).region 2).any (fun r => r.spoiled.contains 0x1000) = false ∧
    ((ended.dieAt 0).region 2).any (fun r => r.spoiled.contains 0x1000) = true ∧ (s.dieAt 0).claimed 0 0x1000 = false ∧
    (claimed.dieAt 0).claimed 0 0x1000 = true ∧ s.cur.runsLaunch 0 = true ∧ s.cur.runsLaunch 7 = false ∧ s.cur.l1Sec 0 0x1000 0 = .i ∧
    s.cur.l1Way 0 0x1000 = true ∧ (s.translate 0 0 0x100000 .read none).2 = .ok 0x100000 0 ∧
    (settled s (((s.noteMerge 0 0 0x1000).recallSector 0 0 0x1000 0 none true).readRequest 0 0 0x100000)).2 = .ok := by decide +kernel
/-- FaultQueues: the queue of tenancy 0 with a free record; a size code past 7; commands for t0, which waits for a page, and for t15. -/
theorem met_FaultQueues :
    let r : FaultRec := ⟨0, 0x2000000000, 1, 0, 0, 1, 0, 0, 1, 0, false, none⟩
    let s := { testVa with faults := [r] }.updThr (fun t => { t with status := .parked (.fault [0x2000000000]) 0 0, ctl := { t.ctl with fltseq := 1 } })
    s.faults[0]? = some r ∧ bits (s.tnEntry 0).2.2 3 0 < 8 ∧ s.dramRead 0x10000 8 = 0 ∧ bits (8 : Word) 3 0 ≥ 8 ∧
    (wakeCmd 0x10000000000 1 0x2000000000).action = 1 ∧ (wakeCmd 0x20000000000 1 0x2000000000).action = 2 ∧ (wakeCmd 0x10F00000000 0 0).tid = 15 ∧
    s.thr.matchesWake (wakeCmd 0x10000000000 1 0x2000000000) = true := by decide +kernel
/-- HubCommands: shootdowns that are well formed, with each operation, and one that is not, none under way; a recall that waits for an engine; the switch
operations on launch 0, which its queue and number name, with a task of it on a thread; a copy program at an aligned address and one that is not. -/
theorem met_HubCommands :
    let mid : CopyCmd := { testFill with started := true, pos := 1, out := [⟨.glob 0x100001, 0, 0xFF, 0, 0, [], 256⟩] }
    testTask.hub.sealed = false ∧ shootBad 0x01010000 0 0x80000 = false ∧ shootBad 0x01020000 0 0x80000 = false ∧ shootBad 0x01010000 0 0x80001 = true ∧
    testTask.hub.shoot = none ∧ testTask.hub.oldest .shootdown = none ∧ testTask.hub.oldest .switch = none ∧ testTask.recallWaits 0 0 0x80000 0 = false ∧
    (testTask.purgeDie 0 0 0x80000 0).jam = false ∧ (testTask.updCur (fun c => { c with cq := [mid] })).recallWaits 0 0x100000 0x180000 0 = true ∧
    (switchCmd 0x10000 1 0).op = 1 ∧ (switchCmd 0x10000 1 0).bad = false ∧ (switchCmd 0x40000 1 0).bad = false ∧
    testTask.hub.named 0 1 = some testLaunch ∧ testTask.holdsTask 0 1 0 = true ∧ testTask.launchAt 0 = some testLaunch ∧ testTask.remains 0 0 = true ∧
    testTask.hub.ownTier 0x900000 2 = true ∧ testTask.hub.ownTier (2 ^ 51) 2 = false := by decide +kernel
/-- ControlAndAperture: values that each register admits and some that it does not, a unit with a level and one without, LM, DRAM and unmapped
offsets of the aperture; a package that is sealed. -/
theorem met_ControlAndAperture :
    let cells := (testDo (.captureUnitControl 8 0xB) testTask).captureLevel 8
    testTask.hub.sealed = false ∧ (testTask.updHub (fun h => { h with sec := { h.sec with verified := false } })).hub.sealed = true ∧
    State.reset.hub.portsDown = true ∧ testTask.hub.portsDown = false ∧ testTask.captureLevel 3 = none ∧ cells = some 0 ∧
    paPopulated (2 ^ 42 * testTask.hub.pkg + 0x100000) = true ∧ (testTask.coreAt 0).attr (0x2000 / 512) = .data ∧
    (testTask.coreAt 0).attr (0x3F000 / 512) = .copy ∧ (testTask.coreAt 0).attr 0 = .system ∧ 0x1070 % 32 ≠ 24 ∧ windowAt 3 = .copyProg := by decide +kernel
/-- ControlAndAperture: for each table of the control range a word that it takes and one that it does not, a closed and an open queue, a region record that
is live and one that is not, a mailbox that is free, busy and in hold, and a block of code in LM. -/
theorem met_ControlTables :
    let w := fun (n : Nat) => word n
    let q := (testTask.hub.queue 5)
    let busy := (testTask.updHub (fun h => { h with sec := { h.sec with command := some (2, 0), hold := true } })).hub.sec
    let code := testTask.updCore 0 (fun c => { c with attrs := setKey c.attrs 16 (.code 1) })
    ((List.range 4).all (fun j => (w 0x8001800200030000).toNat / 2 ^ (16 * j) % 2 ^ 16 / 64 % 512 = 0) = true ∧ (w 0x40).toNat / 2 ^ 0 % 2 ^ 16 / 64 % 512 ≠ 0) ∧
    ((w 0x1000).toNat < 2 ^ 52 ∧ ¬(w (2 ^ 52)).toNat < 2 ^ 52 ∧ (w 64).toNat = 2 ^ 6 ∧ bits (w (2 ^ 16)) 31 0 = 2 ^ 16) ∧
    (q.opened = false ∧ bits (w 0x1400010007) 23 16 = 1 ∧ bits (w 0x1400010007) 47 32 = 20 ∧ bits (w 0x1300010007) 47 32 < 20 ∧
      ({ q with opened := true } : Queue).opened = true ∧ bits (w 0x1400000007) 23 16 = 0) ∧
    ((w 0x100000).toNat % 4096 = 0 ∧ testTask.hub.ownTier (w 0x100000).toNat 2 = true ∧ testTask.hub.ownTier (2 ^ 42) 1 = false) ∧
    (bits (w 0x23FF00010FFF) 47 32 = 9215 ∧ bits (w 0x240000010FFF) 47 32 = 9216 ∧ (w 0x3FFF8).toNat < 0x40000 ∧ ¬(w 0x40000).toNat < 0x40000 ∧
      (w (2 ^ 40)).toNat ≤ 2 ^ 40 ∧ ¬(w (2 ^ 40 + 256)).toNat ≤ 2 ^ 40) ∧
    ((w 0x700000104).toNat % 2 ^ 19 ≠ 0 ∧ bits (w 0x700000104) 7 0 = 4 ∧ bits (w 0x700000104) 15 8 = 1 ∧ bits (w 0x700000104) 63 32 = 7 ∧
      bits (w 0x700000003) 7 0 = 3 ∧ testVrec.live = true ∧ VRegion.fresh.live = false) ∧
    (bits (w 0x0B) 63 12 = 0 ∧ bits (w 0x0B) 7 4 = 0 ∧ bits (w 0x1B) 7 4 ≠ 0 ∧ bits (w 0xB) 63 40 = 0 ∧ bits (w 0xB) 23 5 = 0 ∧ bits (w 0x20) 23 5 ≠ 0) ∧
    (testTask.hub.readyBit 101 = true ∧ State.reset.hub.readyBit 101 = false ∧ testTask.hub.sec.command = none ∧ testTask.hub.sec.hold = false ∧
      busy.command.isSome = true ∧ busy.hold = true) ∧
    (code.coreAt 0).attr (0x2000 / 512) = .code 1 ∧ 63 ∉ testTask.hub.debugOn := by decide +kernel
/-- ReadinessAndPower: a function that is not ready and one that is, a port, another package, an island that may step. -/
theorem met_ReadinessAndPower : State.reset.hub.readyBit 67 = false ∧ testTask.hub.readyBit 67 = true ∧ testTask.hub.readyBit 83 = true ∧
    State.reset.hub.sec.verified = true ∧ State.reset.hub.sec.hold = false ∧ testTask.hub.pkg ≠ 1 ∧ 1 ∉ testTask.hub.podAvail ∧
    testTask.hub.cutOff = false ∧ testTask.hub.allDown = none ∧ (testTask.hub.island 0).cur = (testTask.hub.island 0).cap ∧
    (0 : Nat) ∈ topIslands (fun j => [1].getD j 0) 32 (List.range 128) := by decide +kernel
/-- SecurityAndErrors: a security engine that is ready and free, and one that runs another command, an empty and a full key slot, no challenge and
one, both fuses, a resident line, a spilled context; the answers of the signature check and of the unwrapping are free (log 16), and the clauses
speak of each. -/
theorem met_SecurityAndErrors :
    let sec := fun (f : Security → Security) => testTask.updHub (fun h => { h with sec := f h.sec })
    testTask.hub.readyBit 101 = true ∧ testTask.hub.sec.command = none ∧ (sec (fun x => { x with command := some (2, 0) })).hub.sec.command = some (2, 0) ∧
    testTask.hub.keyPair 3 = none ∧ (sec (fun x => { x with keys := [(3, 9)] })).hub.keyPair 3 ≠ none ∧ testTask.hub.sec.challenge = none ∧
    (sec (fun x => { x with challenge := some (0, 5) })).hub.sec.challenge = some (0, 5) ∧ testTask.hub.sec.fuse = 0 ∧
    (((testVa.obtain 0 0 0x100000 false).1.dieAt 0).llcFind 0 0x1000).isSome = true ∧ paPopulated 0x900000 = true ∧ testTask.isOwn 0x900000 = true ∧
    ((testTask.cur.spill 1).spills.map (fun y => (y.tid + 16, y.valid))) = [(17, true)] := by decide +kernel
/-- SecurityAndErrors, ReadinessAndPower: the signature check answers one way or the other (log 16). -/
theorem met_signature : ∀ k d sig, signatureValid k d sig = true ∨ signatureValid k d sig = false :=
  fun k d sig => by cases signatureValid k d sig <;> simp
/-- EncodeDecode, DecodeEncode, ReservedWords: well-formed words of each format, and reserved words. -/
theorem met_encoding : (Instr.add 1 2 3).isWord = true ∧ (Instr.ld .n32 5 6 0x1FFF).wf = true ∧ (Instr.vadd .f32 23 16 15 7).wf = true ∧
    (Instr.waitExpired 0 0).isWord = false ∧ (fld 0x00000000 26 6).toNat = 0 ∧ (fld 0xC0000001 26 6).toNat = 0x30 ∧ (fld 0xF8000000 26 6).toNat = 0x3E ∧
    (fld 0xFFFFFFFF 26 6).toNat = 0x3F := by decide
theorem canonical_of {s : State} (h : (Memory.wf (dramDefault s.dramEpoch) s.dram && s.cores.all (fun e => Memory.wf lmDefault e.2.lm) &&
    s.far.isEmpty) = true) : s.Canonical := by
  simp only [Bool.and_eq_true, List.all_eq_true, List.isEmpty_iff] at h
  exact ⟨h.1.1, h.2 ▸ rfl, h.1.2⟩
/-- ResetState, StepKeepsCanonical: a die whose core array is not ready; memory in its canonical form, at reset and after stores. -/
theorem met_canonical : State.reset.Canonical ∧ testMem.Canonical ∧ State.reset.hub.sec.hold = false ∧ State.reset.hub.readyBit (67 + dieOf 0) = false := by
  refine ⟨canonical_of ?_, canonical_of ?_, ?_⟩ <;> decide +kernel
/-- StepRunsDecoded: an issue slot of core 0 with its word in the buffer, asked for by the agenda and by the turn; a register that the word reads damaged
and one that it does not read; a core that is not ready, a thread that resumes and a word that it decodes to. -/
theorem met_StepRunsDecoded :
    let s := State.reset.withFetchWord 32 0x04642800
    let taken := fun (x : State) => { x with agenda := [] }
    let u := SlotOf s taken 0
    let x := ThreadOf s taken 0 0
    let bad := fun (r : Nat) => (u.updCore 0 (fun c => { c with badThread := [(0, r)] })).coreAt 0
    let parked := testTask.updCur (fun c => c.updThr 1 (fun t => { t with resume := true, inst := 0x74000001 }))
    AgendaNext s ∧ SlotDue s 0 taken ∧ SlotDue { s with agenda := [] } 0 (fun x => { x with turn := 1 }) ∧
    s.wheelCore 0 = 0 ∧ s.hub.coreReady 0 = true ∧ State.reset.hub.coreReady 0 = false ∧
    ((s.openSlot 0).coreAt 0).resuming = none ∧ (u.coreAt 0).pick ((s.openSlot 0).dieAt 0).det.isSome = some 0 ∧
    (x.firstIssue.thr.buf.map (fun w => (w.code, w.ok, w.bad))).head? = some (0x04642800, true, false) ∧ x.cur.pendingEvent 0 = none ∧
    (u.coreAt 0).badThread = [] ∧ (bad 4).damagedFor 0 (.add 3 4 5) = true ∧ (bad 9).damagedFor 0 (.add 3 4 5) = false ∧
    x.barred (.add 3 4 5) = false ∧ x.barred (.xcan 4) = true ∧ resumingIn parked.cores = some (0, 1) ∧ (parked.cur.thr 1).inst = 0x74000001 ∧
    (parked.cur.thr 1).progress.ending = none := by
  refine ⟨by unfold AgendaNext; decide +kernel, .inl ⟨[], ?_, ?_, rfl⟩, .inr ⟨false, ?_, ?_, ?_, rfl⟩, ?_⟩ <;> decide +kernel
/-- StepRunsDecoded: a wait for a window that ends as the cycle begins, a thread behind the last word, a pending event, words that may not be fetched or are damaged, an
empty buffer; a die that a deterministic launch holds, an event that is ordered there and one that is not. -/
theorem met_StepRunsDecoded_more :
    let s := State.reset.withFetchWord 32 0x04642800
    let taken := fun (x : State) => { x with agenda := [] }
    let th := fun (f : Thread → Thread) => ThreadOf (s.updCore 0 (fun c => c.updThr 0 f)) taken 0 0
    let late := (testTask.updCur (fun c => { c with windows := c.windows.setIfInBounds 0 ⟨0, .filling, 0⟩ })).updThrAt 0 1 (fun t =>
      { t with status := .parked (.window 16) 0 0 })
    let det := s.updDie 0 (fun d => { d with det := some 0 })
    let told := (s.updCore 0 (fun c => { c with msgq := [⟨0x40000000001, 0, 0xFFFFFFFF, 0, 0⟩] })).updThrAt 0 0 (fun t =>
      { t with ctl := { t.ctl with evmask := 0x8000000000000002, evvec := 0x600 } })
    ((late.openSlot 0).coreAt 0).resuming = some 1 ∧ (th (fun t => { t with pc := 0x40000 })).thr.pc.toNat = 0x40000 ∧
    (th (fun t => { t with buf := [] })).firstIssue.thr.buf = [] ∧
    ((th (fun t => { t with buf := [] })).firstIssue.refill.thr.buf.map (fun w => (w.ok, w.bad))).head? = some (true, false) ∧
    ((th (fun t => { t with pc := 0x3F000, buf := [] })).firstIssue.refill.thr.buf.map (·.ok)).head? = some false ∧
    ((th (fun t => { t with buf := [⟨0, true, true⟩] })).firstIssue.thr.buf.map (fun w => (w.ok, w.bad))).head? = some (true, true) ∧
    (ThreadOf told taken 0 0).cur.pendingEvent 0 ≠ none ∧ (det.dieAt (dieOf 0)).det ≠ none ∧ det.ordered (.sliceReadRequest 0 0 0) = true ∧
    s.ordered (.sliceReadRequest 0 0 0) = false := by
  decide +kernel

/-! ### The hypotheses of single clauses -/

/-- ExactRounding: finite operands of either sign, zeros of either sign, a sum that cancels, a conversion from a float and from an integer, and 2.5, a tie
between two whole numbers. -/
theorem met_ExactRounding : fpsTy .f32 = true ∧ Fcw.plain.arnd ≤ 4 ∧ Fcw.plain.crnd ≤ 5 ∧ ValueIs (readF .f32 false 0x3F800000) 1 ∧
    ValueIs (readF .f32 false 0xBF800000) (-1) ∧ ValueIs (readF .f32 false 0) 0 ∧ ValueIs (readF .f32 false 0x80000000) 0 ∧ (1 : ℝ) + -1 = 0 ∧
    (1 : ℝ) + -1 * 1 = 0 ∧ ValueIs (readF .f32 false 0x40200000) (5 / 2) ∧ ((unpackI .i32 7 : ℤ) : ℝ) = 7 ∧ isFloat .i32 = false ∧ isFloat .bf16 = true ∧
    RoundsInt .rne false |5 / 2| 2 ∧ RoundsInt .rup false |5 / 2| 3 := by
  have h1 : readF .f32 false 0x3F800000 = .fin false 8388608 (-23) := by decide +kernel
  have h2 : readF .f32 false 0xBF800000 = .fin true 8388608 (-23) := by decide +kernel
  have h3 : readF .f32 false 0 = .fin false 0 (-149) := by decide +kernel
  have h4 : readF .f32 false 0x80000000 = .fin true 0 (-149) := by decide +kernel
  have h5 : readF .f32 false 0x40200000 = .fin false 10485760 (-22) := by decide +kernel
  have h6 : unpackI .i32 7 = 7 := by decide +kernel
  rw [h1, h2, h3, h4, h5, h6]
  refine ⟨by decide, by decide, by decide, ?_, ?_, ?_, ?_, ?_, ?_, ?_, ?_, by decide, by decide, ⟨2, ?_, ?_, ?_, ?_⟩, ⟨2, ?_, ?_, ?_, ?_⟩⟩ <;>
    norm_num [ValueIs, abs_of_pos]
/-- SystemInstructions: return addresses that are no multiple of 4, and beyond the last word. -/
theorem met_SystemReturns :
    let s := fun (w : Word) => testBase.updCtl (fun c => { c with trappc := w })
    (s 2).thr.system = true ∧ (s 2).thr.ctl.trappc.toNat % 4 ≠ 0 ∧ (s 0x40000).thr.ctl.trappc.toNat % 4 = 0 ∧
    0x3FFFC < (s 0x40000).thr.ctl.trappc.toNat := by decide +kernel
/-- Ranges: a prefetch under way whose page is not mapped. -/
theorem met_PrefetchFault : ∀ pa key, (testVa.translate 0 0 0x2000000000 .read none).2 ≠ .ok pa key := by
  intro pa key h
  have := congrArg Tr.ans h
  have h2 : (testVa.translate 0 0 0x2000000000 .read none).2.ans = .page 1 1 0 := by decide +kernel
  rw [h2] at this
  simp [Tr.ans] at this
/-- Atomics: a thread with a reduction that no wait has to perform. -/
theorem met_RedPosts :
    let r : Red := ⟨0, 0, testTask.thr.placedAt, 0, some 0, .add, false, .die, 0x100000, 4, none, none, false, none, false⟩
    let s : State := { testTask with reds := [r] }
    s.Placed ∧ s.myReds = [r] ∧ s.myReds.length < 8 ∧ r.sent = false ∧ r.owed = false ∧ (s.det && fpOp .add) = false ∧ (s.rd 4).toNat % 8 = 0 ∧
    (s.rd 4).toNat < 2 ^ 56 := by
  intro r s; decide +kernel
/-- FencesAndWaits: a thread that may arrive, a rectangle without its core, a write outstanding to the extent, and a drop notice, before and after the
release. -/
theorem met_FenceTraps :
    let w := testTask.updCur (fun c => { c with out := [⟨1, 0, testTask.thr.placedAt, 1⟩] })
    let d := testTask.updThr (fun t => { t with drops := [⟨0, 1, 3, 1⟩] })
    testTask.tid ≠ 15 ∧ testTask.thr.progress.begun = false ∧ (¬ RectOk .rect 0x01010101 (some testTask.core)) ∧ w.myReds = [] ∧
    w.myWrites (inExtent .die 0 w.core) ≠ [] ∧ RectOk .die 0 none ∧ RectOk .die 0 (some w.core) ∧
    d.thr.drops.any (fun n => inExtent .pkg 0 d.core n.core) = true ∧
    ∃ u, Released d .pkg 0 u ∧ u.thr.drops.any (fun n => inExtent .pkg 0 u.core n.core) = true := by
  intro w d
  refine ⟨?_, ?_, fun h => absurd ((h rfl).2.2.2.2.2 _ rfl).1 (by decide +kernel), ?_, ?_, fun h => by simp at h, fun h => by simp at h, ?_,
    ⟨_, ⟨?_, ?_, _, some_getD (d := testTask) ?_, rfl, ?_, ?_⟩, ?_⟩⟩
  all_goals decide +kernel
/-- BarrierGenerations: a participant that waits for the result, parked, and one that is spilled. -/
theorem met_BarrierReleases :
    let b : Barrier := ⟨0, 0, .die, 0, 0, .n64, [⟨0, 0, 5, 0⟩]⟩
    let s := ({ testTask with barriers := [b] } : State).updHub (fun h => { h with
      launches := [{ testLaunch with threads := 1, pkt := { testLaunch.pkt with n0 := 1 } }] })
    let p := s.updThr (fun t => { t with status := .parked (.barrier 1) 0 0, progress := { t.progress with begun := true, id := 5 } })
    p.barriers[0]? = some b ∧ p.expected b = 1 ∧ p.thr.progress.begun = true ∧ p.thr.progress.id = 5 ∧ p.thr.progress.ending = none ∧
    p.thr.parkOf = some (.barrier 1) ∧
    ((p.cur.spill 0).spills.map (fun x => (x.tid, x.thread.progress.begun, x.thread.progress.id, x.thread.progress.ending.isNone))) =
      [(0, true, 5, true)] := by decide +kernel
/-- BarrierArrivals: f32 contributions with no NaN, zeros of both signs among them. -/
theorem met_BarrierCombine : ([0x80000000, 0, 0x3F800000] : List Word) ≠ [] ∧
    (([0x80000000, 0, 0x3F800000] : List Word).map (fun x => unpackF .f32 (x.toNat % 2 ^ 32))).any Num.isNan = false ∧
    combine 1 .f32 [0x80000000, 0, 0xBF800000] = (0, 0) ∧ combine 3 .f32 [0x80000000, 0, 0x3F800000] = (0x80000000, 0) := by decide +kernel
/-- Landing: an Empty register whose first waiting writer is the thread itself, one with another writer, and a TAKE that waits at it. -/
theorem met_LandingWaiters :
    let s := fun (l : List Writer) => testTask.updCur (fun c => c.updLand 20 (fun x => { x with waiters := l }))
    let p := testTask.updThrAt 0 1 (fun t => { t with status := .parked (.landing 20 false) 0 0 })
    ((s [.putl 0, .putl 2]).cur.land 20).waiters.head? = some (.putl testTask.tid) ∧ ((s [.putl 0]).cur.land 20).full = false ∧
    ((s [.putl 2]).cur.land 20).waiters.head? ≠ some (.putl testTask.tid) ∧ ((s [.putl 2]).cur.land 20).waiters ≠ [] ∧
    (p.cur.thr 1).status = .parked (.landing 20 false) 0 0 ∧ (p.cur.thr 1).resume = false ∧ 1 ≠ p.tid ∧
    ((List.range 16).all (fun k => k == 1 || decide ((p.cur.thr k).parkOf ≠ some (.landing 20 false)))) = true := by decide +kernel
/-- RemoteWriting: reserved bits, a core past the package, ranges past the end of LM, a WAKE of another core. -/
theorem met_RemoteWriteWaits : bits (0x8 : Word) 3 0 ≠ 0 ∧ bits (0x1000000000 : Word) 63 36 ≠ 0 ∧ bits (0x4000000 : Word) 31 26 ≠ 0 ∧
    bits (0x40000 : Word) 63 18 ≠ 0 ∧ 0x40000 < bits (0xFFFE00000 : Word) 35 18 + 256 ∧ bits (0xFFFE00000 : Word) 35 18 % 8 = 0 ∧
    0x40000 < bits (0xFFFFC0010 : Word) 35 18 + 8 ∧ testTask.holderBad [2] = none ∧ bits (0x10 : Word) 17 4 ≠ testTask.core ∧
    bits (0x10 : Word) 31 26 = 0 ∧ bits (0x10 : Word) 63 26 = 0 ∧ bits (0x40010 : Word) 35 18 % 8 ≠ 0 := by decide +kernel
/-- Deliveries: an Empty register with a write waiting at its port, of the launch that may write and of one with no task left there. -/
theorem met_LandingPort :
    let y := { testItem (.rput 20 5) with phase := .waiting 0 }
    let s := fun (y : NetItem) => ({ testTask with net := [y] } : State).updCur (fun c => c.updLand 20 (fun l => { l with waiters := [.remote 3 0 0 5] }))
    ((s y).cur.land 20).waiters = .remote 3 0 0 5 :: [] ∧ ((s y).cur.land 20).full = false ∧ ((s y).cur.land 20).fillAt ≤ (s y).cur.cyc.toNat ∧
    findPos (fun (z : NetItem) => z.id == 3) (s y).net = some 0 ∧ (s y).net[0]? = some y ∧ (s y).hosts 0 y.lnum = true ∧
    (s y).cur.landHolder = none ∧ (s y).hosts 0 (some 7) = false := by decide +kernel
/-- UserEvents: a parked thread with a pending event, in the cycle of its arrival and later, in a wait that an event ends, in one that it does not end, and
in one that has ended. -/
theorem met_ParkedEvents :
    let m : Message := ⟨0x40000000001, 0, 0xFFFFFFFF, 3, 0⟩
    let s := fun (w : Park) (r : Bool) (c : Word) => ((testTask.updCur (fun x => { x with msgq := [m], cyc := c })).updCtl (fun c =>
      { c with evmask := 0x8000000000000002, evvec := 0x600 })).updThr (fun t => { t with status := .parked w 0 0, resume := r })
    (s .wake false 4).Placed ∧ (s .wake false 4).cur.pendingEvent 0 = some m ∧ (s .wake false 4).thr.status = .parked .wake 0 0 ∧
    m.at_ < (s .wake false 4).cur.cyc.toNat ∧ (s .wake false 3).cur.cyc.toNat ≤ m.at_ ∧ (s .wake true 4).thr.resume = true ∧
    Park.wake.eventful = true ∧ Park.reply.eventful = false ∧ (s .reply false 4).cur.pendingEvent 0 = some m := by
  intro m s; decide +kernel
/-- `testDeque` with the page at 2^37 migrating, and with a kernel object of tag 5 at 0x20_0000. -/
def testMoving : State :=
  let put := fun (m : List Host.Cell) (a x : Nat) => memWrite (dramDefault testDeque.dramEpoch) m a (bytesOfNat 8 x)
  { testDeque with dram := put (put (put (put testDeque.dram 0x4008 0x80) 0x200000 0x14B524B31) 0x200008 0x400000F0005) 0x200010 0x4000000200 }
/-- CoreTasks: a launch whose tag is not known, with its image resident and not; a header that a migrating leaf holds; a good header with the rest of its
image. -/
theorem met_ImageRows :
    let l := { testLaunch with tag := none }
    let at_ := fun (k : Nat) => testMoving.updHub (fun h => { h with launches := [{ l with pkt := { l.pkt with kernel := k } }] })
    let s := at_ 0x200000
    let r := s.updCur (fun c => { c with slots := [⟨5, 2, 0x400, 0x200, 0, 0, false, false, 15, 0x40, 0, 0⟩] })
    let hd := fun (s : State) (k : Nat) => (s.hubBytes 0 0 k 64).2
    s.launchAt 0 = some l ∧ l.ended = false ∧ testRec ∈ s.cur.deque ∧ s.cur.slotOfRec l testRec = none ∧ r.cur.slotOfRec l testRec = none ∧
    s.hub.waitsAt (.image 0 0) = false ∧ s.cur.loading = none ∧ (hd s 0x200000).1 = .ok ∧ natOfBytes (((hd s 0x200000).2.drop 8).take 2) = 5 ∧
    r.cur.slotOf 5 = some 0 ∧ s.cur.slotOf 5 = none ∧ ((parseHeader (hd s 0x200000).2).map (·.tag)) = some 5 ∧
    (at_ 0x2000000000).launchAt 0 = some { l with pkt := { l.pkt with kernel := 0x2000000000 } } ∧ (hd (at_ 0x2000000000) 0x2000000000).1 = .hold .migrate ∧
    s.cur.slots = [] ∧ (s.hubBytes 0 0 0x200000 0x200).2.1 = .ok := by decide +kernel
/-- QueuesAndLaunches: no completion store that is due, an invalid head, and a launch whose completion word lies in a migrating page. -/
theorem met_LaunchRows :
    let p : Pending := ⟨testLaunch.pkt, 1, 0⟩
    let bad : Pending := ⟨{ testLaunch.pkt with n0 := 0 }, 1, 0⟩
    let s := fun (p : Pending) => testDeque.updHub (fun h => { h with queues := [{ testQueue with fifo := [p] }], launches := [] })
    let l := { testLaunch with counts := [(0, 0)], pkt := { testLaunch.pkt with done := 0x2000000000 } }
    let m := testMoving.updHub (fun h => { h with launches := [l] })
    (s p).hub.owed = [] ∧ (s p).hub.heads = [({ testQueue with fifo := [p] }, p)] ∧ (s bad).hub.heads = [({ testQueue with fifo := [bad] }, bad)] ∧
    bad.pkt.valid = false ∧ p.pkt.valid = true ∧ m.launchAt 0 = some l ∧ l.todo = [] ∧ (∀ e ∈ l.counts, e.2 = 0) ∧ m.copiesFor 0 = false ∧
    m.hub.waitsAt (.done 0) = false ∧ (releaseDies m [0]).isSome = true ∧
    (((releaseDies m [0]).getD m).complete_ 0 0 0x2000000000 1).2 = some .migrate ∧ testDeque.hub.waitsAt (.done 0) = false := by decide +kernel
/-- MatrixEngine: damage in the engine's buffers before a k-block, with and without an MMR step that has begun. -/
theorem met_MatrixDamage :
    let s := fun (m : MatCmd) => (testMatrix [m]).updCur (fun c => { c with badMatrix := true })
    let half := { testMat with kept := List.replicate 1024 0 }
    HeadOf (s testMat) 0 testMat [] ∧ HeadOf (s half) 0 half [] ∧ testMat.stop = .running ∧ testMat.next < (s testMat).matTotal testMat ∧
    ((s testMat).coreAt 0).badMatrix = true ∧ testMat.bank < 4 ∧ testMat.kept = [] ∧ half.kept.length = 1024 := by
  refine ⟨⟨?_, ?_, 0, 0, ?_⟩, ⟨?_, ?_, 0, 0, ?_⟩, ?_⟩ <;> decide +kernel
/-- CopyInstructions: a store that claims its range, a slice with no claim record left, and a copy into LM, which claims nothing. -/
theorem met_CopyIssue :
    let s := testCopy []
    let x := CopyOf s 1 4 0 0
    let v := s.addClaim s.core x.id 0 0x100000 0x100040
    let full := s.updDie 0 (fun d => { d with claims := List.replicate 32 ⟨0, 1, 0, 0x100000, 0x100100, 0x100000⟩ })
    s.jam = false ∧ ClaimOf x = some (0, 0x100000, 0x100040) ∧ (s.dieAt (dieOf s.core)).claimRoom 0 0x100000 0x100040 = true ∧ v.jam = false ∧
    v.core = s.core ∧ v.tid = s.tid ∧ v.thr = s.thr ∧ v.cur.cq = s.cur.cq ∧ ClaimOf (CopyOf s 0 4 0 0) = none ∧
    (full.dieAt (dieOf full.core)).claimRoom 0 0x100000 0x100040 = false ∧ ClaimOf (CopyOf full 1 4 0 0) = some (0, 0x100000, 0x100040) := by
  decide +kernel
/-- CopyInstructions: a running command of which a part of a stripe is written, with output of the next stripe behind it, and a put in the fabric. -/
theorem met_CopyCancel :
    let o : CopyOut := ⟨.lm 0x2000, 0x55, 0xFF, 0, 0, [], 0⟩
    let x := { testFill with started := true, part := some 0, out := [o, { o with unit := 1 }] }
    (testCopy [x]).cur.cq = [x] ∧ x.out = o :: [{ o with unit := 1 }] ∧ bits (0x1000 : Word) 63 13 = 0 ∧ (0x1000 : Word).getLsbD 12 = true ∧
    ({ x with put := 1 } : CopyCmd).put = 1 := by decide +kernel
/-- CopyEngine: two bytes of output for one line of global memory, which their slice takes. -/
theorem met_CopyLines :
    let l : List CopyOut := [⟨.glob 0x100000, 0x55, 0xFF, 0, 0, [], 256⟩, ⟨.glob 0x100001, 0x66, 0xFF, 0, 0, [], 256⟩]
    let x := { testFill with started := true, out := l }
    let s := testCopy [x]
    x.out = [l].flatten ∧ x.held = none ∧ x.put = 0 ∧ x.fn ≠ 2 ∧ s.cur.badCopy = false ∧
    (∀ e ∈ x.out, x.entryBad s.cur e = false ∧ e.scales = [] ∧ e.unit = 256) ∧ ∃ v, LinesDone 0 ((x.owner.map (·.2)).getD 0) [l] s v ∧ (v.coreAt 0).cq = [x] := by
  intro l x s
  have h : (s.sliceWrite 0 0 0x1000 0x100000 .write (takeLine 0x1000 l).1 (takeLine 0x1000 l).2.1 true).2 = .ok ∧
      ((s.sliceWrite 0 0 0x1000 0x100000 .write (takeLine 0x1000 l).1 (takeLine 0x1000 l).2.1 true).1.coreAt 0).cq = [x] := by decide +kernel
  have hs : s.cur.badCopy = false ∧ ∀ e ∈ x.out, x.entryBad s.cur e = false ∧ e.scales = [] ∧ e.unit = 256 := by decide +kernel
  generalize hw : s.sliceWrite 0 0 0x1000 0x100000 .write (takeLine 0x1000 l).1 (takeLine 0x1000 l).2.1 true = w at h
  refine ⟨rfl, rfl, rfl, by decide, hs.1, hs.2, w.1, ⟨0x100000, _, _, w.1, rfl, rfl, by decide, ?_, by simp, ?_, rfl⟩, h.2⟩
  · intro y hy
    simp only [l, List.mem_cons, List.not_mem_nil, or_false] at hy
    rcases hy with rfl | rfl
    · exact ⟨_, rfl, by decide, rfl⟩
    · exact ⟨_, rfl, by decide, rfl⟩
  · exact hw.trans (Prod.ext rfl h.1)
/-- CopyEngine: a put that waits at its target, one that a migrating leaf holds and one that meets a page fault. -/
theorem met_PutArrivals :
    let w : WinRec := { testBase.hub.window 3 with state := 1, tenancy := 0, base := 0x2000000000, len := 256, core := 0, ctr := 0x2000 }
    let s := testMoving.updHub (fun h => { h with allDown := none, winTab := [(3, w)] })
    let q := s.updHub (fun h => { h with waits := [⟨.put 0 3 0 [(8, 0xFF, 0x55)], 0, 0x2000000008⟩] })
    q.hub.waitsAt (.put 0 3 0 [(8, 0xFF, 0x55)]) = true ∧ s.hub.waitsAt (.put 0 3 0 [(8, 0xFF, 0x55)]) = false ∧ s.hub.allDown = none ∧
    s.hub.window 3 = w ∧ (∀ e ∈ ([(8, 0xFF, 0x55)] : PutBytes), 0 + e.1 < w.len) ∧
    (putBytes 0 w.base [(8, 0xFF, 0x55)] s).2 = some (0x2000000008, .hold .migrate) ∧
    (putBytes 0 0x4000000000 [(8, 0xFF, 0x55)] s).2 = some (0x4000000008, .page 1 1 0) := by decide +kernel
/-- Versions: a region with two sealed versions whose reclaim meets damaged data at its first line. -/
theorem met_ReclaimFails :
    let r : VRegion := { testVrec with sealed := 1 }
    let s : State := { testServed (testVer.updVRegion (0, 3) (fun _ => r)) with badDram := [0x200000 / 64] }
    let p := onePass (reclaimPage (0, 3) 0) ((List.range (r.len / 2 ^ 19)).map (fun i => ⟨i, r.base + i * 2 ^ 19, 0, 0, 0, 0⟩))
      (((s.updVRegion (0, 3) (fun r => { r with reclaiming := true })).wakeVersions (0, 3)).capture 0 0)
    r.oldest = 0 ∧ r.reclaiming = false ∧ r.stateOf 1 = .sealed ∧ p.2.pages = [] ∧ p.2.other = false ∧ p.1.thr.progress.held = [] ∧
    p.1.thr.progress.kept.map (·.cause) = [0x0F] := by decide +kernel
/-- Antlers: in the row's second line, a version that is open. -/
theorem met_AntlerWaits :
    let lines : List Elem := testHandle.lineElems 1 0
    lines.map (·.va) = [0x2000000000, 0x2000000104] ∧ testAntler.hub.vfind 0 0x2000000000 = some ((0, 3), testVrec) ∧ testVrec.stateOf 1 = .open 1 ∧
    testVrec.stateOf 2 = .absent ∧ testAntler.holderBad [2] = none ∧ testAntler.det = false ∧ Idle testAntler := by
  intro lines; and_intros <;> decide +kernel
/-- MemoryRows: walks to a leaf whose address lies in an unavailable package, to a versioned leaf, and to none; the same for a pushed line. -/
theorem met_WalkStops :
    let at_ := fun (x : Nat) => ({ testTask with dram := memWrite (dramDefault testTask.dramEpoch) testTask.dram 0x4008 (bytesOfNat 8 x) } : State)
    let gone := at_ 0x4000000007B
    let p : Push := ⟨0, 2, 0, 0, 0x20000000, 0, 1, 0, 0⟩
    let s : State := { gone with pushes := [p] }
    (gone.translate 0 0 0x2000000000 .read none).2 = .trap 0x0B 0x2000000000 ∧
    (testVer.translate 0 0 0x2000000000 .read none).2 = .trap 0x0A 0x2000000000 ∧
    (testTask.translate 0 0 0x2000000000 .read none).2 = .page 1 1 0 ∧ s.pushes[0]? = some p ∧ s.lineAbsent 0 0 0x20000000 = true ∧
    (s.translate 0 0 0x2000000000 .read none).2 = .trap 0x0B 0x2000000000 ∧ s.cur.runsLaunch 0 = true ∧ s.cur.l1Sec 0 0x20000000 0 = .i ∧
    s.cur.l1Way 0 0x20000000 = true ∧ (s.dieAt 0).claimed 0 0x20000000 = false := by decide +kernel
/-- ControlAndAperture: a package in hold, one with unverified firmware, and one that is not sealed. -/
theorem met_KeyStoreAccess :
    let sec := fun (f : Security → Security) => (testTask.updHub (fun h => { h with sec := f h.sec })).hub.sealed
    sec id = false ∧ sec (fun x => { x with hold := true }) = true ∧ sec (fun x => { x with verified := false }) = true := by decide +kernel
/-- SecurityAndErrors: a wrapped key unwraps or fails its check, as the wrapping key has it (log 16); R414: alarms of one cycle in the order of their
causes. -/
theorem met_SecurityKeys : (∀ w, unwrapKey w = none ∨ ∃ k, unwrapKey w = some k) ∧
    LoggedIn ⟨1, 5, 0⟩ [⟨3, 5, 0⟩, ⟨1, 4, 0⟩] [⟨3, 5, 0⟩, ⟨1, 5, 0⟩, ⟨1, 4, 0⟩] := by
  refine ⟨fun w => ?_, [⟨3, 5, 0⟩], [⟨1, 4, 0⟩], ?_⟩
  · cases unwrapKey w <;> simp
  · simp

/-! Witnesses of what the statements say of special values, of traps, and of what waits. -/

/-- FloatScalars: signalling and quiet NaNs, infinities and zeros of either sign, a finite and a negative operand; an infinity and a zero whose product is
void, and fused terms of the same and of the other sign. -/
theorem met_SpecialOperands : fpsTy .f32 = true ∧ (readF .f32 false 0x7FC00001).isNan = true ∧ (readF .f32 false 0x7F800001).isSnan = true ∧
    readF .f32 false 0x7F800000 = .inf false ∧ readF .f32 false 0xFF800000 = .inf true ∧ (readF .f32 false 0x80000000).isZero = true ∧
    (readF .f32 false 0x80000000).neg = true ∧ (readF .f32 false 0xBF800000).neg = true ∧ (readF .f32 false 0xBF800000).isZero = false ∧
    (readF .f32 false 0x7F800000).isInf = true ∧ (readF .f32 false 0x3F800000).isInf = false ∧
    (fpFma .f32 Fcw.plain false 0x3F800000 0 0x7F800000 = ⟨0x7FC00000, flInvalid⟩ ∧
      fpFma .f32 Fcw.plain false 0xFF800000 0x3F800000 0x7F800000 = ⟨0x7FC00000, flInvalid⟩ ∧
      fpFma .f32 Fcw.plain true 0xFF800000 0x3F800000 0x7F800000 = ⟨0xFF800000, 0⟩) ∧
    ∃ v, ValueIs (readF .f32 false 0x3F800000) v := by
  and_intros <;> first | exact ⟨_, rfl⟩ | decide +kernel
/-- FloatScalars: conversions of a NaN and of infinities in modes toward and away from them, with and without `sat`; two operands that stand for an infinity
and for a number, and two zeros. -/
theorem met_SpecialConversions : isFloat .f16 = true ∧ isFloat .e4m3 = true ∧ isFloat .i32 = false ∧ (⟨0, 1, false, false, true⟩ : Fcw).crm 0 = .rtz ∧
    (⟨0, 2, false, false, true⟩ : Fcw).crm 0 = .rdn ∧ (⟨0, 3, false, false, true⟩ : Fcw).crm 0 = .rup ∧ Fcw.plain.crm 0 = .rne ∧
    Fcw.plain.crnd ≤ 5 ∧ Fcw.plain.sat = false ∧ (readF .f16 false 0x7E00).isNan = true ∧ readF .f16 false 0xFC00 = .inf true ∧
    ExtIs (readF .f16 false 0xFC00) ⊥ ∧ (∃ v, ExtIs (readF .f16 false 0x3C00) v) ∧ (∃ v, ExtIs (readF .f16 false 0x8000) v) := by
  have h : readF .f16 false 0xFC00 = .inf true := by decide +kernel
  rw [h]
  and_intros <;> first | rfl | exact ⟨_, rfl⟩ | decide +kernel
/-- VectorConversions, VectorArithmetic: an integer that fits and one beyond either bound; a block with a NaN and one without. -/
theorem met_IntegerConversions : isFloat .i8 = false ∧ isFloat .n8 = false ∧ isFloat .i32 = false ∧ ElemTy.i8 ≠ .c8 ∧
    convert .i8 .i32 Fcw.plain 0 0xFFFFFF7F = ⟨0x80, flInvalid ||| flSaturated⟩ ∧ convert .i8 .i32 Fcw.plain 0 0x80 = ⟨0x7F, flInvalid ||| flSaturated⟩ ∧
    convert .i8 .i32 Fcw.plain 0 0xFFFFFF80 = ⟨0x80, 0⟩ ∧ convert .n8 .i8 Fcw.plain 0 0xFF = ⟨0, flInvalid ||| flSaturated⟩ ∧
    (([0x3C00, 0x7C01].map (unpackF .f16)).any Num.isNan = true ∧ ([0x3C00, 0xC000].map (unpackF .f16)).any Num.isNan = false ∧
      blockAmax .f16 [0x3C00, 0xC000] = ⟨0x40000000, 0⟩ ∧ blockAmax .f16 [] = ⟨0, 0⟩) := by decide +kernel
/-- TrapsAndStops: a task without a handler, with a free record in its fault queue, with an older record of its tenancy before it, and with its tenancy not
ready or its queue's memory failed. -/
theorem met_HubStops :
    let s := testTask
    let a := bits (s.tnEntry 0).2.2 51 12 * 2 ^ 12
    let old : FaultRec := ⟨0, 0, 1, 0, 0, 1, 0, 0, 1, 0, false, none⟩
    let off := testTask.updHub (fun h => { h with ready0 := 0, ready1 := 0 })
    s.tid < 15 ∧ ¬s.HasHandler ∧ s.thr.task = some ⟨0, 0, []⟩ ∧ s.launchAt 0 = some testLaunch ∧ testLaunch.ended = false ∧ s.tnReady 0 = true ∧
    bits (s.tnEntry 0).2.2 3 0 < 8 ∧ s.hub.memReady a = true ∧ s.dramRead a 8 = 0 ∧ s.faults = [] ∧ s.hub.overflowAreas = [] ∧
    (∃ o ∈ ({ s with faults := [old] } : State).faults, o.tn = s.tn) ∧ off.tnReady 0 = false := by
  unfold State.HasHandler; decide +kernel
/-- LocalVectors: tables that wait for the end of their intervals, of which one is due. -/
theorem met_DecodeTableOpens :
    let c := { (testBase.coreAt 0) with cyc := 40, dtNext := [(20, [], 1), (60, [], 3)] }
    c.dtNext = [] ++ (20, [], 1) :: [(60, [], 3)] ∧ decide (20 ≤ c.cyc.toNat) = true ∧ c.dtNext.any (fun e => decide (e.1 ≤ c.cyc.toNat)) = true ∧
    ([(60, [], 3)] : List (Nat × List (Nat × Word32) × Word)).any (fun e => decide (e.1 ≤ c.cyc.toNat)) = false ∧
    testBase.cur.dtNext.any (fun e => decide (e.1 ≤ testBase.cur.cyc.toNat)) = false := by decide +kernel
/-- LocalVectors, GlobalVectors: misaligned addresses, ranges past LM and past 2^56, blocks that t0 may not access, lanes of which one fails. -/
theorem met_VectorTraps :
    let s := testRegs [(4, 0x2E100), (5, 0x3FF80), (6, 0x2E102), (7, 0x00FFFFFFFFFFFF80), (8, 4), (9, 0x00FFFFFFFFFFFFFC)] testBase
    let z : BitVec 5 := 0
    let at_ := fun (a : Reg) => s.rd a + BitVec.ofInt 64 (z.toInt * 256)
    let lane := fun (a : Reg) (i : Nat) => s.rd a + word (elem 32 (s.vget 2) i)
    let stride := fun (i : Nat) => s.rd 9 + word i * s.rd 8
    s.holderBad [1] = none ∧ s.holderBad [2, 1] = none ∧ isWin 2 = false ∧ s.thr.progress.begun = false ∧
    (at_ 6).toNat % 4 ≠ 0 ∧ (at_ 5).toNat % 4 = 0 ∧ 0x40000 < (at_ 5).toNat + 256 ∧ (at_ 0).toNat + 256 ≤ 0x40000 ∧ (s.mask 0).getLsbD 0 = true ∧
    s.cur.lmAllowed s.tid true ((at_ 0).toNat / 512) = false ∧ 2 ^ 56 ≤ (at_ 7).toNat + 255 ∧ (at_ 7).toNat % 4 = 0 ∧
    active (s.mask 0) 32 0 = true ∧ active (s.mask 0) 32 1 = true ∧ (lane 6 0).toNat % 4 ≠ 0 ∧ (lane 4 0).toNat % 4 = 0 ∧
    s.cur.lmAllowed s.tid false ((lane 4 0).toNat / 512) = true ∧ (stride 0).toNat < 2 ^ 56 ∧ 2 ^ 56 ≤ (stride 1).toNat ∧
    ((List.range 64).all (fun i => decide ((stride i).toNat % 4 = 0))) = true ∧
    bits (0x40000 : Word) 63 18 ≠ 0 ∧ (s.rd 5).toNat % 4 = 0 ∧ bits (s.rd 5) 63 18 = 0 ∧ bits (s.rd 5) 17 0 ≤ 0x40000 ∧
    0x40000 < bits (s.rd 5) 17 0 + 1024 := by decide +kernel
/-- ControlTransfers: an instruction at the last word of LM, with a handler. -/
theorem met_RunOff :
    let s := testRegs [(4, 1)] (testHandler.updThr (fun t => { t with pc := 0x3FFFC }))
    s.tid < 16 ∧ s.thr.pc = 0x3FFFC ∧ s.HasHandler ∧ s.rd 4 = 1 ∧ (Instr.bne 4 4 2, false) ∈ BranchWhen s 4 4 2 := by
  unfold State.HasHandler
  intro s; and_intros <;> decide +kernel
/-- BarrierArrivals, Atomics: contributions of which some are infinite, of one sign and of both, and finite ones. -/
theorem met_FloatSums :
    let f := fun (l : List Nat) => l.map (unpackF .f32)
    (Num.inf true ∈ f [0xFF800000, 0x3F800000] ∧ Num.inf (!true) ∉ f [0xFF800000, 0x3F800000]) ∧
    (Num.inf true ∈ f [0xFF800000, 0x7F800000] ∧ Num.inf false ∈ f [0xFF800000, 0x7F800000]) ∧
    (f [0xFF800000, 0x7F800000]).any Num.isNan = false ∧ combine 2 .f32 [0x3F800000, 0xBF800000] = (0, 0) ∧
    combine 2 .f32 [0x3F800000, 0x40000000] = (0x40400000, 0) ∧ ∃ vs, List.Forall₂ ValueIs (f [0x3F800000, 0xBF800000]) vs := by
  and_intros <;> first | exact ⟨[_, _], .cons rfl (.cons rfl .nil)⟩ | decide +kernel
/-- MatrixInstructions: a scaled command of a type that has no scales, codes with no table, operands beyond 2^56, and a row of LM beyond its end. -/
theorem met_MatrixTraps :
    let sh : Word := 0x1000000000000
    let s := testDeque
    sh.getLsbD 48 = true ∧ MtxTy.bf16 ∉ [MtxTy.e4m3, .e5m2, .e2m1, .i8] ∧ bits sh 63 49 = 0 ∧ bits sh 23 0 % 16 = 0 ∧ bits sh 47 24 % 16 = 0 ∧
    bits s.thr.ctl.mrp 2 0 < KOf .k32 / 32 ∧ s.cur.dtab.getLsbD 0 = false ∧ s.thr.progress = Progress.none ∧
    ShapeOk s .bf16 .k64 0 0x100000000000000 0 ∧ 2 ^ 56 ≤ (0x100000000000000 : Word).toNat ∧ (0x100000000000000 : Word).toNat % 16 = 0 ∧
    ShapeOk s .bf16 .k64 0 0x3F000 0x2000 ∧ OperandByte .bf16 .k64 0 0x3F000 0x2000 0 0x3F000 ∧ s.cur.lmAllowed s.tid false (0x3F000 / 512) = false ∧
    (∀ r, OperandByte .bf16 .k64 0 0x3F000 0x2000 0 r → (0x40000 ≤ r ∨ s.cur.lmAllowed s.tid false (r / 512) = false) → 0x3F000 ≤ r) := by
  intro sh s
  have ok : s.cur.lmAllowed s.tid false 16 = true := by decide +kernel
  refine ⟨by decide, by decide, by decide, by decide, by decide, by decide +kernel, by decide +kernel, by decide +kernel, ?_, by decide, by decide, ?_,
    .inl ⟨0, by decide, by decide, by decide⟩, by decide +kernel, ?_⟩
  · refine ⟨?_, ?_, ?_, ?_, ?_, fun h => absurd h (by decide), ?_, fun h => by simp at h⟩ <;> decide +kernel
  · refine ⟨?_, ?_, ?_, ?_, ?_, fun h => absurd h (by decide), ?_, fun h => by simp at h⟩ <;> decide +kernel
  · rintro r (⟨i, -, h, -⟩ | ⟨k, -, h, g⟩ | ⟨h, -⟩) bad
    · simpa [bits] using h
    · have e : r / 512 = 16 := by simp [bits, mtxTy, ElemTy.width] at h g; omega
      rw [e, ok] at bad
      simp [bits, mtxTy, ElemTy.width] at h g bad; omega
    · simp at h
/-- CopyInstructions, CopyEngine: a running command that a held read keeps in the middle of its stripe, and one that has nothing left to write. -/
theorem met_CopyHeld :
    let x := { testFill with started := true, part := some 0, stop := .hold 0 .other }
    let c : Claim := ⟨0, 1, 0, 0x100000, 0x100200, 0x100000⟩
    let s := (testCopy [{ testFill with started := true }]).updDie 0 (fun d => { d with claims := [c] })
    (testCopy [x]).cur.cq = [x] ∧ x.part = some 0 ∧ (∀ y ∈ x.out, y.unit = 0) ∧ ({ testFill with started := true } : CopyCmd).leastLeft = none ∧
    testFill.ends = none ∧ (s.dieAt 0).claims = [c] := by decide +kernel
/-- CoreTasks, QueuesAndLaunches: a context that was stopped and is ready to come back to its thread, a mark of a launch that is not barred from its die,
and a stop record of a launch that waits. -/
theorem met_StoppedContext :
    let stopped := testPlace.updThrAt 0 1 (fun t => { t with status := .stopped .halt })
    let c := stopped.cur.spill 1
    let back : Core := { c with spills := c.spills.map (fun (y : Saved) => { y with ready := true }) }
    let marked := testPlace.updCur (fun c => { c with marks := [(0, 4)] })
    let r : FaultRec := ⟨0, 0, 5, 0, 0, 9, 0, 0, 0, 0, false, some 0⟩
    (back.thr 1).status = .free ∧ ((back.spills.find? (fun z => z.valid && z.ready && z.tid == 1)).map (·.thread.status)) = some (.stopped .halt) ∧
    getKey marked.cur.marks 0 = some 4 ∧ ((marked.cur.thr 1).task.map (·.lnum)) = some 0 ∧ marked.launchAt 0 = some testLaunch ∧
    marked.reservedFrom 0 testLaunch = false ∧ (∃ x ∈ ({ testPlace with faults := [r] } : State).faults, x.kind = 9 ∧ x.lnum = some 0) := by decide +kernel
/-- FaultQueues: a record behind an older one, a full queue, a tenancy that is not ready, and a queue in memory that has failed. -/
theorem met_FaultWaits :
    let r : FaultRec := ⟨0, 0x2000000000, 1, 0, 0, 1, 0, 0, 1, 0, false, none⟩
    let stop := { r with kind := 9 }
    let s : State := { testVa with faults := [r, stop] }
    let full : State := { s with dram := memWrite (dramDefault s.dramEpoch) s.dram 0x10000 (bytesOfNat 8 128) }
    let a := bits (s.tnEntry 0).2.2 51 12 * 2 ^ 12
    s.faults[1]? = some stop ∧ ¬(∀ o ∈ s.faults.take 1, o.tn ≠ stop.tn) ∧ (∀ o ∈ s.faults.take 0, o.tn ≠ r.tn) ∧ stop.kind = 9 ∧
    128 * 2 ^ bits (full.tnEntry 0).2.2 3 0 ≤ (full.dramRead a 8 + 2 ^ 64 - full.dramRead (a + 8) 8) % 2 ^ 64 ∧ full.tnReady 0 = true ∧
    full.hub.memReady a = true ∧ (s.updHub (fun h => { h with ready0 := 0, ready1 := 0 })).tnReady 0 = false := by decide +kernel
/-- ControlAndAperture: a size that is no power of two. -/
theorem met_NoPower : ¬∃ k, 6 ≤ k ∧ k ≤ 16 ∧ 65 = 2 ^ k := by
  rintro ⟨k, h, g, e⟩
  interval_cases k <;> simp at e

/-! ### The spec's listings and codes -/

/-- R313: the listing of the shipped copy program, up to the call of `issue` for slot 1. -/
theorem test_copy_program_idle : (copyProgram.take 24).map (fun w => (decode w).toOption) = [some (.lih 21 3), some (.ori 21 21 0xF064),
    some (.csrw 0 21 0x060), some (.addi 22 0 256), some (.addi 23 0 1), some (.shli 23 23 63), some (.csrw 0 22 0x030), some (.take 4 16),
    some (.csrw 0 0 0x030), some (.take 5 17), some (.take 6 18), some (.take 7 19), some (.take 8 20), some (.take 9 21), some (.jal 1 16),
    some (.testl 10 24), some (.beq 10 0 0xFFF6), some (.take 4 24), some (.take 5 25), some (.take 6 26), some (.take 7 27), some (.take 8 28),
    some (.take 9 29), some (.jal 1 7)] := by decide +kernel
/-- R313: the rest of the listing. -/
theorem test_copy_program_issue : (copyProgram.drop 24).map (fun w => (decode w).toOption) = [some (.jal 0 0x1FFFEE), some (.csrw 0 0 0x030),
    some (.csrc 0 23 0x061), some (.testl 10 24), some (.bne 10 0 0xFFF5), some (.jal 0 0x1FFFE9), some (.bexti 10 9 3 12), some (.beq 10 0 7),
    some (.addi 11 0 1), some (.beq 10 11 7), some (.addi 11 0 2), some (.bne 10 11 2), some (.xput 4 8 9), some (.jalr 0 1 0), some (.xld 4 8 9),
    some (.jalr 0 1 0), some (.xst 4 8 9), some (.jalr 0 1 0)] := by decide +kernel
/-- R168: the cipher is AES with a key of 256 bits; the vector is the one that its standard gives (FIPS 197, C.3). -/
theorem test_aes : let key := List.range 32
    let text := (List.range 16).map (· * 17)
    let out := [0x8E, 0xA2, 0xB7, 0xCA, 0x51, 0x67, 0x45, 0xBF, 0xEA, 0xFC, 0x49, 0x90, 0x4B, 0x49, 0x60, 0x89]
    Aes.encrypt (Aes.roundKeys key) text = out ∧ Aes.decrypt (Aes.roundKeys key) out = text := by decide +kernel
/-- R168: a sector written under a key pair reads back as written. -/
theorem test_xts : decryptSector (5 <<< 256 ||| 3) 7 (encryptSector (5 <<< 256 ||| 3) 7 0x123456789ABCDEF) = 0x123456789ABCDEF := by decide +kernel
/-- R176, R177: a sector for each code, its size, and what its image stands for. -/
theorem test_bdz :
    let near := fun (w n b d : Nat) => sectorOf w ((List.range n).map (fun i => b + d * i))
    let l := [0, near 64 8 (2 ^ 60) 0, near 64 8 (2 ^ 60) 18, near 64 8 (2 ^ 60) 4681, near 64 8 (2 ^ 60) 306783378, near 32 16 (2 ^ 28) 8,
      near 32 16 (2 ^ 28) 2184, sectorOf 32 [1, 2 ^ 31], sectorOf 64 (List.range 8 |>.map (fun i => 2 ^ (7 * i) + 2 ^ (63 - i) + 1))]
    l.map bdz = [(0, 0), (1, 8), (2, 16), (3, 24), (4, 40), (5, 24), (6, 40), (7, 16), (8, 64)] ∧ l.map (fun x => bdzExpand (bdz x).1
      (bdzImage (bdz x).1 x)) = l ∧ l.map (fun x => (bdzImage (bdz x).1 x).length) = l.map (fun x => (bdz x).2) := by decide +kernel

end
end

section
/-! SUPPORT. The encoder and decode are inverse to each other (R13, R20 to R37): a word is its fields side by side, so a word is that of an
instruction just if its fields are the ones that the encoder sets. -/

namespace Sys2Proof

/-! ### Fields of a word -/

/-- Two neighbouring fields of a word, side by side, are one field. -/
theorem fld_append_fld (w : Word32) (lo m n : Nat) : fld w (lo + n) m ++ fld w lo n = fld w lo (m + n) := by
  rw [fld, fld, BitVec.extractLsb'_append_extractLsb'_eq_extractLsb' rfl]
  rfl
theorem fld_all (w : Word32) : fld w 0 32 = w := by simp [fld]
theorem append_eq_fld {m n : Nat} (x : BitVec m) (y : BitVec n) (w : Word32) (lo : Nat) :
    x ++ y = fld w lo (m + n) ↔ x = fld w (lo + n) m ∧ y = fld w lo n := by
  constructor
  · intro h
    rw [← fld_append_fld] at h
    have hx := congrArg (BitVec.extractLsb' n m) h
    have hy := congrArg (BitVec.extractLsb' 0 n) h
    simpa [BitVec.extractLsb'_append_eq_of_le, BitVec.extractLsb'_append_eq_of_add_le] using And.intro hx hy
  · rintro ⟨rfl, rfl⟩
    exact fld_append_fld w lo m n

/-! ### Every instruction word decodes to its instruction -/

@[simp] theorem ElemTy.ofCode_code (t : ElemTy) : ElemTy.ofCode t.code = t := by cases t <;> rfl
@[simp] theorem MtxTy.ofCode_code (t : MtxTy) : MtxTy.ofCode t.code = t := by cases t <;> rfl
@[simp] theorem KLen.ofCode_code (k : KLen) : KLen.ofCode k.code = k := by cases k <;> rfl
@[simp] theorem Scope.ofCode_code (sc : Scope) : Scope.ofCode sc.code = some sc := by cases sc <;> rfl
@[simp] theorem AmoScope.ofCode_code (sc : AmoScope) : AmoScope.ofCode sc.code = some sc := by cases sc <;> rfl
@[simp] theorem LoadW.ofCode_code (w : LoadW) : LoadW.ofCode w.code = some w := by cases w <;> rfl
@[simp] theorem StoreW.ofCode_code (w : StoreW) : StoreW.ofCode w.code = some w := by cases w <;> rfl
@[simp] theorem AmoOp.ofCode_code (op : AmoOp) : AmoOp.ofCode op.code = some op := by cases op <;> rfl
@[simp] theorem CombTy.ofCode_code (t : CombTy) : CombTy.ofCode t.code = some t := by cases t <;> rfl
@[simp] theorem RedvnTy.ofCode_code (t : RedvnTy) : RedvnTy.ofCode t.code = some t := by cases t <;> rfl
@[simp] theorem ofBool_beq_one (b : Bool) : (BitVec.ofBool b == 1#1) = b := by cases b <;> rfl

@[simp] theorem withCode_some {α : Type} (x : α) (k : α → Decoded) : withCode (some x) k = k x := rfl
@[simp] theorem needCode_true (r : Decoded) : needCode true r = r := rfl
@[simp] theorem needZero_true (r : Decoded) : needZero true r = r := rfl

/-- A well-formed instruction has a word, which decodes to it. -/
def RoundTrips (i : Instr) : Prop := i.wf = true → ∃ w, encode i = some w ∧ decode w = .ok i
/-- Enough that a word with the fields of the instruction's word passes the checks of decode that stand before those of `wf`. -/
theorem roundTrips_of_fields {i : Instr} {e : Word32} (he : encode i = some e)
    (h : ∀ w, e = fld w 0 32 → decode w = ofFields i) : RoundTrips i :=
  fun hi => ⟨e, he, by rw [h e (fld_all e).symm, ofFields, if_pos hi]⟩

/-- The ALU group (R22). -/
theorem alu_roundTrips :
    (∀ (d a b : Reg), RoundTrips (.add d a b) ∧ RoundTrips (.sub d a b) ∧ RoundTrips (.and d a b) ∧ RoundTrips (.or d a b) ∧
      RoundTrips (.xor d a b) ∧ RoundTrips (.andn d a b) ∧ RoundTrips (.orn d a b) ∧ RoundTrips (.shl d a b) ∧ RoundTrips (.shr d a b) ∧
      RoundTrips (.sra d a b) ∧ RoundTrips (.rol d a b) ∧ RoundTrips (.slt d a b) ∧ RoundTrips (.sltn d a b) ∧ RoundTrips (.seq d a b) ∧
      RoundTrips (.min d a b) ∧ RoundTrips (.max d a b) ∧ RoundTrips (.minn d a b) ∧ RoundTrips (.maxn d a b) ∧ RoundTrips (.mul d a b) ∧
      RoundTrips (.mulh d a b) ∧ RoundTrips (.mulhn d a b) ∧ RoundTrips (.div d a b) ∧ RoundTrips (.divn d a b) ∧ RoundTrips (.rem d a b) ∧
      RoundTrips (.remn d a b) ∧ RoundTrips (.mad d a b) ∧ RoundTrips (.bext d a b) ∧ RoundTrips (.fshr d a b) ∧
      RoundTrips (.fshl d a b)) ∧
    (∀ (d a : Reg), RoundTrips (.clz d a) ∧ RoundTrips (.ctz d a) ∧ RoundTrips (.pop d a) ∧ RoundTrips (.bswap d a) ∧
      RoundTrips (.sextB d a) ∧ RoundTrips (.sextH d a) ∧ RoundTrips (.sextW d a) ∧ RoundTrips (.zextB d a) ∧ RoundTrips (.zextH d a) ∧
      RoundTrips (.zextW d a)) := by
  and_intros
  all_goals intros
  all_goals and_intros
  all_goals
    refine roundTrips_of_fields rfl fun w hw => ?_
    repeat rw [append_eq_fld] at hw
    simp only [and_assoc, Nat.reduceAdd] at hw
    obtain ⟨hop, hw⟩ := hw
    unfold decode; rw [← hop]
    simp [decodeAlu, ← hw]

/-- The scalar groups of formats I, M, B, J and U (R20, R23, R24). -/
theorem immediate_roundTrips :
    (∀ (d a : Reg) (i : BitVec 16), RoundTrips (.addi d a i) ∧ RoundTrips (.andi d a i) ∧ RoundTrips (.ori d a i) ∧
      RoundTrips (.xori d a i) ∧ RoundTrips (.slti d a i) ∧ RoundTrips (.shlori d a i) ∧ RoundTrips (.jalr d a i)) ∧
    (∀ (d a : Reg) (n : BitVec 6), RoundTrips (.shli d a n) ∧ RoundTrips (.shri d a n) ∧ RoundTrips (.srai d a n) ∧
      RoundTrips (.roli d a n) ∧ RoundTrips (.fshli d a n) ∧ RoundTrips (.fshri d a n)) ∧
    (∀ (d : Reg) (i : BitVec 21), RoundTrips (.lih d i)) ∧
    (∀ (d a : Reg) (l p : BitVec 6), RoundTrips (.bexti d a l p) ∧ RoundTrips (.bextsi d a l p) ∧ RoundTrips (.binsi d a l p)) ∧
    (∀ (a b : Reg) (o : BitVec 16), RoundTrips (.beq a b o) ∧ RoundTrips (.bne a b o) ∧ RoundTrips (.blt a b o) ∧ RoundTrips (.bge a b o) ∧
      RoundTrips (.bltn a b o) ∧ RoundTrips (.bgen a b o)) ∧
    (∀ (a : Reg) (o : BitVec 16), RoundTrips (.dbnz a o)) ∧
    (∀ (d : Reg) (o : BitVec 21), RoundTrips (.jal d o)) ∧
    (∀ (w : LoadW) (d a : Reg) (p : BitVec 13), RoundTrips (.ld w d a p) ∧ RoundTrips (.ldl w d a p)) ∧
    (∀ (w : StoreW) (s a : Reg) (p : BitVec 13), RoundTrips (.st w s a p) ∧ RoundTrips (.stl w s a p)) := by
  and_intros
  all_goals intros
  all_goals and_intros
  all_goals
    refine roundTrips_of_fields rfl fun w hw => ?_
    repeat rw [append_eq_fld] at hw
    simp only [and_assoc, Nat.reduceAdd] at hw
    obtain ⟨hop, hw⟩ := hw
    unfold decode; rw [← hop]
    simp [decodeShi, decodeBfi, ← hw]

/-- LDX, whose function code is its width (R25). -/
theorem ldx_roundTrips (w : LoadW) (d a b : Reg) :
    RoundTrips (.ldx w d a b) := by
  cases w
  all_goals
    refine roundTrips_of_fields rfl fun w hw => ?_
    repeat rw [append_eq_fld] at hw
    simp only [and_assoc, Nat.reduceAdd] at hw
    obtain ⟨hop, hw⟩ := hw
    unfold decode; rw [← hop]
    simp [decodeMemx, ldxFn, LoadW.code, ← hw]

/-- STX, whose function code holds its width (R25). -/
theorem stx_roundTrips (w : StoreW) (s a b : Reg) :
    RoundTrips (.stx w s a b) := by
  cases w
  all_goals
    refine roundTrips_of_fields rfl fun w hw => ?_
    repeat rw [append_eq_fld] at hw
    simp only [and_assoc, Nat.reduceAdd] at hw
    obtain ⟨hop, hw⟩ := hw
    unfold decode; rw [← hop]
    simp [decodeMemx, stxFn, ← hw]

/-- The other rows of MEMX, and the AMO and SYNC groups (R25 to R27). -/
theorem memory_roundTrips :
    (∀ (a : Reg), RoundTrips (.pfg a)) ∧
    (∀ (a b : Reg), RoundTrips (.cwb a b) ∧ RoundTrips (.cinv a b) ∧ RoundTrips (.cdisc a b)) ∧
    (∀ (op : AmoOp) (w : Bool) (sc : AmoScope) (d a b : Reg), RoundTrips (.amo op w sc d a b)) ∧
    (∀ (op : AmoOp) (w : Bool) (sc : AmoScope) (a b : Reg), RoundTrips (.red op w sc a b)) ∧
    (∀ (sc : Scope) (b : Reg), RoundTrips (.fenceAcq sc b) ∧ RoundTrips (.fenceRel sc b) ∧ RoundTrips (.fenceAr sc b) ∧
      RoundTrips (.bar sc b)) ∧
    (∀ (t : CombTy) (sc : Scope) (d a b : Reg), RoundTrips (.barmax t sc d a b) ∧ RoundTrips (.barsum t sc d a b) ∧
      RoundTrips (.barmin t sc d a b)) ∧
    (∀ (d a : Reg), RoundTrips (.waitge d a)) := by
  and_intros
  all_goals intros
  all_goals and_intros
  all_goals
    refine roundTrips_of_fields rfl fun w hw => ?_
    repeat rw [append_eq_fld] at hw
    simp only [and_assoc, Nat.reduceAdd] at hw
    obtain ⟨hop, hw⟩ := hw
    unfold decode; rw [← hop]
    simp [decodeMemx, decodeAmoGroup, decodeSync, ← hw]

/-- The LAND, MSG, THRD, CSR and SYS groups (R28, R29). -/
theorem thread_roundTrips :
    (∀ (li : Landing) (c : Reg), RoundTrips (.putl li c)) ∧
    (∀ (li : Landing) (c a : Reg), RoundTrips (.rput li c a)) ∧
    (∀ (c : Reg) (li : Landing), RoundTrips (.take c li) ∧ RoundTrips (.peek c li) ∧ RoundTrips (.testl c li)) ∧
    (∀ (li : Landing), RoundTrips (.clrl li)) ∧
    (∀ (a b : Reg), RoundTrips (.rputm a b) ∧ RoundTrips (.msnd a b) ∧ RoundTrips (.msndn a b) ∧ RoundTrips (.tsend a b)) ∧
    (∀ (a : Reg) (v : VCode), RoundTrips (.rputmv a v)) ∧
    (∀ (d : Reg), RoundTrips (.mrcv d) ∧ RoundTrips (.dqsplit d) ∧ RoundTrips (.dqnext d)) ∧
    (∀ (a : Reg), RoundTrips (.waitm a) ∧ RoundTrips (.wake a)) ∧
    (∀ (d a : Reg), RoundTrips (.mrcvn d a) ∧ RoundTrips (.dqpush d a) ∧ RoundTrips (.dqpop d a) ∧ RoundTrips (.dqsteal d a)) ∧
    RoundTrips .evon ∧ RoundTrips .evoff ∧ RoundTrips .evret ∧ RoundTrips .yield ∧ RoundTrips .park ∧ RoundTrips .tret ∧ RoundTrips .brk ∧
      RoundTrips .ifence ∧ RoundTrips .eret ∧ RoundTrips .halt ∧
    (∀ (d a b : Reg), RoundTrips (.launch d a b)) ∧
    (∀ (d : Reg) (c : BitVec 12), RoundTrips (.csrr d c)) ∧
    (∀ (d a : Reg) (c : BitVec 12), RoundTrips (.csrw d a c) ∧ RoundTrips (.csrs d a c) ∧ RoundTrips (.csrc d a c)) ∧
    (∀ (c : BitVec 5), RoundTrips (.trap c)) := by
  and_intros
  all_goals intros
  all_goals and_intros
  all_goals
    refine roundTrips_of_fields rfl fun w hw => ?_
    repeat rw [append_eq_fld] at hw
    simp only [and_assoc, Nat.reduceAdd] at hw
    obtain ⟨hop, hw⟩ := hw
    unfold decode; rw [← hop]
    simp [decodeLand, decodeMsg, decodeThrd, decodeCsrGroup, decodeSys, ← hw]

/-- The FPS group (R30). -/
theorem fps_roundTrips :
    (∀ (t : ElemTy) (d a b : Reg), RoundTrips (.fadd t d a b) ∧ RoundTrips (.fsub t d a b) ∧ RoundTrips (.fmul t d a b) ∧
      RoundTrips (.ffma t d a b) ∧ RoundTrips (.fmin t d a b) ∧ RoundTrips (.fmax t d a b) ∧ RoundTrips (.feq t d a b) ∧
      RoundTrips (.flt t d a b) ∧ RoundTrips (.fle t d a b) ∧ RoundTrips (.fdiv t d a b)) ∧
    (∀ (t : ElemTy) (d a : Reg), RoundTrips (.fabs t d a) ∧ RoundTrips (.fneg t d a) ∧ RoundTrips (.fsqrt t d a) ∧
      RoundTrips (.fclass t d a)) ∧
    (∀ (t s : ElemTy) (d a : Reg), RoundTrips (.fcvt t s d a)) := by
  and_intros
  all_goals intros
  all_goals and_intros
  all_goals
    refine roundTrips_of_fields rfl fun w hw => ?_
    repeat rw [append_eq_fld] at hw
    simp only [and_assoc, Nat.reduceAdd] at hw
    obtain ⟨hop, hw⟩ := hw
    unfold decode; rw [← hop]
    simp [decodeFps, ← hw]

/-- The vector groups VAR, VLG and VCM (R31). -/
theorem arithmetic_roundTrips :
    (∀ (t : ElemTy) (d a b : VCode) (k : MaskReg), RoundTrips (.vadd t d a b k) ∧ RoundTrips (.vsub t d a b k) ∧
      RoundTrips (.vmul t d a b k) ∧ RoundTrips (.vfma t d a b k) ∧ RoundTrips (.vfms t d a b k) ∧ RoundTrips (.vmin t d a b k) ∧
      RoundTrips (.vmax t d a b k) ∧ RoundTrips (.vdot4 t d a b k) ∧ RoundTrips (.vmulh t d a b k) ∧ RoundTrips (.vand t d a b k) ∧
      RoundTrips (.vor t d a b k) ∧ RoundTrips (.vxor t d a b k) ∧ RoundTrips (.vshl t d a b k) ∧ RoundTrips (.vshr t d a b k) ∧
      RoundTrips (.vsra t d a b k) ∧ RoundTrips (.vsel t d a b k)) ∧
    (∀ (t : ElemTy) (d a : VCode) (k : MaskReg), RoundTrips (.vabs t d a k) ∧ RoundTrips (.vneg t d a k) ∧ RoundTrips (.vnot t d a k) ∧
      RoundTrips (.vpopc t d a k)) ∧
    (∀ (t : ElemTy) (d : MaskReg) (a b : VCode) (k : MaskReg), RoundTrips (.vcmpeq t d a b k) ∧ RoundTrips (.vcmpne t d a b k) ∧
      RoundTrips (.vcmplt t d a b k) ∧ RoundTrips (.vcmple t d a b k)) ∧
    (∀ (d a b : MaskReg), RoundTrips (.kand d a b) ∧ RoundTrips (.kor d a b) ∧ RoundTrips (.kxor d a b)) ∧
    (∀ (d a : MaskReg), RoundTrips (.knot d a)) := by
  and_intros
  all_goals intros
  all_goals and_intros
  all_goals
    refine roundTrips_of_fields rfl fun w hw => ?_
    repeat rw [append_eq_fld] at hw
    simp only [and_assoc, Nat.reduceAdd] at hw
    obtain ⟨hop, hw⟩ := hw
    unfold decode; rw [← hop]
    simp [decodeVar, decodeVlg, decodeVcm, ← hw]

/-- The vector groups VCV, VSF and VPR (R31). -/
theorem conversion_roundTrips :
    (∀ (t s : ElemTy) (d a : VCode) (k : MaskReg), RoundTrips (.vcvt t s d a k)) ∧
    (∀ (d a : VCode) (k : MaskReg), RoundTrips (.vdec d a k) ∧ RoundTrips (.vexp2 d a k) ∧ RoundTrips (.vlog2 d a k) ∧
      RoundTrips (.vrcp d a k) ∧ RoundTrips (.vrsq d a k) ∧ RoundTrips (.vtanh d a k) ∧ RoundTrips (.vsigm d a k)) ∧
    (∀ (t : ElemTy) (d a : VCode) (k : MaskReg), RoundTrips (.venc t d a k) ∧ RoundTrips (.vredsum t d a k) ∧
      RoundTrips (.vredmax t d a k) ∧ RoundTrips (.vredmin t d a k) ∧ RoundTrips (.vscan t d a k) ∧ RoundTrips (.vamaxb t d a k)) ∧
    (∀ (a : Reg), RoundTrips (.vdtld a)) ∧
    (∀ (t : ElemTy) (d a b : VCode) (k : MaskReg), RoundTrips (.vqnt t d a b k) ∧ RoundTrips (.vdqnt t d a b k) ∧
      RoundTrips (.vperm t d a b k)) ∧
    (∀ (t : ElemTy) (d a : VCode) (b : Reg) (k : MaskReg), RoundTrips (.vslide t d a b k) ∧ RoundTrips (.vbcast t d a b k)) := by
  and_intros
  all_goals intros
  all_goals and_intros
  all_goals
    refine roundTrips_of_fields rfl fun w hw => ?_
    repeat rw [append_eq_fld] at hw
    simp only [and_assoc, Nat.reduceAdd] at hw
    obtain ⟨hop, hw⟩ := hw
    unfold decode; rw [← hop]
    simp [decodeVcv, decodeVsf, decodeVpr, ← hw]

/-- The vector groups VMM, VSC and VMV (R31). -/
theorem move_roundTrips :
    (∀ (d : VCode) (a : Reg) (p : BitVec 5) (k : MaskReg), RoundTrips (.vldl d a p k) ∧ RoundTrips (.vstl d a p k) ∧
      RoundTrips (.vld d a p k) ∧ RoundTrips (.vst d a p k)) ∧
    (∀ (t : ElemTy) (d : VCode) (a b : Reg) (k : MaskReg), RoundTrips (.vlds t d a b k) ∧ RoundTrips (.vsts t d a b k)) ∧
    (∀ (t : ElemTy) (d : VCode) (a : Reg) (b : VCode) (k : MaskReg), RoundTrips (.vgth t d a b k) ∧ RoundTrips (.vsct t d a b k) ∧
      RoundTrips (.vgthl t d a b k) ∧ RoundTrips (.vsctl t d a b k)) ∧
    (∀ (t : ElemTy) (d a : VCode) (b : Reg) (k : MaskReg), RoundTrips (.vsadd t d a b k) ∧ RoundTrips (.vssub t d a b k) ∧
      RoundTrips (.vsmul t d a b k) ∧ RoundTrips (.vsfma t d a b k) ∧ RoundTrips (.vsmin t d a b k) ∧ RoundTrips (.vsmax t d a b k) ∧
      RoundTrips (.vsshl t d a b k)) ∧
    (∀ (t : ElemTy) (d : VCode) (a : Reg) (k : MaskReg), RoundTrips (.vsplat t d a k)) ∧
    (∀ (t : ElemTy) (d : VCode) (a b : Reg), RoundTrips (.vins t d a b)) ∧
    (∀ (t : ElemTy) (d : Reg) (a : VCode) (b : Reg), RoundTrips (.vext t d a b)) ∧
    (∀ (t : ElemTy) (d : VCode) (k : MaskReg), RoundTrips (.viota t d k)) ∧
    (∀ (t : ElemTy) (d : Reg) (a : MaskReg), RoundTrips (.ktog t d a) ∧ RoundTrips (.kpop t d a)) ∧
    (∀ (t : ElemTy) (d : MaskReg) (a : Reg), RoundTrips (.gtok t d a)) ∧
    (∀ (t : ElemTy) (d a : VCode) (k : MaskReg), RoundTrips (.vmov t d a k)) := by
  and_intros
  all_goals intros
  all_goals and_intros
  all_goals
    refine roundTrips_of_fields rfl fun w hw => ?_
    repeat rw [append_eq_fld] at hw
    simp only [and_assoc, Nat.reduceAdd] at hw
    obtain ⟨hop, hw⟩ := hw
    unfold decode; rw [← hop]
    simp [decodeVmm, decodeVsc, decodeVmv, ← hw]

/-- The MTX, ACC and XF groups (R33 to R35). -/
theorem engine_roundTrips :
    (∀ (t : MtxTy) (kl : KLen) (n : BitVec 2) (d a b : Reg), RoundTrips (.mma t kl n d a b) ∧ RoundTrips (.mmal t kl n d a b) ∧
      RoundTrips (.mmr t kl n d a b)) ∧
    (∀ (a : Reg), RoundTrips (.mwait a) ∧ RoundTrips (.xstat a) ∧ RoundTrips (.xcan a)) ∧
    (∀ (d : Reg), RoundTrips (.mstat d)) ∧
    (∀ (n : BitVec 2), RoundTrips (.accz n)) ∧
    (∀ (t : ElemTy) (n : BitVec 2) (c : VCode) (a : Reg), RoundTrips (.accst t n c a) ∧ RoundTrips (.accld t n c a)) ∧
    (∀ (t : ElemTy) (n : BitVec 2) (a b : Reg), RoundTrips (.accstg t n a b)) ∧
    (∀ (a b c : Reg), RoundTrips (.xld a b c) ∧ RoundTrips (.xst a b c) ∧ RoundTrips (.xput a b c) ∧ RoundTrips (.xaxb a b c) ∧
      RoundTrips (.xlm a b c)) ∧
    (∀ (a c : Reg), RoundTrips (.xfill a c)) := by
  and_intros
  all_goals intros
  all_goals and_intros
  all_goals
    refine roundTrips_of_fields rfl fun w hw => ?_
    repeat rw [append_eq_fld] at hw
    simp only [and_assoc, Nat.reduceAdd] at hw
    obtain ⟨hop, hw⟩ := hw
    unfold decode; rw [← hop]
    simp [decodeMtx, decodeAcc, decodeXf, ← hw]

/-- The ATN, VN and RR groups (R36). -/
theorem version_roundTrips :
    (∀ (h : BitVec 3) (a : Reg), RoundTrips (.atbind h a)) ∧
    (∀ (h : BitVec 3) (c : VCode) (a : Reg), RoundTrips (.atdig h c a)) ∧
    (∀ (h : BitVec 3) (c : VCode) (a b : Reg), RoundTrips (.atld h c a b) ∧ RoundTrips (.atsg h c a b)) ∧
    (∀ (h : BitVec 3) (c : VCode), RoundTrips (.atinfo h c)) ∧
    (∀ (d a b : Reg), RoundTrips (.ldvn d a b) ∧ RoundTrips (.vnstat d a b) ∧ RoundTrips (.rrstat d a b)) ∧
    (∀ (t : RedvnTy) (s a b : Reg), RoundTrips (.redvn t s a b)) ∧
    (∀ (s a b : Reg), RoundTrips (.stvn s a b)) ∧
    (∀ (a b : Reg), RoundTrips (.vnopen a b) ∧ RoundTrips (.vnseal a b) ∧ RoundTrips (.vnrecl a b) ∧ RoundTrips (.rrbeg a b)) ∧
    (∀ (b : Reg), RoundTrips (.rrend b) ∧ RoundTrips (.rrec b) ∧ RoundTrips (.rroff b)) := by
  and_intros
  all_goals intros
  all_goals and_intros
  all_goals
    refine roundTrips_of_fields rfl fun w hw => ?_
    repeat rw [append_eq_fld] at hw
    simp only [and_assoc, Nat.reduceAdd] at hw
    obtain ⟨hop, hw⟩ := hw
    unfold decode; rw [← hop]
    simp [decodeAtn, decodeVn, decodeRr, ← hw]

/-- Every instruction word round-trips. -/
theorem roundTrips_of_isWord (i : Instr) : i.isWord = true → RoundTrips i := by
  cases i <;> simp only [Instr.isWord, Bool.false_eq_true, false_implies, true_implies,
    alu_roundTrips, immediate_roundTrips, ldx_roundTrips, stx_roundTrips, memory_roundTrips, thread_roundTrips, fps_roundTrips,
    arithmetic_roundTrips, conversion_roundTrips, move_roundTrips, engine_roundTrips, version_roundTrips]
/-- Settles O53: each format's word gives its fields back, and they pass the checks of decode. -/
theorem encodeDecode : Obligations.EncodeDecode := by
  unfold Obligations.EncodeDecode
  exact roundTrips_of_isWord

/-! ### Every word that decodes is the word of its instruction -/

@[simp] theorem ElemTy.code_ofCode (c : BitVec 4) : (ElemTy.ofCode c).code = c := by revert c; decide
@[simp] theorem MtxTy.code_ofCode (c : BitVec 3) : (MtxTy.ofCode c).code = c := by revert c; decide
@[simp] theorem KLen.code_ofCode (c : BitVec 2) : (KLen.ofCode c).code = c := by revert c; decide
@[simp] theorem Scope.ofCode_eq_some {c : BitVec 3} {sc : Scope} : Scope.ofCode c = some sc ↔ sc.code = c := by
  revert c; cases sc <;> decide
@[simp] theorem AmoScope.ofCode_eq_some {c : BitVec 3} {sc : AmoScope} : AmoScope.ofCode c = some sc ↔ sc.code = c := by
  revert c; cases sc <;> decide
@[simp] theorem LoadW.ofCode_eq_some {c : BitVec 3} {x : LoadW} : LoadW.ofCode c = some x ↔ x.code = c := by
  revert c; cases x <;> decide
@[simp] theorem StoreW.ofCode_eq_some {c : BitVec 3} {x : StoreW} : StoreW.ofCode c = some x ↔ x.code = c := by
  revert c; cases x <;> decide
@[simp] theorem AmoOp.ofCode_eq_some {c : BitVec 4} {op : AmoOp} : AmoOp.ofCode c = some op ↔ op.code = c := by
  revert c; cases op <;> decide
@[simp] theorem CombTy.ofCode_eq_some {c : BitVec 2} {t : CombTy} : CombTy.ofCode c = some t ↔ t.code = c := by
  revert c; cases t <;> decide
@[simp] theorem RedvnTy.ofCode_eq_some {c : BitVec 2} {t : RedvnTy} : RedvnTy.ofCode c = some t ↔ t.code = c := by
  revert c; cases t <;> decide
@[simp] theorem ofBool_beq (b : BitVec 1) : BitVec.ofBool (b == 1#1) = b := by revert b; decide

/-- The last of the values of a field of 2 bits. -/
theorem eq_three_of_ne {x : BitVec 2} (h0 : x ≠ 0#2) (h1 : x ≠ 1#2) (h2 : x ≠ 2#2) : x = 3#2 := by revert x; decide
theorem eq_zero_of_ne_one {x : BitVec 1} (h : x ≠ 1#1) : x = 0#1 := by revert x; decide

/-- Every instruction that a part of decode gives is well formed, and `w` is its word. -/
def YieldsWord (w : Word32) (r : Decoded) : Prop := ∀ i, r = .ok i → i.isWord = true ∧ i.wf = true ∧ encode i = some w
theorem yieldsWord_error (w : Word32) (e : DecodeError) : YieldsWord w (.error e) := by
  intro i h; cases h
theorem yieldsWord_withCode {α : Type} {w : Word32} {c : Option α} {k : α → Decoded} :
    YieldsWord w (withCode c k) ↔ ∀ x, c = some x → YieldsWord w (k x) := by
  cases c <;> simp [withCode, yieldsWord_error]
theorem yieldsWord_needCode {w : Word32} {c : Bool} {r : Decoded} : YieldsWord w (needCode c r) ↔ (c = true → YieldsWord w r) := by
  cases c <;> simp [needCode, yieldsWord_error]
theorem yieldsWord_needZero {w : Word32} {c : Bool} {r : Decoded} : YieldsWord w (needZero c r) ↔ (c = true → YieldsWord w r) := by
  cases c <;> simp [needZero, yieldsWord_error]
theorem yieldsWord_ofFields {w : Word32} {i : Instr} :
    YieldsWord w (ofFields i) ↔ (i.wf = true → i.isWord = true ∧ ∃ e, encode i = some e ∧ e = fld w 0 32) := by
  rw [fld_all]
  unfold ofFields
  split <;> simp_all [YieldsWord]

/-- The integer groups, and the indexed accesses. -/
theorem yieldsWord_integer (w : Word32) :
    (fld w 26 6 = 0x1#6 → YieldsWord w (decodeAlu w)) ∧ (fld w 26 6 = 0x7#6 → YieldsWord w (decodeShi w)) ∧
    (fld w 26 6 = 0xa#6 → YieldsWord w (decodeBfi w)) ∧ (fld w 26 6 = 0x18#6 → YieldsWord w (decodeMemx w)) := by
  and_intros
  all_goals
    intro hop
    simp only [decodeAlu, decodeShi, decodeBfi, decodeMemx]
    split
  all_goals simp only [yieldsWord_error, yieldsWord_needZero, yieldsWord_ofFields, encode,
    Instr.isWord, Option.some.injEq, exists_eq_left', true_and]
  all_goals
    intros
    repeat rw [append_eq_fld]
    simp_all [eq_three_of_ne, ldxFn, stxFn, LoadW.code]

/-- AMO, SYNC, LAND, MSG, THRD, CSR and SYS. -/
theorem yieldsWord_thread (w : Word32) :
    (fld w 26 6 = 0x19#6 → YieldsWord w (decodeAmoGroup w)) ∧ (fld w 26 6 = 0x1a#6 → YieldsWord w (decodeSync w)) ∧
    (fld w 26 6 = 0x1b#6 → YieldsWord w (decodeLand w)) ∧ (fld w 26 6 = 0x1c#6 → YieldsWord w (decodeMsg w)) ∧
    (fld w 26 6 = 0x1d#6 → YieldsWord w (decodeThrd w)) ∧ (fld w 26 6 = 0x1e#6 → YieldsWord w (decodeCsrGroup w)) ∧
    (fld w 26 6 = 0x1f#6 → YieldsWord w (decodeSys w)) := by
  and_intros
  all_goals
    intro hop
    simp only [decodeAmoGroup, decodeSync, decodeLand, decodeMsg, decodeThrd, decodeCsrGroup, decodeSys]
    split
  all_goals simp only [yieldsWord_error, yieldsWord_withCode, yieldsWord_needZero, yieldsWord_ofFields, encode,
    Instr.isWord, Option.some.injEq, exists_eq_left', true_and]
  all_goals
    intros
    repeat rw [append_eq_fld]
    simp_all [eq_zero_of_ne_one]

/-- FPS. -/
theorem yieldsWord_fps (w : Word32) :
    fld w 26 6 = 0x20#6 → YieldsWord w (decodeFps w) := by
  intro hop
  simp only [decodeFps]
  split
  all_goals simp only [yieldsWord_error, yieldsWord_needZero, yieldsWord_ofFields, encode,
    Instr.isWord, Option.some.injEq, exists_eq_left', true_and]
  all_goals
    intros
    repeat rw [append_eq_fld]
    simp_all

/-- VAR, VLG and VCM. -/
theorem yieldsWord_arithmetic (w : Word32) :
    (fld w 26 6 = 0x21#6 → YieldsWord w (decodeVar w)) ∧ (fld w 26 6 = 0x22#6 → YieldsWord w (decodeVlg w)) ∧
    (fld w 26 6 = 0x23#6 → YieldsWord w (decodeVcm w)) := by
  and_intros
  all_goals
    intro hop
    simp only [decodeVar, decodeVlg, decodeVcm]
    split
  all_goals simp only [yieldsWord_error, yieldsWord_needZero, yieldsWord_ofFields, encode,
    Instr.isWord, Option.some.injEq, exists_eq_left', true_and]
  all_goals
    intros
    repeat rw [append_eq_fld]
    simp_all

/-- VCV, VSF and VPR. -/
theorem yieldsWord_conversion (w : Word32) :
    (fld w 26 6 = 0x24#6 → YieldsWord w (decodeVcv w)) ∧ (fld w 26 6 = 0x25#6 → YieldsWord w (decodeVsf w)) ∧
    (fld w 26 6 = 0x26#6 → YieldsWord w (decodeVpr w)) := by
  and_intros
  all_goals
    intro hop
    simp only [decodeVcv, decodeVsf, decodeVpr]
    split
  all_goals simp only [yieldsWord_error, yieldsWord_needCode, yieldsWord_needZero, yieldsWord_ofFields, encode,
    Instr.isWord, Option.some.injEq, exists_eq_left', true_and]
  all_goals
    intros
    repeat rw [append_eq_fld]
    simp_all

/-- VMM, VSC and VMV. -/
theorem yieldsWord_move (w : Word32) :
    (fld w 26 6 = 0x27#6 → YieldsWord w (decodeVmm w)) ∧ (fld w 26 6 = 0x28#6 → YieldsWord w (decodeVsc w)) ∧
    (fld w 26 6 = 0x29#6 → YieldsWord w (decodeVmv w)) := by
  and_intros
  all_goals
    intro hop
    simp only [decodeVmm, decodeVsc, decodeVmv]
    split
  all_goals simp only [yieldsWord_error, yieldsWord_needZero, yieldsWord_ofFields, encode,
    Instr.isWord, Option.some.injEq, exists_eq_left', true_and]
  all_goals
    intros
    repeat rw [append_eq_fld]
    simp_all

/-- MTX, ACC and XF. -/
theorem yieldsWord_engine (w : Word32) :
    (fld w 26 6 = 0x2a#6 → YieldsWord w (decodeMtx w)) ∧ (fld w 26 6 = 0x2b#6 → YieldsWord w (decodeAcc w)) ∧
    (fld w 26 6 = 0x2c#6 → YieldsWord w (decodeXf w)) := by
  and_intros
  all_goals
    intro hop
    simp only [decodeMtx, decodeAcc, decodeXf]
    split
  all_goals simp only [yieldsWord_error, yieldsWord_needZero, yieldsWord_ofFields, encode,
    Instr.isWord, Option.some.injEq, exists_eq_left', true_and]
  all_goals
    intros
    repeat rw [append_eq_fld]
    simp_all

/-- ATN, VN and RR. -/
theorem yieldsWord_version (w : Word32) :
    (fld w 26 6 = 0x2d#6 → YieldsWord w (decodeAtn w)) ∧ (fld w 26 6 = 0x2e#6 → YieldsWord w (decodeVn w)) ∧
    (fld w 26 6 = 0x2f#6 → YieldsWord w (decodeRr w)) := by
  and_intros
  all_goals
    intro hop
    simp only [decodeAtn, decodeVn, decodeRr]
    split
  all_goals simp only [yieldsWord_error, yieldsWord_withCode, yieldsWord_needZero, yieldsWord_ofFields, encode,
    Instr.isWord, Option.some.injEq, exists_eq_left', true_and]
  all_goals
    intros
    repeat rw [append_eq_fld]
    simp_all

theorem yieldsWord_decode (w : Word32) : YieldsWord w (decode w) := by
  unfold decode
  split
  all_goals simp only [yieldsWord_error, yieldsWord_withCode, yieldsWord_needZero, yieldsWord_ofFields, encode, Instr.isWord,
    Option.some.injEq, exists_eq_left', true_and,
    yieldsWord_integer, yieldsWord_thread, yieldsWord_fps, yieldsWord_arithmetic, yieldsWord_conversion, yieldsWord_move,
    yieldsWord_engine, yieldsWord_version, *]
  all_goals
    intros
    repeat rw [append_eq_fld]
    simp_all

/-- Settles O54: each arm of decode fixes every field of the word, as the encoder sets it. -/
theorem decodeEncode : Obligations.DecodeEncode := by
  unfold Obligations.DecodeEncode
  exact fun w i h => yieldsWord_decode w i h

/-! ### Words of the encoding tables -/

/-- Settles O52: decode computes on each of the words. -/
theorem decodeWords : Obligations.DecodeWords := by
  unfold Obligations.DecodeWords
  and_intros <;> rfl

end Sys2Proof
end

section
/-! SUPPORT. What a trap and a step do to the thread that acts (R12, R39, R46, R80), and the obligations on the system instructions, the reserved
words and the issue slot. -/

namespace Sys2Proof.Machine

/-! ### Folds over the entries of a register file -/

/-- A fold that changes entry i in its i-th step, and no other, has changed each of the first n entries once. -/
theorem foldl_range_read {σ β : Type} (read : σ → Nat → β) (g : σ → Nat → σ) (h : Nat → β → β) (n : Nat)
    (hg : ∀ w i, i < n → ∀ j, read (g w i) j = if i = j then h j (read w j) else read w j) (w : σ) (j : Nat) :
    read ((List.range n).foldl g w) j = if j < n then h j (read w j) else read w j := by
  induction n with
  | zero => simp
  | succ n ih =>
    have ih := ih fun w i hi => hg w i (by omega)
    rw [List.range_succ, List.foldl_append, List.foldl_cons, List.foldl_nil, hg _ n (by omega), ih]
    rcases Nat.lt_trichotomy j n with k | rfl | k
    · simp [k, Nat.ne_of_gt k, Nat.lt_succ_of_lt k]
    · simp
    · simp [Nat.ne_of_lt k, Nat.not_lt.2 (Nat.le_of_lt k), Nat.not_lt.2 k]

/-- An entry of a register file after a change of every entry. -/
theorem getElem?_vecMap {α : Type} {n : Nat} (f : Nat → α → α) (v : Vector α n) (i : Nat) : (vecMap f v)[i]? = (v[i]?).map (f i) := by
  unfold vecMap
  rw [foldl_range_read (fun (w : Vector α n) j => w[j]?) _ (fun j x => x.map (f j)) n]
  · split
    · rfl
    · next h => simp [Vector.getElem?_eq_none (Nat.not_lt.1 h)]
  · intro w i hi j
    by_cases h : i = j
    · subst h; simp [hi]
    · simp [hi, h]

theorem thr_of_ge (c : Core) {j : Nat} (h : 16 ≤ j) : c.thr j = Thread.free := by
  simp [Core.thr, Vector.getElem?_eq_none h]
theorem thr_updThr_core (c : Core) (f : Thread → Thread) {t : Nat} (h : t < 16) (j : Nat) :
    (c.updThr t f).thr j = if t = j then f (c.thr j) else c.thr j := by
  rw [Core.updThr, thr_setThr]
  by_cases e : t = j
  · subst e; simp [h]
  · simp [e]

/-! ### Waking the threads of a core -/

/-- The thread or context is parked for a reason that satisfies a test. -/
def parkedFor (p : Thread → Park → Bool) (t : Thread) : Bool :=
  match t.parkOf with
  | some w => p t w
  | none => false
/-- What waking does to one thread of a core, and to one of its spilled contexts. -/
def Core.wakeStep (p : Nat → Thread → Park → Bool) (c : Core) (t : Nat) : Core :=
  if parkedFor (p t) (c.thr t) then c.updThr t Thread.wakeUp else c
def Saved.wakeStep (p : Nat → Thread → Park → Bool) (x : Saved) : Saved :=
  if x.valid && parkedFor (p x.tid) x.thread then { x with ready := true } else x

theorem wakeBy_eq (c : Core) (p : Nat → Thread → Park → Bool) :
    c.wakeBy p = { (List.range 16).foldl (Core.wakeStep p) c with
      spills := ((List.range 16).foldl (Core.wakeStep p) c).spills.map (Saved.wakeStep p) } := by
  have hc : Core.wakeStep p = fun (c : Core) (t : Nat) => match (c.thr t).parkOf with
      | some w => if p t (c.thr t) w then c.updThr t Thread.wakeUp else c
      | none => c := by
    funext c t; unfold Core.wakeStep parkedFor; split <;> simp_all
  have hx : Saved.wakeStep p = fun (x : Saved) => match x.thread.parkOf with
      | some w => if x.valid && p x.tid x.thread w then { x with ready := true } else x
      | none => x := by
    funext x; unfold Saved.wakeStep parkedFor; split <;> simp_all
  rw [hc, hx]
  rfl

/-- Waking reaches the threads that are parked for a reason that satisfies the test, and no other. -/
theorem thr_wakeBy (c : Core) (p : Nat → Thread → Park → Bool) {j : Nat} (hj : j < 16) :
    (c.wakeBy p).thr j = if parkedFor (p j) (c.thr j) then (c.thr j).wakeUp else c.thr j := by
  have hd := foldl_range_read Core.thr (Core.wakeStep p) (fun j t => if parkedFor (p j) t then t.wakeUp else t) 16 ?_ c j
  · rw [wakeBy_eq]
    generalize (List.range 16).foldl (Core.wakeStep p) c = d at hd
    rw [if_pos hj] at hd
    exact hd
  intro c i hi j
  unfold Core.wakeStep
  by_cases e : i = j
  · subst e; split <;> simp_all [thr_updThr_core]
  · split <;> simp_all [thr_updThr_core]
/-- Waking changes nothing of a core but its threads and whether its spilled contexts are restorable. -/
theorem rest_wakeBy (c : Core) (p : Nat → Thread → Park → Bool) :
    ({ c.wakeBy p with threads := c.threads, spills := c.spills } : Core) = c ∧
    (c.wakeBy p).spills = c.spills.map (Saved.wakeStep p) := by
  have h : ∀ (l : List Nat) (d : Core), ({ l.foldl (Core.wakeStep p) d with threads := d.threads } : Core) = d := by
    intro l
    induction l with
    | nil => intro d; rfl
    | cons t l ih =>
      intro d
      rw [List.foldl_cons]
      have e : ({ Core.wakeStep p d t with threads := d.threads } : Core) = d := by
        unfold Core.wakeStep; split <;> rfl
      exact (congrArg (fun (x : Core) => ({ x with threads := d.threads } : Core)) (ih _)).trans e
  have hs := h (List.range 16) c
  rw [wakeBy_eq]
  generalize (List.range 16).foldl (Core.wakeStep p) c = d at hs
  constructor
  · exact (congrArg (fun (x : Core) => ({ x with spills := c.spills } : Core)) hs)
  · have e := congrArg Core.spills hs
    exact congrArg (List.map (Saved.wakeStep p)) e
theorem ready_wakeStep (p : Nat → Thread → Park → Bool) (x : Saved) :
    ({ x.wakeStep p with ready := false } : Saved) = { x with ready := false } := by
  unfold Saved.wakeStep; split <;> rfl

/-! ### An abandoned instruction (R117, R250) -/

/-- What abandoning its instruction changes: the waiting writers of the landing registers, and, where it had begun, the windows that it had
claimed and who waits for a window. -/
structure Core.Abandoned (c d : Core) (t : Nat) : Prop where
  rest : ({ d with threads := c.threads, landing := c.landing, windows := c.windows, spills := c.spills } : Core) = c
  landing : ∀ i : Nat, (d.landing[i]?).map (fun x => (x.data, x.full)) = (c.landing[i]?).map (fun x => (x.data, x.full))
  unbegun : (c.thr t).progress.begun = false → d.windows = c.windows ∧ d.spills = c.spills ∧ ∀ j, j ≠ t → d.thr j = c.thr j
  threads : ∀ j, j ≠ t → d.thr j = c.thr j ∨ (∃ i, (c.thr j).parkOf = some (.window i)) ∧ d.thr j = (c.thr j).wakeUp
  spills : d.spills.map (fun x => ({ x with ready := false } : Saved)) = c.spills.map (fun x => ({ x with ready := false } : Saved))


/-- The change of the landing registers with which an instruction is abandoned. -/
theorem landing_abandon (v : Vector LandReg 32) (t i : Nat) :
    ((vecMap (fun _ (x : LandReg) => { x with waiters := x.waiters.filter (fun w => w ≠ Writer.putl t) }) v)[i]?).map (fun x => (x.data, x.full)) =
      (v[i]?).map (fun x => (x.data, x.full)) := by
  rw [getElem?_vecMap, Option.map_map]; rfl
theorem parkOf_of_parkedFor {p : Thread → Park → Bool} {t : Thread} (h : parkedFor p t = true) : ∃ w, t.parkOf = some w ∧ p t w = true := by
  unfold parkedFor at h; split at h
  · exact ⟨_, by assumption, h⟩
  · cases h
/-- A change of the abandoning thread itself is none of the others'. -/
theorem Core.Abandoned.updThr {c d : Core} {t : Nat} (h : c.Abandoned d t) (f : Thread → Thread) : c.Abandoned (d.updThr t f) t where
  rest := h.rest
  landing := h.landing
  unbegun hb := by
    obtain ⟨hw, hs, ht⟩ := h.unbegun hb
    exact ⟨hw, hs, fun j hj => (thr_setThr_ne d _ hj).trans (ht j hj)⟩
  threads j hj := by rw [Core.updThr, thr_setThr_ne d _ hj]; exact h.threads j hj
  spills := h.spills
/-- The windows change only where the instruction had begun; then threads that wait for a window wake up. -/
theorem abandoned_wakeIf {c : Core} {t : Nat} (hb : (c.thr t).progress.begun = true) (l : Vector LandReg 32) (w : Vector Window 8)
    (hl : ∀ i : Nat, (l[i]?).map (fun x => (x.data, x.full)) = (c.landing[i]?).map (fun x => (x.data, x.full))) :
    c.Abandoned (({ c with landing := l, windows := w } : Core).wakeIf (fun _ k => match k with | .window _ => true | _ => false)) t := by
  generalize hp : (fun (_ : Nat) (k : Park) => match k with | .window _ => true | _ => false) = p
  have hwin : ∀ j k, p j k = true → ∃ i, k = .window i := fun j k h => by
    subst hp; dsimp only at h; split at h
    · exact ⟨_, rfl⟩
    · cases h
  generalize he : ({ c with landing := l, windows := w } : Core) = e
  unfold Core.wakeIf
  obtain ⟨hr, hs⟩ := rest_wakeBy e (fun t _ w => p t w)
  generalize hd : e.wakeBy (fun t _ w => p t w) = d at hr hs
  refine ⟨?_, ?_, ?_, ?_, ?_⟩
  · have := congrArg (fun (x : Core) => ({ x with landing := c.landing, windows := c.windows } : Core)) hr
    subst he; exact this
  · have := congrArg Core.landing hr
    subst he; intro i; rw [show d.landing = l from this]; exact hl i
  · intro h; rw [hb] at h; cases h
  · intro j _
    rw [← show e.thr j = c.thr j by subst he; rfl, ← hd]
    rcases Nat.lt_or_ge j 16 with h | h
    · rw [thr_wakeBy _ _ h]
      split
      · next hk =>
        obtain ⟨k, hk, hpk⟩ := parkOf_of_parkedFor hk
        obtain ⟨i, rfl⟩ := hwin j k hpk
        exact .inr ⟨⟨i, hk⟩, rfl⟩
      · exact .inl rfl
    · rw [thr_of_ge _ h, thr_of_ge _ h]; exact .inl rfl
  · rw [hs, List.map_map]; subst he
    exact List.map_congr_left fun x _ => ready_wakeStep _ x
theorem abandoned_abandon (c : Core) (t : Nat) : c.Abandoned (c.abandon t) t := by
  unfold Core.abandon
  refine Core.Abandoned.updThr ?_ _
  have hl := landing_abandon c.landing t
  generalize vecMap (fun _ (x : LandReg) => { x with waiters := x.waiters.filter (fun w => w ≠ Writer.putl t) }) c.landing = l at hl
  dsimp only
  split
  · next h =>
    refine abandoned_wakeIf ?_ l _ hl
    obtain ⟨x, _, hx⟩ := Vector.any_eq_true.1 h
    simp only [Bool.and_eq_true] at hx
    exact hx.1.1
  · exact ⟨rfl, hl, fun _ => ⟨rfl, rfl, fun _ _ => rfl⟩, fun _ _ => .inl rfl, rfl⟩
theorem wakeUp_done (t : Thread) : ({ t.wakeUp with resume := false, progress := Progress.none } : Thread) =
    { t with resume := false, progress := Progress.none } := by
  unfold Thread.wakeUp; split <;> rfl
theorem thr_abandon (c : Core) {t : Nat} (h : t < 16) : (c.abandon t).thr t = { c.thr t with resume := false, progress := Progress.none } := by
  unfold Core.abandon
  rw [thr_updThr_core _ _ h, if_pos rfl]
  generalize vecMap _ c.landing = l
  dsimp only
  split
  · generalize hw : vecMap _ c.windows = w
    generalize hd : ({ c with landing := l, windows := w } : Core) = d
    rw [← show d.thr t = c.thr t by subst hd; rfl, Core.wakeIf, thr_wakeBy _ _ h]
    split
    · exact wakeUp_done _
    · rfl
  · rfl
/-! ### Trap entry (R80) -/

theorem setCore_setCore (s : State) (c : Nat) (x y : Core) : (s.setCore c x).setCore c y = s.setCore c y := by
  simp only [State.setCore, setKey_setKey]
@[simp] theorem updCur_updCur (s : State) (f g : Core → Core) : (s.updCur f).updCur g = s.updCur (fun c => g (f c)) := by
  simp only [State.updCur, State.updCore, setCore_core, coreAt_setCore_self, setCore_setCore]
theorem updCur_congr (s : State) {f g : Core → Core} (h : f s.cur = g s.cur) : s.updCur f = s.updCur g := by
  rw [State.updCur, State.updCur, State.updCore, State.updCore, show s.coreAt s.core = s.cur from rfl, h]
/-- The core that a trap leaves: the instruction is abandoned, the damage of the trap registers is gone, and the thread's four trap registers and
its pc are written. -/
def Core.trapped (c : Core) (t cause : Nat) (val pc : Word) : Core :=
  (((c.abandon t).mend t trapRegs).updThr t (fun x => { x with
    ctl := x.ctl.trapped cause val pc x.inst, readyAt := c.cyc.toNat + 4, status := .ready, pc := x.ctl.trapvec })).refill t
theorem trapAt_of_hasHandler {s : State} (h : s.HasHandler) (ht : s.tid < 16) (cause : Nat) (val pc : Word) :
    s.trapAt cause val pc = s.updCur (·.trapped s.tid cause val pc) := by
  obtain ⟨h1, h2⟩ := h
  have hc : (s.cur.abandon s.tid).cyc = s.cur.cyc := by
    have := congrArg Core.cyc (abandoned_abandon s.cur s.tid).rest
    exact this
  unfold State.trapAt
  simp only [h1, Bool.false_or, beq_iff_eq, h2, if_false]
  rw [updThr_updThr _ _ _ (show (s.updCur _).tid < 16 from ht)]
  simp only [updThr_eq, State.refill, updCur_updCur, tid_updCur, cur_updCur]
  refine updCur_congr s ?_
  unfold Core.trapped
  rw [← hc]; rfl
/-- The thread that a trap leaves. -/
theorem thr_trapped (c : Core) {t : Nat} (h : t < 16) (cause : Nat) (val pc : Word) : ∃ buf,
    (c.trapped t cause val pc).thr t = { c.thr t with
      resume := false, progress := Progress.none, ctl := (c.thr t).ctl.trapped cause val pc (c.thr t).inst, readyAt := c.cyc.toNat + 4,
      status := .ready, pc := (c.thr t).ctl.trapvec, buf := buf } := by
  unfold Core.trapped Core.refill
  dsimp only
  rw [thr_updThr_core _ _ h, if_pos rfl, thr_updThr_core _ _ h, if_pos rfl]
  rw [show ((c.abandon t).mend t trapRegs).thr t = (c.abandon t).thr t from rfl, thr_abandon c h]
  exact ⟨_, rfl⟩
theorem thr_trapped_ne (c : Core) {t j : Nat} (h : j ≠ t) (cause : Nat) (val pc : Word) :
    (c.trapped t cause val pc).thr j = (c.abandon t).thr j := by
  unfold Core.trapped Core.refill Core.updThr
  dsimp only
  rw [thr_setThr_ne _ _ h, thr_setThr_ne _ _ h]
  rfl
theorem trapped_ctl (c : Ctl) {cause : Nat} (h : cause < 256) (val pc : Word) (inst : Word32) :
    c.Trapped cause val pc inst (c.trapped cause val pc inst) := by
  refine ⟨?_, rfl, rfl, rfl, rfl⟩
  have hb : cause.testBit 63 = false := Nat.testBit_lt_two_pow (by omega)
  have hand : BitVec.twoPow 64 63 &&& word cause = 0 := by
    refine BitVec.eq_of_getLsbD_eq fun i _ => ?_
    rw [BitVec.getLsbD_and, BitVec.getLsbD_twoPow, BitVec.getLsbD_ofNat]
    by_cases e : i = 63
    · simp [e, hb]
    · simp [Ne.symm e]
  exact (BitVec.add_eq_or_of_and_eq_zero (BitVec.twoPow 64 63) (word cause) hand).symm
/-- R80: the trap of a thread that has a handler. -/
theorem trapTaken_trapSt {s : State} (hs : s.tid < 16) (h : s.HasHandler) {cause : Nat} (hc : cause < 256) (val : Word) :
    s.TrapTaken (s.trapSt cause val) cause val := by
  have ha := abandoned_abandon s.cur s.tid
  obtain ⟨buf, ht⟩ := thr_trapped s.cur hs cause val s.thr.pc
  have hthr : (s.trapSt cause val).thr = (s.cur.trapped s.tid cause val s.thr.pc).thr s.tid := by
    rw [State.trapSt, trapAt_of_hasHandler h hs, State.thr, cur_updCur, tid_updCur]
  have hcur : (s.trapSt cause val).cur = s.cur.trapped s.tid cause val s.thr.pc := by
    rw [State.trapSt, trapAt_of_hasHandler h hs, cur_updCur]
  rw [ht] at hthr
  constructor
  case package => rw [State.trapSt, trapAt_of_hasHandler h hs]; rfl
  case cores => intro c n; rw [State.trapSt, trapAt_of_hasHandler h hs, coreAt_updCur_ne s _ n]
  case core => 
    rw [hcur]
    exact congrArg (fun (x : Core) => ({ x with badThread := s.cur.badThread } : Core)) ha.rest
  case damage => 
    rw [hcur]
    have e := congrArg (fun (x : Core) => (x.mend s.tid trapRegs).badThread) ha.rest
    exact e
  case landing => rw [hcur]; exact ha.landing
  case windows => 
    intro hb
    obtain ⟨hw, hsp, hj⟩ := ha.unbegun hb
    rw [hcur]
    exact ⟨hw, hsp, fun j n => (thr_trapped_ne s.cur n _ _ _).trans (hj j n)⟩
  case threads => intro j n; rw [hcur, thr_trapped_ne s.cur n]; exact ha.threads j n
  case spills => rw [hcur]; exact ha.spills
  case regs => rw [hthr]; exact trapped_ctl _ hc _ _ _
  case pc => rw [hthr]; rfl
  case status => rw [hthr]; exact ⟨rfl, rfl, rfl⟩
  case time => rw [hthr]
  case kept => rw [hthr]; rfl

/-! ### Reserved words (R21) -/

theorem decode_of_reserved {w : Word32}
    (h : (fld w 26 6).toNat = 0 ∨ (fld w 26 6).toNat = 0x3F ∨ 0x30 ≤ (fld w 26 6).toNat ∧ (fld w 26 6).toNat ≤ 0x3E) :
    decode w = .error .reservedOpcode := by
  unfold decode
  split
  case h_48 => rfl
  all_goals
    rename_i e
    rw [e] at h
    exact absurd h (by decide)
theorem runWord_of_error {s : State} {e : DecodeError} (h : decode s.thr.inst = .error e) : s.runWord = .next (s.trapSt 0x01 0) := by
  rw [State.runWord, h]; rfl

/-- Settles O55: decode refuses the word, and trap entry is that of R80. -/
theorem reservedWords : Obligations.ReservedWords := by
  unfold Obligations.ReservedWords
  intro s w hop
  have hd := decode_of_reserved hop
  have hr : s.thr.inst = w → s.runWord = .next (s.trapSt 0x01 0) := fun e => runWord_of_error (e ▸ hd)
  refine ⟨⟨_, hd⟩, hr, fun ht hh e => ⟨_, hr e, ?_⟩⟩
  have hT := trapTaken_trapSt ht hh (cause := 0x01) (by decide) 0
  obtain ⟨-, hval, hpc, hinst, -⟩ := hT.regs
  exact ⟨hT, hpc, e ▸ hinst, hval⟩

/-! ### The SYS group (R75 to R77) -/

theorem targetBad_of_legal {t : Word} (h : LegalPc t) : targetBad t = none := by
  obtain ⟨h4, hlm⟩ := h
  simp [targetBad, h4, Nat.not_lt.2 hlm]

theorem jump_thr (s : State) (n : Nat) (t : Word) (h : s.Placed) : (s.jump n t).thr =
    { s.thr with status := .ready, resume := false, progress := Progress.none, readyAt := s.cur.cyc.toNat + n, pc := t, buf := [] } := by
  rw [State.jump, thr_updThr (s.complete n) _ (show (s.complete n).tid < 16 from h), complete_thr s n h]
theorem onlyThread_jump (s : State) (n : Nat) (t : Word) : s.OnlyThread (s.jump n t) :=
  State.OnlyThread.trans (onlyThread_updThr s _) (onlyThread_updThr _ _)
/-- A thread that runs off the end of LM and one that does not: how an instruction that ends with `u` completes. -/
theorem completes_of_runOff {i : Instr} {s u : State} (h : exec i s = .next u.runOff) : Completes i s u := by
  rw [Completes, h, runOff_eq]

theorem systemLevel : Rules.SystemLevel := by
  intro s hs
  refine ⟨fun hl hpc => ?_, fun hl h4 => ?_, fun hl h4 hlm => ?_, fun hl => ?_, fun hl i hi => ?_⟩
  · let u := s.updCtl (fun c => { c with trapcause := c.trapcause &&& ~~~(1 <<< 63 : Word) })
    have hu : u.thr = { s.thr with ctl := { s.thr.ctl with trapcause := s.thr.ctl.trapcause &&& ~~~(1 <<< 63 : Word) } } := thr_updThr s _ hs
    have hj := jump_thr u 4 s.thr.ctl.trappc hs
    rw [hu] at hj
    have he : exec .eret s = .next (u.jump 4 s.thr.ctl.trappc) := by
      show execEret s = _
      rw [execEret, if_pos hl, State.returnFromTrap, jumpChecked, targetBad_of_legal hpc]
    refine ⟨_, he, (onlyThread_updThr s _).trans (onlyThread_jump u 4 _), ?_, ?_⟩
    · constructor
      case time => rw [hj]; exact congrArg (·.toNat + 4) (cyc_updThr s _)
      all_goals rw [hj]
      exact ⟨rfl, rfl, rfl⟩
    · rw [hj]; rfl
  · show execEret s = _
    simp [execEret, hl, State.returnFromTrap, jumpChecked, targetBad, h4, State.trap]
  · show execEret s = _
    simp [execEret, hl, State.returnFromTrap, jumpChecked, targetBad, h4, hlm, State.trap]
  · have hg := goOn_thr s 4 hs
    have ht := thr_updThr (s.goOn 4) (fun t => { t with status := .stopped .halt }) hs
    rw [hg] at ht
    refine ⟨_, completes_of_runOff (show execHalt s = _ by rw [execHalt, if_pos hl]), (onlyThread_goOn s 4).trans (onlyThread_updThr _ _), ?_⟩
    rw [ht]
    exact ⟨rfl, rfl, rfl⟩
  · have hr : execEret s = .next (s.trapSt 0x01 0) ∧ execHalt s = .next (s.trapSt 0x01 0) := by simp [execEret, execHalt, hl, State.trap]
    simp only [List.mem_cons, List.not_mem_nil, or_false] at hi
    rcases hi with rfl | rfl
    · exact hr.1
    · exact hr.2
/-- The damage of registers is kept beside the threads: mending it and changing a thread are done in any order. -/
theorem updThr_mend (s : State) (f : Thread → Thread) (l : List Nat) :
    (s.updThr f).updCur (·.mend s.tid l) = (s.updCur (·.mend s.tid l)).updThr f := by
  simp only [updThr_eq, updCur_updCur, tid_updCur]; rfl

theorem systemCalls : Rules.SystemCalls := by
  intro s c
  refine ⟨?_, fun hd => ?_, fun hs hd => ?_, rfl, fun hs => ?_⟩
  · rw [word, BitVec.ofNat_toNat]; rfl
  · show execBrk s = _
    simp [execBrk, hd, State.trap]
  · let m := s.updCur (·.mend s.tid trapRegs)
    let f : Thread → Thread := fun t => { t with
      status := .stopped .breakpoint, ctl := t.ctl.trapped breakpointTrap 0 s.thr.pc t.inst, readyAt := s.cur.cyc.toNat + 4 }
    have he : exec .brk s = .next (m.updThr f) := by
      show execBrk s = _
      rw [execBrk, if_pos (by simpa using hd), ← updThr_mend]
    have hm : m.thr = s.thr := by rw [State.thr, cur_updCur]; rfl
    have ht : (m.updThr f).thr = f s.thr := by rw [thr_updThr m f hs, hm]
    refine ⟨_, he, onlyThread_updThr m f, ?_⟩
    rw [ht]
    exact ⟨rfl, rfl, trapped_ctl _ (by decide) _ _ _, rfl⟩
  · obtain ⟨h1, h2, h3⟩ := updThr_goOn (s := s) (fun t => { t with buf := [] }) 4 rfl hs
    exact ⟨_, completes_of_next rfl, h1, h2, h3⟩

/-- Settles O9: each of the instructions runs to one of the shared ways to complete, jump, stop or trap. -/
theorem systemInstructions : Obligations.SystemInstructions := ⟨systemLevel, systemCalls⟩

/-! ### What an issue slot runs (R39, R46, R143) -/

/-- With no answer and no wait first, the agenda's head happens, or else what the state calls for. -/
theorem step_of_agendaNext {s : State} (h : AgendaNext s) : step s =
    match s.agenda with
    | a :: rest => s.agendaStep a rest
    | [] => (firstChange s (autoRows s)).getD s.nextSlot := by
  obtain ⟨hh, hg, hr⟩ := h
  unfold step State.stepMachine
  rw [hh, hg, hr]
  simp only [Bool.false_eq_true, if_false]
  split <;> simp_all
theorem step_of_slotDue {s : State} {c : Nat} {taken : State → State} (h : AgendaNext s) (hd : SlotDue s c taken) :
    step s = s.issueSlot c taken := by
  rw [step_of_agendaNext h]
  rcases hd with ⟨rest, ha, hdet, rfl⟩ | ⟨again, ha, hf, hn, rfl⟩
  · rw [ha]; simp [State.agendaStep, hdet]
  · rw [ha]; simp [hf, State.nextSlot, hn]
theorem issueSlot_of_resuming {s : State} {c : Nat} {taken : State → State} (hc : s.hub.coreReady (s.wheelCore c) = true)
    (hr : ((s.openSlot (s.wheelCore c)).coreAt (s.wheelCore c)).resuming ≠ none) :
    s.issueSlot c taken = .next (s.openSlot (s.wheelCore c)) := by
  simp [State.issueSlot, hc, Option.isSome_iff_ne_none.2 hr]
theorem issueSlot_of_pick {s : State} {c j : Nat} {taken : State → State} (hc : s.hub.coreReady (s.wheelCore c) = true)
    (hr : ((s.openSlot (s.wheelCore c)).coreAt (s.wheelCore c)).resuming = none)
    (hp : ((SlotOf s taken (s.wheelCore c)).coreAt (s.wheelCore c)).pick
      ((s.openSlot (s.wheelCore c)).dieAt (dieOf (s.wheelCore c))).det.isSome = some j) :
    s.issueSlot c taken = Res.after ((SlotOf s taken (s.wheelCore c)).issueThread (s.wheelCore c) j) (fun q => q.tick (s.wheelCore c)) := by
  unfold SlotOf at hp ⊢
  simp only [State.issueSlot, hc, hr, hp, Bool.not_true, Bool.false_eq_true, if_false, Option.isSome_none]

theorem tid_sampleEvent (s : State) (units : List Nat) (code : Nat) (fits : Nat → Bool) (n : Nat) :
    (s.sampleEvent units code fits n).tid = s.tid := by
  unfold State.sampleEvent
  induction units generalizing s with
  | nil => rfl
  | cons u l ih =>
    rw [List.foldl_cons, ih]
    dsimp only
    split <;> rfl
theorem tid_firstIssue (s : State) : s.firstIssue.tid = s.tid := by
  unfold State.firstIssue
  split
  · split
    · rfl
    · rw [State.updLaunch, updHub_tid, tid_sampleEvent]
  · rfl
theorem thr_threadOf (s : State) (taken : State → State) (k j : Nat) :
    (ThreadOf s taken k j).thr = ((SlotOf s taken k).coreAt k).thr j := by
  rw [ThreadOf, State.thr, cur_updCur]; rfl
theorem issueThread_threadOf (s : State) (taken : State → State) (k j : Nat) : (SlotOf s taken k).issueThread k j =
    if (ThreadOf s taken k j).thr.offEnd then
      .next ((ThreadOf s taken k j).trapAt fetchFault (ThreadOf s taken k j).thr.pc (ThreadOf s taken k j).thr.pc)
    else if ((ThreadOf s taken k j).cur.pendingEvent j).isSome then exec (.eventEntry k j) (ThreadOf s taken k j)
    else (ThreadOf s taken k j).firstIssue.issueWord := rfl
/-- The word at the head of the buffer, as it is taken: one that may not be fetched or is damaged traps, another runs. -/
theorem issueWord_of_buf {s : State} {w : Fetched} {ws : List Fetched}
    (h : (if s.thr.buf = [] then s.refill else s).thr.buf = w :: ws) :
    s.issueWord =
      let v := (if s.thr.buf = [] then s.refill else s).takeWord w
      if w.ok = false then .next (v.trapSt 0x04 v.thr.pc) else if w.bad = true then .next (v.trapSt 0x0F v.thr.pc) else v.runWord := by
  unfold State.issueWord
  simp only [List.isEmpty_iff]
  rw [h]
  obtain ⟨code, ok, bad⟩ := w
  cases ok <;> cases bad <;> rfl
theorem inst_takeWord {s : State} (h : s.tid < 16) (w : Fetched) : (s.takeWord w).thr.inst = w.code := by
  rw [State.takeWord, thr_updThr (s.updCur _) _ (show s.tid < 16 from h)]
/-- R39, R395: the instruction under execution is performed, unless it reads a damaged register and is none that its level or thread bars. -/
theorem runWord_of_decode {s : State} {i : Instr} (h : decode s.thr.inst = .ok i) :
    (s.cur.badThread = [] → s.runWord = exec i s) ∧
    (s.barred i = false → s.cur.damagedFor s.tid i = true → s.runWord = .next s.damageStop) ∧
    (s.barred i = true ∨ s.cur.damagedFor s.tid i = false → s.cur.badThread ≠ [] → s.runWord = Res.after (exec i s) (s.mendAfter i)) := by
  unfold State.runWord
  rw [h]
  refine ⟨fun hb => ?_, fun hb hd => ?_, fun hb hd => ?_⟩
  · simp [hb]
  · have : s.cur.badThread ≠ [] := fun h => by simp [Core.damagedFor, h] at hd
    simp [hb, hd, this]
  · rcases hb with hb | hb <;> simp [hb, hd]
theorem buf_refill (q : Core) {j : Nat} (h : j < 16) : ((q.refill j).thr j).buf.map (·.code) =
      (List.range 4).map (fun n => let a := (q.thr j).pc.toNat + 4 * n
        if a + 4 ≤ 0x40000 then BitVec.ofNat 32 (q.lmRead a 4) else 0) := by
  have hf : ∀ ok a, (fetchWord q ok a).code = if a + 4 ≤ 0x40000 then BitVec.ofNat 32 (q.lmRead a 4) else 0 := by
    intro ok a; unfold fetchWord; split <;> rfl
  unfold Core.refill
  dsimp only
  rw [thr_updThr_core _ _ h, if_pos rfl]
  simp [hf, List.range_succ]

theorem stepRunsDecoded_rule : Rules.StepRunsDecoded := by
  intro s c j rest w ws i taken ha
  refine ⟨fun hd hc => ⟨fun hr => ?_, fun hr hp hj => ?_⟩, fun hd hc => ?_, fun hg hdet => ?_, fun hg => ⟨fun ho => ?_, fun ho => ?_⟩,
    fun q hj => buf_refill q hj⟩
  · rw [step_of_slotDue ha hd, issueSlot_of_resuming hc hr]
  · have hs := (step_of_slotDue ha hd).trans (issueSlot_of_pick hc hr hp)
    rw [issueThread_threadOf, Thread.offEnd, thr_threadOf] at hs
    refine ⟨fun hpc => ?_, fun hpc he => ?_, fun hpc he hb => ?_⟩
    · rw [hs]; simp [hpc]; rfl
    · rw [hs]; simp [hpc, Option.isSome_iff_ne_none.2 he]
    · simp only [beq_iff_eq, hpc, if_false, he, Option.isSome_none, Bool.false_eq_true, issueWord_of_buf hb] at hs
      generalize hy : (if (ThreadOf s taken (s.wheelCore c) j).firstIssue.thr.buf = [] then (ThreadOf s taken (s.wheelCore c) j).firstIssue.refill
          else (ThreadOf s taken (s.wheelCore c) j).firstIssue) = y at hs ⊢
      have ht : (y.takeWord w).tid = j := by
        rw [← hy]
        split <;> exact tid_firstIssue (ThreadOf s taken (s.wheelCore c) j)
      refine ⟨fun hok => ?_, fun hok hbad => ?_, fun hok hbad hdec => ?_⟩
      · rw [hs, if_pos hok]; rfl
      · rw [hs, if_neg (by simp [hok]), if_pos hbad]; rfl
      · rw [if_neg (by simp [hok]), if_neg (by simp [hbad])] at hs
        rw [← inst_takeWord (s := y) (show (y.takeWord w).tid < 16 from ht ▸ hj) w] at hdec
        obtain ⟨h1, h2, h3⟩ := runWord_of_decode hdec
        rw [ht] at h2 h3
        refine ⟨fun hb => ?_, fun hb hd => ?_, fun hb hd => ?_⟩
        · rw [hs, h1 hb]
        · rw [hs, h2 hb hd]; rfl
        · rw [hs, h3 hb hd]
  · rw [step_of_slotDue ha hd]; simp [State.issueSlot, hc]
  · rw [step_of_agendaNext ha, hg]; simp [State.agendaStep, hdet]
  · rw [step_of_agendaNext ha, hg]; simp [State.agendaStep, ho]
  · rw [step_of_agendaNext ha, hg]; simp [State.agendaStep, ho]
/-- A wait that decides nothing of how its instruction ends: the word runs again. -/
theorem resumeThread_of_ending (s : State) {c j : Nat} (h : ({ s with core := c, tid := j } : State).thr.progress.ending = none) :
    s.resumeThread c j = Res.after ({ s with core := c, tid := j } : State).runWord
      (fun u => (u.sampleLoad { s with core := c, tid := j }).soon) := by
  unfold State.resumeThread
  simp only [h]
theorem stepResumes : Rules.StepResumes := by
  intro s c j i hh hg hr v hb he hd
  have hw := (runWord_of_decode (s := v) hd).1 hb
  unfold step State.stepMachine
  rw [hh, hg, hr]
  exact (resumeThread_of_ending s he).trans (by rw [hw])

/-- Settles O60: the agenda and the issue slot come down to the word at the head of the buffer, and that to its instruction. -/
theorem stepRunsDecoded : Obligations.StepRunsDecoded := ⟨stepRunsDecoded_rule, stepResumes⟩

end Sys2Proof.Machine
end

section
/-! SUPPORT. A core to which nothing happens at the start of its cycle, the placement of a word after reset (log 14), and the obligation on the
next step. -/

namespace Sys2Proof.Machine

/-! ### Nothing is due at the start of a cycle -/

/-- Nothing of a core ends or begins with its cycle: no thread is parked, no context is spilled, no table, mark or window is under way, and no writer
waits. -/
structure Core.Calm (c : Core) : Prop where
  threads : ∀ j, (c.thr j).parkOf = none
  spills : c.spills = []
  tables : c.dtNext = []
  marks : c.marks = []
  windows : ∀ i : Nat, ∀ x, c.windows[i]? = some x → x.state ≠ .filling
  landing : ∀ i, (c.land i).waiters = []

theorem foldl_fixed {σ β : Type} (f : σ → β → σ) (s : σ) (h : ∀ b, f s b = s) (l : List β) : l.foldl f s = s := by
  induction l with
  | nil => rfl
  | cons b l ih => rw [List.foldl_cons, h, ih]
theorem wakeBy_of_calm {c : Core} (h : c.Calm) (p : Nat → Thread → Park → Bool) : c.wakeBy p = c := by
  have hf : (List.range 16).foldl (Core.wakeStep p) c = c :=
    foldl_fixed _ c (fun t => by simp [Core.wakeStep, parkedFor, h.threads t]) _
  rw [wakeBy_eq, hf, h.spills]
  exact congrArg (fun x => ({ c with spills := x } : Core)) h.spills.symm
theorem expiry_of_parkOf {t : Thread} (h : t.parkOf = none) : t.expiry = none := by
  cases e : t.status <;> simp_all [Thread.parkOf, Thread.expiry]
theorem expire_of_calm {s : State} {k : Nat} (h : (s.coreAt k).Calm) (t : Nat) : s.expire k t = s := by
  simp only [State.expire, expiry_of_parkOf (h.threads t)]
theorem expireSaved_of_calm {s : State} {k : Nat} (h : (s.coreAt k).Calm) (hp : s.hub.pool = []) : s.expireSaved k = s.setCore k (s.coreAt k) := by
  have hc : (s.updCore k fun c => { c with spills := c.spills.map (fun (y : Saved) => y.expire (s.coreAt k).cyc.toNat) }) =
      s.setCore k (s.coreAt k) := by
    rw [State.updCore]
    refine congrArg (s.setCore k) ?_
    rw [h.spills, List.map_nil]
    exact congrArg (fun x => ({ s.coreAt k with spills := x } : Core)) h.spills.symm
  unfold State.expireSaved
  dsimp only
  rw [hc]
  unfold State.updPool
  simp only [setCore_hub, hp, List.map_nil, List.foldl_nil]
  exact congrArg (fun x => ({ s.setCore k (s.coreAt k) with hub := { s.hub with pool := x } } : State)) hp.symm
theorem openTables_of_calm {c : Core} (h : c.Calm) : c.openTables = c := by
  simp only [Core.openTables, h.tables, List.filter_nil, List.foldl_nil]
  exact congrArg (fun x => ({ c with dtNext := x } : Core)) h.tables.symm
theorem openWindows_of_calm {c : Core} (h : c.Calm) : c.openWindows = c := by
  have hw : ∀ i : Nat, (c.windows[i]?).any c.filled = false := fun i => by
    cases e : c.windows[i]? with
    | none => rfl
    | some x => simp [Core.filled, h.windows i x e]
  unfold Core.openWindows
  rw [if_neg (by simp [hw])]
theorem markCore_of_calm {s : State} {k : Nat} (h : (s.coreAt k).Calm) (hl : s.hub.launches = []) : s.markCore k = s.setCore k (s.coreAt k) := by
  unfold State.markCore
  simp only [hl, List.filter_nil, List.any_nil, List.map_nil, List.append_nil, State.updCore, List.filter_false]
  exact congrArg (fun x => s.setCore k { s.coreAt k with marks := x }) h.marks.symm
theorem openSlot_of_calm {s : State} {k : Nat} (h : (s.coreAt k).Calm) (hp : s.hub.pool = []) (hl : s.hub.launches = []) :
    s.openSlot k = s.setCore k (s.coreAt k) := by
  have hu : (s.setCore k (s.coreAt k)).updCore k (fun c => c.openTables.openWindows) = s.setCore k (s.coreAt k) := by
    rw [State.updCore, coreAt_setCore_self, openTables_of_calm h, openWindows_of_calm h, setCore_setCore]
  have hm : (s.setCore k (s.coreAt k)).markCore k = s.setCore k (s.coreAt k) := by
    rw [markCore_of_calm (s := s.setCore k (s.coreAt k)) (by rwa [coreAt_setCore_self]) hl, coreAt_setCore_self, setCore_setCore]
  unfold State.openSlot
  rw [foldl_fixed _ s (expire_of_calm h), expireSaved_of_calm h hp]
  dsimp only
  rw [hu]
  simp only [coreAt_setCore_self, h.landing, List.isEmpty_nil, Bool.not_true, List.filter_false, List.foldl_nil]
  exact hm
theorem resuming_of_calm {c : Core} (h : c.Calm) : c.resuming = none := by
  simp only [Core.resuming, h.threads, Option.isSome_none, Bool.and_false, List.filter_false]
  rfl

/-! ### A word placed after reset (log 14) -/

theorem calm_fresh : Core.fresh.Calm := by
  refine ⟨fun j => ?_, rfl, rfl, rfl, fun i x h => ?_, fun i => ?_⟩
  · rcases Nat.lt_or_ge j 16 with h | h
    · revert j; decide +kernel
    · rw [thr_of_ge _ h]; rfl
  · simp only [Core.fresh, Vector.getElem?_replicate] at h
    split at h
    · obtain rfl := Option.some.inj h; decide
    · cases h
  · simp only [Core.land, Core.fresh, Vector.getElem?_replicate]
    split <;> rfl

/-- What keeps a core calm: the parts that `Core.Calm` speaks of, told apart. -/
theorem Core.Calm.of_eq {c d : Core} (h : c.Calm) (ht : ∀ j, (d.thr j).parkOf = none) (hs : d.spills = c.spills) (hn : d.dtNext = c.dtNext)
    (hm : d.marks = c.marks) (hw : d.windows = c.windows) (hl : ∀ i, (d.land i).waiters = (c.land i).waiters) : d.Calm :=
  ⟨ht, hs.trans h.spills, hn.trans h.tables, hm.trans h.marks, hw ▸ h.windows, fun i => (hl i).trans (h.landing i)⟩

/-- The thread that `withWord` makes ready, before its buffer is filled. -/
def Thread.placed (x : Thread) (t w : Nat) : Thread :=
  { x with
    status := .ready, system := t != 15, pc := word (wordAddr w), readyAt := 0, progress := Progress.none,
    task := if t = 15 then none else some ⟨0, 0, []⟩, ctl := { x.ctl with kslot := 0, evmask := 0 } }
/-- The core of reset with a word in LM, and nothing else done to it yet. -/
def placedLm (w : Nat) : Core := Core.fresh.lmStore (wordAddr w) (bytesOfNat 4 (w % 2 ^ 32))
/-- The core of `withWord`, before the buffer of its thread is filled. -/
def placedCore (w : Nat) : Core :=
  let c := (placedLm w).updThr (wordThread w) (·.placed (wordThread w) w)
  { c with attrs := if wordThread w = 15 then [] else [(2, .code 0)], last := (wordThread w + 15) % 16, badLm := [], badThread := [] }

theorem wordThread_cases (w : Nat) : wordThread w = 15 ∧ wordAddr w = 0x3F000 ∨ wordThread w = 0 ∧ wordAddr w = 0x400 := by
  unfold wordAddr wordThread
  split <;> simp
theorem wordThread_lt (w : Nat) : wordThread w < 16 := by
  rcases wordThread_cases w with ⟨h, _⟩ | ⟨h, _⟩ <;> omega
theorem calm_placedLm (w : Nat) : (placedLm w).Calm := calm_fresh.of_eq calm_fresh.threads rfl rfl rfl rfl (fun _ => rfl)
theorem thr_placedCore (w j : Nat) : (placedCore w).thr j =
    if wordThread w = j then (Core.fresh.thr j).placed (wordThread w) w else Core.fresh.thr j :=
  thr_updThr_core (placedLm w) (·.placed (wordThread w) w) (wordThread_lt w) j
theorem calm_placedCore (w : Nat) : (placedCore w).Calm := by
  refine (calm_placedLm w).of_eq (fun j => ?_) rfl rfl rfl rfl (fun _ => rfl)
  rw [thr_placedCore]
  split
  · rfl
  · exact calm_fresh.threads j
theorem withWord_eq (w : Nat) : Core.fresh.withWord w = (placedCore w).refill (wordThread w) := by
  unfold Core.withWord placedCore
  dsimp only
  rw [Core.lmPut, Core.wakeIf]
  rw [show Core.fresh.lmStore (wordAddr w) (bytesOfNat 4 (w % 2 ^ 32)) = placedLm w from rfl, wakeBy_of_calm (calm_placedLm w)]
  rcases wordThread_cases w with ⟨h, _⟩ | ⟨h, _⟩ <;> rw [h] <;> rfl

theorem natOfBytes_bytesOfNat (n x : Nat) : natOfBytes (bytesOfNat n x) = x % 256 ^ n := by
  induction n generalizing x with
  | zero => simp [bytesOfNat, natOfBytes, Nat.mod_one]
  | succ n ih =>
    rw [bytesOfNat, natOfBytes, ih, Nat.pow_succ, Nat.mul_comm (256 ^ n), Nat.mod_mul]
    simp
theorem lmRead_placedLm (w : Nat) : (placedLm w).lmRead (wordAddr w) 4 = w % 2 ^ 32 := by
  have h : (bytesOfNat 4 (w % 2 ^ 32)).length = 4 := rfl
  have hr := memRead_memWrite lmDefault Core.fresh.lm (wordAddr w) (bytesOfNat 4 (w % 2 ^ 32))
  rw [h] at hr
  show natOfBytes (memRead lmDefault (memWrite lmDefault Core.fresh.lm (wordAddr w) (bytesOfNat 4 (w % 2 ^ 32))) (wordAddr w) 4) = _
  rw [hr, natOfBytes_bytesOfNat]
  omega
theorem pc_placedCore (w : Nat) : ((placedCore w).thr (wordThread w)).pc.toNat = wordAddr w := by
  rw [thr_placedCore, if_pos rfl]
  show (word (wordAddr w)).toNat = _
  rcases wordThread_cases w with ⟨_, h⟩ | ⟨_, h⟩ <;> rw [h] <;> rfl
theorem fetchOk_placedCore (w : Nat) : (placedCore w).fetchOk (wordThread w) (wordAddr w) = true := by
  unfold Core.fetchOk Core.attr
  rw [thr_placedCore, if_pos rfl, show (placedCore w).attrs = if wordThread w = 15 then [] else [(2, .code 0)] from rfl]
  rcases wordThread_cases w with ⟨h, h'⟩ | ⟨h, h'⟩ <;> rw [h, h'] <;> rfl
/-- The word is read from LM sound, and from a block that its thread may fetch from. -/
theorem fetchWord_placedCore (w : Nat) :
    fetchWord (placedCore w) ((placedCore w).fetchOk (wordThread w)) (wordAddr w) = ⟨BitVec.ofNat 32 w, true, false⟩ := by
  have hr : (placedCore w).lmRead (wordAddr w) 4 = w % 2 ^ 32 := lmRead_placedLm w
  have hb : (placedCore w).lmBad (wordAddr w) 4 = none := rfl
  unfold fetchWord
  rw [if_pos (by rcases wordThread_cases w with ⟨_, h⟩ | ⟨_, h⟩ <;> rw [h] <;> decide), hr, hb, fetchOk_placedCore]
  exact congrArg (fun x => (⟨x, true, false⟩ : Fetched)) (BitVec.eq_of_toNat_eq (by simp))
theorem Core.Calm.refill {c : Core} (h : c.Calm) {t : Nat} (ht : t < 16) : (c.refill t).Calm := by
  refine h.of_eq (fun j => ?_) rfl rfl rfl rfl (fun _ => rfl)
  rw [Core.refill, thr_updThr_core _ _ ht]
  split <;> exact h.threads j
theorem thr_still (c : Core) (j : Nat) : c.still.thr j = c.thr j := by simp only [Core.still, Core.thr]
theorem Core.Calm.still {c : Core} (h : c.Calm) : c.still.Calm := by
  refine h.of_eq (fun j => by rw [thr_still, h.threads]) ?_ ?_ ?_ ?_ (fun i => ?_)
  case refine_5 =>
    simp only [Core.still, Core.land, getElem?_vecMap]
    cases c.landing[i]? with
    | none => rfl
    | some x =>
      simp only [Option.map_some, Option.getD_some]
      split <;> rfl
  all_goals simp only [Core.still]
theorem thr_quiet (c : Core) (j : Nat) : c.quiet.thr j = { c.thr j with resume := false } := by
  simp only [Core.quiet, Core.thr, getElem?_vecMap]
  cases c.threads[j]? <;> rfl
theorem Core.Calm.quiet {c : Core} (h : c.Calm) : c.quiet.Calm := by
  refine h.of_eq (fun j => by rw [thr_quiet]; exact h.threads j) ?_ ?_ ?_ ?_ (fun i => ?_)
  all_goals simp only [Core.quiet, Core.land]

/-- The state of reset with a core of die 0 in use, whose issue slot the agenda asks for. -/
def State.withCore0 (c : Core) : State :=
  { State.reset with
    hub := { Hub.reset with ready1 := 8, sec := { Security.reset with hold := false } }, dies := [(0, { Die.fresh with det := none })],
    cores := [(0, c)], agenda := [.issue 0] }
/-- The core that the placement leaves. -/
def readyCore (w : Nat) : Core := ((placedCore w).refill (wordThread w)).still.quiet
theorem calm_readyCore (w : Nat) : (readyCore w).Calm := ((calm_placedCore w).refill (wordThread_lt w)).still.quiet
theorem withFetchWord_reset {w : Nat} (h : w < 2 ^ 32) : State.reset.withFetchWord 32 w = State.withCore0 (readyCore w) := by
  rw [State.withFetchWord, Nat.mod_eq_of_lt h, State.placeWord]
  dsimp only
  set s := (State.reset.updDie 0 fun d => { d with det := none }).updHub fun h =>
    { h with ready1 := h.ready1 ||| 8, sec := { h.sec with hold := false } }
  have hc : (s.updCore 0 fun c => (c.withWord w).still).coreAt 0 = ((placedCore w).refill (wordThread w)).still := by
    rw [State.updCore, coreAt_setCore_self, ← withWord_eq]
    rfl
  rw [openSlot_of_calm (hc ▸ ((calm_placedCore w).refill (wordThread_lt w)).still) rfl rfl, hc, State.updCore, setCore_setCore]
  unfold readyCore
  generalize ((placedCore w).refill (wordThread w)).still = e
  rfl
/-- The thread of the word, as the next step finds it. -/
theorem thr_readyCore (w : Nat) : ∃ ws, (readyCore w).thr (wordThread w) =
    { (Core.fresh.thr (wordThread w)).placed (wordThread w) w with resume := false, buf := ⟨BitVec.ofNat 32 w, true, false⟩ :: ws } := by
  rw [readyCore, thr_quiet, thr_still, Core.refill]
  dsimp only
  rw [thr_updThr_core _ _ (wordThread_lt w), if_pos rfl, pc_placedCore, fetchWord_placedCore, thr_placedCore, if_pos rfl]
  exact ⟨_, rfl⟩
theorem last_readyCore (w : Nat) : (readyCore w).last = (wordThread w + 15) % 16 := by
  simp only [readyCore, Core.quiet, Core.still]
  rfl
theorem badThread_readyCore (w : Nat) : (readyCore w).badThread = [] := by
  simp only [readyCore, Core.quiet, Core.still]
  rfl
theorem pick_readyCore (w : Nat) : (readyCore w).pick false = some (wordThread w) := by
  have he : (readyCore w).eligible (wordThread w) = true := by
    obtain ⟨ws, ht⟩ := thr_readyCore w
    simp [Core.eligible, ht, Thread.placed]
  have hl : ((readyCore w).last + 0 + 1) % 16 = wordThread w := by
    have := wordThread_lt w
    rw [last_readyCore]
    omega
  rw [Core.pick, if_neg Bool.false_ne_true, List.range_succ_eq_map, List.map_cons, hl]
  exact List.find?_cons_of_pos he
theorem pendingEvent_readyCore (w : Nat) : (readyCore w).pendingEvent (wordThread w) = none := by
  obtain ⟨ws, ht⟩ := thr_readyCore w
  simp [Core.pendingEvent, ht, Thread.placed]

/-! ### The next step runs it -/

/-- What using the slot does: the agenda is over. -/
def agendaDone (s : State) : State := { s with agenda := [] }
/-- The state in which a thread of the placed core issues. -/
def State.issuing (c : Core) (j : Nat) : State := { State.withCore0 { c with last := j } with agenda := [], tid := j }
theorem coreReady_withCore0 (c : Core) : (State.withCore0 c).hub.coreReady 0 = true := by
  show Hub.coreReady { Hub.reset with ready1 := 8, sec := { Security.reset with hold := false } } 0 = true
  decide
theorem openSlot_withCore0 {c : Core} (h : c.Calm) : (State.withCore0 c).openSlot 0 = State.withCore0 c :=
  openSlot_of_calm (s := State.withCore0 c) h rfl rfl
theorem slotOf_withCore0 {c : Core} (h : c.Calm) : SlotOf (State.withCore0 c) agendaDone 0 = agendaDone (State.withCore0 c) := by
  rw [SlotOf, openSlot_withCore0 h]
  rfl
theorem threadOf_withCore0 {c : Core} (h : c.Calm) (j : Nat) : ThreadOf (State.withCore0 c) agendaDone 0 j = State.issuing c j := by
  rw [ThreadOf, slotOf_withCore0 h]
  rfl
theorem thr_issuing (c : Core) (j : Nat) : (State.issuing c j).thr = c.thr j := rfl
theorem firstIssue_issuing (c : Core) (j : Nat) : (State.issuing c j).firstIssue = State.issuing c j := by
  have hl : (State.issuing c j).curLaunch.bind (State.issuing c j).launchAt = none := by
    cases (State.issuing c j).curLaunch <;> rfl
  unfold State.firstIssue
  rw [hl]
/-- The state in which the placed word is performed. -/
def State.performing (w : Nat) : State :=
  (State.issuing (readyCore w) (wordThread w)).takeWord ⟨BitVec.ofNat 32 w, true, false⟩
theorem step_withFetchWord {w : Nat} {i : Instr} (hw : w < 2 ^ 32) (hd : decode (BitVec.ofNat 32 w) = .ok i) :
    step (State.reset.withFetchWord 32 w) = Res.after (exec i (State.performing w)) (fun q => q.tick 0) := by
  have hq := calm_readyCore w
  obtain ⟨ws, ht⟩ := thr_readyCore w
  have hb := congrArg Thread.buf ht
  have ha : AgendaNext (State.withCore0 (readyCore w)) := by
    refine ⟨rfl, rfl, ?_⟩
    simp only [State.withCore0, resumingIn, resuming_of_calm hq]
  have hs : SlotDue (State.withCore0 (readyCore w)) 0 agendaDone := .inl ⟨[], rfl, rfl, rfl⟩
  have hx := threadOf_withCore0 hq (wordThread w)
  have hr := resuming_of_calm hq
  have hp := pick_readyCore w
  have hpc : ((readyCore w).thr (wordThread w)).pc.toNat ≠ 0x40000 := by
    rw [ht]
    show (word (wordAddr w)).toNat ≠ 0x40000
    rcases wordThread_cases w with ⟨_, h⟩ | ⟨_, h⟩ <;> rw [h] <;> decide
  rw [withFetchWord_reset hw]
  have hrule := (stepRunsDecoded_rule (State.withCore0 (readyCore w)) 0 (wordThread w) [] ⟨BitVec.ofNat 32 w, true, false⟩ ws i agendaDone ha).1 hs
  rw [show (State.withCore0 (readyCore w)).wheelCore 0 = 0 from rfl, hx, openSlot_withCore0 hq, slotOf_withCore0 hq, firstIssue_issuing,
    thr_issuing, hb, if_neg (List.cons_ne_nil _ _)] at hrule
  obtain ⟨-, h⟩ := hrule (coreReady_withCore0 _)
  obtain ⟨-, -, h⟩ := h hr hp (wordThread_lt w)
  obtain ⟨-, -, h⟩ := h hpc (pendingEvent_readyCore w) hb
  exact (h rfl rfl hd).1 (badThread_readyCore w)
theorem rd_fresh (j : Nat) (r : Reg) : (Core.fresh.thr j).rd r = 0 := by
  rcases Nat.lt_or_ge j 16 with h | h
  · revert r; revert j; decide +kernel
  · rw [thr_of_ge _ h]; revert r; decide +kernel
theorem thr_performing (w : Nat) : ∃ buf, (State.performing w).thr =
    { (Core.fresh.thr (wordThread w)).placed (wordThread w) w with resume := false, inst := BitVec.ofNat 32 w, buf := buf } := by
  obtain ⟨ws, ht⟩ := thr_readyCore w
  have hj := wordThread_lt w
  rw [State.performing, State.takeWord, thr_updThr _ _ (show wordThread w < 16 from hj), State.thr, cur_updCur]
  show ∃ buf, ({ (Core.popWord { readyCore w with last := wordThread w } (wordThread w)).thr (wordThread w) with
    inst := BitVec.ofNat 32 w } : Thread) = _
  rw [Core.popWord]
  dsimp only
  rw [thr_updThr_core _ _ hj, if_pos rfl, show ({ readyCore w with last := wordThread w } : Core).thr (wordThread w) = _ from ht]
  exact ⟨_, rfl⟩

/-- Settles O58: after reset nothing else is due, so the next step is the issue slot of the placed thread. -/
theorem placedWordRuns : Obligations.PlacedWordRuns := by
  unfold Obligations.PlacedWordRuns
  intro w i hw hd
  have ht : w / 2 ^ 26 = 0x2C ↔ wordThread w = 15 := by
    unfold wordThread
    rw [Nat.mod_eq_of_lt hw]
    split
    · next h => exact ⟨fun _ => rfl, fun _ => h⟩
    · next h => exact ⟨fun k => absurd k h, fun k => absurd k (by decide)⟩
  obtain ⟨buf, hp⟩ := thr_performing w
  simp only [ht]
  refine ⟨State.performing w, step_withFetchWord hw hd, rfl, ?_, by rw [hp], by rw [hp]; rfl, ?_, fun r => ?_⟩
  · show wordThread w = _
    rcases wordThread_cases w with ⟨h, _⟩ | ⟨h, _⟩ <;> simp [h]
  · rw [hp]
    show word (wordAddr w) = _
    rcases wordThread_cases w with ⟨h, h'⟩ | ⟨h, h'⟩ <;> rw [h, h'] <;> rfl
  · rw [State.rd, hp]
    exact rd_fresh (wordThread w) r

end Sys2Proof.Machine
end

section
/-! SUPPORT. The XF words (R316, R332, R333): what a hand-over, the status words and a cancel do, and the obligation on them. -/

namespace Sys2Proof.Machine

/-! ### The hand-over of a copy command (R316) -/

theorem onCopyThread_of_eq {s : State} (h : s.tid = 15) (k : Unit → Res) : onCopyThread s k = k () := if_pos h
theorem onCopyThread_of_ne {s : State} (h : s.tid ≠ 15) (k : Unit → Res) : onCopyThread s k = .next (s.trapSt 0x01 0) := if_neg h
/-- The state with a command at the end of the queue of the engine and the seed of t15 stepped, before the word completes. -/
def State.queued (v : State) (x : CopyCmd) : State :=
  (({ v with nextId := v.nextId + 1 } : State).updCur (fun k => { k with cq := k.cq ++ [x] })).updCtl (fun k => { k with seed := xsStep k.seed })
/-- What a hand-over does with its command, once the claim is told apart. -/
theorem handOver_eq (s : State) (fn : Nat) (a b c : Reg) : handOver fn a b c s = onCopyThread s fun _ =>
    let x := CopyOf s fn a c (s.rd b)
    let room := match ClaimOf x with
      | some (tn, lo, hi) => (s.dieAt (dieOf s.core)).claimRoom tn lo hi
      | none => true
    let claimed := match ClaimOf x with
      | some (tn, lo, hi) => s.addClaim s.core x.id tn lo hi
      | none => s
    if 4 ≤ s.cur.cq.length || !room || claimed.jam then s.park .engineQueue
    else (claimed.queued x).next 4 := by
  have ht : (if (decide (fn ≠ 4) && (s.rd b).getLsbD 1) = true then s.cur.table else []) =
      if fn ≠ 4 ∧ (s.rd b).getLsbD 1 = true then s.cur.table else [] := by simp
  unfold handOver
  rw [ht]
  rfl

/-- The claim of a command is registered, if it makes one, and room for it was found. -/
def Claimed (s : State) (x : CopyCmd) (v : State) : Prop :=
  v.jam = false ∧ ((ClaimOf x = none ∧ v = s) ∨ ∃ tn lo hi, ClaimOf x = some (tn, lo, hi) ∧ (s.dieAt (dieOf s.core)).claimRoom tn lo hi = true ∧
    v = s.addClaim s.core x.id tn lo hi)
theorem handOver_of_claimed {s v : State} {fn : Nat} {a b c : Reg} (ht : s.tid = 15) (hq : s.cur.cq.length < 4)
    (hv : Claimed s (CopyOf s fn a c (s.rd b)) v) : handOver fn a b c s = (v.queued (CopyOf s fn a c (s.rd b))).next 4 := by
  rw [handOver_eq, onCopyThread_of_eq ht]
  generalize CopyOf s fn a c (s.rd b) = x at hv ⊢
  obtain ⟨hj, ⟨hc, rfl⟩ | ⟨tn, lo, hi, hc, hr, rfl⟩⟩ := hv
  · simp only [hc, hj, Nat.not_le.2 hq, decide_false, Bool.not_true, Bool.or_false, Bool.false_eq_true, if_false]
  · simp only [hc, hr, hj, Nat.not_le.2 hq, decide_false, Bool.not_true, Bool.or_false, Bool.false_eq_true, if_false]
theorem handOver_of_full {s : State} {fn : Nat} {a b c : Reg} (ht : s.tid = 15) (hq : 4 ≤ s.cur.cq.length) :
    handOver fn a b c s = .next (s.parkSt .engineQueue) := by
  rw [handOver_eq, onCopyThread_of_eq ht]
  simp only [hq, decide_true, Bool.true_or, if_true, State.park]
theorem handOver_of_noRoom {s : State} {fn : Nat} {a b c : Reg} (ht : s.tid = 15) {tn lo hi : Nat}
    (hc : ClaimOf (CopyOf s fn a c (s.rd b)) = some (tn, lo, hi))
    (hr : (s.dieAt (dieOf s.core)).claimRoom tn lo hi = false ∨ (s.addClaim s.core (CopyOf s fn a c (s.rd b)).id tn lo hi).jam = true) :
    handOver fn a b c s = .next (s.parkSt .engineQueue) := by
  rw [handOver_eq, onCopyThread_of_eq ht]
  generalize CopyOf s fn a c (s.rd b) = x at hc hr ⊢
  rcases hr with hr | hr <;> simp [hc, hr, State.park]

/-- An instruction that ends in a change of the current thread's state: how it completes, told from an earlier state with the same pc and cycle. -/
theorem done_goOn_of_eq {s v : State} (n : Nat) (h : v.Placed) (hpc : v.thr.pc = s.thr.pc) (hcyc : v.cur.cyc = s.cur.cyc) : s.Done (v.goOn n) n := by
  obtain ⟨hr, hp, ht⟩ := done_goOn v n h
  exact ⟨hr, hp.trans (by rw [hpc]), ht.trans (by rw [hcyc])⟩
theorem claims_of_claimed {s v : State} {x : CopyCmd} (hv : Claimed s x v) {tn lo hi : Nat} (hc : ClaimOf x = some (tn, lo, hi)) :
    ⟨s.core, x.id, tn, lo, hi, lo⟩ ∈ (v.dieAt (dieOf s.core)).claims := by
  obtain ⟨-, ⟨hn, -⟩ | ⟨tn', lo', hi', hs, -, rfl⟩⟩ := hv
  · simp [hn] at hc
  · obtain ⟨rfl, rfl, rfl⟩ : tn' = tn ∧ lo' = lo ∧ hi' = hi := by simpa [hs] using hc
    simp only [State.addClaim, State.updDie, dieAt_setDie_self, List.mem_append, List.mem_singleton, or_true]
/-- What a state with a command queued holds: the queue, the seed, and for the rest what was there. -/
theorem queued_goOn {v : State} (x : CopyCmd) (hp : v.Placed) :
    let u := (v.queued x).goOn 4
    v.Done u 4 ∧ u.cur.cq = v.cur.cq ++ [x] ∧ u.dies = v.dies ∧
      u.thr.holds = ({ v.thr with ctl := { v.thr.ctl with seed := xsStep v.thr.ctl.seed } } : Thread).holds ∧
      (∀ j, j ≠ v.tid → u.cur.thr j = v.cur.thr j) ∧ u.cur.lm = v.cur.lm ∧ (∀ k, k ≠ v.core → u.coreAt k = v.coreAt k) ∧
      ({ u with cores := v.cores, nextId := v.nextId } : State) = v := by
  intro u
  let w : State := ({ v with nextId := v.nextId + 1 } : State).updCur (fun k => { k with cq := k.cq ++ [x] })
  have hcur : w.cur = { v.cur with cq := v.cur.cq ++ [x] } := cur_updCur _ _
  have hthr : w.thr = v.thr := by rw [State.thr, hcur]; rfl
  obtain ⟨ho, hd, hh⟩ := updThr_goOn (s := w) (fun t => { t with ctl := { t.ctl with seed := xsStep t.ctl.seed } }) 4 rfl hp
  have hq := congrArg Core.cq ho.core
  have hl := congrArg Core.lm ho.core
  have hdies := congrArg State.dies ho.package
  have hrest := congrArg (fun z : State => ({ z with cores := v.cores, nextId := v.nextId } : State)) ho.package
  refine ⟨?_, ?_, hdies, ?_, fun j hj => ?_, ?_, fun k hk => ?_, ?_⟩
  · exact ⟨hd.ready, hthr ▸ hd.pc, hd.time.trans (by rw [hcur])⟩
  · exact hq.trans (by rw [hcur])
  · rw [← hthr]; exact hh
  · exact (ho.threads j hj).trans (by rw [hcur]; rfl)
  · exact hl.trans (by rw [hcur])
  · exact (ho.cores k hk).trans (coreAt_updCur_ne _ _ hk)
  · exact hrest
/-- The words, with the chain word that each gives. -/
theorem copyWords_handOver {s : State} {a b c : Reg} {e : Instr × Nat × Option Reg} (h : e ∈ CopyWords a b c) : ∃ r,
    exec e.1 s = handOver e.2.1 a r c s ∧ (match e.2.2 with | some r => s.rd r | none => 0) = s.rd r := by
  simp only [CopyWords, List.mem_cons, List.not_mem_nil, or_false] at h
  rcases h with rfl | rfl | rfl | rfl | rfl | rfl
  case inr.inr.inr.inr.inl => exact ⟨0, rfl, rfl⟩
  all_goals exact ⟨b, rfl, rfl⟩

theorem copyIssue : Rules.CopyIssue := by
  intro s a b c hj e he x d
  obtain ⟨r, hex, hch⟩ := copyWords_handOver (s := s) he
  have hx : x = CopyOf s e.2.1 a c (s.rd r) := congrArg (CopyOf s e.2.1 a c) hch
  rw [hx, hex]
  generalize hy : CopyOf s e.2.1 a c (s.rd r) = y
  refine ⟨fun ht => ?_, fun ht hq => handOver_of_full ht hq, fun ht tn lo hi hc hr => ?_, fun ht hq v hv => ?_⟩
  · rw [handOver_eq, onCopyThread_of_ne ht]
  · subst hy; exact handOver_of_noRoom ht hc hr
  · have hcl : Claimed s y v := by
      rcases hv with ⟨hc, rfl⟩ | ⟨tn, lo, hi, hc, hr, hv, hvj, -⟩
      · exact ⟨hj, .inl ⟨hc, rfl⟩⟩
      · exact ⟨hvj, .inr ⟨tn, lo, hi, hc, hr, hv⟩⟩
    have hsame : v.core = s.core ∧ v.tid = s.tid ∧ v.thr = s.thr ∧ v.cur.cq = s.cur.cq := by
      rcases hv with ⟨-, rfl⟩ | ⟨-, -, -, -, -, -, -, h⟩
      · exact ⟨rfl, rfl, rfl, rfl⟩
      · exact h
    obtain ⟨hcore, htid, hthr, hcq⟩ := hsame
    obtain ⟨hd, hcq', hdies, hh, hj, hlm, hk, hrest⟩ := queued_goOn y (show v.tid < 16 by omega)
    refine ⟨_, completes_of_next (hex.trans ?_), hd, hcq'.trans (by rw [hcq]), fun tn lo hi hc => ?_, hthr ▸ hh, fun j hj' => hj j (by omega), hlm,
      fun k hk' => hk k (hcore ▸ hk'), hrest⟩
    · subst hy; exact handOver_of_claimed ht hq hcl
    · rw [State.dieAt, hdies]; exact claims_of_claimed hcl hc

/-! ### Waking, across the package -/

/-- From `c` to `d` some threads have been woken and some spilled contexts have become restorable, and nothing else has changed. -/
structure Core.Woken (c d : Core) : Prop where
  rest : ({ d with threads := c.threads, spills := c.spills } : Core) = c
  threads : ∀ j, d.thr j = c.thr j ∨ d.thr j = (c.thr j).wakeUp
theorem Core.Woken.refl (c : Core) : c.Woken c := ⟨rfl, fun _ => .inl rfl⟩
theorem woken_wakeBy (c : Core) (p : Nat → Thread → Park → Bool) : c.Woken (c.wakeBy p) := by
  refine ⟨(rest_wakeBy c p).1, fun j => ?_⟩
  rcases Nat.lt_or_ge j 16 with h | h
  · rw [thr_wakeBy c p h]
    split
    · exact .inr rfl
    · exact .inl rfl
  · rw [thr_of_ge _ h, thr_of_ge _ h]
    exact .inl rfl
theorem woken_wakeEngines (c : Core) : c.Woken c.wakeEngines := by
  unfold Core.wakeEngines Core.wakeIf
  exact woken_wakeBy _ _
theorem pc_wakeUp (t : Thread) : t.wakeUp.pc = t.pc := by unfold Thread.wakeUp; split <;> rfl
theorem Core.Woken.pc {c d : Core} (h : c.Woken d) (j : Nat) : (d.thr j).pc = (c.thr j).pc := by
  rcases h.threads j with e | e <;> rw [e]
  exact pc_wakeUp _
/-- What a core keeps when it is woken, of the parts that the copy engine speaks of. -/
theorem Core.Woken.kept {c d : Core} (h : c.Woken d) : d.cq = c.cq ∧ d.copyDone = c.copyDone ∧ d.copyFailed = c.copyFailed ∧ d.cyc = c.cyc := by
  have h1 := congrArg Core.cq h.rest
  have h2 := congrArg Core.copyDone h.rest
  have h3 := congrArg Core.copyFailed h.rest
  have h4 := congrArg Core.cyc h.rest
  exact ⟨h1, h2, h3, h4⟩
/-- From `s` to `t` cores have at most been woken, and no write has been sent. -/
structure State.Woken (s t : State) : Prop where
  net : t.net = s.net
  core : t.core = s.core
  tid : t.tid = s.tid
  cores : ∀ k, (s.coreAt k).Woken (t.coreAt k)
theorem getKey_map {β : Type} (l : List (Nat × β)) (f : Nat → β → β) (k : Nat) :
    getKey (l.map fun e => (e.1, f e.1 e.2)) k = (getKey l k).map (f k) := by
  induction l with
  | nil => rfl
  | cons e l ih =>
    simp only [List.map_cons, getKey]
    split
    · next h => rw [h]; rfl
    · exact ih
/-- A change of the swapped contexts writes their records (R391), and nothing else of the package but the hub's list. -/
theorem updPool_memoryOnly (s : State) (f : Nat → Saved → Saved) :
    ({ s with hub := { s.hub with pool := s.hub.pool.map (fun e => (e.1, f e.1 e.2)) } } : State).MemoryOnly (s.updPool f) := by
  unfold State.updPool
  dsimp only
  generalize ({ s with hub := { s.hub with pool := s.hub.pool.map (fun e => (e.1, f e.1 e.2)) } } : State) = t
  generalize s.hub.pool = l
  induction l generalizing t with
  | nil => exact memoryOnly_refl t
  | cons e l ih =>
    rw [List.foldl_cons]
    refine State.MemoryOnly.trans ?_ (ih _)
    split
    · exact memoryOnly_refl t
    · exact dramWrite_memoryOnly t _ _ _
/-- Waking over the listed cores and the swapped contexts: an unlisted core has nothing to wake. -/
theorem woken_map_updPool (s : State) (p : Nat → Nat → Thread → Park → Bool) (f : Nat → Saved → Saved) :
    s.Woken (({ s with cores := s.cores.map (fun e => (e.1, e.2.wakeBy (p e.1))) } : State).updPool f) := by
  have hm := updPool_memoryOnly { s with cores := s.cores.map (fun e => (e.1, e.2.wakeBy (p e.1))) } f
  have hnet := congrArg State.net hm
  refine ⟨hnet, hm.core_eq, hm.tid_eq, fun k => ?_⟩
  rw [State.coreAt, State.coreAt, hm.cores_eq]
  dsimp only
  rw [getKey_map s.cores fun c x => x.wakeBy (p c)]
  cases getKey s.cores k with
  | none => exact Core.Woken.refl _
  | some c => exact woken_wakeBy c (p k)
theorem woken_wakeIf (s : State) (p : Nat → Nat → Park → Bool) : s.Woken (s.wakeIf p) := by
  unfold State.wakeIf State.wakeBy
  exact woken_map_updPool s (fun c t _ w => p c t w) _
theorem State.Woken.refl (s : State) : s.Woken s := ⟨rfl, rfl, rfl, fun _ => Core.Woken.refl _⟩
theorem woken_dropClaims (s : State) (core cmd : Nat) : s.Woken (s.dropClaims core cmd) := by
  unfold State.dropClaims
  dsimp only
  split
  · generalize hd : s.updDie _ _ = t
    have h := woken_wakeIf t (fun _ _ w => match w with
      | .reply | .drain | .engineQueue => true
      | _ => false)
    subst hd
    exact ⟨h.net, h.core, h.tid, h.cores⟩
  · exact State.Woken.refl s

/-! ### XCAN (R333) -/

/-- A command that has ended, and only waits to leave the engine. -/
def CopyCmd.ended (x : CopyCmd) : Bool :=
  match x.stop with
  | .status st _ _ => x.over st
  | .page _ _ _ _ _ | .hold _ _ => false
/-- What a selector does to a command of the queue: a running one that it matches is marked cancelled. -/
def CopyCmd.marking (sel : Word) (x : CopyCmd) : CopyCmd := if x.started && x.selected sel && !x.ended then x.cancel else x
def State.marking (s : State) (sel : Word) : State := s.updCur (fun c => { c with cq := c.cq.map (·.marking sel) })
theorem execXcan_eq (a : Reg) (s : State) : execXcan a s = onCopyThread s fun _ =>
    guardTrap s (trapIf (bits (s.rd a) 63 13 ≠ 0) operandInvalid (s.rd a)) fun _ =>
    (((s.marking (s.rd a)).cur.cq.filter (fun x => !x.started && x.selected (s.rd a))).foldl
      (fun (s : State) x => s.finishCopy s.core x 9 0 false) (s.marking (s.rd a))).next 4 := rfl
theorem exec_xcan {s : State} {a : Reg} (ht : s.tid = 15) (hb : bits (s.rd a) 63 13 = 0) : exec (.xcan a) s =
    (((s.marking (s.rd a)).cur.cq.filter (fun x => !x.started && x.selected (s.rd a))).foldl
      (fun (s : State) x => s.finishCopy s.core x 9 0 false) (s.marking (s.rd a))).next 4 := by
  show execXcan a s = _
  rw [execXcan_eq, onCopyThread_of_eq ht]
  simp [hb, trapIf, guardTrap]
theorem selected_iff (x : CopyCmd) (sel : Word) : x.selected sel = true ↔
    sel.getLsbD 12 = true ∨ (bits sel 11 4 = bits x.target 11 4 ∧ bits sel 3 0 = bits x.target 3 0) := by
  simp [CopyCmd.selected, CopyCmd.tag, CopyCmd.tthread]
theorem cur_marking (s : State) (sel : Word) : (s.marking sel).cur = { s.cur with cq := s.cur.cq.map (·.marking sel) } := cur_updCur _ _
theorem thr_marking (s : State) (sel : Word) : (s.marking sel).thr = s.thr := by rw [State.thr, cur_marking]; rfl
/-- A queue in which the selector marks nothing is left as it is. -/
theorem onlyThread_marking {s : State} {sel : Word} (h : s.cur.cq.map (·.marking sel) = s.cur.cq) : s.OnlyThread (s.marking sel) where
  package := rfl
  cores c n := coreAt_updCur_ne _ _ n
  core := by rw [cur_marking, h]
  threads j n := by rw [cur_marking]; rfl
theorem xcan_none {s : State} {a : Reg} (ht : s.tid = 15) (hb : bits (s.rd a) 63 13 = 0)
    (hq : ∀ x ∈ s.cur.cq, x.selected (s.rd a) = false) : Passes (.xcan a) s 4 := by
  have hp : s.Placed := by show s.tid < 16; omega
  have hm : s.cur.cq.map (·.marking (s.rd a)) = s.cur.cq :=
    (List.map_congr_left (g := id) fun x hx => by simp [CopyCmd.marking, hq x hx]).trans (List.map_id _)
  have hg : (s.marking (s.rd a)).cur.cq.filter (fun x => !x.started && x.selected (s.rd a)) = [] := by
    rw [cur_marking, hm, List.filter_eq_nil_iff]
    intro x hx
    simp [hq x hx]
  have ho := onlyThread_marking hm
  have he := exec_xcan ht hb
  rw [hg, List.foldl_nil] at he
  refine ⟨_, completes_of_next he, ho.trans (onlyThread_goOn _ 4), done_goOn_of_eq 4 hp (by rw [thr_marking]) (by rw [cur_marking]), ?_⟩
  rw [goOn_thr _ 4 (show (s.marking (s.rd a)).tid < 16 from hp), thr_marking]
  rfl
/-- The only command of the queue runs, and stays there as the selector marks it. -/
theorem xcan_running {s : State} {a : Reg} {x y : CopyCmd} (ht : s.tid = 15) (hb : bits (s.rd a) 63 13 = 0) (hq : s.cur.cq = [x])
    (hy : x.marking (s.rd a) = y) (hs : y.started = true) :
    ∃ u, Completes (.xcan a) s u ∧ s.Done u 4 ∧ u.net = s.net ∧ u.cur.cq = [y] := by
  have hp : (s.marking (s.rd a)).Placed := by show s.tid < 16; omega
  have hm : (s.marking (s.rd a)).cur.cq = [y] := by rw [cur_marking, hq, List.map_singleton, hy]
  have he := exec_xcan ht hb
  rw [hm, List.filter_cons_of_neg (by simp [hs]), List.filter_nil, List.foldl_nil] at he
  have hc := congrArg Core.cq (onlyThread_goOn (s.marking (s.rd a)) 4).core
  exact ⟨_, completes_of_next he, done_goOn_of_eq 4 hp (by rw [thr_marking]) (by rw [cur_marking]), rfl, hc.trans hm⟩
/-- A command leaves the engine as cancelled (R333): the counts, the message, and what else is left of the queue; what that wakes changes no pc. -/
theorem finishCopy_cancelled (s : State) (x : CopyCmd) :
    let v := s.finishCopy s.core x 9 0 false
    v.core = s.core ∧ v.tid = s.tid ∧ v.cur.cq = s.cur.cq.filter (fun y => y.id ≠ x.id) ∧ v.cur.copyDone = s.cur.copyDone + 1 ∧
      v.cur.copyFailed = s.cur.copyFailed + 1 ∧ v.cur.cyc = s.cur.cyc ∧ v.thr.pc = s.thr.pc ∧
      ∃ y, v.net = s.net ++ [y] ∧ y.dst = s.core ∧
        ∃ h, y.kind = .message ⟨h, word (9 * 2 ^ 60 + x.flags.toNat % 64 * 2 ^ 53 + x.done % 2 ^ 32), 0xFFFFFFFF, 0,
          (x.owner.map (·.2)).getD (s.cur.thr (bits x.target 3 0)).ctl.tenancy.toNat⟩ := by
  have hpay : completionPayload 9 0 false x.flags x.done = word (9 * 2 ^ 60 + x.flags.toNat % 64 * 2 ^ 53 + x.done % 2 ^ 32) := by
    simp [completionPayload]
  intro v
  let m := s.sendCompletion s.core x.tthread x.tag x.owner (completionPayload 9 0 false x.flags x.done)
  let g : Core → Core := fun c => { c with
    cq := c.cq.filter (fun y => y.id ≠ x.id), copyDone := c.copyDone + 1, copyFailed := c.copyFailed + 1 }
  let w := m.updCore s.core (fun c => (g c).wakeEngines)
  have hm : ∃ l, m.coreAt s.core = { s.cur with out := l } := ⟨_, coreAt_setCore_self s s.core _⟩
  obtain ⟨l, hm⟩ := hm
  have hw : w.coreAt s.core = (g { s.cur with out := l }).wakeEngines := by
    show (m.setCore s.core _).coreAt s.core = _
    rw [coreAt_setCore_self, hm]
  have hk : (g { s.cur with out := l }).Woken (w.coreAt s.core) := by rw [hw]; exact woken_wakeEngines _
  have hv : w.Woken v := woken_dropClaims w s.core x.id
  have hcore : v.core = s.core := hv.core
  have hc := hv.cores s.core
  obtain ⟨h1, h2, h3, h4⟩ := hk.kept
  obtain ⟨k1, k2, k3, k4⟩ := hc.kept
  rw [State.thr, State.cur, hcore, hv.tid, hc.pc, hk.pc]
  exact ⟨rfl, rfl, k1.trans h1, k2.trans h2, k3.trans h3, k4.trans h4, rfl, _, hv.net, rfl, _, by rw [← hpay]; rfl⟩
/-- The only command of the queue has not started, and leaves it with status 9. -/
theorem xcan_waiting {s : State} {a : Reg} {x : CopyCmd} (ht : s.tid = 15) (hb : bits (s.rd a) 63 13 = 0) (hq : s.cur.cq = [x])
    (hx : x.selected (s.rd a) = true) (hs : x.started = false) :
    ∃ u y, Completes (.xcan a) s u ∧ s.Done u 4 ∧ u.cur.cq = [] ∧ u.cur.copyDone = s.cur.copyDone + 1 ∧
      u.cur.copyFailed = s.cur.copyFailed + 1 ∧ u.net = s.net ++ [y] ∧ y.dst = s.core ∧
      ∃ h, y.kind = .message ⟨h, word (9 * 2 ^ 60 + x.flags.toNat % 64 * 2 ^ 53 + x.done % 2 ^ 32), 0xFFFFFFFF, 0,
          (x.owner.map (·.2)).getD (s.cur.thr (bits x.target 3 0)).ctl.tenancy.toNat⟩ := by
  have hm : (s.marking (s.rd a)).cur.cq = [x] := by rw [cur_marking, hq]; simp [CopyCmd.marking, hs]
  have he := exec_xcan ht hb
  rw [hm, List.filter_cons_of_pos (by simp [hs, hx]), List.filter_nil, List.foldl_cons, List.foldl_nil] at he
  obtain ⟨hcore, htid, hcq, hdone, hfail, hcyc, hpc, y, hnet, hdst, hkind⟩ := finishCopy_cancelled (s.marking (s.rd a)) x
  generalize (s.marking (s.rd a)).finishCopy (s.marking (s.rd a)).core x 9 0 false = v at *
  rw [cur_marking] at hdone hfail hcyc hkind
  have hp : v.Placed := by show v.tid < 16; rw [htid]; show s.tid < 16; omega
  have ho := (onlyThread_goOn v 4).core
  have hq' := congrArg Core.cq ho
  have hd' := congrArg Core.copyDone ho
  have hf' := congrArg Core.copyFailed ho
  refine ⟨_, y, completes_of_next he, done_goOn_of_eq 4 hp (hpc.trans (by rw [thr_marking])) hcyc, ?_, hd'.trans hdone,
    hf'.trans hfail, hnet, hdst, hkind⟩
  exact hq'.trans (hcq.trans (by rw [hm]; simp))
theorem marking_hold {x : CopyCmd} {sel : Word} {p : Nat} (hs : x.started = true) (hx : x.selected sel = true) (hp : x.part = some p)
    (hh : ∃ h e, x.stop = .hold h e) (ho : ∀ y ∈ x.out, y.unit = p) : x.marking sel = { x with ends := some p } := by
  obtain ⟨h, e, hh⟩ := hh
  have hf : frontStripe x.out = x.out := by
    cases hl : x.out with
    | nil => rfl
    | cons o l =>
      rw [hl] at ho
      refine List.takeWhile_eq_self_iff.2 fun y hy => ?_
      simp [ho y hy, ho o (List.mem_cons_self ..)]
  simp [CopyCmd.marking, CopyCmd.ended, CopyCmd.cancel, CopyCmd.reading, hs, hx, hp, hh, hf]
theorem marking_stopped {x : CopyCmd} {sel : Word} {o : CopyOut} {l : List CopyOut} (hs : x.started = true) (hx : x.selected sel = true)
    (hh : ∀ h e, x.stop ≠ .hold h e) (ho : x.out = o :: l) : x.marking sel =
      { x with
        out := if x.put = 1 then o :: l else if x.part.isSome then (o :: l).takeWhile (fun y => y.unit == o.unit) else [],
        stop := .status 9 0 false, held := if x.part.isSome then x.held else none } := by
  have he : x.ended = false := by
    unfold CopyCmd.ended CopyCmd.over
    split <;> simp [ho]
  have hr : x.reading = false := by
    unfold CopyCmd.reading
    split
    · next h => exact absurd h (hh _ _)
    all_goals rfl
  simp only [CopyCmd.marking, CopyCmd.cancel, hs, hx, he, hr, ho, frontStripe]
  simp

/-! ### XSTAT (R332) -/
theorem four_regs : ∀ a : Reg, a.toNat % 4 = 0 → a ≠ 0 → a + 1 ≠ 0 ∧ a + 2 ≠ 0 ∧ a + 3 ≠ 0 ∧ a ≠ a + 1 ∧ a ≠ a + 2 ∧ a ≠ a + 3 ∧
    a + 1 ≠ a + 2 ∧ a + 1 ≠ a + 3 ∧ a + 2 ≠ a + 3 := by decide
/-- Four registers in a row, written. -/
def Thread.wrFour (t : Thread) (a : Reg) (w x y z : Word) : Thread := (((t.wr a w).wr (a + 1) x).wr (a + 2) y).wr (a + 3) z
theorem wrFour_holds (t : Thread) (a : Reg) (w x y z : Word) : ∃ g gs, t.wrFour a w x y z = { t with g := g, gs := gs } := by
  obtain ⟨_, _, h1⟩ := wr_holds t a w
  obtain ⟨_, _, h2⟩ := wr_holds (t.wr a w) (a + 1) x
  obtain ⟨_, _, h3⟩ := wr_holds ((t.wr a w).wr (a + 1) x) (a + 2) y
  obtain ⟨g, gs, h4⟩ := wr_holds (((t.wr a w).wr (a + 1) x).wr (a + 2) y) (a + 3) z
  exact ⟨g, gs, by rw [Thread.wrFour, h4, h3, h2, h1]⟩
theorem rd_wrFour (t : Thread) {a : Reg} (h4 : a.toNat % 4 = 0) (h0 : a ≠ 0) (w x y z : Word) :
    (t.wrFour a w x y z).rd a = w ∧ (t.wrFour a w x y z).rd (a + 1) = x ∧ (t.wrFour a w x y z).rd (a + 2) = y ∧
    (t.wrFour a w x y z).rd (a + 3) = z ∧
    ∀ r, r ≠ a → r ≠ a + 1 → r ≠ a + 2 → r ≠ a + 3 → (t.wrFour a w x y z).rd r = t.rd r := by
  obtain ⟨n1, n2, n3, e1, e2, e3, e12, e13, e23⟩ := four_regs a h4 h0
  simp only [Thread.wrFour, rd_wr]
  refine ⟨by simp only [h0, e1, e2, e3, if_true, if_false], by simp only [n1, e12, e13, if_true, if_false],
    by simp only [n2, e23, if_true, if_false], by simp only [n3, if_true, if_false], fun r k0 k1 k2 k3 => ?_⟩
  by_cases hr : r = 0
  · simp only [hr, if_true]; rfl
  · simp only [hr, k0, k1, k2, k3, if_false]
theorem wrFour_goOn {s : State} {a : Reg} (hp : s.Placed) (h4 : a.toNat % 4 = 0) (h0 : a ≠ 0) (w x y z : Word) :
    let u := (s.updThr (·.wrFour a w x y z)).goOn 4
    s.OnlyThread u ∧ s.Done u 4 ∧ u.rd a = w ∧ u.rd (a + 1) = x ∧ u.rd (a + 2) = y ∧ u.rd (a + 3) = z ∧
      (∀ r, r ≠ a → r ≠ a + 1 → r ≠ a + 2 → r ≠ a + 3 → u.rd r = s.rd r) ∧
      u.thr.holds = ({ s.thr with g := u.thr.g, gs := u.thr.gs } : Thread).holds := by
  obtain ⟨g, gs, hf⟩ := wrFour_holds s.thr a w x y z
  obtain ⟨ho, hd, -⟩ := updThr_goOn (s := s) (·.wrFour a w x y z) 4 (by rw [hf]) hp
  have ht := goOn_thr (s.updThr (·.wrFour a w x y z)) 4 hp
  rw [thr_updThr s _ hp] at ht
  have hr : ∀ r, ((s.updThr (·.wrFour a w x y z)).goOn 4).rd r = (s.thr.wrFour a w x y z).rd r := fun r => by
    rw [State.rd, ht]
    rfl
  obtain ⟨h1, h2, h3, h4, h5⟩ := rd_wrFour s.thr h4 h0 w x y z
  refine ⟨ho, hd, (hr _).trans h1, (hr _).trans h2, (hr _).trans h3, (hr _).trans h4, fun r k0 k1 k2 k3 => (hr r).trans (h5 r k0 k1 k2 k3), ?_⟩
  rw [ht, hf]
  rfl
/-- The status word of the running command. -/
def xstatRun (q : List CopyCmd) : Nat := match q with
  | x :: _ => if x.started then x.done % 2 ^ 32 * 2 ^ 32 + bits x.target 3 0 * 2 ^ 12 + x.fn * 2 ^ 8 + 8 else 0
  | [] => 0
theorem exec_xstat {s : State} {a : Reg} (ht : s.tid = 15) (hd : s.det = false) : exec (.xstat a) s =
    (s.updThr (·.wrFour a (word (xstatRun s.cur.cq + s.cur.cq.length)) s.cur.copyDone s.cur.copyFailed
      (word ((s.cur.cq.filter (fun x => x.fn == 2 && x.put != 2)).length)))).next 4 := by
  have hp : s.tid < 16 := by omega
  have hw : ∀ w x y z, (((s.wr a w).wr (a + 1) x).wr (a + 2) y).wr (a + 3) z = s.updThr (·.wrFour a w x y z) := fun w x y z => by
    simp only [State.wr]
    rw [updThr_updThr s _ _ hp, updThr_updThr s _ _ hp, updThr_updThr s _ _ hp]
    rfl
  show execXstat a s = _
  rw [execXstat, onCopyThread_of_eq ht, if_neg (by simp [hd]), ← hw]
  rfl

theorem copyStatus : Rules.CopyStatus := by
  intro s a ht h4 h0 q sel hits
  have hp : s.Placed := by show s.tid < 16; omega
  have hsel : ∀ x, hits x ↔ x.selected sel = true := fun x => (selected_iff x sel).symm
  refine ⟨fun hd => ?_, fun hd => ?_, fun hb => ?_, fun hb hq => ?_, fun x hb hq hx =>
    ⟨fun hs => ?_, fun p hs hp hh ho => ?_, fun o l hs hh ho => ?_⟩⟩
  · show execXstat a s = _
    rw [execXstat, onCopyThread_of_eq ht, if_pos hd]
    rfl
  · have he := exec_xstat (a := a) ht hd
    exact ⟨_, completes_of_next he, wrFour_goOn hp h4 h0 _ _ _ _⟩
  · have hb' : bits (s.rd a) 63 13 ≠ 0 := hb
    show execXcan a s = _
    rw [execXcan_eq, onCopyThread_of_eq ht, trapIf, if_pos (by simpa using hb')]
    rfl
  · exact xcan_none ht hb fun x hx => by simpa [hsel] using hq x hx
  · exact xcan_waiting ht hb hq ((hsel x).1 hx) hs
  · exact xcan_running ht hb hq (marking_hold hs ((hsel x).1 hx) hp hh ho) hs
  · exact xcan_running ht hb hq (marking_stopped hs ((hsel x).1 hx) hh ho) hs

/-- Settles O41: the hand-over, the status words and the cancelling, each by what its meaning comes down to on t15. -/
theorem copyInstructions : Obligations.CopyInstructions := ⟨copyIssue, copyStatus⟩

end Sys2Proof.Machine
end

section
/-! SUPPORT. Each arm answers a next state: what the shared ways to go on answer, the meanings one by one, and the obligation on them. -/

namespace Sys2Proof.Machine

/-- The outcome is a next state. -/
def Answers (r : Res) : Prop := ∃ t, r = .next t

theorem answers_of_eq (t : State) : Answers (.next t) := ⟨t, rfl⟩
theorem answers_park (s : State) (w : Park) : Answers (s.park w) := ⟨_, rfl⟩
theorem answers_trap (s : State) (c : Nat) (v : Word) : Answers (s.trap c v) := ⟨_, rfl⟩
theorem answers_next (s : State) (n : Nat) : Answers (s.next n) := ⟨_, rfl⟩
theorem answers_ite {c : Prop} [Decidable c] {a b : Res} (ha : Answers a) (hb : Answers b) : Answers (if c then a else b) := by
  split
  · exact ha
  · exact hb
theorem answers_jumpChecked (s s' : State) (n : Nat) (t : Word) : Answers (jumpChecked s s' n t) := by
  unfold jumpChecked
  split <;> exact ⟨_, rfl⟩
theorem answers_guardTrap (s : State) (t : Option TrapOf) {k : Unit → Res} (hk : ∀ u, Answers (k u)) : Answers (guardTrap s t k) := by
  unfold guardTrap
  split
  · exact answers_trap ..
  · exact hk ()
theorem answers_pageFault (s : State) (acc : Access) (l : List PageMiss) : Answers (s.pageFault acc l) := by
  unfold State.pageFault
  exact answers_ite (answers_trap ..) (answers_park ..)
theorem answers_waitReds (s : State) (why : Park) : Answers (s.waitReds why) := by
  unfold State.waitReds
  dsimp only
  split
  · exact answers_park ..
  · split
    · exact answers_trap ..
    · exact answers_ite (answers_park ..) (answers_ite (answers_trap ..) (answers_park ..))
    · exact answers_park ..
theorem answers_finish (s : State) (n : Nat) : Answers (s.finish n) := by
  unfold State.finish
  exact answers_ite (answers_park ..) (answers_next ..)


section
variable {k : State → Res} (hk : ∀ s, Answers (k s))
include hk
theorem answers_withWindows (reads writes : List VCode) (early late : Option TrapOf) (s : State) :
    Answers (withWindows reads writes early late s k) := by
  unfold withWindows
  refine answers_guardTrap _ _ fun _ => ?_
  split
  · exact answers_park ..
  · exact answers_guardTrap _ _ fun _ => hk _
theorem answers_afterReds (why : Park) (s : State) : Answers (afterReds why s k) := by
  unfold afterReds
  exact answers_ite (hk s) (answers_waitReds s why)
theorem answers_afterPushes (s : State) : Answers (afterPushes s k) := by
  unfold afterPushes
  exact answers_ite (answers_park ..) (answers_ite (answers_park ..) (hk _))
theorem answers_afterPass (failed : State → State) (acc : Access) (r : State × Pass) : Answers (afterPass failed acc r k) := by
  unfold afterPass
  refine answers_ite (answers_pageFault ..) (answers_ite (answers_park ..) ?_)
  split
  · exact answers_trap ..
  · exact hk _
theorem answers_asked (asks : List (Nat × AskKind)) (s : State) : Answers (asked asks s k) := by
  unfold asked
  split
  · exact hk s
  · exact answers_park ..
  · exact answers_of_eq _
theorem answers_viaL1 (write : Bool) (l : List Elem) (s : State) : Answers (viaL1 write l s k) := by
  unfold viaL1
  exact answers_ite (hk s) (answers_asked hk ..)
theorem answers_runElemsOr (failed : State → State) (perform : Perform) (acc : Access) (l : List Elem) (s : State) :
    Answers (runElemsOr failed perform acc l s k) := by
  unfold runElemsOr
  exact answers_afterPass hk ..
theorem answers_runElems (perform : Perform) (acc : Access) (l : List Elem) (s : State) : Answers (runElems perform acc l s k) := by
  unfold runElems
  exact answers_runElemsOr hk ..
theorem answers_passL1 (pass : List Elem → State → State × Pass) (write : Bool) (acc : Access) (l : List Elem) (s : State) :
    Answers (passL1 pass write acc l s k) := by
  unfold passL1
  exact answers_ite (answers_afterPass hk ..) (answers_ite (answers_afterPass hk ..) (answers_ite (answers_park ..) (answers_of_eq _)))
theorem answers_runL1 (write : Bool) (perform : Perform) (acc : Access) (l : List Elem) (s : State) :
    Answers (runL1 write perform acc l s k) := by
  unfold runL1
  exact answers_viaL1 (fun _ => answers_passL1 hk ..) ..
theorem answers_runWhole (write : Bool) (perform : Perform) (acc : Access) (l : List Elem) (s : State) :
    Answers (runWhole write perform acc l s k) := by
  unfold runWhole
  exact answers_viaL1 (fun _ => answers_passL1 (fun _ => answers_runElems hk ..) ..) ..
theorem answers_runWords (reads : Bool) (perform : Perform) (acc : Access) (l : List Elem) (s : State) :
    Answers (runWords reads perform acc l s k) := by
  unfold runWords
  exact answers_ite (hk s) <| answers_asked (fun _ => answers_ite (answers_park ..) (answers_ite (answers_park ..) (answers_afterPass hk ..))) ..
theorem answers_releaseThen (sc : Scope) (r : Word) (s : State) : Answers (releaseThen sc r s k) := by
  unfold releaseThen
  refine answers_afterReds (fun s => answers_ite (answers_park ..) ?_) ..
  split
  · exact answers_park ..
  · exact answers_afterPushes hk _
theorem answers_checkDrops (sc : Scope) (r : Word) (s : State) : Answers (checkDrops sc r s k) := by
  unfold checkDrops
  exact answers_ite (answers_trap ..) (hk s)
theorem answers_withCredit (s : State) : Answers (withCredit s k) := by
  unfold withCredit
  exact answers_ite (answers_park ..) (hk s)
theorem answers_vectorAccessIf (due : State → Option Park) (reads writes : List VCode) (early late : Option TrapOf) (data aux : VReg) (s : State) :
    Answers (vectorAccessIf due reads writes early late data aux s k) := by
  unfold vectorAccessIf
  refine answers_ite (hk s) <| answers_guardTrap _ _ fun _ => answers_afterReds (fun s => ?_) ..
  split
  · exact answers_park ..
  · exact answers_withWindows (fun _ => hk _) ..
theorem answers_vectorAccess (reads writes : List VCode) (early late : Option TrapOf) (data aux : VReg) (s : State) :
    Answers (vectorAccess reads writes early late data aux s k) := by
  unfold vectorAccess
  exact answers_vectorAccessIf hk ..
theorem answers_drainAll (s : State) : Answers (drainAll s k) := by
  unfold drainAll
  exact answers_afterReds (fun s => answers_ite (answers_park ..) (hk s)) ..
theorem answers_accRows (a b : Word) (n : Nat) (l : List Nat) (s : State) : Answers (accRows a b n k l s) := by
  induction l generalizing s with
  | nil => exact hk s
  | cons r l ih => exact answers_ite (ih s) (answers_runWhole (fun _ => ih _) ..)
theorem answers_secCommand (code : Nat) (s : State) : Answers (secCommand code s k) := by
  unfold secCommand
  refine answers_ite (answers_of_eq _) ?_
  split
  · exact answers_ite (hk _) (answers_of_eq _)
  · exact hk s
end

theorem answers_unlessHold (s : State) {k : Unit → Res} (hk : ∀ u, Answers (k u)) : Answers (unlessHold s k) := by
  unfold unlessHold
  exact answers_ite (answers_of_eq _) (hk ())
theorem answers_unlessSealed (s : State) {k : Unit → Res} (hk : ∀ u, Answers (k u)) : Answers (unlessSealed s k) := by
  unfold unlessSealed
  exact answers_ite (answers_of_eq _) (hk ())
theorem answers_onCopyThread (s : State) {k : Unit → Res} (hk : ∀ u, Answers (k u)) : Answers (onCopyThread s k) := by
  unfold onCopyThread
  exact answers_ite (hk ()) (answers_trap ..)
theorem answers_withVersion (va v : Nat) (s : State) {k : Nat × Nat → VRegion → State → Res} (hk : ∀ key r s, Answers (k key r s)) :
    Answers (withVersion va v s k) := by
  unfold withVersion
  split
  · exact answers_trap ..
  · refine answers_ite (hk ..) ?_
    split
    · exact hk ..
    · exact answers_trap ..
    · exact answers_park ..
theorem answers_withRegion (va : Word) (s : State) {k : Nat × Nat → VRegion → Res} (hk : ∀ key r, Answers (k key r)) :
    Answers (withRegion va s k) := by
  unfold withRegion
  split
  · exact answers_trap ..
  · exact hk ..
theorem answers_readBlock (x : Antler) (i c v : Nat) (s : State) {k : ElemOf → State → Res} (hk : ∀ g s, Answers (k g s)) :
    Answers (readBlock x i c v s k) := by
  unfold readBlock
  exact answers_ite (hk ..) <| answers_ite (answers_park ..) <| answers_asked (fun _ => answers_runElems (fun _ => hk ..) ..) ..
theorem answers_withCommand (w : CmdWin) (c0 c1 c2 c3 : Word) (s : State) {k : State → Nat → Res} (hk : ∀ s n, Answers (k s n)) :
    Answers (withCommand w c0 c1 c2 c3 s k) := by
  unfold withCommand
  split
  · exact hk ..
  · exact answers_ite (hk ..) (answers_of_eq _)
theorem answers_branchIf (c : Bool) (o : BitVec 16) (s : State) : Answers (branchIf c o s) := by
  unfold branchIf
  exact answers_ite (answers_jumpChecked ..) (answers_next ..)
theorem answers_csrOp (d : Reg) (c : BitVec 12) (new : Word → Option Word) (s : State) : Answers (csrOp d c new s) := by
  unfold csrOp
  refine answers_ite (answers_trap ..) (answers_ite (answers_park ..) ?_)
  dsimp only
  split
  · exact answers_next ..
  · exact answers_ite (answers_trap ..) (answers_next ..)
theorem answers_post (s : State) (r : Red) : Answers (s.post r) := by
  unfold State.post
  exact answers_ite (answers_next ..) (answers_waitReds ..)
theorem answers_arrive (s : State) (b : Barrier) (x : Word) : Answers (s.arrive b x) := by
  unfold State.arrive
  dsimp only
  split
  · exact answers_park ..
  · exact answers_ite (answers_park ..) (answers_park ..)
theorem answers_barrierOp (op : Nat) (ty : CombTy) (sc : Scope) (x r : Word) (s : State) (fin : State → Word → State) :
    Answers (barrierOp op ty sc x r s fin) := by
  unfold barrierOp
  refine answers_ite ?_ <| answers_guardTrap _ _ fun _ => answers_releaseThen (fun _ => answers_checkDrops (fun _ => answers_arrive ..) ..) ..
  split
  · exact answers_next ..
  · exact answers_park ..
theorem answers_sendMessage (named : Bool) (a b : Reg) (s : State) : Answers (sendMessage named a b s) := by
  unfold sendMessage
  exact answers_guardTrap _ _ fun _ => answers_withCredit (fun _ => answers_next ..) _
theorem answers_receive (sel : Option Word) (d : Reg) (s : State) : Answers (receive sel d s) := by
  unfold receive
  split <;> exact answers_next ..
theorem answers_rrWait (s : State) : Answers (rrWait s) := by
  unfold rrWait
  split
  · exact answers_next ..
  · exact answers_park ..
theorem answers_globalLoad (w : LoadW) (d : Reg) (va : Word) (s : State) : Answers (globalLoad w d va s) := by
  unfold globalLoad
  exact answers_guardTrap _ _ fun _ => answers_afterReds (fun _ => answers_runL1 (fun _ => answers_next ..) ..) ..
theorem answers_globalStore (n : Nat) (x va : Word) (s : State) : Answers (globalStore n x va s) := by
  unfold globalStore
  exact answers_guardTrap _ _ fun _ => answers_afterReds (fun _ => answers_runL1 (fun _ => answers_finish ..) ..) ..
theorem answers_rangeWriteBack (step : State → Nat → LlcLine → State) (a n : Word) (s : State) : Answers (rangeWriteBack step a n s) := by
  unfold rangeWriteBack
  exact answers_guardTrap _ _ fun _ => answers_ite (answers_next ..) <| answers_afterReds (fun _ => answers_asked (fun _ =>
    answers_ite (answers_park ..) (answers_next ..)) ..) ..
theorem answers_served (s : State) (r : State × Ans) : Answers (served s r) := by
  unfold served
  split <;> exact answers_of_eq _
theorem answers_vec3 (t : ElemTy) (d a b : VCode) (k : MaskReg) (dRead : Bool) (f : Nat → Nat → Nat → Fl) (n : Nat) (s : State) :
    Answers (vec3 t d a b k dRead f n s) := by
  unfold vec3
  exact answers_withWindows (fun _ => answers_next ..) ..
theorem answers_vec2 (t : ElemTy) (d a : VCode) (k : MaskReg) (dRead : Bool) (f : Nat → Nat → Fl) (n : Nat) (s : State) :
    Answers (vec2 t d a k dRead f n s) := by
  unfold vec2
  exact answers_withWindows (fun _ => answers_next ..) ..
theorem answers_vcmp (o : Cmp) (t : ElemTy) (d : MaskReg) (a b : VCode) (k : MaskReg) (s : State) : Answers (vcmp o t d a b k s) := by
  unfold vcmp
  exact answers_withWindows (fun _ => answers_next ..) ..
theorem answers_vredm (max : Bool) (t : ElemTy) (d a : VCode) (k : MaskReg) (s : State) : Answers (vredm max t d a k s) := by
  unfold vredm
  exact answers_withWindows (fun _ => answers_next ..) ..
theorem answers_matrixIssue (form : Nat) (t : MtxTy) (k : KLen) (n : BitVec 2) (d a b : Reg) (s : State) :
    Answers (matrixIssue form t k n d a b s) := by
  unfold matrixIssue
  exact answers_ite (answers_park ..) <| answers_guardTrap _ _ fun _ => answers_ite (answers_park ..) (answers_park ..)
theorem answers_handOver (fn : Nat) (a b c : Reg) (s : State) : Answers (handOver fn a b c s) := by
  unfold handOver
  exact answers_onCopyThread _ fun _ => answers_ite (answers_park ..) (answers_next ..)
theorem answers_sealAnswer (va w : Word) (s : State) : Answers (sealAnswer va w s) := by
  unfold sealAnswer
  refine answers_withRegion _ _ fun _ r => ?_
  split
  · exact answers_next ..
  all_goals exact answers_trap ..
theorem answers_switchCommand (op : Nat) (c0 c1 c2 c3 : Word) (s : State) : Answers (switchCommand op c0 c1 c2 c3 s) := by
  unfold switchCommand
  refine answers_ite (answers_of_eq _) <| answers_withCommand _ _ _ _ _ _ fun _ _ => ?_
  dsimp only
  repeat' split
  all_goals exact answers_of_eq _
theorem answers_shootCommand (op : Nat) (c0 c1 c2 c3 : Word) (s : State) (run : State → State × Bool) :
    Answers (shootCommand op c0 c1 c2 c3 s run) := by
  unfold shootCommand
  exact answers_ite (answers_of_eq _) <| answers_withCommand _ _ _ _ _ _ fun _ _ =>
    answers_ite (answers_of_eq _) <| answers_ite (answers_of_eq _) (answers_of_eq _)

/-! ### The instructions that branch on their way -/

theorem answers_execDbnz (a : Reg) (o : BitVec 16) (s : State) : Answers (execDbnz a o s) := by
  unfold execDbnz
  exact answers_ite (answers_next ..) (answers_jumpChecked ..)
theorem answers_execEret (s : State) : Answers (execEret s) := by
  unfold execEret State.returnFromTrap
  exact answers_ite (answers_jumpChecked ..) (answers_trap ..)
theorem answers_execEvret (s : State) : Answers (execEvret s) := by
  unfold execEvret
  exact answers_ite (answers_trap ..) (answers_jumpChecked ..)
theorem answers_execWaitge (d a : Reg) (s : State) : Answers (execWaitge d a s) := by
  unfold execWaitge
  exact answers_guardTrap _ _ fun _ => answers_ite (answers_park ..) (answers_next ..)
theorem answers_execPutl (li : Landing) (c : Reg) (s : State) : Answers (execPutl li c s) := by
  unfold execPutl
  exact answers_guardTrap _ _ fun _ => answers_ite (answers_next ..) (answers_park ..)
theorem answers_execTake (c : Reg) (li : Landing) (s : State) : Answers (execTake c li s) := by
  unfold execTake
  exact answers_guardTrap _ _ fun _ => answers_ite (answers_next ..) (answers_park ..)
theorem answers_execRputmv (a : Reg) (v : VCode) (s : State) : Answers (execRputmv a v s) := by
  unfold execRputmv
  exact answers_ite (answers_withCredit (fun _ => answers_next ..) _)
    (answers_withWindows (fun _ => answers_withCredit (fun _ => answers_next ..) _) ..)
theorem answers_execMrcv (d : Reg) (s : State) : Answers (execMrcv d s) := by
  unfold execMrcv
  exact answers_ite (answers_trap ..) (answers_receive ..)
theorem answers_execMrcvn (d a : Reg) (s : State) : Answers (execMrcvn d a s) := by
  unfold execMrcvn
  exact answers_guardTrap _ _ fun _ => answers_receive ..
theorem answers_execWaitm (a : Reg) (s : State) : Answers (execWaitm a s) := by
  unfold execWaitm
  exact answers_guardTrap _ _ fun _ => answers_ite (answers_park ..) (answers_next ..)
theorem answers_execWake (a : Reg) (s : State) : Answers (execWake a s) := by
  unfold execWake
  refine answers_guardTrap _ _ fun _ => answers_ite ?_ (answers_withCredit (fun _ => answers_next ..) _)
  split <;> exact answers_next ..
theorem answers_execCdisc (a b : Reg) (s : State) : Answers (execCdisc a b s) := by
  unfold execCdisc
  exact answers_guardTrap _ _ fun _ => answers_ite (answers_next ..) <| answers_afterReds (fun _ => answers_asked (fun _ =>
    answers_ite (answers_park ..) (answers_runElems (fun _ => answers_next ..) ..)) ..) ..
theorem answers_execVredsum (t : ElemTy) (d a : VCode) (k : MaskReg) (s : State) : Answers (execVredsum t d a k s) := by
  unfold execVredsum
  exact answers_withWindows (fun _ => answers_ite (answers_next ..) (answers_next ..)) ..
theorem answers_execMwait (a : Reg) (s : State) : Answers (execMwait a s) := by
  unfold execMwait
  exact answers_guardTrap _ _ fun _ => answers_ite (answers_next ..) (answers_park ..)
theorem answers_execAccstg (t : ElemTy) (n : BitVec 2) (a b : Reg) (s : State) : Answers (execAccstg t n a b s) := by
  have run : ∀ x y w l s, Answers (afterReds .reply s fun s => accRows x y w (fun s =>
      ((s.updCtl (fun c => { c with seed := word (elem 64 s.thr.progress.aux 1) })).raise
        (BitVec.ofNat 6 (elem 64 s.thr.progress.aux 0))).finish 8) l s) :=
    fun _ _ _ _ _ => answers_afterReds (fun _ => answers_accRows (fun _ => answers_finish ..) ..) ..
  unfold execAccstg
  exact answers_ite (run ..) <| answers_guardTrap _ _ fun _ => run ..
theorem answers_execXstat (a : Reg) (s : State) : Answers (execXstat a s) := by
  unfold execXstat
  exact answers_onCopyThread _ fun _ => answers_ite (answers_trap ..) (answers_next ..)

/-! ### Recorded regions -/

theorem answers_execRrbeg (a b : Reg) (s : State) : Answers (execRrbeg a b s) := by
  unfold execRrbeg
  refine answers_ite (answers_rrWait s) <| answers_guardTrap _ _ fun _ => ?_
  dsimp only
  split
  · exact answers_ite (answers_trap ..) (answers_of_eq _)
  · exact answers_ite (answers_trap ..) (answers_ite (answers_trap ..) (answers_of_eq _))
theorem answers_execRrend (b : Reg) (s : State) : Answers (execRrend b s) := by
  unfold execRrend
  refine answers_ite (answers_rrWait s) <| answers_guardTrap _ _ fun _ => ?_
  split
  · exact answers_trap ..
  · exact answers_ite (answers_trap ..) (answers_afterPushes (fun _ => answers_ite (answers_park ..) (answers_of_eq _)) _)
theorem answers_execRrec (b : Reg) (s : State) : Answers (execRrec b s) := by
  unfold execRrec
  refine answers_guardTrap _ _ fun _ => ?_
  split
  · exact answers_trap ..
  · exact answers_asked (fun _ => answers_ite (answers_next ..) (answers_ite (answers_next ..) (answers_next ..))) ..
theorem answers_execRroff (b : Reg) (s : State) : Answers (execRroff b s) := by
  unfold execRroff
  refine answers_guardTrap _ _ fun _ => ?_
  split
  · exact answers_trap ..
  · exact answers_ite (answers_trap ..) (answers_asked (fun _ => answers_next ..) ..)
theorem answers_execRrstat (d a b : Reg) (s : State) : Answers (execRrstat d a b s) := by
  unfold execRrstat
  refine answers_guardTrap _ _ fun _ => ?_
  split
  · exact answers_trap ..
  · exact answers_asked (fun _ => answers_next ..) ..

/-! ### Deques and tasks -/

theorem answers_execDqpush (d a : Reg) (s : State) : Answers (execDqpush d a s) := by
  unfold execDqpush
  refine answers_guardTrap _ _ fun _ => ?_
  split
  · exact answers_next ..
  · exact answers_ite (answers_next ..) (answers_next ..)
theorem answers_execDqpop (d a : Reg) (s : State) : Answers (execDqpop d a s) := by
  unfold execDqpop
  refine answers_guardTrap _ _ fun _ => ?_
  split <;> exact answers_next ..
theorem answers_execDqsplit (d : Reg) (s : State) : Answers (execDqsplit d s) := by
  unfold execDqsplit
  refine answers_guardTrap _ _ fun _ => ?_
  split
  · exact answers_next ..
  · exact answers_ite (answers_next ..) (answers_next ..)
theorem answers_execDqsteal (d a : Reg) (s : State) : Answers (execDqsteal d a s) := by
  unfold execDqsteal
  refine answers_guardTrap _ _ fun _ => answers_asked (fun _ => ?_) ..
  split <;> exact answers_next ..
theorem answers_execTsend (a b : Reg) (s : State) : Answers (execTsend a b s) := by
  unfold execTsend
  refine answers_guardTrap _ _ fun _ => answers_withCredit (fun _ => ?_) _
  split <;> exact answers_next ..
theorem answers_execTret (s : State) : Answers (execTret s) := by
  unfold execTret
  refine answers_drainAll (fun _ => answers_afterPushes (fun _ => ?_) _) _
  split
  · exact answers_next ..
  · dsimp only
    split <;> exact answers_of_eq _
theorem answers_execDqnext (d : Reg) (s : State) : Answers (execDqnext d s) := by
  unfold execDqnext
  refine answers_drainAll (fun _ => ?_) _
  dsimp only
  repeat' split
  all_goals exact answers_next ..
theorem answers_execLaunch (d a b : Reg) (s : State) : Answers (execLaunch d a b s) := by
  unfold execLaunch
  refine answers_guardTrap _ _ fun _ => ?_
  split
  · exact answers_park ..
  · refine answers_asked (fun _ => answers_ite (answers_next ..) ?_) ..
    split <;> exact answers_next ..

/-! ### Versions and antlers -/

theorem answers_execLdvn (d a b : Reg) (s : State) : Answers (execLdvn d a b s) := by
  unfold execLdvn
  exact answers_guardTrap _ _ fun _ => answers_afterReds (fun _ => answers_withVersion _ _ _ fun _ _ _ =>
    answers_asked (fun _ => answers_runElems (fun _ => answers_next ..) ..) ..) ..
theorem answers_execVnopen (a b : Reg) (s : State) : Answers (execVnopen a b s) := by
  unfold execVnopen
  exact answers_guardTrap _ _ fun _ => answers_afterReds (fun _ => answers_asked (fun _ => answers_withRegion _ _ fun _ _ =>
    answers_ite (answers_trap ..) (answers_next ..)) ..) ..
theorem answers_execVnseal (a b : Reg) (s : State) : Answers (execVnseal a b s) := by
  have answer : ∀ va w s, Answers (asked [] s (sealAnswer va w)) := fun _ _ _ => answers_asked (answers_sealAnswer _ _) ..
  unfold execVnseal
  refine answers_guardTrap _ _ fun _ => answers_ite (answer ..) <| answers_afterReds (fun _ => ?_) ..
  split
  · exact answers_park ..
  · exact answers_afterPushes (fun _ => answer ..) _
theorem answers_execVnrecl (a b : Reg) (s : State) : Answers (execVnrecl a b s) := by
  unfold execVnrecl
  refine answers_ite (answers_withRegion _ _ fun _ _ => ?_) <| answers_guardTrap _ _ fun _ => answers_afterReds (fun _ =>
    answers_asked (fun _ => answers_withRegion _ _ fun _ _ => answers_ite (answers_trap ..) ?_) ..) ..
  all_goals exact answers_runElemsOr (fun _ => answers_next ..) ..
theorem answers_execVersionedAccess (tn va ver : Nat) (x : Option Word) (s : State) : Answers (execVersionedAccess tn va ver x s) := by
  unfold execVersionedAccess
  split
  · exact answers_of_eq _
  · split <;> exact answers_served ..
theorem answers_execAtbind (h : BitVec 3) (a : Reg) (s : State) : Answers (execAtbind h a s) := by
  unfold execAtbind
  refine answers_ite (answers_afterReds (fun _ => answers_next ..) ..) <| answers_guardTrap _ _ fun _ => answers_afterReds (fun _ =>
    answers_asked (fun _ => answers_runElems (fun _ => answers_ite (answers_trap ..) (answers_runElems (fun _ => ?_) ..)) ..) ..) ..
  split
  · exact answers_trap ..
  · exact answers_next ..
theorem answers_execAtld (h : BitVec 3) (c : VCode) (a b : Reg) (s : State) : Answers (execAtld h c a b s) := by
  unfold execAtld
  exact answers_vectorAccessIf (fun _ => answers_readBlock _ _ _ _ _ fun _ _ => answers_next ..) ..

/-! ### Rows of the memory system, the copy engine, the hub and the security engine -/

theorem answers_execSliceReadRequest (core tn va : Nat) (s : State) : Answers (execSliceReadRequest core tn va s) := by
  unfold execSliceReadRequest
  exact answers_ite (answers_of_eq _) (answers_served ..)
theorem answers_execWordRequest (core tn va size : Nat) (x : Option Word) (s : State) : Answers (execWordRequest core tn va size x s) := by
  unfold execWordRequest
  dsimp only
  split <;> exact answers_served ..
theorem answers_execCopyStripe (core : Nat) (s : State) : Answers (execCopyStripe core s) := by
  unfold execCopyStripe
  split
  · exact answers_of_eq _
  · refine answers_ite (answers_of_eq _) <| answers_ite (answers_of_eq _) (answers_ite ?_ ?_)
    all_goals
      dsimp only
      repeat' split
    all_goals exact answers_of_eq _
theorem answers_execPackageReset (s : State) : Answers (execPackageReset s) := by
  unfold execPackageReset
  exact answers_unlessHold _ fun _ => answers_ite (answers_of_eq _) (answers_of_eq _)
theorem answers_execSecurityAlarm (cause : AlarmCause) (source : Word) (s : State) : Answers (execSecurityAlarm cause source s) := by
  unfold execSecurityAlarm
  refine answers_ite (answers_of_eq _) ?_
  split
  · exact answers_of_eq _
  · exact answers_execPackageReset _
  · exact answers_of_eq _
theorem answers_execCopyProgramInstall (c0 c1 c2 c3 : Word) (s : State) : Answers (execCopyProgramInstall c0 c1 c2 c3 s) := by
  unfold execCopyProgramInstall
  refine answers_unlessSealed _ fun _ => answers_withCommand _ _ _ _ _ _ fun _ _ => ?_
  dsimp only
  split
  · exact answers_ite (answers_of_eq _) (answers_of_eq _)
  · exact answers_of_eq _
theorem answers_execFunctionReady (bit : Nat) (s : State) : Answers (execFunctionReady bit s) := by
  unfold execFunctionReady
  exact answers_unlessHold _ fun _ => answers_ite (answers_of_eq _) (answers_of_eq _)
theorem answers_execKeyLoad (slot : Nat) (replace : Bool) (wrapped : BitVec 576) (s : State) : Answers (execKeyLoad slot replace wrapped s) := by
  unfold execKeyLoad
  refine answers_unlessHold _ fun _ => answers_secCommand (fun _ => answers_ite (answers_of_eq _) ?_) ..
  split <;> exact answers_of_eq _
theorem answers_execKeyErase (slot : Nat) (s : State) : Answers (execKeyErase slot s) := by
  unfold execKeyErase
  exact answers_unlessHold _ fun _ => answers_secCommand (fun _ => answers_ite (answers_of_eq _) (answers_of_eq _)) ..
theorem answers_execDebugChallenge (tn : Nat) (s : State) : Answers (execDebugChallenge tn s) := by
  unfold execDebugChallenge
  exact answers_unlessHold _ fun _ => answers_secCommand (fun _ => answers_ite (answers_of_eq _) (answers_of_eq _)) ..
theorem answers_execDebugUnlock (tn : Nat) (sig : List Byte) (s : State) : Answers (execDebugUnlock tn sig s) := by
  unfold execDebugUnlock
  refine answers_unlessHold _ fun _ => answers_secCommand (fun _ => ?_) ..
  split
  · exact answers_of_eq _
  · exact answers_ite (answers_of_eq _) (answers_ite (answers_of_eq _) (answers_execSecurityAlarm ..))
theorem answers_execDebugLock (tn : Nat) (s : State) : Answers (execDebugLock tn s) := by
  unfold execDebugLock
  exact answers_unlessHold _ fun _ => answers_secCommand (fun _ => answers_ite (answers_of_eq _) (answers_of_eq _)) ..
theorem answers_execFirmwareStage (pa len : Nat) (s : State) : Answers (execFirmwareStage pa len s) := by
  unfold execFirmwareStage
  exact answers_unlessHold _ fun _ => answers_secCommand (fun _ => answers_ite (answers_of_eq _) (answers_of_eq _)) ..
theorem answers_execCaptureUnitControl (u : Nat) (x : Word) (s : State) : Answers (execCaptureUnitControl u x s) := by
  unfold execCaptureUnitControl
  exact answers_unlessSealed _ fun _ => answers_ite (answers_of_eq _) (answers_of_eq _)
theorem answers_execApertureWrite (off : Nat) (x : Word) (s : State) : Answers (execApertureWrite off x s) := by
  unfold execApertureWrite
  refine answers_unlessSealed _ fun _ => ?_
  repeat' split
  all_goals exact answers_of_eq _
theorem answers_execApertureRead (what : HostRead) (s : State) : Answers (execApertureRead what s) := by
  unfold execApertureRead
  dsimp only
  split
  · exact answers_unlessSealed _ fun _ => answers_of_eq _
  · refine answers_ite (answers_execSecurityAlarm ..) (answers_ite (answers_of_eq _) ?_)
    split <;> exact answers_of_eq _
  · exact answers_unlessSealed _ fun _ => answers_of_eq _
/-! ### Writes of the control range -/

/-- A write that is taken answers a next state. -/
def AnswersIfTaken (o : Option Res) : Prop := ∀ r, o = some r → Answers r
theorem answersIfTaken_none : AnswersIfTaken none := fun _ h => by cases h
theorem answersIfTaken_some {r : Res} (h : Answers r) : AnswersIfTaken (some r) := fun _ e => by
  cases e
  exact h
theorem answersIfTaken_map (o : Option State) : AnswersIfTaken (o.map .next) := fun r h => by
  obtain ⟨t, -, rfl⟩ := Option.map_eq_some_iff.1 h
  exact answers_of_eq t
theorem answersIfTaken_ite {c : Prop} [Decidable c] {a b : Option Res} (ha : AnswersIfTaken a) (hb : AnswersIfTaken b) :
    AnswersIfTaken (if c then a else b) := by
  split
  · exact ha
  · exact hb
theorem answers_windowWrite (s : State) (writer : Nat) (w : CmdWin) (i : Nat) (x : Word) : Answers (s.windowWrite writer w i x) := by
  unfold State.windowWrite execWakeFail execWakeRetry
  refine answers_ite (answers_of_eq _) ?_
  dsimp only
  repeat' split
  all_goals exact answers_of_eq _
theorem answers_execQueueOpen (q : Nat) (s : State) : Answers (execQueueOpen q s) := by
  unfold execQueueOpen
  exact answers_ite (answers_of_eq _) (answers_of_eq _)
theorem answers_execQueueClose (q : Nat) (s : State) : Answers (execQueueClose q s) := by
  unfold execQueueClose
  exact answers_ite (answers_of_eq _) (answers_of_eq _)
theorem answers_execRegionRecordLive (tn rec : Nat) (s : State) : Answers (execRegionRecordLive tn rec s) := by
  unfold execRegionRecordLive
  split
  · exact answers_of_eq _
  · exact answers_ite (answers_of_eq _) (answers_of_eq _)
theorem answersIfTaken_queueWrite (s : State) (q i : Nat) (x : Word) : AnswersIfTaken (s.queueWrite q i x) := by
  unfold State.queueWrite
  refine answersIfTaken_ite (answersIfTaken_ite answersIfTaken_none (answersIfTaken_some ?_)) <|
    answersIfTaken_ite (answersIfTaken_ite (answersIfTaken_some (answers_of_eq _)) answersIfTaken_none) <|
    answersIfTaken_ite (answersIfTaken_ite (answersIfTaken_some (answers_of_eq _)) answersIfTaken_none) answersIfTaken_none
  exact answers_ite (answers_of_eq _) (answers_ite (answers_execQueueOpen ..) (answers_execQueueClose ..))
theorem answersIfTaken_vregionWrite (s : State) (key : Nat × Nat) (i : Nat) (x : Word) : AnswersIfTaken (s.vregionWrite key i x) := by
  unfold State.vregionWrite
  dsimp only
  split
  · exact answersIfTaken_ite answersIfTaken_none (answersIfTaken_some (answers_of_eq _))
  · exact answersIfTaken_ite answersIfTaken_none (answersIfTaken_some (answers_of_eq _))
  · exact answersIfTaken_ite (answersIfTaken_some (answers_of_eq _)) answersIfTaken_none
  · exact answersIfTaken_ite answersIfTaken_none <| answersIfTaken_some <|
      answers_ite (answers_of_eq _) (answers_ite (answers_of_eq _) (answers_execRegionRecordLive ..))
  · exact answersIfTaken_none
theorem answersIfTaken_controlWrite (s : State) (writer off : Nat) (x : Word) : AnswersIfTaken (s.controlWrite writer off x) := by
  unfold State.controlWrite
  refine answersIfTaken_ite answersIfTaken_none (answersIfTaken_ite (answersIfTaken_map _) ?_)
  split
  · exact answersIfTaken_some (answers_windowWrite ..)
  · exact answersIfTaken_map _
  · exact answersIfTaken_map _
  · exact answersIfTaken_queueWrite _ _ _ _
  · exact answersIfTaken_map _
  · exact answersIfTaken_vregionWrite _ _ _ _
  · exact answersIfTaken_map _
  · exact answersIfTaken_ite (answersIfTaken_some (answers_of_eq _)) answersIfTaken_none
  · exact answersIfTaken_ite (answersIfTaken_some (answers_execCaptureUnitControl ..)) answersIfTaken_none
  · exact answersIfTaken_none
theorem answers_getD {o : Option Res} (h : AnswersIfTaken o) (t : State) : Answers (o.getD (.next t)) := by
  cases o with
  | none => exact answers_of_eq t
  | some r => exact h r rfl
theorem answers_execControlRangeWrite (writer off : Nat) (x : Word) (s : State) : Answers (execControlRangeWrite writer off x s) := by
  unfold execControlRangeWrite
  exact answers_ite (answers_of_eq _) <| answers_ite (answers_execSecurityAlarm ..) <| answers_unlessSealed _ fun _ =>
    answers_getD (answersIfTaken_controlWrite _ _ _ _) _

/-! ### Every arm -/

theorem answers_event {i : Instr} (h : i.isWord = false) (s : State) : Answers (exec i s) := by
  cases i
  -- meanings that answer at once
  case illegalInstruction | landingPortFill | waitExpired | pageWalk | faultRecordAppend | packageUnavailable | captureSample =>
    exact ⟨_, rfl⟩
  -- meanings that answer in each of their branches
  case barrierRelease | remoteWriteDelivery | remoteWriteAck | dropNotice | messageArrival | messageDivert | eventEntry | imageLoad | imageEvict |
      packetArrival | queueSlotMap | queueSlotEvict | launchDispatch | launchDistribute | taskDispatch | taskSteal | launchRetire | replayPush |
      globalReply | l1WriteBack | l1Invalidation | guestWriteBack | matrixKblock | matrixComplete | matrixFaultStop | mmrBlockArrival |
      mmrAbortToken | copyCommandRun | claimEnd | copyCompletion | putArrival | putAck | copyThreadRestart | copyProgramReinstall | atomicExecute |
      wakeRetry | wakeFail | contextSpill | contextRestore | forcedPreemption | softError | shootdownComplete | functionFail | portDown |
      packageAvailable | powerWindow =>
    simp only [exec, execBarrierRelease, execRemoteWriteDelivery, execRemoteWriteAck, execDropNotice, execMessageArrival, execMessageDivert,
      execEventEntry, execImageLoad, execImageEvict, execPacketArrival, execQueueSlotMap, execQueueSlotEvict, execLaunchDispatch,
      execLaunchDistribute, execTaskDispatch, execTaskSteal, execLaunchRetire, execReplayPush, execGlobalReply, execL1WriteBack,
      execL1Invalidation, execGuestWriteBack, execMatrixKblock, execMatrixComplete, execMatrixFaultStop, execMmrBlockArrival, execMmrAbortToken,
      execCopyCommandRun, execClaimEnd, execCopyCompletion, execPutArrival, execPutAck, execCopyThreadRestart, execCopyProgramReinstall,
      execAtomicExecute, execWakeRetry, execWakeFail, execContextSpill, execContextRestore, execForcedPreemption, execSoftError,
      execShootdownComplete, execFunctionFail, execPortDown, execPackageAvailable, execPowerWindow]
    repeat' split
    all_goals exact answers_of_eq _
  case sliceOwnershipRequest | lineFill =>
    simp only [exec, execSliceOwnershipRequest, execLineFill]
    exact answers_served ..
  case switchOut | switchResume | hostAbort | stopOneThread | resumeOneThread =>
    simp only [exec, execSwitchOut, execSwitchResume, execHostAbort, execStopOneThread, execResumeOneThread]
    exact answers_switchCommand ..
  case shootdownInvalidate | shootdownRelease | shootdownInvalidateRelease =>
    simp only [exec, execShootdownInvalidate, execShootdownRelease, execShootdownInvalidateRelease]
    exact answers_unlessSealed _ fun _ => answers_shootCommand ..
  case attest =>
    simp only [exec, execAttest]
    exact answers_secCommand (fun _ => answers_of_eq _) ..
  -- meanings with a lemma of their own
  case queueOpen => exact answers_execQueueOpen ..
  case queueClose => exact answers_execQueueClose ..
  case sliceReadRequest => exact answers_execSliceReadRequest ..
  case wordRequest => exact answers_execWordRequest ..
  case copyStripe => exact answers_execCopyStripe ..
  case versionedAccess => exact answers_execVersionedAccess ..
  case regionRecordLive => exact answers_execRegionRecordLive ..
  case packageReset => exact answers_execPackageReset ..
  case securityAlarm => exact answers_execSecurityAlarm ..
  case copyProgramInstall => exact answers_execCopyProgramInstall ..
  case functionReady => exact answers_execFunctionReady ..
  case keyLoad => exact answers_execKeyLoad ..
  case keyErase => exact answers_execKeyErase ..
  case debugChallenge => exact answers_execDebugChallenge ..
  case debugUnlock => exact answers_execDebugUnlock ..
  case debugLock => exact answers_execDebugLock ..
  case firmwareStage => exact answers_execFirmwareStage ..
  case apertureWrite => exact answers_execApertureWrite ..
  case captureUnitControl => exact answers_execCaptureUnitControl ..
  case controlRangeWrite => exact answers_execControlRangeWrite ..
  case apertureRead => exact answers_execApertureRead ..
  -- what is left is a word
  all_goals exact absurd h.symm Bool.false_ne_true
theorem answers_word {i : Instr} (h : i.isWord = true) (s : State) : Answers (exec i s) := by
  cases i
  -- meanings that answer at once
  case add | sub | and | or | xor | andn | orn | shl | shr | sra | rol | slt | sltn | seq | min | max | minn | maxn | mul | mulh | mulhn | div |
      divn | rem | remn | mad | clz | ctz | pop | bswap | sextB | sextH | sextW | zextB | zextH | zextW | bext | fshr | fshl | addi | andi | ori |
      xori | slti | shli | shri | srai | roli | shlori | lih | bexti | bextsi | binsi | fshli | fshri | trap | ifence | evoff | kand | kor | kxor |
      knot | ktog | gtok | kpop | accz | yield | fadd | fsub | fmul | ffma | fmin | fmax | fabs | fneg | feq | flt | fle | fdiv | fsqrt | fclass |
      fcvt =>
    exact ⟨_, rfl⟩
  case amo | stvn =>
    simp only [exec, execAmo, execStvn]
    exact answers_guardTrap _ _ fun _ => answers_afterReds (fun _ => answers_asked (fun _ => answers_runElems (fun _ => answers_next ..) ..) ..) ..
  case red | redvn =>
    simp only [exec, execRed, execRedvn]
    exact answers_guardTrap _ _ fun _ => answers_post ..
  case beq | bne | blt | bge | bltn | bgen =>
    simp only [exec, execBeq, execBne, execBlt, execBge, execBltn, execBgen]
    exact answers_branchIf ..
  case jal | jalr =>
    simp only [exec, execJal, execJalr]
    exact answers_jumpChecked ..
  case csrr | csrw | csrs | csrc =>
    simp only [exec, execCsrr, execCsrw, execCsrs, execCsrc]
    exact answers_csrOp ..
  -- meanings that answer in each of their branches
  case brk | halt | evon | pfg | mstat | park =>
    simp only [exec, execBrk, execHalt, execEvon, execPfg, execMstat, execPark]
    repeat' split
    all_goals exact answers_of_eq _
  case ldl | stl | peek | testl | clrl | vdtld =>
    simp only [exec, execLdl, execStl, execPeek, execTestl, execClrl, execVdtld]
    exact answers_guardTrap _ _ fun _ => answers_next ..
  case vldl | vstl | vgthl | vsctl | vsel | vsplat | vins | vext | viota | vcvt | vdec | venc | vqnt | vdqnt | vslide | vbcast | vscan | vamaxb |
      accst | accld | atdig | atinfo =>
    simp only [exec, execVldl, execVstl, execVgthl, execVsctl, execVsel, execVsplat, execVins, execVext, execViota, execVcvt, execVdec, execVenc,
      execVqnt, execVdqnt, execVslide, execVbcast, execVscan, execVamaxb, execAccst, execAccld, execAtdig, execAtinfo]
    exact answers_withWindows (fun _ => answers_next ..) ..
  case fenceAcq =>
    simp only [exec, execFenceAcq]
    exact answers_guardTrap _ _ fun _ => answers_checkDrops (fun _ => answers_next ..) ..
  case fenceRel | fenceAr =>
    simp only [exec, execFenceRel, execFenceAr]
    exact answers_guardTrap _ _ fun _ => answers_releaseThen (fun _ => answers_checkDrops (fun _ => answers_next ..) ..) ..
  case bar | barmax | barsum | barmin =>
    simp only [exec, execBar, execBarmax, execBarsum, execBarmin]
    exact answers_barrierOp ..
  case rput | rputm =>
    simp only [exec, execRput, execRputm]
    exact answers_guardTrap _ _ fun _ => answers_withCredit (fun _ => answers_next ..) ..
  case msnd | msndn =>
    simp only [exec, execMsnd, execMsndn]
    exact answers_sendMessage ..
  case ld | ldx =>
    simp only [exec, execLd, execLdx]
    exact answers_globalLoad ..
  case st | stx =>
    simp only [exec, execSt, execStx]
    exact answers_globalStore ..
  case cwb | cinv =>
    simp only [exec, execCwb, execCinv]
    exact answers_rangeWriteBack ..
  case vld =>
    simp only [exec, execVld]
    exact answers_vectorAccess (fun _ => answers_runWhole (fun _ => answers_next ..) ..) ..
  case vst =>
    simp only [exec, execVst]
    exact answers_vectorAccess (fun _ => answers_runWhole (fun _ => answers_finish ..) ..) ..
  case vlds =>
    simp only [exec, execVlds]
    exact answers_vectorAccess (fun _ => answers_runL1 (fun _ => answers_next ..) ..) ..
  case vsts =>
    simp only [exec, execVsts]
    exact answers_vectorAccess (fun _ => answers_runL1 (fun _ => answers_finish ..) ..) ..
  case vgth | vsct =>
    simp only [exec, execVgth, execVsct]
    exact answers_vectorAccess (fun _ => answers_runWords (fun _ => answers_next ..) ..) ..
  case vadd | vsub | vmul | vfma | vfms | vmin | vmax | vdot4 | vmulh | vand | vor | vxor | vshl | vshr | vsra | vperm =>
    simp only [exec, execVadd, execVsub, execVmul, execVfma, execVfms, execVmin, execVmax, execVdot4, execVmulh, execVand, execVor, execVxor,
      execVshl, execVshr, execVsra, execVperm]
    exact answers_vec3 ..
  case vabs | vneg | vsadd | vssub | vsmul | vsfma | vsmin | vsmax | vsshl | vnot | vpopc | vmov | vexp2 | vlog2 | vrcp | vrsq | vtanh | vsigm =>
    simp only [exec, execVabs, execVneg, execVsadd, execVssub, execVsmul, execVsfma, execVsmin, execVsmax, execVsshl, execVnot, execVpopc,
      execVmov, execVexp2, execVlog2, execVrcp, execVrsq, execVtanh, execVsigm]
    exact answers_vec2 ..
  case vcmpeq | vcmpne | vcmplt | vcmple =>
    simp only [exec, execVcmpeq, execVcmpne, execVcmplt, execVcmple]
    exact answers_vcmp ..
  case vredmax | vredmin =>
    simp only [exec, execVredmax, execVredmin]
    exact answers_vredm ..
  case mma | mmal | mmr =>
    simp only [exec, execMma, execMmal, execMmr]
    exact answers_matrixIssue ..
  case xld | xst | xput | xaxb | xfill | xlm =>
    simp only [exec, execXld, execXst, execXput, execXaxb, execXfill, execXlm]
    exact answers_handOver ..
  case xcan =>
    simp only [exec, execXcan]
    exact answers_onCopyThread _ fun _ => answers_guardTrap _ _ fun _ => answers_next ..
  case vnstat =>
    simp only [exec, execVnstat]
    exact answers_guardTrap _ _ fun _ => answers_afterReds (fun _ => answers_asked (fun _ => answers_withRegion _ _ fun _ _ => answers_next ..) ..) ..
  case atsg =>
    simp only [exec, execAtsg]
    exact answers_vectorAccessIf (fun _ => answers_readBlock _ _ _ _ _ fun _ _ => answers_runElems (fun _ => answers_next ..) ..) ..
  -- meanings with a lemma of their own
  case dbnz => exact answers_execDbnz ..
  case eret => exact answers_execEret ..
  case waitge => exact answers_execWaitge ..
  case putl => exact answers_execPutl ..
  case take => exact answers_execTake ..
  case rputmv => exact answers_execRputmv ..
  case mrcv => exact answers_execMrcv ..
  case mrcvn => exact answers_execMrcvn ..
  case waitm => exact answers_execWaitm ..
  case evret => exact answers_execEvret ..
  case rrbeg => exact answers_execRrbeg ..
  case rrend => exact answers_execRrend ..
  case rrec => exact answers_execRrec ..
  case rroff => exact answers_execRroff ..
  case rrstat => exact answers_execRrstat ..
  case cdisc => exact answers_execCdisc ..
  case vredsum => exact answers_execVredsum ..
  case mwait => exact answers_execMwait ..
  case accstg => exact answers_execAccstg ..
  case xstat => exact answers_execXstat ..
  case wake => exact answers_execWake ..
  case dqpush => exact answers_execDqpush ..
  case dqpop => exact answers_execDqpop ..
  case dqsplit => exact answers_execDqsplit ..
  case dqsteal => exact answers_execDqsteal ..
  case tsend => exact answers_execTsend ..
  case tret => exact answers_execTret ..
  case dqnext => exact answers_execDqnext ..
  case launch => exact answers_execLaunch ..
  case ldvn => exact answers_execLdvn ..
  case vnopen => exact answers_execVnopen ..
  case vnseal => exact answers_execVnseal ..
  case vnrecl => exact answers_execVnrecl ..
  case atbind => exact answers_execAtbind ..
  case atld => exact answers_execAtld ..
  -- what is left is an event row
  all_goals exact absurd h Bool.false_ne_true

/-- Settles O59: each arm comes down to an advance, a jump, a park, a trap, or a state that a row leaves. -/
theorem everyRowAnswers : Obligations.EveryRowAnswers := by
  unfold Obligations.EveryRowAnswers
  intro i s
  cases h : i.isWord with
  | false => exact answers_event h s
  | true => exact answers_word h s

end Sys2Proof.Machine
end

section
/-! SUPPORT. What keeps the canonical form of a memory: the shapes of an outcome, the operations over the state. -/

namespace Sys2Proof.Machine

/-- The local memory of a core is in its canonical form. -/
def Core.CanonicalLm (c : Core) : Prop := Memory.wf lmDefault c.lm = true

/-- Whatever next state an outcome holds is canonical. -/
def Keeps (r : Res) : Prop := ∀ t, r = .next t → t.Canonical

theorem keeps_state {s : State} (h : s.Canonical) : Keeps (.next s) := by
  rintro t ⟨⟩
  exact h
theorem canonical_of_eq {α : Type} {p : State × α} {t : State} {a : α} (e : p = (t, a)) (h : p.1.Canonical) : t.Canonical := by
  subst e; exact h
/-- A state that an option may hold is canonical. -/
def AllCanonical (o : Option State) : Prop := ∀ t, o = some t → t.Canonical
/-- A state that an option may hold, beside something else, is canonical. -/
def AllCanonicalFst {α : Type} (o : Option (State × α)) : Prop := ∀ p, o = some p → p.1.Canonical
/-- A core that an option may hold has a canonical local memory. -/
def AllCanonicalLm (o : Option Core) : Prop := ∀ c, o = some c → c.CanonicalLm
/-- An outcome that an option may hold keeps the canonical form. -/
def AllKeep (o : Option Res) : Prop := ∀ r, o = some r → Keeps r

/-- Every row of a list keeps the canonical form. -/
def RowsKeep (l : List (Unit → Res)) : Prop := ∀ k ∈ l, Keeps (k ())

theorem keeps_rows_nil : RowsKeep [] := nofun
theorem keeps_rows_cons {k : Unit → Res} {l : List (Unit → Res)} (hk : Keeps (k ())) (hl : RowsKeep l) : RowsKeep (k :: l) :=
  List.forall_mem_cons.2 ⟨hk, hl⟩
theorem keeps_rows_append {l m : List (Unit → Res)} (hl : RowsKeep l) (hm : RowsKeep m) : RowsKeep (l ++ m) :=
  List.forall_mem_append.2 ⟨hl, hm⟩
theorem keeps_rows_map {α : Type} {l : List α} {f : α → Unit → Res} (hf : ∀ x, Keeps (f x ())) : RowsKeep (l.map f) := by
  intro k hk
  obtain ⟨x, -, rfl⟩ := List.mem_map.1 hk
  exact hf x
theorem keeps_rows_ite {c : Prop} [Decidable c] {l m : List (Unit → Res)} (hl : RowsKeep l) (hm : RowsKeep m) :
    RowsKeep (if c then l else m) := by
  split
  · exact hl
  · exact hm

/-- A state told field by field is canonical when its memories are: the form in which an update of other fields is passed over, since comparing
the records as a whole is slow. -/
theorem canonical_mk
    {hub dies cores dram far net reds faults barriers pushes granted puts core tid agenda turn nextId fresh dramEpoch badDram jam}
    (h : Memory.wf (dramDefault dramEpoch) dram = true ∧ Memory.wf Config.farByte far = true ∧ ∀ e ∈ cores, Memory.wf lmDefault
      e.2.lm = true) :
    State.Canonical ⟨hub, dies, cores, dram, far, net, reds, faults, barriers, pushes, granted, puts, core, tid, agenda, turn,
      nextId, fresh, dramEpoch, badDram, jam⟩ :=
  h
/-- A core told field by field, likewise. -/
theorem lm_mk
    {cyc last threads lm slots loading attrs landing landHolder windows winHolder dtable dtab dtNext banks mq mmrWest mmrNorth
      mmrEast mmrSouth mmrEnded cq copyDone copyFailed copyProg msgq out deque held l1 prefetches pushTable spills order marks
      badLm badLand badWin badThread badMatrix badCopy}
    (h : Memory.wf lmDefault lm = true) :
    Core.CanonicalLm ⟨cyc, last, threads, lm, slots, loading, attrs, landing, landHolder, windows, winHolder, dtable, dtab,
      dtNext, banks, mq, mmrWest, mmrNorth, mmrEast, mmrSouth, mmrEnded, cq, copyDone, copyFailed, copyProg, msgq, out, deque,
      held, l1, prefetches, pushTable, spills, order, marks, badLm, badLand, badWin, badThread, badMatrix, badCopy⟩ :=
  h
theorem canonical_none : AllCanonical none := by rintro _ ⟨⟩
theorem canonical_some {t : State} (h : t.Canonical) : AllCanonical (some t) := by rintro _ ⟨⟩; exact h
theorem canonical_of_some {o : Option State} {t : State} (e : o = some t) (h : AllCanonical o) : t.Canonical := h t e
theorem canonical_none_fst {α : Type} : AllCanonicalFst (none : Option (State × α)) := by rintro _ ⟨⟩
theorem canonical_some_fst {α : Type} {p : State × α} (h : p.1.Canonical) : AllCanonicalFst (some p) := by rintro _ ⟨⟩; exact h
theorem canonical_of_some_mk {α : Type} {o : Option (State × α)} {s : State} {a : α} (e : o = some (s, a))
    (h : AllCanonicalFst o) :
    s.Canonical :=
  h (s, a) e
theorem lm_none : AllCanonicalLm none := by rintro _ ⟨⟩
theorem lm_some {c : Core} (h : c.CanonicalLm) : AllCanonicalLm (some c) := by rintro _ ⟨⟩; exact h
theorem lm_of_some {o : Option Core} {c : Core} (e : o = some c) (h : AllCanonicalLm o) : c.CanonicalLm := h c e
theorem keeps_none : AllKeep none := by rintro _ ⟨⟩
theorem keeps_some {r : Res} (h : Keeps r) : AllKeep (some r) := by rintro _ ⟨⟩; exact h
theorem canonical_getD {o : Option State} {s : State} (h : s.Canonical) (ho : AllCanonical o) : (o.getD s).Canonical := by
  cases o with
  | none => exact h
  | some t => exact ho t rfl
theorem canonical_map {α : Type} {o : Option α} {f : α → State} (hf : ∀ x, (f x).Canonical) : AllCanonical (o.map f) := by
  cases o with
  | none => exact canonical_none
  | some x => exact canonical_some (hf x)
theorem canonical_opt_ite {c : Prop} [Decidable c] {o p : Option State} (ho : AllCanonical o) (hp : AllCanonical p) :
    AllCanonical (if c then o else p) := by
  split
  · exact ho
  · exact hp
theorem canonical_fst_ite {α : Type} {c : Prop} [Decidable c] {o p : Option (State × α)} (ho : AllCanonicalFst o)
    (hp : AllCanonicalFst p) :
    AllCanonicalFst (if c then o else p) := by
  split
  · exact ho
  · exact hp
theorem keeps_opt_ite {c : Prop} [Decidable c] {o p : Option Res} (ho : AllKeep o) (hp : AllKeep p) :
    AllKeep (if c then o else p) := by
  split
  · exact ho
  · exact hp
theorem lm_opt_ite {c : Prop} [Decidable c] {o p : Option Core} (ho : AllCanonicalLm o) (hp : AllCanonicalLm p) :
    AllCanonicalLm (if c then o else p) := by
  split
  · exact ho
  · exact hp
theorem canonical_bind {o : Option State} {f : State → Option State} (ho : AllCanonical o)
    (hf : ∀ s, s.Canonical → AllCanonical (f s)) :
    AllCanonical (o.bind f) := by
  cases o with
  | none => exact canonical_none
  | some s => exact hf s (ho s rfl)
theorem lm_bind {α : Type} {o : Option α} {f : α → Option Core} (hf : ∀ x, AllCanonicalLm (f x)) : AllCanonicalLm (o.bind f) := by
  cases o with
  | none => exact lm_none
  | some x => exact hf x
theorem keeps_map_next {o : Option State} (ho : AllCanonical o) : AllKeep (o.map .next) := by
  cases o with
  | none => exact keeps_none
  | some s => exact keeps_some (keeps_state (ho s rfl))
theorem keeps_getD {o : Option Res} {r : Res} (ho : AllKeep o) (hr : Keeps r) : Keeps (o.getD r) := by
  cases o with
  | none => exact hr
  | some x => exact ho x rfl
theorem canonical_of_eq_s {α : Type} {p : CopySt × α} {c : CopySt} {a : α} (e : p = (c, a)) (h : p.1.s.Canonical) :
    c.s.Canonical := by
  subst e; exact h
theorem canonical_reset : State.reset.Canonical := ⟨rfl, rfl, List.forall_mem_nil _⟩
theorem canonical_ite {c : Prop} [Decidable c] {s t : State} (hs : s.Canonical) (ht : t.Canonical) :
    (if c then s else t).Canonical := by
  split
  · exact hs
  · exact ht
theorem lm_ite {c : Prop} [Decidable c] {x y : Core} (hx : x.CanonicalLm) (hy : y.CanonicalLm) :
    (if c then x else y).CanonicalLm := by
  split
  · exact hx
  · exact hy
theorem keeps_ite {c : Prop} [Decidable c] {x y : Res} (hx : Keeps x) (hy : Keeps y) : Keeps (if c then x else y) := by
  split
  · exact hx
  · exact hy
theorem canonical_foldl {α : Type} {f : State → α → State} {l : List α} {s : State} (h : s.Canonical)
    (hf : ∀ s x, s.Canonical → (f s x).Canonical) :
    (l.foldl f s).Canonical := by
  induction l generalizing s with
  | nil => exact h
  | cons x l ih => exact ih (hf s x h)
theorem canonical_fst_foldl {α β : Type} {f : State × β → α → State × β} {l : List α} {p : State × β} (h : p.1.Canonical)
    (hf : ∀ p x, p.1.Canonical → (f p x).1.Canonical) :
    (l.foldl f p).1.Canonical := by
  induction l generalizing p with
  | nil => exact h
  | cons x l ih => exact ih (hf p x h)
theorem lm_foldl {α : Type} {f : Core → α → Core} {l : List α} {c : Core} (h : c.CanonicalLm)
    (hf : ∀ c x, c.CanonicalLm → (f c x).CanonicalLm) :
    (l.foldl f c).CanonicalLm := by
  induction l generalizing c with
  | nil => exact h
  | cons x l ih => exact ih (hf c x h)
theorem lm_fresh : Core.fresh.CanonicalLm := rfl
theorem lm_coreAt {s : State} (h : s.Canonical) {c : Nat} : (s.coreAt c).CanonicalLm := by
  unfold State.coreAt
  cases e : getKey s.cores c with
  | none => exact lm_fresh
  | some x => exact h.2.2 _ (mem_of_getKey e)
theorem lm_cur {s : State} (h : s.Canonical) : s.cur.CanonicalLm := lm_coreAt h
theorem canonical_setCore {s : State} (h : s.Canonical) {c : Nat} {x : Core} (hx : x.CanonicalLm) :
    (s.setCore c x).Canonical := by
  refine ⟨h.1, h.2.1, fun e he => ?_⟩
  rcases mem_setKey he with he | rfl
  · exact h.2.2 e he
  · exact hx
theorem canonical_updCore {s : State} (h : s.Canonical) {c : Nat} {f : Core → Core}
    (hf : ∀ x, x.CanonicalLm → (f x).CanonicalLm) :
    (s.updCore c f).Canonical :=
  canonical_setCore h (hf _ (lm_coreAt h))
theorem canonical_updCur {s : State} (h : s.Canonical) {f : Core → Core} (hf : ∀ x, x.CanonicalLm → (f x).CanonicalLm) :
    (s.updCur f).Canonical :=
  canonical_updCore h hf
theorem canonical_updDie {s : State} (h : s.Canonical) {d : Nat} {f : Die → Die} : (s.updDie d f).Canonical := h
theorem canonical_updHub {s : State} (h : s.Canonical) {f : Hub → Hub} : (s.updHub f).Canonical := h
theorem lm_setThr {c : Core} (h : c.CanonicalLm) {t : Nat} {x : Thread} : (c.setThr t x).CanonicalLm := h
theorem lm_updThr {c : Core} (h : c.CanonicalLm) {t : Nat} {f : Thread → Thread} : (c.updThr t f).CanonicalLm := h
theorem canonical_updThrAt {s : State} (h : s.Canonical) {c t : Nat} {f : Thread → Thread} : (s.updThrAt c t f).Canonical :=
  canonical_updCore h fun _ hx => hx
theorem canonical_updThr {s : State} (h : s.Canonical) {f : Thread → Thread} : (s.updThr f).Canonical := canonical_updThrAt h
/-- A change of every core's entry that keeps each local memory canonical. -/
theorem canonical_mapCores {s : State} (h : s.Canonical) {f : Nat × Core → Nat × Core}
    (hf : ∀ e, e.2.CanonicalLm → (f e).2.CanonicalLm) :
    ({ s with cores := s.cores.map f } : State).Canonical := by
  refine ⟨h.1, h.2.1, fun e he => ?_⟩
  obtain ⟨x, hx, rfl⟩ := List.mem_map.1 he
  exact hf x (h.2.2 x hx)
theorem canonical_dramPut {s : State} (h : s.Canonical) {pa : Nat} {l : List Byte} : (s.dramPut pa l).Canonical :=
  ⟨wf_memWrite _ _ _ _ h.1, h.2⟩
theorem canonical_paPut {s : State} (h : s.Canonical) {pa : Nat} {l : List Byte} : (s.paPut pa l).Canonical := by
  have hm := paPut_wfMemory (s := s) ⟨h.1, h.2.1⟩ pa l
  refine ⟨hm.1, hm.2, ?_⟩
  rw [(paPut_memoryOnly s pa l).cores_eq]
  exact h.2.2
theorem lm_lmStore {c : Core} (h : c.CanonicalLm) {a : Nat} {l : List Byte} : (c.lmStore a l).CanonicalLm := wf_memWrite _ _ _ _ h

/-! ### The named operations over the state -/

theorem canonical_updCtl {s : State} (h : s.Canonical) {f : Ctl → Ctl} : (s.updCtl f).Canonical := canonical_updThr h
theorem canonical_updLaunch {s : State} (h : s.Canonical) {l : Nat} {f : Launch → Launch} : (s.updLaunch l f).Canonical :=
  canonical_updHub h
theorem canonical_wr {s : State} (h : s.Canonical) {r : Reg} {x : Word} : (s.wr r x).Canonical := canonical_updThr h
theorem canonical_setMask {s : State} (h : s.Canonical) {k : MaskReg} {m : Mask} : (s.setMask k m).Canonical :=
  canonical_ite h (canonical_updThr h)
theorem lm_refill {c : Core} (hc : c.CanonicalLm) {t : Nat} : (c.refill t).CanonicalLm := lm_updThr hc
theorem lm_popWord {c : Core} (hc : c.CanonicalLm) {t : Nat} : (c.popWord t).CanonicalLm := lm_updThr hc
theorem canonical_refill {s : State} (h : s.Canonical) : s.refill.Canonical := canonical_updCur h fun _ hc => lm_refill hc
theorem canonical_dramWrite {s : State} (h : s.Canonical) {pa n x : Nat} : (s.dramWrite pa n x).Canonical := canonical_dramPut h
theorem canonical_parkSt {s : State} (h : s.Canonical) {why : Park} : (s.parkSt why).Canonical :=
  canonical_setCore h (lm_mk (lm_setThr (lm_cur h)))
theorem keeps_park {s : State} (h : s.Canonical) {why : Park} : Keeps (s.park why) := keeps_state (canonical_parkSt h)
theorem lm_wakeBy {c : Core} (hc : c.CanonicalLm) {p : Nat → Thread → Park → Bool} : (c.wakeBy p).CanonicalLm := by
  unfold Core.wakeBy
  extract_lets +onlyGivenNames go
  have hgo : ∀ c t, c.CanonicalLm → (go c t).CanonicalLm := by
    refine fun _ _ hc1 => ?_
    dsimp -zeta only [go]
    split
    · exact lm_ite (lm_updThr hc1) hc1
    · exact hc1
  exact lm_mk (lm_foldl hc hgo)
theorem lm_wakeIf {c : Core} (hc : c.CanonicalLm) {p : Nat → Park → Bool} : (c.wakeIf p).CanonicalLm := lm_wakeBy hc
theorem canonical_updPool {s : State} (h : s.Canonical) {f : Nat → Saved → Saved} : (s.updPool f).Canonical :=
  canonical_foldl (canonical_mk h) fun _ _ hs => canonical_ite hs (canonical_dramWrite hs)
theorem canonical_wakeBy {s : State} (h : s.Canonical) {p : Nat → Nat → Thread → Park → Bool} : (s.wakeBy p).Canonical := by
  unfold State.wakeBy
  refine canonical_updPool (canonical_mapCores h (fun _ hc => ?_))
  dsimp only
  exact lm_wakeBy hc
theorem canonical_wakeIf {s : State} (h : s.Canonical) {p : Nat → Nat → Park → Bool} : (s.wakeIf p).Canonical :=
  canonical_wakeBy h
theorem lm_wakeFirst {c : Core} (hc : c.CanonicalLm) {p : Park → Bool} : (c.wakeFirst p).CanonicalLm := by
  unfold Core.wakeFirst
  extract_lets +onlyGivenNames key l
  split
  · exact lm_updThr hc
  · exact hc
theorem lm_testCounters {c : Core} (hc : c.CanonicalLm) : c.testCounters.CanonicalLm := lm_wakeIf hc
theorem lm_lmPut {c : Core} (hc : c.CanonicalLm) {a : Nat} {l : List Byte} : (c.lmPut a l).CanonicalLm :=
  lm_wakeIf (lm_lmStore hc)
theorem lm_lmWrite {c : Core} (hc : c.CanonicalLm) {a n x : Nat} : (c.lmWrite a n x).CanonicalLm := lm_lmPut hc
theorem canonical_redirect {s : State} (h : s.Canonical) {tn : Nat} {m : Message} {core tid reason : Nat} :
    (s.redirect tn m core tid reason).Canonical := by
  unfold State.redirect
  extract_lets +onlyGivenNames s1
  have hs1 : s1.Canonical := canonical_updHub h
  split
  · exact canonical_updHub hs1
  · exact canonical_ite (canonical_updHub hs1) (canonical_ite (canonical_dramWrite (canonical_dramPut (canonical_dramWrite hs1)))
      (canonical_dramWrite (canonical_dramWrite hs1)))
theorem canonical_redirectQueued {s : State} (h : s.Canonical) {core tid : Nat} : (s.redirectQueued core tid).Canonical :=
  canonical_foldl (canonical_updCore h (fun _ hc => lm_mk hc)) fun _ _ hs => canonical_redirect hs
theorem lm_freeWindows {c : Core} (hc : c.CanonicalLm) : c.freeWindows.CanonicalLm := lm_wakeIf (lm_mk hc)
theorem lm_freeLanding {c : Core} (hc : c.CanonicalLm) : c.freeLanding.CanonicalLm := lm_mk hc
theorem canonical_releaseHolders {s : State} (h : s.Canonical) {core l : Nat} : (s.releaseHolders core l).Canonical :=
  canonical_ite h (canonical_updCore h (fun _ hc => lm_ite (lm_freeLanding (lm_ite (lm_freeWindows hc) hc))
    (lm_ite (lm_freeWindows hc) hc)))
theorem lm_abandon {c : Core} (hc : c.CanonicalLm) {t : Nat} : (c.abandon t).CanonicalLm :=
  lm_updThr (lm_ite (lm_wakeIf (lm_mk (lm_mk hc))) (lm_mk hc))
theorem canonical_signalFault {s : State} (h : s.Canonical) {tn : Nat} : (s.signalFault tn).Canonical := canonical_updHub h
theorem canonical_holdRecord {s : State} (h : s.Canonical) {n a : Nat} {r : FaultRec} : (s.holdRecord n a r).Canonical :=
  canonical_ite h (canonical_mk (canonical_dramWrite h))
theorem canonical_appendRecord {s : State} (h : s.Canonical) {n : Nat} : (s.appendRecord n).Canonical := by
  unfold State.appendRecord
  split
  · exact h
  · extract_lets +onlyGivenNames older gone
    have hgone : ∀ s, s.Canonical → (gone s).Canonical := fun _ hs => canonical_mk hs
    split
    · exact h
    · split
      · exact canonical_ite h (hgone _ h)
      · extract_lets +onlyGivenNames q a nq w
        exact canonical_ite h (canonical_ite (canonical_holdRecord h)
          (canonical_ite h (hgone _ (canonical_signalFault
          (canonical_ite (canonical_dramWrite (canonical_dramWrite (canonical_dramPut h)))
          (canonical_dramWrite (canonical_dramPut h)))))))
theorem canonical_stopRecord {s : State} (h : s.Canonical) {r : FaultRec} : (s.stopRecord r).Canonical :=
  canonical_appendRecord (canonical_mk h)
theorem lm_wakeEngines {c : Core} (hc : c.CanonicalLm) : c.wakeEngines.CanonicalLm := lm_wakeIf hc
theorem canonical_discardThread {s : State} (h : s.Canonical) {core t : Nat} : (s.discardThread core t).Canonical :=
  canonical_redirectQueued (canonical_updCore h (fun _ hc => lm_updThr (lm_wakeEngines (lm_mk (lm_abandon hc)))))
theorem lm_dropLoading {c : Core} (hc : c.CanonicalLm) {l : Nat} : (c.dropLoading l).CanonicalLm := by
  unfold Core.dropLoading
  split
  · split
    · split
      · exact lm_mk hc
      · exact lm_mk hc
    · exact hc
  · exact hc
theorem lm_dropMmr {c : Core} (hc : c.CanonicalLm) {l : Nat} : (c.dropMmr l).CanonicalLm := lm_mk hc
theorem canonical_freeInstances {s : State} (h : s.Canonical) {l : Nat} : (s.freeInstances l).Canonical :=
  canonical_wakeBy (canonical_mk h)
theorem canonical_forget {s : State} (h : s.Canonical) {l : Nat} : (s.forget l).Canonical := by
  unfold State.forget
  extract_lets +onlyGivenNames old
  refine canonical_mapCores h fun _ hc => ?_
  dsimp only
  exact lm_mk hc
theorem canonical_abortLaunch {s : State} (h : s.Canonical) {l status : Nat} : (s.abortLaunch l status).Canonical := by
  unfold State.abortLaunch
  split
  · exact h
  · split
    · exact h
    · extract_lets +onlyGivenNames s1
      have hs1 : s1.Canonical := canonical_updLaunch h
      extract_lets +onlyGivenNames cores s2
      have hs2 : s2.Canonical := canonical_foldl hs1 fun _ _ hs => canonical_foldl
        (canonical_updCore hs (fun _ hc => lm_mk (lm_dropMmr (lm_dropLoading hc)))) (fun _ _ hs2 => canonical_discardThread hs2)
      exact canonical_foldl (canonical_updHub (canonical_mk (canonical_freeInstances hs2))) fun _ _ hs => canonical_releaseHolders
        hs
theorem canonical_hubStop {s : State} (h : s.Canonical) {cause : Nat} {val pc : Word} : (s.hubStop cause val pc).Canonical := by
  unfold State.hubStop
  extract_lets +onlyGivenNames t r s1
  have hs1 : s1.Canonical := canonical_stopRecord h
  extract_lets +onlyGivenNames s2
  have hs2 : s2.Canonical := by
    dsimp -zeta only [s2]
    split
    · exact canonical_abortLaunch hs1
    · exact hs1
  exact canonical_discardThread hs2
theorem lm_mend {c : Core} (hc : c.CanonicalLm) {t : Nat} {l : List Nat} : (c.mend t l).CanonicalLm := lm_mk hc
theorem canonical_trapAt {s : State} (h : s.Canonical) {cause : Nat} {val pc : Word} : (s.trapAt cause val pc).Canonical := by
  unfold State.trapAt
  extract_lets +onlyGivenNames t stop s1
  have hs1 : s1.Canonical := canonical_updCur h fun _ hc => lm_mend (lm_abandon hc)
  exact canonical_ite (canonical_ite (canonical_updThr (canonical_updThr hs1))
    (canonical_hubStop (canonical_updThr (canonical_updThr hs1)))) (canonical_refill (canonical_updThr (canonical_updThr hs1)))
theorem canonical_trapSt {s : State} (h : s.Canonical) {cause : Nat} {val : Word} : (s.trapSt cause val).Canonical :=
  canonical_trapAt h
theorem keeps_trap {s : State} (h : s.Canonical) {cause : Nat} {val : Word} : Keeps (s.trap cause val) :=
  keeps_state (canonical_trapSt h)
theorem canonical_complete {s : State} (h : s.Canonical) {interval : Nat} : (s.complete interval).Canonical := canonical_updThr h
theorem canonical_goOn {s : State} (h : s.Canonical) {interval : Nat} : (s.goOn interval).Canonical :=
  canonical_updThr (canonical_complete h)
theorem canonical_runOff {s : State} (h : s.Canonical) : s.runOff.Canonical := canonical_ite (canonical_trapAt h) h
theorem canonical_advance {s : State} (h : s.Canonical) {interval : Nat} : (s.advance interval).Canonical :=
  canonical_runOff (canonical_goOn h)
theorem keeps_next {s : State} (h : s.Canonical) {interval : Nat} : Keeps (s.next interval) := keeps_state (canonical_advance h)
theorem canonical_jump {s : State} (h : s.Canonical) {interval : Nat} {target : Word} : (s.jump interval target).Canonical :=
  canonical_updThr (canonical_complete h)
theorem keeps_jumpChecked {s s' : State} (h : s.Canonical) (hs' : s'.Canonical) {interval : Nat} {t : Word} :
    Keeps (jumpChecked s s' interval t) := by
  unfold jumpChecked
  split
  · exact keeps_trap h
  · exact keeps_state (canonical_jump hs')
theorem keeps_returnFromTrap {s : State} (h : s.Canonical) : Keeps s.returnFromTrap := keeps_jumpChecked h (canonical_updCtl h)

/-! ### Flags -/

theorem canonical_raise {s : State} (h : s.Canonical) {f : Flags} : (s.raise f).Canonical := canonical_updCtl h

/-! ### Operands and windows -/

theorem keeps_guardTrap {s : State} (h : s.Canonical) {t : Option TrapOf} {k : Unit → Res} (hk : ∀ x, Keeps (k x)) :
    Keeps (guardTrap s t k) := by
  unfold guardTrap
  split
  · exact keeps_trap h
  · exact hk _
theorem canonical_vput {s : State} (h : s.Canonical) {c : VCode} {x : VReg} : (s.vput c x).Canonical := by
  unfold State.vput
  split
  · refine canonical_updCur h fun _ hc => ?_
    split
    · exact lm_mk hc
    · exact hc
  · exact canonical_updThr h
theorem canonical_hold {s : State} (h : s.Canonical) {l : List VCode} : (s.hold l).Canonical :=
  canonical_ite h (canonical_updCur h (fun _ hc => lm_mk hc))
theorem canonical_claim {s : State} (h : s.Canonical) {reads writes : List VCode} : (s.claim reads writes).Canonical :=
  canonical_ite h (canonical_updThr (canonical_updCur (canonical_hold h) (fun _ hc => lm_wakeIf (lm_mk hc))))
theorem keeps_withWindows {reads writes : List VCode} {early late : Option TrapOf} {s : State} (h : s.Canonical)
    {k : State → Res} (hk : ∀ s, s.Canonical → Keeps (k s)) :
    Keeps (withWindows reads writes early late s k) := by
  unfold withWindows
  refine keeps_guardTrap h fun _ => ?_
  split
  · exact keeps_park (canonical_hold h)
  · exact keeps_guardTrap h fun _ => hk _ (canonical_claim h)
theorem canonical_vwrite {s : State} (h : s.Canonical) {d : VCode} {w n : Nat} {k : Mask} {f : Nat → Fl} :
    (s.vwrite d w n k f).Canonical :=
  canonical_raise (canonical_vput h)

/-! ### Shapes of arithmetic instructions -/

theorem keeps_writeReg {d : Reg} {x : Word} {interval : Nat} {s : State} (h : s.Canonical) : Keeps (writeReg d x interval s) :=
  keeps_next (canonical_wr h)
theorem keeps_alu2 {f : Word → Word → Word} {d a b : Reg} {s : State} (h : s.Canonical) : Keeps (alu2 f d a b s) :=
  keeps_writeReg h
theorem keeps_alu1 {f : Word → Word} {d a : Reg} {s : State} (h : s.Canonical) : Keeps (alu1 f d a s) := keeps_writeReg h

/-! ### Capture units -/

theorem canonical_addSample {s : State} (h : s.Canonical) {u n : Nat} : (s.addSample u n).Canonical := canonical_updHub h
theorem canonical_sampleEvent {s : State} (h : s.Canonical) {units : List Nat} {code : Nat} {fits : Nat → Bool} {n : Nat} :
    (s.sampleEvent units code fits n).Canonical :=
  canonical_foldl h fun _ _ hs => canonical_ite (canonical_addSample hs) hs

end Sys2Proof.Machine
end

section
/-! SUPPORT. Global memory, the caches and the atomics keep the canonical form. -/

namespace Sys2Proof.Machine

/-! ### Global memory -/

theorem canonical_sectorWrite {s : State} (h : s.Canonical) {pa key : Nat} {l : List Byte} : (s.sectorWrite pa key l).Canonical :=
  canonical_ite (canonical_paPut (canonical_ite h (canonical_mk h))) (canonical_paPut (canonical_ite h (canonical_mk h)))
theorem canonical_lineWrite {s : State} (h : s.Canonical) {pa key : Nat} {x : VReg} {l : List Nat} :
    (s.lineWrite pa key x l).Canonical :=
  canonical_foldl h fun _ _ hs => canonical_sectorWrite hs
theorem canonical_setPte {s : State} (h : s.Canonical) {a : Nat} {x : Word} : (s.setPte a x).Canonical := canonical_dramWrite h
theorem canonical_translate {s : State} (h : s.Canonical) {d tn va : Nat} {acc : Access} {slots : Option Nat} :
    (s.translate d tn va acc slots).1.Canonical := by
  unfold State.translate
  split
  · exact h
  · extract_lets +onlyGivenNames sl use
    have huse : ∀ s l a p, s.Canonical → (use s l a p).1.Canonical := by
      refine fun _ _ _ _ hs => ?_
      dsimp -zeta only [use]
      split
      · extract_lets +onlyGivenNames r set p'
        split
        · exact hs
        · exact canonical_updDie (canonical_ite hs (canonical_setPte hs))
      · exact hs
    split
    · exact huse _ _ _ _ h
    · split
      · exact h
      · exact h
      · exact huse _ _ _ _ h
theorem lm_l1Drop {c : Core} (hc : c.CanonicalLm) {tn line : Nat} : (c.l1Drop tn line).CanonicalLm := lm_mk hc
theorem lm_l1Put {c : Core} (hc : c.CanonicalLm) {l : L1Line} : (c.l1Put l).CanonicalLm :=
  lm_ite (lm_l1Drop hc) (lm_mk (lm_l1Drop hc))
theorem lm_l1Upd {c : Core} (hc : c.CanonicalLm) {tn line : Nat} {f : L1Line → L1Line} : (c.l1Upd tn line f).CanonicalLm :=
  lm_mk hc
theorem canonical_dropCount {s : State} (h : s.Canonical) {c tn line : Nat} : (s.dropCount c tn line).Canonical :=
  canonical_ite h (canonical_updDie h)
theorem canonical_losePush {s : State} (h : s.Canonical) {c tn line i : Nat} : (s.losePush c tn line i).Canonical :=
  canonical_ite h (canonical_updDie (canonical_updCore h (fun _ hc => lm_l1Upd hc)))
theorem canonical_l1Invalidate {s : State} (h : s.Canonical) {c tn line i : Nat} : (s.l1Invalidate c tn line i).Canonical := by
  unfold State.l1Invalidate
  split
  · exact h
  · exact canonical_dropCount (canonical_updCore (canonical_losePush h) (fun _ hc => lm_l1Upd hc))
theorem canonical_recallInto {s : State} (h : s.Canonical) {d : Nat} {l : LlcLine} {keep : Bool} :
    (s.recallInto d l keep).1.Canonical := by
  unfold State.recallInto
  extract_lets +onlyGivenNames guest
  refine canonical_fst_foldl h fun _ _ hs => ?_
  split
  · exact hs
  · split
    · exact hs
    · extract_lets +onlyGivenNames m src line
      split
      · exact canonical_updCore hs fun _ hc => lm_l1Upd hc
      · exact canonical_l1Invalidate hs
theorem canonical_dropCopies {s : State} (h : s.Canonical) {d tn line : Nat} {secs : List Nat} :
    (s.dropCopies d tn line secs).Canonical :=
  canonical_foldl h fun _ _ hs => canonical_foldl hs (fun _ _ hs1 => canonical_l1Invalidate hs1)
theorem canonical_homeMerge {s : State} (h : s.Canonical) {grow : State → Nat → LlcLine → LlcLine → State}
    (hgrow : ∀ s x x' x'', s.Canonical → (grow s x x' x'').Canonical) {tn line pa key : Nat} {m : Mask} {x : VReg} :
    (s.homeMerge grow tn line pa key m x).Canonical := by
  unfold State.homeMerge
  extract_lets +onlyGivenNames mem
  have hmem : ∀ s, s.Canonical → (mem s).Canonical := fun _ hs => canonical_lineWrite hs
  split
  · exact hmem _ h
  · extract_lets +onlyGivenNames h1
    split
    · exact hmem _ h
    · exact hgrow _ _ _ _ (canonical_dropCopies (canonical_recallInto h))
theorem canonical_writeHome {s : State} (h : s.Canonical) {grow : State → Nat → LlcLine → LlcLine → State}
    (hgrow : ∀ s x x' x'', s.Canonical → (grow s x x' x'').Canonical) {d : Nat} {l : LlcLine} :
    (s.writeHome grow d l).Canonical :=
  canonical_ite h (canonical_ite (canonical_mk h) (canonical_ite (canonical_homeMerge h hgrow) (canonical_lineWrite h)))
theorem canonical_evict {s : State} (h : s.Canonical) {grow : State → Nat → LlcLine → LlcLine → State}
    (hgrow : ∀ s x x' x'', s.Canonical → (grow s x x' x'').Canonical) {d tn line : Nat} :
    (s.evict grow d tn line).Canonical := by
  unfold State.evict
  split
  · exact h
  · exact canonical_writeHome (canonical_updDie (canonical_dropCopies (canonical_recallInto h))) hgrow
theorem canonical_makeRoom {s : State} (h : s.Canonical) {grow : State → Nat → LlcLine → LlcLine → State}
    (hg : ∀ s d x y, s.Canonical → (grow s d x y).Canonical) {d tn line : Nat} {need : State → Nat} {tag exp : Bool} {n : Nat} :
    (s.makeRoom grow d tn line need tag exp n).Canonical := by
  induction n generalizing s with
  | zero => exact h
  | succ n ih =>
    unfold State.makeRoom
    extract_lets +onlyGivenNames others
    split
    · exact h
    · split
      · exact canonical_mk h
      · exact ih (canonical_ite (canonical_updDie (canonical_evict h hg)) (canonical_evict h hg))
theorem canonical_llcStore {n : Nat} {s : State} (h : s.Canonical) {d : Nat} {x y : LlcLine} :
    (State.llcStore n s d x y).Canonical := by
  induction n generalizing s d x y with
  | zero =>
    unfold State.llcStore
    exact canonical_ite (canonical_updDie h) (canonical_mk h)
  | succ n ih =>
    unfold State.llcStore
    extract_lets +onlyGivenNames c'
    split
    · exact canonical_updDie h
    · extract_lets +onlyGivenNames s1
      have hs1 : s1.Canonical := canonical_updDie h
      extract_lets +onlyGivenNames s2
      have hs2 : s2.Canonical := canonical_makeRoom hs1 fun _ _ _ _ hs => ih hs
      split
      · exact canonical_updDie hs2
      · exact canonical_mk hs2
theorem canonical_llcWrite {s : State} (h : s.Canonical) {d : Nat} {old new : LlcLine} : (s.llcWrite d old new).Canonical :=
  canonical_llcStore h
theorem canonical_settle {α : Type} {s : State} (h : s.Canonical) {r : State × Ans × α} (hr : r.1.Canonical) {x : α} :
    (settle s r x).1.Canonical := by
  unfold settle
  split
  · exact h
  · exact hr
theorem canonical_settled {s : State} (h : s.Canonical) {r : State × Ans} (hr : r.1.Canonical) : (settled s r).1.Canonical := by
  unfold settled
  split
  · exact h
  · exact hr
theorem canonical_unlessJam {s : State} (h : s.Canonical) {s' : State} (hs' : s'.Canonical) : (s.unlessJam s').Canonical :=
  canonical_ite h hs'
theorem canonical_homeRecall {s : State} (h : s.Canonical) {tn line pa : Nat} : (s.homeRecall tn line pa).1.Canonical := by
  unfold State.homeRecall
  split
  · exact h
  · split
    · exact h
    · exact canonical_llcWrite (canonical_recallInto h)
theorem canonical_answerMiss {s : State} (h : s.Canonical) {d tn line : Nat} : (s.answerMiss d tn line).Canonical := by
  unfold State.answerMiss
  extract_lets +onlyGivenNames sl
  split
  · exact h
  · exact canonical_ite (canonical_mk (canonical_mk (canonical_updDie h))) (canonical_mk (canonical_updDie h))
theorem canonical_fillFrom {s : State} (h : s.Canonical) {d tn line va pa key : Nat} {engine : Bool} :
    (s.fillFrom d tn line va pa key engine).1.Canonical := by
  unfold State.fillFrom
  split
  · exact h
  · extract_lets +onlyGivenNames r
    have hr : r.1.Canonical := by
      dsimp -zeta only [r]
      split
      · exact canonical_homeRecall h
      · exact h
    extract_lets +onlyGivenNames s1
    have hs1 : s1.Canonical := hr
    split
    · exact canonical_answerMiss hs1
    · exact canonical_answerMiss (canonical_updDie (canonical_makeRoom hs1 (fun _ _ _ _ hs => canonical_llcStore hs)))
theorem canonical_fillLine {s : State} (h : s.Canonical) {d tn line va : Nat} {acc : Access} {engine : Bool} :
    (s.fillLine d tn line va acc engine).1.Canonical := by
  unfold State.fillLine
  split
  next e =>
    split
    · exact canonical_fillFrom (canonical_of_eq e (canonical_translate h))
    · exact canonical_of_eq e (canonical_translate h)
  next e => exact canonical_of_eq e (canonical_translate h)
  next e2 => exact canonical_answerMiss (canonical_of_eq e2 (canonical_translate h))
theorem canonical_ensureLine {s : State} (h : s.Canonical) {d tn line va : Nat} {acc : Access} {engine : Bool} :
    (s.ensureLine d tn line va acc engine).1.Canonical := by
  unfold State.ensureLine
  split
  · exact canonical_fillLine h
  · split
    · exact h
    · split
      · exact canonical_fillLine (canonical_evict h (fun _ _ _ _ hs => canonical_llcStore hs))
      · split
        · exact canonical_updDie h
        · split
          next e4 => exact canonical_updDie (canonical_of_eq e4 (canonical_translate h))
          next e5 => exact canonical_of_eq e5 (canonical_translate h)
theorem canonical_fetchWalk {s : State} (h : s.Canonical) {d tn va : Nat} : (s.fetchWalk d tn va).1.Canonical := by
  unfold State.fetchWalk
  split
  · split
    next e1 => exact canonical_of_eq e1 (canonical_translate h)
    next e2 => exact canonical_of_eq e2 (canonical_translate h)
  · exact h
theorem canonical_attach {s : State} (h : s.Canonical) {d : Nat} {r : MissReq} {tn : Nat} : (s.attach d r tn).1.Canonical := by
  unfold State.attach
  extract_lets +onlyGivenNames line
  split
  · exact h
  · extract_lets +onlyGivenNames sl live set
    have hset : ∀ l n, (set l n).Canonical := fun _ _ => canonical_updDie h
    split
    · split
      · exact hset _ _
      · exact hset _ _
    · split
      · exact hset _ _
      · exact hset _ _
theorem canonical_attachAll {s : State} (h : s.Canonical) {core tid : Nat} : (s.attachAll core tid).1.Canonical := by
  unfold State.attachAll
  extract_lets +onlyGivenNames t
  refine canonical_fst_foldl h fun _ _ hs => ?_
  split
  · exact hs
  · exact canonical_attach hs
theorem canonical_noteMerge {s : State} (h : s.Canonical) {d tn line : Nat} : (s.noteMerge d tn line).Canonical :=
  canonical_ite (canonical_updDie h) h
theorem canonical_recallSector {s : State} (h : s.Canonical) {d tn line i : Nat} {by_ : Option Nat} {keep : Bool} :
    (s.recallSector d tn line i by_ keep).Canonical := by
  unfold State.recallSector
  split
  · exact h
  · split
    · exact h
    · split
      · exact h
      · split
        · exact canonical_updDie h
        · extract_lets +onlyGivenNames guest m s1
          have hs1 : s1.Canonical := by
            dsimp -zeta only [s1]
            split
            · exact canonical_updDie h
            · exact h
          exact canonical_llcWrite (canonical_ite (canonical_updCore hs1 (fun _ hc => lm_l1Upd hc)) (canonical_l1Invalidate hs1))
theorem canonical_dropSharers {s : State} (h : s.Canonical) {d tn line i : Nat} {by_ : Option Nat} :
    (s.dropSharers d tn line i by_).Canonical :=
  canonical_updDie (canonical_foldl h (fun _ _ hs => canonical_l1Invalidate hs))
theorem canonical_l1Evict {s : State} (h : s.Canonical) {c : Nat} {k : L1Line} : (s.l1Evict c k).Canonical := by
  unfold State.l1Evict
  extract_lets +onlyGivenNames d s1
  have hs1 : s1.Canonical := by
    refine canonical_foldl h fun _ _ hs => ?_
    split
    · split
      · exact canonical_llcWrite hs
      · exact hs
    · exact hs
  exact canonical_ite (canonical_updCore hs1 (fun _ hc => lm_l1Drop hc))
    (canonical_updDie (canonical_updCore hs1 (fun _ hc => lm_l1Drop hc)))
theorem canonical_l1Room {s : State} (h : s.Canonical) {c tn line : Nat} : (s.l1Room c tn line).Canonical := by
  unfold State.l1Room
  extract_lets +onlyGivenNames k
  have hk : k.CanonicalLm := lm_coreAt h
  split
  · exact h
  · split
    · exact h
    · split
      · exact canonical_l1Evict h
      · exact canonical_mk h
theorem canonical_lineFor {s : State} (h : s.Canonical) {c tn line va : Nat} {acc : Access} :
    (s.lineFor c tn line va acc).1.Canonical := by
  unfold State.lineFor
  split
  · exact canonical_ensureLine (canonical_l1Room h)
  · exact canonical_ensureLine h
theorem canonical_l1Install {s : State} (h : s.Canonical) {c tn line i : Nat} {st : SecSt} :
    (s.l1Install c tn line i st).Canonical := by
  unfold State.l1Install
  split
  · exact h
  · exact canonical_updCore h fun _ hc => lm_l1Put hc
theorem canonical_readRequest {s : State} (h : s.Canonical) {c tn va : Nat} : (s.readRequest c tn va).1.Canonical := by
  unfold State.readRequest
  extract_lets +onlyGivenNames d line i
  split
  · exact h
  · refine canonical_settled h ?_
    split
    next e1 =>
      split
      · exact canonical_of_eq e1 (canonical_lineFor h)
      · exact canonical_l1Install (canonical_updDie (canonical_recallSector (canonical_of_eq e1 (canonical_lineFor h))))
    · exact canonical_lineFor h
theorem canonical_ownRequest {s : State} (h : s.Canonical) {c tn va : Nat} : (s.ownRequest c tn va).1.Canonical := by
  unfold State.ownRequest
  extract_lets +onlyGivenNames d line i
  split
  · exact h
  · refine canonical_settled h ?_
    split
    next e =>
      dsimp only
      exact canonical_l1Install (canonical_updDie (canonical_losePush (canonical_dropSharers (canonical_recallSector
        (canonical_of_eq e (canonical_lineFor h))))))
    · exact canonical_lineFor h
theorem canonical_obtain {s : State} (h : s.Canonical) {c tn va : Nat} {write : Bool} : (s.obtain c tn va write).1.Canonical := by
  unfold State.obtain
  split
  · exact h
  · split
    · exact canonical_ownRequest h
    · exact canonical_readRequest h
theorem canonical_usePush {s : State} (h : s.Canonical) {c tn va : Nat} : (s.usePush c tn va).Canonical := by
  unfold State.usePush
  extract_lets +onlyGivenNames i
  split
  · split
    · exact canonical_updDie (canonical_updCore h (fun _ hc => lm_l1Upd hc))
    · exact h
  · exact h
theorem canonical_l1Read {s : State} (h : s.Canonical) {c tn va n : Nat} : (s.l1Read c tn va n).1.Canonical := by
  unfold State.l1Read
  extract_lets +onlyGivenNames s1
  have hs1 : s1.Canonical := canonical_usePush h
  split
  · exact canonical_updCore hs1 fun _ hc => lm_l1Put hc
  · exact hs1
theorem canonical_l1Write {s : State} (h : s.Canonical) {c tn line : Nat} {m : Mask} {x : VReg} :
    (s.l1Write c tn line m x).Canonical := by
  unfold State.l1Write
  refine canonical_updCore h fun _ hc => ?_
  split
  · exact lm_l1Put hc
  · exact hc
theorem canonical_clearSector {s : State} (h : s.Canonical) {d tn line i : Nat} : (s.clearSector d tn line i).Canonical :=
  canonical_dropSharers (canonical_recallSector h)
theorem canonical_sliceRead {s : State} (h : s.Canonical) {d tn va n : Nat} {engine : Bool} :
    (s.sliceRead d tn va n engine).1.Canonical := by
  unfold State.sliceRead
  extract_lets +onlyGivenNames line
  split
  · exact h
  · refine canonical_settle h ?_
    split
    next e1 => exact canonical_recallSector (canonical_of_eq e1 (canonical_ensureLine (canonical_ite (canonical_noteMerge h) h)))
    next e2 => exact canonical_of_eq e2 (canonical_ensureLine (canonical_ite (canonical_noteMerge h) h))
theorem canonical_sliceWrite {s : State} (h : s.Canonical) {d tn line va : Nat} {acc : Access} {m : Mask} {x : VReg}
    {engine : Bool} :
    (s.sliceWrite d tn line va acc m x engine).1.Canonical := by
  unfold State.sliceWrite
  split
  · exact h
  · refine canonical_settled h ?_
    split
    next e1 =>
      extract_lets +onlyGivenNames s1
      have hs1 : s1.Canonical := canonical_foldl (canonical_of_eq e1
        (canonical_ensureLine (canonical_ite (canonical_noteMerge h) h))) fun _ _ hs => canonical_clearSector hs
      extract_lets +onlyGivenNames s2
      have hs2 : s2.Canonical := canonical_updDie hs1
      split
      · exact canonical_llcWrite hs2
      · exact hs2
    · exact canonical_ensureLine (canonical_ite (canonical_noteMerge h) h)
theorem canonical_cleanLine {s : State} (h : s.Canonical) {d tn line : Nat} : (s.cleanLine d tn line).Canonical := by
  unfold State.cleanLine
  split
  · exact h
  · extract_lets +onlyGivenNames r
    have hr : r.1.Canonical := canonical_recallInto h
    extract_lets +onlyGivenNames s1
    have hs1 : s1.Canonical := canonical_llcWrite hr
    split
    · exact hs1
    · exact canonical_updDie (canonical_writeHome hs1 (fun _ _ _ _ hs => canonical_llcStore hs))
theorem canonical_flushLine {s : State} (h : s.Canonical) {d tn line : Nat} : (s.flushLine d tn line).Canonical :=
  canonical_evict h fun _ _ _ _ hs => canonical_llcStore hs
theorem canonical_discardLine {s : State} (h : s.Canonical) {d tn line : Nat} : (s.discardLine d tn line).Canonical := by
  unfold State.discardLine
  split
  · exact h
  · exact canonical_updDie (canonical_dropCopies h)
theorem canonical_release {s : State} (h : s.Canonical) {d : Nat} {pod : Bool} : AllCanonical (s.release d pod) :=
  canonical_opt_ite canonical_none (canonical_some (canonical_foldl h (fun _ _ hs => canonical_cleanLine hs)))
theorem canonical_acquire {s : State} (h : s.Canonical) {d : Nat} {pod : Bool} : (s.acquire d pod).Canonical := canonical_updDie h

/-! ### A thread's global accesses -/

theorem keeps_pageFault {s : State} (h : s.Canonical) {acc : Access} {l : List PageMiss} : Keeps (s.pageFault acc l) :=
  keeps_ite (keeps_trap h) (keeps_park (canonical_mk (canonical_updCtl h)))
theorem canonical_dropRed {s : State} (h : s.Canonical) {r : Red} : (s.dropRed r).Canonical := canonical_mk h
theorem keeps_waitReds {s : State} (h : s.Canonical) {why : Park} : Keeps (s.waitReds why) := by
  unfold State.waitReds
  extract_lets +onlyGivenNames noted
  split
  · exact keeps_park h
  · split
    · exact keeps_trap (canonical_dropRed h)
    · exact keeps_ite (keeps_park h) (keeps_ite (keeps_trap (canonical_dropRed h))
        (keeps_park (canonical_mk (canonical_updCtl h))))
    · exact keeps_park h
theorem keeps_afterReds {why : Park} {s : State} (h : s.Canonical) {k : State → Res} (hk : ∀ s, s.Canonical → Keeps (k s)) :
    Keeps (afterReds why s k) :=
  keeps_ite (hk _ h) (keeps_waitReds h)
theorem canonical_l1ToShared {s : State} (h : s.Canonical) {c tn line i : Nat} : (s.l1ToShared c tn line i).Canonical := by
  unfold State.l1ToShared
  extract_lets +onlyGivenNames d
  split
  · exact canonical_ite (canonical_llcWrite (canonical_updCore h (fun _ hc => lm_l1Upd hc))) h
  · exact h
theorem canonical_fire {s : State} (h : s.Canonical) {c : Nat} {p : PushEntry → Bool} : (s.fire c p).Canonical :=
  canonical_ite h (canonical_foldl (canonical_updCore h (fun _ hc => lm_mk hc))
    (fun _ _ hs => canonical_mk (canonical_foldl hs (fun _ _ hs1 => canonical_l1ToShared hs1))))
theorem canonical_countStore {s : State} (h : s.Canonical) {c tn line n : Nat} : (s.countStore c tn line n).Canonical :=
  canonical_foldl h fun _ _ hs => canonical_fire (canonical_updDie hs)
theorem canonical_fireRelease {s : State} (h : s.Canonical) : s.fireRelease.Canonical := canonical_fire h
theorem keeps_afterPushes {s : State} (h : s.Canonical) {k : State → Res} (hk : ∀ s, s.Canonical → Keeps (k s)) :
    Keeps (afterPushes s k) :=
  keeps_ite (keeps_park h) (keeps_ite (keeps_park (canonical_fireRelease h)) (hk _ (canonical_fireRelease h)))
theorem keeps_finish {s : State} (h : s.Canonical) {interval : Nat} : Keeps (s.finish interval) :=
  keeps_ite (keeps_park (canonical_updThr h)) (keeps_next h)
theorem canonical_readL1 {c tn : Nat} {s : State} (h : s.Canonical) {e : Elem} : (readL1 c tn s e).1.Canonical := by
  unfold readL1
  split
  next e1 => exact canonical_l1Read (canonical_of_eq e1 (canonical_obtain h))
  next e2 => exact canonical_of_eq e2 (canonical_obtain h)
theorem canonical_writeCounted {n : Nat} {c tn : Nat} {s : State} (h : s.Canonical) {e : Elem} :
    (writeCounted n c tn s e).1.Canonical := by
  unfold writeCounted
  refine canonical_settle h ?_
  split
  next e1 =>
    extract_lets +onlyGivenNames s2
    have hs2 : s2.Canonical := canonical_l1Write (canonical_of_eq e1 (canonical_obtain h))
    split
    · exact hs2
    · exact canonical_countStore hs2
  next e2 => exact canonical_of_eq e2 (canonical_obtain h)
theorem canonical_writeL1 {c tn : Nat} {s : State} (h : s.Canonical) {e : Elem} : (writeL1 c tn s e).1.Canonical :=
  canonical_writeCounted h
theorem canonical_readWord {d tn : Nat} {s : State} (h : s.Canonical) {e : Elem} : (readWord d tn s e).1.Canonical :=
  canonical_sliceRead h
theorem canonical_writeWord {d tn : Nat} {s : State} (h : s.Canonical) {e : Elem} : (writeWord d tn s e).1.Canonical :=
  canonical_sliceWrite h
theorem canonical_updProgress {s : State} (h : s.Canonical) {f : Progress → Progress} : (s.updProgress f).Canonical :=
  canonical_updThr h
theorem canonical_tryElem {perform : Perform} (hperform : ∀ s x, s.Canonical → (perform s x).1.Canonical) {a : State × Pass}
    (ha : a.1.Canonical) {e : Elem} :
    (tryElem perform a e).1.Canonical := by
  unfold tryElem
  split
  · exact ha
  · split
    next e2 => exact canonical_updProgress (canonical_of_eq e2 (hperform _ _ ha))
    next e2 => exact canonical_updProgress (canonical_of_eq e2 (hperform _ _ ha))
    next e2 => exact canonical_of_eq e2 (hperform _ _ ha)
    next e2 => exact canonical_of_eq e2 (hperform _ _ ha)
    next e2 => exact canonical_updProgress (canonical_of_eq e2 (hperform _ _ ha))
theorem canonical_onePass {perform : Perform} (hperform : ∀ s x, s.Canonical → (perform s x).1.Canonical) {l : List Elem}
    {s : State} (h : s.Canonical) :
    (onePass perform l s).1.Canonical :=
  canonical_fst_foldl h fun _ _ hs => canonical_tryElem hperform hs
theorem keeps_afterPass {failed : State → State} (hfailed : ∀ s, s.Canonical → (failed s).Canonical) {acc : Access}
    {r : State × Pass} (hr : r.1.Canonical) {fin : State → Res} (hfin : ∀ s, s.Canonical → Keeps (fin s)) :
    Keeps (afterPass failed acc r fin) := by
  unfold afterPass
  extract_lets +onlyGivenNames p
  split
  · exact keeps_pageFault (canonical_ite (hfailed _ hr) hr)
  · split
    · exact keeps_park hr
    · split
      · exact keeps_trap (hfailed _ hr)
      · exact hfin _ hr
theorem keeps_runElemsOr {failed : State → State} (hfailed : ∀ s, s.Canonical → (failed s).Canonical) {perform : Perform}
    (hperform : ∀ s x, s.Canonical → (perform s x).1.Canonical) {acc : Access} {l : List Elem} {s : State} (h : s.Canonical)
    {fin : State → Res} (hfin : ∀ s, s.Canonical → Keeps (fin s)) :
    Keeps (runElemsOr failed perform acc l s fin) :=
  keeps_afterPass hfailed (canonical_onePass hperform h) hfin
theorem keeps_runElems {perform : Perform} (hperform : ∀ s x, s.Canonical → (perform s x).1.Canonical) {acc : Access}
    {l : List Elem} {s : State} (h : s.Canonical) {fin : State → Res} (hfin : ∀ s, s.Canonical → Keeps (fin s)) :
    Keeps (runElems perform acc l s fin) :=
  keeps_runElemsOr (fun _ hs => hs) hperform h hfin
theorem canonical_sendRequests {s : State} (h : s.Canonical) {asks : List (Nat × AskKind)} : (s.sendRequests asks).Canonical :=
  canonical_attachAll (canonical_foldl (canonical_parkSt (canonical_updProgress h))
    (fun _ _ hs => canonical_ite (canonical_updProgress hs) (canonical_updProgress hs)))
theorem keeps_asked {asks : List (Nat × AskKind)} {s : State} (h : s.Canonical) {k : State → Res}
    (hk : ∀ s, s.Canonical → Keeps (k s)) :
    Keeps (asked asks s k) := by
  unfold asked
  split
  · exact hk _ h
  · exact keeps_park h
  · exact keeps_state (canonical_sendRequests h)
theorem keeps_viaL1 {write : Bool} {l : List Elem} {s : State} (h : s.Canonical) {k : State → Res}
    (hk : ∀ s, s.Canonical → Keeps (k s)) :
    Keeps (viaL1 write l s k) :=
  keeps_ite (hk _ h) (keeps_asked h hk)
theorem keeps_passL1 {pass : List Elem → State → State × Pass} (hpass : ∀ x s, s.Canonical → (pass x s).1.Canonical)
    {write : Bool} {acc : Access} {l : List Elem} {s : State} (h : s.Canonical) {fin : State → Res}
    (hfin : ∀ s, s.Canonical → Keeps (fin s)) :
    Keeps (passL1 pass write acc l s fin) := by
  unfold passL1
  extract_lets +onlyGivenNames left
  exact keeps_ite (keeps_afterPass (fun _ hs => hs) (hpass _ _ h) hfin)
    (keeps_ite (keeps_afterPass (fun _ hs => hs) (hpass _ _ h) hfin)
    (keeps_ite (keeps_park (hpass _ _ h)) (keeps_state (canonical_sendRequests (hpass _ _ h)))))
theorem keeps_runL1 {write : Bool} {perform : Perform} (hperform : ∀ s x, s.Canonical → (perform s x).1.Canonical)
    {acc : Access} {l : List Elem} {s : State} (h : s.Canonical) {fin : State → Res} (hfin : ∀ s, s.Canonical → Keeps (fin s)) :
    Keeps (runL1 write perform acc l s fin) :=
  keeps_viaL1 h fun _ hs => keeps_passL1 (fun _ _ hs1 => canonical_onePass hperform hs1) hs hfin
theorem canonical_grantPass {write : Bool} {l : List Elem} {s : State} (h : s.Canonical) : (grantPass write l s).1.Canonical := by
  unfold grantPass
  refine canonical_fst_foldl h fun _ _ hs => ?_
  extract_lets +onlyGivenNames p1
  split
  · exact hs
  · split
    next e1 =>
      refine canonical_of_eq e1 ?_
      split
      · exact hs
      · exact canonical_obtain hs
    next e1 =>
      refine canonical_updProgress (canonical_of_eq e1 ?_)
      split
      · exact hs
      · exact canonical_obtain hs
    next e1 =>
      refine canonical_of_eq e1 ?_
      split
      · exact hs
      · exact canonical_obtain hs
    next e1 =>
      refine canonical_of_eq e1 ?_
      split
      · exact hs
      · exact canonical_obtain hs
    next e1 =>
      refine canonical_updProgress (canonical_of_eq e1 ?_)
      split
      · exact hs
      · exact canonical_obtain hs
theorem canonical_capture {s : State} (h : s.Canonical) {data aux : VReg} : (s.capture data aux).Canonical :=
  canonical_updProgress h
theorem keeps_runWhole {write : Bool} {perform : Perform} (hperform : ∀ s x, s.Canonical → (perform s x).1.Canonical)
    {acc : Access} {l : List Elem} {s : State} (h : s.Canonical) {fin : State → Res} (hfin : ∀ s, s.Canonical → Keeps (fin s)) :
    Keeps (runWhole write perform acc l s fin) :=
  keeps_viaL1 h fun _ hs => keeps_passL1 (fun _ _ hs1 => canonical_grantPass hs1) hs
    (fun _ hs1 => keeps_runElems hperform hs1 hfin)
theorem canonical_combineWith {perform : Perform} (hperform : ∀ s x, s.Canonical → (perform s x).1.Canonical) {l : List Elem}
    {e : Elem} {r : State × Pass} (hr : r.1.Canonical) :
    (combineWith perform l e r).1.Canonical := by
  unfold combineWith
  extract_lets +onlyGivenNames word count
  have hcount : ∀ s n, s.Canonical → (count s n).Canonical := fun _ _ hs => canonical_updDie hs
  extract_lets +onlyGivenNames more src
  have hsrc : src.Canonical := hr
  extract_lets +onlyGivenNames s
  have hs : s.Canonical := canonical_mk hsrc
  extract_lets +onlyGivenNames r1
  have hr1 : r1.1.Canonical := by
    dsimp -zeta only [r1]
    split
    · exact hsrc
    · split
      · exact canonical_fst_foldl (hcount _ _ hs) fun _ _ hs1 => canonical_tryElem hperform hs1
      · exact hs
  exact canonical_foldl hr1 fun _ _ hs1 => canonical_ite (canonical_updThrAt (canonical_mk (hcount _ _ (canonical_mk hs1))))
    (canonical_mk hs1)
theorem canonical_wordPass {reads : Bool} {perform : Perform} (hperform : ∀ s x, s.Canonical → (perform s x).1.Canonical)
    {l : List Elem} {s : State} (h : s.Canonical) :
    (wordPass reads perform l s).1.Canonical := by
  unfold wordPass
  extract_lets +onlyGivenNames r
  have hr : r.1.Canonical := by
    refine canonical_fst_foldl h fun _ _ hs => ?_
    split
    · exact hs
    · exact canonical_tryElem hperform hs
  split
  · exact canonical_combineWith hperform hr
  · exact canonical_updProgress hr
theorem keeps_runWords {reads : Bool} {perform : Perform} (hperform : ∀ s x, s.Canonical → (perform s x).1.Canonical)
    {acc : Access} {l : List Elem} {s : State} (h : s.Canonical) {fin : State → Res} (hfin : ∀ s, s.Canonical → Keeps (fin s)) :
    Keeps (runWords reads perform acc l s fin) := by
  unfold runWords
  split
  · exact hfin _ h
  · refine keeps_asked h fun _ hs => ?_
    extract_lets +onlyGivenNames r
    have hr : r.1.Canonical := canonical_wordPass hperform hs
    exact keeps_ite (keeps_park (canonical_updProgress (canonical_updProgress hr)))
      (keeps_ite (keeps_park (canonical_attachAll (canonical_updProgress hr)))
      (keeps_afterPass (fun _ hs1 => hs1) (canonical_updProgress hr) hfin))
theorem canonical_retryHeld {s : State} (h : s.Canonical) : s.retryHeld.Canonical := canonical_wakeIf h

/-! ### Atomics and posted reductions -/

theorem canonical_atomicStep {s : State} (h : s.Canonical) {d tn va n : Nat} {f : Nat → Nat} :
    (s.atomicStep d tn va n f).1.Canonical := by
  unfold State.atomicStep
  extract_lets +onlyGivenNames line s1
  have hs1 : s1.Canonical := canonical_clearSector h
  extract_lets +onlyGivenNames s2
  have hs2 : s2.Canonical := canonical_updDie hs1
  split
  · exact hs2
  · extract_lets +onlyGivenNames m y
    split
    · exact hs2
    · exact canonical_llcWrite hs2
theorem canonical_atomicOnLine {s : State} (h : s.Canonical) {d tn va n : Nat} {f : Nat → Nat} :
    (s.atomicOnLine d tn va n f).1.Canonical := by
  unfold State.atomicOnLine
  split
  · exact h
  · refine canonical_settle h ?_
    split
    next e1 => exact canonical_atomicStep (canonical_of_eq e1 (canonical_ensureLine h))
    next e2 => exact canonical_of_eq e2 (canonical_ensureLine h)
theorem canonical_dropGuest {s : State} (h : s.Canonical) {d tn line : Nat} : AllCanonical (s.dropGuest d tn line) := by
  unfold State.dropGuest
  split
  · exact canonical_none
  · split
    · exact canonical_some h
    · exact canonical_opt_ite canonical_none (canonical_some (canonical_flushLine h))
theorem canonical_atomicFar {s : State} (h : s.Canonical) {d tn va n : Nat} {f : Nat → Nat} :
    (s.atomicFar d tn va n f).1.Canonical := by
  unfold State.atomicFar
  split
  next e => exact canonical_paPut (canonical_of_eq e (canonical_translate h))
  next e1 => exact canonical_of_eq e1 (canonical_translate h)
theorem canonical_atomic {s : State} (h : s.Canonical) {d tn va n : Nat} {sc : AmoScope} {f : Nat → Nat} :
    (s.atomic d tn va n sc f).1.Canonical := by
  unfold State.atomic
  extract_lets +onlyGivenNames away
  have haway : ∀ r, r.1.Canonical → (away r).1.Canonical := by
    refine fun _ hs => ?_
    dsimp -zeta only [away]
    split
    · exact canonical_updDie hs
    · exact hs
  split
  · exact canonical_atomicOnLine h
  · split
    · exact h
    · exact h
    · extract_lets +onlyGivenNames pa
      split
      · split
        · exact canonical_atomicOnLine h
        · split
          · exact h
          next e3 => exact haway _ (canonical_atomicOnLine (canonical_of_some e3 (canonical_dropGuest h)))
      · split
        · exact canonical_atomicOnLine h
        · split
          · exact h
          next e3 => exact haway _ (canonical_atomicFar (canonical_of_some e3 (canonical_dropGuest h)))
  · split
    · exact h
    · exact h
    · extract_lets +onlyGivenNames pa
      split
      · split
        · exact canonical_atomicOnLine h
        · split
          · exact h
          next e3 => exact haway _ (canonical_atomicOnLine (canonical_of_some e3 (canonical_dropGuest h)))
      · split
        · exact canonical_atomicOnLine h
        · split
          · exact h
          next e3 => exact haway _ (canonical_atomicFar (canonical_of_some e3 (canonical_dropGuest h)))
theorem canonical_atomicAtHome {s : State} (h : s.Canonical) {f : FarAtomic} : (s.atomicAtHome f).Canonical := by
  unfold State.atomicAtHome
  extract_lets +onlyGivenNames n line d
  split
  · exact h
  · extract_lets +onlyGivenNames r
    have hr : r.1.Canonical := by
      dsimp -zeta only [r]
      split
      · exact h
      · split
        · exact canonical_fillFrom h
        · exact h
    clear_value r
    split
    · exact canonical_unlessJam h (canonical_atomicStep hr)
    · exact h
theorem keeps_execAmo {op : AmoOp} {w : Bool} {sc : AmoScope} {d a b : Reg} {s : State} (h : s.Canonical) :
    Keeps (execAmo op w sc d a b s) := by
  unfold execAmo
  exact keeps_guardTrap h fun _ => keeps_afterReds h (fun _ hs => keeps_asked hs
    (fun _ hs1 => keeps_runElems (fun _ _ hs2 => canonical_atomic hs2) hs1 (fun _ hs2 => keeps_next (canonical_wr hs2))))
theorem keeps_post {s : State} (h : s.Canonical) {r : Red} : Keeps (s.post r) :=
  keeps_ite (keeps_next (canonical_mk h)) (keeps_waitReds h)
theorem keeps_execRed {op : AmoOp} {w : Bool} {sc : AmoScope} {a b : Reg} {s : State} (h : s.Canonical) :
    Keeps (execRed op w sc a b s) :=
  keeps_guardTrap h fun _ => keeps_post h
theorem canonical_redDone {s : State} (h : s.Canonical) {r : Red} : (s.redDone r).Canonical :=
  canonical_updCore h fun _ hc => lm_wakeIf hc
theorem canonical_noteRed {s : State} (h : s.Canonical) {n : Nat} {r : Red} {f : RedFault} : (s.noteRed n r f).Canonical :=
  canonical_ite (canonical_mk h) (canonical_redDone (canonical_mk h))

end Sys2Proof.Machine
end

section
/-! SUPPORT. The instructions of a thread, its messages and its tasks keep the canonical form. -/

namespace Sys2Proof.Machine

/-! ### Branches and jumps -/

theorem keeps_branchIf {c : Bool} {o : BitVec 16} {s : State} (h : s.Canonical) : Keeps (branchIf c o s) :=
  keeps_ite (keeps_jumpChecked h h) (keeps_next h)
theorem keeps_execDbnz {a : Reg} {o : BitVec 16} {s : State} (h : s.Canonical) : Keeps (execDbnz a o s) :=
  keeps_ite (keeps_next (canonical_wr h)) (keeps_jumpChecked h (canonical_wr h))

/-! ### Control registers -/

theorem keeps_csrOp {d : Reg} {c : BitVec 12} {new : Word → Option Word} {s : State} (h : s.Canonical) :
    Keeps (csrOp d c new s) := by
  unfold csrOp
  split
  · exact keeps_trap h
  · split
    · exact keeps_park h
    · extract_lets +onlyGivenNames old
      split
      · exact keeps_next (canonical_wr h)
      · exact keeps_ite (keeps_trap h) (keeps_next (canonical_wr (canonical_updCtl h)))
theorem keeps_execBrk {s : State} (h : s.Canonical) : Keeps (execBrk s) :=
  keeps_ite (keeps_state (canonical_updCur (canonical_updThr h) (fun _ hc => lm_mend hc))) (keeps_trap h)
theorem keeps_execHalt {s : State} (h : s.Canonical) : Keeps (execHalt s) :=
  keeps_ite (keeps_state (canonical_runOff (canonical_updThr (canonical_goOn h)))) (keeps_trap h)
theorem keeps_execIllegalInstruction {s : State} (h : s.Canonical) : Keeps (execIllegalInstruction s) := keeps_trap h

/-! ### Local-memory accesses -/

theorem keeps_execLdl {w : LoadW} {d a : Reg} {p : BitVec 13} {s : State} (h : s.Canonical) : Keeps (execLdl w d a p s) :=
  keeps_guardTrap h fun _ => keeps_next (canonical_wr h)
theorem keeps_execStl {w : StoreW} {r a : Reg} {p : BitVec 13} {s : State} (h : s.Canonical) : Keeps (execStl w r a p s) :=
  keeps_guardTrap h fun _ => keeps_next (canonical_updCur h (fun _ hc => lm_lmWrite hc))
theorem lm_lmPutMasked {c : Core} (hc : c.CanonicalLm) {a : Nat} {k : Mask} {x : VReg} : (c.lmPutMasked a k x).CanonicalLm :=
  lm_mk (lm_lmPut hc)
theorem keeps_execVldl {d : VCode} {a : Reg} {p : BitVec 5} {k : MaskReg} {s : State} (h : s.Canonical) :
    Keeps (execVldl d a p k s) :=
  keeps_withWindows h fun _ hs => keeps_next (canonical_vwrite hs)
theorem keeps_execVstl {d : VCode} {a : Reg} {p : BitVec 5} {k : MaskReg} {s : State} (h : s.Canonical) :
    Keeps (execVstl d a p k s) :=
  keeps_withWindows h fun _ hs => keeps_next (canonical_updCur hs (fun _ hc => lm_lmPutMasked hc))
theorem keeps_execVgthl {t : ElemTy} {d : VCode} {a : Reg} {b : VCode} {k : MaskReg} {s : State} (h : s.Canonical) :
    Keeps (execVgthl t d a b k s) :=
  keeps_withWindows h fun _ hs => keeps_next (canonical_vwrite hs)
theorem keeps_execVsctl {t : ElemTy} {d : VCode} {a : Reg} {b : VCode} {k : MaskReg} {s : State} (h : s.Canonical) :
    Keeps (execVsctl t d a b k s) := by
  unfold execVsctl
  exact keeps_withWindows h fun _ hs => keeps_next (canonical_updCur hs
    (fun _ hc => lm_testCounters (lm_foldl hc (fun _ _ hc1 => lm_lmStore hc1))))

/-! ### Fences and barriers -/

theorem keeps_releaseThen {sc : Scope} {r : Word} {s : State} (h : s.Canonical) {k : State → Res}
    (hk : ∀ s, s.Canonical → Keeps (k s)) :
    Keeps (releaseThen sc r s k) := by
  unfold releaseThen
  refine keeps_afterReds h fun _ hs => ?_
  split
  · exact keeps_park hs
  · split
    · exact keeps_park hs
    next e1 => exact keeps_afterPushes (canonical_of_some e1 (canonical_opt_ite (canonical_release hs) (canonical_some hs))) hk
theorem keeps_checkDrops {sc : Scope} {r : Word} {s : State} (h : s.Canonical) {k : State → Res}
    (hk : ∀ s, s.Canonical → Keeps (k s)) :
    Keeps (checkDrops sc r s k) :=
  keeps_ite (keeps_trap (canonical_updThr h)) (hk _ h)
theorem canonical_acquireAt {s : State} (h : s.Canonical) {sc : Scope} : (s.acquireAt sc).Canonical :=
  canonical_ite (canonical_acquire h) h
theorem keeps_execFenceAcq {sc : Scope} {b : Reg} {s : State} (h : s.Canonical) : Keeps (execFenceAcq sc b s) :=
  keeps_guardTrap h fun _ => keeps_checkDrops h (fun _ hs => keeps_next (canonical_acquireAt hs))
theorem keeps_execFenceRel {sc : Scope} {b : Reg} {s : State} (h : s.Canonical) : Keeps (execFenceRel sc b s) :=
  keeps_guardTrap h fun _ => keeps_releaseThen h (fun _ hs => keeps_checkDrops hs (fun _ hs1 => keeps_next hs1))
theorem keeps_execFenceAr {sc : Scope} {b : Reg} {s : State} (h : s.Canonical) : Keeps (execFenceAr sc b s) :=
  keeps_guardTrap h fun _ => keeps_releaseThen h (fun _ hs => keeps_checkDrops hs
    (fun _ hs1 => keeps_next (canonical_acquireAt hs1)))
theorem keeps_arrive {s : State} (h : s.Canonical) {b : Barrier} {x : Word} : Keeps (s.arrive b x) := by
  unfold State.arrive
  extract_lets +onlyGivenNames me go
  have hgo : ∀ l, Keeps (go l) := fun _ => keeps_park (canonical_updProgress (canonical_mk h))
  split
  · exact hgo _
  · exact keeps_ite (hgo _) (keeps_park h)
theorem keeps_barrierOp {op : Nat} {ty : CombTy} {sc : Scope} {x : Word} {r : Word} {s : State} (h : s.Canonical)
    {fin : State → Word → State} (hfin : ∀ s x, s.Canonical → (fin s x).Canonical) :
    Keeps (barrierOp op ty sc x r s fin) := by
  unfold barrierOp
  split
  · split
    · exact keeps_next (canonical_acquireAt (canonical_updCtl (hfin _ _ h)))
    · exact keeps_park h
  · exact keeps_guardTrap h fun _ => keeps_releaseThen h (fun _ hs => keeps_checkDrops hs (fun _ hs1 => keeps_arrive hs1))
theorem canonical_deliver {s : State} (h : s.Canonical) {a : Arrival} {y : Word} {fl : Flags} : (s.deliver a y fl).Canonical :=
  canonical_updPool (canonical_updCore h (fun _ hc => lm_mk (lm_ite (lm_updThr hc) hc)))
theorem keeps_execBarrierRelease {n : Nat} {remote : List Word} {s : State} (h : s.Canonical) :
    Keeps (execBarrierRelease n remote s) := by
  unfold execBarrierRelease
  split
  · exact keeps_state h
  · exact keeps_ite (keeps_state h) (keeps_state (canonical_wakeBy
      (canonical_foldl (canonical_mk h) (fun _ _ hs => canonical_deliver hs))))
theorem keeps_execWaitge {d a : Reg} {s : State} (h : s.Canonical) : Keeps (execWaitge d a s) := by
  unfold execWaitge
  exact keeps_guardTrap h fun _ => keeps_ite (keeps_park h) (keeps_next (canonical_acquireAt (canonical_wr h)))

/-! ### Landing registers, remote writes, messages -/

theorem canonical_send {s : State} (h : s.Canonical) {dst : Nat} {kind : NetKind} : (s.send dst kind).Canonical :=
  canonical_mk (canonical_updCur h (fun _ hc => lm_mk hc))
theorem keeps_withCredit {s : State} (h : s.Canonical) {k : State → Res} (hk : ∀ s, s.Canonical → Keeps (k s)) :
    Keeps (withCredit s k) :=
  keeps_ite (keeps_park h) (hk _ h)
theorem canonical_setNet {s : State} (h : s.Canonical) {n : Nat} {x : NetItem} : (s.setNet n x).Canonical := canonical_mk h
theorem canonical_ackNet {s : State} (h : s.Canonical) {n : Nat} {x : NetItem} : (s.ackNet n x).Canonical := canonical_setNet h
theorem canonical_dropNet {s : State} (h : s.Canonical) {n : Nat} {x : NetItem} {kind reason obj : Nat} :
    (s.dropNet n x kind reason obj).Canonical :=
  canonical_setNet (canonical_updDie h)
theorem lm_updLand {c : Core} (hc : c.CanonicalLm) {li : Nat} {f : LandReg → LandReg} : (c.updLand li f).CanonicalLm := lm_mk hc
theorem canonical_holdLand {s : State} (h : s.Canonical) {li : Nat} : (s.holdLand li).Canonical :=
  canonical_ite h (canonical_updCur h (fun _ hc => lm_mk hc))
theorem lm_fillLand {c : Core} (hc : c.CanonicalLm) {li : Nat} {x : Word} : (c.fillLand li x).CanonicalLm :=
  lm_wakeFirst (lm_mk (lm_updLand hc))
theorem lm_emptyLand {c : Core} (hc : c.CanonicalLm) {li : Nat} : (c.emptyLand li).CanonicalLm := lm_updLand hc
theorem keeps_execPutl {li : Landing} {c : Reg} {s : State} (h : s.Canonical) : Keeps (execPutl li c s) :=
  keeps_guardTrap h fun _ => keeps_ite (keeps_next (canonical_updCur (canonical_holdLand h)
    (fun _ hc => lm_fillLand (lm_updLand hc)))) (keeps_park (canonical_updCur (canonical_holdLand h) (fun _ hc => lm_updLand hc)))
theorem keeps_execRput {li : Landing} {c a : Reg} {s : State} (h : s.Canonical) : Keeps (execRput li c a s) := by
  unfold execRput
  exact keeps_guardTrap h fun _ => keeps_withCredit h (fun _ hs => keeps_next (canonical_send hs))
theorem keeps_execTake {c : Reg} {li : Landing} {s : State} (h : s.Canonical) : Keeps (execTake c li s) :=
  keeps_guardTrap h fun _ => keeps_ite (keeps_next (canonical_updCur (canonical_wr (canonical_holdLand h))
    (fun _ hc => lm_emptyLand hc))) (keeps_park (canonical_holdLand h))
theorem keeps_execPeek {c : Reg} {li : Landing} {s : State} (h : s.Canonical) : Keeps (execPeek c li s) :=
  keeps_guardTrap h fun _ => keeps_next (canonical_wr (canonical_holdLand h))
theorem keeps_execTestl {c : Reg} {li : Landing} {s : State} (h : s.Canonical) : Keeps (execTestl c li s) :=
  keeps_guardTrap h fun _ => keeps_next (canonical_wr (canonical_holdLand h))
theorem keeps_execClrl {li : Landing} {s : State} (h : s.Canonical) : Keeps (execClrl li s) :=
  keeps_guardTrap h fun _ => keeps_next (canonical_updCur (canonical_holdLand h) (fun _ hc => lm_emptyLand hc))
theorem lm_heldBy {c : Core} (hc : c.CanonicalLm) {li : Nat} {l : Option Nat} : (c.heldBy li l).CanonicalLm :=
  lm_ite (lm_mk hc) hc
theorem canonical_servePort {core li : Nat} {l : List Writer} {s : State} (h : s.Canonical) :
    (State.servePort core li l s).Canonical := by
  induction l generalizing s with
  | nil => exact h
  | cons w l ih =>
    cases w with
    | putl t => exact canonical_updThrAt h
    | remote id src tid x =>
      unfold State.servePort
      extract_lets +onlyGivenNames s1
      have hs1 : s1.Canonical := canonical_updCore h fun _ hc => lm_updLand hc
      split
      · exact ih hs1
      · split
        · exact hs1
        · split
          · exact ih (canonical_dropNet hs1)
          · exact canonical_ackNet (canonical_updCore hs1 (fun _ hc => lm_fillLand (lm_heldBy hc)))
theorem canonical_fillPort {s : State} (h : s.Canonical) {core li : Nat} : (s.fillPort core li).Canonical :=
  canonical_ite (canonical_servePort h) h
theorem keeps_execRputm {a b : Reg} {s : State} (h : s.Canonical) : Keeps (execRputm a b s) := by
  unfold execRputm
  exact keeps_guardTrap h fun _ => keeps_withCredit h (fun _ hs => keeps_next (canonical_send hs))
theorem keeps_execRputmv {a : Reg} {v : VCode} {s : State} (h : s.Canonical) : Keeps (execRputmv a v s) :=
  keeps_ite (keeps_withCredit h (fun _ hs => keeps_next (canonical_send hs)))
    (keeps_withWindows h (fun _ hs => keeps_withCredit (canonical_capture hs) (fun _ hs1 => keeps_next (canonical_send hs1))))
theorem canonical_wakeTarget {s : State} (h : s.Canonical) {core t : Nat} {l : Option Nat} :
    (s.wakeTarget core t l).1.Canonical := by
  unfold State.wakeTarget
  extract_lets +onlyGivenNames c
  have hc : c.CanonicalLm := lm_coreAt h
  extract_lets +onlyGivenNames set saved mark
  split
  · split
    · exact canonical_updThrAt h
    · exact h
  · split
    · exact canonical_updThrAt h
    · split
      · exact canonical_updCore h fun _ hc => lm_mk hc
      · split
        · exact canonical_updPool h
        · split
          · exact h
          · exact h
theorem canonical_deliverLm {s : State} (h : s.Canonical) {n : Nat} {x : NetItem} {kind a : Nat} {l : List Byte} :
    (s.deliverLm n x kind a l).Canonical :=
  canonical_ite (canonical_dropNet h) (canonical_ite (canonical_dropNet h)
    (canonical_ackNet (canonical_updCore h (fun _ hc => lm_lmPut hc))))
theorem canonical_deliverRput {s : State} (h : s.Canonical) {n : Nat} {x : NetItem} {li : Nat} {v : Word} :
    (s.deliverRput n x li v).Canonical := by
  unfold State.deliverRput
  split
  · exact canonical_dropNet h
  · exact canonical_ite (canonical_ackNet (canonical_setCore h (lm_fillLand (lm_heldBy (lm_coreAt h)))))
      (canonical_ite (canonical_setNet (canonical_setCore h (lm_updLand (lm_heldBy (lm_coreAt h))))) h)
theorem lm_pushRec {c : Core} (hc : c.CanonicalLm) {r : TaskRec} : (c.pushRec r).CanonicalLm := lm_mk hc
theorem canonical_deliverRecord {s : State} (h : s.Canonical) {n : Nat} {x : NetItem} {r : TaskRec} :
    (s.deliverRecord n x r).Canonical := by
  unfold State.deliverRecord
  extract_lets +onlyGivenNames c
  have hc : c.CanonicalLm := lm_coreAt h
  extract_lets +onlyGivenNames room
  split
  · exact canonical_ite (canonical_ackNet (canonical_setCore h (lm_pushRec hc))) (canonical_setNet h)
  · exact canonical_mk h
  · exact canonical_ite (canonical_ackNet (canonical_setCore h (lm_pushRec hc))) h
  · exact h
  · exact h
theorem keeps_execRemoteWriteDelivery {n : Nat} {s : State} (h : s.Canonical) : Keeps (execRemoteWriteDelivery n s) := by
  unfold execRemoteWriteDelivery
  split
  · exact keeps_state h
  · split
    · exact keeps_state h
    · split
      · exact keeps_state (canonical_deliverRput h)
      · exact keeps_state (canonical_deliverLm h)
      · exact keeps_state (canonical_deliverLm h)
      · split
        next e4 => exact keeps_state (canonical_ackNet (canonical_of_eq e4 (canonical_wakeTarget h)))
        next e4 => exact keeps_state (canonical_dropNet (canonical_of_eq e4 (canonical_wakeTarget h)))
      · exact keeps_state (canonical_deliverRecord h)
      · exact keeps_state (canonical_deliverRecord h)
      · exact keeps_state h
theorem canonical_answered {s : State} (h : s.Canonical) {n : Nat} {x : NetItem} : (s.answered n x).Canonical := by
  unfold State.answered
  exact canonical_updCore (canonical_mk h) fun _ hc => lm_wakeIf (lm_mk hc)
theorem keeps_execRemoteWriteAck {n : Nat} {s : State} (h : s.Canonical) : Keeps (execRemoteWriteAck n s) := by
  unfold execRemoteWriteAck
  split
  · exact keeps_ite (keeps_state (canonical_answered h)) (keeps_state h)
  · exact keeps_state h
theorem canonical_recordDrop {s : State} (h : s.Canonical) {core tid ctx : Nat} {d : Drop} :
    (s.recordDrop core tid ctx d).Canonical :=
  canonical_updPool (canonical_updCore h (fun _ hc => lm_mk (lm_ite hc (lm_updThr hc))))
theorem keeps_execDropNotice {n : Nat} {s : State} (h : s.Canonical) : Keeps (execDropNotice n s) := by
  unfold execDropNotice
  split
  · split
    · exact keeps_state (canonical_answered (canonical_recordDrop h))
    · exact keeps_state h
    · exact keeps_state h
    · exact keeps_state h
  · exact keeps_state h
theorem keeps_sendMessage {named : Bool} {a b : Reg} {s : State} (h : s.Canonical) : Keeps (sendMessage named a b s) := by
  unfold sendMessage
  exact keeps_guardTrap h fun _ => keeps_withCredit h (fun _ hs => keeps_next (canonical_updThr (canonical_send hs)))
theorem lm_enqueue {c : Core} (hc : c.CanonicalLm) {m : Message} : (c.enqueue m).CanonicalLm := lm_mk (lm_wakeIf (lm_mk hc))
theorem keeps_execMessageArrival {n : Nat} {s : State} (h : s.Canonical) : Keeps (execMessageArrival n s) := by
  unfold execMessageArrival
  split
  · exact keeps_state h
  next x _ =>
    split
    · extract_lets +onlyGivenNames free test take
      have htake : ∀ u, (take u).Canonical := by
        refine fun _ => ?_
        dsimp only [take]
        clear_value test
        split
        · exact canonical_ackNet (canonical_redirect h)
        · exact canonical_ackNet (canonical_updCore (canonical_sampleEvent h) (fun _ hc => lm_enqueue hc))
      split
      · exact keeps_state h
      · split
        · exact keeps_ite (keeps_state (htake ())) (keeps_state h)
        · exact keeps_ite (keeps_state (htake ())) (keeps_state h)
        · exact keeps_state h
        · exact keeps_state h
    · exact keeps_state h
theorem keeps_execMessageDivert {core : Nat} {s : State} (h : s.Canonical) : Keeps (execMessageDivert core s) := by
  unfold execMessageDivert
  split
  · exact keeps_state h
  · split
    · exact keeps_ite (keeps_state (canonical_mk (canonical_redirect h))) (keeps_state h)
    · exact keeps_state h
theorem keeps_receive {sel : Option Word} {d : Reg} {s : State} (h : s.Canonical) : Keeps (receive sel d s) := by
  unfold receive
  split
  · exact keeps_next (canonical_updCtl (canonical_wr h))
  · exact keeps_next (canonical_updCtl (canonical_wr (canonical_updCur h (fun _ hc => lm_mk hc))))
theorem keeps_execWaitm {a : Reg} {s : State} (h : s.Canonical) : Keeps (execWaitm a s) :=
  keeps_guardTrap h fun _ => keeps_ite (keeps_park h) (keeps_next h)
theorem keeps_execEventEntry {core tid : Nat} {s : State} (h : s.Canonical) : Keeps (execEventEntry core tid s) := by
  unfold execEventEntry
  extract_lets +onlyGivenNames c
  have hc : c.CanonicalLm := lm_coreAt h
  extract_lets +onlyGivenNames t may
  split
  · exact keeps_state h
  · exact keeps_ite (keeps_state h) (keeps_state (canonical_refill
      (canonical_updThr (canonical_updCur (canonical_mk h) (fun _ hc => lm_mend (lm_abandon hc))))))
theorem keeps_execEvret {s : State} (h : s.Canonical) : Keeps (execEvret s) :=
  keeps_ite (keeps_trap h) (keeps_jumpChecked h (canonical_updCtl h))
theorem canonical_expireSaved {s : State} (h : s.Canonical) {core : Nat} : (s.expireSaved core).Canonical :=
  canonical_updPool (canonical_updCore h (fun _ hc => lm_mk hc))
theorem canonical_expire {s : State} (h : s.Canonical) {core tid : Nat} : (s.expire core tid).Canonical := by
  unfold State.expire
  extract_lets +onlyGivenNames t
  split
  · exact canonical_ite (canonical_updThrAt (canonical_trapSt (canonical_mk h))) h
  · exact h

/-! ### Images, launches, tasks -/

theorem canonical_hubRead {fuel : Nat} {s : State} (h : s.Canonical) {d tn va n : Nat} :
    (State.hubRead fuel s d tn va n).1.Canonical := by
  induction fuel generalizing s va n with
  | zero => exact h
  | succ fuel ih =>
    unfold State.hubRead
    split
    · exact h
    · extract_lets +onlyGivenNames k
      split
      next e1 => exact ih (canonical_of_eq e1 (canonical_sliceRead h))
      next e2 => exact canonical_of_eq e2 (canonical_sliceRead h)
theorem canonical_hubBytes {s : State} (h : s.Canonical) {d tn va n : Nat} : (s.hubBytes d tn va n).1.Canonical :=
  canonical_hubRead h
theorem canonical_hubWait {s : State} (h : s.Canonical) {a : HubAccess} {tn va : Nat} {why : Hold} :
    (s.hubWait a tn va why).Canonical := by
  unfold State.hubWait
  split
  · exact canonical_updHub h
  · exact h
theorem canonical_storeHome {s : State} (h : s.Canonical) {d tn va n x : Nat} : (s.storeHome d tn va n x).1.Canonical := by
  unfold State.storeHome
  split
  next e =>
    split
    · exact canonical_sliceWrite (canonical_of_eq e (canonical_translate h))
    · exact canonical_paPut (canonical_of_eq e (canonical_translate h))
  next e1 => exact canonical_of_eq e1 (canonical_translate h)
theorem lm_setSlot {c : Core} (hc : c.CanonicalLm) {i : Nat} {x : Slot} : (c.setSlot i x).CanonicalLm := lm_mk hc
theorem lm_evictSlot {c : Core} (hc : c.CanonicalLm) {i : Nat} : (c.evictSlot i).CanonicalLm := lm_mk (lm_setSlot hc)
theorem lm_finishLoad {c : Core} (hc : c.CanonicalLm) {l : Loading} {i : Nat} : (c.finishLoad l i).CanonicalLm :=
  lm_mk (lm_setSlot (lm_mk (lm_ite (lm_lmPut hc) (lm_lmPut (lm_lmPut hc)))))
theorem lm_goLoad {c : Core} (hc : c.CanonicalLm) : c.goLoad.CanonicalLm := by
  unfold Core.goLoad
  split
  · exact hc
  · split
    · exact hc
    · exact lm_finishLoad hc
    · split
      · exact lm_mk (lm_setSlot hc)
      · exact hc
theorem canonical_advanceLoad {s : State} (h : s.Canonical) {core : Nat} : (s.advanceLoad core).Canonical := by
  unfold State.advanceLoad
  split
  · exact h
  · exact canonical_updCore (canonical_foldl h (fun _ _ hs => canonical_updCore hs (fun _ hc => lm_evictSlot hc)))
      fun _ hc => lm_goLoad hc
theorem canonical_learnTag {s : State} (h : s.Canonical) {core lnum tag threads : Nat} :
    (s.learnTag core lnum tag threads).Canonical := by
  unfold State.learnTag
  extract_lets +onlyGivenNames first fix s1
  have hs1 : s1.Canonical := canonical_updLaunch h
  refine canonical_mapCores hs1 fun _ hc => ?_
  split
  · dsimp only
    exact lm_mk hc
  · exact hc
theorem keeps_execImageLoad {core lnum : Nat} {s : State} (h : s.Canonical) : Keeps (execImageLoad core lnum s) := by
  unfold execImageLoad
  extract_lets +onlyGivenNames c
  have hc : c.CanonicalLm := lm_coreAt h
  split
  · exact keeps_ite (keeps_state (canonical_advanceLoad h)) (keeps_state h)
  · exact keeps_state h
  · split
    · exact keeps_state h
    · extract_lets +onlyGivenNames d held
      have hheld : ∀ l w, Keeps (held l w) := fun _ _ => keeps_state (canonical_hubWait h)
      split
      · exact keeps_state h
      · split
        · exact hheld _ _
        next e4 =>
          extract_lets +onlyGivenNames tag here
          clear_value here
          split
          · exact keeps_state (canonical_learnTag (canonical_of_eq e4 (canonical_hubBytes h)))
          · exact keeps_state (canonical_abortLaunch (canonical_of_eq e4 (canonical_hubBytes h)))
          · split
            · exact keeps_state (canonical_learnTag (canonical_of_eq e4 (canonical_hubBytes h)))
            · split
              · exact hheld _ _
              next e7 =>
                exact keeps_state (canonical_advanceLoad (canonical_updCore
                  (canonical_learnTag (canonical_of_eq e7 (canonical_hubBytes (canonical_of_eq e4 (canonical_hubBytes h)))))
                  (fun _ hc => lm_mk hc)))
              next e9 =>
                exact keeps_state (canonical_abortLaunch (canonical_of_eq e9
                  (canonical_hubBytes (canonical_of_eq e4 (canonical_hubBytes h)))))
        next e6 => exact keeps_state (canonical_abortLaunch (canonical_of_eq e6 (canonical_hubBytes h)))
theorem keeps_execImageEvict {core slot : Nat} {s : State} (h : s.Canonical) : Keeps (execImageEvict core slot s) := by
  unfold execImageEvict
  split
  · exact keeps_ite (keeps_state (canonical_updCore h (fun _ hc => lm_evictSlot hc))) (keeps_state h)
  · exact keeps_state h
theorem canonical_toRing {s : State} (h : s.Canonical) {x : Queue} {l : List Pending} : (s.toRing x l).Canonical :=
  canonical_foldl h fun _ _ hs => canonical_paPut hs
theorem canonical_notify {s : State} (h : s.Canonical) {tn : Nat} : (s.notify tn).Canonical := canonical_updHub h
theorem canonical_submit {s : State} (h : s.Canonical) {q : Nat} {p : Option Packet} : (s.submit q p).1.Canonical := by
  unfold State.submit
  extract_lets +onlyGivenNames x
  split
  · exact canonical_updHub (canonical_ite (canonical_notify (canonical_ite h (canonical_toRing h)))
      (canonical_ite h (canonical_toRing h)))
  · exact canonical_updHub h
theorem keeps_execQueueSlotMap {q : Nat} {s : State} (h : s.Canonical) : Keeps (execQueueSlotMap q s) := by
  unfold execQueueSlotMap
  extract_lets +onlyGivenNames x
  split
  · exact keeps_state h
  · extract_lets +onlyGivenNames holders src give
    have hgive : ∀ a a1, a.Canonical → Keeps (give a a1) := fun _ _ hs => keeps_state (canonical_updHub hs)
    split
    · exact hgive _ _ h
    · split
      · exact hgive _ _ (canonical_updHub h)
      · exact keeps_state h
theorem keeps_execQueueSlotEvict {q : Nat} {s : State} (h : s.Canonical) : Keeps (execQueueSlotEvict q s) := by
  unfold execQueueSlotEvict
  extract_lets +onlyGivenNames x
  split
  · exact keeps_state (canonical_updHub h)
  · exact keeps_state (canonical_updHub (canonical_toRing h))
  · exact keeps_state h
theorem keeps_execQueueOpen {q : Nat} {s : State} (h : s.Canonical) : Keeps (execQueueOpen q s) :=
  keeps_ite (keeps_state h) (keeps_state (canonical_updHub h))
theorem keeps_execQueueClose {q : Nat} {s : State} (h : s.Canonical) : Keeps (execQueueClose q s) :=
  keeps_ite (keeps_state h) (keeps_state (canonical_updHub h))
theorem canonical_complete_ {s : State} (h : s.Canonical) {d tn va x : Nat} : (s.complete_ d tn va x).1.Canonical := by
  unfold State.complete_
  split
  next e => exact canonical_of_eq e (canonical_storeHome h)
  · exact h
  · exact canonical_updHub h
theorem canonical_unmark {s : State} (h : s.Canonical) {core : Nat} {l : Option Nat} : (s.unmark core l).Canonical := by
  unfold State.unmark
  split
  · exact canonical_ite h (canonical_updCore h (fun _ hc => lm_mk hc))
  · exact h
theorem canonical_takeInvalid {s : State} (h : s.Canonical) {x : Queue × Pending} : (s.takeInvalid x).Canonical :=
  canonical_ite (canonical_updHub (canonical_updHub h)) (canonical_updHub h)
theorem canonical_payOwed {l : List (Nat × OwedWord)} {s : State} (h : s.Canonical) : (s.payOwed l).Canonical := by
  induction l generalizing s with
  | nil => exact h
  | cons e l ih =>
    unfold State.payOwed
    split
    · exact ih h
    · split
      next e2 => exact canonical_updHub (canonical_of_eq e2 (canonical_complete_ h))
      · exact ih (canonical_hubWait h)
theorem lm_toWheel {c : Core} (hc : c.CanonicalLm) : c.toWheel.CanonicalLm := lm_mk hc
theorem canonical_takeDies {s : State} (h : s.Canonical) {ds : List Nat} {n : Nat} : (s.takeDies ds n).Canonical := by
  unfold State.takeDies
  extract_lets +onlyGivenNames s1
  have hs1 : s1.Canonical := canonical_foldl h fun _ _ hs => canonical_updDie hs
  extract_lets +onlyGivenNames s2
  have hs2 : s2.Canonical := canonical_updHub hs1
  refine canonical_mapCores hs2 fun _ hc => ?_
  split
  · dsimp only
    exact lm_toWheel hc
  · exact hc
theorem canonical_activate {s : State} (h : s.Canonical) {x : Queue × Pending} {n : Nat} : (s.activate x n).Canonical :=
  canonical_ite (canonical_takeDies (canonical_updHub (canonical_mk h))) (canonical_updHub (canonical_mk h))
theorem canonical_dispatchHead {s : State} (h : s.Canonical) : s.dispatchHead.Canonical := by
  unfold State.dispatchHead
  split
  · exact canonical_activate h
  · exact h
theorem keeps_execLaunchDispatch {s : State} (h : s.Canonical) : Keeps (execLaunchDispatch s) := by
  unfold execLaunchDispatch
  split
  · exact keeps_state (canonical_takeInvalid h)
  · exact keeps_state (canonical_dispatchHead (canonical_payOwed h))
theorem canonical_seedCores {l : Launch} {die : Nat} {cs : List (Nat × Nat × Nat)} {s : State} (h : s.Canonical) :
    (seedCores l die cs s).Canonical := by
  induction cs generalizing s with
  | nil => exact canonical_updLaunch h
  | cons e cs ih =>
    unfold seedCores
    exact canonical_ite (ih (canonical_updLaunch (canonical_setCore h (lm_pushRec (lm_coreAt h)))))
      (canonical_ite h (canonical_updLaunch h))
theorem canonical_reseed {l : List (Nat × TaskRec)} {s : State} (h : s.Canonical) : (s.reseed l).1.Canonical := by
  induction l generalizing s with
  | nil => exact h
  | cons e l ih =>
    unfold State.reseed
    split
    · exact ih h
    · exact ih (canonical_updCore h (fun _ hc => lm_mk hc))
theorem canonical_reseedOn {s : State} (h : s.Canonical) {l : Launch} {ds : List Nat} : (s.reseedOn l ds).1.Canonical :=
  canonical_updLaunch (canonical_reseed h)
theorem keeps_execLaunchDistribute {lnum die : Nat} {s : State} (h : s.Canonical) : Keeps (execLaunchDistribute lnum die s) := by
  unfold execLaunchDistribute
  split
  · exact keeps_state h
  · split
    · exact keeps_state h
    · split
      · exact keeps_state (canonical_seedCores h)
      · exact keeps_ite (keeps_state h) (keeps_state (canonical_reseedOn h))
theorem canonical_place {s : State} (h : s.Canonical) {core t : Nat} {l : Launch} {slot i : Nat} {fmtp sclp : Word}
    {todo : List Nat} :
    (s.place core t l slot i fmtp sclp todo).Canonical :=
  canonical_acquire (canonical_setCore h (lm_refill (lm_mk (lm_setSlot (lm_setThr (lm_coreAt h))))))
theorem lm_takeTask {c : Core} (hc : c.CanonicalLm) {r : TaskRec} : (c.takeTask r).CanonicalLm := lm_mk hc
theorem keeps_execTaskDispatch {core : Nat} {s : State} (h : s.Canonical) : Keeps (execTaskDispatch core s) := by
  unfold execTaskDispatch
  extract_lets +onlyGivenNames c
  have hc : c.CanonicalLm := lm_coreAt h
  split
  · exact keeps_state h
  · split
    · exact keeps_state h
    · extract_lets +onlyGivenNames n
      split
      · split
        · exact keeps_state h
        · extract_lets +onlyGivenNames s1
          have hs1 : s1.Canonical := canonical_setCore h (lm_mk hc)
          refine keeps_state (canonical_foldl hs1 (fun _ _ hs => ?_))
          split
          · exact hs
          · exact canonical_place hs
      · split
        · exact keeps_state (canonical_place (canonical_setCore h (lm_takeTask hc)))
        · exact keeps_state h
theorem canonical_steal {s : State} (h : s.Canonical) {thief victim l : Nat} : (s.steal thief victim l).1.Canonical := by
  unfold State.steal
  split
  · exact h
  · split
    · exact h
    · exact canonical_updCore (canonical_updCore h (fun _ hc => lm_mk hc)) fun _ hc => lm_pushRec hc
theorem keeps_execTaskSteal {core lnum : Nat} {s : State} (h : s.Canonical) : Keeps (execTaskSteal core lnum s) := by
  unfold execTaskSteal
  split
  · exact keeps_state h
  · split
    · exact keeps_state h
    · extract_lets +onlyGivenNames vs size
      split
      · exact keeps_state h
      · split
        · exact keeps_state (canonical_steal h)
        · exact keeps_state h
theorem canonical_addCount {s : State} (h : s.Canonical) {l d : Nat} {n : Int} : (s.addCount l d n).Canonical :=
  canonical_updLaunch h
theorem canonical_releaseDies {l : List Nat} {s : State} (h : s.Canonical) : AllCanonical (releaseDies s l) := by
  induction l generalizing s with
  | nil => exact canonical_some h
  | cons d l ih =>
    unfold releaseDies
    exact canonical_bind (canonical_release h) fun _ hs => ih hs
theorem canonical_freeRegions {s : State} (h : s.Canonical) {l : Nat} : (s.freeRegions l).Canonical := by
  unfold State.freeRegions
  refine canonical_mapCores h fun _ hc => ?_
  dsimp only
  exact lm_mk hc
theorem keeps_execLaunchRetire {lnum : Nat} {s : State} (h : s.Canonical) : Keeps (execLaunchRetire lnum s) := by
  unfold execLaunchRetire
  split
  · exact keeps_state h
  · split
    · exact keeps_state h
    · split
      · exact keeps_state h
      next e2 =>
        split
        · exact keeps_state (canonical_hubWait h)
        next e3 =>
          extract_lets +onlyGivenNames s3
          have hs3 : s3.Canonical := canonical_updHub (canonical_of_eq e3
            (canonical_complete_ (canonical_of_some e2 (canonical_releaseDies h))))
          extract_lets +onlyGivenNames s4
          have hs4 : s4.Canonical := canonical_freeRegions hs3
          extract_lets +onlyGivenNames s5
          have hs5 : s5.Canonical := canonical_foldl hs4 fun _ _ hs => canonical_updDie hs
          exact keeps_state (canonical_forget (canonical_freeInstances
            (canonical_foldl hs5 (fun _ _ hs => canonical_releaseHolders
            (canonical_updCore hs (fun _ hc => lm_mk (lm_dropMmr hc)))))))

/-! ### Recording regions -/

theorem canonical_updCoresOn {s : State} (h : s.Canonical) {d : Nat} {f : Core → Core}
    (hf : ∀ c, c.CanonicalLm → (f c).CanonicalLm) :
    (s.updCoresOn d f).Canonical := by
  unfold State.updCoresOn
  refine canonical_mapCores h fun _ hc => ?_
  split
  · dsimp only
    exact hf _ hc
  · exact hc
theorem canonical_clearPushTables {s : State} (h : s.Canonical) {d num lnum : Nat} : (s.clearPushTables d num lnum).Canonical :=
  canonical_updCoresOn h fun _ hc => lm_mk hc
theorem canonical_rrDeliver {s : State} (h : s.Canonical) {m : RrMember} : (s.rrDeliver m).Canonical := canonical_deliver h
theorem canonical_unmarkPushed {s : State} (h : s.Canonical) {d : Nat} {r : RrRegion} : (s.unmarkPushed d r).Canonical :=
  canonical_updCoresOn h fun _ hc => lm_mk hc
theorem canonical_rrOpen {s : State} (h : s.Canonical) {d num : Nat} : (s.rrOpen d num).Canonical := by
  unfold State.rrOpen
  split
  · exact h
  · exact canonical_ite h (canonical_foldl (canonical_ite (canonical_updCoresOn (canonical_updDie (canonical_unmarkPushed h))
      (fun _ hc => lm_mk hc)) (canonical_updDie (canonical_unmarkPushed h))) (fun _ _ hs => canonical_rrDeliver hs))
theorem canonical_wastePushed {s : State} (h : s.Canonical) {d : Nat} {r : RrRegion} : (s.wastePushed d r).Canonical :=
  canonical_updDie (canonical_unmarkPushed h)
theorem canonical_distribute {s : State} (h : s.Canonical) {d : Nat} {r : RrRegion} : (s.distribute d r).Canonical :=
  canonical_foldl (canonical_updDie h) fun _ _ hs => canonical_ite (canonical_updCore hs (fun _ hc => lm_mk hc))
    (canonical_updDie hs)
theorem canonical_fallBack {s : State} (h : s.Canonical) {d : Nat} {r : RrRegion} : (s.fallBack d r).Canonical :=
  canonical_updDie (canonical_clearPushTables (canonical_updDie h))
theorem canonical_closeMode {s : State} (h : s.Canonical) {d : Nat} {r : RrRegion} : (s.closeMode d r).Canonical := by
  unfold State.closeMode
  split
  · exact canonical_updDie h
  · exact canonical_ite (canonical_fallBack (canonical_updDie h)) (canonical_updDie (canonical_distribute (canonical_updDie h)))
  · exact canonical_ite (canonical_fallBack (canonical_updDie (canonical_wastePushed h)))
      (canonical_updDie (canonical_wastePushed h))
theorem canonical_rrClose {s : State} (h : s.Canonical) {d num : Nat} : (s.rrClose d num).Canonical := by
  unfold State.rrClose
  split
  · exact h
  · exact canonical_ite h (canonical_rrOpen (canonical_foldl
      (canonical_updDie (canonical_ite (canonical_updDie (canonical_clearPushTables (canonical_closeMode h)))
      (canonical_closeMode h))) (fun _ _ hs => canonical_rrDeliver hs)))
theorem canonical_rrArrive {s : State} (h : s.Canonical) : s.rrArrive.Canonical :=
  canonical_parkSt (canonical_updProgress (canonical_mk h))
theorem keeps_rrWait {s : State} (h : s.Canonical) : Keeps (rrWait s) := by
  unfold rrWait
  split
  · exact keeps_next h
  · exact keeps_park h
theorem keeps_execRrbeg {a b : Reg} {s : State} (h : s.Canonical) : Keeps (execRrbeg a b s) := by
  unfold execRrbeg
  extract_lets +onlyGivenNames x w d num
  split
  · exact keeps_rrWait h
  · refine keeps_guardTrap h fun _ => ?_
    extract_lets +onlyGivenNames join
    have hjoin : ∀ s, s.Canonical → Keeps (join s) := fun _ hs => keeps_state
      (canonical_rrOpen (canonical_updDie (canonical_rrArrive hs)))
    split
    · exact keeps_ite (keeps_trap h) (hjoin _ (canonical_updDie h))
    · exact keeps_ite (keeps_trap h) (keeps_ite (keeps_trap h) (hjoin _ h))
theorem keeps_execRrend {b : Reg} {s : State} (h : s.Canonical) : Keeps (execRrend b s) := by
  unfold execRrend
  extract_lets +onlyGivenNames w d num
  split
  · exact keeps_rrWait h
  · refine keeps_guardTrap h fun _ => ?_
    split
    · exact keeps_trap h
    · exact keeps_ite (keeps_trap h) (keeps_afterPushes h (fun _ hs => keeps_ite (keeps_park hs)
        (keeps_state (canonical_rrClose (canonical_updDie (canonical_rrArrive hs))))))
theorem keeps_execRrec {b : Reg} {s : State} (h : s.Canonical) : Keeps (execRrec b s) := by
  unfold execRrec
  extract_lets +onlyGivenNames w d num
  refine keeps_guardTrap h fun _ => ?_
  split
  · exact keeps_trap h
  · exact keeps_asked h fun _ hs => keeps_ite (keeps_next hs)
      (keeps_ite (keeps_next (canonical_updDie hs)) (keeps_next (canonical_updDie (canonical_clearPushTables hs))))
theorem keeps_execRroff {b : Reg} {s : State} (h : s.Canonical) : Keeps (execRroff b s) := by
  unfold execRroff
  extract_lets +onlyGivenNames w d
  refine keeps_guardTrap h fun _ => ?_
  split
  · exact keeps_trap h
  · exact keeps_ite (keeps_trap h) (keeps_asked h (fun _ hs => keeps_next
      (canonical_updDie (canonical_updDie (canonical_clearPushTables hs)))))
theorem keeps_execRrstat {d a b : Reg} {s : State} (h : s.Canonical) : Keeps (execRrstat d a b s) := by
  unfold execRrstat
  extract_lets +onlyGivenNames i w
  refine keeps_guardTrap h fun _ => ?_
  split
  · exact keeps_trap h
  · exact keeps_asked h fun _ hs => keeps_next (canonical_wr hs)
theorem canonical_endPush {s : State} (h : s.Canonical) {n : Nat} : (s.endPush n).Canonical := canonical_wakeIf (canonical_mk h)
theorem keeps_execReplayPush {n : Nat} {s : State} (h : s.Canonical) : Keeps (execReplayPush n s) := by
  unfold execReplayPush
  split
  · exact keeps_state h
  · extract_lets +onlyGivenNames va counted
    have hcounted : ∀ s wasted departs, s.Canonical → (counted s wasted departs).Canonical := fun _ _ _ hs => canonical_updDie hs
    extract_lets +onlyGivenNames c
    have hc : c.CanonicalLm := lm_coreAt h
    extract_lets +onlyGivenNames spoiled walked
    have hwalked : walked.1.Canonical := canonical_fetchWalk h
    split
    · exact keeps_state (canonical_endPush (hcounted _ _ _ h))
    · split
      · exact keeps_state h
      · split
        · exact keeps_state (canonical_endPush (hcounted _ _ _ h))
        · split
          · exact keeps_state (canonical_endPush (hcounted _ _ _ hwalked))
          · split
            next e5 =>
              exact keeps_state (canonical_endPush (hcounted _ _ _
                (canonical_updCore (canonical_of_eq e5 (canonical_settled h
                (canonical_readRequest (canonical_recallSector (canonical_noteMerge h))))) (fun _ hc => lm_l1Upd hc))))
            · exact keeps_state h
            · exact keeps_state (canonical_endPush (hcounted _ _ _ h))

/-! ### Global scalar and vector accesses -/

theorem keeps_globalLoad {w : LoadW} {d : Reg} {va : Word} {s : State} (h : s.Canonical) : Keeps (globalLoad w d va s) := by
  unfold globalLoad
  exact keeps_guardTrap h fun _ => keeps_afterReds h (fun _ hs => keeps_runL1 (fun _ _ hs1 => canonical_readL1 hs1) hs
    (fun _ hs1 => keeps_next (canonical_wr hs1)))
theorem keeps_globalStore {n : Nat} {x va : Word} {s : State} (h : s.Canonical) : Keeps (globalStore n x va s) :=
  keeps_guardTrap h fun _ => keeps_afterReds h (fun _ hs => keeps_runL1 (fun _ _ hs1 => canonical_writeL1 hs1) hs
    (fun _ hs1 => keeps_finish hs1))
theorem keeps_execPfg {a : Reg} {s : State} (h : s.Canonical) : Keeps (execPfg a s) :=
  keeps_ite (keeps_next h) (keeps_next (canonical_updCur h (fun _ hc => lm_mk hc)))
theorem canonical_prefetch {s : State} (h : s.Canonical) {core tn va : Nat} : AllCanonical (s.prefetch core tn va) := by
  unfold State.prefetch
  extract_lets +onlyGivenNames d line src
  have hsrc : src.CanonicalLm := lm_coreAt h
  extract_lets +onlyGivenNames c
  have hc : c.CanonicalLm := lm_mk hsrc
  extract_lets +onlyGivenNames gone
  have hgone : gone.Canonical := canonical_setCore h hc
  extract_lets +onlyGivenNames walked
  have hwalked : walked.1.Canonical := canonical_fetchWalk hgone
  split
  · exact canonical_none
  · split
    · exact canonical_some hwalked
    · split
      · exact canonical_some hgone
      · split
        · exact canonical_none
        next e3 => exact canonical_some (canonical_of_eq e3 (canonical_readRequest (canonical_noteMerge hgone)))
        · exact canonical_some hgone
theorem canonical_cleanToDram {s : State} (h : s.Canonical) {d : Nat} {l : LlcLine} : (s.cleanToDram d l).Canonical :=
  canonical_ite (canonical_cleanLine (canonical_cleanLine h)) (canonical_cleanLine h)
theorem keeps_rangeWriteBack {step : State → Nat → LlcLine → State} (hstep : ∀ s x x', s.Canonical → (step s x x').Canonical)
    {a n : Word} {s : State} (h : s.Canonical) :
    Keeps (rangeWriteBack step a n s) :=
  keeps_guardTrap h fun _ => keeps_ite (keeps_next h) (keeps_afterReds h
    (fun _ hs => keeps_asked hs (fun _ hs1 => keeps_ite (keeps_park hs1)
    (keeps_next (canonical_foldl hs1 (fun _ _ hs2 => hstep _ _ _ hs2))))))
theorem canonical_discStripe {d tn a n : Nat} {s : State} (h : s.Canonical) {e : Elem} :
    (discStripe d tn a n s e).1.Canonical := by
  unfold discStripe
  split
  next e1 => exact canonical_foldl (canonical_of_eq e1 (canonical_translate h)) fun _ _ hs => canonical_discardLine hs
  next e2 => exact canonical_of_eq e2 (canonical_translate h)
theorem keeps_execCdisc {a b : Reg} {s : State} (h : s.Canonical) : Keeps (execCdisc a b s) := by
  unfold execCdisc
  extract_lets +onlyGivenNames x n
  exact keeps_guardTrap h fun _ => keeps_ite (keeps_next h)
    (keeps_afterReds h (fun _ hs => keeps_asked hs (fun _ hs1 => keeps_ite (keeps_park hs1)
    (keeps_runElems (fun _ _ hs2 => canonical_discStripe hs2) hs1 (fun _ hs2 => keeps_next hs2)))))
theorem keeps_vectorAccessIf {due : State → Option Park} {reads writes : List VCode} {early late : Option TrapOf}
    {data aux : VReg} {s : State} (h : s.Canonical) {k : State → Res} (hk : ∀ s, s.Canonical → Keeps (k s)) :
    Keeps (vectorAccessIf due reads writes early late data aux s k) := by
  unfold vectorAccessIf
  split
  · exact hk _ h
  · refine keeps_guardTrap h fun _ => keeps_afterReds h (fun _ hs => ?_)
    split
    · exact keeps_park hs
    · exact keeps_withWindows hs fun _ hs1 => hk _ (canonical_capture hs1)
theorem keeps_vectorAccess {reads writes : List VCode} {early late : Option TrapOf} {data aux : VReg} {s : State}
    (h : s.Canonical) {k : State → Res} (hk : ∀ s, s.Canonical → Keeps (k s)) :
    Keeps (vectorAccess reads writes early late data aux s k) :=
  keeps_vectorAccessIf h hk
theorem keeps_execVld {d : VCode} {a : Reg} {p : BitVec 5} {k : MaskReg} {s : State} (h : s.Canonical) :
    Keeps (execVld d a p k s) :=
  keeps_vectorAccess h fun _ hs => keeps_runWhole (fun _ _ hs1 => canonical_readL1 hs1) hs
    (fun _ hs1 => keeps_next (canonical_vwrite hs1))
theorem keeps_execVst {d : VCode} {a : Reg} {p : BitVec 5} {k : MaskReg} {s : State} (h : s.Canonical) :
    Keeps (execVst d a p k s) :=
  keeps_vectorAccess h fun _ hs => keeps_runWhole (fun _ _ hs1 => canonical_writeL1 hs1) hs (fun _ hs1 => keeps_finish hs1)
theorem canonical_writeStrided {c tn : Nat} {l : List Elem} {s : State} (h : s.Canonical) {e : Elem} :
    (writeStrided c tn l s e).1.Canonical :=
  canonical_writeCounted h
theorem keeps_execVlds {t : ElemTy} {d : VCode} {a b : Reg} {k : MaskReg} {s : State} (h : s.Canonical) :
    Keeps (execVlds t d a b k s) :=
  keeps_vectorAccess h fun _ hs => keeps_runL1 (fun _ _ hs1 => canonical_readL1 hs1) hs
    (fun _ hs1 => keeps_next (canonical_vwrite hs1))
theorem keeps_execVsts {t : ElemTy} {d : VCode} {a b : Reg} {k : MaskReg} {s : State} (h : s.Canonical) :
    Keeps (execVsts t d a b k s) :=
  keeps_vectorAccess h fun _ hs => keeps_runL1 (fun _ _ hs1 => canonical_writeStrided hs1) hs (fun _ hs1 => keeps_finish hs1)
theorem keeps_execVgth {t : ElemTy} {d : VCode} {a : Reg} {b : VCode} {k : MaskReg} {s : State} (h : s.Canonical) :
    Keeps (execVgth t d a b k s) :=
  keeps_vectorAccess h fun _ hs => keeps_runWords (fun _ _ hs1 => canonical_readWord hs1) hs
    (fun _ hs1 => keeps_next (canonical_vwrite hs1))
theorem keeps_execVsct {t : ElemTy} {d : VCode} {a : Reg} {b : VCode} {k : MaskReg} {s : State} (h : s.Canonical) :
    Keeps (execVsct t d a b k s) :=
  keeps_vectorAccess h fun _ hs => keeps_runWords (fun _ _ hs1 => canonical_writeWord hs1) hs (fun _ hs1 => keeps_next hs1)
theorem canonical_reply {s : State} (h : s.Canonical) {core tid : Nat} : (s.reply core tid).Canonical := by
  unfold State.reply
  exact canonical_updCore (canonical_updThrAt h) fun _ hc => lm_wakeBy hc
theorem canonical_serveLine {s : State} (h : s.Canonical) {core tid line : Nat} : (s.serveLine core tid line).Canonical := by
  unfold State.serveLine
  extract_lets +onlyGivenNames t
  refine canonical_foldl h fun _ _ hs => ?_
  split
  next e => exact canonical_updThrAt (canonical_of_eq e (canonical_obtain hs))
  · exact hs
theorem canonical_replyAt {s : State} (h : s.Canonical) {core tid line : Nat} : (s.replyAt core tid line).Canonical :=
  canonical_ite (canonical_reply h) (canonical_serveLine h)
theorem keeps_execGlobalReply {core tid : Nat} {s : State} (h : s.Canonical) : Keeps (execGlobalReply core tid s) := by
  unfold execGlobalReply
  extract_lets +onlyGivenNames t
  split
  · split
    · exact keeps_state h
    · split
      next e2 =>
        split
        · exact keeps_state (canonical_replyAt (canonical_of_eq e2 (canonical_attachAll h)))
        · exact keeps_state (canonical_ite (canonical_reply (canonical_of_eq e2 (canonical_attachAll h)))
            (canonical_of_eq e2 (canonical_attachAll h)))
      next e2 => exact keeps_state (canonical_of_eq e2 (canonical_attachAll h))
  · split
    · exact keeps_state (canonical_updThrAt h)
    · exact keeps_state h
theorem keeps_served {s : State} (h : s.Canonical) {r : State × Ans} (hr : r.1.Canonical) : Keeps (served s r) := by
  unfold served
  split
  · exact keeps_state hr
  · exact keeps_state h
theorem keeps_execSliceReadRequest {core tn va : Nat} {s : State} (h : s.Canonical) : Keeps (execSliceReadRequest core tn va s) :=
  keeps_ite (keeps_state (canonical_getD h (canonical_prefetch h))) (keeps_served h (canonical_readRequest h))
theorem keeps_execL1WriteBack {core tn va : Nat} {s : State} (h : s.Canonical) : Keeps (execL1WriteBack core tn va s) := by
  unfold execL1WriteBack
  split
  · exact keeps_state (canonical_unlessJam h (canonical_l1Evict h))
  · exact keeps_state h
theorem keeps_execL1Invalidation {core tn va : Nat} {s : State} (h : s.Canonical) : Keeps (execL1Invalidation core tn va s) :=
  keeps_ite (keeps_state (canonical_unlessJam h (canonical_recallSector h))) (keeps_state (canonical_l1Invalidate h))
theorem keeps_execWordRequest {core tn va size : Nat} {x : Option Word} {s : State} (h : s.Canonical) :
    Keeps (execWordRequest core tn va size x s) := by
  unfold execWordRequest
  extract_lets +onlyGivenNames d
  split
  · exact keeps_served h (canonical_sliceRead h)
  · exact keeps_served h (canonical_sliceWrite h)
theorem keeps_execGuestWriteBack {source : GuestSource} {tn va : Nat} {s : State} (h : s.Canonical) :
    Keeps (execGuestWriteBack source tn va s) := by
  unfold execGuestWriteBack
  split
  · exact keeps_ite (keeps_state (canonical_unlessJam h (canonical_homeMerge h (fun _ _ _ _ hs => canonical_llcStore hs))))
      (keeps_state h)
  · split
    · exact keeps_ite (keeps_state (canonical_unlessJam h (canonical_cleanLine h))) (keeps_state h)
    · exact keeps_state h

/-! ### Element-wise vector groups -/

theorem keeps_vec3 {t : ElemTy} {d a b : VCode} {k : MaskReg} {dRead : Bool} {f : Nat → Nat → Nat → Fl} {interval : Nat}
    {s : State} (h : s.Canonical) :
    Keeps (vec3 t d a b k dRead f interval s) :=
  keeps_withWindows h fun _ hs => keeps_next (canonical_vwrite hs)
theorem keeps_vec2 {t : ElemTy} {d a : VCode} {k : MaskReg} {dRead : Bool} {f : Nat → Nat → Fl} {interval : Nat} {s : State}
    (h : s.Canonical) :
    Keeps (vec2 t d a k dRead f interval s) :=
  keeps_withWindows h fun _ hs => keeps_next (canonical_vwrite hs)
theorem keeps_vcmp {o : Cmp} {t : ElemTy} {d : MaskReg} {a b : VCode} {k : MaskReg} {s : State} (h : s.Canonical) :
    Keeps (vcmp o t d a b k s) := by
  unfold vcmp
  exact keeps_withWindows h fun _ hs => keeps_next (canonical_raise (canonical_setMask hs))
theorem keeps_execVsel {t : ElemTy} {d a b : VCode} {k : MaskReg} {s : State} (h : s.Canonical) : Keeps (execVsel t d a b k s) :=
  keeps_withWindows h fun _ hs => keeps_next (canonical_vwrite hs)
theorem keeps_execVins {t : ElemTy} {d : VCode} {a b : Reg} {s : State} (h : s.Canonical) : Keeps (execVins t d a b s) :=
  keeps_withWindows h fun _ hs => keeps_next (canonical_vwrite hs)
theorem keeps_execVext {t : ElemTy} {d : Reg} {a : VCode} {b : Reg} {s : State} (h : s.Canonical) : Keeps (execVext t d a b s) :=
  keeps_withWindows h fun _ hs => keeps_next (canonical_wr hs)

/-! ### Conversions, permutes and reductions -/

theorem canonical_srWords {s : State} (h : s.Canonical) {steps : Bool} {w : Nat} : (s.srWords steps w).2.Canonical := by
  unfold State.srWords
  split
  · exact canonical_updCtl h
  · exact h
theorem keeps_execVcvt {t u : ElemTy} {d a : VCode} {k : MaskReg} {s : State} (h : s.Canonical) :
    Keeps (execVcvt t u d a k s) := by
  unfold execVcvt
  exact keeps_withWindows h fun _ hs => keeps_next (canonical_vwrite (canonical_srWords hs))
theorem keeps_execVdec {d a : VCode} {k : MaskReg} {s : State} (h : s.Canonical) : Keeps (execVdec d a k s) :=
  keeps_withWindows h fun _ hs => keeps_next (canonical_vwrite hs)
theorem keeps_execVenc {_t : ElemTy} {d a : VCode} {k : MaskReg} {s : State} (h : s.Canonical) : Keeps (execVenc _t d a k s) :=
  keeps_withWindows h fun _ hs => keeps_next (canonical_vwrite hs)
theorem keeps_execVdtld {a : Reg} {s : State} (h : s.Canonical) : Keeps (execVdtld a s) :=
  keeps_guardTrap h fun _ => keeps_next (canonical_updCur h (fun _ hc => lm_mk hc))
theorem keeps_execVqnt {t : ElemTy} {d a b : VCode} {k : MaskReg} {s : State} (h : s.Canonical) :
    Keeps (execVqnt t d a b k s) := by
  unfold execVqnt
  exact keeps_withWindows h fun _ hs => keeps_next (canonical_vwrite (canonical_srWords hs))
theorem keeps_execVdqnt {t : ElemTy} {d a b : VCode} {k : MaskReg} {s : State} (h : s.Canonical) :
    Keeps (execVdqnt t d a b k s) := by
  unfold execVdqnt
  exact keeps_withWindows h fun _ hs => keeps_next (canonical_vwrite (canonical_srWords hs))
theorem keeps_execVperm {t : ElemTy} {d a b : VCode} {k : MaskReg} {s : State} (h : s.Canonical) :
    Keeps (execVperm t d a b k s) := by
  unfold execVperm
  exact keeps_vec3 h
theorem keeps_execVslide {t : ElemTy} {d a : VCode} {b : Reg} {k : MaskReg} {s : State} (h : s.Canonical) :
    Keeps (execVslide t d a b k s) :=
  keeps_withWindows h fun _ hs => keeps_next (canonical_vwrite hs)
theorem keeps_execVbcast {t : ElemTy} {d a : VCode} {b : Reg} {k : MaskReg} {s : State} (h : s.Canonical) :
    Keeps (execVbcast t d a b k s) :=
  keeps_withWindows h fun _ hs => keeps_next (canonical_vwrite hs)
theorem keeps_reduceTo {d : VCode} {n : Nat} {r : Fl} {s : State} (h : s.Canonical) : Keeps (reduceTo d n r s) :=
  keeps_next (canonical_raise (canonical_vput h))
theorem keeps_execVredsum {t : ElemTy} {d a : VCode} {k : MaskReg} {s : State} (h : s.Canonical) :
    Keeps (execVredsum t d a k s) :=
  keeps_withWindows h fun _ hs => keeps_ite (keeps_reduceTo hs) (keeps_reduceTo hs)
theorem keeps_vredm {max : Bool} {t : ElemTy} {d a : VCode} {k : MaskReg} {s : State} (h : s.Canonical) :
    Keeps (vredm max t d a k s) :=
  keeps_withWindows h fun _ hs => keeps_reduceTo hs
theorem keeps_execVscan {t : ElemTy} {d a : VCode} {k : MaskReg} {s : State} (h : s.Canonical) : Keeps (execVscan t d a k s) :=
  keeps_withWindows h fun _ hs => keeps_next (canonical_vwrite hs)
theorem keeps_execVamaxb {t : ElemTy} {d a : VCode} {k : MaskReg} {s : State} (h : s.Canonical) : Keeps (execVamaxb t d a k s) :=
  keeps_withWindows h fun _ hs => keeps_next (canonical_vwrite hs)

end Sys2Proof.Machine
end

section
/-! SUPPORT. The engines, the THRD group and versioned memory keep the canonical form. -/

namespace Sys2Proof.Machine

/-! ### The matrix engine -/

theorem lm_putBank {c : Core} (hc : c.CanonicalLm) {b lo : Nat} {l : List Nat} : (c.putBank b lo l).CanonicalLm := lm_mk hc
theorem canonical_engRead {fuel : Nat} {s : State} (h : s.Canonical) {d tn va n : Nat} :
    (State.engRead fuel s d tn va n).1.Canonical := by
  induction fuel generalizing s va n with
  | zero => exact h
  | succ fuel ih =>
    unfold State.engRead
    split
    · exact h
    · split
      · exact h
      · extract_lets +onlyGivenNames k
        split
        next e2 => exact ih (canonical_of_eq e2 (canonical_sliceRead h))
        next e3 => exact canonical_of_eq e3 (canonical_sliceRead h)
theorem canonical_engBytes {s : State} (h : s.Canonical) {d tn va n : Nat} : (s.engBytes d tn va n).1.Canonical :=
  canonical_engRead h
theorem canonical_readOperands {core : Nat} {m : MatCmd} {l : List (Nat × Nat × Nat)} {s : State} (h : s.Canonical) :
    (readOperands core m l s).1.Canonical := by
  induction l generalizing s with
  | nil => exact h
  | cons e l ih =>
    unfold readOperands
    split
    · split
      · exact h
      · exact ih h
    · split
      next e2 => exact ih (canonical_of_eq e2 (canonical_engBytes h))
      next e2 => exact canonical_of_eq e2 (canonical_engBytes h)
theorem canonical_mmrSend {s : State} (h : s.Canonical) {core : Nat} {m : MatCmd} {east south : MmrKind} :
    (s.mmrSend core m east south).Canonical :=
  canonical_updCore h fun _ hc => lm_mk hc
theorem keeps_matrixIssue {form : Nat} {t : MtxTy} {k : KLen} {n : BitVec 2} {d a b : Reg} {s : State} (h : s.Canonical) :
    Keeps (matrixIssue form t k n d a b s) :=
  keeps_ite (keeps_park h) (keeps_guardTrap h (fun _ => keeps_ite (keeps_park h)
    (keeps_park (canonical_updProgress (canonical_updCur h (fun _ hc => lm_mk hc))))))
theorem canonical_matNext {s : State} (h : s.Canonical) {core : Nat} {m : MatCmd} : (s.matNext core m).1.Canonical := by
  unfold State.matNext
  extract_lets +onlyGivenNames go
  have hgo : ∀ s m k, s.Canonical → (go s m k).1.Canonical := fun _ _ _ hs => hs
  extract_lets +onlyGivenNames waits
  split
  · exact h
  · split
    · exact canonical_updCore h fun _ hc => lm_ite (lm_mk hc) (lm_putBank (lm_mk hc))
    · split
      · split
        next e3 => exact canonical_of_eq e3 (canonical_readOperands h)
        next e3 => exact hgo _ _ _ (canonical_of_eq e3 (canonical_readOperands h))
      · split
        · exact h
        · split
          · split
            next e5 => exact canonical_of_eq e5 (canonical_readOperands h)
            next e5 => exact hgo _ _ _ (canonical_of_eq e5 (canonical_readOperands h))
          · extract_lets +onlyGivenNames c
            have hc : c.CanonicalLm := lm_coreAt h
            extract_lets +onlyGivenNames p mine next block differs
            split
            · exact h
            · split
              · exact h
              · split
                · exact hgo _ _ _ (canonical_updCore h (fun _ hc => lm_mk hc))
                · exact h
theorem lm_setHead {c : Core} (hc : c.CanonicalLm) {m : MatCmd} : (c.setHead m).CanonicalLm := lm_mk hc
theorem keeps_execMatrixKblock {core : Nat} {s : State} (h : s.Canonical) : Keeps (execMatrixKblock core s) := by
  unfold execMatrixKblock
  split
  · exact keeps_state h
  · split
    next e1 =>
      extract_lets +onlyGivenNames s'1
      have hs'1 : s'1.Canonical := canonical_updCore (canonical_of_eq e1 (canonical_matNext h)) fun _ hc => lm_putBank hc
      extract_lets +onlyGivenNames n m'
      split
      · exact keeps_ite (keeps_state (canonical_ite (canonical_mmrSend (canonical_updCore hs'1 (fun _ hc => lm_setHead hc)))
          (canonical_updCore hs'1 (fun _ hc => lm_setHead hc))))
          (keeps_state (canonical_updCore hs'1 (fun _ hc => lm_setHead hc)))
      · exact keeps_state (canonical_updThrAt (canonical_updCore hs'1 (fun _ hc => lm_setHead hc)))
    · exact keeps_state h
theorem canonical_endMatrix {s : State} (h : s.Canonical) {core : Nat} {m : MatCmd} {mstat : Word} :
    (s.endMatrix core m mstat).Canonical :=
  canonical_updCore (canonical_updThrAt (canonical_updCore h (fun _ hc => lm_mk hc))) fun _ hc => lm_wakeEngines hc
theorem keeps_execMatrixComplete {core : Nat} {s : State} (h : s.Canonical) : Keeps (execMatrixComplete core s) := by
  unfold execMatrixComplete
  split
  · exact keeps_state h
  · exact keeps_ite (keeps_state (canonical_endMatrix h)) (keeps_state h)
theorem canonical_failMatrix {s : State} (h : s.Canonical) {core : Nat} {m : MatCmd} {opnd kind addr failed : Nat} :
    (s.failMatrix core m opnd kind addr failed).Canonical :=
  canonical_endMatrix (canonical_ite (canonical_mmrSend h) h)
theorem keeps_execMatrixFaultStop {core : Nat} {s : State} (h : s.Canonical) : Keeps (execMatrixFaultStop core s) := by
  unfold execMatrixFaultStop
  split
  · exact keeps_state h
  · split
    next e1 =>
      split
      · exact keeps_ite (keeps_state (canonical_failMatrix (canonical_of_eq e1 (canonical_matNext h))))
          (keeps_state (canonical_mk (canonical_updCore (canonical_updThrAt (canonical_of_eq e1 (canonical_matNext h)))
          (fun _ hc => lm_setHead hc))))
      · exact keeps_ite (keeps_state h) (keeps_state (canonical_updCore (canonical_of_eq e1 (canonical_matNext h))
          (fun _ hc => lm_setHead hc)))
      · exact keeps_state (canonical_failMatrix (canonical_of_eq e1 (canonical_matNext h)))
      · exact keeps_state h
    next e1 => exact keeps_state (canonical_failMatrix (canonical_of_eq e1 (canonical_matNext h)))
    · exact keeps_state h
theorem canonical_mmrDeliver {s : State} (h : s.Canonical) {core : Nat} {east : Bool} :
    AllCanonical (s.mmrDeliver core east) := by
  unfold State.mmrDeliver
  extract_lets +onlyGivenNames out
  split
  · exact canonical_none
  · split
    · exact canonical_none
    · exact canonical_map fun _ => canonical_updCore (canonical_updCore h (fun _ hc => lm_ite (lm_mk hc) (lm_mk hc)))
        (fun _ hc => lm_ite (lm_mk hc) (lm_mk hc))
theorem keeps_execMmrBlockArrival {core : Nat} {s : State} (h : s.Canonical) : Keeps (execMmrBlockArrival core s) := by
  unfold execMmrBlockArrival
  split
  next e => exact keeps_state (canonical_of_some e (canonical_mmrDeliver h))
  · split
    next e1 => exact keeps_state (canonical_of_some e1 (canonical_mmrDeliver h))
    · exact keeps_state h
theorem keeps_execMmrAbortToken {core : Nat} {s : State} (h : s.Canonical) : Keeps (execMmrAbortToken core s) := by
  unfold execMmrAbortToken
  extract_lets +onlyGivenNames c
  have hc : c.CanonicalLm := lm_coreAt h
  split
  · exact keeps_state h
  · extract_lets +onlyGivenNames between
    split
    · exact keeps_ite (keeps_state (canonical_failMatrix h)) (keeps_state h)
    · exact keeps_ite (keeps_state (canonical_failMatrix h)) (keeps_state h)
    · exact keeps_state h
theorem keeps_execMwait {a : Reg} {s : State} (h : s.Canonical) : Keeps (execMwait a s) :=
  keeps_guardTrap h fun _ => keeps_ite (keeps_next h) (keeps_park h)
theorem keeps_execMstat {d : Reg} {s : State} (h : s.Canonical) : Keeps (execMstat d s) :=
  keeps_ite (keeps_trap h) (keeps_next (canonical_wr h))
theorem keeps_execAccst {t : ElemTy} {n : BitVec 2} {c : VCode} {a : Reg} {s : State} (h : s.Canonical) :
    Keeps (execAccst t n c a s) := by
  unfold execAccst
  exact keeps_withWindows h fun _ hs => keeps_next (canonical_vwrite (canonical_srWords hs))
theorem keeps_execAccld {t : ElemTy} {n : BitVec 2} {c : VCode} {a : Reg} {s : State} (h : s.Canonical) :
    Keeps (execAccld t n c a s) :=
  keeps_withWindows h fun _ hs => keeps_next (canonical_raise
    (canonical_updCur (canonical_ite (canonical_updCtl hs) hs) (fun _ hc => lm_putBank hc)))
theorem keeps_accRows {a b : Word} {n : Nat} {fin : State → Res} (hf : ∀ s, s.Canonical → Keeps (fin s)) {l : List Nat}
    {s : State} (h : s.Canonical) :
    Keeps (accRows a b n fin l s) := by
  induction l generalizing s with
  | nil => exact hf s h
  | cons r l ih =>
    unfold accRows
    exact keeps_ite (ih h) (keeps_runWhole (fun _ _ hs => canonical_writeL1 hs) h (fun _ hs => ih (canonical_updProgress hs)))
theorem keeps_execAccstg {t : ElemTy} {n : BitVec 2} {a b : Reg} {s : State} (h : s.Canonical) :
    Keeps (execAccstg t n a b s) := by
  unfold execAccstg
  extract_lets +onlyGivenNames x y run
  have hrun : ∀ s, s.Canonical → Keeps (run s) := fun _ hs => keeps_afterReds hs fun _ hs1 => keeps_accRows
    (fun _ hs2 => keeps_finish (canonical_raise (canonical_updCtl hs2))) hs1
  exact keeps_ite (hrun _ h) (keeps_guardTrap h (fun _ => hrun _ (canonical_updProgress h)))

/-! ### The copy engine -/

theorem canonical_addClaim {s : State} (h : s.Canonical) {core cmd tn lo hi : Nat} : (s.addClaim core cmd tn lo hi).Canonical :=
  canonical_updDie (canonical_foldl h (fun _ _ hs => canonical_foldl hs (fun _ _ hs1 => canonical_clearSector hs1)))
theorem canonical_dropClaims {s : State} (h : s.Canonical) {core cmd : Nat} : (s.dropClaims core cmd).Canonical :=
  canonical_ite (canonical_retryHeld (canonical_updDie h)) h
theorem keeps_onCopyThread {s : State} (h : s.Canonical) {k : Unit → Res} (hk : ∀ x, Keeps (k x)) : Keeps (onCopyThread s k) :=
  keeps_ite (hk _) (keeps_trap h)
theorem keeps_handOver {fn : Nat} {a b c : Reg} {s : State} (h : s.Canonical) : Keeps (handOver fn a b c s) := by
  unfold handOver
  refine keeps_onCopyThread h fun _ => ?_
  extract_lets +onlyGivenNames x1 claim room claimed
  have hclaimed : claimed.Canonical := by
    dsimp -zeta only [claimed]
    clear_value claim
    split
    · exact canonical_addClaim h
    · exact h
  exact keeps_ite (keeps_park h) (keeps_next (canonical_updCtl (canonical_updCur (canonical_mk hclaimed) (fun _ hc => lm_mk hc))))
theorem canonical_readGlobal {d tn fuel : Nat} {c : CopySt} (hc : c.s.Canonical) {a n : Nat} :
    (readGlobal d tn fuel c a n).1.s.Canonical := by
  induction fuel generalizing c a n with
  | zero => exact hc
  | succ fuel ih =>
    unfold readGlobal
    split
    · exact hc
    · extract_lets +onlyGivenNames k next
      have hnext : ∀ c l, c.s.Canonical → (next c l).1.s.Canonical := by
        refine fun _ _ hs => ?_
        dsimp -zeta only [next]
        extract_lets +onlyGivenNames r
        have hr : r.1.s.Canonical := ih hs
        exact hr
      split
      · exact hnext _ _ hc
      · split
        next e2 => exact hnext _ _ (canonical_of_eq e2 (canonical_engBytes hc))
        next e2 => exact canonical_of_eq e2 (canonical_engBytes hc)
theorem canonical_readLm {core : Nat} {c : CopySt} (hc : c.s.Canonical) {a n : Nat} : (readLm core c a n).1.s.Canonical := by
  unfold readLm
  extract_lets +onlyGivenNames k
  have hk : k.CanonicalLm := lm_coreAt hc
  split
  · exact hc
  · split
    · exact hc
    · exact hc
theorem canonical_reader {x : CopyCmd} {core tn : Nat} {c : CopySt} (hc : c.s.Canonical) {a n : Nat} :
    (x.reader core tn c a n).1.s.Canonical := by
  unfold CopyCmd.reader
  split
  · exact canonical_readGlobal hc
  · exact canonical_readLm hc
theorem canonical_readRows {rd : CopyRead} (hr : ∀ c a n, c.s.Canonical → (rd c a n).1.s.Canonical) {w n : Nat}
    {start : Nat → Nat} {l : List Nat} {c : CopySt} (hc : c.s.Canonical) :
    (readRows rd w n start l c).1.s.Canonical := by
  induction l generalizing c with
  | nil => exact hc
  | cons r l ih =>
    unfold readRows
    extract_lets +onlyGivenNames b
    split
    next e1 => exact canonical_of_eq_s e1 (hr _ _ _ hc)
    next e =>
      extract_lets +onlyGivenNames q
      have hq : q.1.s.Canonical := ih (canonical_of_eq_s e (hr _ _ _ hc))
      exact hq
theorem canonical_expandBlocks {rd : CopyRead} (hr : ∀ c a n, c.s.Canonical → (rd c a n).1.s.Canonical) {h : StreamHead}
    {codes : List Code} {pay b : Nat} {l : List (Nat × Nat)} {left : Nat} {c : CopySt} (hc : c.s.Canonical) :
    (expandBlocks rd h codes pay b l left c).1.s.Canonical := by
  induction l generalizing b left c with
  | nil => exact hc
  | cons x l ih =>
    unfold expandBlocks
    extract_lets +onlyGivenNames stop
    split
    next e1 => exact canonical_of_eq_s e1 (hr _ _ _ hc)
    next e =>
      split
      · exact canonical_of_eq_s e (hr _ _ _ hc)
      · extract_lets +onlyGivenNames B r
        split
        · exact canonical_of_eq_s e (hr _ _ _ hc)
        · split
          · exact canonical_of_eq_s e (hr _ _ _ hc)
          · extract_lets +onlyGivenNames q
            have hq : q.1.s.Canonical := ih (canonical_of_eq_s e (hr _ _ _ hc))
            exact hq
theorem canonical_expandStream {rd : CopyRead} (hrd : ∀ x x' x'', x.s.Canonical → (rd x x' x'').1.s.Canonical)
    {base declared : Nat} {c : CopySt} (hc : c.s.Canonical) :
    (expandStream rd base declared c).1.s.Canonical := by
  unfold expandStream
  split
  next e1 => exact canonical_of_eq_s e1 (hrd _ _ _ hc)
  next e =>
    split
    · exact canonical_of_eq_s e (hrd _ _ _ hc)
    · split
      next e3 => exact canonical_of_eq_s e3 (hrd _ _ _ (canonical_of_eq_s e (hrd _ _ _ hc)))
      next e2 =>
        extract_lets +onlyGivenNames idx
        split
        · exact canonical_of_eq_s e2 (hrd _ _ _ (canonical_of_eq_s e (hrd _ _ _ hc)))
        · exact canonical_expandBlocks hrd (canonical_of_eq_s e2 (hrd _ _ _ (canonical_of_eq_s e (hrd _ _ _ hc))))
theorem canonical_planLoad {x : CopyCmd} {core tn : Nat} {c : CopySt} (hc : c.s.Canonical) :
    (CopyCmd.planLoad x core tn c).1.s.Canonical := by
  unfold CopyCmd.planLoad
  extract_lets +onlyGivenNames rd
  have hrd : ∀ a a1 a2, a.s.Canonical → (rd a a1 a2).1.s.Canonical := fun _ _ _ hs => canonical_reader hs
  extract_lets +onlyGivenNames r
  have hr : r.1.s.Canonical := canonical_readRows hrd hc
  extract_lets +onlyGivenNames src
  have hsrc : src.1.s.Canonical := by
    dsimp -zeta only [src]
    split
    · exact canonical_expandStream hrd hc
    · exact hr
  exact hsrc
theorem canonical_planStore {x : CopyCmd} {core tn : Nat} {c : CopySt} (hc : c.s.Canonical) :
    (CopyCmd.planStore x core tn c).1.s.Canonical := by
  unfold CopyCmd.planStore
  extract_lets +onlyGivenNames src
  have hsrc : src.1.s.Canonical := canonical_readRows (fun _ _ _ hs => canonical_reader hs) hc
  extract_lets +onlyGivenNames k
  have hk : k.CanonicalLm := lm_coreAt hsrc
  extract_lets +onlyGivenNames r t q fl stop
  split
  · split
    · exact hsrc
    · split
      · exact hsrc
      · split
        · exact hsrc
        · split
          · exact hsrc
          · exact hsrc
          · exact hsrc
  · exact hsrc
theorem canonical_keepLm {rd : CopyRead} (hr : ∀ c a n, c.s.Canonical → (rd c a n).1.s.Canonical) {c : CopySt}
    (hc : c.s.Canonical) {a n : Nat} :
    (keepLm rd c a n).1.s.Canonical := by
  unfold keepLm
  split
  · exact hc
  · split
    next c' l e =>
      have hs : c'.s.Canonical := canonical_of_eq_s e (hr _ _ _ hc)
      exact hs
    · exact hr _ _ _ hc
theorem canonical_axbBlocks {x : CopyCmd} {core tn : Nat} {xs : List Made} {t : ElemTy} {rs l : List Nat} {c : CopySt}
    (hc : c.s.Canonical) :
    (x.axbBlocks core tn xs t rs l c).1.s.Canonical := by
  induction l generalizing c with
  | nil => exact hc
  | cons b l ih =>
    unfold CopyCmd.axbBlocks
    extract_lets +onlyGivenNames f w n start nb
    split
    next e1 => exact canonical_of_eq_s e1 (canonical_readGlobal hc)
    next e =>
      split
      next e2 =>
        refine canonical_of_eq_s e2 ?_
        split
        · exact canonical_keepLm (fun _ _ _ hs => canonical_readLm hs) (canonical_of_eq_s e (canonical_readGlobal hc))
        · exact canonical_of_eq_s e (canonical_readGlobal hc)
      next e1 =>
        split
        · refine canonical_of_eq_s e1 ?_
          split
          · exact canonical_keepLm (fun _ _ _ hs => canonical_readLm hs) (canonical_of_eq_s e (canonical_readGlobal hc))
          · exact canonical_of_eq_s e (canonical_readGlobal hc)
        · extract_lets +onlyGivenNames sv yv r s2 o q
          have hq : q.1.s.Canonical := by
            refine ih (canonical_of_eq_s e1 ?_)
            split
            · exact canonical_keepLm (fun _ _ _ hs => canonical_readLm hs) (canonical_of_eq_s e (canonical_readGlobal hc))
            · exact canonical_of_eq_s e (canonical_readGlobal hc)
          exact hq
theorem canonical_planAxb {x : CopyCmd} {core tn : Nat} {c : CopySt} (hc : c.s.Canonical) :
    (CopyCmd.planAxb x core tn c).1.s.Canonical := by
  unfold CopyCmd.planAxb
  extract_lets +onlyGivenNames src
  have hsrc : src.1.s.Canonical := canonical_readRows (fun _ _ _ hs => canonical_keepLm (fun _ _ _ hs1 => canonical_reader hs1)
    hs) hc
  split
  · exact hsrc
  · extract_lets +onlyGivenNames xs q
    have hq : q.1.s.Canonical := canonical_axbBlocks hsrc
    exact hq
theorem canonical_plan {x : CopyCmd} {core : Nat} {s : State} (h : s.Canonical) : (CopyCmd.plan x core s).1.s.Canonical := by
  unfold CopyCmd.plan
  extract_lets +onlyGivenNames tn c
  have hc : c.s.Canonical := h
  extract_lets +onlyGivenNames global
  split
  · exact hc
  · split
    · exact hc
    · split
      · exact canonical_planLoad hc
      · split
        · exact canonical_planAxb hc
        · split
          · exact hc
          · exact canonical_planStore hc
theorem canonical_setCopy {s : State} (h : s.Canonical) {core : Nat} {x : CopyCmd} : (s.setCopy core x).Canonical :=
  canonical_updCore h fun _ hc => lm_mk hc
theorem keeps_execCopyCommandRun {core : Nat} {s : State} (h : s.Canonical) : Keeps (execCopyCommandRun core s) := by
  unfold execCopyCommandRun
  split
  · exact keeps_state h
  · exact keeps_ite (keeps_state h) (keeps_ite (keeps_state (canonical_setCopy h))
      (keeps_state (canonical_setCopy (canonical_plan h))))
theorem canonical_nibbleMerge {s : State} (h : s.Canonical) {d tn va : Nat} {x mask : Byte} :
    (s.nibbleMerge d tn va x mask).1.Canonical := by
  unfold State.nibbleMerge
  extract_lets +onlyGivenNames f
  split
  next e =>
    split
    · split
      next e2 => exact canonical_sliceWrite (canonical_of_eq e2 (canonical_sliceRead (canonical_of_eq e (canonical_translate h))))
      next e3 => exact canonical_of_eq e3 (canonical_sliceRead (canonical_of_eq e (canonical_translate h)))
    · refine canonical_settled (canonical_of_eq e (canonical_translate h)) ?_
      extract_lets +onlyGivenNames s2
      have hs2 : s2.Canonical := canonical_updDie (canonical_flushLine (canonical_of_eq e (canonical_translate h)))
      split
      · exact canonical_atomicOnLine hs2
      · exact canonical_paPut hs2
  next e1 => exact canonical_of_eq e1 (canonical_translate h)
theorem lm_lmMerge {c : Core} (hc : c.CanonicalLm) {a : Nat} {x mask : Byte} : (c.lmMerge a x mask).CanonicalLm := lm_lmStore hc
theorem canonical_copyRemote {s : State} (h : s.Canonical) {l : Option Nat} {dst a : Nat} {x mask : Byte} :
    (s.copyRemote l dst a x mask).1.Canonical := by
  unfold State.copyRemote
  split
  · exact canonical_updCore h fun _ hc => lm_lmMerge hc
  · exact canonical_updDie h
theorem canonical_copyWrite {core tn : Nat} {l : Option Nat} {fuel : Nat} {s : State} (h : s.Canonical) {os : List CopyOut} :
    (State.copyWrite core tn l fuel s os).1.Canonical := by
  induction fuel generalizing s os with
  | zero => exact h
  | succ fuel ih =>
    cases os with
    | nil => exact h
    | cons o rest =>
      unfold State.copyWrite
      extract_lets +onlyGivenNames d more
      have hmore : ∀ s k b, s.Canonical → (more s k b).1.Canonical := fun _ _ _ hs => ih hs
      split
      · exact hmore _ _ _ (canonical_updCore h (fun _ hc => lm_lmMerge hc))
      · split
        next e1 => exact hmore _ _ _ (canonical_of_eq e1 (canonical_copyRemote h))
        next e2 => exact canonical_of_eq e2 (canonical_copyRemote h)
      · split
        · exact h
        · split
          · extract_lets +onlyGivenNames r
            split
            next e3 => exact hmore _ _ _ (canonical_of_eq e3 (canonical_sliceWrite h))
            next e4 => exact canonical_of_eq e4 (canonical_sliceWrite h)
          · split
            next e3 => exact hmore _ _ _ (canonical_of_eq e3 (canonical_nibbleMerge h))
            next e4 => exact canonical_of_eq e4 (canonical_nibbleMerge h)
theorem canonical_copyFault {s : State} (h : s.Canonical) {core : Nat} {x : CopyCmd} {va kind level access : Nat} {pte : Word} :
    (s.copyFault core x va kind level access pte).Canonical := by
  unfold State.copyFault
  dsimp only
  split
  · exact h
  · exact canonical_mk h
theorem canonical_copyStop {s : State} (h : s.Canonical) {core : Nat} {x : CopyCmd} {e : CopyEnd} :
    (s.copyStop core x e).Canonical := by
  unfold State.copyStop
  extract_lets +onlyGivenNames ends
  split
  · exact canonical_setCopy h
  · exact canonical_setCopy (canonical_copyFault h)
  · exact canonical_setCopy h
theorem lm_putScales {c : Core} (hc : c.CanonicalLm) {l : List CopyOut} : (c.putScales l).CanonicalLm :=
  lm_testCounters (lm_foldl hc (fun _ _ hc1 => lm_lmStore hc1))
theorem canonical_testRemote {s : State} (h : s.Canonical) {l : List CopyOut} : (s.testRemote l).Canonical := by
  unfold State.testRemote
  refine canonical_mapCores h fun _ hc => ?_
  dsimp only
  exact lm_ite (lm_testCounters hc) hc
theorem keeps_execCopyStripe {core : Nat} {s : State} (h : s.Canonical) : Keeps (execCopyStripe core s) := by
  unfold execCopyStripe
  split
  · exact keeps_state h
  · extract_lets +onlyGivenNames waits
    split
    · exact keeps_state h
    · split
      · exact keeps_state (canonical_copyStop (canonical_updCore h (fun _ hc => lm_mk hc)))
      · split
        · split
          · exact keeps_state (canonical_copyStop h)
          · exact keeps_ite (keeps_state h) (keeps_ite (keeps_state h) (keeps_state (canonical_setCopy (canonical_plan h))))
          · exact keeps_ite (keeps_ite (keeps_state (canonical_setCopy h))
              (keeps_ite (keeps_state (canonical_setCopy h))
              (keeps_state (canonical_setCopy (canonical_mk (canonical_updCore h (fun _ hc => lm_putScales hc)))))))
              (keeps_ite (keeps_state h) (keeps_state (canonical_setCopy h)))
        · split
          · exact keeps_state h
          · extract_lets +onlyGivenNames chunk
            split
            · exact keeps_state (canonical_copyStop h)
            · extract_lets +onlyGivenNames tn r
              have hr : r.1.Canonical := canonical_copyWrite h
              extract_lets +onlyGivenNames written rest y inside y1 s'
              have hs' : s'.Canonical := canonical_testRemote (canonical_updCore hr (fun _ hc => lm_putScales hc))
              split
              · exact keeps_state (canonical_setCopy hs')
              · exact keeps_ite (keeps_state h) (keeps_state (canonical_copyStop hs'))
              · exact keeps_state (canonical_copyStop hs')
theorem keeps_execClaimEnd {core : Nat} {s : State} (h : s.Canonical) : Keeps (execClaimEnd core s) := by
  unfold execClaimEnd
  split
  · exact keeps_state h
  · split
    · exact keeps_state h
    · split
      · exact keeps_ite (keeps_state (canonical_retryHeld (canonical_updDie h))) (keeps_state h)
      · exact keeps_state (canonical_dropClaims h)
theorem canonical_sendCompletion {s : State} (h : s.Canonical) {core thread tag : Nat} {owner : Option (Nat × Nat)}
    {payload : Word} :
    (s.sendCompletion core thread tag owner payload).Canonical :=
  canonical_mk (canonical_updCore h (fun _ hc => lm_mk hc))
theorem canonical_finishCopy {s : State} (h : s.Canonical) {core : Nat} {x : CopyCmd} {st detail : Nat} {short : Bool} :
    (s.finishCopy core x st detail short).Canonical :=
  canonical_dropClaims (canonical_updCore (canonical_sendCompletion h) (fun _ hc => lm_wakeEngines (lm_mk hc)))
theorem canonical_releaseRange {s : State} (h : s.Canonical) {core : Nat} {x : CopyCmd} :
    AllCanonical (s.releaseRange core x) := by
  unfold State.releaseRange
  split
  · exact canonical_opt_ite (canonical_some h) (canonical_opt_ite canonical_none
      (canonical_some (canonical_foldl h (fun _ _ hs => canonical_cleanLine hs))))
  · exact canonical_some h
theorem keeps_execCopyCompletion {core : Nat} {s : State} (h : s.Canonical) : Keeps (execCopyCompletion core s) := by
  unfold execCopyCompletion
  split
  · exact keeps_state h
  · split
    · split
      · exact keeps_state h
      · split
        · exact keeps_state h
        next e3 => exact keeps_state (canonical_finishCopy (canonical_of_some e3 (canonical_releaseRange h)))
    · exact keeps_state h
    · exact keeps_state h
theorem canonical_putBytes {tn base : Nat} {l : PutBytes} {s : State} (h : s.Canonical) : (putBytes tn base l s).1.Canonical := by
  induction l generalizing s with
  | nil => exact h
  | cons e l ih =>
    unfold putBytes
    extract_lets +onlyGivenNames va q
    have hq : q.1.Canonical := canonical_atomic h
    extract_lets +onlyGivenNames r
    have hr : r.1.Canonical := by
      dsimp -zeta only [r]
      split
      · exact canonical_storeHome h
      · exact hq
    clear_value r
    split
    · exact ih hr
    · exact hr
theorem lm_countUp {c : Core} (hc : c.CanonicalLm) {a : Nat} : (c.countUp a).CanonicalLm := lm_lmWrite hc
theorem canonical_of_putHere {s t : State} (h : s.Canonical) {tn win : Nat} {l : PutBytes}
    (e : s.putHere tn win l = .accepted t) :
    t.Canonical := by
  unfold State.putHere at e
  dsimp only at e
  split at e
  · cases e
  · split at e
    next e1 =>
      cases e
      exact canonical_updCore (canonical_of_eq e1 (canonical_putBytes h)) (fun _ hc => lm_countUp hc)
    · cases e
    · cases e
theorem keeps_execPutArrival {tn win off : Nat} {bytes : PutBytes} {s : State} (h : s.Canonical) :
    Keeps (execPutArrival tn win off bytes s) := by
  unfold execPutArrival
  split
  · exact keeps_state h
  · split
    next e1 => exact keeps_state (canonical_of_putHere h e1)
    · exact keeps_state h
    · exact keeps_state (canonical_hubWait h)
theorem canonical_putAnswered {s : State} (h : s.Canonical) {core : Nat} {x : CopyCmd} {ok : Bool} :
    (s.putAnswered core x ok).Canonical :=
  canonical_ite (canonical_setCopy h) (canonical_ite (canonical_setCopy h)
    (canonical_setCopy (canonical_updCore h (fun _ hc => lm_countUp hc))))
theorem keeps_execPutAck {n : Nat} {ok : Bool} {s : State} (h : s.Canonical) : Keeps (execPutAck n ok s) := by
  unfold execPutAck
  split
  · exact keeps_state h
  · extract_lets +onlyGivenNames s'
    have hs' : s'.Canonical := canonical_mk h
    split
    · exact keeps_state hs'
    · split
      · exact keeps_state hs'
      · split
        · exact keeps_ite (keeps_state h) (keeps_state (canonical_putAnswered hs'))
        · split
          · exact keeps_state h
          · split
            next e5 => exact keeps_state (canonical_putAnswered (canonical_of_putHere hs' e5))
            · exact keeps_state (canonical_putAnswered hs')
            · exact keeps_state (canonical_setCopy h)
            · exact keeps_state h
theorem keeps_execXstat {a : Reg} {s : State} (h : s.Canonical) : Keeps (execXstat a s) :=
  keeps_onCopyThread h fun _ => keeps_ite (keeps_trap h) (keeps_next
    (canonical_wr (canonical_wr (canonical_wr (canonical_wr h)))))
theorem keeps_execXcan {a : Reg} {s : State} (h : s.Canonical) : Keeps (execXcan a s) :=
  keeps_onCopyThread h fun _ => keeps_guardTrap h (fun _ => keeps_next
    (canonical_foldl (canonical_updCur h (fun _ hc => lm_mk hc)) (fun _ _ hs => canonical_finishCopy hs)))
theorem canonical_restartCopy {s : State} (h : s.Canonical) {core : Nat} {program : List Byte} {by_ : Option Nat} :
    (s.restartCopy core program by_).Canonical :=
  canonical_updCore h fun _ hc => lm_refill (lm_setThr (lm_lmPut (lm_mk (lm_wakeEngines (lm_mk (lm_abandon hc))))))
theorem keeps_execCopyThreadRestart {core : Nat} {s : State} (h : s.Canonical) : Keeps (execCopyThreadRestart core s) := by
  unfold execCopyThreadRestart
  extract_lets +onlyGivenNames c
  have hc : c.CanonicalLm := lm_coreAt h
  extract_lets +onlyGivenNames t
  split
  · exact keeps_state h
  · extract_lets +onlyGivenNames s1
    have hs1 : s1.Canonical := canonical_updHub h
    extract_lets +onlyGivenNames s2
    have hs2 : s2.Canonical := by
      dsimp -zeta only [s2]
      split
      · exact hs1
      · exact canonical_abortLaunch (canonical_stopRecord hs1)
    exact keeps_state (canonical_restartCopy (canonical_foldl hs2 (fun _ _ hs => canonical_ite (canonical_sendCompletion hs) hs)))
theorem keeps_execCopyProgramReinstall {core : Nat} {s : State} (h : s.Canonical) : Keeps (execCopyProgramReinstall core s) := by
  unfold execCopyProgramReinstall
  split
  · exact keeps_state h
  · exact keeps_ite (keeps_state h) (keeps_state (canonical_restartCopy h))

/-! ### The THRD group -/

theorem keeps_execWake {a : Reg} {s : State} (h : s.Canonical) : Keeps (execWake a s) := by
  unfold execWake
  extract_lets +onlyGivenNames x c t
  refine keeps_guardTrap h fun _ => ?_
  split
  · split
    next e1 => exact keeps_next (canonical_of_eq e1 (canonical_wakeTarget h))
    next e1 => exact keeps_next (canonical_updThr (canonical_updDie (canonical_of_eq e1 (canonical_wakeTarget h))))
  · exact keeps_withCredit h fun _ hs => keeps_next (canonical_send hs)
theorem keeps_execDqpush {d a : Reg} {s : State} (h : s.Canonical) : Keeps (execDqpush d a s) := by
  unfold execDqpush
  extract_lets +onlyGivenNames x
  refine keeps_guardTrap h fun _ => ?_
  split
  · exact keeps_next (canonical_wr h)
  · exact keeps_ite (keeps_next (canonical_wr h)) (keeps_next
      (canonical_wr (canonical_addCount (canonical_updCur h (fun _ hc => lm_pushRec hc)))))
theorem keeps_execDqpop {d a : Reg} {s : State} (h : s.Canonical) : Keeps (execDqpop d a s) := by
  unfold execDqpop
  extract_lets +onlyGivenNames x
  refine keeps_guardTrap h fun _ => ?_
  split
  · exact keeps_next (canonical_wr h)
  · exact keeps_next (canonical_wr (canonical_addCount (canonical_updCur h (fun _ hc => lm_lmPut (lm_mk hc)))))
theorem keeps_execDqsplit {d : Reg} {s : State} (h : s.Canonical) : Keeps (execDqsplit d s) := by
  unfold execDqsplit
  refine keeps_guardTrap h fun _ => ?_
  split
  · exact keeps_next (canonical_wr h)
  · exact keeps_ite (keeps_next (canonical_wr (canonical_updCur h (fun _ hc => lm_mk hc)))) (keeps_next (canonical_wr h))
theorem keeps_execDqsteal {d a : Reg} {s : State} (h : s.Canonical) : Keeps (execDqsteal d a s) := by
  unfold execDqsteal
  extract_lets +onlyGivenNames t
  refine keeps_guardTrap h fun _ => keeps_asked h (fun _ hs => ?_)
  split
  · exact keeps_next (canonical_wr hs)
  · exact keeps_next (canonical_wr (canonical_steal hs))
theorem keeps_execTsend {a b : Reg} {s : State} (h : s.Canonical) : Keeps (execTsend a b s) := by
  unfold execTsend
  extract_lets +onlyGivenNames x t
  refine keeps_guardTrap h fun _ => keeps_withCredit h (fun _ hs => ?_)
  split
  · exact keeps_next hs
  · exact keeps_next (canonical_send (canonical_addCount hs))
theorem keeps_drainAll {s : State} (h : s.Canonical) {k : State → Res} (hk : ∀ s, s.Canonical → Keeps (k s)) :
    Keeps (drainAll s k) :=
  keeps_afterReds h fun _ hs => keeps_ite (keeps_park hs) (hk _ hs)
theorem canonical_retireTask {s : State} (h : s.Canonical) {k : Task} : (s.retireTask k).Canonical :=
  canonical_updLaunch (canonical_addCount (canonical_redirectQueued (canonical_updThr h)))
theorem keeps_execTret {s : State} (h : s.Canonical) : Keeps (execTret s) := by
  unfold execTret
  extract_lets +onlyGivenNames s1
  have hs1 : s1.Canonical := canonical_updCtl h
  refine keeps_drainAll hs1 fun _ hs => keeps_afterPushes hs (fun _ hs2 => ?_)
  split
  · exact keeps_next hs2
  · extract_lets +onlyGivenNames s4
    have hs4 : s4.Canonical := canonical_retireTask hs2
    split
    · exact keeps_state (canonical_place (canonical_complete hs4))
    · exact keeps_state (canonical_releaseHolders (canonical_unmark (canonical_updThr (canonical_complete hs4))))
theorem keeps_execDqnext {d : Reg} {s : State} (h : s.Canonical) : Keeps (execDqnext d s) := by
  unfold execDqnext
  refine keeps_drainAll h fun _ hs => ?_
  extract_lets +onlyGivenNames go
  have hgo : ∀ s k l i fmtp sclp todo, s.Canonical → Keeps (go s k l i fmtp sclp todo) := fun _ _ _ _ _ _ _ hs1 => keeps_next
    (canonical_wr (canonical_updThr (canonical_retireTask hs1)))
  split
  · exact keeps_next (canonical_wr hs)
  · split
    · exact keeps_next (canonical_wr hs)
    · split
      · split
        · exact keeps_next (canonical_wr hs)
        · exact hgo _ _ _ _ _ _ _ hs
      · split
        · exact keeps_next (canonical_wr hs)
        · exact hgo _ _ _ _ _ _ _ (canonical_updCur hs (fun _ hc => lm_takeTask hc))
theorem keeps_execLaunch {d a b : Reg} {s : State} (h : s.Canonical) : Keeps (execLaunch d a b s) := by
  unfold execLaunch
  extract_lets +onlyGivenNames x q
  refine keeps_guardTrap h fun _ => ?_
  split
  · exact keeps_park h
  next e =>
    refine keeps_asked (canonical_of_some e (canonical_opt_ite (canonical_release h) (canonical_some h))) fun _ hs => ?_
    extract_lets +onlyGivenNames p
    split
    · exact keeps_next (canonical_wr hs)
    · split
      next e2 => exact keeps_next (canonical_wr (canonical_of_eq e2 (canonical_submit hs)))
      next e2 => exact keeps_next (canonical_wr (canonical_of_eq e2 (canonical_submit hs)))

/-! ### Versioned memory and antler tensors -/

theorem canonical_updVRegion {s : State} (h : s.Canonical) {key : Nat × Nat} {f : VRegion → VRegion} :
    (s.updVRegion key f).Canonical :=
  canonical_updHub h
theorem canonical_wakeVersions {s : State} (h : s.Canonical) {key : Nat × Nat} : (s.wakeVersions key).Canonical :=
  canonical_wakeIf h
theorem canonical_newest {s : State} (h : s.Canonical) {r : VRegion} {s0 : Nat} : (s.newest r s0).1.Canonical := by
  unfold State.newest
  extract_lets +onlyGivenNames lo
  split
  · exact h
  · exact canonical_mk h
theorem canonical_vtranslate {s : State} (h : s.Canonical) {d tn va : Nat} {acc : Access} {k : Nat} :
    (s.vtranslate d tn va acc k).1.Canonical :=
  canonical_translate h
theorem canonical_vline {s : State} (h : s.Canonical) {d tn va : Nat} {secs : List Nat} {u : Nat} {r : VRegion} :
    (s.vline d tn va secs u r).1.Canonical := by
  unfold State.vline
  split
  next e =>
    extract_lets +onlyGivenNames a
    split
    · exact canonical_of_eq e (canonical_vtranslate h)
    · split
      · exact canonical_of_eq e (canonical_vtranslate h)
      · exact canonical_of_eq e (canonical_vtranslate h)
  next e1 => exact canonical_of_eq e1 (canonical_vtranslate h)
theorem canonical_copyForward {s : State} (h : s.Canonical) {key : Nat × Nat} {r : VRegion} {j pa kidx v : Nat} :
    (s.copyForward key r j pa kidx v).Canonical :=
  canonical_ite h (canonical_updVRegion (canonical_dramWrite (canonical_lineWrite h)))
theorem canonical_versionWrite {s : State} (h : s.Canonical) {d tn va n v : Nat} {acc : Access} {refuse : Word} {f : Nat → Nat} :
    (s.versionWrite d tn va n v acc refuse f).1.Canonical := by
  unfold State.versionWrite
  split
  · exact h
  · split
    · exact h
    · exact h
    · exact h
    · split
      · exact h
      · split
        next e3 =>
          extract_lets +onlyGivenNames j a
          split
          · exact canonical_of_eq e3 (canonical_vtranslate h)
          · split
            · exact canonical_of_eq e3 (canonical_vtranslate h)
            · exact canonical_lineWrite (canonical_copyForward (canonical_of_eq e3 (canonical_vtranslate h)))
        next e4 => exact canonical_of_eq e4 (canonical_vtranslate h)
theorem keeps_withVersion {va v : Nat} {s : State} (h : s.Canonical) {k : Nat × Nat → VRegion → State → Res}
    (hk : ∀ x x' s, s.Canonical → Keeps (k x x' s)) :
    Keeps (withVersion va v s k) := by
  unfold withVersion
  split
  · exact keeps_trap h
  · split
    · exact hk _ _ _ h
    · split
      · exact hk _ _ _ h
      · exact keeps_trap h
      · exact keeps_park h
theorem canonical_noteSealed {s : State} (h : s.Canonical) {v : Nat} : (s.noteSealed v).Canonical :=
  canonical_ite (canonical_updProgress h) h
theorem canonical_pickVersion {s : State} (h : s.Canonical) {key : Nat × Nat} {r : VRegion} {v : Nat} :
    (s.pickVersion key r v).1.Canonical := by
  unfold State.pickVersion
  split
  · exact canonical_newest h
  · exact h
theorem keeps_execLdvn {d a b : Reg} {s : State} (h : s.Canonical) : Keeps (execLdvn d a b s) := by
  unfold execLdvn
  extract_lets +onlyGivenNames va v
  refine keeps_guardTrap h fun _ => keeps_afterReds (canonical_noteSealed h)
    (fun _ hs => keeps_withVersion hs (fun _ _ _ hs1 => keeps_asked hs1 (fun _ hs2 => ?_)))
  extract_lets +onlyGivenNames read
  have hread : ∀ a a1, a.Canonical → (read a a1).1.Canonical := by
    refine fun _ _ hs3 => ?_
    dsimp -zeta only [read]
    extract_lets +onlyGivenNames p
    have hp : p.1.Canonical := canonical_pickVersion hs3
    split
    next e => exact canonical_of_eq e (canonical_vline hp)
    next e1 => exact canonical_of_eq e1 (canonical_vline hp)
  exact keeps_runElems hread hs2 fun _ hs3 => keeps_next (canonical_acquire (canonical_wr hs3))
theorem keeps_execStvn {r a b : Reg} {s : State} (h : s.Canonical) : Keeps (execStvn r a b s) := by
  unfold execStvn
  exact keeps_guardTrap h fun _ => keeps_afterReds h (fun _ hs => keeps_asked hs
    (fun _ hs1 => keeps_runElems (fun _ _ hs2 => canonical_versionWrite hs2) hs1 (fun _ hs2 => keeps_next hs2)))
theorem keeps_execRedvn {t : RedvnTy} {r a b : Reg} {s : State} (h : s.Canonical) : Keeps (execRedvn t r a b s) :=
  keeps_guardTrap h fun _ => keeps_post h
theorem canonical_redTurn {s : State} (h : s.Canonical) {n : Nat} {r : Red} : (s.redTurn n r).1.Canonical := by
  unfold State.redTurn
  extract_lets +onlyGivenNames line
  split
  · exact h
  · split
    · exact h
    · extract_lets +onlyGivenNames q sl there
      split
      · exact canonical_attach h
      · split
        · exact canonical_updDie h
        · exact h
theorem keeps_execAtomicExecute {work : AtomicWork} {s : State} (h : s.Canonical) : Keeps (execAtomicExecute work s) := by
  unfold execAtomicExecute
  split
  · exact keeps_state (canonical_atomicAtHome h)
  · split
    · exact keeps_state h
    · split
      · exact keeps_state h
      · extract_lets +onlyGivenNames size f d turn
        have hturn : turn.1.Canonical := canonical_redTurn h
        extract_lets +onlyGivenNames q
        have hq : q.1.Canonical := canonical_atomic hturn
        extract_lets +onlyGivenNames q1
        have hq1 : q1.1.Canonical := by
          dsimp -zeta only [q1]
          split
          · exact hq
          · exact canonical_versionWrite h
        split
        · exact keeps_state (canonical_mk hturn)
        · clear_value q1
          split
          · exact keeps_state (canonical_redDone (canonical_mk hq1))
          · exact keeps_ite (keeps_state (canonical_mk h)) (keeps_ite (keeps_state h) (keeps_state (canonical_mk h)))
          · exact keeps_state (canonical_noteRed hq1)
          · exact keeps_state (canonical_noteRed hq1)
theorem keeps_withRegion {va : Word} {s : State} (h : s.Canonical) {k : (Nat × Nat) → VRegion → Res}
    (hk : ∀ x x', Keeps (k x x')) :
    Keeps (withRegion va s k) := by
  unfold withRegion
  split
  · exact keeps_trap h
  · exact hk _ _
theorem keeps_execVnopen {a b : Reg} {s : State} (h : s.Canonical) : Keeps (execVnopen a b s) := by
  unfold execVnopen
  exact keeps_guardTrap h fun _ => keeps_afterReds h (fun _ hs => keeps_asked hs
    (fun _ hs1 => keeps_withRegion hs1 (fun _ _ => keeps_ite (keeps_trap hs1) (keeps_next (canonical_updVRegion hs1)))))
theorem keeps_sealAnswer {va w : Word} {s : State} (h : s.Canonical) : Keeps (sealAnswer va w s) := by
  unfold sealAnswer
  refine keeps_withRegion h fun _ _ => ?_
  split
  · exact keeps_next (canonical_ite (canonical_updVRegion h)
      (canonical_retryHeld (canonical_wakeVersions (canonical_updVRegion h))))
  · exact keeps_trap h
  · exact keeps_trap h
  · exact keeps_trap h
  · exact keeps_trap h
theorem keeps_execVnseal {a b : Reg} {s : State} (h : s.Canonical) : Keeps (execVnseal a b s) := by
  unfold execVnseal
  extract_lets +onlyGivenNames va w
  refine keeps_guardTrap h fun _ => ?_
  extract_lets +onlyGivenNames answer
  have hanswer : ∀ s, s.Canonical → Keeps (answer s) := fun _ hs => keeps_asked hs fun _ hs1 => keeps_sealAnswer hs1
  split
  · exact hanswer _ h
  · refine keeps_afterReds h fun _ hs => ?_
    split
    · exact keeps_park hs
    next e1 => exact keeps_afterPushes (canonical_of_some e1 (canonical_release hs)) hanswer
theorem canonical_reclaimPage {key : Nat × Nat} {v : Nat} {s : State} (h : s.Canonical) {e : Elem} :
    (reclaimPage key v s e).1.Canonical := by
  unfold reclaimPage
  split
  · exact h
  · split
    next e2 =>
      extract_lets +onlyGivenNames pa lines todo
      split
      · exact canonical_of_eq e2 (canonical_vtranslate h)
      · extract_lets +onlyGivenNames sound s2
        have hs2 : s2.Canonical := canonical_foldl (canonical_of_eq e2 (canonical_vtranslate h))
          fun _ _ hs => canonical_copyForward hs
        clear_value s2
        split
        · exact hs2
        · exact hs2
    next e2 => exact canonical_of_eq e2 (canonical_vtranslate h)
theorem canonical_closeRegion {s : State} (h : s.Canonical) {key : Nat × Nat} : (s.closeRegion key).Canonical :=
  canonical_wakeVersions (canonical_updVRegion h)
theorem keeps_execVnrecl {a b : Reg} {s : State} (h : s.Canonical) : Keeps (execVnrecl a b s) := by
  unfold execVnrecl
  extract_lets +onlyGivenNames va w v run
  have hrun : ∀ key r s, s.Canonical → Keeps (run key r s) := fun _ _ _ hs => keeps_runElemsOr
    (fun _ hs1 => canonical_closeRegion hs1) (fun _ _ hs1 => canonical_reclaimPage hs1) hs fun _ hs1 => keeps_next
    (canonical_retryHeld (canonical_updVRegion hs1))
  exact keeps_ite (keeps_withRegion h (fun _ _ => hrun _ _ _ h))
    (keeps_guardTrap h (fun _ => keeps_afterReds h (fun _ hs => keeps_asked hs
    (fun _ hs1 => keeps_withRegion hs1 (fun _ _ => keeps_ite (keeps_trap hs1)
    (hrun _ _ _ (canonical_capture (canonical_wakeVersions (canonical_updVRegion hs1)))))))))
theorem keeps_execVnstat {d a b : Reg} {s : State} (h : s.Canonical) : Keeps (execVnstat d a b s) := by
  unfold execVnstat
  exact keeps_guardTrap h fun _ => keeps_afterReds h (fun _ hs => keeps_asked hs
    (fun _ hs1 => keeps_withRegion hs1 (fun _ _ => keeps_next (canonical_wr hs1))))
theorem keeps_execVersionedAccess {tn va ver : Nat} {x : Option Word} {s : State} (h : s.Canonical) :
    Keeps (execVersionedAccess tn va ver x s) := by
  unfold execVersionedAccess
  split
  · exact keeps_state h
  · split
    · exact keeps_served h (canonical_vline h)
    · exact keeps_served h (canonical_versionWrite h)
theorem keeps_execRegionRecordLive {tn rec : Nat} {s : State} (h : s.Canonical) : Keeps (execRegionRecordLive tn rec s) := by
  unfold execRegionRecordLive
  split
  · exact keeps_state h
  · exact keeps_ite (keeps_state h) (keeps_state (canonical_updVRegion h))
theorem canonical_readHigh {d tn : Nat} {s : State} (h : s.Canonical) {e : Elem} : (readHigh d tn s e).1.Canonical := by
  unfold readHigh
  split
  · exact h
  · exact canonical_sliceRead h
theorem canonical_readAside {d tn : Nat} {s : State} (h : s.Canonical) {e : Elem} : (readAside d tn s e).1.Canonical := by
  unfold readAside
  split
  next e1 => exact canonical_updProgress (canonical_of_eq e1 (canonical_readHigh h))
  · exact canonical_readHigh h
theorem canonical_setHandle {s : State} (hs : s.Canonical) {h : BitVec 3} {x : Option Antler} {va : Word} :
    (s.setHandle h x va).Canonical :=
  canonical_updThr hs
theorem keeps_execAtbind {h : BitVec 3} {a : Reg} {s : State} (hs : s.Canonical) : Keeps (execAtbind h a s) := by
  unfold execAtbind
  extract_lets +onlyGivenNames va
  split
  · exact keeps_afterReds hs fun _ hs1 => keeps_next (canonical_setHandle hs1)
  · extract_lets +onlyGivenNames bound
    refine keeps_guardTrap hs fun _ => keeps_afterReds hs (fun _ hs1 => keeps_asked hs1
      (fun _ hs2 => keeps_runElems (fun _ _ hs3 => canonical_readHigh hs3) hs2 (fun _ hs3 => ?_)))
    extract_lets +onlyGivenNames hd d
    split
    · exact keeps_trap hs3
    · refine keeps_runElems (fun _ _ hs4 => canonical_readAside hs4) hs3 fun _ hs4 => ?_
      split
      · exact keeps_trap hs4
      · exact keeps_next (canonical_setHandle hs4)
theorem keeps_execAtdig {h : BitVec 3} {c : VCode} {a : Reg} {s : State} (hs : s.Canonical) : Keeps (execAtdig h c a s) :=
  keeps_withWindows hs fun _ hs1 => keeps_next (canonical_vwrite hs1)
theorem canonical_combineLanes {s : State} (h : s.Canonical) {e : Elem} : (s.combineLanes e).Canonical :=
  canonical_ite h (canonical_updDie (canonical_mk h))
theorem canonical_combineOthers {s : State} (h : s.Canonical) {v : Nat} {e : Elem} : (s.combineOthers v e).Canonical :=
  canonical_foldl h fun _ _ hs => canonical_ite (canonical_mk (canonical_updDie (canonical_mk hs))) (canonical_mk hs)
theorem canonical_readLineInto {v : Nat} {s : State} (h : s.Canonical) {e : Elem} : (readLineInto v s e).1.Canonical := by
  unfold readLineInto
  split
  · exact h
  · split
    · exact h
    · extract_lets +onlyGivenNames p
      have hp : p.1.Canonical := canonical_pickVersion h
      split
      next e3 =>
        exact canonical_updProgress (canonical_combineOthers (canonical_combineLanes (canonical_of_eq e3 (canonical_vline hp))))
      next e4 => exact canonical_of_eq e4 (canonical_vline hp)
theorem keeps_readBlock {x : Antler} {i c v : Nat} {s : State} (h : s.Canonical) {k : ElemOf → State → Res}
    (hk : ∀ x s, s.Canonical → Keeps (k x s)) :
    Keeps (readBlock x i c v s k) :=
  keeps_ite (hk _ _ h) (keeps_ite (keeps_park h) (keeps_asked h
    (fun _ hs => keeps_runElems (fun _ _ hs1 => canonical_readLineInto hs1) hs (fun _ hs1 => hk _ _ hs1))))
theorem keeps_execAtld {h : BitVec 3} {c : VCode} {a b : Reg} {s : State} (hs : s.Canonical) : Keeps (execAtld h c a b s) := by
  unfold execAtld
  exact keeps_vectorAccessIf (canonical_noteSealed hs) fun _ hs1 => keeps_readBlock hs1
    (fun _ _ hs2 => keeps_next (canonical_acquire (canonical_vwrite hs2)))
theorem canonical_addGrad {v : Nat} {w : Word} {s : State} (h : s.Canonical) {e : Elem} : (addGrad v w s e).1.Canonical :=
  canonical_versionWrite h
theorem keeps_execAtsg {h : BitVec 3} {c : VCode} {a b : Reg} {s : State} (hs : s.Canonical) : Keeps (execAtsg h c a b s) := by
  unfold execAtsg
  exact keeps_vectorAccessIf hs fun _ hs1 => keeps_readBlock hs1
    (fun _ _ hs2 => keeps_runElems (fun _ _ hs3 => canonical_addGrad hs3) hs2 (fun _ hs3 => keeps_next (canonical_raise hs3)))
theorem keeps_execAtinfo {h : BitVec 3} {c : VCode} {s : State} (hs : s.Canonical) : Keeps (execAtinfo h c s) :=
  keeps_withWindows hs fun _ hs1 => keeps_next (canonical_vwrite hs1)

end Sys2Proof.Machine
end

section
/-! SUPPORT. Faults, the package and the control range keep the canonical form. -/

namespace Sys2Proof.Machine

/-! ### Wake commands, forced stops, context switch -/

theorem canonical_signal63 {s : State} (h : s.Canonical) : s.signal63.Canonical := canonical_updHub h
theorem keeps_execFaultRecordAppend {n : Nat} {s : State} (h : s.Canonical) : Keeps (execFaultRecordAppend n s) :=
  keeps_state (canonical_appendRecord h)
theorem canonical_wakeEffects {s : State} (h : s.Canonical) {core tid : Nat} {t : Thread} {fail : Bool} :
    (s.wakeEffects core tid t fail).Canonical := by
  unfold State.wakeEffects
  split
  · exact canonical_ite (canonical_dropRed h) (canonical_mk h)
  · split
    · split
      · exact canonical_closeRegion h
      · exact h
    · exact h
theorem canonical_wakeRunning {s : State} (h : s.Canonical) {x : WakeCmd} {fail : Bool} :
    AllCanonical (s.wakeRunning x fail) := by
  unfold State.wakeRunning
  extract_lets +onlyGivenNames t
  split
  · exact canonical_none
  · split
    · exact canonical_some (canonical_updThrAt (canonical_wakeEffects h))
    · split
      · split
        · exact canonical_opt_ite (canonical_some (canonical_ite (canonical_failMatrix h)
            (canonical_updCore h (fun _ hc => lm_setHead hc)))) canonical_none
        · exact canonical_none
        · exact canonical_none
      · exact canonical_none
theorem canonical_wakeSaved {s : State} (h : s.Canonical) {x : WakeCmd} {fail : Bool} : AllCanonical (s.wakeSaved x fail) :=
  canonical_opt_ite canonical_none (canonical_some (canonical_updPool
    (canonical_updCore (canonical_foldl h (fun _ _ hs => canonical_wakeEffects hs)) (fun _ hc => lm_mk hc))))
theorem canonical_wake {s : State} (h : s.Canonical) {x : WakeCmd} : (s.wake x).Canonical := by
  unfold State.wake
  extract_lets +onlyGivenNames stale
  have hstale : stale.Canonical := canonical_updHub h
  split
  · exact hstale
  · extract_lets +onlyGivenNames fail
    split
    next e1 =>
      exact canonical_getD (canonical_of_some e1 (canonical_wakeRunning h))
        (canonical_wakeSaved (canonical_of_some e1 (canonical_wakeRunning h)))
    · exact canonical_getD hstale (canonical_wakeSaved h)
theorem keeps_execWakeRetry {c0 c1 c2 _c3 : Word} {s : State} (h : s.Canonical) : Keeps (execWakeRetry c0 c1 c2 _c3 s) :=
  keeps_ite (keeps_state h) (keeps_state (canonical_wake h))
theorem keeps_execWakeFail {c0 c1 c2 _c3 : Word} {s : State} (h : s.Canonical) : Keeps (execWakeFail c0 c1 c2 _c3 s) :=
  keeps_ite (keeps_state (canonical_wake h)) (keeps_state h)
theorem lm_lendWindows {c : Core} (hc : c.CanonicalLm) {t ctx : Nat} : (c.lendWindows t ctx).CanonicalLm := lm_mk hc
theorem lm_returnWindows {c : Core} (hc : c.CanonicalLm) {t ctx : Nat} : (c.returnWindows t ctx).CanonicalLm := lm_mk hc
theorem lm_vacate {c : Core} (hc : c.CanonicalLm) {t : Nat} : (c.vacate t).CanonicalLm :=
  lm_updThr (lm_mk (lm_ite (lm_lendWindows hc) hc))
theorem lm_reread {c : Core} (hc : c.CanonicalLm) {t : Nat} : (c.reread t).CanonicalLm := by
  unfold Core.reread
  split
  · exact hc
  · exact lm_updThr (lm_popWord hc)
theorem lm_putBack {c : Core} (hc : c.CanonicalLm) {t : Nat} {y : Thread} {bad : List Nat} : (c.putBack t y bad).CanonicalLm :=
  lm_ite (lm_reread (lm_refill (lm_mk (lm_returnWindows (lm_setThr hc))))) (lm_refill (lm_mk (lm_returnWindows (lm_setThr hc))))
theorem lm_spill {c : Core} (hc : c.CanonicalLm) {t : Nat} : (c.spill t).CanonicalLm := lm_mk (lm_vacate hc)
theorem keeps_execContextSpill {core tid : Nat} {s : State} (h : s.Canonical) : Keeps (execContextSpill core tid s) :=
  keeps_ite (keeps_state (canonical_unmark (canonical_setCore h (lm_spill (lm_coreAt h))))) (keeps_state h)
theorem keeps_execContextRestore {core tid : Nat} {s : State} (h : s.Canonical) : Keeps (execContextRestore core tid s) := by
  unfold execContextRestore
  extract_lets +onlyGivenNames c
  have hc : c.CanonicalLm := lm_coreAt h
  split
  · exact keeps_state h
  · split
    · exact keeps_state (canonical_setCore h (lm_putBack (lm_mk hc)))
    · split
      · exact keeps_state h
      · exact keeps_state (canonical_updCore (canonical_updHub h) (fun _ hc => lm_putBack hc))
theorem lm_unclaim {c : Core} (hc : c.CanonicalLm) {t : Nat} : AllCanonicalLm (c.unclaim t) :=
  lm_bind fun _ => lm_bind (fun _ => lm_opt_ite (lm_some (lm_wakeIf (lm_mk hc))) lm_none)
theorem canonical_stopContext {s : State} (h : s.Canonical) {core t : Nat} : AllCanonicalFst (s.stopContext core t) := by
  unfold State.stopContext
  extract_lets +onlyGivenNames c
  have hc : c.CanonicalLm := lm_coreAt h
  extract_lets +onlyGivenNames x reissue
  have hreissue : ∀ s, s.Canonical → AllCanonicalFst (reissue s) := fun _ hs => canonical_some_fst
    (canonical_updCore hs (fun _ hc => lm_updThr (lm_abandon hc)))
  split
  · exact canonical_none_fst
  · split
    · exact canonical_none_fst
    · exact canonical_some_fst h
    · exact canonical_some_fst h
    · split
      · exact canonical_none_fst
      · exact canonical_none_fst
      · exact canonical_some_fst h
      · exact canonical_fst_ite (canonical_some_fst h) (hreissue _ h)
      · split
        · exact hreissue _ h
        · exact canonical_fst_ite canonical_none_fst (hreissue _
            (canonical_updThrAt (canonical_updCore h (fun _ hc => lm_wakeEngines (lm_mk hc)))))
      · split
        · exact hreissue _ h
        · split
          next e3 => exact hreissue _ (canonical_setCore h (lm_of_some e3 (lm_unclaim hc)))
          · exact canonical_some_fst h
      · exact hreissue _ h
      · exact hreissue _ h
      · exact hreissue _ h
      · exact hreissue _ h
      · exact hreissue _ h
      · exact hreissue _ h
      · exact hreissue _ h
theorem canonical_poolWrite {s : State} (h : s.Canonical) {core num : Nat} {x : Saved} : (s.poolWrite core num x).Canonical :=
  canonical_updHub (canonical_mk (canonical_dramPut h))
theorem canonical_swapOut {s : State} (h : s.Canonical) {core t : Nat} {out : Bool} : AllCanonicalFst (s.swapOut core t out) := by
  unfold State.swapOut
  split
  next e1 =>
    exact canonical_some_fst (canonical_unmark (canonical_updCore
      (canonical_poolWrite (canonical_of_some_mk e1 (canonical_stopContext h))) (fun _ hc => lm_vacate hc)))
  · exact canonical_none_fst
theorem canonical_markCore {s : State} (h : s.Canonical) {core : Nat} : (s.markCore core).Canonical :=
  canonical_updCore h fun _ hc => lm_mk hc
theorem canonical_poolDeque {s : State} (h : s.Canonical) {core l : Nat} : (s.poolDeque core l).Canonical :=
  canonical_updLaunch (canonical_updCore h (fun _ hc => lm_mk hc))
theorem canonical_foldl_bind {α : Type} {f : State → α → Option State} (hf : ∀ s x, s.Canonical → AllCanonical (f s x))
    {l : List α} {o : Option State} (ho : AllCanonical o) :
    AllCanonical (l.foldl (fun (o : Option State) x => o.bind (fun s => f s x)) o) := by
  induction l generalizing o with
  | nil => exact ho
  | cons x l ih => exact ih (canonical_bind ho (fun s hs => hf s x hs))
theorem canonical_poolSpills {s : State} (h : s.Canonical) {l : Nat} {cores : List Nat} {out : Bool} :
    AllCanonical (s.poolSpills l cores out) := by
  unfold State.poolSpills
  exact canonical_foldl_bind (fun _ _ hs => canonical_map (fun _ => canonical_poolWrite
    (canonical_updCore hs (fun _ hc => lm_mk hc))))
    (canonical_some h)
theorem keeps_execForcedPreemption {core lnum : Nat} {s : State} (h : s.Canonical) :
    Keeps (execForcedPreemption core lnum s) := by
  unfold execForcedPreemption
  extract_lets +onlyGivenNames c
  have hc : c.CanonicalLm := lm_coreAt h
  split
  · split
    · exact keeps_state h
    · split
      · exact keeps_state (canonical_getD h (canonical_poolSpills (canonical_poolDeque h)))
      · split
        next e4 => exact keeps_state (canonical_of_some_mk e4 (canonical_swapOut h))
        · exact keeps_state h
  · exact keeps_state h
theorem canonical_accept {s : State} (h : s.Canonical) {w : CmdWin} {c0 c1 c2 c3 : Word} : (s.accept w c0 c1 c2 c3).1.Canonical :=
  canonical_updHub h
theorem canonical_endCommand {s : State} (h : s.Canonical) {w : CmdWin} {num : Nat} {rejected : Bool} {done : Word} :
    (s.endCommand w num rejected done).Canonical :=
  canonical_paPut (canonical_updHub h)
theorem keeps_withCommand {w : CmdWin} {c0 c1 c2 c3 : Word} {s : State} (h : s.Canonical) {k : State → Nat → Res}
    (hk : ∀ s x, s.Canonical → Keeps (k s x)) :
    Keeps (withCommand w c0 c1 c2 c3 s k) := by
  unfold withCommand
  split
  · exact hk _ _ (canonical_accept h)
  · exact keeps_ite (hk _ _ h) (keeps_state (canonical_accept h))
theorem canonical_poolRecords {s : State} (h : s.Canonical) {l : Nat} {ds : List Nat} : (s.poolRecords l ds).Canonical :=
  canonical_foldl h fun _ _ hs => canonical_poolDeque hs
theorem canonical_stopThreads {s : State} (h : s.Canonical) {l : Nat} {ds : List Nat} : (s.stopThreads l ds).1.Canonical := by
  unfold State.stopThreads
  extract_lets +onlyGivenNames ts
  refine canonical_fst_foldl h fun _ _ hs => ?_
  split
  next e => exact canonical_of_some_mk e (canonical_swapOut hs)
  · exact hs
theorem canonical_switchOut {x : SwitchCmd} {l : Launch} {s : State} (h : s.Canonical) : (switchOut x l s).1.Canonical := by
  unfold switchOut
  extract_lets +onlyGivenNames ds s1
  have hs1 : s1.Canonical := canonical_updLaunch h
  extract_lets +onlyGivenNames s2
  have hs2 : s2.Canonical := canonical_poolRecords hs1
  split
  · exact hs2
  next e => exact canonical_stopThreads (canonical_of_some e (canonical_poolSpills hs2))
theorem canonical_switchResume {x : SwitchCmd} {l : Launch} {s : State} (h : s.Canonical) : (switchResume x l s).1.Canonical := by
  unfold switchResume
  dsimp only
  exact canonical_updPool (canonical_updLaunch (canonical_reseedOn h))
theorem canonical_resumeOne {x : SwitchCmd} {l : Launch} {s : State} (h : s.Canonical) : (resumeOne x l s).Canonical :=
  canonical_updPool h
theorem keeps_switchCommand {op : Nat} {c0 c1 c2 c3 : Word} {s : State} (h : s.Canonical) :
    Keeps (switchCommand op c0 c1 c2 c3 s) := by
  unfold switchCommand
  extract_lets +onlyGivenNames x
  split
  · exact keeps_state h
  · refine keeps_withCommand h fun _ _ hs => ?_
    extract_lets +onlyGivenNames reject
    have hreject : Keeps reject := keeps_state (canonical_endCommand hs)
    extract_lets +onlyGivenNames done
    have hdone : ∀ s, s.Canonical → (done s).Canonical := fun _ hs1 => canonical_endCommand hs1
    split
    · exact hreject
    · exact hreject
    · split
      · exact hreject
      · split
        · exact keeps_state (canonical_ite (hdone _ (canonical_switchOut hs)) (canonical_switchOut hs))
        · exact keeps_state (canonical_ite (hdone _ (canonical_switchResume hs)) (canonical_switchResume hs))
        · exact keeps_state (hdone _ (canonical_abortLaunch hs))
        · split
          · exact hreject
          · split
            next e5 => exact keeps_state (canonical_paPut (hdone _ (canonical_of_some_mk e5 (canonical_swapOut hs))))
            · exact keeps_state hs
        · exact keeps_ite hreject (keeps_state (hdone _ (canonical_resumeOne hs)))
theorem keeps_execSwitchOut {c0 c1 c2 c3 : Word} {s : State} (h : s.Canonical) : Keeps (execSwitchOut c0 c1 c2 c3 s) :=
  keeps_switchCommand h
theorem keeps_execSwitchResume {c0 c1 c2 c3 : Word} {s : State} (h : s.Canonical) : Keeps (execSwitchResume c0 c1 c2 c3 s) :=
  keeps_switchCommand h
theorem keeps_execHostAbort {c0 c1 c2 c3 : Word} {s : State} (h : s.Canonical) : Keeps (execHostAbort c0 c1 c2 c3 s) :=
  keeps_switchCommand h
theorem keeps_execStopOneThread {c0 c1 c2 c3 : Word} {s : State} (h : s.Canonical) : Keeps (execStopOneThread c0 c1 c2 c3 s) :=
  keeps_switchCommand h
theorem keeps_execResumeOneThread {c0 c1 c2 c3 : Word} {s : State} (h : s.Canonical) :
    Keeps (execResumeOneThread c0 c1 c2 c3 s) :=
  keeps_switchCommand h
theorem keeps_execSoftError {site : DamageSite} {s : State} (h : s.Canonical) : Keeps (execSoftError site s) := by
  unfold execSoftError
  split
  · exact keeps_state (canonical_updCore h (fun _ hc => lm_mk hc))
  · exact keeps_state (canonical_updCore h (fun _ hc => lm_mk hc))
  · exact keeps_state (canonical_updCore h (fun _ hc => lm_mk hc))
  · exact keeps_ite (keeps_state (canonical_updCore h (fun _ hc => lm_mk hc)))
      (keeps_state (canonical_updCore h (fun _ hc => lm_mk hc)))
  · exact keeps_ite (keeps_state (canonical_mk h)) (keeps_state h)
  · split
    · exact keeps_state (canonical_updDie h)
    · exact keeps_state h
  · exact keeps_state (canonical_updCore h (fun _ hc => lm_mk hc))
  · exact keeps_state (canonical_updCore h (fun _ hc => lm_mk hc))

/-! ### Shootdowns, readiness, security, power -/

theorem keeps_unlessHold {s : State} (h : s.Canonical) {k : Unit → Res} (hk : ∀ x, Keeps (k x)) : Keeps (unlessHold s k) :=
  keeps_ite (keeps_state h) (hk _)
theorem keeps_unlessSealed {s : State} (h : s.Canonical) {k : Unit → Res} (hk : ∀ x, Keeps (k x)) : Keeps (unlessSealed s k) :=
  keeps_ite (keeps_state h) (hk _)
theorem canonical_purgeDie {s : State} (h : s.Canonical) {tn lo hi d : Nat} : (s.purgeDie tn lo hi d).Canonical :=
  canonical_updDie (canonical_foldl (canonical_updCoresOn (canonical_foldl h
    (fun _ _ hs => canonical_evict hs (fun _ _ _ _ hs1 => canonical_llcStore hs1))) (fun _ hc => lm_mk hc))
    (fun _ _ hs => canonical_updDie hs))
theorem canonical_invalidate {s : State} (h : s.Canonical) {c0 c1 c2 : Word} : (s.invalidate c0 c1 c2).Canonical :=
  canonical_ite h (canonical_unlessJam h (canonical_updHub
    (canonical_foldl (canonical_foldl h (fun _ _ hs => canonical_purgeDie hs)) (fun _ _ hs => canonical_updDie hs))))
theorem canonical_releaseHeld {s : State} (h : s.Canonical) {tn lo hi : Nat} : (s.releaseHeld tn lo hi).Canonical := by
  unfold State.releaseHeld
  extract_lets +onlyGivenNames here thread mat copy saved src s1
  have hs1 : s1.Canonical := by
    refine canonical_mapCores h fun _ hc => ?_
    dsimp only
    exact lm_mk hc
  exact canonical_retryHeld (canonical_updPool hs1)
theorem keeps_shootCommand {op : Nat} {c0 c1 c2 c3 : Word} {s : State} (h : s.Canonical) {run : State → State × Bool}
    (hrun : ∀ s, s.Canonical → (run s).1.Canonical) :
    Keeps (shootCommand op c0 c1 c2 c3 s run) :=
  keeps_ite (keeps_state h) (keeps_withCommand h (fun _ _ hs => keeps_ite (keeps_state (canonical_endCommand hs))
    (keeps_ite (keeps_state hs) (keeps_state (canonical_ite (canonical_endCommand (hrun _ hs)) (hrun _ hs))))))
theorem keeps_execShootdownInvalidate {c0 c1 c2 c3 : Word} {s : State} (h : s.Canonical) :
    Keeps (execShootdownInvalidate c0 c1 c2 c3 s) :=
  keeps_unlessSealed h fun _ => keeps_shootCommand h (fun _ hs => canonical_invalidate hs)
theorem keeps_execShootdownRelease {c0 c1 c2 c3 : Word} {s : State} (h : s.Canonical) :
    Keeps (execShootdownRelease c0 c1 c2 c3 s) :=
  keeps_unlessSealed h fun _ => keeps_shootCommand h (fun _ hs => canonical_releaseHeld hs)
theorem keeps_execShootdownInvalidateRelease {c0 c1 c2 c3 : Word} {s : State} (h : s.Canonical) :
    Keeps (execShootdownInvalidateRelease c0 c1 c2 c3 s) :=
  keeps_unlessSealed h fun _ => keeps_shootCommand h (fun _ hs => canonical_invalidate hs)
theorem keeps_execShootdownComplete {s : State} (h : s.Canonical) : Keeps (execShootdownComplete s) := by
  unfold execShootdownComplete
  split
  · exact keeps_state (canonical_ite (canonical_releaseHeld (canonical_endCommand (canonical_updHub h)))
      (canonical_retryHeld (canonical_endCommand (canonical_updHub h))))
  · exact keeps_state (canonical_retryHeld (canonical_updHub h))
  · exact keeps_state h
theorem canonical_logAlarm {s : State} (h : s.Canonical) {c : AlarmCause} {source : Word} : (s.logAlarm c source).Canonical :=
  canonical_signal63 (canonical_updHub h)
theorem canonical_endLaunches {s : State} (h : s.Canonical) : s.endLaunches.Canonical :=
  canonical_updHub (canonical_foldl (canonical_foldl h (fun _ _ hs => canonical_abortLaunch hs))
    (fun _ _ hs => canonical_complete_ hs))
theorem canonical_resetPackage {s : State} (h : s.Canonical) : s.resetPackage.Canonical := ⟨rfl, h.2.1, List.forall_mem_nil _⟩
theorem lm_zeroed {c : Core} : c.zeroed.CanonicalLm := by
  unfold Core.zeroed
  exact lm_lmPut (lm_mk rfl)
theorem canonical_zeroAll {s : State} (h : s.Canonical) : s.zeroAll.Canonical := by
  unfold State.zeroAll
  refine canonical_mk ⟨h.1, h.2.1, fun e he => ?_⟩
  obtain ⟨c, -, rfl⟩ := List.mem_map.1 he
  exact lm_zeroed
theorem canonical_eraseAndHold {s : State} (h : s.Canonical) : s.eraseAndHold.Canonical :=
  canonical_updHub (canonical_zeroAll (canonical_endLaunches (canonical_updHub h)))
theorem keeps_execPackageReset {s : State} (h : s.Canonical) : Keeps (execPackageReset s) :=
  keeps_unlessHold h fun _ => keeps_ite (keeps_state (canonical_resetPackage h))
    (keeps_state (canonical_ite (canonical_eraseAndHold (canonical_logAlarm (canonical_resetPackage h)))
    (canonical_logAlarm (canonical_resetPackage h))))
theorem keeps_execSecurityAlarm {cause : AlarmCause} {source : Word} {s : State} (h : s.Canonical) :
    Keeps (execSecurityAlarm cause source s) := by
  unfold execSecurityAlarm
  extract_lets +onlyGivenNames s1
  have hs1 : s1.Canonical := canonical_logAlarm h
  split
  · exact keeps_state hs1
  · split
    · exact keeps_state hs1
    · exact keeps_execPackageReset (canonical_endLaunches hs1)
    · exact keeps_state (canonical_eraseAndHold hs1)
theorem keeps_execCopyProgramInstall {c0 c1 c2 c3 : Word} {s : State} (h : s.Canonical) :
    Keeps (execCopyProgramInstall c0 c1 c2 c3 s) := by
  unfold execCopyProgramInstall
  refine keeps_unlessSealed h fun _ => keeps_withCommand h (fun _ _ hs => ?_)
  extract_lets +onlyGivenNames core ok
  clear_value ok
  split
  · exact keeps_ite (keeps_state (canonical_endCommand (canonical_restartCopy hs))) (keeps_state (canonical_endCommand hs))
  · exact keeps_state (canonical_endCommand hs)
theorem canonical_dropDie {s : State} (h : s.Canonical) {d : Nat} : (s.dropDie d).Canonical :=
  ⟨h.1, h.2.1, fun e he => h.2.2 e (List.mem_filter.1 he).1⟩
theorem canonical_portChange {s : State} (h : s.Canonical) : s.portChange.Canonical := canonical_retryHeld (canonical_updHub h)
theorem keeps_execFunctionReady {bit : Nat} {s : State} (h : s.Canonical) : Keeps (execFunctionReady bit s) := by
  unfold execFunctionReady
  refine keeps_unlessHold h fun _ => ?_
  split
  · exact keeps_state h
  · extract_lets +onlyGivenNames s1
    have hs1 : s1.Canonical := by
      dsimp -zeta only [s1]
      split
      · exact canonical_dropDie h
      · exact h
    exact keeps_state (canonical_portChange (canonical_signal63 (canonical_updHub hs1)))
theorem keeps_execFunctionFail {bit : Nat} {s : State} (h : s.Canonical) : Keeps (execFunctionFail bit s) := by
  unfold execFunctionFail
  split
  · exact keeps_state h
  · extract_lets +onlyGivenNames s1
    have hs1 : s1.Canonical := canonical_portChange (canonical_signal63 (canonical_updHub h))
    split
    · exact keeps_state hs1
    · exact keeps_state (canonical_dropDie (canonical_foldl hs1 (fun _ _ hs => canonical_abortLaunch hs)))
theorem keeps_execPortDown {p : Nat} {s : State} (h : s.Canonical) : Keeps (execPortDown p s) :=
  keeps_ite (keeps_state h) (keeps_state (canonical_portChange (canonical_signal63 (canonical_updHub h))))
theorem canonical_dropGuestsOf {s : State} (h : s.Canonical) {d p : Nat} : (s.dropGuestsOf d p).Canonical := by
  unfold State.dropGuestsOf
  extract_lets +onlyGivenNames ls
  exact canonical_foldl h fun _ _ hs => canonical_ite (canonical_updDie (canonical_dropCopies (canonical_recallInto hs)))
    (canonical_updCoresOn (canonical_updDie (canonical_dropCopies (canonical_recallInto hs))) (fun _ hc => lm_mk hc))
theorem canonical_failPut {s : State} (h : s.Canonical) {core id : Nat} : (s.failPut core id).Canonical := by
  unfold State.failPut
  split
  · exact canonical_ite (canonical_setCopy h) h
  · exact h
theorem canonical_losePackage {s : State} (h : s.Canonical) {p : Nat} : (s.losePackage p).Canonical :=
  canonical_ite h (canonical_retryHeld (canonical_foldl (canonical_mk
    (canonical_foldl (canonical_mk (canonical_updHub h)) (fun _ _ hs => canonical_dropGuestsOf hs)))
    (fun _ _ hs => canonical_failPut hs)))
theorem canonical_cutOff {s : State} (h : s.Canonical) : s.cutOff.Canonical :=
  canonical_ite (canonical_foldl h (fun _ _ hs => canonical_losePackage hs)) h
theorem keeps_runCommand {c : Command} {s : State} (h : s.Canonical) : Keeps (runCommand c s) := by
  unfold runCommand
  split
  · exact keeps_execShootdownRelease h
  · exact keeps_execShootdownInvalidateRelease h
  · exact keeps_execShootdownInvalidate h
  · exact keeps_execSwitchResume h
  · exact keeps_execHostAbort h
  · exact keeps_execStopOneThread h
  · exact keeps_execResumeOneThread h
  · exact keeps_execSwitchOut h
  · exact keeps_execCopyProgramInstall h
  · exact keeps_execWakeRetry h
theorem canonical_updSec {s : State} (h : s.Canonical) {f : Security → Security} : (s.updSec f).Canonical := canonical_updHub h
theorem canonical_secStatus {s : State} (h : s.Canonical) {n : Nat} : (s.secStatus n).Canonical := canonical_updSec h
theorem keeps_secCommand {code : Nat} {s : State} (h : s.Canonical) {k : State → Res} (hk : ∀ s, s.Canonical → Keeps (k s)) :
    Keeps (secCommand code s k) := by
  unfold secCommand
  split
  · exact keeps_state h
  · split
    · exact keeps_ite (hk _ (canonical_updSec h)) (keeps_state (canonical_secStatus h))
    · exact hk _ h
theorem canonical_mailboxWrite {s : State} (h : s.Canonical) {writer off : Nat} {x : Word} :
    AllCanonical (s.mailboxWrite writer off x) := by
  unfold State.mailboxWrite
  split
  · exact canonical_none
  · exact canonical_opt_ite (canonical_opt_ite (canonical_some (canonical_secStatus h))
      (canonical_opt_ite (canonical_some h) (canonical_opt_ite (canonical_some (canonical_updSec h))
      (canonical_some (canonical_secStatus h))))) (canonical_opt_ite (canonical_some (canonical_updSec h)) canonical_none)
theorem keeps_execKeyLoad {slot : Nat} {replace : Bool} {wrapped : BitVec 576} {s : State} (h : s.Canonical) :
    Keeps (execKeyLoad slot replace wrapped s) := by
  unfold execKeyLoad
  refine keeps_unlessHold h fun _ => keeps_secCommand h (fun _ hs => ?_)
  split
  · exact keeps_state (canonical_secStatus hs)
  · split
    · exact keeps_state (canonical_secStatus hs)
    · exact keeps_state (canonical_secStatus (canonical_updSec hs))
theorem keeps_execKeyErase {slot : Nat} {s : State} (h : s.Canonical) : Keeps (execKeyErase slot s) :=
  keeps_unlessHold h fun _ => keeps_secCommand h (fun _ hs => keeps_ite (keeps_state (canonical_secStatus hs))
    (keeps_state (canonical_secStatus (canonical_updSec hs))))
theorem keeps_execAttest {nonce : BitVec 256} {s : State} (h : s.Canonical) : Keeps (execAttest nonce s) :=
  keeps_secCommand h fun _ hs => keeps_state (canonical_secStatus (canonical_updSec hs))
theorem keeps_execDebugChallenge {tn : Nat} {s : State} (h : s.Canonical) : Keeps (execDebugChallenge tn s) :=
  keeps_unlessHold h fun _ => keeps_secCommand h (fun _ hs => keeps_ite (keeps_state (canonical_secStatus hs))
    (keeps_state (canonical_secStatus (canonical_updSec (canonical_mk hs)))))
theorem keeps_execDebugUnlock {tn : Nat} {sig : List Byte} {s : State} (h : s.Canonical) : Keeps (execDebugUnlock tn sig s) := by
  unfold execDebugUnlock
  refine keeps_unlessHold h fun _ => ?_
  extract_lets +onlyGivenNames source
  refine keeps_secCommand h fun _ hs => ?_
  split
  · exact keeps_state (canonical_secStatus hs)
  · exact keeps_ite (keeps_state (canonical_secStatus hs))
      (keeps_ite (keeps_state (canonical_secStatus (canonical_updHub (canonical_updSec hs))))
      (keeps_execSecurityAlarm (canonical_secStatus (canonical_updSec hs))))
theorem keeps_execDebugLock {tn : Nat} {s : State} (h : s.Canonical) : Keeps (execDebugLock tn s) :=
  keeps_unlessHold h fun _ => keeps_secCommand h (fun _ hs => keeps_ite (keeps_state (canonical_secStatus hs))
    (keeps_state (canonical_secStatus (canonical_updHub (canonical_updPool
    (canonical_mapCores hs (fun _ hc => lm_foldl hc (fun _ _ hc1 => lm_ite hc1 (lm_refill (lm_updThr hc1))))))))))
theorem keeps_execFirmwareStage {pa len : Nat} {s : State} (h : s.Canonical) : Keeps (execFirmwareStage pa len s) :=
  keeps_unlessHold h fun _ => keeps_secCommand h (fun _ hs => keeps_ite (keeps_state (canonical_secStatus hs))
    (keeps_state (canonical_secStatus (canonical_updSec hs))))
theorem keeps_execPowerWindow {watts : Nat} {dieWatts draws : List Nat} {s : State} (h : s.Canonical) :
    Keeps (execPowerWindow watts dieWatts draws s) :=
  keeps_state (canonical_updHub h)

/-! ### The aperture and the control range -/

theorem canonical_discardAperture {s : State} (h : s.Canonical) : s.discardAperture.Canonical := canonical_updHub h
theorem keeps_execApertureWrite {off : Nat} {x : Word} {s : State} (h : s.Canonical) : Keeps (execApertureWrite off x s) := by
  unfold execApertureWrite
  refine keeps_unlessSealed h fun _ => ?_
  split
  · exact keeps_state (canonical_dramWrite h)
  · exact keeps_state (canonical_discardAperture h)
  · split
    · exact keeps_state (canonical_discardAperture h)
    · split
      · exact keeps_state (canonical_updCore h (fun _ hc => lm_lmWrite hc))
      · exact keeps_state (canonical_updCore h (fun _ hc => lm_lmWrite hc))
      · exact keeps_state (canonical_updDie h)
      · exact keeps_state (canonical_updDie h)
theorem keeps_execCaptureUnitControl {u : Nat} {x : Word} {s : State} (h : s.Canonical) : Keeps (execCaptureUnitControl u x s) :=
  keeps_unlessSealed h fun _ => keeps_ite (keeps_state h) (keeps_state (canonical_updHub h))
theorem canonical_sampleLevel {s : State} (h : s.Canonical) {u : Nat} : (s.sampleLevel u).Canonical := by
  unfold State.sampleLevel
  split
  · exact canonical_addSample h
  · exact h
theorem canonical_sampleLevels {s : State} (h : s.Canonical) : s.sampleLevels.Canonical :=
  canonical_foldl h fun _ _ hs => canonical_sampleLevel hs
theorem canonical_discardControl {s : State} (h : s.Canonical) : s.discardControl.Canonical := canonical_updHub h
theorem keeps_windowWrite {s : State} (h : s.Canonical) {writer : Nat} {w : CmdWin} {i : Nat} {x : Word} :
    Keeps (s.windowWrite writer w i x) := by
  unfold State.windowWrite
  split
  · exact keeps_state (canonical_updHub h)
  · extract_lets +onlyGivenNames c s1
    have hs1 : s1.Canonical := canonical_updHub h
    split
    · exact keeps_ite (keeps_execWakeFail hs1) (keeps_execWakeRetry hs1)
    · exact keeps_state (canonical_accept hs1)
    · exact keeps_state (canonical_accept hs1)
    · exact keeps_state (canonical_accept hs1)
theorem keeps_queueWrite {s : State} (h : s.Canonical) {q i : Nat} {x : Word} : AllKeep (s.queueWrite q i x) := by
  unfold State.queueWrite
  extract_lets +onlyGivenNames r
  split
  · exact keeps_opt_ite keeps_none (keeps_some (keeps_ite (keeps_state (canonical_updHub h))
      (keeps_ite (keeps_execQueueOpen (canonical_updHub h)) (keeps_execQueueClose (canonical_updHub h)))))
  · exact keeps_opt_ite (keeps_opt_ite (keeps_some (keeps_state (canonical_updHub h))) keeps_none)
      (keeps_opt_ite (keeps_opt_ite (keeps_some (keeps_state (canonical_updHub h))) keeps_none) keeps_none)
theorem canonical_winWrite {s : State} (h : s.Canonical) {n i : Nat} {x : Word} : AllCanonical (s.winWrite n i x) := by
  unfold State.winWrite
  extract_lets +onlyGivenNames w put
  have hput : ∀ w, AllCanonical (put w) := fun _ => canonical_some (canonical_updHub h)
  split
  · exact canonical_opt_ite canonical_none (hput _)
  · exact canonical_opt_ite canonical_none (hput _)
  · exact canonical_opt_ite canonical_none (hput _)
  · exact canonical_opt_ite canonical_none (hput _)
theorem keeps_vregionWrite {s : State} (h : s.Canonical) {key : Nat × Nat} {i : Nat} {x : Word} :
    AllKeep (s.vregionWrite key i x) := by
  unfold State.vregionWrite
  extract_lets +onlyGivenNames r put
  have hput : ∀ r, (put r).Canonical := fun _ => canonical_updHub h
  split
  · exact keeps_opt_ite keeps_none (keeps_some (keeps_state (hput _)))
  · exact keeps_opt_ite keeps_none (keeps_some (keeps_state (hput _)))
  · exact keeps_opt_ite (keeps_some (keeps_state (hput _))) keeps_none
  · exact keeps_opt_ite keeps_none (keeps_some (keeps_ite (keeps_state (canonical_wakeVersions (hput _)))
      (keeps_ite (keeps_state (hput _)) (keeps_execRegionRecordLive (hput _)))))
  · exact keeps_none
theorem canonical_groupWrite {s : State} (h : s.Canonical) {n i : Nat} {x : Word} : AllCanonical (s.groupWrite n i x) := by
  unfold State.groupWrite
  extract_lets +onlyGivenNames g put
  have hput : ∀ g, AllCanonical (put g) := fun _ => canonical_some (canonical_updHub h)
  split
  · exact canonical_opt_ite canonical_none (hput _)
  · exact canonical_opt_ite canonical_none (hput _)
  · exact canonical_opt_ite (canonical_some h) canonical_none
theorem canonical_routeWrite {s : State} (h : s.Canonical) {i : Nat} {x : Word} : AllCanonical (s.routeWrite i x) :=
  canonical_opt_ite canonical_none (canonical_some (canonical_updHub h))
theorem canonical_areaWrite {s : State} (h : s.Canonical) {tn i : Nat} {x : Word} : AllCanonical (s.areaWrite tn i x) :=
  canonical_opt_ite (canonical_opt_ite (canonical_some (canonical_updHub h)) canonical_none)
    (canonical_opt_ite (canonical_some (canonical_updHub h)) canonical_none)
theorem canonical_registerWrite {s : State} (h : s.Canonical) {off : Nat} {x : Word} : AllCanonical (s.registerWrite off x) := by
  unfold State.registerWrite
  extract_lets +onlyGivenNames n
  split
  · exact canonical_opt_ite (canonical_some (canonical_updHub h)) canonical_none
  · exact canonical_opt_ite (canonical_some (canonical_updHub h)) canonical_none
  · exact canonical_opt_ite (canonical_some (canonical_updHub h)) canonical_none
  · exact canonical_opt_ite (canonical_some (canonical_updHub h)) canonical_none
  · exact canonical_some (canonical_updHub h)
  · exact canonical_none
theorem keeps_controlWrite {s : State} (h : s.Canonical) {writer off : Nat} {x : Word} :
    AllKeep (s.controlWrite writer off x) := by
  unfold State.controlWrite
  extract_lets +onlyGivenNames at_
  split
  · exact keeps_none
  · split
    · exact keeps_map_next (canonical_registerWrite h)
    · split
      · exact keeps_some (keeps_windowWrite h)
      · exact keeps_map_next (canonical_routeWrite h)
      · exact keeps_map_next (canonical_areaWrite h)
      · exact keeps_queueWrite h
      · exact keeps_map_next (canonical_winWrite h)
      · exact keeps_vregionWrite h
      · exact keeps_map_next (canonical_groupWrite h)
      · exact keeps_opt_ite (keeps_some (keeps_state (canonical_updHub h))) keeps_none
      · exact keeps_opt_ite (keeps_some (keeps_execCaptureUnitControl h)) keeps_none
      · exact keeps_none
theorem keeps_execControlRangeWrite {writer off : Nat} {x : Word} {s : State} (h : s.Canonical) :
    Keeps (execControlRangeWrite writer off x s) :=
  keeps_ite (keeps_state (canonical_getD (canonical_discardControl h) (canonical_mailboxWrite h)))
    (keeps_ite (keeps_execSecurityAlarm (canonical_ite h (canonical_discardControl h)))
    (keeps_unlessSealed h (fun _ => keeps_getD (keeps_controlWrite h) (keeps_state (canonical_discardControl h)))))
theorem keeps_execApertureRead {what : HostRead} {s : State} (h : s.Canonical) : Keeps (execApertureRead what s) := by
  unfold execApertureRead
  extract_lets +onlyGivenNames give
  have hgive : ∀ s x, s.Canonical → (give s x).Canonical := fun _ _ hs => canonical_updHub hs
  split
  · exact keeps_unlessSealed h fun _ => keeps_state (hgive _ _ h)
  · split
    · exact keeps_execSecurityAlarm (canonical_ite h (hgive _ _ (canonical_discardControl h)))
    · split
      · exact keeps_state h
      · split
        · exact keeps_state (hgive _ _ h)
        · exact keeps_state (hgive _ _ (canonical_discardControl h))
  · exact keeps_unlessSealed h fun _ => keeps_state (hgive _ _ h)

/-! ### Scalar floating point -/

theorem keeps_fpWrite {d : Reg} {r : Fl} {interval : Nat} {s : State} (h : s.Canonical) : Keeps (fpWrite d r interval s) :=
  keeps_next (canonical_raise (canonical_wr h))
theorem keeps_fp2 {f : Fcw → Nat → Nat → Fl} {d a b : Reg} {interval : Nat} {s : State} (h : s.Canonical) :
    Keeps (fp2 f d a b interval s) :=
  keeps_fpWrite h
theorem keeps_execFcvt {t u : ElemTy} {d a : Reg} {s : State} (h : s.Canonical) : Keeps (execFcvt t u d a s) :=
  keeps_fpWrite (canonical_ite (canonical_updCtl h) h)

end Sys2Proof.Machine
end

section
/-! SUPPORT. Every arm, and what moves the machine, keep the canonical form. -/

namespace Sys2Proof.Machine

/-! ### Every arm -/

/-- Every instruction and every event keeps the canonical form. -/
theorem keeps_exec {i : Instr} {s : State} (h : s.Canonical) : Keeps (exec i s) := by
  cases i <;> dsimp only [exec]
  case add | sub | and | or | xor | andn | orn | shl | shr | sra | rol | slt | sltn | seq | min | max | minn | maxn | bext =>
    exact keeps_alu2 h
  case mul | mulh | mulhn | div | divn | rem | remn | mad | fshr | fshl | lih | binsi | fshli | fshri => exact keeps_writeReg h
  case clz | ctz | pop | bswap | sextB | sextH | sextW | zextB | zextH | zextW | addi | andi | ori | xori | slti | shli | shri |
      srai | roli | shlori | bexti | bextsi =>
    exact keeps_alu1 h
  case beq | bne | blt | bge | bltn | bgen => exact keeps_branchIf h
  case dbnz => exact keeps_execDbnz h
  case jal | jalr => exact keeps_jumpChecked h (canonical_wr h)
  case ld | ldx => exact keeps_globalLoad h
  case st | stx => exact keeps_globalStore h
  case ldl => exact keeps_execLdl h
  case stl => exact keeps_execStl h
  case pfg => exact keeps_execPfg h
  case cwb => exact keeps_rangeWriteBack (fun _ _ _ hs => canonical_cleanToDram hs) h
  case cinv => exact keeps_rangeWriteBack (fun _ _ _ hs => canonical_flushLine (canonical_cleanToDram hs)) h
  case cdisc => exact keeps_execCdisc h
  case amo => exact keeps_execAmo h
  case red => exact keeps_execRed h
  case fenceAcq => exact keeps_execFenceAcq h
  case fenceRel => exact keeps_execFenceRel h
  case fenceAr => exact keeps_execFenceAr h
  case bar => exact keeps_barrierOp h fun _ _ hs => hs
  case barmax | barsum | barmin => exact keeps_barrierOp h fun _ _ hs => canonical_wr hs
  case waitge => exact keeps_execWaitge h
  case putl => exact keeps_execPutl h
  case rput => exact keeps_execRput h
  case take => exact keeps_execTake h
  case peek => exact keeps_execPeek h
  case testl => exact keeps_execTestl h
  case clrl => exact keeps_execClrl h
  case rputm => exact keeps_execRputm h
  case rputmv => exact keeps_execRputmv h
  case msnd | msndn => exact keeps_sendMessage h
  case mrcv => exact keeps_ite (keeps_trap h) (keeps_receive h)
  case waitm => exact keeps_execWaitm h
  case mrcvn => exact keeps_guardTrap h fun _ => keeps_receive h
  case evon => exact keeps_ite (keeps_trap h) (keeps_next (canonical_updCtl h))
  case evoff => exact keeps_next (canonical_updCtl h)
  case evret => exact keeps_execEvret h
  case yield => exact keeps_next h
  case park => exact keeps_ite (keeps_next (canonical_updThr h)) (keeps_park h)
  case wake => exact keeps_execWake h
  case dqpush => exact keeps_execDqpush h
  case dqpop => exact keeps_execDqpop h
  case dqsplit => exact keeps_execDqsplit h
  case dqsteal => exact keeps_execDqsteal h
  case tsend => exact keeps_execTsend h
  case tret => exact keeps_execTret h
  case dqnext => exact keeps_execDqnext h
  case launch => exact keeps_execLaunch h
  case csrr | csrw | csrs | csrc => exact keeps_csrOp h
  case trap => exact keeps_trap h
  case brk => exact keeps_execBrk h
  case ifence => exact keeps_next (canonical_updThr h)
  case eret => exact keeps_ite (keeps_returnFromTrap h) (keeps_trap h)
  case halt => exact keeps_execHalt h
  case fadd | fsub | fmul | ffma | fmin | fmax | feq | flt | fle | fdiv => exact keeps_fp2 h
  case fabs | fneg | fsqrt | fclass => exact keeps_fpWrite h
  case fcvt => exact keeps_execFcvt h
  case vadd | vsub | vmul | vfma | vfms | vmin | vmax | vdot4 | vmulh | vand | vor | vxor | vshl | vshr | vsra =>
    exact keeps_vec3 h
  case vabs | vneg | vnot | vpopc | vexp2 | vlog2 | vrcp | vrsq | vtanh | vsigm | vsadd | vssub | vsmul | vsfma | vsmin | vsmax |
      vsshl | vmov =>
    exact keeps_vec2 h
  case vcmpeq | vcmpne | vcmplt | vcmple => exact keeps_vcmp h
  case vsel => exact keeps_execVsel h
  case kand | kor | kxor | knot | gtok => exact keeps_next (canonical_setMask h)
  case vcvt => exact keeps_execVcvt h
  case vdec => exact keeps_execVdec h
  case venc => exact keeps_execVenc h
  case vdtld => exact keeps_execVdtld h
  case vqnt => exact keeps_execVqnt h
  case vdqnt => exact keeps_execVdqnt h
  case vperm => exact keeps_execVperm h
  case vslide => exact keeps_execVslide h
  case vbcast => exact keeps_execVbcast h
  case vredsum => exact keeps_execVredsum h
  case vredmax | vredmin => exact keeps_vredm h
  case vscan => exact keeps_execVscan h
  case vamaxb => exact keeps_execVamaxb h
  case vldl => exact keeps_execVldl h
  case vstl => exact keeps_execVstl h
  case vld => exact keeps_execVld h
  case vst => exact keeps_execVst h
  case vlds => exact keeps_execVlds h
  case vsts => exact keeps_execVsts h
  case vgth => exact keeps_execVgth h
  case vsct => exact keeps_execVsct h
  case vgthl => exact keeps_execVgthl h
  case vsctl => exact keeps_execVsctl h
  case vsplat | viota => exact keeps_withWindows h fun _ hs => keeps_next (canonical_vwrite hs)
  case vins => exact keeps_execVins h
  case vext => exact keeps_execVext h
  case ktog | kpop => exact keeps_next (canonical_wr h)
  case mma | mmal | mmr => exact keeps_matrixIssue h
  case mwait => exact keeps_execMwait h
  case mstat => exact keeps_execMstat h
  case accz => exact keeps_next (canonical_updCur h (fun _ hc => lm_putBank hc))
  case accst => exact keeps_execAccst h
  case accld => exact keeps_execAccld h
  case accstg => exact keeps_execAccstg h
  case xld | xst | xput | xaxb | xfill | xlm => exact keeps_handOver h
  case xstat => exact keeps_execXstat h
  case xcan => exact keeps_execXcan h
  case atbind => exact keeps_execAtbind h
  case atdig => exact keeps_execAtdig h
  case atld => exact keeps_execAtld h
  case atsg => exact keeps_execAtsg h
  case atinfo => exact keeps_execAtinfo h
  case ldvn => exact keeps_execLdvn h
  case redvn => exact keeps_execRedvn h
  case stvn => exact keeps_execStvn h
  case vnopen => exact keeps_execVnopen h
  case vnseal => exact keeps_execVnseal h
  case vnrecl => exact keeps_execVnrecl h
  case vnstat => exact keeps_execVnstat h
  case rrbeg => exact keeps_execRrbeg h
  case rrend => exact keeps_execRrend h
  case rrec => exact keeps_execRrec h
  case rroff => exact keeps_execRroff h
  case rrstat => exact keeps_execRrstat h
  case illegalInstruction => exact keeps_execIllegalInstruction h
  case waitExpired => exact keeps_state (canonical_expire h)
  case eventEntry => exact keeps_execEventEntry h
  case taskDispatch => exact keeps_execTaskDispatch h
  case taskSteal => exact keeps_execTaskSteal h
  case contextSpill => exact keeps_execContextSpill h
  case contextRestore => exact keeps_execContextRestore h
  case globalReply => exact keeps_execGlobalReply h
  case sliceReadRequest => exact keeps_execSliceReadRequest h
  case sliceOwnershipRequest => exact keeps_served h (canonical_ownRequest h)
  case l1WriteBack => exact keeps_execL1WriteBack h
  case l1Invalidation => exact keeps_execL1Invalidation h
  case lineFill => exact keeps_served h (canonical_settled h (canonical_ensureLine h))
  case pageWalk => exact keeps_state (canonical_translate h)
  case faultRecordAppend => exact keeps_execFaultRecordAppend h
  case wordRequest => exact keeps_execWordRequest h
  case atomicExecute => exact keeps_execAtomicExecute h
  case guestWriteBack => exact keeps_execGuestWriteBack h
  case remoteWriteDelivery => exact keeps_execRemoteWriteDelivery h
  case remoteWriteAck => exact keeps_execRemoteWriteAck h
  case dropNotice => exact keeps_execDropNotice h
  case landingPortFill => exact keeps_state (canonical_fillPort h)
  case messageArrival => exact keeps_execMessageArrival h
  case messageDivert => exact keeps_execMessageDivert h
  case barrierRelease => exact keeps_execBarrierRelease h
  case matrixKblock => exact keeps_execMatrixKblock h
  case matrixComplete => exact keeps_execMatrixComplete h
  case matrixFaultStop => exact keeps_execMatrixFaultStop h
  case mmrBlockArrival => exact keeps_execMmrBlockArrival h
  case mmrAbortToken => exact keeps_execMmrAbortToken h
  case copyCommandRun => exact keeps_execCopyCommandRun h
  case copyStripe => exact keeps_execCopyStripe h
  case copyCompletion => exact keeps_execCopyCompletion h
  case claimEnd => exact keeps_execClaimEnd h
  case putArrival => exact keeps_execPutArrival h
  case putAck => exact keeps_execPutAck h
  case copyThreadRestart => exact keeps_execCopyThreadRestart h
  case copyProgramReinstall => exact keeps_execCopyProgramReinstall h
  case versionedAccess => exact keeps_execVersionedAccess h
  case replayPush => exact keeps_execReplayPush h
  case packetArrival => exact keeps_ite (keeps_state h) (keeps_state (canonical_submit h))
  case queueSlotMap => exact keeps_execQueueSlotMap h
  case queueSlotEvict => exact keeps_execQueueSlotEvict h
  case queueOpen => exact keeps_execQueueOpen h
  case queueClose => exact keeps_execQueueClose h
  case launchDispatch => exact keeps_execLaunchDispatch h
  case launchDistribute => exact keeps_execLaunchDistribute h
  case imageLoad => exact keeps_execImageLoad h
  case imageEvict => exact keeps_execImageEvict h
  case launchRetire => exact keeps_execLaunchRetire h
  case forcedPreemption => exact keeps_execForcedPreemption h
  case shootdownInvalidate => exact keeps_execShootdownInvalidate h
  case shootdownRelease => exact keeps_execShootdownRelease h
  case shootdownInvalidateRelease => exact keeps_execShootdownInvalidateRelease h
  case shootdownComplete => exact keeps_execShootdownComplete h
  case wakeRetry => exact keeps_execWakeRetry h
  case wakeFail => exact keeps_execWakeFail h
  case switchOut => exact keeps_execSwitchOut h
  case switchResume => exact keeps_execSwitchResume h
  case hostAbort => exact keeps_execHostAbort h
  case stopOneThread => exact keeps_execStopOneThread h
  case resumeOneThread => exact keeps_execResumeOneThread h
  case copyProgramInstall => exact keeps_execCopyProgramInstall h
  case controlRangeWrite => exact keeps_execControlRangeWrite h
  case regionRecordLive => exact keeps_execRegionRecordLive h
  case captureUnitControl => exact keeps_execCaptureUnitControl h
  case captureSample => exact keeps_state (canonical_sampleLevel h)
  case apertureRead => exact keeps_execApertureRead h
  case apertureWrite => exact keeps_execApertureWrite h
  case powerWindow => exact keeps_execPowerWindow h
  case functionReady => exact keeps_execFunctionReady h
  case functionFail => exact keeps_execFunctionFail h
  case portDown => exact keeps_execPortDown h
  case packageUnavailable => exact keeps_state (canonical_losePackage h)
  case packageAvailable => exact keeps_ite (keeps_state h) (keeps_state (canonical_updHub h))
  case packageReset => exact keeps_execPackageReset h
  case keyLoad => exact keeps_execKeyLoad h
  case keyErase => exact keeps_execKeyErase h
  case attest => exact keeps_execAttest h
  case debugChallenge => exact keeps_execDebugChallenge h
  case debugUnlock => exact keeps_execDebugUnlock h
  case debugLock => exact keeps_execDebugLock h
  case firmwareStage => exact keeps_execFirmwareStage h
  case securityAlarm => exact keeps_execSecurityAlarm h
  case softError => exact keeps_execSoftError h

/-! ### What moves the machine -/

theorem canonical_damageStop {s : State} (h : s.Canonical) : s.damageStop.Canonical :=
  canonical_ite (canonical_updThr (canonical_updCur (canonical_mk h) (fun _ hc => lm_mend (lm_abandon hc))))
    (canonical_hubStop (canonical_updThr (canonical_updCur (canonical_mk h) (fun _ hc => lm_mend (lm_abandon hc)))))
theorem keeps_after {r : Res} (hr : Keeps r) {f : State → State} (hf : ∀ s, s.Canonical → (f s).Canonical) :
    Keeps (r.after f) := by
  cases r with
  | next s => exact keeps_state (hf s (hr s rfl))
  | fault e => rintro t ⟨⟩
  | refused e => rintro t ⟨⟩
theorem canonical_mendAfter {s : State} {i : Instr} {s' : State} (hs' : s'.Canonical) : (s.mendAfter i s').Canonical :=
  canonical_ite (canonical_updCore hs' (fun _ hc => lm_mend hc)) hs'
theorem keeps_runWord {s : State} (h : s.Canonical) : Keeps s.runWord := by
  unfold State.runWord
  split
  · exact keeps_ite (keeps_exec h) (keeps_ite (keeps_state (canonical_damageStop h))
      (keeps_after (keeps_exec h) (fun _ hs => canonical_mendAfter hs)))
  · exact keeps_execIllegalInstruction h
theorem canonical_soon {s : State} (h : s.Canonical) : s.soon.Canonical := canonical_updThr h
theorem canonical_sampleLoad {u s : State} (hu : u.Canonical) : (u.sampleLoad s).Canonical :=
  canonical_ite (canonical_sampleEvent hu) hu
theorem keeps_resumeThread {s : State} (h : s.Canonical) {core t : Nat} : Keeps (s.resumeThread core t) := by
  unfold State.resumeThread
  extract_lets +onlyGivenNames s1
  have hs1 : s1.Canonical := canonical_mk h
  extract_lets +onlyGivenNames r
  have hr : Keeps r := by
    dsimp -zeta only [r]
    split
    · exact keeps_finish hs1
    · exact keeps_trap hs1
    · exact keeps_runWord hs1
    · exact keeps_runWord hs1
  exact keeps_after hr fun _ hs => canonical_soon (canonical_sampleLoad hs)
theorem lm_openTables {c : Core} (hc : c.CanonicalLm) : c.openTables.CanonicalLm := lm_foldl (lm_mk hc) fun _ _ hc1 => lm_mk hc1
theorem lm_openWindows {c : Core} (hc : c.CanonicalLm) : c.openWindows.CanonicalLm := lm_ite (lm_wakeIf (lm_mk hc)) hc
theorem canonical_openSlot {s : State} (h : s.Canonical) {core : Nat} : (s.openSlot core).Canonical := by
  unfold State.openSlot
  extract_lets +onlyGivenNames s1
  have hs1 : s1.Canonical := canonical_expireSaved (canonical_foldl h (fun _ _ hs => canonical_expire hs))
  exact canonical_markCore (canonical_foldl (canonical_updCore hs1 (fun _ hc => lm_openWindows (lm_openTables hc)))
    (fun _ _ hs => canonical_fillPort hs))
theorem canonical_takeWord {s : State} (h : s.Canonical) {w : Fetched} : (s.takeWord w).Canonical :=
  canonical_updThr (canonical_updCur h (fun _ hc => lm_popWord hc))
theorem keeps_issueWord {s : State} (h : s.Canonical) : Keeps s.issueWord := by
  unfold State.issueWord
  extract_lets +onlyGivenNames s1
  have hs1 : s1.Canonical := canonical_ite (canonical_refill h) h
  split
  · exact keeps_state hs1
  · exact keeps_ite (keeps_trap (canonical_takeWord hs1)) (keeps_ite (keeps_trap (canonical_takeWord hs1))
      (keeps_runWord (canonical_takeWord hs1)))
theorem canonical_firstIssue {s : State} (h : s.Canonical) : s.firstIssue.Canonical := by
  unfold State.firstIssue
  split
  · exact canonical_ite h (canonical_updLaunch (canonical_sampleEvent h))
  · exact h
theorem keeps_issueThread {s : State} (h : s.Canonical) {core t : Nat} : Keeps (s.issueThread core t) := by
  unfold State.issueThread
  extract_lets +onlyGivenNames s1
  have hs1 : s1.Canonical := canonical_mk h
  extract_lets +onlyGivenNames s2
  have hs2 : s2.Canonical := canonical_updCur hs1 fun _ hc => lm_mk hc
  exact keeps_ite (keeps_state (canonical_trapAt hs2)) (keeps_ite (keeps_execEventEntry hs2)
    (keeps_issueWord (canonical_firstIssue hs2)))
theorem lm_readBuffers {c : Core} (hc : c.CanonicalLm) : c.readBuffers.CanonicalLm :=
  lm_foldl hc fun _ _ hc1 => lm_ite (lm_refill hc1) hc1
theorem canonical_tick {s : State} (h : s.Canonical) {core : Nat} : (s.tick core).Canonical :=
  canonical_updCore h fun _ hc => lm_mk (lm_readBuffers hc)
theorem canonical_turnWheel {s : State} (h : s.Canonical) {core : Nat} : (s.turnWheel core).Canonical :=
  canonical_ite (canonical_updDie h) h
theorem keeps_issueSlot {s : State} (h : s.Canonical) {core : Nat} {taken : State → State}
    (htaken : ∀ s, s.Canonical → (taken s).Canonical) :
    Keeps (s.issueSlot core taken) := by
  unfold State.issueSlot
  extract_lets +onlyGivenNames core1
  split
  · exact keeps_state (htaken _ h)
  · extract_lets +onlyGivenNames s1
    have hs1 : s1.Canonical := canonical_openSlot h
    split
    · exact keeps_state hs1
    · extract_lets +onlyGivenNames wheel s2
      have hs2 : s2.Canonical := canonical_turnWheel (htaken _ hs1)
      split
      · exact keeps_state (canonical_tick hs2)
      · exact keeps_after (keeps_issueThread hs2) fun _ hs => canonical_tick hs
theorem keeps_firstChange {s : State} {l : List (Unit → Res)} (hl : RowsKeep l) : AllKeep (firstChange s l) := by
  induction l with
  | nil => exact keeps_none
  | cons f l ih =>
    obtain ⟨hf, hl⟩ := List.forall_mem_cons.1 hl
    exact keeps_opt_ite (keeps_some hf) (ih hl)
theorem keeps_rowsFor {β : Type} {l : List β} {f : β → List (Unit → Res)} (hf : ∀ x, RowsKeep (f x)) :
    RowsKeep (rowsFor l f) := by
  intro k hk
  obtain ⟨m, hm, hk⟩ := List.mem_flatten.1 hk
  obtain ⟨x, -, rfl⟩ := List.mem_map.1 hm
  exact hf x k hk
theorem keeps_netRow {s : State} (h : s.Canonical) {n : Nat} : RowsKeep (netRow s n) := by
  unfold netRow
  split
  · exact keeps_rows_nil
  · split
    · exact keeps_rows_cons (keeps_execRemoteWriteAck h) keeps_rows_nil
    · exact keeps_rows_cons (keeps_execDropNotice h) keeps_rows_nil
    · exact keeps_rows_cons (keeps_execMessageArrival h) keeps_rows_nil
    · exact keeps_rows_cons (keeps_execMessageArrival h) keeps_rows_nil
    · exact keeps_rows_cons (keeps_execRemoteWriteDelivery h) keeps_rows_nil
    · exact keeps_rows_cons (keeps_execRemoteWriteDelivery h) keeps_rows_nil
theorem keeps_threadRows {s : State} (h : s.Canonical) {core t : Nat} : RowsKeep (threadRows s core t) := by
  unfold threadRows
  split
  · exact keeps_rows_ite (keeps_rows_cons (keeps_execContextRestore h) keeps_rows_nil) keeps_rows_nil
  · exact keeps_rows_append (keeps_rows_ite (keeps_rows_cons (keeps_execGlobalReply h) keeps_rows_nil) keeps_rows_nil)
      (keeps_rows_cons (keeps_execEventEntry h) (keeps_rows_cons (keeps_execContextSpill h) keeps_rows_nil))
theorem keeps_engineRows {s : State} (h : s.Canonical) {core : Nat} : RowsKeep (engineRows s core) := by
  unfold engineRows
  extract_lets +onlyGivenNames c
  have hc : c.CanonicalLm := lm_coreAt h
  exact keeps_rows_append (keeps_rows_append (keeps_rows_ite keeps_rows_nil
    (keeps_rows_cons (keeps_execMatrixComplete h) (keeps_rows_cons (keeps_execMmrAbortToken h)
    (keeps_rows_cons (keeps_execMatrixKblock h) (keeps_rows_cons (keeps_execMatrixFaultStop h) keeps_rows_nil)))))
    (keeps_rows_ite (keeps_rows_cons (keeps_execMmrBlockArrival h) keeps_rows_nil) keeps_rows_nil))
    (keeps_rows_ite keeps_rows_nil (keeps_rows_cons (keeps_execCopyCommandRun h)
    (keeps_rows_cons (keeps_execCopyStripe h) (keeps_rows_cons (keeps_execClaimEnd h)
    (keeps_rows_cons (keeps_execCopyCompletion h) keeps_rows_nil)))))
theorem keeps_dispatchRows {s : State} (h : s.Canonical) {core : Nat} : RowsKeep (dispatchRows s core) := by
  unfold dispatchRows
  extract_lets +onlyGivenNames c
  have hc : c.CanonicalLm := lm_coreAt h
  refine keeps_rows_append (keeps_rows_append (keeps_rows_ite keeps_rows_nil
    (keeps_rows_cons (keeps_execTaskDispatch h) keeps_rows_nil)) ?_) (keeps_rows_map (fun _ => keeps_execForcedPreemption h))
  split
  · exact keeps_rows_cons (keeps_execImageLoad h) (keeps_rows_map (fun _ => keeps_execImageEvict h))
  · exact keeps_rowsFor fun _ => keeps_rows_cons (keeps_execImageLoad h) keeps_rows_nil
theorem keeps_coreRows {s : State} (h : s.Canonical) {core : Nat} : RowsKeep (coreRows s core) := by
  unfold coreRows
  extract_lets +onlyGivenNames c
  have hc : c.CanonicalLm := lm_coreAt h
  exact keeps_rows_append (keeps_rows_append (keeps_rows_append
    (keeps_rows_append (keeps_rows_append (keeps_rows_append (keeps_rows_map (fun _ => keeps_execSliceReadRequest h))
    (keeps_rows_cons (keeps_execMessageDivert h) keeps_rows_nil))
    (keeps_rows_ite (keeps_rows_cons (keeps_execCopyThreadRestart h) keeps_rows_nil) keeps_rows_nil))
    (keeps_rows_ite (keeps_rows_cons (keeps_execCopyProgramReinstall h) keeps_rows_nil) keeps_rows_nil)) (keeps_engineRows h))
    (keeps_rowsFor (fun _ => keeps_threadRows h))) (keeps_dispatchRows h)
theorem keeps_launchRows {s : State} (h : s.Canonical) {l : Launch} : RowsKeep (launchRows s l) :=
  keeps_rows_append (keeps_rows_map (fun _ => keeps_execLaunchDistribute h))
    (keeps_rows_cons (keeps_execLaunchRetire h) keeps_rows_nil)
theorem keeps_queueRow {s : State} (h : s.Canonical) {q : Queue} : RowsKeep (queueRow s q) := by
  unfold queueRow
  split
  · exact keeps_rows_cons (keeps_execQueueSlotMap h) keeps_rows_nil
  · exact keeps_rows_cons (keeps_execQueueSlotEvict h) keeps_rows_nil
  · exact keeps_rows_nil
  · exact keeps_rows_nil
theorem keeps_hubRows {s : State} (h : s.Canonical) : RowsKeep (hubRows s) := by
  unfold hubRows
  refine keeps_rows_append (keeps_rows_append (keeps_rows_append
    (keeps_rows_append (keeps_rows_ite (keeps_rows_cons (keeps_execShootdownComplete h) keeps_rows_nil) keeps_rows_nil)
    (keeps_rowsFor (fun _ => ?_))) (keeps_rowsFor (fun _ => keeps_queueRow h)))
    (keeps_rows_ite keeps_rows_nil (keeps_rows_cons (keeps_execLaunchDispatch h) keeps_rows_nil)))
    (keeps_rowsFor (fun _ => keeps_launchRows h))
  split
  · exact keeps_rows_cons (keeps_runCommand h) keeps_rows_nil
  · exact keeps_rows_nil
theorem keeps_putRow {s : State} (h : s.Canonical) {n : Nat} : RowsKeep (putRow s n) := by
  unfold putRow
  split
  · exact keeps_rows_nil
  · split
    · exact keeps_rows_ite (keeps_rows_cons (keeps_execPutAck h) keeps_rows_nil) keeps_rows_nil
    · exact keeps_rows_nil
theorem keeps_autoRows {s : State} (h : s.Canonical) : RowsKeep (autoRows s) :=
  keeps_rows_append (keeps_rows_append (keeps_rows_append (keeps_rows_append
    (keeps_rows_append (keeps_rows_append (keeps_rows_append
    (keeps_rows_append (keeps_rowsFor (fun _ => keeps_netRow h)) (keeps_rows_map (fun _ => keeps_execAtomicExecute h)))
    (keeps_rows_map (fun _ => keeps_execReplayPush h))) (keeps_rows_map (fun _ => keeps_execBarrierRelease h)))
    (keeps_rows_map (fun _ => keeps_execFaultRecordAppend h))) (keeps_rowsFor (fun _ => keeps_putRow h)))
    (keeps_rowsFor (fun _ => keeps_coreRows h))) (keeps_hubRows h))
    (keeps_rowsFor (fun _ => keeps_rows_map (fun _ => keeps_execTaskSteal h)))
theorem canonical_later {s : State} (h : s.Canonical) : s.later.Canonical :=
  canonical_cutOff (canonical_ite (canonical_updHub h) (canonical_sampleLevels (canonical_updHub h)))
theorem keeps_holdStep {s : State} (h : s.Canonical) : Keeps s.holdStep := by
  unfold State.holdStep
  split
  · exact keeps_execAttest (canonical_mk h)
  · exact keeps_execApertureRead (canonical_mk h)
  · exact keeps_execControlRangeWrite (canonical_mk h)
  · exact keeps_execSecurityAlarm (canonical_mk h)
  · exact keeps_state (canonical_mk h)
  · exact keeps_state (canonical_later h)
theorem keeps_nextSlot {s : State} (h : s.Canonical) : Keeps s.nextSlot := by
  unfold State.nextSlot
  split
  · exact keeps_state (canonical_later h)
  · exact keeps_issueSlot h fun _ hs => canonical_mk (canonical_ite (canonical_later hs) hs)
theorem keeps_serveGranted {s : State} (h : s.Canonical) {g : Grant} : Keeps (s.serveGranted g) := by
  unfold State.serveGranted
  split
  · exact keeps_ite (keeps_ite (keeps_resumeThread (canonical_replyAt (canonical_updThrAt h)))
      (keeps_state (canonical_replyAt (canonical_updThrAt h)))) (keeps_state h)
  · split
    · exact keeps_execAtomicExecute h
    · exact keeps_state h
  · exact keeps_state (canonical_retryHeld h)
theorem keeps_agendaStep {s : State} (h : s.Canonical) {a : Act} {rest : List Act} : Keeps (s.agendaStep a rest) := by
  unfold State.agendaStep
  extract_lets +onlyGivenNames s'
  have hs' : s'.Canonical := canonical_mk h
  split
  · exact keeps_ite (keeps_state hs') (keeps_exec hs')
  · exact keeps_ite (keeps_state hs') (keeps_issueSlot h (fun _ hs => canonical_mk hs))
theorem keeps_stepMachine {s : State} (h : s.Canonical) : Keeps s.stepMachine := by
  unfold State.stepMachine
  split
  · exact keeps_holdStep h
  · split
    · exact keeps_serveGranted (canonical_mk h)
    · exact keeps_resumeThread h
    · exact keeps_agendaStep h
    · exact keeps_getD (keeps_firstChange (keeps_autoRows h)) (keeps_nextSlot h)

/-- Settles O57: a step is a row or a move of the machine, and each keeps the canonical form. -/
theorem stepKeepsCanonical : Obligations.StepKeepsCanonical := by
  unfold Obligations.StepKeepsCanonical
  intro s t h e
  exact keeps_stepMachine h t e

end Sys2Proof.Machine
end

section
/-! SUPPORT. The reset state, and the readiness of a core array. -/

namespace Sys2Proof.Machine

/-! ### The readiness map (R403) -/

theorem getLsbD_setBit (w : Word) {i : Nat} (h : i < 64) : (w ||| ((1 <<< i : Nat) : Word)).getLsbD i = true := by
  rw [BitVec.getLsbD_or, BitVec.natCast_eq_ofNat, BitVec.getLsbD_ofNat, Nat.one_shiftLeft, Nat.testBit_two_pow_self]
  simp [h]
theorem readyBit_setReady_self (h : Hub) {b : Nat} (hb : b < 128) : (h.setReady b true).readyBit b = true := by
  unfold Hub.readyBit Hub.setReady
  by_cases hw : b < 64
  · simp only [if_pos hw]
    exact getLsbD_setBit h.ready0 hw
  · simp only [if_neg hw]
    exact getLsbD_setBit h.ready1 (show b - 64 < 64 by omega)
theorem resetValues : Rules.ResetValues := by
  refine ⟨canonical_reset, fun b _ => ?_, rfl, rfl, rfl, fun _ => rfl, rfl, fun _ _ => rfl⟩
  unfold Hub.readyBit
  split
  · exact BitVec.getLsbD_zero
  · exact BitVec.getLsbD_zero

/-! ### A core array that becomes ready (R404) -/

/-- A core that no table lists is as its array leaves it when it becomes ready. -/
theorem coreAt_of_unlisted {s : State} {k : Nat} (h : ∀ e ∈ s.cores, e.1 ≠ k) : s.coreAt k = Core.fresh := by
  unfold State.coreAt
  cases hk : getKey s.cores k with
  | none => rfl
  | some c => exact absurd rfl (h _ (mem_of_getKey hk))
theorem unlisted_dropDie (s : State) (k : Nat) : ∀ e ∈ (s.dropDie (dieOf k)).cores, e.1 ≠ k := by
  intro e he hk
  have hd := (List.mem_filter.1 he).2
  simp [hk] at hd
/-- Waking reaches listed cores and the swapped contexts of the hub, and writes their records. -/
theorem wakeIf_memoryOnly (s : State) (p : Nat → Nat → Park → Bool) : ∃ (f : Nat → Core → Core) (pool : List (Nat × Saved)),
    ({ s with cores := s.cores.map (fun e => (e.1, f e.1 e.2)), hub := { s.hub with pool := pool } } : State).MemoryOnly (s.wakeIf p) :=
  ⟨fun k c => c.wakeBy fun t _ w => p k t w, _, updPool_memoryOnly _ _⟩
theorem retryHeld_memoryOnly (s : State) : ∃ (f : Nat → Core → Core) (pool : List (Nat × Saved)),
    ({ s with cores := s.cores.map (fun e => (e.1, f e.1 e.2)), hub := { s.hub with pool := pool } } : State).MemoryOnly s.retryHeld :=
  wakeIf_memoryOnly s _
theorem coreAt_retryHeld_of_unlisted {s : State} {k : Nat} (h : ∀ e ∈ s.cores, e.1 ≠ k) : s.retryHeld.coreAt k = Core.fresh := by
  obtain ⟨f, pool, hm⟩ := retryHeld_memoryOnly s
  refine coreAt_of_unlisted ?_
  rw [hm.cores_eq, List.forall_mem_map]
  exact h
theorem coreAt_portChange_of_unlisted {s : State} {k : Nat} (h : ∀ e ∈ s.cores, e.1 ≠ k) : s.portChange.coreAt k = Core.fresh :=
  coreAt_retryHeld_of_unlisted (s := s.updHub _) h
theorem readyBit_retryHeld (s : State) (b : Nat) : s.retryHeld.hub.readyBit b = s.hub.readyBit b := by
  obtain ⟨f, pool, hm⟩ := retryHeld_memoryOnly s
  rw [hm.hub_eq]
  rfl
/-- FUNCTION_READY for the core array of a die: the die starts afresh, its bit is set, vector 63 is sent. -/
theorem exec_functionReady_cores {s : State} {d : Nat} (hh : s.hub.sec.hold = false) (hd : d < 8) (hb : s.hub.readyBit (67 + d) = false) :
    exec (.functionReady (67 + d)) s = .next ((s.dropDie d).updHub (·.setReady (67 + d) true)).signal63.portChange := by
  have hc : coresBit (67 + d) = some d := by
    rw [coresBit, if_pos (by omega)]
    exact congrArg some (by omega)
  have hn : ¬ (102 ≤ 67 + d ∨ s.hub.readyBit (67 + d) = true ∨ 67 + d = 64 ∧ s.hub.sec.verified = false) := by
    rw [hb]; simp; omega
  show execFunctionReady (67 + d) s = _
  simp only [execFunctionReady, unlessHold, hh, Bool.false_eq_true, if_false, if_neg hn, hc]
theorem thr_fresh {j : Nat} (h : j < 15) : Core.fresh.thr j = Thread.free := by
  simp [Core.thr, Core.fresh, show j < 16 by omega, show ¬ 15 = j by omega]
theorem rd_copy (r : Reg) : Thread.copy.rd r = 0 := by
  have hg : Thread.copy.g.get r.toFin = 0 := by
    rw [vget_eq]; exact Vector.getElem_replicate ..
  simp only [Thread.rd, show Thread.copy.inEvent = false from rfl, Bool.false_and, Bool.false_eq_true, if_false, hg, ite_self]
theorem coreStart : Rules.CoreStart := by
  intro s k hh hd hb
  refine ⟨_, exec_functionReady_cores hh hd hb, ?_, ?_⟩
  · rw [State.portChange, readyBit_retryHeld]
    exact readyBit_setReady_self _ (show 67 + dieOf k < 128 by omega)
  · rw [coreAt_portChange_of_unlisted (s := ((s.dropDie (dieOf k)).updHub _).signal63) (unlisted_dropDie s k)]
    have h15 : Core.fresh.thr 15 = Thread.copy := rfl
    refine ⟨fun i hi => ⟨⟨0, false, [], 0⟩, ?_, rfl, rfl⟩, fun i hi => ⟨⟨0, .empty, 0⟩, ?_, rfl, rfl⟩, rfl, rfl, fun j hj => ?_, rfl, rfl, rfl,
      fun r => ?_, rfl, rfl, rfl⟩
    · exact Vector.getElem?_replicate.trans (if_pos hi)
    · exact Vector.getElem?_replicate.trans (if_pos hi)
    · rw [thr_fresh hj]; rfl
    · rw [h15]; exact rd_copy r

/-- Settles O56: the reset values are read off; a core array that becomes ready leaves its cores unlisted, and an unlisted core is a fresh one. -/
theorem resetState : Obligations.ResetState := ⟨resetValues, coreStart⟩

end Sys2Proof.Machine
end

section
/-! SUPPORT. Waits that expire; YIELD, PARK and WAKE. -/

namespace Sys2Proof.Machine

/-! ### The wait limit (R51, R250) -/

/-- The expiry of a wait that a limit may govern. -/
theorem expiry_of_parked {t : Thread} {w : Park} {since o : Nat} (hs : t.status = .parked w since o) (hl : t.ctl.waitlim ≠ 0) :
    t.expiry = if w.limited then some (since + t.ctl.waitlim.toNat, w) else none := by
  have hb : (t.ctl.waitlim != 0) = true := bne_iff_ne.2 hl
  simp only [Thread.expiry, hs, hb, Bool.and_true]
theorem expire_of_none {s : State} {core tid : Nat} (h : ((s.coreAt core).thr tid).expiry = none) : s.expire core tid = s := by
  simp only [State.expire, h]
theorem expire_of_early {s : State} {core tid e : Nat} {w : Park} (h : ((s.coreAt core).thr tid).expiry = some (e, w))
    (he : (s.coreAt core).cyc.toNat ≤ e) : s.expire core tid = s := by
  simp only [State.expire, h, decide_eq_false (Nat.not_lt.2 he), Bool.and_false, Bool.false_eq_true, if_false]
theorem expire_of_late {s : State} {core tid e : Nat} {w : Park} (h : ((s.coreAt core).thr tid).expiry = some (e, w))
    (hr : ((s.coreAt core).thr tid).resume = false) (he : e < (s.coreAt core).cyc.toNat) :
    s.expire core tid = (({ s with core := core, tid := tid } : State).trapSt waitExpired (expiredVal w)).updThrAt core tid
      fun t => { t with readyAt := e + 4 } := by
  simp only [State.expire, h, hr, decide_eq_true he, Bool.not_false, Bool.and_true, if_true]
theorem waitExpires : Rules.WaitExpires := by
  intro s core tid w since o htid t at_ ends hs hr hl
  have he := expiry_of_parked hs hl
  refine ⟨fun hw hlt => ?_, fun hle => ?_⟩
  · rw [if_pos hw] at he
    refine congrArg Host.Outcome.next ((expire_of_late he hr hlt).trans ?_)
    cases w <;> rfl
  · refine congrArg Host.Outcome.next ?_
    cases hw : w.limited with
    | false => exact expire_of_none (he.trans (if_neg (by simp [hw])))
    | true => exact expire_of_early (he.trans (if_pos hw)) hle

/-! ### YIELD, PARK, WAKE (R54, R55, R57) -/

/-- What a WAKE that reaches a thread does to it. -/
def Thread.takeWake (x : Thread) : Thread :=
  let y := ({ x with wake := true } : Thread)
  if y.parkOf = some .wake then y.wakeUp else y
theorem wake_takeWake (x : Thread) : x.takeWake.wake = true := by
  unfold Thread.takeWake Thread.wakeUp
  dsimp only
  split
  · split <;> rfl
  · rfl
theorem resume_takeWake {x : Thread} {p o : Nat} (h : x.status = .parked .wake p o) : x.takeWake.resume = true := by
  simp [Thread.takeWake, Thread.parkOf, Thread.wakeUp, h]
/-- A WAKE delivered to a thread of its launch, other than the copy thread. -/
theorem wakeTarget_of_task {s : State} {core t : Nat} {l : Option Nat} {q : Task} (h15 : t ≠ 15)
    (hq : ((s.coreAt core).thr t).task = some q) (hl : some q.lnum = l) :
    s.wakeTarget core t l = (s.updThrAt core t Thread.takeWake, none) := by
  have hany : (((s.coreAt core).thr t).task.any fun k => some k.lnum == l) = true := by simp [hq, hl]
  unfold State.wakeTarget
  simp only [if_neg h15, hany, if_true]
  rfl
theorem exec_wake_of_task {s : State} {a : Reg} {k : Nat} {q : Task} (h0 : bits (s.rd a) 63 18 = 0) (hc : bits (s.rd a) 17 4 = s.core)
    (hcore : s.core ≤ 9215) (h15 : bits (s.rd a) 3 0 ≠ 15) (hk : s.curLaunch = some k)
    (hq : (s.cur.thr (bits (s.rd a) 3 0)).task = some q) (hl : q.lnum = k) :
    exec (.wake a) s = (s.updThrAt s.core (bits (s.rd a) 3 0) Thread.takeWake).next 2 := by
  have ht : trapIf (bits (s.rd a) 63 18 ≠ 0 || 9215 < s.core) operandInvalid (s.rd a) = none := by
    simp [trapIf, h0, hcore]
  have hw := wakeTarget_of_task (l := s.curLaunch) h15 hq (by rw [hl, hk])
  show execWake a s = _
  simp only [execWake, hc, if_true, ht, guardTrap, hw]
theorem yieldParkWake : Rules.YieldParkWake := by
  intro s a k hs x t
  refine ⟨passes_next rfl hs, fun hw => ?_, fun hw => ?_, fun h0 hc hcore h15 htid hk ⟨q, hq, hl⟩ => ?_⟩
  · let u := s.updThr fun t => { t with wake := false }
    have he : exec .park s = u.next 2 := if_pos hw
    exact ⟨_, completes_of_next he, onlyThread_goOn u 2, done_goOn u 2 hs, by rw [goOn_thr u 2 hs]; rfl⟩
  · exact if_neg (by simp [hw])
  · let v := s.updThrAt s.core t Thread.takeWake
    have hcur : v.cur = s.cur.updThr t Thread.takeWake := coreAt_setCore_self ..
    have ht : t < 16 := Nat.mod_lt _ (by decide)
    have hself : v.thr = s.thr := by rw [State.thr, hcur]; exact thr_setThr_ne _ _ htid.symm
    have hother : (v.goOn 2).cur.thr t = (s.cur.thr t).takeWake := by
      rw [(onlyThread_goOn v 2).threads t htid, hcur, thr_updThr_core _ _ ht, if_pos rfl]
    refine ⟨_, completes_of_next (exec_wake_of_task h0 hc hcore h15 hk hq hl), ?_, ?_, ?_, ?_, rfl⟩
    · exact done_goOn_of_eq (v := v) 2 hs (by rw [hself]) (by rw [hcur]; rfl)
    · rw [goOn_thr v 2 hs, hself]; rfl
    · rw [hother]; exact wake_takeWake _
    · intro p o hp
      rw [hother]; exact resume_takeWake hp

/-- Settles O33: the limit of a wait as `expire` reads it, and the three instructions run to their end. -/
theorem waitsAndWakes : Obligations.WaitsAndWakes := ⟨waitExpires, yieldParkWake⟩

end Sys2Proof.Machine
end

section
/-! SUPPORT. Choosing the best of a list, and the operations with which a core places, steals and gives up tasks. -/

namespace Sys2Proof.Machine

/-! ### The best of a list -/

theorem argMin_mem {β : Type} {key : β → Nat} {l : List β} {x : β} (h : argMin key l = some x) : x ∈ l := by
  induction l generalizing x with
  | nil => cases h
  | cons y l ih =>
    unfold argMin at h
    split at h
    · cases h; exact List.mem_cons_self
    · split at h
      · cases h; exact List.mem_cons_of_mem _ (ih (by assumption))
      · cases h; exact List.mem_cons_self
theorem argMax_mem {β : Type} {key : β → Nat} {l : List β} {x : β} (h : argMax key l = some x) : x ∈ l := by
  induction l generalizing x with
  | nil => cases h
  | cons y l ih =>
    unfold argMax at h
    split at h
    · cases h; exact List.mem_cons_self
    · split at h
      · cases h; exact List.mem_cons_of_mem _ (ih (by assumption))
      · cases h; exact List.mem_cons_self
theorem exists_argMin {β : Type} {key : β → Nat} {l : List β} {y : β} (hy : y ∈ l) : ∃ x, argMin key l = some x ∧ key x ≤ key y := by
  induction l generalizing y with
  | nil => cases hy
  | cons z l ih =>
    unfold argMin
    rcases List.mem_cons.1 hy with rfl | hy
    · split
      · exact ⟨_, rfl, le_rfl⟩
      · split
        · exact ⟨_, rfl, by omega⟩
        · exact ⟨_, rfl, le_rfl⟩
    · obtain ⟨x, hx, hle⟩ := ih hy
      rw [hx]
      dsimp only
      split
      · exact ⟨_, rfl, hle⟩
      · exact ⟨_, rfl, by omega⟩
theorem exists_argMax {β : Type} {key : β → Nat} {l : List β} {y : β} (hy : y ∈ l) : ∃ x, argMax key l = some x ∧ key y ≤ key x := by
  induction l generalizing y with
  | nil => cases hy
  | cons z l ih =>
    unfold argMax
    rcases List.mem_cons.1 hy with rfl | hy
    · split
      · exact ⟨_, rfl, le_rfl⟩
      · split
        · exact ⟨_, rfl, by omega⟩
        · exact ⟨_, rfl, le_rfl⟩
    · obtain ⟨x, hx, hle⟩ := ih hy
      rw [hx]
      dsimp only
      split
      · exact ⟨_, rfl, hle⟩
      · exact ⟨_, rfl, by omega⟩
/-- Of a list that holds one element at most, the best is that one. -/
theorem argMin_of_forall_eq {β : Type} {key : β → Nat} {l : List β} {x : β} (hx : x ∈ l) (h : ∀ y ∈ l, y = x) : argMin key l = some x := by
  obtain ⟨y, hy, -⟩ := exists_argMin (key := key) hx
  rw [hy, h y (argMin_mem hy)]
theorem argMax_of_forall_eq {β : Type} {key : β → Nat} {l : List β} {x : β} (hx : x ∈ l) (h : ∀ y ∈ l, y = x) : argMax key l = some x := by
  obtain ⟨y, hy, -⟩ := exists_argMax (key := key) hx
  rw [hy, h y (argMax_mem hy)]
/-- The least of the greatest: an element that every other one is smaller than, or as great as and behind. -/
theorem argMin_argMax_of_best {size : Nat → Nat} {l : List Nat} {v : Nat} (hv : v ∈ l)
    (hbest : ∀ w ∈ l, w ≠ v → size w < size v ∨ size w = size v ∧ v < w) :
    ∃ b, argMax size l = some b ∧ argMin id (l.filter fun w => size w == size b) = some v := by
  obtain ⟨b, hb, hle⟩ := exists_argMax (key := size) hv
  have hsize : size b = size v := by
    by_cases e : b = v
    · rw [e]
    · rcases hbest b (argMax_mem hb) e with h | h <;> omega
  have hvf : v ∈ l.filter fun w => size w == size b := List.mem_filter.2 ⟨hv, by simp [hsize]⟩
  obtain ⟨x, hx, hxv⟩ := exists_argMin (key := id) hvf
  obtain ⟨hxl, hxs⟩ := List.mem_filter.1 (argMin_mem hx)
  refine ⟨b, hb, hx.trans (congrArg some ?_)⟩
  by_contra hne
  have hxs : size x = size b := by simpa using hxs
  have hxv : x ≤ v := hxv
  rcases hbest x hxl hne with h | h <;> omega
theorem foldl_max_le {l : List Nat} {a n : Nat} (h : ∀ x ∈ l, x ≤ n) (ha : a ≤ n) : l.foldl max a ≤ n := by
  induction l generalizing a with
  | nil => exact ha
  | cons x l ih =>
    obtain ⟨hx, hl⟩ := List.forall_mem_cons.1 h
    exact ih hl (max_le ha hx)

/-! ### Records of a deque -/

theorem replaceRec_append {l : Nat} {new pre post : List TaskRec} {r : TaskRec} (hr : r.lnum = l) (hpre : ∀ e ∈ pre, e.lnum ≠ l) :
    replaceRec l new (pre ++ r :: post) = pre ++ new ++ post := by
  induction pre with
  | nil => simp [replaceRec, hr]
  | cons e pre ih =>
    obtain ⟨he, hpre⟩ := List.forall_mem_cons.1 hpre
    simp [replaceRec, he, ih hpre]
theorem filter_lnum_append {l : Nat} {pre post : List TaskRec} {r : TaskRec} (hr : r.lnum = l) (h : ∀ e ∈ pre ++ post, e.lnum ≠ l) :
    (pre ++ r :: post).filter (fun e => e.lnum == l) = [r] := by
  have hnil : ∀ q : List TaskRec, (∀ e ∈ q, e.lnum ≠ l) → q.filter (fun e => e.lnum == l) = [] := fun q hq =>
    List.filter_eq_nil_iff.2 fun e he => by simpa using hq e he
  obtain ⟨hpre, hpost⟩ := List.forall_mem_append.1 h
  rw [List.filter_append, hnil pre hpre, List.filter_cons, if_pos (by simpa using hr), hnil post hpost]
  rfl
theorem lnum_of_ownRec {c : Core} {l : Nat} {r : TaskRec} (h : c.ownRec l = some r) : r.lnum = l := by
  simpa using List.find?_some h
theorem lnum_of_launchAt {s : State} {k : Nat} {l : Launch} (h : s.launchAt k = some l) : l.lnum = k := by
  simpa using List.find?_some h

/-! ### The prefetch buffer (R143) -/

theorem thr_refill (c : Core) {t : Nat} (h : t < 16) : ∃ buf, (c.refill t).thr t = { c.thr t with buf := buf } := by
  rw [Core.refill, thr_updThr_core _ _ h, if_pos rfl]
  exact ⟨_, rfl⟩
theorem thr_refill_ne (c : Core) {t j : Nat} (h : j ≠ t) : (c.refill t).thr j = c.thr j := thr_setThr_ne _ _ h

/-! ### Placing a task (R62, R345, R348) -/

/-- The thread on which a task of a launch begins. -/
def Launch.beginThread (l : Launch) (x : Slot) (slot i readyAt order : Nat) (fmtp sclp : Word) (todo : List Nat) : Thread :=
  { Thread.free with
    status := .ready, system := x.system, pc := word (x.base + x.entry), readyAt := readyAt,
    g := (Vector.replicate 32 (0 : Word)).setIfInBounds 3 (word l.pkt.args),
    ctl := ({ Ctl.zero with
      tenancy := word l.tn, trapvec := if x.trap = 0 then 0 else word (x.base + x.trap), rrthresh := 8,
      det := boolWord l.pkt.isDet, lend := boolWord (l.pkt.flags.testBit 1) } : Ctl).setTask l slot i fmtp sclp,
    task := some ⟨l.lnum, x.tag, todo⟩, placedAt := order }
/-- What placing a task does to a core before the thread's words are read: the thread begins, and the image has been used. -/
def Core.begin (c : Core) (t : Nat) (l : Launch) (slot i : Nat) (fmtp sclp : Word) (todo : List Nat) : Core :=
  { (c.setThr t (l.beginThread (c.slotAt slot) slot i (max (c.thr t).readyAt c.cyc.toNat) c.order fmtp sclp todo)).setSlot slot
      { c.slotAt slot with used := c.order } with
    order := c.order + 1, badThread := c.badThread.filter (fun e => e.1 ≠ t) }
theorem coreAt_place (s : State) (core t : Nat) (l : Launch) (slot i : Nat) (fmtp sclp : Word) (todo : List Nat) :
    (s.place core t l slot i fmtp sclp todo).coreAt core = ((s.coreAt core).begin t l slot i fmtp sclp todo).refill t :=
  coreAt_setCore_self ..
theorem thr_begin (c : Core) {t : Nat} (h : t < 16) (l : Launch) (slot i : Nat) (fmtp sclp : Word) (todo : List Nat) :
    (c.begin t l slot i fmtp sclp todo).thr t =
      l.beginThread (c.slotAt slot) slot i (max (c.thr t).readyAt c.cyc.toNat) c.order fmtp sclp todo :=
  thr_setThr_self c _ h
theorem thr_begin_ne (c : Core) {t j : Nat} (h : j ≠ t) (l : Launch) (slot i : Nat) (fmtp sclp : Word) (todo : List Nat) :
    (c.begin t l slot i fmtp sclp todo).thr j = c.thr j :=
  thr_setThr_ne c _ h

/-! ### TASK_DISPATCH (R348) -/

theorem mem_of_bestLaunch {l : List (Launch × Nat)} {e : Launch × Nat} (h : bestLaunch l = some e) : e ∈ l := by
  unfold bestLaunch at h
  split at h
  · cases h
  · exact (List.mem_filter.1 (argMin_mem h)).1
theorem exec_taskDispatch {s : State} {c t slot : Nat} {l : Launch} {r : TaskRec} (hbest : bestLaunch (s.placeable c) = some (l, slot))
    (hfree : (s.coreAt c).freeThread = some t) (hdet : l.pkt.isDet = false) (hrec : (s.coreAt c).ownRec l.lnum = some r) :
    exec (.taskDispatch c) s =
      .next ((s.setCore c ((s.coreAt c).takeTask r)).place c t l slot r.lo r.fmtp r.sclp []) := by
  show execTaskDispatch c s = _
  simp only [execTaskDispatch, hbest, hrec, hfree, hdet, Bool.false_eq_true, if_false]
theorem exec_taskDispatch_none {s : State} {c : Nat}
    (h : s.placeable c = [] ∨ (s.coreAt c).freeThread = none ∧ ∀ e ∈ s.placeable c, e.1.pkt.isDet = false) :
    exec (.taskDispatch c) s = .next s := by
  show execTaskDispatch c s = _
  unfold execTaskDispatch
  dsimp only
  split
  · rfl
  · next l slot hb =>
    have hm := mem_of_bestLaunch hb
    rcases h with h | ⟨hfree, hdet⟩
    · rw [h] at hm; cases hm
    · split
      · rfl
      · rw [hdet _ hm, hfree]; rfl

end Sys2Proof.Machine
end

section
/-! SUPPORT. The rows that place, steal, spill and restore tasks. -/

namespace Sys2Proof.Machine

/-- A task finds its arguments' VA in g3, and 0 in every other general register (R62). -/
theorem getElem?_argsRegs {args : Word} {i : Nat} (hi : i < 32) :
    ((Vector.replicate 32 (0 : Word)).setIfInBounds 3 args)[i]? = some (if i = 3 then args else 0) := by
  refine (Vector.getElem?_setIfInBounds ..).trans ?_
  by_cases h : 3 = i
  · rw [if_pos h, if_pos h.symm]; rfl
  · rw [if_neg h, if_neg (Ne.symm h)]
    exact Vector.getElem?_replicate.trans (if_pos hi)
theorem taskPlaced {s : State} {c t slot : Nat} {l : Launch} {r : TaskRec} (ht : t < 15) (hbest : bestLaunch (s.placeable c) = some (l, slot))
    (hfree : (s.coreAt c).freeThread = some t) (hdet : l.pkt.isDet = false) (hrec : (s.coreAt c).ownRec l.lnum = some r) :
    let core := s.coreAt c
    ∃ u, exec (.taskDispatch c) s = .next u ∧
      let y := (u.coreAt c).thr t
      y.status = .ready ∧ y.task = some ⟨l.lnum, (core.slotAt slot).tag, []⟩ ∧ y.system = (core.slotAt slot).system ∧
      y.pc = word ((core.slotAt slot).base + (core.slotAt slot).entry) ∧
      (∀ i : Nat, i < 32 → y.g[i]? = some (if i = 3 then word l.pkt.args else 0)) ∧
      y.ctl.taskid = word r.lo ∧ y.ctl.tenancy = word l.tn ∧ y.ctl.fmtp = r.fmtp ∧ y.ctl.sclp = r.sclp ∧ y.ctl.trapcause = 0 ∧
      (u.coreAt c).deque = replaceRec l.lnum (if r.lo + 1 < r.hi then [{ r with lo := r.lo + 1 }] else []) core.deque ∧
      (∀ j, j ≠ t → (u.coreAt c).thr j = core.thr j) ∧ (u.coreAt c).lm = core.lm ∧ u.dram = s.dram := by
  intro core
  have h16 : t < 16 := by omega
  refine ⟨_, exec_taskDispatch hbest hfree hdet hrec, ?_⟩
  rw [coreAt_place, coreAt_setCore_self]
  obtain ⟨buf, hb⟩ := thr_refill ((core.takeTask r).begin t l slot r.lo r.fmtp r.sclp []) h16
  rw [thr_begin _ h16] at hb
  rw [hb]
  refine ⟨rfl, rfl, rfl, rfl, fun i hi => ?_, rfl, rfl, rfl, rfl, rfl, ?_, fun j hj => ?_, rfl, rfl⟩
  · exact getElem?_argsRegs hi
  · exact congrArg (fun n => replaceRec n _ _) (lnum_of_ownRec hrec)
  · rw [thr_refill_ne _ hj, thr_begin_ne _ hj]; rfl

/-! ### TASK_STEAL (R349) -/

/-- The cores from which a core may steal for a launch, and the largest record of the launch on a core. -/
def State.victims (s : State) (core lnum : Nat) (l : Launch) : List Nat :=
  (s.cores.map (·.1)).filter (fun v => v != core && dieOf v == dieOf core &&
    (!l.pkt.flags.testBit 3 || inRect l.pkt.rect v) && ((s.coreAt v).farRec lnum).isSome)
def State.largest (s : State) (lnum v : Nat) : Nat :=
  (((s.coreAt v).deque.filter (fun r => r.lnum == lnum)).map (fun r => r.hi - r.lo)).foldl max 0
theorem exec_taskSteal {s : State} {c k b v : Nat} {l : Launch} (hl : s.launchAt k = some l) (hm : s.maySteal c l = true)
    (hb : argMax (s.largest k) (s.victims c k l) = some b)
    (hv : argMin id ((s.victims c k l).filter fun w => s.largest k w == s.largest k b) = some v) :
    exec (.taskSteal c k) s = .next (s.steal c v k).1 := by
  show execTaskSteal c k s = _
  unfold State.largest State.victims at *
  simp only [execTaskSteal, hl, hm, Bool.not_true, Bool.false_eq_true, if_false, hb, hv]
theorem mem_cores_of_deque {s : State} {v : Nat} (h : (s.coreAt v).deque ≠ []) : v ∈ s.cores.map (·.1) := by
  unfold State.coreAt at h
  cases hk : getKey s.cores v with
  | none => rw [hk] at h; exact absurd rfl h
  | some x => exact List.mem_map.2 ⟨_, mem_of_getKey hk, rfl⟩
theorem farRec_append {c : Core} {k : Nat} {pre post : List TaskRec} {r : TaskRec} (hd : c.deque = pre ++ r :: post) (hr : r.lnum = k)
    (h : ∀ e ∈ pre ++ post, e.lnum ≠ k) : c.farRec k = some r := by
  rw [Core.farRec, hd, filter_lnum_append hr h]; rfl
/-- What a steal does to the victim and to the thief. -/
theorem steal_eq {s : State} {c v k : Nat} {pre post : List TaskRec} {r : TaskRec} (hd : (s.coreAt v).deque = pre ++ r :: post) (hr : r.lnum = k)
    (h : ∀ e ∈ pre ++ post, e.lnum ≠ k) (hroom : (s.coreAt c).deque.length < 64) :
    let m := r.hi - r.lo
    (s.steal c v k).1 = (s.setCore v { s.coreAt v with
      deque := pre ++ (if m / 2 = 0 then [] else [{ r with hi := r.lo + m / 2 }]) ++ post }).updCore c (·.pushRec { r with lo := r.lo + m / 2 }) := by
  intro m
  obtain ⟨-, hpost⟩ := List.forall_mem_append.1 h
  have hk : ∀ q : List TaskRec, replaceRec k q.reverse (s.coreAt v).deque.reverse = post.reverse ++ q.reverse ++ pre.reverse := fun q => by
    rw [hd, List.reverse_append, List.reverse_cons, List.append_assoc]
    exact replaceRec_append hr fun e he => hpost e (List.mem_reverse.1 he)
  simp only [State.steal, farRec_append hd hr h, if_neg (Nat.not_le.2 hroom), State.updCore, hk, List.reverse_append, List.reverse_reverse,
    List.append_assoc]
  rfl
theorem taskStolen {s : State} {c k v : Nat} {l : Launch} {r : TaskRec} {pre post : List TaskRec} (hl : s.launchAt k = some l)
    (hm : s.maySteal c l = true) (hflag : l.pkt.flags.testBit 3 = false) (hvc : v ≠ c) (hdie : dieOf v = dieOf c)
    (hd : (s.coreAt v).deque = pre ++ r :: post) (hr : r.lnum = k) (honly : ∀ e ∈ pre ++ post, e.lnum ≠ k) (hne : r.lo < r.hi)
    (hbest : ∀ w, w ≠ c → w ≠ v → dieOf w = dieOf c → ∀ e ∈ (s.coreAt w).deque, e.lnum = k → e.hi - e.lo < r.hi - r.lo ∨
      (e.hi - e.lo = r.hi - r.lo ∧ v < w)) :
    exec (.taskSteal c k) s = .next (s.steal c v k).1 := by
  have hsize : s.largest k v = r.hi - r.lo := by
    rw [State.largest, hd, filter_lnum_append hr honly]
    exact Nat.zero_max _
  have hv : v ∈ s.victims c k l := by
    refine List.mem_filter.2 ⟨mem_cores_of_deque (by simp [hd]), ?_⟩
    simp [hvc, hdie, hflag, farRec_append hd hr honly]
  obtain ⟨b, hb, hx⟩ := argMin_argMax_of_best (size := s.largest k) hv fun w hw hwv => by
    have hw := (List.mem_filter.1 hw).2
    simp only [Bool.and_eq_true, bne_iff_ne, beq_iff_eq] at hw
    obtain ⟨⟨⟨hwc, hwd⟩, -⟩, -⟩ := hw
    have hall := hbest w hwc hwv hwd
    have hle : ∀ n, (∀ e ∈ (s.coreAt w).deque, e.lnum = k → e.hi - e.lo ≤ n) → s.largest k w ≤ n := fun n hn => by
      refine foldl_max_le ?_ n.zero_le
      intro x hx
      obtain ⟨e, he, rfl⟩ := List.mem_map.1 hx
      obtain ⟨he, hek⟩ := List.mem_filter.1 he
      exact hn e he (by simpa using hek)
    rw [hsize]
    by_cases hlt : v < w
    · have := hle (r.hi - r.lo) fun e he hk => by rcases hall e he hk with h | h <;> omega
      omega
    · have := hle (r.hi - r.lo - 1) fun e he hk => by rcases hall e he hk with h | h <;> omega
      omega
  exact exec_taskSteal hl hm hb hx

/-! ### Giving up a thread (R387) -/

theorem thr_vacate (c : Core) {t : Nat} (h : t < 16) : ((c.vacate t).thr t).status = .free ∧ ((c.vacate t).thr t).task = none := by
  unfold Core.vacate
  dsimp only
  rw [thr_updThr_core _ _ h, if_pos rfl]
  exact ⟨rfl, rfl⟩
theorem vacate_lm (c : Core) (t : Nat) : (c.vacate t).lm = c.lm := by
  unfold Core.vacate
  dsimp only [Core.updThr, Core.setThr]
  split
  · dsimp only [Core.lendWindows]
  · rfl
theorem unmark_eq (s : State) (c : Nat) (o : Option Nat) : ∃ m, (s.unmark c o).coreAt c = { s.coreAt c with marks := m } := by
  unfold State.unmark
  split
  · split
    · exact ⟨_, rfl⟩
    · exact ⟨_, coreAt_setCore_self ..⟩
  · exact ⟨_, rfl⟩
theorem getKey_filter_ne {β : Type} (l : List (Nat × β)) (k : Nat) : getKey (l.filter (·.1 ≠ k)) k = none := by
  cases h : getKey (l.filter (·.1 ≠ k)) k with
  | none => rfl
  | some x => 
    have hm := (List.mem_filter.1 (mem_of_getKey h)).2
    simp at hm
/-- A thread that a launch gives up ends the launch's mark on the core, where its die is not reserved (R350, R352). -/
theorem marks_unmark {s : State} {c k : Nat} {l : Launch} (hl : s.launchAt k = some l) (hr : s.reservedFrom (dieOf c) l = false) :
    getKey ((s.unmark c (some k)).coreAt c).marks k = none := by
  unfold State.unmark
  simp only [Option.bind_some, hl, hr, Bool.false_eq_true, if_false, lnum_of_launchAt hl]
  rw [State.updCore, coreAt_setCore_self]
  exact getKey_filter_ne _ _
theorem exec_contextSpill {s : State} {c t : Nat} (ht : t < 15) (hfull : ∀ j, j < 15 → ((s.coreAt c).thr j).status ≠ .free)
    (hcand : (s.coreAt c).spillCandidate t = true) (hhelp : (s.setCore c ((s.coreAt c).spill t)).placeable c ≠ [])
    (honly : ∀ j, j < 15 → j ≠ t → (s.coreAt c).spillCandidate j = false) :
    exec (.contextSpill c t) s =
      .next ((s.setCore c ((s.coreAt c).spill t)).unmark c (((s.coreAt c).thr t).task.map (·.lnum))) := by
  show execContextSpill c t s = _
  unfold execContextSpill
  dsimp only
  refine if_pos ?_
  rw [Bool.and_eq_true]
  refine ⟨by simpa using hfull, beq_iff_eq.2 (argMin_of_forall_eq (List.mem_filter.2 ⟨List.mem_range.2 ht, ?_⟩) fun j hj => ?_)⟩
  · simpa [hcand] using hhelp
  · obtain ⟨hj15, hj⟩ := List.mem_filter.1 hj
    by_contra hne
    rw [honly j (List.mem_range.1 hj15) hne] at hj
    cases hj
theorem contextSpilled {s : State} {c t : Nat} (ht : t < 15) (hfull : ∀ j, j < 15 → ((s.coreAt c).thr j).status ≠ .free)
    (hcand : (s.coreAt c).spillCandidate t = true) (hhelp : (s.setCore c ((s.coreAt c).spill t)).placeable c ≠ [])
    (honly : ∀ j, j < 15 → j ≠ t → (s.coreAt c).spillCandidate j = false) :
    let core := s.coreAt c
    ∃ u y, exec (.contextSpill c t) s = .next u ∧ ((u.coreAt c).thr t).status = .free ∧ ((u.coreAt c).thr t).task = none ∧
      (∀ k l, (core.thr t).task = some k → s.launchAt k.lnum = some l → s.reservedFrom (dieOf c) l = false → getKey (u.coreAt c).marks k.lnum = none) ∧
      y ∈ (u.coreAt c).spills ∧ y.tid = t ∧ y.thread = core.thr t ∧ y.valid = true ∧ y.ready = false ∧ (u.coreAt c).lm = core.lm := by
  intro core
  obtain ⟨m, hu⟩ := unmark_eq (s.setCore c (core.spill t)) c ((core.thr t).task.map (·.lnum))
  rw [coreAt_setCore_self] at hu
  obtain ⟨hstatus, htask⟩ := thr_vacate core (show t < 16 by omega)
  refine ⟨_, ⟨t, core.thr t, true, false, false, 0, core.badRegs t⟩, exec_contextSpill ht hfull hcand hhelp honly, ?_, ?_, fun k l hk hl hr => ?_, ?_,
    rfl, rfl, rfl, rfl, ?_⟩
  · rw [hu]; exact hstatus
  · rw [hu]; exact htask
  · rw [show (s.coreAt c).thr t = core.thr t from rfl, hk]
    exact marks_unmark (s := s.setCore c _) hl hr
  · rw [hu]; exact List.mem_append_right _ (List.mem_singleton_self _)
  · rw [hu]; exact vacate_lm core t

/-! ### CONTEXT_RESTORE (R49, R53) -/

/-- The thread that a context becomes when it returns. -/
def Thread.returned (y : Thread) (cyc : Nat) : Thread :=
  match y.status with
  | .parked _ _ _ => { y with resume := true }
  | .ready | .stopped _ => { y with status := .ready, readyAt := cyc }
  | .free => y
theorem status_returned (y : Thread) (n : Nat) : (y.returned n).status = match y.status with
    | .stopped _ => .ready
    | w => w := by
  unfold Thread.returned
  split <;> simp_all
theorem resume_returned {y : Thread} (n : Nat) (h : y.parkOf.isSome = true) : (y.returned n).resume = true := by
  unfold Thread.returned
  unfold Thread.parkOf at h
  split <;> simp_all
theorem held_returned (y : Thread) (n : Nat) : ∃ st rs ra, y.returned n = { y with status := st, resume := rs, readyAt := ra } := by
  unfold Thread.returned
  split
  · exact ⟨_, _, _, rfl⟩
  · exact ⟨_, _, _, rfl⟩
  · exact ⟨_, _, _, rfl⟩
  · exact ⟨_, _, _, rfl⟩
/-- Reading the word of a restored thread again changes its buffer, its word and how its instruction goes on. -/
theorem thr_reread (c : Core) {t : Nat} (h : t < 16) : ∃ buf inst p, (c.reread t).thr t = { c.thr t with buf := buf, inst := inst, progress := p } := by
  unfold Core.reread
  split
  · exact ⟨_, _, _, rfl⟩
  · rw [thr_updThr_core _ _ h, if_pos rfl, Core.popWord]
    dsimp only
    rw [thr_updThr_core _ _ h, if_pos rfl]
    exact ⟨_, _, _, rfl⟩
theorem spills_reread (c : Core) (t : Nat) : (c.reread t).spills = c.spills := by
  unfold Core.reread
  split <;> rfl
/-- The core to which a context has returned, before the words at its pc are read again. -/
def Core.withReturned (c : Core) (t : Nat) (y : Thread) (bad : List Nat) : Core :=
  { (c.setThr t y).returnWindows t y.placedAt with badThread := bad.map (fun r => (t, r)) ++ c.badThread }
theorem putBack_eq (c : Core) (t : Nat) (y : Thread) (bad : List Nat) : c.putBack t y bad =
    if y.parkOf.isSome then ((c.withReturned t (y.returned c.cyc.toNat) bad).refill t).reread t
    else (c.withReturned t (y.returned c.cyc.toNat) bad).refill t := by
  unfold Core.putBack Core.withReturned Thread.returned
  dsimp only
  congr 1
theorem thr_withReturned (c : Core) {t : Nat} (h : t < 16) (y : Thread) (bad : List Nat) : (c.withReturned t y bad).thr t = y := by
  have hc := thr_setThr_self c y h
  dsimp only [Core.withReturned, Core.returnWindows, Core.thr] at hc ⊢
  exact hc
theorem thr_putBack (c : Core) {t : Nat} (h : t < 16) (y : Thread) (bad : List Nat) : ∃ buf inst p,
    (c.putBack t y bad).thr t = { y.returned c.cyc.toNat with buf := buf, inst := inst, progress := p } := by
  obtain ⟨buf, hb⟩ := thr_refill (c.withReturned t (y.returned c.cyc.toNat) bad) h
  rw [thr_withReturned c h] at hb
  rw [putBack_eq]
  split
  · obtain ⟨buf, inst, p, hr⟩ := thr_reread ((c.withReturned t (y.returned c.cyc.toNat) bad).refill t) h
    rw [hr, hb]
    exact ⟨_, _, _, rfl⟩
  · rw [hb]
    exact ⟨_, _, _, rfl⟩
theorem spills_putBack (c : Core) (t : Nat) (y : Thread) (bad : List Nat) : (c.putBack t y bad).spills = c.spills := by
  rw [putBack_eq]
  split
  · rw [spills_reread]; rfl
  · rfl
/-- The save areas of a core once the context of a thread has been taken from its area. -/
def takeSpill (t : Nat) (l : List Saved) : List Saved :=
  l.map fun z => if z.tid = t then { z with valid := false, ready := false, bad := [] } else z
theorem valid_takeSpill {t : Nat} {l : List Saved} : ∀ x ∈ takeSpill t l, x.tid = t → x.valid = false := by
  intro x hx hxt
  obtain ⟨z, -, rfl⟩ := List.mem_map.1 hx
  split
  · rfl
  · next hz => rw [if_neg hz] at hxt; exact absurd hxt hz
theorem exec_contextRestore {s : State} {c t : Nat} {y : Saved} (ht : t < 15) (hfree : ((s.coreAt c).thr t).status = .free)
    (hy : (s.coreAt c).spills.find? (fun z => z.valid && z.ready && z.tid == t) = some y) :
    exec (.contextRestore c t) s =
      .next (s.setCore c (({ s.coreAt c with spills := takeSpill t (s.coreAt c).spills } : Core).putBack t y.thread y.bad)) := by
  have hn : ¬ (t ≥ 15 ∨ ((s.coreAt c).thr t).status ≠ .free) := by
    rw [hfree]; simp; omega
  show execContextRestore c t s = _
  simp only [execContextRestore, if_neg hn, hy]
  rfl
theorem contextRestored {s : State} {c t : Nat} {y : Saved} (ht : t < 15) (hfree : ((s.coreAt c).thr t).status = .free)
    (hy : (s.coreAt c).spills.find? (fun z => z.valid && z.ready && z.tid == t) = some y) :
    ∃ u, exec (.contextRestore c t) s = .next u ∧
      let z := (u.coreAt c).thr t
      z.g = y.thread.g ∧ z.gs = y.thread.gs ∧ z.v = y.thread.v ∧ z.k = y.thread.k ∧ z.ctl = y.thread.ctl ∧ z.pc = y.thread.pc ∧
      z.task = y.thread.task ∧ z.handles = y.thread.handles ∧ z.status = (match y.thread.status with
        | .stopped _ => .ready
        | w => w) ∧ (y.thread.parkOf.isSome = true → z.resume = true) ∧
      (∀ x ∈ (u.coreAt c).spills, x.tid = t → x.valid = false) := by
  refine ⟨_, exec_contextRestore ht hfree hy, ?_⟩
  rw [coreAt_setCore_self, spills_putBack]
  obtain ⟨buf, inst, p, hb⟩ := thr_putBack ({ s.coreAt c with spills := takeSpill t (s.coreAt c).spills } : Core) (show t < 16 by omega) y.thread y.bad
  rw [hb]
  have hstatus := status_returned y.thread (s.coreAt c).cyc.toNat
  have hresume := resume_returned (y := y.thread) (s.coreAt c).cyc.toNat
  obtain ⟨st, rs, ra, hheld⟩ := held_returned y.thread (s.coreAt c).cyc.toNat
  dsimp only
  rw [hheld] at hstatus hresume ⊢
  exact ⟨rfl, rfl, rfl, rfl, rfl, rfl, rfl, rfl, hstatus, hresume, valid_takeSpill⟩

theorem taskRows : Rules.TaskRows := by
  intro s c t k l slot r ht core
  refine ⟨fun hb hf hd hr => taskPlaced ht hb hf hd hr, exec_taskDispatch_none,
    fun v pre post hl hm hflag hvc hdie hd hr honly hne hbest hroom => ?_,
    fun hfull hcand hhelp honly => contextSpilled ht hfull hcand hhelp honly, fun y hfree hy => contextRestored ht hfree hy⟩
  dsimp only
  refine ⟨_, taskStolen hl hm hflag hvc hdie hd hr honly hne hbest, ?_⟩
  rw [steal_eq hd hr honly hroom]
  refine ⟨?_, ?_, ?_, rfl, rfl⟩
  · rw [State.updCore, coreAt_setCore_self, coreAt_setCore_ne _ _ hvc.symm]; rfl
  · rw [State.updCore, coreAt_setCore_ne _ _ hvc, coreAt_setCore_self]
  · rw [State.updCore, coreAt_setCore_self, coreAt_setCore_ne _ _ hvc.symm]; rfl

end Sys2Proof.Machine
end

section
/-! SUPPORT. A forced stop, and the images of a core. -/

namespace Sys2Proof.Machine

/-! ### FORCED_PREEMPTION (R350, R389) -/

@[simp] theorem unmark_hub (s : State) (c : Nat) (o : Option Nat) : (s.unmark c o).hub = s.hub := by
  unfold State.unmark
  split
  · split <;> rfl
  · rfl
/-- What a context written to the pool changes: memory, and the hub's list, which has no part in which launches are active and which dies are
reserved. -/
theorem poolWrite_eq (s : State) (c n : Nat) (x : Saved) : ∃ m, s.poolWrite c n x =
    { s with dram := m, fresh := s.fresh + 1, hub := { s.hub with pool := s.hub.pool ++ [(c, { x with record := n })] } } := by
  have hform : ∃ pa l, s.poolWrite c n x = ({ s.dramPut pa l with fresh := (s.dramPut pa l).fresh + 1 } : State).updHub fun h =>
      { h with pool := h.pool ++ [(c, { x with record := n })] } := by
    unfold State.poolWrite
    extract_lets rest s1 s2
    clear_value rest
    exact ⟨_, _, rfl⟩
  obtain ⟨pa, l, h⟩ := hform
  exact ⟨_, h⟩
theorem poolWrite_hub (s : State) (c n : Nat) (x : Saved) :
    (s.poolWrite c n x).hub = { s.hub with pool := s.hub.pool ++ [(c, { x with record := n })] } := by
  obtain ⟨m, h⟩ := poolWrite_eq s c n x
  rw [h]
theorem poolWrite_coreAt (s : State) (c n : Nat) (x : Saved) (k : Nat) : (s.poolWrite c n x).coreAt k = s.coreAt k := by
  obtain ⟨m, h⟩ := poolWrite_eq s c n x
  rw [h]; rfl
theorem poolWrite_launchAt (s : State) (c n : Nat) (x : Saved) (k : Nat) : (s.poolWrite c n x).launchAt k = s.launchAt k := by
  obtain ⟨m, h⟩ := poolWrite_eq s c n x
  rw [h]; rfl
theorem poolWrite_reservedFrom (s : State) (c n : Nat) (x : Saved) (d : Nat) (l : Launch) :
    (s.poolWrite c n x).reservedFrom d l = s.reservedFrom d l := by
  obtain ⟨m, h⟩ := poolWrite_eq s c n x
  rw [h]; rfl
theorem stopContext_ready {s : State} {c t : Nat} (hready : ((s.coreAt c).thr t).status = .ready) (hres : ((s.coreAt c).thr t).resume = false) :
    s.stopContext c t = some (s, true) := by
  unfold State.stopContext
  simp only [hready, hres, Bool.false_eq_true, if_false]
/-- The context of a stopped thread as it goes to the pool. -/
def Core.context (c : Core) (t n : Nat) : Saved := ⟨t, c.thr t, true, true, false, n, c.badRegs t⟩
theorem swapOut_ready {s : State} {c t n : Nat} (hn : s.hub.freeRecord = some n) (hready : ((s.coreAt c).thr t).status = .ready)
    (hres : ((s.coreAt c).thr t).resume = false) :
    s.swapOut c t false = some (((s.poolWrite c n ((s.coreAt c).context t n)).updCore c (·.vacate t)).unmark c
      (((s.coreAt c).thr t).task.map (·.lnum)), n) := by
  simp only [State.swapOut, hn, stopContext_ready hready hres]
  rfl
theorem exec_forcedPreemption {s u : State} {c t k n since : Nat} {l : Launch} (hl : s.launchAt k = some l)
    (hmark : getKey (s.coreAt c).marks k = some since) (hdue : since + s.markLimit c l ≤ s.hub.now) (hyield : s.mustYield c l = true)
    (ht : argMax (fun t => ((s.coreAt c).thr t).placedAt) ((s.coreAt c).threadsOf k) = some t) (hu : s.swapOut c t false = some (u, n)) :
    exec (.forcedPreemption c k) s = .next u := by
  have hn : ¬ (s.hub.now < since + s.markLimit c l ∨ s.mustYield c l = false) := by
    rw [hyield]; simp; omega
  show execForcedPreemption c k s = _
  simp only [execForcedPreemption, hl, hmark, if_neg hn, ht, hu]
theorem forcedStop {s : State} {c t k n since : Nat} {l : Launch} (ht : t < 15) (hl : s.launchAt k = some l)
    (hmark : getKey (s.coreAt c).marks k = some since) (hdue : since + s.markLimit c l ≤ s.hub.now) (hyield : s.mustYield c l = true)
    (hready : ((s.coreAt c).thr t).status = .ready) (htask : ((s.coreAt c).thr t).task.any (fun x => x.lnum == k) = true)
    (honly : ∀ j, j < 15 → j ≠ t → ((s.coreAt c).thr j).task.any (fun x => x.lnum == k) = false)
    (hres : ((s.coreAt c).thr t).resume = false) (hn : s.hub.freeRecord = some n) (hr : s.reservedFrom (dieOf c) l = false) :
    let core := s.coreAt c
    ∃ u, exec (.forcedPreemption c k) s = .next u ∧ ((u.coreAt c).thr t).status = .free ∧
      (∃ y, u.hub.pool = s.hub.pool ++ [(c, y)] ∧ y.tid = t ∧ y.record = n ∧ y.thread = core.thr t ∧ y.ready = true) ∧
      getKey (u.coreAt c).marks k = none := by
  intro core
  have hthreads : argMax (fun t => (core.thr t).placedAt) (core.threadsOf k) = some t := by
    refine argMax_of_forall_eq (List.mem_filter.2 ⟨List.mem_range.2 ht, ?_⟩) fun j hj => ?_
    · rw [show (core.thr t).status = .ready from hready, htask]; rfl
    · obtain ⟨hj15, hj⟩ := List.mem_filter.1 hj
      by_contra hne
      rw [honly j (List.mem_range.1 hj15) hne, Bool.and_false] at hj
      cases hj
  have hlnum : (core.thr t).task.map (·.lnum) = some k := by
    cases e : (core.thr t).task with
    | none => rw [show (s.coreAt c).thr t = core.thr t from rfl, e] at htask; cases htask
    | some q =>
      rw [show (s.coreAt c).thr t = core.thr t from rfl, e] at htask
      exact congrArg some (by simpa using htask)
  have hswap := swapOut_ready hn hready hres
  have hpool := poolWrite_hub s c n (core.context t n)
  have hcore := poolWrite_coreAt s c n (core.context t n) c
  have hlaunch := (poolWrite_launchAt s c n (core.context t n) k).trans hl
  have hopen := (poolWrite_reservedFrom s c n (core.context t n) (dieOf c) l).trans hr
  generalize s.poolWrite c n (core.context t n) = p at hswap hpool hcore hlaunch hopen
  rw [show ((s.coreAt c).thr t).task.map (·.lnum) = some k from hlnum] at hswap
  obtain ⟨m, hu⟩ := unmark_eq (p.updCore c (·.vacate t)) c (some k)
  rw [State.updCore, coreAt_setCore_self, hcore] at hu
  refine ⟨_, exec_forcedPreemption hl hmark hdue hyield hthreads hswap, ?_, ⟨core.context t n, ?_, rfl, rfl, rfl, rfl⟩, ?_⟩
  · rw [State.updCore, hcore, hu]; exact (thr_vacate core (show t < 16 by omega)).1
  · rw [unmark_hub, State.updCore, setCore_hub, hpool]; rfl
  · exact marks_unmark (s := p.updCore c (·.vacate t)) hlaunch hopen

/-! ### Image slots (R139, R141) -/

theorem slotAt_setSlot (c : Core) {i : Nat} (hi : i < 16) (x : Slot) : (c.setSlot i x).slotAt i = x := by
  simp [Core.slotAt, Core.setSlot, hi]
theorem slotAt_of_nil {c : Core} (h : c.slots = []) (i : Nat) : (c.slotAt i).state = 0 := by
  rw [Core.slotAt, h]; rfl
theorem slotOf_of_nil {c : Core} (h : c.slots = []) (tag : Nat) : c.slotOf tag = none :=
  List.find?_eq_none.2 fun i _ => by simp [slotAt_of_nil h]
theorem victimsOf_of_nil {c : Core} (h : c.slots = []) (x : Slot) : c.victimsOf x = [] := by
  have hr : (List.range 16).filter (fun i => (c.slotAt i).state == 2) = [] := List.filter_eq_nil_iff.2 fun i _ => by simp [slotAt_of_nil h]
  simp [Core.victimsOf, hr]
theorem exec_imageEvict {s : State} {c i : Nat} {y : Loading} (hy : (s.coreAt c).loading = some y) (hi : i ∈ y.victims) :
    exec (.imageEvict c i) s = if s.slotUsers c i = 0 then .next (s.updCore c (·.evictSlot i)) else .next s := by
  show execImageEvict c i s = _
  have hc : y.victims.contains i = true := List.contains_iff_mem.2 hi
  simp only [execImageEvict, hy, hc, Bool.true_and, decide_eq_true_eq]
theorem imageEvicted {s : State} {c i : Nat} {y : Loading} (hy : (s.coreAt c).loading = some y) (hi : i ∈ y.victims)
    (hu : s.slotUsers c i = 0) (h16 : i < 16) :
    let core := s.coreAt c
    ∃ u, exec (.imageEvict c i) s = .next u ∧
      ((u.coreAt c).slotAt i).state = 0 ∧ (∀ e ∈ (u.coreAt c).attrs, e.2 ≠ .code i) ∧ (u.coreAt c).lm = core.lm ∧ u.dram = s.dram := by
  intro core
  refine ⟨_, (exec_imageEvict hy hi).trans (if_pos hu), ?_⟩
  rw [State.updCore, coreAt_setCore_self]
  refine ⟨?_, fun e he => ?_, rfl, rfl⟩
  · exact congrArg Slot.state (slotAt_setSlot core h16 _)
  · simpa using (List.mem_filter.1 he).2

/-! ### IMAGE_LOAD: the header (R140, R141) -/

section
variable {s s1 : State} {c k : Nat} {l : Launch} {hd : List Byte}

/-- A launch may begin a load on a core: no load is under way there, the launch goes on, a record of it waits for its image, and its read is not
held. -/
structure State.MayLoad (s : State) (c k : Nat) (l : Launch) : Prop where
  idle : (s.coreAt c).loading = none
  launch : s.launchAt k = some l
  active : l.ended = false
  record : (s.coreAt c).deque.any (fun r => r.lnum == k && ((s.coreAt c).slotOfRec l r).isNone) = true
  free : s.hub.waitsAt (.image c k) = false
/-- The slot of a launch whose tag is not known yet, once its header has been read (log 44). -/
def Core.slotHere (c : Core) (l : Launch) (hd : List Byte) : Option Nat := if l.tag.isNone then c.slotOf (fieldAt hd 8 2) else none

theorem slotHere_of_known (c : Core) (h : l.tag = none) (hd : List Byte) : c.slotHere l hd = c.slotOf (fieldAt hd 8 2) := by
  rw [Core.slotHere, h]; rfl
theorem slotHere_eq_none {c : Core} (h : l.tag ≠ none ∨ c.slotOf (fieldAt hd 8 2) = none) : c.slotHere l hd = none := by
  unfold Core.slotHere
  split
  · next ht => exact h.resolve_left (fun hn => hn (Option.isNone_iff_eq_none.1 ht))
  · rfl
theorem mayLoad_of {s : State} (hload : (s.coreAt c).loading = none) (hl : s.launchAt k = some l) (he : l.ended = false)
    (hr : ∃ r ∈ (s.coreAt c).deque, r.lnum = k ∧ (s.coreAt c).slotOfRec l r = none) (hw : s.hub.waitsAt (.image c k) = false) :
    s.MayLoad c k l where
  idle := hload
  launch := hl
  active := he
  record := by
    obtain ⟨r, hr, hk, hs⟩ := hr
    exact List.any_eq_true.2 ⟨r, hr, by simp [hk, hs]⟩
  free := hw
theorem exec_imageLoad_held (h : s.MayLoad c k l) (hread : s.hubBytes (dieOf c) l.tn l.pkt.kernel 64 = (s1, .hold .migrate, hd)) :
    exec (.imageLoad c k) s =
      .next { s with hub := { s.hub with waits := s.hub.waits ++ [⟨.image c k, l.tn, l.pkt.kernel + hd.length⟩] } } := by
  show execImageLoad c k s = _
  simp only [execImageLoad, h.idle, h.launch, h.active, h.record, h.free, hread, Bool.not_true, Bool.or_false, Bool.false_eq_true, if_false]
  rfl
variable (h : s.MayLoad c k l) (hread : s.hubBytes (dieOf c) l.tn l.pkt.kernel 64 = (s1, .ok, hd))
include h hread
theorem exec_imageLoad_here {j : Nat} (hj : (s.coreAt c).slotHere l hd = some j) :
    exec (.imageLoad c k) s = .next (s1.learnTag c k (fieldAt hd 8 2) ((s.coreAt c).slotAt j).threads) := by
  show execImageLoad c k s = _
  unfold Core.slotHere at hj
  simp only [execImageLoad, h.idle, h.launch, h.active, h.record, h.free, hread, hj, Bool.not_true, Bool.or_false, Bool.false_eq_true, if_false]
theorem exec_imageLoad_bad (hj : (s.coreAt c).slotHere l hd = none) (hx : parseHeader hd = none) :
    exec (.imageLoad c k) s = .next (s1.abortLaunch k 2) := by
  show execImageLoad c k s = _
  unfold Core.slotHere at hj
  simp only [execImageLoad, h.idle, h.launch, h.active, h.record, h.free, hread, hj, hx, Bool.not_true, Bool.or_false, Bool.false_eq_true, if_false]
theorem exec_imageLoad_resident {x : Slot} (hj : (s.coreAt c).slotHere l hd = none) (hx : parseHeader hd = some x)
    (hs : (s.coreAt c).slotOf x.tag ≠ none) : exec (.imageLoad c k) s = .next (s1.learnTag c k x.tag x.threads) := by
  show execImageLoad c k s = _
  unfold Core.slotHere at hj
  have hs : ((s.coreAt c).slotOf x.tag).isSome = true := Option.isSome_iff_ne_none.2 hs
  simp only [execImageLoad, h.idle, h.launch, h.active, h.record, h.free, hread, hj, hx, hs, Bool.not_true, Bool.or_false, Bool.false_eq_true,
    if_false, if_true]
theorem exec_imageLoad_read {s2 : State} {x : Slot} {img : List Byte} (hj : (s.coreAt c).slotHere l hd = none) (hx : parseHeader hd = some x)
    (hs : (s.coreAt c).slotOf x.tag = none) (himg : s1.hubBytes (dieOf c) l.tn l.pkt.kernel (x.code + x.dbytes) = (s2, .ok, img)) :
    exec (.imageLoad c k) s = .next (((s2.learnTag c k x.tag x.threads).updCore c (fun d => { d with
      loading := some ⟨k, x, img, (s.coreAt c).victimsOf x, none⟩ })).advanceLoad c) := by
  show execImageLoad c k s = _
  unfold Core.slotHere at hj
  simp only [execImageLoad, h.idle, h.launch, h.active, h.record, h.free, hread, hj, hx, hs, himg, Bool.not_true, Bool.or_false, Bool.false_eq_true,
    if_false, Option.isSome_none]
end

/-! ### IMAGE_LOAD: the image (R141) -/

/-- A change of the records on some cores changes nothing else of a core. -/
theorem coreAt_mapDeque (s : State) (p : Nat → Bool) (f : List TaskRec → List TaskRec) (j : Nat) : ∃ q,
    ({ s with cores := s.cores.map (fun e => if p e.1 then (e.1, { e.2 with deque := f e.2.deque }) else e) } : State).coreAt j =
      { s.coreAt j with deque := q } := by
  have hmap : (fun e : Nat × Core => if p e.1 then (e.1, { e.2 with deque := f e.2.deque }) else e) =
      fun e => (e.1, if p e.1 then { e.2 with deque := f e.2.deque } else e.2) := by
    funext e
    split <;> rfl
  unfold State.coreAt
  dsimp only
  rw [hmap, getKey_map s.cores fun i x => if p i then { x with deque := f x.deque } else x]
  cases getKey s.cores j with
  | none => exact ⟨[], rfl⟩
  | some x =>
    rw [Option.map_some]
    split
    · exact ⟨f x.deque, rfl⟩
    · exact ⟨x.deque, rfl⟩
theorem coreAt_learnTag (s : State) (c k tag n j : Nat) : ∃ q, (s.learnTag c k tag n).coreAt j = { s.coreAt j with deque := q } := by
  unfold State.learnTag
  extract_lets first fix s'
  exact coreAt_mapDeque s' (fun i => first || i == c) (List.map fix) j
theorem advanceLoad_of_no_victims {s : State} {c : Nat} {y : Loading} (hy : (s.coreAt c).loading = some y) (hv : y.victims = []) :
    s.advanceLoad c = s.updCore c (·.goLoad) := by
  simp only [State.advanceLoad, hy, hv]
  rfl
theorem goLoad_of_empty {c : Core} {y : Loading} (hy : c.loading = some y) (hv : y.victims = []) (ha : y.at_ = none) (hs : c.slots = []) :
    c.goLoad = { c.setSlot 0 { y.slot with state := 1 } with loading := some { y with at_ := some 0 } } := by
  have hf : (List.range 16).find? (fun i => (c.slotAt i).state == 0) = some 0 := by
    simp [List.range_succ, slotAt_of_nil hs]
  simp only [Core.goLoad, hy, hv, ha, hf]
theorem goLoad_of_at {c : Core} {y : Loading} {i : Nat} (hy : c.loading = some y) (hv : y.victims = []) (ha : y.at_ = some i) :
    c.goLoad = c.finishLoad y i := by
  simp only [Core.goLoad, hy, hv, ha]
/-- Waking changes neither the bytes of a core nor its order counter. -/
theorem wakeBy_lm (c : Core) (p : Nat → Thread → Park → Bool) : (c.wakeBy p).lm = c.lm := by
  obtain ⟨h, -⟩ := rest_wakeBy c p
  generalize c.wakeBy p = d at h ⊢
  have hf := congrArg Core.lm h
  exact hf
theorem wakeBy_order (c : Core) (p : Nat → Thread → Park → Bool) : (c.wakeBy p).order = c.order := by
  obtain ⟨h, -⟩ := rest_wakeBy c p
  generalize c.wakeBy p = d at h ⊢
  have hf := congrArg Core.order h
  exact hf
theorem lmPut_lm (c : Core) (a : Nat) (l : List Byte) : (c.lmPut a l).lm = memWrite lmDefault c.lm a l := by
  unfold Core.lmPut Core.wakeIf
  rw [wakeBy_lm]
  rfl
theorem lmPut_order (c : Core) (a : Nat) (l : List Byte) : (c.lmPut a l).order = c.order := by
  unfold Core.lmPut Core.wakeIf
  rw [wakeBy_order]
  rfl
/-- The end of a load of an image that has no data. -/
theorem finishLoad_slot {c : Core} {y : Loading} {i : Nat} (hi : i < 16) (hd : y.slot.dbytes = 0) :
    (c.finishLoad y i).slotAt i = { y.slot with used := c.order } ∧ (c.finishLoad y i).loading = none ∧
    (c.finishLoad y i).lm = memWrite lmDefault c.lm y.slot.base (y.image.take y.slot.code) := by
  rw [← lmPut_lm, ← lmPut_order c y.slot.base (y.image.take y.slot.code)]
  unfold Core.finishLoad
  generalize c.lmPut y.slot.base (y.image.take y.slot.code) = d
  dsimp only
  rw [if_pos hd]
  exact ⟨slotAt_setSlot d hi _, rfl, rfl⟩
/-- The bytes that a load has written. -/
theorem memGet_image (m : List Host.Cell) {base n b : Nat} {img : List Byte} (hn : n ≤ img.length) (hb : b < n) :
    memGet lmDefault (memWrite lmDefault m base (img.take n)) (base + b) = img.getD b 0 := by
  have hlen : (img.take n).length = n := List.length_take_of_le hn
  rw [memGet_memWrite, hlen, if_pos (by omega), Nat.add_sub_cancel_left]
  simp [List.getD, hb]
theorem imageWritten {s : State} {c k i : Nat} {y : Loading} (hy : (s.coreAt c).loading = some y) (hk : y.lnum = k) (hv : y.victims = [])
    (ha : y.at_ = some i) (hi : i < 16) (hd : y.slot.dbytes = 0) (hlen : y.slot.code ≤ y.image.length) :
    let core := s.coreAt c
    ∃ u, exec (.imageLoad c k) s = .next u ∧ (u.coreAt c).slotAt i = { y.slot with used := core.order } ∧ (u.coreAt c).loading = none ∧
      ∀ b, b < y.slot.code → memGet lmDefault (u.coreAt c).lm (y.slot.base + b) = y.image.getD b 0 := by
  intro core
  have hex : exec (.imageLoad c k) s = .next (s.advanceLoad c) := by
    show execImageLoad c k s = _
    simp [execImageLoad, hy, hk, hv]
  obtain ⟨hslot, hload, hlm⟩ := finishLoad_slot (c := core) hi hd
  refine ⟨_, hex, ?_⟩
  rw [advanceLoad_of_no_victims hy hv, State.updCore, coreAt_setCore_self, goLoad_of_at hy hv ha]
  refine ⟨hslot, hload, fun b hb => ?_⟩
  rw [hlm]
  exact memGet_image core.lm hlen hb
/-- An image that has been read for a core without slots takes slot 0, and its load is under way. -/
theorem imageTaken {s : State} {c k : Nat} {x : Slot} {img : List Byte} (hs : (s.coreAt c).slots = []) :
    let u := ((s.learnTag c k x.tag x.threads).updCore c (fun d => { d with loading := some ⟨k, x, img, [], none⟩ })).advanceLoad c
    ((u.coreAt c).slotAt 0).state = 1 ∧ ((u.coreAt c).slotAt 0).tag = x.tag ∧
      (u.coreAt c).loading = some ⟨k, x, img, [], some 0⟩ ∧ (u.coreAt c).lm = (s.coreAt c).lm := by
  intro u
  obtain ⟨q, hq⟩ := coreAt_learnTag s c k x.tag x.threads c
  let d : Core := { s.coreAt c with deque := q, loading := some ⟨k, x, img, [], none⟩ }
  have hd : ((s.learnTag c k x.tag x.threads).updCore c (fun d => { d with loading := some ⟨k, x, img, [], none⟩ })).coreAt c = d := by
    rw [State.updCore, coreAt_setCore_self, hq]
  have hu : u.coreAt c = { d.setSlot 0 { x with state := 1 } with loading := some ⟨k, x, img, [], some 0⟩ } := by
    refine (congrArg (fun t : State => t.coreAt c) (advanceLoad_of_no_victims (y := ⟨k, x, img, [], none⟩) (congrArg Core.loading hd) rfl)).trans ?_
    dsimp only
    rw [State.updCore, coreAt_setCore_self, hd]
    exact goLoad_of_empty (c := d) (y := ⟨k, x, img, [], none⟩) rfl rfl rfl hs
  rw [hu]
  have h0 := slotAt_setSlot d (i := 0) (by decide) { x with state := 1 }
  exact ⟨(congrArg Slot.state h0 :), (congrArg Slot.tag h0 :), rfl, rfl⟩

theorem imageRows : Rules.ImageRows := by
  intro s c t k n i since l ht core
  refine ⟨fun hl hmark hdue hyield hready htask honly hres hn hr => forcedStop ht hl hmark hdue hyield hready htask honly hres hn hr,
    fun y hy hi hu h16 => imageEvicted hy hi hu h16, fun y hy hi hu => (exec_imageEvict hy hi).trans (if_neg hu),
    fun s1 a hd hload hl he hrec hw hread => ?_, fun y hy hk hv ha hi hd hlen => imageWritten hy hk hv ha hi hd hlen⟩
  have h := mayLoad_of hload hl he hrec hw
  refine ⟨fun ha => ?_, fun ha j ht hj => ?_, fun ha hj => ?_⟩
  · subst ha; exact exec_imageLoad_held h hread
  · subst ha; exact exec_imageLoad_here h hread ((slotHere_of_known core ht hd).trans hj)
  · subst ha
    have hj := slotHere_eq_none (c := core) hj
    refine ⟨fun hx => exec_imageLoad_bad h hread hj hx, fun x s2 img hx => ⟨fun hs => exec_imageLoad_resident h hread hj hx hs,
      fun hs himg hs2 => ⟨_, exec_imageLoad_read h hread hj hx (slotOf_of_nil hs _) himg, ?_⟩⟩⟩
    rw [victimsOf_of_nil hs]
    exact imageTaken hs2

/-- Settles O36: each row is the operation that the clause tells, and the choices of the rows come down to a list's best element. -/
theorem coreTasks : Obligations.CoreTasks := ⟨taskRows, imageRows⟩

end Sys2Proof.Machine
end

section
/-! SUPPORT. The values of the scalar integer instructions (R67 to R71) as integer arithmetic and bit by bit, and the obligations on them. -/

namespace Sys2Proof.Machine

/-! ### Results of a register -/

/-- An instruction whose meaning is a result written to a register, whose value is told in another way. -/
theorem writes_of_writeReg {i : Instr} {s : State} {n : Nat} {d : Reg} {x y : Word} (h : s.Placed) (e : exec i s = writeReg d x n s)
    (hx : x = y) : Writes i s n d y s.thr.ctl :=
  ⟨_, completes_of_next (hx ▸ e), wroteReg_goOn n d y h⟩

/-! ### Arithmetic of words -/

theorem shiftLeft_eq_word (x : Word) (n : Nat) : x <<< n = word (x.toNat * 2 ^ n) := by
  refine BitVec.eq_of_toNat_eq ?_
  rw [BitVec.toNat_shiftLeft, Nat.shiftLeft_eq, BitVec.toNat_ofNat]
theorem shiftRight_eq_word (x : Word) (n : Nat) : x >>> n = word (x.toNat / 2 ^ n) := by
  refine BitVec.eq_of_toNat_eq ?_
  rw [BitVec.toNat_ushiftRight, Nat.shiftRight_eq_div_pow, BitVec.toNat_ofNat, Nat.mod_eq_of_lt]
  exact Nat.lt_of_le_of_lt (Nat.div_le_self ..) x.isLt
theorem sshiftRight_eq_ofInt (x : Word) (n : Nat) : x.sshiftRight n = BitVec.ofInt 64 (x.toInt / 2 ^ n) := by
  rw [BitVec.sshiftRight, Int.shiftRight_eq_div_pow]; rfl
theorem rolWord_eq (x : Word) {n : Nat} (h : n < 64) : rolWord x n = (x <<< n) ||| (x >>> (64 - n)) := by
  rw [rolWord, BitVec.rotateLeft_def, Nat.mod_eq_of_lt h]
theorem amount_lt (y : Word) : amount y < 64 := Nat.mod_lt _ (by decide)
theorem boolWord_decide (p : Prop) [Decidable p] : boolWord (decide p) = if p then 1 else 0 := by
  by_cases h : p <;> simp [boolWord, h]
theorem slt_iff (x y : Word) : x.slt y = decide (x.toInt < y.toInt) := rfl
theorem ult_iff (x y : Word) : x.ult y = decide (x.toNat < y.toNat) := rfl
theorem min_toInt (x y : Word) : (if y.slt x then y else x) = BitVec.ofInt 64 (min x.toInt y.toInt) := by
  rw [slt_iff]
  by_cases h : y.toInt < x.toInt
  · rw [if_pos (decide_eq_true h), min_eq_right h.le, BitVec.ofInt_toInt]
  · rw [if_neg (by simpa using h), min_eq_left (not_lt.1 h), BitVec.ofInt_toInt]
theorem max_toInt (x y : Word) : (if x.slt y then y else x) = BitVec.ofInt 64 (max x.toInt y.toInt) := by
  rw [slt_iff]
  by_cases h : x.toInt < y.toInt
  · rw [if_pos (decide_eq_true h), max_eq_right h.le, BitVec.ofInt_toInt]
  · rw [if_neg (by simpa using h), max_eq_left (not_lt.1 h), BitVec.ofInt_toInt]
theorem min_toNat (x y : Word) : (if y.ult x then y else x) = word (min x.toNat y.toNat) := by
  rw [ult_iff]
  by_cases h : y.toNat < x.toNat
  · rw [if_pos (decide_eq_true h), min_eq_right h.le, word, BitVec.ofNat_toNat, BitVec.setWidth_eq]
  · rw [if_neg (by simpa using h), min_eq_left (not_lt.1 h), word, BitVec.ofNat_toNat, BitVec.setWidth_eq]
theorem max_toNat (x y : Word) : (if x.ult y then y else x) = word (max x.toNat y.toNat) := by
  rw [ult_iff]
  by_cases h : x.toNat < y.toNat
  · rw [if_pos (decide_eq_true h), max_eq_right h.le, word, BitVec.ofNat_toNat, BitVec.setWidth_eq]
  · rw [if_neg (by simpa using h), max_eq_left (not_lt.1 h), word, BitVec.ofNat_toNat, BitVec.setWidth_eq]

theorem aluArithmetic : Rules.AluArithmetic := by
  intro s d a b h x y n w
  have same : ∀ {i : Instr} {r : Word}, exec i s = writeReg d r 2 s → Writes i s 2 d r s.thr.ctl := fun e => writes_of_writeReg h e rfl
  exact ⟨same rfl, same rfl, same rfl, same rfl, same rfl, same rfl, same rfl,
    writes_of_writeReg h rfl (shiftLeft_eq_word x n),
    writes_of_writeReg h rfl (shiftRight_eq_word x n),
    writes_of_writeReg h rfl (sshiftRight_eq_ofInt x n),
    writes_of_writeReg h rfl (rolWord_eq x (amount_lt y)),
    writes_of_writeReg h rfl (boolWord_decide _),
    writes_of_writeReg h rfl (boolWord_decide _),
    writes_of_writeReg h rfl (boolWord_decide _),
    writes_of_writeReg h rfl (min_toInt x y),
    writes_of_writeReg h rfl (max_toInt x y),
    writes_of_writeReg h rfl (min_toNat x y),
    writes_of_writeReg h rfl (max_toNat x y)⟩

/-! ### Products and quotients -/

/-- The high half of a 128-bit product, whatever its sign. -/
theorem highHalf_ofInt (p : Int) : (BitVec.ofInt 128 p).extractLsb' 64 64 = BitVec.ofInt 64 (p / 2 ^ 64) := by
  refine BitVec.eq_of_toNat_eq ?_
  rw [BitVec.extractLsb'_toNat, BitVec.toNat_ofInt, BitVec.toNat_ofInt, Nat.shiftRight_eq_div_pow]
  omega
theorem mulHigh_eq (x y : Word) : mulHigh x y = BitVec.ofInt 64 (x.toInt * y.toInt / 2 ^ 64) := by
  rw [← highHalf_ofInt, BitVec.ofInt_mul]; rfl
theorem mulHighN_eq (x y : Word) : mulHighN x y = word (x.toNat * y.toNat / 2 ^ 64) := by
  have hp : x.setWidth 128 * y.setWidth 128 = BitVec.ofInt 128 ((x.toNat * y.toNat : Nat) : Int) := by
    rw [BitVec.ofInt_natCast, BitVec.ofNat_mul, BitVec.ofNat_toNat, BitVec.ofNat_toNat]
  rw [mulHighN, hp, highHalf_ofInt, word, ← BitVec.ofInt_natCast]
  norm_cast
theorem mul_eq_word (x y : Word) : x * y = word (x.toNat * y.toNat) := BitVec.eq_of_toNat_eq (by simp)
theorem divWord_eq (x y : Word) : divWord x y = if y = 0 then 0xFFFFFFFFFFFFFFFF else if x.toInt = -2 ^ 63 ∧ y.toInt = -1 then x
    else BitVec.ofInt 64 (x.toInt.tdiv y.toInt) := by
  unfold divWord
  split
  · rfl
  · split
    · next h =>
      obtain ⟨hx, hy⟩ := h
      rw [hy, ← BitVec.ofInt_toInt (x := x), hx]
      decide
    · rfl
theorem remWord_eq (x y : Word) : remWord x y = if y = 0 then x else if x.toInt = -2 ^ 63 ∧ y.toInt = -1 then 0
    else BitVec.ofInt 64 (x.toInt - y.toInt * x.toInt.tdiv y.toInt) := by
  unfold remWord
  split
  · rfl
  · split
    · next h =>
      obtain ⟨hx, hy⟩ := h
      rw [hx, hy]
      decide
    · rw [Int.tmod_def]
theorem divWordN_eq (x y : Word) : divWordN x y = if y = 0 then 0xFFFFFFFFFFFFFFFF else word (x.toNat / y.toNat) := by
  unfold divWordN
  split
  · rfl
  · exact BitVec.eq_of_toNat_eq (by simp [Nat.mod_eq_of_lt (Nat.lt_of_le_of_lt (Nat.div_le_self ..) x.isLt)])
theorem remWordN_eq (x y : Word) : remWordN x y = if y = 0 then x else word (x.toNat % y.toNat) := by
  unfold remWordN
  split
  · rfl
  · exact BitVec.eq_of_toNat_eq (by simp [Nat.mod_eq_of_lt (Nat.lt_of_le_of_lt (Nat.mod_le ..) x.isLt)])

theorem multiplyDivide : Rules.MultiplyDivide := by
  intro s d a b h x y w
  exact ⟨writes_of_writeReg h rfl (mul_eq_word x y),
    writes_of_writeReg h rfl (mulHigh_eq x y),
    writes_of_writeReg h rfl (mulHighN_eq x y),
    writes_of_writeReg h rfl rfl,
    writes_of_writeReg h rfl (divWord_eq x y),
    writes_of_writeReg h rfl (remWord_eq x y),
    writes_of_writeReg h rfl (divWordN_eq x y),
    writes_of_writeReg h rfl (remWordN_eq x y)⟩

/-- Settles O1: each meaning is a result written to rd, and the result is the arithmetic that the rule names. -/
theorem scalarArithmetic : Obligations.ScalarArithmetic := ⟨aluArithmetic, multiplyDivide⟩

end Sys2Proof.Machine
end

section
/-! SUPPORT. The bit operations, the immediate forms and the bit fields (R14, R67, R69 to R71), bit by bit, and the obligation on them. -/

namespace Sys2Proof.Machine

/-! ### Fields and extensions, bit by bit -/

theorem getLsbD_word (n i : Nat) : (word n).getLsbD i = (decide (i < 64) && n.testBit i) := BitVec.getLsbD_ofNat ..
theorem getLsbD_fieldOf (x : Word) (pos len : Nat) {i : Nat} (hi : i < 64) :
    (fieldOf x pos len).getLsbD i = (decide (i < len) && x.getLsbD (i + pos)) := by
  rw [fieldOf, getLsbD_word, decide_eq_true hi, Bool.true_and, Nat.testBit_mod_two_pow, Nat.testBit_shiftRight, Nat.add_comm]
  rfl
/-- Sign extension of the low bits of a number is that of a bit vector. -/
theorem sextNat_eq {w : Nat} (h0 : 0 < w) (h64 : w ≤ 64) (x : Nat) : sextNat w x = (BitVec.ofNat w x).signExtend 64 := by
  obtain ⟨v, rfl⟩ : ∃ v, w = v + 1 := ⟨w - 1, by omega⟩
  have hp : 2 ^ (v + 1) ≤ 2 ^ 64 := Nat.pow_le_pow_right (by decide) h64
  have hlt : x % 2 ^ (v + 1) < 2 ^ (v + 1) := Nat.mod_lt _ (Nat.two_pow_pos _)
  refine BitVec.eq_of_toNat_eq ?_
  rw [BitVec.signExtend, BitVec.toNat_ofInt, BitVec.toInt, BitVec.toNat_ofNat, sextNat, Nat.add_sub_cancel]
  rw [Nat.pow_succ] at *
  generalize x % (2 ^ v * 2) = y at *
  generalize 2 ^ v = P at *
  split <;> rw [BitVec.toNat_ofNat]
  · rw [if_pos (by omega)]; omega
  · rw [if_neg (by omega)]; push_cast; omega
theorem getLsbD_sextNat {w : Nat} (h0 : 0 < w) (h64 : w ≤ 64) (x : Nat) {i : Nat} (hi : i < 64) :
    (sextNat w x).getLsbD i = x.testBit (min i (w - 1)) := by
  rw [sextNat_eq h0 h64, BitVec.getLsbD_signExtend, decide_eq_true hi, Bool.true_and, BitVec.msb_eq_getLsbD_last]
  split
  · next h => rw [BitVec.getLsbD_ofNat, decide_eq_true h, Bool.true_and, min_eq_left (by omega)]
  · next h => rw [BitVec.getLsbD_ofNat, decide_eq_true (by omega), Bool.true_and, min_eq_right (by omega)]
theorem getLsbD_fieldSigned (x : Word) (pos : Nat) {len i : Nat} (h64 : len < 64) (hi : i < 64) :
    (fieldSigned x pos (len + 1)).getLsbD i = x.getLsbD (min i len + pos) := by
  rw [fieldSigned, getLsbD_sextNat (by omega) (by omega) _ hi, Nat.testBit_shiftRight, Nat.add_comm]
  rfl
theorem getLsbD_fieldInsert (d a : Word) {pos len i : Nat} (hi : i < 64) :
    (fieldInsert d a pos len).getLsbD i = if pos ≤ i ∧ i < pos + len then a.getLsbD (i - pos) else d.getLsbD i := by
  simp only [fieldInsert, BitVec.getLsbD_or, BitVec.getLsbD_and, BitVec.getLsbD_not, BitVec.getLsbD_shiftLeft, getLsbD_word,
    Nat.testBit_two_pow_sub_one]
  by_cases h : pos ≤ i
  · by_cases g : i < pos + len
    · simp [h, g, hi, show ¬ i < pos by omega, show i - pos < 64 by omega, show i - pos < len by omega]
    · simp [h, g, hi, show ¬ i - pos < len by omega]
  · simp [h, hi, show i < pos by omega]
theorem getLsbD_funnelRight (a d : Word) (n : Nat) {i : Nat} (hi : i < 64) :
    (funnelRight a d n).getLsbD i = if i + n < 64 then d.getLsbD (i + n) else a.getLsbD (i + n - 64) := by
  simp only [funnelRight, pair128, BitVec.getLsbD_setWidth, BitVec.getLsbD_ushiftRight, BitVec.getLsbD_append, decide_eq_true hi, Bool.true_and,
    Nat.add_comm n i]
theorem getLsbD_funnelLeft (a d : Word) {n i : Nat} (hn : n < 64) (hi : i < 64) :
    (funnelLeft a d n).getLsbD i = if n ≤ i then d.getLsbD (i - n) else a.getLsbD (64 + i - n) := by
  simp only [funnelLeft, pair128, BitVec.getLsbD_extractLsb', BitVec.getLsbD_shiftLeft, BitVec.getLsbD_append, decide_eq_true hi, Bool.true_and,
    decide_eq_true (show 64 + i < 128 by omega), decide_eq_false (show ¬ 64 + i < n by omega), Bool.not_false]
  by_cases h : n ≤ i
  · rw [if_neg (by omega), if_pos h, show 64 + i - n - 64 = i - n by omega]
  · rw [if_pos (by omega), if_neg h]
theorem getLsbD_bswapWord (x : Word) {i : Nat} (hi : i < 64) : (bswapWord x).getLsbD i = x.getLsbD (8 * (7 - i / 8) + i % 8) := by
  simp only [bswapWord, BitVec.getLsbD_append, BitVec.getLsbD_extractLsb']
  split_ifs
  all_goals
    rw [decide_eq_true (by omega), Bool.true_and]
    congr 1
    omega

/-! ### Counts -/

theorem popCount_eq {w : Nat} (a : BitVec w) (n : Nat) : popCount a n = (List.range n).countP a.getLsbD := by
  induction n with
  | zero => rfl
  | succ n ih =>
    rw [popCount, ih, List.range_succ, List.countP_append, List.countP_singleton]
    cases a.getLsbD n <;> rfl
theorem clzWord_spec (x : Word) : ∃ n, n ≤ 64 ∧ clzWord x = word n ∧ (∀ i, 64 - n ≤ i → x.getLsbD i = false) ∧
    (n < 64 → x.getLsbD (63 - n) = true) := by
  unfold clzWord
  split
  · next h => exact ⟨64, le_rfl, rfl, fun i _ => by rw [h]; exact BitVec.getLsbD_zero, fun h => absurd h (lt_irrefl _)⟩
  · next h =>
    have h0 : x.toNat ≠ 0 := fun e => h (BitVec.eq_of_toNat_eq e)
    have hl : x.toNat.log2 < 64 := (Nat.log2_lt h0).2 x.isLt
    refine ⟨63 - x.toNat.log2, by omega, rfl, fun i hi => ?_, fun _ => ?_⟩
    · exact Nat.testBit_lt_two_pow ((Nat.log2_lt h0).1 (show x.toNat.log2 < i by omega))
    · rw [show 63 - (63 - x.toNat.log2) = x.toNat.log2 by omega]
      exact Nat.testBit_log2 h0
/-- The lowest one bit of a word, alone. -/
theorem and_neg_eq_twoPow {x : Word} {k : Nat} (hk : x.getLsbD k = true) (hlow : ∀ i, i < k → x.getLsbD i = false) :
    x &&& -x = BitVec.twoPow 64 k := by
  refine BitVec.eq_of_getLsbD_eq fun i hi => ?_
  rw [BitVec.getLsbD_and, BitVec.getLsbD_neg, BitVec.getLsbD_twoPow, decide_eq_true hi, Bool.true_and,
    decide_eq_true (BitVec.lt_of_getLsbD hk), Bool.true_and]
  rcases Nat.lt_trichotomy i k with h | rfl | h
  · rw [hlow i h, decide_eq_false (by omega : ¬ k = i)]; rfl
  · have hn : ¬ ∃ j < i, x.getLsbD j = true := fun ⟨j, hj, e⟩ => by rw [hlow j hj] at e; cases e
    simp [hk, hn]
  · have hn : ∃ j < i, x.getLsbD j = true := ⟨k, h, hk⟩
    rw [decide_eq_true hn, decide_eq_false (by omega : ¬ k = i), Bool.xor_true, Bool.and_not_self]
theorem ctzWord_spec (x : Word) : ∃ n, n ≤ 64 ∧ ctzWord x = word n ∧ (∀ i, i < n → x.getLsbD i = false) ∧ (n < 64 → x.getLsbD n = true) := by
  unfold ctzWord
  split
  · next h => exact ⟨64, le_rfl, rfl, fun i _ => by rw [h]; exact BitVec.getLsbD_zero, fun h => absurd h (lt_irrefl _)⟩
  · next h =>
    have hex : ∃ k, x.getLsbD k = true := by
      by_contra hn
      refine h (BitVec.eq_of_getLsbD_eq fun i _ => ?_)
      simpa using fun e => hn ⟨i, e⟩
    have hk := Nat.find_spec hex
    have hlow : ∀ i, i < Nat.find hex → x.getLsbD i = false := fun i hi => by simpa using Nat.find_min hex hi
    have hlt : Nat.find hex < 64 := BitVec.lt_of_getLsbD hk
    refine ⟨Nat.find hex, hlt.le, ?_, hlow, fun _ => hk⟩
    rw [and_neg_eq_twoPow hk hlow, BitVec.toNat_twoPow_of_lt hlt, Nat.log2_two_pow]

/-- An instruction whose meaning is a result written to a register, told by what the result satisfies. -/
theorem exists_writes_of_writeReg {i : Instr} {s : State} {n : Nat} {d : Reg} {x : Word} {p : Word → Prop} (h : s.Placed)
    (e : exec i s = writeReg d x n s) (hx : p x) : ∃ r, Writes i s n d r s.thr.ctl ∧ p r :=
  ⟨x, writes_of_writeReg h e rfl, hx⟩

theorem bitOperations : Rules.BitOperations := by
  intro s d a b h x y n w
  obtain ⟨nz, hnz, ez, hz⟩ := clzWord_spec x
  obtain ⟨nt, hnt, et, ht⟩ := ctzWord_spec x
  have zext : ∀ k : Nat, BitsAre (fieldOf x 0 k) (fun i => decide (i < k) && x.getLsbD i) := fun k i hi => getLsbD_fieldOf x 0 k hi
  have sext : ∀ k : Nat, k < 64 → BitsAre (sextNat (k + 1) x.toNat) (fun i => x.getLsbD (min i k)) := fun k hk i hi =>
    getLsbD_sextNat (by omega) (by omega) _ hi
  refine ⟨⟨nz, hnz, writes_of_writeReg h rfl ez, hz⟩, ⟨nt, hnt, writes_of_writeReg h rfl et, ht⟩,
    writes_of_writeReg h rfl (congrArg word (popCount_eq x 64)),
    exists_writes_of_writeReg h rfl fun i hi => getLsbD_bswapWord x hi,
    exists_writes_of_writeReg h rfl (sext 7 (by decide)),
    exists_writes_of_writeReg h rfl (sext 15 (by decide)),
    exists_writes_of_writeReg h rfl (sext 31 (by decide)),
    exists_writes_of_writeReg h rfl (zext 8),
    exists_writes_of_writeReg h rfl (zext 16),
    exists_writes_of_writeReg h rfl (zext 32),
    exists_writes_of_writeReg h rfl fun i hi => ?_,
    exists_writes_of_writeReg h rfl fun i hi => getLsbD_funnelRight x (s.rd d) n hi,
    exists_writes_of_writeReg h rfl fun i hi => getLsbD_funnelLeft x (s.rd d) (amount_lt y) hi⟩
  rw [getLsbD_fieldOf _ _ _ hi]
  simp only [Nat.lt_succ_iff]
  rfl

/-! ### Immediates -/

theorem zimm_eq (imm : BitVec 16) : zimm imm = word imm.toNat := (BitVec.ofNat_toNat ..).symm
theorem add_simm (x : Word) (imm : BitVec 16) : x + simm imm = BitVec.ofInt 64 (x.toInt + imm.toInt) := by
  rw [BitVec.ofInt_add, BitVec.ofInt_toInt]; rfl
theorem slt_simm (x : Word) (imm : BitVec 16) : x.slt (simm imm) = decide (x.toInt < imm.toInt) := by
  rw [slt_iff, simm, BitVec.toInt_signExtend_of_le (by decide)]
theorem shiftLeft_or_zimm (x : Word) (imm : BitVec 16) : x <<< 16 ||| zimm imm = word (x.toNat * 2 ^ 16 + imm.toNat) := by
  have hand : x <<< 16 &&& zimm imm = 0 := by
    refine BitVec.eq_of_getLsbD_eq fun i hi => ?_
    rw [BitVec.getLsbD_and, BitVec.getLsbD_shiftLeft, zimm, BitVec.getLsbD_setWidth]
    by_cases h : i < 16
    · simp [h]
    · simp [BitVec.getLsbD_of_ge imm i (by omega)]
  rw [← BitVec.add_eq_or_of_and_eq_zero _ _ hand, shiftLeft_eq_word, zimm_eq, ← BitVec.ofNat_add]
theorem signExtend_shiftLeft (imm : BitVec 21) : imm.signExtend 64 <<< 16 = BitVec.ofInt 64 (imm.toInt * 2 ^ 16) := by
  rw [BitVec.shiftLeft_eq_mul_twoPow, BitVec.ofInt_mul]; rfl

theorem immediates : Rules.Immediates := by
  intro s d a imm n imm21 h x w
  exact ⟨writes_of_writeReg h rfl (add_simm x imm),
    writes_of_writeReg h rfl (congrArg (x &&& ·) (zimm_eq imm)),
    writes_of_writeReg h rfl (congrArg (x ||| ·) (zimm_eq imm)),
    writes_of_writeReg h rfl (congrArg (x ^^^ ·) (zimm_eq imm)),
    writes_of_writeReg h rfl ((congrArg boolWord (slt_simm x imm)).trans (boolWord_decide _)),
    writes_of_writeReg h rfl (shiftLeft_eq_word x n.toNat),
    writes_of_writeReg h rfl (shiftRight_eq_word x n.toNat),
    writes_of_writeReg h rfl (sshiftRight_eq_ofInt x n.toNat),
    writes_of_writeReg h rfl (rolWord_eq x n.isLt),
    writes_of_writeReg h rfl (shiftLeft_or_zimm x imm),
    writes_of_writeReg h rfl (signExtend_shiftLeft imm21)⟩

/-! ### Bit fields -/

theorem not_decode_of_not_wf {i : Instr} (h : i.wf = false) (w : Word32) : decode w ≠ .ok i := fun e => by
  obtain ⟨-, hwf, -⟩ := decodeEncode w i e
  rw [h] at hwf
  cases hwf
theorem bitFields : Rules.BitFields := by
  intro s d a l p n
  refine ⟨fun hpl w => ?_, fun h hpl => ?_⟩
  · have hwf : bitfieldFits l p = false := decide_eq_false (by omega)
    exact ⟨not_decode_of_not_wf (i := .bexti d a l p) hwf w, not_decode_of_not_wf (i := .bextsi d a l p) hwf w,
      not_decode_of_not_wf (i := .binsi d a l p) hwf w⟩
  intro x y w
  refine ⟨exists_writes_of_writeReg h rfl fun i hi => ?_,
    exists_writes_of_writeReg h rfl fun i hi => getLsbD_fieldSigned x p.toNat l.isLt hi,
    exists_writes_of_writeReg h rfl fun i hi => ?_,
    exists_writes_of_writeReg h rfl fun i hi => getLsbD_funnelLeft x y n.isLt hi,
    exists_writes_of_writeReg h rfl fun i hi => getLsbD_funnelRight x y n.toNat hi⟩
  · rw [getLsbD_fieldOf _ _ _ hi]
    simp only [Nat.lt_succ_iff]
    rfl
  · rw [getLsbD_fieldInsert _ _ hi]
    simp only [← Nat.add_assoc, Nat.lt_succ_iff]
    rfl

/-- Settles O2: each result bit by bit, and for the fields that pass bit 63 what decode admits. -/
theorem bitsAndImmediates : Obligations.BitsAndImmediates := ⟨bitOperations, immediates, bitFields⟩

end Sys2Proof.Machine
end

section
/-! SUPPORT. Branches, counted branches and jumps (R12, R72 to R74), the run-off behind the last word of LM, and the obligation on them. -/

namespace Sys2Proof.Machine

/-! ### Targets -/

theorem relTarget_eq {w : Nat} (s : State) (o : BitVec w) : relTarget s o = BitVec.ofInt 64 (s.thr.pc.toInt + 4 * o.toInt) := by
  rw [relTarget, BitVec.ofInt_add, BitVec.ofInt_toInt, Int.mul_comm, BitVec.ofInt_mul]
  rfl
/-- What R12 refuses of a target, and the cause of its trap. -/
theorem targetBad_of_bad {t : Word} {c : Nat} (h : (t.toNat % 4 ≠ 0 ∧ c = 0x02) ∨ (t.toNat % 4 = 0 ∧ 0x3FFFC < t.toNat ∧ c = 0x03)) :
    targetBad t = some c := by
  unfold targetBad
  rcases h with ⟨h4, rfl⟩ | ⟨h4, hlm, rfl⟩
  · rw [if_pos h4]
  · rw [if_neg (not_not.2 h4), if_pos hlm]
theorem jumpChecked_of_legal {t : Word} (h : LegalPc t) (s u : State) (n : Nat) : jumpChecked s u n t = .next (u.jump n t) := by
  rw [jumpChecked, targetBad_of_legal h]
theorem jumpChecked_of_bad {t : Word} {c : Nat} (h : targetBad t = some c) (s u : State) (n : Nat) :
    jumpChecked s u n t = .next (s.trapSt c t) := by
  rw [jumpChecked, h]; rfl
/-- A register written on the way is the only change before a jump. -/
theorem thr_wr {s : State} (h : s.Placed) (d : Reg) (x : Word) : (s.wr d x).thr = s.thr.wr d x := thr_updThr s _ h
theorem onlyThread_wr (s : State) (d : Reg) (x : Word) : s.OnlyThread (s.wr d x) := onlyThread_updThr s _
theorem thread_wr_zero (t : Thread) (x : Word) : t = t.wr 0 x := by simp [Thread.wr]
theorem State.OnlyThread.cyc_eq {s t : State} (h : s.OnlyThread t) : t.cur.cyc = s.cur.cyc := by
  have := congrArg Core.cyc h.core
  exact this
/-- A jump from a state in which a register has been written. -/
theorem jumps_of_jump {i : Instr} {s u : State} {t : Word} {d : Reg} {x : Word} (h : s.Placed) (ho : s.OnlyThread u)
    (hu : u.thr = s.thr.wr d x) (e : exec i s = .next (u.jump 4 t)) : Jumps i s t d x := by
  have hj := jump_thr u 4 t (show u.tid < 16 from ho.tid_eq ▸ h)
  obtain ⟨g, gs, hw⟩ := wr_holds s.thr d x
  refine ⟨_, e, ho.trans (onlyThread_jump u 4 t), ?_, setReg_of_wr d x ?_ ?_ ?_, ?_⟩
  · constructor
    case time => rw [hj, ho.cyc_eq]
    all_goals rw [hj]
    exact ⟨rfl, rfl, rfl⟩
  · rw [hj, hu]
  · rw [hj, hu]
  · rw [hj, hu, ctl_wr]
  · rw [hj, hu, hw]; rfl

/-! ### Branches -/

theorem exec_of_branchWhen {s : State} {a b : Reg} {o : BitVec 16} {e : Instr × Bool} (h : e ∈ BranchWhen s a b o) :
    exec e.1 s = branchIf e.2 o s := by
  simp only [BranchWhen, List.mem_cons, List.not_mem_nil, or_false] at h
  rcases h with rfl | rfl | rfl | rfl | rfl | rfl
  · rfl
  · exact congrArg (branchIf · o s) (decide_not (p := s.rd a = s.rd b)).symm
  · rfl
  · exact congrArg (branchIf · o s) (decide_not.symm.trans (decide_eq_decide.2 not_lt))
  · rfl
  · exact congrArg (branchIf · o s) (decide_not.symm.trans (decide_eq_decide.2 not_lt))
theorem exec_branch_untaken {s : State} {a b : Reg} {o : BitVec 16} {e : Instr × Bool} (h : e ∈ BranchWhen s a b o) (hc : e.2 = false) :
    exec e.1 s = s.next 2 := by
  rw [exec_of_branchWhen h, branchIf, hc, if_neg Bool.false_ne_true]
theorem exec_branch_taken {s : State} {a b : Reg} {o : BitVec 16} {e : Instr × Bool} (h : e ∈ BranchWhen s a b o) (hc : e.2 = true) :
    exec e.1 s = jumpChecked s s 4 (BitVec.ofInt 64 (s.thr.pc.toInt + 4 * o.toInt)) := by
  rw [exec_of_branchWhen h, branchIf, if_pos hc, relTarget_eq]

theorem branches : Rules.Branches := by
  intro s a b o h e he
  refine ⟨fun hc => passes_next (exec_branch_untaken he hc) h, fun hc ht => ?_⟩
  exact jumps_of_jump h (State.OnlyThread.refl s) (thread_wr_zero s.thr 0) ((exec_branch_taken he hc).trans (jumpChecked_of_legal ht s s 4))

/-! ### Counted branches and jumps -/

theorem exec_dbnz_of_one {s : State} {a : Reg} {o : BitVec 16} (h : s.rd a = 1) : exec (.dbnz a o) s = writeReg a 0 2 s := by
  show execDbnz a o s = _
  simp [execDbnz, h, writeReg]
theorem exec_dbnz_of_ne {s : State} {a : Reg} {o : BitVec 16} (h : s.rd a ≠ 1) : exec (.dbnz a o) s =
    jumpChecked s (s.wr a (s.rd a - 1)) 4 (BitVec.ofInt 64 (s.thr.pc.toInt + 4 * o.toInt)) := by
  have h0 : s.rd a - 1 ≠ 0 := fun e => h (sub_eq_zero.1 e)
  show execDbnz a o s = _
  simp only [execDbnz, if_neg h0, relTarget_eq]
theorem exec_jal (s : State) (d : Reg) (o : BitVec 21) : exec (.jal d o) s =
    jumpChecked s (s.wr d (s.thr.pc + 4)) 4 (BitVec.ofInt 64 (s.thr.pc.toInt + 4 * o.toInt)) := by
  show execJal d o s = _
  rw [execJal, relTarget_eq]
theorem exec_jalr (s : State) (d a : Reg) (imm : BitVec 16) : exec (.jalr d a imm) s =
    jumpChecked s (s.wr d (s.thr.pc + 4)) 4 (BitVec.ofInt 64 ((s.rd a).toInt + imm.toInt)) := by
  show execJalr d a imm s = _
  rw [execJalr, add_simm]

theorem countAndJump : Rules.CountAndJump := by
  intro s d a o o21 imm h
  have jumps : ∀ {i : Instr} {r : Reg} {x t : Word}, exec i s = jumpChecked s (s.wr r x) 4 t → LegalPc t → Jumps i s t r x := fun e ht =>
    jumps_of_jump h (onlyThread_wr s _ _) (thr_wr h _ _) (e.trans (jumpChecked_of_legal ht _ _ 4))
  exact ⟨fun h1 => writes_of_writeReg h (exec_dbnz_of_one h1) rfl, fun h1 => jumps (exec_dbnz_of_ne h1), jumps (exec_jal s d o21),
    jumps (exec_jalr s d a imm)⟩

/-! ### The run-off behind the last word of LM (R12) -/

/-- The thread that a trap with a handler leaves. -/
theorem thr_trapAt {s : State} (h : s.HasHandler) (ht : s.tid < 16) (cause : Nat) (val pc : Word) : ∃ buf,
    (s.trapAt cause val pc).thr = { s.thr with
      resume := false, progress := Progress.none, ctl := s.thr.ctl.trapped cause val pc s.thr.inst, readyAt := s.cur.cyc.toNat + 4,
      status := .ready, pc := s.thr.ctl.trapvec, buf := buf } := by
  rw [trapAt_of_hasHandler h ht, State.thr, cur_updCur]
  exact thr_trapped s.cur ht cause val pc
/-- From `s` the thread has run off the end of LM, and is in its handler. -/
def RanOff (s t : State) : Prop :=
  t.thr.ctl.trapcause = (1 <<< 63) + 0x03 ∧ t.thr.ctl.trappc = 0x40000 ∧ t.thr.ctl.trapval = 0x40000 ∧
    t.thr.pc = s.thr.ctl.trapvec ∧ t.thr.status = .ready ∧ t.thr.readyAt = s.cur.cyc.toNat + 4
theorem exec_of_completes_runOff {s u : State} {n : Nat} {i : Instr} (hpc : s.thr.pc = 0x3FFFC) (hd : s.Done u n) (hc : Completes i s u) :
    exec i s = .next (u.trapAt 0x03 0x40000 0x40000) := by
  have hu : u.thr.pc = 0x40000 := by rw [hd.pc, hpc]; rfl
  exact hc.trans (by rw [if_pos hu])
/-- An instruction at the last word of LM that writes a register has done so when it traps. -/
theorem ranOff_of_next {i : Instr} {s u : State} {n : Nat} {d : Reg} {x : Word} (h : s.tid < 16) (hpc : s.thr.pc = 0x3FFFC) (hh : s.HasHandler)
    (ho : s.OnlyThread u) (hu : u.thr = s.thr.wr d x) (e : exec i s = u.next n) :
    ∃ t, exec i s = .next t ∧ RanOff s t ∧ s.SetReg t d x := by
  have hp : u.Placed := show u.tid < 16 from ho.tid_eq ▸ h
  obtain ⟨g, gs, hw⟩ := wr_holds s.thr d x
  have hg := goOn_thr u n hp
  rw [hu, hw] at hg
  have hH : (u.goOn n).HasHandler := by rw [State.HasHandler, hg]; exact hh
  have hcyc : (u.goOn n).cur.cyc = s.cur.cyc := (ho.trans (onlyThread_goOn u n)).cyc_eq
  obtain ⟨buf, ht⟩ := thr_trapAt hH hp 0x03 0x40000 0x40000
  rw [hcyc, hg] at ht
  have hd : s.Done (u.goOn n) n := done_goOn_of_eq n hp (by rw [hu, hw]) ho.cyc_eq
  refine ⟨_, exec_of_completes_runOff hpc hd (completes_of_next e), ?_, setReg_of_wr d x ?_ ?_ ?_⟩
  · rw [RanOff, ht]
    exact ⟨rfl, rfl, rfl, rfl, rfl, rfl⟩
  · rw [ht, hw]
  · rw [ht, hw]
  · rw [ht]; rfl

theorem targetTraps : Rules.TargetTraps := by
  intro s d a b o o21 imm bad t1 t2 t3 c
  refine ⟨fun hb => ⟨fun e he hc => ?_, fun h1 => ?_⟩, fun hb => ?_, fun hb => ?_, fun h hpc hh => ⟨?_, fun e he hc => ?_, fun h1 => ?_,
    fun u n i hd hc => exec_of_completes_runOff hpc hd hc⟩⟩
  · rw [exec_branch_taken he hc, jumpChecked_of_bad (targetBad_of_bad hb)]
  · rw [exec_dbnz_of_ne h1, jumpChecked_of_bad (targetBad_of_bad hb)]
  · rw [exec_jal, jumpChecked_of_bad (targetBad_of_bad hb)]
  · rw [exec_jalr, jumpChecked_of_bad (targetBad_of_bad hb)]
  · exact ranOff_of_next h hpc hh (onlyThread_wr s _ _) (thr_wr h _ _) rfl
  · obtain ⟨t, ht, hr, hs⟩ := ranOff_of_next h hpc hh (State.OnlyThread.refl s) (thread_wr_zero s.thr 0) (exec_branch_untaken he hc)
    refine ⟨t, ht, hr, fun r => (hs.reads r).trans ?_⟩
    by_cases h0 : r = 0
    · simp [h0, State.rd, Thread.rd]
    · rw [if_neg h0, if_neg h0]
  · exact ranOff_of_next h hpc hh (onlyThread_wr s _ _) (thr_wr h _ _) (exec_dbnz_of_one h1)

/-- Settles O3: each word comes down to the check of its target, and at the last word of LM to the trap behind it. -/
theorem controlTransfers : Obligations.ControlTransfers := ⟨branches, countAndJump, targetTraps⟩

end Sys2Proof.Machine
end

section
/-! SUPPORT. The CSR instructions (R62 to R66, R87, R93, R96), the maps of the registers, and the obligation on them. -/

namespace Sys2Proof.Machine

/-! ### What a CSR instruction does -/

theorem csrOp_of_open {s : State} {c : BitVec 12} (h : CsrOpen s c) (d : Reg) (new : Word → Option Word) : csrOp d c new s =
    match new (s.csrRead c) with
    | none => writeReg d (s.csrRead c) 2 s
    | some x => if csrBad c x then s.trap illegalInstruction 0
      else ((s.updCtl (fun t => t.write c x)).wr d (s.csrRead c)).next 2 := by
  obtain ⟨hq, hl⟩ := h
  have h1 : (decide (0x800 ≤ c.toNat) && !s.thr.system) = false := by
    by_cases g : 0x800 ≤ c.toNat
    · simp [hl g]
    · simp [g]
  have h2 : (decide (c = 0x011) && s.cur.mq.any (fun m => m.tid == s.tid)) = false := by
    by_cases g : c = 0x011
    · rw [Bool.and_eq_false_iff]
      exact .inr (by simpa using hq g)
    · rw [decide_eq_false g, Bool.false_and]
  unfold csrOp
  rw [h1, h2]
  rfl
theorem csrOp_of_task {s : State} {c : BitVec 12} (hc : 0x800 ≤ c.toNat) (hs : s.thr.system = false) (d : Reg) (new : Word → Option Word) :
    csrOp d c new s = .next (s.trapSt 0x01 0) := by
  unfold csrOp
  rw [if_pos (by simp [hc, hs])]
  rfl
theorem csrOp_of_waiting {s : State} {m : MatCmd} (hm : m ∈ s.cur.mq) (ht : m.tid = s.tid) (d : Reg) (new : Word → Option Word) :
    csrOp d 0x011 new s = .next (s.parkSt .drain) := by
  have hq : s.cur.mq.any (fun m => m.tid == s.tid) = true := List.any_eq_true.2 ⟨m, hm, by simpa using ht⟩
  unfold csrOp
  rw [if_neg (show ¬ (decide (0x800 ≤ (0x011 : BitVec 12).toNat) && !s.thr.system) = true by simp), hq]
  rfl
theorem exec_csrr (d : Reg) (c : BitVec 12) (s : State) : exec (.csrr d c) s = csrOp d c (fun _ => none) s := rfl
theorem exec_csrw (d a : Reg) (c : BitVec 12) (s : State) : exec (.csrw d a c) s = csrOp d c (fun _ => some (s.rd a)) s := rfl
theorem exec_csrs (d a : Reg) (c : BitVec 12) (s : State) :
    exec (.csrs d a c) s = csrOp d c (fun old => if a = 0 then none else some (old ||| s.rd a)) s := rfl
theorem exec_csrc (d a : Reg) (c : BitVec 12) (s : State) :
    exec (.csrc d a c) s = csrOp d c (fun old => if a = 0 then none else some (old &&& ~~~s.rd a)) s := rfl
/-- The operation that each of the instructions is, whatever its new value. -/
theorem exec_csr {s : State} {d a : Reg} {c : BitVec 12} {i : Instr} (h : i ∈ [Instr.csrr d c, .csrw d a c, .csrs d a c, .csrc d a c]) :
    ∃ new, exec i s = csrOp d c new s := by
  simp only [List.mem_cons, List.not_mem_nil, or_false] at h
  rcases h with rfl | rfl | rfl | rfl
  · exact ⟨_, exec_csrr d c s⟩
  · exact ⟨_, exec_csrw d a c s⟩
  · exact ⟨_, exec_csrs d a c s⟩
  · exact ⟨_, exec_csrc d a c s⟩
theorem exec_csrs_of_ne {d a : Reg} (h : a ≠ 0) (c : BitVec 12) (s : State) :
    exec (.csrs d a c) s = csrOp d c (fun old => some (old ||| s.rd a)) s := by
  simp only [exec_csrs, if_neg h]
theorem exec_csrc_of_ne {d a : Reg} (h : a ≠ 0) (c : BitVec 12) (s : State) :
    exec (.csrc d a c) s = csrOp d c (fun old => some (old &&& ~~~s.rd a)) s := by
  simp only [exec_csrc, if_neg h]

theorem csrTraps : Rules.CsrTraps := by
  intro s d a c all trap
  have refuses : ∀ {x : Word} {new : Word → Option Word}, CsrOpen s c → csrBad c x = true → new (s.csrRead c) = some x →
      csrOp d c new s = trap := fun ho hb hn => by
    rw [csrOp_of_open ho, hn]
    exact if_pos hb
  refine ⟨fun hc hs i hi => ?_, fun hc hm i hi => ?_, fun ho hb => ?_, fun ho ha hb => ?_, fun ho ha hb => ?_⟩
  · obtain ⟨new, e⟩ := exec_csr (s := s) hi
    rw [e, csrOp_of_task hc hs]
  · obtain ⟨new, e⟩ := exec_csr (s := s) hi
    obtain ⟨m, hm, ht⟩ := hm
    rw [e, hc, csrOp_of_waiting hm ht]
  · rw [exec_csrw]; exact refuses ho hb rfl
  · rw [exec_csrs_of_ne ha]; exact refuses ho hb rfl
  · rw [exec_csrc_of_ne ha]; exact refuses ho hb rfl

/-! ### What CSRR reads -/

/-- The handle registers stand in one row of the thread's. -/
theorem csrRead_athand (s : State) : ∀ i : Fin 8, s.csrRead (BitVec.ofNat 12 (0x080 + i)) = s.thr.ctl.athand[i] := by
  intro i
  fin_cases i <;> simp [State.csrRead]
theorem csrRead_of_table (s : State) : ∀ e ∈ CsrTable s, s.csrRead e.1 = e.2 := by
  simp only [CsrTable, List.forall_mem_append, List.forall_mem_cons, List.not_mem_nil, false_implies, implies_true, and_true]
  have ha := csrRead_athand s
  exact ⟨⟨⟨⟨rfl, rfl, rfl, rfl, rfl, rfl, rfl, rfl, rfl, rfl, rfl, rfl⟩, rfl, rfl, rfl, rfl, rfl, rfl, rfl, rfl, rfl, rfl, rfl, rfl⟩,
    rfl, rfl, rfl, rfl, rfl, rfl, rfl, ha 0, ha 1, ha 2, ha 3, ha 4⟩, ha 5, ha 6, ha 7, rfl, rfl, rfl, rfl, rfl, rfl, rfl⟩

theorem csrReads : Rules.CsrReads := by
  intro s d e h ho he
  refine writes_of_writeReg h ?_ (csrRead_of_table s e he)
  rw [exec_csrr, csrOp_of_open ho]

/-! ### What the others write -/

/-- R66: no CSR instruction writes `evcause`, so that none enters or leaves an event handler. -/
theorem evcause_write (t : Ctl) (c : BitVec 12) (x : Word) : (t.write c x).evcause = t.evcause := by
  unfold Ctl.write
  split <;> rfl
theorem wr_ctl (t : Thread) {c : Ctl} (h : c.evcause = t.ctl.evcause) (d : Reg) (x : Word) :
    ({ t with ctl := c } : Thread).wr d x = { t.wr d x with ctl := c } := by
  have hi : ({ t with ctl := c } : Thread).inEvent = t.inEvent := by rw [Thread.inEvent, h]; rfl
  unfold Thread.wr
  rw [hi]
  by_cases h0 : d = 0
  · rw [if_pos h0, if_pos h0]
  · rw [if_neg h0, if_neg h0]
    by_cases h1 : (t.inEvent && decide (28 ≤ d.toNat)) = true
    · rw [if_pos h1, if_pos h1]
    · rw [if_neg h1, if_neg h1]
theorem mem_of_csrWritable {c : BitVec 12} (h : csrWritable c = true) :
    c ∈ csrWritableNumbers.map (BitVec.ofNat 12) := by
  refine List.mem_map.2 ⟨c.toNat, by simpa [csrWritable] using h, ?_⟩
  rw [BitVec.ofNat_toNat, BitVec.setWidth_eq]
/-- A writable register reads as it was written, a zero seed as its substitute (R96). -/
theorem csrRead_of_write {t : State} {k : Ctl} {c : BitVec 12} {x : Word} (h : csrWritable c = true) (ht : t.thr.ctl = k.write c x) :
    t.csrRead c = if c = 0x012 ∧ x = 0 then 0x2545F4914F6CDD1D else x := by
  have hm := mem_of_csrWritable h
  simp only [csrWritableNumbers, List.map_cons, List.map_nil, List.mem_cons, List.not_mem_nil, or_false] at hm
  rcases hm with rfl | rfl | rfl | rfl | rfl | rfl | rfl | rfl | rfl | rfl | rfl | rfl | rfl | rfl | rfl | rfl
  all_goals
    simp [State.csrRead, ht, Ctl.write, seedConst]

theorem csrSets_of_csrOp {i : Instr} {s : State} {d : Reg} {c : BitVec 12} {x : Word} {new : Word → Option Word} (h : s.Placed)
    (ho : CsrOpen s c) (hw : csrWritable c = true) (hb : csrBad c x = false) (e : exec i s = csrOp d c new s)
    (hn : new (s.csrRead c) = some x) : CsrSets i s d c (s.csrRead c) x := by
  let f : Thread → Thread := fun t => ({ t with ctl := t.ctl.write c x } : Thread).wr d (s.csrRead c)
  have hf : f s.thr = ({ s.thr.wr d (s.csrRead c) with ctl := s.thr.ctl.write c x } : Thread) := wr_ctl _ (evcause_write ..) _ _
  have he : exec i s = (s.updThr f).next 2 := by
    rw [e, csrOp_of_open ho, hn]
    dsimp only
    rw [hb, if_neg Bool.false_ne_true, State.updCtl, State.wr, updThr_updThr s _ _ h]
  refine ⟨⟨_, completes_of_next he, wroteReg_updThr f 2 d _ _ hf (evcause_write ..) h⟩, _, completes_of_next he,
    csrRead_of_write (k := s.thr.ctl) hw ?_⟩
  rw [goOn_thr (s.updThr f) 2 h, thr_updThr s f h, hf]

theorem csrWrites : Rules.CsrWrites := by
  intro s d a c h ho hw old x
  refine ⟨fun hb => csrSets_of_csrOp h ho hw hb (exec_csrw d a c s) rfl, fun ha hb => csrSets_of_csrOp h ho hw hb (exec_csrs_of_ne ha c s) rfl,
    fun ha hb => csrSets_of_csrOp h ho hw hb (exec_csrc_of_ne ha c s) rfl, ?_, ?_⟩
  · exact writes_of_writeReg h (by rw [exec_csrs, csrOp_of_open ho, if_pos rfl]) rfl
  · exact writes_of_writeReg h (by rw [exec_csrc, csrOp_of_open ho, if_pos rfl]) rfl

/-! ### The maps of the registers -/

theorem and_not_eq_zero_iff (x m : Word) : x &&& ~~~m = 0 ↔ ∀ i, i < 64 → m.getLsbD i = false → x.getLsbD i = false := by
  constructor
  · intro h i hi hm
    have hb := congrArg (·.getLsbD i) h
    rwa [BitVec.getLsbD_and, BitVec.getLsbD_not, hm, decide_eq_true hi, Bool.not_false, Bool.and_true, Bool.and_true,
      show (0 : Word).getLsbD i = false from BitVec.getLsbD_zero] at hb
  · intro h
    refine BitVec.eq_of_getLsbD_eq fun i hi => ?_
    cases hm : m.getLsbD i with
    | false => simp [h i hi hm]
    | true => simp [hm]
theorem bits_eq_zero_iff (x : Word) (hi lo : Nat) : bits x hi lo = 0 ↔ ∀ i, lo ≤ i → i ≤ hi → x.getLsbD i = false := by
  have ht : ∀ j, (bits x hi lo).testBit j = (decide (j < hi + 1 - lo) && x.getLsbD (lo + j)) := fun j => by
    rw [bits, Nat.testBit_mod_two_pow, Nat.testBit_shiftRight]; rfl
  constructor
  · intro h i h1 h2
    have := ht (i - lo)
    rw [h, Nat.zero_testBit, decide_eq_true (by omega), Bool.true_and, show lo + (i - lo) = i by omega] at this
    exact this.symm
  · intro h
    refine Nat.zero_of_testBit_eq_false fun j => ?_
    rw [ht]
    by_cases g : j < hi + 1 - lo
    · rw [h _ (by omega) (by omega), Bool.and_false]
    · rw [decide_eq_false g, Bool.false_and]
theorem toNat_lt_iff_bits (x : Word) {n : Nat} (h : n < 64) : x.toNat < 2 ^ n ↔ bits x 63 n = 0 := by
  have hx : x.toNat / 2 ^ n < 2 ^ (63 + 1 - n) := by
    rw [Nat.div_lt_iff_lt_mul (Nat.two_pow_pos n), ← Nat.pow_add, show 63 + 1 - n + n = 64 by omega]
    exact x.isLt
  rw [bits, Nat.shiftRight_eq_div_pow, Nat.mod_eq_of_lt hx, Nat.div_eq_zero_iff_lt (Nat.two_pow_pos n)]
/-- The fields of a word that a mask leaves out. -/
def maskClears (m : Word) (l : List (Nat × Nat)) : Bool :=
  l.all (fun r => decide (r.1 < 64)) && (List.range 64).all fun i => (!m.getLsbD i) == l.any fun r => decide (r.2 ≤ i) && decide (i ≤ r.1)
theorem and_not_eq_zero_iff_bits {m : Word} {l : List (Nat × Nat)} (h : maskClears m l = true) (x : Word) :
    x &&& ~~~m = 0 ↔ ∀ r ∈ l, bits x r.1 r.2 = 0 := by
  simp only [maskClears, Bool.and_eq_true, List.all_eq_true, List.mem_range, decide_eq_true_eq, beq_iff_eq] at h
  obtain ⟨h64, hm⟩ := h
  simp only [and_not_eq_zero_iff, bits_eq_zero_iff]
  constructor
  · intro g r hr i h1 h2
    have hi : i < 64 := lt_of_le_of_lt h2 (h64 r hr)
    have hin : (l.any fun r => decide (r.2 ≤ i) && decide (i ≤ r.1)) = true :=
      List.any_eq_true.2 ⟨r, hr, by rw [decide_eq_true h1, decide_eq_true h2]; rfl⟩
    exact g i hi (by simpa [hin] using hm i hi)
  · intro g i hi hb
    have ha := (hm i hi).symm.trans (by rw [hb, Bool.not_false])
    obtain ⟨r, hr, hri⟩ := List.any_eq_true.1 ha
    rw [Bool.and_eq_true, decide_eq_true_eq, decide_eq_true_eq] at hri
    exact g r hr i hri.1 hri.2
theorem csrBad_eq_false_iff {c : BitVec 12} (hc : c ≠ 0x010) {m : Word} {l : List (Nat × Nat)} (hm : csrMask c = m)
    (h : maskClears m l = true) (x : Word) :
    csrBad c x = false ↔ ∀ r ∈ l, bits x r.1 r.2 = 0 := by
  have hn : (c.toNat == 0x010) = false := beq_false_of_ne fun e => hc (BitVec.eq_of_toNat_eq e)
  rw [← and_not_eq_zero_iff_bits h, csrBad, hm, hn, Bool.false_and, Bool.or_false, bne_eq_false_iff_eq]
theorem csrBad_fcw_eq_false_iff (x : Word) : csrBad 0x010 x = false ↔ x.toNat < 2 ^ 9 ∧ bits x 2 0 ≤ 4 ∧ bits x 5 3 ≤ 5 := by
  have hm := and_not_eq_zero_iff_bits (m := 0x1FF) (l := [(63, 9)]) (by decide) x
  rw [List.forall_mem_singleton, ← toNat_lt_iff_bits x (by decide)] at hm
  rw [csrBad, Bool.or_eq_false_iff, bne_eq_false_iff_eq, show csrMask 0x010 = 0x1FF from rfl, hm, show ((0x010 : BitVec 12).toNat == 0x010) = true from rfl, Bool.true_and,
    Bool.or_eq_false_iff, decide_eq_false_iff_not, decide_eq_false_iff_not, not_le, not_le, Nat.lt_succ_iff, Nat.lt_succ_iff]
  exact and_congr_right fun _ => and_comm

theorem csrMaps : Rules.CsrMaps := by
  intro x
  have low : ∀ {c : BitVec 12} (m : Word) {n : Nat}, c ≠ 0x010 → n < 64 → csrMask c = m → maskClears m [(63, n)] = true →
      (csrBad c x = false ↔ x.toNat < 2 ^ n) := fun m _ hc hn hm h => by
    rw [csrBad_eq_false_iff hc hm h, List.forall_mem_singleton, toNat_lt_iff_bits x hn]
  refine ⟨csrBad_fcw_eq_false_iff x, low 0x3F (by decide) (by decide) rfl (by decide), low 0xFFFFFFFF (by decide) (by decide) rfl (by decide),
    ?_, ?_, low (n := 3) 7 (by decide) (by decide) rfl (by decide), ?_, low 0xFFFF (by decide) (by decide) rfl (by decide), ?_⟩
  · have pc : ∀ {c : BitVec 12}, c ≠ 0x010 → csrMask c = 0x3FFFC → (csrBad c x = false ↔ x.toNat < 2 ^ 18 ∧ x.toNat % 4 = 0) := fun hc hm => by
      rw [csrBad_eq_false_iff (l := [(63, 18), (1, 0)]) hc hm (by decide), List.forall_mem_cons, List.forall_mem_singleton,
        toNat_lt_iff_bits x (by decide)]
      rfl
    simp only [List.forall_mem_cons, List.not_mem_nil, false_implies, implies_true, and_true]
    exact ⟨pc (by decide) rfl, pc (by decide) rfl, pc (by decide) rfl⟩
  · rw [csrBad_eq_false_iff (m := 0x800000000000FFFE) (l := [(62, 16), (0, 0)]) (by decide) rfl (by decide), List.forall_mem_cons,
      List.forall_mem_singleton]
    rfl
  · rw [csrBad_eq_false_iff (m := 0x80000000000000FF) (l := [(62, 8)]) (by decide) rfl (by decide), List.forall_mem_singleton]
  · have free : ∀ {c : BitVec 12}, c ≠ 0x010 → csrMask c = BitVec.allOnes 64 → csrBad c x = false := fun hc hm =>
      (csrBad_eq_false_iff (l := []) hc hm (by decide) x).2 (List.forall_mem_nil _)
    simp only [List.forall_mem_cons, List.not_mem_nil, false_implies, implies_true, and_true]
    exact ⟨free (by decide) rfl, free (by decide) rfl, free (by decide) rfl, free (by decide) rfl, free (by decide) rfl, free (by decide) rfl⟩

/-- Settles O7: every CSR instruction is the one operation on its register; the maps come down to the fields that a mask leaves out. -/
theorem controlRegisters : Obligations.ControlRegisters := ⟨csrReads, csrWrites, csrMaps, csrTraps⟩

end Sys2Proof.Machine
end

section
/-! SUPPORT. A hub stop that frees a barrier wait of a swapped context whose record lies over the fault queue, and the obligation on hub stops. -/

namespace Sys2Proof.Machine

/-! ### The context pool over a fault queue (R81, R391, R393) -/

/-- A task of launch 0, which waits in the context pool for a barrier of its launch (R387, R391). -/
def pooledWaiter : Saved := ⟨1, { Thread.free with status := .parked (.barrier 0) 0 0, task := some ⟨0, 0, []⟩ }, true, false, false, 0, []⟩
/-- Launch 0, active and not ended. -/
def stoppedLaunch : Launch :=
  ⟨0, 0, 0, 0, 0, ⟨0, 0, 0, 0, 0, 0, 0, 0, 0, 0, 0, 0, 0, 0⟩, 0, none, 0, [], [], [], 0, false, 0, false, [], [], []⟩
/-- t0 of core 0 runs a task of launch 0 with no handler.  The tenancy entry's fault queue is at 0x1_0000, ready and empty, and the pool's base puts the
state word of context record 0 at 0x1_0040, where the queue's first record goes. -/
def poolOverQueue : State :=
  { State.reset with
    hub := { Hub.reset with
      ready0 := BitVec.allOnes _, ready1 := BitVec.allOnes _, poolPa := 0xF040, launches := [stoppedLaunch], pool := [(0, pooledWaiter)] },
    dram := [(26, 1)],
    cores := [(0, { Core.fresh with
      threads := Core.fresh.threads.setIfInBounds 0 { Thread.free with status := .ready, task := some ⟨0, 0, []⟩ } })] }

theorem poolOverQueue_noHandler : ¬ poolOverQueue.HasHandler := by
  unfold State.HasHandler
  decide +kernel
/-- The queue of tenancy 0 can take a record. -/
theorem poolOverQueue_usable :
    let q := (poolOverQueue.tnEntry poolOverQueue.tn).2.2
    let a := bits q 51 12 * 2 ^ 12
    poolOverQueue.tnReady poolOverQueue.tn = true ∧ bits q 3 0 < 8 ∧ poolOverQueue.hub.memReady a = true ∧
      (poolOverQueue.dramRead a 8 + 2 ^ 64 - poolOverQueue.dramRead (a + 8) 8) % 2 ^ 64 < 128 * 2 ^ bits q 3 0 := by
  decide +kernel
/-- The freed wait has rewritten the state word of its record over the stop record. -/
theorem poolOverQueue_record :
    let s := poolOverQueue
    let q := (s.tnEntry s.tn).2.2
    let a := bits q 51 12 * 2 ^ 12
    (s.trapSt 1 0).dramBytes (a + 64 + 32 * (s.dramRead a 8 % (128 * 2 ^ bits q 3 0))) 32 ≠
      FaultRec.bytes ⟨s.tn, s.thr.pc.toNat, 1, s.core, s.tid, 9, 0, 0, 0, 0, false, s.thr.task.map (·.lnum)⟩ := by
  decide +kernel

theorem not_hubStop : ¬ Rules.HubStop := by
  intro h
  obtain ⟨-, -, hrec, -⟩ := h poolOverQueue 1 0 (by decide) poolOverQueue_noHandler
  obtain ⟨hready, hsize, hmem, hroom⟩ := poolOverQueue_usable
  obtain ⟨-, hbytes⟩ := hrec ⟨hready, hsize, hmem⟩ hroom (List.forall_mem_nil _)
  exact poolOverQueue_record (hbytes rfl).1

/-- Refutes O8: ending the launch frees the barrier waits, and a swapped context that waits for one has its state word rewritten in the context pool
(R391); no hypothesis of the statement keeps the pool off the tenancy's fault queue, so the stop record there need not be intact afterwards. -/
theorem not_trapsAndStops : ¬ Obligations.TrapsAndStops := fun ⟨_, h⟩ => not_hubStop h

end Sys2Proof.Machine
end

section
/-! SUPPORT. Claims of windows, writes of vector registers and the checks of an instruction that names vector registers (R78, R111, R113, R116 to R119). -/

namespace Sys2Proof.Machine

/-! ### Claims (R116) -/

/-- From `s` to `u` nothing changes but which windows the current instruction has claimed, who holds them, who waits for them, and the partial
state of the instruction. -/
structure State.Claims (s u : State) : Prop where
  package : ({ u with cores := s.cores } : State) = s
  cores : ∀ c, c ≠ s.core → u.coreAt c = s.coreAt c
  core : ({ u.cur with threads := s.cur.threads, windows := s.cur.windows, winHolder := s.cur.winHolder, spills := s.cur.spills } : Core) = s.cur
  vregs : ∀ c, u.vget c = s.vget c
  thread : u.thr.holds = s.thr.holds
  pc : u.thr.pc = s.thr.pc
theorem State.Claims.refl (s : State) : s.Claims s := ⟨rfl, fun _ _ => rfl, rfl, fun _ => rfl, rfl, rfl⟩
theorem State.Claims.core_eq {s u : State} (h : s.Claims u) : u.core = s.core := by
  have := congrArg State.core h.package; exact this
theorem State.Claims.tid_eq {s u : State} (h : s.Claims u) : u.tid = s.tid := by
  have := congrArg State.tid h.package; exact this
theorem State.Claims.trans {s u v : State} (h : s.Claims u) (g : u.Claims v) : s.Claims v where
  package := (congrArg (fun (x : State) => ({ x with cores := s.cores } : State)) g.package).trans h.package
  cores c n := by rw [g.cores c (h.core_eq ▸ n), h.cores c n]
  core := (congrArg (fun (x : Core) => ({ x with
    threads := s.cur.threads, windows := s.cur.windows, winHolder := s.cur.winHolder, spills := s.cur.spills } : Core)) g.core).trans h.core
  vregs c := (g.vregs c).trans (h.vregs c)
  thread := g.thread.trans h.thread
  pc := g.pc.trans h.pc
theorem State.Claims.cyc_eq {s u : State} (h : s.Claims u) : u.cur.cyc = s.cur.cyc := by
  have := congrArg Core.cyc h.core; exact this
theorem State.Claims.ctl_eq {s u : State} (h : s.Claims u) : u.thr.ctl = s.thr.ctl := by
  have := congrArg Thread.ctl h.thread; exact this

theorem holds_wakeUp (t : Thread) : t.wakeUp.holds = t.holds := by unfold Thread.wakeUp; split <;> rfl
theorem vget_of_reg (s : State) {c : VCode} (h : isWin c = false) : s.vget c = (s.thr.v[c.toNat]?).getD 0 := by
  rw [State.vget, h]; rfl
theorem vget_of_win (s : State) {c : VCode} (h : isWin c = true) : s.vget c = ((s.cur.windows[c.toNat - 16]?).map (·.data)).getD 0 := by
  rw [State.vget, h]; rfl
/-- The vector registers and the data of the windows are all that a vector field reads. -/
theorem vget_congr {s u : State} (hv : u.thr.v = s.thr.v)
    (hw : ∀ i : Nat, (u.cur.windows[i]?).map (·.data) = (s.cur.windows[i]?).map (·.data)) (c : VCode) : u.vget c = s.vget c := by
  cases h : isWin c with
  | false => rw [vget_of_reg _ h, vget_of_reg _ h, hv]
  | true => rw [vget_of_win _ h, vget_of_win _ h, hw]
/-- A change of the partial state of an instruction is one of its claims. -/
theorem claims_updProgress {s : State} (h : s.Placed) (f : Progress → Progress) : s.Claims (s.updProgress f) := by
  have ho := onlyThread_updThr s fun t => { t with progress := f t.progress }
  have ht : (s.updProgress f).thr = { s.thr with progress := f s.thr.progress } := thr_updThr s _ h
  refine ⟨ho.package, ho.cores, ?_, vget_congr (by rw [ht]) fun i => ?_, by rw [ht]; rfl, by rw [ht]⟩
  · rw [State.updProgress, cur_updThr]; rfl
  · rw [State.updProgress, cur_updThr]; rfl
theorem claims_capture {s : State} (h : s.Placed) (data aux : VReg) : s.Claims (s.capture data aux) := claims_updProgress h _

/-- The windows of a core with those that an instruction reads Empty and those that it writes Filling, and with their holder. -/
def Core.claimWindows (c : Core) (t : Nat) (reads writes : List VCode) : Core :=
  { c with
    winHolder := match c.winHolder with | none => c.launchOf t | some h => some h,
    windows := vecMap (fun (i : Nat) (w : Window) =>
      if (winCodes writes).contains (i + 16) then { w with state := WinState.filling, owner := t }
      else if (winCodes reads).contains (i + 16) then { w with state := WinState.empty }
      else w) c.windows }
/-- A park that waits for a window (R117). -/
def forWindow (_ : Nat) (p : Park) : Bool :=
  match p with
  | .window _ => true
  | _ => false
/-- A thread whose instruction has begun. -/
def Thread.begin_ (x : Thread) : Thread := { x with progress := { x.progress with begun := true } }
/-- The core of an instruction that has claimed its windows. -/
def Core.claimed (c : Core) (t : Nat) (reads writes : List VCode) : Core :=
  ((c.claimWindows t reads writes).wakeIf forWindow).updThr t Thread.begin_
@[simp] theorem threads_claimWindows (c : Core) (t : Nat) (reads writes : List VCode) : (c.claimWindows t reads writes).threads = c.threads := by
  simp only [Core.claimWindows]
@[simp] theorem spills_claimWindows (c : Core) (t : Nat) (reads writes : List VCode) : (c.claimWindows t reads writes).spills = c.spills := by
  simp only [Core.claimWindows]
theorem thr_claimWindows (c : Core) (t : Nat) (reads writes : List VCode) (j : Nat) : (c.claimWindows t reads writes).thr j = c.thr j := by
  rw [Core.thr, threads_claimWindows, Core.thr]
/-- What a claim leaves of a core, before anything wakes. -/
theorem rest_claimWindows (c : Core) (t : Nat) (reads writes : List VCode) :
    ({ c.claimWindows t reads writes with windows := c.windows, winHolder := c.winHolder } : Core) = c := by
  simp only [Core.claimWindows]
theorem claim_of_nil {s : State} {reads writes : List VCode} (h : winCodes (reads ++ writes) = []) : s.claim reads writes = s := by
  unfold State.claim
  exact if_pos (by rw [h]; rfl)
theorem claim_of_ne {s : State} {reads writes : List VCode} (h : winCodes (reads ++ writes) ≠ []) :
    s.claim reads writes = s.updCur (·.claimed s.tid reads writes) := by
  have hn : (winCodes (reads ++ writes)).isEmpty = false := by simpa [List.isEmpty_iff] using h
  unfold State.claim State.hold
  simp only [hn, Bool.false_eq_true, if_false, updThr_eq, updCur_updCur, tid_updCur]
  rfl
theorem data_claimWindows (c : Core) (t : Nat) (reads writes : List VCode) (i : Nat) :
    ((c.claimWindows t reads writes).windows[i]?).map (·.data) = (c.windows[i]?).map (·.data) := by
  rw [Core.claimWindows, getElem?_vecMap, Option.map_map]
  refine congrArg (Option.map · c.windows[i]?) (funext fun w => ?_)
  dsimp only [Function.comp]
  split
  · rfl
  · split <;> rfl
/-- Waking and a change of one thread leave all of a core but its threads and spilled contexts. -/
theorem rest_wakeIf_updThr (e : Core) (p : Nat → Park → Bool) (t : Nat) (f : Thread → Thread) :
    ({ (e.wakeIf p).updThr t f with threads := e.threads, spills := e.spills } : Core) = e := by
  have h := (rest_wakeBy e fun t _ w => p t w).1
  unfold Core.wakeIf
  generalize e.wakeBy _ = d at h ⊢
  exact h
theorem thr_wakeIf (e : Core) (p : Nat → Park → Bool) (t : Nat) : ∃ b, (e.wakeIf p).thr t = { e.thr t with resume := b } := by
  have h := (woken_wakeBy e fun t _ w => p t w).threads t
  unfold Core.wakeIf
  generalize e.wakeBy _ = d at h ⊢
  rcases h with h | h
  · exact ⟨_, h⟩
  · rw [h]
    unfold Thread.wakeUp
    split
    · exact ⟨true, rfl⟩
    · exact ⟨_, rfl⟩
theorem rest_claimed (c : Core) (t : Nat) (reads writes : List VCode) :
    ({ c.claimed t reads writes with threads := c.threads, spills := c.spills } : Core) = c.claimWindows t reads writes := by
  have h := rest_wakeIf_updThr (c.claimWindows t reads writes) forWindow t Thread.begin_
  rw [threads_claimWindows, spills_claimWindows] at h
  unfold Core.claimed
  generalize ((c.claimWindows t reads writes).wakeIf forWindow).updThr t Thread.begin_ = d at h ⊢
  exact h
theorem thr_claimed (c : Core) {t : Nat} (h : t < 16) (reads writes : List VCode) : ∃ b,
    (c.claimed t reads writes).thr t = { c.thr t with resume := b, progress := { (c.thr t).progress with begun := true } } := by
  obtain ⟨b, hb⟩ := thr_wakeIf (c.claimWindows t reads writes) forWindow t
  refine ⟨b, ?_⟩
  rw [Core.claimed, thr_updThr_core _ _ h, if_pos rfl, hb, thr_claimWindows]
  rfl
theorem claims_claim {s : State} (h : s.Placed) (reads writes : List VCode) : s.Claims (s.claim reads writes) := by
  by_cases hn : winCodes (reads ++ writes) = []
  · rw [claim_of_nil hn]; exact State.Claims.refl s
  · rw [claim_of_ne hn]
    have hr := rest_claimed s.cur s.tid reads writes
    obtain ⟨b, ht⟩ := thr_claimed s.cur (show s.tid < 16 from h) reads writes
    have hthr : (s.updCur (·.claimed s.tid reads writes)).thr =
        { s.thr with resume := b, progress := { s.thr.progress with begun := true } } := by
      rw [State.thr, cur_updCur, tid_updCur, ht]; rfl
    generalize hd : s.cur.claimed s.tid reads writes = d at hr
    have hwin := congrArg Core.windows hr
    refine ⟨rfl, fun c n => coreAt_updCur_ne s _ n, ?_, vget_congr (by rw [hthr]) fun i => ?_, by rw [hthr]; rfl, by rw [hthr]⟩
    · rw [cur_updCur, hd]
      have e := congrArg (fun (x : Core) => ({ x with windows := s.cur.windows, winHolder := s.cur.winHolder } : Core)) hr
      exact e.trans (rest_claimWindows s.cur s.tid reads writes)
    · rw [cur_updCur, hd, show d.windows = _ from hwin, data_claimWindows]

/-! ### Writes of a vector register or a window (R111) -/

/-- From `s` to `u` the vector register or window `d` has been given the data `x`; a window is sound again. -/
structure State.PutVec (s u : State) (d : VCode) (x : VReg) : Prop where
  package : ({ u with cores := s.cores } : State) = s
  cores : ∀ c, c ≠ s.core → u.coreAt c = s.coreAt c
  core : ({ u.cur with threads := s.cur.threads, windows := s.cur.windows, badWin := s.cur.badWin } : Core) = s.cur
  vregs : ∀ c, u.vget c = if c = d then x else s.vget c
  states : ∀ c, u.cur.winState c = s.cur.winState c
  threads : ∀ j, j ≠ s.tid → u.cur.thr j = s.cur.thr j
  thread : u.thr = { s.thr with v := u.thr.v }
theorem isWin_eq_false_iff (c : VCode) : isWin c = false ↔ c.toNat < 16 := by simp [isWin]
theorem isWin_iff (c : VCode) : isWin c = true ↔ 16 ≤ c.toNat := by simp [isWin]
theorem putVec_reg {s : State} (h : s.Placed) {d : VCode} (hd : isWin d = false) (x : VReg) : s.PutVec (s.vput d x) d x := by
  have e : s.vput d x = s.updThr (fun t => { t with v := t.v.setIfInBounds d.toNat x }) := by rw [State.vput, hd]; rfl
  have ho := onlyThread_updThr s fun t => { t with v := t.v.setIfInBounds d.toNat x }
  have ht := thr_updThr s (fun t => { t with v := t.v.setIfInBounds d.toNat x }) h
  have hw : (s.vput d x).cur.windows = s.cur.windows := by rw [e, cur_updThr]; rfl
  rw [e]
  refine ⟨ho.package, ho.cores, ?_, fun c => ?_, fun c => ?_, ho.threads, by rw [ht]⟩
  · rw [cur_updThr]; rfl
  · cases hc : isWin c with
    | true =>
      rw [← e, vget_of_win _ hc, vget_of_win _ hc, hw, if_neg]
      rintro rfl
      rw [hd] at hc; cases hc
    | false =>
      rw [isWin_eq_false_iff] at hc hd
      rw [vget_of_reg _ ((isWin_eq_false_iff c).2 hc), vget_of_reg _ ((isWin_eq_false_iff c).2 hc), ht]
      dsimp only
      rw [Vector.getElem?_setIfInBounds]
      by_cases g : c = d
      · rw [g]; simp [hd]
      · rw [if_neg g, if_neg fun k => g (BitVec.eq_of_toNat_eq k.symm)]
  · rw [cur_updThr]; rfl
theorem putVec_win {s : State} {d : VCode} (hd : isWin d = true) (hv : vOk d = true) (x : VReg) : s.PutVec (s.vput d x) d x := by
  have h16 := (isWin_iff d).1 hd
  have h24 : d.toNat < 24 := by simpa [vOk] using hv
  have hi : d.toNat - 16 < 8 := by omega
  let g : Core → Core := fun k => { k with
    windows := k.windows.setIfInBounds (d.toNat - 16) { k.windows[d.toNat - 16] with data := x }, badWin := k.badWin.filter (· ≠ d.toNat - 16) }
  have e : s.vput d x = s.updCur g := by
    unfold State.vput
    rw [hd, if_pos rfl]
    refine updCur_congr s ?_
    rw [Vector.getElem?_eq_getElem hi]
  have hcur : (s.updCur g).cur = g s.cur := cur_updCur s g
  have hthr : (s.updCur g).thr = s.thr := by rw [State.thr, hcur]; rfl
  have hwin : ∀ i : Nat, (g s.cur).windows[i]? =
      if i = d.toNat - 16 then some { s.cur.windows[d.toNat - 16] with data := x } else s.cur.windows[i]? := fun i => by
    refine (Vector.getElem?_setIfInBounds ..).trans ?_
    by_cases k : i = d.toNat - 16
    · rw [if_pos k.symm, if_pos k, if_pos (by omega)]
    · rw [if_neg (Ne.symm k), if_neg k]
  rw [e]
  refine ⟨rfl, fun c n => coreAt_updCur_ne s _ n, ?_, fun c => ?_, fun c => ?_, fun j _ => ?_, by rw [hthr]⟩
  · rw [hcur]
  · cases hc : isWin c with
    | false =>
      rw [vget_of_reg _ hc, vget_of_reg _ hc, hthr, if_neg]
      rintro rfl
      rw [hd] at hc; cases hc
    | true =>
      rw [vget_of_win _ hc, vget_of_win _ hc, hcur, hwin]
      have := (isWin_iff c).1 hc
      by_cases k : c = d
      · rw [if_pos k, if_pos (by rw [k])]; rfl
      · rw [if_neg k, if_neg fun i => k (BitVec.eq_of_toNat_eq (by omega))]
  · rw [Core.winState, Core.winState, hcur, hwin]
    split
    · next k => rw [k, Vector.getElem?_eq_getElem hi]; rfl
    · rfl
  · rw [hcur]; rfl
theorem putVec_vput {s : State} (h : s.Placed) {d : VCode} (hv : vOk d = true) (x : VReg) : s.PutVec (s.vput d x) d x := by
  cases hd : isWin d with
  | false => exact putVec_reg h hd x
  | true => exact putVec_win hd hv x

/-! ### Elements (R19, R113) -/

theorem packElems_div (w : Nat) (l : List Nat) {i : Nat} (hi : i < l.length) : packElems w l / 2 ^ (w * i) % 2 ^ w = l[i] % 2 ^ w := by
  induction l generalizing i with
  | nil => exact absurd hi (Nat.not_lt_zero i)
  | cons x l ih =>
    cases i with
    | zero => simp [packElems]
    | succ i =>
      have hx : (x % 2 ^ w + 2 ^ w * packElems w l) / 2 ^ w = packElems w l := by
        rw [Nat.add_mul_div_left _ _ (Nat.two_pow_pos w), Nat.div_eq_of_lt (Nat.mod_lt _ (Nat.two_pow_pos w)), Nat.zero_add]
      rw [packElems, Nat.mul_succ, Nat.add_comm (w * i) w, Nat.pow_add, ← Nat.div_div_eq_div_mul, hx, List.getElem_cons_succ]
      exact ih (by simpa using hi)
/-- An element of a register made of a number. -/
theorem elem_ofNat {w i : Nat} (h : w * (i + 1) ≤ 2048) (n : Nat) : elem w (BitVec.ofNat 2048 n) i = n / 2 ^ (w * i) % 2 ^ w := by
  refine Nat.eq_of_testBit_eq fun j => ?_
  rw [elem, BitVec.toNat_ofNat, ← Nat.shiftRight_eq_div_pow]
  simp only [Nat.testBit_mod_two_pow, Nat.testBit_shiftRight]
  by_cases hj : j < w
  · rw [Nat.mul_succ] at h
    rw [decide_eq_true (show w * i + j < 2048 by omega), Bool.true_and]
  · simp [hj]
theorem elem_packElems {w : Nat} {l : List Nat} (h : w * l.length ≤ 2048) {i : Nat} (hi : i < l.length) :
    elem w (BitVec.ofNat 2048 (packElems w l)) i = l[i] % 2 ^ w := by
  rw [elem_ofNat (le_trans (Nat.mul_le_mul_left w hi) h), packElems_div w l hi]
theorem elem_mod (w : Nat) (x : VReg) (i : Nat) : elem w x i % 2 ^ w = elem w x i := Nat.mod_mod _ _

/-- The data that a write of active elements leaves in its register. -/
def writtenVec (old : VReg) (w n : Nat) (k : Mask) (f : Nat → Fl) : VReg :=
  BitVec.ofNat 2048 (packElems w (((List.range n).map (fun i => if active k w i then f i else ⟨elem w old i, 0⟩)).map (·.x) ++
    (List.range (lanes w - n)).map (fun i => elem w old (n + i))))
theorem elem_writtenVec (old : VReg) {w n : Nat} (hn : n ≤ lanes w) (k : Mask) (f : Nat → Fl) {i : Nat} (hi : i < lanes w) :
    elem w (writtenVec old w n k f) i = if i < n ∧ active k w i = true then (f i).x % 2 ^ w else elem w old i := by
  have hlen : w * lanes w ≤ 2048 := Nat.mul_div_le 2048 w
  rw [writtenVec, elem_packElems (by simpa [Nat.add_sub_cancel' hn] using hlen) (by simp; omega)]
  by_cases h : i < n
  · rw [List.getElem_append_left (by simpa using h)]
    simp only [List.getElem_map, List.getElem_range]
    by_cases ha : active k w i = true
    · rw [if_pos ha, if_pos ⟨h, ha⟩]
    · rw [if_neg ha, if_neg fun g => ha g.2, elem_mod]
  · rw [List.getElem_append_right (by simpa using h), if_neg fun g => h g.1]
    simp only [List.getElem_map, List.getElem_range, List.length_map, List.length_range, Nat.add_sub_cancel' (Nat.not_lt.1 h), elem_mod]
theorem activeFlags_eq (old : VReg) (w n : Nat) (k : Mask) (f : Nat → Fl) :
    ((List.range n).map (fun i => if active k w i then f i else ⟨elem w old i, 0⟩)).foldl (fun (a : Flags) (r : Fl) => a ||| r.fl) 0 =
      ActiveFlags w n k f := by
  rw [List.foldl_map, ActiveFlags]
  refine congrArg (fun g => (List.range n).foldl g 0) (funext fun a => funext fun i => ?_)
  by_cases h : active k w i = true
  · rw [if_pos h, if_pos h]
  · rw [if_neg h, if_neg h]; exact BitVec.or_zero
theorem vwrite_eq (u : State) (d : VCode) (w n : Nat) (k : Mask) (f : Nat → Fl) :
    u.vwrite d w n k f = (u.vput d (writtenVec (u.vget d) w n k f)).raise (ActiveFlags w n k f) := by
  rw [← activeFlags_eq (u.vget d)]; rfl
/-- Only what is written to the active elements matters. -/
theorem vwrite_congr (u : State) (d : VCode) {w n : Nat} {k : Mask} {f g : Nat → Fl} (h : ∀ i, i < n → active k w i = true → f i = g i) :
    u.vwrite d w n k f = u.vwrite d w n k g := by
  have hl : (List.range n).map (fun i => if active k w i then f i else (⟨elem w (u.vget d) i, 0⟩ : Fl)) =
      (List.range n).map (fun i => if active k w i then g i else ⟨elem w (u.vget d) i, 0⟩) := by
    refine List.map_congr_left fun i hi => ?_
    split
    · next ha => exact h i (List.mem_range.1 hi) ha
    · rfl
  simp only [State.vwrite, hl]

/-- A core with the parts that a vector instruction may change as they are in another. -/
def Core.vectorPartsOf (x c : Core) : Core :=
  { x with threads := c.threads, windows := c.windows, winHolder := c.winHolder, badWin := c.badWin, spills := c.spills }
/-- A write of active elements from a state that differs from `s` in the claims of its instruction, then completion. -/
theorem wroteVec_vwrite {s u : State} (h : s.Placed) (hc : s.Claims u) {d : VCode} (hv : vOk d = true) {w n : Nat} (hn : n ≤ lanes w) (m : Nat)
    (k : Mask) (f : Nat → Fl) : WroteVec s u ((u.vwrite d w n k f).goOn m) m d w n k f s.thr.ctl.seed := by
  have hu : u.Placed := show u.tid < 16 from hc.tid_eq ▸ h
  have hp := putVec_vput hu hv (writtenVec (u.vget d) w n k f)
  rw [vwrite_eq]
  generalize u.vput d (writtenVec (u.vget d) w n k f) = v at hp
  have hvt : v.tid = u.tid := by have := congrArg State.tid hp.package; exact this
  have hvc : v.core = u.core := by have := congrArg State.core hp.package; exact this
  have hvp : v.Placed := show v.tid < 16 from hvt ▸ hu
  have hvcyc : v.cur.cyc = u.cur.cyc := by have := congrArg Core.cyc hp.core; exact this
  have hvctl : v.thr.ctl = s.thr.ctl := by rw [hp.thread]; exact hc.ctl_eq
  obtain ⟨ho, hd, hh⟩ := updThr_goOn (s := v)
    (fun t => { t with ctl := { t.ctl with fflags := t.ctl.fflags ||| (ActiveFlags w n k f).setWidth 64 } }) m rfl hvp
  rw [State.raise, State.updCtl]
  generalize (v.updThr _).goOn m = t at ho hd hh
  have htv : t.thr.v = v.thr.v := by have := congrArg Thread.v hh; exact this
  have htw : t.cur.windows = v.cur.windows := by have := congrArg Core.windows ho.core; exact this
  have hget : ∀ c, t.vget c = v.vget c := vget_congr htv fun i => by rw [htw]
  constructor
  case package =>
    have e1 := congrArg (fun (x : State) => ({ x with cores := s.cores } : State)) ho.package
    have e2 := congrArg (fun (x : State) => ({ x with cores := s.cores } : State)) hp.package
    exact e1.trans (e2.trans hc.package)
  case cores =>
    intro c hne
    have hcu : c ≠ u.core := hc.core_eq ▸ hne
    rw [ho.cores c (hvc ▸ hcu), hp.cores c hcu, hc.cores c hne]
  case elems =>
    intro i hi
    rw [hget, hp.vregs, if_pos rfl, elem_writtenVec _ hn _ _ hi, hc.vregs]
  case others => intro c hne; rw [hget, hp.vregs, if_neg hne, hc.vregs]
  case states => intro c; rw [← hp.states c, Core.winState, Core.winState, htw]
  case holder =>
    have e1 := congrArg Core.winHolder ho.core
    have e2 := congrArg Core.winHolder hp.core
    exact e1.trans e2
  case core =>
    have e1 := congrArg (·.vectorPartsOf s.cur) ho.core
    have e2 := congrArg (·.vectorPartsOf s.cur) hp.core
    have e3 := congrArg (·.vectorPartsOf s.cur) hc.core
    exact e1.trans (e2.trans e3)
  case threads =>
    intro j hj
    have hju : j ≠ u.tid := hc.tid_eq ▸ hj
    rw [ho.threads j (hvt ▸ hju), hp.threads j hju]
  case done =>
    refine ⟨hd.ready, hd.pc.trans ?_, hd.time.trans ?_⟩
    · rw [show v.thr.pc = u.thr.pc by rw [hp.thread], hc.pc]
    · rw [hvcyc, hc.cyc_eq]
  case thread =>
    have e1 := congrArg (fun (x : Thread) => ({ x with
      v := v.thr.v, ctl := { v.thr.ctl with fflags := v.thr.ctl.fflags ||| (ActiveFlags w n k f).setWidth 64 } } : Thread)) hc.thread
    rw [htv, hh, hp.thread]
    dsimp only at e1 ⊢
    rw [show Flagged s (ActiveFlags w n k f) = { v.thr.ctl with fflags := v.thr.ctl.fflags ||| (ActiveFlags w n k f).setWidth 64 } by
      rw [Flagged, hvctl]]
    rw [show s.thr.ctl.seed = v.thr.ctl.seed by rw [hvctl], show u.thr.ctl = v.thr.ctl by rw [hvctl, hc.ctl_eq]]
    exact e1

end Sys2Proof.Machine
end

section
/-! SUPPORT. The checks of an instruction that names vector registers, of a range of LM and of the lanes of a vector (R78, R117, R137, R138, R147). -/

namespace Sys2Proof.Machine

/-! ### The first trap of several checks (R78) -/

theorem trapIf_of_true {c : Bool} (h : c = true) (cause : Nat) (v : Word) : trapIf c cause v = some (cause, v) := by rw [trapIf, h]; rfl
theorem trapIf_of_false {c : Bool} (h : c = false) (cause : Nat) (v : Word) : trapIf c cause v = none := by rw [trapIf, h]; rfl
@[simp] theorem firstTrap_cons_none (l : List (Option TrapOf)) : firstTrap (none :: l) = firstTrap l := rfl
theorem firstTrap_eq_none {l : List (Option TrapOf)} (h : ∀ x ∈ l, x = none) : firstTrap l = none := by
  induction l with
  | nil => rfl
  | cons x l ih =>
    obtain ⟨rfl, hl⟩ := List.forall_mem_cons.1 h
    exact ih hl
theorem firstTrap_append {l : List (Option TrapOf)} (h : ∀ x ∈ l, x = none) (t : TrapOf) (m : List (Option TrapOf)) :
    firstTrap (l ++ some t :: m) = some t := by
  induction l with
  | nil => rfl
  | cons x l ih =>
    obtain ⟨rfl, hl⟩ := List.forall_mem_cons.1 h
    exact ih hl

/-! ### Instructions that name vector registers (R117, R119) -/

section
variable {s : State} {reads writes : List VCode} {early late : Option TrapOf} {k : State → Res}

theorem withWindows_of_early {c : Nat} {v : Word} (h : early = some (c, v)) : withWindows reads writes early late s k = .next (s.trapSt c v) := by
  rw [withWindows, h]; rfl
theorem withWindows_of_late {c : Nat} {v : Word} (he : early = none) (hb : s.holderBad (reads ++ writes) = none) (h : late = some (c, v)) :
    withWindows reads writes early late s k = .next (s.trapSt c v) := by
  rw [withWindows, he, hb, h]; rfl
theorem withWindows_of_ready (h : WinReady s reads writes) (he : early = none) (hl : late = none) :
    withWindows reads writes early late s k = k (s.claim reads writes) := by
  obtain ⟨hb, hw, hd⟩ := h
  rw [withWindows, he, hb, hl]
  show (match s.winBlocked reads writes with | some c => _ | none => _) = _
  rw [hw, hd]; rfl

end

/-- A window that an instruction reads is Full where nothing blocks it. -/
theorem winState_full_of_ready {s : State} {reads writes : List VCode} (h : WinReady s reads writes) {b : VCode} (hb : b ∈ reads)
    (hw : isWin b = true) : s.cur.winState b.toNat = .full := by
  obtain ⟨-, hblock, -⟩ := h
  have hm : b.toNat ∈ winCodes reads := List.mem_map.2 ⟨b, List.mem_filter.2 ⟨hb, hw⟩, rfl⟩
  unfold State.winBlocked at hblock
  split at hblock
  · cases hblock
  · next hn => simpa using List.find?_eq_none.1 hn _ hm

/-! ### Ranges of LM (R137, R138) -/

/-- A byte that a thread may not access. -/
def LmBarred (ok : Nat → Bool) (q : Nat) : Prop := 0x40000 ≤ q ∨ ok (q / 512) = false

/-- The blocks of a range. -/
theorem mem_blocks {a n b : Nat} (h : b ∈ (List.range ((a + n - 1) / 512 + 1 - a / 512)).map (· + a / 512)) :
    a / 512 ≤ b ∧ b ≤ (a + n - 1) / 512 := by
  obtain ⟨i, hi, rfl⟩ := List.mem_map.1 h
  have := List.mem_range.1 hi
  omega
theorem lmFail_eq_none {ok : Nat → Bool} {a n : Nat} (h : ∀ q, a ≤ q → q < a + n → ¬ LmBarred ok q) : lmFail ok a n = none := by
  unfold lmFail
  by_cases hn : n = 0
  · rw [if_pos hn]
  rw [if_neg hn, List.find?_eq_none.2 fun b hb => ?_]
  · rfl
  obtain ⟨h1, h2⟩ := mem_blocks hb
  have hq : max a (b * 512) / 512 = b := by omega
  have := h (max a (b * 512)) (by omega) (by omega)
  rw [LmBarred, hq, not_or] at this
  simp only [Bool.or_eq_true, decide_eq_true_eq, Bool.not_eq_true', not_or]
  exact ⟨by omega, this.2⟩
/-- The lowest byte at fault. -/
theorem lmFail_of_first {ok : Nat → Bool} {a n q : Nat} (h1 : a ≤ q) (h2 : q < a + n) (hb : LmBarred ok q)
    (hlow : ∀ r, a ≤ r → r < q → ¬ LmBarred ok r) : lmFail ok a n = some q := by
  unfold lmFail
  rw [if_neg (by omega)]
  have hfind : ((List.range ((a + n - 1) / 512 + 1 - a / 512)).map (· + a / 512)).find? (fun b => decide (b ≥ 512) || !ok b) = some (q / 512) := by
    rw [List.find?_map, Option.map_eq_some_iff]
    refine ⟨q / 512 - a / 512, List.find?_range_eq_some.2 ⟨?_, List.mem_range.2 (by omega), fun j hj => ?_⟩, by omega⟩
    · rw [Function.comp, show q / 512 - a / 512 + a / 512 = q / 512 by omega, Bool.or_eq_true, decide_eq_true_eq, Bool.not_eq_true']
      exact hb.imp (by omega) id
    · have hr := hlow (max a ((j + a / 512) * 512)) (by omega) (by omega)
      rw [LmBarred, show max a ((j + a / 512) * 512) / 512 = j + a / 512 by omega, not_or, Bool.not_eq_false] at hr
      rw [Function.comp, hr.2, decide_eq_false (by omega)]
      rfl
  rw [hfind, Option.map_some]
  congr 1
  rcases Nat.eq_or_lt_of_le h1 with rfl | h
  · omega
  · have hr := hlow (q - 1) (by omega) (by omega)
    rw [LmBarred, not_or] at hr
    rcases hb with hb | hb
    · omega
    · have hne : (q - 1) / 512 ≠ q / 512 := fun e => hr.2 (e ▸ hb)
      omega

section
variable {s : State} {write : Bool} {a n : Nat}

theorem lmTrap_eq_none (h : ∀ q, a ≤ q → q < a + n → ¬ LmBarred (s.cur.lmAllowed s.tid write) q) : s.lmTrap write a n = none := by
  rw [State.lmTrap, Core.lmCheck, lmFail_eq_none h]; rfl
theorem lmTrap_of_first {q : Nat} (h1 : a ≤ q) (h2 : q < a + n) (hb : LmBarred (s.cur.lmAllowed s.tid write) q)
    (hlow : ∀ r, a ≤ r → r < q → ¬ LmBarred (s.cur.lmAllowed s.tid write) r) : s.lmTrap write a n = some (lmProtection, word q) := by
  rw [State.lmTrap, Core.lmCheck, lmFail_of_first h1 h2 hb hlow]; rfl
theorem not_barred_of_lmMay (h : LmMay s write a n) {q : Nat} (h1 : a ≤ q) (h2 : q < a + n) : ¬ LmBarred (s.cur.lmAllowed s.tid write) q := by
  obtain ⟨hr, hok, -⟩ := h
  rintro (hb | hb)
  · omega
  · rw [hok q h1 h2] at hb; cases hb
theorem lmTrap_of_lmMay (h : LmMay s write a n) : s.lmTrap write a n = none := lmTrap_eq_none fun _ h1 h2 => not_barred_of_lmMay h h1 h2
theorem lmDamage_of_lmMay (h : LmMay s false a n) : s.lmDamage a n = none := by
  obtain ⟨-, -, hd⟩ := h
  rw [State.lmDamage, Core.lmBad]
  split
  · rfl
  · rw [List.find?_eq_none.2 fun b hb => ?_]
    · rfl
    obtain ⟨i, hi, rfl⟩ := List.mem_map.1 hb
    have := hd rfl (i + a) (by omega) (by have := List.mem_range.1 hi; omega)
    simpa using this
theorem word_toNat (x : Word) : word x.toNat = x := by rw [word, BitVec.ofNat_toNat, BitVec.setWidth_eq]
theorem word_add (x : Word) (j : Nat) : word (x.toNat + j) = x + word j := by rw [word, BitVec.ofNat_add, ← word, word_toNat]

end

/-! ### What LM reads as -/

theorem lmRead_eq (c : Core) (a n : Nat) : c.lmRead a n = natOfBytes ((List.range n).map (fun j => memGet lmDefault c.lm (a + j))) := by
  have h : ∀ n a, memRead lmDefault c.lm a n = (List.range n).map (fun j => memGet lmDefault c.lm (a + j)) := by
    intro n
    induction n with
    | zero => intro a; rfl
    | succ n ih =>
      intro a
      rw [memRead, ih, List.range_succ_eq_map, List.map_cons, List.map_map, Nat.add_zero]
      refine congrArg (_ :: ·) (List.map_congr_left fun j _ => ?_)
      rw [Function.comp, Nat.add_assoc, Nat.add_comm 1 j]
  rw [Core.lmRead, h]
theorem natOfBytes_digit {l : List Byte} {j : Nat} (h : j < l.length) : natOfBytes l / 2 ^ (8 * j) % 256 = l[j].toNat := by
  induction l generalizing j with
  | nil => exact absurd h (Nat.not_lt_zero j)
  | cons b l ih =>
    have hb := b.isLt
    cases j with
    | zero => simp only [natOfBytes, List.getElem_cons_zero, Nat.mul_zero, Nat.pow_zero, Nat.div_one]; omega
    | succ j =>
      have hx : (b.toNat + 256 * natOfBytes l) / 2 ^ 8 = natOfBytes l := by omega
      rw [natOfBytes, Nat.mul_succ, Nat.add_comm (8 * j) 8, Nat.pow_add, ← Nat.div_div_eq_div_mul, hx, List.getElem_cons_succ]
      exact ih (by simpa using h)
theorem natOfBytes_lt (l : List Byte) : natOfBytes l < 256 ^ l.length := by
  induction l with
  | nil => exact Nat.one_pos
  | cons b l ih =>
    have hb := b.isLt
    rw [natOfBytes, List.length_cons, Nat.pow_succ]
    omega
theorem lmRead_digit (s : State) (a : Nat) {n j : Nat} (h : j < n) : s.cur.lmRead a n / 2 ^ (8 * j) % 256 = (LmByte s (a + j)).toNat := by
  rw [lmRead_eq, natOfBytes_digit (by simpa using h)]
  simp only [List.getElem_map, List.getElem_range]
  rfl

/-! ### Lanes (R147) -/

theorem filter_range_split {n i : Nat} (hi : i < n) {p : Nat → Bool} (hp : p i = true) :
    ∃ l, (List.range n).filter p = (List.range i).filter p ++ i :: l := by
  obtain ⟨m, rfl⟩ : ∃ m, n = i + (m + 1) := ⟨n - i - 1, by omega⟩
  rw [List.range_add, List.filter_append, List.range_succ_eq_map, List.map_cons, List.filter_cons_of_pos (by simpa using hp)]
  exact ⟨_, rfl⟩
/-- The lanes of an instruction, by the address that each holds. -/
def lanesAt (ty : ElemTy) (k : Mask) (at_ : Nat → Word) : List (Nat × Word) :=
  ((List.range 64).filter (active k ty.width)).map (fun i => (i, at_ i))
theorem mem_lanesAt {ty : ElemTy} {k : Mask} {at_ : Nat → Word} {e : Nat × Word} (h : e ∈ lanesAt ty k at_) :
    e.1 < 64 ∧ active k ty.width e.1 = true ∧ e.2 = at_ e.1 := by
  obtain ⟨i, hi, rfl⟩ := List.mem_map.1 h
  obtain ⟨h1, h2⟩ := List.mem_filter.1 hi
  exact ⟨List.mem_range.1 h1, h2, rfl⟩
theorem firstLaneTrap_eq_none {l : List (Nat × Word)} {f : Word → Option TrapOf} (h : ∀ e ∈ l, f e.2 = none) : firstLaneTrap l f = none :=
  firstTrap_eq_none fun x hx => by
    obtain ⟨e, he, rfl⟩ := List.mem_map.1 hx
    exact h e he
/-- The lowest lane that fails decides. -/
theorem firstLaneTrap_of_first {ty : ElemTy} {k : Mask} {at_ : Nat → Word} {f : Word → Option TrapOf} {i : Nat} {t : TrapOf} (hi : i < 64)
    (ha : active k ty.width i = true) (ht : f (at_ i) = some t) (hlow : ∀ j, j < i → active k ty.width j = true → f (at_ j) = none) :
    firstLaneTrap (lanesAt ty k at_) f = some t := by
  obtain ⟨l, hl⟩ := filter_range_split hi ha
  rw [firstLaneTrap, lanesAt, hl, List.map_append, List.map_append, List.map_cons, List.map_cons, ht]
  refine firstTrap_append (fun x hx => ?_) t _
  obtain ⟨e, he, rfl⟩ := List.mem_map.1 hx
  obtain ⟨j, hj, rfl⟩ := List.mem_map.1 he
  obtain ⟨h1, h2⟩ := List.mem_filter.1 hj
  exact hlow j (List.mem_range.1 h1) h2
theorem indexLanes_eq {s : State} {b : VCode} (h : isWin b = false ∨ s.cur.winState b.toNat = .full) (ty : ElemTy) (a : Reg) (k : Mask) :
    indexLanes s ty a b k = lanesAt ty k (fun i => s.rd a + word (elem 32 (s.vget b) i)) := by
  unfold indexLanes
  rw [if_neg]
  · rfl
  · rcases h with h | h <;> simp [h]
theorem indexLanes_of_ready {s : State} {reads writes : List VCode} {b : VCode} (h : WinReady s reads writes) (hb : b ∈ reads) (ty : ElemTy)
    (a : Reg) (k : Mask) : indexLanes s ty a b k = lanesAt ty k (fun i => s.rd a + word (elem 32 (s.vget b) i)) := by
  refine indexLanes_eq ?_ ty a k
  cases hw : isWin b with
  | false => exact .inl rfl
  | true => exact .inr (winState_full_of_ready h hb hw)
theorem laneTraps_eq_none {l : List (Nat × Word)} {f : Word → Option TrapOf} (h : firstLaneTrap l f = none) : laneTraps l f = (none, none) := by
  rw [laneTraps, h]
theorem laneTraps_of_misalignment {l : List (Nat × Word)} {f : Word → Option TrapOf} {v : Word} (h : firstLaneTrap l f = some (misalignment, v)) :
    laneTraps l f = (some (misalignment, v), none) := by
  rw [laneTraps, h]; rfl
theorem laneTraps_of_other {l : List (Nat × Word)} {f : Word → Option TrapOf} {c : Nat} {v : Word} (h : firstLaneTrap l f = some (c, v))
    (hc : c ≠ misalignment) : laneTraps l f = (none, some (c, v)) := by
  rw [laneTraps, h]; exact if_neg hc

end Sys2Proof.Machine
end

section
/-! SUPPORT. Vector accesses of local memory (R146, R147): what they check, load and store. -/

namespace Sys2Proof.Machine

theorem vdispAddr_eq (s : State) (a : Reg) (p : BitVec 5) : vdispAddr s a p = s.rd a + BitVec.ofInt 64 (p.toInt * 256) := by
  rw [vdispAddr, BitVec.ofInt_mul]; rfl

/-! ### Checks of 256 bytes (R146) -/

theorem lmVectorRange_eq_none {x : Word} (h : x.toNat + 256 ≤ 0x40000) : lmVectorRange x = none := trapIf_of_false (decide_eq_false (by omega)) ..
theorem lmVectorRange_of_far {x : Word} (h : 0x40000 < x.toNat + 256) : lmVectorRange x = some (lmProtection, x) :=
  trapIf_of_true (decide_eq_true (by omega)) ..
theorem mem_activeBytes {k : Mask} {j : Nat} : j ∈ activeBytes k ↔ j < 256 ∧ k.getLsbD j = true := by simp [activeBytes]
theorem lmBytesTrap_eq_none {s : State} {write : Bool} {a : Nat} {k : Mask}
    (h : ∀ j, j < 256 → k.getLsbD j = true → s.cur.lmAllowed s.tid write ((a + j) / 512) = true) : lmBytesTrap s write a k = none := by
  unfold lmBytesTrap
  split
  · rfl
  · rw [List.find?_eq_none.2 fun j hj => ?_]
    · rfl
    obtain ⟨h1, h2⟩ := mem_activeBytes.1 hj
    simpa using h j h1 h2
/-- The lowest active byte that fails. -/
theorem lmBytesTrap_of_first {s : State} {write : Bool} {a : Nat} {k : Mask} (hr : a + 256 ≤ 0x40000) {j : Nat} (hj : j < 256)
    (hk : k.getLsbD j = true) (hb : ¬ s.cur.lmAllowed s.tid write ((a + j) / 512) = true)
    (hlow : ∀ q, q < j → k.getLsbD q = true → s.cur.lmAllowed s.tid write ((a + q) / 512) = true) :
    lmBytesTrap s write a k = some (lmProtection, word (a + j)) := by
  have hc : s.cur.lmCheck s.tid write a 256 ≠ none := by
    unfold Core.lmCheck lmFail
    rw [if_neg (by decide), Ne, Option.map_eq_none_iff, List.find?_eq_none]
    intro g
    have hm : (a + j) / 512 ∈ (List.range ((a + 256 - 1) / 512 + 1 - a / 512)).map (· + a / 512) :=
      List.mem_map.2 ⟨(a + j) / 512 - a / 512, List.mem_range.2 (by omega), by omega⟩
    have := g _ hm
    simp only [Bool.or_eq_true, Bool.not_eq_true', not_or, Bool.not_eq_false] at this
    exact hb this.2
  unfold lmBytesTrap
  split
  · next h => exact absurd h hc
  · rw [show (activeBytes k).find? (fun j => !s.cur.lmAllowed s.tid write ((a + j) / 512)) = some j from ?_]
    · rfl
    obtain ⟨l, hl⟩ := filter_range_split hj hk
    rw [activeBytes, hl, List.find?_append, List.find?_eq_none.2 fun q hq => ?_, Option.none_or, List.find?_cons_of_pos (by simpa using hb)]
    obtain ⟨h1, h2⟩ := List.mem_filter.1 hq
    simpa using hlow q (List.mem_range.1 h1) h2

/-! ### Loads -/

/-- VLDL has no active byte on damaged memory. -/
theorem damagedByte_eq_none {s : State} {x : Word} {k : Mask} (h : ∀ j, j < 256 → k.getLsbD j = true → x.toNat + j ∉ s.cur.badLm) :
    (if s.cur.badLm.isEmpty then none
      else ((activeBytes k).find? (fun j => s.cur.badLm.contains (x.toNat + j))).map (fun j => (dataError, x + word j))) = none := by
  split
  · rfl
  · rw [List.find?_eq_none.2 fun j hj => ?_]
    · rfl
    obtain ⟨h1, h2⟩ := mem_activeBytes.1 hj
    simpa using h j h1 h2
/-- A write of active elements after the claim of its windows is what `VecRuns` says. -/
theorem vecRuns_of_vwrite {s : State} (h : s.Placed) {i : Instr} {reads : List VCode} {d : VCode} (hv : vOk d = true) {w n m : Nat}
    (hn : n ≤ lanes w) {k : Mask} {f : Nat → Fl} (he : exec i s = ((s.claim reads [d]).vwrite d w n k f).next m) :
    VecRuns i s reads m d w n k f :=
  ⟨_, completes_of_next he, wroteVec_vwrite h (claims_claim h reads [d]) hv hn m k f⟩
theorem vldl_runs {s : State} (h : s.Placed) {d : VCode} {a : Reg} {p : BitVec 5} {m : MaskReg} (hwf : (Instr.vldl d a p m).wf = true)
    (hw : WinReady s [] [d]) {x : Word} (hx : vdispAddr s a p = x) (hal : x.toNat % 4 = 0) (hr : x.toNat + 256 ≤ 0x40000)
    (hok : ∀ j, j < 256 → (s.mask m).getLsbD j = true → s.cur.lmAllowed s.tid false ((x.toNat + j) / 512) = true ∧ x.toNat + j ∉ s.cur.badLm) :
    VecRuns (.vldl d a p m) s [] 8 d 8 256 (s.mask m) (fun j => ⟨(LmByte s (x.toNat + j)).toNat, 0⟩) := by
  refine vecRuns_of_vwrite h hwf (by decide) ?_
  show execVldl d a p m s = _
  unfold execVldl
  rw [hx]
  refine (withWindows_of_ready hw (trapIf_of_false (by simp [hal]) ..) ?_).trans ?_
  · rw [lmVectorRange_eq_none hr, lmBytesTrap_eq_none fun j h1 h2 => (hok j h1 h2).1, damagedByte_eq_none fun j h1 h2 => (hok j h1 h2).2]
    rfl
  · refine congrArg (fun u : State => u.next 8) (vwrite_congr _ d fun j hj _ => ?_)
    rw [lmRead_digit s _ hj]

/-- The addresses of the lanes of a local gather or scatter may be accessed. -/
def LanesMay (s : State) (write : Bool) (n : Nat) (l : List (Nat × Word)) : Prop := ∀ e ∈ l, e.2.toNat % n = 0 ∧ LmMay s write e.2.toNat n
/-- The checks that each lane of a local gather or scatter is put to (R147). -/
def laneCheck (s : State) (write : Bool) (n : Nat) (x : Word) : Option TrapOf := firstTrap [laneAlign n x, laneProtect s write n x]
theorem laneAlign_of_aligned {n : Nat} {x : Word} (h : x.toNat % n = 0) : laneAlign n x = none := trapIf_of_false (by simp [h]) ..
theorem laneAlign_of_misaligned {n : Nat} {x : Word} (h : x.toNat % n ≠ 0) : laneAlign n x = some (misalignment, x) := trapIf_of_true (by simp [h]) ..
theorem laneCheck_of_misaligned {s : State} {write : Bool} {n : Nat} {x : Word} (h : x.toNat % n ≠ 0) :
    laneCheck s write n x = some (misalignment, x) := by
  rw [laneCheck, laneAlign_of_misaligned h]; rfl
theorem laneCheck_of_aligned {s : State} {write : Bool} {n : Nat} {x : Word} (h : x.toNat % n = 0) :
    laneCheck s write n x = laneProtect s write n x := by
  rw [laneCheck, laneAlign_of_aligned h, firstTrap_cons_none]
  cases laneProtect s write n x <;> rfl
theorem laneProtect_of_lmMay {s : State} {write : Bool} {n : Nat} {x : Word} (h : LmMay s write x.toNat n) : laneProtect s write n x = none := by
  have hr := h.1
  rw [laneProtect, trapIf_of_false (decide_eq_false (by omega)), lmTrap_of_lmMay h]; rfl
theorem laneTraps_of_lanesMay {s : State} {write : Bool} {n : Nat} {l : List (Nat × Word)} (h : LanesMay s write n l) :
    laneTraps l (laneCheck s write n) = (none, none) :=
  laneTraps_eq_none (firstLaneTrap_eq_none fun e he => (laneCheck_of_aligned (h e he).1).trans (laneProtect_of_lmMay (h e he).2))
/-- A register has at least 64 elements of each type. -/
theorem le_lanes (ty : ElemTy) : 64 ≤ lanes ty.width := by cases ty <;> decide
theorem vgthl_runs {s : State} (h : s.Placed) {ty : ElemTy} {d b : VCode} {a : Reg} {m : MaskReg} (hwf : (Instr.vgthl ty d a b m).wf = true)
    (hw : WinReady s [b] [d]) (hok : LanesMay s false (ty.width / 8) (lanesAt ty (s.mask m) fun i => s.rd a + word (elem 32 (s.vget b) i))) :
    VecRuns (.vgthl ty d a b m) s [b] 16 d ty.width 64 (s.mask m) (fun i =>
      ⟨s.cur.lmRead (s.rd a + word (elem 32 (s.vget b) i)).toNat (ty.width / 8), 0⟩) := by
  have hv : (ty.isW && vOk d && vOk b) = true := hwf
  simp only [Bool.and_eq_true] at hv
  obtain ⟨⟨-, hd⟩, -⟩ := hv
  refine vecRuns_of_vwrite h hd (le_lanes ty) ?_
  have ht := laneTraps_of_lanesMay hok
  show execVgthl ty d a b m s = _
  unfold execVgthl
  dsimp only
  rw [indexLanes_of_ready hw (List.mem_singleton_self b)]
  refine withWindows_of_ready hw (congrArg Prod.fst ht) ?_
  rw [firstLaneTrap_eq_none fun e he => lmDamage_of_lmMay (hok e he).2]
  exact congrArg (fun c => firstTrap [c, none]) (congrArg Prod.snd ht)
theorem loadLocalVector : Rules.LoadLocalVector := by
  intro s ty d b a p m h x k n at_
  refine ⟨fun hwf hw hal hr hok => vldl_runs h hwf hw (vdispAddr_eq s a p) hal hr hok, fun hwf hw hok => ?_⟩
  have hl : LanesMay s false n (lanesAt ty k fun i => s.rd a + word (elem 32 (s.vget b) i)) := fun e he => by
    obtain ⟨h1, h2, h3⟩ := mem_lanesAt he
    rw [h3]; exact hok e.1 h1 h2
  have := vgthl_runs h hwf hw hl
  simp only [lmRead_eq] at this
  exact this

/-! ### Stores -/

/-- Of a core, bytes of LM and the marks of damaged bytes have changed, and threads have been woken. -/
structure Core.StoresLm (c d : Core) : Prop where
  rest : ({ d with threads := c.threads, lm := c.lm, badLm := c.badLm, spills := c.spills } : Core) = c
  threads : ∀ j, d.thr j = c.thr j ∨ d.thr j = (c.thr j).wakeUp
/-- Waking threads after bytes were written. -/
theorem storesLm_wakeIf {c d : Core} (hr : ({ d with lm := c.lm, badLm := c.badLm } : Core) = c) (p : Nat → Park → Bool) :
    c.StoresLm (d.wakeIf p) := by
  have hw := woken_wakeBy d fun t _ w => p t w
  unfold Core.wakeIf
  generalize d.wakeBy _ = e at hw
  have hthr : d.threads = c.threads := by have := congrArg Core.threads hr; exact this
  have hspill : d.spills = c.spills := by have := congrArg Core.spills hr; exact this
  constructor
  case rest =>
    have g := congrArg (fun (x : Core) => ({ x with lm := c.lm, badLm := c.badLm } : Core)) hw.rest
    rw [← hthr, ← hspill]
    exact g.trans hr
  case threads =>
    intro j
    rw [show c.thr j = d.thr j by rw [Core.thr, Core.thr, hthr]]
    exact hw.threads j
theorem lm_wakeIf_eq (d : Core) (p : Nat → Park → Bool) : (d.wakeIf p).lm = d.lm := by
  have hw := congrArg Core.lm (woken_wakeBy d fun t _ w => p t w).rest
  unfold Core.wakeIf
  generalize d.wakeBy _ = e at hw ⊢
  exact hw

/-- What a store to LM keeps: everything outside its core, and what its own thread and its windows hold. -/
structure State.KeepsAllButLm (s t : State) : Prop where
  package : ({ t with cores := s.cores } : State) = s
  cores : ∀ c, c ≠ s.core → t.coreAt c = s.coreAt c
  thread : t.thr.holds = s.thr.holds
  vregs : ∀ c, t.vget c = s.vget c
theorem lm_of_claims {s u : State} (h : s.Claims u) : u.cur.lm = s.cur.lm := by
  have := congrArg Core.lm h.core; exact this
/-- A store to LM after the claim of its windows, then completion. -/
theorem storesLm_goOn {s u : State} (h : s.Placed) (hc : s.Claims u) {f : Core → Core} (hf : u.cur.StoresLm (f u.cur)) (n : Nat) :
    s.Done ((u.updCur f).goOn n) n ∧ s.KeepsAllButLm ((u.updCur f).goOn n) ∧
      ∀ q, LmByte ((u.updCur f).goOn n) q = memGet lmDefault (f u.cur).lm q := by
  have hp : (u.updCur f).Placed := show u.tid < 16 from hc.tid_eq ▸ h
  have hcur : (u.updCur f).cur = f u.cur := cur_updCur u f
  have hthr : (u.updCur f).thr = u.thr ∨ (u.updCur f).thr = u.thr.wakeUp := by
    rw [State.thr, hcur]; exact hf.threads u.tid
  have hholds : (u.updCur f).thr.holds = u.thr.holds := by
    rcases hthr with e | e <;> rw [e]
    exact holds_wakeUp _
  have hpc : (u.updCur f).thr.pc = u.thr.pc := by
    rcases hthr with e | e <;> rw [e]
    exact pc_wakeUp _
  have hcyc : (f u.cur).cyc = u.cur.cyc := by have := congrArg Core.cyc hf.rest; exact this
  have hwin : (f u.cur).windows = u.cur.windows := by have := congrArg Core.windows hf.rest; exact this
  have ho := onlyThread_goOn (u.updCur f) n
  have hh : ((u.updCur f).goOn n).thr.holds = u.thr.holds := by rw [goOn_thr _ n hp]; exact hholds
  refine ⟨done_goOn_of_eq n hp (hpc.trans hc.pc) ?_, ⟨?_, fun c hne => ?_, hh.trans hc.thread, fun c => ?_⟩, fun q => ?_⟩
  · rw [hcur, hcyc, hc.cyc_eq]
  · have e := congrArg (fun (x : State) => ({ x with cores := s.cores } : State)) ho.package
    exact e.trans hc.package
  · have hu : c ≠ u.core := hc.core_eq ▸ hne
    rw [ho.cores c hu, coreAt_updCur_ne u f hu, hc.cores c hne]
  · rw [← hc.vregs c]
    have e := congrArg Core.windows ho.core
    have ev := congrArg Thread.v hh
    refine vget_congr ev (fun i => ?_) c
    rw [show ((u.updCur f).goOn n).cur.windows = _ from e, hcur, hwin]
  · have e := congrArg Core.lm ho.core
    rw [LmByte, show ((u.updCur f).goOn n).cur.lm = _ from e, hcur]

/-- The bytes that VSTL puts into LM: the active ones of its register, the others as they are. -/
def maskedBytes (c : Core) (a : Nat) (k : Mask) (x : VReg) : List Byte :=
  (List.range 256).map (fun j => if k.getLsbD j then vbyte x j else (c.lmBytes a 256).getD j 0)
theorem lmPutMasked_eq (c : Core) (a : Nat) (k : Mask) (x : VReg) : c.lmPutMasked a k x =
    { c.lmPut a (maskedBytes c a k x) with badLm := c.badLm.filter (fun b => !(a ≤ b && b < a + 256 && k.getLsbD (b - a))) } := rfl
theorem lm_lmPut_eq (c : Core) (a : Nat) (l : List Byte) : (c.lmPut a l).lm = memWrite lmDefault c.lm a l := by
  unfold Core.lmPut
  rw [lm_wakeIf_eq]; rfl
theorem storesLm_lmPut (c : Core) (a : Nat) (l : List Byte) : c.StoresLm (c.lmPut a l) := by
  unfold Core.lmPut
  exact storesLm_wakeIf rfl _
theorem storesLm_lmPutMasked (c : Core) (a : Nat) (k : Mask) (x : VReg) : c.StoresLm (c.lmPutMasked a k x) := by
  have h := storesLm_lmPut c a (maskedBytes c a k x)
  rw [lmPutMasked_eq]
  generalize c.lmPut a _ = d at h
  exact ⟨h.rest, h.threads⟩
theorem memGet_lmPutMasked (c : Core) (a : Nat) (k : Mask) (x : VReg) (q : Nat) : memGet lmDefault (c.lmPutMasked a k x).lm q =
    if a ≤ q ∧ q < a + 256 ∧ k.getLsbD (q - a) = true then vbyte x (q - a) else memGet lmDefault c.lm q := by
  have hlen : (maskedBytes c a k x).length = 256 := by simp [maskedBytes]
  have hm := lm_lmPut_eq c a (maskedBytes c a k x)
  rw [lmPutMasked_eq]
  generalize c.lmPut a _ = d at hm
  rw [hm, memGet_memWrite, hlen]
  by_cases hq : a ≤ q ∧ q < a + 256
  · obtain ⟨j, rfl⟩ := Nat.exists_eq_add_of_le hq.1
    have hj : j < 256 := by omega
    rw [if_pos hq, Nat.add_sub_cancel_left]
    have hget : (maskedBytes c a k x).getD j 0 = if k.getLsbD j then vbyte x j else (c.lmBytes a 256).getD j 0 := by
      simp [maskedBytes, List.getD, List.getElem?_range hj]
    rw [hget, Core.lmBytes, List.getD, memRead_getElem _ _ _ _ _ hj, Option.getD_some]
    by_cases hk : k.getLsbD j = true
    · rw [if_pos hk, if_pos ⟨hq.1, hq.2, hk⟩]
    · rw [if_neg hk, if_neg fun g => hk g.2.2]
  · rw [if_neg hq, if_neg fun g => hq ⟨g.1, g.2.1⟩]
theorem vstl_stores {s : State} (h : s.Placed) {d : VCode} {a : Reg} {p : BitVec 5} {m : MaskReg} (hw : WinReady s [d] []) {x : Word}
    (hx : vdispAddr s a p = x) (hal : x.toNat % 4 = 0) (hr : x.toNat + 256 ≤ 0x40000)
    (hok : ∀ j, j < 256 → (s.mask m).getLsbD j = true → s.cur.lmAllowed s.tid true ((x.toNat + j) / 512) = true) :
    ∃ t, Completes (.vstl d a p m) s t ∧ s.Done t 8 ∧ s.KeepsAllButLm t ∧
      ∀ q, LmByte t q = if x.toNat ≤ q ∧ q < x.toNat + 256 ∧ (s.mask m).getLsbD (q - x.toNat) = true then vbyte (s.vget d) (q - x.toNat)
        else LmByte s q := by
  have he : exec (.vstl d a p m) s = ((s.claim [d] []).updCur (·.lmPutMasked x.toNat (s.mask m) (s.vget d))).next 8 := by
    show execVstl d a p m s = _
    unfold execVstl
    rw [hx]
    refine withWindows_of_ready hw (trapIf_of_false (by simp [hal]) ..) ?_
    rw [lmVectorRange_eq_none hr, lmBytesTrap_eq_none hok]; rfl
  have hc := claims_claim h [d] []
  obtain ⟨hd, hk, hl⟩ := storesLm_goOn h hc (f := (·.lmPutMasked x.toNat (s.mask m) (s.vget d))) (storesLm_lmPutMasked ..) 8
  refine ⟨_, completes_of_next he, hd, hk, fun q => ?_⟩
  rw [hl, memGet_lmPutMasked, lm_of_claims hc]; rfl

theorem bytesOfNat_length (n x : Nat) : (bytesOfNat n x).length = n := by
  induction n generalizing x with
  | zero => rfl
  | succ n ih => rw [bytesOfNat, List.length_cons, ih]
theorem bytesOfNat_getD {n j : Nat} (h : j < n) (x : Nat) : (bytesOfNat n x).getD j 0 = BitVec.ofNat 8 (x / 2 ^ (8 * j)) := by
  induction n generalizing x j with
  | zero => exact absurd h (Nat.not_lt_zero j)
  | succ n ih =>
    cases j with
    | zero => simp [bytesOfNat]
    | succ j =>
      rw [bytesOfNat, List.getD_cons_succ, ih (Nat.lt_of_succ_lt_succ h), Nat.mul_succ, Nat.add_comm (8 * j) 8, Nat.pow_add, Nat.div_div_eq_div_mul]

/-- A lane of VSCTL stores its element. -/
def storeLane (n : Nat) (x : Nat → Nat) (c : Core) (e : Nat × Word) : Core := c.lmStore e.2.toNat (bytesOfNat n (x e.1))
/-- A lane stores the byte at an address. -/
def coversByte (n q : Nat) (e : Nat × Word) : Bool := decide (e.2.toNat ≤ q) && decide (q < e.2.toNat + n)
theorem memGet_storeLane (n : Nat) (x : Nat → Nat) (c : Core) (e : Nat × Word) (q : Nat) : memGet lmDefault (storeLane n x c e).lm q =
    if coversByte n q e then BitVec.ofNat 8 (x e.1 / 2 ^ (8 * (q - e.2.toNat))) else memGet lmDefault c.lm q := by
  rw [storeLane, Core.lmStore, memGet_memWrite, bytesOfNat_length]
  by_cases h : e.2.toNat ≤ q ∧ q < e.2.toNat + n
  · rw [if_pos h, if_pos (by simpa [coversByte] using h), bytesOfNat_getD (by omega)]
  · rw [if_neg h, if_neg (by simpa [coversByte] using h)]
/-- A later lane over an earlier. -/
theorem memGet_storeLanes (n : Nat) (x : Nat → Nat) (c : Core) (l : List (Nat × Word)) (q : Nat) :
    memGet lmDefault (l.foldl (storeLane n x) c).lm q = match (l.filter (coversByte n q)).getLast? with
      | some e => BitVec.ofNat 8 (x e.1 / 2 ^ (8 * (q - e.2.toNat)))
      | none => memGet lmDefault c.lm q := by
  induction l using List.reverseRecOn with
  | nil => rfl
  | append_singleton l e ih =>
    rw [List.foldl_append, List.foldl_cons, List.foldl_nil, memGet_storeLane, ih, List.filter_append]
    by_cases h : coversByte n q e = true
    · rw [if_pos h, List.filter_cons_of_pos h, List.filter_nil, List.getLast?_concat]
    · rw [if_neg h, List.filter_cons_of_neg h, List.filter_nil, List.append_nil]
theorem rest_storeLanes (n : Nat) (x : Nat → Nat) (l : List (Nat × Word)) (c : Core) :
    ({ l.foldl (storeLane n x) c with lm := c.lm, badLm := c.badLm } : Core) = c := by
  induction l generalizing c with
  | nil => rfl
  | cons e l ih =>
    have := congrArg (fun (d : Core) => ({ d with lm := c.lm, badLm := c.badLm } : Core)) (ih (storeLane n x c e))
    exact this
/-- What VSCTL makes of its core. -/
def Core.storeLanes (n : Nat) (x : Nat → Nat) (l : List (Nat × Word)) (c : Core) : Core := (l.foldl (storeLane n x) c).testCounters
theorem storesLm_storeLanes (n : Nat) (x : Nat → Nat) (l : List (Nat × Word)) (c : Core) : c.StoresLm (c.storeLanes n x l) := by
  unfold Core.storeLanes Core.testCounters
  exact storesLm_wakeIf (rest_storeLanes n x l c) _
theorem lm_storeLanes (n : Nat) (x : Nat → Nat) (l : List (Nat × Word)) (c : Core) : (c.storeLanes n x l).lm = (l.foldl (storeLane n x) c).lm := by
  unfold Core.storeLanes Core.testCounters
  rw [lm_wakeIf_eq]
theorem vsctl_stores {s : State} (h : s.Placed) {ty : ElemTy} {d b : VCode} {a : Reg} {m : MaskReg} (hw : WinReady s [d, b] [])
    (hok : LanesMay s true (ty.width / 8) (lanesAt ty (s.mask m) fun i => s.rd a + word (elem 32 (s.vget b) i))) :
    ∃ t, Completes (.vsctl ty d a b m) s t ∧ s.Done t 16 ∧ s.KeepsAllButLm t ∧
      ∀ q, LmByte t q = match ((lanesAt ty (s.mask m) fun i => s.rd a + word (elem 32 (s.vget b) i)).filter
          (coversByte (ty.width / 8) q)).getLast? with
        | some e => BitVec.ofNat 8 (elem ty.width (s.vget d) e.1 / 2 ^ (8 * (q - e.2.toNat)))
        | none => LmByte s q := by
  have ht := laneTraps_of_lanesMay hok
  generalize hl : lanesAt ty (s.mask m) (fun i => s.rd a + word (elem 32 (s.vget b) i)) = l at hok ht ⊢
  have he : exec (.vsctl ty d a b m) s = 
      ((s.claim [d, b] []).updCur (·.storeLanes (ty.width / 8) (elem ty.width (s.vget d)) l)).next 16 := by
    show execVsctl ty d a b m s = _
    unfold execVsctl
    dsimp only
    rw [indexLanes_of_ready hw (List.mem_cons_of_mem d (List.mem_singleton_self b)), hl]
    exact withWindows_of_ready hw (congrArg Prod.fst ht) (congrArg Prod.snd ht)
  have hc := claims_claim h [d, b] []
  obtain ⟨hd, hk, hb⟩ := storesLm_goOn h hc (f := (·.storeLanes (ty.width / 8) (elem ty.width (s.vget d)) l)) (storesLm_storeLanes ..) 16
  refine ⟨_, completes_of_next he, hd, hk, fun q => ?_⟩
  rw [hb, lm_storeLanes, memGet_storeLanes, lm_of_claims hc]; rfl
theorem storeLocalVector : Rules.StoreLocalVector := by
  intro s ty d b a p m h x k n at_ last kept
  have hkept : ∀ {t}, s.KeepsAllButLm t → kept t := fun g => ⟨g.package, g.cores, g.thread, g.vregs⟩
  constructor
  · intro _ hw hal hr hok
    obtain ⟨t, ht, hd, hk, hl⟩ := vstl_stores h hw (vdispAddr_eq s a p) hal hr hok
    exact ⟨t, ht, hd, hkept hk, hl⟩
  · intro _ hw hok
    have hl : LanesMay s true n (lanesAt ty k fun i => s.rd a + word (elem 32 (s.vget b) i)) := fun e he => by
      obtain ⟨h1, h2, h3⟩ := mem_lanesAt he
      rw [h3]; exact hok e.1 h1 h2
    obtain ⟨t, ht, hd, hk, hb⟩ := vsctl_stores h hw hl
    refine ⟨t, ht, hd, hkept hk, fun q => ?_⟩
    rw [hb, lanesAt, List.filter_map, List.getLast?_map, List.filter_filter]
    have hp : (fun i => (coversByte n q ∘ fun i => (i, s.rd a + word (elem 32 (s.vget b) i))) i && active k ty.width i) =
        fun i => active k ty.width i && decide (at_ i ≤ q) && decide (q < at_ i + n) := by
      funext i
      rw [Bool.and_comm, Bool.and_assoc]; rfl
    rw [hp]
    show _ = match last q with | some i => _ | none => _
    cases ho : last q with
    | none => rw [show List.getLast? _ = none from ho]; rfl
    | some i => rw [show List.getLast? _ = some i from ho]; rfl

end Sys2Proof.Machine
end

section
/-! SUPPORT. The load of a decode table (R128) and the checks of the vector accesses to local memory (R78, R138, R146, R147). -/

namespace Sys2Proof.Machine

/-! ### Decode tables (R100, R128) -/

/-- The cell of an entry; an entry 0 has none. -/
def cellOf (g : Nat → Nat) (j : Nat) : Option (Nat × Word32) := if g j = 0 then none else some (j, BitVec.ofNat 32 (g j))
theorem getKey_cells (g : Nat → Nat) (L : List Nat) (i : Nat) :
    getKey (L.filterMap (cellOf g)) i = if i ∈ L ∧ g i ≠ 0 then some (BitVec.ofNat 32 (g i)) else none := by
  induction L with
  | nil => simp [getKey]
  | cons j L ih =>
    by_cases hj : g j = 0
    · rw [List.filterMap_cons_none (show cellOf g j = none from if_pos hj), ih]
      by_cases hi : i = j
      · subst hi; simp [hj]
      · simp [hi]
    · rw [List.filterMap_cons_some (show cellOf g j = some _ from if_neg hj), getKey, ih]
      by_cases hi : j = i
      · subst hi; simp [hj]
      · simp [hi, Ne.symm hi]
theorem tableCells_eq (l : List Nat) : tableCells l = (List.range 256).filterMap (cellOf fun j => l.getD j 0) := rfl
theorem tableAt_tableCells (l : List Nat) {i : Nat} (hi : i < 256) (hl : l.getD i 0 < 2 ^ 32) : tableAt (tableCells l) i = l.getD i 0 := by
  rw [tableAt, tableCells_eq, getKey_cells]
  by_cases h : l.getD i 0 = 0
  · rw [if_neg fun g => g.2 h, h]; rfl
  · rw [if_pos ⟨List.mem_range.2 hi, h⟩, Option.map_some, Option.getD_some, BitVec.toNat_ofNat, Nat.mod_eq_of_lt hl]
/-- The entries that VDTLD reads. -/
def Core.entriesAt (c : Core) (a : Nat) : List Nat := (List.range 256).map (fun i => c.lmRead (a + 4 * i) 4)
theorem entriesAt_getD (c : Core) (a : Nat) {i : Nat} (h : i < 256) : (c.entriesAt a).getD i 0 = c.lmRead (a + 4 * i) 4 := by
  simp [Core.entriesAt, List.getD, List.getElem?_range h]
theorem lmRead_lt (c : Core) (a n : Nat) : c.lmRead a n < 256 ^ n := by
  have := natOfBytes_lt (memRead lmDefault c.lm a n)
  rwa [memRead_length] at this
theorem tableAt_entriesAt (c : Core) (a : Nat) {i : Nat} (h : i < 256) : tableAt (tableCells (c.entriesAt a)) i = c.lmRead (a + 4 * i) 4 := by
  rw [tableAt_tableCells _ h (by rw [entriesAt_getD c a h]; exact lmRead_lt c _ 4), entriesAt_getD c a h]
theorem entriesAt_eq (c : Core) (a : Nat) : (List.range 256).map (tableAt (tableCells (c.entriesAt a))) = c.entriesAt a :=
  List.map_congr_left fun _ hi => tableAt_entriesAt c a (List.mem_range.1 hi)
/-- The core with a table that waits for the end of its interval. -/
def Core.queueTable (a : Nat) (c : Core) : Core :=
  { c with dtNext := c.dtNext ++ [(c.cyc.toNat + 16, tableCells (c.entriesAt a), tableStatus (c.entriesAt a))] }
theorem bits_low {x : Word} (h : x.toNat < 0x40000) : bits x 17 0 = x.toNat := Nat.mod_eq_of_lt h
theorem exec_vdtld {s : State} {a : Reg} (hal : (s.rd a).toNat % 4 = 0) (hok : LmMay s false (s.rd a).toNat 1024) :
    exec (.vdtld a) s = (s.updCur (·.queueTable (s.rd a).toNat)).next 16 := by
  have hlt : (s.rd a).toNat < 0x40000 := by have := hok.1; omega
  have hc : firstTrap [trapIf ((s.rd a).toNat % 4 ≠ 0) misalignment (s.rd a), trapIf (bits (s.rd a) 63 18 ≠ 0) operandInvalid (s.rd a),
      s.lmTrap false (bits (s.rd a) 17 0) 1024, s.lmDamage (bits (s.rd a) 17 0) 1024] = none := by
    rw [bits_low hlt, trapIf_of_false (by simp [hal]), trapIf_of_false (by simp [(toNat_lt_iff_bits (s.rd a) (n := 18) (by decide)).1 hlt]),
      lmTrap_of_lmMay hok, lmDamage_of_lmMay hok]
    rfl
  show execVdtld a s = _
  unfold execVdtld
  dsimp only
  rw [hc, bits_low hlt]
  refine congrArg (fun u : State => u.next 16) (updCur_congr s ?_)
  rfl
theorem decodeTableLoad : Rules.DecodeTableLoad := by
  intro s a h hal hok
  have hcur : (s.updCur (·.queueTable (s.rd a).toNat)).cur = s.cur.queueTable (s.rd a).toNat := cur_updCur s _
  have hthr : (s.updCur (·.queueTable (s.rd a).toNat)).thr = s.thr := by rw [State.thr, hcur]; rfl
  have hp : (s.updCur (·.queueTable (s.rd a).toNat)).Placed := h
  have ho := onlyThread_goOn (s.updCur (·.queueTable (s.rd a).toNat)) 16
  have hcore := ho.core
  rw [hcur] at hcore
  refine ⟨_, tableCells (s.cur.entriesAt (s.rd a).toNat), completes_of_next (exec_vdtld hal hok), done_goOn_of_eq 16 hp (by rw [hthr]) ?_,
    ?_, ?_, ?_, fun i hi => ?_, ?_⟩
  · rw [hcur]; rfl
  · rw [goOn_thr _ 16 hp, hthr]; rfl
  · have := congrArg Core.dtable hcore; exact this
  · have := congrArg Core.dtab hcore; exact this
  · rw [tableAt_entriesAt _ _ hi, lmRead_eq]; rfl
  · rw [entriesAt_eq]; exact hcore

/-! ### Traps -/

theorem not_barred_of_allowed {s : State} {w : Bool} {q : Nat} (hr : q < 0x40000) (h : s.cur.lmAllowed s.tid w (q / 512) = true) :
    ¬ LmBarred (s.cur.lmAllowed s.tid w) q := by
  rintro (hb | hb)
  · omega
  · rw [h] at hb; cases hb
theorem firstTrap_of_head {x : Option TrapOf} {t : TrapOf} (h : x = some t) (l : List (Option TrapOf)) : firstTrap (x :: l) = some t := by
  rw [h]; rfl
/-- The checks of VLDL and VSTL (R146), whatever comes behind the blocks. -/
theorem vectorAccess_traps {s : State} {reads writes : List VCode} {x : Word} {w : Bool} {k : Mask} {rest : List (Option TrapOf)}
    {f : State → Res} {e : State → Res}
    (he : e s = withWindows reads writes (trapIf (x.toNat % 4 ≠ 0) misalignment x)
      (firstTrap (lmVectorRange x :: lmBytesTrap s w x.toNat k :: rest)) s f) :
    (x.toNat % 4 ≠ 0 → e s = .next (s.trapSt 0x02 x)) ∧
    (x.toNat % 4 = 0 → s.holderBad (reads ++ writes) = none → 0x40000 < x.toNat + 256 → e s = .next (s.trapSt 0x04 x)) ∧
    ∀ j, x.toNat % 4 = 0 → s.holderBad (reads ++ writes) = none → x.toNat + 256 ≤ 0x40000 → j < 256 → k.getLsbD j = true →
      ¬ s.cur.lmAllowed s.tid w ((x.toNat + j) / 512) = true →
      (∀ q, q < j → k.getLsbD q = true → s.cur.lmAllowed s.tid w ((x.toNat + q) / 512) = true) → e s = .next (s.trapSt 0x04 (x + word j)) := by
  have halign : x.toNat % 4 = 0 → trapIf (x.toNat % 4 ≠ 0) misalignment x = none := fun h => trapIf_of_false (by simp [h]) ..
  refine ⟨fun h => ?_, fun h hb hr => ?_, fun j h hb hr hj hk hbad hlow => ?_⟩
  · rw [he]; exact withWindows_of_early (trapIf_of_true (by simp [h]) ..)
  · rw [he]; exact withWindows_of_late (halign h) hb (by rw [lmVectorRange_of_far hr]; rfl)
  · rw [he, ← word_add]
    refine withWindows_of_late (halign h) hb ?_
    rw [lmVectorRange_eq_none hr, lmBytesTrap_of_first hr hj hk hbad hlow]; rfl
/-- An aligned lane that may be accessed at its address passes its check. -/
theorem laneCheck_eq_none {s : State} {w : Bool} {n : Nat} (hn : n = 1 ∨ n = 2 ∨ n = 4) {x : Word} (hal : x.toNat % n = 0)
    (hr : x.toNat + n ≤ 0x40000) (hok : s.cur.lmAllowed s.tid w (x.toNat / 512) = true) : laneCheck s w n x = none := by
  rw [laneCheck_of_aligned hal, laneProtect, trapIf_of_false (decide_eq_false (by omega)), lmTrap_eq_none fun q h1 h2 => ?_]
  · rfl
  refine not_barred_of_allowed (by omega) ?_
  rw [show q / 512 = x.toNat / 512 by rcases hn with rfl | rfl | rfl <;> omega]
  exact hok
theorem laneCheck_of_barred {s : State} {w : Bool} {n : Nat} (hn : n = 1 ∨ n = 2 ∨ n = 4) {x : Word} (hal : x.toNat % n = 0)
    (h : 0x40000 < x.toNat + n ∨ ¬ s.cur.lmAllowed s.tid w (x.toNat / 512) = true) : laneCheck s w n x = some (lmProtection, x) := by
  rw [laneCheck_of_aligned hal, laneProtect]
  by_cases hr : 0x40000 < x.toNat + n
  · rw [trapIf_of_true (decide_eq_true (by omega))]; rfl
  · rw [trapIf_of_false (decide_eq_false (by omega)), lmTrap_of_first (q := x.toNat) (by omega) (by omega) (.inr (by simpa using h.resolve_left hr))
      fun r h1 h2 => by omega, word_toNat]
    rfl
/-- The checks of VGTHL and VSCTL (R147): the lowest lane that fails decides. -/
theorem lanes_traps {s : State} {reads writes : List VCode} {ty : ElemTy} {k : Mask} {at_ : Nat → Word} {w : Bool} {late : Option TrapOf}
    {f : State → Res} {e : State → Res} {n : Nat} (hn : n = 1 ∨ n = 2 ∨ n = 4)
    (hlate : ∀ t, (laneTraps (lanesAt ty k at_) (laneCheck s w n)).2 = some t → late = some t)
    (he : e s = withWindows reads writes (laneTraps (lanesAt ty k at_) (laneCheck s w n)).1 late s f) {i : Nat} (hi : i < 64)
    (ha : active k ty.width i = true)
    (hlow : ∀ j, j < i → active k ty.width j = true → (at_ j).toNat % n = 0 ∧ (at_ j).toNat + n ≤ 0x40000 ∧
      s.cur.lmAllowed s.tid w ((at_ j).toNat / 512) = true) :
    ((at_ i).toNat % n ≠ 0 → e s = .next (s.trapSt 0x02 (at_ i))) ∧
    ((at_ i).toNat % n = 0 → s.holderBad (reads ++ writes) = none →
      0x40000 < (at_ i).toNat + n ∨ ¬ s.cur.lmAllowed s.tid w ((at_ i).toNat / 512) = true → e s = .next (s.trapSt 0x04 (at_ i))) := by
  have hpass : ∀ j, j < i → active k ty.width j = true → laneCheck s w n (at_ j) = none := fun j h1 h2 => by
    obtain ⟨hal, hr, hok⟩ := hlow j h1 h2
    exact laneCheck_eq_none hn hal hr hok
  constructor
  · intro h
    rw [he]
    refine withWindows_of_early ?_
    rw [laneTraps_of_misalignment (firstLaneTrap_of_first hi ha (laneCheck_of_misaligned h) hpass)]
  · intro h hb hbad
    have ht := laneTraps_of_other (firstLaneTrap_of_first hi ha (laneCheck_of_barred hn h hbad) hpass) (by decide)
    rw [he]
    exact withWindows_of_late (by rw [ht]) hb (hlate _ (by rw [ht]))
theorem vdtld_traps {s : State} {a : Reg} :
    ((s.rd a).toNat % 4 ≠ 0 → exec (.vdtld a) s = .next (s.trapSt 0x02 (s.rd a))) ∧
    ((s.rd a).toNat % 4 = 0 → bits (s.rd a) 63 18 ≠ 0 → exec (.vdtld a) s = .next (s.trapSt 0x05 (s.rd a))) ∧
    ∀ q, (s.rd a).toNat % 4 = 0 → bits (s.rd a) 63 18 = 0 → bits (s.rd a) 17 0 ≤ q → q < bits (s.rd a) 17 0 + 1024 →
      LmBarred (s.cur.lmAllowed s.tid false) q → (∀ r, bits (s.rd a) 17 0 ≤ r → r < q → ¬ LmBarred (s.cur.lmAllowed s.tid false) r) →
      exec (.vdtld a) s = .next (s.trapSt 0x04 (word q)) := by
  have he : exec (.vdtld a) s = execVdtld a s := rfl
  rw [he]
  unfold execVdtld
  dsimp only
  refine ⟨fun h => ?_, fun h hb => ?_, fun q h hb h1 h2 hbar hlow => ?_⟩
  · rw [trapIf_of_true (by simp [h])]; rfl
  · rw [trapIf_of_false (by simp [h]), trapIf_of_true (by simp [hb])]; rfl
  · rw [trapIf_of_false (by simp [h]), trapIf_of_false (by simp [hb]), lmTrap_of_first h1 h2 hbar hlow]; rfl
theorem barred_iff {s : State} {w : Bool} {q : Nat} :
    LmBarred (s.cur.lmAllowed s.tid w) q ↔ 0x40000 ≤ q ∨ ¬ s.cur.lmAllowed s.tid w (q / 512) = true := by
  rw [LmBarred, Bool.not_eq_true]
theorem localVectorTraps : Rules.LocalVectorTraps := by
  intro s ty d b a p m x k n at_ may
  refine ⟨?_, ?_, ?_⟩
  · have hx : vdispAddr s a p = x := vdispAddr_eq s a p
    have hl : exec (.vldl d a p m) s = execVldl d a p m s := rfl
    have hs : exec (.vstl d a p m) s = execVstl d a p m s := rfl
    unfold execVldl at hl
    unfold execVstl at hs
    rw [hx] at hl hs
    rintro e (_ | ⟨_, _ | ⟨_, _ | _⟩⟩)
    · exact vectorAccess_traps (e := exec (.vldl d a p m)) hl
    · exact vectorAccess_traps (e := exec (.vstl d a p m)) hs
  · intro hn hb
    have hidx := indexLanes_eq hb ty a k
    have hl : exec (.vgthl ty d a b m) s = execVgthl ty d a b m s := rfl
    have hs : exec (.vsctl ty d a b m) s = execVsctl ty d a b m s := rfl
    unfold execVgthl at hl
    unfold execVsctl at hs
    dsimp only at hl hs
    rw [hidx] at hl hs
    rintro e (_ | ⟨_, _ | ⟨_, _ | _⟩⟩) i hi ha hlow
    · exact lanes_traps (e := exec (.vgthl ty d a b m)) hn (fun t h => firstTrap_of_head h _) hl hi ha hlow
    · exact lanes_traps (e := exec (.vsctl ty d a b m)) hn (fun t h => h) hs hi ha hlow
  · obtain ⟨h1, h2, h3⟩ := vdtld_traps (s := s) (a := a)
    refine ⟨h1, h2, fun q h hb hlo hhi hbar hlow => h3 q h hb hlo hhi (barred_iff.2 hbar) fun r hr hrq hc => ?_⟩
    obtain ⟨g1, g2⟩ := hlow r hr hrq
    rcases barred_iff.1 hc with g | g
    · omega
    · exact g g2

end Sys2Proof.Machine
end

section
/-! SUPPORT. What happens at the start of a cycle of a core before its tables open leaves its decode tables alone, and the tables of a core whose interval
has ended come into force (R51, R101); O17. -/

namespace Sys2Proof.Machine

/-- The decode tables of a core, in force and waiting, and its cycle count. -/
structure Core.Tables where
  cyc : Word
  next : List (Nat × List (Nat × Word32) × Word)
  table : List (Nat × Word32)
  status : Word
def Core.tables (c : Core) : Core.Tables := ⟨c.cyc, c.dtNext, c.dtable, c.dtab⟩
/-- A core has given tables. -/
structure Core.HasTables (x : Core.Tables) (c : Core) : Prop where
  eq : c.tables = x
/-- A core of the package, by its number, has given tables. -/
structure State.HasTables (x : Core.Tables) (k : Nat) (s : State) : Prop where
  eq : (s.coreAt k).tables = x

section
variable {x : Core.Tables}

/-- A core told field by field: only these four matter. -/
theorem hasTables_mk
    {cyc last threads lm slots loading attrs landing landHolder windows winHolder dtable dtab dtNext banks mq mmrWest mmrNorth
      mmrEast mmrSouth mmrEnded cq copyDone copyFailed copyProg msgq out deque held l1 prefetches pushTable spills order marks
      badLm badLand badWin badThread badMatrix badCopy}
    (h : (⟨cyc, dtNext, dtable, dtab⟩ : Core.Tables) = x) :
    Core.HasTables x ⟨cyc, last, threads, lm, slots, loading, attrs, landing, landHolder, windows, winHolder, dtable, dtab,
      dtNext, banks, mq, mmrWest, mmrNorth, mmrEast, mmrSouth, mmrEnded, cq, copyDone, copyFailed, copyProg, msgq, out, deque,
      held, l1, prefetches, pushTable, spills, order, marks, badLm, badLand, badWin, badThread, badMatrix, badCopy⟩ :=
  ⟨h⟩
/-- A package told field by field: only its cores matter. -/
theorem keepsTables_mk {k : Nat}
    {hub dies cores dram far net reds faults barriers pushes granted puts core tid agenda turn nextId fresh dramEpoch badDram jam}
    (h : ((getKey cores k).getD Core.fresh).tables = x) :
    State.HasTables x k ⟨hub, dies, cores, dram, far, net, reds, faults, barriers, pushes, granted, puts, core, tid, agenda, turn,
      nextId, fresh, dramEpoch, badDram, jam⟩ :=
  ⟨h⟩

/-! ### Operations on a core -/

theorem tables_of_rest {c d : Core} (h : ({ d with threads := c.threads, spills := c.spills } : Core) = c) : d.tables = c.tables := by
  have := congrArg Core.tables h; exact this
theorem hasTables_ite {b : Prop} [Decidable b] {c d : Core} (hc : c.HasTables x) (hd : d.HasTables x) : (if b then c else d).HasTables x := by
  split
  · exact hc
  · exact hd
theorem hasTables_wakeIf {c : Core} (h : c.HasTables x) {p : Nat → Park → Bool} : (c.wakeIf p).HasTables x := by
  have hr := (rest_wakeBy c fun t _ w => p t w).1
  unfold Core.wakeIf
  generalize c.wakeBy _ = d at hr ⊢
  exact ⟨(tables_of_rest hr).trans h.eq⟩
theorem hasTables_updThr {c : Core} (h : c.HasTables x) {t : Nat} {f : Thread → Thread} : (c.updThr t f).HasTables x := hasTables_mk h.eq
theorem hasTables_wakeFirst {c : Core} (h : c.HasTables x) {p : Park → Bool} : (c.wakeFirst p).HasTables x := by
  unfold Core.wakeFirst
  extract_lets +onlyGivenNames key l
  split
  · exact hasTables_updThr h
  · exact h
theorem hasTables_freeWindows {c : Core} (h : c.HasTables x) : c.freeWindows.HasTables x := hasTables_wakeIf (hasTables_mk h.eq)
theorem hasTables_freeLanding {c : Core} (h : c.HasTables x) : c.freeLanding.HasTables x := hasTables_mk h.eq
theorem hasTables_abandon {c : Core} (h : c.HasTables x) {t : Nat} : (c.abandon t).HasTables x := by
  unfold Core.abandon
  extract_lets +onlyGivenNames mine c1
  have h1 : c1.HasTables x := hasTables_mk h.eq
  exact hasTables_updThr (hasTables_ite (hasTables_wakeIf (hasTables_mk h1.eq)) h1)
theorem hasTables_mend {c : Core} (h : c.HasTables x) {t : Nat} {l : List Nat} : (c.mend t l).HasTables x := hasTables_mk h.eq
theorem hasTables_wakeEngines {c : Core} (h : c.HasTables x) : c.wakeEngines.HasTables x := hasTables_wakeIf h
theorem hasTables_dropLoading {c : Core} (h : c.HasTables x) {l : Nat} : (c.dropLoading l).HasTables x := by
  unfold Core.dropLoading
  split
  · split
    · split
      · exact hasTables_mk h.eq
      · exact hasTables_mk h.eq
    · exact h
  · exact h
theorem hasTables_dropMmr {c : Core} (h : c.HasTables x) {l : Nat} : (c.dropMmr l).HasTables x := hasTables_mk h.eq
theorem hasTables_openWindows {c : Core} (h : c.HasTables x) : c.openWindows.HasTables x := hasTables_ite (hasTables_wakeIf (hasTables_mk h.eq)) h
theorem hasTables_fillLand {c : Core} (h : c.HasTables x) {li : Nat} {y : Word} : (c.fillLand li y).HasTables x := hasTables_wakeFirst (hasTables_mk h.eq)
theorem hasTables_heldBy {c : Core} (h : c.HasTables x) {li : Nat} {l : Option Nat} : (c.heldBy li l).HasTables x := hasTables_ite (hasTables_mk h.eq) h

/-! ### Operations on the package -/

variable {k : Nat}

theorem keepsTables_updCore {s : State} (h : s.HasTables x k) {j : Nat} {f : Core → Core} (hf : ∀ c y, c.HasTables y → (f c).HasTables y) :
    (s.updCore j f).HasTables x k := by
  refine ⟨?_⟩
  rw [State.updCore, coreAt_setCore]
  by_cases hj : j = k
  · rw [if_pos hj, (hf _ _ ⟨rfl⟩).eq, hj]; exact h.eq
  · rw [if_neg hj]; exact h.eq
theorem keepsTables_ite {b : Prop} [Decidable b] {t u : State} (ht : t.HasTables x k) (hu : u.HasTables x k) :
    (if b then t else u).HasTables x k := by
  split
  · exact ht
  · exact hu
theorem keepsTables_foldl {α : Type} {f : State → α → State} {l : List α} {s : State} (h : s.HasTables x k)
    (hf : ∀ s a, s.HasTables x k → (f s a).HasTables x k) : (l.foldl f s).HasTables x k := by
  induction l generalizing s with
  | nil => exact h
  | cons a l ih => exact ih (hf s a h)
theorem keepsTables_dramPut {s : State} (h : s.HasTables x k) {pa : Nat} {l : List Byte} : (s.dramPut pa l).HasTables x k := keepsTables_mk h.eq
theorem keepsTables_dramWrite {s : State} (h : s.HasTables x k) {pa n y : Nat} : (s.dramWrite pa n y).HasTables x k := keepsTables_mk h.eq
theorem keepsTables_updHub {s : State} (h : s.HasTables x k) {f : Hub → Hub} : (s.updHub f).HasTables x k := keepsTables_mk h.eq
theorem keepsTables_updThr {s : State} (h : s.HasTables x k) {f : Thread → Thread} : (s.updThr f).HasTables x k :=
  keepsTables_updCore h fun _ _ hc => hasTables_updThr hc
theorem keepsTables_updPool {s : State} (h : s.HasTables x k) {f : Nat → Saved → Saved} : (s.updPool f).HasTables x k :=
  keepsTables_foldl (keepsTables_mk h.eq) fun _ _ hs => keepsTables_ite hs (keepsTables_dramWrite hs)
theorem keepsTables_wakeBy {s : State} (h : s.HasTables x k) {p : Nat → Nat → Thread → Park → Bool} : (s.wakeBy p).HasTables x k := by
  refine keepsTables_updPool ⟨?_⟩
  dsimp only [State.coreAt]
  rw [getKey_map s.cores fun c e => e.wakeBy (p c)]
  cases hk : getKey s.cores k with
  | none => rw [← h.eq, State.coreAt, hk]; rfl
  | some c =>
    have hc : s.coreAt k = c := by rw [State.coreAt, hk]; rfl
    exact (tables_of_rest (rest_wakeBy c (p k)).1).trans (hc ▸ h.eq)
theorem keepsTables_redirect {s : State} (h : s.HasTables x k) {tn : Nat} {m : Message} {core tid reason : Nat} :
    (s.redirect tn m core tid reason).HasTables x k := by
  unfold State.redirect
  extract_lets +onlyGivenNames s1
  have h1 : s1.HasTables x k := keepsTables_updHub h
  split
  · exact keepsTables_updHub h1
  · exact keepsTables_ite (keepsTables_updHub h1) (keepsTables_ite
      (keepsTables_dramWrite (keepsTables_dramPut (keepsTables_dramWrite h1))) (keepsTables_dramWrite (keepsTables_dramWrite h1)))
theorem keepsTables_redirectQueued {s : State} (h : s.HasTables x k) {core tid : Nat} : (s.redirectQueued core tid).HasTables x k :=
  keepsTables_foldl (keepsTables_updCore h fun _ _ hc => hasTables_mk hc.eq) fun _ _ hs => keepsTables_redirect hs
theorem keepsTables_releaseHolders {s : State} (h : s.HasTables x k) {core l : Nat} : (s.releaseHolders core l).HasTables x k :=
  keepsTables_ite h (keepsTables_updCore h fun _ _ hc => hasTables_ite (hasTables_freeLanding (hasTables_ite (hasTables_freeWindows hc) hc))
    (hasTables_ite (hasTables_freeWindows hc) hc))
theorem keepsTables_holdRecord {s : State} (h : s.HasTables x k) {n a : Nat} {r : FaultRec} : (s.holdRecord n a r).HasTables x k :=
  keepsTables_ite h (keepsTables_mk h.eq)
theorem keepsTables_appendRecord {s : State} (h : s.HasTables x k) {n : Nat} : (s.appendRecord n).HasTables x k := by
  unfold State.appendRecord
  split
  · exact h
  · extract_lets +onlyGivenNames older gone
    have hgone : ∀ s : State, s.HasTables x k → (gone s).HasTables x k := fun _ hs => keepsTables_mk hs.eq
    split
    · exact h
    · split
      · exact keepsTables_ite h (hgone _ h)
      · extract_lets +onlyGivenNames q a nq w
        exact keepsTables_ite h (keepsTables_ite (keepsTables_holdRecord h) (keepsTables_ite h (hgone _ (keepsTables_updHub
          (keepsTables_ite (keepsTables_dramWrite (keepsTables_dramWrite (keepsTables_dramPut h)))
            (keepsTables_dramWrite (keepsTables_dramPut h)))))))
theorem keepsTables_stopRecord {s : State} (h : s.HasTables x k) {r : FaultRec} : (s.stopRecord r).HasTables x k :=
  keepsTables_appendRecord (keepsTables_mk h.eq)
theorem keepsTables_discardThread {s : State} (h : s.HasTables x k) {core t : Nat} : (s.discardThread core t).HasTables x k :=
  keepsTables_redirectQueued (keepsTables_updCore h fun _ _ hc => hasTables_updThr (hasTables_wakeEngines (hasTables_mk (hasTables_abandon hc).eq)))
theorem keepsTables_abortLaunch {s : State} (h : s.HasTables x k) {l status : Nat} : (s.abortLaunch l status).HasTables x k := by
  unfold State.abortLaunch
  split
  · exact h
  · split
    · exact h
    · extract_lets +onlyGivenNames s1
      have h1 : s1.HasTables x k := keepsTables_updHub h
      extract_lets +onlyGivenNames cores s2
      have h2 : s2.HasTables x k := keepsTables_foldl h1 fun _ _ hs => keepsTables_foldl
        (keepsTables_updCore hs fun _ _ hc => hasTables_mk (hasTables_dropMmr (l := l) (hasTables_dropLoading hc)).eq) fun _ _ hs => keepsTables_discardThread hs
      have h3 : (s2.freeInstances l).HasTables x k := keepsTables_wakeBy (keepsTables_mk h2.eq)
      exact keepsTables_foldl (keepsTables_updHub (keepsTables_mk h3.eq)) fun _ _ hs => keepsTables_releaseHolders hs
theorem keepsTables_hubStop {s : State} (h : s.HasTables x k) {cause : Nat} {val pc : Word} : (s.hubStop cause val pc).HasTables x k := by
  unfold State.hubStop
  extract_lets +onlyGivenNames t r s1
  have h1 : s1.HasTables x k := keepsTables_stopRecord h
  extract_lets +onlyGivenNames s2
  have h2 : s2.HasTables x k := by
    dsimp -zeta only [s2]
    split
    · exact keepsTables_abortLaunch h1
    · exact h1
  exact keepsTables_discardThread h2
theorem hasTables_refill {c : Core} (h : c.HasTables x) {t : Nat} : (c.refill t).HasTables x := by
  unfold Core.refill
  exact hasTables_updThr h
theorem keepsTables_refill {s : State} (h : s.HasTables x k) : s.refill.HasTables x k := keepsTables_updCore h fun _ _ hc => hasTables_refill hc
theorem keepsTables_trapAt {s : State} (h : s.HasTables x k) {cause : Nat} {val pc : Word} : (s.trapAt cause val pc).HasTables x k := by
  unfold State.trapAt
  extract_lets +onlyGivenNames t stop s1
  have h1 : s1.HasTables x k := keepsTables_updCore h fun _ _ hc => hasTables_mend (hasTables_abandon hc)
  exact keepsTables_ite (keepsTables_ite (keepsTables_updThr (keepsTables_updThr h1))
    (keepsTables_hubStop (keepsTables_updThr (keepsTables_updThr h1))))
    (keepsTables_refill (keepsTables_updThr (keepsTables_updThr h1)))
theorem keepsTables_expire {s : State} (h : s.HasTables x k) {core tid : Nat} : (s.expire core tid).HasTables x k := by
  unfold State.expire
  extract_lets +onlyGivenNames t
  split
  · exact keepsTables_ite (keepsTables_updCore (keepsTables_trapAt (keepsTables_mk h.eq)) fun _ _ hc => hasTables_updThr hc) h
  · exact h
theorem keepsTables_expireSaved {s : State} (h : s.HasTables x k) {core : Nat} : (s.expireSaved core).HasTables x k := by
  unfold State.expireSaved
  exact keepsTables_updPool (keepsTables_updCore h fun _ _ hc => hasTables_mk hc.eq)
theorem keepsTables_servePort {core li : Nat} {l : List Writer} {s : State} (h : s.HasTables x k) :
    (State.servePort core li l s).HasTables x k := by
  induction l generalizing s with
  | nil => exact h
  | cons w l ih =>
    cases w with
    | putl t => exact keepsTables_updCore h fun _ _ hc => hasTables_updThr hc
    | remote id src tid y =>
      unfold State.servePort
      extract_lets +onlyGivenNames s1
      have h1 : s1.HasTables x k := keepsTables_updCore h fun _ _ hc => hasTables_mk hc.eq
      split
      · exact ih h1
      · split
        · exact h1
        · split
          · exact ih (keepsTables_mk h1.eq)
          · exact keepsTables_mk (keepsTables_updCore h1 fun _ _ hc => hasTables_fillLand (hasTables_heldBy hc)).eq
theorem keepsTables_fillPort {s : State} (h : s.HasTables x k) {core li : Nat} : (s.fillPort core li).HasTables x k :=
  keepsTables_ite (keepsTables_servePort h) h
theorem keepsTables_markCore {s : State} (h : s.HasTables x k) {core : Nat} : (s.markCore core).HasTables x k :=
  keepsTables_updCore h fun _ _ hc => hasTables_mk hc.eq

end

/-! ### Opening (R101) -/

/-- At the start of a cycle the tables of a core change as `openTables` says. -/
theorem tables_openSlot (s : State) (k : Nat) :
    ∃ c : Core, c.tables = (s.coreAt k).tables ∧ ((s.openSlot k).coreAt k).tables = c.openTables.tables := by
  unfold State.openSlot
  extract_lets +onlyGivenNames s1
  have h1 : s1.HasTables (s.coreAt k).tables k :=
    keepsTables_expireSaved (keepsTables_foldl ⟨rfl⟩ fun _ _ hs => keepsTables_expire hs)
  extract_lets +onlyGivenNames s2
  have h2 : s2.HasTables (s1.coreAt k).openTables.tables k := by
    refine ⟨?_⟩
    rw [show s2.coreAt k = (s1.coreAt k).openTables.openWindows from coreAt_setCore_self _ _ _]
    exact (hasTables_openWindows ⟨rfl⟩).eq
  exact ⟨s1.coreAt k, h1.eq, (keepsTables_markCore (keepsTables_foldl h2 fun _ _ hs => keepsTables_fillPort hs)).eq⟩

/-- A table comes into force. -/
def Core.openTable (c : Core) (e : Nat × List (Nat × Word32) × Word) : Core := { c with dtable := e.2.1, dtab := e.2.2 }
/-- The interval of a table has ended. -/
def dueAt (cyc : Word) (e : Nat × List (Nat × Word32) × Word) : Bool := decide (e.1 ≤ cyc.toNat)
/-- The core whose waiting tables are those whose interval has not ended. -/
def Core.dropDue (c : Core) : Core := { c with dtNext := c.dtNext.filter (fun e => !dueAt c.cyc e) }
theorem openTables_eq (c : Core) : c.openTables = (c.dtNext.filter (dueAt c.cyc)).foldl Core.openTable c.dropDue := rfl
/-- The last of several tables is in force. -/
theorem tables_foldl_openTable (l : List (Nat × List (Nat × Word32) × Word)) (c : Core) : (l.foldl Core.openTable c).tables =
    match l.getLast? with
    | some e => ⟨c.cyc, c.dtNext, e.2.1, e.2.2⟩
    | none => c.tables := by
  induction l using List.reverseRecOn with
  | nil => rfl
  | append_singleton l e ih =>
    rw [List.foldl_append, List.foldl_cons, List.foldl_nil, List.getLast?_concat]
    have hcyc : (l.foldl Core.openTable c).cyc = c.cyc := by
      refine (congrArg Core.Tables.cyc ih).trans ?_
      split <;> rfl
    have hnext : (l.foldl Core.openTable c).dtNext = c.dtNext := by
      refine (congrArg Core.Tables.next ih).trans ?_
      split <;> rfl
    rw [← hcyc, ← hnext]; rfl
theorem tables_openTables (c : Core) : c.openTables.tables = match (c.dtNext.filter (dueAt c.cyc)).getLast? with
    | some e => ⟨c.cyc, c.dtNext.filter (fun e => !dueAt c.cyc e), e.2.1, e.2.2⟩
    | none => ⟨c.cyc, c.dtNext.filter (fun e => !dueAt c.cyc e), c.dtable, c.dtab⟩ := by
  rw [openTables_eq, tables_foldl_openTable]; rfl
theorem decodeTableOpens : Rules.DecodeTableOpens := by
  intro s k c u due
  obtain ⟨c', hc, hu⟩ := tables_openSlot s k
  rw [tables_openTables, show c'.cyc = c.cyc from congrArg Core.Tables.cyc hc, show c'.dtNext = c.dtNext from congrArg Core.Tables.next hc,
    show c'.dtable = c.dtable from congrArg Core.Tables.table hc, show c'.dtab = c.dtab from congrArg Core.Tables.status hc] at hu
  change u.tables = _ at hu
  clear_value u
  refine ⟨?_, fun hnone => ?_, fun pre e post hl he hpost => ?_⟩
  · refine (congrArg Core.Tables.next hu).trans ?_
    split <;> rfl
  · have hf : c.dtNext.filter (dueAt c.cyc) = [] := List.filter_eq_nil_iff.2 fun e he => by
      have := List.any_eq_false.1 hnone e he; exact this
    rw [hf] at hu
    exact ⟨congrArg Core.Tables.table hu, congrArg Core.Tables.status hu⟩
  · have hf : c.dtNext.filter (dueAt c.cyc) = pre.filter (dueAt c.cyc) ++ [e] := by
      have hn : post.filter (dueAt c.cyc) = [] := List.filter_eq_nil_iff.2 fun a ha => by
        have := List.any_eq_false.1 hpost a ha; exact this
      rw [hl, List.filter_append, List.filter_cons_of_pos (show dueAt c.cyc e = true from he), hn]
    rw [hf, List.getLast?_concat] at hu
    exact ⟨congrArg Core.Tables.table hu, congrArg Core.Tables.status hu⟩

/-- Settles O17: the vector accesses of LM complete through one lemma each, the checks by their first failing byte or lane; what precedes the opening
of the tables at the start of a cycle keeps them. -/
theorem localVectors : Obligations.LocalVectors := ⟨loadLocalVector, storeLocalVector, decodeTableLoad, decodeTableOpens, localVectorTraps⟩

end Sys2Proof.Machine
end

section
/-! SUPPORT. How an instruction that waits for the slices begins, asks and goes on (R50, R116, R170, R172, R194). -/

namespace Sys2Proof.Machine

/-! ### The thread of an instruction that has begun or waits -/

/-- A claim changes of its thread only whether its instruction has begun, and what waking leaves. -/
theorem thr_claim {s : State} (h : s.Placed) (reads writes : List VCode) : ∃ b c,
    (s.claim reads writes).thr = { s.thr with resume := b, progress := { s.thr.progress with begun := c } } := by
  by_cases hn : winCodes (reads ++ writes) = []
  · rw [claim_of_nil hn]; exact ⟨_, _, rfl⟩
  · obtain ⟨b, hb⟩ := thr_claimed s.cur (show s.tid < 16 from h) reads writes
    refine ⟨b, true, ?_⟩
    rw [claim_of_ne hn, State.thr, cur_updCur, tid_updCur, hb]; rfl
theorem thr_updProgress {s : State} (h : s.Placed) (f : Progress → Progress) :
    (s.updProgress f).thr = { s.thr with progress := f s.thr.progress } := thr_updThr s _ h
theorem placed_of_claims {s u : State} (h : s.Placed) (hc : s.Claims u) : u.Placed := show u.tid < 16 from hc.tid_eq ▸ h
/-- The state in which the elements of a vector access run for the first time (R116). -/
def State.captured (s : State) (reads writes : List VCode) (data aux : VReg) : State := (s.claim reads writes).capture data aux
theorem claims_captured {s : State} (h : s.Placed) (reads writes : List VCode) (data aux : VReg) : s.Claims (s.captured reads writes data aux) :=
  have hc := claims_claim h reads writes
  hc.trans (claims_capture (placed_of_claims h hc) data aux)
theorem progress_captured {s : State} (h : Idle s) (reads writes : List VCode) (data aux : VReg) :
    (s.captured reads writes data aux).thr.progress = { Progress.none with begun := true, data := data, aux := aux } := by
  obtain ⟨hp, -, hn⟩ := h
  obtain ⟨b, c, ht⟩ := thr_claim hp reads writes
  have hu := thr_updProgress (placed_of_claims hp (claims_claim hp reads writes)) fun p => { p with begun := true, data := data, aux := aux }
  rw [State.captured, State.capture, hu, ht, hn]
/-- Since when, and in which order, a thread that parks has waited (R51, R52). -/
def State.parkTime (s : State) (why : Park) : Nat × Nat :=
  match s.thr.progress.waited with
  | some (w, a, o) => if w.code = why.code ∧ why.code ≠ 1 then (a, o) else (s.cur.cyc.toNat, s.cur.order)
  | none => (s.cur.cyc.toNat, s.cur.order)
/-- A parked thread. -/
def Thread.parkedAt (t : Thread) (why : Park) (at_ : Nat × Nat) : Thread :=
  { t with status := .parked why at_.1 at_.2, resume := false, progress := { t.progress with waited := some (why, at_.1, at_.2) } }
/-- The core of a thread that has parked. -/
def Core.parkThr (c : Core) (t : Nat) (why : Park) (at_ : Nat × Nat) : Core := { c.setThr t ((c.thr t).parkedAt why at_) with order := c.order + 1 }
theorem parkSt_eq (s : State) (why : Park) : s.parkSt why = s.updCur (·.parkThr s.tid why (s.parkTime why)) := rfl
theorem thr_parkSt {s : State} (h : s.Placed) (why : Park) : (s.parkSt why).thr = s.thr.parkedAt why (s.parkTime why) := by
  rw [parkSt_eq, State.thr, cur_updCur, tid_updCur]
  exact thr_setThr_self s.cur _ h
/-- A thread that has not waited before parks now. -/
theorem parkTime_of_none {s : State} (hw : s.thr.progress.waited = none) (why : Park) : s.parkTime why = (s.cur.cyc.toNat, s.cur.order) := by
  rw [State.parkTime, hw]

/-! ### What a wait leaves alone -/

/-- From `s` to `u` nothing changes of the current core but its current thread's state and partial state, and the order of the core's parks. -/
structure State.OnlyWaits (s u : State) : Prop where
  core : u.core = s.core
  tid : u.tid = s.tid
  cur : ({ u.cur with threads := s.cur.threads, order := s.cur.order } : Core) = s.cur
  holds : u.thr.holds = s.thr.holds
  pc : u.thr.pc = s.thr.pc
theorem State.OnlyWaits.trans {s u v : State} (h : s.OnlyWaits u) (g : u.OnlyWaits v) : s.OnlyWaits v where
  core := g.core.trans h.core
  tid := g.tid.trans h.tid
  cur := (congrArg (fun (x : Core) => ({ x with threads := s.cur.threads, order := s.cur.order } : Core)) g.cur).trans h.cur
  holds := g.holds.trans h.holds
  pc := g.pc.trans h.pc
theorem onlyWaits_updProgress {s : State} (h : s.Placed) (f : Progress → Progress) : s.OnlyWaits (s.updProgress f) := by
  have ht := thr_updProgress h f
  refine ⟨rfl, rfl, ?_, by rw [ht]; rfl, by rw [ht]⟩
  rw [State.updProgress, cur_updThr]; rfl
theorem onlyWaits_capture {s : State} (h : s.Placed) (data aux : VReg) : s.OnlyWaits (s.capture data aux) := onlyWaits_updProgress h _
theorem onlyWaits_parkSt {s : State} (h : s.Placed) (why : Park) : s.OnlyWaits (s.parkSt why) := by
  have ht := thr_parkSt h why
  refine ⟨rfl, rfl, ?_, by rw [ht]; rfl, by rw [ht]; rfl⟩
  rw [parkSt_eq, cur_updCur]; rfl
/-- A change of the dies. -/
theorem eq_of_dies {s u : State} (h : ({ u with dies := s.dies } : State) = s) : u.core = s.core ∧ u.tid = s.tid ∧ u.cur = s.cur ∧ u.thr = s.thr := by
  have hcore : u.core = s.core := by have := congrArg State.core h; exact this
  have htid : u.tid = s.tid := by have := congrArg State.tid h; exact this
  have hcur : u.cur = s.cur := by have := congrArg State.cur h; exact this
  exact ⟨hcore, htid, hcur, by rw [State.thr, State.thr, hcur, htid]⟩
theorem onlyWaits_of_dies {s u : State} (h : ({ u with dies := s.dies } : State) = s) : s.OnlyWaits u := by
  obtain ⟨hcore, htid, hcur, hthr⟩ := eq_of_dies h
  exact ⟨hcore, htid, by rw [hcur], by rw [hthr], by rw [hthr]⟩
theorem dies_attach (s : State) (d : Nat) (r : MissReq) (tn : Nat) : ({ (s.attach d r tn).1 with dies := s.dies } : State) = s := by
  unfold State.attach
  extract_lets +onlyGivenNames line sl live set
  split
  · rfl
  · split
    · split <;> rfl
    · split <;> rfl
theorem dies_attachAll (s : State) (core tid : Nat) : ({ (s.attachAll core tid).1 with dies := s.dies } : State) = s := by
  have h : ∀ (l : List (Nat × AskKind)) (tn : Nat) (p : State × Bool), ({ (l.foldl (fun (p : State × Bool) a =>
      if a.2 = .lane then p
      else
        let r := p.1.attach (askDie core a.2) ⟨core, tid, a.1, a.2⟩ tn
        (r.1, p.2 && r.2)) p).1 with dies := p.1.dies } : State) = p.1 := by
    intro l tn
    induction l with
    | nil => exact fun _ => rfl
    | cons a l ih =>
      intro p
      rw [List.foldl_cons]
      by_cases ha : a.2 = .lane
      · rw [if_pos ha]; exact ih p
      · rw [if_neg ha]
        have g := congrArg (fun (x : State) => ({ x with dies := p.1.dies } : State))
          (ih ((p.1.attach (askDie core a.2) ⟨core, tid, a.1, a.2⟩ tn).1, p.2 && (p.1.attach (askDie core a.2) ⟨core, tid, a.1, a.2⟩ tn).2))
        exact g.trans (dies_attach p.1 _ _ _)
  exact h _ _ (s, true)
theorem vget_of_onlyWaits {s u : State} (h : s.OnlyWaits u) (c : VCode) : u.vget c = s.vget c := by
  have hv := congrArg Thread.v h.holds
  have hw := congrArg Core.windows h.cur
  exact vget_congr hv (fun i => by rw [show u.cur.windows = _ from hw]) c
theorem winState_of_onlyWaits {s u : State} (h : s.OnlyWaits u) (c : Nat) : u.cur.winState c = s.cur.winState c := by
  have hw := congrArg Core.windows h.cur
  rw [Core.winState, Core.winState, show u.cur.windows = _ from hw]
theorem winHolder_of_onlyWaits {s u : State} (h : s.OnlyWaits u) : u.cur.winHolder = s.cur.winHolder := by
  have hw := congrArg Core.winHolder h.cur
  exact hw

/-! ### Requests (R50, R170, R171) -/

/-- One request of an access is asked for, or comes later. -/
def State.addAsk (s : State) (a : Nat × AskKind) : State :=
  if !a.2.needsWay || s.cur.mayAsk s.tn (lineOf a.1) then s.updProgress (fun p => { p with asks := p.asks ++ [a] })
  else s.updProgress (fun p => { p with later := p.later ++ [a.1] })
/-- A partial state but for what is asked for, now and later. -/
def Progress.butAsks (p : Progress) : Progress := { p with asks := [], later := [] }
/-- A thread but for what its instruction asks for. -/
def Thread.butAsks (t : Thread) : Thread := { t with progress := t.progress.butAsks }
theorem addAsk_spec {s : State} (h : s.Placed) (a : Nat × AskKind) : s.OnlyWaits (s.addAsk a) ∧ (s.addAsk a).thr.butAsks = s.thr.butAsks := by
  unfold State.addAsk
  split
  · exact ⟨onlyWaits_updProgress h _, by rw [thr_updProgress h]; rfl⟩
  · exact ⟨onlyWaits_updProgress h _, by rw [thr_updProgress h]; rfl⟩
theorem State.OnlyWaits.refl (s : State) : s.OnlyWaits s := ⟨rfl, rfl, rfl, rfl, rfl⟩
theorem placed_of_onlyWaits {s u : State} (h : s.Placed) (hu : s.OnlyWaits u) : u.Placed := show u.tid < 16 from hu.tid ▸ h
theorem foldl_addAsk_spec {s : State} (h : s.Placed) (l : List (Nat × AskKind)) :
    s.OnlyWaits (l.foldl State.addAsk s) ∧ (l.foldl State.addAsk s).thr.butAsks = s.thr.butAsks := by
  induction l generalizing s with
  | nil => exact ⟨State.OnlyWaits.refl s, rfl⟩
  | cons a l ih =>
    obtain ⟨h1, h2⟩ := addAsk_spec h a
    obtain ⟨h3, h4⟩ := ih (placed_of_onlyWaits h h1)
    exact ⟨h1.trans h3, h4.trans h2⟩
/-- The partial state of an access that asks. -/
def Progress.sent (now : Nat) (p : Progress) : Progress := { p with ask := .sent, asks := [], askAt := now, later := [] }
/-- The state of an access that parks, before it has asked. -/
def State.asking (s : State) : State := (s.updProgress (Progress.sent s.hub.now)).parkSt .reply
/-- The thread of an access that has asked, but for what it has asked for. -/
def Thread.asked (t : Thread) (now cyc order : Nat) : Thread :=
  ({ t with progress := t.progress.sent now } : Thread).parkedAt .reply (cyc, order)
theorem asking_spec {s : State} (h : s.Placed) (hw : s.thr.progress.waited = none) :
    s.OnlyWaits s.asking ∧ s.asking.thr = s.thr.asked s.hub.now s.cur.cyc.toNat s.cur.order := by
  have h1 := onlyWaits_updProgress h (Progress.sent s.hub.now)
  have t1 := thr_updProgress h (Progress.sent s.hub.now)
  have hc : (s.updProgress (Progress.sent s.hub.now)).cur.cyc = s.cur.cyc := by have := congrArg Core.cyc h1.cur; exact this
  have ho : (s.updProgress (Progress.sent s.hub.now)).cur.order = s.cur.order := by rw [State.updProgress, cur_updThr]; rfl
  have hp := placed_of_onlyWaits h h1
  refine ⟨h1.trans (onlyWaits_parkSt hp .reply), ?_⟩
  rw [State.asking, thr_parkSt hp, parkTime_of_none (by rw [t1]; exact hw), t1, hc, ho]; rfl
theorem sendRequests_eq (s : State) (asks : List (Nat × AskKind)) : s.sendRequests asks =
    ((asks.foldl State.addAsk s.asking).attachAll (asks.foldl State.addAsk s.asking).core (asks.foldl State.addAsk s.asking).tid).1 := rfl
/-- An access that asks parks, with its data and offsets, and changes nothing else of its core. -/
theorem sendRequests_spec {s : State} (h : s.Placed) (hw : s.thr.progress.waited = none) (asks : List (Nat × AskKind)) :
    s.OnlyWaits (s.sendRequests asks) ∧
      (s.sendRequests asks).thr.butAsks = (s.thr.asked s.hub.now s.cur.cyc.toNat s.cur.order).butAsks := by
  obtain ⟨h1, t1⟩ := asking_spec h hw
  obtain ⟨h2, t2⟩ := foldl_addAsk_spec (placed_of_onlyWaits h h1) asks
  have hd := dies_attachAll (asks.foldl State.addAsk s.asking) (asks.foldl State.addAsk s.asking).core (asks.foldl State.addAsk s.asking).tid
  obtain ⟨-, -, -, t3⟩ := eq_of_dies hd
  rw [sendRequests_eq]
  exact ⟨(h1.trans h2).trans (onlyWaits_of_dies hd), by rw [t3, t2, t1]⟩

theorem asked_of_none {s : State} (h : s.thr.progress.ask = .none) (asks : List (Nat × AskKind)) (k : State → Res) :
    asked asks s k = .next (s.sendRequests asks) := by
  rw [asked, h]
theorem asked_of_served {s : State} (h : s.thr.progress.ask = .served) (asks : List (Nat × AskKind)) (k : State → Res) : asked asks s k = k s := by
  rw [asked, h]

/-! ### A vector access at its first issue, and once it has begun (R116, R194) -/

section
variable {reads writes : List VCode} {early late : Option TrapOf} {data aux : VReg} {s : State} {k : State → Res}

theorem vectorAccess_of_begun (h : s.thr.progress.begun = true) : vectorAccess reads writes early late data aux s k = k s := by
  rw [vectorAccess, vectorAccessIf, if_pos h]
theorem vectorAccess_of_ready (h : s.thr.progress.begun = false) (hr : s.myReds = []) (hw : WinReady s reads writes) (he : early = none)
    (hl : late = none) : vectorAccess reads writes early late data aux s k = k (s.captured reads writes data aux) := by
  have hb := hw.1
  rw [vectorAccess, vectorAccessIf, if_neg (by rw [h]; exact Bool.false_ne_true), he, hl, hb]
  refine (if_pos (by rw [hr]; rfl)).trans ?_
  exact withWindows_of_ready hw rfl rfl
theorem vectorAccess_of_early (h : s.thr.progress.begun = false) {c : Nat} {v : Word} (he : early = some (c, v)) :
    vectorAccess reads writes early late data aux s k = .next (s.trapSt c v) := by
  rw [vectorAccess, vectorAccessIf, if_neg (by rw [h]; exact Bool.false_ne_true), he]; rfl
theorem vectorAccess_of_late (h : s.thr.progress.begun = false) (he : early = none) (hb : s.holderBad (reads ++ writes) = none) {c : Nat}
    {v : Word} (hl : late = some (c, v)) : vectorAccess reads writes early late data aux s k = .next (s.trapSt c v) := by
  rw [vectorAccess, vectorAccessIf, if_neg (by rw [h]; exact Bool.false_ne_true), he, hb, hl]; rfl

end

/-- The elements of an access run from `u`. -/
theorem vectorAccess_of_elemsFrom {s u : State} {reads writes : List VCode} {early late : Option TrapOf} {data aux : VReg} {write : Bool}
    {l : List Elem} (h : ElemsFrom s u reads writes data aux write l) (he : early = none) (hl : late = none) (k : State → Res) :
    vectorAccess reads writes early late data aux s k = k u := by
  rcases h with ⟨⟨-, hr, hn⟩, hw, rfl, -⟩ | ⟨-, rfl, hb, -, -⟩
  · exact vectorAccess_of_ready (by rw [hn]; rfl) hr hw he hl
  · exact vectorAccess_of_begun hb
/-- The pass over the elements of an access through the L1, where no sector has to be asked for. -/
theorem viaL1_of_elemsFrom {s u : State} {reads writes : List VCode} {data aux : VReg} {write : Bool} {l : List Elem}
    (h : ElemsFrom s u reads writes data aux write l) (pass : List Elem → State → State × Pass) (acc : Access) (fin : State → Res) :
    (viaL1 write l u fun s => passL1 pass write acc l s fin) = afterPass (fun s => s) acc (pass l u) fin := by
  have hpass : u.thr.progress.later = [] → passL1 pass write acc l u fin = afterPass (fun s => s) acc (pass l u) fin := fun hl => by
    have hleft : l.filter (fun e => u.thr.progress.later.contains (e.va / 64 * 64) && u.lacks write e) = [] :=
      List.filter_eq_nil_iff.2 fun e _ => by simp [hl]
    rw [passL1, hleft]; rfl
  unfold viaL1
  rcases h with ⟨hi, -, rfl, hhit⟩ | ⟨-, rfl, -, hask, hlater⟩
  · have hmiss : l.filter (((s.claim reads writes).capture data aux).lacks write) = [] :=
      List.filter_eq_nil_iff.2 fun e he => by simp [State.lacks, hhit e he]
    rw [hmiss]
    refine hpass ?_
    have := progress_captured hi reads writes data aux
    exact (congrArg Progress.later this)
  · dsimp only
    split
    · exact hpass hlater
    · rw [asked_of_served hask]
      exact hpass hlater
theorem pickKept_nil : pickKept [] = none := rfl
theorem afterPass_of_clean {r : State × Pass} (h : Clean r) (failed : State → State) (acc : Access) (fin : State → Res) :
    afterPass failed acc r fin = fin r.1 := by
  obtain ⟨h1, h2, h3, h4⟩ := h
  unfold afterPass
  dsimp only
  rw [h1, h2, h3, h4, pickKept_nil]; rfl
theorem finish_of_not_pushing {s : State} (h : s.pushing = false) (n : Nat) : s.finish n = s.next n := by
  rw [State.finish, h]; rfl
/-- An instruction that goes on from a state with its effect. -/
theorem endsFrom_of_next {i : Instr} {s u : State} {n : Nat} (h : exec i s = u.next n) (hp : u.Placed) : EndsFrom i s u n :=
  ⟨_, completes_of_next h, onlyThread_goOn u n, done_goOn u n hp, by rw [goOn_thr u n hp]; rfl⟩

/-! ### The first issue of an access that has to ask -/

/-- An instruction that sends its requests from the state in which it has claimed its windows. -/
theorem asksWith_of_sendRequests {i : Instr} {s : State} {reads writes : List VCode} {data aux : VReg} {asks : List (Nat × AskKind)}
    (hi : Idle s) (he : exec i s = .next ((s.captured reads writes data aux).sendRequests asks)) : AsksWith i s reads writes data aux := by
  have hp := hi.1
  have hprog := progress_captured hi reads writes data aux
  have hcl := claims_captured hp reads writes data aux
  have hpc := placed_of_claims hp (claims_claim hp reads writes)
  have hcap : (s.claim reads writes).OnlyWaits (s.captured reads writes data aux) := onlyWaits_capture hpc data aux
  obtain ⟨hw, ht⟩ := sendRequests_spec (placed_of_claims hp hcl) (by rw [hprog]; rfl) asks
  generalize hu : s.captured reads writes data aux = u at he hprog hcl hcap hw ht
  generalize u.sendRequests asks = t at he hw ht
  have hstatus := congrArg Thread.status ht
  rw [Thread.asked, hprog] at ht
  refine ⟨t, u.cur.order, he, ?_, ?_, ?_, ?_, ?_, ?_, fun c => ?_, fun c => ?_, ?_⟩
  · rw [← hcl.cyc_eq]; exact hstatus
  · exact hw.pc.trans hcl.pc
  · have := congrArg (fun x : Thread => x.progress.ask) ht; exact this
  · have := congrArg (fun x : Thread => x.progress.begun) ht; exact this
  · have := congrArg (fun x : Thread => x.progress.data) ht; exact this
  · have := congrArg (fun x : Thread => x.progress.aux) ht; exact this
  · exact (vget_of_onlyWaits hw c).trans (hcl.vregs c)
  · exact winState_of_onlyWaits (hcap.trans hw) c
  · exact winHolder_of_onlyWaits (hcap.trans hw)
/-- An element of an access that has performed none is asked for where its L1 does not hold its sector. -/
theorem lacks_captured {s : State} (hi : Idle s) {reads writes : List VCode} {data aux : VReg} {write : Bool} {e : Elem} (hva : e.va < 2 ^ 56)
    (hm : (s.captured reads writes data aux).l1Hit (s.captured reads writes data aux).core (s.captured reads writes data aux).tn e.va write = false) :
    (s.captured reads writes data aux).lacks write e = true := by
  rw [State.lacks, State.pending, progress_captured hi, hm, decide_eq_true hva]; rfl
/-- An access through the L1, at its first issue, that its L1 cannot complete. -/
theorem viaL1_of_misses {s : State} (hi : Idle s) {reads writes : List VCode} {data aux : VReg} {write : Bool} {l : List Elem}
    (hva : ∀ e ∈ l, e.va < 2 ^ 56) (hm : ∃ e ∈ l, (s.captured reads writes data aux).l1Hit (s.captured reads writes data aux).core
      (s.captured reads writes data aux).tn e.va write = false) (k : State → Res) :
    ∃ asks, viaL1 write l (s.captured reads writes data aux) k = .next ((s.captured reads writes data aux).sendRequests asks) := by
  obtain ⟨e, he, hmiss⟩ := hm
  have hne : l.filter ((s.captured reads writes data aux).lacks write) ≠ [] :=
    List.ne_nil_of_mem (List.mem_filter.2 ⟨he, lacks_captured hi (hva e he) hmiss⟩)
  refine ⟨sectorAsks write (l.filter ((s.captured reads writes data aux).lacks write)), ?_⟩
  unfold viaL1
  dsimp only
  rw [if_neg (by simpa [List.isEmpty_iff] using hne), asked_of_none (by rw [progress_captured hi]; rfl)]

end Sys2Proof.Machine
end

section
/-! SUPPORT. Vector accesses of global memory (R191 to R194): O22. -/

namespace Sys2Proof.Machine

/-! ### Checks in the core (R148) -/

theorem vaTrap_eq_none {x : Word} (h : x.toNat < 2 ^ 56) : vaTrap x = none :=
  trapIf_of_false (by simp [(toNat_lt_iff_bits x (n := 56) (by decide)).1 h]) ..
theorem vaTrap_of_far {x : Word} (h : 2 ^ 56 ≤ x.toNat) : vaTrap x = some (accessFault, x) := by
  refine trapIf_of_true ?_ ..
  have : bits x 63 56 ≠ 0 := fun g => absurd ((toNat_lt_iff_bits x (n := 56) (by decide)).2 g) (Nat.not_lt.2 h)
  simp [this]
theorem vectorVaTrap_eq_none {x : Word} (h : x.toNat + 255 < 2 ^ 56) : vectorVaTrap x = none := by
  have hb : bits x 63 56 = 0 := (toNat_lt_iff_bits x (n := 56) (by decide)).1 (by omega)
  exact trapIf_of_false (by rw [hb, decide_eq_false (Nat.not_le.2 h)]; rfl) ..
theorem vectorVaTrap_of_far {x : Word} (h : 2 ^ 56 ≤ x.toNat + 255) : vectorVaTrap x = some (accessFault, x) :=
  trapIf_of_true (by rw [decide_eq_true h, Bool.or_true]) ..
theorem aligned4 {x : Word} (h : x.toNat % 4 = 0) : trapIf (x.toNat % 4 ≠ 0) misalignment x = none := trapIf_of_false (by simp [h]) ..
theorem misaligned4 {x : Word} (h : x.toNat % 4 ≠ 0) : trapIf (x.toNat % 4 ≠ 0) misalignment x = some (misalignment, x) :=
  trapIf_of_true (by simp [h]) ..
/-- The checks of a lane of a gather or scatter (R193). -/
def wordCheck (n : Nat) (x : Word) : Option TrapOf := firstTrap [laneAlign n x, vaTrap x]
theorem wordCheck_eq_none {n : Nat} {x : Word} (h : x.toNat % n = 0) (hv : x.toNat < 2 ^ 56) : wordCheck n x = none := by
  rw [wordCheck, laneAlign_of_aligned h, vaTrap_eq_none hv]; rfl
theorem wordCheck_of_misaligned {n : Nat} {x : Word} (h : x.toNat % n ≠ 0) : wordCheck n x = some (misalignment, x) := by
  rw [wordCheck, laneAlign_of_misaligned h]; rfl
theorem wordCheck_of_far {n : Nat} {x : Word} (h : x.toNat % n = 0) (hv : 2 ^ 56 ≤ x.toNat) : wordCheck n x = some (accessFault, x) := by
  rw [wordCheck, laneAlign_of_aligned h, vaTrap_of_far hv]; rfl
theorem lanesMisaligned_of_ok {ty : ElemTy} {l : List (Nat × Word)} (h : LanesOk ty l) : lanesMisaligned l (ty.width / 8) = none :=
  firstLaneTrap_eq_none fun e he => laneAlign_of_aligned (h e he).1
theorem lanesFar_of_ok {ty : ElemTy} {l : List (Nat × Word)} (h : LanesOk ty l) : firstLaneTrap l vaTrap = none :=
  firstLaneTrap_eq_none fun e he => vaTrap_eq_none (h e he).2
theorem wordTraps_of_ok {ty : ElemTy} {l : List (Nat × Word)} (h : LanesOk ty l) : wordTraps (ty.width / 8) l = (none, none) :=
  laneTraps_eq_none (firstLaneTrap_eq_none fun e he => wordCheck_eq_none (h e he).1 (h e he).2)

/-! ### Loads and stores (R191, R192) -/

theorem vld_runs {s u : State} {d : VCode} {a : Reg} {p : BitVec 5} {m : MaskReg} (hwf : (Instr.vld d a p m).wf = true) {x : Word}
    (hx : vdispAddr s a p = x) (hal : x.toNat % 4 = 0) (hva : x.toNat + 255 < 2 ^ 56)
    (hu : ElemsFrom s u [] [d] 0 0 false (sectorElems x.toNat (s.mask m) 0)) (hg : Clean (grantPass false (sectorElems x.toNat (s.mask m) 0) u))
    {r : State × Pass}
    (hr : onePass (readL1 u.core u.tn) (sectorElems x.toNat (s.mask m) 0) (grantPass false (sectorElems x.toNat (s.mask m) 0) u).1 = r)
    (hc : Clean r) (hp : r.1.Placed) :
    ∃ t, Completes (.vld d a p m) s t ∧ WroteVec r.1 r.1 t 8 d 8 256 (s.mask m) (fun j => ⟨elem 8 r.1.thr.progress.data j, 0⟩) r.1.thr.ctl.seed := by
  refine ⟨_, completes_of_next (u := r.1.vwrite d 8 256 (s.mask m) fun j => ⟨elem 8 r.1.thr.progress.data j, 0⟩) ?_,
    wroteVec_vwrite hp (State.Claims.refl _) hwf (by decide) 8 _ _⟩
  show execVld d a p m s = _
  unfold execVld
  dsimp only
  rw [hx, vectorAccess_of_elemsFrom hu (aligned4 hal) (vectorVaTrap_eq_none hva), runWhole, viaL1_of_elemsFrom hu, afterPass_of_clean hg,
    runElems, runElemsOr, hr, afterPass_of_clean hc]
theorem vlds_runs {s u : State} {ty : ElemTy} {d : VCode} {a b : Reg} {m : MaskReg} (hwf : (Instr.vlds ty d a b m).wf = true)
    (hok : LanesOk ty (strideLanes s ty a b (s.mask m)))
    (hu : ElemsFrom s u [] [d] 0 0 false (laneElems ty.width (strideLanes s ty a b (s.mask m)) 0)) {r : State × Pass}
    (hr : onePass (readL1 u.core u.tn) (laneElems ty.width (strideLanes s ty a b (s.mask m)) 0) u = r) (hc : Clean r) (hp : r.1.Placed) :
    ∃ t, Completes (.vlds ty d a b m) s t ∧
      WroteVec r.1 r.1 t 8 d ty.width 64 (s.mask m) (fun j => ⟨elem ty.width r.1.thr.progress.data j, 0⟩) r.1.thr.ctl.seed := by
  have hv : (ty.isW && vOk d) = true := hwf
  obtain ⟨-, hd⟩ := (Bool.and_eq_true _ _).mp hv
  refine ⟨_, completes_of_next (u := r.1.vwrite d ty.width 64 (s.mask m) fun j => ⟨elem ty.width r.1.thr.progress.data j, 0⟩) ?_,
    wroteVec_vwrite hp (State.Claims.refl _) hd (le_lanes ty) 8 _ _⟩
  show execVlds ty d a b m s = _
  unfold execVlds
  dsimp only
  rw [vectorAccess_of_elemsFrom hu (lanesMisaligned_of_ok hok) (lanesFar_of_ok hok), runL1, viaL1_of_elemsFrom hu, hr, afterPass_of_clean hc]
theorem globalVectorLoads : Rules.GlobalVectorLoads := by
  intro s u ty d a b p m x k writes
  exact ⟨fun hwf hal hva hu hg hc hp => vld_runs hwf (vdispAddr_eq s a p) hal hva hu hg rfl hc hp,
    fun hwf hok hu hc hp => vlds_runs hwf hok hu rfl hc hp⟩
theorem vst_ends {s u : State} {d : VCode} {a : Reg} {p : BitVec 5} {m : MaskReg} {x : Word} (hx : vdispAddr s a p = x) (hal : x.toNat % 4 = 0)
    (hva : x.toNat + 255 < 2 ^ 56) {l : List Elem} (hl : sectorElems x.toNat (s.mask m) u.thr.progress.data = l)
    (hu : ElemsFrom s u [d] [] (s.vget d) 0 true l) (hg : Clean (grantPass true l u)) {r : State × Pass}
    (hr : onePass (writeL1 u.core u.tn) l (grantPass true l u).1 = r) (hc : Clean r) (hpush : r.1.pushing = false) (hp : r.1.Placed) :
    EndsFrom (.vst d a p m) s r.1 8 := by
  refine endsFrom_of_next ?_ hp
  show execVst d a p m s = _
  unfold execVst
  dsimp only
  rw [hx, vectorAccess_of_elemsFrom hu (aligned4 hal) (vectorVaTrap_eq_none hva), hl, runWhole, viaL1_of_elemsFrom hu, afterPass_of_clean hg,
    runElems, runElemsOr, hr, afterPass_of_clean hc, finish_of_not_pushing hpush]
theorem vsts_ends {s u : State} {ty : ElemTy} {d : VCode} {a b : Reg} {m : MaskReg} (hok : LanesOk ty (strideLanes s ty a b (s.mask m)))
    {l : List Elem} (hl : laneElems ty.width (strideLanes s ty a b (s.mask m)) u.thr.progress.data = l)
    (hu : ElemsFrom s u [d] [] (s.vget d) 0 true l) {r : State × Pass} (hr : onePass (writeStrided u.core u.tn l) l u = r) (hc : Clean r)
    (hpush : r.1.pushing = false) (hp : r.1.Placed) : EndsFrom (.vsts ty d a b m) s r.1 8 := by
  refine endsFrom_of_next ?_ hp
  show execVsts ty d a b m s = _
  unfold execVsts
  dsimp only
  rw [vectorAccess_of_elemsFrom hu (lanesMisaligned_of_ok hok) (lanesFar_of_ok hok), hl, runL1, viaL1_of_elemsFrom hu, hr, afterPass_of_clean hc,
    finish_of_not_pushing hpush]
theorem globalVectorStores : Rules.GlobalVectorStores := by
  intro s u ty d a b p m x k z ends
  exact ⟨fun _ hal hva hu hg hc hpush hp => vst_ends (vdispAddr_eq s a p) hal hva rfl hu hg rfl hc hpush hp,
    fun _ hok hu hc hpush hp => vsts_ends hok rfl hu rfl hc hpush hp⟩

/-! ### Word requests (R193, R194) -/

/-- A change of a partial state that leaves all but what is asked for. -/
def AsksOnly (f : Progress → Progress) : Prop := ∀ p : Progress, (f p).butAsks = p.butAsks

section
variable {reads : Bool} {perform : Perform} {acc : Access} {l : List Elem} {s : State} {fin : State → Res}

theorem runWords_of_performed (h : l.all (fun e => s.thr.progress.elems.contains e.id) = true) : runWords reads perform acc l s fin = fin s :=
  if_pos h
theorem runWords_of_unasked (h : l.all (fun e => s.thr.progress.elems.contains e.id) = false) (hask : s.thr.progress.ask = .none) :
    ∃ asks, runWords reads perform acc l s fin = .next (s.sendRequests asks) :=
  ⟨_, (if_neg (by rw [h]; exact Bool.false_ne_true)).trans (asked_of_none hask _ _)⟩
theorem isEmpty_filter_eq_not_any (p : Elem → Bool) (l : List Elem) : (l.filter p).isEmpty = !l.any p := by
  induction l with
  | nil => rfl
  | cons e l ih =>
    by_cases h : p e = true
    · rw [List.filter_cons_of_pos h, List.any_cons, h]; rfl
    · rw [List.filter_cons_of_neg h, List.any_cons, ih, Bool.eq_false_iff.2 h]; rfl
end

/-- A partial state that still asks for the elements that are left, and for what a migrating leaf holds. -/
def Progress.keepAsks (left : List Elem) (p : Progress) : Progress :=
  { p with asks := p.asks.filter (fun a => left.any (fun e => e.va == a.1) || p.held.contains a.1) }
theorem asksOnly_keepAsks (left : List Elem) : AsksOnly (Progress.keepAsks left) := fun _ => rfl
/-- A partial state that waits for the next answer. -/
def Progress.again (p : Progress) : Progress := { p with ask := .sent }
/-- What follows the answer to a word request. -/
def afterWords (acc : Access) (l : List Elem) (r : State × Pass) (fin : State → Res) : Res :=
  let left := l.filter r.1.pending
  let u := r.1.updProgress (Progress.keepAsks left)
  if r.2.done && !left.isEmpty then (u.updProgress Progress.again).park .reply
  else if r.2.pages.isEmpty && left.any (fun e => !u.elemInTurn e) then (u.attachAll u.core u.tid).1.park .reply
  else afterPass (fun s => s) acc (u, r.2) fin
theorem runWords_of_served {reads : Bool} {perform : Perform} {acc : Access} {l : List Elem} {s : State} {fin : State → Res}
    (hask : s.thr.progress.ask = .served) (hleft : l.all (fun e => s.thr.progress.elems.contains e.id) = false) :
    runWords reads perform acc l s fin = afterWords acc l (wordPass reads perform l s) fin :=
  (if_neg (by rw [hleft]; exact Bool.false_ne_true)).trans (asked_of_served hask _ _)

section
variable {acc : Access} {l : List Elem} {r : State × Pass} {fin : State → Res}

/-- An answer that leaves requests. -/
theorem afterWords_of_left (hd : r.2.done = true) (hp : l.any r.1.pending = true) : afterWords acc l r fin =
    .next (((r.1.updProgress (Progress.keepAsks (l.filter r.1.pending))).updProgress Progress.again).parkSt .reply) :=
  if_pos (by rw [hd, isEmpty_filter_eq_not_any, hp]; rfl)
/-- The last answer. -/
theorem afterWords_of_last (hp : l.any r.1.pending = false) (hc : Clean r) (hplaced : r.1.Placed) :
    afterWords acc l r fin = fin (r.1.updProgress (Progress.keepAsks [])) := by
  have hnil : l.filter r.1.pending = [] := List.isEmpty_iff.1 (by rw [isEmpty_filter_eq_not_any, hp]; rfl)
  have ht := thr_updProgress hplaced (Progress.keepAsks [])
  have hclean : Clean (r.1.updProgress (Progress.keepAsks []), r.2) := by
    obtain ⟨h1, h2, h3, h4⟩ := hc
    exact ⟨h1, h2, by rw [ht]; exact h3, by rw [ht]; exact h4⟩
  unfold afterWords
  dsimp only
  rw [hnil, List.isEmpty_nil, Bool.not_true, Bool.and_false, if_neg Bool.false_ne_true, List.any_nil, Bool.and_false, if_neg Bool.false_ne_true]
  exact afterPass_of_clean hclean _ _ _

end

/-- A thread that waits for its next answer. -/
theorem parks_again {r : State} (h : r.Placed) (f : Progress → Progress) : ∃ at_ o,
    (((r.updProgress f).updProgress Progress.again).parkSt .reply).thr.status = .parked .reply at_ o ∧
    (((r.updProgress f).updProgress Progress.again).parkSt .reply).thr.progress.ask = .sent := by
  have hf : (r.updProgress f).Placed := h
  rw [thr_parkSt (show ((r.updProgress f).updProgress _).Placed from h), thr_updProgress hf]
  exact ⟨_, _, rfl, rfl⟩
/-- What is asked for is no part of what an instruction leaves. -/
theorem wroteVec_of_updProgress {r t : State} (h : r.Placed) {f : Progress → Progress} {n : Nat} {d : VCode} {w m : Nat} {k : Mask}
    {g : Nat → Fl} {seed : Word} (hw : WroteVec r (r.updProgress f) t n d w m k g seed) : WroteVec r r t n d w m k g seed := by
  have ho := onlyWaits_updProgress h f
  have hthr := (onlyThread_updThr r fun t => { t with progress := f t.progress }).threads
  exact ⟨hw.package, hw.cores, hw.elems, hw.others, fun c => (hw.states c).trans (winState_of_onlyWaits ho c),
    hw.holder.trans (winHolder_of_onlyWaits ho), hw.core, fun j hj => (hw.threads j hj).trans (hthr j hj), hw.done, hw.thread⟩
theorem endsFrom_of_updProgress {i : Instr} {s r : State} {f : Progress → Progress} {n : Nat} (h : r.Placed)
    (he : EndsFrom i s (r.updProgress f) n) : EndsFrom i s r n := by
  obtain ⟨t, ht, ho, hd, hh⟩ := he
  have ho' := onlyThread_updThr r fun t => { t with progress := f t.progress }
  have hw := onlyWaits_updProgress h f
  have hcyc : (r.updProgress f).cur.cyc = r.cur.cyc := by have := congrArg Core.cyc hw.cur; exact this
  exact ⟨t, ht, ho'.trans ho, ⟨hd.ready, hd.pc.trans (by rw [hw.pc]), hd.time.trans (by rw [hcyc])⟩, hh.trans hw.holds⟩

section
variable {s : State} {ty : ElemTy} {d v : VCode} {a : Reg} {m : MaskReg}

/-- The elements of a gather in progress. -/
def gatherElems (s : State) (ty : ElemTy) (a : Reg) (m : MaskReg) : List Elem := laneElems ty.width (heldLanes s ty a (s.mask m)) 0
/-- The elements of a scatter in progress. -/
def scatterElems (s : State) (ty : ElemTy) (a : Reg) (m : MaskReg) : List Elem :=
  laneElems ty.width (heldLanes s ty a (s.mask m)) s.thr.progress.data
/-- How a gather ends. -/
def gatherEnd (ty : ElemTy) (d : VCode) (k : Mask) (r : State) : Res :=
  (r.vwrite d ty.width 64 k (fun i => ⟨elem ty.width r.thr.progress.data i, 0⟩)).next 8
theorem exec_vgth_of_begun (h : s.thr.progress.begun = true) : exec (.vgth ty d a v m) s =
    runWords true (readWord (dieOf s.core) s.tn) .read (gatherElems s ty a m) s (gatherEnd ty d (s.mask m)) := by
  show execVgth ty d a v m s = _
  unfold execVgth
  exact vectorAccess_of_begun h
theorem exec_vsct_of_begun (h : s.thr.progress.begun = true) : exec (.vsct ty d a v m) s =
    runWords false (writeWord (dieOf s.core) s.tn) .write (scatterElems s ty a m) s (fun r => r.next 8) := by
  show execVsct ty d a v m s = _
  unfold execVsct
  exact vectorAccess_of_begun h
/-- A gather whose last element has been served writes what it has read. -/
theorem gathers {r : State} (hd : vOk d = true) (hp : r.Placed) (he : exec (.vgth ty d a v m) s = gatherEnd ty d (s.mask m) r) :
    ∃ t, Completes (.vgth ty d a v m) s t ∧
      WroteVec r r t 8 d ty.width 64 (s.mask m) (fun j => ⟨elem ty.width r.thr.progress.data j, 0⟩) r.thr.ctl.seed :=
  ⟨_, completes_of_next he, wroteVec_vwrite hp (State.Claims.refl r) hd (le_lanes ty) 8 _ _⟩
theorem gathers_of_asksOnly {r : State} (hd : vOk d = true) (hp : r.Placed) {f : Progress → Progress} (hf : AsksOnly f)
    (he : exec (.vgth ty d a v m) s = gatherEnd ty d (s.mask m) (r.updProgress f)) : ∃ t, Completes (.vgth ty d a v m) s t ∧
      WroteVec r r t 8 d ty.width 64 (s.mask m) (fun j => ⟨elem ty.width r.thr.progress.data j, 0⟩) r.thr.ctl.seed := by
  have hdata : (r.updProgress f).thr.progress.data = r.thr.progress.data := by
    rw [thr_updProgress hp]
    have := congrArg Progress.data (hf r.thr.progress); exact this
  rw [gatherEnd, hdata] at he
  exact ⟨_, completes_of_next he, wroteVec_of_updProgress hp (wroteVec_vwrite hp (claims_updProgress hp f) hd (le_lanes ty) 8 _ _)⟩

end

theorem wordRequests : Rules.WordRequests := by
  intro s ty d v a m hs hb k l loads stores g c gathered scattered again
  have hload := exec_vgth_of_begun (ty := ty) (d := d) (v := v) (a := a) (m := m) hb
  have hstore := exec_vsct_of_begun (ty := ty) (d := d) (v := v) (a := a) (m := m) hb
  constructor
  · intro hwf
    have hv : (ty.isW && vOk d && vOk v) = true := hwf
    simp only [Bool.and_eq_true] at hv
    obtain ⟨⟨-, hd⟩, -⟩ := hv
    refine ⟨fun hall hp => gathers hd hp (hload.trans (runWords_of_performed hall)), fun hask hall => ?_⟩
    have he := hload.trans (runWords_of_served hask hall)
    refine ⟨fun hdone hany hp => ?_, fun hany hc hp => ?_⟩
    · obtain ⟨at_, o, h1, h2⟩ := parks_again (r := g.1) hp (Progress.keepAsks (loads.filter g.1.pending))
      exact ⟨_, at_, o, he.trans (afterWords_of_left hdone hany), h1, h2⟩
    · exact gathers_of_asksOnly hd hp (asksOnly_keepAsks []) (he.trans (afterWords_of_last hany hc hp))
  · intro _
    refine ⟨fun hall hp => endsFrom_of_next (hstore.trans (runWords_of_performed hall)) hp, fun hask hall => ?_⟩
    have he := hstore.trans (runWords_of_served hask hall)
    refine ⟨fun hdone hany hp => ?_, fun hany hc hp => ?_⟩
    · obtain ⟨at_, o, h1, h2⟩ := parks_again (r := c.1) hp (Progress.keepAsks (stores.filter c.1.pending))
      exact ⟨_, at_, o, he.trans (afterWords_of_left hdone hany), h1, h2⟩
    · exact endsFrom_of_updProgress hp (endsFrom_of_next (he.trans (afterWords_of_last hany hc hp)) hp)

/-! ### First issue (R50, R116, R170) -/

theorem va_sectorElems {a : Nat} {k : Mask} {z : VReg} {e : Elem} (h : e ∈ sectorElems a k z) : ∃ j, j < 256 ∧ e.va = a + j := by
  obtain ⟨i, -, hi⟩ := List.mem_filterMap.1 h
  generalize hl : (activeBytes k).filter (fun j => (a + j) / 64 == a / 64 + i) = l at hi
  dsimp only at hi
  split at hi
  · next lo _ hlo _ =>
    obtain rfl := Option.some.inj hi
    have hm : lo ∈ (activeBytes k).filter (fun j => (a + j) / 64 == a / 64 + i) := hl ▸ List.mem_of_head? hlo
    exact ⟨lo, (mem_activeBytes.1 (List.mem_of_mem_filter hm)).1, rfl⟩
  · cases hi
theorem va_laneElems {w : Nat} {l : List (Nat × Word)} {z : VReg} {e : Elem} (h : e ∈ laneElems w l z) : ∃ y ∈ l, e.va = y.2.toNat := by
  obtain ⟨y, hy, rfl⟩ := List.mem_map.1 h
  exact ⟨y, hy, rfl⟩

section
variable {s : State} {ty : ElemTy} {d v : VCode} {a b : Reg} {p : BitVec 5} {m : MaskReg}

/-- The L1 lacks the sector of an element of an access that has just claimed its windows. -/
def MissesL1 (u : State) (write : Bool) (l : List Elem) : Prop := ∃ e ∈ l, u.l1Hit u.core u.tn e.va write = false
theorem vld_asks (hi : Idle s) {x : Word} (hx : vdispAddr s a p = x) (hal : x.toNat % 4 = 0) (hva : x.toNat + 255 < 2 ^ 56)
    (hw : WinReady s [] [d]) (hm : MissesL1 (s.captured [] [d] 0 0) false (sectorElems x.toNat (s.mask m) 0)) :
    AsksWith (.vld d a p m) s [] [d] 0 0 := by
  obtain ⟨asks, ha⟩ := viaL1_of_misses hi (fun e he => by obtain ⟨j, hj, hv⟩ := va_sectorElems he; omega) hm _
  refine asksWith_of_sendRequests hi (asks := asks) ?_
  show execVld d a p m s = _
  unfold execVld
  dsimp only
  rw [hx, vectorAccess_of_ready (by rw [hi.2.2]; rfl) hi.2.1 hw (aligned4 hal) (vectorVaTrap_eq_none hva)]
  exact ha
theorem vst_asks (hi : Idle s) {x : Word} (hx : vdispAddr s a p = x) (hal : x.toNat % 4 = 0) (hva : x.toNat + 255 < 2 ^ 56)
    (hw : WinReady s [d] []) (hm : MissesL1 (s.captured [d] [] (s.vget d) 0) true (sectorElems x.toNat (s.mask m) (s.vget d))) :
    AsksWith (.vst d a p m) s [d] [] (s.vget d) 0 := by
  obtain ⟨asks, ha⟩ := viaL1_of_misses hi (fun e he => by obtain ⟨j, hj, hv⟩ := va_sectorElems he; omega) hm _
  refine asksWith_of_sendRequests hi (asks := asks) ?_
  show execVst d a p m s = _
  unfold execVst
  dsimp only
  rw [hx, vectorAccess_of_ready (by rw [hi.2.2]; rfl) hi.2.1 hw (aligned4 hal) (vectorVaTrap_eq_none hva), progress_captured hi]
  exact ha
theorem vlds_asks (hi : Idle s) (hok : LanesOk ty (strideLanes s ty a b (s.mask m))) (hw : WinReady s [] [d])
    (hm : MissesL1 (s.captured [] [d] 0 0) false (laneElems ty.width (strideLanes s ty a b (s.mask m)) 0)) :
    AsksWith (.vlds ty d a b m) s [] [d] 0 0 := by
  obtain ⟨asks, ha⟩ := viaL1_of_misses hi (fun e he => by obtain ⟨y, hy, hv⟩ := va_laneElems he; rw [hv]; exact (hok y hy).2) hm _
  refine asksWith_of_sendRequests hi (asks := asks) ?_
  show execVlds ty d a b m s = _
  unfold execVlds
  dsimp only
  rw [vectorAccess_of_ready (by rw [hi.2.2]; rfl) hi.2.1 hw (lanesMisaligned_of_ok hok) (lanesFar_of_ok hok)]
  exact ha
theorem vsts_asks (hi : Idle s) (hok : LanesOk ty (strideLanes s ty a b (s.mask m))) (hw : WinReady s [d] [])
    (hm : MissesL1 (s.captured [d] [] (s.vget d) 0) true (laneElems ty.width (strideLanes s ty a b (s.mask m)) (s.vget d))) :
    AsksWith (.vsts ty d a b m) s [d] [] (s.vget d) 0 := by
  obtain ⟨asks, ha⟩ := viaL1_of_misses hi (fun e he => by obtain ⟨y, hy, hv⟩ := va_laneElems he; rw [hv]; exact (hok y hy).2) hm _
  refine asksWith_of_sendRequests hi (asks := asks) ?_
  show execVsts ty d a b m s = _
  unfold execVsts
  dsimp only
  rw [vectorAccess_of_ready (by rw [hi.2.2]; rfl) hi.2.1 hw (lanesMisaligned_of_ok hok) (lanesFar_of_ok hok), progress_captured hi]
  exact ha
/-- A gather or scatter of an active lane has elements. -/
theorem not_all_performed (hi : Idle s) {reads writes : List VCode} {data aux : VReg} (hne : indexLanes s ty a v (s.mask m) ≠ []) (z : VReg) :
    (laneElems ty.width (heldLanes (s.captured reads writes data aux) ty a (s.mask m)) z).all
      (fun e => (s.captured reads writes data aux).thr.progress.elems.contains e.id) = false := by
  have hlanes : (List.range 64).filter (active (s.mask m) ty.width) ≠ [] := fun h => hne (by
    unfold indexLanes
    rw [h]
    split <;> rfl)
  obtain ⟨i, l, hl⟩ := List.exists_cons_of_ne_nil hlanes
  rw [progress_captured hi, laneElems, heldLanes, hl]; rfl
theorem vgth_asks (hi : Idle s) (hok : LanesOk ty (indexLanes s ty a v (s.mask m))) (hne : indexLanes s ty a v (s.mask m) ≠ [])
    (hw : WinReady s [v] [d]) : AsksWith (.vgth ty d a v m) s [v] [d] 0 (s.vget v) := by
  have hask : (s.captured [v] [d] 0 (s.vget v)).thr.progress.ask = .none := by rw [progress_captured hi]; rfl
  obtain ⟨asks, ha⟩ := runWords_of_unasked (reads := true)
    (perform := readWord (dieOf (s.captured [v] [d] 0 (s.vget v)).core) (s.captured [v] [d] 0 (s.vget v)).tn)
    (acc := .read) (fin := gatherEnd ty d (s.mask m)) (not_all_performed hi hne 0) hask
  refine asksWith_of_sendRequests hi (asks := asks) ?_
  have hc := wordTraps_of_ok hok
  show execVgth ty d a v m s = _
  unfold execVgth
  dsimp only
  rw [hc, vectorAccess_of_ready (by rw [hi.2.2]; rfl) hi.2.1 hw rfl rfl]
  exact ha
theorem vsct_asks (hi : Idle s) (hok : LanesOk ty (indexLanes s ty a v (s.mask m))) (hne : indexLanes s ty a v (s.mask m) ≠ [])
    (hw : WinReady s [d, v] []) : AsksWith (.vsct ty d a v m) s [d, v] [] (s.vget d) (s.vget v) := by
  have hask : (s.captured [d, v] [] (s.vget d) (s.vget v)).thr.progress.ask = .none := by rw [progress_captured hi]; rfl
  obtain ⟨asks, ha⟩ := runWords_of_unasked (reads := false)
    (perform := writeWord (dieOf (s.captured [d, v] [] (s.vget d) (s.vget v)).core) (s.captured [d, v] [] (s.vget d) (s.vget v)).tn)
    (acc := .write) (fin := fun r => r.next 8)
    (not_all_performed hi hne (s.captured [d, v] [] (s.vget d) (s.vget v)).thr.progress.data) hask
  refine asksWith_of_sendRequests hi (asks := asks) ?_
  have hc := wordTraps_of_ok hok
  show execVsct ty d a v m s = _
  unfold execVsct
  dsimp only
  rw [hc, vectorAccess_of_ready (by rw [hi.2.2]; rfl) hi.2.1 hw rfl rfl]
  exact ha

end

theorem globalVectorWaits : Rules.GlobalVectorWaits := by
  intro s ty d v a b p m hi x k z misses
  refine ⟨fun hal hva => ⟨fun hw hm => vld_asks hi (vdispAddr_eq s a p) hal hva hw hm,
      fun hw hm => vst_asks hi (vdispAddr_eq s a p) hal hva hw hm⟩,
    fun hok => ⟨fun hw hm => vlds_asks hi hok hw hm, fun hw hm => vsts_asks hi hok hw hm⟩,
    fun hok hne => ⟨fun hw => vgth_asks hi hok hne hw, fun hw => vsct_asks hi hok hne hw⟩⟩

/-! ### Traps (R78, R148) -/

section
variable {s : State} {reads writes : List VCode} {early late : Option TrapOf} {data aux : VReg} {k : State → Res} {i : Instr}

/-- The checks of VLD and VST. -/
theorem sector_traps (h : s.thr.progress.begun = false) {x : Word}
    (he : exec i s = vectorAccess reads writes (trapIf (x.toNat % 4 ≠ 0) misalignment x) (vectorVaTrap x) data aux s k) :
    (x.toNat % 4 ≠ 0 → exec i s = .next (s.trapSt 0x02 x)) ∧
    (x.toNat % 4 = 0 → s.holderBad (reads ++ writes) = none → 2 ^ 56 ≤ x.toNat + 255 → exec i s = .next (s.trapSt 0x0A x)) :=
  ⟨fun hal => he.trans (vectorAccess_of_early h (misaligned4 hal)),
    fun hal hb hva => he.trans (vectorAccess_of_late h (aligned4 hal) hb (vectorVaTrap_of_far hva))⟩
/-- The checks of VLDS and VSTS: all lanes for alignment, then all for their VA. -/
theorem stride_traps (h : s.thr.progress.begun = false) {ty : ElemTy} {m : Mask} {at_ : Nat → Word}
    (he : exec i s = vectorAccess reads writes (lanesMisaligned (lanesAt ty m at_) (ty.width / 8)) (firstLaneTrap (lanesAt ty m at_) vaTrap)
      data aux s k) {j : Nat} (hj : j < 64 ∧ active m ty.width j = true) :
    ((at_ j).toNat % (ty.width / 8) ≠ 0 → (∀ q, q < j → q < 64 ∧ active m ty.width q = true → (at_ q).toNat % (ty.width / 8) = 0) →
      exec i s = .next (s.trapSt 0x02 (at_ j))) ∧
    ((∀ q, q < 64 ∧ active m ty.width q = true → (at_ q).toNat % (ty.width / 8) = 0) → s.holderBad (reads ++ writes) = none →
      2 ^ 56 ≤ (at_ j).toNat → (∀ q, q < j → q < 64 ∧ active m ty.width q = true → (at_ q).toNat < 2 ^ 56) →
      exec i s = .next (s.trapSt 0x0A (at_ j))) := by
  obtain ⟨h64, ha⟩ := hj
  refine ⟨fun hbad hlow => he.trans (vectorAccess_of_early h ?_), fun hal hb hva hlow => he.trans (vectorAccess_of_late h ?_ hb ?_)⟩
  · exact firstLaneTrap_of_first h64 ha (laneAlign_of_misaligned hbad) fun q hq hact => laneAlign_of_aligned (hlow q hq ⟨by omega, hact⟩)
  · exact firstLaneTrap_eq_none fun e hm => by
      obtain ⟨h1, h2, h3⟩ := mem_lanesAt hm
      rw [h3]; exact laneAlign_of_aligned (hal e.1 ⟨h1, h2⟩)
  · exact firstLaneTrap_of_first h64 ha (vaTrap_of_far hva) fun q hq hact => vaTrap_eq_none (hlow q hq ⟨by omega, hact⟩)
/-- The checks of VGTH and VSCT, lane by lane. -/
theorem word_traps (h : s.thr.progress.begun = false) {ty : ElemTy} {m : Mask} {at_ : Nat → Word} {n : Nat}
    (he : exec i s = vectorAccess reads writes (wordTraps n (lanesAt ty m at_)).1 (wordTraps n (lanesAt ty m at_)).2 data aux s k) {j : Nat}
    (hj : j < 64 ∧ active m ty.width j = true)
    (hlow : ∀ q, q < j → q < 64 ∧ active m ty.width q = true → (at_ q).toNat % n = 0 ∧ (at_ q).toNat < 2 ^ 56) :
    ((at_ j).toNat % n ≠ 0 → exec i s = .next (s.trapSt 0x02 (at_ j))) ∧
    ((at_ j).toNat % n = 0 → s.holderBad (reads ++ writes) = none → 2 ^ 56 ≤ (at_ j).toNat → exec i s = .next (s.trapSt 0x0A (at_ j))) := by
  obtain ⟨h64, ha⟩ := hj
  have hpass : ∀ q, q < j → active m ty.width q = true → wordCheck n (at_ q) = none := fun q hq hact => by
    obtain ⟨h1, h2⟩ := hlow q hq ⟨by omega, hact⟩
    exact wordCheck_eq_none h1 h2
  refine ⟨fun hbad => ?_, fun hal hb hva => ?_⟩
  · have ht : wordTraps n (lanesAt ty m at_) = _ :=
      laneTraps_of_misalignment (firstLaneTrap_of_first h64 ha (wordCheck_of_misaligned hbad) hpass)
    exact he.trans (vectorAccess_of_early h (by rw [ht]))
  · have ht : wordTraps n (lanesAt ty m at_) = _ :=
      laneTraps_of_other (firstLaneTrap_of_first h64 ha (wordCheck_of_far hal hva) hpass) (by decide)
    exact he.trans (vectorAccess_of_late h (by rw [ht]) hb (by rw [ht]))

end

theorem globalVectorTraps : Rules.GlobalVectorTraps := by
  intro s ty d v a b p m h x k n stride index on
  refine ⟨?_, ?_, ?_⟩
  · have hx : vdispAddr s a p = x := vdispAddr_eq s a p
    have hl : exec (.vld d a p m) s = execVld d a p m s := rfl
    have hs : exec (.vst d a p m) s = execVst d a p m s := rfl
    unfold execVld at hl
    unfold execVst at hs
    dsimp only at hl hs
    rw [hx] at hl hs
    rintro e (_ | ⟨_, _ | ⟨_, _ | _⟩⟩)
    · exact sector_traps h hl
    · exact sector_traps h hs
  · have hl : exec (.vlds ty d a b m) s = execVlds ty d a b m s := rfl
    have hs : exec (.vsts ty d a b m) s = execVsts ty d a b m s := rfl
    unfold execVlds at hl
    unfold execVsts at hs
    rintro e (_ | ⟨_, _ | ⟨_, _ | _⟩⟩) i hi
    · exact stride_traps (at_ := stride) h hl hi
    · exact stride_traps (at_ := stride) h hs hi
  · intro hv
    have hidx : indexLanes s ty a v k = lanesAt ty k index := indexLanes_eq hv ty a k
    have hl : exec (.vgth ty d a v m) s = execVgth ty d a v m s := rfl
    have hs : exec (.vsct ty d a v m) s = execVsct ty d a v m s := rfl
    unfold execVgth at hl
    unfold execVsct at hs
    dsimp only at hl hs
    rw [hidx] at hl hs
    rintro e (_ | ⟨_, _ | ⟨_, _ | _⟩⟩) i hi hlow
    · exact word_traps h hl hi hlow
    · exact word_traps h hs hi hlow

/-- Settles O22: loads and stores through the L1 from the state in which their elements run, word requests by what follows an answer, first issues by
what sending requests leaves, and the checks by their first failing lane. -/
theorem globalVectors : Obligations.GlobalVectors :=
  ⟨globalVectorLoads, globalVectorStores, wordRequests, globalVectorWaits, globalVectorTraps⟩

end Sys2Proof.Machine
end

section
/-! SUPPORT. Rounding a dyadic number to a multiple of a power of two (R89, R95): as integer arithmetic, and as the rounding of a real number; and the
obligation on it. -/

namespace Sys2Proof.Machine

/-! ### The rounding decision -/

/-- Of the neighbours `lo` and `lo + 1` of `lo` + `f`/`k`, or of a little more when `sticky`, a mode takes the greater (R89, R95). -/
def roundsUp (rm : Rm) (neg sticky : Bool) (lo f k : ℕ) : Bool :=
  match rm with
  | .rtz => false
  | .rdn => neg
  | .rup => !neg
  | .rne => decide (k < 2 * f) || (2 * f == k && (sticky || lo % 2 == 1))
  | .rna => decide (k ≤ 2 * f)
  | .sr r => decide (2 ^ 32 ≤ 2 ^ 32 * f / k + r)

section
variable {neg sticky : Bool} {m : ℕ} {e q : ℤ}

theorem roundTo_of_le (h : e ≤ q) (rm : Rm) {k : ℕ} (hk : k = 2 ^ (q - e).toNat) : roundTo rm neg m e sticky q =
    if m % k = 0 ∧ sticky = false then (m / k, false)
    else (if roundsUp rm neg sticky (m / k) (m % k) k then m / k + 1 else m / k, true) := by
  have hup : (e - q).toNat = 0 := by omega
  subst hk
  unfold roundTo
  dsimp only
  rw [hup, Nat.pow_zero, Nat.mul_one]
  cases rm <;> rfl
theorem roundTo_of_ge (h : q ≤ e) (rm : Rm) : roundTo rm neg m e false q = (m * 2 ^ (e - q).toNat, false) := by
  have hsh : (q - e).toNat = 0 := by omega
  unfold roundTo
  dsimp only
  rw [hsh, Nat.pow_zero, Nat.mod_one, Nat.div_one]
  exact if_pos ⟨rfl, rfl⟩

end

/-- RNE, by the distance to the lower neighbour. -/
theorem roundsUp_rne {neg : Bool} {lo f k : ℕ} : (2 * f < k → roundsUp .rne neg false lo f k = false) ∧
    (k < 2 * f → roundsUp .rne neg false lo f k = true) ∧ (2 * f = k → roundsUp .rne neg false lo f k = (lo % 2 == 1)) := by
  refine ⟨fun h => ?_, fun h => ?_, fun h => ?_⟩
  · simp [roundsUp, h.not_gt, h.ne]
  · simp [roundsUp, h]
  · simp [roundsUp, h]

/-- Settles O4: the modes one by one, each by its rounding decision. -/
theorem rounding : Obligations.Rounding := by
  intro neg m e q r h k lo f go
  have he : ∀ rm, roundTo rm neg m e false q = _ := fun rm => roundTo_of_le h rm (k := k) rfl
  have hgo : f ≠ 0 → ∀ rm, go rm = if roundsUp rm neg false lo f k then lo + 1 else lo := fun hf rm => by
    show (roundTo rm neg m e false q).1 = _
    rw [he, if_neg fun g => hf g.1]
  refine ⟨fun rm => ?_, fun hf rm => ?_, fun hf => ⟨?_, ?_, ?_, fun hd => ⟨?_, ?_⟩, fun hd => ⟨?_, ?_⟩, fun hd => ⟨?_, ?_⟩, ?_⟩⟩
  · by_cases hf : f = 0
    · rw [he, if_pos ⟨hf, rfl⟩]; simp [hf]
    · rw [he, if_neg fun g => hf g.1]; simp [hf]
  · show (roundTo rm neg m e false q).1 = _
    rw [he, if_pos ⟨hf, rfl⟩]
  · exact hgo hf .rtz
  · exact hgo hf .rdn
  · rw [hgo hf .rup]; cases neg <;> rfl
  · rw [hgo hf, roundsUp_rne.1 hd]; rfl
  · rw [hgo hf, roundsUp, decide_eq_false (Nat.not_le.2 hd)]; rfl
  · rw [hgo hf, roundsUp_rne.2.1 hd]; rfl
  · rw [hgo hf, roundsUp, decide_eq_true hd.le]; rfl
  · rw [hgo hf, roundsUp_rne.2.2 hd]
    rcases Nat.mod_two_eq_zero_or_one lo with g | g <;> simp [g]
  · rw [hgo hf, roundsUp, decide_eq_true hd.ge]; rfl
  · rw [hgo hf, roundsUp]; simp only [decide_eq_true_eq]

end Sys2Proof.Machine
end

section
/-! SUPPORT. `roundTo` as the rounding of a real magnitude (R89, R95). -/

namespace Sys2Proof.Machine

/-! ### A magnitude between two neighbours -/

/-- The magnitude `x` is m · 2^e, or with `sticky` lies strictly between m · 2^e and (m + 1) · 2^e. -/
def Magnitude (m : ℕ) (e : ℤ) (sticky : Bool) (x : ℝ) : Prop :=
  if sticky then (m : ℝ) * 2 ^ e < x ∧ x < (m + 1) * 2 ^ e else x = m * 2 ^ e
/-- `g` units are `f` whole ones, or with `sticky` a little more. -/
def Excess (f : ℕ) (sticky : Bool) (g : ℝ) : Prop := if sticky then (f : ℝ) < g ∧ g < f + 1 else g = f

section
variable {f : ℕ} {sticky : Bool} {g : ℝ}

theorem Excess.ge (h : Excess f sticky g) : (f : ℝ) ≤ g := by
  cases sticky with
  | false => exact h.ge
  | true => exact h.1.le
theorem Excess.lt (h : Excess f sticky g) : g < f + 1 := by
  cases sticky with
  | false => exact lt_of_eq_of_lt h (lt_add_one _)
  | true => exact h.2
theorem Excess.lt_of_lt (h : Excess f sticky g) {k : ℕ} (hf : f < k) : g < k := h.lt.trans_le (by exact_mod_cast hf)
theorem Excess.eq_zero_iff (h : Excess f sticky g) : g = 0 ↔ f = 0 ∧ sticky = false := by
  cases sticky with
  | false => rw [show g = f from h]; simp
  | true =>
    have : (0 : ℝ) < g := lt_of_le_of_lt (Nat.cast_nonneg f) h.1
    simp [this.ne']
variable {k : ℕ} (hk : sticky = true → k % 2 = 0)
include hk
theorem Excess.two_mul_lt_iff (h : Excess f sticky g) : 2 * g < k ↔ 2 * f < k := by
  cases sticky with
  | false => rw [show g = f from h]; exact_mod_cast Iff.rfl
  | true =>
    obtain ⟨h1, h2⟩ := h
    have hk := hk rfl
    constructor
    · intro hg
      have : (2 * f : ℝ) < k := by linarith
      exact_mod_cast this
    · intro hf
      have : ((2 * f + 2 : ℕ) : ℝ) ≤ k := by exact_mod_cast (show 2 * f + 2 ≤ k by omega)
      push_cast at this
      linarith
theorem Excess.two_mul_eq_iff (h : Excess f sticky g) : 2 * g = k ↔ 2 * f = k ∧ sticky = false := by
  cases sticky with
  | false => rw [show g = f from h]; simp only [and_true]; exact_mod_cast Iff.rfl
  | true =>
    simp only [Bool.true_eq_false, and_false, iff_false]
    intro hg
    have h1 : ¬ 2 * f < k := fun hf => ((h.two_mul_lt_iff hk).2 hf).ne hg
    have h2 : (k : ℝ) ≤ 2 * f := by exact_mod_cast Nat.not_lt.1 h1
    linarith [h.1]

end

/-! ### The rounded neighbour -/

/-- The neighbour that a mode takes. -/
def neighbour (rm : Rm) (neg sticky : Bool) (lo f k : ℕ) : ℕ :=
  if f = 0 ∧ sticky = false then lo else if roundsUp rm neg sticky lo f k then lo + 1 else lo

section
variable {lo f k : ℕ} {neg sticky : Bool} {g y : ℝ} (hf : f < k) (hg : Excess f sticky g) (hy : y = lo + g / k)
include hf hg hy

theorem roundsInt_neighbour (rm : Rm) (hs : sticky = true → k % 2 = 0 ∧ ∀ r, rm ≠ .sr r) :
    RoundsInt rm neg y (neighbour rm neg sticky lo f k) := by
  have hk : (0 : ℝ) < k := by exact_mod_cast Nat.zero_lt_of_lt hf
  have hd : (y - lo) * k = g := by rw [hy]; field_simp; ring
  have hge : (0 : ℝ) ≤ g := (Nat.cast_nonneg f).trans hg.ge
  have hlt := hg.lt_of_lt hf
  have heven : sticky = true → k % 2 = 0 := fun h => (hs h).1
  have hzero : y = lo ↔ f = 0 ∧ sticky = false := by
    rw [← hg.eq_zero_iff, ← hd, mul_eq_zero, or_iff_left hk.ne', sub_eq_zero]
  have hhalf : y < lo + 1 / 2 ↔ 2 * f < k := by
    rw [← hg.two_mul_lt_iff heven, ← hd]
    constructor <;> intro h <;> nlinarith
  have htie : y = lo + 1 / 2 ↔ 2 * f = k ∧ sticky = false := by
    rw [← hg.two_mul_eq_iff heven, ← hd]
    constructor
    · rintro rfl; ring
    · intro h
      have : (y - lo - 1 / 2) * k = 0 := by linarith
      rcases mul_eq_zero.1 this with h | h
      · linarith
      · exact absurd h hk.ne'
  refine ⟨lo, by rw [hy]; linarith [div_nonneg hge hk.le], by rw [hy]; linarith [(div_lt_one hk).2 hlt], fun h => if_pos (hzero.1 h), fun h => ?_⟩
  have hn : neighbour rm neg sticky lo f k = if roundsUp rm neg sticky lo f k then lo + 1 else lo := if_neg (mt hzero.2 h)
  rw [hn]
  cases rm with
  | rtz => rfl
  | rdn => rfl
  | rup => cases neg <;> rfl
  | rne =>
    refine ⟨fun h => ?_, fun h => ?_, fun h => ?_⟩
    · have := hhalf.1 h
      simp [roundsUp, this.not_gt, this.ne]
    · have h1 : ¬ 2 * f < k := fun g => (hhalf.2 g).not_gt h
      have h2 : ¬ (2 * f = k ∧ sticky = false) := fun g => h.ne' (htie.2 g)
      rcases Nat.lt_or_eq_of_le (Nat.not_lt.1 h1) with g | g
      · simp [roundsUp, g]
      · cases sticky with
        | false => exact absurd ⟨g.symm, rfl⟩ h2
        | true => simp [roundsUp, ← g]
    · obtain ⟨h1, rfl⟩ := htie.1 h
      rw [roundsUp_rne.2.2 h1]
      rcases Nat.mod_two_eq_zero_or_one lo with g | g <;> simp [g]
  | rna =>
    refine ⟨fun h => ?_, fun h => ?_⟩
    · simp [roundsUp, hhalf.1 h]
    · simp [roundsUp, Nat.not_lt.1 (mt hhalf.2 (not_lt.2 h))]
  | sr r =>
    have hst : sticky = false := by
      cases sticky with
      | false => rfl
      | true => exact absurd rfl ((hs rfl).2 r)
    subst hst
    have hgf : g = f := hg
    have hyf : 2 ^ 32 * (y - lo) = ((2 ^ 32 * f : ℕ) : ℝ) / k := by rw [hy, hgf]; push_cast; ring
    refine ⟨2 ^ 32 * f / k, ?_, ?_, by simp only [roundsUp, decide_eq_true_eq]⟩
    · rw [hyf]; exact Nat.cast_div_le
    · rw [hyf, ← Nat.floor_div_eq_div (K := ℝ)]; exact Nat.lt_floor_add_one _
/-- A whole number is its own rounding, and nothing else is exact. -/
theorem eq_neighbour_iff (rm : Rm) : y = neighbour rm neg sticky lo f k ↔ f = 0 ∧ sticky = false := by
  have hk : (0 : ℝ) < k := by exact_mod_cast Nat.zero_lt_of_lt hf
  have hd : (y - lo) * k = g := by rw [hy]; field_simp; ring
  have hge : (0 : ℝ) ≤ g := (Nat.cast_nonneg f).trans hg.ge
  have hlt := hg.lt_of_lt hf
  constructor
  · intro h
    by_contra hne
    have hg0 : 0 < g := lt_of_le_of_ne hge fun e => hne (hg.eq_zero_iff.1 e.symm)
    have h1 : (lo : ℝ) < y := by rw [hy]; linarith [div_pos hg0 hk]
    have h2 : y < lo + 1 := by rw [hy]; linarith [(div_lt_one hk).2 hlt]
    rw [h] at h1 h2
    have h1' : lo < neighbour rm neg sticky lo f k := by exact_mod_cast h1
    have h2' : neighbour rm neg sticky lo f k < lo + 1 := by exact_mod_cast h2
    omega
  · intro h
    rw [neighbour, if_pos h, hy, (hg.eq_zero_iff).2 h, zero_div, add_zero]

end

/-! ### Powers of two -/

theorem two_zpow_pos (e : ℤ) : (0 : ℝ) < 2 ^ e := zpow_pos two_pos e
theorem two_zpow_toNat {e q : ℤ} (h : q ≤ e) : (2 : ℝ) ^ (e - q).toNat * 2 ^ q = 2 ^ e := by
  rw [← zpow_natCast, ← zpow_add₀ two_ne_zero, Int.toNat_of_nonneg (by omega), sub_add_cancel]

/-! ### `roundTo` -/

section
variable {m : ℕ} {e q : ℤ} {sticky : Bool} {x : ℝ}

theorem Magnitude.le (h : Magnitude m e sticky x) : m * (2 : ℝ) ^ e ≤ x := by
  cases sticky with
  | false => exact h.ge
  | true => exact h.1.le
theorem Magnitude.lt (h : Magnitude m e sticky x) : x < (m + 1) * (2 : ℝ) ^ e := by
  cases sticky with
  | false => rw [show x = _ from h]; exact mul_lt_mul_of_pos_right (lt_add_one _) (two_zpow_pos e)
  | true => exact h.2
/-- A magnitude at a coarser exponent: the whole part, and what is left of it in units of 2^e. -/
theorem Magnitude.parts (h : Magnitude m e sticky x) (hq : e ≤ q) {k : ℕ} (hk : k = 2 ^ (q - e).toNat) :
    ∃ g, Excess (m % k) sticky g ∧ x / 2 ^ q = (m / k : ℕ) + g / k := by
  have hkr : (k : ℝ) * 2 ^ e = 2 ^ q := by rw [hk]; push_cast; exact two_zpow_toNat hq
  have hkpos : (0 : ℝ) < k := by rw [hk]; positivity
  have hm : (m : ℝ) = k * (m / k : ℕ) + (m % k : ℕ) := by exact_mod_cast (Nat.div_add_mod m k).symm
  have he := two_zpow_pos e
  refine ⟨x / 2 ^ e - k * (m / k : ℕ), ?_, ?_⟩
  · cases sticky with
    | false =>
      show x / 2 ^ e - k * (m / k : ℕ) = (m % k : ℕ)
      rw [show x = _ from h, mul_div_cancel_right₀ _ he.ne', hm]; ring
    | true =>
      obtain ⟨h1, h2⟩ := h
      rw [← lt_div_iff₀ he, hm] at h1
      rw [← div_lt_iff₀ he, hm] at h2
      exact ⟨by linarith, by linarith⟩
  · rw [← hkr]; field_simp; ring

theorem roundTo_eq_neighbour (h : e ≤ q) (rm : Rm) (neg : Bool) {k : ℕ} (hk : k = 2 ^ (q - e).toNat) : roundTo rm neg m e sticky q =
    (neighbour rm neg sticky (m / k) (m % k) k, !decide (m % k = 0 ∧ sticky = false)) := by
  rw [roundTo_of_le h rm hk, neighbour]
  by_cases hf : m % k = 0 ∧ sticky = false
  · rw [if_pos hf, if_pos hf, decide_eq_true hf]; rfl
  · rw [if_neg hf, if_neg hf, decide_eq_false hf]; rfl
/-- Rounding to a multiple of 2^q, where a magnitude with `sticky` leaves a bit below it and does not round stochastically. -/
theorem roundTo_spec (h : Magnitude m e sticky x) (rm : Rm) (neg : Bool) (hs : sticky = true → e < q ∧ ∀ r, rm ≠ .sr r) :
    RoundsInt rm neg (x / 2 ^ q) (roundTo rm neg m e sticky q).1 ∧
      ((roundTo rm neg m e sticky q).2 = false ↔ x / 2 ^ q = (roundTo rm neg m e sticky q).1) := by
  by_cases hq : e ≤ q
  · obtain ⟨g, hg, hy⟩ := h.parts hq rfl
    have hk : 0 < 2 ^ (q - e).toNat := Nat.two_pow_pos _
    rw [roundTo_eq_neighbour hq rm neg rfl]
    refine ⟨roundsInt_neighbour (Nat.mod_lt m hk) hg hy rm fun h => ?_, ?_⟩
    · obtain ⟨h1, h2⟩ := hs h
      refine ⟨?_, h2⟩
      obtain ⟨n, hn⟩ : ∃ n, (q - e).toNat = n + 1 := ⟨(q - e).toNat - 1, by omega⟩
      rw [hn, Nat.pow_succ]; exact Nat.mul_mod_left ..
    · rw [eq_neighbour_iff (Nat.mod_lt m hk) hg hy rm]; simp
  · obtain rfl : sticky = false := Bool.eq_false_iff.2 fun h => hq (hs h).1.le
    have hy : x / 2 ^ q = (m * 2 ^ (e - q).toNat : ℕ) := by
      rw [show x = _ from h, div_eq_iff (two_zpow_pos q).ne']
      push_cast
      rw [mul_assoc, two_zpow_toNat (by omega)]
    rw [roundTo_of_ge (by omega)]
    exact ⟨⟨_, hy.ge, by rw [hy]; exact lt_add_one _, fun _ => rfl, fun g => absurd hy g⟩, by simp [hy]⟩

end

/-! ### Bounds and uniqueness of a rounded whole number -/

section
variable {rm : Rm} {neg : Bool} {x : ℝ} {n : ℕ}

theorem roundsInt_pair (h : RoundsInt rm neg x n) : ∃ lo : ℕ, (lo : ℝ) ≤ x ∧ x < lo + 1 ∧ (x = lo → n = lo) ∧ lo ≤ n ∧ n ≤ lo + 1 := by
  obtain ⟨lo, h1, h2, h3, h4⟩ := h
  refine ⟨lo, h1, h2, h3, ?_⟩
  by_cases hx : x = lo
  · rw [h3 hx]; omega
  have := h4 hx
  cases rm with
  | rtz => dsimp only at this; omega
  | rdn => dsimp only at this; split at this <;> omega
  | rup => dsimp only at this; split at this <;> omega
  | rne =>
    obtain ⟨g1, g2, g3⟩ := this
    rcases lt_trichotomy x (lo + 1 / 2) with g | g | g
    · rw [g1 g]; omega
    · rw [g3 g]; omega
    · rw [g2 g]; omega
  | rna =>
    obtain ⟨g1, g2⟩ := this
    rcases lt_or_ge x (lo + 1 / 2) with g | g
    · rw [g1 g]; omega
    · rw [g2 g]; omega
  | sr r =>
    obtain ⟨d, -, -, g⟩ := this
    split at g <;> omega
theorem roundsInt_le (h : RoundsInt rm neg x n) {b : ℕ} (hx : x < b) : n ≤ b := by
  obtain ⟨lo, h1, -, -, -, h5⟩ := roundsInt_pair h
  have : lo < b := by exact_mod_cast h1.trans_lt hx
  omega
theorem roundsInt_ge (h : RoundsInt rm neg x n) {b : ℕ} (hx : (b : ℝ) ≤ x) : b ≤ n := by
  obtain ⟨lo, -, h2, -, h4, -⟩ := roundsInt_pair h
  have : b < lo + 1 := by exact_mod_cast hx.trans_lt h2
  omega
theorem roundsInt_unique {n' : ℕ} (h : RoundsInt rm neg x n) (h' : RoundsInt rm neg x n') : n = n' := by
  obtain ⟨lo, h1, h2, h3, h4⟩ := h
  obtain ⟨lo', h1', h2', h3', h4'⟩ := h'
  obtain rfl : lo = lo' := by
    have a : lo < lo' + 1 := by exact_mod_cast h1.trans_lt h2'
    have b : lo' < lo + 1 := by exact_mod_cast h1'.trans_lt h2
    omega
  by_cases hx : x = lo
  · rw [h3 hx, h3' hx]
  have a := h4 hx
  have b := h4' hx
  cases rm with
  | rtz => exact a.trans b.symm
  | rdn => exact a.trans b.symm
  | rup => exact a.trans b.symm
  | rne =>
    rcases lt_trichotomy x (lo + 1 / 2) with g | g | g
    · rw [a.1 g, b.1 g]
    · rw [a.2.2 g, b.2.2 g]
    · rw [a.2.1 g, b.2.1 g]
  | rna =>
    rcases lt_or_ge x (lo + 1 / 2) with g | g
    · rw [a.1 g, b.1 g]
    · rw [a.2 g, b.2 g]
  | sr r =>
    obtain ⟨d, c1, c2, c3⟩ := a
    obtain ⟨d', c1', c2', c3'⟩ := b
    obtain rfl : d = d' := by
      have a : d < d' + 1 := by exact_mod_cast c1.trans_lt c2'
      have b : d' < d + 1 := by exact_mod_cast c1'.trans_lt c2
      omega
    rw [c3, c3']

end

end Sys2Proof.Machine
end

section
/-! SUPPORT. The encodings of the floating types (R82): an encoding is a sign and a body, and the bodies are ordered as their values are. -/

namespace Sys2Proof.Machine

/-! ### Bodies: exponent and fraction fields together -/

/-- Exponent of the least subnormal value of a type. -/
def ulp0 (t : ElemTy) : ℤ := 1 - fbias t - fracBits t
/-- The value that a sign and a body stand for, in a type whose encodings have no zero bits below the fraction. -/
def bodyNum (t : ElemTy) (neg : Bool) (b : ℕ) : Num :=
  let e := b / 2 ^ fracBits t
  let f := b % 2 ^ fracBits t
  let top := e == 2 ^ expBits t - 1
  if top && t == .e4m3 && f == 7 then .nan false
  else if top && t != .e4m3 && t != .e2m1 then if f = 0 then .inf neg else .nan (f / 2 ^ (fracBits t - 1) == 0)
  else if e = 0 then .fin neg f (1 - (fbias t : ℤ) - fracBits t) else .fin neg (2 ^ fracBits t + f) ((e : ℤ) - fbias t - fracBits t)
/-- The body of the largest finite encoding. -/
def maxBody (t : ElemTy) : ℕ := maxFinite t / 2 ^ fracShift t
/-- A significand at `k` steps above the least exponent, as an encoding holds it: it has its leading bit, or stands at the least exponent. -/
def Normal (t : ElemTy) (k m : ℕ) : Prop := m < 2 ^ (fracBits t + 1) ∧ (k = 0 ∨ 2 ^ fracBits t ≤ m)

theorem width_eq {t : ElemTy} (ht : isFloat t = true) : t.width = expBits t + (fracBits t + fracShift t) + 1 := by
  cases t with
  | f32 | bf16 | f16 | e4m3 | e5m2 | e2m1 | wf19 => rfl
  | i32 | i16 | i8 | i4 | n32 | n16 | n8 | n4 | c8 => cases ht
theorem fracShift_eq_zero {t : ElemTy} (h : t ≠ .wf19) : fracShift t = 0 := if_neg h
theorem width_eq_of_ne {t : ElemTy} (ht : isFloat t = true) (hw : t ≠ .wf19) : t.width = expBits t + fracBits t + 1 := by
  rw [width_eq ht, fracShift_eq_zero hw]; rfl
theorem signBit_eq (t : ElemTy) (neg : Bool) : signBit t neg = neg.toNat * 2 ^ (t.width - 1) := by cases neg <;> simp [signBit]
section
variable {t : ElemTy} {neg : Bool} {b : ℕ}

/-- What `unpackF` takes an encoding apart into, in a type with `E` exponent and `F` fraction bits. -/
theorem encoding_fields {E F : ℕ} (hb : b < 2 ^ (E + F)) (s : Bool) :
    let x := s.toNat * 2 ^ (E + F) + b
    x < 2 ^ (E + F + 1) ∧ (x / 2 ^ (E + F) == 1) = s ∧ x / 2 ^ F % 2 ^ E = b / 2 ^ F ∧ x % 2 ^ F = b % 2 ^ F := by
  intro x
  have hs := Bool.toNat_le s
  have hx : x = b + s.toNat * 2 ^ E * 2 ^ F := by rw [Nat.mul_assoc, ← Nat.pow_add, Nat.add_comm]
  have hE : b / 2 ^ F < 2 ^ E := Nat.div_lt_of_lt_mul (by rwa [← Nat.pow_add, Nat.add_comm F E])
  refine ⟨?_, ?_, ?_, ?_⟩
  · show s.toNat * 2 ^ (E + F) + b < 2 ^ (E + F + 1)
    have : 2 ^ (E + F + 1) = 2 ^ (E + F) * 2 := rfl
    nlinarith
  · show ((s.toNat * 2 ^ (E + F) + b) / 2 ^ (E + F) == 1) = s
    rw [Nat.add_comm, Nat.add_mul_div_right _ _ (Nat.two_pow_pos _), Nat.div_eq_of_lt hb, Nat.zero_add]
    cases s <;> rfl
  · rw [hx, Nat.add_mul_div_right _ _ (Nat.two_pow_pos _), Nat.add_mul_mod_self_right, Nat.mod_eq_of_lt hE]
  · rw [hx, Nat.add_mul_mod_self_right]
theorem unpackF_encoding (ht : isFloat t = true) (hw : t ≠ .wf19) (hb : b < 2 ^ (t.width - 1)) : unpackF t (signBit t neg + b) = bodyNum t neg b := by
  have hwidth := width_eq_of_ne ht hw
  rw [hwidth, Nat.add_sub_cancel] at hb
  obtain ⟨h1, h2, h3, h4⟩ := encoding_fields hb neg
  unfold unpackF
  dsimp only
  rw [if_neg hw, signBit_eq, hwidth, Nat.add_sub_cancel, Nat.mod_eq_of_lt h1, h2, h3, h4]; rfl
/-- No body up to that of the largest finite value is one of an infinity or a NaN. -/
theorem not_top_of_le (ht : isFloat t = true) (hw : t ≠ .wf19) (hb : b ≤ maxBody t) (he : b / 2 ^ fracBits t = 2 ^ expBits t - 1) :
    t = .e2m1 ∨ (t = .e4m3 ∧ b % 2 ^ fracBits t ≠ 7) := by
  cases t with
  | i32 | i16 | i8 | i4 | n32 | n16 | n8 | n4 | c8 => cases ht
  | wf19 => exact absurd rfl hw
  | e2m1 => exact .inl rfl
  | e4m3 =>
    refine .inr ⟨rfl, ?_⟩
    simp only [maxBody, maxFinite, fracShift, fracBits, expBits, reduceCtorEq, if_false] at hb he ⊢
    omega
  | f32 | bf16 | f16 | e5m2 =>
    simp only [maxBody, maxFinite, fracShift, fracBits, expBits, reduceCtorEq, if_false] at hb he
    omega
/-- A finite value, by its place above the least exponent. -/
theorem bodyNum_of_le (ht : isFloat t = true) (hw : t ≠ .wf19) (hb : b ≤ maxBody t) :
    ∃ k m, Normal t k m ∧ k * 2 ^ fracBits t + m = b ∧ bodyNum t neg b = .fin neg m (ulp0 t + k) := by
  have htop := not_top_of_le ht hw hb
  have hdm := Nat.div_add_mod b (2 ^ fracBits t)
  have hf : b % 2 ^ fracBits t < 2 ^ fracBits t := Nat.mod_lt _ (Nat.two_pow_pos _)
  unfold bodyNum
  dsimp only
  rw [if_neg ?h1, if_neg ?h2]
  case h1 =>
    intro h
    simp only [Bool.and_eq_true, beq_iff_eq] at h
    obtain ⟨⟨h1, h2⟩, h3⟩ := h
    rcases htop h1 with g | g
    · rw [h2] at g; cases g
    · exact g.2 h3
  case h2 =>
    intro h
    simp only [Bool.and_eq_true, beq_iff_eq, bne_iff_ne] at h
    obtain ⟨⟨h1, h2⟩, h3⟩ := h
    rcases htop h1 with g | g
    · exact h3 g
    · exact h2 g.1
  by_cases he : b / 2 ^ fracBits t = 0
  · rw [he, Nat.mul_zero, Nat.zero_add] at hdm
    refine ⟨0, b, ⟨?_, .inl rfl⟩, by omega, ?_⟩
    · rw [Nat.pow_succ]; omega
    · rw [if_pos he, hdm]; simp [ulp0]
  · obtain ⟨k, hk⟩ := Nat.exists_eq_succ_of_ne_zero he
    rw [hk, Nat.mul_succ, Nat.mul_comm] at hdm
    refine ⟨k, 2 ^ fracBits t + b % 2 ^ fracBits t, ⟨?_, .inr (Nat.le_add_right ..)⟩, by omega, ?_⟩
    · rw [Nat.pow_succ]; omega
    · rw [if_neg he, hk, ulp0]; congr 1; push_cast; ring

end

/-! ### The order of bodies -/

section
variable {t : ElemTy} {k m k' m' : ℕ}

/-- Of two values at normal places, the one that is no greater has the body that is no greater. -/
theorem body_le_of_value_le (h : k = 0 ∨ 2 ^ fracBits t ≤ m) (hm : m ≤ 2 ^ (fracBits t + 1)) (h' : Normal t k' m') (h1 : k < k' → 2 ^ fracBits t ≤ m')
    (hv : m * 2 ^ k ≤ m' * 2 ^ k') : k * 2 ^ fracBits t + m ≤ k' * 2 ^ fracBits t + m' := by
  obtain ⟨hm', -⟩ := h'
  rw [Nat.pow_succ] at hm hm'
  rcases Nat.lt_trichotomy k k' with hk | rfl | hk
  · have := h1 hk
    have : (k + 1) * 2 ^ fracBits t ≤ k' * 2 ^ fracBits t := Nat.mul_le_mul_right _ hk
    rw [Nat.succ_mul] at this
    omega
  · have := Nat.le_of_mul_le_mul_right hv (Nat.two_pow_pos k)
    omega
  · exfalso
    have h2 := h.resolve_left (by omega)
    have h3 : 2 ^ (k' + 1) ≤ 2 ^ k := Nat.pow_le_pow_right two_pos hk
    have h4 : 2 ^ fracBits t * 2 ^ (k' + 1) ≤ m * 2 ^ k := Nat.mul_le_mul h2 h3
    have h5 : m' * 2 ^ k' < 2 ^ fracBits t * 2 * 2 ^ k' := Nat.mul_lt_mul_of_pos_right hm' (Nat.two_pow_pos k')
    rw [Nat.pow_succ] at h4
    nlinarith
/-- A significand that has carried into the next binade. -/
theorem normal_of_carry (h : k = 0 ∨ 2 ^ fracBits t ≤ m) (hm : m ≤ 2 ^ (fracBits t + 1)) :
    ∃ k' m', Normal t k' m' ∧ k' * 2 ^ fracBits t + m' = k * 2 ^ fracBits t + m ∧ m' * 2 ^ k' = m * 2 ^ k := by
  rcases Nat.lt_or_eq_of_le hm with hlt | rfl
  · exact ⟨k, m, ⟨hlt, h⟩, rfl, rfl⟩
  · exact ⟨k + 1, 2 ^ fracBits t, ⟨Nat.pow_lt_pow_right one_lt_two (Nat.lt_succ_self _), .inr le_rfl⟩,
      by rw [Nat.succ_mul, Nat.pow_succ]; ring, by rw [Nat.pow_succ, Nat.pow_succ]; ring⟩
/-- A body has one normal place. -/
theorem normal_unique (h : Normal t k m) (h' : Normal t k' m') (hb : k * 2 ^ fracBits t + m = k' * 2 ^ fracBits t + m') : k = k' ∧ m = m' := by
  obtain ⟨h1, h2⟩ := h
  obtain ⟨h1', h2'⟩ := h'
  rw [Nat.pow_succ] at h1 h1'
  rcases Nat.lt_trichotomy k k' with hk | rfl | hk
  · have := h2'.resolve_left (by omega)
    have : (k + 1) * 2 ^ fracBits t ≤ k' * 2 ^ fracBits t := Nat.mul_le_mul_right _ hk
    rw [Nat.succ_mul] at this
    omega
  · exact ⟨rfl, by omega⟩
  · have := h2.resolve_left (by omega)
    have : (k' + 1) * 2 ^ fracBits t ≤ k * 2 ^ fracBits t := Nat.mul_le_mul_right _ hk
    rw [Nat.succ_mul] at this
    omega

end

/-! ### The value of a finite encoding -/

section
variable {t : ElemTy}

/-- The place of the largest finite value (R82). -/
theorem largest_place (ht : isFloat t = true) : ∃ k m, Normal t k m ∧ 2 ^ fracBits t ≤ m ∧ 1 ≤ k ∧ k * 2 ^ fracBits t + m = maxBody t ∧
    ((Largest t).1 : ℝ) * 2 ^ (Largest t).2 = m * 2 ^ (ulp0 t + k) := by
  cases t with
  | i32 | i16 | i8 | i4 | n32 | n16 | n8 | n4 | c8 => cases ht
  | f32 => exact ⟨253, 2 ^ 24 - 1, by unfold Normal; decide, by decide, by decide, by decide, by norm_num [Largest, ulp0, fbias, expBits, fracBits]⟩
  | wf19 => exact ⟨253, 2 ^ 11 - 1, by unfold Normal; decide, by decide, by decide, by decide, by norm_num [Largest, ulp0, fbias, expBits, fracBits]⟩
  | bf16 => exact ⟨253, 2 ^ 8 - 1, by unfold Normal; decide, by decide, by decide, by decide, by norm_num [Largest, ulp0, fbias, expBits, fracBits]⟩
  | f16 => exact ⟨29, 2 ^ 11 - 1, by unfold Normal; decide, by decide, by decide, by decide, by norm_num [Largest, ulp0, fbias, expBits, fracBits]⟩
  | e5m2 => exact ⟨29, 7, by unfold Normal; decide, by decide, by decide, by decide, by norm_num [Largest, ulp0, fbias, expBits, fracBits]⟩
  | e4m3 => exact ⟨14, 14, by unfold Normal; decide, by decide, by decide, by decide, by norm_num [Largest, ulp0, fbias, expBits, fracBits]⟩
  | e2m1 => exact ⟨2, 3, by unfold Normal; decide, by decide, by decide, by decide, by norm_num [Largest, ulp0, fbias, expBits, fracBits]⟩
theorem maxBody_lt (ht : isFloat t = true) : maxBody t * 2 ^ fracShift t < 2 ^ (t.width - 1) := by
  cases t with
  | i32 | i16 | i8 | i4 | n32 | n16 | n8 | n4 | c8 => cases ht
  | f32 | bf16 | f16 | e4m3 | e5m2 | e2m1 | wf19 => decide
theorem signBit_add_lt (ht : isFloat t = true) (neg : Bool) {b : ℕ} (hb : b < 2 ^ (t.width - 1)) : signBit t neg + b < 2 ^ t.width := by
  obtain ⟨w, hw⟩ : ∃ w, t.width = w + 1 := ⟨_, width_eq ht⟩
  have := Bool.toNat_le neg
  rw [signBit_eq, hw, Nat.pow_succ]
  rw [hw] at hb
  rw [Nat.add_sub_cancel] at hb ⊢
  nlinarith
/-- What the encoding of a body that is no greater than the greatest reads as. -/
theorem unpackF_of_body (ht : isFloat t = true) (neg : Bool) {k m : ℕ} (h : Normal t k m) (hb : k * 2 ^ fracBits t + m ≤ maxBody t) :
    ∃ m' e, unpackF t (signBit t neg + (k * 2 ^ fracBits t + m) * 2 ^ fracShift t) = .fin neg m' e ∧
      (m' : ℝ) * 2 ^ e = m * 2 ^ (ulp0 t + k) := by
  by_cases hw : t = .wf19
  · subst hw
    have hn : Normal .f32 k (m * 2 ^ 13) := by
      obtain ⟨h1, h2⟩ := h
      simp only [Normal, fracBits] at h1 h2 ⊢
      omega
    have hb' : (k * 2 ^ fracBits .wf19 + m) * 2 ^ fracShift .wf19 = k * 2 ^ fracBits .f32 + m * 2 ^ 13 := by
      simp only [fracBits, fracShift, if_pos]; ring
    have hle : k * 2 ^ fracBits .f32 + m * 2 ^ 13 ≤ maxBody .f32 := by
      rw [← hb']
      exact (Nat.mul_le_mul_right _ hb).trans (by decide)
    obtain ⟨k', m', hn', hk', hu⟩ := bodyNum_of_le (neg := neg) rfl (by decide) hle
    obtain ⟨rfl, rfl⟩ := normal_unique hn' hn hk'
    refine ⟨m * 2 ^ 13, ulp0 .f32 + k', ?_, ?_⟩
    · rw [hb']
      exact (unpackF_encoding (t := .f32) rfl (by decide) (hle.trans_lt (by decide))).trans hu
    · have hu0 : ulp0 .wf19 = 13 + ulp0 .f32 := by decide
      rw [hu0, add_assoc, zpow_add₀ two_ne_zero 13, ← mul_assoc]
      norm_num
  · have hs := fracShift_eq_zero hw
    have hlt := maxBody_lt ht
    rw [hs, Nat.pow_zero, Nat.mul_one] at hlt
    obtain ⟨k', m', hn', hk', hu⟩ := bodyNum_of_le (neg := neg) ht hw hb
    obtain ⟨rfl, rfl⟩ := normal_unique hn' h hk'
    refine ⟨_, _, ?_, rfl⟩
    rw [hs, Nat.pow_zero, Nat.mul_one]
    exact (unpackF_encoding ht hw (hb.trans_lt hlt)).trans hu
theorem maxFinite_eq (ht : isFloat t = true) : maxFinite t = signBit t false + maxBody t * 2 ^ fracShift t := by
  cases t with
  | i32 | i16 | i8 | i4 | n32 | n16 | n8 | n4 | c8 => cases ht
  | f32 | bf16 | f16 | e4m3 | e5m2 | e2m1 | wf19 => rfl
theorem unpackF_maxFinite (ht : isFloat t = true) : ∃ m e, unpackF t (maxFinite t) = .fin false m e ∧
    (m : ℝ) * 2 ^ e = (Largest t).1 * 2 ^ (Largest t).2 := by
  obtain ⟨k, m, hn, -, -, hb, hv⟩ := largest_place ht
  obtain ⟨m', e, hu, hv'⟩ := unpackF_of_body ht false hn hb.le
  exact ⟨m', e, by rw [maxFinite_eq ht, ← hb]; exact hu, hv'.trans hv.symm⟩

end

end Sys2Proof.Machine
end

section
/-! SUPPORT. `roundF` is one rounding of a nonzero real (R89, R90, R92). -/

namespace Sys2Proof.Machine

/-! ### Comparing dyadic numbers -/

theorem scaledLt_iff (a : ℕ) (e : ℤ) (b : ℕ) (f : ℤ) : scaledLt a e b f = true ↔ (a : ℝ) * 2 ^ e < b * 2 ^ f := by
  have he : (2 : ℝ) ^ (e - f).toNat * 2 ^ min e f = 2 ^ e := by
    rw [← zpow_natCast, ← zpow_add₀ two_ne_zero]; congr 1; omega
  have hf : (2 : ℝ) ^ (f - e).toNat * 2 ^ min e f = 2 ^ f := by
    rw [← zpow_natCast, ← zpow_add₀ two_ne_zero]; congr 1; omega
  rw [scaledLt, decide_eq_true_iff, ← he, ← hf, ← mul_assoc, ← mul_assoc, mul_lt_mul_iff_left₀ (two_zpow_pos _)]
  exact_mod_cast Iff.rfl

/-! ### Overflow (R90) -/

theorem towardZero_iff (rm : Rm) (neg : Bool) :
    rm.towardZero neg = true ↔ rm = .rtz ∨ (rm = .rdn ∧ neg = false) ∨ (rm = .rup ∧ neg = true) := by
  cases rm <;> simp [Rm.towardZero]
theorem overflowed_spec {t : ElemTy} (ht : isFloat t = true) (rm : Rm) {w : Work} (hw : t = .e4m3 → w ≠ .arith) (neg : Bool) :
    OverflowGives t rm w neg (overflowed t rm w neg) := by
  unfold OverflowGives overflowed
  dsimp only
  by_cases h : rm.towardZero neg = true
  · rw [if_pos h, if_pos ((towardZero_iff rm neg).1 h)]; rfl
  rw [if_neg h, if_neg (mt (towardZero_iff rm neg).2 h)]
  cases t with
  | i32 | i16 | i8 | i4 | n32 | n16 | n8 | n4 | c8 => cases ht
  | e2m1 => rw [if_pos (.inl rfl)]; rfl
  | e4m3 =>
    rcases w with _ | _ | _
    · exact absurd rfl (hw rfl)
    · rfl
    · rfl
  | f32 | wf19 => rcases w with _ | _ | _ <;> rfl
  | f16 | bf16 | e5m2 => rcases w with _ | _ | _ <;> rfl

/-! ### What `roundF` does -/

section
variable {t : ElemTy} {rm : Rm} {ftzo : Bool} {w : Work} {neg : Bool} {m : ℕ} {e : ℤ} {sticky : Bool}

/-- The exponent of the leading bit. -/
def topOf (m : ℕ) (e : ℤ) : ℤ := e + m.log2
/-- The exponent of the least normal value of a type. -/
def eminOf (t : ElemTy) : ℤ := 1 - fbias t
/-- The significand rounded with the exponent range unbounded (R89). -/
def freeOf (t : ElemTy) (rm : Rm) (neg : Bool) (m : ℕ) (e : ℤ) (sticky : Bool) : ℕ :=
  (roundTo rm neg m e sticky (topOf m e - fracBits t)).1
/-- The significand rounded to the last place of the type, and whether that is inexact. -/
def keptOf (t : ElemTy) (rm : Rm) (neg : Bool) (m : ℕ) (e : ℤ) (sticky : Bool) : ℕ × Bool :=
  roundTo rm neg m e sticky (max (topOf m e) (eminOf t) - fracBits t)
/-- The value rounded with the exponent range unbounded. -/
noncomputable def freeValue (t : ElemTy) (rm : Rm) (neg : Bool) (m : ℕ) (e : ℤ) (sticky : Bool) : ℝ :=
  freeOf t rm neg m e sticky * 2 ^ (topOf m e - fracBits t)

theorem roundF_eq (hm : m ≠ 0) {a : ℕ} {b : ℤ} (hbig : unpackF t (maxFinite t) = .fin false a b) : roundF t rm ftzo w neg m e sticky =
    if scaledLt a b (freeOf t rm neg m e sticky) (topOf m e - fracBits t) then overflowed t rm w neg
    else if scaledLt (freeOf t rm neg m e sticky) (topOf m e - fracBits t) 1 (eminOf t) && ftzo then ⟨signBit t neg, flUnderflow ||| flInexact⟩
    else
      ⟨signBit t neg + ((max (topOf m e) (eminOf t) - eminOf t).toNat * 2 ^ fracBits t + (keptOf t rm neg m e sticky).1) * 2 ^ fracShift t,
        flagIf (keptOf t rm neg m e sticky).2 flInexact |||
          flagIf (scaledLt (freeOf t rm neg m e sticky) (topOf m e - fracBits t) 1 (eminOf t) && (keptOf t rm neg m e sticky).2) flUnderflow⟩ := by
  unfold roundF
  rw [if_neg hm, hbig, show (max (topOf m e) (eminOf t) - eminOf t).toNat =
    (max (topOf m e) (eminOf t) - fracBits t + fracBits t - eminOf t).toNat by rw [sub_add_cancel]]
  rfl
theorem scaledLt_free_iff : scaledLt (freeOf t rm neg m e sticky) (topOf m e - fracBits t) 1 (eminOf t) = true ↔
    freeValue t rm neg m e sticky < 2 ^ eminOf t := by
  rw [scaledLt_iff, Nat.cast_one, one_mul]; rfl
theorem roundF_of_overflow (ht : isFloat t = true) (hm : m ≠ 0)
    (h : (Largest t).1 * (2 : ℝ) ^ (Largest t).2 < freeValue t rm neg m e sticky) : roundF t rm ftzo w neg m e sticky = overflowed t rm w neg := by
  obtain ⟨a, b, hu, hv⟩ := unpackF_maxFinite ht
  rw [roundF_eq hm hu, if_pos ((scaledLt_iff ..).2 (by rw [hv]; exact h))]
section
variable (ht : isFloat t = true) (hm : m ≠ 0) (h : freeValue t rm neg m e sticky ≤ (Largest t).1 * (2 : ℝ) ^ (Largest t).2)
include ht hm h
theorem roundF_of_flush (htiny : freeValue t rm neg m e sticky < 2 ^ eminOf t) :
    roundF t rm true w neg m e sticky = ⟨signBit t neg, flUnderflow ||| flInexact⟩ := by
  obtain ⟨a, b, hu, hv⟩ := unpackF_maxFinite ht
  rw [roundF_eq hm hu, if_neg fun g => h.not_gt (by rw [scaledLt_iff, hv] at g; exact g), scaledLt_free_iff.2 htiny]; rfl
theorem roundF_of_kept (hf : (2 : ℝ) ^ eminOf t ≤ freeValue t rm neg m e sticky ∨ ftzo = false) : roundF t rm ftzo w neg m e sticky =
    ⟨signBit t neg + ((max (topOf m e) (eminOf t) - eminOf t).toNat * 2 ^ fracBits t + (keptOf t rm neg m e sticky).1) * 2 ^ fracShift t,
      flagIf (keptOf t rm neg m e sticky).2 flInexact |||
        flagIf (decide (freeValue t rm neg m e sticky < 2 ^ eminOf t) && (keptOf t rm neg m e sticky).2) flUnderflow⟩ := by
  obtain ⟨a, b, hu, hv⟩ := unpackF_maxFinite ht
  have hd : scaledLt (freeOf t rm neg m e sticky) (topOf m e - fracBits t) 1 (eminOf t) =
      decide (freeValue t rm neg m e sticky < 2 ^ eminOf t) := by
    rw [Bool.eq_iff_iff, scaledLt_free_iff, decide_eq_true_iff]
  rw [roundF_eq hm hu, if_neg fun g => h.not_gt (by rw [scaledLt_iff, hv] at g; exact g), hd, if_neg]
  rcases hf with g | g
  · rw [decide_eq_false g.not_gt]; exact Bool.false_ne_true
  · rw [g, Bool.and_false]; exact Bool.false_ne_true
end

/-! ### The magnitude, and the significand that is kept -/

variable {x : ℝ}

theorem topOf_spec (h : Magnitude m e sticky x) (hm : m ≠ 0) : (2 : ℝ) ^ topOf m e ≤ x ∧ x < (2 : ℝ) ^ (topOf m e + 1) := by
  have h1 : (2 : ℝ) ^ m.log2 ≤ m := by exact_mod_cast Nat.log2_self_le hm
  have h2 : (m : ℝ) + 1 ≤ 2 ^ (m.log2 + 1) := by exact_mod_cast Nat.succ_le_of_lt (Nat.lt_log2_self (n := m))
  have he := two_zpow_pos e
  rw [topOf, add_comm e, add_right_comm, zpow_add₀ two_ne_zero, zpow_add₀ two_ne_zero]
  refine ⟨(mul_le_mul_of_nonneg_right ?_ he.le).trans h.le, h.lt.trans_le (mul_le_mul_of_nonneg_right ?_ he.le)⟩
  · exact_mod_cast h1
  · exact_mod_cast h2
theorem roundTo_spec_of_le {rm : Rm} (h : Magnitude m e sticky x) (hs : sticky = true → fracBits t < m.log2 ∧ ∀ r, rm ≠ .sr r) (neg : Bool)
    {q : ℤ} (hq : topOf m e - fracBits t ≤ q) : RoundsInt rm neg (x / 2 ^ q) (roundTo rm neg m e sticky q).1 ∧
      ((roundTo rm neg m e sticky q).2 = false ↔ x / 2 ^ q = (roundTo rm neg m e sticky q).1) := by
  refine roundTo_spec h rm neg fun g => ⟨?_, (hs g).2⟩
  have := (hs g).1
  rw [topOf] at hq
  omega
/-- The significand that is kept stands at a place of the type. -/
theorem kept_normal {rm : Rm} (h : Magnitude m e sticky x) (hm : m ≠ 0)
    (hr : RoundsInt rm neg (x / 2 ^ (max (topOf m e) (eminOf t) - fracBits t)) (keptOf t rm neg m e sticky).1) :
    ((max (topOf m e) (eminOf t) - eminOf t).toNat = 0 ∨ 2 ^ fracBits t ≤ (keptOf t rm neg m e sticky).1) ∧
      (keptOf t rm neg m e sticky).1 ≤ 2 ^ (fracBits t + 1) := by
  obtain ⟨h1, h2⟩ := topOf_spec h hm
  have hq := two_zpow_pos (max (topOf m e) (eminOf t) - fracBits t)
  refine ⟨?_, roundsInt_le hr ?_⟩
  · by_cases hn : topOf m e ≤ eminOf t
    · exact .inl (by omega)
    · refine .inr (roundsInt_ge hr ?_)
      rw [le_div_iff₀ hq, max_eq_left (by omega)]
      push_cast
      rw [← zpow_natCast, ← zpow_add₀ two_ne_zero, add_sub_cancel]
      exact h1
  · rw [div_lt_iff₀ hq]
    push_cast
    rw [← zpow_natCast, ← zpow_add₀ two_ne_zero]
    refine h2.trans_le (zpow_le_zpow_right₀ one_le_two ?_)
    push_cast
    omega
/-- What is kept does not pass the largest finite value. -/
theorem kept_body_le (ht : isFloat t = true) (hk : (max (topOf m e) (eminOf t) - eminOf t).toNat = 0 ∨ 2 ^ fracBits t ≤ (keptOf t rm neg m e sticky).1)
    (hn : (keptOf t rm neg m e sticky).1 ≤ 2 ^ (fracBits t + 1)) (hsmall : topOf m e < eminOf t → (keptOf t rm neg m e sticky).1 ≤ 2 ^ fracBits t)
    (h : freeValue t rm neg m e sticky ≤ (Largest t).1 * (2 : ℝ) ^ (Largest t).2) :
    (max (topOf m e) (eminOf t) - eminOf t).toNat * 2 ^ fracBits t + (keptOf t rm neg m e sticky).1 ≤ maxBody t := by
  obtain ⟨k, n, hnorm, hlead, hk1, hb, hv⟩ := largest_place ht
  rw [← hb]
  refine body_le_of_value_le hk hn hnorm (fun _ => hlead) ?_
  by_cases hE : topOf m e < eminOf t
  · have h0 : (max (topOf m e) (eminOf t) - eminOf t).toNat = 0 := by omega
    rw [h0, Nat.pow_zero, Nat.mul_one]
    exact (hsmall hE).trans (hlead.trans (Nat.le_mul_of_pos_right _ (Nat.two_pow_pos k)))
  · have hmax : max (topOf m e) (eminOf t) = topOf m e := max_eq_left (not_lt.1 hE)
    have hfree : freeValue t rm neg m e sticky = (keptOf t rm neg m e sticky).1 * 2 ^ (topOf m e - eminOf t).toNat * 2 ^ ulp0 t := by
      rw [freeValue, freeOf, keptOf, hmax, mul_assoc, ← zpow_natCast, ← zpow_add₀ two_ne_zero, ulp0, eminOf]
      congr 2
      have : 1 - (fbias t : ℤ) ≤ topOf m e := not_lt.1 hE
      omega
    rw [hmax]
    rw [hfree, hv, zpow_add₀ two_ne_zero, mul_comm ((2 : ℝ) ^ ulp0 t), ← mul_assoc, mul_le_mul_iff_left₀ (two_zpow_pos _)] at h
    exact_mod_cast h

/-- The flags of a value that is kept. -/
theorem keptFlags (i tiny : Bool) : (i = false → flagIf i flInexact ||| flagIf (tiny && i) flUnderflow = 0) ∧
    (i = true → tiny = true → flagIf i flInexact ||| flagIf (tiny && i) flUnderflow = flInexact ||| flUnderflow) ∧
    (i = true → tiny = false → flagIf i flInexact ||| flagIf (tiny && i) flUnderflow = flInexact) := by
  revert i tiny; decide

/-- R89, R90, R92: a nonzero real is rounded once, from its magnitude with or without a sticky bit. -/
theorem roundsTo_roundF {v : ℝ} (ht : isFloat t = true) (hw : t = .e4m3 → w ≠ .arith) (hm : m ≠ 0) (h : Magnitude m e sticky |v|)
    (hneg : neg = true ↔ v < 0) (hs : sticky = true → fracBits t < m.log2 ∧ ∀ r, rm ≠ .sr r) :
    RoundsTo t rm ftzo w v (roundF t rm ftzo w neg m e sticky) := by
  obtain ⟨h1, h2⟩ := topOf_spec h hm
  obtain ⟨hu, -⟩ := roundTo_spec_of_le (t := t) h hs neg le_rfl
  obtain ⟨hr, hexact⟩ := roundTo_spec_of_le (t := t) h hs neg (q := max (topOf m e) (eminOf t) - fracBits t) (by omega)
  have hq := two_zpow_pos (max (topOf m e) (eminOf t) - fracBits t)
  have hexact' : (keptOf t rm neg m e sticky).2 = false ↔
      (keptOf t rm neg m e sticky).1 * (2 : ℝ) ^ (max (topOf m e) (eminOf t) - fracBits t) = |v| := by
    rw [eq_comm (b := |v|), ← div_eq_iff hq.ne']; exact hexact
  refine ⟨neg, topOf m e, freeOf t rm neg m e sticky, (keptOf t rm neg m e sticky).1, hneg, h1, h2, hu, hr, fun ho => ?_,
    fun hle => ⟨fun htiny hf => ?_, fun hf => ?_⟩⟩
  · rw [roundF_of_overflow ht hm ho]
    exact overflowed_spec ht rm hw neg
  · subst hf
    exact roundF_of_flush ht hm hle htiny
  · rw [roundF_of_kept ht hm hle hf]
    obtain ⟨hk, hn⟩ := kept_normal h hm hr
    have hb := kept_body_le ht hk hn (fun hE => roundsInt_le hr ?_) hle
    · obtain ⟨k', m', hnorm, hbody, hval⟩ := normal_of_carry hk hn
      rw [← hbody] at hb ⊢
      obtain ⟨m₂, e₂, hun, hv₂⟩ := unpackF_of_body ht neg hnorm hb
      obtain ⟨f1, f2, f3⟩ := keptFlags (keptOf t rm neg m e sticky).2 (decide (freeValue t rm neg m e sticky < 2 ^ eminOf t))
      refine ⟨?_, ⟨m₂, e₂, hun, hv₂.trans ?_⟩, fun hx => f1 (hexact'.2 hx),
        fun hx ht => f2 (Bool.eq_true_of_not_eq_false (mt hexact'.1 hx)) (decide_eq_true ht),
        fun hx ht => f3 (Bool.eq_true_of_not_eq_false (mt hexact'.1 hx)) (decide_eq_false ht.not_gt)⟩
      · exact signBit_add_lt ht neg ((Nat.mul_le_mul_right _ hb).trans_lt (maxBody_lt ht))
      · have hz : (2 : ℝ) ^ (max (topOf m e) (eminOf t) - fracBits t) = 2 ^ ulp0 t * 2 ^ (max (topOf m e) (eminOf t) - eminOf t).toNat := by
          rw [← zpow_natCast, ← zpow_add₀ two_ne_zero, ulp0, eminOf]; congr 1; omega
        have hval' : (m' : ℝ) * 2 ^ k' = (keptOf t rm neg m e sticky).1 * 2 ^ (max (topOf m e) (eminOf t) - eminOf t).toNat := by exact_mod_cast hval
        show _ = _ * (2 : ℝ) ^ (max (topOf m e) (eminOf t) - fracBits t)
        rw [hz, zpow_add₀ two_ne_zero, zpow_natCast, mul_left_comm, hval', mul_left_comm]
    · rw [div_lt_iff₀ hq]
      push_cast
      rw [← zpow_natCast, ← zpow_add₀ two_ne_zero]
      refine h2.trans_le (zpow_le_zpow_right₀ one_le_two ?_)
      omega

end

end Sys2Proof.Machine
end

section
/-! SUPPORT. Exact sums, products, quotients and roots, each rounded once (R84, R89, R105). -/

namespace Sys2Proof.Machine

/-! ### The real number of a finite value -/

/-- The real number that a finite value stands for; 0 of an infinity or a NaN. -/
noncomputable def Num.real : Num → ℝ
  | .fin neg m e => (if neg then -1 else 1) * m * 2 ^ e
  | _ => 0

theorem valueIs_iff (x : Num) (v : ℝ) : ValueIs x v ↔ (∃ n m e, x = .fin n m e) ∧ v = x.real := by
  cases x <;> simp [ValueIs, Num.real]
theorem real_of_valueIs {x : Num} {v : ℝ} (h : ValueIs x v) : v = x.real := ((valueIs_iff x v).1 h).2
theorem fin_of_valueIs {x : Num} {v : ℝ} (h : ValueIs x v) : ∃ n m e, x = .fin n m e := ((valueIs_iff x v).1 h).1
theorem valueIs_fin (n : Bool) (m : ℕ) (e : ℤ) : ValueIs (.fin n m e) (Num.fin n m e).real := rfl
theorem abs_real_fin (n : Bool) (m : ℕ) (e : ℤ) : |(Num.fin n m e).real| = m * 2 ^ e := by
  have h : (0 : ℝ) ≤ m * 2 ^ e := mul_nonneg (Nat.cast_nonneg m) (two_zpow_pos e).le
  cases n
  · rw [Num.real, if_neg Bool.false_ne_true, one_mul, abs_of_nonneg h]
  · rw [Num.real, if_pos rfl, neg_one_mul, neg_mul, abs_neg, abs_of_nonneg h]
theorem real_fin_eq_zero_iff (n : Bool) (m : ℕ) (e : ℤ) : (Num.fin n m e).real = 0 ↔ m = 0 := by
  rw [← abs_eq_zero, abs_real_fin, mul_eq_zero, or_iff_left (two_zpow_pos e).ne', Nat.cast_eq_zero]
theorem real_fin_neg_iff {m : ℕ} (hm : m ≠ 0) (n : Bool) (e : ℤ) : n = true ↔ (Num.fin n m e).real < 0 := by
  have h : (0 : ℝ) < m * 2 ^ e := mul_pos (by exact_mod_cast Nat.pos_of_ne_zero hm) (two_zpow_pos e)
  cases n
  · rw [Num.real, if_neg Bool.false_ne_true, one_mul]; simp [h.le]
  · rw [Num.real, if_pos rfl, neg_one_mul, neg_mul]; simp [h]
theorem isZero_iff_of_valueIs {x : Num} {v : ℝ} (h : ValueIs x v) : x.isZero = true ↔ v = 0 := by
  obtain ⟨⟨n, m, e, rfl⟩, rfl⟩ := (valueIs_iff x v).1 h
  rw [real_fin_eq_zero_iff]; simp [Num.isZero]
theorem magnitude_real (n : Bool) (m : ℕ) (e : ℤ) : Magnitude m e false |(Num.fin n m e).real| := abs_real_fin n m e
theorem valueIs_negate {x : Num} {v : ℝ} (h : ValueIs x v) : ValueIs x.negate (-v) := by
  obtain ⟨⟨n, m, e, rfl⟩, rfl⟩ := (valueIs_iff x v).1 h
  cases n <;> simp [ValueIs, Num.negate, Num.real]
theorem valueIs_numMul {x y : Num} {a b : ℝ} (hx : ValueIs x a) (hy : ValueIs y b) : ValueIs (numMul x y) (a * b) := by
  obtain ⟨⟨n, m, e, rfl⟩, rfl⟩ := (valueIs_iff x a).1 hx
  obtain ⟨⟨k, p, g, rfl⟩, rfl⟩ := (valueIs_iff y b).1 hy
  show _ = _
  rw [Num.real, Num.real, zpow_add₀ two_ne_zero]
  push_cast
  cases n <;> cases k <;> norm_num <;> ring

/-! ### Exact sums -/

theorem minExp_le (q : ℤ) (l : List Num) : minExp q l ≤ q ∧ ∀ n m e, Num.fin n m e ∈ l → minExp q l ≤ e := by
  induction l generalizing q with
  | nil => exact ⟨le_rfl, fun _ _ _ h => absurd h List.not_mem_nil⟩
  | cons x l ih =>
    have keep : ∀ {x : Num}, (∀ n m e, x ≠ .fin n m e) → minExp q (x :: l) = minExp q l → minExp q (x :: l) ≤ q ∧
        ∀ n m e, Num.fin n m e ∈ x :: l → minExp q (x :: l) ≤ e := fun hx hq => by
      rw [hq]
      refine ⟨(ih q).1, fun n m e h => (ih q).2 n m e ((List.mem_cons.1 h).resolve_left fun g => hx n m e g.symm)⟩
    cases x with
    | nan s => exact keep (fun _ _ _ => by simp) rfl
    | inf n => exact keep (fun _ _ _ => by simp) rfl
    | fin n m e =>
      obtain ⟨h1, h2⟩ := ih (min q e)
      refine ⟨h1.trans (min_le_left _ _), fun n' m' e' h => ?_⟩
      rcases List.mem_cons.1 h with g | g
      · cases g; exact h1.trans (min_le_right _ _)
      · exact h2 _ _ _ g
theorem scaledInt_real {q : ℤ} {x : Num} (h : ∀ n m e, x = .fin n m e → q ≤ e) : (scaledInt q x : ℝ) * 2 ^ q = x.real := by
  cases x with
  | nan s => simp [scaledInt, Num.real]
  | inf n => simp [scaledInt, Num.real]
  | fin n m e =>
    have he := two_zpow_toNat (h n m e rfl)
    rw [scaledInt, Num.real, ← he]
    cases n
    · simp [mul_assoc]
    · simp [mul_assoc]
theorem foldl_scaledInt (q : ℤ) (l : List Num) (a : ℤ) : l.foldl (fun a x => a + scaledInt q x) a = a + (l.map (scaledInt q)).sum := by
  induction l generalizing a with
  | nil => simp
  | cons x l ih => rw [List.foldl_cons, ih, List.map_cons, List.sum_cons, add_assoc]
theorem exactSum_real (l : List Num) : ((exactSum l).1 : ℝ) * 2 ^ (exactSum l).2 = (l.map Num.real).sum := by
  have h : ∀ l' : List Num, (∀ x ∈ l', x ∈ l) → ((l'.map (scaledInt (minExp 0 l))).sum : ℝ) * 2 ^ minExp 0 l = (l'.map Num.real).sum := by
    intro l'
    induction l' with
    | nil => simp
    | cons x l' ih =>
      intro hm
      have hx : ∀ n m e, x = .fin n m e → minExp 0 l ≤ e := fun n m e g => (minExp_le 0 l).2 n m e (g ▸ hm x (List.mem_cons_self ..))
      rw [List.map_cons, List.sum_cons, List.map_cons, List.sum_cons, ← ih fun y hy => hm y (List.mem_cons_of_mem x hy), ← scaledInt_real hx]
      push_cast
      ring
  show ((l.foldl (fun a x => a + scaledInt (minExp 0 l) x) 0 : ℤ) : ℝ) * _ = _
  rw [foldl_scaledInt, zero_add]
  exact h l fun _ g => g
theorem magnitude_int (i : ℤ) (q : ℤ) : Magnitude i.natAbs q false |(i : ℝ) * 2 ^ q| := by
  show _ = _
  rw [abs_mul, abs_of_pos (two_zpow_pos q), Nat.cast_natAbs, Int.cast_abs]
theorem sum_of_forall₂ {l : List Num} {vs : List ℝ} (h : List.Forall₂ ValueIs l vs) : vs.sum = (l.map Num.real).sum := by
  induction h with
  | nil => rfl
  | cons hx _ ih => rw [List.sum_cons, List.map_cons, List.sum_cons, ih, real_of_valueIs hx]
theorem finite_of_forall₂ {l : List Num} {vs : List ℝ} (h : List.Forall₂ ValueIs l vs) : ∀ n, Num.inf n ∉ l := by
  induction h with
  | nil => exact fun _ => List.not_mem_nil
  | cons hx _ ih =>
    intro n hm
    rcases List.mem_cons.1 hm with rfl | g
    · exact hx
    · exact ih n g

/-! ### Sums rounded once -/

theorem isFloat_of_fps {t : ElemTy} (h : fpsTy t = true) : isFloat t = true := by rw [isFloat, show t.isF = true from h]; rfl
theorem ne_e4m3_of_fps {t : ElemTy} (h : fpsTy t = true) : t ≠ .e4m3 := by rintro rfl; cases h
theorem quietNan_eq (t : ElemTy) : QuietNan t = canonNan t := by cases t <;> rfl
theorem infOf_eq {t : ElemTy} (h : t ∈ [ElemTy.f32, .wf19, .f16, .bf16, .e5m2]) (n : Bool) : InfOf t n = signBit t n + infBits t := by
  simp only [List.mem_cons, List.not_mem_nil, or_false] at h
  rcases h with rfl | rfl | rfl | rfl | rfl <;> rfl
theorem infOf_eq_of_fps {t : ElemTy} (h : fpsTy t = true) (n : Bool) : InfOf t n = signBit t n + infBits t := by
  cases t with
  | f32 | bf16 | f16 => rfl
  | e4m3 | e5m2 | e2m1 | i32 | i16 | i8 | i4 | n32 | n16 | n8 | n4 | c8 | wf19 => cases h
section
variable {t : ElemTy} {rm : Rm} {ftzo : Bool} {l : List Num}

theorem any_inf (n : Bool) : l.any (fun x => x == .inf n) = decide (Num.inf n ∈ l) := by
  rw [Bool.eq_iff_iff, List.any_eq_true, decide_eq_true_iff]; simp
theorem sumF_of_both (h1 : Num.inf true ∈ l) (h2 : Num.inf false ∈ l) : sumF t rm ftzo l = ⟨canonNan t, flInvalid⟩ := by
  unfold sumF
  rw [any_inf, any_inf, decide_eq_true h1, decide_eq_true h2]; rfl
theorem sumF_of_inf {n : Bool} (h1 : Num.inf n ∈ l) (h2 : Num.inf (!n) ∉ l) : sumF t rm ftzo l = ⟨signBit t n + infBits t, 0⟩ := by
  unfold sumF
  rw [any_inf, any_inf]
  cases n
  · rw [decide_eq_true h1, decide_eq_false (show Num.inf true ∉ l from h2)]; rfl
  · rw [decide_eq_true h1, decide_eq_false (show Num.inf false ∉ l from h2)]; rfl
theorem sumF_of_finite (h : ∀ n, Num.inf n ∉ l) (h0 : (exactSum l).1 ≠ 0) :
    sumF t rm ftzo l = roundF t rm ftzo .arith ((exactSum l).1 < 0) (exactSum l).1.natAbs (exactSum l).2 := by
  unfold sumF
  rw [any_inf, any_inf, decide_eq_false (h false), decide_eq_false (h true)]
  exact if_neg h0
theorem sumF_of_zero (h : ∀ n, Num.inf n ∉ l) (h0 : (exactSum l).1 = 0) : sumF t rm ftzo l =
    ⟨signBit t (if l.all (fun x => x.isZero && x.neg) then true else if l.all (fun x => x.isZero && !x.neg) then false else rm == .rdn), 0⟩ := by
  unfold sumF
  rw [any_inf, any_inf, decide_eq_false (h false), decide_eq_false (h true)]
  exact if_pos h0
/-- The sign of an exact zero sum. -/
theorem zeroSign_of_all (hne : l ≠ []) {n : Bool} (h : ∀ x ∈ l, x.isZero = true ∧ x.neg = n) :
    (if l.all (fun x => x.isZero && x.neg) then true else if l.all (fun x => x.isZero && !x.neg) then false else rm == .rdn) = n := by
  cases n with
  | true => exact if_pos (List.all_eq_true.2 fun x hx => by rw [(h x hx).1, (h x hx).2]; rfl)
  | false =>
    obtain ⟨x, hx⟩ := List.exists_mem_of_ne_nil l hne
    rw [if_neg, if_pos (List.all_eq_true.2 fun x hx => by rw [(h x hx).1, (h x hx).2]; rfl)]
    intro g
    have := List.all_eq_true.1 g x hx
    rw [(h x hx).2, Bool.and_false] at this
    cases this
theorem zeroSign_of_mixed (h : ∀ n, ∃ x ∈ l, x.isZero = false ∨ x.neg ≠ n) :
    (if l.all (fun x => x.isZero && x.neg) then true else if l.all (fun x => x.isZero && !x.neg) then false else rm == .rdn) =
      decide (rm = .rdn) := by
  have hno : ∀ (n : Bool) (p : Num → Bool), (∀ x, p x = true → x.isZero = true ∧ x.neg = n) → ¬ l.all p = true := fun n p hp g => by
    obtain ⟨x, hx, hn⟩ := h n
    obtain ⟨hz, hs⟩ := hp x (List.all_eq_true.1 g x hx)
    rcases hn with hn | hn
    · rw [hz] at hn; cases hn
    · exact hn hs
  rw [if_neg (hno true _ fun x hx => by simpa using hx), if_neg (hno false _ fun x hx => by simpa using hx)]
  rfl
/-- R84, R89, R105: an exact sum, rounded once. -/
theorem sumsTo_sumF (ht : fpsTy t = true) : SumsTo t rm ftzo l (sumF t rm ftzo l) := by
  refine ⟨fun h1 h2 => ?_, fun n h1 h2 => ?_, fun vs hvs => ?_⟩
  · rw [sumF_of_both h1 h2, quietNan_eq]
  · rw [sumF_of_inf h1 h2, infOf_eq_of_fps ht]
  · have hfin := finite_of_forall₂ hvs
    have hsum : vs.sum = ((exactSum l).1 : ℝ) * 2 ^ (exactSum l).2 := (sum_of_forall₂ hvs).trans (exactSum_real l).symm
    have hq := two_zpow_pos (exactSum l).2
    refine ⟨fun hne => ?_, fun h0 => ?_⟩
    · have h0 : (exactSum l).1 ≠ 0 := fun h0 => hne (by rw [hsum, h0, Int.cast_zero, zero_mul])
      rw [sumF_of_finite hfin h0]
      refine roundsTo_roundF (isFloat_of_fps ht) (fun h => absurd h (ne_e4m3_of_fps ht)) (Int.natAbs_ne_zero.2 h0)
        (by rw [hsum]; exact magnitude_int _ _) ?_ (fun h => nomatch h)
      rw [hsum, decide_eq_true_iff, mul_neg_iff, or_iff_right (fun g => hq.not_gt g.2), Int.cast_lt_zero, and_iff_left hq]
    · have h0 : (exactSum l).1 = 0 := by
        rw [hsum, mul_eq_zero, or_iff_left hq.ne'] at h0
        exact_mod_cast h0
      rw [sumF_of_zero hfin h0]
      exact ⟨fun n h hne => by rw [zeroSign_of_all hne h]; rfl, fun h => by rw [zeroSign_of_mixed h]; rfl⟩

end

end Sys2Proof.Machine
end

section
/-! SUPPORT. Quotients and roots with a sticky bit (R89, R105, R130). -/

namespace Sys2Proof.Machine

/-! ### Significands of finite values -/

theorem unpackF_mod {t : ElemTy} (hw : t ≠ .wf19) (x : ℕ) : unpackF t (x % 2 ^ t.width) = unpackF t x := by
  unfold unpackF
  dsimp only
  rw [if_neg hw, Nat.mod_mod]
/-- Every encoding of a type is a sign and a body. -/
theorem exists_body {t : ElemTy} (ht : isFloat t = true) (hw : t ≠ .wf19) (x : ℕ) :
    ∃ neg b, b < 2 ^ (t.width - 1) ∧ x % 2 ^ t.width = signBit t neg + b ∧ unpackF t x = bodyNum t neg b := by
  have hx : x % 2 ^ t.width < 2 ^ t.width := Nat.mod_lt _ (Nat.two_pow_pos _)
  have hp : 2 ^ t.width = 2 * 2 ^ (t.width - 1) := by rw [width_eq ht, Nat.pow_succ, Nat.add_sub_cancel, Nat.mul_comm]
  have hb : x % 2 ^ t.width % 2 ^ (t.width - 1) < 2 ^ (t.width - 1) := Nat.mod_lt _ (Nat.two_pow_pos _)
  have he : x % 2 ^ t.width = signBit t (decide (2 ^ (t.width - 1) ≤ x % 2 ^ t.width)) + x % 2 ^ t.width % 2 ^ (t.width - 1) := by
    by_cases h : 2 ^ (t.width - 1) ≤ x % 2 ^ t.width
    · rw [decide_eq_true h, signBit, if_pos rfl, Nat.mod_eq_sub_mod h, Nat.mod_eq_of_lt (a := _ - _) (by omega)]; omega
    · rw [decide_eq_false h, signBit, if_neg Bool.false_ne_true, Nat.mod_eq_of_lt (Nat.not_le.1 h), Nat.zero_add]
  exact ⟨_, _, hb, he, by rw [← unpackF_mod hw, he, unpackF_encoding ht hw hb, ← he]⟩
/-- A body that reads as a finite value stands at a normal place. -/
theorem normal_of_bodyNum {t : ElemTy} {neg n : Bool} {b m : ℕ} {e : ℤ} (h : bodyNum t neg b = .fin n m e) :
    n = neg ∧ ∃ k : ℕ, e = ulp0 t + k ∧ Normal t k m ∧ k * 2 ^ fracBits t + m = b := by
  have hdm := Nat.div_add_mod b (2 ^ fracBits t)
  have hf : b % 2 ^ fracBits t < 2 ^ fracBits t := Nat.mod_lt _ (Nat.two_pow_pos _)
  unfold bodyNum at h
  dsimp only at h
  split at h
  · cases h
  split at h
  · split at h <;> cases h
  split at h
  · next he =>
    rw [he, Nat.mul_zero, Nat.zero_add] at hdm
    obtain ⟨rfl, rfl, rfl⟩ := Num.fin.inj h
    exact ⟨rfl, 0, by rw [ulp0]; simp, ⟨by rw [Nat.pow_succ]; omega, .inl rfl⟩, by omega⟩
  · next he =>
    obtain ⟨k, hk⟩ := Nat.exists_eq_succ_of_ne_zero he
    rw [hk, Nat.mul_succ, Nat.mul_comm] at hdm
    obtain ⟨rfl, rfl, rfl⟩ := Num.fin.inj h
    exact ⟨rfl, k, by rw [ulp0, hk]; push_cast; ring, ⟨by rw [Nat.pow_succ]; omega, .inr (Nat.le_add_right ..)⟩, by omega⟩
theorem significand_lt {x : ℕ} {n : Bool} {m : ℕ} {e : ℤ} (h : unpackF .f32 x = .fin n m e) : m < 2 ^ 24 := by
  obtain ⟨neg, b, -, -, hu⟩ := exists_body (t := .f32) rfl (by decide) x
  obtain ⟨-, k, -, ⟨hm, -⟩, -⟩ := normal_of_bodyNum (hu.symm.trans h)
  exact hm

/-! ### Quotients -/

theorem magnitude_div (a : ℕ) {p : ℕ} (hp : p ≠ 0) (e : ℤ) : Magnitude (a / p) e (a % p != 0) ((a : ℝ) / p * 2 ^ e) := by
  have he := two_zpow_pos e
  have hp' : (0 : ℝ) < p := by exact_mod_cast Nat.pos_of_ne_zero hp
  have hdm : (a : ℝ) = p * (a / p : ℕ) + (a % p : ℕ) := by exact_mod_cast (Nat.div_add_mod a p).symm
  by_cases h : a % p = 0
  · rw [h, bne_self_eq_false]
    show (a : ℝ) / p * 2 ^ e = (a / p : ℕ) * 2 ^ e
    rw [hdm, h]; field_simp; simp
  · rw [bne_iff_ne.2 h]
    have h1 : (0 : ℝ) < (a % p : ℕ) := by exact_mod_cast Nat.pos_of_ne_zero h
    have h2 : ((a % p : ℕ) : ℝ) < p := by exact_mod_cast Nat.mod_lt a (Nat.pos_of_ne_zero hp)
    refine ⟨mul_lt_mul_of_pos_right ?_ he, mul_lt_mul_of_pos_right ?_ he⟩
    · rw [lt_div_iff₀ hp', hdm]; nlinarith
    · rw [div_lt_iff₀ hp', hdm]; nlinarith
theorem magnitude_quotient (m : ℕ) (e : ℤ) {p : ℕ} (hp : p ≠ 0) (g : ℤ) :
    Magnitude (quotient m e p g).1 (quotient m e p g).2.1 (quotient m e p g).2.2 (m * 2 ^ e / (p * 2 ^ g)) := by
  have h := magnitude_div (m * 2 ^ (64 + p.log2)) hp (e - g - (64 + p.log2 : ℕ))
  have hv : ((m * 2 ^ (64 + p.log2) : ℕ) : ℝ) / p * 2 ^ (e - g - (64 + p.log2 : ℕ)) = m * 2 ^ e / (p * 2 ^ g) := by
    rw [zpow_sub₀ two_ne_zero, zpow_sub₀ two_ne_zero, zpow_natCast]
    push_cast
    field_simp
  rw [hv] at h
  exact h
theorem le_log2_quotient {m p : ℕ} (hm : m ≠ 0) (hp : p ≠ 0) (e g : ℤ) : 63 ≤ (quotient m e p g).1.log2 := by
  have h : 2 ^ 63 ≤ m * 2 ^ (64 + p.log2) / p := by
    rw [Nat.le_div_iff_mul_le (Nat.pos_of_ne_zero hp)]
    have h1 : 2 ^ (64 + p.log2) = 2 ^ 63 * 2 ^ (p.log2 + 1) := by rw [← Nat.pow_add]; congr 1; omega
    have h2 : p ≤ 2 ^ (p.log2 + 1) := Nat.lt_log2_self.le
    rw [h1]
    calc 2 ^ 63 * p ≤ 2 ^ 63 * 2 ^ (p.log2 + 1) := Nat.mul_le_mul_left _ h2
      _ ≤ m * (2 ^ 63 * 2 ^ (p.log2 + 1)) := Nat.le_mul_of_pos_left _ (Nat.pos_of_ne_zero hm)
  exact (Nat.le_log2 (by have := Nat.two_pow_pos 63; show m * 2 ^ (64 + p.log2) / p ≠ 0; omega)).2 h

/-! ### Roots -/

theorem isqrtFrom_spec {x n r : ℕ} (h1 : r * r ≤ x) (h2 : x < (r + 2 ^ n) * (r + 2 ^ n)) :
    isqrtFrom x n r * isqrtFrom x n r ≤ x ∧ x < (isqrtFrom x n r + 1) * (isqrtFrom x n r + 1) := by
  induction n generalizing r with
  | zero => exact ⟨h1, h2⟩
  | succ n ih =>
    rw [isqrtFrom]
    by_cases h : (r + 2 ^ n) * (r + 2 ^ n) ≤ x
    · rw [if_pos h]
      refine ih h ?_
      rw [Nat.add_assoc, ← Nat.two_mul, Nat.mul_comm 2, ← Nat.pow_succ]; exact h2
    · rw [if_neg h]
      exact ih h1 (Nat.not_le.1 h)
theorem isqrt_eq_sqrt (x : ℕ) : isqrt x = Nat.sqrt x := by
  obtain ⟨h1, h2⟩ := isqrtFrom_spec (x := x) (n := x.log2 / 2 + 1) (r := 0) (Nat.zero_le x) (by
    rw [Nat.zero_add, ← Nat.pow_add]
    exact (Nat.lt_log2_self (n := x)).trans_le (Nat.pow_le_pow_right two_pos (by omega)))
  exact Nat.eq_sqrt.2 ⟨h1, h2⟩
/-- A root that is taken down to a whole number, and whether that loses anything. -/
theorem magnitude_sqrt {y : ℝ} {r : ℕ} (h1 : (r * r : ℝ) ≤ y) (h2 : y < (r + 1) * (r + 1)) {sticky : Bool} (hs : sticky = false ↔ (r * r : ℝ) = y)
    (e : ℤ) : Magnitude r e sticky (Real.sqrt y * 2 ^ e) := by
  have he := two_zpow_pos e
  have hr : (0 : ℝ) ≤ r := Nat.cast_nonneg r
  cases sticky with
  | false =>
    show Real.sqrt y * 2 ^ e = r * 2 ^ e
    rw [← hs.1 rfl, Real.sqrt_mul_self hr]
  | true =>
    have hne : (r * r : ℝ) ≠ y := fun h => nomatch hs.2 h
    exact ⟨mul_lt_mul_of_pos_right (Real.lt_sqrt_of_sq_lt (by rw [sq]; exact lt_of_le_of_ne h1 hne)) he,
      mul_lt_mul_of_pos_right ((Real.sqrt_lt' (by linarith)).2 (by rw [sq]; exact h2)) he⟩
theorem sqrt_mul_zpow_two (y : ℝ) (h : ℤ) : Real.sqrt (y * 2 ^ (2 * h)) = Real.sqrt y * 2 ^ h := by
  rw [two_mul, zpow_add₀ two_ne_zero, Real.sqrt_mul' _ (mul_self_nonneg _), Real.sqrt_mul_self (two_zpow_pos h).le]
/-- The significand of a value at an even exponent. -/
def evenSig (m : ℕ) (e : ℤ) : ℕ := if e % 2 = 1 then 2 * m else m
/-- That exponent. -/
def evenExp (e : ℤ) : ℤ := if e % 2 = 1 then e - 1 else e
theorem even_exponent (m : ℕ) (e : ℤ) : ∃ h : ℤ, evenExp e = 2 * h ∧ (m : ℝ) * 2 ^ e = evenSig m e * 2 ^ (2 * h) := by
  by_cases ho : e % 2 = 1
  · refine ⟨e / 2, by rw [evenExp, if_pos ho]; omega, ?_⟩
    rw [evenSig, if_pos ho, show e = 2 * (e / 2) + 1 by omega, zpow_add₀ two_ne_zero, zpow_one, show (2 * (e / 2) + 1) / 2 = e / 2 by omega]
    push_cast; ring
  · refine ⟨e / 2, by rw [evenExp, if_neg ho]; omega, ?_⟩
    rw [evenSig, if_neg ho, show 2 * (e / 2) = e by omega]
theorem evenSig_bounds {m : ℕ} (hm : m ≠ 0) (e : ℤ) : 1 ≤ evenSig m e ∧ evenSig m e ≤ 2 * m := by
  unfold evenSig
  split <;> omega
theorem sqrt_le_cast (x : ℕ) : ((Nat.sqrt x : ℕ) * (Nat.sqrt x : ℕ) : ℝ) ≤ x ∧ (x : ℝ) < ((Nat.sqrt x : ℕ) + 1) * ((Nat.sqrt x : ℕ) + 1) :=
  ⟨by exact_mod_cast Nat.sqrt_le x, by exact_mod_cast Nat.lt_succ_sqrt x⟩

/-! ### Operations on values -/

section
variable {t : ElemTy} {c : Fcw} {v : ℝ}

theorem fracBits_le (t : ElemTy) : fracBits t ≤ 23 := by cases t <;> decide
theorem arm_ne_sr (h : c.arnd ≤ 4) (r : ℕ) : c.arm ≠ .sr r := by
  have : c.arnd = 0 ∨ c.arnd = 1 ∨ c.arnd = 2 ∨ c.arnd = 3 ∨ c.arnd = 4 := by omega
  rcases this with g | g | g | g | g <;> simp [Fcw.arm, Rm.ofCode, g]
/-- A quotient of two nonzero finite values, rounded once. -/
theorem roundsTo_quotient {rm : Rm} {ftzo n : Bool} (ht : fpsTy t = true) (hrm : ∀ r, rm ≠ .sr r) {m p : ℕ} (hm : m ≠ 0) (hp : p ≠ 0) (e g : ℤ)
    (hv : |v| = m * 2 ^ e / (p * 2 ^ g)) (hn : n = true ↔ v < 0) :
    RoundsTo t rm ftzo .arith v (roundF t rm ftzo .arith n (quotient m e p g).1 (quotient m e p g).2.1 (quotient m e p g).2.2) := by
  have hlog := le_log2_quotient hm hp e g
  refine roundsTo_roundF (isFloat_of_fps ht) (fun h => absurd h (ne_e4m3_of_fps ht)) (fun h => ?_) (by rw [hv]; exact magnitude_quotient m e hp g) hn
    fun _ => ⟨by have := fracBits_le t; omega, hrm⟩
  rw [h] at hlog
  exact absurd hlog (by decide)
/-- A root of a positive number, taken down to a whole number of at least 24 bits and rounded once. -/
theorem roundsTo_root {rm : Rm} {ftzo : Bool} (ht : fpsTy t = true) (hrm : ∀ r, rm ≠ .sr r) {y : ℝ} {r : ℕ} (h1 : (r * r : ℝ) ≤ y)
    (h2 : y < (r + 1) * (r + 1)) {sticky : Bool} (hs : sticky = false ↔ (r * r : ℝ) = y) (hr : 2 ^ 24 ≤ r) (e : ℤ) (hv : v = Real.sqrt y * 2 ^ e) :
    RoundsTo t rm ftzo .arith v (roundF t rm ftzo .arith false r e sticky) := by
  have hv0 : 0 ≤ v := by rw [hv]; exact mul_nonneg (Real.sqrt_nonneg _) (two_zpow_pos _).le
  have hlog : 24 ≤ r.log2 := (Nat.le_log2 (by omega)).2 hr
  exact roundsTo_roundF (isFloat_of_fps ht) (fun h => absurd h (ne_e4m3_of_fps ht)) (by omega)
    (by rw [abs_of_nonneg hv0, hv]; exact magnitude_sqrt h1 h2 hs e) (iff_of_false Bool.false_ne_true (not_lt.2 hv0))
    fun _ => ⟨by have := fracBits_le t; omega, hrm⟩
/-- The root of a positive finite value. -/
theorem roundsTo_sqrt {rm : Rm} {ftzo : Bool} (ht : fpsTy t = true) (hrm : ∀ r, rm ≠ .sr r) {m : ℕ} (hm : m ≠ 0) (e : ℤ) :
    let m' := evenSig m e * 2 ^ 96
    RoundsTo t rm ftzo .arith (Real.sqrt (m * 2 ^ e)) (roundF t rm ftzo .arith false (isqrt m') ((evenExp e - 96) / 2) (isqrt m' * isqrt m' != m')) := by
  intro m'
  obtain ⟨h, heq, hval⟩ := even_exponent m e
  obtain ⟨h1, h2⟩ := sqrt_le_cast m'
  have hm' : 2 ^ 96 ≤ m' := Nat.le_mul_of_pos_left _ (evenSig_bounds hm e).1
  rw [isqrt_eq_sqrt]
  refine roundsTo_root ht hrm h1 h2 (by rw [bne_eq_false_iff_eq]; exact_mod_cast Iff.rfl) (Nat.le_sqrt.2 (le_trans (by decide) hm')) _ ?_
  rw [heq, show (2 * h - 96) / 2 = h - 48 by omega, ← sqrt_mul_zpow_two, hval, Nat.cast_mul, mul_assoc, show 2 * h = 96 + 2 * (h - 48) by ring,
    zpow_add₀ two_ne_zero]
  norm_num
/-- The reciprocal root of a positive finite value. -/
theorem roundsTo_rsqrt {rm : Rm} {ftzo : Bool} (ht : fpsTy t = true) (hrm : ∀ r, rm ≠ .sr r) {m : ℕ} (hm : m ≠ 0) (hlt : m < 2 ^ 24) (e : ℤ) :
    let m' := evenSig m e
    let r := isqrt (2 ^ 256 / m')
    RoundsTo t rm ftzo .arith (1 / Real.sqrt (m * 2 ^ e)) (roundF t rm ftzo .arith false r (-128 - evenExp e / 2) (r * r * m' != 2 ^ 256)) := by
  intro m' r
  obtain ⟨h, heq, hval⟩ := even_exponent m e
  obtain ⟨hpos, hle⟩ := evenSig_bounds hm e
  have hm' : (0 : ℝ) < m' := by exact_mod_cast hpos
  have hr : r = Nat.sqrt (2 ^ 256 / m') := isqrt_eq_sqrt _
  obtain ⟨h1, h2⟩ := sqrt_le_cast (2 ^ 256 / m')
  rw [← hr] at h1 h2
  have hdiv : ((2 ^ 256 / m' : ℕ) : ℝ) ≤ 2 ^ 256 / m' := by exact_mod_cast Nat.cast_div_le (α := ℝ) (m := 2 ^ 256) (n := m')
  have hsq : 2 ^ 256 / m' < (r + 1) * (r + 1) := by exact_mod_cast h2
  have hsq' : 2 ^ 256 < (r + 1) * (r + 1) * m' := (Nat.div_lt_iff_lt_mul hpos).1 hsq
  refine roundsTo_root ht hrm (h1.trans hdiv) ?_ ?_ ?_ _ ?_
  · rw [div_lt_iff₀ hm']; exact_mod_cast hsq'
  · rw [bne_eq_false_iff_eq, eq_div_iff hm'.ne']; exact_mod_cast Iff.rfl
  · rw [hr, Nat.le_sqrt, Nat.le_div_iff_mul_le hpos]
    calc 2 ^ 24 * 2 ^ 24 * m' ≤ 2 ^ 24 * 2 ^ 24 * 2 ^ 25 := Nat.mul_le_mul_left _ (by omega)
      _ ≤ 2 ^ 256 := by decide
  · rw [heq, show 2 * h / 2 = h by omega, hval, sqrt_mul_zpow_two, Real.sqrt_div' _ hm'.le, zpow_sub₀ two_ne_zero,
      show (2 : ℝ) ^ 256 = (2 ^ 128) * (2 ^ 128) by norm_num, Real.sqrt_mul_self (by positivity)]
    have := (Real.sqrt_pos.2 hm').ne'
    have := (two_zpow_pos h).ne'
    show 1 / (Real.sqrt m' * 2 ^ h) = _
    field_simp

end

end Sys2Proof.Machine
end

section
/-! SUPPORT. Arithmetic and conversions round the exact result once (R89 to R91, R105, R110, R130), and the obligation on it. -/

namespace Sys2Proof.Machine

/-! ### Operations on values that are not NaN -/

section
variable {t : ElemTy} {c : Fcw} {x y z : ℕ} {X Y Z : Num}

theorem isNan_of_valueIs {v : ℝ} (h : ValueIs X v) : X.isNan = false := by
  obtain ⟨n, m, e, rfl⟩ := fin_of_valueIs h; rfl
theorem isInf_of_valueIs {v : ℝ} (h : ValueIs X v) : X.isInf = false := by
  obtain ⟨n, m, e, rfl⟩ := fin_of_valueIs h; rfl
theorem isSnan_of_not_nan (h : X.isNan = false) : X.isSnan = false := by
  cases X with
  | nan s => cases h
  | inf n => rfl
  | fin n m e => rfl
theorem snanFlag_of_not_nan {l : List Num} (h : ∀ x ∈ l, x.isNan = false) : snanFlag l = 0 := by
  rw [snanFlag, List.any_eq_false.2 fun x hx => by rw [isSnan_of_not_nan (h x hx)]; exact Bool.false_ne_true]; rfl
theorem also_zero (r : Fl) : r.also 0 = r := by simp [Fl.also]
theorem addNum_of_not_nan {rm : Rm} {ftzo : Bool} (hX : X.isNan = false) (hY : Y.isNan = false) : addNum t rm ftzo X Y = sumF t rm ftzo [X, Y] := by
  have hf : snanFlag [X, Y] = 0 := snanFlag_of_not_nan (by simp [hX, hY])
  unfold addNum
  dsimp only
  rw [hX, hY, hf, also_zero]; rfl
theorem isNan_negate (X : Num) : X.negate.isNan = X.isNan := by cases X <;> rfl
theorem fpAdd_of_not_nan (hX : readF t c.ftzi x = X) (hY : readF t c.ftzi y = Y) (h : X.isNan = false) (h' : Y.isNan = false) :
    fpAdd t c x y = sumF t c.arm c.ftzo [X, Y] := by
  rw [fpAdd, hX, hY, addNum_of_not_nan h h']
theorem fpSub_of_not_nan (hX : readF t c.ftzi x = X) (hY : readF t c.ftzi y = Y) (h : X.isNan = false) (h' : Y.isNan = false) :
    fpSub t c x y = sumF t c.arm c.ftzo [X, Y.negate] := by
  rw [fpSub, hX, hY, addNum_of_not_nan h (by rw [isNan_negate, h'])]
theorem fpMul_of_not_nan (hX : readF t c.ftzi x = X) (hY : readF t c.ftzi y = Y) (h : X.isNan = false) (h' : Y.isNan = false)
    (hv : zeroTimesInf X Y = false) : fpMul t c x y = sumF t c.arm c.ftzo [numMul X Y] := by
  have hf : snanFlag [X, Y] = 0 := snanFlag_of_not_nan (by simp [h, h'])
  unfold fpMul
  dsimp only
  rw [hX, hY, hv, h, h', hf, also_zero]; rfl
theorem fpFma_of_not_nan (hX : readF t c.ftzi x = X) (hY : readF t c.ftzi y = Y) (hZ : readF t c.ftzi z = Z) (h : X.isNan = false)
    (h' : Y.isNan = false) (h'' : Z.isNan = false) (hv : zeroTimesInf X Y = false) (sub : Bool) :
    fpFma t c sub z x y = sumF t c.arm c.ftzo [Z, if sub then (numMul X Y).negate else numMul X Y] := by
  have hf : snanFlag [X, Y, Z] = 0 := snanFlag_of_not_nan (by simp [h, h', h''])
  unfold fpFma
  dsimp only
  rw [hX, hY, hZ, hv, h, h', h'', hf, also_zero]; rfl
theorem zeroTimesInf_of_finite (h : X.isInf = false) (h' : Y.isInf = false) : zeroTimesInf X Y = false := by
  rw [zeroTimesInf, h, h', Bool.and_false, Bool.false_and]; rfl
theorem fpDiv_of_finite {n k : Bool} {m p : ℕ} {e g : ℤ} (hX : readF t c.ftzi x = .fin n m e) (hY : readF t c.ftzi y = .fin k p g) (hp : p ≠ 0) :
    fpDiv t c x y = roundF t c.arm c.ftzo .arith (n != k) (quotient m e p g).1 (quotient m e p g).2.1 (quotient m e p g).2.2 := by
  unfold fpDiv
  dsimp only
  rw [hX, hY]
  exact if_neg hp
theorem fpSqrt_of_pos {m : ℕ} {e : ℤ} (hX : readF t c.ftzi x = .fin false m e) (hm : m ≠ 0) : fpSqrt t c x =
    roundF t c.arm c.ftzo .arith false (isqrt (evenSig m e * 2 ^ 96)) ((evenExp e - 96) / 2)
      (isqrt (evenSig m e * 2 ^ 96) * isqrt (evenSig m e * 2 ^ 96) != evenSig m e * 2 ^ 96) := by
  unfold fpSqrt
  rw [hX]
  simp only [if_neg hm, Bool.false_eq_true, if_false, evenSig, evenExp]

end

/-! ### Exact results (R89, R105, R120, R130) -/

section
variable {t : ElemTy} {c : Fcw} {x y z : ℕ} {a b d : ℝ}

theorem sumF_rounds (ht : fpsTy t = true) {rm : Rm} {ftzo : Bool} {l : List Num} {vs : List ℝ} (h : List.Forall₂ ValueIs l vs) {v : ℝ}
    (hv : vs.sum = v) (h0 : v ≠ 0) : RoundsTo t rm ftzo .arith v (sumF t rm ftzo l) := by
  obtain ⟨-, -, hs⟩ := sumsTo_sumF (rm := rm) (ftzo := ftzo) (l := l) ht
  rw [← hv]
  exact (hs vs h).1 (by rw [hv]; exact h0)
theorem sign_div {n k : Bool} (hn : n = true ↔ a < 0) (hk : k = true ↔ b < 0) (ha : a ≠ 0) (hb : b ≠ 0) : (n != k) = true ↔ a / b < 0 := by
  rw [div_neg_iff, ← hn, ← hk, bne_iff_ne]
  have ha' : 0 < a ↔ n = false := by rw [← Bool.not_eq_true, hn, not_lt]; exact ⟨le_of_lt, fun h => lt_of_le_of_ne h ha.symm⟩
  have hb' : 0 < b ↔ k = false := by rw [← Bool.not_eq_true, hk, not_lt]; exact ⟨le_of_lt, fun h => lt_of_le_of_ne h hb.symm⟩
  rw [ha', hb']
  cases n <;> cases k <;> decide
theorem fpDiv_rounds (ht : fpsTy t = true) (hc : c.arnd ≤ 4) (hx : ValueIs (readF t c.ftzi x) a) (hy : ValueIs (readF t c.ftzi y) b) (ha : a ≠ 0)
    (hb : b ≠ 0) : RoundsTo t c.arm c.ftzo .arith (a / b) (fpDiv t c x y) := by
  obtain ⟨⟨n, m, e, hX⟩, rfl⟩ := (valueIs_iff _ _).1 hx
  obtain ⟨⟨k, p, g, hY⟩, rfl⟩ := (valueIs_iff _ _).1 hy
  rw [hX] at ha ⊢
  rw [hY] at hb ⊢
  have hm := mt (real_fin_eq_zero_iff n m e).2 ha
  have hp := mt (real_fin_eq_zero_iff k p g).2 hb
  rw [fpDiv_of_finite hX hY hp]
  exact roundsTo_quotient ht (arm_ne_sr hc) hm hp e g (by rw [abs_div, abs_real_fin, abs_real_fin])
    (sign_div (real_fin_neg_iff hm n e) (real_fin_neg_iff hp k g) ha hb)
/-- A positive finite value. -/
theorem fin_of_pos {X : Num} (h : ValueIs X a) (ha : 0 < a) : ∃ m e, X = .fin false m e ∧ m ≠ 0 ∧ a = m * 2 ^ e := by
  obtain ⟨⟨n, m, e, rfl⟩, rfl⟩ := (valueIs_iff _ _).1 h
  have hm := mt (real_fin_eq_zero_iff n m e).2 ha.ne'
  have hn : n = false := Bool.eq_false_iff.2 fun g => ha.not_gt ((real_fin_neg_iff hm n e).1 g)
  subst hn
  exact ⟨m, e, rfl, hm, by rw [← abs_real_fin, abs_of_pos ha]⟩
theorem readF_false (t : ElemTy) (x : ℕ) : readF t false x = unpackF t x := by
  unfold readF flushIn unpackF
  dsimp only
  rw [Bool.false_and, if_neg Bool.false_ne_true]
  by_cases hw : t = .wf19
  · subst hw; rw [if_pos rfl]; simp only [show ElemTy.wf19.width = 32 from rfl, show ElemTy.f32.width = 32 from rfl, Nat.mod_mod]
  · rw [if_neg hw]; simp only [Nat.mod_mod]
theorem rne_ne_sr (r : ℕ) : Rm.rne ≠ .sr r := nofun
theorem fRcp_rounds (hx : ValueIs (unpackF .f32 x) a) (ha : a ≠ 0) : RoundsTo .f32 .rne false .arith (1 / a) (fRcp x) := by
  obtain ⟨⟨n, m, e, hX⟩, rfl⟩ := (valueIs_iff _ _).1 hx
  rw [hX] at ha ⊢
  have hm := mt (real_fin_eq_zero_iff n m e).2 ha
  have he : fRcp x = roundF .f32 .rne false .arith n (quotient 1 0 m e).1 (quotient 1 0 m e).2.1 (quotient 1 0 m e).2.2 := by
    unfold fRcp
    rw [hX]
    exact if_neg hm
  rw [he]
  refine roundsTo_quotient rfl rne_ne_sr one_ne_zero hm 0 e (by rw [abs_div, abs_one, abs_real_fin]; simp) ?_
  rw [one_div, inv_lt_zero]
  exact real_fin_neg_iff hm n e
theorem fRsq_rounds (hx : ValueIs (unpackF .f32 x) a) (ha : 0 < a) : RoundsTo .f32 .rne false .arith (1 / Real.sqrt a) (fRsq x) := by
  obtain ⟨m, e, hX, hm, rfl⟩ := fin_of_pos hx ha
  have he : fRsq x = rsqrtFin m e := by
    unfold fRsq
    rw [hX]
    simp only [if_neg hm, Bool.false_eq_true, if_false]
  rw [he, rsqrtFin]
  exact roundsTo_rsqrt rfl rne_ne_sr hm (significand_lt hX) e
theorem exactArithmetic : Rules.ExactArithmetic := by
  intro t c x y z a b d ht hc hx hy hz once
  have hnx := isNan_of_valueIs hx
  have hny := isNan_of_valueIs hy
  have hnz := isNan_of_valueIs hz
  have hfin := zeroTimesInf_of_finite (isInf_of_valueIs hx) (isInf_of_valueIs hy)
  have hp := valueIs_numMul hx hy
  refine ⟨fun h => ?_, fun h => ?_, fun h => ?_, fun h => ?_, fun h => ?_, fun hb h => ?_, fun ha _ => ?_, fun ht hi ha => ?_, fun ht hi ha => ?_⟩
  · rw [fpAdd_of_not_nan rfl rfl hnx hny]
    exact sumF_rounds ht (.cons hx (.cons hy .nil)) (by simp) h
  · rw [fpSub_of_not_nan rfl rfl hnx hny]
    exact sumF_rounds ht (.cons hx (.cons (valueIs_negate hy) .nil)) (by simp [sub_eq_add_neg]) h
  · rw [fpMul_of_not_nan rfl rfl hnx hny hfin]
    exact sumF_rounds ht (.cons hp .nil) (by simp) h
  · rw [fpFma_of_not_nan rfl rfl rfl hnx hny hnz hfin]
    exact sumF_rounds ht (.cons hz (.cons hp .nil)) (by simp) h
  · rw [fpFma_of_not_nan rfl rfl rfl hnx hny hnz hfin]
    exact sumF_rounds ht (.cons hz (.cons (valueIs_negate hp) .nil)) (by simp [sub_eq_add_neg]) h
  · exact fpDiv_rounds ht hc hx hy (fun h0 => h (by rw [h0, zero_div])) hb
  · obtain ⟨m, e, hX, hm, rfl⟩ := fin_of_pos hx ha
    rw [fpSqrt_of_pos hX hm]
    exact roundsTo_sqrt ht (arm_ne_sr hc) hm e
  · subst ht
    rw [hi, readF_false] at hx
    exact fRcp_rounds hx ha
  · subst ht
    rw [hi, readF_false] at hx
    exact fRsq_rounds hx ha

/-! ### Exact zeros (R89) -/

theorem neg_numMul {X Y : Num} (hx : ValueIs X a) (hy : ValueIs Y b) : (numMul X Y).neg = (X.neg != Y.neg) := by
  obtain ⟨n, m, e, rfl⟩ := fin_of_valueIs hx
  obtain ⟨k, p, g, rfl⟩ := fin_of_valueIs hy
  rfl
theorem sumF_zero_of_all (ht : fpsTy t = true) {rm : Rm} {ftzo : Bool} {l : List Num} {vs : List ℝ} (h : List.Forall₂ ValueIs l vs) (h0 : vs.sum = 0)
    (hne : l ≠ []) {n : Bool} (hall : ∀ x ∈ l, x.isZero = true ∧ x.neg = n) : sumF t rm ftzo l = ⟨ZeroOf t n, 0⟩ := by
  obtain ⟨-, -, hs⟩ := sumsTo_sumF (rm := rm) (ftzo := ftzo) (l := l) ht
  exact ((hs vs h).2 h0).1 n hall hne
/-- An exact zero sum of two values. -/
theorem sumF_zero_pair (ht : fpsTy t = true) {rm : Rm} {ftzo : Bool} {X Y : Num} (hx : ValueIs X a) (hy : ValueIs Y b) (h0 : a + b = 0) :
    (a = 0 → X.neg = Y.neg → sumF t rm ftzo [X, Y] = ⟨ZeroOf t X.neg, 0⟩) ∧
    (a ≠ 0 ∨ X.neg ≠ Y.neg → sumF t rm ftzo [X, Y] = ⟨ZeroOf t (decide (rm = .rdn)), 0⟩) := by
  have hl : List.Forall₂ ValueIs [X, Y] [a, b] := .cons hx (.cons hy .nil)
  have hs0 : [a, b].sum = 0 := by simpa using h0
  refine ⟨fun ha hn => sumF_zero_of_all ht hl hs0 (List.cons_ne_nil _ _) ?_, fun h => ?_⟩
  · have hb : b = 0 := by rwa [ha, zero_add] at h0
    rintro w (_ | ⟨_, _ | ⟨_, _ | _⟩⟩)
    · exact ⟨(isZero_iff_of_valueIs hx).2 ha, rfl⟩
    · exact ⟨(isZero_iff_of_valueIs hy).2 hb, hn.symm⟩
  · obtain ⟨-, -, hs⟩ := sumsTo_sumF (rm := rm) (ftzo := ftzo) (l := [X, Y]) ht
    refine ((hs _ hl).2 hs0).2 fun n => ?_
    rcases h with ha | hn
    · exact ⟨X, List.mem_cons_self .., .inl (Bool.eq_false_iff.2 fun g => ha ((isZero_iff_of_valueIs hx).1 g))⟩
    · by_cases hX : X.neg = n
      · exact ⟨Y, by simp, .inr fun g => hn (hX.trans g.symm)⟩
      · exact ⟨X, by simp, .inr hX⟩
theorem roundF_zero {rm : Rm} {ftzo : Bool} {w : Work} {neg : Bool} {e : ℤ} {sticky : Bool} :
    roundF t rm ftzo w neg 0 e sticky = ⟨signBit t neg, 0⟩ := if_pos rfl
theorem exactZeros : Rules.ExactZeros := by
  intro t c x y z a b d ht hc X Y Z hx hy hz zero
  have hnx := isNan_of_valueIs hx
  have hny := isNan_of_valueIs hy
  have hnz := isNan_of_valueIs hz
  have hfin := zeroTimesInf_of_finite (isInf_of_valueIs hx) (isInf_of_valueIs hy)
  have hp := valueIs_numMul hx hy
  have hpn := neg_numMul hx hy
  refine ⟨fun h r hr => ?_, fun h => ?_, fun ha hb => ?_, fun ha => ?_, fun h r hr => ?_⟩
  · rw [hr, fpAdd_of_not_nan rfl rfl hnx hny]
    exact sumF_zero_pair ht hx hy h
  · rw [fpMul_of_not_nan rfl rfl hnx hny hfin]
    refine sumF_zero_of_all ht (.cons hp .nil) (by simpa using h) (List.cons_ne_nil _ _) fun w hw => ?_
    obtain rfl := List.mem_singleton.1 hw
    exact ⟨(isZero_iff_of_valueIs hp).2 h, hpn⟩
  · obtain ⟨⟨n, m, e, hX⟩, rfl⟩ := (valueIs_iff _ _).1 hx
    obtain ⟨⟨k, p, g, hY⟩, rfl⟩ := (valueIs_iff _ _).1 hy
    rw [hX] at ha
    rw [hY] at hb
    rw [fpDiv_of_finite hX hY (mt (real_fin_eq_zero_iff k p g).2 hb), hX, hY, (real_fin_eq_zero_iff n m e).1 ha, quotient, Nat.zero_mul, Nat.zero_div]
    exact roundF_zero
  · obtain ⟨⟨n, m, e, hX⟩, rfl⟩ := (valueIs_iff _ _).1 hx
    rw [hX] at ha
    rw [hX]
    unfold fpSqrt
    rw [show readF t c.ftzi x = .fin n m e from hX]
    exact if_pos ((real_fin_eq_zero_iff n m e).1 ha)
  · rw [hr, fpFma_of_not_nan rfl rfl rfl hnx hny hnz hfin, ← hpn]
    exact sumF_zero_pair ht hz hp h

end

/-! ### Conversions (R90, R91, R110) -/

section
variable {t u : ElemTy} {c : Fcw} {w x : ℕ}

theorem convert_of_floats (ht : isFloat t = true) (hu : isFloat u = true) : convert t u c w x = convF t (c.crm w) c (readF u c.ftzi x) := by
  rw [convert, hu, ht]; rfl
theorem convert_of_float_to_int (ht : isFloat t = false) (hu : isFloat u = true) : convert t u c w x = roundI t (c.crm w) (readF u c.ftzi x) := by
  rw [convert, hu, ht]; rfl
theorem convert_of_int_to_float (ht : isFloat t = true) (hu : isFloat u = false) :
    convert t u c w x = convF t (c.crm w) c (.fin (decide (unpackI u x < 0)) (unpackI u x).natAbs 0) := by
  rw [convert, hu, ht]; rfl
theorem valueIs_int (i : ℤ) : ValueIs (.fin (decide (i < 0)) i.natAbs 0) (i : ℝ) := by
  show (i : ℝ) = _
  rw [zpow_zero, mul_one, Nat.cast_natAbs, Int.cast_abs]
  by_cases h : i < 0
  · have : (i : ℝ) < 0 := by exact_mod_cast h
    rw [decide_eq_true h, if_pos rfl, abs_of_neg this]; ring
  · have : (0 : ℝ) ≤ i := by exact_mod_cast not_lt.1 h
    rw [decide_eq_false h, if_neg Bool.false_ne_true, abs_of_nonneg this, one_mul]
theorem convF_rounds (ht : isFloat t = true) {rm : Rm} {X : Num} {v : ℝ} (h : ValueIs X v) (hv : v ≠ 0) :
    RoundsTo t rm c.ftzo (.conv c.sat) v (convF t rm c X) := by
  obtain ⟨⟨n, m, e, rfl⟩, rfl⟩ := (valueIs_iff _ _).1 h
  have hm := mt (real_fin_eq_zero_iff n m e).2 hv
  exact roundsTo_roundF ht (fun _ => nofun) hm (magnitude_real n m e) (real_fin_neg_iff hm n e) (fun h => nomatch h)
/-- A zero is its own rounding. -/
theorem roundsInt_zero {rm : Rm} {neg : Bool} {n : ℕ} (h : RoundsInt rm neg 0 n) : n = 0 := by
  have := roundsInt_le h (b := 1) (by simp)
  obtain ⟨lo, h1, -, h3, -, -⟩ := roundsInt_pair h
  obtain rfl : lo = 0 := by exact_mod_cast le_antisymm h1 (Nat.cast_nonneg lo)
  exact h3 (by simp)
/-- The whole number to which a finite value is rounded, with its sign, and whether that is exact. -/
theorem roundI_of_value {rm : Rm} {X : Num} {v : ℝ} (h : ValueIs X v) {neg : Bool} {n : ℕ} (hneg : neg = true ↔ v < 0) (hr : RoundsInt rm neg |v| n) :
    ∃ i, roundI t rm X = clampInt t (if neg then -(n : ℤ) else n) (flagIf i flInexact) ∧ (i = false ↔ (n : ℝ) = |v|) := by
  obtain ⟨⟨s, m, e, rfl⟩, hv⟩ := (valueIs_iff _ _).1 h
  have hmag := magnitude_real s m e
  rw [← hv] at hmag
  obtain ⟨h1, h2⟩ := roundTo_spec (q := 0) hmag rm s (fun h => nomatch h)
  rw [zpow_zero, div_one] at h1 h2
  have hn : (roundTo rm s m e false 0).1 = n ∧ (if s then -(n : ℤ) else n) = if neg then -(n : ℤ) else n := by
    by_cases hm : m = 0
    · have h0 : v = 0 := by rw [hv]; exact (real_fin_eq_zero_iff s m e).2 hm
      rw [h0, abs_zero] at hr h1
      rw [roundsInt_zero h1, roundsInt_zero hr]; simp
    · have hs : s = neg := Bool.eq_iff_iff.2 ((real_fin_neg_iff hm s e).trans (by rw [← hv, hneg]))
      subst hs
      exact ⟨roundsInt_unique h1 hr, rfl⟩
  refine ⟨(roundTo rm s m e false 0).2, ?_, by rw [h2, hn.1, eq_comm]⟩
  rw [← hn.2, ← hn.1]; rfl
theorem clampInt_eq (t : ElemTy) (k : ℤ) (fl : Flags) : clampInt t k fl =
    if k < intLo t then ⟨natOfInt t.width (intLo t), flInvalid ||| flSaturated⟩
    else if intHi t < k then ⟨natOfInt t.width (intHi t), flInvalid ||| flSaturated⟩ else ⟨natOfInt t.width k, (clampInt t k fl).fl⟩ := by
  unfold clampInt
  split
  · rfl
  · split <;> rfl
theorem exactConversions : Rules.ExactConversions := by
  intro t u c w x v _ hv
  refine ⟨fun ht h0 => ?_, fun ht hu neg n hneg hr => ?_⟩
  · cases hu : isFloat u with
    | true =>
      rw [hu, if_pos rfl] at hv
      rw [convert_of_floats ht hu]
      exact convF_rounds ht hv h0
    | false =>
      rw [hu, if_neg Bool.false_ne_true] at hv
      rw [convert_of_int_to_float ht hu]
      subst hv
      exact convF_rounds ht (valueIs_int _) h0
  · rw [hu, if_pos rfl] at hv
    obtain ⟨i, he, hi⟩ := roundI_of_value (t := t) hv hneg hr
    rw [convert_of_float_to_int ht hu, he]
    intro k
    refine ⟨clampInt_eq t k _, fun h1 h2 => ?_⟩
    · rw [clampInt, if_neg (not_lt.2 h1), if_neg (not_lt.2 h2)]
      exact ⟨fun h => by rw [hi.2 h]; rfl, fun h => by rw [Bool.eq_true_of_not_eq_false (mt hi.1 h)]; rfl⟩

end

/-- Settles O5: sums through their exact integer, quotients and roots through a sticky bit, each rounded once by `roundsTo_roundF`; conversions
likewise. -/
theorem exactRounding : Obligations.ExactRounding := ⟨exactArithmetic, exactZeros, exactConversions⟩

end Sys2Proof.Machine
end

section
/-! SUPPORT. The scalar floating-point instructions (R94, R105 to R110): what they write. -/

namespace Sys2Proof.Machine

/-! ### A result with flags -/

/-- Control registers with flags added to `fflags` (R92). -/
def Ctl.flagged (c : Ctl) (f : Flags) : Ctl := { c with fflags := c.fflags ||| f.setWidth 64 }
theorem wr_raise_eq {s : State} (h : s.Placed) (d : Reg) (x : Word) (f : Flags) :
    (s.wr d x).raise f = s.updThr (fun t => { t.wr d x with ctl := (t.wr d x).ctl.flagged f }) :=
  updThr_updThr s (·.wr d x) (fun t => { t with ctl := t.ctl.flagged f }) h
/-- A scalar result and its flags (R85, R92). -/
theorem writes_of_fpWrite {i : Instr} {s : State} {n : ℕ} {d : Reg} {r : Fl} (h : s.Placed) (he : exec i s = fpWrite d r n s) :
    Writes i s n d (word r.x) (Flagged s r.fl) := by
  refine ⟨_, completes_of_next he, ?_⟩
  rw [wr_raise_eq h]
  exact wroteReg_updThr _ n d (word r.x) _ (by rw [ctl_wr]; rfl) rfl h
/-- A scalar result and its flags after a step of the generator (R94). -/
theorem writes_of_fpWrite_stepped {i : Instr} {s : State} {n : ℕ} {d : Reg} {r : Fl} {y : Word} (h : s.Placed)
    (he : exec i s = fpWrite d r n (s.updCtl (fun c => { c with seed := y }))) : Writes i s n d (word r.x) { Flagged s r.fl with seed := y } := by
  refine ⟨_, completes_of_next he, ?_⟩
  rw [wr_raise_eq (show (s.updCtl _).Placed from h), State.updCtl, updThr_updThr s _ _ h]
  exact wroteReg_updThr _ n d (word r.x) _ (by rw [ctl_wr, wr_ctl s.thr (c := { s.thr.ctl with seed := y }) rfl d (word r.x)]; rfl) rfl h
theorem scalarFloat : Rules.ScalarFloat := by
  intro s t d a b h _ c x y w
  have gives : ∀ {n : ℕ} {i : Instr} {r : Fl}, exec i s = fpWrite d r n s → w n i r := writes_of_fpWrite h
  exact ⟨gives rfl, gives rfl, gives rfl, gives rfl, gives rfl, gives rfl, gives rfl, gives rfl, gives rfl, gives rfl, gives rfl, gives rfl,
    gives rfl, gives rfl⟩

/-! ### FCVT (R94, R110) -/

theorem bits_high (y : Word) : bits y 63 32 = y.toNat / 2 ^ 32 := by
  rw [bits, Nat.shiftRight_eq_div_pow, Nat.mod_eq_of_lt]
  have := y.isLt
  omega
/-- The number that FCVT writes. -/
def fcvtBits (t : ElemTy) (x : ℕ) : ℕ := if t = .i32 then (sextNat 32 x).toNat else x
theorem word_fcvtBits (t : ElemTy) (x : ℕ) : word (fcvtBits t x) = if t = .i32 then BitVec.ofInt 64 (BitVec.ofNat 32 x).toInt else word x := by
  unfold fcvtBits
  split
  · rw [word_toNat, sextNat_eq (by decide) (by decide)]; rfl
  · rfl
theorem exec_fcvt (t u : ElemTy) (d a : Reg) (s : State) : exec (.fcvt t u d a) s =
    let r := convert t u s.fcw ((xsStep s.thr.ctl.seed).toNat / 2 ^ 32) (s.rd a).toNat
    fpWrite d ⟨fcvtBits t r.x, r.fl⟩ 4 (if s.fcw.isSr then s.updCtl (fun c => { c with seed := xsStep s.thr.ctl.seed }) else s) := by
  rw [← bits_high]; rfl
theorem scalarConvert : Rules.ScalarConvert := by
  intro s t u d a h _ y r
  have he := exec_fcvt t u d a s
  have hsr : s.fcw.isSr = true ↔ bits s.thr.ctl.fcw 5 3 = 5 := beq_iff_eq
  rw [← word_fcvtBits]
  by_cases h5 : bits s.thr.ctl.fcw 5 3 = 5
  · rw [if_pos h5]
    rw [if_pos (hsr.2 h5)] at he
    exact writes_of_fpWrite_stepped h he
  · rw [if_neg h5]
    rw [if_neg (mt hsr.1 h5)] at he
    exact writes_of_fpWrite h he

end Sys2Proof.Machine
end

section
/-! SUPPORT. NaNs, infinities and zeros as operands and as sources of conversions (R84, R90, R91, R105). -/

namespace Sys2Proof.Machine

/-! ### NaNs -/

section
variable {t : ElemTy} {c : Fcw} {x y z : ℕ} {X Y Z : Num}

theorem nanFrom_eq (t : ElemTy) (l : List Num) : NanFrom t l = ⟨canonNan t, snanFlag l⟩ := by rw [NanFrom, quietNan_eq]; rfl
theorem zeroTimesInf_of_nan (h : X.isNan = true ∨ Y.isNan = true) : zeroTimesInf X Y = false := by
  have key : ∀ {W : Num}, W.isNan = true → W.isZero = false ∧ W.isInf = false := fun {W} hW => by
    cases W with
    | nan s => exact ⟨rfl, rfl⟩
    | inf n => cases hW
    | fin n m e => cases hW
  rcases h with h | h <;> obtain ⟨h1, h2⟩ := key h <;> simp [zeroTimesInf, h1, h2]
theorem isSnan_negate (X : Num) : X.negate.isSnan = X.isSnan := by cases X <;> rfl
theorem addNum_of_nan {rm : Rm} {ftzo : Bool} (h : X.isNan = true ∨ Y.isNan = true) : addNum t rm ftzo X Y = NanFrom t [X, Y] := by
  rw [nanFrom_eq]
  exact if_pos (Bool.or_eq_true_iff.2 h)
theorem fpAdd_of_nan (hX : readF t c.ftzi x = X) (hY : readF t c.ftzi y = Y) (h : X.isNan = true ∨ Y.isNan = true) :
    fpAdd t c x y = NanFrom t [X, Y] := by
  rw [fpAdd, hX, hY, addNum_of_nan h]
theorem fpSub_of_nan (hX : readF t c.ftzi x = X) (hY : readF t c.ftzi y = Y) (h : X.isNan = true ∨ Y.isNan = true) :
    fpSub t c x y = NanFrom t [X, Y] := by
  rw [fpSub, hX, hY, addNum_of_nan (by rw [isNan_negate]; exact h), NanFrom, NanFrom, List.any_cons, List.any_cons, isSnan_negate]; rfl
theorem fpMul_of_nan (hX : readF t c.ftzi x = X) (hY : readF t c.ftzi y = Y) (h : X.isNan = true ∨ Y.isNan = true) :
    fpMul t c x y = NanFrom t [X, Y] := by
  rw [nanFrom_eq]
  unfold fpMul
  dsimp only
  rw [hX, hY, zeroTimesInf_of_nan h, if_neg Bool.false_ne_true, if_pos (Bool.or_eq_true_iff.2 h)]
theorem fpDiv_of_nan (hX : readF t c.ftzi x = X) (hY : readF t c.ftzi y = Y) (h : X.isNan = true ∨ Y.isNan = true) :
    fpDiv t c x y = NanFrom t [X, Y] := by
  rw [nanFrom_eq]
  unfold fpDiv
  dsimp only
  rw [hX, hY]
  cases X with
  | nan s => rfl
  | inf n | fin n m e =>
    cases Y with
    | nan s => rfl
    | inf k | fin k p g => rcases h with h | h <;> cases h
theorem fpFma_of_nan (hX : readF t c.ftzi x = X) (hY : readF t c.ftzi y = Y) (hZ : readF t c.ftzi z = Z) (hv : zeroTimesInf X Y = false)
    (h : X.isNan = true ∨ Y.isNan = true ∨ Z.isNan = true) (sub : Bool) : fpFma t c sub z x y = NanFrom t [X, Y, Z] := by
  rw [nanFrom_eq]
  unfold fpFma
  dsimp only
  rw [hX, hY, hZ, hv, if_neg Bool.false_ne_true, if_pos]
  rw [Bool.or_eq_true, Bool.or_eq_true, or_assoc]
  exact h
theorem fpMul_of_void (hX : readF t c.ftzi x = X) (hY : readF t c.ftzi y = Y) (hv : zeroTimesInf X Y = true) :
    fpMul t c x y = ⟨QuietNan t, flInvalid⟩ := by
  unfold fpMul
  dsimp only
  rw [hX, hY, quietNan_eq, if_pos hv]
theorem fpFma_of_void (hX : readF t c.ftzi x = X) (hY : readF t c.ftzi y = Y) (hv : zeroTimesInf X Y = true) (sub : Bool) :
    fpFma t c sub z x y = ⟨QuietNan t, flInvalid⟩ := by
  unfold fpFma
  dsimp only
  rw [hX, hY, quietNan_eq, if_pos hv]

/-! ### Infinities in sums -/

/-- Infinities of one sign among the terms. -/
theorem sumF_of_one_inf (ht : fpsTy t = true) {rm : Rm} {ftzo : Bool} {l : List Num} {n : Bool} (h : Num.inf n ∈ l)
    (h' : ∀ w ∈ l, w.isInf = true → w = .inf n) : sumF t rm ftzo l = ⟨InfOf t n, 0⟩ := by
  rw [sumF_of_inf h fun g => ?_, infOf_eq_of_fps ht]
  have := Num.inf.inj (h' _ g rfl)
  cases n <;> cases this
theorem sumF_inf_pair (ht : fpsTy t = true) {rm : Rm} {ftzo : Bool} (n m : Bool) : sumF t rm ftzo [.inf n, .inf m] =
    if n = m then ⟨InfOf t n, 0⟩ else ⟨QuietNan t, flInvalid⟩ := by
  by_cases h : n = m
  · subst h
    rw [if_pos rfl]
    exact sumF_of_one_inf ht (List.mem_cons_self ..) fun w hw _ => by simpa using hw
  · rw [if_neg h, quietNan_eq]
    refine sumF_of_both ?_ ?_ <;> cases n <;> cases m <;> simp at h ⊢
theorem sumF_inf_fin (ht : fpsTy t = true) {rm : Rm} {ftzo : Bool} (n : Bool) (hY : Y.isInf = false) :
    sumF t rm ftzo [.inf n, Y] = ⟨InfOf t n, 0⟩ ∧ sumF t rm ftzo [Y, .inf n] = ⟨InfOf t n, 0⟩ := by
  have key : ∀ w, w = .inf n ∨ w = Y → w.isInf = true → w = .inf n := by
    rintro w (rfl | rfl) hw
    · rfl
    · rw [hY] at hw; cases hw
  refine ⟨sumF_of_one_inf ht (by simp) fun w hw => key w (by simpa using hw), sumF_of_one_inf ht (by simp) fun w hw => key w (by simpa [or_comm] using hw)⟩
theorem sumF_inf (ht : fpsTy t = true) {rm : Rm} {ftzo : Bool} (n : Bool) : sumF t rm ftzo [.inf n] = ⟨InfOf t n, 0⟩ :=
  sumF_of_one_inf ht (List.mem_cons_self ..) fun w hw _ => by simpa using hw
/-- A product with an infinity. -/
theorem numMul_of_inf (hX : X.isNan = false) (hY : Y.isNan = false) (h : X.isInf = true ∨ Y.isInf = true) :
    numMul X Y = .inf (X.neg != Y.neg) := by
  cases X with
  | nan s => cases hX
  | inf n =>
    cases Y with
    | nan s => cases hY
    | inf k => rfl
    | fin k p g => rfl
  | fin n m e =>
    cases Y with
    | nan s => cases hY
    | inf k => show Num.inf (k != n) = .inf (n != k); cases n <;> cases k <;> rfl
    | fin k p g => rcases h with h | h <;> cases h
theorem isInf_numMul (hX : X.isNan = false) (hY : Y.isNan = false) (h : X.isInf = false) (h' : Y.isInf = false) : (numMul X Y).isInf = false := by
  cases X with
  | nan s => cases hX
  | inf n => cases h
  | fin n m e =>
    cases Y with
    | nan s => cases hY
    | inf k => cases h'
    | fin k p g => rfl
theorem isInf_negate (X : Num) : X.negate.isInf = X.isInf := by cases X <;> rfl

/-! ### R105's table -/

theorem inf_of_isInf (h : X.isInf = true) : ∃ n, X = .inf n := by
  cases X with
  | nan s => cases h
  | inf n => exact ⟨n, rfl⟩
  | fin n m e => cases h
theorem zeroTimesInf_inf_fin (n : Bool) (hY : Y.isInf = false) : zeroTimesInf (.inf n) Y = Y.isZero := by
  rw [zeroTimesInf, hY, Bool.and_false, Bool.false_or]; rfl
theorem zeroTimesInf_fin_inf (n : Bool) (hX : X.isInf = false) : zeroTimesInf X (.inf n) = X.isZero := by
  rw [zeroTimesInf, hX, Bool.false_and, Bool.or_false, show (Num.inf n).isInf = true from rfl, Bool.and_true]
/-- FMUL with an infinity. -/
theorem fpMul_of_inf (ht : fpsTy t = true) (hX : readF t c.ftzi x = X) (hY : readF t c.ftzi y = Y) (h : X.isNan = false) (h' : Y.isNan = false)
    (hi : X.isInf = true ∨ Y.isInf = true) :
    fpMul t c x y = if zeroTimesInf X Y then ⟨QuietNan t, flInvalid⟩ else ⟨InfOf t (X.neg != Y.neg), 0⟩ := by
  cases hv : zeroTimesInf X Y with
  | true => exact fpMul_of_void hX hY hv
  | false => rw [fpMul_of_not_nan hX hY h h' hv, numMul_of_inf h h' hi, sumF_inf ht]; rfl
/-- FDIV by an infinity or of one. -/
theorem fpDiv_of_inf (ht : fpsTy t = true) (hX : readF t c.ftzi x = X) (hY : readF t c.ftzi y = Y) (h : X.isNan = false) (h' : Y.isNan = false)
    (hi : X.isInf = true ∨ Y.isInf = true) : fpDiv t c x y =
    if X.isInf && Y.isInf then ⟨QuietNan t, flInvalid⟩ else if X.isInf then ⟨InfOf t (X.neg != Y.neg), 0⟩ else ⟨ZeroOf t (X.neg != Y.neg), 0⟩ := by
  unfold fpDiv
  dsimp only
  rw [hX, hY, quietNan_eq, infOf_eq_of_fps ht]
  cases X with
  | nan s => cases h
  | inf n =>
    cases Y with
    | nan s => cases h'
    | inf k | fin k p g => rfl
  | fin n m e =>
    cases Y with
    | nan s => cases h'
    | inf k => rfl
    | fin k p g => rcases hi with g | g <;> cases g
/-- FDIV of a finite value by a zero. -/
theorem fpDiv_of_zero (ht : fpsTy t = true) {v : ℝ} (hX : readF t c.ftzi x = X) (hY : readF t c.ftzi y = Y) (hx : ValueIs X v) (hy : Y.isZero = true) :
    fpDiv t c x y = if X.isZero then ⟨QuietNan t, flInvalid⟩ else ⟨InfOf t (X.neg != Y.neg), flDivZero⟩ := by
  obtain ⟨n, m, e, rfl⟩ := fin_of_valueIs hx
  unfold fpDiv
  dsimp only
  rw [hX, hY, quietNan_eq, infOf_eq_of_fps ht]
  cases Y with
  | nan s => cases hy
  | inf k => cases hy
  | fin k p g =>
    obtain rfl : p = 0 := by simpa [Num.isZero] using hy
    by_cases hm : m = 0 <;> simp [Num.isZero, Num.neg, hm]
theorem fpSqrt_of_nan (hX : readF t c.ftzi x = X) (h : X.isNan = true) : fpSqrt t c x = NanFrom t [X] := by
  rw [nanFrom_eq]
  unfold fpSqrt
  rw [hX]
  cases X with
  | nan s => cases s <;> rfl
  | inf n => cases h
  | fin n m e => cases h
theorem fpSqrt_of_neg (hX : readF t c.ftzi x = X) (h : X.isNan = false) (hz : X.isZero = false) (hn : X.neg = true) :
    fpSqrt t c x = ⟨QuietNan t, flInvalid⟩ := by
  rw [quietNan_eq]
  unfold fpSqrt
  rw [hX]
  cases X with
  | nan s => cases h
  | inf n => exact if_pos hn
  | fin n m e =>
    have hm : m ≠ 0 := by simpa [Num.isZero] using hz
    have hn : n = true := hn
    simp only [if_neg hm, hn, if_true]
/-- FFMA and its negated form on an infinity. -/
theorem fpFma_of_inf (ht : fpsTy t = true) (hX : readF t c.ftzi x = X) (hY : readF t c.ftzi y = Y) (hZ : readF t c.ftzi z = Z) (h : X.isNan = false)
    (h' : Y.isNan = false) (h'' : Z.isNan = false) (hv : zeroTimesInf X Y = false) (sub : Bool) :
    let p := (X.neg != Y.neg) != sub
    (X.isInf = true ∨ Y.isInf = true → (Z = .inf (!p) → fpFma t c sub z x y = ⟨QuietNan t, flInvalid⟩) ∧
      (Z ≠ .inf (!p) → fpFma t c sub z x y = ⟨InfOf t p, 0⟩)) ∧
    (X.isInf = false → Y.isInf = false → ∀ n, Z = .inf n → fpFma t c sub z x y = ⟨InfOf t n, 0⟩) := by
  intro p
  rw [fpFma_of_not_nan hX hY hZ h h' h'' hv]
  constructor
  · intro hi
    have hp : (if sub then (numMul X Y).negate else numMul X Y) = .inf p := by
      rw [numMul_of_inf h h' hi]
      cases sub
      · rw [if_neg Bool.false_ne_true]; show _ = Num.inf (_ != false); rw [Bool.bne_false]
      · rw [if_pos rfl]; show Num.inf (!_) = Num.inf (_ != true); rw [Bool.bne_true]
    rw [hp]
    refine ⟨fun hz => ?_, fun hz => ?_⟩
    · rw [hz, sumF_inf_pair ht, if_neg (by cases p <;> decide)]
    · cases hi : Z.isInf with
      | false => exact (sumF_inf_fin ht p hi).2
      | true =>
        obtain ⟨n, rfl⟩ := inf_of_isInf hi
        have hn : n = p := by
          by_contra g
          exact hz (congrArg Num.inf (Bool.eq_not.2 g))
        rw [sumF_inf_pair ht, if_pos hn, hn]
  · rintro hi hi' n rfl
    refine (sumF_inf_fin ht n ?_).1
    cases sub
    · exact isInf_numMul h h' hi hi'
    · exact (isInf_negate _).trans (isInf_numMul h h' hi hi')

end

theorem specialOperands : Rules.SpecialOperands := by
  intro t c x y z ht X Y Z sign bad inf void
  have hX : readF t c.ftzi x = X := rfl
  have hY : readF t c.ftzi y = Y := rfl
  have hZ : readF t c.ftzi z = Z := rfl
  refine ⟨fun h => ⟨fpAdd_of_nan hX hY h, fpSub_of_nan hX hY h, fpMul_of_nan hX hY h, fpDiv_of_nan hX hY h⟩, fun n m hx hy => ?_, fun n v hx hy => ?_,
    fun n v hx hy => ?_, fun v hx hy => fpDiv_of_zero ht hX hY hx hy, fun h => fpSqrt_of_nan hX h, fun h => ?_,
    fun h1 h2 h3 => fpSqrt_of_neg hX h1 h2 h3, ?_⟩
  · have h : X.isNan = false := by rw [hx]; rfl
    have h' : Y.isNan = false := by rw [hy]; rfl
    have hi : X.isInf = true := by rw [hx]; rfl
    have hi' : Y.isInf = true := by rw [hy]; rfl
    refine ⟨?_, ?_, ?_, ?_⟩
    · rw [fpAdd_of_not_nan hX hY h h', hx, hy]; exact sumF_inf_pair ht n m
    · rw [fpSub_of_not_nan hX hY h h', hx, hy, show (Num.inf m).negate = .inf (!m) from rfl, sumF_inf_pair ht]
      cases n <;> cases m <;> rfl
    · rw [fpMul_of_inf ht hX hY h h' (.inl hi), show zeroTimesInf X Y = false by rw [hx, hy]; rfl]; rfl
    · rw [fpDiv_of_inf ht hX hY h h' (.inl hi), hi, hi']; rfl
  · have h : X.isNan = false := by rw [hx]; rfl
    have h' := isNan_of_valueIs hy
    have hi : X.isInf = true := by rw [hx]; rfl
    have hi' := isInf_of_valueIs hy
    refine ⟨?_, ?_, ?_, ?_⟩
    · rw [fpAdd_of_not_nan hX hY h h', hx]; exact (sumF_inf_fin ht n hi').1
    · rw [fpSub_of_not_nan hX hY h h', hx]; exact (sumF_inf_fin ht n ((isInf_negate Y).trans hi')).1
    · rw [fpMul_of_inf ht hX hY h h' (.inl hi), show zeroTimesInf X Y = Y.isZero by rw [hx]; exact zeroTimesInf_inf_fin n hi']
    · rw [fpDiv_of_inf ht hX hY h h' (.inl hi), hi, hi']; rfl
  · have h := isNan_of_valueIs hx
    have h' : Y.isNan = false := by rw [hy]; rfl
    have hi := isInf_of_valueIs hx
    have hi' : Y.isInf = true := by rw [hy]; rfl
    refine ⟨?_, ?_, ?_, ?_⟩
    · rw [fpAdd_of_not_nan hX hY h h', hy]; exact (sumF_inf_fin ht n hi).2
    · rw [fpSub_of_not_nan hX hY h h', hy]; exact (sumF_inf_fin ht (!n) hi).2
    · rw [fpMul_of_inf ht hX hY h h' (.inr hi'), show zeroTimesInf X Y = X.isZero by rw [hy]; exact zeroTimesInf_fin_inf n hi]
    · rw [fpDiv_of_inf ht hX hY h h' (.inr hi'), hi]; rfl
  · show fpSqrt t c x = ⟨InfOf t false, 0⟩
    rw [infOf_eq_of_fps ht, signBit, if_neg Bool.false_ne_true, Nat.zero_add]
    unfold fpSqrt
    rw [show readF t c.ftzi x = .inf false from h]; rfl
  · rintro sub r rfl
    exact ⟨fun hv => fpFma_of_void hX hY hv sub, fun hv h => fpFma_of_nan hX hY hZ hv h sub, fun hv h h' h'' => fpFma_of_inf ht hX hY hZ h h' h'' hv sub⟩

/-! ### Conversions of NaNs and infinities (R84, R90, R91) -/

section
variable {t : ElemTy} {rm : Rm} {c : Fcw} {X : Num}

theorem convF_of_nan (h : X.isNan = true) : convF t rm c X = if t = .e2m1 then ⟨0, flInvalid⟩ else NanFrom t [X] := by
  cases X with
  | inf n => cases h
  | fin n m e => cases h
  | nan s =>
    by_cases ht : t = .e2m1
    · subst ht; rw [if_pos rfl]; cases s <;> rfl
    · rw [if_neg ht, nanFrom_eq]
      show (⟨canonNan t, flagIf (s || t == .e2m1) flInvalid⟩ : Fl) = _
      rw [beq_eq_false_iff_ne.2 ht]
      cases s <;> rfl
theorem convF_of_inf {n : Bool} (ht : t ∈ [ElemTy.f32, .wf19, .f16, .bf16, .e5m2]) : convF t rm c (.inf n) = ⟨InfOf t n, 0⟩ := by
  rw [infOf_eq ht]
  refine if_neg ?_
  rintro (rfl | rfl) <;> simp at ht
/-- The types without infinities (R90). -/
theorem convF_of_inf_bounded {n : Bool} (ht : t = .e4m3 ∨ t = .e2m1) : convF t rm c (.inf n) =
    if rm.towardZero n then ⟨ZeroOf t n + (if t = .e4m3 then 0x7E else 7), 0⟩
    else if c.sat = true ∨ t = .e2m1 then ⟨ZeroOf t n + (if t = .e4m3 then 0x7E else 7), flSaturated⟩ else ⟨QuietNan t, 0⟩ := by
  rw [quietNan_eq]
  have hmax : maxFinite t = if t = .e4m3 then 0x7E else 7 := by rcases ht with rfl | rfl <;> rfl
  rw [← hmax]
  refine (if_pos ht).trans ?_
  split
  · rfl
  · simp only [Bool.or_eq_true, beq_iff_eq]; rfl

end

theorem specialConversions : Rules.SpecialConversions := by
  intro t u c w x hu _ X toward big
  refine ⟨fun ht hn => ?_, fun n hx => ⟨fun ht => ?_, fun ht => ?_⟩, fun ht => ⟨fun hn => ?_, fun n hx => ?_⟩⟩
  · rw [convert_of_floats ht hu]
    exact convF_of_nan hn
  · have hf : isFloat t = true := by
      simp only [List.mem_cons, List.not_mem_nil, or_false] at ht
      rcases ht with rfl | rfl | rfl | rfl | rfl <;> rfl
    rw [convert_of_floats hf hu, show readF u c.ftzi x = .inf n from hx]
    exact convF_of_inf ht
  · have hf : isFloat t = true := by rcases ht with rfl | rfl <;> rfl
    have hz : toward n ↔ (c.crm w).towardZero n = true := (towardZero_iff _ _).symm
    rw [convert_of_floats hf hu, show readF u c.ftzi x = .inf n from hx, convF_of_inf_bounded ht, hz]
    refine ⟨fun h => if_pos h, fun h hs => ?_, fun h hs he => ?_⟩
    · rw [if_neg h, if_pos hs]
    · rw [if_neg h, if_neg]
      rintro (g | g)
      · rw [hs] at g; cases g
      · rw [he] at g; cases g
  · rw [convert_of_float_to_int ht hu]
    show roundI t (c.crm w) X = _
    cases hX : X with
    | nan s => rfl
    | inf n => rw [hX] at hn; cases hn
    | fin n m e => rw [hX] at hn; cases hn
  · rw [convert_of_float_to_int ht hu, show readF u c.ftzi x = .inf n from hx]; rfl

end Sys2Proof.Machine
end

section
/-! SUPPORT. The order of values, the lesser and the greater operand, the compares, the sign operations and the class word (R106 to R109); and the
obligation on scalar floating point. -/

namespace Sys2Proof.Machine

/-! ### The order of values (R106, R108) -/

section
variable {X Y : Num} {a b : EReal}

theorem extIs_fin {n : Bool} {m : ℕ} {e : ℤ} (h : ExtIs (.fin n m e) a) : a = ((Num.fin n m e).real : EReal) := h
theorem isNan_of_extIs (h : ExtIs X a) : X.isNan = false := by
  cases X with
  | nan s => exact h.elim
  | inf n => rfl
  | fin n m e => rfl
theorem scaledInt_lt_iff {n k : Bool} {m p : ℕ} {e g q : ℤ} (he : q ≤ e) (hg : q ≤ g) :
    scaledInt q (.fin n m e) < scaledInt q (.fin k p g) ↔ (Num.fin n m e).real < (Num.fin k p g).real := by
  have h1 : (scaledInt q (.fin n m e) : ℝ) * 2 ^ q = (Num.fin n m e).real := scaledInt_real fun _ _ _ h => by cases h; exact he
  have h2 : (scaledInt q (.fin k p g) : ℝ) * 2 ^ q = (Num.fin k p g).real := scaledInt_real fun _ _ _ h => by cases h; exact hg
  rw [← h1, ← h2, mul_lt_mul_iff_left₀ (two_zpow_pos q), Int.cast_lt]
theorem numLt_iff (hx : ExtIs X a) (hy : ExtIs Y b) : numLt X Y = true ↔ a < b := by
  cases X with
  | nan s => exact hx.elim
  | inf n =>
    obtain rfl : a = if n then ⊥ else ⊤ := hx
    cases Y with
    | nan s => exact hy.elim
    | inf k =>
      obtain rfl : b = if k then ⊥ else ⊤ := hy
      cases n <;> cases k <;> simp [numLt]
    | fin k p g =>
      rw [extIs_fin hy]
      cases n <;> simp [numLt]
  | fin n m e =>
    rw [extIs_fin hx]
    cases Y with
    | nan s => exact hy.elim
    | inf k =>
      obtain rfl : b = if k then ⊥ else ⊤ := hy
      cases k <;> simp [numLt, EReal.coe_lt_top]
    | fin k p g =>
      have hq := (minExp_le 0 [.fin n m e, .fin k p g]).2
      rw [extIs_fin hy, EReal.coe_lt_coe_iff, ← scaledInt_lt_iff (hq n m e (by simp)) (hq k p g (by simp))]
      exact decide_eq_true_iff
theorem numLt_eq_false_iff (hx : ExtIs X a) (hy : ExtIs Y b) : numLt X Y = false ↔ b ≤ a := by
  rw [← Bool.not_eq_true, numLt_iff hx hy, not_lt]
theorem numEq_iff (hx : ExtIs X a) (hy : ExtIs Y b) : numEq X Y = true ↔ a = b := by
  rw [numEq, isNan_of_extIs hx, isNan_of_extIs hy]
  simp only [Bool.not_false, Bool.true_and, Bool.and_eq_true, Bool.not_eq_true']
  rw [numLt_eq_false_iff hx hy, numLt_eq_false_iff hy hx]
  exact ⟨fun h => le_antisymm h.2 h.1, fun h => ⟨h.ge, h.le⟩⟩
theorem isZero_iff_of_extIs (hx : ExtIs X a) : X.isZero = true ↔ a = 0 := by
  cases X with
  | nan s => exact hx.elim
  | inf n =>
    obtain rfl : a = if n then ⊥ else ⊤ := hx
    cases n <;> simp [Num.isZero]
  | fin n m e =>
    rw [extIs_fin hx, EReal.coe_eq_zero]
    exact isZero_iff_of_valueIs (valueIs_fin n m e)

end

/-! ### Encodings of equal values -/

section
variable {t : ElemTy} {x y : ℕ}

theorem ne_wf19_of_fps (ht : fpsTy t = true) : t ≠ .wf19 := by rintro rfl; cases ht
/-- A body that reads as an infinity. -/
theorem body_of_inf (ht : fpsTy t = true) {neg n : Bool} {b : ℕ} (h : bodyNum t neg b = .inf n) : n = neg ∧ b = infBits t := by
  have hdm := Nat.div_add_mod b (2 ^ fracBits t)
  unfold bodyNum at h
  dsimp only at h
  split at h
  · cases h
  split at h
  · next htop =>
    simp only [Bool.and_eq_true, beq_iff_eq] at htop
    split at h
    · next hf =>
      refine ⟨(Num.inf.inj h).symm, ?_⟩
      rw [hf, htop.1.1] at hdm
      rw [infBits, fracShift_eq_zero (ne_wf19_of_fps ht), ← hdm]; ring
    · cases h
  · split at h <;> cases h
/-- Two finite values of one magnitude have one body. -/
theorem body_eq_of_value_eq {k m k' m' : ℕ} (h : Normal t k m) (h' : Normal t k' m') (hv : (m : ℝ) * 2 ^ (ulp0 t + k) = m' * 2 ^ (ulp0 t + k')) :
    k * 2 ^ fracBits t + m = k' * 2 ^ fracBits t + m' := by
  have hn : m * 2 ^ k = m' * 2 ^ k' := by
    rw [zpow_add₀ two_ne_zero, zpow_add₀ two_ne_zero, mul_left_comm, mul_left_comm (m' : ℝ), zpow_natCast, zpow_natCast] at hv
    exact_mod_cast mul_left_cancel₀ (two_zpow_pos _).ne' hv
  exact le_antisymm (body_le_of_value_le h.2 h.1.le h' (fun hk => h'.2.resolve_left (by omega)) hn.le)
    (body_le_of_value_le h'.2 h'.1.le h (fun hk => h.2.resolve_left (by omega)) hn.ge)
/-- A value, with its sign where it is a zero, has one encoding. -/
theorem encoding_unique (ht : fpsTy t = true) {a : EReal} (hx : ExtIs (unpackF t x) a) (hy : ExtIs (unpackF t y) a)
    (hn : (unpackF t x).neg = (unpackF t y).neg) : x % 2 ^ t.width = y % 2 ^ t.width := by
  obtain ⟨s, b, -, hxb, hxu⟩ := exists_body (isFloat_of_fps ht) (ne_wf19_of_fps ht) x
  obtain ⟨s', b', -, hyb, hyu⟩ := exists_body (isFloat_of_fps ht) (ne_wf19_of_fps ht) y
  rw [hxu] at hx hn
  rw [hyu] at hy hn
  rw [hxb, hyb]
  cases hX : bodyNum t s b with
  | nan q => rw [hX] at hx; exact hx.elim
  | inf n =>
    rw [hX] at hx hn
    obtain ⟨rfl, rfl⟩ := body_of_inf ht hX
    cases hY : bodyNum t s' b' with
    | nan q => rw [hY] at hy; exact hy.elim
    | inf n' =>
      rw [hY] at hn
      obtain ⟨rfl, rfl⟩ := body_of_inf ht hY
      rw [show n = n' from hn]
    | fin n' m' e' =>
      rw [hY] at hy
      obtain rfl : a = if n then ⊥ else ⊤ := hx
      have := extIs_fin hy
      cases n <;> simp at this
  | fin n m e =>
    rw [hX] at hx hn
    obtain ⟨rfl, k, rfl, hnorm, rfl⟩ := normal_of_bodyNum hX
    cases hY : bodyNum t s' b' with
    | nan q => rw [hY] at hy; exact hy.elim
    | inf n' =>
      rw [hY] at hy
      obtain rfl : a = if n' then ⊥ else ⊤ := hy
      have := extIs_fin hx
      cases n' <;> simp at this
    | fin n' m' e' =>
      rw [hY] at hy hn
      obtain ⟨rfl, k', rfl, hnorm', rfl⟩ := normal_of_bodyNum hY
      have hr := (extIs_fin hx).symm.trans (extIs_fin hy)
      rw [EReal.coe_eq_coe_iff] at hr
      have hv := congrArg abs hr
      rw [abs_real_fin, abs_real_fin] at hv
      rw [body_eq_of_value_eq hnorm hnorm' hv, show n = n' from hn]

/-! ### Operands under ftzi (R86) -/

theorem fieldsOf_eq (ht : fpsTy t = true) : FieldsOf t = (expBits t, fracBits t) := by
  cases t with
  | f32 | bf16 | f16 => rfl
  | e4m3 | e5m2 | e2m1 | i32 | i16 | i8 | i4 | n32 | n16 | n8 | n4 | c8 | wf19 => cases ht
theorem asRead_eq (ht : fpsTy t = true) (ftzi : Bool) (x : ℕ) : AsRead t ftzi x = flushIn t ftzi x := by
  obtain ⟨s, b, hb, hx, -⟩ := exists_body (isFloat_of_fps ht) (ne_wf19_of_fps ht) x
  have hw := width_eq_of_ne (isFloat_of_fps ht) (ne_wf19_of_fps ht)
  unfold AsRead flushIn isSubnormal
  dsimp only
  rw [fieldsOf_eq ht, if_neg (ne_wf19_of_fps ht), hx]
  cases ftzi with
  | false => rw [if_neg (fun h => nomatch h.1), Bool.false_and, if_neg Bool.false_ne_true]
  | true =>
    rw [signBit_eq]
    rw [hw, Nat.add_sub_cancel] at hb ⊢
    obtain ⟨-, -, h3, h4⟩ := encoding_fields hb s
    simp only [h3, h4]
    by_cases he : b / 2 ^ fracBits t = 0
    · by_cases hf : b % 2 ^ fracBits t = 0
      · have h0 : b = 0 := by rw [← Nat.div_add_mod b (2 ^ fracBits t), he, hf, Nat.mul_zero]
        rw [h0]; simp
      · simp [he, hf]
    · simp [he]
theorem flushIn_lt (t : ElemTy) (ftzi : Bool) (x : ℕ) : flushIn t ftzi x < 2 ^ t.width := by
  have h : x % 2 ^ t.width < 2 ^ t.width := Nat.mod_lt _ (Nat.two_pow_pos _)
  unfold flushIn
  dsimp only
  split
  · exact (Nat.div_mul_le_self _ _).trans_lt h
  · exact h

/-! ### FMIN and FMAX (R106) -/

theorem snanFlag_pair (X Y : Num) : snanFlag [X, Y] = if X.isSnan = true ∨ Y.isSnan = true then flInvalid else 0 := by
  cases hX : X.isSnan <;> cases hY : Y.isSnan <;> simp [snanFlag, flagIf, hX, hY]
theorem sign_of_extIs {X : Num} {a : EReal} (h : ExtIs X a) : (X.neg = true → a ≤ 0) ∧ (X.neg = false → 0 ≤ a) := by
  cases X with
  | nan s => exact h.elim
  | inf n =>
    obtain rfl : a = if n then ⊥ else ⊤ := h
    cases n <;> simp [Num.neg]
  | fin n m e =>
    rw [extIs_fin h]
    have hm : (0 : ℝ) ≤ m * 2 ^ e := mul_nonneg (Nat.cast_nonneg m) (two_zpow_pos e).le
    cases n
    · exact ⟨fun g => (Bool.false_ne_true g).elim, fun _ => EReal.coe_nonneg.2 (by simpa [Num.real] using hm)⟩
    · exact ⟨fun _ => EReal.coe_nonpos.2 (by simpa [Num.real] using hm), fun g => (Bool.false_ne_true g.symm).elim⟩
/-- Values that neither precedes the other are one value of one sign. -/
theorem eq_of_not_ordered {X Y : Num} {a b : EReal} (hx : ExtIs X a) (hy : ExtIs Y b) (h1 : ¬(a < b ∨ (a = 0 ∧ b = 0 ∧ X.neg = true ∧ Y.neg = false)))
    (h2 : ¬(b < a ∨ (a = 0 ∧ b = 0 ∧ Y.neg = true ∧ X.neg = false))) : a = b ∧ X.neg = Y.neg := by
  rw [not_or] at h1 h2
  have hab : a = b := le_antisymm (not_lt.1 h2.1) (not_lt.1 h1.1)
  refine ⟨hab, ?_⟩
  have sx := sign_of_extIs hx
  have sy := sign_of_extIs hy
  cases hX : X.neg <;> cases hY : Y.neg
  · rfl
  · have h0 : a = 0 := le_antisymm (hab ▸ sy.1 hY) (sx.2 hX)
    exact absurd ⟨h0, hab ▸ h0, hY, hX⟩ h2.2
  · have h0 : a = 0 := le_antisymm (sx.1 hX) (hab ▸ sy.2 hY)
    exact absurd ⟨h0, hab ▸ h0, hX, hY⟩ h1.2
  · rfl
/-- The operand that FMIN takes: the first one precedes. -/
def precedes (X Y : Num) : Bool := numLt X Y || (numEq X Y && X.isZero && X.neg && !Y.neg)
theorem precedes_iff {X Y : Num} {a b : EReal} (hx : ExtIs X a) (hy : ExtIs Y b) :
    precedes X Y = true ↔ a < b ∨ (a = 0 ∧ b = 0 ∧ X.neg = true ∧ Y.neg = false) := by
  unfold precedes
  simp only [Bool.or_eq_true, Bool.and_eq_true, Bool.not_eq_true', numLt_iff hx hy, numEq_iff hx hy, isZero_iff_of_extIs hx]
  refine or_congr_right ⟨fun ⟨⟨⟨h1, h2⟩, h3⟩, h4⟩ => ⟨h2, h1 ▸ h2, h3, h4⟩, fun ⟨h1, h2, h3, h4⟩ => ⟨⟨⟨h1.trans h2.symm, h1⟩, h3⟩, h4⟩⟩
theorem fpMinMax_eq (t : ElemTy) (ftzi max : Bool) (x y : ℕ) :
    let X := readF t ftzi x
    let Y := readF t ftzi y
    fpMinMax t ftzi max x y = ⟨if X.isNan then (if Y.isNan then canonNan t else flushIn t ftzi y)
      else if Y.isNan then flushIn t ftzi x
      else if precedes X Y != max then flushIn t ftzi x else flushIn t ftzi y, snanFlag [X, Y]⟩ := by
  intro X Y
  unfold fpMinMax
  dsimp only
  rw [show readF t ftzi x = X from rfl, show readF t ftzi y = Y from rfl]
  cases hX : X.isNan <;> cases hY : Y.isNan <;> rfl
theorem picksOf_fpMinMax (ht : fpsTy t = true) (ftzi max : Bool) (x y : ℕ) : PicksOf t ftzi max x y (fpMinMax t ftzi max x y) := by
  unfold PicksOf
  rw [asRead_eq ht, asRead_eq ht, fpMinMax_eq]
  intro X Y x' y'
  refine ⟨snanFlag_pair X Y, fun hX hY => ?_, fun hX hY => ?_, fun hX hY => ?_, fun a b hx hy => ?_⟩
  · simp only [show (readF t ftzi x).isNan = true from hX, show (readF t ftzi y).isNan = true from hY, if_true, quietNan_eq]
  · simp only [show (readF t ftzi x).isNan = true from hX, show (readF t ftzi y).isNan = false from hY, if_true, Bool.false_eq_true, if_false]; rfl
  · simp only [show (readF t ftzi x).isNan = false from hX, show (readF t ftzi y).isNan = true from hY, if_true, Bool.false_eq_true, if_false]; rfl
  · have hX : (readF t ftzi x).isNan = false := isNan_of_extIs hx
    have hY : (readF t ftzi y).isNan = false := isNan_of_extIs hy
    have hp : precedes (readF t ftzi x) (readF t ftzi y) = true ↔ _ := precedes_iff hx hy
    simp only [hX, hY, Bool.false_eq_true, if_false]
    refine ⟨fun h => ?_, fun h => ?_, fun h1 h2 => ?_⟩
    · rw [hp.2 h]
      cases max <;> rfl
    · have hn : ¬(a < b ∨ (a = 0 ∧ b = 0 ∧ X.neg = true ∧ Y.neg = false)) := by
        rintro (g | ⟨g1, g2, g3, g4⟩) <;> rcases h with k | ⟨k1, k2, k3, k4⟩
        · exact lt_asymm g k
        · rw [k1, k2] at g; exact lt_irrefl _ g
        · rw [g1, g2] at k; exact lt_irrefl _ k
        · rw [g3] at k4; cases k4
      rw [Bool.eq_false_iff.2 (mt hp.1 hn)]
      cases max <;> rfl
    · obtain ⟨rfl, hs⟩ := eq_of_not_ordered hx hy h1 h2
      have he : x' = y' := by
        have := encoding_unique ht hx hy hs
        rwa [Nat.mod_eq_of_lt (flushIn_lt t ftzi x), Nat.mod_eq_of_lt (flushIn_lt t ftzi y)] at this
      refine ⟨?_, he⟩
      show (if _ then x' else y') = x'
      rw [← he]
      exact ite_self x'

/-! ### Compares (R108, R123) -/

theorem numLt_of_nan {X Y : Num} (h : X.isNan = true ∨ Y.isNan = true) : numLt X Y = false := by
  cases X with
  | nan s => rfl
  | inf n | fin n m e =>
    cases Y with
    | nan s => rfl
    | inf k | fin k p g => rcases h with h | h <;> cases h
theorem numEq_of_nan {X Y : Num} (h : X.isNan = true ∨ Y.isNan = true) : numEq X Y = false := by
  rw [numEq]
  rcases h with h | h <;> simp [h]
theorem fpCmp_of_nan {c : Fcw} {X Y : Num} (hX : readF t c.ftzi x = X) (hY : readF t c.ftzi y = Y) (h : X.isNan = true ∨ Y.isNan = true) :
    fpCmp t c .eq x y = ⟨0, snanFlag [X, Y]⟩ ∧ fpCmp t c .ne x y = ⟨1, snanFlag [X, Y]⟩ ∧ fpCmp t c .lt x y = ⟨0, flInvalid⟩ ∧
      fpCmp t c .le x y = ⟨0, flInvalid⟩ := by
  have hn : (X.isNan || Y.isNan) = true := Bool.or_eq_true_iff.2 h
  unfold fpCmp
  simp only [hX, hY, numEq_of_nan h, numLt_of_nan h, hn]
  exact ⟨rfl, rfl, rfl, rfl⟩
/-- What a compare of two values that are not NaN answers. -/
def cmpOf (o : Cmp) (X Y : Num) : Bool :=
  match o with
  | .eq => numEq X Y
  | .ne => !numEq X Y
  | .lt => numLt X Y
  | .le => !numLt Y X
theorem fpCmp_of_not_nan {c : Fcw} {X Y : Num} (hX : readF t c.ftzi x = X) (hY : readF t c.ftzi y = Y) (h : X.isNan = false) (h' : Y.isNan = false)
    (o : Cmp) : fpCmp t c o x y = ⟨(cmpOf o X Y).toNat, 0⟩ := by
  have hf : snanFlag [X, Y] = 0 := snanFlag_of_not_nan (by simp [h, h'])
  unfold fpCmp
  simp only [hX, hY, hf, h, h']
  cases o <;> rfl

/-! ### Sign operations (R107) -/

theorem fpAbs_bits (t : ElemTy) (x : ℕ) : (fpAbs t x).x < 2 ^ t.width ∧
    ∀ i, i < t.width → (fpAbs t x).x.testBit i = (decide (i ≠ t.width - 1) && x.testBit i) := by
  refine ⟨(Nat.mod_lt _ (Nat.two_pow_pos _)).trans_le (Nat.pow_le_pow_right two_pos (Nat.sub_le _ _)), fun i hi => ?_⟩
  rw [fpAbs, Nat.testBit_mod_two_pow]
  congr 1
  rw [decide_eq_decide]
  omega
theorem fpNeg_bits (t : ElemTy) (x : ℕ) : (fpNeg t x).x < 2 ^ t.width ∧
    ∀ i, i < t.width → (fpNeg t x).x.testBit i = (decide (i = t.width - 1) != x.testBit i) := by
  refine ⟨Nat.mod_lt _ (Nat.two_pow_pos _), fun i hi => ?_⟩
  rw [fpNeg, Nat.testBit_mod_two_pow, decide_eq_true hi, Bool.true_and, Nat.add_comm]
  by_cases h : i = t.width - 1
  · rw [h, Nat.testBit_two_pow_add_eq, decide_eq_true rfl, Bool.true_bne]
  · rw [Nat.testBit_two_pow_add_gt (by omega), decide_eq_false h, Bool.false_bne]

/-! ### The class word (R109) -/

/-- The class of a value with exponent field `e`. -/
def numClass (e : ℕ) : Num → ℕ
  | .nan s => if s then 5 else 4
  | .inf _ => 3
  | .fin _ m _ => if m = 0 then 0 else if e = 0 then 1 else 2
/-- The value is a whole number. -/
def numWhole : Num → Bool
  | .fin _ m g => m % 2 ^ (-g).toNat == 0
  | _ => false
theorem fpClass_eq (t : ElemTy) (x : ℕ) : fpClass t x =
    let a := x % 2 ^ t.width
    let e := a / 2 ^ fracBits t % 2 ^ expBits t
    e * 2 ^ 8 + a / 2 ^ (t.width - 1) * 2 ^ 7 + (numWhole (unpackF t a)).toNat * 2 ^ 5 + numClass e (unpackF t a) := by
  unfold fpClass
  dsimp only
  cases unpackF t (x % 2 ^ t.width) <;> rfl
theorem numClass_le (e : ℕ) (X : Num) : numClass e X ≤ 5 := by
  unfold numClass
  split
  · split <;> decide
  · decide
  · split
    · decide
    · split <;> decide
/-- The fields of a class word. -/
theorem classWord_fields {e s c : ℕ} (i : Bool) (hs : s ≤ 1) (hc : c ≤ 5) :
    let r := e * 2 ^ 8 + s * 2 ^ 7 + i.toNat * 2 ^ 5 + c
    r / 2 ^ 8 = e ∧ r.testBit 7 = decide (s = 1) ∧ r.testBit 6 = false ∧ r.testBit 4 = false ∧ r.testBit 5 = i ∧ r % 16 = c := by
  intro r
  have hi := Bool.toNat_le i
  have h5 : i.toNat = 1 ↔ i = true := by cases i <;> decide
  simp only [Nat.testBit_eq_decide_div_mod_eq]
  refine ⟨by omega, ?_, ?_, ?_, ?_, by omega⟩
  · rw [decide_eq_decide]; omega
  · rw [decide_eq_false_iff_not]; omega
  · rw [decide_eq_false_iff_not]; omega
  · rw [Bool.eq_iff_iff, decide_eq_true_iff, ← h5]; omega
theorem dvd_iff_exists_int {n : Bool} {m : ℕ} {g : ℤ} : m % 2 ^ (-g).toNat = 0 ↔ ∃ k : ℤ, (Num.fin n m g).real = k := by
  have hz : (m : ℝ) * 2 ^ g * 2 ^ (-g).toNat = m * 2 ^ g.toNat := by
    rw [mul_assoc, ← zpow_natCast, ← zpow_natCast, ← zpow_add₀ two_ne_zero]
    congr 2
    omega
  have hsign : (∃ k : ℤ, (Num.fin n m g).real = k) ↔ ∃ k : ℤ, (m : ℝ) * 2 ^ g = k := by
    cases n
    · simp [Num.real]
    · rw [Num.real, if_pos rfl, neg_one_mul, neg_mul]
      exact ⟨fun ⟨k, h⟩ => ⟨-k, by push_cast; linarith⟩, fun ⟨k, h⟩ => ⟨-k, by push_cast; linarith⟩⟩
  rw [hsign]
  constructor
  · intro h
    obtain ⟨d, hd⟩ := Nat.dvd_of_mod_eq_zero h
    refine ⟨d * 2 ^ g.toNat, ?_⟩
    have hp : (0 : ℝ) < 2 ^ (-g).toNat := by positivity
    refine mul_right_cancel₀ hp.ne' ?_
    rw [hz, hd]
    push_cast
    ring
  · rintro ⟨k, hk⟩
    rw [hk] at hz
    have hi : k * 2 ^ (-g).toNat = m * 2 ^ g.toNat := by exact_mod_cast hz
    by_cases hg : 0 ≤ g
    · rw [show (-g).toNat = 0 by omega]; exact Nat.mod_one m
    · rw [show g.toNat = 0 by omega, pow_zero, mul_one] at hi
      refine Nat.mod_eq_zero_of_dvd ?_
      have : ((2 ^ (-g).toNat : ℕ) : ℤ) ∣ m := ⟨k, by push_cast; rw [← hi]; ring⟩
      exact_mod_cast this
theorem numWhole_iff (X : Num) : numWhole X = true ↔ ∃ v : ℝ, ValueIs X v ∧ ∃ k : ℤ, v = k := by
  cases X with
  | nan s => simp [numWhole, ValueIs]
  | inf n => simp [numWhole, ValueIs]
  | fin n m g =>
    rw [show numWhole (.fin n m g) = (m % 2 ^ (-g).toNat == 0) from rfl, beq_iff_eq, dvd_iff_exists_int]
    exact ⟨fun h => ⟨_, valueIs_fin n m g, h⟩, fun ⟨v, hv, k, hk⟩ => ⟨k, (real_of_valueIs hv).symm.trans hk⟩⟩
/-- The class of an encoding, by its fields. -/
theorem numClass_bodyNum (ht : fpsTy t = true) {neg : Bool} {b : ℕ} :
    let p := fracBits t
    let e := b / 2 ^ p
    let f := b % 2 ^ p
    let top := 2 ^ expBits t - 1
    (e = 0 → numClass e (bodyNum t neg b) = if f = 0 then 0 else 1) ∧ (0 < e → e < top → numClass e (bodyNum t neg b) = 2) ∧
      (e = top → numClass e (bodyNum t neg b) = if f = 0 then 3 else if f.testBit (p - 1) then 4 else 5) := by
  intro p e f top
  have hf : f < 2 ^ p := Nat.mod_lt _ (Nat.two_pow_pos _)
  have h2 : t ≠ .e2m1 := by rintro rfl; cases ht
  have hp : 0 < p ∧ 0 < top := by
    cases t with
    | f32 | bf16 | f16 => decide
    | e4m3 | e5m2 | e2m1 | i32 | i16 | i8 | i4 | n32 | n16 | n8 | n4 | c8 | wf19 => cases ht
  have heq : bodyNum t neg b = if e = top then (if f = 0 then .inf neg else .nan (f / 2 ^ (p - 1) == 0))
      else if e = 0 then .fin neg f (1 - (fbias t : ℤ) - p) else .fin neg (2 ^ p + f) ((e : ℤ) - fbias t - p) := by
    unfold bodyNum
    dsimp only
    rw [beq_eq_false_iff_ne.2 (ne_e4m3_of_fps ht), bne_iff_ne.2 (ne_e4m3_of_fps ht), bne_iff_ne.2 h2, Bool.and_false, Bool.false_and,
      if_neg Bool.false_ne_true, Bool.and_true, Bool.and_true]
    simp only [beq_iff_eq]; rfl
  rw [heq]
  refine ⟨fun he => ?_, fun he1 he2 => ?_, fun he => ?_⟩
  · rw [if_neg (he.trans_ne hp.2.ne), if_pos he, he]; rfl
  · have hm : 2 ^ p + f ≠ 0 := (Nat.add_pos_left (Nat.two_pow_pos p) f).ne'
    rw [if_neg he2.ne, if_neg he1.ne', numClass, if_neg hm, if_neg he1.ne']
  · rw [if_pos he]
    by_cases h0 : f = 0
    · rw [if_pos h0, if_pos h0]; rfl
    · rw [if_neg h0, if_neg h0, numClass, Nat.testBit_eq_decide_div_mod_eq]
      have hlt : f / 2 ^ (p - 1) < 2 := by
        rw [Nat.div_lt_iff_lt_mul (Nat.two_pow_pos _), ← Nat.pow_succ', Nat.succ_eq_add_one, Nat.sub_add_cancel hp.1]; exact hf
      rcases Nat.le_one_iff_eq_zero_or_eq_one.1 (Nat.lt_succ_iff.1 hlt) with g | g <;> simp [g]
/-- A field below bit `E + F` stands in the low `E + F + 1` bits. -/
theorem div_mod_of_mod (x E F : ℕ) : x % 2 ^ (E + F + 1) / 2 ^ F % 2 ^ E = x / 2 ^ F % 2 ^ E := by
  rw [show E + F + 1 = F + (E + 1) by omega, Nat.pow_add, Nat.mod_mul_right_div_self, Nat.mod_mod_of_dvd _ (pow_dvd_pow 2 (Nat.le_succ E))]
/-- R109, for an encoding in a wider register. -/
theorem fpClass_fields (ht : fpsTy t = true) (x : ℕ) :
    let r := fpClass t x
    let p := (FieldsOf t).2
    let top := 2 ^ (FieldsOf t).1 - 1
    let e := x / 2 ^ p % 2 ^ (FieldsOf t).1
    let f := x % 2 ^ p
    r < 2 ^ 16 ∧ r / 2 ^ 8 = e ∧ r.testBit 7 = x.testBit (t.width - 1) ∧ r.testBit 6 = false ∧ r.testBit 4 = false ∧
    (r.testBit 5 = true ↔ ∃ v : ℝ, ValueIs (unpackF t x) v ∧ ∃ k : ℤ, v = k) ∧
    (e = 0 → r % 16 = if f = 0 then 0 else 1) ∧ (0 < e → e < top → r % 16 = 2) ∧
    (e = top → r % 16 = if f = 0 then 3 else if f.testBit (p - 1) then 4 else 5) := by
  have hw := width_eq_of_ne (isFloat_of_fps ht) (ne_wf19_of_fps ht)
  obtain ⟨s, b, hb, hx, hu⟩ := exists_body (isFloat_of_fps ht) (ne_wf19_of_fps ht) x
  rw [hw, Nat.add_sub_cancel] at hb
  rw [signBit_eq, hw, Nat.add_sub_cancel] at hx
  obtain ⟨hlt, -, hexp, hfrac⟩ := encoding_fields hb s
  rw [← hx] at hlt hexp hfrac
  rw [fieldsOf_eq ht]
  intro r p top e f
  have he : e = b / 2 ^ p := by rw [← hexp, div_mod_of_mod]
  have hf : f = b % 2 ^ p := by rw [← hfrac, Nat.mod_mod_of_dvd _ (pow_dvd_pow 2 (by omega))]
  have hs : x % 2 ^ (expBits t + fracBits t + 1) / 2 ^ (expBits t + fracBits t) ≤ 1 :=
    Nat.lt_succ_iff.1 ((Nat.div_lt_iff_lt_mul (Nat.two_pow_pos _)).2 (by rw [Nat.pow_succ] at hlt ⊢; omega))
  have hr : r = e * 2 ^ 8 + x % 2 ^ (expBits t + fracBits t + 1) / 2 ^ (expBits t + fracBits t) * 2 ^ 7 + (numWhole (unpackF t x)).toNat * 2 ^ 5
      + numClass e (unpackF t x) := by
    show fpClass t x = _
    rw [fpClass_eq]
    dsimp only
    rw [unpackF_mod (ne_wf19_of_fps ht), hw, Nat.add_sub_cancel, hexp, he]
  have hE : e < 2 ^ 8 :=
    (Nat.mod_lt _ (Nat.two_pow_pos _)).trans_le (Nat.pow_le_pow_right two_pos (by cases t <;> decide))
  obtain ⟨h8, h7, h6, h4, h5, hc⟩ := classWord_fields (e := e) (numWhole (unpackF t x)) hs (numClass_le e (unpackF t x))
  rw [← hr] at h8 h7 h6 h4 h5 hc
  have hcls := numClass_bodyNum ht (neg := s) (b := b)
  rw [← hu] at hcls
  dsimp only at hcls
  rw [← he, ← hf, ← hc] at hcls
  refine ⟨(Nat.div_lt_iff_lt_mul (Nat.two_pow_pos 8)).1 (h8.trans_lt hE), h8, ?_, h6, h4, by rw [h5, numWhole_iff], hcls⟩
  rw [h7, hw, Nat.add_sub_cancel, ← Bool.true_and (x.testBit _), ← decide_eq_true (Nat.lt_succ_self (expBits t + fracBits t)), ← Nat.testBit_mod_two_pow,
    Nat.testBit_eq_decide_div_mod_eq, Nat.mod_eq_of_lt (Nat.lt_succ_of_le hs)]
end

theorem floatBits : Rules.FloatBits := by
  intro t c x y ht X Y w quiet gives
  have hX : readF t c.ftzi x = X := rfl
  have hY : readF t c.ftzi y = Y := rfl
  have hq : quiet = snanFlag [X, Y] := (snanFlag_pair X Y).symm
  refine ⟨picksOf_fpMinMax ht c.ftzi false x y, picksOf_fpMinMax ht c.ftzi true x y, fun h => by rw [hq]; exact fpCmp_of_nan hX hY h,
    fun a b hx hy => ?_, ⟨rfl, fpAbs_bits t x⟩, ⟨rfl, fpNeg_bits t x⟩, fpClass_fields ht x⟩
  have answers : ∀ {o : Cmp} {p : Prop}, (cmpOf o X Y = true ↔ p) → gives o p := fun {o p} h => by
    have he := fpCmp_of_not_nan hX hY (isNan_of_extIs hx) (isNan_of_extIs hy) o
    exact ⟨fun g => by rw [he, h.2 g]; rfl, fun g => by rw [he, Bool.eq_false_iff.2 (mt h.1 g)]; rfl⟩
  refine ⟨answers (numEq_iff hx hy), answers ?_, answers (numLt_iff hx hy), answers ?_⟩
  · rw [cmpOf, Bool.not_eq_true', ← Bool.not_eq_true, numEq_iff hx hy]
  · rw [cmpOf, Bool.not_eq_true', numLt_eq_false_iff hy hx]

/-- Settles O6: each instruction by the result that it writes, NaNs, infinities and zeros by R105's table, the rest by the order of values and the
fields of an encoding. -/
theorem floatScalars : Obligations.FloatScalars := ⟨scalarFloat, scalarConvert, specialOperands, specialConversions, floatBits⟩

end Sys2Proof.Machine
end

section
/-! SUPPORT. A bank word that ACCST converts to e4m3, and the obligation on accumulator moves (R307). -/

namespace Sys2Proof.Machine

/-- t0 of core 0 is ready; word 0 of bank 0 is 1.0 and all others are zeros. -/
def oneInBank : State :=
  { State.reset with
    cores := [(0, { Core.fresh with
      banks := [(0, 0x3F800000)]
      threads := Core.fresh.threads.setIfInBounds 0 { Thread.free with status := .ready } })] }
/-- ACCST.e4m3 of rows 0 and 1 of bank 0 into v0. -/
def storeOne : Instr := .accst .e4m3 0 0 0

theorem oneInBank_admits : storeOne.wf = true ∧ WinReady oneInBank [] [0] ∧ (oneInBank.rd 0).toNat ≤ 15 := by
  unfold WinReady
  decide +kernel
theorem oneInBank_pc : oneInBank.thr.pc + 4 ≠ 0x40000 := by decide +kernel
/-- The model converts: element 0 of v0 is the e4m3 encoding of 1.0. -/
theorem oneInBank_converted :
    (match exec storeOne oneInBank with
      | .next u => some (elem 8 (u.vget 0) 0)
      | _ => none) = some 0x38 := by
  decide +kernel
/-- `BankOut` clamps the word as if it were an integer. -/
theorem oneInBank_clamped :
    (BankOut .e4m3 oneInBank.fcw (SrWord oneInBank 0) (BankWord oneInBank 0 (64 * (oneInBank.rd 0).toNat + 0))).x % 2 ^ 8 = 0xFF := by
  decide +kernel

/-- Refutes O39: e4m3 and e5m2 are float types that ACCST converts to (R307), but `BankOut` counts only f32, bf16 and f16 as floats and clamps the
word as an integer: of the word 1.0 it asks for 0xFF in e4m3, where the model writes the encoding 0x38 of 1.0. -/
theorem not_accumulatorMoves : ¬ Obligations.AccumulatorMoves := by
  intro h
  obtain ⟨-, hst, -⟩ := h oneInBank .e4m3 0 0 0 0 (by decide)
  obtain ⟨hwf, hwin, hrow⟩ := oneInBank_admits
  obtain ⟨u, hrun, hwrote⟩ := hst hwf hwin hrow
  have hpc : u.thr.pc ≠ 0x40000 := hwrote.done.pc ▸ oneInBank_pc
  have hexec : exec storeOne oneInBank = .next u := hrun.trans (by rw [if_neg hpc])
  have helem : elem 8 (u.vget 0) 0 = 0xFF := (hwrote.elems 0 (by decide)).trans ((if_pos (by decide)).trans oneInBank_clamped)
  have hconv := oneInBank_converted
  rw [hexec] at hconv
  have := Option.some.inj hconv
  rw [helem] at this
  exact absurd this (by decide)

end Sys2Proof.Machine
end

section
/-! SUPPORT. Element-wise instructions of the vector unit (R113, R114, R120 to R122): their shape and the integer operations on elements. -/

namespace Sys2Proof.Machine

/-! ### The two shapes (R114) -/

/-- What a write of active elements leaves depends on its values at the active elements alone. -/
theorem vecRuns_congr {i : Instr} {s : State} {reads : List VCode} {m : Nat} {d : VCode} {w n : Nat} {k : Mask} {f g : Nat → Fl}
    (h : VecRuns i s reads m d w n k f) (e : ∀ j, f j = g j) : VecRuns i s reads m d w n k g := by
  rwa [← funext e]
/-- An instruction whose windows let it issue, and that then writes the active elements of a register. -/
theorem vecRuns_of_withWindows {s : State} (h : s.Placed) {i : Instr} {reads : List VCode} {d : VCode} (hr : WinReady s reads [d])
    (hv : vOk d = true) {late : Option TrapOf} (hl : late = none) {w n m : Nat} (hn : n ≤ lanes w) {k : Mask} {f : Nat → Fl}
    (he : exec i s = withWindows reads [d] none late s fun u => (u.vwrite d w n k f).next m) : VecRuns i s reads m d w n k f :=
  vecRuns_of_vwrite h hv hn (he.trans (withWindows_of_ready hr rfl hl))
/-- Well-formedness asks for a class of types and for register fields below 24 (R16, R114): here of an instruction that reads one vector register. -/
theorem vOk_of_wf2 {cls : Bool} {d a : VCode} (h : (cls && vOk d && vOk a) = true) : vOk d = true := by
  simp only [Bool.and_eq_true] at h
  exact h.1.2
/-- The same of an instruction that reads two. -/
theorem vOk_of_wf3 {cls : Bool} {d a b : VCode} (h : (cls && vOk d && vOk a && vOk b) = true) : vOk d = true :=
  vOk_of_wf2 (Bool.and_eq_true_iff.1 h).1
/-- The fields that a shape reads, vd among them where it reads it. -/
def readsOf (dRead : Bool) (d : VCode) (l : List VCode) : List VCode := (if dRead then [d] else []) ++ l

section
variable {s : State} {i : Instr} {t : ElemTy} {d a b : VCode} {m : MaskReg} {dRead : Bool} {n : Nat}

theorem vecRuns_of_vec3 (h : s.Placed) (hr : WinReady s (readsOf dRead d [a, b]) [d]) (hv : vOk d = true) {f : Nat → Nat → Nat → Fl}
    (he : exec i s = vec3 t d a b m dRead f n s) : VecRuns i s (readsOf dRead d [a, b]) n d t.width (lanes t.width) (s.mask m)
      fun j => f (elem t.width (s.vget a) j) (elem t.width (s.vget b) j) (elem t.width (s.vget d) j) :=
  vecRuns_of_withWindows h hr hv rfl le_rfl he
theorem vecRuns_of_vec2 (h : s.Placed) (hr : WinReady s (readsOf dRead d [a]) [d]) (hv : vOk d = true) {f : Nat → Nat → Fl}
    (he : exec i s = vec2 t d a m dRead f n s) : VecRuns i s (readsOf dRead d [a]) n d t.width (lanes t.width) (s.mask m)
      fun j => f (elem t.width (s.vget a) j) (elem t.width (s.vget d) j) :=
  vecRuns_of_withWindows h hr hv rfl le_rfl he

end

end Sys2Proof.Machine
end

section
/-! SUPPORT. The integer operations on elements (R83, R120 to R122). -/

namespace Sys2Proof.Machine

/-! ### Integer elements (R83) -/

theorem natOfInt_add_mul (w : Nat) (x k : Int) : natOfInt w (x + 2 ^ w * k) = natOfInt w x := by
  rw [natOfInt, natOfInt, Int.add_mul_emod_self_left]
theorem natOfInt_natCast (w n : Nat) : natOfInt w (n : Int) = n % 2 ^ w := by
  rw [natOfInt]
  exact_mod_cast Int.toNat_natCast (n % 2 ^ w)
theorem natOfInt_of_bounds {w : Nat} {x : Int} (h : 0 ≤ x) (h' : x < 2 ^ w) : natOfInt w x = x.toNat := by
  rw [natOfInt, Int.emod_eq_of_lt h h']
/-- An element is the integer that its low bits hold, or differs from it by 2^w. -/
theorem unpackI_cases (t : ElemTy) (x : Nat) :
    (unpackI t x = ((x % 2 ^ t.width : Nat) : Int) ∧ (t.isSigned = true → unpackI t x < 2 ^ (t.width - 1))) ∨
    (t.isSigned = true ∧ unpackI t x = ((x % 2 ^ t.width : Nat) : Int) - 2 ^ t.width ∧ 2 ^ (t.width - 1) ≤ x % 2 ^ t.width) := by
  unfold unpackI intOf
  dsimp only
  split
  · next hs =>
    split
    · next h => exact .inl ⟨rfl, fun _ => by exact_mod_cast h⟩
    · next h => exact .inr ⟨hs, rfl, Nat.not_lt.1 h⟩
  · next hs => exact .inl ⟨rfl, fun h => absurd h hs⟩
theorem natOfInt_unpackI (t : ElemTy) (x : Nat) : natOfInt t.width (unpackI t x) = x % 2 ^ t.width := by
  rcases unpackI_cases t x with ⟨h, -⟩ | ⟨-, h, -⟩
  · rw [h, natOfInt_natCast, Nat.mod_mod]
  · rw [h, Int.sub_eq_add_neg, ← mul_neg_one, natOfInt_add_mul, natOfInt_natCast, Nat.mod_mod]
theorem two_pow_width (t : ElemTy) : (2 : Int) ^ t.width = 2 * 2 ^ (t.width - 1) := by cases t <;> rfl
/-- The greatest magnitude of an element. -/
def topMagnitude (t : ElemTy) : Int := if t.isSigned then 2 ^ (t.width - 1) else 2 ^ t.width - 1
theorem abs_unpackI_le (t : ElemTy) (x : Nat) : |unpackI t x| ≤ topMagnitude t := by
  have hw := two_pow_width t
  have hlt : ((x % 2 ^ t.width : Nat) : Int) < 2 ^ t.width := by exact_mod_cast Nat.mod_lt _ (Nat.two_pow_pos _)
  have hnn : (0 : Int) ≤ ((x % 2 ^ t.width : Nat) : Int) := Int.natCast_nonneg _
  rw [topMagnitude, abs_le]
  rcases unpackI_cases t x with ⟨h, hs⟩ | ⟨hs, h, hge⟩
  · rw [h] at hs ⊢
    split
    · next g => have := hs g; omega
    · omega
  · rw [if_pos hs, h]
    have : (2 : Int) ^ (t.width - 1) ≤ ((x % 2 ^ t.width : Nat) : Int) := by exact_mod_cast hge
    omega

/-! ### Operations on elements (R120, R122) -/

theorem elMinMax_eq (t : ElemTy) (c : Fcw) (max : Bool) (x y : Nat) : elMinMax t c max x y =
    if t.isF then fpMinMax t c.ftzi max x y
    else modW t (if max then Max.max (unpackI t x) (unpackI t y) else Min.min (unpackI t x) (unpackI t y)) := by
  unfold elMinMax
  refine ite_congr rfl (fun _ => rfl) fun _ => ?_
  rw [modW, Fl.mk.injEq]
  refine ⟨?_, rfl⟩
  by_cases h : unpackI t x < unpackI t y
  · cases max
    · rw [if_neg Bool.false_ne_true, min_eq_left h.le, natOfInt_unpackI]; simp [h]
    · rw [if_pos rfl, max_eq_right h.le, natOfInt_unpackI]; simp [h]
  · cases max
    · rw [if_neg Bool.false_ne_true, min_eq_right (not_lt.1 h), natOfInt_unpackI]; simp [h]
    · rw [if_pos rfl, max_eq_left (not_lt.1 h), natOfInt_unpackI]; simp [h]
/-- VABS and VNEG: the one value that the type cannot hold saturates. -/
theorem elSat_eq {t : ElemTy} {v : Int} (h : v ≤ topMagnitude t) : elSat t v =
    if v = 2 ^ (t.width - 1) ∧ t.isSigned = true then ⟨2 ^ (t.width - 1) - 1, flSaturated⟩ else modW t v := by
  have hw := two_pow_width t
  have hp : (0 : Int) < 2 ^ (t.width - 1) := by positivity
  unfold elSat intHi
  unfold topMagnitude at h
  by_cases hs : t.isSigned = true
  · rw [if_pos hs] at h ⊢
    refine ite_congr (propext ⟨fun g => ⟨by omega, hs⟩, fun g => by omega⟩) (fun _ => ?_) fun _ => rfl
    rw [natOfInt_of_bounds (by omega) (by omega)]
    congr 1
    have : (2 : Int) ^ (t.width - 1) = ((2 ^ (t.width - 1) : Nat) : Int) := by push_cast; rfl
    omega
  · rw [if_neg hs] at h ⊢
    rw [if_neg (by omega), if_neg fun g => hs g.2]
theorem elAbs_eq (t : ElemTy) (x : Nat) : elAbs t x = if t.isF then fpAbs t x
    else if ((unpackI t x).natAbs : Int) = 2 ^ (t.width - 1) ∧ t.isSigned = true then ⟨2 ^ (t.width - 1) - 1, flSaturated⟩
    else modW t (unpackI t x).natAbs := by
  rw [elAbs, elSat_eq]
  rw [Int.natCast_natAbs]
  exact abs_unpackI_le t x
theorem elNeg_eq (t : ElemTy) (x : Nat) : elNeg t x = if t.isF then fpNeg t x
    else if -unpackI t x = 2 ^ (t.width - 1) ∧ t.isSigned = true then ⟨2 ^ (t.width - 1) - 1, flSaturated⟩ else modW t (-unpackI t x) := by
  rw [elNeg, elSat_eq]
  exact (neg_le_abs _).trans (abs_unpackI_le t x)
theorem elDot4_eq (t : ElemTy) (x y z : Nat) : elDot4 t x y z =
    ⟨natOfInt 32 (z + ((List.range 4).map (fun j => unpackI t (x / 2 ^ (8 * j)) * unpackI t (y / 2 ^ (8 * j)))).sum), 0⟩ := by
  simp only [elDot4, List.range_succ, List.range_zero, List.nil_append, List.cons_append, List.map_cons, List.map_nil, List.sum_cons, List.sum_nil,
    ← add_assoc, add_zero]
theorem countP_range_of_le {p : Nat → Bool} {m n : Nat} (h : m ≤ n) (hp : ∀ i, m ≤ i → p i = false) :
    (List.range n).countP p = (List.range m).countP p := by
  obtain ⟨k, rfl⟩ := Nat.exists_eq_add_of_le h
  have h0 : (List.range k).countP (p ∘ (m + ·)) = 0 := List.countP_eq_zero.2 fun i _ => by simp [hp (m + i) (Nat.le_add_right m i)]
  rw [List.range_add, List.countP_append, List.countP_map, h0, Nat.add_zero]
theorem elem_lt (w : Nat) (x : VReg) (i : Nat) : elem w x i < 2 ^ w := Nat.mod_lt _ (Nat.two_pow_pos w)
theorem width_le (t : ElemTy) : t.width ≤ 32 := by cases t <;> decide
/-- VPOPC counts in the low 32 bits, where every element stands. -/
theorem popCount_elem (t : ElemTy) (v : VReg) (j : Nat) : popCount (BitVec.ofNat 32 (elem t.width v j)) 32 =
    (List.range t.width).countP (elem t.width v j).testBit := by
  have hlt := elem_lt t.width v j
  have hw := width_le t
  rw [popCount_eq, ← countP_range_of_le hw fun i hi => Nat.testBit_lt_two_pow (hlt.trans_le (Nat.pow_le_pow_right two_pos hi))]
  refine List.countP_congr fun i hi => ?_
  rw [BitVec.getLsbD_ofNat, decide_eq_true (List.mem_range.1 hi), Bool.true_and]

end Sys2Proof.Machine
end

section
/-! SUPPORT. Element-wise instructions, selections and moves (R120 to R124, R131, R134, R135). -/

namespace Sys2Proof.Machine

theorem vectorThree : Rules.VectorThree := by
  intro s ty d a b m i reads w f h hwf hr c int hm
  have run : ∀ (cls : Bool) {t : ElemTy} (dRead : Bool) {g : Nat → Nat → Nat → Fl}, (cls && vOk d && vOk a && vOk b) = true →
      WinReady s (readsOf dRead d [a, b]) [d] → exec i s = vec3 t d a b m dRead g 8 s → (∀ x y z, g x y z = f x y z) →
      VecRuns i s (readsOf dRead d [a, b]) 8 d t.width (lanes t.width) (s.mask m) fun j =>
        f (elem t.width (s.vget a) j) (elem t.width (s.vget b) j) (elem t.width (s.vget d) j) :=
    fun _ {_} _ {_} hd hr he hg => vecRuns_congr (vecRuns_of_vec3 h hr (vOk_of_wf3 hd) he) fun _ => hg ..
  simp only [List.mem_cons, List.not_mem_nil, or_false, Prod.mk.injEq] at hm
  rcases hm with ⟨rfl, rfl, rfl, rfl⟩ | ⟨rfl, rfl, rfl, rfl⟩ | ⟨rfl, rfl, rfl, rfl⟩ | ⟨rfl, rfl, rfl, rfl⟩ | ⟨rfl, rfl, rfl, rfl⟩ |
    ⟨rfl, rfl, rfl, rfl⟩ | ⟨rfl, rfl, rfl, rfl⟩ | ⟨rfl, rfl, rfl, rfl⟩ | ⟨rfl, rfl, rfl, rfl⟩ | ⟨rfl, rfl, rfl, rfl⟩ | ⟨rfl, rfl, rfl, rfl⟩ |
    ⟨rfl, rfl, rfl, rfl⟩ | ⟨rfl, rfl, rfl, rfl⟩ | ⟨rfl, rfl, rfl, rfl⟩ | ⟨rfl, rfl, rfl, rfl⟩
  · exact run ty.isFJ false hwf hr (rfl : exec _ s = execVadd ty d a b m s) fun x y z => rfl
  · exact run ty.isFJ false hwf hr (rfl : exec _ s = execVsub ty d a b m s) fun x y z => rfl
  · exact run ty.isFJ false hwf hr (rfl : exec _ s = execVmul ty d a b m s) fun x y z => rfl
  · exact run ty.isFJ true hwf hr (rfl : exec _ s = execVfma ty d a b m s) fun x y z => rfl
  · exact run ty.isFJ true hwf hr (rfl : exec _ s = execVfms ty d a b m s) fun x y z => rfl
  · exact run ty.isFJ false hwf hr (rfl : exec _ s = execVmin ty d a b m s) fun x y z => elMinMax_eq ..
  · exact run ty.isFJ false hwf hr (rfl : exec _ s = execVmax ty d a b m s) fun x y z => elMinMax_eq ..
  · -- VDOT4 has elements of 8 bits, and of 32 in its destination
    exact run ty.isDot (t := .i32) true hwf hr (rfl : exec _ s = execVdot4 ty d a b m s) fun x y z => elDot4_eq ty ..
  · exact run ty.isJ false hwf hr (rfl : exec _ s = execVmulh ty d a b m s) fun x y z => rfl
  · exact run ty.isA false hwf hr (rfl : exec _ s = execVand ty d a b m s) fun x y z => rfl
  · exact run ty.isA false hwf hr (rfl : exec _ s = execVor ty d a b m s) fun x y z => rfl
  · exact run ty.isA false hwf hr (rfl : exec _ s = execVxor ty d a b m s) fun x y z => rfl
  · exact run ty.isZ false hwf hr (rfl : exec _ s = execVshl ty d a b m s) fun x y z => rfl
  · exact run ty.isZ false hwf hr (rfl : exec _ s = execVshr ty d a b m s) fun x y z => rfl
  · exact run ty.isZ false hwf hr (rfl : exec _ s = execVsra ty d a b m s) fun x y z => rfl
theorem vectorTwo : Rules.VectorTwo := by
  intro s ty d a b g m i reads n f h hwf hr c w x z y int clamp hm
  have run : ∀ (cls dRead : Bool) {e : Nat → Nat → Fl}, (cls && vOk d && vOk a) = true → WinReady s (readsOf dRead d [a]) [d] →
      exec i s = vec2 ty d a m dRead e n s → (∀ j, e (x j) (z j) = f j) → VecRuns i s (readsOf dRead d [a]) n d w (lanes w) (s.mask m) f :=
    fun _ _ {_} hd hr he hf => vecRuns_congr (vecRuns_of_vec2 h hr (vOk_of_wf2 hd) he) hf
  have write : ∀ {l : List VCode} {e : Nat → Fl}, vOk d = true → WinReady s l [d] →
      exec i s = withWindows l [d] none none s (fun u => (u.vwrite d w (lanes w) (s.mask m) e).next n) → (∀ j, e j = f j) →
      VecRuns i s l n d w (lanes w) (s.mask m) f :=
    fun {_ _} hd hr he hf => vecRuns_congr (vecRuns_of_withWindows h hr hd rfl le_rfl he) hf
  simp only [List.mem_cons, List.not_mem_nil, or_false, Prod.mk.injEq] at hm
  rcases hm with ⟨rfl, rfl, rfl, rfl⟩ | ⟨rfl, rfl, rfl, rfl⟩ | ⟨rfl, rfl, rfl, rfl⟩ | ⟨rfl, rfl, rfl, rfl⟩ | ⟨rfl, rfl, rfl, rfl⟩ |
    ⟨rfl, rfl, rfl, rfl⟩ | ⟨rfl, rfl, rfl, rfl⟩ | ⟨rfl, rfl, rfl, rfl⟩ | ⟨rfl, rfl, rfl, rfl⟩ | ⟨rfl, rfl, rfl, rfl⟩ | ⟨rfl, rfl, rfl, rfl⟩ |
    ⟨rfl, rfl, rfl, rfl⟩ | ⟨rfl, rfl, rfl, rfl⟩ | ⟨rfl, rfl, rfl, rfl⟩ | ⟨rfl, rfl, rfl, rfl⟩ | ⟨rfl, rfl, rfl, rfl⟩
  · exact run ty.isAbs false hwf hr (rfl : exec _ s = execVabs ty d a m s) fun j => elAbs_eq ..
  · exact run ty.isAbs false hwf hr (rfl : exec _ s = execVneg ty d a m s) fun j => elNeg_eq ..
  · exact run ty.isA false hwf hr (rfl : exec _ s = execVnot ty d a m s) fun j => rfl
  · exact run ty.isZ false hwf hr (rfl : exec _ s = execVpopc ty d a m s) fun j => congrArg plain (popCount_elem ..)
  · exact run ty.isA false hwf hr (rfl : exec _ s = execVmov ty d a m s) fun j => rfl
  · exact run ty.isFJ false hwf hr (rfl : exec _ s = execVsadd ty d a g m s) fun j => rfl
  · exact run ty.isFJ false hwf hr (rfl : exec _ s = execVssub ty d a g m s) fun j => rfl
  · exact run ty.isFJ false hwf hr (rfl : exec _ s = execVsmul ty d a g m s) fun j => rfl
  · exact run ty.isFJ true hwf hr (rfl : exec _ s = execVsfma ty d a g m s) fun j => rfl
  · exact run ty.isFJ false hwf hr (rfl : exec _ s = execVsmin ty d a g m s) fun j => elMinMax_eq ..
  · exact run ty.isFJ false hwf hr (rfl : exec _ s = execVsmax ty d a g m s) fun j => elMinMax_eq ..
  · exact run ty.isZ false hwf hr (rfl : exec _ s = execVsshl ty d a g m s) fun j => rfl
  · have hv : (ty.isW && vOk d && vOk a && vOk b) = true := hwf
    exact write (vOk_of_wf3 hv) hr (rfl : exec _ s = execVperm ty d a b m s) fun j => rfl
  · have hv : (ty.isA && vOk d && vOk a) = true := hwf
    exact write (vOk_of_wf2 hv) hr (rfl : exec _ s = execVslide ty d a g m s) fun j => apply_ite plain ..
  · have hv : (ty.isA && vOk d) = true := hwf
    exact write (Bool.and_eq_true_iff.1 hv).2 hr (rfl : exec _ s = execVsplat ty d g m s) fun j => rfl
  · have hv : (ty.isZ && vOk d) = true := hwf
    exact write (Bool.and_eq_true_iff.1 hv).2 hr (rfl : exec _ s = execViota ty d m s) fun j => rfl
theorem filterMap_ite_some {α β : Type} (p : α → Bool) (f : α → β) (l : List α) :
    l.filterMap (fun i => if p i then some (f i) else none) = (l.filter p).map f := by
  induction l with
  | nil => rfl
  | cons i l ih => cases h : p i <;> simp [h, ih]
theorem vectorSelect : Rules.VectorSelect := by
  intro s ty d a b g h m hp w x all j
  refine ⟨fun hwf hr => ?_, fun hwf hr hj => ?_, fun hwf hr hj => ?_, fun hwf hr => ?_⟩
  · have hv : (ty.isA && vOk d && vOk a && vOk b) = true := hwf
    refine vecRuns_congr (vecRuns_of_withWindows hp hr (vOk_of_wf3 hv) rfl le_rfl (rfl : exec _ s = execVsel ty d a b m s)) fun i => ?_
    exact apply_ite plain ..
  · have hv : (ty.isA && vOk d && vOk a) = true := hwf
    exact vecRuns_of_withWindows hp hr (vOk_of_wf2 hv) (trapIf_of_false (decide_eq_false (not_le.2 hj)) ..) le_rfl
      (rfl : exec _ s = execVbcast ty d a h m s)
  · have hv : (ty.isA && vOk d) = true := hwf
    refine vecRuns_congr (vecRuns_of_withWindows hp hr (Bool.and_eq_true_iff.1 hv).2 (trapIf_of_false (decide_eq_false (not_le.2 hj)) ..) le_rfl
      (rfl : exec _ s = execVins ty d g h s)) fun i => ?_
    exact apply_ite plain ..
  · have hv : (ty.isF && vOk d && vOk a) = true := hwf
    refine vecRuns_congr (vecRuns_of_withWindows hp hr (vOk_of_wf2 hv) rfl (by decide) (rfl : exec _ s = execVamaxb ty d a m s)) fun b => ?_
    rw [List.filterMap_map]
    refine congrArg (fun r => if b < lanes w / 32 then blockAmax ty r else ⟨0, 0⟩) ?_
    exact (filterMap_ite_some (fun i => active (s.mask m) w (32 * b + i)) (fun i => x (32 * b + i)) (List.range 32)).symm

end Sys2Proof.Machine
end

section
/-! SUPPORT. The absolute maximum of a block (R134): a value that f32 can hold is converted to itself, and the fold keeps the greatest magnitude; and the
obligation on element-wise instructions. -/

namespace Sys2Proof.Machine

/-! ### A representable value is its own rounding (R89) -/

theorem roundsInt_natCast {rm : Rm} {neg : Bool} {x : ℝ} {n k : ℕ} (h : RoundsInt rm neg x n) (hx : x = k) : n = k := by
  have h1 := roundsInt_ge h hx.ge
  obtain ⟨lo, hlo, hlt, he, -, -⟩ := roundsInt_pair h
  obtain rfl : k = lo := by
    subst hx
    have h2 : lo ≤ k := by exact_mod_cast hlo
    have h3 : k < lo + 1 := by exact_mod_cast hlt
    omega
  exact he hx
/-- A magnitude is a whole number of places that are no greater than its own. -/
theorem div_two_zpow {x : ℝ} {m : ℕ} {e q : ℤ} (hx : x = m * 2 ^ e) (hq : q ≤ e) : x / 2 ^ q = (m * 2 ^ (e - q).toNat : ℕ) := by
  rw [div_eq_iff (two_zpow_pos q).ne', hx, ← two_zpow_toNat hq]
  push_cast
  ring
theorem value_of_roundsTo {t : ElemTy} {rm : Rm} {w : Work} {v : ℝ} {r : Fl} (h : RoundsTo t rm false w v r) {m : ℕ} {e : ℤ}
    (hv : |v| = m * 2 ^ e) (hm : m < 2 ^ (fracBits t + 1)) (he : ulp0 t ≤ e) (hle : |v| ≤ (Largest t).1 * (2 : ℝ) ^ (Largest t).2) :
    ∃ n m' e', (n = true ↔ v < 0) ∧ unpackF t r.x = .fin n m' e' ∧ (m' : ℝ) * 2 ^ e' = |v| := by
  obtain ⟨n, E, u, k, hn, hE, -, hu, hk, -, hfit⟩ := h
  have htop : E ≤ fracBits t + e := by
    have h1 : (2 : ℝ) ^ E < 2 ^ (fracBits t + e + 1) := by
      refine hE.trans_lt ?_
      rw [hv, show fracBits t + e + 1 = ((fracBits t + 1 : ℕ) : ℤ) + e by push_cast; ring, zpow_add₀ two_ne_zero, zpow_natCast]
      exact mul_lt_mul_of_pos_right (by exact_mod_cast hm) (two_zpow_pos e)
    have := (zpow_lt_zpow_iff_right₀ one_lt_two).1 h1
    omega
  have place : ∀ {q : ℤ} {j : ℕ}, q ≤ e → RoundsInt rm n (|v| / 2 ^ q) j → (j : ℝ) * 2 ^ q = |v| := fun {q j} hq hj => by
    rw [roundsInt_natCast hj (div_two_zpow hv hq), ← div_two_zpow hv hq, div_mul_cancel₀ _ (two_zpow_pos q).ne']
  obtain ⟨-, hkept⟩ := hfit ((place (by omega) hu).trans_le hle)
  obtain ⟨-, ⟨m', e', hx, hval⟩, -⟩ := hkept (.inr rfl)
  refine ⟨n, m', e', hn, hx, hval.trans (place ?_ hk)⟩
  rw [ulp0] at he
  omega

/-! ### The finite values of f16, bf16 and f32 are values of f32 (R82) -/

theorem le_largest {m M : ℕ} {e E : ℤ} (hm : m ≤ M) (he : e ≤ E) : (m : ℝ) * 2 ^ e ≤ M * 2 ^ E :=
  mul_le_mul (by exact_mod_cast hm) (zpow_le_zpow_right₀ one_le_two he) (two_zpow_pos e).le (Nat.cast_nonneg M)
/-- A body whose exponent field is the greatest is one of an infinity or a NaN. -/
theorem ne_top_of_fin {t : ElemTy} (ht : t.isF = true) {neg n : Bool} {b m : ℕ} {e : ℤ} (h : bodyNum t neg b = .fin n m e) :
    b / 2 ^ fracBits t ≠ 2 ^ expBits t - 1 := by
  intro htop
  have h4 : t ≠ .e4m3 ∧ t ≠ .e2m1 := by constructor <;> rintro rfl <;> cases ht
  unfold bodyNum at h
  simp only [htop, beq_self_eq_true, beq_eq_false_iff_ne.2 h4.1, bne_iff_ne.2 h4.1, bne_iff_ne.2 h4.2, Bool.and_false, Bool.false_and,
    Bool.and_true, Bool.false_eq_true, if_false, if_true] at h
  split at h <;> cases h
theorem place_of_fin {t : ElemTy} (ht : t.isF = true) {y : ℕ} {n : Bool} {m : ℕ} {e : ℤ} (h : unpackF t y = .fin n m e) :
    ∃ k : ℕ, e = ulp0 t + k ∧ m < 2 ^ (fracBits t + 1) ∧ k + 3 ≤ 2 ^ expBits t := by
  obtain ⟨s, b, hb, -, hu⟩ := exists_body (isFloat_of_fps ht) (ne_wf19_of_fps ht) y
  rw [width_eq_of_ne (isFloat_of_fps ht) (ne_wf19_of_fps ht), Nat.add_sub_cancel, Nat.add_comm, Nat.pow_add] at hb
  rw [hu] at h
  obtain ⟨-, k, hk, ⟨hm, hn⟩, hbody⟩ := normal_of_bodyNum h
  have htop := ne_top_of_fin ht h
  have hlt : b / 2 ^ fracBits t < 2 ^ expBits t := Nat.div_lt_of_lt_mul hb
  have hE : 3 ≤ 2 ^ expBits t := by
    cases t with
    | f32 | bf16 | f16 => decide
    | e4m3 | e5m2 | e2m1 | i32 | i16 | i8 | i4 | n32 | n16 | n8 | n4 | c8 | wf19 => cases ht
  refine ⟨k, hk, hm, ?_⟩
  rcases hn with rfl | hn
  · omega
  · have : k + 1 ≤ b / 2 ^ fracBits t := (Nat.le_div_iff_mul_le (Nat.two_pow_pos _)).2 (by rw [Nat.succ_mul]; omega)
    omega
theorem fits_f32 {t : ElemTy} (ht : t.isF = true) {y : ℕ} {n : Bool} {m : ℕ} {e : ℤ} (h : unpackF t y = .fin n m e) :
    m < 2 ^ 24 ∧ -149 ≤ e ∧ (m : ℝ) * 2 ^ e ≤ (Largest .f32).1 * (2 : ℝ) ^ (Largest .f32).2 := by
  obtain ⟨k, rfl, hm, hk⟩ := place_of_fin ht h
  cases t with
  | f32 => 
    simp only [ulp0, fbias, expBits, fracBits] at *
    refine ⟨hm, by omega, (le_largest (Nat.le_sub_one_of_lt hm) (E := 104) (by omega)).trans ?_⟩
    norm_num [Largest]
  | f16 =>
    simp only [ulp0, fbias, expBits, fracBits] at *
    refine ⟨by omega, by omega, (le_largest (Nat.le_sub_one_of_lt hm) (E := 5) (by omega)).trans ?_⟩
    norm_num [Largest]
  | bf16 =>
    simp only [ulp0, fbias, expBits, fracBits] at *
    refine ⟨by omega, by omega, (le_largest (Nat.le_sub_one_of_lt hm) (E := 120) (by omega)).trans ?_⟩
    norm_num [Largest]
  | e4m3 | e5m2 | e2m1 | i32 | i16 | i8 | i4 | n32 | n16 | n8 | n4 | c8 | wf19 => cases ht

/-! ### Magnitudes (R107) -/

/-- `a` is the magnitude of a value: the value or its negation, and no less than either. -/
def MagnitudeIs (X : Num) (a : EReal) : Prop := (ExtIs X a ∨ ExtIs X.negate a) ∧ ∀ b, ExtIs X b → b ≤ a ∧ -b ≤ a
/-- The value without its sign. -/
def Num.unsigned : Num → Num
  | .nan s => .nan s
  | .inf _ => .inf false
  | .fin _ m e => .fin false m e
theorem bodyNum_unsigned (t : ElemTy) (neg : Bool) (b : ℕ) : bodyNum t false b = (bodyNum t neg b).unsigned := by
  unfold bodyNum
  dsimp only
  split
  · rfl
  split
  · split <;> rfl
  · split <;> rfl
theorem unpackF_fpAbs {t : ElemTy} (ht : t.isF = true) (x : ℕ) : unpackF t (fpAbs t x).x = (unpackF t x).unsigned := by
  obtain ⟨s, b, hb, hx, hu⟩ := exists_body (isFloat_of_fps ht) (ne_wf19_of_fps ht) x
  have he : (fpAbs t x).x = signBit t false + b := by
    have hd : x % 2 ^ (t.width - 1) = x % 2 ^ t.width % 2 ^ (t.width - 1) :=
      (Nat.mod_mod_of_dvd _ (pow_dvd_pow 2 (Nat.sub_le ..))).symm
    show x % 2 ^ (t.width - 1) = signBit t false + b
    rw [hd, hx, signBit_eq, Nat.mul_add_mod_self_right, Nat.mod_eq_of_lt hb]
    exact (Nat.zero_add b).symm
  rw [he, unpackF_encoding (isFloat_of_fps ht) (ne_wf19_of_fps ht) hb, hu, bodyNum_unsigned]
theorem magnitudeIs_unsigned {X : Num} (h : X.isNan = false) : ∃ a, ExtIs X.unsigned a ∧ 0 ≤ a ∧ MagnitudeIs X a := by
  cases X with
  | nan s => cases h
  | inf n =>
    refine ⟨⊤, rfl, le_top, ?_, fun b _ => ⟨le_top, le_top⟩⟩
    cases n
    · exact .inl rfl
    · exact .inr rfl
  | fin n m e =>
    have hm : (0 : ℝ) ≤ m * 2 ^ e := mul_nonneg (Nat.cast_nonneg m) (two_zpow_pos e).le
    refine ⟨((m * 2 ^ e : ℝ) : EReal), by simp [ExtIs, Num.unsigned], EReal.coe_nonneg.2 hm, ?_, fun b hb => ?_⟩
    · cases n
      · exact .inl (by simp [ExtIs])
      · exact .inr (by simp [ExtIs, Num.negate])
    · rw [extIs_fin hb, ← EReal.coe_neg, EReal.coe_le_coe_iff, EReal.coe_le_coe_iff, ← abs_real_fin n m e]
      exact ⟨le_abs_self _, neg_le_abs _⟩

/-! ### The widening to f32 (R134) -/

/-- What VAMAXB reads an element as. -/
def widened (t : ElemTy) (y : ℕ) : ℕ := (fpAbs .f32 (convert .f32 t .plain 0 y).x).x
theorem unpackF_convert_plain {t : ElemTy} (ht : t.isF = true) {y : ℕ} (hn : (unpackF t y).isNan = false) {a : EReal}
    (ha : ExtIs (unpackF t y).unsigned a) : ExtIs (unpackF .f32 (convert .f32 t .plain 0 y).x).unsigned a := by
  have hread : readF t Fcw.plain.ftzi y = unpackF t y := unpackF_mod (ne_wf19_of_fps ht) y
  rw [convert_of_floats rfl (isFloat_of_fps ht), hread]
  cases hX : unpackF t y with
  | nan s => rw [hX] at hn; cases hn
  | inf n =>
    rw [hX] at ha
    rw [convF_of_inf (by decide)]
    cases n
    · exact ha
    · exact ha
  | fin n m e =>
    rw [hX] at ha
    have ha : a = ((1 * (m : ℝ) * 2 ^ e : ℝ) : EReal) := ha
    by_cases hm : m = 0
    · subst hm
      have hz : (unpackF .f32 (convF .f32 (Fcw.plain.crm 0) .plain (.fin n 0 e)).x).unsigned = .fin false 0 (-149) := by
        show (unpackF .f32 (signBit .f32 n)).unsigned = _
        cases n <;> decide
      rw [hz, ha]
      simp [ExtIs]
    · obtain ⟨h1, h2, h3⟩ := fits_f32 ht hX
      have habs := abs_real_fin n m e
      obtain ⟨s, m', e', -, hu, hval⟩ := value_of_roundsTo (convF_rounds (t := .f32) (c := .plain) rfl (rm := Fcw.plain.crm 0) (valueIs_fin n m e)
        (mt (real_fin_eq_zero_iff n m e).1 hm)) habs h1 h2 (habs.trans_le h3)
      rw [hu, ha, one_mul, ← habs, ← hval]
      simp [ExtIs, Num.unsigned]
theorem widened_spec {t : ElemTy} (ht : t.isF = true) {y : ℕ} (hn : (unpackF t y).isNan = false) :
    widened t y < 2 ^ 31 ∧ ∃ a, ExtIs (unpackF .f32 (widened t y)) a ∧ 0 ≤ a ∧ MagnitudeIs (unpackF t y) a := by
  obtain ⟨a, ha, h0, hmag⟩ := magnitudeIs_unsigned hn
  refine ⟨Nat.mod_lt _ (Nat.two_pow_pos 31), a, ?_, h0, hmag⟩
  rw [widened, unpackF_fpAbs rfl]
  exact unpackF_convert_plain ht hn ha

/-! ### The fold (R134) -/

/-- VAMAXB takes in one more element. -/
def amaxStep (t : ElemTy) (r : Fl) (y : ℕ) : Fl :=
  let v := unpackF t y
  if v.isNan then ⟨canonNan .f32, r.fl ||| flagIf v.isSnan flInvalid⟩
  else if (unpackF .f32 r.x).isNan then r
  else { r with x := if numLt (unpackF .f32 r.x) (unpackF .f32 (widened t y)) then widened t y else r.x }
theorem blockAmax_concat (t : ElemTy) (l : List ℕ) (y : ℕ) : blockAmax t (l ++ [y]) = amaxStep t (blockAmax t l) y := by
  rw [blockAmax, List.foldl_append]; rfl
theorem amaxStep_of_nan {t : ElemTy} {y : ℕ} (h : (unpackF t y).isNan = true) (r : Fl) :
    amaxStep t r y = ⟨canonNan .f32, r.fl ||| snanFlag [unpackF t y]⟩ := by
  rw [amaxStep, h, snanFlag, List.any_cons, List.any_nil, Bool.or_false]; rfl
theorem amaxStep_of_number {t : ElemTy} {y : ℕ} (h : (unpackF t y).isNan = false) (r : Fl) : amaxStep t r y =
    if (unpackF .f32 r.x).isNan then r
    else { r with x := if numLt (unpackF .f32 r.x) (unpackF .f32 (widened t y)) then widened t y else r.x } := by
  rw [amaxStep, h]; rfl
theorem snanFlag_concat (l : List Num) (X : Num) : snanFlag (l ++ [X]) = snanFlag l ||| snanFlag [X] := by
  simp only [snanFlag, List.any_append]
  cases l.any Num.isSnan <;> cases [X].any Num.isSnan <;> decide
/-- What the fold holds of numbers alone: the greatest of the magnitudes, exactly, and no flag. -/
def GreatestOf (r : Fl) (nums : List Num) : Prop :=
  r.fl = 0 ∧ r.x < 2 ^ 31 ∧ ∃ m : EReal, ExtIs (unpackF .f32 r.x) m ∧
    (m = 0 ∨ ∃ y ∈ nums, ExtIs y m ∨ ExtIs y.negate m) ∧ ∀ y ∈ nums, ∀ a, ExtIs y a → a ≤ m ∧ -a ≤ m
theorem greatestOf_nil : GreatestOf ⟨0, 0⟩ [] := by
  have h0 : unpackF .f32 0 = .fin false 0 (-149) := by decide
  exact ⟨rfl, by decide, 0, by rw [h0]; simp [ExtIs], .inl rfl, fun y hy => absurd hy List.not_mem_nil⟩
theorem greatestOf_concat {t : ElemTy} (ht : t.isF = true) {r : Fl} {l : List Num} (h : GreatestOf r l) {y : ℕ} (hy : (unpackF t y).isNan = false) :
    GreatestOf (amaxStep t r y) (l ++ [unpackF t y]) := by
  obtain ⟨hfl, hx, m, hm, hof, hge⟩ := h
  obtain ⟨hp, a, ha, h0, hmag, hle⟩ := widened_spec ht hy
  rw [amaxStep_of_number hy, isNan_of_extIs hm, if_neg Bool.false_ne_true]
  by_cases hlt : m < a
  · rw [(numLt_iff hm ha).2 hlt]
    refine ⟨hfl, hp, a, ha, .inr ⟨_, List.mem_append_right _ (List.mem_singleton_self _), hmag⟩, fun z hz b hb => ?_⟩
    rcases List.mem_append.1 hz with hz | hz
    · obtain ⟨h1, h2⟩ := hge z hz b hb
      exact ⟨h1.trans hlt.le, h2.trans hlt.le⟩
    · rw [List.mem_singleton.1 hz] at hb
      exact hle b hb
  · rw [(numLt_eq_false_iff hm ha).2 (not_lt.1 hlt)]
    refine ⟨hfl, hx, m, hm, hof.imp_right fun ⟨z, hz, h⟩ => ⟨z, List.mem_append_left _ hz, h⟩, fun z hz b hb => ?_⟩
    rcases List.mem_append.1 hz with hz | hz
    · exact hge z hz b hb
    · rw [List.mem_singleton.1 hz] at hb
      obtain ⟨h1, h2⟩ := hle b hb
      exact ⟨h1.trans (not_lt.1 hlt), h2.trans (not_lt.1 hlt)⟩
theorem blockMaximum : Rules.BlockMaximum := by
  intro t l ht
  show ((l.map (unpackF t)).any Num.isNan = true → blockAmax t l = NanFrom .f32 (l.map (unpackF t))) ∧
    ((l.map (unpackF t)).any Num.isNan = false → GreatestOf (blockAmax t l) (l.map (unpackF t)))
  induction l using List.reverseRecOn with
  | nil => exact ⟨fun h => (Bool.false_ne_true h).elim, fun _ => greatestOf_nil⟩
  | append_singleton l y ih =>
    obtain ⟨hnan, hnum⟩ := ih
    rw [blockAmax_concat, List.map_append, List.any_append, List.map_singleton, List.any_cons, List.any_nil, Bool.or_false, nanFrom_eq, snanFlag_concat]
    rw [nanFrom_eq] at hnan
    cases hl : (l.map (unpackF t)).any Num.isNan with
    | true =>
      refine ⟨fun _ => ?_, fun h => (Bool.false_ne_true h.symm).elim⟩
      rw [hnan hl]
      cases hy : (unpackF t y).isNan with
      | true => exact amaxStep_of_nan hy _
      | false =>
        have hq : (unpackF .f32 (canonNan .f32)).isNan = true := by decide
        have hs : snanFlag [unpackF t y] = 0 := snanFlag_of_not_nan (by simp [hy])
        rw [amaxStep_of_number hy, if_pos hq, hs]
        exact congrArg (Fl.mk (canonNan .f32)) BitVec.or_zero.symm
    | false =>
      have hg := hnum hl
      have hs : snanFlag (l.map (unpackF t)) = 0 := snanFlag_of_not_nan fun X hX => Bool.eq_false_iff.2 (List.any_eq_false.1 hl X hX)
      rw [Bool.false_or]
      refine ⟨fun hy => ?_, fun hy => greatestOf_concat ht hg hy⟩
      rw [amaxStep_of_nan hy, hg.1, hs]

/-- Settles O12: each instruction is a write of active elements after its claim; the operations on integers modulo 2^w; the fold of VAMAXB. -/
theorem vectorArithmetic : Obligations.VectorArithmetic := ⟨vectorThree, vectorTwo, vectorSelect, blockMaximum⟩

end Sys2Proof.Machine
end

section
/-! SUPPORT. The special functions (R130), and the obligation on them. -/

namespace Sys2Proof.Machine

theorem specialLanes : Rules.SpecialFunctions := by
  intro s d a m i f h hwf hr hm
  have run : ∀ {g : Nat → Fl}, (vOk d && vOk a) = true → exec i s = vec2 .f32 d a m false (fun x _ => g x) 16 s →
      VecRuns i s [a] 16 d 32 64 (s.mask m) fun j => g (elem 32 (s.vget a) j) :=
    fun hd he => vecRuns_of_vec2 h (dRead := false) hr (Bool.and_eq_true_iff.1 hd).1 he
  simp only [List.mem_cons, List.not_mem_nil, or_false, Prod.mk.injEq] at hm
  rcases hm with ⟨rfl, rfl⟩ | ⟨rfl, rfl⟩ | ⟨rfl, rfl⟩ | ⟨rfl, rfl⟩ | ⟨rfl, rfl⟩ | ⟨rfl, rfl⟩
  · exact run hwf (rfl : exec _ s = execVexp2 d a m s)
  · exact run hwf (rfl : exec _ s = execVlog2 d a m s)
  · exact run hwf (rfl : exec _ s = execVrcp d a m s)
  · exact run hwf (rfl : exec _ s = execVrsq d a m s)
  · exact run hwf (rfl : exec _ s = execVtanh d a m s)
  · exact run hwf (rfl : exec _ s = execVsigm d a m s)

/-- R130's table names single inputs, and each row is what the model computes there. -/
theorem specialInputs : Rules.SpecialInputs := by
  unfold Rules.SpecialInputs
  decide +kernel

/-- Settles O14: each function is a write of active elements under R114's shape; the model computes each row of R130's table. -/
theorem specialFunctions : Obligations.SpecialFunctions := ⟨specialLanes, specialInputs⟩

end Sys2Proof.Machine
end

section
/-! SUPPORT. Mask registers (R17, R111, R123, R125, R135): what a write of one leaves, the masks told bit by bit, and the obligation on compares and
masks. -/

namespace Sys2Proof.Machine

/-! ### Writes of a mask register (R111) -/

/-- A thread with a mask register written; k0 discards the write. -/
def Thread.putMask (t : Thread) (d : MaskReg) (m : Mask) : Thread := if d = 0 then t else { t with k := t.k.set d.toNat m d.isLt }
theorem setMask_eq {s : State} (h : s.Placed) (d : MaskReg) (m : Mask) (fl : Flags) :
    (s.setMask d m).raise fl = s.updThr (fun t => { t.putMask d m with ctl := t.ctl.flagged fl }) := by
  unfold State.setMask Thread.putMask
  split
  · rfl
  · exact updThr_updThr s (fun t => { t with k := t.k.set d.toNat m d.isLt }) (fun t => { t with ctl := t.ctl.flagged fl }) h
theorem putMask_rest (t : Thread) (d : MaskReg) (m : Mask) : t.putMask d m = { t with k := (t.putMask d m).k } := by
  unfold Thread.putMask; split <;> rfl
theorem mask_putMask (t : Thread) (d k : MaskReg) (m : Mask) (hk : k ≠ 0) :
    (t.putMask d m).k.get k.toFin = if k = d then m else t.k.get k.toFin := by
  unfold Thread.putMask
  by_cases hd : d = 0
  · rw [if_pos hd, if_neg fun e => hk (e.trans hd)]
  · rw [if_neg hd, vget_eq, vget_eq]
    refine (Vector.getElem_set d.isLt k.toFin.isLt).trans ?_
    refine ite_congr (propext ⟨fun e => (BitVec.eq_of_toNat_eq e).symm, fun e => congrArg BitVec.toNat e.symm⟩) (fun _ => rfl) fun _ => rfl
/-- A mask and flags written after the claim of the windows that are read, then completion. -/
theorem wroteMask_of_holds {s u t : State} (hc : s.Claims u) {d : MaskReg} {m : Mask} {fl : Flags} (ho : u.OnlyThread t) (hd : u.Done t 8)
    (hh : t.thr.holds = ({ u.thr.putMask d m with ctl := u.thr.ctl.flagged fl } : Thread).holds) : WroteMask s u t d m fl := by
  have hk : u.thr.k = s.thr.k := by have := congrArg Thread.k hc.thread; exact this
  have htk : t.thr.k = (u.thr.putMask d m).k := by have := congrArg Thread.k hh; exact this
  constructor
  case only => exact ho
  case done => exact ⟨hd.ready, hd.pc.trans (congrArg (· + 4) hc.pc), hd.time.trans (by rw [hc.cyc_eq])⟩
  case reads =>
    intro k
    unfold State.mask
    split
    · rfl
    · next h0 => rw [htk, mask_putMask _ _ _ _ h0, hk]
  case thread =>
    have e := congrArg (fun (x : Thread) => ({ x with k := t.thr.k, ctl := Flagged s fl } : Thread)) hc.thread
    rw [hh, putMask_rest, ← htk, hc.ctl_eq]
    exact e
theorem wroteMask_raise {s u : State} (h : s.Placed) (hc : s.Claims u) (d : MaskReg) (m : Mask) (fl : Flags) :
    WroteMask s u (((u.setMask d m).raise fl).goOn 8) d m fl := by
  have hu : u.Placed := show u.tid < 16 from hc.tid_eq ▸ h
  have hpc : (u.thr.putMask d m).pc = u.thr.pc := by rw [putMask_rest]
  obtain ⟨ho, hd, hh⟩ := updThr_goOn (s := u) (fun t => { t.putMask d m with ctl := t.ctl.flagged fl }) 8 hpc hu
  rw [setMask_eq hu]
  exact wroteMask_of_holds hc ho hd hh
theorem flagged_zero (c : Ctl) : c.flagged 0 = c := by
  have h : c.fflags ||| (0 : Flags).setWidth 64 = c.fflags := BitVec.or_zero
  rw [Ctl.flagged, h]
theorem wroteMask_setMask {s : State} (h : s.Placed) (d : MaskReg) (m : Mask) : WroteMask s s ((s.setMask d m).goOn 8) d m 0 := by
  have hz : ({ s.thr.putMask d m with ctl := s.thr.ctl.flagged 0 } : Thread) = s.thr.putMask d m := by rw [flagged_zero, putMask_rest]
  by_cases hd : d = 0
  · have hs : s.setMask d m = s := if_pos hd
    have ht : s.thr.putMask d m = s.thr := if_pos hd
    rw [hs]
    exact wroteMask_of_holds (.refl s) (onlyThread_goOn s 8) (done_goOn s 8 h) (by rw [hz, ht, goOn_thr s 8 h]; rfl)
  · have hs : s.setMask d m = s.updThr (·.putMask d m) := by
      unfold State.setMask Thread.putMask
      simp only [if_neg hd]
    obtain ⟨h1, h2, h3⟩ := updThr_goOn (s := s) (·.putMask d m) 8 (by rw [putMask_rest]) h
    rw [hs]
    exact wroteMask_of_holds (.refl s) h1 h2 (by rw [hz, h3])

/-! ### Masks told bit by bit -/

theorem packBits_testBit (f : Nat → Bool) {n j : Nat} (hj : j < n) : (packElems 1 ((List.range n).map (fun j => (f j).toNat))).testBit j = f j := by
  have h := packElems_div 1 ((List.range n).map (fun j => (f j).toNat)) (i := j) (by simpa using hj)
  rw [Nat.one_mul, List.getElem_map, List.getElem_range] at h
  rw [Nat.testBit_eq_decide_div_mod_eq, show _ % 2 = _ from h]
  cases f j <;> rfl
theorem getLsbD_maskOf (f : Nat → Bool) {j : Nat} (hj : j < 256) : (maskOf f).getLsbD j = f j := by
  rw [maskOf, BitVec.getLsbD_ofNat, decide_eq_true hj, Bool.true_and, packBits_testBit f hj]

/-! ### Compares (R123) -/

theorem elCmp_eq (t : ElemTy) (c : Fcw) (o : Cmp) (x y : Nat) : elCmp t c o x y =
    if t.isF then fpCmp t c o x y else ⟨(holdsFor o (unpackI t x) (unpackI t y)).toNat, 0⟩ := by
  cases o <;> rfl
theorem vectorCompare : Rules.VectorCompare := by
  intro s ty d a b m o h _ hr w r
  have he : exec (compareOf o ty d a b m) s = vcmp o ty d a b m s := by cases o <;> rfl
  have hx : ∀ i, elCmp ty s.fcw o (elem w (s.vget a) i) (elem w (s.vget b) i) = r i := fun i => elCmp_eq ..
  unfold vcmp at he
  simp only [show ty.width = w from rfl, hx] at he
  exact ⟨_, _, completes_of_next (he.trans (withWindows_of_ready hr rfl rfl)), wroteMask_raise h (claims_claim h [a, b] []) d _ _,
    fun j hj => getLsbD_maskOf _ hj⟩

/-! ### Mask logic and moves (R125, R135) -/

/-- A sign extension is the integer that the low bits hold (R135). -/
theorem sextNat_eq_ofInt {w : Nat} (hw : w ≤ 64) (x : Nat) : sextNat w x = BitVec.ofInt 64 (intOf w x) := by
  have hp : 2 ^ w ≤ 2 ^ 64 := Nat.pow_le_pow_right two_pos hw
  unfold sextNat intOf
  dsimp only
  split
  · exact (BitVec.ofInt_natCast 64 _).symm
  · refine BitVec.eq_of_toNat_eq ?_
    rw [BitVec.toNat_ofNat, BitVec.toNat_ofInt, ← Int.add_emod_right]
    push_cast
    have hc : (2 : Int) ^ w = (2 ^ w : Nat) := by push_cast; rfl
    rw [hc]
    omega
theorem maskMoves : Rules.MaskMoves := by
  intro s ty d a b v g h hp w k
  have put : ∀ {i : Instr} {m : Mask}, exec i s = (s.setMask d m).next 8 → k i m := fun he =>
    ⟨_, completes_of_next he, wroteMask_setMask hp d _⟩
  have write : ∀ {i : Instr} {x : Word}, exec i s = (s.wr g x).next 8 → Writes i s 8 g x s.thr.ctl := fun he =>
    ⟨_, completes_of_next he, wroteReg_goOn 8 g _ hp⟩
  refine ⟨put rfl, put rfl, put rfl, put rfl, ⟨_, put rfl, fun j hj => getLsbD_maskOf _ hj⟩, ⟨_, write rfl, fun i hi => ?_⟩, ?_, fun hv hr hj => ?_⟩
  · rw [word, BitVec.getLsbD_ofNat, decide_eq_true hi, Bool.true_and, packBits_testBit _ hi]; rfl
  · rw [List.countP_eq_length_filter]
    exact write rfl
  · have hc := claims_claim hp [v] []
    have ho : (s.claim [v] []).Placed := show _ < 16 from hc.tid_eq ▸ hp
    have he : exec (.vext ty g v h) s = ((s.claim [v] []).wr g (if ty.isSigned then sextNat w (elem w (s.vget v) (s.rd h).toNat)
        else word (elem w (s.vget v) (s.rd h).toNat))).next 8 := by
      show execVext ty g v h s = _
      unfold execVext
      exact withWindows_of_ready hr rfl (trapIf_of_false (decide_eq_false (not_le.2 hj)) ..)
    rw [sextNat_eq_ofInt ((width_le ty).trans (by decide))] at he
    have hw := wroteReg_goOn (s := s.claim [v] []) 8 g (if ty.isSigned then BitVec.ofInt 64 (intOf w (elem w (s.vget v) (s.rd h).toNat))
      else word (elem w (s.vget v) (s.rd h).toNat)) ho
    rw [hc.ctl_eq] at hw
    exact ⟨_, completes_of_next he, hw⟩
/-- Settles O15: a compare is one write of a mask after its claim, bit by bit; mask logic and the moves each write one register. -/
theorem comparesAndMasks : Obligations.ComparesAndMasks := ⟨vectorCompare, maskMoves⟩

end Sys2Proof.Machine
end

section
/-! SUPPORT. What a claim leaves of the windows (R116, R119), which instructions check them (R117), and the obligation on windows. -/

namespace Sys2Proof.Machine

/-! ### The windows after a claim (R116) -/

theorem windows_claimed (c : Core) (t : Nat) (reads writes : List VCode) (i : Nat) : (c.claimed t reads writes).windows[i]? =
    (c.windows[i]?).map (fun w => if i + 16 ∈ winCodes writes then { w with state := WinState.filling, owner := t }
      else if i + 16 ∈ winCodes reads then { w with state := WinState.empty } else w) := by
  have h := congrArg Core.windows (rest_claimed c t reads writes)
  generalize c.claimed t reads writes = d at h ⊢
  rw [show d.windows = _ from h, Core.claimWindows, getElem?_vecMap]
  simp only [List.contains_iff_mem]
theorem winHolder_claimed (c : Core) (t : Nat) (reads writes : List VCode) (h : c.winHolder = none) :
    (c.claimed t reads writes).winHolder = c.launchOf t := by
  have e := congrArg Core.winHolder (rest_claimed c t reads writes)
  generalize c.claimed t reads writes = d at e ⊢
  rw [show d.winHolder = _ from e, Core.claimWindows, h]
/-- A claim marks other threads to look again, and changes nothing else of them. -/
theorem thr_claimed_ne (c : Core) {t j : Nat} (h : t < 16) (hj : j ≠ t) (reads writes : List VCode) :
    ({ (c.claimed t reads writes).thr j with resume := (c.thr j).resume } : Thread) = c.thr j := by
  obtain ⟨b, hb⟩ := thr_wakeIf (c.claimWindows t reads writes) forWindow j
  rw [Core.claimed, thr_updThr_core _ _ h, if_neg (Ne.symm hj), hb, thr_claimWindows]

theorem mem_winCodes_append (l m : List VCode) (c : Nat) : c ∈ winCodes (l ++ m) ↔ c ∈ winCodes l ∨ c ∈ winCodes m := by
  rw [winCodes, List.filter_append, List.map_append, List.mem_append]; rfl
theorem winState_claimed (c : Core) (t : Nat) (reads writes : List VCode) {i : Nat} (hi : i < 8) : (c.claimed t reads writes).winState (i + 16) =
    if i + 16 ∈ winCodes writes then .filling else if i + 16 ∈ winCodes reads then .empty else c.winState (i + 16) := by
  rw [Core.winState, Core.winState, Nat.add_sub_cancel, windows_claimed, Vector.getElem?_eq_getElem hi]
  simp only [Option.map_some, Option.getD_some]
  split
  · rfl
  · split <;> rfl
theorem data_claimed (c : Core) (t : Nat) (reads writes : List VCode) (i : Nat) :
    ((c.claimed t reads writes).windows[i]?).map (·.data) = (c.windows[i]?).map (·.data) := by
  have h := congrArg Core.windows (rest_claimed c t reads writes)
  generalize c.claimed t reads writes = d at h ⊢
  rw [show d.windows = _ from h, data_claimWindows]
theorem owner_claimed (c : Core) (t : Nat) (reads writes : List VCode) {i : Nat} (hi : i < 8) (hw : i + 16 ∈ winCodes writes) :
    ((c.claimed t reads writes).windows[i]?).map (·.owner) = some t := by
  rw [windows_claimed, Vector.getElem?_eq_getElem hi, Option.map_some, Option.map_some, if_pos hw]

theorem windowClaim : Rules.WindowClaim := by
  intro s reads writes h u
  by_cases hn : winCodes (reads ++ writes) = []
  · have hu : u = s := claim_of_nil hn
    have hnone : ∀ c, ¬(c ∈ winCodes reads ∨ c ∈ winCodes writes) := fun c => by
      rw [← mem_winCodes_append, hn]; exact List.not_mem_nil
    rw [hu]
    refine ⟨fun _ => rfl, fun i _ => ⟨rfl, ?_⟩, fun i _ hw => absurd (.inr hw) (hnone _), fun hne => absurd hn hne, rfl, fun j _ => rfl⟩
    rw [if_neg fun g => hnone _ (.inr g), if_neg fun g => hnone _ (.inl g)]
  · have hcur : u.cur = s.cur.claimed s.tid reads writes := by
      rw [show u = s.updCur (·.claimed s.tid reads writes) from claim_of_ne hn, cur_updCur]
    rw [hcur]
    exact ⟨fun hnil => absurd hnil hn, fun i hi => ⟨data_claimed .., winState_claimed _ _ _ _ hi⟩, fun i hi hw => owner_claimed _ _ _ _ hi hw,
      fun _ hh => winHolder_claimed _ _ _ _ hh, (claims_claim h reads writes).thread, fun j hj => thr_claimed_ne _ h hj ..⟩

/-! ### The checks of windows (R117, R119, R395) -/

/-- An instruction that its windows alone can hold up. -/
def ChecksWindows (s : State) (r w : List VCode) (x : Res) : Prop := ∃ k, x = withWindows r w none none s k
section
variable {s : State} {r w : List VCode} {x : Res} (hx : ChecksWindows s r w x)
include hx

theorem trap_of_holderBad {c : Nat} (h : s.holderBad (r ++ w) = some c) : x = .next (s.trapSt 0x05 (word c)) := by
  obtain ⟨k, rfl⟩ := hx
  rw [withWindows, h]; rfl
theorem park_of_winBlocked {c : Nat} (hb : s.holderBad (r ++ w) = none) (h : s.winBlocked r w = some c) :
    x = .next ((s.hold (r ++ w)).parkSt (.window c)) := by
  obtain ⟨k, rfl⟩ := hx
  rw [withWindows, hb]
  show (match s.winBlocked r w with | some c => _ | none => _) = _
  rw [h]; rfl
theorem trap_of_winDamage {e : TrapOf} (hb : s.holderBad (r ++ w) = none) (h : s.winBlocked r w = none) (hd : s.winDamage r = some e) :
    x = .next (s.trapSt e.1 e.2) := by
  obtain ⟨k, rfl⟩ := hx
  rw [withWindows, hb]
  show (match s.winBlocked r w with | some c => _ | none => _) = _
  rw [h, hd]; rfl
end
theorem cause_of_winDamage {s : State} {r : List VCode} {e : TrapOf} (h : s.winDamage r = some e) : e.1 = 0x0F := by
  obtain ⟨c, -, rfl⟩ := Option.map_eq_some_iff.1 h
  rfl
theorem checksWindows_vec3 (t : ElemTy) (d a b : VCode) (m : MaskReg) (dRead : Bool) (f : Nat → Nat → Nat → Fl) (n : Nat) (s : State) :
    ChecksWindows s (readsOf dRead d [a, b]) [d] (vec3 t d a b m dRead f n s) := by
  unfold vec3; exact ⟨_, rfl⟩
theorem checksWindows_vec2 (t : ElemTy) (d a : VCode) (m : MaskReg) (dRead : Bool) (f : Nat → Nat → Fl) (n : Nat) (s : State) :
    ChecksWindows s (readsOf dRead d [a]) [d] (vec2 t d a m dRead f n s) := by
  unfold vec2; exact ⟨_, rfl⟩
theorem checksWindows_vcmp (o : Cmp) (t : ElemTy) (d : MaskReg) (a b : VCode) (m : MaskReg) (s : State) :
    ChecksWindows s [a, b] [] (vcmp o t d a b m s) := by
  unfold vcmp; exact ⟨_, rfl⟩
theorem checksWindows_vredm (max : Bool) (t : ElemTy) (d a : VCode) (m : MaskReg) (s : State) :
    ChecksWindows s [a] [d] (vredm max t d a m s) := by
  unfold vredm; exact ⟨_, rfl⟩
/-- The meaning of each instruction that R116 names begins with the checks of its own fields. -/
theorem checksWindows_of_vecFields {s : State} {i : Instr} {r w : List VCode} (h : VecFields i = some (r, w)) : ChecksWindows s r w (exec i s) := by
  cases i
  case vadd | vsub | vmul | vmin | vmax | vmulh | vand | vor | vxor | vshl | vshr | vsra | vperm =>
    obtain ⟨rfl, rfl⟩ := Prod.mk.inj (Option.some.inj h)
    simp only [exec, execVadd, execVsub, execVmul, execVmin, execVmax, execVmulh, execVand, execVor, execVxor, execVshl, execVshr, execVsra, execVperm]
    exact checksWindows_vec3 (dRead := false) ..
  case vfma | vfms | vdot4 =>
    obtain ⟨rfl, rfl⟩ := Prod.mk.inj (Option.some.inj h)
    simp only [exec, execVfma, execVfms, execVdot4]
    exact checksWindows_vec3 (dRead := true) ..
  case vabs | vneg | vsadd | vssub | vsmul | vsmin | vsmax | vsshl | vnot | vpopc | vmov | vexp2 | vlog2 | vrcp | vrsq | vtanh | vsigm =>
    obtain ⟨rfl, rfl⟩ := Prod.mk.inj (Option.some.inj h)
    simp only [exec, execVabs, execVneg, execVsadd, execVssub, execVsmul, execVsmin, execVsmax, execVsshl, execVnot, execVpopc, execVmov, execVexp2,
      execVlog2, execVrcp, execVrsq, execVtanh, execVsigm]
    exact checksWindows_vec2 (dRead := false) ..
  case vsfma =>
    obtain ⟨rfl, rfl⟩ := Prod.mk.inj (Option.some.inj h)
    simp only [exec, execVsfma]
    exact checksWindows_vec2 (dRead := true) ..
  case vcmpeq | vcmpne | vcmplt | vcmple =>
    obtain ⟨rfl, rfl⟩ := Prod.mk.inj (Option.some.inj h)
    simp only [exec, execVcmpeq, execVcmpne, execVcmplt, execVcmple]
    exact checksWindows_vcmp ..
  case vredmax | vredmin =>
    obtain ⟨rfl, rfl⟩ := Prod.mk.inj (Option.some.inj h)
    simp only [exec, execVredmax, execVredmin]
    exact checksWindows_vredm ..
  case vsel | vqnt | vdqnt | vcvt | vredsum | vscan | vamaxb | vslide | vsplat | viota =>
    obtain ⟨rfl, rfl⟩ := Prod.mk.inj (Option.some.inj h)
    simp only [exec, execVsel, execVqnt, execVdqnt, execVcvt, execVredsum, execVscan, execVamaxb, execVslide, execVsplat, execViota]
    exact ⟨_, rfl⟩
  -- R116 names no other instruction
  all_goals exact absurd h (Option.some_ne_none _).symm
theorem windowWaits : Rules.WindowWaits := fun s i r w h =>
  have hx : ChecksWindows s r w (exec i s) := checksWindows_of_vecFields h
  ⟨fun _ hb => trap_of_holderBad hx hb, fun _ hb hw => park_of_winBlocked hx hb hw,
    fun _ hb hw hd => ⟨trap_of_winDamage hx hb hw hd, cause_of_winDamage hd⟩⟩

/-- Settles O16: the claim field by field, and one lemma for each of the checks that an instruction's windows are put to. -/
theorem windows : Obligations.Windows := ⟨windowClaim, windowWaits⟩

end Sys2Proof.Machine
end

section
/-! SUPPORT. Vector conversions (R94, R126 to R129): the generator's words for the elements, the integer clamps, the refusals, and the obligation on
them. -/

namespace Sys2Proof.Machine

/-! ### The generator over a register (R94) -/

theorem repeat_succ_step {α : Type} (f : α → α) (n : Nat) (x : α) : Nat.repeat f (n + 1) x = Nat.repeat f n (f x) := by
  induction n with
  | zero => rfl
  | succ n ih => exact congrArg f ih
theorem xsRun_snd (n : Nat) (x : Word) : (xsRun n x).2 = Nat.repeat xsStep n x := by
  induction n generalizing x with
  | zero => rfl
  | succ n ih => rw [repeat_succ_step]; exact ih (xsStep x)
theorem xsRun_fst (x : Word) {n i : Nat} (hi : i < n) : (xsRun n x).1[i]? = some ((Nat.repeat xsStep (i + 1) x).toNat / 2 ^ 32) := by
  induction n generalizing x i with
  | zero => exact absurd hi (Nat.not_lt_zero i)
  | succ n ih =>
    cases i with
    | zero => exact congrArg some (bits_high (xsStep x))
    | succ i => rw [repeat_succ_step]; exact ih (xsStep x) (Nat.lt_of_succ_lt_succ hi)
/-- A thread whose `seed` is `y`. -/
def Thread.reseed (y : Word) (t : Thread) : Thread := { t with ctl := { t.ctl with seed := y } }
/-- A state whose thread's `seed` is `y`. -/
def State.seeded (s : State) (y : Word) : State := s.updThr (Thread.reseed y)
/-- A write of active elements after a claim and a step of the generator. -/
theorem wroteVec_seeded {s u : State} (h : s.Placed) (hc : s.Claims u) {d : VCode} (hv : vOk d = true) {w n : Nat} (hn : n ≤ lanes w) (m : Nat)
    (k : Mask) (f : Nat → Fl) (y : Word) : WroteVec s u (((u.seeded y).vwrite d w n k f).goOn m) m d w n k f y := by
  have hu : u.Placed := show u.tid < 16 from hc.tid_eq ▸ h
  have hp : (s.seeded y).Placed := h
  have hst : (s.seeded y).thr = { s.thr with ctl := { s.thr.ctl with seed := y } } := thr_updThr s _ h
  have hut : (u.seeded y).thr = { u.thr with ctl := { u.thr.ctl with seed := y } } := thr_updThr u _ hu
  have hcur : ∀ x : State, (x.seeded y).cur = x.cur.updThr x.tid (Thread.reseed y) := fun x => cur_updThr x _
  have hwin : ∀ x : State, (x.seeded y).cur.windows = x.cur.windows := fun x => by rw [hcur]; rfl
  have hclaims : (s.seeded y).Claims (u.seeded y) := by
    constructor
    case package =>
      have e := congrArg (fun (x : State) => ({ x with cores := (s.seeded y).cores } : State)) hc.package
      exact e
    case cores =>
      intro c hne
      exact (coreAt_updThr_ne u _ (hc.core_eq ▸ hne)).trans ((hc.cores c hne).trans (coreAt_updThr_ne s _ hne).symm)
    case core =>
      have e := congrArg (fun (x : Core) => ({ x with threads := (s.cur.updThr s.tid (Thread.reseed y)).threads } : Core)) hc.core
      rw [hcur, hcur]
      exact e
    case vregs =>
      intro c
      rw [vget_congr (s := u) (by rw [hut]) (fun i => by rw [hwin]) c, hc.vregs,
        vget_congr (u := s.seeded y) (s := s) (by rw [hst]) (fun i => by rw [hwin]) c]
    case thread =>
      rw [hst, hut, hc.ctl_eq]
      exact congrArg (fun (x : Thread) => ({ x with ctl := { s.thr.ctl with seed := y } } : Thread)) hc.thread
    case pc => rw [hst, hut]; exact hc.pc
  obtain ⟨hpackage, hcores, helems, hothers, hstates, hholder, hcore, hthreads, hdone, hthread⟩ := wroteVec_vwrite hp hclaims hv hn m k f
  generalize ((u.seeded y).vwrite d w n k f).goOn m = t at *
  have hget : ∀ c, (s.seeded y).vget c = s.vget c := vget_congr (by rw [hst]) (fun i => by rw [hwin])
  constructor
  case package =>
    have e := congrArg (fun (x : State) => ({ x with cores := s.cores } : State)) hpackage
    exact e
  case cores => exact fun c hne => (hcores c hne).trans (coreAt_updThr_ne s _ hne)
  case elems => exact fun i hi => (helems i hi).trans (by rw [hget])
  case others => exact fun c hne => (hothers c hne).trans (hget c)
  case states => exact fun c => (hstates c).trans (by rw [hcur]; rfl)
  case holder => exact hholder.trans (by rw [hcur]; rfl)
  case core =>
    have e := congrArg (·.vectorPartsOf s.cur) hcore
    rw [hcur] at e
    exact e
  case threads => exact fun j hj => (hthreads j hj).trans ((onlyThread_updThr u _).threads j (hc.tid_eq ▸ hj))
  case done =>
    obtain ⟨hr, hpc, ht⟩ := hdone
    rw [hst] at hpc
    rw [hcur] at ht
    exact ⟨hr, hpc, ht⟩
  case thread =>
    rw [hst, Flagged, hst] at hthread
    exact hthread

/-! ### Conversions element by element (R126 to R129) -/

theorem isSr_iff (s : State) : s.fcw.isSr = true ↔ bits s.thr.ctl.fcw 5 3 = 5 := beq_iff_eq
theorem State.Claims.fcw_eq {s u : State} (h : s.Claims u) : u.fcw = s.fcw := by rw [State.fcw, h.ctl_eq]; rfl
theorem srWords_of_sr {s u : State} (hc : s.Claims u) (h : s.fcw.isSr = true) (w : Nat) :
    u.srWords true w = ((xsRun (lanes w) s.thr.ctl.seed).1, u.seeded (SeedAfter s (lanes w))) := by
  rw [State.srWords, hc.fcw_eq, h, SeedAfter, if_pos ((isSr_iff s).1 h), ← xsRun_snd, hc.ctl_eq]; rfl
theorem srWords_of_not {s u : State} (hc : s.Claims u) {steps : Bool} (h : (steps && s.fcw.isSr) = false) (w : Nat) :
    u.srWords steps w = ([], u) := by
  rw [State.srWords, hc.fcw_eq, h]; rfl
/-- The seed that an instruction leaves which steps the generator, if it does, over its destination. -/
def seedLeft (s : State) (steps : Bool) (n : Nat) : Word := if steps then SeedAfter s n else s.thr.ctl.seed
theorem seedLeft_of_not {s : State} {steps : Bool} (h : (steps && s.fcw.isSr) = false) (n : Nat) : seedLeft s steps n = s.thr.ctl.seed := by
  unfold seedLeft SeedAfter
  cases steps with
  | false => rfl
  | true => rw [if_pos rfl, if_neg (mt (isSr_iff s).2 (Bool.eq_false_iff.1 h))]
/-- A conversion of each element, `f` of the generator's word and the element's number, where only SR reads the word. -/
theorem wroteVec_of_convert {s : State} (h : s.Placed) {i : Instr} {reads : List VCode} {d : VCode} (hr : WinReady s reads [d]) (hv : vOk d = true)
    {w n : Nat} (hn : n ≤ lanes w) {k : Mask} {steps : Bool} {f : Nat → Nat → Fl} (hf : (steps && s.fcw.isSr) = false → ∀ r j, f r j = f 0 j)
    (he : exec i s = withWindows reads [d] none none s fun u =>
      ((u.srWords steps w).2.vwrite d w n k (fun j => f (((u.srWords steps w).1[j]?).getD 0) j)).next 8) :
    ∃ t, Completes i s t ∧ WroteVec s (s.claim reads [d]) t 8 d w n k (fun j => f (SrWord s j) j) (seedLeft s steps (lanes w)) := by
  have hc := claims_claim h reads [d]
  rw [withWindows_of_ready hr rfl rfl] at he
  cases hs : steps && s.fcw.isSr with
  | true =>
    obtain ⟨rfl, hsr⟩ := Bool.and_eq_true_iff.1 hs
    rw [srWords_of_sr hc hsr, vwrite_congr _ d (g := fun j => f (SrWord s j) j) fun j hj _ => ?_] at he
    · exact ⟨_, completes_of_next he, wroteVec_seeded h hc hv hn 8 k _ _⟩
    · rw [xsRun_fst _ (hj.trans_le hn)]; rfl
  | false =>
    rw [srWords_of_not hc hs] at he
    have hg := vwrite_congr (s.claim reads [d]) d (w := w) (n := n) (k := k) (f := f 0) (g := fun j => f (SrWord s j) j)
      fun j _ _ => (hf hs (SrWord s j) j).symm
    rw [seedLeft_of_not hs]
    exact ⟨_, completes_of_next (he.trans (congrArg (fun v : State => v.next 8) hg)), wroteVec_vwrite h hc hv hn 8 k _⟩

theorem crm_of_not_sr {c : Fcw} (h : c.isSr = false) (r : Nat) : c.crm r = c.crm 0 := by
  have h5 : c.crnd ≠ 5 := by simpa [Fcw.isSr] using h
  simp only [Fcw.crm, Rm.ofCode, if_neg h5]
theorem convert_of_not_sr {t u : ElemTy} {c : Fcw} (h : (convSteps t u && c.isSr) = false) (r x : Nat) : convert t u c r x = convert t u c 0 x := by
  cases hf : convSteps t u with
  | true =>
    rw [hf, Bool.true_and] at h
    unfold convert
    rw [crm_of_not_sr h r]
  | false =>
    obtain ⟨ht, hu⟩ := Bool.or_eq_false_iff.1 hf
    unfold convert
    rw [ht, hu]; rfl
theorem width_pos (t : ElemTy) : 0 < t.width := by cases t <;> decide
theorem min_lanes (t u : ElemTy) : min (lanes t.width) (lanes u.width) = 2048 / max t.width u.width := by
  rcases le_total t.width u.width with h | h
  · rw [max_eq_right h]
    exact min_eq_right (Nat.div_le_div_left h (width_pos t))
  · rw [max_eq_left h]
    exact min_eq_left (Nat.div_le_div_left h (width_pos u))
/-- VDEC and VENC go on while the decode table is valid, and trap while it is not (R100, R127). -/
theorem tableTrap_of_valid {s : State} (h : s.cur.dtab.getLsbD 0 = true) : s.tableTrap = none := trapIf_of_false (by rw [h]; rfl) ..
theorem tableTrap_of_invalid {s : State} (h : s.cur.dtab.getLsbD 0 = false) : s.tableTrap = some (operandInvalid, s.cur.dtab) :=
  trapIf_of_true (by rw [h]; rfl) ..
theorem vectorConvert : Rules.VectorConvert := by
  intro s t u d a b m h c k runs
  refine ⟨fun hwf hr => ?_, fun htab => ⟨fun hwf hr => ?_, fun hwf hr => ?_⟩, fun hwf hr => ?_, fun hwf hr => ?_⟩
  · have hv : (vcvtFits t u && vOk d && vOk a) = true := hwf
    rw [← min_lanes]
    exact wroteVec_of_convert h hr (vOk_of_wf2 hv) (min_le_left ..) (f := fun r i => convert t u c r (elem u.width (s.vget a) i))
      (fun hs r j => convert_of_not_sr hs r _) (rfl : exec _ s = execVcvt t u d a m s)
  · have hv : (vOk d && vOk a) = true := hwf
    exact vecRuns_of_withWindows h hr (Bool.and_eq_true_iff.1 hv).1 (tableTrap_of_valid htab) (by decide) (rfl : exec _ s = execVdec d a m s)
  · have hv : (t.isEnc && vOk d && vOk a) = true := hwf
    exact vecRuns_of_withWindows h hr (vOk_of_wf2 hv) (tableTrap_of_valid htab) (by decide) (rfl : exec _ s = execVenc t d a m s)
  · have hv : (t.isSb && vOk d && vOk a && vOk b) = true := hwf
    exact wroteVec_of_convert h hr (vOk_of_wf3 hv) (le_lanes t) (steps := true)
      (f := fun r i => quantise t (c.crm r) c.ftzo (elem 8 (s.vget b) (i / 32)) (readF .f32 c.ftzi (elem 32 (s.vget a) i)))
      (fun hs r j => by rw [show c.crm r = _ from crm_of_not_sr hs r]) (rfl : exec _ s = execVqnt t d a b m s)
  · have hv : (t.isSb && vOk d && vOk a && vOk b) = true := hwf
    exact wroteVec_of_convert h hr (vOk_of_wf3 hv) (w := 32) (by decide) (steps := true)
      (f := fun r i => dequantise .f32 t (c.crm r) c (elem 8 (s.vget b) (i / 32)) (elem t.width (s.vget a) i))
      (fun hs r j => by rw [show c.crm r = _ from crm_of_not_sr hs r]) (rfl : exec _ s = execVdqnt t d a b m s)

/-! ### Integer clamps (R126) -/

theorem natOfInt_eq_ofInt (w : Nat) (x : Int) : natOfInt w x = (BitVec.ofInt w x).toNat := by
  rw [BitVec.toNat_ofInt, natOfInt]; push_cast; rfl
theorem intOf_eq_toInt (w x : Nat) : intOf w x = (BitVec.ofNat w x).toInt := by
  unfold intOf
  rw [BitVec.toInt_eq_toNat_cond, BitVec.toNat_ofNat]
  cases w with
  | zero => simp [Nat.mod_one]
  | succ w =>
    rw [Nat.add_sub_cancel]
    have hp : 2 ^ (w + 1) = 2 * 2 ^ w := Nat.pow_succ'
    refine ite_congr (propext ⟨fun h => by omega, fun h => by omega⟩) (fun _ => rfl) fun _ => ?_
    push_cast; rfl
theorem integerConversions : Rules.IntegerConversions := by
  intro t u c r x ht hu _ _ n v lo hi
  have hv : unpackI u x = v := by
    show (if u.isSigned then _ else _) = (if u.isSigned then _ else _)
    refine ite_congr rfl (fun _ => intOf_eq_toInt ..) fun _ => ?_
    push_cast; rfl
  have he : convert t u c r x = clampInt t v 0 := by
    rw [convert, hu, ht, hv]; rfl
  rw [he, clampInt, ← natOfInt_eq_ofInt, ← natOfInt_eq_ofInt, ← natOfInt_eq_ofInt]; rfl

/-! ### Refusals (R100, R127, R131, R135) -/

theorem tableInvalid : Rules.TableInvalid := by
  intro s t d a m hb h
  constructor
  · show execVdec d a m s = _
    unfold execVdec
    exact withWindows_of_late rfl hb (tableTrap_of_invalid h)
  · show execVenc t d a m s = _
    unfold execVenc
    exact withWindows_of_late rfl hb (tableTrap_of_invalid h)
theorem elementTraps : Rules.ElementTraps := by
  intro s ty d a g h m hj
  have ht : trapIf (decide (lanes ty.width ≤ (s.rd h).toNat)) operandInvalid (s.rd h) = some (operandInvalid, s.rd h) :=
    trapIf_of_true (decide_eq_true hj) ..
  refine ⟨fun hb => ?_, fun hb => ?_, fun hb => ?_⟩
  · show execVbcast ty d a h m s = _
    unfold execVbcast
    exact withWindows_of_late rfl hb ht
  · show execVins ty d g h s = _
    unfold execVins
    exact withWindows_of_late rfl hb ht
  · show execVext ty g a h s = _
    unfold execVext
    exact withWindows_of_late rfl hb ht

/-- Settles O13: one lemma for a conversion of each element, with and without the generator; the clamps and the refusals case by case. -/
theorem vectorConversions : Obligations.VectorConversions := ⟨vectorConvert, integerConversions, tableInvalid, elementTraps⟩

end Sys2Proof.Machine
end

section
/-! SUPPORT. Reductions and the scan (R132, R133): a write of the low bits of a register, the pairwise tree of integer sums, and the obligation on
them. -/

namespace Sys2Proof.Machine

/-! ### A write of the low bits (R132) -/

/-- A register is its elements. -/
theorem eq_of_elem_eq {w : Nat} (hw : w * lanes w = 2048) {x y : VReg} (h : ∀ i, i < lanes w → elem w x i = elem w y i) : x = y := by
  have hpos : 0 < w := Nat.pos_of_ne_zero fun e => by rw [e, Nat.zero_mul] at hw; cases hw
  refine BitVec.eq_of_getLsbD_eq fun j hj => ?_
  have hb := congrArg (·.testBit (j % w)) (h (j / w) (by rw [Nat.div_lt_iff_lt_mul hpos, Nat.mul_comm, hw]; exact hj))
  simp only [elem, Nat.testBit_mod_two_pow, Nat.testBit_shiftRight, Nat.div_add_mod, decide_eq_true (Nat.mod_lt j hpos), Bool.true_and] at hb
  exact hb
theorem elem_setLow (old : VReg) {w i : Nat} (hi : w * (i + 1) ≤ 2048) (x : Nat) :
    elem w (setLow old w x) i = if i = 0 then x % 2 ^ w else elem w old i := by
  have hp := Nat.two_pow_pos w
  rw [setLow, elem_ofNat hi, Nat.add_comm, Nat.mul_comm]
  cases i with
  | zero => rw [if_pos rfl, Nat.mul_zero, Nat.pow_zero, Nat.div_one, Nat.add_mul_mod_self_left, Nat.mod_mod]
  | succ i =>
    rw [if_neg (Nat.succ_ne_zero i), elem, Nat.shiftRight_eq_div_pow, Nat.mul_succ, Nat.add_comm (w * i), Nat.pow_add, ← Nat.div_div_eq_div_mul,
      ← Nat.div_div_eq_div_mul, Nat.add_mul_div_left _ _ hp, Nat.div_eq_of_lt (Nat.mod_lt x hp), Nat.zero_add]
theorem setLow_eq {w : Nat} (hw : w * lanes w = 2048) (old : VReg) (r : Fl) :
    setLow old w r.x = writtenVec old w 1 (BitVec.allOnes 256) (fun _ => r) := by
  have hl : 1 ≤ lanes w := Nat.one_le_iff_ne_zero.2 fun e => by rw [e, Nat.mul_zero] at hw; cases hw
  refine eq_of_elem_eq hw fun i hi => ?_
  rw [elem_writtenVec old hl _ _ hi, elem_setLow old (hw ▸ Nat.mul_le_mul_left w hi)]
  refine ite_congr (propext ⟨?_, fun h => by omega⟩) (fun _ => rfl) fun _ => rfl
  rintro rfl
  exact ⟨Nat.zero_lt_one, by rw [active, Nat.mul_zero]; decide⟩
theorem activeFlags_one (w : Nat) (r : Fl) : ActiveFlags w 1 (BitVec.allOnes 256) (fun _ => r) = r.fl := by
  have ha : active (BitVec.allOnes 256) w 0 = true := by rw [active, Nat.mul_zero]; decide
  show (if active _ w 0 then (0 : Flags) ||| r.fl else 0) = r.fl
  rw [if_pos ha]
  exact BitVec.zero_or
/-- A reduction writes one element of the width of its result. -/
theorem reduceTo_eq {w : Nat} (hw : w * lanes w = 2048) (d : VCode) (r : Fl) (u : State) :
    reduceTo d w r u = (u.vwrite d w 1 (BitVec.allOnes 256) (fun _ => r)).next 12 := by
  rw [reduceTo, vwrite_eq, setLow_eq hw, activeFlags_one]
theorem width_mul_lanes (t : ElemTy) : t.width * lanes t.width = 2048 := by cases t <;> rfl
theorem vecRuns_of_reduceTo {s : State} (h : s.Placed) {i : Instr} {d a : VCode} (hr : WinReady s [a] [d]) (hd : vOk d = true) {w : Nat}
    (hw : w * lanes w = 2048) {r : Fl} (he : exec i s = withWindows [a] [d] none none s (reduceTo d w r)) :
    VecRuns i s [a] 12 d w 1 (BitVec.allOnes 256) (fun _ => r) := by
  have hl : 1 ≤ lanes w := Nat.one_le_iff_ne_zero.2 fun e => by rw [e, Nat.mul_zero] at hw; cases hw
  rw [show reduceTo d w r = _ from funext (reduceTo_eq hw d r)] at he
  exact vecRuns_of_withWindows h hr hd rfl hl he

/-! ### Integer sums (R132) -/

/-- The sum of the inputs that are present. -/
def total (l : List (Option Fl)) : Nat := (l.map (fun o => o.elim 0 Fl.x)).sum
/-- Inputs of 64 bits without flags. -/
def Words (l : List (Option Fl)) : Prop := ∀ r, some r ∈ l → r.fl = 0 ∧ r.x < 2 ^ 64
/-- The node of an integer sum. -/
def addWords (p q : Nat) : Fl := plain ((p + q) % 2 ^ 64)
theorem words_node {a b : Option Fl} {l : List (Option Fl)} (h : Words (a :: b :: l)) {r : Fl} (hr : some r = node addWords a b) :
    r.fl = 0 ∧ r.x < 2 ^ 64 := by
  cases a with
  | none =>
    cases b with
    | none => cases hr
    | some y => exact h r (hr ▸ List.mem_cons_of_mem _ (List.mem_cons_self ..))
  | some x =>
    cases b with
    | none => exact h r (hr ▸ List.mem_cons_self ..)
    | some y =>
      obtain rfl := Option.some.inj hr
      have hx := (h x (List.mem_cons_self ..)).1
      have hy := (h y (List.mem_cons_of_mem _ (List.mem_cons_self ..))).1
      refine ⟨?_, Nat.mod_lt _ (Nat.two_pow_pos 64)⟩
      show (0 : Flags) ||| (x.fl ||| y.fl) = 0
      rw [hx, hy]; rfl
theorem total_node (a b : Option Fl) : (node addWords a b).elim 0 Fl.x % 2 ^ 64 = (a.elim 0 Fl.x + b.elim 0 Fl.x) % 2 ^ 64 := by
  cases a with
  | none =>
    show b.elim 0 Fl.x % 2 ^ 64 = (0 + b.elim 0 Fl.x) % 2 ^ 64
    rw [Nat.zero_add]
  | some x =>
    cases b with
    | none => rfl
    | some y => exact Nat.mod_mod _ _
theorem total_cons (o : Option Fl) (l : List (Option Fl)) : total (o :: l) = o.elim 0 Fl.x + total l := by
  rw [total, List.map_cons, List.sum_cons]; rfl
theorem treeLevel_addWords (l : List (Option Fl)) (h : Words l) : Words (treeLevel addWords l) ∧
    total (treeLevel addWords l) % 2 ^ 64 = total l % 2 ^ 64 ∧ (treeLevel addWords l).length = (l.length + 1) / 2 := by
  induction l using treeLevel.induct with
  | case1 a b l ih =>
    obtain ⟨h1, h2, h3⟩ := ih fun r hr => h r (List.mem_cons_of_mem _ (List.mem_cons_of_mem _ hr))
    rw [treeLevel]
    refine ⟨fun r hr => ?_, ?_, by rw [List.length_cons, h3]; simp only [List.length_cons]; omega⟩
    · rcases List.mem_cons.1 hr with hr | hr
      · exact words_node h hr
      · exact h1 r hr
    · have hn := total_node a b
      rw [total_cons, total_cons a, total_cons b]
      omega
  | case2 l hl =>
    match l, hl with
    | [], _ => exact ⟨h, rfl, rfl⟩
    | [_], _ => exact ⟨h, rfl, by simp [treeLevel]⟩
    | a :: b :: l, hl => exact (hl a b l rfl).elim
theorem tree_addWords {n : Nat} {l : List (Option Fl)} (h : Words l) (hn : l.length ≤ 2 ^ n) :
    (tree addWords n l).getD ⟨0, 0⟩ = ⟨total l % 2 ^ 64, 0⟩ := by
  induction n generalizing l with
  | zero =>
    cases l with
    | nil => rfl
    | cons o l =>
      obtain rfl : l = [] := List.length_eq_zero_iff.1 (by simpa using hn)
      cases o with
      | none => rfl
      | some r =>
        obtain ⟨h1, h2⟩ := h r (List.mem_cons_self ..)
        show r = ⟨(r.x + 0) % 2 ^ 64, 0⟩
        rw [Nat.add_zero, Nat.mod_eq_of_lt h2, ← h1]
  | succ n ih =>
    obtain ⟨h1, h2, h3⟩ := treeLevel_addWords l h
    rw [tree, ih h1 (by rw [h3]; rw [Nat.pow_succ] at hn; omega), h2]
/-- The elements that an integer sum takes in, each as its low 64 bits. -/
def wordInputs (t : ElemTy) (m : Mask) (x : VReg) (l : List Nat) : List (Option Fl) :=
  l.map (fun i => if active m t.width i then some (plain (natOfInt 64 (unpackI t (elem t.width x i)))) else none)
/-- The integers that it takes in. -/
def intInputs (t : ElemTy) (m : Mask) (x : VReg) (l : List Nat) : List Int :=
  l.filterMap (fun i => if active m t.width i then some (unpackI t (elem t.width x i)) else none)
theorem natOfInt_lt (w : Nat) (x : Int) : natOfInt w x < 2 ^ w := by
  have h := Int.emod_lt_of_pos x (show (0 : Int) < 2 ^ w by positivity)
  have h0 := Int.emod_nonneg x (show (2 : Int) ^ w ≠ 0 by positivity)
  have hc : (2 : Int) ^ w = (2 ^ w : Nat) := by push_cast; rfl
  rw [natOfInt]
  omega
theorem natOfInt_add (x y : Int) : natOfInt 64 (x + y) = (natOfInt 64 x + natOfInt 64 y) % 2 ^ 64 := by
  simp only [natOfInt]
  omega
theorem words_wordInputs (t : ElemTy) (m : Mask) (x : VReg) (l : List Nat) : Words (wordInputs t m x l) := by
  intro r hr
  obtain ⟨i, -, hi⟩ := List.mem_map.1 hr
  split at hi
  · obtain rfl := Option.some.inj hi
    exact ⟨rfl, natOfInt_lt ..⟩
  · cases hi
theorem total_wordInputs (t : ElemTy) (m : Mask) (x : VReg) (l : List Nat) :
    total (wordInputs t m x l) % 2 ^ 64 = natOfInt 64 (intInputs t m x l).sum := by
  induction l with
  | nil => rfl
  | cons i l ih =>
    rw [wordInputs, List.map_cons, total_cons, ← wordInputs, intInputs, List.filterMap_cons]
    cases active m t.width i with
    | false => exact (congrArg (· % 2 ^ 64) (Nat.zero_add _)).trans ih
    | true =>
      have hs : natOfInt 64 (unpackI t (elem t.width x i) + (intInputs t m x l).sum) = _ := natOfInt_add ..
      show (natOfInt 64 (unpackI t (elem t.width x i)) + total (wordInputs t m x l)) % 2 ^ 64 = natOfInt 64 (List.sum (_ :: intInputs t m x l))
      rw [List.sum_cons, hs, ← ih, Nat.add_mod_mod]

/-! ### What the reductions read -/

theorem readElem_eq (t : ElemTy) (c : Fcw) (y : Nat) : readElem t c y =
    if t.isF then ⟨AsRead t c.ftzi y, if (unpackF t y).isSnan then flInvalid else 0⟩ else ⟨y, 0⟩ := by
  by_cases ht : t.isF = true
  · have hs : snanFlag [unpackF t y] = if (unpackF t y).isSnan then flInvalid else 0 := by
      rw [snanFlag, List.any_cons, List.any_nil, Bool.or_false]; rfl
    rw [readElem, if_pos ht, if_pos ht, asRead_eq ht, hs]
  · rw [readElem, if_neg ht, if_neg ht]; rfl
theorem lanes_le {t : ElemTy} (ht : t.isFJ = true) : lanes t.width ≤ 2 ^ 8 := by
  cases t with
  | f32 | bf16 | f16 | i32 | i16 | i8 | n32 | n16 | n8 => decide
  | e4m3 | e5m2 | e2m1 | i4 | n4 | c8 | wf19 => cases ht

/-- Settles O10: each reduction writes one element, and the tree of an integer sum adds modulo 2^64. -/
theorem reductions : Obligations.Reductions := by
  intro s ty d a m h hwf hr c w x read low
  have hv : (ty.isFJ && vOk d && vOk a) = true := hwf
  have hd := vOk_of_wf2 hv
  have hread : readElem ty c = read := funext (readElem_eq ty c)
  rw [← hread]
  refine ⟨fun hf => ?_, fun hf => ?_, fun max => ?_, ?_⟩
  · refine vecRuns_of_reduceTo h hr hd rfl (r := canonical .f32 _) ?_
    show execVredsum ty d a m s = _
    unfold execVredsum
    simp only [hf, if_true]; rfl
  · have hs := tree_addWords (n := 8) (words_wordInputs ty (s.mask m) (s.vget a) (List.range (lanes w)))
      (by rw [wordInputs, List.length_map, List.length_range]; exact lanes_le (Bool.and_eq_true_iff.1 (Bool.and_eq_true_iff.1 hv).1).1)
    rw [total_wordInputs] at hs
    refine vecRuns_of_reduceTo h hr hd rfl (r := ⟨natOfInt 64 _, 0⟩) ?_
    show execVredsum ty d a m s = _
    unfold execVredsum
    simp only [hf, Bool.false_eq_true, if_false]
    exact congrArg (fun r => withWindows [a] [d] none none s (reduceTo d 64 r)) hs
  · cases max
    · exact vecRuns_of_reduceTo h hr hd (width_mul_lanes ty) (rfl : exec _ s = execVredmin ty d a m s)
    · exact vecRuns_of_reduceTo h hr hd (width_mul_lanes ty) (rfl : exec _ s = execVredmax ty d a m s)
  · exact vecRuns_of_withWindows h hr hd rfl le_rfl (rfl : exec _ s = execVscan ty d a m s)

end Sys2Proof.Machine
end
